-- ==== Sys2Proof/Word.lean ====
section
/-! DEFINITION. The word types of the machine: a 64-bit register word, a byte, a 512-bit vector register, a 1024-bit
handle record (R51, R52, R238). -/
namespace Sys2Proof

/-- A 64-bit word: an x register, an instruction word, a virtual address (R51, R97). -/
abbrev Word := BitVec 64

/-- One byte of memory. -/
abbrev Byte := BitVec 8

/-- The 64 bytes of a v register (R284). -/
abbrev VWord := BitVec 512

/-- The 128 bytes of a handle record (R238). -/
abbrev HWord := BitVec 1024

end Sys2Proof
end

