-- ==== Sys2Proof/Syntax.lean ====
section
/-! DEFINITION. The operations of the device: one constructor of `Instr` for every row of the opcode table. The first
group are executed words (R65, and the `putsr` words the table lists by register); the second group are the device's own
steps and the inputs from outside, which no word encodes. -/
namespace Sys2Proof

abbrev XReg := BitVec 5
abbrev VReg := BitVec 5
abbrev PReg := BitVec 3
abbrev HReg := BitVec 4
abbrev TileIx := BitVec 8
abbrev LitIx := BitVec 4
abbrev BarIx := BitVec 4

/-- Element types, the TYPE codes 0x0 to 0xD of R62 (`bytes` is code 0, no type). -/
inductive ElemType where
  | bytes | i8 | u8 | i16 | u16 | i32 | u32 | i64 | fp32 | fp16 | bf16 | e4m3 | e5m2 | lg6
  deriving DecidableEq, Repr

/-- FTYPE of the scalar floating-point instructions (R62). -/
inductive FpFmt where
  | fp32 | fp16 | bf16
  deriving DecidableEq, Repr

/-- RND of R63; `mode` is code 0, FPMODE applies. -/
inductive RndSel where
  | mode | rne | rz | ru | rd | rna
  deriving DecidableEq, Repr

/-- REL of R63. -/
inductive Rel where
  | eq | ne | lt | le | gt | ge | un
  deriving DecidableEq, Repr

/-- SIZE of R63: 1, 2, 4 or 8 bytes. -/
inductive Size where
  | b | h | w | d
  deriving DecidableEq, Repr

/-- The memory hint of R63. -/
inductive Hint where
  | none | nt | ev | keep
  deriving DecidableEq, Repr

/-- SCOPE of R63. -/
inductive Scope where
  | ts | core | clu | pack | die | dev | sys
  deriving DecidableEq, Repr

/-- COND of OP 0x30 (R57). -/
inductive Cond where
  | eq | ne | lt | ge | ltu | geu | al
  deriving DecidableEq, Repr

/-- HINT of a branch (R57). -/
inductive BrHint where
  | none | t | nt
  deriving DecidableEq, Repr

/-- The `plog` operation field (R64). -/
inductive PlogOp where
  | and | or | xor | andn | not
  deriving DecidableEq, Repr

/-- FMT of a `send` and PAIR of a copy (R202). -/
inductive Fmt where
  | none | f32bf16 | f32e4m3 | bf16e4m3 | f32f16 | i32i8
  deriving DecidableEq, Repr

/-- The B operand of OP 0x01, 0x04 and 0x20 (R54): a register or a constant-window word. -/
inductive BSrc where
  | reg (b : XReg)
  | cw (win : BitVec 3) (off : BitVec 17)
  deriving DecidableEq, Repr

/-- A tile operand (R59, R254): an entry, or a litter with its sequence register. -/
inductive TileOpd where
  | tile (n : TileIx)
  | lit (l : LitIx) (x : XReg)
  deriving DecidableEq, Repr

/-- The target of a deposit (R361). -/
inductive DepTarget where
  | xreg (n : XReg)
  | vlane (n : VReg) (lane : BitVec 3)
  | vall (n : VReg)
  | fpmode
  deriving DecidableEq, Repr

/-- The system registers of R115, R373, R395 and R412. -/
inductive SysReg where
  | tstat | tcause | tpc | tval | fpmode | fpflags | spillsp | spillbase | spilllim | waitlim
  | actid | runid | rank | nrank | core | cluster | cluflags | packflags | lsplit | vgroup
  | hashmask (n : BitVec 4) | bktidx | bktdata | fwsel | fwin (n : BitVec 4) | afr
  | feat (n : BitVec 2) | accept (n : BitVec 2) | active (n : BitVec 2) | fwcommit
  | ptroot | fqhead | fqtail | fresp | diectl | therm
  deriving DecidableEq, Repr

/-- add and sub in the register and constant-window forms, with `.sat` (R98, R100). -/
structure ArithRR where
  d : XReg
  a : XReg
  b : BSrc
  w32 : Bool
  sat : Bool
  deriving DecidableEq, Repr

/-- The other forms of OP 0x01 and OP 0x04 (R98, R99, R102). -/
structure ScalarRR where
  d : XReg
  a : XReg
  b : BSrc
  w32 : Bool
  deriving DecidableEq, Repr

/-- The immediate forms of OP 0x02 (R98). -/
structure ScalarRI where
  d : XReg
  a : XReg
  imm : BitVec 32
  w32 : Bool
  deriving DecidableEq, Repr

/-- The immediate shifts of OP 0x02 (R99). -/
structure ShiftRI where
  d : XReg
  a : XReg
  n : BitVec 6
  w32 : Bool
  deriving DecidableEq, Repr

/-- clz, ctz, popc, bswap (R101). -/
structure UnaryRR where
  d : XReg
  a : XReg
  w32 : Bool
  deriving DecidableEq, Repr

/-- bfx and bfi (R103). -/
structure BFieldRI where
  d : XReg
  a : XReg
  lsb : BitVec 6
  lenm1 : BitVec 6
  deriving DecidableEq, Repr

/-- fadd, fsub, fmul, fdiv (R106). -/
structure FpBin where
  d : XReg
  a : XReg
  b : BSrc
  fmt : FpFmt
  rnd : RndSel
  deriving DecidableEq, Repr

/-- fmin, fmax (R107). -/
structure FpMinMax where
  d : XReg
  a : XReg
  b : BSrc
  fmt : FpFmt
  deriving DecidableEq, Repr

/-- ffma (R106). -/
structure FpFma where
  d : XReg
  a : XReg
  b : BSrc
  c : XReg
  fmt : FpFmt
  rnd : RndSel
  deriving DecidableEq, Repr

/-- fcvt (R110). -/
structure FpCvt where
  d : XReg
  a : XReg
  dst : ElemType
  src : ElemType
  rnd : RndSel
  deriving DecidableEq, Repr

/-- A three-register vector form (R285). -/
structure VBin where
  d : VReg
  a : VReg
  b : VReg
  p : PReg
  ty : ElemType
  fd : Bool
  fa : Bool
  fb : Bool
  deriving DecidableEq, Repr

/-- vadd and vsub with `.sat`. -/
structure VBinSat where
  d : VReg
  a : VReg
  b : VReg
  p : PReg
  ty : ElemType
  sat : Bool
  fd : Bool
  fa : Bool
  fb : Bool
  deriving DecidableEq, Repr

/-- A one-source vector form. -/
structure VUn where
  d : VReg
  a : VReg
  p : PReg
  ty : ElemType
  fd : Bool
  fa : Bool
  deriving DecidableEq, Repr

/-- vabs with `.sat`. -/
structure VUnSat where
  d : VReg
  a : VReg
  p : PReg
  ty : ElemType
  sat : Bool
  fd : Bool
  fa : Bool
  deriving DecidableEq, Repr

/-- vfadd, vfsub, vfmul, vffma. -/
structure VFBin where
  d : VReg
  a : VReg
  b : VReg
  p : PReg
  ty : ElemType
  rnd : RndSel
  fd : Bool
  fa : Bool
  fb : Bool
  deriving DecidableEq, Repr

/-- vcmp and vfcmp (R291). -/
structure VCmp where
  d : PReg
  a : VReg
  b : VReg
  p : PReg
  ty : ElemType
  rel : Rel
  fa : Bool
  fb : Bool
  deriving DecidableEq, Repr

/-- vsel and vperm (R292). -/
structure VByteSel where
  d : VReg
  a : VReg
  b : VReg
  p : PReg
  fd : Bool
  fa : Bool
  fb : Bool
  deriving DecidableEq, Repr

/-- vcvt (R295). -/
structure VCvt where
  d : VReg
  a : VReg
  p : PReg
  dst : ElemType
  src : ElemType
  rnd : RndSel
  sat : Bool
  fd : Bool
  fa : Bool
  deriving DecidableEq, Repr

/-- vdot (R296). -/
structure VDot where
  d : VReg
  a : VReg
  b : VReg
  p : PReg
  ty : ElemType
  st : ElemType
  rnd : RndSel
  sat : Bool
  fd : Bool
  fa : Bool
  fb : Bool
  deriving DecidableEq, Repr

/-- vred (R297); D is an x register. -/
structure VRed where
  d : XReg
  a : VReg
  p : PReg
  ty : ElemType
  rnd : RndSel
  sat : Bool
  fa : Bool
  deriving DecidableEq, Repr

/-- vscan (R298). -/
structure VScan where
  d : VReg
  a : VReg
  p : PReg
  ty : ElemType
  rnd : RndSel
  sat : Bool
  fd : Bool
  fa : Bool
  deriving DecidableEq, Repr

/-- vsplat (R294). -/
structure VSplat where
  d : VReg
  a : XReg
  p : PReg
  ty : ElemType
  fd : Bool
  deriving DecidableEq, Repr

/-- ld (R204). -/
structure LoadOp where
  d : XReg
  a : XReg
  b : XReg
  e : BitVec 20
  size : Size
  sx : Bool
  hint : Hint
  deriving DecidableEq, Repr

/-- st (R204). -/
structure StoreOp where
  d : XReg
  a : XReg
  b : XReg
  e : BitVec 20
  size : Size
  hint : Hint
  deriving DecidableEq, Repr

/-- vld and vst (R207). -/
structure VMemOp where
  d : VReg
  a : XReg
  b : XReg
  e : BitVec 20
  p : PReg
  hint : Hint
  fd : Bool
  deriving DecidableEq, Repr

/-- vgat and vsca (R207); B is a v register. -/
structure VGatherOp where
  d : VReg
  a : XReg
  b : VReg
  e : BitVec 20
  p : PReg
  size : Size
  hint : Hint
  fd : Bool
  fb : Bool
  deriving DecidableEq, Repr

/-- pref (R213). -/
structure PrefOp where
  a : XReg
  b : XReg
  e : BitVec 20
  hint : Hint
  deriving DecidableEq, Repr

/-- amo (R355); `dbl` is SIZE 3. -/
structure AmoOp where
  d : XReg
  a : XReg
  b : XReg
  e : BitVec 20
  dbl : Bool
  deriving DecidableEq, Repr

/-- send (R333): `pay = none` is B = 0. -/
structure SendOp where
  a : XReg
  pay : Option VReg
  c : XReg
  len : BitVec 7
  fmt : Fmt
  deriving DecidableEq, Repr

/-- vldh and vsth (R248). -/
structure VHandleOp where
  d : VReg
  a : HReg
  b : XReg
  p : PReg
  fd : Bool
  deriving DecidableEq, Repr

/-- mmat and mmam (R311). -/
structure MatOp where
  a : TileOpd
  b : TileOpd
  ty : ElemType
  sa : Bool
  sb : Bool
  ts : Bool
  sat : Bool
  o3 : TileIx
  d : XReg
  deriving DecidableEq, Repr

/-- A thread set: cluster node number (R193), logical core 0 to 15, set 0 to 3 for T0 to T3 and 4 for H (R118).
A firmware core is named by `TsId.firmware`. -/
structure TsId where
  cluster : Nat
  core : Nat
  set : Nat
  deriving DecidableEq, Repr

/-- The cluster number under which the hub's firmware cores are kept; no mesh node has it. -/
def fwNode : Nat := 65536

/-- Firmware core n (1 to 16), or the root core (0) (R397). -/
def TsId.firmware (n : Nat) : TsId := ⟨fwNode, n, 0⟩

/-- An activation or a handler of a run: the run's number in this device, the ACTID (R35, R337) and the twin (R390). -/
structure ActKey where
  run : Nat
  actid : Word
  twin : Nat
  deriving DecidableEq, Repr

/-- A location that an ECC failure can hit (R386, R388): a 64-byte sector; local scratch; a buffer row; an entry of a core's,
an engine's (copy, fill, drain, relayout) or a cluster's second TLB; a 64-byte line of a constant window in a cluster's
constant cache; an entry of the tile table; a resident tile of a kennel; the registers of a thread set. -/
inductive EccLoc where
  | sector (pa : Nat)
  | scratch (cluster core off : Nat)
  | privLine (cluster core line : Nat) (sector : BitVec 2)
  | buffer (cluster : Nat) (buf : BitVec 2) (row : Nat)
  | tlb (cluster core entry : Nat)
  | engineTlb (cluster : Nat) (pipe : BitVec 2) (entry : Nat)
  | l2tlb (cluster entry : Nat)
  | constant (cluster : Nat) (window : BitVec 3) (line : Nat)
  | tileEntry (cluster : Nat) (n : TileIx)
  | kennel (cluster slot : Nat)
  | registers (t : TsId)
  deriving DecidableEq, Repr

/-- A physical unit of the inventory (R407): its kind code and its physical number. -/
structure UnitId where
  kind : Nat
  phys : Nat
  deriving DecidableEq, Repr

/-- What an input from outside carries (R322, R341, R352, R386 to R397, R406, R409, R412). -/
inductive Input where
  | none
  | doorbell (vf q : Nat) (addr : Word)
  | readDoorbell (vf q : Nat)
  | accept (n : BitVec 2) (v : Word)
  | cxlMem (pa len : Nat) (write : Option (List Byte))
  | snoop (pa len : Nat) (v : Word)
  | spdm (index : Nat)
  | peer (port pa len : Nat) (write : Option (List Byte))
  | unit (u : UnitId)
  | retrained (u : UnitId) (ok : Bool)
  | temp (die : BitVec 2) (t : Byte)
  | warmReset (ok : Bool)
  | ecc (l : EccLoc)
  | clauseEcc (cluster : Nat) (arbiter : Bool)
  | bufferRow (cluster : Nat) (loc : Option (BitVec 2 × Nat))
  | cluster (c : Nat)
  | die (d : BitVec 2)
  | tests (steps : List Nat) (units : List UnitId)
  deriving DecidableEq, Repr

/-- One operation of the device: a row of the opcode table. -/
inductive Instr where
  -- scalar integer (05)
  | add (o : ArithRR) | addImm (o : ScalarRI) | sub (o : ArithRR) | subImm (o : ScalarRI)
  | and (o : ScalarRR) | andImm (o : ScalarRI) | or (o : ScalarRR) | orImm (o : ScalarRI)
  | xor (o : ScalarRR) | xorImm (o : ScalarRI) | andn (o : ScalarRR) | andnImm (o : ScalarRI)
  | orn (o : ScalarRR) | ornImm (o : ScalarRI)
  | shl (o : ScalarRR) | shlImm (o : ShiftRI) | shr (o : ScalarRR) | shrImm (o : ShiftRI)
  | sar (o : ScalarRR) | sarImm (o : ShiftRI) | rol (o : ScalarRR) | rolImm (o : ShiftRI)
  | min (o : ScalarRR) | minImm (o : ScalarRI) | max (o : ScalarRR) | maxImm (o : ScalarRI)
  | minu (o : ScalarRR) | minuImm (o : ScalarRI) | maxu (o : ScalarRR) | maxuImm (o : ScalarRI)
  | slt (o : ScalarRR) | sltImm (o : ScalarRI) | sltu (o : ScalarRR) | sltuImm (o : ScalarRI)
  | seq (o : ScalarRR) | seqImm (o : ScalarRI) | sne (o : ScalarRR) | sneImm (o : ScalarRI)
  | sel (d a b c : XReg) | clz (o : UnaryRR) | ctz (o : UnaryRR) | popc (o : UnaryRR) | bswap (o : UnaryRR)
  | mul (o : ScalarRR) | mulh (o : ScalarRR) | mulhu (o : ScalarRR)
  | div (o : ScalarRR) | divu (o : ScalarRR) | rem (o : ScalarRR) | remu (o : ScalarRR)
  | bfx (o : BFieldRI) (sx : Bool) | bfi (o : BFieldRI) | li (d : XReg) (imm : BitVec 32) | lih (d : XReg) (imm : BitVec 32)
  -- scalar floating point (05)
  | fadd (o : FpBin) | fsub (o : FpBin) | fmul (o : FpBin) | fdiv (o : FpBin)
  | fmin (o : FpMinMax) | fmax (o : FpMinMax) | fsqrt (d a : XReg) (fmt : FpFmt) (rnd : RndSel) | ffma (o : FpFma)
  | fcmp (d a b : XReg) (fmt : FpFmt) (rel : Rel) | fclass (d a : XReg) (fmt : FpFmt)
  | fcvt (o : FpCvt) | fmv (d a : XReg) (fmt : FpFmt)
  -- control (05)
  | bCond (c : Cond) (a b : XReg) (h : BrHint) (off : BitVec 32)
  | call (a : XReg) (h : BrHint) (off : BitVec 32) | loop (a : XReg) (h : BrHint) (off : BitVec 32)
  | callr (d a : XReg) | jr (a : XReg) | ret (a : XReg)
  -- vector and predicate (18)
  | vadd (o : VBinSat) | vsub (o : VBinSat) | vmul (o : VBin) | vmulh (o : VBin) | vmin (o : VBin) | vmax (o : VBin)
  | vabs (o : VUnSat) | vand (o : VBin) | vor (o : VBin) | vxor (o : VBin) | vandn (o : VBin)
  | vshl (o : VBin) | vshr (o : VBin) | vsar (o : VBin)
  | vfadd (o : VFBin) | vfsub (o : VFBin) | vfmul (o : VFBin) | vffma (o : VFBin)
  | vfmin (o : VBin) | vfmax (o : VBin) | vfabs (o : VUn) | vfneg (o : VUn)
  | vexp2 (o : VUn) | vrcp (o : VUn) | vrsq (o : VUn) | vcmp (o : VCmp) | vfcmp (o : VCmp)
  | vsel (o : VByteSel) | vperm (o : VByteSel) | vlut (o : VBin) | vsplat (o : VSplat)
  | vins (d : VReg) (a : XReg) (ty : ElemType) (lane : BitVec 6) | vext (d : XReg) (a : VReg) (ty : ElemType) (lane : BitVec 6)
  | vcvt (o : VCvt) | vdot (o : VDot) | vred (o : VRed) | vscan (o : VScan)
  | plog (op : PlogOp) (d a b : PReg) | pcnt (d : XReg) (a : PReg) (ty : ElemType)
  | rep (nm1 : BitVec 8) (lm1 : BitVec 3) (stride : BitVec 5)
  -- memory (12)
  | ld (o : LoadOp) | st (o : StoreOp) | vld (o : VMemOp) | vst (o : VMemOp) | vgat (o : VGatherOp) | vsca (o : VGatherOp)
  | ldk (d : XReg) (win : BitVec 3) (off : BitVec 17) (size : Size) (sx : Bool)
  | pushm (bank : Bool) (a b : BitVec 5) | popm (bank : Bool) (a b : BitVec 5)
  | pref (o : PrefOp) | cflush (a b : XReg) (e : BitVec 20)
  -- atomics and messages (21, 23)
  | amoAdd (o : AmoOp) | amoMin (o : AmoOp) | amoMax (o : AmoOp) | amoMinu (o : AmoOp) | amoMaxu (o : AmoOp)
  | amoAnd (o : AmoOp) | amoOr (o : AmoOp) | amoXor (o : AmoOp) | amoSwap (o : AmoOp) | amoCas (o : AmoOp)
  | amoFadd (o : AmoOp)
  | send (o : SendOp) | recv (d : XReg) (b : VReg) | sqstat (d : XReg) | dep (a b : XReg) (t : DepTarget)
  -- waits, fences, barriers, copies (09, 12)
  | wait (ld st cp tl ms : BitVec 6) | fence (sc : Scope)
  | bexp (n : BarIx) (a : XReg) | bwait (n : BarIx) | bpoll (d : XReg) (n : BarIx)
  | cpset (field : BitVec 3) (a : XReg) | cpgo (d : XReg) | cpst (d a : XReg)
  | mcrd (a b : XReg) (n : BarIx) (lines : BitVec 8)
  -- tiles and handles (13, 15)
  | tdef (n : TileIx) (a : XReg) | tfill (t : TileOpd) (h : HReg) (b : XReg) | tdrain (t : TileOpd) (h : HReg) (b : XReg)
  | tstat (d : XReg) (t : TileOpd) | tfree (t : TileOpd) | lnext (d : XReg) (l : LitIx) | lget (d : XReg) (l : LitIx)
  | hmake (d : HReg) (a b : VReg) | hld (d : HReg) (a : XReg) | hst (d : HReg) (a : XReg)
  | hq (d : XReg) (a : HReg) (sel : BitVec 5) | relay (a b : HReg) | hwait (a : HReg)
  | ldh (d : XReg) (a : HReg) (b : XReg) | sth (d : XReg) (a : HReg) (b : XReg)
  | vldh (o : VHandleOp) | vsth (o : VHandleOp)
  -- matrix (16, 19)
  | mmat (o : MatOp) | mmam (o : MatOp) | mdrain (a : XReg) | mdrainTile (t : TileOpd)
  | mrow (a : XReg)
  -- reactions (06)
  | emit (a : VReg) (half : Bool) | kscan (d a : XReg) (sel : BitVec 3)
  | arbrd (d : XReg) (sel : BitVec 8) | runq (a b : XReg) | fork (d a b : XReg) (e : BitVec 20)
  -- clause array (07, 08)
  | cclaim (d : XReg) | cload (a : XReg) (b : VReg) | cdrop (a : XReg) | cdec (a : XReg) | cprop (d : XReg)
  | cback (a : XReg) | ctrail (d a : XReg) | crow (d a : XReg) | cconf (d : XReg)
  -- system (05)
  | getsr (d : XReg) (sr : SysReg) | putsr (sr : SysReg) (a : XReg)
  | trap (code : BitVec 16) | brk (code : BitVec 16)
  | tlbinv (a : XReg) (all : Bool) (reach : BitVec 2)
  -- putsr words that the table lists by register
  | putsrTstat (a : XReg) | putsrFpmode (a : XReg) | putsrFpflags (a : XReg) | lsplitWrite (a : XReg) | vgroupWrite (a : XReg)
  | hashmaskWrite (n : BitVec 4) (a : XReg) | bktdataWrite (a : XReg) | fwinWrite (n : BitVec 4) (a : XReg)
  | cluflagsWrite (a : XReg) | packflagsWrite (a : XReg) | ptrootWrite (a : XReg)
  -- effects of a putsr that depend on its value
  | frespServe (vf fid : Nat) | frespRefuse (vf fid : Nat) | fwcommitCommit (n : Nat) | fwcommitKick (n : Nat)
  -- queues and the dispatcher (20)
  | qcbRead (vf q : Nat) | runEligible (vf q : Nat) | runRelease (run : Nat)
  | timeSliceExpiry (run : Nat) | replaceRequest (run : Nat) | ruleTableSwitch (run : Nat)
  -- kennels (01, 02)
  | roundTimer (cluster : Nat) | arbitrationRound (cluster : Nat) | commit (k : ActKey) | twinCompare (k : ActKey)
  | whistleWave (run : Nat) | whistleReturn (run : Nat) | timeLimitExpiry (run : Nat)
  | completionSignal (run : Nat) | runStopTrapped (run : Nat) | waitTimeout (t : TsId) | leashGrant (cluster : Nat)
  -- messages (21, 23)
  | messageAccept (t : TsId) | handlerStart (cluster core : Nat) | handlerLimit (cluster core : Nat)
  | amoApply (cluster core : Nat) | amoReturn (t : TsId) | depLand (cluster core : Nat)
  -- engines (09, 12, 13, 15)
  | mcrdRequestArrive (req : Nat) | mcrdLineSend (stream : Nat) | mcrdBeatDeliver (cluster : Nat)
  | copySegment (t : TsId) (id : BitVec 16) | fillSegment (cluster : Nat) (n : TileIx) | drainSegment (cluster : Nat) (n : TileIx)
  | relayoutBlock (cluster : Nat) (map : Word) | sectorFillComplete (pa : Nat)
  | loadComplete (t : TsId) | storePerformed (t : TsId)
  -- translation and faults (24)
  | pageWalk (cluster vf page : Nat) | faultQueueWrite (vf : Nat) | firmwareWake (n : Nat)
  -- pre-emption (24)
  | preemptReactPack (run : Nat) | drainLimitExpiry (run : Nat) | preemptGangPack (run : Nat) | packSave (run : Nat)
  | resumePack (run : Nat)
  -- words without an operand
  | hret | bar | leash | unleash | mzero | done | abort | reject | join | cfree | yield | halt | sret
  -- device steps without a parameter
  | queueAppend | runPlace | tileInsert | flagPropagate | startUp | afrUpdate | watchdogExpiry | trialBootExpiry | diectlGo
  -- inputs from outside: what they carry stands in the state's `input`
  | doorbellWrite | qdbRead | acceptWrite
  | uncorrectableError | clauseArrayEccError | bufferRowPoison | arrayFail | flitCrcFail | linkRetrain | linkRetrainDone
  | dieLost | warmResetComplete | throttle | throttleClear | thermalTrip | correctedError
  | hostCxlMemAccess | hostSnoop | spdmRequest | foettePeerAccess | boardPowerRemoved
  deriving DecidableEq, Repr

end Sys2Proof
end

