-- ==== Sys2Proof/WellFormed.lean ====
section
/-! DEFINITION. Which operand values an operation accepts: the conditions of check 4 of R66 that the types of the
operands do not already rule out. -/
namespace Sys2Proof

/-- The integer types of R62 (code 0x1 to 0x7). -/
def ElemType.isInt : ElemType → Bool
  | .i8 | .u8 | .i16 | .u16 | .i32 | .u32 | .i64 => true
  | _ => false

/-- The floating types of R269. -/
def ElemType.isFloat : ElemType → Bool
  | .fp32 | .fp16 | .bf16 | .e4m3 | .e5m2 => true
  | _ => false

/-- FP32, FP16 and BF16, the codes 0x8 to 0xA (R285). -/
def ElemType.isVecFloat : ElemType → Bool
  | .fp32 | .fp16 | .bf16 => true
  | _ => false

/-- Signed integer types. -/
def ElemType.isSigned : ElemType → Bool
  | .i8 | .i16 | .i32 | .i64 => true
  | _ => false

/-- Element size in bytes (R284, R238). -/
def ElemType.size : ElemType → Nat
  | .bytes | .i8 | .u8 | .e4m3 | .e5m2 | .lg6 => 1
  | .i16 | .u16 | .fp16 | .bf16 => 2
  | .i32 | .u32 | .fp32 => 4
  | .i64 => 8

/-- The TYPE codes 0x1 to 0xD. -/
def ElemType.isTyped (t : ElemType) : Bool := t != .bytes

/-- The types mmat and mmam accept (R263). -/
def ElemType.isMatrix : ElemType → Bool
  | .i8 | .fp16 | .bf16 | .e4m3 | .e5m2 | .lg6 => true
  | _ => false

/-- The accumulator and element pairs of vdot (R296). -/
def vdotPair : ElemType → ElemType → Bool
  | .fp32, .fp16 | .fp32, .bf16 | .fp32, .e4m3 | .fp32, .e5m2 | .fp32, .lg6 => true
  | .i32, .i16 | .i32, .u16 | .i32, .i8 | .i32, .u8 => true
  | _, _ => false

/-- Registers that some mode can write with putsr, and that have no constructor of their own (R115, R120). -/
def SysReg.plainWritable : SysReg → Bool
  | .tcause | .tpc | .tval | .spillsp | .spillbase | .spilllim | .waitlim => true
  | .bktidx | .fwsel | .afr | .accept _ | .fwcommit | .fqhead | .fresp | .diectl | .therm => true
  | _ => false

/-- HASHMASK numbers run from 0 to 13 (R115). -/
def SysReg.wf : SysReg → Bool
  | .hashmask n => n < 14#4
  | _ => true

def ShiftRI.wf (o : ShiftRI) : Bool := !o.w32 || o.n < 32#6

def BFieldRI.wf (o : BFieldRI) : Bool := o.lsb.toNat + o.lenm1.toNat < 64

def FpCvt.wf (o : FpCvt) : Bool :=
  o.dst.isTyped && o.src.isTyped && o.dst != o.src && !(o.dst.isInt && o.src.isInt)

def VCvt.wf (o : VCvt) : Bool :=
  o.dst.isTyped && o.src.isTyped && o.dst != o.src &&
  (o.rnd == .mode || !(o.dst.isInt && o.src.isInt)) &&
  (!o.sat || (o.dst.isInt && o.src.isInt && o.dst.size < o.src.size))

def VDot.wf (o : VDot) : Bool :=
  vdotPair o.ty o.st && (o.rnd == .mode || o.ty == .fp32) && (!o.sat || o.ty == .i32)

/-- vred and vscan: TYPE 0x1 to 0xA, RND with floating types, SAT with integer types (R285). -/
def redWf (ty : ElemType) (rnd : RndSel) (sat : Bool) : Bool :=
  (ty.isInt || ty.isVecFloat) && (rnd == .mode || ty.isVecFloat) && (!sat || ty.isInt)

/-- vins and vext (R294). -/
def laneWf (ty : ElemType) (lane : BitVec 6) : Bool := ty.isTyped && lane.toNat < 64 / ty.size

def SendOp.wf (o : SendOp) : Bool := o.len.toNat ≤ 64 && (o.pay.isSome || o.len == 0#7)

def DepTarget.wf : DepTarget → Bool
  | .xreg n => n != 0#5
  | _ => true

/-- The AUX, O3 and D conditions of mmat and mmam (R311). -/
def MatOp.wf (o : MatOp) : Bool :=
  o.ty.isMatrix && (!o.sat || o.ty == .i8) && (!(o.sa || o.sb || o.ts) || o.ty != .i8) &&
  (o.sa || o.sb || o.o3 == 0#8) && (o.ts || o.d == 0#5)

/-- A well-formed operation. For a word: check 4 of R66 on the operand values. For a device step: always, its own
conditions are part of its meaning. -/
def Instr.wf : Instr → Bool
  | .shlImm o | .shrImm o | .sarImm o | .rolImm o => o.wf
  | .bfx o _ | .bfi o => o.wf
  | .fcvt o => o.wf
  | .bCond c a b _ _ => c != .al || (a == 0#5 && b == 0#5)
  | .loop a _ _ => a != 0#5
  | .vadd o | .vsub o => o.ty.isInt
  | .vmul o | .vmulh o | .vmin o | .vmax o => o.ty.isInt
  | .vabs o => o.ty.isSigned
  | .vand o | .vor o | .vxor o | .vandn o => o.ty.isInt || o.ty == .bytes
  | .vshl o | .vshr o | .vsar o => o.ty.isInt
  | .vfadd o | .vfsub o | .vfmul o | .vffma o => o.ty.isVecFloat
  | .vfmin o | .vfmax o => o.ty.isVecFloat
  | .vfabs o | .vfneg o | .vexp2 o | .vrcp o | .vrsq o => o.ty.isVecFloat
  | .vcmp o => o.ty.isInt && o.rel != .un
  | .vfcmp o => o.ty.isVecFloat
  | .vlut o => o.ty.isTyped && o.b.toNat ≤ 32 - o.ty.size
  | .vsplat o => o.ty.isTyped
  | .vins _ _ ty lane | .vext _ _ ty lane => laneWf ty lane
  | .vcvt o => o.wf
  | .vdot o => o.wf
  | .vred o => redWf o.ty o.rnd o.sat
  | .vscan o => redWf o.ty o.rnd o.sat
  | .plog op _ _ b => op != .not || b == 0#3
  | .pushm _ a b | .popm _ a b => a ≤ b
  | .amoFadd o => !o.dbl
  | .send o => o.wf
  | .dep _ _ t => t.wf
  | .mcrd _ _ _ lines => 1#8 ≤ lines && lines ≤ 128#8
  | .hq _ _ n => n ≤ 18#5
  | .mmat o | .mmam o => o.wf
  | .kscan _ _ n => n ≤ 4#3
  | .fork d _ _ e => d != 0#5 && d != 31#5 && e != 0#20
  | .getsr _ sr => sr.wf
  | .putsr sr _ => sr.plainWritable
  | .tlbinv a all _ => !all || a == 0#5
  | .hashmaskWrite n _ => n < 14#4
  | _ => true

/-- The rows that are device steps or inputs: no instruction word encodes them. -/
def Instr.isEvent : Instr → Bool
  | .frespServe .. | .frespRefuse .. | .fwcommitCommit .. | .fwcommitKick .. | .diectlGo => true
  | .doorbellWrite .. | .qdbRead .. | .acceptWrite .. | .queueAppend | .qcbRead .. | .runEligible .. => true
  | .runPlace | .runRelease .. | .timeSliceExpiry .. | .replaceRequest .. | .ruleTableSwitch .. => true
  | .roundTimer .. | .arbitrationRound .. | .commit .. | .twinCompare .. | .tileInsert | .whistleWave .. => true
  | .whistleReturn .. | .timeLimitExpiry .. | .completionSignal .. | .runStopTrapped .. | .waitTimeout .. => true
  | .leashGrant .. | .messageAccept .. | .handlerStart .. | .handlerLimit .. | .amoApply .. | .amoReturn .. => true
  | .depLand .. | .mcrdRequestArrive .. | .mcrdLineSend .. | .mcrdBeatDeliver .. | .copySegment .. => true
  | .fillSegment .. | .drainSegment .. | .relayoutBlock .. | .sectorFillComplete .. | .pageWalk .. => true
  | .faultQueueWrite .. | .firmwareWake .. | .flagPropagate .. | .preemptReactPack .. | .drainLimitExpiry .. => true
  | .preemptGangPack .. | .packSave .. | .resumePack .. | .uncorrectableError .. | .clauseArrayEccError .. => true
  | .bufferRowPoison .. | .arrayFail .. | .flitCrcFail .. | .linkRetrain .. | .dieLost .. => true
  | .watchdogExpiry .. | .trialBootExpiry .. | .startUp | .afrUpdate | .throttle .. | .thermalTrip => true
  | .hostCxlMemAccess .. | .hostSnoop .. | .spdmRequest .. | .loadComplete .. | .storePerformed .. => true
  | .throttleClear .. | .warmResetComplete .. | .linkRetrainDone .. | .foettePeerAccess .. => true
  | .correctedError .. | .boardPowerRemoved => true
  | _ => false

end Sys2Proof
end

