-- ==== Sys2Proof/Decode.lean ====
section
/-! DEFINITION. The decoder (R51 to R66), total on every 64-bit word, and the encoder written from the same tables.
Decoding stops at the first failing check of R66, in the order of the checks; check 6 (privilege) reads the mode and is
made by the step. -/
namespace Sys2Proof

/-- What a decode trap reports (R66, R67). `fn` is the FN of TVAL [15:8], already widened. -/
inductive DecodeTrap where
  | illZero (op : BitVec 8)
  | illOp (op fn : BitVec 8)
  | regBank (op fn : BitVec 8) (field : BitVec 3) (value : BitVec 6)
  deriving DecidableEq, Repr

/-- The RR and MM formats (R55, R58). -/
structure FRR where
  op : BitVec 8 := 0
  d : BitVec 6 := 0
  a : BitVec 6 := 0
  b : BitVec 6 := 0
  c : BitVec 6 := 0
  fn : BitVec 6 := 0
  md : BitVec 5 := 0
  ks : BitVec 1 := 0
  e : BitVec 20 := 0
  deriving DecidableEq, Repr

/-- The RI format (R56). The BR format (R57) has the same field widths: A is `d`, B is `a`, COND is `fn`, HINT is `md`,
OFF32 is `imm`. -/
structure FRI where
  op : BitVec 8 := 0
  d : BitVec 6 := 0
  a : BitVec 6 := 0
  fn : BitVec 6 := 0
  md : BitVec 6 := 0
  imm : BitVec 32 := 0
  deriving DecidableEq, Repr

/-- The TL format (R59). -/
structure FTL where
  op : BitVec 8 := 0
  d : BitVec 6 := 0
  a : BitVec 6 := 0
  b : BitVec 6 := 0
  fn : BitVec 4 := 0
  l1 : BitVec 1 := 0
  l2 : BitVec 1 := 0
  o1 : BitVec 8 := 0
  o2 : BitVec 8 := 0
  hr : BitVec 4 := 0
  barn : BitVec 4 := 0
  aux : BitVec 8 := 0
  deriving DecidableEq, Repr

/-- The WT format (R60). -/
structure FWT where
  op : BitVec 8 := 0
  ld : BitVec 6 := 0
  st : BitVec 6 := 0
  cp : BitVec 6 := 0
  tl : BitVec 6 := 0
  ms : BitVec 6 := 0
  z : BitVec 26 := 0
  deriving DecidableEq, Repr

/-- The SY format (R61). -/
structure FSY where
  op : BitVec 8 := 0
  d : BitVec 6 := 0
  a : BitVec 6 := 0
  fn : BitVec 6 := 0
  z : BitVec 6 := 0
  srn : BitVec 16 := 0
  code : BitVec 16 := 0
  deriving DecidableEq, Repr

def FRR.pack (f : FRR) : Word := f.op ++ f.d ++ f.a ++ f.b ++ f.c ++ f.fn ++ f.md ++ f.ks ++ f.e

def FRR.unpack (w : Word) : FRR :=
  { op := w.extractLsb' 56 8, d := w.extractLsb' 50 6, a := w.extractLsb' 44 6, b := w.extractLsb' 38 6,
    c := w.extractLsb' 32 6, fn := w.extractLsb' 26 6, md := w.extractLsb' 21 5, ks := w.extractLsb' 20 1,
    e := w.extractLsb' 0 20 }

def FRI.pack (f : FRI) : Word := f.op ++ f.d ++ f.a ++ f.fn ++ f.md ++ f.imm

def FRI.unpack (w : Word) : FRI :=
  { op := w.extractLsb' 56 8, d := w.extractLsb' 50 6, a := w.extractLsb' 44 6, fn := w.extractLsb' 38 6,
    md := w.extractLsb' 32 6, imm := w.extractLsb' 0 32 }

def FTL.pack (f : FTL) : Word :=
  f.op ++ f.d ++ f.a ++ f.b ++ f.fn ++ f.l1 ++ f.l2 ++ f.o1 ++ f.o2 ++ f.hr ++ f.barn ++ f.aux

def FTL.unpack (w : Word) : FTL :=
  { op := w.extractLsb' 56 8, d := w.extractLsb' 50 6, a := w.extractLsb' 44 6, b := w.extractLsb' 38 6,
    fn := w.extractLsb' 34 4, l1 := w.extractLsb' 33 1, l2 := w.extractLsb' 32 1, o1 := w.extractLsb' 24 8,
    o2 := w.extractLsb' 16 8, hr := w.extractLsb' 12 4, barn := w.extractLsb' 8 4, aux := w.extractLsb' 0 8 }

def FWT.pack (f : FWT) : Word := f.op ++ f.ld ++ f.st ++ f.cp ++ f.tl ++ f.ms ++ f.z

def FWT.unpack (w : Word) : FWT :=
  { op := w.extractLsb' 56 8, ld := w.extractLsb' 50 6, st := w.extractLsb' 44 6, cp := w.extractLsb' 38 6,
    tl := w.extractLsb' 32 6, ms := w.extractLsb' 26 6, z := w.extractLsb' 0 26 }

def FSY.pack (f : FSY) : Word := f.op ++ f.d ++ f.a ++ f.fn ++ f.z ++ f.srn ++ f.code

def FSY.unpack (w : Word) : FSY :=
  { op := w.extractLsb' 56 8, d := w.extractLsb' 50 6, a := w.extractLsb' 44 6, fn := w.extractLsb' 38 6,
    z := w.extractLsb' 32 6, srn := w.extractLsb' 16 16, code := w.extractLsb' 0 16 }

/-! ## Codes of R57, R62, R63, R64, R202 and R115 -/

def ElemType.code : ElemType → BitVec 4
  | .bytes => 0 | .i8 => 1 | .u8 => 2 | .i16 => 3 | .u16 => 4 | .i32 => 5 | .u32 => 6 | .i64 => 7
  | .fp32 => 8 | .fp16 => 9 | .bf16 => 10 | .e4m3 => 11 | .e5m2 => 12 | .lg6 => 13

def ElemType.ofCode (c : BitVec 4) : Option ElemType :=
  match c.toNat with
  | 0 => some .bytes | 1 => some .i8 | 2 => some .u8 | 3 => some .i16 | 4 => some .u16 | 5 => some .i32
  | 6 => some .u32 | 7 => some .i64 | 8 => some .fp32 | 9 => some .fp16 | 10 => some .bf16 | 11 => some .e4m3
  | 12 => some .e5m2 | 13 => some .lg6 | _ => none

def FpFmt.code : FpFmt → BitVec 2
  | .fp32 => 0 | .fp16 => 1 | .bf16 => 2

def FpFmt.ofCode (c : BitVec 2) : Option FpFmt :=
  match c.toNat with
  | 0 => some .fp32 | 1 => some .fp16 | 2 => some .bf16 | _ => none

def RndSel.code : RndSel → BitVec 3
  | .mode => 0 | .rne => 1 | .rz => 2 | .ru => 3 | .rd => 4 | .rna => 5

def RndSel.ofCode (c : BitVec 3) : Option RndSel :=
  match c.toNat with
  | 0 => some .mode | 1 => some .rne | 2 => some .rz | 3 => some .ru | 4 => some .rd | 5 => some .rna | _ => none

def Rel.code : Rel → BitVec 3
  | .eq => 0 | .ne => 1 | .lt => 2 | .le => 3 | .gt => 4 | .ge => 5 | .un => 6

def Rel.ofCode (c : BitVec 3) : Option Rel :=
  match c.toNat with
  | 0 => some .eq | 1 => some .ne | 2 => some .lt | 3 => some .le | 4 => some .gt | 5 => some .ge | 6 => some .un
  | _ => none

def Size.code : Size → BitVec 2
  | .b => 0 | .h => 1 | .w => 2 | .d => 3

def Size.ofCode (c : BitVec 2) : Size :=
  match c.toNat with
  | 0 => .b | 1 => .h | 2 => .w | _ => .d

def Hint.code : Hint → BitVec 2
  | .none => 0 | .nt => 1 | .ev => 2 | .keep => 3

def Hint.ofCode (c : BitVec 2) : Hint :=
  match c.toNat with
  | 0 => .none | 1 => .nt | 2 => .ev | _ => .keep

def Scope.code : Scope → BitVec 3
  | .ts => 0 | .core => 1 | .clu => 2 | .pack => 3 | .die => 4 | .dev => 5 | .sys => 6

def Scope.ofCode (c : BitVec 3) : Option Scope :=
  match c.toNat with
  | 0 => some .ts | 1 => some .core | 2 => some .clu | 3 => some .pack | 4 => some .die | 5 => some .dev
  | 6 => some .sys | _ => none

def Cond.code : Cond → BitVec 6
  | .eq => 0 | .ne => 1 | .lt => 2 | .ge => 3 | .ltu => 4 | .geu => 5 | .al => 6

def Cond.ofCode (c : BitVec 6) : Option Cond :=
  match c.toNat with
  | 0 => some .eq | 1 => some .ne | 2 => some .lt | 3 => some .ge | 4 => some .ltu | 5 => some .geu | 6 => some .al
  | _ => none

def BrHint.code : BrHint → BitVec 6
  | .none => 0 | .t => 1 | .nt => 2

def BrHint.ofCode (c : BitVec 6) : Option BrHint :=
  match c.toNat with
  | 0 => some .none | 1 => some .t | 2 => some .nt | _ => Option.none

def PlogOp.code : PlogOp → BitVec 3
  | .and => 0 | .or => 1 | .xor => 2 | .andn => 3 | .not => 4

def PlogOp.ofCode (c : BitVec 3) : Option PlogOp :=
  match c.toNat with
  | 0 => some .and | 1 => some .or | 2 => some .xor | 3 => some .andn | 4 => some .not | _ => none

def Fmt.code : Fmt → BitVec 4
  | .none => 0 | .f32bf16 => 1 | .f32e4m3 => 2 | .bf16e4m3 => 3 | .f32f16 => 4 | .i32i8 => 5

def Fmt.ofCode (c : BitVec 4) : Option Fmt :=
  match c.toNat with
  | 0 => some .none | 1 => some .f32bf16 | 2 => some .f32e4m3 | 3 => some .bf16e4m3 | 4 => some .f32f16
  | 5 => some .i32i8 | _ => Option.none

def SysReg.code : SysReg → BitVec 16
  | .tstat => 0x0000 | .tcause => 0x0001 | .tpc => 0x0002 | .tval => 0x0003 | .fpmode => 0x0008 | .fpflags => 0x0009
  | .spillsp => 0x0010 | .spillbase => 0x0011 | .spilllim => 0x0012 | .waitlim => 0x0018 | .actid => 0x0020
  | .runid => 0x0021 | .rank => 0x0022 | .nrank => 0x0023 | .core => 0x0024 | .cluster => 0x0025
  | .cluflags => 0x0100 | .packflags => 0x0101 | .lsplit => 0x0108 | .vgroup => 0x0109
  | .hashmask n => 0x040#12 ++ n | .bktidx => 0x0410 | .bktdata => 0x0411 | .fwsel => 0x0420
  | .fwin n => 0x043#12 ++ n | .afr => 0x0440 | .feat n => 0x114#14 ++ n | .accept n => 0x115#14 ++ n
  | .active n => 0x116#14 ++ n | .fwcommit => 0x0460 | .ptroot => 0x0470 | .fqhead => 0x0471 | .fqtail => 0x0472
  | .fresp => 0x0473 | .diectl => 0x0480 | .therm => 0x0490

def SysReg.ofCode (c : BitVec 16) : Option SysReg :=
  let lo4 : BitVec 4 := c.extractLsb' 0 4
  let lo2 : BitVec 2 := c.extractLsb' 0 2
  if c.extractLsb' 4 12 = 0x040#12 then (if lo4 < 14#4 then some (.hashmask lo4) else none)
  else if c.extractLsb' 4 12 = 0x043#12 then some (.fwin lo4)
  else if c.extractLsb' 2 14 = 0x114#14 then some (.feat lo2)
  else if c.extractLsb' 2 14 = 0x115#14 then some (.accept lo2)
  else if c.extractLsb' 2 14 = 0x116#14 then some (.active lo2)
  else match c.toNat with
  | 0x0000 => some .tstat | 0x0001 => some .tcause | 0x0002 => some .tpc | 0x0003 => some .tval
  | 0x0008 => some .fpmode | 0x0009 => some .fpflags | 0x0010 => some .spillsp | 0x0011 => some .spillbase
  | 0x0012 => some .spilllim | 0x0018 => some .waitlim | 0x0020 => some .actid | 0x0021 => some .runid
  | 0x0022 => some .rank | 0x0023 => some .nrank | 0x0024 => some .core | 0x0025 => some .cluster
  | 0x0100 => some .cluflags | 0x0101 => some .packflags | 0x0108 => some .lsplit | 0x0109 => some .vgroup
  | 0x0410 => some .bktidx | 0x0411 => some .bktdata | 0x0420 => some .fwsel | 0x0440 => some .afr
  | 0x0460 => some .fwcommit | 0x0470 => some .ptroot | 0x0471 => some .fqhead | 0x0472 => some .fqtail
  | 0x0473 => some .fresp | 0x0480 => some .diectl | 0x0490 => some .therm | _ => none

/-! ## Field readers -/

abbrev Dec := Except DecodeTrap

/-- OP and FN as TVAL reports them. -/
structure OpFn where
  op : BitVec 8
  fn : BitVec 8

def OpFn.ill {α : Type} (k : OpFn) : Dec α := .error (.illOp k.op k.fn)

/-- Checks 3 and 4 of R66. -/
def OpFn.need (k : OpFn) (c : Bool) : Dec Unit := if c then .ok () else k.ill

/-- A code that may be reserved. -/
def OpFn.code {α : Type} (k : OpFn) (c : Option α) : Dec α :=
  match c with
  | some a => .ok a
  | none => k.ill

/-- An x-bank register field (R52); `fld` is 0 D, 1 A, 2 B, 3 C. -/
def OpFn.x (k : OpFn) (fld : BitVec 3) (v : BitVec 6) : Dec XReg :=
  if v.extractLsb' 5 1 = 0#1 then .ok (v.extractLsb' 0 5) else .error (.regBank k.op k.fn fld v)

/-- A v-bank register field (R52). -/
def OpFn.v (k : OpFn) (fld : BitVec 3) (v : BitVec 6) : Dec VReg :=
  if v.extractLsb' 5 1 = 1#1 then .ok (v.extractLsb' 0 5) else .error (.regBank k.op k.fn fld v)

/-- A field that names a predicate register (R52). -/
def OpFn.p (k : OpFn) (fld : BitVec 3) (v : BitVec 6) : Dec PReg :=
  if v.extractLsb' 3 3 = 0#3 then .ok (v.extractLsb' 0 3) else .error (.regBank k.op k.fn fld v)

/-- A field that names a handle register (R52). -/
def OpFn.h (k : OpFn) (fld : BitVec 3) (v : BitVec 6) : Dec HReg :=
  if v.extractLsb' 4 2 = 0#2 then .ok (v.extractLsb' 0 4) else .error (.regBank k.op k.fn fld v)

/-- A C field that names a written predicate: C[5:3] must be zero under check 4 (R53). -/
def OpFn.cp (k : OpFn) (v : BitVec 6) : Dec PReg :=
  if v.extractLsb' 3 3 = 0#3 then .ok (v.extractLsb' 0 3) else k.ill

def FRR.k (f : FRR) : OpFn := ⟨f.op, 0#2 ++ f.fn⟩
def FRI.k (f : FRI) : OpFn := ⟨f.op, 0#2 ++ f.fn⟩
def FTL.k (f : FTL) : OpFn := ⟨f.op, 0#4 ++ f.fn⟩
def FSY.k (f : FSY) : OpFn := ⟨f.op, 0#2 ++ f.fn⟩

/-- Check 4 on the B operand that may come from a constant window (R54): KS = 1 needs B = 0, KS = 0 needs E = 0. -/
def FRR.ksOk (f : FRR) : Bool := if f.ks = 1#1 then f.b == 0 else f.e == 0

/-- The B operand once check 4 has passed. -/
def FRR.bsrc (f : FRR) : Dec BSrc :=
  if f.ks = 1#1 then .ok (.cw (f.e.extractLsb' 17 3) (f.e.extractLsb' 0 17))
  else do let b ← f.k.x 2 f.b; .ok (.reg b)

/-! ## Groups -/

/-- The FN values of OP 0x01 other than add and sub (R98). -/
def scalarRR (fn : BitVec 6) : Option (ScalarRR → Instr) :=
  match fn.toNat with
  | 0x08 => some .and | 0x09 => some .or | 0x0A => some .xor | 0x0B => some .andn | 0x0C => some .orn
  | 0x10 => some .shl | 0x11 => some .shr | 0x12 => some .sar | 0x13 => some .rol
  | 0x18 => some .min | 0x19 => some .max | 0x1A => some .minu | 0x1B => some .maxu
  | 0x20 => some .slt | 0x21 => some .sltu | 0x22 => some .seq | 0x23 => some .sne | _ => none

def scalarRI (fn : BitVec 6) : Option (ScalarRI → Instr) :=
  match fn.toNat with
  | 0x00 => some .addImm | 0x01 => some .subImm
  | 0x08 => some .andImm | 0x09 => some .orImm | 0x0A => some .xorImm | 0x0B => some .andnImm | 0x0C => some .ornImm
  | 0x18 => some .minImm | 0x19 => some .maxImm | 0x1A => some .minuImm | 0x1B => some .maxuImm
  | 0x20 => some .sltImm | 0x21 => some .sltuImm | 0x22 => some .seqImm | 0x23 => some .sneImm | _ => none

def shiftRI (fn : BitVec 6) : Option (ShiftRI → Instr) :=
  match fn.toNat with
  | 0x10 => some .shlImm | 0x11 => some .shrImm | 0x12 => some .sarImm | 0x13 => some .rolImm | _ => none

def mulDiv (fn : BitVec 6) : Option (ScalarRR → Instr) :=
  match fn.toNat with
  | 0x00 => some .mul | 0x01 => some .mulh | 0x02 => some .mulhu | 0x04 => some .div | 0x05 => some .divu
  | 0x06 => some .rem | 0x07 => some .remu | _ => none

def unaryRR (fn : BitVec 6) : Option (UnaryRR → Instr) :=
  match fn.toNat with
  | 0x01 => some .clz | 0x02 => some .ctz | 0x03 => some .popc | 0x04 => some .bswap | _ => none

/-- OP 0x01 (R98, R100). -/
def decScalar (f : FRR) : Dec Instr :=
  let k := f.k
  let w32 := f.md.getLsbD 0
  if f.fn = 0#6 ∨ f.fn = 1#6 then do
    k.need (f.c == 0 && f.md.extractLsb' 2 3 == 0#3 && f.ksOk)
    let d ← k.x 0 f.d; let a ← k.x 1 f.a; let b ← f.bsrc
    let o : ArithRR := ⟨d, a, b, w32, f.md.getLsbD 1⟩
    .ok (if f.fn = 0#6 then .add o else .sub o)
  else do
    let c ← k.code (scalarRR f.fn)
    k.need (f.c == 0 && f.md.extractLsb' 1 4 == 0#4 && f.ksOk)
    let d ← k.x 0 f.d; let a ← k.x 1 f.a; let b ← f.bsrc
    .ok (c ⟨d, a, b, w32⟩)

/-- OP 0x02 (R98, R99). -/
def decScalarImm (f : FRI) : Dec Instr :=
  let k := f.k
  let w32 := f.md.getLsbD 0
  match shiftRI f.fn with
  | some c => do
    k.need (f.md.extractLsb' 1 5 == 0#5 && f.imm.extractLsb' 6 26 == 0#26 && (!w32 || f.imm.extractLsb' 5 1 == 0#1))
    let d ← k.x 0 f.d; let a ← k.x 1 f.a
    .ok (c ⟨d, a, f.imm.extractLsb' 0 6, w32⟩)
  | none => do
    let c ← k.code (scalarRI f.fn)
    k.need (f.md.extractLsb' 1 5 == 0#5)
    let d ← k.x 0 f.d; let a ← k.x 1 f.a
    .ok (c ⟨d, a, f.imm, w32⟩)

/-- OP 0x03 (R101). -/
def decScalar3 (f : FRR) : Dec Instr :=
  let k := f.k
  if f.fn = 0#6 then do
    k.need (f.md == 0 && f.ks == 0 && f.e == 0)
    let d ← k.x 0 f.d; let a ← k.x 1 f.a; let b ← k.x 2 f.b; let c ← k.x 3 f.c
    .ok (.sel d a b c)
  else do
    let c ← k.code (unaryRR f.fn)
    k.need (f.b == 0 && f.c == 0 && f.md.extractLsb' 1 4 == 0#4 && f.ks == 0 && f.e == 0)
    let d ← k.x 0 f.d; let a ← k.x 1 f.a
    .ok (c ⟨d, a, f.md.getLsbD 0⟩)

/-- OP 0x04 (R102). -/
def decMulDiv (f : FRR) : Dec Instr := do
  let k := f.k
  let c ← k.code (mulDiv f.fn)
  k.need (f.c == 0 && f.md.extractLsb' 1 4 == 0#4 && f.ksOk)
  let d ← k.x 0 f.d; let a ← k.x 1 f.a; let b ← f.bsrc
  .ok (c ⟨d, a, b, f.md.getLsbD 0⟩)

/-- OP 0x05 (R103) and OP 0x1E (R104). -/
def decField (f : FRI) : Dec Instr := do
  let k := f.k
  let o : XReg → XReg → BFieldRI := fun d a => ⟨d, a, f.imm.extractLsb' 0 6, f.imm.extractLsb' 6 6⟩
  let sx := f.imm.getLsbD 12
  let okBits := f.md == 0 && f.imm.extractLsb' 13 19 == 0#19 && (o 0 0).wf
  match f.fn.toNat with
  | 0 => do
    k.need okBits
    let d ← k.x 0 f.d; let a ← k.x 1 f.a
    .ok (.bfx (o d a) sx)
  | 1 => do
    k.need (okBits && !sx)
    let d ← k.x 0 f.d; let a ← k.x 1 f.a
    .ok (.bfi (o d a))
  | _ => k.ill

def decLi (f : FRI) : Dec Instr := do
  let k := f.k
  k.need (f.fn == 0 || f.fn == 1)
  k.need (f.md == 0 && f.a == 0)
  let d ← k.x 0 f.d
  .ok (if f.fn = 0#6 then .li d f.imm else .lih d f.imm)

/-- OP 0x20 (R106, R107). -/
def decFp (f : FRR) : Dec Instr := do
  let k := f.k
  k.need (f.fn.toNat < 8)
  let fmt ← k.code (FpFmt.ofCode (f.md.extractLsb' 3 2))
  let rnd ← k.code (RndSel.ofCode (f.md.extractLsb' 0 3))
  match f.fn.toNat with
  | 4 => do
    k.need (f.c == 0 && rnd == .mode && f.ksOk)
    let d ← k.x 0 f.d; let a ← k.x 1 f.a; let b ← f.bsrc
    .ok (.fmin ⟨d, a, b, fmt⟩)
  | 5 => do
    k.need (f.c == 0 && rnd == .mode && f.ksOk)
    let d ← k.x 0 f.d; let a ← k.x 1 f.a; let b ← f.bsrc
    .ok (.fmax ⟨d, a, b, fmt⟩)
  | 6 => do
    k.need (f.b == 0 && f.c == 0 && f.ks == 0 && f.e == 0)
    let d ← k.x 0 f.d; let a ← k.x 1 f.a
    .ok (.fsqrt d a fmt rnd)
  | 7 => do
    k.need f.ksOk
    let d ← k.x 0 f.d; let a ← k.x 1 f.a; let b ← f.bsrc; let c ← k.x 3 f.c
    .ok (.ffma ⟨d, a, b, c, fmt, rnd⟩)
  | n => do
    k.need (f.c == 0 && f.ksOk)
    let d ← k.x 0 f.d; let a ← k.x 1 f.a; let b ← f.bsrc
    let o : FpBin := ⟨d, a, b, fmt, rnd⟩
    .ok (match n with | 0 => .fadd o | 1 => .fsub o | 2 => .fmul o | _ => .fdiv o)

/-- OP 0x21 (R108 to R111). -/
def decFp2 (f : FRR) : Dec Instr := do
  let k := f.k
  k.need (f.fn.toNat < 4 && f.ks == 0)
  let fmt ← k.code (FpFmt.ofCode (f.md.extractLsb' 3 2))
  let rnd ← k.code (RndSel.ofCode (f.md.extractLsb' 0 3))
  match f.fn.toNat with
  | 0 => do
    let rel ← k.code (Rel.ofCode (f.c.extractLsb' 0 3))
    k.need (f.c.extractLsb' 3 3 == 0#3 && rnd == .mode && f.e == 0)
    let d ← k.x 0 f.d; let a ← k.x 1 f.a; let b ← k.x 2 f.b
    .ok (.fcmp d a b fmt rel)
  | 1 => do
    k.need (f.b == 0 && f.c == 0 && rnd == .mode && f.e == 0)
    let d ← k.x 0 f.d; let a ← k.x 1 f.a
    .ok (.fclass d a fmt)
  | 2 => do
    let dst ← k.code (ElemType.ofCode (f.c.extractLsb' 0 4))
    let src ← k.code (ElemType.ofCode (f.e.extractLsb' 0 4))
    k.need (f.b == 0 && f.c.extractLsb' 4 2 == 0#2 && f.e.extractLsb' 4 16 == 0#16 && fmt == .fp32 &&
      (⟨0, 0, dst, src, rnd⟩ : FpCvt).wf)
    let d ← k.x 0 f.d; let a ← k.x 1 f.a
    .ok (.fcvt ⟨d, a, dst, src, rnd⟩)
  | _ => do
    k.need (f.b == 0 && f.c == 0 && rnd == .mode && f.e == 0)
    let d ← k.x 0 f.d; let a ← k.x 1 f.a
    .ok (.fmv d a fmt)

/-- OP 0x30, 0x31, 0x33 in the BR format (R57, R113): A is `d`, B is `a`. -/
def decBranch (f : FRI) : Dec Instr := do
  let k := f.k
  match f.op.toNat with
  | 0x30 => do
    let c ← k.code (Cond.ofCode f.fn)
    let h ← k.code (BrHint.ofCode f.md)
    k.need (c != .al || (f.d == 0 && f.a == 0))
    let a ← k.x 1 f.d; let b ← k.x 2 f.a
    .ok (.bCond c a b h f.imm)
  | 0x31 => do
    k.need (f.fn == 0)
    let h ← k.code (BrHint.ofCode f.md)
    k.need (f.a == 0)
    let a ← k.x 1 f.d
    .ok (.call a h f.imm)
  | _ => do
    k.need (f.fn == 0)
    let h ← k.code (BrHint.ofCode f.md)
    k.need (f.a == 0 && f.d != 0)
    let a ← k.x 1 f.d
    .ok (.loop a h f.imm)

/-- Fields that a form without further operands leaves zero, past D and A. -/
def FRR.restZero (f : FRR) : Bool := f.b == 0 && f.c == 0 && f.md == 0 && f.ks == 0 && f.e == 0

/-- OP 0x32 (R114). -/
def decJump (f : FRR) : Dec Instr := do
  let k := f.k
  k.need (f.fn.toNat < 3)
  k.need (f.restZero && (f.fn == 0 || f.d == 0))
  let d ← k.x 0 f.d; let a ← k.x 1 f.a
  .ok (match f.fn.toNat with | 0 => .callr d a | 1 => .jr a | _ => .ret a)

/-- The sub-fields of a vector word (R64); a FIXD, FIXA or FIXB bit needs a field that names a v register (R285). -/
structure VSub where
  ty : ElemType
  rnd : RndSel
  rel : BitVec 3
  st : BitVec 4
  sat : Bool
  fd : Bool
  fa : Bool
  fb : Bool

def FRR.vsub (f : FRR) : Dec VSub := do
  let k := f.k
  let ty ← k.code (ElemType.ofCode (f.e.extractLsb' 0 4))
  let rnd ← k.code (RndSel.ofCode (f.e.extractLsb' 4 3))
  k.need (f.ks == 0 && f.e.extractLsb' 14 6 == 0#6 && !f.md.getLsbD 0)
  k.need ((!f.md.getLsbD 4 || f.d.getLsbD 5) && (!f.md.getLsbD 3 || f.a.getLsbD 5) && (!f.md.getLsbD 2 || f.b.getLsbD 5))
  .ok { ty := ty, rnd := rnd, rel := f.e.extractLsb' 7 3, st := f.e.extractLsb' 10 4,
        sat := f.md.getLsbD 1, fd := f.md.getLsbD 4, fa := f.md.getLsbD 3, fb := f.md.getLsbD 2 }

/-- A three-register form whose TYPE `ok` accepts. -/
def decVBin (f : FRR) (ok : ElemType → Bool) (c : VBin → Instr) : Dec Instr := do
  let k := f.k
  let s ← f.vsub
  k.need (ok s.ty && s.rnd == .mode && s.rel == 0 && s.st == 0 && !s.sat)
  let p ← k.cp f.c
  let d ← k.v 0 f.d; let a ← k.v 1 f.a; let b ← k.v 2 f.b
  .ok (c ⟨d, a, b, p, s.ty, s.fd, s.fa, s.fb⟩)

def decVBinSat (f : FRR) (c : VBinSat → Instr) : Dec Instr := do
  let k := f.k
  let s ← f.vsub
  k.need (s.ty.isInt && s.rnd == .mode && s.rel == 0 && s.st == 0)
  let p ← k.cp f.c
  let d ← k.v 0 f.d; let a ← k.v 1 f.a; let b ← k.v 2 f.b
  .ok (c ⟨d, a, b, p, s.ty, s.sat, s.fd, s.fa, s.fb⟩)

def decVFBin (f : FRR) (c : VFBin → Instr) : Dec Instr := do
  let k := f.k
  let s ← f.vsub
  k.need (s.ty.isVecFloat && s.rel == 0 && s.st == 0 && !s.sat)
  let p ← k.cp f.c
  let d ← k.v 0 f.d; let a ← k.v 1 f.a; let b ← k.v 2 f.b
  .ok (c ⟨d, a, b, p, s.ty, s.rnd, s.fd, s.fa, s.fb⟩)

def decVUn (f : FRR) (c : VUn → Instr) : Dec Instr := do
  let k := f.k
  let s ← f.vsub
  k.need (s.ty.isVecFloat && s.rnd == .mode && s.rel == 0 && s.st == 0 && !s.sat && !s.fb && f.b == 0)
  let p ← k.cp f.c
  let d ← k.v 0 f.d; let a ← k.v 1 f.a
  .ok (c ⟨d, a, p, s.ty, s.fd, s.fa⟩)

def decVByteSel (f : FRR) (c : VByteSel → Instr) : Dec Instr := do
  let k := f.k
  let s ← f.vsub
  k.need (s.ty == .bytes && s.rnd == .mode && s.rel == 0 && s.st == 0 && !s.sat)
  let p ← k.cp f.c
  let d ← k.v 0 f.d; let a ← k.v 1 f.a; let b ← k.v 2 f.b
  .ok (c ⟨d, a, b, p, s.fd, s.fa, s.fb⟩)

def decVCmp (f : FRR) (ok : ElemType → Rel → Bool) (c : VCmp → Instr) : Dec Instr := do
  let k := f.k
  let s ← f.vsub
  let rel ← k.code (Rel.ofCode s.rel)
  k.need (ok s.ty rel && s.rnd == .mode && s.st == 0 && !s.sat && !s.fd)
  let p ← k.cp f.c
  let d ← k.p 0 f.d; let a ← k.v 1 f.a; let b ← k.v 2 f.b
  .ok (c ⟨d, a, b, p, s.ty, rel, s.fa, s.fb⟩)

/-- OP 0x40 (R287). -/
def dec40 (f : FRR) : Dec Instr :=
  match f.fn.toNat with
  | 0 => decVBinSat f .vadd
  | 1 => decVBinSat f .vsub
  | 2 => decVBin f ElemType.isInt .vmul
  | 3 => decVBin f ElemType.isInt .vmulh
  | 4 => decVBin f ElemType.isInt .vmin
  | 5 => decVBin f ElemType.isInt .vmax
  | 6 => do
    let k := f.k
    let s ← f.vsub
    k.need (s.ty.isSigned && s.rnd == .mode && s.rel == 0 && s.st == 0 && !s.fb && f.b == 0)
    let p ← k.cp f.c
    let d ← k.v 0 f.d; let a ← k.v 1 f.a
    .ok (.vabs ⟨d, a, p, s.ty, s.sat, s.fd, s.fa⟩)
  | _ => f.k.ill

def intOrBytes (t : ElemType) : Bool := t.isInt || t == .bytes

/-- OP 0x41 (R288). -/
def dec41 (f : FRR) : Dec Instr :=
  match f.fn.toNat with
  | 0 => decVBin f intOrBytes .vand
  | 1 => decVBin f intOrBytes .vor
  | 2 => decVBin f intOrBytes .vxor
  | 3 => decVBin f intOrBytes .vandn
  | 8 => decVBin f ElemType.isInt .vshl
  | 9 => decVBin f ElemType.isInt .vshr
  | 10 => decVBin f ElemType.isInt .vsar
  | _ => f.k.ill

/-- OP 0x44 (R289). -/
def dec44 (f : FRR) : Dec Instr :=
  match f.fn.toNat with
  | 0 => decVFBin f .vfadd
  | 1 => decVFBin f .vfsub
  | 2 => decVFBin f .vfmul
  | 3 => decVFBin f .vffma
  | 4 => decVBin f ElemType.isVecFloat .vfmin
  | 5 => decVBin f ElemType.isVecFloat .vfmax
  | 6 => decVUn f .vfabs
  | 7 => decVUn f .vfneg
  | _ => f.k.ill

/-- OP 0x45 (R290). -/
def dec45 (f : FRR) : Dec Instr :=
  match f.fn.toNat with
  | 0 => decVUn f .vexp2
  | 1 => decVUn f .vrcp
  | 2 => decVUn f .vrsq
  | _ => f.k.ill

/-- OP 0x48 (R291, R292). -/
def dec48 (f : FRR) : Dec Instr :=
  match f.fn.toNat with
  | 0 => decVCmp f (fun t r => t.isInt && r != .un) .vcmp
  | 1 => decVCmp f (fun t _ => t.isVecFloat) .vfcmp
  | 2 => decVByteSel f .vsel
  | _ => f.k.ill

/-- OP 0x4A (R295). -/
def dec4A (f : FRR) : Dec Instr := do
  let k := f.k
  k.need (f.fn == 0)
  let s ← f.vsub
  let src ← k.code (ElemType.ofCode s.st)
  k.need (s.rel == 0 && !s.fb && f.b == 0 && (⟨0, 0, 0, s.ty, src, s.rnd, s.sat, false, false⟩ : VCvt).wf)
  let p ← k.cp f.c
  let d ← k.v 0 f.d; let a ← k.v 1 f.a
  .ok (.vcvt ⟨d, a, p, s.ty, src, s.rnd, s.sat, s.fd, s.fa⟩)

/-- OP 0x4B (R296 to R298). -/
def dec4B (f : FRR) : Dec Instr :=
  let k := f.k
  match f.fn.toNat with
  | 0 => do
    let s ← f.vsub
    let st ← k.code (ElemType.ofCode s.st)
    k.need (s.rel == 0 && (⟨0, 0, 0, 0, s.ty, st, s.rnd, s.sat, false, false, false⟩ : VDot).wf)
    let p ← k.cp f.c
    let d ← k.v 0 f.d; let a ← k.v 1 f.a; let b ← k.v 2 f.b
    .ok (.vdot ⟨d, a, b, p, s.ty, st, s.rnd, s.sat, s.fd, s.fa, s.fb⟩)
  | 1 => do
    let s ← f.vsub
    k.need (s.rel == 0 && s.st == 0 && !s.fb && !s.fd && f.b == 0 && redWf s.ty s.rnd s.sat)
    let p ← k.cp f.c
    let d ← k.x 0 f.d; let a ← k.v 1 f.a
    .ok (.vred ⟨d, a, p, s.ty, s.rnd, s.sat, s.fa⟩)
  | 2 => do
    let s ← f.vsub
    k.need (s.rel == 0 && s.st == 0 && !s.fb && f.b == 0 && redWf s.ty s.rnd s.sat)
    let p ← k.cp f.c
    let d ← k.v 0 f.d; let a ← k.v 1 f.a
    .ok (.vscan ⟨d, a, p, s.ty, s.rnd, s.sat, s.fd, s.fa⟩)
  | _ => k.ill

/-- OP 0x4C (R292, R293). -/
def dec4C (f : FRR) : Dec Instr :=
  match f.fn.toNat with
  | 0 => decVByteSel f .vperm
  | 1 => decVBin f (fun t => t.isTyped && (f.b.extractLsb' 0 5).toNat ≤ 32 - t.size) .vlut
  | _ => f.k.ill

/-- OP 0x4D (R294). -/
def dec4D (f : FRR) : Dec Instr := do
  let k := f.k
  k.need (f.fn == 0)
  let s ← f.vsub
  k.need (s.ty.isTyped && s.rnd == .mode && s.rel == 0 && s.st == 0 && !s.sat && !s.fa && !s.fb && f.b == 0)
  let p ← k.cp f.c
  let d ← k.v 0 f.d; let a ← k.x 1 f.a
  .ok (.vsplat ⟨d, a, p, s.ty, s.fd⟩)

/-- OP 0x4E (R294). -/
def dec4E (f : FRI) : Dec Instr := do
  let k := f.k
  k.need (f.fn == 0 || f.fn == 1)
  let ty ← k.code (ElemType.ofCode (f.md.extractLsb' 0 4))
  let lane : BitVec 6 := f.imm.extractLsb' 0 6
  k.need (f.md.extractLsb' 4 2 == 0#2 && f.imm.extractLsb' 6 26 == 0#26 && laneWf ty lane)
  if f.fn = 0#6 then do
    let d ← k.v 0 f.d; let a ← k.x 1 f.a
    .ok (.vins d a ty lane)
  else do
    let d ← k.x 0 f.d; let a ← k.v 1 f.a
    .ok (.vext d a ty lane)

/-- OP 0x50 (R299). -/
def dec50 (f : FRR) : Dec Instr :=
  let k := f.k
  match f.fn.toNat with
  | 0 => do
    let op ← k.code (PlogOp.ofCode (f.e.extractLsb' 7 3))
    k.need (f.c == 0 && f.md == 0 && f.ks == 0 && f.e.extractLsb' 0 7 == 0#7 && f.e.extractLsb' 10 10 == 0#10 &&
      (op != .not || f.b == 0))
    let d ← k.p 0 f.d; let a ← k.p 1 f.a; let b ← k.p 2 f.b
    .ok (.plog op d a b)
  | 1 => do
    let ty ← k.code (ElemType.ofCode (f.e.extractLsb' 0 4))
    k.need (f.b == 0 && f.c == 0 && f.md == 0 && f.ks == 0 && f.e.extractLsb' 4 16 == 0#16)
    let d ← k.x 0 f.d; let a ← k.p 1 f.a
    .ok (.pcnt d a ty)
  | _ => k.ill

/-- OP 0x58 (R300). -/
def dec58 (f : FRI) : Dec Instr := do
  let k := f.k
  k.need (f.fn == 0)
  k.need (f.d == 0 && f.a == 0 && f.md == 0 && f.imm.extractLsb' 16 16 == 0#16)
  .ok (.rep (f.imm.extractLsb' 0 8) (f.imm.extractLsb' 8 3) (f.imm.extractLsb' 11 5))

/-- OP 0x60, 0x61, 0x68 (R204, R213, R214). -/
def decLdSt (f : FRR) : Dec Instr := do
  let k := f.k
  k.need (f.fn == 0)
  k.need (f.ks == 0 && f.md.extractLsb' 2 3 == 0#3 && f.c.extractLsb' 3 3 == 0#3 &&
    (f.op == 0x60#8 || f.c.extractLsb' 2 1 == 0#1))
  let d ← k.x 0 f.d; let a ← k.x 1 f.a; let b ← k.x 2 f.b
  let size := Size.ofCode (f.c.extractLsb' 0 2)
  let hint := Hint.ofCode (f.md.extractLsb' 0 2)
  .ok (if f.op = 0x60#8 then .ld ⟨d, a, b, f.e, size, f.c.getLsbD 2, hint⟩ else .st ⟨d, a, b, f.e, size, hint⟩)

def dec68 (f : FRR) : Dec Instr := do
  let k := f.k
  k.need (f.fn == 0 || f.fn == 1)
  k.need (f.d == 0 && f.c == 0 && f.ks == 0 && f.md.extractLsb' 2 3 == 0#3 && (f.fn == 0 || f.md == 0))
  let a ← k.x 1 f.a; let b ← k.x 2 f.b
  .ok (if f.fn = 0#6 then .pref ⟨a, b, f.e, Hint.ofCode (f.md.extractLsb' 0 2)⟩ else .cflush a b f.e)

/-- OP 0x62 (R207). -/
def dec62 (f : FRR) : Dec Instr := do
  let k := f.k
  k.need (f.fn.toNat < 4)
  let hint := Hint.ofCode (f.md.extractLsb' 0 2)
  if f.fn.toNat < 2 then do
    k.need (f.ks == 0 && f.md.extractLsb' 3 2 == 0#2)
    let p ← k.cp f.c
    let d ← k.v 0 f.d; let a ← k.x 1 f.a; let b ← k.x 2 f.b
    let o : VMemOp := ⟨d, a, b, f.e, p, hint, f.md.getLsbD 2⟩
    .ok (if f.fn = 0#6 then .vld o else .vst o)
  else do
    k.need (f.ks == 0 && !f.md.getLsbD 4 && f.c.extractLsb' 5 1 == 0#1)
    let d ← k.v 0 f.d; let a ← k.x 1 f.a; let b ← k.v 2 f.b
    let o : VGatherOp := ⟨d, a, b, f.e, f.c.extractLsb' 0 3, Size.ofCode (f.c.extractLsb' 3 2), hint, f.md.getLsbD 2,
      f.md.getLsbD 3⟩
    .ok (if f.fn = 2#6 then .vgat o else .vsca o)

/-- OP 0x64 (R210). -/
def dec64 (f : FRR) : Dec Instr := do
  let k := f.k
  k.need (f.fn == 0)
  k.need (f.a == 0 && f.b == 0 && f.c == 0 && f.ks == 1 && f.md.extractLsb' 3 2 == 0#2)
  let d ← k.x 0 f.d
  .ok (.ldk d (f.e.extractLsb' 17 3) (f.e.extractLsb' 0 17) (Size.ofCode (f.md.extractLsb' 0 2)) (f.md.getLsbD 2))

/-- OP 0x66 (R212). Both fields lie in one bank with B.NUM at or above A.NUM, or the word fails check 4. -/
def dec66 (f : FRR) : Dec Instr := do
  let k := f.k
  k.need (f.fn == 0 || f.fn == 1)
  let bank : Bool := f.a.getLsbD 5
  let a : BitVec 5 := f.a.extractLsb' 0 5
  let b : BitVec 5 := f.b.extractLsb' 0 5
  k.need (f.d == 0 && f.c == 0 && f.md == 0 && f.ks == 0 && f.e == 0 && f.b.getLsbD 5 == bank && a ≤ b)
  .ok (if f.fn = 0#6 then .pushm bank a b else .popm bank a b)

def amoCtor (fn : BitVec 6) : Option (AmoOp → Instr) :=
  match fn.toNat with
  | 0 => some .amoAdd | 1 => some .amoMin | 2 => some .amoMax | 3 => some .amoMinu | 4 => some .amoMaxu
  | 5 => some .amoAnd | 6 => some .amoOr | 7 => some .amoXor | 8 => some .amoSwap | 9 => some .amoCas
  | 10 => some .amoFadd | _ => none

/-- OP 0x70 (R355). -/
def dec70 (f : FRR) : Dec Instr := do
  let k := f.k
  let c ← k.code (amoCtor f.fn)
  k.need (f.md == 0 && f.ks == 0 && (f.c == 2 || (f.c == 3 && f.fn != 10)))
  let d ← k.x 0 f.d; let a ← k.x 1 f.a; let b ← k.x 2 f.b
  .ok (c ⟨d, a, b, f.e, f.c == 3⟩)

/-- OP 0x72 (R333). B = 0 is a send without a payload. -/
def dec72 (f : FRR) : Dec Instr :=
  let k := f.k
  match f.fn.toNat with
  | 0 => do
    let fmt ← k.code (Fmt.ofCode (f.md.extractLsb' 0 4))
    let len : BitVec 7 := f.e.extractLsb' 0 7
    k.need (f.d == 0 && f.ks == 0 && !f.md.getLsbD 4 && f.e.extractLsb' 7 13 == 0#13 && len.toNat ≤ 64)
    let a ← k.x 1 f.a
    if f.b = 0#6 ∧ len = 0#7 then do
      let c ← k.x 3 f.c
      .ok (.send ⟨a, none, c, len, fmt⟩)
    else do
      let b ← k.v 2 f.b; let c ← k.x 3 f.c
      .ok (.send ⟨a, some b, c, len, fmt⟩)
  | 1 => do
    k.need (f.a == 0 && f.c == 0 && f.md == 0 && f.ks == 0 && f.e == 0)
    let d ← k.x 0 f.d; let b ← k.v 2 f.b
    .ok (.recv d b)
  | 2 => do
    k.need (f.d == 0 && f.a == 0 && f.restZero)
    .ok .hret
  | 3 => do
    k.need (f.a == 0 && f.restZero)
    let d ← k.x 0 f.d
    .ok (.sqstat d)
  | _ => k.ill

/-- OP 0x73 (R361). -/
def dec73 (f : FRR) : Dec Instr := do
  let k := f.k
  k.need (f.fn == 0)
  k.need (f.d == 0 && f.c == 0 && f.md == 0 && f.ks == 0 && f.e.extractLsb' 12 8 == 0#8)
  let treg : BitVec 6 := f.e.extractLsb' 0 6
  let vmode : BitVec 2 := f.e.extractLsb' 6 2
  let lane : BitVec 3 := f.e.extractLsb' 8 3
  let n : BitVec 5 := f.e.extractLsb' 0 5
  let t ← k.code (
    if f.e.getLsbD 11 then (if treg = 0#6 ∧ vmode = 0#2 ∧ lane = 0#3 then some DepTarget.fpmode else none)
    else if treg.getLsbD 5 then
      (if vmode = 0#2 then some (.vlane n lane) else if vmode = 1#2 ∧ lane = 0#3 then some (.vall n) else none)
    else if treg ≠ 0#6 ∧ vmode = 0#2 ∧ lane = 0#3 then some (.xreg n) else none)
  let a ← k.x 1 f.a; let b ← k.x 2 f.b
  .ok (.dep a b t)

/-- OP 0x78 (R60); the FN of a WT word is reported as zero (R67). -/
def dec78 (f : FWT) : Dec Instr := do
  (⟨f.op, 0⟩ : OpFn).need (f.z == 0)
  .ok (.wait f.ld f.st f.cp f.tl f.ms)

/-- OP 0x79 (R217). -/
def dec79 (f : FRR) : Dec Instr := do
  let k := f.k
  k.need (f.fn == 0)
  let sc ← k.code (Scope.ofCode (f.md.extractLsb' 0 3))
  k.need (f.d == 0 && f.a == 0 && f.b == 0 && f.c == 0 && f.md.extractLsb' 3 2 == 0#2 && f.ks == 0 && f.e == 0)
  .ok (.fence sc)

/-- A tile operand in O1 with its sequence register in A, or in O2 with B (R59). A litter needs O[7:4] = 0; an entry needs
the register field zero. -/
def OpFn.tileOpd (k : OpFn) (l : BitVec 1) (o : BitVec 8) (fld : BitVec 3) (r : BitVec 6) : Dec TileOpd :=
  if l = 1#1 then do let x ← k.x fld r; .ok (.lit (o.extractLsb' 0 4) x) else .ok (.tile o)

def tileOk (l : BitVec 1) (o : BitVec 8) (r : BitVec 6) : Bool :=
  if l = 1#1 then o.extractLsb' 4 4 == 0#4 else r == 0

/-- OP 0x7A (R166). -/
def dec7A (f : FTL) : Dec Instr := do
  let k := f.k
  k.need (f.fn.toNat < 4)
  k.need (f.b == 0 && f.l1 == 0 && f.l2 == 0 && f.o1 == 0 && f.o2 == 0 && f.hr == 0 && f.aux == 0 &&
    (f.fn == 3 || f.d == 0) && (f.fn == 1 || f.a == 0) && (f.fn != 0 || f.barn == 0))
  match f.fn.toNat with
  | 0 => .ok .bar
  | 1 => do let a ← k.x 1 f.a; .ok (.bexp f.barn a)
  | 2 => .ok (.bwait f.barn)
  | _ => do let d ← k.x 0 f.d; .ok (.bpoll d f.barn)

/-- The TL fields past A, B that carry tiles, handles and barriers. -/
def FTL.noTile (f : FTL) : Bool := f.l1 == 0 && f.l2 == 0 && f.o1 == 0 && f.o2 == 0 && f.hr == 0 && f.barn == 0

/-- OP 0x80 (R220, R221, R227). -/
def dec80 (f : FTL) : Dec Instr := do
  let k := f.k
  k.need (f.fn.toNat < 3)
  k.need (f.b == 0 && f.noTile && (if f.fn = 0#4 then f.d == 0 && f.aux.extractLsb' 3 5 == 0#5 else f.aux == 0) &&
    (f.fn != 1 || f.a == 0))
  match f.fn.toNat with
  | 0 => do let a ← k.x 1 f.a; .ok (.cpset (f.aux.extractLsb' 0 3) a)
  | 1 => do let d ← k.x 0 f.d; .ok (.cpgo d)
  | _ => do let d ← k.x 0 f.d; let a ← k.x 1 f.a; .ok (.cpst d a)

/-- OP 0x81 (R166). -/
def dec81 (f : FTL) : Dec Instr := do
  let k := f.k
  k.need (f.fn == 0)
  k.need (f.d == 0 && f.l1 == 0 && f.l2 == 0 && f.o1 == 0 && f.o2 == 0 && f.hr == 0 && 1#8 ≤ f.aux && f.aux ≤ 128#8)
  let a ← k.x 1 f.a; let b ← k.x 2 f.b
  .ok (.mcrd a b f.barn f.aux)

/-- OP 0x84 (R254). -/
def dec84 (f : FTL) : Dec Instr := do
  let k := f.k
  k.need (f.fn.toNat < 5)
  k.need (f.l2 == 0 && f.o2 == 0 && f.barn == 0 && f.aux == 0)
  match f.fn.toNat with
  | 0 => do
    k.need (f.d == 0 && f.b == 0 && f.l1 == 0 && f.hr == 0)
    let a ← k.x 1 f.a; .ok (.tdef f.o1 a)
  | 1 => do
    k.need (f.d == 0 && tileOk f.l1 f.o1 f.a)
    let t ← k.tileOpd f.l1 f.o1 1 f.a; let b ← k.x 2 f.b; .ok (.tfill t f.hr b)
  | 2 => do
    k.need (f.d == 0 && tileOk f.l1 f.o1 f.a)
    let t ← k.tileOpd f.l1 f.o1 1 f.a; let b ← k.x 2 f.b; .ok (.tdrain t f.hr b)
  | 3 => do
    k.need (f.b == 0 && f.hr == 0 && tileOk f.l1 f.o1 f.a)
    let d ← k.x 0 f.d; let t ← k.tileOpd f.l1 f.o1 1 f.a; .ok (.tstat d t)
  | _ => do
    k.need (f.d == 0 && f.b == 0 && f.hr == 0 && tileOk f.l1 f.o1 f.a)
    let t ← k.tileOpd f.l1 f.o1 1 f.a; .ok (.tfree t)

/-- OP 0x86 (R254). -/
def dec86 (f : FTL) : Dec Instr := do
  let k := f.k
  k.need (f.fn == 0 || f.fn == 1)
  k.need (f.a == 0 && f.b == 0 && f.l1 == 1 && f.l2 == 0 && f.o1.extractLsb' 4 4 == 0#4 && f.o2 == 0 && f.hr == 0 &&
    f.barn == 0 && f.aux == 0)
  let d ← k.x 0 f.d
  .ok (if f.fn = 0#4 then .lnext d (f.o1.extractLsb' 0 4) else .lget d (f.o1.extractLsb' 0 4))

/-- OP 0x90 (R229, R248). -/
def dec90 (f : FRR) : Dec Instr := do
  let k := f.k
  k.need (f.fn.toNat < 4)
  k.need (f.c == 0 && f.md == 0 && f.ks == 0 && (f.fn == 0 || f.b == 0) &&
    (if f.fn = 3#6 then f.e.extractLsb' 5 15 == 0#15 && f.e.extractLsb' 0 5 ≤ 18#5 else f.e == 0))
  match f.fn.toNat with
  | 0 => do let d ← k.h 0 f.d; let a ← k.v 1 f.a; let b ← k.v 2 f.b; .ok (.hmake d a b)
  | 1 => do let d ← k.h 0 f.d; let a ← k.x 1 f.a; .ok (.hld d a)
  | 2 => do let d ← k.h 0 f.d; let a ← k.x 1 f.a; .ok (.hst d a)
  | _ => do let d ← k.x 0 f.d; let a ← k.h 1 f.a; .ok (.hq d a (f.e.extractLsb' 0 5))

/-- OP 0x91 (R229). -/
def dec91 (f : FRR) : Dec Instr := do
  let k := f.k
  k.need (f.fn == 0 || f.fn == 1)
  k.need (f.d == 0 && f.c == 0 && f.md == 0 && f.ks == 0 && f.e == 0 && (f.fn == 0 || f.b == 0))
  if f.fn = 0#6 then do let a ← k.h 1 f.a; let b ← k.h 2 f.b; .ok (.relay a b)
  else do let a ← k.h 1 f.a; .ok (.hwait a)

/-- OP 0x92 (R229, R248, R252). -/
def dec92 (f : FRR) : Dec Instr := do
  let k := f.k
  k.need (f.fn.toNat < 4)
  if f.fn.toNat < 2 then do
    k.need (f.c == 0 && f.md == 0 && f.ks == 0 && f.e == 0)
    let d ← k.x 0 f.d; let a ← k.h 1 f.a; let b ← k.x 2 f.b
    .ok (if f.fn = 0#6 then .ldh d a b else .sth d a b)
  else do
    k.need (f.md.extractLsb' 0 4 == 0#4 && f.ks == 0 && f.e == 0)
    let p ← k.cp f.c
    let d ← k.v 0 f.d; let a ← k.h 1 f.a; let b ← k.x 2 f.b
    let o : VHandleOp := ⟨d, a, b, p, f.md.getLsbD 4⟩
    .ok (if f.fn = 2#6 then .vldh o else .vsth o)

/-- OP 0x98 (R263). -/
def dec98 (f : FRR) : Dec Instr := do
  let k := f.k
  k.need (f.fn == 0 || f.fn == 1)
  k.need (f.d == 0 && f.a == 0 && f.restZero)
  .ok (if f.fn = 0#6 then .leash else .unleash)

/-- OP 0x99 (R311). O3 is HR and BARN together. -/
def dec99 (f : FTL) : Dec Instr := do
  let k := f.k
  let o3 : BitVec 8 := f.hr ++ f.barn
  match f.fn.toNat with
  | 0 => do
    k.need (f.d == 0 && f.a == 0 && f.b == 0 && f.noTile && f.aux == 0)
    .ok .mzero
  | 3 =>
    if f.aux = 1#8 then do
      k.need (f.d == 0 && f.b == 0 && f.l2 == 0 && f.o2 == 0 && o3 == 0 && tileOk f.l1 f.o1 f.a)
      let t ← k.tileOpd f.l1 f.o1 1 f.a; .ok (.mdrainTile t)
    else do
      k.need (f.d == 0 && f.b == 0 && f.noTile && f.aux == 0)
      let a ← k.x 1 f.a; .ok (.mdrain a)
  | 4 => do
    k.need (f.d == 0 && f.b == 0 && f.noTile && f.aux == 0)
    let a ← k.x 1 f.a; .ok (.mrow a)
  | n => do
    k.need (n == 1 || n == 2)
    let ty ← k.code (ElemType.ofCode (f.aux.extractLsb' 0 4))
    let m : TileOpd → TileOpd → XReg → MatOp := fun a b d =>
      ⟨a, b, ty, f.aux.getLsbD 4, f.aux.getLsbD 5, f.aux.getLsbD 6, f.aux.getLsbD 7, o3, d⟩
    k.need ((m (.tile 0) (.tile 0) 0).wf && (f.aux.getLsbD 6 || f.d == 0) && tileOk f.l1 f.o1 f.a && tileOk f.l2 f.o2 f.b)
    let d ← k.x 0 f.d; let a ← k.tileOpd f.l1 f.o1 1 f.a; let b ← k.tileOpd f.l2 f.o2 2 f.b
    .ok (if n = 1 then .mmat (m a b d) else .mmam (m a b d))

/-- OP 0xA0 (R129). -/
def decA0 (f : FRR) : Dec Instr := do
  let k := f.k
  let i ← k.code (match f.fn.toNat with | 1 => some Instr.done | 2 => some .abort | 3 => some .reject | _ => none)
  k.need (f.d == 0 && f.a == 0 && f.restZero)
  .ok i

/-- OP 0xA1 (R127). -/
def decA1 (f : FRI) : Dec Instr := do
  let k := f.k
  k.need (f.fn == 0)
  k.need (f.d == 0 && f.md == 0 && f.imm.extractLsb' 1 31 == 0#31)
  let a ← k.v 1 f.a
  .ok (.emit a (f.imm.getLsbD 0))

/-- OP 0xA3 (R132, R133). -/
def decA3 (f : FRI) : Dec Instr := do
  let k := f.k
  match f.fn.toNat with
  | 4 => do
    k.need (f.md == 0 && f.imm.extractLsb' 3 29 == 0#29 && f.imm.extractLsb' 0 3 ≤ 4#3)
    let d ← k.x 0 f.d; let a ← k.x 1 f.a
    .ok (.kscan d a (f.imm.extractLsb' 0 3))
  | 5 => do
    k.need (f.md == 0 && f.a == 0 && f.imm.extractLsb' 8 24 == 0#24)
    let d ← k.x 0 f.d
    .ok (.arbrd d (f.imm.extractLsb' 0 8))
  | _ => k.ill

/-- OP 0xA4 (R134) and 0xA5 (R137). -/
def decA4 (f : FRR) : Dec Instr := do
  let k := f.k
  k.need (f.fn == 0)
  k.need (f.d == 0 && f.c == 0 && f.md == 0 && f.ks == 0 && f.e == 0)
  let a ← k.x 1 f.a; let b ← k.x 2 f.b
  .ok (.runq a b)

def decA5 (f : FRR) : Dec Instr := do
  let k := f.k
  k.need (f.fn == 0 || f.fn == 1)
  if f.fn = 0#6 then do
    k.need (f.c == 0 && f.md == 0 && f.ks == 0 && f.e != 0 && f.d != 0 && f.d != 31)
    let d ← k.x 0 f.d; let a ← k.x 1 f.a; let b ← k.x 2 f.b
    .ok (.fork d a b f.e)
  else do
    k.need (f.d == 0 && f.a == 0 && f.restZero)
    .ok .join

/-- OP 0xA8 to 0xAB (R139, R153). -/
def decClause (f : FRR) : Dec Instr := do
  let k := f.k
  let z := f.c == 0 && f.md == 0 && f.ks == 0 && f.e == 0
  match f.op.toNat, f.fn.toNat with
  | 0xA8, 0 => do k.need (z && f.a == 0 && f.b == 0); let d ← k.x 0 f.d; .ok (.cclaim d)
  | 0xA8, 1 => do k.need (z && f.d == 0 && f.a == 0 && f.b == 0); .ok .cfree
  | 0xA9, 0 => do k.need (z && f.d == 0); let a ← k.x 1 f.a; let b ← k.v 2 f.b; .ok (.cload a b)
  | 0xA9, 1 => do k.need (z && f.d == 0 && f.b == 0); let a ← k.x 1 f.a; .ok (.cdrop a)
  | 0xAA, 0 => do k.need (z && f.d == 0 && f.b == 0); let a ← k.x 1 f.a; .ok (.cdec a)
  | 0xAA, 1 => do k.need (z && f.a == 0 && f.b == 0); let d ← k.x 0 f.d; .ok (.cprop d)
  | 0xAA, 2 => do k.need (z && f.d == 0 && f.b == 0); let a ← k.x 1 f.a; .ok (.cback a)
  | 0xAB, 0 => do k.need (z && f.b == 0); let d ← k.x 0 f.d; let a ← k.x 1 f.a; .ok (.ctrail d a)
  | 0xAB, 1 => do k.need (z && f.b == 0); let d ← k.x 0 f.d; let a ← k.x 1 f.a; .ok (.crow d a)
  | 0xAB, 2 => do k.need (z && f.a == 0 && f.b == 0); let d ← k.x 0 f.d; .ok (.cconf d)
  | _, _ => k.ill

/-- A putsr word: the registers the opcode table lists by name have constructors of their own. A register that no mode
writes fails check 4 (R120). -/
def putsrCtor (sr : SysReg) (a : XReg) : Option Instr :=
  match sr with
  | .tstat => some (.putsrTstat a) | .fpmode => some (.putsrFpmode a) | .fpflags => some (.putsrFpflags a)
  | .lsplit => some (.lsplitWrite a) | .vgroup => some (.vgroupWrite a) | .hashmask n => some (.hashmaskWrite n a)
  | .bktdata => some (.bktdataWrite a) | .fwin n => some (.fwinWrite n a) | .cluflags => some (.cluflagsWrite a)
  | .packflags => some (.packflagsWrite a) | .ptroot => some (.ptrootWrite a)
  | sr => if sr.plainWritable then some (.putsr sr a) else none

/-- OP 0xF0 to 0xF3 (R120 to R125). -/
def decSys (f : FSY) : Dec Instr := do
  let k := f.k
  match f.op.toNat, f.fn.toNat with
  | 0xF0, 0 => do
    let sr ← k.code (SysReg.ofCode f.srn)
    k.need (f.a == 0 && f.z == 0 && f.code == 0)
    let d ← k.x 0 f.d; .ok (.getsr d sr)
  | 0xF0, 1 => do
    let sr ← k.code (SysReg.ofCode f.srn)
    let _ ← k.code (putsrCtor sr 0)
    k.need (f.d == 0 && f.z == 0 && f.code == 0)
    let a ← k.x 1 f.a
    k.code (putsrCtor sr a)
  | 0xF1, 0 => do k.need (f.d == 0 && f.a == 0 && f.z == 0 && f.srn == 0); .ok (.trap f.code)
  | 0xF1, 1 => do k.need (f.d == 0 && f.a == 0 && f.z == 0 && f.srn == 0); .ok (.brk f.code)
  | 0xF2, n => do
    let i ← k.code (match n with | 0 => some Instr.yield | 1 => some .halt | 2 => some .sret | _ => none)
    k.need (f.d == 0 && f.a == 0 && f.z == 0 && f.srn == 0 && f.code == 0)
    .ok i
  | 0xF3, 0 => do
    k.need (f.d == 0 && f.z == 0 && f.srn == 0 && f.code.extractLsb' 4 12 == 0#12 && f.code.extractLsb' 1 1 == 0#1 &&
      (!f.code.getLsbD 0 || f.a == 0))
    let a ← k.x 1 f.a
    .ok (.tlbinv a (f.code.getLsbD 0) (f.code.extractLsb' 2 2))
  | _, _ => k.ill

/-- The decoder: checks 1 to 5 of R66 on a 64-bit word. -/
def decodeWord (w : Word) : Dec Instr :=
  let op : BitVec 8 := w.extractLsb' 56 8
  if w = 0 then .error (.illZero 0x00)
  else if w = BitVec.allOnes 64 then .error (.illZero 0xFF)
  else match op.toNat with
  | 0x01 => decScalar (FRR.unpack w)
  | 0x02 => decScalarImm (FRI.unpack w)
  | 0x03 => decScalar3 (FRR.unpack w)
  | 0x04 => decMulDiv (FRR.unpack w)
  | 0x05 => decField (FRI.unpack w)
  | 0x1E => decLi (FRI.unpack w)
  | 0x20 => decFp (FRR.unpack w)
  | 0x21 => decFp2 (FRR.unpack w)
  | 0x30 | 0x31 | 0x33 => decBranch (FRI.unpack w)
  | 0x32 => decJump (FRR.unpack w)
  | 0x40 => dec40 (FRR.unpack w)
  | 0x41 => dec41 (FRR.unpack w)
  | 0x44 => dec44 (FRR.unpack w)
  | 0x45 => dec45 (FRR.unpack w)
  | 0x48 => dec48 (FRR.unpack w)
  | 0x4A => dec4A (FRR.unpack w)
  | 0x4B => dec4B (FRR.unpack w)
  | 0x4C => dec4C (FRR.unpack w)
  | 0x4D => dec4D (FRR.unpack w)
  | 0x4E => dec4E (FRI.unpack w)
  | 0x50 => dec50 (FRR.unpack w)
  | 0x58 => dec58 (FRI.unpack w)
  | 0x60 | 0x61 => decLdSt (FRR.unpack w)
  | 0x62 => dec62 (FRR.unpack w)
  | 0x64 => dec64 (FRR.unpack w)
  | 0x66 => dec66 (FRR.unpack w)
  | 0x68 => dec68 (FRR.unpack w)
  | 0x70 => dec70 (FRR.unpack w)
  | 0x72 => dec72 (FRR.unpack w)
  | 0x73 => dec73 (FRR.unpack w)
  | 0x78 => dec78 (FWT.unpack w)
  | 0x79 => dec79 (FRR.unpack w)
  | 0x7A => dec7A (FTL.unpack w)
  | 0x80 => dec80 (FTL.unpack w)
  | 0x81 => dec81 (FTL.unpack w)
  | 0x84 => dec84 (FTL.unpack w)
  | 0x86 => dec86 (FTL.unpack w)
  | 0x90 => dec90 (FRR.unpack w)
  | 0x91 => dec91 (FRR.unpack w)
  | 0x92 => dec92 (FRR.unpack w)
  | 0x98 => dec98 (FRR.unpack w)
  | 0x99 => dec99 (FTL.unpack w)
  | 0xA0 => decA0 (FRR.unpack w)
  | 0xA1 => decA1 (FRI.unpack w)
  | 0xA3 => decA3 (FRI.unpack w)
  | 0xA4 => decA4 (FRR.unpack w)
  | 0xA5 => decA5 (FRR.unpack w)
  | 0xA8 | 0xA9 | 0xAA | 0xAB => decClause (FRR.unpack w)
  | 0xF0 | 0xF1 | 0xF2 | 0xF3 => decSys (FSY.unpack w)
  | _ => .error (.illOp op 0)

/-- TVAL of a decode trap (R67). -/
def DecodeTrap.tval : DecodeTrap → Word
  | .illZero op => 0#56 ++ op
  | .illOp op fn => 0#48 ++ fn ++ op
  | .regBank op fn field v => 0#34 ++ v ++ 0#5 ++ field ++ fn ++ op

/-! ## The encoder -/

/-- The 6-bit encodings of R52. -/
def xf (r : XReg) : BitVec 6 := 0#1 ++ r
def vf (r : VReg) : BitVec 6 := 1#1 ++ r
def pf (r : PReg) : BitVec 6 := 0#3 ++ r
def hf (r : HReg) : BitVec 6 := 0#2 ++ r
def b1 (b : Bool) : BitVec 1 := BitVec.ofBool b

/-- The B, KS and E fields of a B operand. -/
def BSrc.put (b : BSrc) (f : FRR) : FRR :=
  match b with
  | .reg r => { f with b := xf r }
  | .cw win off => { f with ks := 1, e := win ++ off }

def encScalar (fn : BitVec 6) (o : ScalarRR) (op : BitVec 8 := 0x01) : Word :=
  (o.b.put { op := op, d := xf o.d, a := xf o.a, fn := fn, md := 0#4 ++ b1 o.w32 }).pack

def encArith (fn : BitVec 6) (o : ArithRR) : Word :=
  (o.b.put { op := 0x01, d := xf o.d, a := xf o.a, fn := fn, md := 0#3 ++ b1 o.sat ++ b1 o.w32 }).pack

def encImm (fn : BitVec 6) (o : ScalarRI) : Word :=
  ({ op := 0x02, d := xf o.d, a := xf o.a, fn := fn, md := 0#5 ++ b1 o.w32, imm := o.imm } : FRI).pack

def encShift (fn : BitVec 6) (o : ShiftRI) : Word :=
  ({ op := 0x02, d := xf o.d, a := xf o.a, fn := fn, md := 0#5 ++ b1 o.w32, imm := 0#26 ++ o.n } : FRI).pack

def encUnary (fn : BitVec 6) (o : UnaryRR) : Word :=
  ({ op := 0x03, d := xf o.d, a := xf o.a, fn := fn, md := 0#4 ++ b1 o.w32 } : FRR).pack

def encField (fn : BitVec 6) (o : BFieldRI) (sx : Bool) : Word :=
  ({ op := 0x05, d := xf o.d, a := xf o.a, fn := fn, imm := 0#19 ++ b1 sx ++ o.lenm1 ++ o.lsb } : FRI).pack

def encFp (fn : BitVec 6) (d a : XReg) (b : BSrc) (c : BitVec 6) (fmt : FpFmt) (rnd : RndSel) : Word :=
  (b.put { op := 0x20, d := xf d, a := xf a, c := c, fn := fn, md := fmt.code ++ rnd.code }).pack

def encBr (op : BitVec 8) (a b : XReg) (cond : BitVec 6) (h : BrHint) (off : BitVec 32) : Word :=
  ({ op := op, d := xf a, a := xf b, fn := cond, md := h.code, imm := off } : FRI).pack

/-- E of a vector word (R64). -/
def vE (ty : ElemType) (rnd : RndSel := .mode) (rel : BitVec 3 := 0) (st : BitVec 4 := 0) : BitVec 20 :=
  0#6 ++ st ++ rel ++ rnd.code ++ ty.code

/-- MOD of a vector word (R64). -/
def vM (fd fa fb : Bool) (sat : Bool := false) : BitVec 5 := b1 fd ++ b1 fa ++ b1 fb ++ b1 sat ++ 0#1

def encVBin (op : BitVec 8) (fn : BitVec 6) (o : VBin) : Word :=
  ({ op := op, d := vf o.d, a := vf o.a, b := vf o.b, c := pf o.p, fn := fn, md := vM o.fd o.fa o.fb, e := vE o.ty } : FRR).pack

def encVBinSat (fn : BitVec 6) (o : VBinSat) : Word :=
  ({ op := 0x40, d := vf o.d, a := vf o.a, b := vf o.b, c := pf o.p, fn := fn, md := vM o.fd o.fa o.fb o.sat,
     e := vE o.ty } : FRR).pack

def encVFBin (fn : BitVec 6) (o : VFBin) : Word :=
  ({ op := 0x44, d := vf o.d, a := vf o.a, b := vf o.b, c := pf o.p, fn := fn, md := vM o.fd o.fa o.fb,
     e := vE o.ty o.rnd } : FRR).pack

def encVUn (op : BitVec 8) (fn : BitVec 6) (o : VUn) : Word :=
  ({ op := op, d := vf o.d, a := vf o.a, c := pf o.p, fn := fn, md := vM o.fd o.fa false, e := vE o.ty } : FRR).pack

def encVCmp (fn : BitVec 6) (o : VCmp) : Word :=
  ({ op := 0x48, d := pf o.d, a := vf o.a, b := vf o.b, c := pf o.p, fn := fn, md := vM false o.fa o.fb,
     e := vE o.ty .mode o.rel.code } : FRR).pack

def encVByteSel (op : BitVec 8) (fn : BitVec 6) (o : VByteSel) : Word :=
  ({ op := op, d := vf o.d, a := vf o.a, b := vf o.b, c := pf o.p, fn := fn, md := vM o.fd o.fa o.fb, e := vE .bytes } : FRR).pack

def encVMem (fn : BitVec 6) (o : VMemOp) : Word :=
  ({ op := 0x62, d := vf o.d, a := xf o.a, b := xf o.b, c := pf o.p, fn := fn, md := 0#2 ++ b1 o.fd ++ o.hint.code,
     e := o.e } : FRR).pack

def encVGather (fn : BitVec 6) (o : VGatherOp) : Word :=
  ({ op := 0x62, d := vf o.d, a := xf o.a, b := vf o.b, c := 0#1 ++ o.size.code ++ o.p, fn := fn,
     md := 0#1 ++ b1 o.fb ++ b1 o.fd ++ o.hint.code, e := o.e } : FRR).pack

def encAmo (fn : BitVec 6) (o : AmoOp) : Word :=
  ({ op := 0x70, d := xf o.d, a := xf o.a, b := xf o.b, c := if o.dbl then 3 else 2, fn := fn, e := o.e } : FRR).pack

/-- O1, L1 and A of a tile operand. -/
def TileOpd.put1 (t : TileOpd) (f : FTL) : FTL :=
  match t with
  | .tile n => { f with o1 := n }
  | .lit l x => { f with l1 := 1, o1 := 0#4 ++ l, a := xf x }

/-- O2, L2 and B of a tile operand. -/
def TileOpd.put2 (t : TileOpd) (f : FTL) : FTL :=
  match t with
  | .tile n => { f with o2 := n }
  | .lit l x => { f with l2 := 1, o2 := 0#4 ++ l, b := xf x }

def DepTarget.e : DepTarget → BitVec 20
  | .xreg n => 0#14 ++ xf n
  | .vlane n lane => 0#9 ++ lane ++ 0#2 ++ vf n
  | .vall n => 0#9 ++ 0#3 ++ 1#2 ++ vf n
  | .fpmode => 0#8 ++ 1#1 ++ 0#11

def encMat (fn : BitVec 4) (o : MatOp) : Word :=
  let base : FTL :=
    { op := 0x99, d := xf o.d, fn := fn, hr := o.o3.extractLsb' 4 4, barn := o.o3.extractLsb' 0 4,
      aux := b1 o.sat ++ b1 o.ts ++ b1 o.sb ++ b1 o.sa ++ o.ty.code }
  (o.b.put2 (o.a.put1 base)).pack

def encClause (op : BitVec 8) (fn : BitVec 6) (d a : XReg) (b : BitVec 6 := 0) : Word :=
  ({ op := op, d := xf d, a := xf a, b := b, fn := fn } : FRR).pack

def encHandle (op : BitVec 8) (fn d a b : BitVec 6) (c : BitVec 6 := 0) (md : BitVec 5 := 0) (e : BitVec 20 := 0) : Word :=
  ({ op := op, d := d, a := a, b := b, c := c, fn := fn, md := md, e := e } : FRR).pack

def encSy (op : BitVec 8) (fn : BitVec 6) (d a : XReg) (srn code : BitVec 16) : Word :=
  ({ op := op, d := xf d, a := xf a, fn := fn, srn := srn, code := code } : FSY).pack

def encPutsr (sr : SysReg) (a : XReg) : Word := encSy 0xF0 1 0 a sr.code 0

/-- The word of an instruction; none for a device step. -/
def encode : Instr → Option Word
  | .add o => some (encArith 0x00 o) | .sub o => some (encArith 0x01 o)
  | .addImm o => some (encImm 0x00 o) | .subImm o => some (encImm 0x01 o)
  | .and o => some (encScalar 0x08 o) | .andImm o => some (encImm 0x08 o)
  | .or o => some (encScalar 0x09 o) | .orImm o => some (encImm 0x09 o)
  | .xor o => some (encScalar 0x0A o) | .xorImm o => some (encImm 0x0A o)
  | .andn o => some (encScalar 0x0B o) | .andnImm o => some (encImm 0x0B o)
  | .orn o => some (encScalar 0x0C o) | .ornImm o => some (encImm 0x0C o)
  | .shl o => some (encScalar 0x10 o) | .shlImm o => some (encShift 0x10 o)
  | .shr o => some (encScalar 0x11 o) | .shrImm o => some (encShift 0x11 o)
  | .sar o => some (encScalar 0x12 o) | .sarImm o => some (encShift 0x12 o)
  | .rol o => some (encScalar 0x13 o) | .rolImm o => some (encShift 0x13 o)
  | .min o => some (encScalar 0x18 o) | .minImm o => some (encImm 0x18 o)
  | .max o => some (encScalar 0x19 o) | .maxImm o => some (encImm 0x19 o)
  | .minu o => some (encScalar 0x1A o) | .minuImm o => some (encImm 0x1A o)
  | .maxu o => some (encScalar 0x1B o) | .maxuImm o => some (encImm 0x1B o)
  | .slt o => some (encScalar 0x20 o) | .sltImm o => some (encImm 0x20 o)
  | .sltu o => some (encScalar 0x21 o) | .sltuImm o => some (encImm 0x21 o)
  | .seq o => some (encScalar 0x22 o) | .seqImm o => some (encImm 0x22 o)
  | .sne o => some (encScalar 0x23 o) | .sneImm o => some (encImm 0x23 o)
  | .sel d a b c => some ({ op := 0x03, d := xf d, a := xf a, b := xf b, c := xf c } : FRR).pack
  | .clz o => some (encUnary 1 o) | .ctz o => some (encUnary 2 o) | .popc o => some (encUnary 3 o)
  | .bswap o => some (encUnary 4 o)
  | .mul o => some (encScalar 0 o 0x04) | .mulh o => some (encScalar 1 o 0x04) | .mulhu o => some (encScalar 2 o 0x04)
  | .div o => some (encScalar 4 o 0x04) | .divu o => some (encScalar 5 o 0x04) | .rem o => some (encScalar 6 o 0x04)
  | .remu o => some (encScalar 7 o 0x04)
  | .bfx o sx => some (encField 0 o sx) | .bfi o => some (encField 1 o false)
  | .li d imm => some ({ op := 0x1E, d := xf d, imm := imm } : FRI).pack
  | .lih d imm => some ({ op := 0x1E, d := xf d, fn := 1, imm := imm } : FRI).pack
  | .fadd o => some (encFp 0 o.d o.a o.b 0 o.fmt o.rnd) | .fsub o => some (encFp 1 o.d o.a o.b 0 o.fmt o.rnd)
  | .fmul o => some (encFp 2 o.d o.a o.b 0 o.fmt o.rnd) | .fdiv o => some (encFp 3 o.d o.a o.b 0 o.fmt o.rnd)
  | .fmin o => some (encFp 4 o.d o.a o.b 0 o.fmt .mode) | .fmax o => some (encFp 5 o.d o.a o.b 0 o.fmt .mode)
  | .fsqrt d a fmt rnd => some (encFp 6 d a (.reg 0) 0 fmt rnd)
  | .ffma o => some (encFp 7 o.d o.a o.b (xf o.c) o.fmt o.rnd)
  | .fcmp d a b fmt rel =>
    some ({ op := 0x21, d := xf d, a := xf a, b := xf b, c := 0#3 ++ rel.code, md := fmt.code ++ 0#3 } : FRR).pack
  | .fclass d a fmt => some ({ op := 0x21, d := xf d, a := xf a, fn := 1, md := fmt.code ++ 0#3 } : FRR).pack
  | .fcvt o => some ({ op := 0x21, d := xf o.d, a := xf o.a, c := 0#2 ++ o.dst.code, fn := 2, md := 0#2 ++ o.rnd.code,
                       e := 0#16 ++ o.src.code } : FRR).pack
  | .fmv d a fmt => some ({ op := 0x21, d := xf d, a := xf a, fn := 3, md := fmt.code ++ 0#3 } : FRR).pack
  | .bCond c a b h off => some (encBr 0x30 a b c.code h off)
  | .call a h off => some (encBr 0x31 a 0 0 h off) | .loop a h off => some (encBr 0x33 a 0 0 h off)
  | .callr d a => some (encClause 0x32 0 d a) | .jr a => some (encClause 0x32 1 0 a) | .ret a => some (encClause 0x32 2 0 a)
  | .vadd o => some (encVBinSat 0 o) | .vsub o => some (encVBinSat 1 o)
  | .vmul o => some (encVBin 0x40 2 o) | .vmulh o => some (encVBin 0x40 3 o) | .vmin o => some (encVBin 0x40 4 o)
  | .vmax o => some (encVBin 0x40 5 o)
  | .vabs o => some ({ op := 0x40, d := vf o.d, a := vf o.a, c := pf o.p, fn := 6, md := vM o.fd o.fa false o.sat,
                       e := vE o.ty } : FRR).pack
  | .vand o => some (encVBin 0x41 0 o) | .vor o => some (encVBin 0x41 1 o) | .vxor o => some (encVBin 0x41 2 o)
  | .vandn o => some (encVBin 0x41 3 o) | .vshl o => some (encVBin 0x41 8 o) | .vshr o => some (encVBin 0x41 9 o)
  | .vsar o => some (encVBin 0x41 10 o)
  | .vfadd o => some (encVFBin 0 o) | .vfsub o => some (encVFBin 1 o) | .vfmul o => some (encVFBin 2 o)
  | .vffma o => some (encVFBin 3 o) | .vfmin o => some (encVBin 0x44 4 o) | .vfmax o => some (encVBin 0x44 5 o)
  | .vfabs o => some (encVUn 0x44 6 o) | .vfneg o => some (encVUn 0x44 7 o)
  | .vexp2 o => some (encVUn 0x45 0 o) | .vrcp o => some (encVUn 0x45 1 o) | .vrsq o => some (encVUn 0x45 2 o)
  | .vcmp o => some (encVCmp 0 o) | .vfcmp o => some (encVCmp 1 o)
  | .vsel o => some (encVByteSel 0x48 2 o) | .vperm o => some (encVByteSel 0x4C 0 o) | .vlut o => some (encVBin 0x4C 1 o)
  | .vsplat o => some ({ op := 0x4D, d := vf o.d, a := xf o.a, c := pf o.p, md := vM o.fd false false, e := vE o.ty } : FRR).pack
  | .vins d a ty lane => some ({ op := 0x4E, d := vf d, a := xf a, md := 0#2 ++ ty.code, imm := 0#26 ++ lane } : FRI).pack
  | .vext d a ty lane =>
    some ({ op := 0x4E, d := xf d, a := vf a, fn := 1, md := 0#2 ++ ty.code, imm := 0#26 ++ lane } : FRI).pack
  | .vcvt o => some ({ op := 0x4A, d := vf o.d, a := vf o.a, c := pf o.p, md := vM o.fd o.fa false o.sat,
                       e := vE o.dst o.rnd 0 o.src.code } : FRR).pack
  | .vdot o => some ({ op := 0x4B, d := vf o.d, a := vf o.a, b := vf o.b, c := pf o.p, md := vM o.fd o.fa o.fb o.sat,
                       e := vE o.ty o.rnd 0 o.st.code } : FRR).pack
  | .vred o => some ({ op := 0x4B, d := xf o.d, a := vf o.a, c := pf o.p, fn := 1, md := vM false o.fa false o.sat,
                       e := vE o.ty o.rnd } : FRR).pack
  | .vscan o => some ({ op := 0x4B, d := vf o.d, a := vf o.a, c := pf o.p, fn := 2, md := vM o.fd o.fa false o.sat,
                        e := vE o.ty o.rnd } : FRR).pack
  | .plog op d a b => some ({ op := 0x50, d := pf d, a := pf a, b := pf b, e := 0#10 ++ op.code ++ 0#7 } : FRR).pack
  | .pcnt d a ty => some ({ op := 0x50, d := xf d, a := pf a, fn := 1, e := 0#16 ++ ty.code } : FRR).pack
  | .rep nm1 lm1 stride => some ({ op := 0x58, imm := 0#16 ++ stride ++ lm1 ++ nm1 } : FRI).pack
  | .ld o => some ({ op := 0x60, d := xf o.d, a := xf o.a, b := xf o.b, c := 0#3 ++ b1 o.sx ++ o.size.code,
                     md := 0#3 ++ o.hint.code, e := o.e } : FRR).pack
  | .st o => some ({ op := 0x61, d := xf o.d, a := xf o.a, b := xf o.b, c := 0#4 ++ o.size.code,
                     md := 0#3 ++ o.hint.code, e := o.e } : FRR).pack
  | .vld o => some (encVMem 0 o) | .vst o => some (encVMem 1 o) | .vgat o => some (encVGather 2 o)
  | .vsca o => some (encVGather 3 o)
  | .ldk d win off size sx =>
    some ({ op := 0x64, d := xf d, md := 0#2 ++ b1 sx ++ size.code, ks := 1, e := win ++ off } : FRR).pack
  | .pushm bank a b => some ({ op := 0x66, a := b1 bank ++ a, b := b1 bank ++ b } : FRR).pack
  | .popm bank a b => some ({ op := 0x66, a := b1 bank ++ a, b := b1 bank ++ b, fn := 1 } : FRR).pack
  | .pref o => some ({ op := 0x68, a := xf o.a, b := xf o.b, md := 0#3 ++ o.hint.code, e := o.e } : FRR).pack
  | .cflush a b e => some ({ op := 0x68, a := xf a, b := xf b, fn := 1, e := e } : FRR).pack
  | .amoAdd o => some (encAmo 0 o) | .amoMin o => some (encAmo 1 o) | .amoMax o => some (encAmo 2 o)
  | .amoMinu o => some (encAmo 3 o) | .amoMaxu o => some (encAmo 4 o) | .amoAnd o => some (encAmo 5 o)
  | .amoOr o => some (encAmo 6 o) | .amoXor o => some (encAmo 7 o) | .amoSwap o => some (encAmo 8 o)
  | .amoCas o => some (encAmo 9 o) | .amoFadd o => some (encAmo 10 o)
  | .send o => some ({ op := 0x72, a := xf o.a, b := (match o.pay with | some v => vf v | none => 0), c := xf o.c,
                       md := 0#1 ++ o.fmt.code, e := 0#13 ++ o.len } : FRR).pack
  | .recv d b => some ({ op := 0x72, d := xf d, b := vf b, fn := 1 } : FRR).pack
  | .hret => some ({ op := 0x72, fn := 2 } : FRR).pack
  | .sqstat d => some ({ op := 0x72, d := xf d, fn := 3 } : FRR).pack
  | .dep a b t => some ({ op := 0x73, a := xf a, b := xf b, e := t.e } : FRR).pack
  | .wait ld st cp tl ms => some ({ op := 0x78, ld := ld, st := st, cp := cp, tl := tl, ms := ms } : FWT).pack
  | .fence sc => some ({ op := 0x79, md := 0#2 ++ sc.code } : FRR).pack
  | .bar => some ({ op := 0x7A } : FTL).pack
  | .bexp n a => some ({ op := 0x7A, a := xf a, fn := 1, barn := n } : FTL).pack
  | .bwait n => some ({ op := 0x7A, fn := 2, barn := n } : FTL).pack
  | .bpoll d n => some ({ op := 0x7A, d := xf d, fn := 3, barn := n } : FTL).pack
  | .cpset fld a => some ({ op := 0x80, a := xf a, aux := 0#5 ++ fld } : FTL).pack
  | .cpgo d => some ({ op := 0x80, d := xf d, fn := 1 } : FTL).pack
  | .cpst d a => some ({ op := 0x80, d := xf d, a := xf a, fn := 2 } : FTL).pack
  | .mcrd a b n lines => some ({ op := 0x81, a := xf a, b := xf b, barn := n, aux := lines } : FTL).pack
  | .tdef n a => some ({ op := 0x84, a := xf a, o1 := n } : FTL).pack
  | .tfill t h b => some (t.put1 { op := 0x84, b := xf b, fn := 1, hr := h }).pack
  | .tdrain t h b => some (t.put1 { op := 0x84, b := xf b, fn := 2, hr := h }).pack
  | .tstat d t => some (t.put1 { op := 0x84, d := xf d, fn := 3 }).pack
  | .tfree t => some (t.put1 { op := 0x84, fn := 4 }).pack
  | .lnext d l => some ({ op := 0x86, d := xf d, l1 := 1, o1 := 0#4 ++ l } : FTL).pack
  | .lget d l => some ({ op := 0x86, d := xf d, fn := 1, l1 := 1, o1 := 0#4 ++ l } : FTL).pack
  | .hmake d a b => some (encHandle 0x90 0 (hf d) (vf a) (vf b))
  | .hld d a => some (encHandle 0x90 1 (hf d) (xf a) 0) | .hst d a => some (encHandle 0x90 2 (hf d) (xf a) 0)
  | .hq d a sel => some (encHandle 0x90 3 (xf d) (hf a) 0 0 0 (0#15 ++ sel))
  | .relay a b => some (encHandle 0x91 0 0 (hf a) (hf b)) | .hwait a => some (encHandle 0x91 1 0 (hf a) 0)
  | .ldh d a b => some (encHandle 0x92 0 (xf d) (hf a) (xf b)) | .sth d a b => some (encHandle 0x92 1 (xf d) (hf a) (xf b))
  | .vldh o => some (encHandle 0x92 2 (vf o.d) (hf o.a) (xf o.b) (pf o.p) (b1 o.fd ++ 0#4))
  | .vsth o => some (encHandle 0x92 3 (vf o.d) (hf o.a) (xf o.b) (pf o.p) (b1 o.fd ++ 0#4))
  | .leash => some (encHandle 0x98 0 0 0 0) | .unleash => some (encHandle 0x98 1 0 0 0)
  | .mzero => some ({ op := 0x99 } : FTL).pack
  | .mmat o => some (encMat 1 o) | .mmam o => some (encMat 2 o)
  | .mdrain a => some ({ op := 0x99, a := xf a, fn := 3 } : FTL).pack
  | .mdrainTile t => some (t.put1 { op := 0x99, fn := 3, aux := 1 }).pack
  | .mrow a => some ({ op := 0x99, a := xf a, fn := 4 } : FTL).pack
  | .done => some (encHandle 0xA0 1 0 0 0) | .abort => some (encHandle 0xA0 2 0 0 0) | .reject => some (encHandle 0xA0 3 0 0 0)
  | .emit a half => some ({ op := 0xA1, a := vf a, imm := 0#31 ++ b1 half } : FRI).pack
  | .kscan d a sel => some ({ op := 0xA3, d := xf d, a := xf a, fn := 4, imm := 0#29 ++ sel } : FRI).pack
  | .arbrd d sel => some ({ op := 0xA3, d := xf d, fn := 5, imm := 0#24 ++ sel } : FRI).pack
  | .runq a b => some (encHandle 0xA4 0 0 (xf a) (xf b))
  | .fork d a b e => some (encHandle 0xA5 0 (xf d) (xf a) (xf b) 0 0 e) | .join => some (encHandle 0xA5 1 0 0 0)
  | .cclaim d => some (encClause 0xA8 0 d 0) | .cfree => some (encClause 0xA8 1 0 0)
  | .cload a b => some (encClause 0xA9 0 0 a (vf b)) | .cdrop a => some (encClause 0xA9 1 0 a)
  | .cdec a => some (encClause 0xAA 0 0 a) | .cprop d => some (encClause 0xAA 1 d 0) | .cback a => some (encClause 0xAA 2 0 a)
  | .ctrail d a => some (encClause 0xAB 0 d a) | .crow d a => some (encClause 0xAB 1 d a) | .cconf d => some (encClause 0xAB 2 d 0)
  | .getsr d sr => some (encSy 0xF0 0 d 0 sr.code 0) | .putsr sr a => some (encPutsr sr a)
  | .trap code => some (encSy 0xF1 0 0 0 0 code) | .brk code => some (encSy 0xF1 1 0 0 0 code)
  | .yield => some (encSy 0xF2 0 0 0 0 0) | .halt => some (encSy 0xF2 1 0 0 0 0) | .sret => some (encSy 0xF2 2 0 0 0 0)
  | .tlbinv a all reach => some (encSy 0xF3 0 0 a 0 (0#12 ++ reach ++ 0#1 ++ b1 all))
  | .putsrTstat a => some (encPutsr .tstat a) | .putsrFpmode a => some (encPutsr .fpmode a)
  | .putsrFpflags a => some (encPutsr .fpflags a) | .lsplitWrite a => some (encPutsr .lsplit a)
  | .vgroupWrite a => some (encPutsr .vgroup a) | .hashmaskWrite n a => some (encPutsr (.hashmask n) a)
  | .bktdataWrite a => some (encPutsr .bktdata a) | .fwinWrite n a => some (encPutsr (.fwin n) a)
  | .cluflagsWrite a => some (encPutsr .cluflags a) | .packflagsWrite a => some (encPutsr .packflags a)
  | .ptrootWrite a => some (encPutsr .ptroot a)
  | _ => none

/-- The instruction the decoder reads from the word whose bits are w (R51: one 64-bit little-endian word). -/
def decodeTableWord (_nbits w : Nat) : Option Instr :=
  match decodeWord (BitVec.ofNat 64 w) with
  | .ok i => some i
  | .error _ => none

end Sys2Proof
end

