-- ==== Sys2Proof/Machine/Bits.lean ====
section
/-! DEFINITION. Bit fields, byte order, sign extension, and the lanes of vector registers (R8, R97, R284). -/
namespace Sys2Proof

/-- The low n bytes of a number, least significant first (R8: little-endian). -/
def leBytes : Nat → Nat → List Byte
  | 0, _ => []
  | n + 1, v => BitVec.ofNat 8 v :: leBytes n (v / 256)

/-- The number whose bytes, least significant first, are the list. -/
def leNat : List Byte → Nat
  | [] => 0
  | b :: bs => b.toNat + 256 * leNat bs

/-- A w-bit number read as two's complement. -/
def sxInt (w v : Nat) : Int :=
  let v := v % 2 ^ w
  if 2 * v < 2 ^ w then (v : Int) else (v : Int) - (2 ^ w : Nat)

/-- An integer modulo 2^w. -/
def wrapNat (w : Nat) (i : Int) : Nat := (i % ((2 ^ w : Nat) : Int)).toNat

/-- Sign extension of the low w bits of a word. -/
def sxWord (w v : Nat) : Word := BitVec.ofInt 64 (sxInt w v)

/-- Bits [hi:lo] of a word, as a number. -/
def Word.bits (w : Word) (hi lo : Nat) : Nat := (w.toNat >>> lo) % 2 ^ (hi + 1 - lo)

/-- Bit i of a word. -/
def Word.bit (w : Word) (i : Nat) : Bool := w.getLsbD i

/-- A word whose field [hi:lo] is v, added to others with `|||`. -/
def field (lo v : Nat) : Word := BitVec.ofNat 64 (v <<< lo)

/-- The numbers 0 to n − 1. -/
def upTo (n : Nat) : List Nat := List.range n

/-- The bytes that SIZE names (R63). -/
def Size.bytes : Size → Nat
  | .b => 1
  | .h => 2
  | .w => 4
  | .d => 8

/-! ## Lanes -/

/-- Lane j, of s bytes, of a vector register (R284). -/
def VWord.lane (v : VWord) (s j : Nat) : Nat := (v.toNat >>> (8 * s * j)) % 2 ^ (8 * s)

/-- The number whose s-byte digits are the list, lane 0 first. -/
def joinLanes (s : Nat) : List Nat → Nat
  | [] => 0
  | x :: xs => x % 2 ^ (8 * s) + 2 ^ (8 * s) * joinLanes s xs

/-- The vector register with these lanes. -/
def VWord.ofLanes (s : Nat) (xs : List Nat) : VWord := BitVec.ofNat 512 (joinLanes s xs)

/-- Lane j is enabled when bit j × s of the predicate is set (R284). -/
def laneOn (p : Word) (s j : Nat) : Bool := p.getLsbD (j * s)

/-- The element-wise scheme of R284: enabled lanes get the value, the others keep theirs. -/
def VWord.mapLanes (old : VWord) (p : Word) (s : Nat) (f : Nat → Nat) : VWord :=
  VWord.ofLanes s ((upTo (64 / s)).map fun j => if laneOn p s j then f j else old.lane s j)

/-- Byte i of a vector register. -/
def VWord.byte (v : VWord) (i : Nat) : Byte := v.extractLsb' (8 * i) 8

/-- The bytes of a vector register, byte 0 first. -/
def VWord.bytes (v : VWord) : List Byte := (upTo 64).map v.byte

/-- A vector register from its bytes; missing bytes are zero. -/
def VWord.ofBytes (bs : List Byte) : VWord := BitVec.ofNat 512 (leNat (bs.take 64))

/-- The number of leading zero bits of a w-bit number. -/
def clzNat (w v : Nat) : Nat := if v % 2 ^ w = 0 then w else w - 1 - Nat.log2 (v % 2 ^ w)

/-- The number of trailing zero bits of a w-bit number, by examining bits upward. -/
def ctzNat : Nat → Nat → Nat
  | 0, _ => 0
  | w + 1, v => if v % 2 = 1 then 0 else 1 + ctzNat w (v / 2)

/-- The number of one bits of a w-bit number. -/
def popNat : Nat → Nat → Nat
  | 0, _ => 0
  | w + 1, v => v % 2 + popNat w (v / 2)

/-- The largest n with n * n ≤ v, found bit by bit from bit k downward. -/
def isqrtFrom (v : Nat) : Nat → Nat → Nat
  | 0, r => if (r + 1) * (r + 1) ≤ v then r + 1 else r
  | k + 1, r =>
    let r' := r + 2 ^ (k + 1)
    isqrtFrom v k (if r' * r' ≤ v then r' else r)

/-- The integer square root. -/
def isqrt (v : Nat) : Nat := isqrtFrom v (Nat.log2 v / 2 + 1) 0

end Sys2Proof
end

