-- ==== Sys2Proof/Machine/HandleRec.lean ====
section
/-! DEFINITION. Handle records as data (R230, R238 to R244): fields, layouts, addresses, spans and validation. -/
namespace Sys2Proof

/-- Bits [lo + n − 1 : lo] of a record, as a number. -/
def HWord.fld (h : HWord) (lo n : Nat) : Nat := (h.toNat >>> lo) % 2 ^ n

/-- The record with the n bits from lo replaced. -/
def HWord.setFld (h : HWord) (lo n v : Nat) : HWord :=
  BitVec.ofNat 1024 (h.toNat - (h.fld lo n) * 2 ^ lo + (v % 2 ^ n) * 2 ^ lo)

def HWord.base (h : HWord) : Nat := h.fld 0 64
def HWord.nbase (h : HWord) : Nat := h.fld 64 64
def HWord.etype (h : HWord) : Nat := h.fld 128 4
def HWord.rank (h : HWord) : Nat := h.fld 132 3
def HWord.ltag (h : HWord) : Nat := h.fld 144 16
def HWord.nltag (h : HWord) : Nat := h.fld 160 16
def HWord.fill (h : HWord) : Nat := h.fld 192 64
def HWord.ext (h : HWord) (k : Nat) : Nat := h.fld (256 + 32 * k) 32
def HWord.stride (h : HWord) (k : Nat) : Nat := h.fld (384 + 64 * k) 64
def HWord.tdim (h : HWord) (k : Nat) : Nat := h.fld (640 + 16 * k) 16
def HWord.map (h : HWord) : Nat := h.fld 704 64
def HWord.scale (h : HWord) : Nat := h.fld 768 64

/-- The element type, `bytes` where the code is reserved. -/
def HWord.elem (h : HWord) : ElemType := (ElemType.ofCode (BitVec.ofNat 4 h.etype)).getD .bytes

/-- s of R238. -/
def HWord.esize (h : HWord) : Nat := h.elem.size

/-- The byte of FILL at byte x of a row. -/
def HWord.fillByte (h : HWord) (x : Nat) : Byte := BitVec.ofNat 8 (h.fill / 256 ^ (x % h.esize))

/-- The extent of coordinate k, 1 at and above RANK (EXT′ of R241). -/
def HWord.ext' (h : HWord) (k : Nat) : Nat := if k < h.rank then h.ext k else 1

/-- ⌈a / b⌉. -/
def ceilDiv (a b : Nat) : Nat := (a + b - 1) / b

/-- A layout tag (R239). -/
structure LTag where
  kind : Nat
  la : Nat
  lb : Nat
  deriving DecidableEq, Repr

def LTag.of (t : Nat) : LTag := ⟨t % 8, (t / 8) % 16, (t / 128) % 16⟩

/-- ROW, COL and BLOCKSCALED address through strides. -/
def LTag.strided (t : LTag) : Bool := t.kind == 1 || t.kind == 2 || t.kind == 5

/-- The coordinates in dense order, fastest first (R240). -/
def LTag.order (t : LTag) (rank : Nat) : List Nat :=
  if t.kind = 2 ∧ 2 ≤ rank then [1, 0, 2, 3] else [0, 1, 2, 3]

/-- The dense strides along an order of coordinates: each coordinate with its stride. -/
def denseAlong (h : HWord) : List Nat → Nat → List (Nat × Nat)
  | [], _ => []
  | o :: os, st => (o, st) :: denseAlong h os (st * h.ext o)

/-- The dense strides of a layout for a record's type and extents, in coordinate order; zero for TILED and PANEL and at
and above RANK (R232, R240). -/
def denseStrides (h : HWord) (t : LTag) : List Nat :=
  if t.strided then
    let ps := denseAlong h ((t.order h.rank).filter (· < h.rank)) h.esize
    (upTo 4).map (fun k => ((ps.find? (fun p => p.1 == k)).map (·.2)).getD 0)
  else [0, 0, 0, 0]

/-- One side of a handle: its base, layout and strides. -/
structure HSide where
  base : Nat
  tag : LTag
  strides : List Nat
  deriving DecidableEq, Repr

/-- The side described by BASE, LTAG and the STRIDE fields. -/
def HWord.oldSide (h : HWord) : HSide := ⟨h.base, LTag.of h.ltag, (upTo 4).map h.stride⟩
/-- The side described by NBASE and NLTAG with its dense strides (R232). -/
def HWord.newSide (h : HWord) : HSide := ⟨h.nbase, LTag.of h.nltag, denseStrides h (LTag.of h.nltag)⟩

/-- The bytes of one plane of a TILED or PANEL tensor: PT or PP of R240. -/
def HSide.plane (d : HSide) (h : HWord) : Nat :=
  if d.tag.kind = 3 then
    ceilDiv (h.ext' 0) (2 ^ d.tag.la) * ceilDiv (h.ext' 1) (2 ^ d.tag.lb) * 2 ^ (d.tag.la + d.tag.lb) * h.esize
  else ceilDiv (h.ext' 0) (256 / h.esize) * ceilDiv (h.ext' 1) 32 * 8192

/-- Coordinate k of a list. -/
def coord (is : List Nat) (k : Nat) : Nat := is.getD k 0

/-- The byte offset of an element from its side's base (R230, R240). -/
def HSide.offset (d : HSide) (h : HWord) (is : List Nat) : Nat :=
  let i0 := coord is 0
  let i1 := coord is 1
  let pl := coord is 2 + coord is 3 * h.ext' 2
  let s := h.esize
  if d.tag.strided then (upTo 4).foldl (fun acc k => acc + coord is k * d.strides.getD k 0) 0
  else if d.tag.kind = 3 then
    let ta := 2 ^ d.tag.la
    let tb := 2 ^ d.tag.lb
    pl * d.plane h + ((i1 / tb) * ceilDiv (h.ext' 0) ta + i0 / ta) * (ta * tb) * s + ((i1 % tb) * ta + i0 % ta) * s
  else
    let k := 256 / s
    pl * d.plane h + ((i1 / 32) * ceilDiv (h.ext' 0) k + i0 / k) * 8192 + (i1 % 32) * 256 + (i0 % k) * s

/-- The address of an element on a side, modulo 2^64. -/
def HSide.addr (d : HSide) (h : HWord) (is : List Nat) : Nat := (d.base + d.offset h is) % 2 ^ 64

/-- The span of a side: its first byte and one past its last (R241). -/
def HSide.span (d : HSide) (h : HWord) : Nat × Nat :=
  if d.tag.strided then
    (d.base, d.base + (upTo 4).foldl (fun acc k => acc + (h.ext' k - 1) * d.strides.getD k 0) 0 + h.esize)
  else (d.base, d.base + h.ext' 2 * h.ext' 3 * d.plane h)

/-- An element is inside when every coordinate lies below its extent (R246). -/
def HWord.inside (h : HWord) (is : List Nat) : Bool := (upTo 4).all (fun k => coord is k < h.ext' k)

/-- The packed coordinates of an operand (R230). -/
def unpackCoords (w : Word) : List Nat := (upTo 4).map (fun k => Word.bits w (16 * k + 15) (16 * k))

/-- Coordinates at or above RANK must be zero (R230). -/
def HWord.coordsOk (h : HWord) (is : List Nat) : Bool := (upTo 4).all (fun k => k < h.rank || coord is k == 0)

/-! ## Validation (R242, R243) -/

/-- The first byte of the local-scratch window, and one past its last (R165). -/
def scratchBase : Nat := 0x1FFFFFFFC0000
def scratchEnd : Nat := 0x2000000000000

/-- Whether an address lies in the local-scratch window. -/
def inScratch (a : Nat) : Bool := scratchBase ≤ a && a < scratchEnd

/-- A failed check: sub-code, coordinate, new side. -/
structure BadShape where
  sub : Nat
  coord : Nat
  new : Bool
  deriving DecidableEq, Repr

def BadShape.tval (b : BadShape) : Word := field 0 b.sub ||| field 4 b.coord ||| field 6 b.new.toNat

/-- A tag that R239 admits for the record. -/
def HWord.tagOk (h : HWord) (t : Nat) : Bool :=
  let g := LTag.of t
  g.kind != 0 && g.kind < 6 && t < 2 ^ 11 &&
  (if g.kind = 3 then g.la ≤ 8 && g.lb ≤ 8 else g.la == 0 && g.lb == 0) &&
  (!(g.kind == 3 || g.kind == 4) || 2 ≤ h.rank) &&
  (g.kind != 5 || h.esize == 1)

/-- Sub-code 1. -/
def HWord.check1 (h : HWord) : Bool :=
  1 ≤ h.etype && h.etype ≤ 13 && 1 ≤ h.rank && h.rank ≤ 4 && h.tagOk h.ltag &&
  h.fill < 2 ^ (8 * h.esize) &&
  (upTo 4).all (fun k => k < h.rank || (h.ext k == 0 && h.stride k == 0 && h.tdim k == 0)) &&
  (if h.nltag = 0 then h.nbase == 0
   else h.tagOk h.nltag && h.map != 0 && h.map % 8 == 0 && !inScratch h.map) &&
  (h.scale == 0 || (LTag.of h.ltag).kind == 5) &&
  h.fld 135 9 == 0 && h.fld 176 16 == 0 && h.fld 832 192 == 0

/-- Sub-code 2: the first coordinate whose extent or TDIM fails. -/
def HWord.check2 (h : HWord) : Option Nat :=
  (upTo h.rank).find? (fun k => h.ext k == 0 || h.ext k > 65536 || h.tdim k == 0)

/-- Sub-code 3 along the dense order: the least stride each coordinate needs. -/
def strideFail (h : HWord) (d : HSide) : List Nat → Nat → Option Nat
  | [], _ => none
  | o :: os, need =>
    let st := d.strides.getD o 0
    if st < need then some o else strideFail h d os (st * h.ext o)

def HSide.check3 (d : HSide) (h : HWord) : Option Nat :=
  if d.tag.strided then strideFail h d ((d.tag.order h.rank).filter (· < h.rank)) h.esize
  else (upTo 4).find? (fun k => d.strides.getD k 0 != 0)

def HSide.check4 (d : HSide) (h : HWord) : Bool :=
  d.base % h.esize == 0 && (d.tag.strided || d.base % 256 == 0) &&
  (d.tag.kind != 5 || (h.scale != 0 && h.scale % 128 == 0))

def HSide.check5 (d : HSide) (h : HWord) : Bool :=
  let (lo, hi) := d.span h
  hi ≤ scratchBase || (scratchBase ≤ lo && hi ≤ scratchEnd)

/-- Sub-codes 3 to 5 of one side. -/
def HSide.validate (d : HSide) (h : HWord) (new : Bool) : Option BadShape :=
  match d.check3 h with
  | some k => some ⟨3, k, new⟩
  | none =>
    if !d.check4 h then some ⟨4, 0, new⟩
    else if !d.check5 h then some ⟨5, 0, new⟩
    else none

/-- R242: the first failing check of a record. -/
def HWord.validate (h : HWord) : Option BadShape :=
  if !h.check1 then some ⟨1, 0, false⟩
  else match h.check2 with
  | some k => some ⟨2, k, false⟩
  | none =>
    match h.oldSide.validate h false with
    | some b => some b
    | none => if h.nltag = 0 then none else h.newSide.validate h true

/-- The 4 KiB block of the new span that holds an element's new address (R233). -/
def HWord.block (h : HWord) (is : List Nat) : Nat := h.newSide.offset h is / 4096

/-- The number of blocks of the new span. -/
def HWord.blocks (h : HWord) : Nat :=
  let (lo, hi) := h.newSide.span h
  ceilDiv (hi - lo) 4096

/-- The mixed-radix digits of an element's place along an order of coordinates. -/
def placeDigits (h : HWord) : List Nat → Nat → List (Nat × Nat)
  | [], _ => []
  | o :: os, n => (o, n % h.ext o) :: placeDigits h os (n / h.ext o)

/-- The coordinates of the unit at a byte offset of the new storage (R232, R240). -/
def HWord.newCoords (h : HWord) (off : Nat) : List Nat :=
  let d := h.newSide
  let s := h.esize
  if d.tag.strided then
    let ps := placeDigits h ((d.tag.order h.rank).filter (· < h.rank)) (off / s)
    (upTo 4).map (fun k => ((ps.find? (fun p => p.1 == k)).map (·.2)).getD 0)
  else
    let pl := off / d.plane h
    let r := off % d.plane h
    let hi := [pl % h.ext' 2, pl / h.ext' 2]
    if d.tag.kind = 3 then
      let ta := 2 ^ d.tag.la
      let tb := 2 ^ d.tag.lb
      let across := ceilDiv (h.ext' 0) ta
      let tile := r / (ta * tb * s)
      let u := r % (ta * tb * s) / s
      [tile % across * ta + u % ta, tile / across * tb + u / ta] ++ hi
    else
      let k := 256 / s
      let across := ceilDiv (h.ext' 0) k
      let panel := r / 8192
      [panel % across * k + r % 256 / s, panel / across * 32 + r % 8192 / 256] ++ hi

/-- The units of block b of the new storage (R233, R247): each one's offset, with the coordinates of its element, or none
where it is padding. -/
def HWord.unitsOfBlock (h : HWord) (b : Nat) : List (Nat × Option (List Nat)) :=
  let (lo, hi) := h.newSide.span h
  let n := min 4096 (hi - lo - 4096 * b)
  (upTo (n / h.esize)).map (fun i =>
    let off := 4096 * b + i * h.esize
    let is := h.newCoords off
    (off, if h.inside is then some is else none))

end Sys2Proof
end

