-- ==== Sys2Proof/Machine/Flags.lean ====
section
/-! DEFINITION. The six flags of FPFLAGS (R117, R276) as a bit vector, bits 0 to 5. -/
namespace Sys2Proof

/-- FPFLAGS [5:0]. -/
abbrev Flags := BitVec 6

/-- No flag. -/
def Flags.none : Flags := 0#6
def Flags.nv : Flags := 1#6
def Flags.dz : Flags := 2#6
def Flags.of : Flags := 4#6
def Flags.uf : Flags := 8#6
def Flags.nx : Flags := 16#6
def Flags.sat : Flags := 32#6

/-- The flag when the condition holds. -/
def Flags.when (c : Bool) (f : Flags) : Flags := if c then f else 0#6

end Sys2Proof
end

