-- ==== Sys2Proof/Machine/ClauseArray.lean ====
section
/-! DEFINITION. The clause array as data (R140 to R159): columns, trail, waves, and the clause image of R160. A row's value
and level are those of its trail entry: every assigned row has exactly one (R149). -/
namespace Sys2Proof

/-- A loaded column: the rows with a positive and with a negative literal; a row in both is BOTH. -/
structure CColumn where
  pos : BitVec 128
  neg : BitVec 128
  deriving DecidableEq, Repr

/-- A trail entry (R146). -/
structure CEntry where
  row : Nat
  value : Bool
  level : Nat
  decided : Bool
  reason : Nat
  wave : Nat
  deriving DecidableEq, Repr

/-- The conflict report (R145). -/
structure CConflict where
  column : Nat
  level : Nat
  wave : Nat
  deriving DecidableEq, Repr

/-- The program clause array of a cluster: the loaded columns in ascending order, the level, the trail in order of
assignment, and the conflict report. -/
structure ClauseArray where
  cols : List (Nat × CColumn)
  level : Nat
  trail : List CEntry
  conf : Option CConflict
  deriving DecidableEq, Repr

/-- The state `cclaim` leaves (R140). -/
def ClauseArray.empty : ClauseArray := { cols := [], level := 0, trail := [], conf := none }

/-- The capacity word of `cclaim`. -/
def ClauseArray.capacity : Word := 0x0000000002000080

/-- The value of a row. -/
def ClauseArray.val (c : ClauseArray) (r : Nat) : Option Bool := (c.trail.find? (fun e => e.row == r)).map (·.value)

/-- USED (R140): some loaded column has a cell other than NONE in the row. -/
def ClauseArray.used (c : ClauseArray) (r : Nat) : Bool := c.cols.any (fun k => (k.2.pos ||| k.2.neg).getLsbD r)

/-- The rows whose value is true, and those with any value. -/
def ClauseArray.masks (c : ClauseArray) : BitVec 128 × BitVec 128 :=
  c.trail.foldl (fun m e =>
    let bit := BitVec.ofNat 128 (2 ^ e.row)
    (if e.value then m.1 ||| bit else m.1, m.2 ||| bit)) (0, 0)

/-- The states of a loaded column (R142, R150). -/
inductive ColState where
  | satisfied | conflict
  | unit (row : Nat) (value : Bool)
  | opened
  deriving DecidableEq, Repr

/-- The state of a column under the rows that are true (`t`) and assigned (`a`). -/
def CColumn.state (k : CColumn) (t a : BitVec 128) : ColState :=
  let sat := (k.pos &&& t) ||| (k.neg &&& a &&& ~~~t) ||| (k.pos &&& k.neg)
  let free := (k.pos ||| k.neg) &&& ~~~a
  if sat ≠ 0 then .satisfied
  else if free = 0 then .conflict
  else
    let r := Nat.log2 free.toNat
    if free = BitVec.ofNat 128 (2 ^ r) then .unit r (k.pos.getLsbD r) else .opened

/-- A column replaced by `cload` (R141), in ascending column order. -/
def colSet (n : Nat) (k : CColumn) : List (Nat × CColumn) → List (Nat × CColumn)
  | [] => [(n, k)]
  | (m, k') :: rest =>
    if n < m then (n, k) :: (m, k') :: rest
    else if n = m then (n, k) :: rest
    else (m, k') :: colSet n k rest

/-- The column that the 32 literal halves of a vector register describe (R141). -/
def columnOf (v : VWord) : CColumn :=
  (upTo 32).foldl (fun k i =>
    let h := v.lane 2 i
    if h.testBit 15 then
      let bit := BitVec.ofNat 128 (2 ^ (h % 128))
      if h.testBit 8 then { k with neg := k.neg ||| bit } else { k with pos := k.pos ||| bit }
    else k) ⟨0, 0⟩

def ClauseArray.load (c : ClauseArray) (n : Nat) (v : VWord) : ClauseArray :=
  { c with cols := colSet n (columnOf v) c.cols }

/-- `cdrop` (R155). -/
def ClauseArray.drop (c : ClauseArray) (n : Nat) : ClauseArray :=
  { c with cols := c.cols.filter (fun k => k.1 != n) }

/-- `cdec` of an unassigned row (R144). -/
def ClauseArray.decide (c : ClauseArray) (row : Nat) (value : Bool) : ClauseArray :=
  { c with level := c.level + 1, trail := c.trail ++ [⟨row, value, c.level + 1, true, 0, 0⟩] }

/-- `cback` (R147, R158). -/
def ClauseArray.back (c : ClauseArray) (t : Nat) : ClauseArray :=
  { c with trail := c.trail.filter (fun e => e.level ≤ t), level := min c.level t, conf := none }

/-- The lowest conflicting column. -/
def firstConflict (t a : BitVec 128) : List (Nat × CColumn) → Option Nat
  | [] => none
  | (n, k) :: rest => if k.state t a = .conflict then some n else firstConflict t a rest

/-- The rows forced in a wave, each with its value and its reason: the lowest column that forces it. -/
def forcedRows (t a : BitVec 128) : List (Nat × CColumn) → List (Nat × Bool × Nat) → List (Nat × Bool × Nat)
  | [], acc => acc
  | (n, k) :: rest, acc =>
    match k.state t a with
    | .unit r v => forcedRows t a rest (if acc.any (fun f => f.1 == r) then acc else acc ++ [(r, v, n)])
    | _ => forcedRows t a rest acc

/-- The forced rows as trail entries, in ascending row order. -/
def forcedEntries (level wave : Nat) (fs : List (Nat × Bool × Nat)) : List CEntry :=
  (upTo 128).filterMap (fun r => (fs.find? (fun f => f.1 == r)).map (fun f => ⟨r, f.2.1, level, false, f.2.2, wave⟩))

/-- The `cprop` word (R143). -/
def ClauseArray.word (c : ClauseArray) (status waves forced : Nat) : Word :=
  field 0 status ||| field 8 waves ||| field 16 forced ||| field 24 c.level ||| field 32 c.trail.length

/-- The waves of `cprop` (R157); 129 is the most that can run. -/
def ClauseArray.waves : Nat → Nat → Nat → ClauseArray → ClauseArray × Word
  | 0, w, f, c => (c, c.word 0 w f)
  | fuel + 1, w, f, c =>
    let w := w + 1
    let (t, a) := c.masks
    match firstConflict t a c.cols with
    | some col =>
      let c := { c with conf := some ⟨col, c.level, w⟩ }
      (c, c.word 2 w f)
    | none =>
      let new := forcedEntries c.level w (forcedRows t a c.cols [])
      if new.isEmpty then
        (c, c.word (if (upTo 128).all (fun r => !c.used r || a.getLsbD r) then 1 else 0) w f)
      else ClauseArray.waves fuel w (f + new.length) { c with trail := c.trail ++ new }

/-- `cprop` (R157). -/
def ClauseArray.prop (c : ClauseArray) : ClauseArray × Word :=
  if c.conf.isSome then (c, c.word 2 0 0) else ClauseArray.waves 129 0 0 c

/-- A trail entry as `ctrail` returns it (R146). -/
def CEntry.word (e : CEntry) : Word :=
  field 0 e.row ||| field 7 e.value.toNat ||| field 8 e.level ||| field 16 e.decided.toNat ||| field 32 e.reason |||
  field 48 e.wave

def CEntry.ofWord (w : Word) : CEntry :=
  { row := Word.bits w 6 0, value := Word.bit w 7, level := Word.bits w 15 8, decided := Word.bit w 16,
    reason := Word.bits w 40 32, wave := Word.bits w 55 48 }

/-- `ctrail` (R146). -/
def ClauseArray.trailWord (c : ClauseArray) (i : Nat) : Word :=
  match c.trail[i]? with
  | some e => e.word
  | none => 0

/-- `crow` (R144). -/
def ClauseArray.rowWord (c : ClauseArray) (r : Nat) : Word :=
  field 24 (c.used r).toNat |||
  (match c.trail.find? (fun e => e.row == r) with
   | some e => field 0 1 ||| field 1 e.value.toNat ||| field 8 e.level
   | none => 0)

/-- `cconf` (R145). -/
def ClauseArray.confWord (c : ClauseArray) : Word :=
  match c.conf with
  | some k => field 0 k.column ||| field 16 k.level ||| field 24 k.wave ||| field 32 1
  | none => 0

/-! ## The clause image (R160) -/

/-- Bits 2n and 2n + 1 of a column's cells: NONE 0, POS 1, NEG 2, BOTH 3. -/
def CColumn.cells (k : CColumn) : Nat :=
  (upTo 128).foldl (fun acc n => acc + ((k.pos.getLsbD n).toNat + 2 * (k.neg.getLsbD n).toNat) * 4 ^ n) 0

def CColumn.ofCells (v : Nat) : CColumn :=
  (upTo 128).foldl (fun k n =>
    let bit := BitVec.ofNat 128 (2 ^ n)
    { pos := if v.testBit (2 * n) then k.pos ||| bit else k.pos,
      neg := if v.testBit (2 * n + 1) then k.neg ||| bit else k.neg }) ⟨0, 0⟩

/-- The 17,792 bytes of the image; `rank` is RANKH. -/
def ClauseArray.image (c : ClauseArray) (rank : Nat) : List Byte :=
  let loaded := c.cols.foldl (fun acc k => acc + 2 ^ k.1) 0
  let rows := (upTo 128).flatMap (fun r => leBytes 2 ((c.rowWord r).toNat % 2 ^ 16))
  let col (n : Nat) : CColumn := ((c.cols.find? (fun k => k.1 == n)).map (·.2)).getD ⟨0, 0⟩
  leBytes 8 (rank % 2 ^ 32 + 2 ^ 32) ++ leBytes 8 c.confWord.toNat ++ leBytes 2 c.level ++ leBytes 2 c.trail.length ++
  leBytes 44 0 ++ leBytes 64 loaded ++ rows ++
  (upTo 128).flatMap (fun i => leBytes 8 (c.trailWord i).toNat) ++
  (upTo 512).flatMap (fun n => leBytes 32 (col n).cells)

/-- The holder's rank and the array that an image describes; USED bits follow from the cells. -/
def ClauseArray.ofImage (bs : List Byte) : Nat × ClauseArray :=
  let at_ (off n : Nat) : Nat := leNat ((bs.drop off).take n)
  let conf := BitVec.ofNat 64 (at_ 8 8)
  let loaded := at_ 0x40 64
  let tlen := at_ 18 2
  (at_ 0 4,
   { cols := (upTo 512).filterMap (fun n =>
       if loaded.testBit n then some (n, CColumn.ofCells (at_ (0x580 + 32 * n) 32)) else none),
     level := at_ 16 1,
     trail := (upTo tlen).map (fun i => CEntry.ofWord (BitVec.ofNat 64 (at_ (0x180 + 8 * i) 8))),
     conf := if Word.bit conf 32 then some ⟨Word.bits conf 8 0, Word.bits conf 23 16, Word.bits conf 31 24⟩ else none })

end Sys2Proof
end

