-- ==== Sys2Proof/Machine/ReactTypes.lean ====
section
/-! DEFINITION. The data of kennels, rounds and activations (R10 to R50, R126 to R138). -/
namespace Sys2Proof.Machine

/-- A tile record (R22). -/
structure Tile where
  kind : BitVec 16
  prog : Byte
  ovf : Bool
  age : BitVec 32
  key : Word
  f0 : BitVec 32
  f1 : BitVec 32
  f2 : BitVec 32
  f3 : BitVec 32
  deriving DecidableEq, Repr

/-- A tile in a kennel slot: free, or held by a started activation (R28). -/
structure Resident where
  tile : Tile
  held : Bool
  deriving DecidableEq, Repr

/-- A candidate in a slot of the match unit (R11, R13, R28). -/
structure Cand where
  slot : Nat
  rule : Nat
  ages : List (BitVec 32)
  skips : Nat
  rejected : Bool
  deriving DecidableEq, Repr

/-- A round's record as `arbrd` reads it (R14, R132): the summary word, then the trail entries. -/
structure RoundRec where
  summary : Word
  trail : List Word
  deriving DecidableEq, Repr

def RoundRec.zero : RoundRec := ⟨0, []⟩

/-- A kennel, for the run that occupies its cluster: residents in ascending age, candidates in ascending slot, the
overflow ring oldest first with the ring slot of its oldest tile, and the four counters of R45. -/
structure Kennel where
  tiles : List Resident
  ageCtr : BitVec 32
  actSeq : BitVec 32
  ins : Nat
  rem : Nat
  snd : Nat
  rcv : Nat
  cands : List Cand
  ring : List Tile
  ringHead : Nat
  rounds : Nat
  lastRound : RoundRec
  lastStart : Nat
  resSlots : Nat
  resRing : Nat
  unacked : Nat
  bad : List (BitVec 32)
  deriving DecidableEq, Repr

/-- A kennel at the release of a run: the age counter starts at 1 (R10). -/
def Kennel.fresh : Kennel :=
  { tiles := [], ageCtr := 1, actSeq := 0, ins := 0, rem := 0, snd := 0, rcv := 0, cands := [], ring := [], ringHead := 0, rounds := 0,
    lastRound := RoundRec.zero, lastStart := 0, resSlots := 0, resRing := 0, unacked := 0, bad := [] }

/-- A predicate of a rule (R25). -/
structure RulePred where
  op : Nat
  ti : Nat
  fa : Nat
  tj : Nat
  fb : Nat
  kc : Bool
  cval : BitVec 32
  deriving DecidableEq, Repr

/-- A rule (R24). -/
structure Rule where
  kinds : List (BitVec 16)
  prio : Nat
  paired : Bool
  usesMat : Bool
  usesClause : Bool
  preds : List RulePred
  foot : Nat
  entry : Word
  deriving DecidableEq, Repr

/-- The place of a product in the emit order (R128): before a fork region, inside it by subrange, after. -/
structure EmitKey where
  phase : Nat
  sub : Nat
  deriving DecidableEq, Repr

/-- A run record queued by `runq` (R134). -/
structure QueuedRun where
  addr : Word
  queue : Nat
  deriving DecidableEq, Repr

/-- The ending an activation has issued (R129). -/
inductive Ending where
  | done | abort | reject
  deriving DecidableEq, Repr

end Sys2Proof.Machine
end

