-- ==== Sys2Proof/Machine/UnitTypes.lean ====
section
/-! DEFINITION. The data of a cluster's units: byte stores, TLBs and misses, barriers, copies, tile entries, fills and
drains, relayouts, the array and the leash (R165 to R268, R303 to R318, R372 to R376). -/
namespace Sys2Proof.Machine

/-- Bytes by address: addresses strictly rising, no entry equal to zero, which is what an unlisted address reads as. -/
abbrev ByteMap := List Host.Cell

/-- A map from numbers to data, keys strictly rising; a key that is not listed has the map's default. -/
abbrev NMap (α : Type) := List (Nat × α)

/-- A translation held in a TLB (R372, R374): a page of a virtual function, its size as the number of offset bits, its
physical base and permissions. -/
structure TlbEntry where
  vf : Nat
  va : Nat
  bits : Nat
  pa : Nat
  r : Bool
  w : Bool
  x : Bool
  deriving DecidableEq, Repr

/-- Who raised a translation fault (AGENT of R376); the front end for a run (0 for the appender), at its own address. -/
inductive Agent where
  | thread (t : TsId)
  | copyPipe (t : TsId) (id : BitVec 16)
  | fillPipe (n : TileIx)
  | drainPipe (n : TileIx)
  | relayout (map : Word)
  | frontEnd (run : Nat) (va : Word)
  deriving DecidableEq, Repr

/-- An entry of a cluster's miss file (R374): the page, the address, FID and KIND of its fault, whether the fault has been
answered SERVE, the agents asleep on it, and the KINDs of their accesses. -/
structure Miss where
  vf : Nat
  page : Nat
  va : Word
  fid : Nat
  kind : Nat
  served : Bool
  agents : List Agent
  kinds : List Nat
  deriving DecidableEq, Repr

/-- A private copy of a line with its lease, the write time of its bytes, and its consecutive hits (R181, R346); `victim` is
set for a copy that another member of the group evicted (R182), `bad` marks its poisoned sectors (R386, R388). -/
structure PrivLine where
  line : Nat
  bytes : List Byte
  lease : Nat
  wt : Nat
  hits : Nat
  keep : Bool
  victim : Bool
  bad : BitVec 4
  deriving DecidableEq, Repr

/-- A tentative line, a core whose thread set stored to it, and whether under `.ev` (R63, R181). -/
structure StoreMark where
  line : Nat
  cluster : Nat
  core : Nat
  ev : Bool
  deriving DecidableEq, Repr

/-- A byte barrier (R175). -/
structure Barrier where
  credit : BitVec 32
  expect : BitVec 32
  armed : Bool
  err : BitVec 2
  deriving DecidableEq, Repr

def Barrier.zero : Barrier := ⟨0, 0, false, 0⟩

/-- The five wait classes (R215). -/
inductive WClass where
  | ld | st | cp | tl | ms
  deriving DecidableEq, Repr

/-- The counts of the wait classes of a thread set. -/
structure Counts where
  ld : Nat
  st : Nat
  cp : Nat
  tl : Nat
  ms : Nat
  deriving DecidableEq, Repr

def Counts.zero : Counts := ⟨0, 0, 0, 0, 0⟩

/-- The trap of a failed asynchronous operation that is still pending (R216, R226, R261, R359); `reach` is the code of the
narrowest scope of a fence that waits for the operation (R217), `reg` the register that a poisoned atomic did not
write, `copy` the ID of a failed copy (R382). -/
structure PendTrap where
  order : Nat
  cls : WClass
  reach : Nat
  cause : Nat
  tval : Word
  reg : Option XReg
  copy : Option (BitVec 16)
  deriving DecidableEq, Repr

/-- The status of a copy (R222, R227): STATE 1 running, 2 suspended, 3 done, 4 failed; PEND of R382. -/
structure CopyStat where
  id : BitVec 16
  state : Nat
  segs : Nat
  deriving DecidableEq, Repr

/-- The eight shadow fields in AUX order (R219). -/
abbrev Shadow := Vector Word 8

/-- A copy in the copy engine (R221 to R226): the stint of its thread set, the snapshot, the handle record of a handle side,
the row and the byte of the destination row at which its next segment begins, the segments written, whether it is
suspended on a fault, the destination bytes that it has passed, and, through a relaying handle, the source bytes already read
(by row and place in it) and the destination lines already written (R247). -/
structure CopyOp where
  thread : TsId
  stint : Nat
  act : Option ActKey
  id : BitVec 16
  order : Nat
  fields : Shadow
  hrec : HWord
  row : Nat
  off : Nat
  segs : Nat
  suspended : Bool
  moved : Nat
  kept : List ((Nat × Nat) × Byte)
  done : List (Nat × Nat)
  deriving DecidableEq, Repr

/-- The state of a tile-table entry (R253). -/
inductive TileState where
  | empty | filling | ready | draining
  deriving DecidableEq, Repr

/-- A tile-table entry (R253). -/
structure TileEntry where
  desc : Word
  state : TileState
  seq : BitVec 32
  ferr : Bool
  bytes : Nat
  deriving DecidableEq, Repr

def TileEntry.zero : TileEntry := ⟨0, .empty, 0, false, 0⟩

/-- A litter (R256): slot count, bound slots (slot, entry), producer counter. -/
structure Litter where
  n : Nat
  slots : List (Nat × Nat)
  pseq : BitVec 32
  deriving DecidableEq, Repr

def Litter.zero : Litter := ⟨0, [], 0⟩

/-- A fill or drain under way (R258): the handle's snapshot, the coordinates of the box, where its next segment begins, and,
through a relaying handle, the bytes already read and the lines already written (R247). -/
structure MoveOp where
  drain : Bool
  tile : TileIx
  thread : TsId
  stint : Nat
  act : Option ActKey
  order : Nat
  hrec : HWord
  coords : List Nat
  row : Nat
  off : Nat
  suspended : Bool
  kept : List ((Nat × Nat) × Byte)
  done : List (Nat × Nat)
  deriving DecidableEq, Repr

/-- The state of a relayout (R234, R236). -/
inductive RelayState where
  | running
  | complete
  | failed (addr : Word)
  deriving DecidableEq, Repr

/-- A unit of a block under conversion (R234): where its bytes come from, as physical ranges, or FILL for padding; and where
they go. -/
structure RelayUnit where
  src : List (Nat × Nat)
  fill : List Byte
  dst : List (Nat × Nat)
  deriving DecidableEq, Repr

/-- A block that stands at MOVING (R234): the physical address of its map byte and its units, whose lines the engine holds
exclusive. -/
structure MovingBlock where
  mapAt : Nat
  units : List RelayUnit
  deriving DecidableEq, Repr

/-- A relayout of the engine, known by its MAP (R232 to R236), and the block it converts next. -/
structure Relayout where
  map : Word
  run : Nat
  hrec : HWord
  block : Nat
  moving : Option MovingBlock
  state : RelayState
  suspended : Bool
  deriving DecidableEq, Repr

/-- The chain state of a thread set (R307). -/
inductive ChainState where
  | none | live | parked
  deriving DecidableEq, Repr

/-- CLASS of a chain (R307). -/
inductive ChainClass where
  | none | float | int
  deriving DecidableEq, Repr

/-- A thread set's chain (R307, R318): `resume` is set from the re-arbitration or the restoration that makes its next matrix
instruction ask for a resumption, to the grant or the timeout of that wait (R310). -/
structure Chain where
  state : ChainState
  cls : ChainClass
  rowmask : BitVec 32
  resume : Bool
  blockErr : Bool
  deriving DecidableEq, Repr

def Chain.closed : Chain := ⟨.none, .none, 0, false, false⟩

/-- The matrix array and its leash (R264, R265, R310, R317); the waiting requests are the waits of thread sets. `orphan` is
the open chain with which the holder has left its activation at `join`: the leash stays with the activation to its ending
(R130, R309), and the set has its chain again when the activation recruits it again (R307). -/
structure ArrayUnit where
  block : Vector (BitVec 32) 512
  rowmask : BitVec 32
  failed : Bool
  holder : Option TsId
  holderAct : Option ActKey
  orphan : Option Chain
  grantStart : Nat
  grantCount : Nat
  lastCore : Nat
  deriving DecidableEq, Repr

/-- The holder of the program clause array (R151): a GANG thread set or an activation. -/
inductive ClauseHolder where
  | thread (t : TsId)
  | act (k : ActKey)
  deriving DecidableEq, Repr

/-- The program clause array of a cluster (R140, R151, R152, R161): `claimed` is false while the array is only reserved. -/
structure ClauseUnit where
  arr : ClauseArray
  holder : Option ClauseHolder
  claimed : Bool
  poisoned : Bool
  deriving DecidableEq, Repr

/-- A buffer of the cluster (R253, R303). -/
inductive Buf where
  | wbuf | abuf | cbuf | sbuf
  deriving DecidableEq, Repr

/-- A poisoned row of a buffer, with the bytes of it that have not been written since (R316, R388). -/
structure BadRow where
  buf : Buf
  row : Nat
  left : BitVec 256
  deriving DecidableEq, Repr

/-- The size of a buffer in bytes. -/
def Buf.size : Buf → Nat
  | .wbuf => 0x200000
  | .abuf | .cbuf => 0x100000
  | .sbuf => 0x10000

def Buf.ofCode (n : Nat) : Buf :=
  match n % 4 with
  | 0 => .wbuf
  | 1 => .abuf
  | 2 => .cbuf
  | _ => .sbuf

end Sys2Proof.Machine
end

