-- ==== Sys2Proof/Machine/Maps.lean ====
section
/-! DEFINITION. Byte stores and number maps in canonical form: keys strictly rising; a byte store lists no zero byte. -/
namespace Sys2Proof.Machine

/-- The datum at a key. -/
def NMap.find? {α : Type} : NMap α → Nat → Option α
  | [], _ => none
  | (k, v) :: m, n => if n = k then some v else NMap.find? m n

/-- The datum at a key, or the default. -/
def NMap.get {α : Type} (m : NMap α) (n : Nat) (d : α) : α := (NMap.find? m n).getD d

/-- The map with a key set. -/
def NMap.set {α : Type} : NMap α → Nat → α → NMap α
  | [], n, a => [(n, a)]
  | (k, v) :: m, n, a =>
    if n < k then (n, a) :: (k, v) :: m else if n = k then (n, a) :: m else (k, v) :: NMap.set m n a

/-- The map without a key. -/
def NMap.erase {α : Type} : NMap α → Nat → NMap α
  | [], _ => []
  | (k, v) :: m, n => if n = k then NMap.erase m n else (k, v) :: NMap.erase m n

/-- An element put before the first whose key is greater. -/
def insertBy {α : Type} (key : α → Nat) (a : α) : List α → List α
  | [] => [a]
  | b :: bs => if key a < key b then a :: b :: bs else b :: insertBy key a bs

/-- A list in ascending order of a key; equal keys keep their order. -/
def sortBy {α : Type} (key : α → Nat) (l : List α) : List α := l.foldl (fun acc a => insertBy key a acc) []

/-- The byte at an address: zero where none is listed. -/
def ByteMap.read : ByteMap → Nat → Byte
  | [], _ => 0
  | (k, v) :: m, a => if a = k then v else ByteMap.read m a

/-- The store without an address. -/
def ByteMap.clear : ByteMap → Nat → ByteMap
  | [], _ => []
  | (k, v) :: m, a => if a = k then ByteMap.clear m a else (k, v) :: ByteMap.clear m a

/-- The store with a nonzero byte put at an address. -/
def ByteMap.put : ByteMap → Nat → Byte → ByteMap
  | [], a, b => [(a, b)]
  | (k, v) :: m, a, b =>
    if a < k then (a, b) :: (k, v) :: m else if a = k then (a, b) :: m else (k, v) :: ByteMap.put m a b

/-- The store with a byte written. -/
def ByteMap.write (m : ByteMap) (a : Nat) (b : Byte) : ByteMap :=
  if b = 0 then ByteMap.clear m a else ByteMap.put m a b

/-- Bytes written at consecutive addresses. -/
def ByteMap.writes (m : ByteMap) (a : Nat) : List Byte → ByteMap
  | [] => m
  | b :: bs => ByteMap.writes (ByteMap.write m a b) (a + 1) bs

/-- Bytes read at consecutive addresses. -/
def ByteMap.reads (m : ByteMap) (a n : Nat) : List Byte := (upTo n).map (fun i => ByteMap.read m (a + i))

/-- A little-endian number of n bytes. -/
def ByteMap.readNat (m : ByteMap) (a n : Nat) : Nat := leNat (ByteMap.reads m a n)

/-- The canonical form, above a lower bound for the first address. -/
def ByteMap.wfFrom : Nat → ByteMap → Bool
  | _, [] => true
  | lo, (k, v) :: m => lo ≤ k && v != 0 && ByteMap.wfFrom (k + 1) m

/-- The canonical form of a byte store. -/
def ByteMap.wf (m : ByteMap) : Bool := ByteMap.wfFrom 0 m

/-- The keys of a list of bytes that are present, zero bytes included: an overlay. -/
def overlayFind : List Host.Cell → Nat → Option Byte
  | [], _ => none
  | (k, v) :: m, a => if a = k then some v else overlayFind m a

/-- An overlay with consecutive bytes put. -/
def overlayPuts (m : List Host.Cell) (a : Nat) : List Byte → List Host.Cell
  | [] => m
  | b :: bs => overlayPuts (ByteMap.put m a b) (a + 1) bs

end Sys2Proof.Machine
end

