-- ==== Sys2Proof/Config.lean ====
section
/-! DEFINITION. What an implementation of the device fixes, and the free values: constants without a body, of which no
proof can know anything, for each value the manual leaves open. -/
namespace Sys2Proof

/-- The free value number n: a value the manual leaves open, fresh for every n (assumption 1). -/
opaque Config.freeWord : Nat → Word

/-- Whether FP32 `vexp2` (0), `vrcp` (1) and `vrsq` (2) return the upper of the two neighbours of the exact value, for
this operand. The manual fixes the choice for each type and operand, and does not give it (R290, assumption 2). -/
opaque Config.faithfulUp : Nat → BitVec 32 → Bool

/-- The hash of the commit streams of twins (R391): the manual gives its inputs, not its function. -/
opaque Config.streamHash : List Word → Word

/-- The signature the root core makes with the device's key over a byte string (R409). -/
opaque Config.sign : List Byte → List Byte

/-- How far beyond the loading thread set's logical time the lease granted for a line reaches (R346 gives no figure,
assumption 10). -/
opaque Config.leaseLength : Nat → Nat

end Sys2Proof
end

