-- ==== Sys2Proof/Machine/Numbers.lean ====
section
/-! DEFINITION. Numbers and their arithmetic (R269 to R282): formats, LG6, RoundToFormat, conversions, MatrixSum and
TreeSum, on exact dyadic values. -/
namespace Sys2Proof

/-- A rounding direction (R117, FPMODE.RM). -/
inductive Rm where
  | rne | rtz | rup | rdn | rna
  deriving DecidableEq, Repr

/-- A floating format of R269: exponent and fraction widths, and whether the top exponent holds infinities. -/
structure FFormat where
  ebits : Nat
  fbits : Nat
  ieee : Bool
  deriving DecidableEq, Repr

def FFormat.width (f : FFormat) : Nat := 1 + f.ebits + f.fbits
def FFormat.bias (f : FFormat) : Nat := 2 ^ (f.ebits - 1) - 1
def FFormat.emin (f : FFormat) : Int := 1 - (f.bias : Int)
/-- p of R269. -/
def FFormat.p (f : FFormat) : Nat := f.fbits + 1
/-- The bits of the largest finite value of R269, without the sign. -/
def FFormat.maxFinite (f : FFormat) : Nat :=
  if f.ieee then (2 ^ f.ebits - 1) * 2 ^ f.fbits - 1 else 2 ^ (f.ebits + f.fbits) - 2
/-- The bits of +inf (IEEE formats). -/
def FFormat.infBits (f : FFormat) : Nat := (2 ^ f.ebits - 1) * 2 ^ f.fbits
/-- The canonical NaN of R270. -/
def FFormat.nanBits (f : FFormat) : Nat :=
  if f.ieee then (2 ^ f.ebits - 1) * 2 ^ f.fbits + 2 ^ (f.fbits - 1) else 2 ^ (f.ebits + f.fbits) - 1
def FFormat.signBit (f : FFormat) (neg : Bool) : Nat := if neg then 2 ^ (f.ebits + f.fbits) else 0

def fp32 : FFormat := ⟨8, 23, true⟩
def fp16 : FFormat := ⟨5, 10, true⟩
def bf16 : FFormat := ⟨8, 7, true⟩
def e4m3 : FFormat := ⟨4, 3, false⟩
def e5m2 : FFormat := ⟨5, 2, true⟩

def FpFmt.format : FpFmt → FFormat
  | .fp32 => Sys2Proof.fp32
  | .fp16 => Sys2Proof.fp16
  | .bf16 => Sys2Proof.bf16

/-- The format of a floating element type; integer types and LG6 have none. -/
def ElemType.format : ElemType → Option FFormat
  | .fp32 => some Sys2Proof.fp32
  | .fp16 => some Sys2Proof.fp16
  | .bf16 => some Sys2Proof.bf16
  | .e4m3 => some Sys2Proof.e4m3
  | .e5m2 => some Sys2Proof.e5m2
  | _ => none

/-- A decoded value: `fin neg m e` is (−1)^neg × m × 2^e. -/
inductive FVal where
  | nan (sig : Bool)
  | nar
  | inf (neg : Bool)
  | fin (neg : Bool) (m : Nat) (e : Int)
  deriving DecidableEq, Repr

def FVal.isNan : FVal → Bool
  | .nan _ | .nar => true
  | _ => false
def FVal.isSig : FVal → Bool
  | .nan s => s
  | _ => false
def FVal.isZero : FVal → Bool
  | .fin _ m _ => m == 0
  | _ => false
def FVal.isInf : FVal → Bool
  | .inf _ => true
  | _ => false
def FVal.neg : FVal → Bool
  | .inf s => s
  | .fin s _ _ => s
  | _ => false
def FVal.negate : FVal → FVal
  | .inf s => .inf (!s)
  | .fin s m e => .fin (!s) m e
  | x => x

/-- The value of the bits of a format (R269, R270). -/
def FFormat.decode (f : FFormat) (bits : Nat) : FVal :=
  let frac := bits % 2 ^ f.fbits
  let ex := (bits >>> f.fbits) % 2 ^ f.ebits
  let s := bits.testBit (f.ebits + f.fbits)
  if ex = 0 then .fin s frac (f.emin - f.fbits)
  else if f.ieee then
    (if ex = 2 ^ f.ebits - 1 then (if frac = 0 then .inf s else .nan (!frac.testBit (f.fbits - 1)))
     else .fin s (2 ^ f.fbits + frac) ((ex : Int) - f.bias - f.fbits))
  else if ex = 2 ^ f.ebits - 1 ∧ frac = 2 ^ f.fbits - 1 then .nan false
  else .fin s (2 ^ f.fbits + frac) ((ex : Int) - f.bias - f.fbits)

/-- Whether the bits hold a subnormal value. -/
def FFormat.isSub (f : FFormat) (bits : Nat) : Bool :=
  (bits >>> f.fbits) % 2 ^ f.ebits == 0 && bits % 2 ^ f.fbits != 0

/-- An operand as FTZ reads it (R112): a subnormal is the zero of its sign. -/
def FFormat.decodeFtz (f : FFormat) (ftz : Bool) (bits : Nat) : FVal :=
  if ftz && f.isSub bits then .fin (bits.testBit (f.ebits + f.fbits)) 0 0 else f.decode bits

/-! ## LG6 (R272 to R274) -/

/-- T[F] of R272, times 4096. -/
def lgT (f : Nat) : Nat :=
  match f % 4 with
  | 0 => 4096
  | 1 => 4871
  | 2 => 5793
  | _ => 6889

/-- 4 × I + F of a code, −16 to 15. -/
def lgLog (code : Nat) : Int := sxInt 5 (code % 32)

/-- The value of an LG6 code (R272); bits [7:6] of the container are ignored (R273). -/
def lgDecode (code : Nat) : FVal :=
  let c := code % 64
  if c = 0x10 then .fin false 0 0
  else if c = 0x30 then .nar
  else .fin (c.testBit 5) (lgT (c % 4)) (lgLog c / 4 - 12)

/-- LogProduct (R274). -/
def logProduct (a b : Nat) : FVal :=
  let a := a % 64
  let b := b % 64
  if a = 0x30 ∨ b = 0x30 then .nar
  else if a = 0x10 ∨ b = 0x10 then .fin false 0 0
  else
    let l := lgLog a + lgLog b
    .fin (a.testBit 5 != b.testBit 5) (lgT (l % 4).toNat) (l / 4 - 12)

/-- The magnitudes of the codes 0 (zero) and, in rising order, of the 31 positive values, times 2^16. Entry i is the
value of 4 × I + F = i − 16. -/
def lgMag (i : Nat) : Nat := if i = 0 then 0 else lgT (i % 4) <<< (i / 4)

/-- The code of entry i and a sign (R272): the zero has no sign. -/
def lgCode (neg : Bool) (i : Nat) : Nat :=
  if i = 0 then 0x10 else (i + 16) % 32 + (if neg then 32 else 0)

/-! ## Rounding (R275, R276) -/

/-- A result: the bits, and the flags it raises. -/
structure FRes where
  bits : Nat
  flags : Flags
  deriving DecidableEq, Repr

/-- Whether a magnitude q + rem, 0 ≤ rem < 1, is rounded up: `half` compares rem with 1/2. -/
def Rm.up (rm : Rm) (neg odd inexact : Bool) (half : Ordering) : Bool :=
  match rm with
  | .rne => half == .gt || (half == .eq && odd)
  | .rna => half != .lt
  | .rtz => false
  | .rup => inexact && !neg
  | .rdn => inexact && neg

/-- The magnitude (m + t) × 2^e, where t is 0, or in (0, 1) when `sticky`, rounded to a multiple of 2^u: the multiple and
whether it is inexact. -/
def roundAt (rm : Rm) (neg : Bool) (m : Nat) (e : Int) (sticky : Bool) (u : Int) : Nat × Bool :=
  if u ≤ e then
    let q := m <<< (e - u).toNat
    (if rm.up neg (q % 2 == 1) sticky .lt then q + 1 else q, sticky)
  else
    let sh := (u - e).toNat
    let q := m >>> sh
    let rem := m % 2 ^ sh
    let half : Ordering :=
      if 2 * rem > 2 ^ sh then .gt
      else if 2 * rem = 2 ^ sh then (if sticky then .gt else .eq)
      else .lt
    let inexact := rem != 0 || sticky
    (if rm.up neg (q % 2 == 1) inexact half then q + 1 else q, inexact)

/-- The result of a magnitude above the largest finite value (R275). -/
def FFormat.overflow (f : FFormat) (rm : Rm) (neg : Bool) : FRes :=
  if f.ieee then
    let toMax := match rm with
      | .rtz => true
      | .rup => neg
      | .rdn => !neg
      | _ => false
    ⟨f.signBit neg + (if toMax then f.maxFinite else f.infBits), Flags.of ||| Flags.nx⟩
  else ⟨f.signBit neg + f.maxFinite, Flags.sat ||| Flags.nx⟩

/-- RoundToFormat (R275) on (−1)^neg × (m + t) × 2^e with m > 0, with the flags of R275 and R276. With `ftz`, a subnormal
result becomes the zero of its sign and sets UF and NX (R112). -/
def FFormat.round (f : FFormat) (rm : Rm) (ftz : Bool) (neg : Bool) (m : Nat) (e : Int) (sticky : Bool := false) : FRes :=
  let e0 : Int := Nat.log2 m + e
  let ex := max e0 f.emin
  let u := ex - f.fbits
  let (q, inexact) := roundAt rm neg m e sticky u
  let bits := (u - (f.emin - f.fbits)).toNat * 2 ^ f.fbits + q
  if bits > f.maxFinite then f.overflow rm neg
  else if ftz && bits != 0 && bits < 2 ^ f.fbits then ⟨f.signBit neg, Flags.uf ||| Flags.nx⟩
  else
    let tiny := e0 < f.emin && !(e0 + 1 == f.emin && (roundAt rm neg m e sticky (e0 - f.fbits)).1 == 2 ^ f.p)
    ⟨f.signBit neg + bits, Flags.when inexact Flags.nx ||| Flags.when (inexact && tiny) Flags.uf⟩

/-- A NaN result: the canonical NaN (R270). -/
def FFormat.nan (f : FFormat) (nv : Bool) : FRes := ⟨f.nanBits, Flags.when nv Flags.nv⟩

def FFormat.inf (f : FFormat) (neg : Bool) : FRes := ⟨f.signBit neg + f.infBits, Flags.none⟩
def FFormat.zero (f : FFormat) (neg : Bool) : FRes := ⟨f.signBit neg, Flags.none⟩

/-- A signed dyadic: the integer i times 2^e. -/
structure Dy where
  i : Int
  e : Int
  deriving DecidableEq, Repr

def Dy.ofFin (neg : Bool) (m : Nat) (e : Int) : Dy := ⟨if neg then -(m : Int) else m, e⟩

/-- The exact sum. -/
def Dy.add (a b : Dy) : Dy :=
  let e := min a.e b.e
  ⟨a.i * 2 ^ (a.e - e).toNat + b.i * 2 ^ (b.e - e).toNat, e⟩

def Dy.mul (a b : Dy) : Dy := ⟨a.i * b.i, a.e + b.e⟩

/-- A nonzero dyadic rounded into a format; an exact zero is +0, except under RDN (R276). -/
def FFormat.roundDy (f : FFormat) (rm : Rm) (ftz : Bool) (d : Dy) : FRes :=
  if d.i = 0 then f.zero (rm == .rdn) else f.round rm ftz (d.i < 0) d.i.natAbs d.e

/-! ## Scalar operations on decoded operands (R105, R106) -/

/-- The canonical NaN for a NaN operand; NV when one of them is signaling. -/
def FFormat.nanOf (f : FFormat) (xs : List FVal) : FRes := f.nan (xs.any FVal.isSig)

/-- A + B. -/
def FFormat.add (f : FFormat) (rm : Rm) (ftz : Bool) (a b : FVal) : FRes :=
  match a, b with
  | .fin sa ma ea, .fin sb mb eb =>
    if ma = 0 ∧ mb = 0 then f.zero (if sa = sb then sa else rm == .rdn)
    else f.roundDy rm ftz (Dy.add (Dy.ofFin sa ma ea) (Dy.ofFin sb mb eb))
  | .inf sa, .inf sb => if sa = sb then f.inf sa else f.nan true
  | .inf sa, .fin .. => f.inf sa
  | .fin .., .inf sb => f.inf sb
  | a, b => f.nanOf [a, b]

/-- A × B. -/
def FFormat.mul (f : FFormat) (rm : Rm) (ftz : Bool) (a b : FVal) : FRes :=
  if a.isNan || b.isNan then f.nanOf [a, b]
  else if (a.isInf && b.isZero) || (a.isZero && b.isInf) then f.nan true
  else match a, b with
  | .fin sa ma ea, .fin sb mb eb =>
    if ma = 0 ∨ mb = 0 then f.zero (sa != sb) else f.round rm ftz (sa != sb) (ma * mb) (ea + eb)
  | a, b => f.inf (a.neg != b.neg)

/-- A ÷ B. -/
def FFormat.div (f : FFormat) (rm : Rm) (ftz : Bool) (a b : FVal) : FRes :=
  if a.isNan || b.isNan then f.nanOf [a, b]
  else match a, b with
  | .fin sa ma ea, .fin sb mb eb =>
    if mb = 0 then (if ma = 0 then f.nan true else { f.inf (sa != sb) with flags := Flags.dz })
    else if ma = 0 then f.zero (sa != sb)
    else
      let n := ma <<< 60
      f.round rm ftz (sa != sb) (n / mb) (ea - eb - 60) (n % mb != 0)
  | .inf sa, .fin sb _ _ => f.inf (sa != sb)
  | .fin sa _ _, .inf sb => f.zero (sa != sb)
  | _, _ => f.nan true

/-- √A. -/
def FFormat.sqrt (f : FFormat) (rm : Rm) (ftz : Bool) (a : FVal) : FRes :=
  match a with
  | .fin s m e =>
    if m = 0 then f.zero s
    else if s then f.nan true
    else
      let odd := e % 2 = 1
      let n := m <<< (if odd then 81 else 80)
      let r := isqrt n
      f.round rm ftz false r ((if odd then e - 1 else e) / 2 - 40) (r * r != n)
  | .inf false => f.inf false
  | .inf true => f.nan true
  | a => f.nanOf [a]

/-- A × B + C with one rounding; 0 × inf sets NV even when C is a quiet NaN (R106). -/
def FFormat.fma (f : FFormat) (rm : Rm) (ftz : Bool) (a b c : FVal) : FRes :=
  if (a.isInf && b.isZero) || (a.isZero && b.isInf) then f.nan true
  else if a.isNan || b.isNan || c.isNan then f.nanOf [a, b, c]
  else
    let s := a.neg != b.neg
    match a, b, c with
    | .fin _ ma ea, .fin _ mb eb, .fin sc mc ec =>
      if (ma = 0 ∨ mb = 0) ∧ mc = 0 then f.zero (if s = sc then s else rm == .rdn)
      else f.roundDy rm ftz (Dy.add (Dy.ofFin s (ma * mb) (ea + eb)) (Dy.ofFin sc mc ec))
    | .fin .., .fin .., c => f.inf c.neg
    | _, _, .inf sc => if s = sc then f.inf s else f.nan true
    | _, _, _ => f.inf s

/-- Comparison of two values that are no NaN; −0 equals +0. -/
def FVal.cmp (a b : FVal) : Ordering :=
  match a, b with
  | .fin sa ma ea, .fin sb mb eb =>
    let d := Dy.add (Dy.ofFin sa ma ea) (Dy.ofFin (!sb) mb eb)
    if d.i < 0 then .lt else if d.i = 0 then .eq else .gt
  | .inf sa, .inf sb => if sa = sb then .eq else if sa then .lt else .gt
  | .inf sa, _ => if sa then .lt else .gt
  | _, .inf sb => if sb then .gt else .lt
  | _, _ => .eq

/-- fmin and fmax (R107) on bits: −0 is below +0, and a value is never rounded. -/
def FFormat.minMax (f : FFormat) (isMax ftz : Bool) (a b : Nat) : FRes :=
  let fl (x : Nat) : Nat :=
    if ftz && f.isSub x then f.signBit (x.testBit (f.ebits + f.fbits)) else x % 2 ^ f.width
  let va := f.decodeFtz ftz a
  let vb := f.decodeFtz ftz b
  let nv := Flags.when (va.isSig || vb.isSig) Flags.nv
  if va.isNan && vb.isNan then ⟨f.nanBits, nv⟩
  else if va.isNan then ⟨fl b, nv⟩
  else if vb.isNan then ⟨fl a, nv⟩
  else
    let aLess := match va.cmp vb with
      | .lt => true
      | .gt => false
      | .eq => va.neg && !vb.neg
    ⟨if aLess != isMax then fl a else fl b, nv⟩

/-- fcmp (R108): whether the relation holds, and the flags. -/
def FVal.rel (r : Rel) (a b : FVal) : Bool × Flags :=
  let un := a.isNan || b.isNan
  let sig := a.isSig || b.isSig
  let c := a.cmp b
  let holds := match r with
    | .eq => !un && c == .eq
    | .ne => un || c != .eq
    | .lt => !un && c == .lt
    | .le => !un && c != .gt
    | .gt => !un && c == .gt
    | .ge => !un && c != .lt
    | .un => un
  let ordered := match r with
    | .lt | .le | .gt | .ge => true
    | _ => false
  (holds, Flags.when (sig || (un && ordered)) Flags.nv)

/-- fclass (R109). -/
def FFormat.classify (f : FFormat) (bits : Nat) : Nat :=
  match f.decode bits with
  | .nan s => if s then 0x100 else 0x200
  | .nar => 0x200
  | .inf s => if s then 0x001 else 0x080
  | .fin s m _ =>
    if m = 0 then (if s then 0x008 else 0x010)
    else if f.isSub bits then (if s then 0x004 else 0x020)
    else (if s then 0x002 else 0x040)

/-! ## Conversions (R110) -/

/-- A finite value rounded to an integer magnitude, and whether rounding changed it. -/
def roundInt (rm : Rm) (neg : Bool) (m : Nat) (e : Int) : Nat × Bool := roundAt rm neg m e false 0

/-- The least and greatest values of an integer type. -/
def ElemType.intMin (t : ElemType) : Int := if t.isSigned then -((2 ^ (8 * t.size - 1) : Nat) : Int) else 0
def ElemType.intMax (t : ElemType) : Int :=
  if t.isSigned then ((2 ^ (8 * t.size - 1) : Nat) : Int) - 1 else ((2 ^ (8 * t.size) : Nat) : Int) - 1

/-- The integer value of the low bits of an element. -/
def ElemType.readInt (t : ElemType) (v : Nat) : Int :=
  if t.isSigned then sxInt (8 * t.size) v else ((v % 2 ^ (8 * t.size) : Nat) : Int)

/-- An integer clamped to a type's range, and whether it was clamped. -/
def ElemType.clamp (t : ElemType) (i : Int) : Int × Bool :=
  if i < t.intMin then (t.intMin, true) else if t.intMax < i then (t.intMax, true) else (i, false)

/-- Conversion to an integer type (R110); the result is in the low bits of the type's width. -/
def toIntType (t : ElemType) (rm : Rm) (x : FVal) : FRes :=
  let w := 8 * t.size
  match x with
  | .nan _ | .nar => ⟨0, Flags.nv⟩
  | .inf s => ⟨wrapNat w (if s then t.intMin else t.intMax), Flags.sat ||| Flags.nx⟩
  | .fin s m e =>
    let (q, inexact) := roundInt rm s m e
    let (r, cl) := t.clamp (if s then -(q : Int) else q)
    ⟨wrapNat w r, if cl then Flags.sat ||| Flags.nx else Flags.when inexact Flags.nx⟩

/-- The number of entries of the LG6 magnitude table at or below a magnitude: m × 2^e against entries times 2^16. -/
def lgFloor (m : Nat) (e : Int) : Nat :=
  let le (i : Nat) : Bool :=
    if 0 ≤ e + 16 then lgMag i ≤ m <<< (e + 16).toNat else (lgMag i) <<< (-(e + 16)).toNat ≤ m
  ((upTo 32).filter le).length - 1

/-- A value rounded among zero and the 62 LG6 values, by linear value (R110). -/
def toLg6 (rm : Rm) (x : FVal) : FRes :=
  match x with
  | .nan s => ⟨0x30, Flags.when s Flags.nv⟩
  | .nar => ⟨0x30, Flags.none⟩
  | .inf s => ⟨lgCode s 31, Flags.sat ||| Flags.nx⟩
  | .fin s m e =>
    -- the magnitude, as an integer over 2^16 × 2^k
    let k := (-(e + 16)).toNat
    let x := if 0 ≤ e + 16 then m <<< (e + 16).toNat else m
    let i := lgFloor m e
    let lo := lgMag i <<< k
    if x = lo then ⟨lgCode s i, Flags.none⟩
    else if i = 31 then ⟨lgCode s 31, Flags.sat ||| Flags.nx⟩
    else
      let hi := lgMag (i + 1) <<< k
      let half : Ordering := compare (2 * x) (lo + hi)
      ⟨lgCode s (if rm.up s (i % 2 == 1) true half then i + 1 else i), Flags.nx⟩

/-- A decoded value converted to a floating format: a NaN becomes the canonical NaN, and NaR too, without a flag. -/
def FFormat.ofVal (f : FFormat) (rm : Rm) (ftz : Bool) (x : FVal) : FRes :=
  match x with
  | .nan s => f.nan s
  | .nar => f.nan false
  | .inf s => if f.ieee then f.inf s else ⟨f.signBit s + f.maxFinite, Flags.sat ||| Flags.nx⟩
  | .fin s m e => if m = 0 then f.zero s else f.round rm ftz s m e

/-- The value of an element of any type; floating operands under FTZ as R112 reads them. -/
def ElemType.read (t : ElemType) (ftz : Bool) (v : Nat) : FVal :=
  match t.format with
  | some f => f.decodeFtz ftz v
  | none =>
    if t = .lg6 then lgDecode v
    else
      let i := t.readInt v
      .fin (i < 0) i.natAbs 0

/-- fcvt and the floating and LG6 pairs of vcvt (R110): the result in the low bits of the destination type. -/
def convert (dst src : ElemType) (rm : Rm) (ftz : Bool) (v : Nat) : FRes :=
  let x := src.read ftz v
  match dst.format with
  | some f => f.ofVal rm ftz x
  | none => if dst = .lg6 then toLg6 rm x else toIntType dst rm x

/-- An integer pair of vcvt (R295). -/
def convertInt (dst src : ElemType) (sat : Bool) (v : Nat) : FRes :=
  let i := src.readInt v
  let w := 8 * dst.size
  if sat then
    let (r, cl) := dst.clamp i
    ⟨wrapNat w r, Flags.when cl Flags.sat⟩
  else ⟨wrapNat w i, Flags.none⟩

/-! ## vexp2, vrcp, vrsq (R290) -/

/-- ⌊2^(1/2^k) × 2^100⌋-approximations, k = 1, 2, …: each is the integer square root of the one before. -/
def exp2Steps : Nat → Nat → List Nat
  | 0, _ => []
  | n + 1, c =>
    let c' := isqrt (c <<< 100)
    c' :: exp2Steps n c'

/-- The product of the steps that the bits of a 53-bit fraction select, most significant first, in 2^100 fixed point. -/
def exp2Frac : List Nat → Nat → Nat → Nat → Nat
  | [], _, _, acc => acc
  | c :: cs, i, f, acc => exp2Frac cs (i - 1) f (if f.testBit (i - 1) then (acc * c) >>> 100 else acc)

/-- A magnitude (m + t) × 2^e, t in (0, 1) when `sticky` and 0 otherwise, returned in the way R290 gives: the exact
value when it is representable; else RNE for FP16 and BF16, and one of the two neighbours for FP32. -/
def FFormat.approx (f : FFormat) (ftz : Bool) (fn : Nat) (operand : BitVec 32) (neg : Bool) (m : Nat) (e : Int)
    (sticky : Bool) : FRes :=
  let r := f.round .rne ftz neg m e sticky
  let inexact := r.flags.getLsbD 4
  let overflow := r.flags.getLsbD 2
  if f = fp32 ∧ inexact ∧ !overflow then
    (if Config.faithfulUp fn operand then f.round (if neg then .rdn else .rup) ftz neg m e sticky
     else f.round .rtz ftz neg m e sticky)
  else r

/-- The exponents below which 2^A is below every format's range, whatever its exact value. -/
def exp2Floor : Int := -1100

/-- vexp2 (R290). -/
def FFormat.exp2 (f : FFormat) (ftz : Bool) (bits : Nat) : FRes :=
  let op := BitVec.ofNat 32 bits
  match f.decodeFtz ftz bits with
  | .fin s m e =>
    if m = 0 then f.round .rne ftz false 1 0
    else if (Nat.log2 m : Int) + e < -30 then
      f.approx ftz 0 op false (if s then 2 ^ 60 - 1 else 2 ^ 60) (-60) true
    else
      let a : Int := (if s then -(m : Int) else m) * 2 ^ (e + 53).toNat / 2 ^ (-(e + 53)).toNat
      let n := a / 2 ^ 53
      let fr := (a % 2 ^ 53).toNat
      if n < exp2Floor then f.approx ftz 0 op false 1 exp2Floor true
      else if fr = 0 then f.approx ftz 0 op false 1 n false
      else f.approx ftz 0 op false (exp2Frac (exp2Steps 53 (2 ^ 101)) 53 fr (2 ^ 100)) (n - 100) true
  | .inf s => if s then f.zero false else f.inf false
  | x => f.nanOf [x]

/-- vrcp (R290). -/
def FFormat.rcp (f : FFormat) (ftz : Bool) (bits : Nat) : FRes :=
  match f.decodeFtz ftz bits with
  | .fin s m e =>
    if m = 0 then { f.inf s with flags := Flags.dz }
    else f.approx ftz 1 (BitVec.ofNat 32 bits) s (2 ^ 80 / m) (-e - 80) (2 ^ 80 % m != 0)
  | .inf s => f.zero s
  | x => f.nanOf [x]

/-- vrsq (R290). -/
def FFormat.rsq (f : FFormat) (ftz : Bool) (bits : Nat) : FRes :=
  match f.decodeFtz ftz bits with
  | .fin s m e =>
    if m = 0 then { f.inf s with flags := Flags.dz }
    else if s then f.nan true
    else
      let m' := if e % 2 = 1 then 2 * m else m
      let e' := if e % 2 = 1 then e - 1 else e
      let r := isqrt (2 ^ 120 / m')
      f.approx ftz 2 (BitVec.ofNat 32 bits) false r (-(e' / 2) - 60) (m' * r * r != 2 ^ 120)
  | .inf s => if s then f.nan true else f.zero false
  | x => f.nanOf [x]

/-! ## MatrixSum (R277, R278) -/

/-- A term of MatrixSum after its block scales. -/
inductive Term where
  | nan
  | inf (neg : Bool)
  | fin (d : Dy)
  deriving DecidableEq, Repr

/-- A decoded factor as a term. -/
def Term.ofVal : FVal → Term
  | .nan _ | .nar => .nan
  | .inf s => .inf s
  | .fin s m e => .fin (Dy.ofFin s m e)

/-- The exact product of two terms; 0 × inf is a NaN. -/
def Term.mul : Term → Term → Term
  | .nan, _ | _, .nan => .nan
  | .inf s, .inf t => .inf (s != t)
  | .inf s, .fin d | .fin d, .inf s => if d.i = 0 then .nan else .inf (s != decide (d.i < 0))
  | .fin d, .fin d' => .fin (d.mul d')

/-- The exact product of two elements of a type (LogProduct for LG6). -/
def elemProduct (t : ElemType) (a b : Nat) : Term :=
  if t = .lg6 then Term.ofVal (logProduct a b)
  else Term.mul (Term.ofVal (t.read false a)) (Term.ofVal (t.read false b))

/-- Floor(Log2 |d|) of a nonzero dyadic. -/
def Dy.log2 (d : Dy) : Int := Nat.log2 d.i.natAbs + d.e

/-- A dyadic truncated toward zero to a multiple of 2^u, and whether a nonzero bit was discarded. -/
def Dy.trunc (d : Dy) (u : Int) : Dy × Bool :=
  if u ≤ d.e then (d, false)
  else
    let sh := (u - d.e).toNat
    let q := d.i.natAbs >>> sh
    (⟨if d.i < 0 then -(q : Int) else q, u⟩, d.i.natAbs % 2 ^ sh != 0)

/-- The finite terms of a list. -/
def Term.fins : List Term → List Dy
  | [] => []
  | .fin d :: ts => d :: Term.fins ts
  | _ :: ts => Term.fins ts

/-- The truncated exact sum s of R278, and whether a term lost a nonzero bit. -/
def truncSum (ds : List Dy) : Dy × Bool :=
  match ds.filter (fun d => d.i != 0) with
  | [] => (⟨0, 0⟩, false)
  | d :: rest =>
    let e := rest.foldl (fun m x => max m x.log2) d.log2
    let ts := (d :: rest).map (fun x => x.trunc (e - 50))
    (ts.foldl (fun acc x => acc.add x.1) ⟨0, 0⟩, ts.any (fun x => x.2))

/-- inf plus the accumulator input, in FP32. -/
def infPlus (neg : Bool) (c : FVal) : FRes :=
  match c with
  | .inf s => if s = neg then fp32.inf neg else fp32.nan true
  | _ => fp32.inf neg

/-- MatrixSum (R278) from the terms q[k], the tensor scales and the accumulator input, all FP32. -/
def matrixSum (qs : List Term) (ta tb c : Nat) (rm : Rm) (ftz : Bool) : FRes :=
  let va := fp32.decode ta
  let vb := fp32.decode tb
  let vc := fp32.decodeFtz ftz c
  let t := fp32.decode (fp32.mul .rne false va vb).bits
  let infs := qs.filterMap (fun q => match q with
    | .inf s => some s
    | _ => none)
  let res : FRes :=
    if qs.any (· == .nan) || (infs.contains true && infs.contains false) || va.isNan || vb.isNan || vc.isNan ||
        (va.isZero && vb.isInf) || (va.isInf && vb.isZero) then fp32.nan true
    else match infs with
    | s :: _ => if t.isZero then fp32.nan true else infPlus (s != t.neg) vc
    | [] =>
      let (s, lost) := truncSum (Term.fins qs)
      let r : FRes :=
        match t with
        | .fin st mt et =>
          match vc with
          | .inf sc => fp32.inf sc
          | .fin sc mc ec => fp32.roundDy rm false (Dy.add (s.mul (Dy.ofFin st mt et)) (Dy.ofFin sc mc ec))
          | _ => fp32.nan true
        | _ => if s.i = 0 then fp32.nan true else infPlus (t.neg != decide (s.i < 0)) vc
      { r with flags := r.flags ||| Flags.when lost Flags.nx }
  if ftz && fp32.isSub res.bits then
    ⟨fp32.signBit (res.bits.testBit 31), res.flags ||| Flags.uf ||| Flags.nx⟩
  else res

/-- The FP32 value 1.0. -/
def oneF32 : Nat := 0x3F800000

/-! ## TreeSum (R282) -/

/-- Combine of R282. -/
def combine (op : Nat → Nat → FRes) (x y : Option Nat) : Option Nat × Flags :=
  match x, y with
  | some a, some b => let r := op a b; (some r.bits, r.flags)
  | some a, none => (some a, Flags.none)
  | none, some b => (some b, Flags.none)
  | none, none => (none, Flags.none)

/-- One level of the tree. -/
def treeLevel (op : Nat → Nat → FRes) : List (Option Nat) → List (Option Nat) × Flags
  | x :: y :: rest =>
    let (z, f) := combine op x y
    let (zs, g) := treeLevel op rest
    (z :: zs, f ||| g)
  | xs => (xs, Flags.none)

/-- TreeSum: at most `fuel` levels (6 for 64 lanes). -/
def treeSum (op : Nat → Nat → FRes) : Nat → List (Option Nat) → FRes
  | 0, xs => ⟨(xs.headD none).getD 0, Flags.none⟩
  | n + 1, xs =>
    let (ys, f) := treeLevel op xs
    let r := treeSum op n ys
    { r with flags := r.flags ||| f }

/-- A sum whose exactly zero result is +0, and −0 under RDN, whatever the signs of its terms (R276). -/
def FFormat.sum (f : FFormat) (rm : Rm) (ftz : Bool) (a b : FVal) : FRes :=
  if a.isZero && b.isZero then f.zero (rm == .rdn) else f.add rm ftz a b

/-- The combination of vred and vscan for a type (R276, R297): a rounded addition whose result follows FTZ, or an integer
addition, clamped with `.sat`. -/
def laneAdd (t : ElemType) (rm : Rm) (ftz sat : Bool) (a b : Nat) : FRes :=
  match t.format with
  | some f => f.sum rm ftz (f.decode a) (f.decode b)
  | none =>
    let i := t.readInt a + t.readInt b
    let w := 8 * t.size
    if sat then
      let (r, cl) := t.clamp i
      ⟨wrapNat w r, Flags.when cl Flags.sat⟩
    else ⟨wrapNat w i, Flags.none⟩

end Sys2Proof
end

