-- ==== Sys2Proof/Machine/MessageTypes.lean ====
section
/-! DEFINITION. The data of messages, atomics and deposits (R333 to R366). -/
namespace Sys2Proof.Machine

/-- A deposit's value and target register (R361). -/
structure DepositVal where
  target : DepTarget
  value : Word
  deriving DecidableEq, Repr

/-- What an entry of a send queue carries (R334, R362): a request to a handler, a handler's reply, or a deposit. -/
inductive SendKind where
  | request (entry : Word)
  | reply
  | deposit (d : DepositVal)
  deriving DecidableEq, Repr

/-- An entry of a thread set's send queue (R335, R382): the destination word (target rank and tag), LEN and FMT, the
payload as it reaches the receiver (narrowed and widened, R203), and whether it has been released. -/
structure SendEntry where
  dest : Word
  kind : SendKind
  len : Nat
  fmt : Fmt
  payload : List Byte
  srcRank : BitVec 32
  released : Bool
  order : Nat
  act : Option ActKey
  deriving DecidableEq, Repr

/-- A reply in a receive queue (R339): the word `recv` returns, and the payload. -/
structure RecvEntry where
  word : Word
  payload : List Byte
  deriving DecidableEq, Repr

/-- The operations of `amo` (R355). -/
inductive AmoKind where
  | add | min | max | minu | maxu | and | or | xor | swap | cas | fadd
  deriving DecidableEq, Repr

/-- An atomic on its way to, or at, its owner (R355 to R359). `act` is set for a buffered atomic of an activation: its
return carries no value. `bits` is the size of the page under which its address was translated (R125). -/
structure AmoReq where
  thread : TsId
  act : Option ActKey
  order : Nat
  kind : AmoKind
  dbl : Bool
  va : Word
  pa : Nat
  bits : Nat
  operand : Word
  compare : Word
  d : XReg
  deriving DecidableEq, Repr

/-- A message in a core's handler input queue (R335, R359): a request with the number of its redeliveries, or an atomic. -/
inductive InMsg where
  | request (src : TsId) (srcRank : BitVec 32) (tag : BitVec 32) (entry : Word) (len : Nat) (payload : List Byte)
      (tries : Nat)
  | atomic (a : AmoReq)
  deriving DecidableEq, Repr

/-- The return of a GANG atomic on VN1 from its owner's cluster (R198, R358, R359). -/
structure AmoRet where
  source : Nat
  d : XReg
  value : Word
  flags : Flags
  poison : Bool
  order : Nat
  va : Word
  reach : Nat
  deriving DecidableEq, Repr

/-- A deposit accepted by a core's network interface (R362). -/
structure Deposit where
  target : TsId
  val : DepositVal
  sender : TsId
  deriving DecidableEq, Repr

/-- The source and destination of a product on its way to its home kennel (R36, R44). -/
structure Insert where
  run : Nat
  src : Nat
  home : Nat
  viaRing : Bool
  bits : BitVec 256
  deriving DecidableEq, Repr


/-- A request of `mcrd` (R167 to R174): the thread set and its activation, the lines with their index in the range, the pages
under which they were translated (R125), the absolute destination clusters, and how many beats it still waits for. -/
structure McrdReq where
  id : Nat
  thread : TsId
  stint : Nat
  act : Option ActKey
  run : Nat
  lines : List (Nat × Nat)
  pages : List (Nat × Nat)
  dests : List Nat
  dcore : Nat
  soff : Nat
  barn : BarIx
  left : Nat
  arrived : Bool
  deriving DecidableEq, Repr

/-- One line of a stream: its physical address, its index in the range, the requests and destinations it serves, and whether
it is read again for destinations that missed it (R172). -/
structure StreamLine where
  pa : Nat
  index : Nat
  targets : List (Nat × Nat)
  again : Bool
  deriving DecidableEq, Repr

/-- A line that a stream has sent (R173): its index in the range, the destinations it was sent to, and whether it was poisoned. -/
structure SentLine where
  index : Nat
  dests : List Nat
  poison : Bool
  deriving DecidableEq, Repr

/-- A reply stream of one home slice (R169, R172): the lines not yet sent, all its lines, and what it has sent. -/
structure Stream where
  home : Nat
  run : Nat
  dcore : Nat
  soff : Nat
  barn : BarIx
  todo : List StreamLine
  total : List (Nat × Nat)
  sent : List SentLine
  deriving DecidableEq, Repr

/-- A beat of a stream on its way from its home slice to one destination (R170, R171): 128 bytes of the snapshot, or a poisoned
line. -/
structure Beat where
  home : Nat
  stream : Nat
  cluster : Nat
  dcore : Nat
  off : Nat
  barn : BarIx
  bytes : List Byte
  poison : Bool
  reqs : List Nat
  deriving DecidableEq, Repr

end Sys2Proof.Machine
end

