-- ==== Sys2Proof/Machine/RunTypes.lean ====
section
/-! DEFINITION. The data of runs and queues (R18 to R21, R46 to R49, R319 to R330). -/
namespace Sys2Proof.Machine

/-- A run record as submitted (R319). -/
abbrev Rec := BitVec 2048

/-- Where a run stands (R323 to R329, R379): in its queue; checked and waiting for a rectangle; placed and not released;
released; stopping under R17, R48 or R370; stopping for pre-emption; saved; completed. -/
inductive Phase where
  | queued | eligible | placed | running | stopping | draining | saved | complete
  deriving DecidableEq, Repr

/-- Why a run stops (R330): the STATUS and SUB codes and TVAL of its completion record. -/
structure StopCause where
  status : Nat
  sub : Nat
  tval : Word
  deriving DecidableEq, Repr

/-- The sums of a whistle wave (R46). -/
structure Wave where
  quiet : Bool
  ins : Nat
  rem : Nat
  snd : Nat
  rcv : Nat
  deriving DecidableEq, Repr

/-- A rule-table replacement under way (R49, R327): the run of the REPLACE record and the new table. -/
structure Replace where
  by_ : Nat
  rules : List Rule
  deriving DecidableEq, Repr

/-- A run (`checked` is set when its record has passed its checks, which are made once, and its image is kept, R323; `ntiles`
is its count of initial tiles once it has been read, R136): its record, identity, phase, pack, tables (`rulesAddr` is where
its rule table stands) and counts; `refused` are the addresses at which the firmware refused the front end; `subst` the cores
that stand in for fenced ones (cluster, logical core of the pack, core). -/
structure Run where
  rec_ : Rec
  addr : Word
  vf : Nat
  queue : Nat
  seq : BitVec 32
  phase : Phase
  node : Nat
  gen : Nat
  rules : List Rule
  rulesAddr : Nat
  checked : Bool
  replace : Option Replace
  image : BitVec 1024
  cwins : NMap (List Byte)
  tiles : List (BitVec 256)
  ntiles : Option Nat
  keymap : List Nat
  firings : Nat
  conflicts : Nat
  preempts : Nat
  packflags : Flags
  trunc : Bool
  releasedAt : Nat
  ranBefore : Nat
  placedAt : Nat
  stop : Option StopCause
  wave : Option Wave
  waveAt : Nat
  drainAt : Nat
  refused : List Word
  sliceAt : Nat
  subst : List (Nat × Nat × Nat)
  deriving DecidableEq, Repr

/-- A queue of a function (R321, R322): the QCB last accepted, the appender's TAIL, the completion count, DROP, the runs of
its records in order, and whether R413 has disabled it. -/
structure Queue where
  qcb : BitVec 512
  tail : Nat
  count : BitVec 32
  drop : Bool
  runs : List Nat
  disabled : Bool
  reserved : Nat
  deriving DecidableEq, Repr

def Queue.zero : Queue := ⟨0, 0, 0, false, [], false, 0⟩

/-- A submission waiting for the appender (R322, R134, R135): whether its queue entry is reserved, the record's bytes when
they have been read already, the GANG thread set whose ST class holds it, and the address of the fault it waits for, or
whose answer was REFUSE. -/
structure Submission where
  vf : Nat
  queue : Nat
  addr : Word
  reserved : Bool
  bytes : Option (List Byte)
  thread : Option TsId
  waiting : Option Word
  refused : Option Word
  deriving DecidableEq, Repr

end Sys2Proof.Machine
end

