-- ==== Sys2Proof/Machine/State.lean ====
section
/-! DEFINITION. The state of the device as plain data: thread sets, cores, clusters, runs, activations, functions, memory
and slices, messages in flight, the hub; and the state right after power is applied. -/
namespace Sys2Proof.Machine

/-- Why a step stops the machine with a fault: nothing does. Every trap is taken, and every error reply is one (R206). -/
inductive Fault where
  deriving DecidableEq, Repr

/-- Why a step has no meaning. -/
inductive Refusal where
  /-- Raised by an arm of `exec` that has no meaning yet. Safe: nothing is claimed of it. -/
  | notModelled (mnemonic : String)
  deriving DecidableEq, Repr

/-- What a thread set is doing: nothing; running; asleep on a page fault; holding issue until its activation or handler has
ended; halted for the rest of its run (R123); stopped by a stopping run (R370, R381). -/
inductive TStatus where
  | idle | ready | asleep | held | halted | stopped
  deriving DecidableEq, Repr

/-- TSTAT.CTX (R116). -/
inductive Ctx where
  | gang | act | helper | hand
  deriving DecidableEq, Repr

/-- The repetition buffer in use (R300 to R302): the body, the passes, the register step, and where it stands. -/
structure RepState where
  body : List Word
  n : Nat
  stride : Nat
  pass : Nat
  word : Nat
  deriving DecidableEq, Repr

/-- What a bounded wait waits for (R371): a byte barrier; the other ranks; the leash, for a `leash` or a resumption; a
reply; an EMPTY entry (`tfill`) or a READY one (`tdrain`); a litter's sequence (R256). -/
inductive WaitFor where
  | barrier (n : BarIx) | bar | leash (resume : Bool) | recv | fill (n : TileIx) | drain (n : TileIx)
  | consume (n : TileIx) (q : BitVec 32)
  deriving DecidableEq, Repr

/-- A bounded wait under way: the FCLK in which its instruction first found its condition false, what it waits for, and the
TVAL of its timeout (R371). -/
structure WaitState where
  since : Nat
  what : WaitFor
  tval : Word
  deriving DecidableEq, Repr

/-- A thread set (or a firmware core): its registers and its place in the machine. `stOut` tells for each store in class ST
whether it is to host or peer memory; `awaits` lists the registers that GANG atomics are to write, with the issue order of
each (R358); `stint` counts how often the set has been freed, and `joinAt` is the issue order at its last `join`; `ecc` is set
while an error of its registers awaits its next word (R386). -/
structure Thread where
  x : Vector Word 32
  v : Vector VWord 32
  p : Vector Word 8
  h : Vector HWord 16
  pc : Word
  tcause : Word
  tpc : Word
  tval : Word
  mode : Bool
  pmode : Bool
  intrap : Bool
  ctx : Ctx
  fpmode : Word
  fpflags : Flags
  spillsp : Word
  spillbase : Word
  spilllim : Word
  waitlim : Word
  actid : Word
  run : Option Nat
  rank : BitVec 32
  status : TStatus
  wait : Option WaitState
  refused : Option Word
  cnt : Counts
  stOut : List Bool
  pend : List PendTrap
  shadow : Shadow
  nextCopy : BitVec 16
  copies : List CopyStat
  stint : Nat
  joinAt : Nat
  ecc : Bool
  sendq : List SendEntry
  recvq : List RecvEntry
  amoq : List AmoReq
  awaits : List (Nat × XReg)
  rep : Option RepState
  chain : Chain
  arb : RoundRec
  act : Option ActKey
  sub : Nat
  msg : Option InMsg
  count : Nat
  ltime : Nat
  deriving DecidableEq, Repr

/-- A core of a cluster (R165, R175, R180 to R182, R331, R335, R362, R374, R392). `poison` marks the poisoned 8-byte units of
scratch, each with the bytes of it that have not been written since (R388). `yielded` lists the user sets that have ended
their turn by `yield`, each with the sets offered a slot since (R122). -/
structure CoreUnit where
  scratch : ByteMap
  poison : NMap Nat
  lsplit : Nat
  vgroup : Nat
  barriers : Vector Barrier 16
  inq : List InMsg
  deposits : List Deposit
  priv : List PrivLine
  tlb : List TlbEntry
  handlerSeq : BitVec 32
  lastSet : Nat
  yielded : List (Nat × List Nat)
  fenced : Bool
  mismatches : Nat
  deriving DecidableEq, Repr

/-- A cluster (R140, R253, R256, R264, R280, R303, R374); `badConst` lists the poisoned 64-byte lines of its constant cache, each
with its window (R386). -/
structure Cluster where
  run : Option Nat
  kennel : Kennel
  clause : ClauseUnit
  array : ArrayUnit
  tiles : NMap TileEntry
  litters : NMap Litter
  wbuf : ByteMap
  abuf : ByteMap
  cbuf : ByteMap
  sbuf : ByteMap
  badRows : List BadRow
  badConst : List (Nat × Nat)
  copies : List CopyOp
  moves : List MoveOp
  relayouts : List Relayout
  misses : List Miss
  l2tlb : List TlbEntry
  copyTlb : List TlbEntry
  fillTlb : List TlbEntry
  drainTlb : List TlbEntry
  relayTlb : List TlbEntry
  cluflags : Flags
  raised : Flags
  deriving DecidableEq, Repr

/-- An open fork region and its join cell (R41 to R43, R137, R138): the registers of the forking set at `fork`, and the latest
logical time of the sets that have passed `join`. -/
structure ForkRegion where
  trips : Nat
  chunk : Nat
  n : Nat
  d : XReg
  forkPc : Word
  joinPc : Word
  x : Vector Word 32
  v : Vector VWord 32
  p : Vector Word 8
  h : Vector HWord 16
  fpmode : Word
  spillsp : Word
  spillbase : Word
  spilllim : Word
  waitlim : Word
  tpc : Word
  tcause : Word
  tval : Word
  mode : Bool
  pmode : Bool
  intrap : Bool
  shadow : Shadow
  time : Nat
  fin : Nat
  waiting : List Nat
  flags : Flags
  helpers : List TsId
  deriving DecidableEq, Repr

/-- An activation or handler in progress (R34 to R43, R126 to R131, R337, R353, R390): `gen` is the generation of the rule table
that it was selected under (R49, R50). -/
structure Act where
  handler : Bool
  cluster : Nat
  owner : TsId
  partner : Option ActKey
  rule : Rule
  ruleIx : Nat
  ages : List (BitVec 32)
  slot : Nat
  gen : Nat
  tent : List Host.Cell
  marks : List StoreMark
  outside : List (Nat × List Byte)
  products : List (EmitKey × BitVec 256)
  runqs : List QueuedRun
  amos : List AmoReq
  fork : Option ForkRegion
  phase : Nat
  stream : List (Nat × List Word)
  scans : List Word
  pend : List PendTrap
  ending : Option Ending
  rolled : Option (Nat × Word)
  deriving DecidableEq, Repr

/-- A 64-byte sector of a line (R185): the bytes the slice holds, which of them, and its marks. -/
structure Sector where
  bytes : ByteMap
  have_ : BitVec 64
  mask : BitVec 16
  valid : Bool
  dirty : Bool
  filling : Bool
  deriving DecidableEq, Repr

/-- A line that a slice holds (R184): the function that allocated it, its eviction hint, its last use, and its four sectors. -/
structure SliceLine where
  vf : Nat
  ev : Bool
  used : Nat
  sectors : Vector Sector 4
  deriving DecidableEq, Repr

/-- A function, physical (0) or virtual (R187, R321, R373, R376, R397, R401), apart from its firmware core, which is a thread
set. `fqCount` counts the entries of its fault queue that have been written and not taken; `trial` is set while its core runs
an image on trial, and `trialSince` is the FCLK of that image's first instruction (R404). -/
structure Fn where
  hashmask : Vector Word 14
  ptroot : Word
  fqhead : Word
  fqtail : Word
  fqCount : Nat
  nextFid : BitVec 32
  faults : List (List Byte)
  seq : BitVec 32
  queues : NMap Queue
  lastQueue : Nat
  weight : Nat
  clusterTime : Nat
  bktidx : Word
  fwsel : Word
  sram : ByteMap
  committed : Bool
  trial : Bool
  trialSince : Option Nat
  kickAt : Nat
  slot : Nat
  deriving DecidableEq, Repr

/-- A compute die (R394 to R396, R412). -/
structure Die where
  lost : Bool
  down : Bool
  temp : Byte
  throttled : Bool
  deriving DecidableEq, Repr

/-- A physical unit of the inventory that is not simply live (R407): STATE and CERR. -/
structure UnitState where
  state : Nat
  cerr : BitVec 32
  deriving DecidableEq, Repr

/-- An entry of the boot record (R405). -/
structure BootEntry where
  attempts : Nat
  outcome : Nat
  fails : Nat
  alt : Bool
  deriving DecidableEq, Repr

/-- An image in a slot (R403): the 160 bytes of its header before SIG, SIG, and what follows the header. -/
structure Image where
  head : List Byte
  sig : Nat
  rest : List Byte
  deriving DecidableEq, Repr

/-- The hub's nonvolatile store (R403 to R405): the public key under which images are signed and its fused digest, the four image
slots (0 and 1 root A and B, 2 and 3 firmware A and B), rejected slots, those written and not committed since, the fused
minimum SVN of the two targets, the fuse map, the field-disable record and the boot record. -/
structure NvStore where
  key : Nat × Nat
  keyDigest : Nat
  images : NMap Image
  rejected : List Nat
  fresh : List Nat
  committedRoot : Nat
  committedFw : Nat
  minSvn : Vector Nat 2
  grade : Nat
  fused : List UnitId
  disabled : List UnitId
  boot : NMap BootEntry
  deriving DecidableEq, Repr

/-- The hub (R332, R394 to R412); `withheld` lists the 2 MiB units of device memory that step 7 of start-up has withheld (R405). -/
structure Hub where
  nv : NvStore
  started : Bool
  failed : Bool
  tripped : Bool
  feat : Vector Word 4
  accept : Vector Word 4
  active : Vector Word 4
  afr : Word
  diectl : Word
  held : List Nat
  dies : Vector Die 4
  units : NMap UnitState
  degraded : Bool
  withheld : List Nat
  bktmap : NMap Nat
  fwin : NMap Word
  log : List (Nat × Nat)
  retraining : List UnitId
  hostOut : List Word
  hostMem : ByteMap
  peerMem : ByteMap
  deriving DecidableEq, Repr

/-- What the device remembers of a candidate between its activations: consecutive poison rollbacks (R389), and the cores a
mismatched pair ran on (R391). -/
structure Rollback where
  cluster : Nat
  rule : Nat
  ages : List (BitVec 32)
  poison : Nat
  avoid : List Nat
  deriving DecidableEq, Repr

/-- What the device keeps of a cluster of a saved pack: its units, cores and ranked thread sets as they stood, of which the
save area holds what R382 and R383 lay out. -/
structure SavedCluster where
  cluster : Cluster
  cores : List CoreUnit
  threads : List Thread
  rollbacks : List Rollback
  deriving DecidableEq, Repr

/-- What the host may do that no row of the opcode table names: read or write a control region (R399), write an image into a
slot, have a core start on the image of its other slot (R404), read a register over SMBus (R411), and ask for the measurement
log (R409). -/
inductive Outside where
  | regionRead (vf off n : Nat)
  | regionWrite (vf off : Nat) (bs : List Byte)
  | slotWrite (slot : Nat) (bs : List Byte)
  | update (core : Nat)
  | smbusRead (device register : Nat)
  | measurementLog
  deriving DecidableEq, Repr

/-- What the schedule may name for the next step: the core of a thread set takes its issue slot, a device step is taken, the
host acts, or time passes. -/
inductive Turn where
  | issue (t : TsId)
  | event (i : Instr) (x : Input)
  | outside (o : Outside)
  | tick (n : Nat)
  deriving DecidableEq, Repr

/-- The state of the device. `mem` is the DRAM; `lines` the slices' lines; `poison` the poisoned sectors, each with the bytes
of it that have not been written since; `wtimes` and `wmax` the logical write times of R346. `agenda`, `pending`, `input`,
`cur`, `fclk`, `turn`, `period`, `order` and `freeIdx` are the model's own: the schedule, the work list of device steps, what
the input from outside under way carries, the thread set whose word is being executed, the clock, the default schedule's
place, the 1,800 FCLK last seen to begin, the issue order of asynchronous operations, and the number of free values drawn. -/
structure State where
  threads : NMap Thread
  cores : NMap CoreUnit
  clusters : NMap Cluster
  runs : NMap Run
  acts : List (ActKey × Act)
  fns : NMap Fn
  mem : ByteMap
  lines : NMap SliceLine
  poison : NMap Nat
  wtimes : NMap Nat
  wmax : Nat
  inserts : List Insert
  submissions : List Submission
  mcrds : NMap McrdReq
  streams : NMap Stream
  beats : List Beat
  returns : List (TsId × AmoRet)
  rollbacks : List Rollback
  saves : NMap (List SavedCluster)
  hub : Hub
  agenda : List Turn
  pending : List Instr
  input : Input
  cur : TsId
  fclk : Nat
  turn : Nat
  lastIssued : Nat
  order : Nat
  period : Nat
  nextRun : Nat
  nextMcrd : Nat
  freeIdx : Nat
  deriving DecidableEq, Repr

/-! ## Right after reset -/

/-- A thread set that runs nothing: registers zero; TSTAT, WAITLIM as R115, R116 and R371 state. -/
def Thread.reset : Thread :=
  { x := Vector.replicate 32 0, v := Vector.replicate 32 0, p := #v[0xFFFFFFFFFFFFFFFF, 0, 0, 0, 0, 0, 0, 0],
    h := Vector.replicate 16 0, pc := 0, tcause := 0, tpc := 0, tval := 0, mode := false, pmode := false, intrap := false,
    ctx := .gang, fpmode := 0, fpflags := 0, spillsp := 0, spillbase := 0, spilllim := 0, waitlim := 0x01000000,
    actid := 0, run := none, rank := 0xFFFFFFFF, status := .idle, wait := none, refused := none, cnt := Counts.zero,
    stOut := [], pend := [], shadow := Vector.replicate 8 0, nextCopy := 1, copies := [], stint := 0, joinAt := 0,
    ecc := false, sendq := [], recvq := [], amoq := [], awaits := [],
    rep := none, chain := Chain.closed, arb := RoundRec.zero, act := none, sub := 0, msg := none, count := 0,
    ltime := 0 }

/-- A firmware core: supervisor mode (R116). -/
def Thread.firmware : Thread := { Thread.reset with mode := true }

/-- A core (R165, R175, R180, R182). -/
def CoreUnit.reset : CoreUnit :=
  { scratch := [], poison := [], lsplit := 8, vgroup := 0, barriers := Vector.replicate 16 Barrier.zero, inq := [],
    deposits := [], priv := [], tlb := [], handlerSeq := 0, lastSet := 3, yielded := [], fenced := false, mismatches := 0 }

/-- A program clause array that is free (R140). -/
def ClauseUnit.reset : ClauseUnit := { arr := ClauseArray.empty, holder := none, claimed := false, poisoned := false }

/-- An array whose leash is free (R264, R265). -/
def ArrayUnit.reset : ArrayUnit :=
  { block := Vector.replicate 512 0, rowmask := 0xFFFFFFFF, failed := false, holder := none, holderAct := none, orphan := none, grantStart := 0,
    grantCount := 0, lastCore := 15 }

/-- A cluster that no run occupies (R253, R256, R280, R304). -/
def Cluster.reset : Cluster :=
  { run := none, kennel := Kennel.fresh, clause := ClauseUnit.reset, array := ArrayUnit.reset, tiles := [], litters := [],
    wbuf := [], abuf := [], cbuf := [], sbuf := [], badRows := [], badConst := [], copies := [], moves := [], relayouts := [],
    misses := [], l2tlb := [], copyTlb := [], fillTlb := [], drainTlb := [], relayTlb := [], cluflags := 0, raised := 0 }

/-- A function (R115, R187, R373, R401, R402). -/
def Fn.reset : Fn :=
  { hashmask := Vector.replicate 14 0, ptroot := 0, fqhead := 0, fqtail := 0, fqCount := 0, nextFid := 1, faults := [], seq := 0,
    queues := [], lastQueue := 63, weight := 1, clusterTime := 0, bktidx := 0, fwsel := 0, sram := [],
    committed := false, trial := false, trialSince := none, kickAt := 0, slot := 2 }

def Die.reset : Die := { lost := false, down := false, temp := 0, throttled := false }

/-- The public key of a part, by its coordinates, and its SHA-384: the manual gives none (DESIGN CHOICE, entry 91). -/
def imageKey : Nat × Nat :=
  (0x5EF355EC18373F18DAB7A0495771B9DD25BFAB7C886BA0101CDFC94D81EE6C08D59A1DA25F77F1CE99B5E275921C0C96,
   0x07FFEE7BB62F3D8260CA8B7AD4A47DC13D913B80C71266FA427FBC8E7265D0E2ABEB5B378270687D62D1C0419EF9E727)
def imageKeyDigest : Nat := 0x4B7388F7E6EC6071DF1E35446D0644DBAD45B8BC4B97388FCD312DB7E39B6B3CB7C013615D7BF6AE6F31BD62F4F56EC4

/-- A signature under that key of the blank image of a target: r, then s (R403). -/
def blankSignature (target : Nat) : Nat :=
  if target = 0 then
    0x5937031491DF599EF89FC2ED505464354096A8CEE0E09E48DEB517BE73792DD0842AECB474C848E13860892CAF28E203 +
      2 ^ 384 * 0x1DF6B1516EC3934468B7153CACEFB904EBFE5B6287D43BF2CFF9BCB5A1A755E979E505259C0282BF90BA575FC2143345
  else
    0x3B8DCD70BF6E2B767E7C9707A00B24D738C172DF49793BF41B4A7493847BE5FE6F1A889BE92F32377CC4C898F17F2F67 +
      2 ^ 384 * 0x4542C7393DA7262630A49B65FEB457DA8E6D78C934F31A0AC5DC10737D330EE37580844B3222566A4FECE893C1D6F986

/-- An image without a body: MAGIC, TARGET and VERSION right, SVN 0, signed (R403). -/
def Image.blank (target : Nat) : Image :=
  { head := leBytes 160 (0x57465A4D + 2 ^ 32 * target + 2 ^ 40), sig := blankSignature target, rest := [] }

/-- The nonvolatile store of a full-grade part with committed images that verify and nothing fused off (R403, R405, R407). -/
def NvStore.reset : NvStore :=
  { key := imageKey, keyDigest := imageKeyDigest, images := [(0, Image.blank 0), (2, Image.blank 1)], rejected := [],
    fresh := [], committedRoot := 0, committedFw := 2,
    minSvn := #v[0, 0], grade := 0, fused := [], disabled := [], boot := [] }

/-- The hub before start-up: no feature is active (R406), nothing is throttled (R412). -/
def Hub.reset : Hub :=
  { nv := NvStore.reset, started := false, failed := false, tripped := false,
    feat := #v[0x7F, 0, 0, 0], accept := #v[0, 0, 0, 0], active := #v[0, 0, 0, 0], afr := 0, diectl := 0, held := [],
    dies := Vector.replicate 4 Die.reset, units := [], degraded := false, withheld := [], bktmap := [], fwin := [], log := [], retraining := [],
    hostOut := [], hostMem := [], peerMem := [] }

/-- The device right after power is applied: start-up is the first device step (R405); nothing runs, no memory is listed. -/
def State.reset : State :=
  { threads := [], cores := [], clusters := [], runs := [], acts := [], fns := [], mem := [], lines := [], poison := [],
    wtimes := [], wmax := 0, inserts := [], submissions := [], mcrds := [], streams := [], beats := [],
    returns := [], rollbacks := [], saves := [], hub := Hub.reset, agenda := [], pending := [.startUp], input := .none, cur := ⟨0, 0, 0⟩, fclk := 0,
    turn := 0, lastIssued := 0, order := 0, period := 0, nextRun := 1, nextMcrd := 1, freeIdx := 0 }

end Sys2Proof.Machine
end

