-- ==== Sys2Proof/Machine/Ops.lean ====
section
/-! DEFINITION. The named operations over the state: thread sets and their registers, units, runs, activations; how a word
ends; taking a trap (R367 to R370) and returning from one (R124). -/
namespace Sys2Proof.Machine

/-! ## Units -/

/-- The key of a thread set. -/
def TsId.key (t : TsId) : Nat := (t.cluster * 17 + t.core) * 8 + t.set

def isFirmware (t : TsId) : Bool := t.cluster == fwNode

/-- The H set of a core. -/
def handSet (c k : Nat) : TsId := ⟨c, k, 4⟩

def State.thread (s : State) (t : TsId) : Thread :=
  NMap.get s.threads (TsId.key t) (if isFirmware t then Thread.firmware else Thread.reset)

def State.setThread (s : State) (t : TsId) (th : Thread) : State :=
  { s with threads := NMap.set s.threads (TsId.key t) th }

def State.updThread (s : State) (t : TsId) (f : Thread → Thread) : State := s.setThread t (f (s.thread t))

/-- The thread set whose word is being executed. -/
def State.me (s : State) : Thread := s.thread s.cur

def State.updMe (s : State) (f : Thread → Thread) : State := s.updThread s.cur f

def coreKey (cluster core : Nat) : Nat := cluster * 16 + core

def State.core (s : State) (cluster core : Nat) : CoreUnit := NMap.get s.cores (coreKey cluster core) CoreUnit.reset

def State.updCore (s : State) (cluster core : Nat) (f : CoreUnit → CoreUnit) : State :=
  { s with cores := NMap.set s.cores (coreKey cluster core) (f (s.core cluster core)) }

def State.myCore (s : State) : CoreUnit := s.core s.cur.cluster s.cur.core

def State.updMyCore (s : State) (f : CoreUnit → CoreUnit) : State := s.updCore s.cur.cluster s.cur.core f

def State.cluster (s : State) (c : Nat) : Cluster := NMap.get s.clusters c Cluster.reset

def State.updCluster (s : State) (c : Nat) (f : Cluster → Cluster) : State :=
  { s with clusters := NMap.set s.clusters c (f (s.cluster c)) }

def State.myCluster (s : State) : Cluster := s.cluster s.cur.cluster

def State.updMyCluster (s : State) (f : Cluster → Cluster) : State := s.updCluster s.cur.cluster f

def State.fn (s : State) (vf : Nat) : Fn := NMap.get s.fns vf Fn.reset

def State.updFn (s : State) (vf : Nat) (f : Fn → Fn) : State := { s with fns := NMap.set s.fns vf (f (s.fn vf)) }

def State.run? (s : State) (r : Nat) : Option Run := NMap.find? s.runs r

def State.setRun (s : State) (r : Nat) (x : Run) : State := { s with runs := NMap.set s.runs r x }

def State.updRun (s : State) (r : Nat) (f : Run → Run) : State :=
  match s.run? r with
  | some x => s.setRun r (f x)
  | none => s

/-- The run of the thread set that issues. -/
def State.myRun? (s : State) : Option Run := s.me.run.bind s.run?

def State.act? (s : State) (k : ActKey) : Option Act := (s.acts.find? (fun a => a.1 = k)).map (·.2)

def actSet (k : ActKey) (a : Act) : List (ActKey × Act) → List (ActKey × Act)
  | [] => [(k, a)]
  | (k', a') :: rest => if k' = k then (k, a) :: rest else (k', a') :: actSet k a rest

def State.setAct (s : State) (k : ActKey) (a : Act) : State := { s with acts := actSet k a s.acts }

def State.updAct (s : State) (k : ActKey) (f : Act → Act) : State :=
  match s.act? k with
  | some a => s.setAct k (f a)
  | none => s

def State.dropAct (s : State) (k : ActKey) : State := { s with acts := s.acts.filter (fun a => a.1 != k) }

/-- The activation or handler that the issuing thread set runs. -/
def State.myAct? (s : State) : Option Act := s.me.act.bind s.act?

/-- A device step put at the end of the work list. -/
def State.post (s : State) (i : Instr) : State := { s with pending := s.pending ++ [i] }

/-- A device step put on the work list unless it is there. -/
def State.postOnce (s : State) (i : Instr) : State := if i ∈ s.pending then s else s.post i

/-- One of several, where the manual keeps no order: a free value picks it (entry 1). -/
def State.pickFree {α : Type} (s : State) (l : List α) : State × Option α :=
  match l with
  | [] => (s, none)
  | [a] => (s, some a)
  | a :: b :: more =>
    ({ s with freeIdx := s.freeIdx + 1 }, (a :: b :: more)[(Config.freeWord s.freeIdx).toNat % (more.length + 2)]?)

/-- The virtual function served by a firmware core is its number (R397). -/
def State.vfOf (s : State) (t : TsId) : Nat :=
  if isFirmware t then t.core else ((((s.thread t).run).bind s.run?).map (·.vf)).getD 0

/-! ## Registers -/

/-- An x register; x0 reads zero (R52). -/
def Thread.getX (t : Thread) (r : XReg) : Word := if r = 0 then 0 else t.x[r.toNat]'r.isLt

/-- A write to x0 is discarded (R52). A later return of an atomic does not undo a write (entry 19). -/
def Thread.setX (t : Thread) (r : XReg) (w : Word) : Thread :=
  if r = 0 then t else { t with x := t.x.set r.toNat w r.isLt, awaits := t.awaits.filter (fun q => q.2 != r) }

/-- Whether an atomic is still to write a register (R358). -/
def Thread.awaiting (t : Thread) (r : XReg) : Bool := t.awaits.any (fun q => q.2 == r)

def Thread.getV (t : Thread) (r : VReg) : VWord := t.v[r.toNat]'r.isLt

def Thread.setV (t : Thread) (r : VReg) (w : VWord) : Thread := { t with v := t.v.set r.toNat w r.isLt }

/-- A predicate register; p0 enables every byte (R53). -/
def Thread.getP (t : Thread) (r : PReg) : Word := if r = 0 then BitVec.allOnes 64 else t.p[r.toNat]'r.isLt

/-- A write to p0 is discarded (R299). -/
def Thread.setP (t : Thread) (r : PReg) (w : Word) : Thread := if r = 0 then t else { t with p := t.p.set r.toNat w r.isLt }

def Thread.getH (t : Thread) (r : HReg) : HWord := t.h[r.toNat]'r.isLt

def Thread.setH (t : Thread) (r : HReg) (w : HWord) : Thread := { t with h := t.h.set r.toNat w r.isLt }

/-- Flags are ORed into FPFLAGS (R117). -/
def Thread.orFlags (t : Thread) (f : Flags) : Thread := { t with fpflags := t.fpflags ||| f }

/-- The next word: the one after, or the next copy of a repetition (R301). A word that issues without trapping counts once
(R364) and ends a bounded wait (R371). -/
def Thread.next (t : Thread) : Thread :=
  let t := { t with count := t.count + 1, wait := none }
  match t.rep with
  | none => { t with pc := t.pc + 8 }
  | some r =>
    if r.word + 1 < r.body.length then { t with rep := some { r with word := r.word + 1 } }
    else if r.pass + 1 < r.n then { t with rep := some { r with word := 0, pass := r.pass + 1 } }
    else { t with rep := none, pc := t.pc + BitVec.ofNat 64 (8 * (r.body.length + 1)) }

/-- A taken transfer. -/
def Thread.goto (t : Thread) (target : Word) : Thread := { t with count := t.count + 1, wait := none, pc := target }

/-- The issuing thread set moves past its word. -/
def State.advance (s : State) : State := s.updMe Thread.next

/-! ## The flag tree (R280, R281) -/

/-- Bits that become 1 in the FPFLAGS of a thread set are set in the CLUFLAGS of its cluster, and are on their way to the
PACKFLAGS of its run. -/
def State.raise (s : State) (t : TsId) (f : Flags) : State :=
  if f = 0 ∨ isFirmware t then s
  else (s.updCluster t.cluster (fun c => { c with cluflags := c.cluflags ||| f, raised := c.raised ||| f })).postOnce
    .flagPropagate

/-- Flags ORed into a thread set's FPFLAGS, and on into the tree. -/
def State.flagsOf (s : State) (t : TsId) (f : Flags) : State :=
  (s.updThread t (·.orFlags f)).raise t (f &&& ~~~(s.thread t).fpflags)

def State.flags (s : State) (f : Flags) : State := s.flagsOf s.cur f

/-! ## Trap causes (R367) -/

def causeIllZero : Nat := 0x01
def causeIllOp : Nat := 0x02
def causePriv : Nat := 0x03
def causeMisalign : Nat := 0x04
def causeMisalignAmo : Nat := 0x05
def causeRegBank : Nat := 0x06
def causePageFault : Nat := 0x08
def causeAccess : Nat := 0x09
def causePoison : Nat := 0x0A
def causeHomeDown : Nat := 0x0B
def causeSendqFull : Nat := 0x10
def causeWaitTimeout : Nat := 0x11
def causeNeverReady : Nat := 0x12
def causeBadShape : Nat := 0x13
def causeFootprint : Nat := 0x14
def causeHandlerLimit : Nat := 0x15
def causeSpillOvf : Nat := 0x16
def causeClauseBusy : Nat := 0x17
def causeNoLeash : Nat := 0x18
def causeNoArray : Nat := 0x19
def causeOverflowFull : Nat := 0x1A
def causeConflict : Nat := 0x1B
def causeBrk : Nat := 0x20
def causeTrap : Nat := 0x21

def DecodeTrap.cause : DecodeTrap → Nat
  | .illZero _ => causeIllZero
  | .illOp .. => causeIllOp
  | .regBank .. => causeRegBank

/-! ## The run record's fields (R319) -/

def Rec.bits (r : Rec) (hi lo : Nat) : Nat := (r.toNat >>> lo) % 2 ^ (hi + 1 - lo)
def Rec.bit (r : Rec) (i : Nat) : Bool := r.getLsbD i
def Rec.kind (r : Rec) : Nat := Rec.bits r 1 0
def Rec.ntind (r : Rec) : Bool := Rec.bit r 2
def Rec.overlap (r : Rec) : Bool := Rec.bit r 3
def Rec.haswin (r : Rec) : Bool := Rec.bit r 4
def Rec.cwmask (r : Rec) : Nat := Rec.bits r 15 8
def Rec.homewin (r : Rec) : Nat := Rec.bits r 21 16
def Rec.packw (r : Rec) : Nat := Rec.bits r 28 24
def Rec.packh (r : Rec) : Nat := Rec.bits r 36 32
def Rec.cores (r : Rec) : Nat := Rec.bits r 44 40
def Rec.threads (r : Rec) : Nat := Rec.bits r 50 48
def Rec.prio (r : Rec) : Nat := Rec.bits r 62 56
def Rec.fpmode (r : Rec) : Nat := Rec.bits r 67 64
def Rec.nrules (r : Rec) : Nat := Rec.bits r 95 80
def Rec.firelim (r : Rec) : Nat := Rec.bits r 127 96
def Rec.ntiles (r : Rec) : Nat := Rec.bits r 191 128
def Rec.timelim (r : Rec) : Nat := Rec.bits r 255 192
def Rec.rulesAt (r : Rec) : Nat := Rec.bits r 319 256
def Rec.tilesAt (r : Rec) : Nat := Rec.bits r 383 320
def Rec.entry (r : Rec) : Nat := Rec.bits r 447 384
def Rec.trapvec (r : Rec) : Nat := Rec.bits r 511 448
def Rec.result (r : Rec) : Nat := Rec.bits r 575 512
def Rec.rescap (r : Rec) : Nat := Rec.bits r 639 576
def Rec.ovf (r : Rec) : Nat := Rec.bits r 703 640
def Rec.ovfcap (r : Rec) : Nat := Rec.bits r 767 704
def Rec.save (r : Rec) : Nat := Rec.bits r 831 768
def Rec.savecap (r : Rec) : Nat := Rec.bits r 895 832
def Rec.scrBase (r : Rec) (n : Nat) : Nat := Rec.bits r (896 + 64 * n + 63) (896 + 64 * n)
def Rec.scrLen (r : Rec) (n : Nat) : Nat := Rec.bits r (1408 + 32 * n + 31) (1408 + 32 * n)
def Rec.dep (r : Rec) (n : Nat) : Nat := Rec.bits r (1664 + 64 * n + 63) (1664 + 64 * n)
def Rec.isReact (r : Rec) : Bool := Rec.kind r == 1
def Rec.isGang (r : Rec) : Bool := Rec.kind r == 2

/-- NRANK (R19). -/
def Rec.nrank (r : Rec) : Nat := Rec.packw r * Rec.packh r * Rec.cores r * Rec.threads r

/-- RANK of a set of a core of pack cluster (cx, cy) (R19). -/
def Rec.rank (r : Rec) (cx cy core set : Nat) : Nat :=
  ((cy * Rec.packw r + cx) * Rec.cores r + core) * Rec.threads r + set

/-- The run's clusters by pack-relative number, c = cy × W + cx. -/
def Run.clusterAt (x : Run) (c : Nat) : Nat :=
  let w := Rec.packw x.rec_
  x.node + 16 * (c / w) + c % w

def Run.clusters (x : Run) : List Nat := (upTo (Rec.packw x.rec_ * Rec.packh x.rec_)).map x.clusterAt

/-- The core of a cluster that a run uses under a logical number: another stands in for a fenced one (R384). -/
def Run.coreAt (x : Run) (c k : Nat) : Nat := ((x.subst.find? (fun q => q.1 == c && q.2.1 == k)).map (·.2.2)).getD k

/-- The thread set that holds a rank (R19). -/
def Run.tsOf (x : Run) (rank : Nat) : TsId :=
  let th := Rec.threads x.rec_
  let co := Rec.cores x.rec_
  let c := x.clusterAt (rank / th / co)
  ⟨c, x.coreAt c ((rank / th) % co), rank % th⟩

/-- The thread sets a run's ranks name. -/
def Run.ranked (x : Run) : List TsId := (upTo (Rec.nrank x.rec_)).map x.tsOf

/-- Whether an address lies in one of the run's private scratch ranges (R40). -/
def Run.inPrivateRange (x : Run) (a : Nat) : Bool :=
  (upTo 8).any (fun n => Rec.scrBase x.rec_ n ≤ a && a < Rec.scrBase x.rec_ n + Rec.scrLen x.rec_ n)

/-! ## How a word ends -/

/-- Why a word does not simply complete. -/
inductive Stop where
  /-- A trap of the word itself. -/
  | trap (cause : Nat) (tval : Word)
  /-- A trap that takes effect from the state given, from which the pending failure it reports has been removed. -/
  | late (s : State) (cause : Nat) (tval : Word)
  /-- PRIV after decode: the manual gives no TVAL (assumption 17). -/
  | priv
  /-- The word is not performed now, and nothing it did stands: it waits, or its thread set sleeps, as the function marks in
  the state before the word. -/
  | hold (f : State → State)
  /-- The word ends here, with the state as given (an ending, or a store that aborts its own activation). -/
  | done (s : State)

/-- A word's execution. -/
abbrev M := StateT State (Except Stop)

def trapM {α : Type} (cause : Nat) (tval : Word) : M α := fun _ => .error (.trap cause tval)
def privM {α : Type} : M α := fun _ => .error .priv
def holdM {α : Type} : M α := fun _ => .error (.hold id)
def doneM {α : Type} : M α := fun s => .error (.done s)
/-- Traps when the condition holds. -/
def trapIf (c : Bool) (cause : Nat) (tval : Word) : M Unit := if c then trapM cause tval else pure ()
def privUnless (c : Bool) : M Unit := if c then pure () else privM
/-- Waits when the condition holds. -/
def holdIf (c : Bool) : M Unit := if c then holdM else pure ()
def readS {α : Type} (f : State → α) : M α := fun s => .ok (f s, s)
def updS (f : State → State) : M Unit := fun s => .ok ((), f s)

/-- A value of Config that nothing constrains (assumption 1). -/
def drawM : M Word := fun s => .ok (Config.freeWord s.freeIdx, { s with freeIdx := s.freeIdx + 1 })

/-! ## Traps -/

/-- The run stops with a cause (R370), unless a trap ends it already; a limit that stops it gives way. -/
def State.endRun (s : State) (r : Nat) (cause : StopCause) : State :=
  match s.run? r with
  | some x =>
    if x.stop.any (fun c => c.status == 6) then s
    else (s.setRun r { x with stop := some cause }).postOnce (.runStopTrapped r)
  | none => s

/-- An activation or handler ends (R36, R37, R389): its thread sets issue nothing more, and the commit step follows. -/
def State.endAct (s : State) (k : ActKey) (f : Act → Act) : State :=
  let hs := match s.act? k with
    | some a => a.owner :: (match a.fork with
      | some r => r.helpers
      | none => [])
    | none => []
  let s := hs.foldl (fun s t => s.updThread t (fun th =>
    if th.act = some k then { th with status := .held, rep := none, wait := none } else th)) s
  (s.updAct k f).postOnce (.commit k)

/-- The trap of a word ends its run (R367 E, R369, R370): its thread set issues nothing further. An activation ends as by
`abort`, and so does a handler, which does not reach `hret`. -/
def State.trapEndsRun (s : State) (cause : Nat) (tval : Word) : State :=
  let me := s.me
  let s := s.updMe (fun t => { t with status := .stopped, rep := none, wait := none, refused := none })
  let s := match me.act with
    | some k => s.endAct k (fun a => { a with ending := some .abort })
    | none => s
  match me.run with
  | some r => s.endRun r ⟨6, cause, tval⟩
  | none => s

/-- Trap entry to the run's vector (R368). -/
def Thread.enterVector (t : Thread) (cause : Nat) (tval vec : Word) (supervisor : Bool) : Thread :=
  { t with tpc := t.pc, tcause := BitVec.ofNat 64 cause, tval := tval, pmode := t.mode, intrap := true,
           mode := supervisor, pc := vec, rep := none, wait := none, refused := none }

/-- A handler is rolled back (R364): its H set issues nothing more until the limit step. -/
def State.rollHandler (s : State) (t : TsId) (k : ActKey) (cause : Nat) (v : Word) : State :=
  ((s.updThread t (fun th => { th with status := .held, rep := none, wait := none })).updAct k
    (fun a => { a with rolled := some (cause, v) })).postOnce (.handlerLimit t.cluster t.core)

/-- A POISON trap (R389): in GANG code the run ends; an activation, its helpers included, is rolled back; a handler is
rolled back as for its limit (R364). -/
def State.poisonTrap (s : State) (tval : Word) : State :=
  let me := s.me
  match me.ctx, me.act with
  | .gang, _ => s.trapEndsRun causePoison tval
  | .hand, some k => s.rollHandler s.cur k causePoison tval
  | _, some k => s.endAct k (fun a => { a with rolled := some (causePoison, tval), ending := some .abort })
  | _, none => s

/-- Taking a trap on a firmware core (R66, R368): the registers of trap entry are written, and it goes on in supervisor mode
(R116). The manual gives its vector no address: a free value, a multiple of 8 as every PC is (R51; entry 18). -/
def State.firmwareTrap (s : State) (cause : Nat) (tval : Word) : State :=
  { s with freeIdx := s.freeIdx + 1 }.updMe (fun t => t.enterVector cause tval (Config.freeWord s.freeIdx &&& ~~~7#64) true)

/-- Taking a trap (R367 to R369). No rule asks that TRAPVEC be a multiple of 8: the pc takes its value, and the next fetch
traps MISALIGN if it is none (DESIGN CHOICE, entry 92). -/
def State.takeTrap (s : State) (cause : Nat) (tval : Word) : Host.Outcome State Fault Refusal :=
  let me := s.me
  if isFirmware s.cur then .next (s.firmwareTrap cause tval)
  else if cause = causePoison then .next (s.poisonTrap tval)
  else
    match s.myRun? with
    | some x =>
      if me.intrap ∨ Rec.trapvec x.rec_ = 0 then .next (s.trapEndsRun cause tval)
      else .next (s.updMe (fun t => t.enterVector cause tval (BitVec.ofNat 64 (Rec.trapvec x.rec_)) (x.vf == 0)))
    | none => .next (s.trapEndsRun cause tval)

/-- The outcome of a word's execution. A word that traps has no effect: its trap is taken from the state before it (R66). -/
def M.outcome (m : M Unit) (s : State) : Host.Outcome State Fault Refusal :=
  match m s with
  | .ok (_, s') => .next s'
  | .error (.trap c v) => s.takeTrap c v
  | .error (.late s' c v) => s'.takeTrap c v
  | .error .priv => { s with freeIdx := s.freeIdx + 1 }.takeTrap causePriv (Config.freeWord s.freeIdx)
  | .error (.hold f) => .next (f s)
  | .error (.done s') => .next s'

/-- A word that moves on to the next one when its body completes. -/
def word (body : M Unit) (s : State) : Host.Outcome State Fault Refusal :=
  M.outcome (do body; updS State.advance) s

/-- TVAL of PRIV at check 6 (R67). -/
def opFnTval (op fn : Nat) : Word := BitVec.ofNat 64 (op + 256 * fn)

/-- Check 6 of R66: supervisor mode. -/
def supervisorM (op fn : Nat) : M Unit := do
  let me ← readS State.me
  trapIf (!me.mode) causePriv (opFnTval op fn)

/-- Return from a trap (R124): MODE := PMODE, INTRAP := 0, PC := TPC. -/
def Thread.trapReturn (t : Thread) : Thread :=
  { t with mode := t.pmode, intrap := false, pc := t.tpc, count := t.count + 1, wait := none }

/-! ## Contexts and waits -/

def State.inFirmware (s : State) : Bool := isFirmware s.cur

/-- A GANG thread set. -/
def State.isGang (s : State) : Bool := !s.inFirmware && s.me.ctx == .gang
def State.isHand (s : State) : Bool := !s.inFirmware && s.me.ctx == .hand
/-- An activation or one of its helpers. -/
def State.isBody (s : State) : Bool := !s.inFirmware && (s.me.ctx == .act || s.me.ctx == .helper)
/-- GANG thread sets, activations and helpers. -/
def State.isUser (s : State) : Bool := !s.inFirmware && s.me.ctx != .hand

/-- The issue order of asynchronous operations. -/
def nextOrder : M Nat := fun s => .ok (s.order, { s with order := s.order + 1 })

def Counts.get (c : Counts) : WClass → Nat
  | .ld => c.ld
  | .st => c.st
  | .cp => c.cp
  | .tl => c.tl
  | .ms => c.ms

def Counts.upd (c : Counts) (k : WClass) (f : Nat → Nat) : Counts :=
  match k with
  | .ld => { c with ld := f c.ld }
  | .st => { c with st := f c.st }
  | .cp => { c with cp := f c.cp }
  | .tl => { c with tl := f c.tl }
  | .ms => { c with ms := f c.ms }

/-- A class holds at most 63 operations: the instruction that would make a 64th waits (R215). -/
def enterClass (k : WClass) : M Unit := do
  let s ← readS id
  holdIf (63 ≤ s.me.cnt.get k)
  updS (fun s => s.updMe (fun t => { t with cnt := t.cnt.upd k (· + 1) }))

/-- An operation of a thread set leaves its class. -/
def State.leaveClass (s : State) (t : TsId) (k : WClass) : State :=
  s.updThread t (fun th => { th with cnt := th.cnt.upd k (· - 1) })

end Sys2Proof.Machine
end

