-- ==== Sys2Proof/Machine/Topology.lean ====
section
/-! DEFINITION. The device's units: dies, nodes and logical numbers (R193, R408), what is live (R5, R407), the binary
hash, the bucket maps, home slices and owner cores (R187, R188). -/
namespace Sys2Proof.Machine

/-- The compute die of a node (R193). -/
def nodeDie (node : Nat) : Nat := node % 16 / 8 + 2 * (node / 128)

/-- The node at a place of a die, numbered row-major within the die. -/
def dieNode (d i : Nat) : Nat := 16 * (8 * (d / 2) + i / 8) + 8 * (d % 2) + i % 8

/-- The 256 nodes in die-major and then row-major order (R408). -/
def dieMajor : List Nat := (upTo 256).map (fun i => dieNode (i / 64) (i % 64))

/-- The KIND codes of the inventory (R407). -/
def kindCluster : Nat := 0
def kindCore : Nat := 1
def kindSlice : Nat := 2
def kindArray : Nat := 3
def kindStack : Nat := 4
def kindModule : Nat := 5
def kindHubLink : Nat := 6
def kindPort : Nat := 7

def unitKey (u : UnitId) : Nat := u.kind * 65536 + u.phys

/-- A unit that the fuse map or the field-disable record leaves off (R408). -/
def Hub.off (h : Hub) (u : UnitId) : Bool := h.nv.fused.contains u || h.nv.disabled.contains u

/-- The inventory entry of a unit that is on. -/
def Hub.unit (h : Hub) (u : UnitId) : UnitState := NMap.get h.units (unitKey u) ⟨0, 0⟩

/-- STATE of R407: a unit that is off reads 3. -/
def Hub.stateOf (h : Hub) (u : UnitId) : Nat := if h.off u then 3 else (h.unit u).state

def Hub.updUnit (h : Hub) (u : UnitId) (f : UnitState → UnitState) : Hub :=
  { h with units := NMap.set h.units (unitKey u) (f (h.unit u)) }

/-- The nodes whose unit of a kind the fuses and the field-disable record leave on, in the order of logical numbers. -/
def Hub.onNodes (h : Hub) (kind : Nat) : List Nat := dieMajor.filter (fun n => !h.off ⟨kind, n⟩)

/-- The place of an element in a list. -/
def indexIn (x : Nat) : List Nat → Nat → Nat
  | [], _ => 0xFFFF
  | y :: ys, i => if x = y then i else indexIn x ys (i + 1)

/-- The logical number of the unit at a node; 0xFFFF when off (R407, R408). -/
def Hub.logical (h : Hub) (kind node : Nat) : Nat := indexIn node (h.onNodes kind) 0

/-- A cluster that can run: on, not fenced or failed, its die not lost. -/
def Hub.clusterLive (h : Hub) (node : Nat) : Bool :=
  h.stateOf ⟨kindCluster, node⟩ < 2 && !((h.dies[nodeDie node]?).any (·.lost))

/-- A cluster on the die that a warm reset under way resets (R395, R396). -/
def Hub.inReset (h : Hub) (node : Nat) : Bool := Word.bit h.diectl 2 && Word.bits h.diectl 1 0 == nodeDie node

/-- The number of a die's stack (R178): the windows of stack k are 8k to 8k + 7. -/
def stackOf (pa : Nat) : Nat := pa / 2 ^ 36 % 8
def stackOff (pa : Nat) : Nat := pa % 2 ^ 36

def Hub.stackLive (h : Hub) (k : Nat) : Bool := h.stateOf ⟨kindStack, k⟩ < 2

/-- Parity of a number's low n bits. -/
def parity (n v : Nat) : Bool := popNat n v % 2 == 1

/-- The number whose bit i, of n, is the parity of a AND mask i (R187). -/
def hashBits (masks : List Word) (a : Nat) : Nat :=
  masks.foldr (fun m acc => 2 * acc + (parity 52 (a &&& m.toNat)).toNat) 0

/-- The bucket of an address under a function's masks (R187). -/
def Fn.bucket (f : Fn) (a : Nat) : Nat := hashBits (f.hashmask.toList.take 10) a

/-- The owner bits of an address (R187). -/
def Fn.ownerBits (f : Fn) (a : Nat) : Nat := hashBits (f.hashmask.toList.drop 10) a

/-- An entry of a home window's bucket map: the logical number of a slice (R188). -/
def Hub.bktEntry (h : Hub) (window bucket : Nat) : Nat :=
  NMap.get h.bktmap (window * 1024 + bucket) (bucket % max 1 (h.onNodes kindSlice).length)

/-- The node of the slice with a logical number. -/
def Hub.sliceNode (h : Hub) (logical : Nat) : Nat := (h.onNodes kindSlice).getD logical 0

/-- The node of the home slice of a device address (R187). -/
def State.homeNode (s : State) (vf pa : Nat) : Nat :=
  s.hub.sliceNode (s.hub.bktEntry (pa / 2 ^ 33 % 64) ((s.fn vf).bucket pa))

def natDist (a b : Nat) : Nat := (a - b) + (b - a)

/-- Hops between two nodes. -/
def hops (a b : Nat) : Nat := natDist (a % 16) (b % 16) + natDist (a / 16) (b / 16)

/-- The element of a list nearest to a node, the first of equals. -/
def nearest (node : Nat) : List Nat → Option Nat
  | [] => none
  | x :: xs => match nearest node xs with
    | some y => if hops node y < hops node x then some y else some x
    | none => some x

/-- The home cluster of a node's slice: its own, or the nearest live one of the die (R187). -/
def State.clusterAtNode (s : State) (node : Nat) : Nat :=
  if s.hub.clusterLive node then node
  else (nearest node ((s.hub.onNodes kindCluster).filter
    (fun n => s.hub.clusterLive n && nodeDie n == nodeDie node))).getD node

/-- The first unfenced core from a number on, wrapping (R187). -/
def State.unfencedFrom (s : State) (cluster : Nat) : Nat → Nat → Nat
  | 0, c => c % 16
  | k + 1, c => if (s.core cluster (c % 16)).fenced then s.unfencedFrom cluster k (c + 1) else c % 16

/-- The owner core of the line of an address: cluster and core (R187, R357). -/
def State.ownerOf (s : State) (vf pa : Nat) : Nat × Nat :=
  let line := 256 * (pa / 256)
  let c := s.clusterAtNode (s.homeNode vf line)
  (c, s.unfencedFrom c 16 ((s.fn vf).ownerBits line))

/-- Whether an access to a device line meets a die that is lost or in reset (R206, R394, R396): its home's, or its stack's. Dies
that no chain of boundaries joins any longer, though none of them is lost, are a case of which the manual says nothing: the
model lets an access between them proceed (DESIGN CHOICE, entry 98). -/
def State.homeDown (s : State) (vf pa : Nat) : Bool :=
  let bad (d : Nat) := (s.hub.dies[d]?).any (fun x => x.lost || x.down)
  bad (nodeDie (s.homeNode vf pa)) || bad (stackOf pa / 2)

/-- RUNID (R118). -/
def Run.id (x : Run) : Word := field 0 x.seq.toNat ||| field 32 (x.vf % 32) ||| field 37 (x.queue % 64)

end Sys2Proof.Machine
end

