-- ==== Sys2Proof/Machine/Slices.lean ====
section
/-! DEFINITION. Device memory: format windows (R190 to R192), slices and their sectors (R184 to R186), tentative data
(R38, R343), poison (R388), and physical accesses of every kind (R178, R398). -/
namespace Sys2Proof.Machine

/-! ## Format windows -/

/-- A FWIN register (R190). -/
structure FWindow where
  mode : Nat
  view : Nat
  len : Nat
  store : Nat
  deriving DecidableEq, Repr

def FWindow.of (w : Word) : FWindow :=
  ⟨Word.bits w 2 0, Word.bits w 17 3 * 0x200000, Word.bits w 32 18 * 0x200000, Word.bits w 52 33 * 0x10000⟩

/-- The bytes of the packed elements, and of the whole storage range with BSE4's scales. -/
def FWindow.packed (f : FWindow) : Nat := if f.mode = 1 then f.len * 3 / 4 else f.len / 2
def FWindow.storage (f : FWindow) : Nat := f.packed + (if f.mode = 3 then f.len / 64 else 0)

def fwinKey (stack n : Nat) : Nat := stack * 16 + n

/-- The enabled windows of a stack's controller, with their numbers. -/
def Hub.windows (h : Hub) (stack : Nat) : List (Nat × FWindow) :=
  (upTo 16).filterMap (fun n => match NMap.find? h.fwin (fwinKey stack n) with
    | some w => if (FWindow.of w).mode = 0 then none else some (n, FWindow.of w)
    | none => none)

/-- The window whose view holds a device address. -/
def Hub.viewOf (h : Hub) (pa : Nat) : Option (Nat × FWindow) :=
  (h.windows (stackOf pa)).find? (fun w => w.2.view ≤ stackOff pa && stackOff pa < w.2.view + w.2.len)

/-- Whether a device address lies in the storage range of an enabled window (R191). -/
def Hub.inStorage (h : Hub) (pa : Nat) : Bool :=
  (h.windows (stackOf pa)).any (fun w => w.2.store ≤ stackOff pa && stackOff pa < w.2.store + w.2.storage)

/-- A BSE4 element as BF16 (R191). -/
def bse4Decode (elem scale : Nat) : Nat :=
  (bf16.mul .rne false (e4m3.decode elem) (e4m3.decode scale)).bits

/-- A BF16 value as a BSE4 element, and whether it saturated (R192). -/
def bse4Encode (value scale : Nat) : Nat × Bool :=
  let x := bf16.decode value
  let d := e4m3.decode scale
  if x.isNan || d.isNan || d.isZero then (0x7F, false)
  else if x.isInf then (e4m3.signBit (x.neg != d.neg) + e4m3.maxFinite, true)
  else
    let r := e4m3.div .rne false x d
    (r.bits, r.flags.getLsbD 5)

/-- The byte of DRAM at an address, decoded through the window given (R191). -/
def State.decodeByte (s : State) (window : Option (Nat × FWindow)) (pa : Nat) : Byte :=
  match window with
  | none => ByteMap.read s.mem pa
  | some (_, f) =>
    let v := stackOff pa - f.view
    let st := stackOf pa * 2 ^ 36 + f.store
    if f.mode = 1 then BitVec.ofNat 8 (ByteMap.readNat s.mem (st + 3 * (v / 4)) 3 / 64 ^ (v % 4) % 64)
    else if f.mode = 2 then
      BitVec.ofInt 8 (sxInt 4 ((ByteMap.read s.mem (st + v / 2)).toNat / 16 ^ (v % 2) % 16))
    else BitVec.ofNat 8 (bse4Decode (ByteMap.read s.mem (st + v / 2)).toNat
      (ByteMap.read s.mem (st + f.packed + v / 64)).toNat / 256 ^ (v % 2))

/-- The byte of DRAM at an address, through the window whose view holds it (R191). -/
def State.dramByte (s : State) (pa : Nat) : Byte := s.decodeByte (s.hub.viewOf pa) pa

/-- An INT8 saturated to INT4. -/
def pack4 (b : Byte) : Nat × Bool :=
  let i := b.toInt
  if i < -8 then (8, true) else if 7 < i then (7, true) else (wrapNat 4 i, false)

/-- SATW of a window is set. -/
def State.setSatw (s : State) (stack n : Nat) : State :=
  let w := NMap.get s.hub.fwin (fwinKey stack n) 0 ||| field 63 1
  { s with hub := { s.hub with fwin := NMap.set s.hub.fwin (fwinKey stack n) w } }

/-- A 64-byte sector of a view, written into its storage (R192). -/
def State.encodeSector (s : State) (n : Nat) (f : FWindow) (pa : Nat) (bs : List Byte) : State :=
  let v := stackOff pa - f.view
  let st := stackOf pa * 2 ^ 36 + f.store
  let at_ (i : Nat) : Byte := bs.getD i 0
  if f.mode = 1 then
    let out := (upTo 16).flatMap (fun g => leBytes 3 ((upTo 4).foldl
      (fun acc k => acc + (at_ (4 * g + k)).toNat % 64 * 64 ^ k) 0))
    { s with mem := ByteMap.writes s.mem (st + 3 * (v / 4)) out }
  else if f.mode = 2 then
    let es := (upTo 64).map (fun i => pack4 (at_ i))
    let out := (upTo 32).map (fun i => BitVec.ofNat 8 ((es.getD (2 * i) (0, false)).1 + 16 * (es.getD (2 * i + 1) (0, false)).1))
    let s := { s with mem := ByteMap.writes s.mem (st + v / 2) out }
    if es.any (·.2) then s.setSatw (stackOf pa) n else s
  else
    let scale := (ByteMap.read s.mem (st + f.packed + v / 64)).toNat
    let es := (upTo 32).map (fun i => bse4Encode ((at_ (2 * i)).toNat + 256 * (at_ (2 * i + 1)).toNat) scale)
    let out := es.map (fun e => BitVec.ofNat 8 e.1)
    let s := { s with mem := ByteMap.writes s.mem (st + v / 2) out }
    if es.any (·.2) then s.setSatw (stackOf pa) n else s

/-! ## Slices (R184, R185) -/

def Sector.empty : Sector := { bytes := [], have_ := 0, mask := 0, valid := false, dirty := false, filling := false }

def SliceLine.fresh (vf used : Nat) (ev : Bool) : SliceLine :=
  { vf := vf, ev := ev, used := used, sectors := Vector.replicate 4 Sector.empty }

/-- Sector k of a line. -/
def SliceLine.sector (l : SliceLine) (k : Nat) : Sector := (l.sectors[k]?).getD Sector.empty

def SliceLine.setSector (l : SliceLine) (k : Nat) (c : Sector) : SliceLine :=
  { l with sectors := l.sectors.setIfInBounds k c }

/-- A mask of the n bits from bit lo. -/
def bitRun (w lo n : Nat) : BitVec w := BitVec.ofNat w ((2 ^ n - 1) * 2 ^ lo)

/-- Store (R185): bytes at an offset of the sector. -/
def Sector.store (c : Sector) (off : Nat) (bs : List Byte) : Sector :=
  let n := bs.length
  let covers (w : Nat) : Bool := off ≤ 4 * w && 4 * w + 4 ≤ off + n
  let touches (w : Nat) : Bool := off < 4 * w + 4 && 4 * w < off + n
  let free (w : Nat) : Bool := !c.valid && !c.mask.getLsbD w
  let mask := (upTo 16).foldl (fun m w => if free w && covers w then m ||| bitRun 16 w 1 else m) c.mask
  let full := mask == BitVec.allOnes 16
  { bytes := ByteMap.writes c.bytes off bs, have_ := c.have_ ||| bitRun 64 off n, mask := if full then 0 else mask,
    valid := c.valid || full, dirty := true,
    filling := c.filling || (upTo 16).any (fun w => free w && touches w && !covers w) }

/-- The home slice of a device line (R187); the line's first byte is the address hashed. DESIGN CHOICE, entry 77. -/
def State.lineNode (s : State) (vf line : Nat) : Nat := s.homeNode vf (256 * line)

/-- The set of a line in its slice (R184). -/
def setIndex (line : Nat) : Nat := (line ^^^ line / 2 ^ 10) % 1024

/-- Whether two lines stand in one set of one slice. -/
def State.sameWay (s : State) (vf line vf' line' : Nat) : Bool :=
  setIndex line == setIndex line' && s.lineNode vf line == s.lineNode vf' line'

/-- The device lines that an activation or handler has made tentative (R38). -/
def Act.lines (a : Act) : List Nat := (a.tent.map (fun c => c.1 / 256)).eraseDups

def State.vfOfRun (s : State) (r : Nat) : Nat := ((s.run? r).map (·.vf)).getD 0

/-- The function whose masks and faults an atomic has: of its activation's run, or of its thread set. -/
def State.amoVf (s : State) (q : AmoReq) : Nat :=
  match q.act with
  | some a => s.vfOfRun a.run
  | none => s.vfOf q.thread

/-- An atomic that GANG code of a thread set issued before a place in issue order. -/
def AmoReq.before (q : AmoReq) (t : TsId) (order : Nat) : Bool := q.thread == t && q.act.isNone && q.order < order

def InMsg.amo? : InMsg → Option AmoReq
  | .atomic q => some q
  | .request .. => none

/-- Whether an atomic that GANG code of a thread set issued before a place in issue order has yet to be applied: it keeps its
place in program order (R342, R348; DEDUCED, entry 106). -/
def State.amoBefore (s : State) (t : TsId) (order : Nat) : Bool :=
  (s.thread t).amoq.any (fun q => q.before t order) ||
    s.cores.any (fun c => (c.2.inq.filterMap InMsg.amo?).any (fun q => q.before t order))

/-- Whether an atomic of a thread set has yet to be applied: its loads, stores and atomics wait. -/
def State.amoOpen (s : State) (t : TsId) : Bool := s.amoBefore t s.order

/-- The lines that hold a way of a line's set and are tentative or awaiting a fill (R184). -/
def State.fixedWays (s : State) (vf line : Nat) : List Nat :=
  ((s.acts.flatMap (fun a => a.2.lines.filter (fun l => s.sameWay vf line (s.vfOfRun a.1.run) l))) ++
    (s.lines.filter (fun l => l.2.sectors.toList.any (·.filling) && s.sameWay vf line l.2.vf l.1)).map (·.1)).eraseDups

/-- The other lines that hold a way of the set, which are the candidates for eviction. -/
def State.looseWays (s : State) (vf line : Nat) : List (Nat × SliceLine) :=
  let fixed := s.fixedWays vf line
  s.lines.filter (fun l => !fixed.contains l.1 && s.sameWay vf line l.2.vf l.1)

/-- The victim: lines under `.ev` first, then the least recently used. -/
def victim : List (Nat × SliceLine) → Option (Nat × SliceLine)
  | [] => none
  | x :: xs => match victim xs with
    | some y =>
      if x.2.ev && !y.2.ev then some x
      else if y.2.ev && !x.2.ev then some y
      else if y.2.used < x.2.used then some y else some x
    | none => some x

/-- A sector whose fill completes (R185): the bytes it lacks come from memory. -/
def State.filled (s : State) (pa : Nat) (c : Sector) : Sector :=
  let w := s.hub.viewOf pa
  let bytes := (upTo 64).foldl (fun m i => if c.have_.getLsbD i then m else ByteMap.write m i (s.decodeByte w (pa + i))) c.bytes
  { c with bytes := bytes, have_ := BitVec.allOnes 64, mask := 0, valid := true, filling := false }

/-- A sector written to memory outside a view: the bytes that a dirty one holds (R185). -/
def State.putSector (s : State) (pa : Nat) (c : Sector) : State :=
  if !c.dirty then s
  else
    let mem := (upTo 64).foldl (fun m i =>
      if c.have_.getLsbD i then ByteMap.write m (pa + i) (ByteMap.read c.bytes i) else m) s.mem
    { s with mem := mem }

/-- A line written to memory: the dirty sectors; or, in a view, the encoding of a dirty line, whose sectors that are not
VALID are filled first (R185, R192). -/
def State.putLine (s : State) (line : Nat) (l : SliceLine) : State :=
  match s.hub.viewOf (256 * line) with
  | none => (upTo 4).foldl (fun s k => s.putSector (256 * line + 64 * k) (l.sector k)) s
  | some (n, f) =>
    if l.sectors.toList.any (·.dirty) then
      (upTo 4).foldl (fun s k =>
        let pa := 256 * line + 64 * k
        s.encodeSector n f pa (ByteMap.reads (s.filled pa (l.sector k)).bytes 0 64)) s
    else s

/-- A line written back and dropped. -/
def State.writeBack (s : State) (line : Nat) : State :=
  match NMap.find? s.lines line with
  | none => s
  | some l => let s := s.putLine line l; { s with lines := NMap.erase s.lines line }

/-- Every line that satisfies a condition, written back and dropped. -/
def State.writeBackAll (s : State) (p : Nat → SliceLine → Bool) : State :=
  (s.lines.filter (fun l => p l.1 l.2)).foldl (fun s l => s.writeBack l.1) s

/-- The device lines of a physical range. -/
def rangeLines (r : Nat × Nat) : List Nat :=
  (upTo ((r.1 + r.2 - 1) / 256 + 1 - r.1 / 256)).map (fun i => r.1 / 256 + i)

/-- The lines that the engine holds exclusive for a block at MOVING (R234, R349). -/
def MovingBlock.lines (b : MovingBlock) : List Nat := b.units.flatMap (fun u => (u.src ++ u.dst).flatMap rangeLines)

/-- Whether a relayout engine holds a line: requests that reach its home wait (R349). -/
def State.lineHeld (s : State) (line : Nat) : Bool :=
  s.clusters.any (fun c => c.2.relayouts.any (fun r => r.moving.any (fun b => b.lines.contains line)))

/-- A way for a device line: none when every way of its set is tentative or awaiting a fill (R184). -/
def State.room (s : State) (vf pa : Nat) : Option State :=
  let line := pa / 256
  if (NMap.find? s.lines line).isSome then some s
  else
    let fixed := s.fixedWays vf line
    if fixed.contains line || fixed.length + (s.looseWays vf line).length < 16 then some s
    else (victim (s.looseWays vf line)).map (fun l => s.writeBack l.1)

/-- Whether a sector serves a load of n bytes from an offset on without a fill (R185). -/
def Sector.serves (c : Sector) (off n : Nat) : Bool :=
  c.valid || (upTo 16).all (fun w => c.mask.getLsbD w || off + n ≤ 4 * w || 4 * w + 4 ≤ off)

/-- A line that a load of n bytes from an offset on reads at its home: the sectors that it touches are filled as they need
(R185), and the line is used. -/
def State.loadedLine (s : State) (line off n : Nat) (ev : Bool) (l : SliceLine) : SliceLine :=
  (upTo 4).foldl (fun l k =>
    let lo := max off (64 * k)
    let hi := min (off + n) (64 * k + 64)
    if lo < hi && !(l.sector k).serves (lo - 64 * k) (hi - lo) then
      l.setSector k (s.filled (256 * line + 64 * k) (l.sector k))
    else l) { l with used := s.fclk, ev := l.ev || ev }

/-- The line of a load of n bytes, all in it, has a way and holds them: none when its set has no candidate (R184, R185). -/
def State.pull (s : State) (vf pa n : Nat) (ev : Bool) : Option State :=
  (s.room vf pa).map (fun s =>
    let line := pa / 256
    let l := (NMap.find? s.lines line).getD (SliceLine.fresh vf s.fclk ev)
    { s with lines := NMap.set s.lines line (s.loadedLine line (pa % 256) n ev l) })

/-! ## Poison (R206, R388) -/

/-- Whether an access of n bytes meets a poisoned sector. -/
def State.poisonAt (s : State) (pa n : Nat) : Bool :=
  (upTo ((pa + n - 1) / 64 + 1 - pa / 64)).any (fun i => NMap.get s.poison (pa / 64 + i) 0 != 0)

/-- The bytes of a unit that have not been written since it was poisoned, after a write of n bytes from an address on. -/
def unwrittenBytes (unit at_ n w m : Nat) : Nat :=
  (upTo unit).foldl (fun m i => if at_ ≤ unit * w + i && unit * w + i < at_ + n && m.testBit i then m - 2 ^ i else m) m

/-- The poisoned units of a store after a write: poison leaves a unit when it has been written whole (R388). -/
def liftPoison (unit at_ n : Nat) (l : NMap Nat) : NMap Nat :=
  l.filterMap (fun e =>
    let m := unwrittenBytes unit at_ n e.1 e.2
    if m = 0 then none else some (e.1, m))

/-- A sector is poisoned until all its 64 bytes have been written (R206, R388). -/
def State.poisonSector (s : State) (pa : Nat) : State := { s with poison := NMap.set s.poison (pa / 64) (2 ^ 64 - 1) }

/-- A store of n bytes is performed: what it writes of poisoned sectors counts. -/
def State.unpoison (s : State) (pa n : Nat) : State := { s with poison := liftPoison 64 pa n s.poison }

/-- The poisoned sectors of a line, as a copy of it takes them along (R388). -/
def State.badSectors (s : State) (line : Nat) : BitVec 4 :=
  BitVec.ofNat 4 ((upTo 4).foldl (fun m k => if NMap.get s.poison (4 * line + k) 0 = 0 then m else m + 2 ^ k) 0)

/-- Bytes written into a core's scratch. -/
def CoreUnit.write (u : CoreUnit) (off : Nat) (bs : List Byte) : CoreUnit :=
  { u with scratch := ByteMap.writes u.scratch off bs, poison := liftPoison 8 off bs.length u.poison }

/-! ## Reading and writing device memory -/

/-- The committed byte at a device address: the last one stored (R186). -/
def State.byteAt (s : State) (pa : Nat) : Byte :=
  match NMap.find? s.lines (pa / 256) with
  | some l =>
    let c := l.sector (pa / 64 % 4)
    if c.have_.getLsbD (pa % 64) then ByteMap.read c.bytes (pa % 64) else s.dramByte pa
  | none => s.dramByte pa

def State.bytesAt (s : State) (pa n : Nat) : List Byte := (upTo n).map (fun i => s.byteAt (pa + i))

/-- A line takes a write time beyond every time and lease given out (R346). -/
def State.stamp (s : State) (line : Nat) : State :=
  { s with wmax := s.wmax + 1, wtimes := NMap.set s.wtimes line (s.wmax + 1) }

/-- A store of bytes inside one sector whose line has a way (R185). -/
def State.storeSector (s : State) (vf pa : Nat) (bs : List Byte) (ev : Bool) : State :=
  let line := pa / 256
  let k := pa / 64 % 4
  let l := (NMap.find? s.lines line).getD (SliceLine.fresh vf s.fclk ev)
  let c := (l.sector k).store (pa % 64) bs
  let s := { s with lines := NMap.set s.lines line { l.setSector k c with used := s.fclk, ev := l.ev || ev } }
  let s := if c.filling && !(l.sector k).filling then s.postOnce (.sectorFillComplete (pa / 64 * 64)) else s
  (s.unpoison pa bs.length).stamp line

/-- The pieces of a byte string that lie in one sector each; at most `fuel` of them. -/
def sectorPieces : Nat → Nat → List Byte → List (Nat × List Byte)
  | 0, _, _ => []
  | fuel + 1, pa, bs =>
    if bs.isEmpty then []
    else
      let n := 64 - pa % 64
      (pa, bs.take n) :: sectorPieces fuel (pa + n) (bs.drop n)

def piecesOf (pa : Nat) (bs : List Byte) : List (Nat × List Byte) := sectorPieces (bs.length / 64 + 2) pa bs

/-- A direct store of bytes; none when a line finds no way. -/
def State.storeDevice (s : State) (vf pa : Nat) (bs : List Byte) (ev : Bool) : Option State :=
  (piecesOf pa bs).foldl (fun o p => o.bind (fun s => (s.room vf p.1).map (fun s => s.storeSector vf p.1 p.2 ev))) (some s)

/-- A direct store inside one sector that waits for no way: where its set has none, the line passes through to memory
(R366; DEDUCED, entry 105). -/
def State.storePiece (s : State) (vf pa : Nat) (bs : List Byte) : State :=
  match s.room vf pa with
  | some s => s.storeSector vf pa bs false
  | none => (s.storeSector vf pa bs false).writeBack (pa / 256)

/-- A direct store of bytes that waits for no way. -/
def State.storeNow (s : State) (vf pa : Nat) (bs : List Byte) : State :=
  (piecesOf pa bs).foldl (fun s p => s.storePiece vf p.1 p.2) s

/-- The state in which n bytes of a line are read without a wait: the line takes a way if there is one. -/
def State.pullNow (s : State) (vf pa n : Nat) : State := (s.pull vf pa n false).getD s

/-- Rising cells as runs of consecutive addresses. -/
def cellRuns : List Host.Cell → List (Nat × List Byte)
  | [] => []
  | (a, b) :: rest =>
    match cellRuns rest with
    | (a', bs) :: more => if a' = a + 1 then (a, b :: bs) :: more else (a, [b]) :: (a', bs) :: more
    | [] => [(a, [b])]

/-- The bytes of a commit, which have their ways already (R343): each run of bytes in a sector is one store of it; `ev` are
the lines stored under `.ev`. -/
def State.storeTentative (s : State) (vf : Nat) (cells : List Host.Cell) (ev : List Nat) : State :=
  ((cellRuns cells).flatMap (fun r => piecesOf r.1 r.2)).foldl (fun s p =>
    s.storeSector vf p.1 p.2 (ev.contains (p.1 / 256))) s

/-! ## Physical addresses (R178, R398) -/

/-- Where a physical address leads. -/
inductive Place where
  | dram | host | peer
  deriving DecidableEq, Repr

/-- Why a physical access fails. -/
inductive PhysErr where
  | access | homeDown | poison
  deriving DecidableEq, Repr

def Hub.feature (h : Hub) (i : Nat) : Bool := (h.active[0]).getLsbD i

/-- A device address that no live stack serves, or that lies in a unit withheld by step 7 of start-up (R178, R405;
entry 93). -/
def Hub.noDram (h : Hub) (pa : Nat) : Bool := !h.stackLive (stackOf pa) || h.withheld.contains (pa / 2 ^ 21)

/-- Where a physical address leads. The control regions, which only firmware cores reach, are told apart before (R398). -/
def State.place (s : State) (pa : Nat) : Except PhysErr Place :=
  let top := pa / 2 ^ 48
  if pa < 2 ^ 39 then
    if s.hub.noDram pa || s.hub.inStorage pa then .error .access else .ok .dram
  else if 8 ≤ top then (if s.hub.feature 5 then .ok .host else .error .access)
  else if top = 4 then
    (if s.hub.feature 4 && pa / 2 ^ 44 % 16 < 12 && s.hub.stateOf ⟨kindPort, pa / 2 ^ 44 % 16⟩ < 2 then .ok .peer
     else .error .access)
  else .error .access

def hostAddr (pa : Nat) : Nat := pa % 2 ^ 51
def peerAddr (pa : Nat) : Nat := pa % 2 ^ 48

/-- The committed bytes at a place. -/
def State.placeBytes (s : State) (p : Place) (pa n : Nat) : List Byte :=
  match p with
  | .dram => s.bytesAt pa n
  | .host => ByteMap.reads s.hub.hostMem (hostAddr pa) n
  | .peer => ByteMap.reads s.hub.peerMem (peerAddr pa) n

/-- A direct store at a place; none when it must wait for a way. -/
def State.storePlace (s : State) (p : Place) (vf pa : Nat) (bs : List Byte) (ev : Bool) : Option State :=
  match p with
  | .dram => s.storeDevice vf pa bs ev
  | .host => some (State.stamp { s with hub := { s.hub with hostMem := ByteMap.writes s.hub.hostMem (hostAddr pa) bs } } (pa / 256))
  | .peer => some (State.stamp { s with hub := { s.hub with peerMem := ByteMap.writes s.hub.peerMem (peerAddr pa) bs } } (pa / 256))

/-- The state in which a load of n bytes at a place reads its home, and none when it must wait for a way. A line of the host or
of a peer takes none (DEDUCED, entry 99). -/
def State.pullPlace (s : State) (p : Place) (vf pa n : Nat) (ev : Bool) : Option State :=
  match p with
  | .dram => s.pull vf pa n ev
  | .host | .peer => some s

/-- A direct store at a place that waits for no way. -/
def State.storePlaceNow (s : State) (p : Place) (vf pa : Nat) (bs : List Byte) : State :=
  match p with
  | .dram => s.storeNow vf pa bs
  | .host | .peer => (s.storePlace p vf pa bs false).getD s

/-- A read of bytes of one line by a physical address. -/
def State.physRead (s : State) (vf pa n : Nat) : Except PhysErr (List Byte) :=
  match s.place pa with
  | .error e => .error e
  | .ok p =>
    if p = .dram ∧ s.homeDown vf pa then .error .homeDown
    else if p = .dram ∧ s.poisonAt pa n then .error .poison
    else .ok (s.placeBytes p pa n)

/-- A store of bytes of one line by a physical address; `ok none` when it must wait. -/
def State.physWrite (s : State) (vf pa : Nat) (bs : List Byte) : Except PhysErr (Option State) :=
  match s.place pa with
  | .error e => .error e
  | .ok p =>
    if p = .dram ∧ s.homeDown vf pa then .error .homeDown
    else .ok (s.storePlace p vf pa bs false)

end Sys2Proof.Machine
end

