-- ==== Sys2Proof/Machine/Region.lean ====
section
/-! DEFINITION. The control regions of the functions (R397 to R401, R406, R407): queues and their doorbells, the tables in
firmware SRAM, the inventory, and how the host and the firmware cores read and write them. -/
namespace Sys2Proof.Machine

def zeros (n : Nat) : List Byte := List.replicate n 0

/-- A byte string brought to a length with zeros. -/
def padTo (n : Nat) (bs : List Byte) : List Byte := bs.take n ++ zeros (n - bs.length)

/-! ## Queue control blocks (R321) -/

/-- Bits [hi:lo] of a number of any width. -/
def natBits (v hi lo : Nat) : Nat := (v >>> lo) % 2 ^ (hi + 1 - lo)

abbrev Qcb := BitVec 512

def Qcb.gen (b : Qcb) : Nat := natBits b.toNat 63 0
def Qcb.ring (b : Qcb) : Nat := natBits b.toNat 127 64
def Qcb.slots (b : Qcb) : Nat := natBits b.toNat 144 128
def Qcb.en (b : Qcb) : Bool := b.toNat.testBit 145
def Qcb.priocap (b : Qcb) : Nat := natBits b.toNat 152 146
def Qcb.cring (b : Qcb) : Nat := natBits b.toNat 255 192
def Qcb.cslots (b : Qcb) : Nat := natBits b.toNat 272 256
def Qcb.cnt (b : Qcb) : Nat := natBits b.toNat 383 320

/-- A block that is not treated as disabled (R321). -/
def Qcb.enabled (b : Qcb) : Bool :=
  Qcb.en b && natBits b.toNat 191 153 == 0 && natBits b.toNat 319 273 == 0 && natBits b.toNat 447 384 == 0 &&
    Qcb.slots b != 0 && Qcb.cslots b != 0 && Qcb.ring b % 256 == 0 && Qcb.cring b % 64 == 0 && Qcb.cnt b % 8 == 0

/-! ## The tables in a firmware core's SRAM (R399) -/

def sramImages : Nat := 0xFB000
def sramQcbs : Nat := 0xFC000
def sramShadow : Nat := 0xFD000
def sramFaults : Nat := 0xFE000

def State.sramReads (s : State) (vf a n : Nat) : List Byte := ByteMap.reads (s.fn vf).sram a n

def State.sramWrites (s : State) (vf a : Nat) (bs : List Byte) : State :=
  s.updFn vf (fun f => { f with sram := ByteMap.writes f.sram a bs })

/-! ## Queues -/

def State.queue (s : State) (vf q : Nat) : Queue := NMap.get (s.fn vf).queues q Queue.zero

def State.updQueue (s : State) (vf q : Nat) (f : Queue → Queue) : State :=
  s.updFn vf (fun n => { n with queues := NMap.set n.queues q (f (NMap.get n.queues q Queue.zero)) })

/-- A queue that accepts submissions (R321, R401, R413). -/
def Queue.enabled (q : Queue) : Bool := Qcb.enabled q.qcb && !q.disabled

/-- A run whose record still holds its ring slot: it has not been released and has not completed (assumption 29). -/
def Run.inRing (x : Run) : Bool :=
  match x.phase with
  | .queued | .eligible | .placed => true
  | _ => false

/-- Free ring slots of a queue, its reserved entries left out (R134, R322). -/
def State.queueRoom (s : State) (vf q : Nat) : Nat :=
  let k := s.queue vf q
  if k.enabled then
    Qcb.slots k.qcb - (k.runs.filter (fun r => (s.run? r).any Run.inRing)).length - k.reserved
  else 0

/-! ## Doorbells (R322) -/

def State.dropDoorbell (s : State) (vf q : Nat) : State := s.updQueue vf q (fun k => { k with drop := true })

/-- A write of a queue's doorbell (R322). -/
def State.doorbell (s : State) (vf q : Nat) (addr : Word) : State :=
  if addr.toNat % 256 ≠ 0 ∨ s.queueRoom vf q = 0 then s.dropDoorbell vf q
  else
    let sub : Submission := { vf := vf, queue := q, addr := addr, reserved := true, bytes := none, thread := none, waiting := none,
                              refused := none }
    ({ s with submissions := s.submissions ++ [sub] }.updQueue vf q (fun k => { k with reserved := k.reserved + 1 })).postOnce
      .queueAppend

/-- Whether the host sees a function (R397, R406). -/
def State.presented (s : State) (vf : Nat) : Bool := vf == 0 || (vf ≤ 16 && s.hub.feature 6)

/-- The value of a read of a doorbell (R322). -/
def State.qdb (s : State) (vf q : Nat) : Word :=
  let k := s.queue vf q
  field 0 (s.queueRoom vf q) ||| field 17 k.enabled.toNat ||| field 18 k.drop.toNat

/-! ## Features (R406) -/

/-- A write of ACCEPTn (R406): taken only while no run of any function is released or queued. -/
def State.acceptWrite (s : State) (n : BitVec 2) (w : Word) : State :=
  if s.runs.any (fun x => x.2.phase != .complete) || !s.submissions.isEmpty then s
  else
    let h := s.hub
    let accept := h.accept.set n.toNat w n.isLt
    { s with hub := { h with accept := accept,
                             active := h.active.set n.toNat ((h.feat[n.toNat]'n.isLt) &&& w) n.isLt } }

/-! ## The inventory (R407, R408) -/

/-- The physical units of each kind. -/
def unitCounts : List Nat := [256, 4096, 256, 256, 8, 256, 2, 12]

/-- The grid node of a unit of a cluster's position. -/
def unitNode (u : UnitId) : Option Nat :=
  if u.kind = kindCluster ∨ u.kind = kindSlice ∨ u.kind = kindArray then some u.phys
  else if u.kind = kindCore then some (u.phys / 16) else none

/-- The die boundaries in the order of R1, each by its two dies. -/
def boundaries : List (Nat × Nat) := [(0, 1), (0, 2), (1, 3), (2, 3)]

/-- The router of the first die of its boundary that a boundary module serves: modules 64b to 64b + 63 are those of boundary b,
eight for each pair of facing routers, the pairs from north to south or from west to east (R1, R200). The manual numbers no
module (DESIGN CHOICE, entry 94). -/
def moduleNode (m : Nat) : Nat :=
  let pair := m % 64 / 8
  match m / 64 with
  | 0 => 16 * pair + 7
  | 1 => 16 * 7 + pair
  | 2 => 16 * 7 + 8 + pair
  | _ => 16 * (8 + pair) + 7

/-- The node at which hub link k enters the grid: (7,0) from CD0, (8,0) from CD1 (R193). -/
def hubLinkNode (k : Nat) : Nat := 7 + k

/-- The node that gives a unit its X, Y and DIE in the inventory; stacks and ports stand at none (R407; entry 94). -/
def gridNode (u : UnitId) : Option Nat :=
  if u.kind = kindModule then some (moduleNode u.phys)
  else if u.kind = kindHubLink then some (hubLinkNode u.phys)
  else unitNode u

/-- DIE of an entry: a port, on the hub die, reads 0 (entry 94). -/
def unitDie (u : UnitId) : Nat :=
  match gridNode u with
  | some n => nodeDie n
  | none => if u.kind = kindStack then u.phys / 2 else 0

/-- STATE of an entry: a core or an array of a cluster that is off is off. -/
def Hub.entryState (h : Hub) (u : UnitId) : Nat :=
  match unitNode u with
  | some n => if (u.kind = kindCore ∨ u.kind = kindArray) ∧ h.off ⟨kindCluster, n⟩ then 3 else h.stateOf u
  | none => h.stateOf u

/-- LOGICAL of an entry (R408): dense over what the fuses and the field-disable record leave on. -/
def Hub.entryLogical (h : Hub) (u : UnitId) : Nat :=
  if h.off u then 0xFFFF
  else match unitNode u with
  | some n =>
    if u.kind = kindSlice then h.logical kindSlice n
    else if h.off ⟨kindCluster, n⟩ then 0xFFFF
    else if u.kind = kindCore then u.phys % 16
    else h.logical kindCluster n
  | none => ((upTo u.phys).filter (fun p => !h.off ⟨u.kind, p⟩)).length

/-- AUX, of 8 bits: buckets mapped to a slice (under home window 0), 4y + x of a core, live lanes of a port. -/
def Hub.entryAux (h : Hub) (u : UnitId) : Nat :=
  if u.kind = kindSlice then ((upTo 1024).filter (fun b => h.sliceNode (h.bktEntry 0 b) == u.phys)).length % 256
  else if u.kind = kindCore then u.phys % 16
  else if u.kind = kindPort && h.stateOf u < 2 then 8 else 0

/-- An entry; `cerr` says whether its count is shown. -/
def Hub.entryBytes (h : Hub) (cerr : Bool) (u : UnitId) : List Byte :=
  let (x, y) : Nat × Nat := match gridNode u with
    | some n => (n % 16, n / 16)
    | none => (0, 0)
  leBytes 16 (u.kind + 2 ^ 4 * unitDie u + 2 ^ 6 * h.entryState u + 2 ^ 8 * u.phys + 2 ^ 24 * h.entryLogical u + 2 ^ 40 * x + 2 ^ 48 * y +
    2 ^ 56 * h.entryAux u + 2 ^ 64 * (if cerr then (h.unit u).cerr.toNat else 0))

/-- Live units of a kind, on a die or anywhere. -/
def Hub.liveCount (h : Hub) (kind : Nat) (d : Option Nat) : Nat :=
  ((upTo (unitCounts.getD kind 0)).filter (fun p => !h.off ⟨kind, p⟩ && (d.isNone || d == some (unitDie ⟨kind, p⟩)))).length

/-- GRADEOK: the counts of the grade are met (R5). -/
def Hub.gradeOk (h : Hub) : Bool :=
  let (c, perDie, sl, st) : Nat × Nat × Nat × Nat := match h.nv.grade with
    | 0 => (256, 64, 256, 8)
    | 1 => (240, 58, 256, 8)
    | _ => (224, 54, 240, 6)
  c ≤ h.liveCount kindCluster none && (upTo 4).all (fun d => perDie ≤ h.liveCount kindCluster (some d)) &&
    sl ≤ h.liveCount kindSlice none && st ≤ h.liveCount kindStack none

/-- The inventory: the header, then the entries by kind and physical number. -/
def Hub.inventory (h : Hub) (cerr : Bool) : List Byte :=
  padTo 64 (leBytes 8 (0x564E494D + 2 ^ 32 + 2 ^ 40 * h.nv.grade + 2 ^ 48 * h.gradeOk.toNat + 2 ^ 56 * h.degraded.toNat) ++
    unitCounts.flatMap (leBytes 2)) ++
  (upTo 8).flatMap (fun k => (upTo (unitCounts.getD k 0)).flatMap (fun p => h.entryBytes cerr ⟨k, p⟩))

/-! ## Reads and writes of a control region (R397 to R399) -/

/-- The bytes of a function's control region (R397). -/
def regionSize (vf : Nat) : Nat := if vf = 0 then 0x20000 else 0x10000

/-- The control region and the offset behind a physical address with PA[51:48] = 0x2: function n's region at n × 128 KiB. The
manual places the regions nowhere in that window (DESIGN CHOICE, entry 95). -/
def regionOf (pa : Nat) : Option (Nat × Nat) :=
  let o := pa % 2 ^ 48
  let (vf, off) := (o / 0x20000, o % 0x20000)
  if pa / 2 ^ 48 = 2 ∧ vf ≤ 16 ∧ off < regionSize vf then some (vf, off) else none

/-- A byte of a control region; none where the manual gives a read no value: the gaps, and ACCEPT, which is written only. -/
def State.regionByte (s : State) (vf off : Nat) : Option Byte :=
  let ofWord (w : Word) : Byte := (w >>> (8 * (off % 8))).setWidth 8
  if off < 0x200 then some (ofWord (s.qdb vf (off / 8)))
  else if off / 0x1000 = 1 then some (ByteMap.read (s.fn vf).sram (sramQcbs + off % 0x1000))
  else if off / 0x1000 = 3 then some (ByteMap.read (s.fn vf).sram (sramImages + off % 0x1000))
  else if vf ≠ 0 then none
  else if 0x2000 ≤ off ∧ off < 0x2020 then some (ofWord (s.hub.feat.toList.getD (off / 8 % 4) 0))
  else if 0x2040 ≤ off ∧ off < 0x2060 then some (ofWord (s.hub.active.toList.getD (off / 8 % 4) 0))
  else if 0x4000 ≤ off then some ((s.hub.inventory true).getD (off - 0x4000) 0)
  else none

/-- A read of n bytes of a control region: bytes without a value are free, and a doorbell that is read clears its DROP
(R322). -/
def State.regionRead (s : State) (vf off n : Nat) : State × List Byte :=
  let free := Config.freeWord s.freeIdx
  let bs := (upTo n).map (fun i => (s.regionByte vf (off + i)).getD ((free >>> (8 * (i % 8))).setWidth 8))
  let s := if (upTo n).all (fun i => (s.regionByte vf (off + i)).isSome) then s else { s with freeIdx := s.freeIdx + 1 }
  (((upTo n).map (fun i => (off + i) / 8)).eraseDups.foldl (fun s q =>
    if q < 64 then s.updQueue vf q (fun k => { k with drop := false }) else s) s, bs)

/-- A write inside one 8-byte unit of a control region: a whole doorbell or ACCEPT register, or bytes of a table. One to a
read-only offset is discarded (R399), and so is a part of a register (entry 95). -/
def State.regionPut (s : State) (vf off : Nat) (bs : List Byte) : State :=
  let whole := bs.length == 8
  let w : Word := BitVec.ofNat 64 (leNat bs)
  if off / 0x1000 = 1 then s.sramWrites vf (sramQcbs + off % 0x1000) bs
  else if off / 0x1000 = 3 then s.sramWrites vf (sramImages + off % 0x1000) bs
  else if off < 0x200 ∧ whole then s.doorbell vf (off / 8) w
  else if vf = 0 ∧ 0x2020 ≤ off ∧ off < 0x2040 ∧ whole then s.acceptWrite (BitVec.ofNat 2 (off / 8)) w
  else s

/-- The bytes of a write cut at the ends of 8-byte units. -/
def units8 : Nat → Nat → List Byte → List (Nat × List Byte)
  | 0, _, _ => []
  | _, _, [] => []
  | fuel + 1, off, b :: bs =>
    let n := 8 - off % 8
    (off, (b :: bs).take n) :: units8 fuel (off + n) ((b :: bs).drop n)

/-- A write of bytes of a control region, in the order of their addresses. -/
def State.regionWrite (s : State) (vf off : Nat) (bs : List Byte) : State :=
  (units8 bs.length off bs).foldl (fun s p => s.regionPut vf p.1 p.2) s

end Sys2Proof.Machine
end

