-- ==== Sys2Proof/Machine/Translate.lean ====
section
/-! DEFINITION. Translation (R372 to R374), faults and the fault queue (R375, R376). -/
namespace Sys2Proof.Machine

/-! ## Table walks (R372) -/

/-- The permission an access needs. -/
inductive Need where
  | r | w | x | rw
  deriving DecidableEq, Repr

def TlbEntry.permits (e : TlbEntry) : Need → Bool
  | .r => e.r
  | .w => e.w
  | .x => e.x
  | .rw => e.r && e.w

/-- The physical address of a virtual address in the entry's page. -/
def TlbEntry.phys (e : TlbEntry) (va : Nat) : Nat := e.pa + va % 2 ^ e.bits

def TlbEntry.covers (e : TlbEntry) (vf va : Nat) : Bool := e.vf == vf && va / 2 ^ e.bits == e.va / 2 ^ e.bits

/-- What a walk meets. -/
inductive Walk where
  | present (e : TlbEntry)
  | absent
  | failed (e : PhysErr)
  | busy
  deriving DecidableEq, Repr

/-- A walk from the table at a physical base; `levels` are the low index bits of the levels that remain. Its reads take no way
in a slice (DEDUCED, entry 99), and wait for a line that a relayout engine holds (R349). -/
def State.walkFrom (s : State) (vf va : Nat) : List Nat → Nat → Walk
  | [], _ => .absent
  | lo :: rest, base =>
    let at_ := base + 8 * (va / 2 ^ lo % 2048)
    if at_ < 2 ^ 39 && s.lineHeld (at_ / 256) then .busy
    else match s.physRead vf at_ 8 with
    | .error e => .failed e
    | .ok bs =>
      let w := BitVec.ofNat 64 (leNat bs)
      let addr := Word.bits w 51 14 * 2 ^ 14
      let leaf := Word.bit w 1
      let perms := Word.bits w 4 2
      if !Word.bit w 0 || Word.bits w 13 5 != 0 || Word.bits w 63 52 != 0 then .absent
      else if leaf then
        (if addr % 2 ^ lo != 0 then .absent
         else .present ⟨vf, va / 2 ^ lo * 2 ^ lo, lo, addr, Word.bit w 2, Word.bit w 3, Word.bit w 4⟩)
      else if perms != 0 then .absent
      else s.walkFrom vf va rest addr

/-- A walk of a function's tables; while EN = 0 every access faults (R373). -/
def State.walk (s : State) (vf va : Nat) : Walk :=
  let root := (s.fn vf).ptroot
  if !Word.bit root 0 then .absent else s.walkFrom vf va [38, 27, 16] (Word.bits root 51 14 * 2 ^ 14)

/-! ## Translation caches (R374) -/

def tlbFind (vf va : Nat) (t : List TlbEntry) : Option TlbEntry := t.find? (fun e => e.covers vf va)

/-- An entry added to a cache of n entries; the oldest leaves a full one (assumption 11). -/
def tlbAdd (n : Nat) (e : TlbEntry) (t : List TlbEntry) : List TlbEntry :=
  (if n ≤ t.length then t.drop (t.length + 1 - n) else t) ++ [e]

/-- The first-level cache that serves an access. -/
inductive Pipe where
  | core (cluster core : Nat)
  | copy (cluster : Nat)
  | fill (cluster : Nat)
  | drain (cluster : Nat)
  | relay (cluster : Nat)
  | none
  deriving DecidableEq, Repr

def Pipe.cluster : Pipe → Nat
  | .core c _ | .copy c | .fill c | .drain c | .relay c => c
  | .none => fwNode

def State.pipeTlb (s : State) : Pipe → List TlbEntry
  | .core c k => (s.core c k).tlb
  | .copy c => (s.cluster c).copyTlb
  | .fill c => (s.cluster c).fillTlb
  | .drain c => (s.cluster c).drainTlb
  | .relay c => (s.cluster c).relayTlb
  | .none => []

/-- An entry put into a first-level cache. -/
def State.addTlb (s : State) (p : Pipe) (e : TlbEntry) : State :=
  match p with
  | .core c k => s.updCore c k (fun u => { u with tlb := tlbAdd 192 e u.tlb })
  | .copy c => s.updCluster c (fun u => { u with copyTlb := tlbAdd 192 e u.copyTlb })
  | .fill c => s.updCluster c (fun u => { u with fillTlb := tlbAdd 192 e u.fillTlb })
  | .drain c => s.updCluster c (fun u => { u with drainTlb := tlbAdd 192 e u.drainTlb })
  | .relay c => s.updCluster c (fun u => { u with relayTlb := tlbAdd 64 e u.relayTlb })
  | .none => s

/-- The set of the second level that holds an entry: its page number, modulo the 1,024 sets (R374; assumption 11). -/
def TlbEntry.setIx (e : TlbEntry) : Nat := e.va / 2 ^ e.bits % 1024

/-- An entry put into the second level: the oldest of its set leaves when all 8 ways are taken. -/
def State.addL2 (s : State) (c : Nat) (e : TlbEntry) : State :=
  s.updCluster c (fun u =>
    let others := u.l2tlb.filter (fun q => q.setIx != e.setIx)
    { u with l2tlb := others ++ tlbAdd 8 e (u.l2tlb.filter (fun q => q.setIx == e.setIx)) })

/-- The entry of the miss file for a page. -/
def State.missOf (s : State) (c vf page : Nat) : Option Miss :=
  (s.cluster c).misses.find? (fun m => m.vf == vf && m.page == page)

/-- What a translation meets: a page; a fault to be raised or joined; an error reply to the walk; a table entry that it must
wait for. -/
inductive Trans where
  | page (e : TlbEntry)
  | missing
  | failed (e : PhysErr)
  | busy
  deriving DecidableEq, Repr

/-- Whether a cluster's miss file takes no new page (R374). The front end has no miss file. -/
def State.missesFull (s : State) (c : Nat) : Bool := c != fwNode && 64 ≤ (s.cluster c).misses.length

/-- Translation of a virtual address for an access (R374): the first-level cache, the second level, a walk. A page whose
fault is unanswered, and a new page while the miss file is full, stay missing whatever the tables say. -/
def State.translate (s : State) (p : Pipe) (vf va : Nat) : State × Trans :=
  match tlbFind vf va (s.pipeTlb p) with
  | some e => (s, .page e)
  | none =>
    match (if p = .none then none else tlbFind vf va (s.cluster p.cluster).l2tlb) with
    | some e => (s.addTlb p e, .page e)
    | none =>
      if (s.missOf p.cluster vf (va / 2 ^ 16)).isSome || s.missesFull p.cluster then (s, .missing)
      else match s.walk vf va with
      | .present e => (if p = .none then s else (s.addL2 p.cluster e).addTlb p e, .page e)
      | .absent => (s, .missing)
      | .failed e => (s, .failed e)
      | .busy => (s, .busy)

/-- The size of the page under which the issuing core has just translated an address (R125). -/
def State.pageBits (s : State) (va : Word) : Nat :=
  ((tlbFind (s.vfOf s.cur) va.toNat (s.pipeTlb (.core s.cur.cluster s.cur.core))).map (·.bits)).getD 0

/-! ## Faults (R375, R376) -/

/-- KIND of R376. -/
inductive FaultKind where
  | fetch | load | store | atomic | copyRead | copyWrite | fill | drain | relayRead | relayWrite | mcrd | save
  deriving DecidableEq, Repr

/-- The permission that an access of a KIND needs (R372). -/
def FaultKind.need : FaultKind → Need
  | .fetch => .x
  | .load | .copyRead | .fill | .relayRead | .mcrd | .save => .r
  | .store | .copyWrite | .drain | .relayWrite => .w
  | .atomic => .rw

def FaultKind.code : FaultKind → Nat
  | .fetch => 0 | .load => 1 | .store => 2 | .atomic => 3 | .copyRead => 4 | .copyWrite => 5 | .fill => 6 | .drain => 7
  | .relayRead => 8 | .relayWrite => 9 | .mcrd => 10 | .save => 11

def Agent.code : Agent → Nat
  | .thread t => t.set
  | .copyPipe .. => 5
  | .fillPipe _ => 6
  | .drainPipe _ => 7
  | .relayout _ => 8
  | .frontEnd .. => 9

def Agent.core : Agent → Nat
  | .thread t => t.core
  | _ => 0

/-- A fault-queue entry (R376), as 32 bytes. -/
def faultEntry (va : Word) (cause kind agent cluster core rank : Nat) (runid : Word) (fid tag : Nat) : List Byte :=
  leBytes 32 (va.toNat + 2 ^ 64 * cause + 2 ^ 72 * kind + 2 ^ 76 * agent + 2 ^ 80 * (cluster % 2 ^ 16) + 2 ^ 96 * core +
    2 ^ 100 * (rank % 2 ^ 28) + 2 ^ 128 * runid.toNat + 2 ^ 192 * fid + 2 ^ 224 * tag)

/-- The device holds an entry for a function's fault queue (R375). -/
def State.queueFault (s : State) (vf : Nat) (entry : List Byte) : State :=
  (s.updFn vf (fun f => { f with faults := f.faults ++ [entry] })).postOnce (.faultQueueWrite vf)

/-- The run for which an agent of a cluster works. -/
def State.agentRun (s : State) (c : Nat) (a : Agent) : Option Run :=
  match a with
  | .thread t => (s.thread t).run.bind s.run?
  | .frontEnd r _ => s.run? r
  | _ => (s.cluster c).run.bind s.run?

/-- CLUSTER of a fault entry: the front end stands in no cluster, and the manual gives it no number (assumption 1). -/
def State.faultCluster (s : State) (c : Nat) : Nat :=
  if c = fwNode then (Config.freeWord s.freeIdx).toNat else s.hub.logical kindCluster c

/-- A new fault: its entry in the queue, with a fresh FID. -/
def State.raiseFault (s : State) (c vf : Nat) (va : Word) (kind : FaultKind) (a : Agent) : State × Nat :=
  let fid := (s.fn vf).nextFid
  let runid := ((s.agentRun c a).map Run.id).getD 0
  let e := faultEntry va causePageFault kind.code a.code (s.faultCluster c) a.core 0 runid fid.toNat 0
  let s := { s with freeIdx := s.freeIdx + (if c = fwNode then 1 else 0) }
  ((s.updFn vf (fun f => { f with nextFid := f.nextFid + 1 })).queueFault vf e, fid.toNat)

/-- An agent joins the miss of a page, raising its fault if it is the first; none when the miss file is full. -/
def State.joinMiss (s : State) (c vf : Nat) (va : Word) (kind : FaultKind) (a : Agent) : Option State :=
  let page := va.toNat / 2 ^ 16
  match s.missOf c vf page with
  | some _ =>
    some (s.updCluster c (fun u => { u with misses := u.misses.map (fun m =>
      if m.vf == vf && m.page == page && !m.agents.contains a then
        { m with agents := m.agents ++ [a], kinds := m.kinds ++ [kind.code] } else m) }))
  | none =>
    if s.missesFull c then none
    else
      let (s, fid) := s.raiseFault c vf va kind a
      some (s.updCluster c (fun u => { u with misses := u.misses ++ [⟨vf, page, va, fid, kind.code, false, [a], [kind.code]⟩] }))

/-- A thread set that is given up sleeps on no fault any longer. -/
def State.forgetMiss (s : State) (t : TsId) : State :=
  s.updCluster t.cluster (fun u => { u with misses := u.misses.map (fun m =>
    { m with agents := m.agents.filter (· != .thread t) }) })

end Sys2Proof.Machine
end

