-- ==== Sys2Proof/Machine/Access.lean ====
section
/-! DEFINITION. The accesses of thread sets: the checks of R206, private and victim copies with their leases (R181, R182,
R346), tentative stores (R38, R39), direct stores (R40), and local scratch (R165, R179). -/
namespace Sys2Proof.Machine

/-! ## Private and victim copies (R181, R182, R346) -/

/-- Lines that a core's private cache holds (R180). -/
def CoreUnit.privCap (c : CoreUnit) : Nat := (8 - c.lsplit) * 128

def CoreUnit.scratchSize (c : CoreUnit) : Nat := c.lsplit * 32768

/-- The cores that a MODE groups with a core, in ascending order (R182). -/
def vgroupCores (mode core : Nat) : List Nat :=
  if mode = 1 then [core / 2 * 2, core / 2 * 2 + 1]
  else if mode = 2 then
    let b := core / 8 * 8 + core % 4 / 2 * 2
    [b, b + 1, b + 4, b + 5]
  else [core]

/-- The members of a core's victim group: it stands only while all hold one MODE (R182). -/
def State.victimGroup (s : State) (c k : Nat) : List Nat :=
  let m := (s.core c k).vgroup
  let g := vgroupCores m k
  if g.all (fun j => (s.core c j).vgroup == m) then g else [k]

/-- The other members of a group after a core, in ascending number and wrapping (R182). -/
def followers (k : Nat) (g : List Nat) : List Nat := g.filter (fun j => k < j) ++ g.filter (fun j => j < k)

/-- The copy that leaves a full cache: the oldest without `.keep`, or the oldest. -/
def privVictim (l : List PrivLine) : Option PrivLine :=
  match l.find? (fun p => !p.keep) with
  | some p => some p
  | none => l.head?

/-- A copy put into a cache of n lines, and the copy that had to leave. -/
def privAdd (n : Nat) (p : PrivLine) (l : List PrivLine) : List PrivLine × Option PrivLine :=
  let l := l.filter (fun q => q.line != p.line)
  if n = 0 then (l, some p)
  else if l.length < n then (l ++ [p], none)
  else match privVictim l with
    | some v => (l.filter (fun q => q.line != v.line) ++ [p], some v)
    | none => ([p], none)

/-- A copy that has left a cache is placed in the next of the members given, as a victim copy; what it displaces there goes on
to the member after; what the last one displaces is dropped (R182; DESIGN CHOICE, entry 78). -/
def State.placeVictim (s : State) (c : Nat) (v : PrivLine) : List Nat → State
  | [] => s
  | j :: js =>
    let u := s.core c j
    let (l, out) := privAdd u.privCap { v with victim := true } u.priv
    let s := s.updCore c j (fun u => { u with priv := l })
    match out with
    | some w => s.placeVictim c w js
    | none => s

/-- A copy put into a core's private cache; the evicted one goes to the next member of the group (R181, R182). -/
def State.addPriv (s : State) (c k : Nat) (p : PrivLine) : State :=
  let u := s.core c k
  let (l, out) := privAdd u.privCap p u.priv
  let s := s.updCore c k (fun u => { u with priv := l })
  match out with
  | some v => s.placeVictim c v (followers k (s.victimGroup c k))
  | none => s

/-- A copy removed from a core's cache and its group's. -/
def State.dropPriv (s : State) (c k line : Nat) : State :=
  (s.victimGroup c k).foldl (fun s j => s.updCore c j (fun u => { u with priv := u.priv.filter (fun p => p.line != line) })) s

/-- The copies of a line removed from every core (R352). -/
def State.dropPrivAll (s : State) (line : Nat) : State :=
  { s with cores := s.cores.map (fun c => (c.1, { c.2 with priv := c.2.priv.filter (fun p => p.line != line) })) }

/-- A thread set's logical time advances to at least a time (R346). -/
def State.advanceTime (s : State) (t : TsId) (n : Nat) : State :=
  s.updThread t (fun th => { th with ltime := max th.ltime n })

/-- An edge of R344: everything later follows every event so far. -/
def State.edge (s : State) (t : TsId) : State := s.advanceTime t s.wmax

def State.wtime (s : State) (line : Nat) : Nat := NMap.get s.wtimes line 0

/-- The copy that a core's private cache holds of a line. -/
def State.copyOf (s : State) (c k line : Nat) : Option PrivLine := (s.core c k).priv.find? (fun p => p.line == line)

/-- A copy that serves a hit for a thread set at its logical time (R346): its core's own, or else the first that a member of
the victim group holds (R182), with the core that holds it. -/
def State.privHit (s : State) (t : TsId) (line : Nat) : Option (Nat × PrivLine) :=
  let holders := t.core :: followers t.core (s.victimGroup t.cluster t.core)
  (holders.findSome? (fun j => (s.copyOf t.cluster j line).map (fun p => (j, p)))).filter
    (fun x => (s.thread t).ltime ≤ x.2.lease && x.2.hits < 64)

/-- The copy of a line as its home gives it, poison included (R388), leased from a logical time on. -/
def State.freshCopy (s : State) (q : Place) (now line : Nat) (keep : Bool) : PrivLine :=
  { line := line, bytes := s.placeBytes q (256 * line) 256, lease := max now (s.wtime line) + Config.leaseLength line,
    wt := s.wtime line, hits := 0, keep := keep, victim := false, bad := if q = .dram then s.badSectors line else 0 }

/-- A line read at its home into a core's private cache: it replaces the copies of the core's group; a mark of `.keep` stays
with the line (R181, R182). -/
def State.addCopy (s : State) (c k : Nat) (q : Place) (now line : Nat) (keep : Bool) : State :=
  let p := s.freshCopy q now line (keep || (s.copyOf c k line).any (·.keep))
  let s := (s.dropPriv c k line).addPriv c k p
  { s with wmax := max s.wmax p.lease }

/-- The source of a thread set's loads of one line that are one event (R341): a copy, or the home, where the spans read (a
whole line, to make a copy of it) find their ways and are filled; none when they must wait for a way (R184). What it answers
reads n bytes from an offset of the line on. A line that the relayout engine holds waits too (R349). A core whose LSPLIT
leaves it no private cache takes no member's copy either (R182; DESIGN CHOICE, entry 115). -/
def State.loadLine (s : State) (t : TsId) (q : Place) (line : Nat) (spans : List (Nat × Nat)) (hint : Hint) :
    Option (State × (Nat → Nat → List Byte)) :=
  let copies := (s.core t.cluster t.core).privCap != 0
  match (if copies then s.privHit t line else none) with
  | some (j, p) =>
    let s := s.updCore t.cluster j (fun u => { u with priv := u.priv.filter (fun q => q.line != line) })
    let s := s.addPriv t.cluster t.core { p with hits := p.hits + 1, keep := p.keep || hint == .keep, victim := false }
    some (s.advanceTime t p.wt, fun o n => (p.bytes.drop o).take n)
  | none =>
    let fill := copies && hint != .nt
    if q = .dram ∧ s.lineHeld line then none
    else ((if fill then [(0, 256)] else spans).foldl
      (fun o x => o.bind (fun s => s.pullPlace q (s.vfOf t) (256 * line + x.1) x.2 (hint == .ev))) (some s)).map (fun s =>
      let u := s.advanceTime t (s.wtime line)
      (if fill then u.addCopy t.cluster t.core q (u.thread t).ltime line (hint == .keep) else u,
        fun o n => s.placeBytes q (256 * line + o) n))

/-- The committed bytes that a load of one line returns to a thread set. -/
def State.loadPlace (s : State) (t : TsId) (q : Place) (pa n : Nat) (hint : Hint) : Option (State × List Byte) :=
  (s.loadLine t q (pa / 256) [(pa % 256, n)] hint).map (fun r => (r.1, r.2 (pa % 256) n))

/-- A direct store is performed: the copy of the storing thread set's core is renewed, and the thread set's time follows
(R181, R346). -/
def State.afterStore (s : State) (t : TsId) (q : Place) (pa : Nat) (hint : Hint) : State :=
  let s := s.advanceTime t s.wmax
  if (s.copyOf t.cluster t.core (pa / 256)).isSome then
    s.addCopy t.cluster t.core q (s.thread t).ltime (pa / 256) (hint == .keep)
  else s

/-! ## The checks of R206 -/

/-- Where a checked access goes. -/
inductive Spot where
  | scratch (off : Nat)
  | sram (off : Nat)
  | region (vf off : Nat)
  | phys (p : Place) (pa : Nat)
  deriving DecidableEq, Repr

/-- What an access does; `storeNone` is a `vst` that enables no byte (R208). -/
inductive AccKind where
  | load | store | storeNone | amo | flush | mcrd
  deriving DecidableEq, Repr

def AccKind.need : AccKind → Need
  | .load | .flush | .mcrd => .r
  | .store | .storeNone => .w
  | .amo => .rw

def AccKind.fault : AccKind → FaultKind
  | .load | .flush => .load
  | .store | .storeNone => .store
  | .amo => .atomic
  | .mcrd => .mcrd

def physTrap {α : Type} (e : PhysErr) (va : Word) : M α :=
  match e with
  | .access => trapM causeAccess va
  | .homeDown => trapM causeHomeDown va
  | .poison => trapM causePoison va

/-- The thread set sleeps on a fault (R375); with the miss file full the word waits (R374). -/
def sleepM {α : Type} (va : Word) (kind : FaultKind) : M α :=
  fun _ => .error (.hold (fun s =>
    match s.joinMiss s.cur.cluster (s.vfOf s.cur) va kind (.thread s.cur) with
    | none => s
    | some s' => s'.updMe (fun t => { t with status := .asleep, wait := none })))

/-- Check 4: translation for the issuing thread set. -/
def translateM (need : Need) (kind : FaultKind) (va : Word) : M Nat := do
  let s ← readS id
  trapIf (s.me.refused == some (va >>> 16)) causeAccess va
  let (s', r) := s.translate (.core s.cur.cluster s.cur.core) (s.vfOf s.cur) va.toNat
  match r with
  | .failed e => physTrap e va
  | .missing => sleepM va kind
  | .busy => holdM
  | .page e => do
    trapIf (!e.permits need) causeAccess va
    updS (fun _ => s')
    pure (e.phys va.toNat)

/-- The 256-byte lines of an activation or handler that count toward FOOT (R39, R353). -/
def Act.footLines (a : Act) : List Nat := (a.lines ++ a.outside.map (fun (o : Nat × List Byte) => o.1 / 256)).eraseDups

/-- Whether a store of the issuing thread set is tentative (R38, R40). -/
def State.tentative (s : State) (va : Word) : Bool :=
  s.myAct?.isSome && !(s.myRun?.any (fun x => x.inPrivateRange va.toNat))

/-- TVAL of a handler's FOOTPRINT trap (R337). -/
def handlerFootTval : Word := 0x5000000000000100

/-- Check 5 (R39, R337): `extra` are the lines that the same word makes tentative before. -/
def footM (va : Word) (pa : Nat) (extra : List Nat) : M Unit := do
  let s ← readS id
  match s.myAct? with
  | some a =>
    let ls := (a.footLines ++ extra).eraseDups
    trapIf (s.tentative va && !ls.contains (pa / 256) && a.rule.foot ≤ ls.length) causeFootprint
      (if a.handler then handlerFootTval else va)
  | none => pure ()

/-- An activation's own data at a place that it alone reads: tentative bytes, or the stores it holds for host or peer memory
(R38, R353). -/
def Act.own (a : Act) (q : Place) : List Host.Cell :=
  match q with
  | .dram => a.tent
  | .host | .peer => a.outside.foldl (fun m o => overlayPuts m o.1 o.2) []

/-- The activation's own data of an optional activation: none without one. -/
def ownData (a : Option Act) (q : Place) : List Host.Cell := (a.map (fun a => a.own q)).getD []

/-- Bytes read at an address, under the reader's own data. -/
def overlaid (own : List Host.Cell) (pa : Nat) (bs : List Byte) : List Byte :=
  (upTo bs.length).map (fun i => (overlayFind own (pa + i)).getD (bs.getD i 0))

/-- Whether a read of the bytes of an access that are enabled meets a poisoned sector of device memory that the reader's own
data do not cover (R206, R388). -/
def State.readsPoison (s : State) (own : List Host.Cell) (pa n : Nat) (en : Nat → Bool) : Bool :=
  (upTo n).any (fun i => en i && NMap.get s.poison ((pa + i) / 64) 0 != 0 && (overlayFind own (pa + i)).isNone)

/-- Whether a read of the enabled bytes from an offset of a core's scratch on meets a poisoned unit of 8 bytes. -/
def CoreUnit.readsPoison (u : CoreUnit) (off n : Nat) (en : Nat → Bool) : Bool :=
  (upTo n).any (fun i => en i && NMap.get u.poison ((off + i) / 8) 0 != 0)

/-- Whether the enabled bytes of a load from a private copy meet a poisoned sector of it that the reader's own data do not
cover (R386, R388). -/
def PrivLine.readsPoison (p : PrivLine) (own : List Host.Cell) (pa n : Nat) (en : Nat → Bool) : Bool :=
  (upTo n).any (fun i => en i && p.bad.getLsbD ((pa + i) % 256 / 64) && (overlayFind own (pa + i)).isNone)

/-- The copy that would serve a thread set's load of a line. -/
def State.hitOf (s : State) (t : TsId) (line : Nat) : Option PrivLine :=
  if (s.core t.cluster t.core).privCap = 0 then none else (s.privHit t line).map (·.2)

/-- Whether a thread set's load of the enabled bytes at a place meets poison: of the copy that serves it, or of the home
(R206, R388). -/
def State.loadPoison (s : State) (t : TsId) (own : List Host.Cell) (q : Place) (pa n : Nat) (en : Nat → Bool) : Bool :=
  match s.hitOf t (pa / 256) with
  | some p => p.readsPoison own pa n en
  | none => q == .dram && s.readsPoison own pa n en

/-- Where a firmware core's address leads (assumption 12): its SRAM below 1 MiB, a physical address above, the control regions
among them (R398). -/
def firmwareSpot (va : Word) (size : Nat) : M Spot := do
  let s ← readS id
  trapIf (2 ^ 52 ≤ va.toNat) causeAccess va
  trapIf (va.toNat % size != 0) causeMisalign va
  if va.toNat < 0x100000 then pure (.sram va.toNat)
  else match regionOf va.toNat with
  | some (vf, off) => pure (.region vf off)
  | none =>
    match s.place va.toNat with
    | .error e => physTrap e va
    | .ok p => do
      trapIf (p == .dram && s.homeDown s.cur.core va.toNat) causeHomeDown va
      pure (.phys p va.toNat)

/-- Whether a load of the enabled bytes at a spot meets poisoned data (R206, check 7). -/
def Spot.meetsPoison (p : Spot) (s : State) (n : Nat) (en : Nat → Bool) : Bool :=
  match p with
  | .phys q pa => s.loadPoison s.cur (ownData s.myAct? q) q pa n en
  | .scratch off => s.myCore.readsPoison off n en
  | _ => false

/-- The checks of R206 for one access, in order; `en` are the bytes of it that a load reads. -/
def checkBytesM (kind : AccKind) (va : Word) (size : Nat) (extra : List Nat) (en : Nat → Bool) : M Spot := do
  let s ← readS id
  if s.inFirmware then do
    let p ← firmwareSpot va size
    trapIf (kind == .load && p.meetsPoison s size en) causePoison va
    pure p
  else do
    trapIf (2 ^ 49 ≤ va.toNat) causeAccess va
    trapIf (va.toNat % size != 0) causeMisalign va
    if inScratch va.toNat then do
      let off := va.toNat - scratchBase
      trapIf (s.myCore.scratchSize ≤ off || kind == .amo || kind == .flush || kind == .mcrd) causeAccess va
      trapIf (kind == .load && s.myCore.readsPoison off size en) causePoison va
      pure (.scratch off)
    else do
      let pa ← translateM kind.need kind.fault va
      let s ← readS id
      match s.place pa with
      | .error e => physTrap e va
      | .ok p => do
        if kind == .store then footM va pa extra
        trapIf (p == .dram && kind != .flush && s.homeDown (s.vfOf s.cur) pa) causeHomeDown va
        trapIf (kind == .load && (Spot.phys p pa).meetsPoison s size en) causePoison va
        pure (.phys p pa)

/-- The checks of R206 for an access all of whose bytes count. -/
def checkM (kind : AccKind) (va : Word) (size : Nat) (extra : List Nat) : M Spot := checkBytesM kind va size extra (fun _ => true)

/-! ## Loads and stores -/

/-- The bytes that a checked load returns: the activation's own data where they exist (R38, R205); it waits for earlier
atomics (R342), and while its set has no candidate (R184). -/
def loadSpot (p : Spot) (n : Nat) (hint : Hint) : M (List Byte) := do
  let s ← readS id
  match p with
  | .scratch off => pure (ByteMap.reads s.myCore.scratch off n)
  | .sram off => pure (ByteMap.reads (s.fn s.cur.core).sram off n)
  | .region vf off => do
    updS (fun s => (s.regionRead vf off n).1)
    pure (s.regionRead vf off n).2
  | .phys q pa => do
    holdIf (s.amoOpen s.cur)
    match s.loadPlace s.cur q pa n hint with
    | none => holdM
    | some (s', bs) => do
      updS (fun _ => s')
      pure (overlaid (ownData s.myAct? q) pa bs)

/-- A record added to the commit stream of a twin, with its place in issue order (R390). -/
def State.streamFor (s : State) (k : ActKey) (order : Nat) (ws : List Word) : State :=
  s.updAct k (fun a => if a.partner.isSome then { a with stream := a.stream ++ [(order, ws)] } else a)

/-- A record of the word being executed. -/
def State.stream (s : State) (ws : List Word) : State :=
  match s.me.act with
  | some k => s.streamFor k s.order ws
  | none => s

/-- The commit-stream record of a store: address, size, bytes. -/
def storeRecord (va : Word) (bs : List Byte) : List Word :=
  [va, BitVec.ofNat 64 bs.length] ++ bs.map (fun b => BitVec.ofNat 64 b.toNat)

/-- Other activations and handlers that hold tentative data on a line; twins are one activation (R38). -/
def State.otherHolders (s : State) (k : ActKey) (line : Nat) : Nat :=
  ((s.acts.filter (fun a => !(a.1.run == k.run && a.1.actid == k.actid) && a.2.lines.contains line)).map
    (fun a => (a.1.run, a.1.actid))).eraseDups.length

/-- A tentative store in device memory, and the mark of the thread set that made it: none when the line has four other
holders or finds no way (R38, R184). -/
def State.storeTent (s : State) (k : ActKey) (vf pa : Nat) (bs : List Byte) (mark : List StoreMark) : Option State :=
  match s.act? k with
  | none => none
  | some a =>
    let line := pa / 256
    let put (s : State) : State := s.updAct k (fun a =>
      { a with tent := overlayPuts a.tent pa bs, marks := a.marks.filter (fun m => !mark.contains m) ++ mark })
    if a.lines.contains line then some (put s)
    else if 4 ≤ s.otherHolders k line then none
    else (s.room vf pa).map (fun s => put (s.writeBack line))

/-- A store that would be the fifth on its line or finds its set full (R38, R184): the activation aborts, the handler is
rolled back; either is counted in CONFLICTS. -/
def conflictM {α : Type} : M α := do
  let s ← readS id
  let s := match s.me.run with
    | some r => s.updRun r (fun x => { x with conflicts := x.conflicts + 1 })
    | none => s
  match s.me.act, s.myAct? with
  | some k, some a =>
    if a.handler then fun _ => .error (.done (s.rollHandler s.cur k causeConflict 0))
    else fun _ => .error (.done (s.endAct k (fun a => { a with ending := some .abort })))
  | _, _ => holdM

/-- The performance of a checked store (R205, R38, R40, R353, R390), after the thread set's earlier atomics (R342). -/
def storeSpot (p : Spot) (va : Word) (bs : List Byte) (hint : Hint) : M Unit := do
  let s ← readS id
  match p with
  | .scratch off =>
    updS (fun s => s.updMyCore (fun c => c.write off bs))
  | .sram off => updS (fun s => s.updFn s.cur.core (fun f => { f with sram := ByteMap.writes f.sram off bs }))
  | .region vf off => updS (fun s => s.regionWrite vf off bs)
  | .phys q pa => do
    holdIf (s.amoOpen s.cur || q == .dram && s.lineHeld (pa / 256))
    match s.me.act, s.tentative va with
    | some k, true =>
      if q = .dram then do
        match s.storeTent k (s.vfOf s.cur) pa bs [⟨pa / 256, s.cur.cluster, s.cur.core, hint == .ev⟩] with
        | none => conflictM
        | some s' => updS (fun _ => s'.stream (storeRecord va bs))
      else updS (fun s => (s.updAct k (fun a =>
        { a with outside := a.outside ++ [(pa, bs)],
                 marks := a.marks.filter (· != ⟨pa / 256, s.cur.cluster, s.cur.core, false⟩) ++
                   [⟨pa / 256, s.cur.cluster, s.cur.core, false⟩] })).stream (storeRecord va bs))
    | some k, false =>
      if k.twin = 1 then updS (fun s => s.stream (storeRecord va bs))
      else do
        match s.storePlace q (s.vfOf s.cur) pa bs (hint == .ev) with
        | none => conflictM
        | some s' => updS (fun _ => (s'.afterStore s'.cur q pa hint).stream (storeRecord va bs))
    | none, _ =>
      match s.storePlace q (s.vfOf s.cur) pa bs (hint == .ev) with
      | none => holdM
      | some s' => updS (fun _ => s'.afterStore s'.cur q pa hint)

/-- Whether a spot is global memory, whose accesses belong to a wait class (R215). -/
def Spot.isGlobal : Spot → Bool
  | .phys .. => true
  | _ => false

/-- Whether a spot is host or peer memory (R217). -/
def Spot.isRemote : Spot → Bool
  | .phys .dram _ => false
  | .phys .host _ | .phys .peer _ => true
  | _ => false

/-- A global load enters its class, and its completion is put on the work list (R215). -/
def enterLoad (ps : List Spot) : M Unit :=
  if ps.any (·.isGlobal) then do
    enterClass .ld
    updS (fun s => s.post (.loadComplete s.cur))
  else pure ()

/-- A global store enters its class, and its performance is put on the work list (R215); `sys` is set for one that only
`fence.sys` waits for (R217). -/
def enterStore (ps : List Spot) (sys : Bool) : M Unit :=
  if ps.any (·.isGlobal) then do
    enterClass .st
    updS (fun s => (s.updMe (fun t => { t with stOut := t.stOut ++ [sys] })).post (.storePerformed s.cur))
  else pure ()

/-- A little-endian load (R204). -/
def loadM (va : Word) (n : Nat) (hint : Hint) : M (List Byte) := do
  let p ← checkM .load va n []
  enterLoad [p]
  loadSpot p n hint

/-- A little-endian store (R204). -/
def storeM (va : Word) (bs : List Byte) (hint : Hint) : M Unit := do
  let p ← checkM .store va bs.length []
  enterStore [p] p.isRemote
  storeSpot p va bs hint

end Sys2Proof.Machine
end

