-- ==== Sys2Proof/Machine/Operands.lean ====
section
/-! DEFINITION. Operand forms: registers, constant-window words (R54), the width of `.w` (R97), rounding directions (R63,
R105, R117), and the lanes of vector forms (R284). -/
namespace Sys2Proof.Machine

/-- A word that reads the register of an atomic waits for its return (R358); one that reads the register that a poisoned
atomic did not write takes that trap, once (R359). -/
def unreadM (r : XReg) : M Unit := fun s =>
  if s.me.awaiting r then .error (.hold id)
  else match s.me.pend.find? (fun p => p.reg == some r) with
  | some p => .error (.late (s.updMe (fun t => { t with pend := t.pend.erase p })) p.cause p.tval)
  | none => .ok ((), s)

def xM (r : XReg) : M Word := do
  unreadM r
  readS (fun s => s.me.getX r)
def setXM (r : XReg) (w : Word) : M Unit := updS (fun s => s.updMe (fun t => t.setX r w))
def vM (r : VReg) : M VWord := readS (fun s => s.me.getV r)
def setVM (r : VReg) (w : VWord) : M Unit := updS (fun s => s.updMe (fun t => t.setV r w))
def pM (r : PReg) : M Word := readS (fun s => s.me.getP r)
def setPM (r : PReg) (w : Word) : M Unit := updS (fun s => s.updMe (fun t => t.setP r w))
def hM (r : HReg) : M HWord := readS (fun s => s.me.getH r)
def setHM (r : HReg) (w : HWord) : M Unit := updS (fun s => s.updMe (fun t => t.setH r w))
def flagsM (f : Flags) : M Unit := updS (fun s => s.flags f)

/-- TVAL of a constant-window trap (R54): the window in [2:0], the word offset in [36:20]. -/
def cwTval (win : BitVec 3) (off : BitVec 17) : Word := field 0 win.toNat ||| field 20 off.toNat

/-- The bytes of the issuing thread set's constant window; none where the run loads no such window (R183). -/
def State.cwin (s : State) (win : BitVec 3) : Option (List Byte) :=
  s.myRun?.bind (fun x => NMap.find? x.cwins win.toNat)

/-- Whether bytes of a constant window lie in a poisoned line of the cluster's constant cache (R386). -/
def State.cwinBad (s : State) (win : BitVec 3) (off n : Nat) : Bool :=
  (s.cluster s.cur.cluster).badConst.any (fun b => b.1 == win.toNat && off / 64 ≤ b.2 && b.2 ≤ (off + n - 1) / 64)

/-- n bytes of a constant window from a word offset, or ACCESS (R54, R210); POISON, with the TVAL of ACCESS, where the cached
line is poisoned (R386; entry 96). -/
def cwinM (win : BitVec 3) (off : BitVec 17) (n : Nat) : M Nat := do
  let s ← readS id
  match s.cwin win with
  | some bs =>
    trapIf (bs.length < 4 * off.toNat + n) causeAccess (cwTval win off)
    trapIf (s.cwinBad win (4 * off.toNat) n) causePoison (cwTval win off)
    pure (leNat ((bs.drop (4 * off.toNat)).take n))
  | none => trapM causeAccess (cwTval win off)

/-- The B operand (R54, R97): a register, or a constant-window word sign-extended. -/
def bM : BSrc → M Word
  | .reg r => xM r
  | .cw win off => do
    let v ← cwinM win off 4
    pure (sxWord 32 v)

/-- An operation over w bits at the width of `.w` (R97): the 32-bit result is sign-extended. -/
def wide (w32 : Bool) (f : (w : Nat) → BitVec w → BitVec w → BitVec w) (a b : Word) : Word :=
  if w32 then (f 32 (a.setWidth 32) (b.setWidth 32)).signExtend 64 else f 64 a b

/-- The register value of a loaded little-endian number (R204). -/
def extendLoad (sx : Bool) (n v : Nat) : Word := if sx then sxWord (8 * n) v else BitVec.ofNat 64 v

/-- The direction that a code of FPMODE.RM names (R117). -/
def Rm.ofCode (n : Nat) : Rm :=
  match n with
  | 1 => .rtz
  | 2 => .rup
  | 3 => .rdn
  | 4 => .rna
  | _ => .rne

/-- FTZ (R117). -/
def Thread.ftz (t : Thread) : Bool := Word.bit t.fpmode 3

def Thread.rm (t : Thread) : Rm := Rm.ofCode (Word.bits t.fpmode 2 0)

/-- The rounding direction of an instruction: RND, or FPMODE.RM (R105). -/
def Thread.rnd (t : Thread) : RndSel → Rm
  | .mode => t.rm
  | .rne => .rne
  | .rz => .rtz
  | .ru => .rup
  | .rd => .rdn
  | .rna => .rna

/-- The address of an MM operand (R58, R204). -/
def mmAddr (a b : Word) (e : BitVec 20) : Word := a + b + e.signExtend 64

def mmAddrM (a b : XReg) (e : BitVec 20) : M Word := do
  let x ← xM a
  let y ← xM b
  pure (mmAddr x y e)

end Sys2Proof.Machine
end

