-- ==== Sys2Proof/Machine/Waits.lean ====
section
/-! DEFINITION. Bounded waits (R371): what they wait for, their timeout; and how tile operands are resolved (R253, R256,
R259). -/
namespace Sys2Proof.Machine

/-! ## The tile table -/

def State.tile (s : State) (c : Nat) (n : TileIx) : TileEntry := NMap.get (s.cluster c).tiles n.toNat TileEntry.zero

def State.updTile (s : State) (c : Nat) (n : TileIx) (f : TileEntry → TileEntry) : State :=
  s.updCluster c (fun u => { u with tiles := NMap.set u.tiles n.toNat (f (NMap.get u.tiles n.toNat TileEntry.zero)) })

def State.litter (s : State) (c : Nat) (l : LitIx) : Litter := NMap.get (s.cluster c).litters l.toNat Litter.zero

def State.updLitter (s : State) (c : Nat) (l : LitIx) (f : Litter → Litter) : State :=
  s.updCluster c (fun u => { u with litters := NMap.set u.litters l.toNat (f (NMap.get u.litters l.toNat Litter.zero)) })

/-- The thread sets of a cluster that are in a bounded wait of a kind, with the waits. -/
def State.waiting (s : State) (c : Nat) (p : WaitFor → Bool) : List (TsId × WaitState) :=
  (upTo 85).filterMap (fun i =>
    let t : TsId := ⟨c, i / 5, i % 5⟩
    match (s.thread t).wait with
    | some w => if p w.what then some (t, w) else none
    | none => none)

/-- Whether a `tfill` waits for an entry (R256, R259). -/
def State.fillWaits (s : State) (c : Nat) (n : TileIx) : Bool := !(s.waiting c (· == .fill n)).isEmpty

/-- SEQ is ahead of q (R256). -/
def seqAhead (sq q : BitVec 32) : Bool := let d := (sq - q).toNat; 1 ≤ d && d ≤ 2 ^ 31

/-- What a consumer meets at an entry: it is there, it will never be, or it may come. -/
inductive Resolve where
  | ready | never | later
  deriving DecidableEq, Repr

/-- The loop of R256. -/
def State.consume (s : State) (c : Nat) (n : TileIx) (q : BitVec 32) : Resolve :=
  let e := s.tile c n
  if e.seq = q ∧ e.state = .ready then .ready
  else if seqAhead e.seq q then .never
  else if e.seq = q ∧ (e.state = .empty ∨ e.state = .draining) ∧ !s.fillWaits c n then .never
  else .later

/-- A direct operand (R259). -/
def State.direct (s : State) (c : Nat) (n : TileIx) : Resolve :=
  match (s.tile c n).state with
  | .ready => .ready
  | .filling => .later
  | .empty | .draining => if s.fillWaits c n then .later else .never

/-! ## Bounded waits -/

/-- Whether what a thread set waits for has come, or can no longer come: its word no longer waits. -/
def State.waitOver (s : State) (t : TsId) : WaitFor → Bool
  | .barrier n =>
    let b := ((s.core t.cluster t.core).barriers[n.toNat]?).getD Barrier.zero
    b.err != 0 || (b.armed && b.expect ≤ b.credit)
  | .bar => false
  | .leash _ =>
    let a := (s.cluster t.cluster).array
    a.holder == some t && a.holderAct == (s.thread t).act
  | .recv => !(s.thread t).recvq.isEmpty
  | .fill n => (s.tile t.cluster n).state == .empty
  | .drain n => (s.tile t.cluster n).state == .ready
  | .consume n q => s.consume t.cluster n q != .later

/-- Whether a bounded wait has lasted LIMIT FCLK; a LIMIT of zero sets no limit. -/
def State.waitDue (s : State) (t : TsId) : Bool :=
  let th := s.thread t
  let limit := th.waitlim.toNat % 2 ^ 48
  match th.wait with
  | some w => limit != 0 && w.since + limit ≤ s.fclk
  | none => false

/-- A wait that has timed out is withdrawn (R310, R371): one for a resumption leaves the chain PARKED and asks no more. -/
def State.withdraw (s : State) (t : TsId) (what : WaitFor) : State :=
  if what = .leash true then s.updThread t (fun th => { th with chain := { th.chain with resume := false } }) else s

/-- A bounded wait (R371): the word is not performed; it counts from the FCLK in which the word first found this condition
false. When it has waited LIMIT FCLK it traps, and its wait is withdrawn with it. -/
def boundedWait {α : Type} (what : WaitFor) (tval : Word) : M α := fun s =>
  if s.me.wait.any (fun w => w.what == what) then
    if s.waitDue s.cur then .error (.late (s.withdraw s.cur what) causeWaitTimeout tval) else .error (.hold id)
  else .error (.hold (fun s => s.updMe (fun t => { t with wait := some ⟨s.fclk, what, tval⟩ })))

/-- The timeout as a step of its own: the thread set whose wait is due, and not over, traps (R371). -/
def execWaitTimeout (t : TsId) (s : State) : Host.Outcome State Fault Refusal :=
  match (s.thread t).wait with
  | some w =>
    if s.waitDue t && !s.waitOver t w.what && (s.thread t).status == .ready then
      ({ s with cur := t }.withdraw t w.what).takeTrap causeWaitTimeout w.tval
    else .next s
  | none => .next s

/-! ## Tile operands -/

/-- TVAL of a litter operand (R256). -/
def litTval (l : LitIx) (q : BitVec 32) : Word := field 0 q.toNat ||| field 32 l.toNat ||| field 36 1

/-- The entry that a litter operand names: bound to slot q mod N (R256). -/
def State.litEntry (s : State) (c : Nat) (l : LitIx) (q : BitVec 32) : Option TileIx :=
  let t := s.litter c l
  if t.n = 0 then none
  else (t.slots.find? (fun e => e.1 == q.toNat % t.n)).map (fun e => BitVec.ofNat 8 e.2)

/-- The sequence of a litter operand. -/
def seqM (x : XReg) : M (BitVec 32) := do
  let w ← xM x
  pure (w.setWidth 32)

/-- The entry of a tile operand, without a wait; an unbound slot traps (R256, R260). -/
def nameTileM (o : TileOpd) : M TileIx := do
  match o with
  | .tile n => pure n
  | .lit l x => do
    let q ← seqM x
    let s ← readS id
    match s.litEntry s.cur.cluster l q with
    | some n => pure n
    | none => trapM causeNeverReady (litTval l q)

/-- TVAL of a direct operand. -/
def tileTval (n : TileIx) : Word := field 0 n.toNat

/-- A litter operand as a consumer (R256). -/
def consumeM (l : LitIx) (x : XReg) : M TileIx := do
  let q ← seqM x
  let n ← nameTileM (.lit l x)
  let s ← readS id
  match s.consume s.cur.cluster n q with
  | .ready => pure n
  | .never => trapM causeNeverReady (litTval l q)
  | .later => boundedWait (.consume n q) (litTval l q)

/-- A tile operand of a word that issues on READY (R256, R259). -/
def readyTileM (o : TileOpd) : M TileIx := do
  match o with
  | .lit l x => consumeM l x
  | .tile n => do
    let s ← readS id
    match s.direct s.cur.cluster n with
    | .ready => pure n
    | .never => trapM causeNeverReady (tileTval n)
    | .later => holdM

end Sys2Proof.Machine
end

