-- ==== Sys2Proof/Machine/Array.lean ====
section
/-! DEFINITION. The matrix array's leash (R264, R310), parking and reloading of chains (R307 to R309), and poisoned buffer
rows (R316). -/
namespace Sys2Proof.Machine

/-! ## Buffers -/

def Cluster.buf (c : Cluster) : Buf → ByteMap
  | .wbuf => c.wbuf
  | .abuf => c.abuf
  | .cbuf => c.cbuf
  | .sbuf => c.sbuf

def Cluster.setBuf (c : Cluster) (b : Buf) (m : ByteMap) : Cluster :=
  match b with
  | .wbuf => { c with wbuf := m }
  | .abuf => { c with abuf := m }
  | .cbuf => { c with cbuf := m }
  | .sbuf => { c with sbuf := m }

def Buf.code : Buf → Nat
  | .wbuf => 0
  | .abuf => 1
  | .cbuf => 2
  | .sbuf => 3

/-- A buffer row that is poisoned (R316). -/
def Cluster.rowBad (c : Cluster) (b : Buf) (row : Nat) : Bool := c.badRows.any (fun r => r.buf == b && r.row == row)

/-- A poisoned row after n bytes written from an offset of its buffer on. -/
def BadRow.written (r : BadRow) (off n : Nat) : BadRow :=
  { r with left := (upTo 256).foldl (fun m i =>
      if off ≤ 256 * r.row + i && 256 * r.row + i < off + n then m &&& ~~~(1#256 <<< i) else m) r.left }

/-- Bytes written into a buffer: a row whose every byte has been written is poisoned no longer (R304, R316, R388). -/
def Cluster.writeBuf (c : Cluster) (b : Buf) (off : Nat) (bs : List Byte) : Cluster :=
  { c.setBuf b (ByteMap.writes (c.buf b) off bs) with
    badRows := (c.badRows.map (fun r => if r.buf = b then r.written off bs.length else r)).filter (fun r => r.left != 0) }

/-! ## The block and the park slots (R308) -/

abbrev Block := Vector (BitVec 32) 512

def Block.bytes (b : Block) : List Byte := b.toList.flatMap (fun w => leBytes 4 w.toNat)

/-- A block from the bytes at an offset of CBUF. -/
def Block.read (m : ByteMap) (off : Nat) : Block := Vector.ofFn (fun i => BitVec.ofNat 32 (ByteMap.readNat m (off + 4 * i.val) 4))

def Block.zero : Block := Vector.replicate 512 0

/-- The park slot of a thread set. -/
def parkSlot (t : TsId) : Nat := 2048 * (4 * t.core + t.set)

/-- An array that has failed at start-up or since (R317). -/
def State.arrayDown (s : State) (c : Nat) : Bool := (s.cluster c).array.failed || 2 ≤ s.hub.stateOf ⟨kindArray, c⟩

/-- A LIVE chain is parked with its ROWMASK (R309). -/
def State.park (s : State) (t : TsId) : State :=
  let a := (s.cluster t.cluster).array
  let save (c : Chain) (s : State) : State := if c.state = .live then
    s.updCluster t.cluster (fun u => u.writeBuf .cbuf (parkSlot t) (Block.bytes a.block)) else s
  match a.orphan with
  | some c => save c s
  | none => (save (s.thread t).chain s).updThread t (fun th => { th with chain :=
      { th.chain with state := if th.chain.state = .live then .parked else th.chain.state, rowmask := a.rowmask } })

/-- A waiting request for the leash: the thread set, its run's priority, since when it waits, and whether it asks for a
resumption. -/
structure LeashReq where
  thread : TsId
  prio : Nat
  since : Nat
  resume : Bool
  deriving DecidableEq, Repr

/-- The waiting requests of a cluster. -/
def State.leashReqs (s : State) (c : Nat) : List LeashReq :=
  (s.waiting c (fun w => w == .leash true || w == .leash false)).map (fun (t, w) =>
    { thread := t, prio := (((s.thread t).run.bind s.run?).map (fun x => Rec.prio x.rec_)).getD 0, since := w.since,
      resume := w.what == .leash true })

/-- Whether a request goes before another: by priority, then by core after the last holder's, then by age (R264). -/
def LeashReq.before (last : Nat) (a b : LeashReq) : Bool :=
  let turn (r : LeashReq) : Nat := (r.thread.core + 16 - last - 1) % 16
  if a.prio ≠ b.prio then b.prio < a.prio
  else if turn a ≠ turn b then turn a < turn b
  else a.since ≤ b.since

/-- The request to be granted next. -/
def firstReq (last : Nat) : List LeashReq → Option LeashReq
  | [] => none
  | r :: rs => match firstReq last rs with
    | some q => if r.before last q then some r else some q
    | none => some r

/-- A grant (R264, R265, R310): a resumption restores the saved ROWMASK. -/
def State.grant (s : State) (t : TsId) (resume : Bool) : State :=
  let th := s.thread t
  let s := s.updThread t (fun th => { th with wait := none, chain := { th.chain with resume := false } })
  s.updCluster t.cluster (fun c => { c with array :=
    { c.array with holder := some t, holderAct := th.act, orphan := none, grantStart := s.fclk, grantCount := 0, lastCore := t.core,
                   rowmask := if resume then th.chain.rowmask else 0xFFFFFFFF } })

/-- A grant of the free leash to the next waiting request (R264). -/
def execLeashGrant (c : Nat) (s : State) : Host.Outcome State Fault Refusal :=
  let a := (s.cluster c).array
  .next (if a.holder.isSome || s.arrayDown c then s
    else match firstReq a.lastCore (s.leashReqs c) with
    | some r => s.grant r.thread r.resume
    | none => s)

/-- The leash leaves its holder: the chain is parked, and the next request's grant is due (R264, R309). -/
def State.freeLeash (s : State) (c : Nat) : State :=
  match (s.cluster c).array.holder with
  | some t =>
    ((s.park t).updCluster c (fun u => { u with array := { u.array with holder := none, holderAct := none, orphan := none } })).postOnce
      (.leashGrant c)
  | none => s

/-- Whether a thread set is the leash holder. -/
def State.isHolder (s : State) (t : TsId) : Bool :=
  let a := (s.cluster t.cluster).array
  a.holder == some t && a.holderAct == (s.thread t).act

/-- A `halt` or an ending of a thread set: the leash is freed if it holds it, and its chain is closed (R309). -/
def State.closeChain (s : State) (t : TsId) : State :=
  let s := if s.isHolder t then s.freeLeash t.cluster else s
  s.updThread t (fun th => { th with chain := { th.chain with state := .none, cls := .none, resume := false, blockErr := false } })

end Sys2Proof.Machine
end

