-- ==== Sys2Proof/Machine/Memory.lean ====
section
/-! DEFINITION. Loads and stores, vector memory, the spill stack, prefetch and flush, wait and fence (R204 to R218), and
the completion of loads and stores (R215). -/
namespace Sys2Proof.Machine

/-- ld (R204). -/
def execLd (o : LoadOp) (s : State) : Host.Outcome State Fault Refusal :=
  word (do
    let va ← mmAddrM o.a o.b o.e
    let bs ← loadM va o.size.bytes o.hint
    setXM o.d (extendLoad o.sx o.size.bytes (leNat bs))) s

/-- st (R204). -/
def execSt (o : StoreOp) (s : State) : Host.Outcome State Fault Refusal :=
  word (do
    let va ← mmAddrM o.a o.b o.e
    let v ← xM o.d
    storeM va (leBytes o.size.bytes v.toNat) o.hint) s

/-- vld (R208). -/
def execVld (o : VMemOp) (s : State) : Host.Outcome State Fault Refusal :=
  word (do
    let va ← mmAddrM o.a o.b o.e
    let p ← pM o.p
    let spot ← checkBytesM .load va 64 [] (fun i => p.getLsbD i)
    enterLoad [spot]
    let bs ← loadSpot spot 64 o.hint
    setVM o.d (VWord.ofBytes ((upTo 64).map (fun i => if p.getLsbD i then bs.getD i 0 else 0)))) s

/-- The maximal runs of enabled bytes of a masked store, each with its offset. -/
def enabledRuns (p : Word) (bs : List Byte) : List (Nat × List Byte) :=
  ((upTo bs.length).foldl (fun (acc : List (Nat × List Byte)) i =>
    if p.getLsbD i then
      match acc with
      | (o, r) :: rest => if o + r.length = i then (o, r ++ [bs.getD i 0]) :: rest else (i, [bs.getD i 0]) :: acc
      | [] => [(i, [bs.getD i 0])]
    else acc) []).reverse

/-- A spot further on. -/
def Spot.plus : Spot → Nat → Spot
  | .scratch o, n => .scratch (o + n)
  | .sram o, n => .sram (o + n)
  | .region vf o, n => .region vf (o + n)
  | .phys p a, n => .phys p (a + n)

/-- Stores of byte runs at one checked spot. -/
def storeRuns (p : Spot) (va : Word) (hint : Hint) : List (Nat × List Byte) → M Unit
  | [] => pure ()
  | (o, bs) :: rest => do
    storeSpot (p.plus o) (va + BitVec.ofNat 64 o) bs hint
    storeRuns p va hint rest

/-- vst (R208). -/
def execVst (o : VMemOp) (s : State) : Host.Outcome State Fault Refusal :=
  word (do
    let va ← mmAddrM o.a o.b o.e
    let p ← pM o.p
    let v ← vM o.d
    let runs := enabledRuns p v.bytes
    let spot ← checkM (if runs.isEmpty then .storeNone else .store) va 64 []
    enterStore [spot] spot.isRemote
    storeRuns spot va o.hint runs) s

/-- The addresses of the enabled lanes of a gather or scatter, ascending (R209). -/
def laneAddrs (o : VGatherOp) (a : Word) (b : VWord) (p : Word) : List (Nat × Word) :=
  let n := o.size.bytes
  ((upTo (64 / n)).filter (fun j => laneOn p n j)).map (fun j =>
    (j, a + sxWord (8 * n) (b.lane n j) * BitVec.ofNat 64 n + o.e.signExtend 64))

/-- Every lane's checks, before any lane is accessed: `extra` are the lines that earlier lanes make tentative (R209). -/
def checkLanes (kind : AccKind) (n : Nat) : List (Nat × Word) → List Nat → M (List (Nat × Word × Spot))
  | [], _ => pure []
  | (j, va) :: rest, extra => do
    let p ← checkM kind va n extra
    let s ← readS id
    let extra := match p with
      | .phys _ pa => if s.tentative va then extra ++ [pa / 256] else extra
      | _ => extra
    let ps ← checkLanes kind n rest extra
    pure ((j, va, p) :: ps)

/-- The loads of a gather, in ascending lane order. -/
def loadLanes (n : Nat) (hint : Hint) : List (Nat × Word × Spot) → M (List (Nat × Nat))
  | [] => pure []
  | (j, _, p) :: rest => do
    let bs ← loadSpot p n hint
    let vs ← loadLanes n hint rest
    pure ((j, leNat bs) :: vs)

/-- The stores of a scatter, in ascending lane order. -/
def storeLanes (n : Nat) (hint : Hint) (v : VWord) : List (Nat × Word × Spot) → M Unit
  | [] => pure ()
  | (j, va, p) :: rest => do
    storeSpot p va (leBytes n (v.lane n j)) hint
    storeLanes n hint v rest

/-- vgat (R209). -/
def execVgat (o : VGatherOp) (s : State) : Host.Outcome State Fault Refusal :=
  word (do
    let a ← xM o.a
    let b ← vM o.b
    let p ← pM o.p
    let n := o.size.bytes
    let ps ← checkLanes .load n (laneAddrs o a b p) []
    enterLoad (ps.map (·.2.2))
    let vs ← loadLanes n o.hint ps
    setVM o.d (VWord.ofLanes n ((upTo (64 / n)).map (fun j =>
      ((vs.find? (fun v => v.1 == j)).map (·.2)).getD 0)))) s

/-- vsca (R209). -/
def execVsca (o : VGatherOp) (s : State) : Host.Outcome State Fault Refusal :=
  word (do
    let a ← xM o.a
    let b ← vM o.b
    let p ← pM o.p
    let v ← vM o.d
    let n := o.size.bytes
    let ps ← checkLanes .store n (laneAddrs o a b p) []
    enterStore (ps.map (·.2.2)) (ps.any (·.2.2.isRemote))
    storeLanes n o.hint v ps) s

/-- ldk (R210). -/
def execLdk (d : XReg) (win : BitVec 3) (off : BitVec 17) (size : Size) (sx : Bool) (s : State) :
    Host.Outcome State Fault Refusal :=
  word (do
    trapIf (size == .d && off.getLsbD 0) causeMisalign (cwTval win off)
    let v ← cwinM win off (if size == .d then 8 else 4)
    setXM d (extendLoad sx size.bytes (v % 2 ^ (8 * size.bytes)))) s

/-! ## The spill stack (R211, R212) -/

/-- The size of the scratch that a spill uses: a firmware core has none. -/
def State.spillSize (s : State) : Nat := if s.inFirmware then 0 else s.myCore.scratchSize

/-- The bytes that `pushm` writes (R212). -/
def pushBytes (t : Thread) (bank : Bool) (a n : Nat) : List Byte :=
  (upTo n).flatMap (fun k =>
    if bank then (t.getV (BitVec.ofNat 5 (a + k))).bytes else leBytes 8 (t.getX (BitVec.ofNat 5 (a + k))).toNat)

/-- The x registers that a `pushm` reads. -/
def readRegsM (a : Nat) : Nat → M Unit
  | 0 => pure ()
  | n + 1 => do
    readRegsM a n
    unreadM (BitVec.ofNat 5 (a + n))

/-- pushm (R212). -/
def execPushm (bank : Bool) (a b : BitVec 5) (s : State) : Host.Outcome State Fault Refusal :=
  word (do
    let s ← readS id
    let sp := s.me.spillsp
    let n := b.toNat - a.toNat + 1
    let need := n * (if bank then 64 else 8)
    trapIf (bank && sp.toNat % 64 != 0) causeMisalign sp
    trapIf (s.me.spilllim.toNat < sp.toNat + need || s.spillSize < s.me.spilllim.toNat) causeSpillOvf
      (sp + BitVec.ofNat 64 need)
    if bank then pure () else readRegsM a.toNat n
    storeSpot (.scratch sp.toNat) 0 (pushBytes s.me bank a.toNat n) .none
    updS (fun s => s.updMe (fun t => { t with spillsp := sp + BitVec.ofNat 64 need }))) s

/-- The registers that `popm` writes (R212). -/
def popRegs (bank : Bool) (a : Nat) (bs : List Byte) : Nat → Thread → Thread
  | 0, t => t
  | n + 1, t =>
    let t := popRegs bank a bs n t
    let r := BitVec.ofNat 5 (a + n)
    if bank then t.setV r (VWord.ofBytes ((bs.drop (64 * n)).take 64))
    else t.setX r (BitVec.ofNat 64 (leNat ((bs.drop (8 * n)).take 8)))

/-- popm (R212). -/
def execPopm (bank : Bool) (a b : BitVec 5) (s : State) : Host.Outcome State Fault Refusal :=
  word (do
    let s ← readS id
    let sp := s.me.spillsp
    let n := b.toNat - a.toNat + 1
    let need := n * (if bank then 64 else 8)
    let low := sp - BitVec.ofNat 64 need
    trapIf (bank && sp.toNat % 64 != 0) causeMisalign sp
    trapIf (sp.toNat < s.me.spillbase.toNat + need || s.spillSize < sp.toNat) causeSpillOvf low
    trapIf (s.myCore.readsPoison low.toNat need (fun _ => true)) causePoison
      (BitVec.ofNat 64 (scratchBase + low.toNat))
    let bs := ByteMap.reads s.myCore.scratch low.toNat need
    updS (fun s => s.updMe (fun t => popRegs bank a.toNat bs n { t with spillsp := low }))) s

/-! ## Prefetch and flush (R213, R214) -/

/-- What a prefetch of a readable line does: a copy in the core's private cache, or the line in its home slice; without a
way for it, or while an engine holds it, nothing (R213, R349). -/
def State.prefetch (s : State) (q : Place) (pa : Nat) (hint : Hint) : State :=
  let line := pa / 256
  match (if q == .dram && s.lineHeld line then none else s.pullPlace q (s.vfOf s.cur) (256 * line) 256 (hint == .ev)) with
  | none => s
  | some u =>
    if hint == .nt || hint == .ev then u
    else if s.myCore.privCap = 0 then s
    else u.addCopy s.cur.cluster s.cur.core q s.me.ltime line (hint == .keep)

/-- pref (R213): an address in the scratch window traps; any other check it meets drops it. -/
def execPref (o : PrefOp) (s : State) : Host.Outcome State Fault Refusal :=
  word (do
    let va ← mmAddrM o.a o.b o.e
    let s ← readS id
    if s.inFirmware then pure ()
    else do
      trapIf (inScratch va.toNat) causeAccess va
      if 2 ^ 49 ≤ va.toNat then pure ()
      else
        let vf := s.vfOf s.cur
        match s.translate (.core s.cur.cluster s.cur.core) vf va.toNat with
        | (s', .page e) =>
          let pa := e.phys va.toNat
          match s.place pa with
          | .ok q =>
            if e.r && !(q == .dram && (s.homeDown vf pa || s.poisonAt pa 1)) then updS (fun _ => s'.prefetch q pa o.hint)
            else pure ()
          | .error _ => pure ()
        | _ => pure ()) s

/-- cflush (R214). -/
def execCflush (a b : XReg) (e : BitVec 20) (s : State) : Host.Outcome State Fault Refusal :=
  word (do
    let va ← mmAddrM a b e
    let s ← readS id
    let p ← checkM .flush va 1 []
    enterStore [p] false
    match p with
    | .phys q pa => do
      holdIf (q == .dram && s.lineHeld (pa / 256))
      updS (fun s => if s.inFirmware then s else s.dropPriv s.cur.cluster s.cur.core (pa / 256))
      if q = .dram then updS (fun s => s.writeBack (pa / 256)) else pure ()
    | _ => pure ()) s

/-! ## wait and fence (R216 to R218) -/

/-- The earliest of the pending failures that satisfy a condition. -/
def firstPend (p : PendTrap → Bool) : List PendTrap → Option PendTrap
  | [] => none
  | x :: xs => match firstPend p xs with
    | some y => if p x && x.order ≤ y.order then some x else some y
    | none => if p x then some x else none

/-- The pending failure that a word waits for is trapped there, once (R216, R226, R261, R359). -/
def latePendM (p : PendTrap → Bool) : M Unit := do
  let s ← readS id
  match firstPend p s.me.pend with
  | some x => fun s => .error (.late (s.updMe (fun t => { t with pend := t.pend.erase x })) x.cause x.tval)
  | none => pure ()

/-- wait (R216): an edge for the operations it has waited for (R344). -/
def execWait (ld st cp tl ms : BitVec 6) (s : State) : Host.Outcome State Fault Refusal :=
  word (do
    let lim (k : WClass) : Nat := match k with
      | .ld => ld.toNat
      | .st => st.toNat
      | .cp => cp.toNat
      | .tl => tl.toNat
      | .ms => ms.toNat
    let me ← readS State.me
    holdIf ([WClass.ld, .st, .cp, .tl, .ms].any (fun k => lim k < me.cnt.get k))
    latePendM (fun x => lim x.cls < 63)
    updS (fun s => s.edge s.cur)) s

/-- The scope of R217 within which a core of a cluster lies, seen from a thread set: its code. -/
def State.reach (s : State) (t : TsId) (cluster core : Nat) : Nat :=
  if t.cluster = cluster ∧ t.core = core then 1
  else if t.cluster = cluster then 2
  else if ((s.thread t).run.bind s.run?).any (fun x => x.clusters.contains cluster) then 3
  else if nodeDie t.cluster = nodeDie cluster then 4
  else 5

/-- The core to which an entry of a send queue goes. -/
def State.sendTarget (s : State) (t : TsId) (e : SendEntry) : Option TsId :=
  ((s.thread t).run.bind s.run?).map (fun x => x.tsOf (Word.bits e.dest 31 0))

/-! ## Completion (R215) -/

/-- A load has written its register. -/
def execLoadComplete (t : TsId) (s : State) : Host.Outcome State Fault Refusal :=
  .next (if (s.thread t).cnt.ld = 0 then s else s.leaveClass t .ld)

/-- A store is performed: it has its place in the global order already. -/
def execStorePerformed (t : TsId) (s : State) : Host.Outcome State Fault Refusal :=
  .next (if (s.thread t).cnt.st = 0 then s
    else (s.leaveClass t .st).updThread t (fun th => { th with stOut := th.stOut.drop 1 }))

/-- The fill of a sector completes (R185). -/
def execSectorFillComplete (pa : Nat) (s : State) : Host.Outcome State Fault Refusal :=
  .next (match NMap.find? s.lines (pa / 256) with
    | some l =>
      let k := pa / 64 % 4
      let c := l.sector k
      if c.filling then { s with lines := NMap.set s.lines (pa / 256) (l.setSector k (s.filled (pa / 64 * 64) c)) } else s
    | none => s)

end Sys2Proof.Machine
end

