-- ==== Sys2Proof/Machine/Barrier.lean ====
section
/-! DEFINITION. Byte barriers (R175, R228) and the gang barrier (R176). -/
namespace Sys2Proof.Machine

def CoreUnit.barrier (c : CoreUnit) (n : BarIx) : Barrier := c.barriers[n.toNat]'n.isLt

def CoreUnit.setBarrier (c : CoreUnit) (n : BarIx) (b : Barrier) : CoreUnit :=
  { c with barriers := c.barriers.set n.toNat b n.isLt }

/-- Bytes credited to a barrier, modulo 2^32 (R171, R228). -/
def State.credit (s : State) (c k : Nat) (n : BarIx) (bytes : Nat) : State :=
  s.updCore c k (fun u => u.setBarrier n { u.barrier n with credit := (u.barrier n).credit + BitVec.ofNat 32 bytes })

/-- ERR of a barrier (R171, R226). -/
def State.barrierErr (s : State) (c k : Nat) (n : BarIx) (err : BitVec 2) : State :=
  s.updCore c k (fun u => u.setBarrier n { u.barrier n with err := err })

/-- bexp (R175): CREDIT is kept. -/
def execBexp (n : BarIx) (a : XReg) (s : State) : Host.Outcome State Fault Refusal :=
  word (do
    let s ← readS id
    privUnless s.isUser
    let w ← xM a
    trapIf (Word.bits w 63 32 != 0) causeAccess w
    updS (fun s => s.updMyCore (fun c => c.setBarrier n
      { c.barrier n with expect := w.setWidth 32, armed := true, err := 0 }))) s

/-- Every later access of the thread sets of a core follows every event so far (R175, R344). -/
def State.edgeCore (s : State) (c k : Nat) : State := (upTo 5).foldl (fun s i => s.edge ⟨c, k, i⟩) s

/-- bwait (R175): it subtracts EXPECT and disarms; every later access of the core follows the credited writes. -/
def execBwait (n : BarIx) (s : State) : Host.Outcome State Fault Refusal :=
  word (do
    let s ← readS id
    privUnless s.isUser
    let b := s.myCore.barrier n
    trapIf (b.err == 2) causePoison (BitVec.ofNat 64 n.toNat)
    trapIf (b.err != 0) causeAccess (BitVec.ofNat 64 n.toNat)
    if b.armed && b.expect ≤ b.credit then
      updS (fun s => (s.updMyCore (fun c => c.setBarrier n { b with credit := b.credit - b.expect, armed := false })).edgeCore s.cur.cluster s.cur.core)
    else boundedWait (.barrier n) (BitVec.ofNat 64 n.toNat)) s

/-- bpoll (R175). -/
def execBpoll (d : XReg) (n : BarIx) (s : State) : Host.Outcome State Fault Refusal :=
  word (do
    let s ← readS id
    privUnless s.isUser
    let b := s.myCore.barrier n
    setXM d (field 0 b.credit.toNat ||| field 32 b.armed.toNat ||| field 33 b.err.toNat)) s

/-! ## The gang barrier -/

/-- A thread set that waits at `bar`. -/
def State.atBar (s : State) (t : TsId) : Bool := (s.thread t).wait.any (fun w => w.what == .bar)

/-- A member of the barrier that holds no other back: it waits there, or has halted (R176). -/
def State.barReady (s : State) (t : TsId) : Bool := s.atBar t || (s.thread t).status == .halted

/-- The waiting members pass the barrier, each with an edge (R344). -/
def State.barRelease (s : State) (ts : List TsId) : State :=
  (ts.filter s.atBar).foldl (fun s t => (s.updThread t Thread.next).edge t) s

/-- The barrier of a run opens when every ranked thread set has issued `bar` or has halted. -/
def State.barCheck (s : State) (x : Run) : State := if x.ranked.all s.barReady then s.barRelease x.ranked else s

/-- bar (R176). -/
def execBar (s : State) : Host.Outcome State Fault Refusal :=
  M.outcome (do
    let s ← readS id
    privUnless s.isGang
    match s.myRun? with
    | some x =>
      if x.ranked.all (fun t => t == s.cur || s.barReady t) then
        updS (fun s => ((s.barRelease (x.ranked.filter (· != s.cur))).advance).edge s.cur)
      else boundedWait .bar 0
    | none => privM) s

end Sys2Proof.Machine
end

