-- ==== Sys2Proof/Machine/Clause.lean ====
section
/-! DEFINITION. The clause instructions (R139 to R161): who may issue them, the holder, and their effects on the cluster's
program clause array. -/
namespace Sys2Proof.Machine

/-- The holder that the issuing thread set acts for: itself in GANG code, else its activation, twins being one (R151). -/
def State.clauseSelf (s : State) : ClauseHolder :=
  match s.me.act with
  | some k => .act { k with twin := 0 }
  | none => .thread s.cur

/-- The cluster whose program clause array a thread set's words name: its own, or in a body that of the activation, which holds
the array with all its helpers wherever they run (R42, R151; DEDUCED, entry 83). -/
def State.clauseHome (s : State) : Nat := (s.myAct?.map (·.cluster)).getD s.cur.cluster

def State.myClause (s : State) : ClauseUnit := (s.cluster s.clauseHome).clause

/-- The contexts that accept clause instructions (R151). -/
def State.clauseContext (s : State) : Bool := s.isGang || (s.isBody && s.myAct?.any (fun a => a.rule.usesClause))

def State.updClause (s : State) (c : Nat) (f : ClauseUnit → ClauseUnit) : State :=
  s.updCluster c (fun u => { u with clause := f u.clause })

/-- The array returns to the free state (R154). -/
def State.freeClause (s : State) (c : Nat) : State :=
  s.updClause c (fun u => { u with holder := none, claimed := false, poisoned := false })

/-- The array is released if the holder is the one given (R152). -/
def State.releaseClause (s : State) (c : Nat) (h : ClauseHolder) : State :=
  if (s.cluster c).clause.holder = some h then s.freeClause c else s

/-- The trap of the holder's next clause instruction after an uncorrectable error (R161). -/
def clausePoisonM : M Unit := do
  let s ← readS id
  if s.myClause.poisoned then
    fun s => .error (.late (s.updClause s.clauseHome (fun u => { u with poisoned := false })) causePoison 0)
  else pure ()

/-- The checks of a clause instruction other than `cclaim`, and the array (R151, R152, R161). The holder of an array that is
reserved and not yet claimed is the reserving activation: an error there meets its `cclaim`, and another word first traps
CLAUSE_BUSY (DESIGN CHOICE, entry 114). -/
def clauseM : M ClauseArray := do
  let s ← readS id
  privUnless s.clauseContext
  let u := s.myClause
  let mine := u.holder == some s.clauseSelf
  trapIf (!(mine && u.claimed)) causeClauseBusy (if u.holder.isSome && !mine then 1 else 0)
  clausePoisonM
  pure u.arr

/-- The array after a clause instruction. -/
def setClauseM (a : ClauseArray) : M Unit := updS (fun s => s.updClause s.clauseHome (fun u => { u with arr := a }))

/-- cclaim (R140, R151, R154). -/
def execCclaim (d : XReg) (s : State) : Host.Outcome State Fault Refusal :=
  word (do
    let s ← readS id
    privUnless s.clauseContext
    let u := s.myClause
    trapIf (u.holder.isSome && u.holder != some s.clauseSelf) causeClauseBusy 1
    clausePoisonM
    updS (fun s => s.updClause s.clauseHome (fun _ =>
      { arr := ClauseArray.empty, holder := some s.clauseSelf, claimed := true, poisoned := false }))
    setXM d ClauseArray.capacity) s

/-- cfree (R154). -/
def execCfree (s : State) : Host.Outcome State Fault Refusal :=
  word (do
    let _ ← clauseM
    updS (fun s => s.freeClause s.clauseHome)) s

/-- cload (R141, R155). -/
def execCload (a : XReg) (b : VReg) (s : State) : Host.Outcome State Fault Refusal :=
  word (do
    let arr ← clauseM
    let n ← xM a
    let v ← vM b
    trapIf (511 < n.toNat) causeAccess n
    setClauseM (arr.load n.toNat v)) s

/-- cdrop (R155). The TVAL of its ACCESS trap is xA, as R141 has it for `cload`; R153 gives none (DESIGN CHOICE, entry 113). -/
def execCdrop (a : XReg) (s : State) : Host.Outcome State Fault Refusal :=
  word (do
    let arr ← clauseM
    let n ← xM a
    trapIf (511 < n.toNat) causeAccess n
    setClauseM (arr.drop n.toNat)) s

/-- cdec (R144, R156). -/
def execCdec (a : XReg) (s : State) : Host.Outcome State Fault Refusal :=
  word (do
    let arr ← clauseM
    let w ← xM a
    let row := Word.bits w 6 0
    trapIf (arr.val row).isSome causeAccess (0x0200000000000000 ||| field 0 (Word.bits w 8 0))
    trapIf arr.conf.isSome causeAccess (0x0300000000000000 ||| field 0 (Word.bits w 8 0))
    setClauseM (arr.decide row (!Word.bit w 8))) s

/-- cprop (R142, R143, R157). -/
def execCprop (d : XReg) (s : State) : Host.Outcome State Fault Refusal :=
  word (do
    let arr ← clauseM
    setClauseM arr.prop.1
    setXM d arr.prop.2) s

/-- cback (R147, R158). -/
def execCback (a : XReg) (s : State) : Host.Outcome State Fault Refusal :=
  word (do
    let arr ← clauseM
    let w ← xM a
    setClauseM (arr.back (Word.bits w 7 0))) s

/-- ctrail (R146). -/
def execCtrail (d a : XReg) (s : State) : Host.Outcome State Fault Refusal :=
  word (do
    let arr ← clauseM
    let w ← xM a
    setXM d (arr.trailWord w.toNat)) s

/-- crow (R144). -/
def execCrow (d a : XReg) (s : State) : Host.Outcome State Fault Refusal :=
  word (do
    let arr ← clauseM
    let w ← xM a
    setXM d (arr.rowWord (Word.bits w 6 0))) s

/-- cconf (R145). -/
def execCconf (d : XReg) (s : State) : Host.Outcome State Fault Refusal :=
  word (do
    let arr ← clauseM
    setXM d arr.confWord) s

/-- An uncorrectable error in a program clause array, or in the arbiter instance (R161): the former is reset and its holder
told; the latter discards the round in progress, and a new one begins at once. -/
def State.clauseEcc (s : State) (c : Nat) (arbiter : Bool) : State :=
  if arbiter then s.postOnce (.arbitrationRound c)
  else s.updClause c (fun u => { u with arr := ClauseArray.empty, poisoned := u.holder.isSome })

/-- The ECC failure of a clause array that the input carries (R161). -/
def execClauseArrayEccError (s : State) : Host.Outcome State Fault Refusal :=
  .next (match s.input with
    | .clauseEcc c arb => s.clauseEcc c arb
    | _ => s)

end Sys2Proof.Machine
end

