-- ==== Sys2Proof/Machine/Engine.lean ====
section
/-! DEFINITION. What the copy engine's pipes and the relayout engine do to memory: translation, reads and writes of one
line at a time, and how they fail (R223 to R226, R234, R258, R261). -/
namespace Sys2Proof.Machine

/-- Why an engine's step does not complete: a page fault; a failure, with its cause and address; it must wait; its
activation's store met a full line or set (R38). -/
inductive EngineStop where
  | fault (va : Word) (kind : FaultKind)
  | fail (cause : Nat) (va : Word)
  | busy
  | conflict
  deriving DecidableEq, Repr

abbrev EM := StateT State (Except EngineStop)

/-- For whom an engine works: its pipe, the function, the core whose scratch it reaches, the activation, and the operation's
place in issue order. -/
structure EngineFor where
  pipe : Pipe
  vf : Nat
  core : Option (Nat × Nat)
  act : Option ActKey
  order : Nat
  deriving DecidableEq, Repr

def stopE {α : Type} (e : EngineStop) : EM α := fun _ => .error e
def failIf (c : Bool) (cause : Nat) (va : Word) : EM Unit := if c then stopE (.fail cause va) else pure ()
def stateE : EM State := fun s => .ok (s, s)
def updE (f : State → State) : EM Unit := fun s => .ok ((), f s)

def PhysErr.cause : PhysErr → Nat
  | .homeDown => causeHomeDown
  | .poison => causePoison
  | .access => causeAccess

/-- Where an engine's access goes, after its checks (R206, R226). -/
def engineSpot (e : EngineFor) (va : Word) (need : Need) (kind : FaultKind) : EM Spot := do
  let s ← stateE
  failIf (2 ^ 49 ≤ va.toNat) causeAccess va
  if inScratch va.toNat then
    match e.core with
    | none => stopE (.fail causeAccess va)
    | some (c, k) => do
      failIf ((s.core c k).scratchSize ≤ va.toNat - scratchBase) causeAccess va
      pure (.scratch (va.toNat - scratchBase))
  else
    match s.translate e.pipe e.vf va.toNat with
    | (_, .failed err) => stopE (.fail err.cause va)
    | (_, .missing) => stopE (.fault va kind)
    | (_, .busy) => stopE .busy
    | (s', .page t) => do
      failIf (!t.permits need) causeAccess va
      updE (fun _ => s')
      let pa := t.phys va.toNat
      match s'.place pa with
      | .error err => stopE (.fail err.cause va)
      | .ok p => do
        failIf (p == .dram && s'.homeDown e.vf pa) causeHomeDown va
        pure (.phys p pa)

/-- The pieces of a range that lie in one 256-byte line each. -/
def linePieces : Nat → Nat → Nat → List (Nat × Nat)
  | 0, _, _ => []
  | fuel + 1, va, n =>
    if n = 0 then []
    else
      let k := min n (256 - va % 256)
      (va, k) :: linePieces fuel (va + k) (n - k)

def linesOf (va n : Nat) : List (Nat × Nat) := linePieces (n / 256 + 2) va n

/-- The engine's core. -/
def State.engineCore (s : State) (e : EngineFor) : CoreUnit := (e.core.map (fun c => s.core c.1 c.2)).getD CoreUnit.reset

/-- The bytes at a spot: an activation's own data where they exist (R224). -/
def State.spotBytes (s : State) (e : EngineFor) (p : Spot) (n : Nat) : List Byte :=
  match p with
  | .scratch off => ByteMap.reads (s.engineCore e).scratch off n
  | .sram _ | .region .. => []
  | .phys q pa => overlaid (ownData (e.act.bind s.act?) q) pa (s.placeBytes q pa n)

/-- Whether a read at a spot meets poison that the activation's own data do not cover. -/
def State.spotPoison (s : State) (e : EngineFor) (p : Spot) (n : Nat) : Bool :=
  match p with
  | .scratch off => (s.engineCore e).readsPoison off n (fun _ => true)
  | .phys .dram pa => s.readsPoison (ownData (e.act.bind s.act?) .dram) pa n (fun _ => true)
  | _ => false

/-- The state in which an engine reads n bytes at a spot: their line has its way and its sectors are filled (R184, R185); none
while it has no way, or another engine holds it (R349). -/
def State.pullSpot (s : State) (e : EngineFor) (p : Spot) (n : Nat) : Option State :=
  match p with
  | .phys q pa => if q = .dram ∧ s.lineHeld (pa / 256) then none else s.pullPlace q e.vf pa n false
  | _ => some s

/-- A read of bytes of one line, translated before. -/
def engineReadSpot (e : EngineFor) (va : Word) (p : Spot) (n : Nat) : EM (List Byte) := do
  let s ← stateE
  failIf (s.spotPoison e p n) causePoison va
  match s.pullSpot e p n with
  | none => stopE .busy
  | some s' => do
    updE (fun _ => s')
    pure (s'.spotBytes e p n)

/-- A read of bytes of one line. -/
def engineReadLine (e : EngineFor) (kind : FaultKind) (va : Word) (n : Nat) : EM (List Byte) := do
  let p ← engineSpot e va .r kind
  engineReadSpot e va p n

/-- A read of a range, line by line. -/
def engineReadLines (e : EngineFor) (kind : FaultKind) : List (Nat × Nat) → EM (List Byte)
  | [] => pure []
  | (va, n) :: rest => do
    let bs ← engineReadLine e kind (BitVec.ofNat 64 va) n
    let more ← engineReadLines e kind rest
    pure (bs ++ more)

def engineRead (e : EngineFor) (kind : FaultKind) (va : Word) (n : Nat) : EM (List Byte) :=
  engineReadLines e kind (linesOf va.toNat n)

/-! ## Reads whose lines are all translated first (R223) -/

/-- What stands behind bytes that an engine reads: a piece of a line, at its spot, or a byte of FILL. -/
inductive Piece where
  | mem (va : Word) (p : Spot) (n : Nat)
  | fill (b : Byte)
  deriving DecidableEq, Repr

/-- The translations of the lines of a range. -/
def engineSpots (e : EngineFor) (need : Need) (kind : FaultKind) : List (Nat × Nat) → EM (List (Word × Spot × Nat))
  | [] => pure []
  | (va, n) :: rest => do
    let p ← engineSpot e (BitVec.ofNat 64 va) need kind
    let ps ← engineSpots e need kind rest
    pure ((BitVec.ofNat 64 va, p, n) :: ps)

/-- The bytes of translated pieces. -/
def readPieces (e : EngineFor) : List Piece → EM (List Byte)
  | [] => pure []
  | .mem va p n :: rest => do
    let bs ← engineReadSpot e va p n
    let more ← readPieces e rest
    pure (bs ++ more)
  | .fill b :: rest => do
    let more ← readPieces e rest
    pure (b :: more)

/-! ## Writes -/

/-- Whether an activation's store at an address is tentative (R224). -/
def State.tentativeFor (s : State) (k : ActKey) (va : Word) : Bool :=
  !((s.run? k.run).any (fun x => x.inPrivateRange va.toNat))

/-- A direct store at a spot by an engine. -/
def State.engineStore (s : State) (e : EngineFor) (p : Spot) (bs : List Byte) : Option State :=
  match p with
  | .scratch off =>
    match e.core with
    | some (c, k) =>
      some (s.updCore c k (fun u => u.write off bs))
    | none => some s
  | .sram _ | .region .. => some s
  | .phys q pa => s.storePlace q e.vf pa bs false

/-- The performance of a checked write of bytes that lie in one line (R224): tentative in an activation; in a private
range or in scratch, direct; a second twin's direct store is discarded (R390). An activation's store that finds its set full
meets a conflict (R184). -/
def engineWriteSpot (e : EngineFor) (va : Word) (p : Spot) (bs : List Byte) : EM Unit := do
  let s ← stateE
  match p, e.act with
  | .phys q pa, some k =>
    if q = .dram ∧ s.lineHeld (pa / 256) then stopE .busy
    else if s.tentativeFor k va then
      if q = .dram then
        match s.storeTent k e.vf pa bs [] with
        | none => stopE .conflict
        | some s' => updE (fun _ => s'.streamFor k e.order (storeRecord va bs))
      else updE (fun s =>
        (s.updAct k (fun a => { a with outside := a.outside ++ [(pa, bs)] })).streamFor k e.order (storeRecord va bs))
    else if k.twin = 1 then updE (fun s => s.streamFor k e.order (storeRecord va bs))
    else
      match s.engineStore e p bs with
      | none => stopE .conflict
      | some s' => updE (fun _ => s'.streamFor k e.order (storeRecord va bs))
  | .phys q pa, none =>
    if q = .dram ∧ s.lineHeld (pa / 256) then stopE .busy
    else
      match s.engineStore e p bs with
      | none => stopE .busy
      | some s' => updE (fun _ => s')
  | _, _ =>
    match s.engineStore e p bs with
    | none => stopE .busy
    | some s' => updE (fun _ => s')

/-- The check of FOOT for a segment whose first destination byte is at an address (R39, R224). -/
def engineFoot (e : EngineFor) (first va : Word) (p : Spot) : EM Unit := do
  let s ← stateE
  match p, e.act with
  | .phys _ pa, some k =>
    match s.act? k with
    | some a =>
      failIf (s.tentativeFor k va && !a.footLines.contains (pa / 256) && a.rule.foot ≤ a.footLines.length)
        causeFootprint first
    | none => pure ()
  | _, _ => pure ()

/-- A write of bytes that lie in one line. -/
def engineWrite (e : EngineFor) (kind : FaultKind) (first va : Word) (bs : List Byte) : EM Unit := do
  let p ← engineSpot e va .w kind
  engineFoot e first va p
  engineWriteSpot e va p bs

/-- The pieces of a range's bytes in each line. -/
def writePieces (e : EngineFor) (kind : FaultKind) (first : Word) : List (Nat × Nat) → List Byte → EM Unit
  | [], _ => pure ()
  | (va, n) :: rest, bs => do
    engineWrite e kind first (BitVec.ofNat 64 va) (bs.take n)
    writePieces e kind first rest (bs.drop n)

/-- Bytes written at spots translated before. -/
def writeSpots (e : EngineFor) (first : Word) : List (Word × Spot × Nat) → List Byte → EM Unit
  | [], _ => pure ()
  | (va, p, n) :: rest, bs => do
    engineFoot e first va p
    engineWriteSpot e va p (bs.take n)
    writeSpots e first rest (bs.drop n)

/-! ## Elements through a relaying handle (R235, R247) -/

/-- The code of a block in the byte of its map. -/
def mapCode (b : Byte) (block : Nat) : Nat := b.toNat / 4 ^ (block % 4) % 4

/-- The address of an element for an engine, the old or the new one, as its block stands (R235). -/
def engineElem (e : EngineFor) (kind : FaultKind) (h : HWord) (is : List Nat) : EM Word := do
  let old := h.oldSide.addr h is
  if h.nltag = 0 then pure (BitVec.ofNat 64 old)
  else
    let b := h.block is
    let new := h.newSide.addr h is
    let m ← engineRead e kind (BitVec.ofNat 64 (h.map + b / 4)) 1
    match mapCode (m.headD 0) b with
    | 0 => pure (BitVec.ofNat 64 old)
    | 1 => stopE .busy
    | 2 => pure (BitVec.ofNat 64 new)
    | _ => stopE (.fail causeAccess (BitVec.ofNat 64 h.map))

end Sys2Proof.Machine
end

