-- ==== Sys2Proof/Machine/Handle.lean ====
section
/-! DEFINITION. The handle instructions (R229 to R237, R244 to R252) and the relayout engine (R234). -/
namespace Sys2Proof.Machine

/-- TVAL of BAD_SHAPE (R243). -/
def BadShape.tval (b : BadShape) : Word := field 0 b.sub ||| field 4 b.coord ||| field 6 b.new.toNat

/-- The contexts that accept handle and tile instructions: GANG thread sets, activations and helpers (R229, R248). -/
def userM : M Unit := do
  let s ← readS id
  privUnless s.isUser

/-- The trap of an access through the all-zero record (R244). -/
def liveHandleM (h : HWord) : M Unit := trapIf (h == 0) causeBadShape 1

/-- A coordinate operand of an element access (R251). -/
def coordsM (h : HWord) (w : Word) : M (List Nat) := do
  liveHandleM h
  trapIf (!h.coordsOk (unpackCoords w)) causeAccess w
  pure (unpackCoords w)

/-- The byte of a map at its home, or the reader's own: never a leased copy, since the entry is read and the access made as
one event (R235). -/
def mapByteM (va : Word) : M Byte := do
  let p ← checkM .load va 1 []
  let s ← readS id
  match p with
  | .phys q pa => do
    holdIf (s.amoOpen s.cur || q == .dram && s.lineHeld (pa / 256))
    match s.pullPlace q (s.vfOf s.cur) pa 1 false with
    | none => holdM
    | some s' => do
      updS (fun _ => s'.advanceTime s'.cur (s'.wtime (pa / 256)))
      pure ((overlaid (ownData s.myAct? q) pa (s'.placeBytes q pa 1)).headD 0)
  | _ => do
    let bs ← loadSpot p 1 .none
    pure (bs.headD 0)

/-- The address of an element: the old or the new one, as its block's map entry says (R235). -/
def elemM (h : HWord) (is : List Nat) : M Word := do
  if h.nltag = 0 then pure (BitVec.ofNat 64 (h.oldSide.addr h is))
  else do
    let b := h.block is
    let m ← mapByteM (BitVec.ofNat 64 (h.map + b / 4))
    match mapCode m b with
    | 0 => pure (BitVec.ofNat 64 (h.oldSide.addr h is))
    | 1 => holdM
    | 2 => pure (BitVec.ofNat 64 (h.newSide.addr h is))
    | _ => trapM causeAccess (BitVec.ofNat 64 h.map)

/-! ## Records -/

/-- R242 applied to a record that fills a register (R249). -/
def fillHandleM (d : HReg) (h : HWord) : M Unit :=
  match h.validate with
  | some b => trapM causeBadShape b.tval
  | none => setHM d h

/-- hmake (R249). -/
def execHmake (d : HReg) (a b : VReg) (s : State) : Host.Outcome State Fault Refusal :=
  word (do
    userM
    let lo ← vM a
    let hi ← vM b
    fillHandleM d (hi ++ lo)) s

/-- hld (R245, R249): one load, in no wait class. -/
def execHld (d : HReg) (a : XReg) (s : State) : Host.Outcome State Fault Refusal :=
  word (do
    userM
    let va ← xM a
    let p ← checkM .load va 128 []
    let bs ← loadSpot p 128 .none
    fillHandleM d (BitVec.ofNat 1024 (leNat bs))) s

/-- hst (R245, R249). -/
def execHst (d : HReg) (a : XReg) (s : State) : Host.Outcome State Fault Refusal :=
  word (do
    userM
    let va ← xM a
    let h ← hM d
    storeM va (leBytes 128 h.toNat) .none) s

/-- The value of a selector (R250). -/
def HWord.query (h : HWord) (sel : Nat) : Nat :=
  if sel < 16 then h.fld (64 * sel) 64
  else if h = 0 then 0
  else if sel = 16 then h.esize
  else if sel = 17 then (h.oldSide.span h).2 - (h.oldSide.span h).1
  else (upTo h.rank).foldl (fun acc k => acc * h.ext k) 1

/-- hq (R250). -/
def execHq (d : XReg) (a : HReg) (sel : BitVec 5) (s : State) : Host.Outcome State Fault Refusal :=
  word (do
    userM
    let h ← hM a
    setXM d (BitVec.ofNat 64 (HWord.query h sel.toNat))) s

/-! ## relay and hwait -/

/-- The operand checks of `relay`, and the TVAL of the first that fails (R232). -/
def relayCheck (a b : HWord) : Option Word :=
  let (alo, ahi) := a.oldSide.span a
  let (blo, bhi) := b.oldSide.span b
  if a.nltag ≠ 0 then some 1
  else if a.map = 0 ∨ a.map % 8 ≠ 0 ∨ inScratch a.map then some 2
  else if a.etype ≠ b.etype ∨ a.rank ≠ b.rank ∨ (upTo 4).any (fun k => a.ext k != b.ext k) then some 3
  else if alo < bhi ∧ blo < ahi then some 4
  else if (upTo 4).map b.stride ≠ denseStrides b (LTag.of b.ltag) then some 5
  else none

/-- The checks of a store over a range, line by line. -/
def storeSpotsM : List (Nat × Nat) → M (List (Word × Spot × Nat))
  | [] => pure []
  | (va, n) :: rest => do
    let p ← checkM .store (BitVec.ofNat 64 va) 1 []
    let ps ← storeSpotsM rest
    pure ((BitVec.ofNat 64 va, p, n) :: ps)

/-- Zero bytes stored over checked lines. -/
def storeZerosM : List (Word × Spot × Nat) → M Unit
  | [] => pure ()
  | (va, p, n) :: rest => do
    storeSpot p va (List.replicate n 0) .none
    storeZerosM rest

/-- A relayout given to the engine of a cluster; an earlier one of the same map in the run gives way (R236, R237). -/
def State.startRelayout (s : State) (c : Nat) (r : Relayout) : State :=
  let cs := ((s.run? r.run).map Run.clusters).getD [c]
  let s := cs.foldl (fun s c => s.updCluster c (fun u =>
    { u with relayouts := u.relayouts.filter (fun q => !(q.map == r.map && q.run == r.run)) })) s
  (s.updCluster c (fun u => { u with relayouts := u.relayouts ++ [r] })).postOnce (.relayoutBlock c r.map)

/-- relay (R232). -/
def execRelay (a b : HReg) (s : State) : Host.Outcome State Fault Refusal :=
  word (do
    let s ← readS id
    privUnless s.isGang
    let ha ← hM a
    let hb ← hM b
    match relayCheck ha hb with
    | some v => trapM causeAccess v
    | none => do
      let h := (ha.setFld 64 64 hb.base).setFld 160 16 hb.ltag
      let ps ← storeSpotsM (linesOf h.map (ceilDiv h.blocks 4))
      storeZerosM ps
      setHM a h
      updS (fun s => s.startRelayout s.cur.cluster
        { map := BitVec.ofNat 64 h.map, run := s.me.run.getD 0, hrec := h, block := 0, moving := none, state := .running,
          suspended := false })) s

/-- The relayout of a map in the issuing thread set's run. -/
def State.findRelayout (s : State) (map : Nat) : Option Relayout :=
  s.myRun?.bind (fun x => (x.clusters.flatMap (fun c => (s.cluster c).relayouts)).find?
    (fun r => r.map.toNat == map && some r.run == s.me.run))

/-- The record after its relayout has completed (R236). -/
def HWord.settled (h : HWord) : HWord :=
  let st := h.newSide.strides
  let h' := (h.setFld 0 64 h.nbase).setFld 144 16 h.nltag
  (((((h'.setFld 384 64 (st.getD 0 0)).setFld 448 64 (st.getD 1 0)).setFld 512 64 (st.getD 2 0)).setFld 576 64
    (st.getD 3 0)).setFld 64 64 0).setFld 160 16 0

/-- hwait (R236). -/
def execHwait (a : HReg) (s : State) : Host.Outcome State Fault Refusal :=
  word (do
    userM
    let h ← hM a
    if h.nltag = 0 then pure ()
    else do
      let s ← readS id
      match s.findRelayout h.map with
      | none => trapM causeAccess (BitVec.ofNat 64 h.map)
      | some r =>
        match r.state with
        | .running => holdM
        | .failed va => trapM causeAccess va
        | .complete => do
          setHM a (HWord.settled h)
          updS (fun s => s.edge s.cur)) s

/-! ## Element and vector accesses -/

/-- ldh (R231, R251). -/
def execLdh (d : XReg) (a : HReg) (b : XReg) (s : State) : Host.Outcome State Fault Refusal :=
  word (do
    userM
    let h ← hM a
    let w ← xM b
    let is ← coordsM h w
    if h.inside is then do
      let va ← elemM h is
      let bs ← loadM va h.esize .none
      setXM d (BitVec.ofNat 64 (leNat bs))
    else setXM d (BitVec.ofNat 64 h.fill)) s

/-- sth (R231, R251). -/
def execSth (d : XReg) (a : HReg) (b : XReg) (s : State) : Host.Outcome State Fault Refusal :=
  word (do
    userM
    let h ← hM a
    let w ← xM b
    let v ← xM d
    let is ← coordsM h w
    if h.inside is then do
      let va ← elemM h is
      storeM va (leBytes h.esize v.toNat) .none
    else pure ()) s

/-- The coordinates of element j of a vector access (R252). -/
def laneCoords (is : List Nat) (j : Nat) : List Nat := [coord is 0 + j, coord is 1, coord is 2, coord is 3]

/-- The enabled, inside elements of a vector access, ascending. -/
def vecElems (h : HWord) (is : List Nat) (p : Word) : List Nat :=
  (upTo (64 / h.esize)).filter (fun j => laneOn p h.esize j && h.inside (laneCoords is j))

/-- The addresses of the elements. -/
def elemsM (h : HWord) (is : List Nat) : List Nat → M (List (Nat × Word))
  | [] => pure []
  | j :: js => do
    let va ← elemM h (laneCoords is j)
    let rest ← elemsM h is js
    pure ((j, va) :: rest)

/-- The loads of lanes, those of one line as one event (R247, R252); at most `fuel` events. -/
def loadEvents (n : Nat) : Nat → List (Nat × Word × Spot) → M (List (Nat × Nat))
  | 0, _ => pure []
  | _, [] => pure []
  | fuel + 1, (j, va, p) :: rest =>
    match p with
    | .phys q pa => do
      let same (x : Nat × Word × Spot) : Bool := match x.2.2 with
        | .phys q' pa' => q' == q && pa' / 256 == pa / 256
        | _ => false
      let here := ((j, va, p) :: rest).filter same
      let off (x : Nat × Word × Spot) : Nat := match x.2.2 with
        | .phys _ a => a % 256
        | _ => 0
      let s ← readS id
      holdIf (s.amoOpen s.cur)
      match s.loadLine s.cur q (pa / 256) (here.map (fun x => (off x, n))) .none with
      | none => holdM
      | some (s', read) => do
        updS (fun _ => s')
        let own := ownData s.myAct? q
        let vs := here.map (fun x => (x.1, leNat (overlaid own (pa / 256 * 256 + off x) (read (off x) n))))
        let more ← loadEvents n fuel (rest.filter (fun x => !same x))
        pure (vs ++ more)
    | _ => do
      let bs ← loadSpot p n .none
      let more ← loadEvents n fuel rest
      pure ((j, leNat bs) :: more)

/-- vldh (R252). -/
def execVldh (o : VHandleOp) (s : State) : Host.Outcome State Fault Refusal :=
  word (do
    userM
    let h ← hM o.a
    let w ← xM o.b
    let p ← pM o.p
    let is ← coordsM h w
    let n := h.esize
    let es ← elemsM h is (vecElems h is p)
    let ps ← checkLanes .load n es []
    enterLoad (ps.map (·.2.2))
    let vs ← loadEvents n ps.length ps
    setVM o.d (VWord.ofLanes n ((upTo (64 / n)).map (fun j =>
      if laneOn p n j then ((vs.find? (fun v => v.1 == j)).map (·.2)).getD h.fill else 0)))) s

/-- vsth (R252). -/
def execVsth (o : VHandleOp) (s : State) : Host.Outcome State Fault Refusal :=
  word (do
    userM
    let h ← hM o.a
    let w ← xM o.b
    let p ← pM o.p
    let v ← vM o.d
    let is ← coordsM h w
    let n := h.esize
    let es ← elemsM h is (vecElems h is p)
    let ps ← checkLanes .store n es []
    enterStore (ps.map (·.2.2)) (ps.any (·.2.2.isRemote))
    storeLanes n .none v ps) s

/-! ## The relayout engine (R234) -/

/-- The physical address of a spot. -/
def Spot.pa : Spot → Nat
  | .phys _ pa => pa
  | .scratch _ | .sram _ | .region .. => 0

/-- The translations of a block's units, each with its source address: sources need R, destinations W. -/
def relayPlan (e : EngineFor) (h : HWord) : List (Nat × Option (List Nat)) → EM (List (Word × RelayUnit))
  | [] => pure []
  | (off, is) :: rest => do
    let from_ := (is.map (fun is => h.oldSide.addr h is)).getD 0
    let src ← (match is with
      | some _ => engineSpots e .r .relayRead (linesOf from_ h.esize)
      | none => pure [])
    let dst ← engineSpots e .w .relayWrite (linesOf ((h.nbase + off) % 2 ^ 64) h.esize)
    let more ← relayPlan e h rest
    let ranges (ps : List (Word × Spot × Nat)) : List (Nat × Nat) := ps.map (fun p => (p.2.1.pa, p.2.2))
    pure ((BitVec.ofNat 64 from_, { src := ranges src, fill := leBytes h.esize h.fill, dst := ranges dst }) :: more)

/-- A byte of a map with the entry of a block set. -/
def mapWith (m : Byte) (block code : Nat) : Byte :=
  BitVec.ofNat 8 (m.toNat - mapCode m block * 4 ^ (block % 4) + code * 4 ^ (block % 4))

/-- Whether a unit's source is poisoned, or cannot be read. -/
def State.unitBad (s : State) (vf : Nat) (u : RelayUnit) : Bool :=
  u.src.any (fun r => match s.physRead vf r.1 r.2 with
    | .ok _ => false
    | .error _ => true)

/-- Steps 1 to 3 of R234: the block's pages are translated, no line of its old storage carries tentative data, none of its
lines is held, and its map entry becomes MOVING. -/
def relayStart (e : EngineFor) (h : HWord) (b : Nat) : EM MovingBlock := do
  let units ← relayPlan e h (h.unitsOfBlock b)
  let mapVa := BitVec.ofNat 64 (h.map + b / 4)
  let mp ← engineSpot e mapVa .w .relayWrite
  let s ← stateE
  let block : MovingBlock := { mapAt := mp.pa, units := units.map (·.2) }
  let tentative := s.acts.flatMap (fun a => a.2.lines)
  if units.any (fun u => (u.2.src.flatMap rangeLines).any tentative.contains) || block.lines.any s.lineHeld then stopE .busy
  else pure ()
  match units.find? (fun u => s.unitBad e.vf u.2) with
  | some u => stopE (.fail causePoison u.1)
  | none => pure ()
  engineWriteSpot e mapVa mp [mapWith ((s.spotBytes e mp 1).headD 0) b 1]
  pure block

/-- The bytes of a unit, read at their home. A block that holds its lines waits for no way (entry 105). -/
def State.unitBytes (s : State) (vf : Nat) (u : RelayUnit) : State × List Byte :=
  if u.src.isEmpty then (s, u.fill)
  else u.src.foldl (fun x r =>
    match x.1.place r.1 with
    | .ok q =>
      let s := if q = Place.dram then x.1.pullNow vf r.1 r.2 else x.1
      (s, x.2 ++ s.placeBytes q r.1 r.2)
    | .error _ => x) (s, [])

/-- Bytes stored over physical ranges. -/
def State.rangeStores (s : State) (vf : Nat) : List (Nat × Nat) → List Byte → State
  | [], _ => s
  | (pa, n) :: rest, bs =>
    let s := match s.place pa with
      | .ok q => if q = Place.dram ∧ s.homeDown vf pa then s else s.storePlaceNow q vf pa (bs.take n)
      | .error _ => s
    s.rangeStores vf rest (bs.drop n)

/-- Step 4 of R234: every unit of a block copied. -/
def State.moveUnits (s : State) (vf : Nat) : List RelayUnit → State
  | [] => s
  | u :: rest =>
    let (s, bs) := s.unitBytes vf u
    (s.rangeStores vf u.dst bs).moveUnits vf rest

/-- The entry of a block in its map set, at its physical address. -/
def State.setMapEntry (s : State) (vf mapAt block code : Nat) : State :=
  match s.place mapAt with
  | .ok q => s.storePlaceNow q vf mapAt [mapWith ((s.placeBytes q mapAt 1).headD 0) block code]
  | .error _ => s

/-- Whether another engine holds the line of a block's map entry (R349). -/
def State.mapHeld (s : State) (b : MovingBlock) : Bool :=
  b.mapAt < 2 ^ 39 && !b.lines.contains (b.mapAt / 256) && s.lineHeld (b.mapAt / 256)

/-- Steps 4 and 5 of R234: the block is copied and becomes NEW. A source that has become unreadable fails it, and it is OLD
again. None while its map entry must be waited for. -/
def State.relayFinish (s : State) (vf : Nat) (b : MovingBlock) (block : Nat) : Option (State × Bool) :=
  if s.mapHeld b then none
  else if b.units.any (s.unitBad vf) then some (s.setMapEntry vf b.mapAt block 0, false)
  else some ((s.moveUnits vf b.units).setMapEntry vf b.mapAt block 2, true)

def State.updRelayout (s : State) (c : Nat) (map : Word) (f : Relayout → Relayout) : State :=
  s.updCluster c (fun u => { u with relayouts := u.relayouts.map (fun r => if r.map = map then f r else r) })

/-- The engine of a relayout. -/
def relayEngine (c vf : Nat) : EngineFor := ⟨.relay c, vf, none, none, 0⟩

/-- The source address of the first unit of a block that cannot be read. -/
def State.badUnit (s : State) (vf : Nat) (h : HWord) (block : Nat) (b : MovingBlock) : Word :=
  match ((h.unitsOfBlock block).zip b.units).find? (fun u => s.unitBad vf u.2) with
  | some ((_, some is), _) => BitVec.ofNat 64 (h.oldSide.addr h is)
  | _ => 0

/-- A block at MOVING is converted. -/
def State.relayMoving (s : State) (c vf : Nat) (map : Word) (r : Relayout) (b : MovingBlock) : State :=
  match s.relayFinish vf b r.block with
  | none => s.postOnce (.relayoutBlock c map)
  | some (t, false) => t.updRelayout c map (fun q => { q with moving := none, state := .failed (s.badUnit vf r.hrec r.block b) })
  | some (t, true) =>
    if r.block + 1 < HWord.blocks r.hrec then
      (t.updRelayout c map (fun q => { q with moving := none, block := q.block + 1 })).postOnce (.relayoutBlock c map)
    else t.updRelayout c map (fun q => { q with moving := none, block := q.block + 1, state := .complete })

/-- The next step of a running relayout (R234): a block becomes MOVING, and then NEW. A run that stops for pre-emption holds
its engine after the current block (R381). -/
def execRelayoutBlock (c : Nat) (map : Word) (s : State) : Host.Outcome State Fault Refusal :=
  .next (match (s.cluster c).relayouts.find? (fun r => r.map == map) with
    | none => s
    | some r =>
      match s.run? r.run with
      | none => s
      | some x =>
        if r.state ≠ .running ∨ r.suspended then s
        else match r.moving with
        | some b => s.relayMoving c x.vf map r b
        | none =>
          if x.phase ≠ .running ∧ x.phase ≠ .stopping then s
          else match relayStart (relayEngine c x.vf) r.hrec r.block s with
          | .ok (b, s) => (s.updRelayout c map (fun r => { r with moving := some b })).postOnce (.relayoutBlock c map)
          | .error (.fault va kind) =>
            match s.joinMiss c x.vf va kind (.relayout map) with
            | some s => s.updRelayout c map (fun r => { r with suspended := true })
            | none => s.postOnce (.relayoutBlock c map)
          | .error (.fail _ va) => s.updRelayout c map (fun r => { r with state := .failed va })
          | .error _ => s.postOnce (.relayoutBlock c map))

end Sys2Proof.Machine
end

