-- ==== Sys2Proof/Machine/Narrow.lean ====
section
/-! DEFINITION. Narrowing and widening under a FMT pair, for sends and copies (R202, R203). -/
namespace Sys2Proof

/-- The wide and the narrow type of a pair (R202). -/
def Fmt.types : Fmt → ElemType × ElemType
  | .none => (.bytes, .bytes)
  | .f32bf16 => (.fp32, .bf16)
  | .f32e4m3 => (.fp32, .e4m3)
  | .bf16e4m3 => (.bf16, .e4m3)
  | .f32f16 => (.fp32, .fp16)
  | .i32i8 => (.i32, .i8)

/-- An element narrowed (R203): saturating, under RNE, without FTZ. -/
def Fmt.narrow (f : Fmt) (v : Nat) : FRes :=
  let (wide, narrow) := f.types
  match narrow.format with
  | .none => convertInt narrow wide true v
  | .some g =>
    match wide.read false v with
    | .inf s => ⟨g.signBit s + g.maxFinite, Flags.sat ||| Flags.nx⟩
    | x =>
      let r := g.ofVal .rne false x
      if r.flags &&& (Flags.of ||| Flags.sat) = 0 then r
      else ⟨g.signBit x.neg + g.maxFinite, Flags.sat ||| Flags.nx⟩

/-- An element widened: exact, with no flag (R203). -/
def Fmt.widen (f : Fmt) (v : Nat) : Nat :=
  let (wide, narrow) := f.types
  match narrow.format with
  | .none => (convertInt wide narrow false v).bits
  | .some _ => (convert wide narrow .rne false v).bits

/-- Each whole element of a byte string converted, from a size to a size; at most `fuel` elements. -/
def convertBytes (a b : Nat) (f : Nat → FRes) : Nat → List Byte → List Byte × Flags
  | 0, _ => ([], 0)
  | fuel + 1, bs =>
    if bs.length < a ∨ a = 0 then ([], 0)
    else
      let r := f (leNat (bs.take a))
      let (rest, fl) := convertBytes a b f fuel (bs.drop a)
      (leBytes b r.bits ++ rest, r.flags ||| fl)

/-- The narrow elements of wide ones, with the flags. -/
def Fmt.narrowBytes (f : Fmt) (bs : List Byte) : List Byte × Flags :=
  if f = .none then (bs, 0) else convertBytes f.types.1.size f.types.2.size f.narrow bs.length bs

/-- The wide elements of narrow ones. -/
def Fmt.widenBytes (f : Fmt) (bs : List Byte) : List Byte :=
  if f = .none then bs
  else (convertBytes f.types.2.size f.types.1.size (fun v => ⟨f.widen v, 0⟩) bs.length bs).1

/-- The pair with a code (R202); none where it is reserved. -/
def Fmt.ofPair (n : Nat) : Option Fmt :=
  match n with
  | 0 => some .none
  | 1 => some .f32bf16
  | 2 => some .f32e4m3
  | 3 => some .bf16e4m3
  | 4 => some .f32f16
  | 5 => some .i32i8
  | _ => Option.none

end Sys2Proof
end

