-- ==== Sys2Proof/Machine/Copy.lean ====
section
/-! DEFINITION. Copies (R219 to R228): the shadow fields, `cpgo` and its checks, the segments of the copy engine, and the
status of copies. -/
namespace Sys2Proof.Machine

/-! ## The shadow fields (R219, R220) -/

/-- cpset (R220): the value is not checked until `cpgo`. -/
def execCpset (fld : BitVec 3) (a : XReg) (s : State) : Host.Outcome State Fault Refusal :=
  word (do
    userM
    let w ← xM a
    updS (fun s => s.updMe (fun t => { t with shadow := t.shadow.set fld.toNat w fld.isLt }))) s

def Shadow.fld (f : Shadow) (k : Nat) : Word := (f[k]?).getD 0

def Shadow.rowBytes (f : Shadow) : Nat := Word.bits (Shadow.fld f 2) 19 0
def Shadow.rows (f : Shadow) : Nat := Word.bits (Shadow.fld f 2) 51 32
def Shadow.pair (f : Shadow) : Fmt := (Fmt.ofPair (Word.bits (Shadow.fld f 5) 3 0)).getD .none
def Shadow.widens (f : Shadow) : Bool := Word.bit (Shadow.fld f 5) 4
def Shadow.barEn (f : Shadow) : Bool := Word.bit (Shadow.fld f 6) 4
def Shadow.barn (f : Shadow) : BarIx := BitVec.ofNat 4 (Word.bits (Shadow.fld f 6) 3 0)
def Shadow.handleEn (f : Shadow) : Bool := Word.bit (Shadow.fld f 7) 4
def Shadow.handleDst (f : Shadow) : Bool := Word.bit (Shadow.fld f 7) 5
def Shadow.hreg (f : Shadow) : HReg := BitVec.ofNat 4 (Word.bits (Shadow.fld f 7) 3 0)

/-- The sizes of a source and of a destination element under the pair; 1 and 1 without one. -/
def Shadow.sizes (f : Shadow) : Nat × Nat :=
  if Shadow.pair f = .none then (1, 1)
  else
    let (w, n) := ((Shadow.pair f).types.1.size, (Shadow.pair f).types.2.size)
    if Shadow.widens f then (n, w) else (w, n)

/-- The bytes of a destination row. -/
def Shadow.dstBytes (f : Shadow) : Nat := Shadow.rowBytes f / (Shadow.sizes f).1 * (Shadow.sizes f).2

/-- Check 1 of R221: the first field with a reserved bit, a reserved pair, or a direction without a pair. -/
def Shadow.reserved (f : Shadow) : Option Nat :=
  let shape := Shadow.fld f 2
  let fmt := Shadow.fld f 5
  if Word.bits shape 31 20 ≠ 0 ∨ Word.bits shape 63 52 ≠ 0 then some 2
  else if Word.bits fmt 63 5 ≠ 0 ∨ (Fmt.ofPair (Word.bits fmt 3 0)).isNone ∨
      (Shadow.widens f ∧ Word.bits fmt 3 0 = 0) then some 5
  else if Word.bits (Shadow.fld f 6) 63 5 ≠ 0 then some 6
  else if Word.bits (Shadow.fld f 7) 63 6 ≠ 0 then some 7
  else none

/-! ## The two sides of a copy -/

/-- A side: a base and a step between rows; or an origin in a handle's tensor, whose bytes run along coordinate 0 (R219), with
the number of rows along coordinate 1 and along coordinate 2 (R258). With none, all rows run along coordinate 1. -/
structure CopySide where
  base : Word
  step : Word
  origin : List Nat
  dims : Nat × Nat
  hrec : Option HWord
  bytes : Nat
  deriving DecidableEq, Repr

def copySrc (f : Shadow) (h : HWord) : CopySide :=
  ⟨Shadow.fld f 0, Shadow.fld f 3, unpackCoords (Shadow.fld f 0), (0, 0),
    if Shadow.handleEn f && !Shadow.handleDst f then some h else none, Shadow.rowBytes f⟩

def copyDst (f : Shadow) (h : HWord) : CopySide :=
  ⟨Shadow.fld f 1, Shadow.fld f 4, unpackCoords (Shadow.fld f 1), (0, 0),
    if Shadow.handleEn f && Shadow.handleDst f then some h else none, Shadow.dstBytes f⟩

/-- The address of byte x of row r of a side without a handle. -/
def CopySide.plain (c : CopySide) (r x : Nat) : Word := c.base + c.step * BitVec.ofNat 64 r + BitVec.ofNat 64 x

/-- The coordinates of the element that holds byte x of row r. -/
def CopySide.coords (c : CopySide) (h : HWord) (r x : Nat) : List Nat :=
  let (m, n) := c.dims
  [coord c.origin 0 + x / h.esize, coord c.origin 1 + r % m, coord c.origin 2 + r / m % n, coord c.origin 3 + r / (m * n)]

/-- The address of byte x of row r for an engine; none where its element lies outside the tensor (R246). Checks 1 and 2 of
R206 are made for an inside element. -/
def sideByte (e : EngineFor) (kind : FaultKind) (c : CopySide) (r x : Nat) : EM (Option Word) := do
  match c.hrec with
  | none => pure (some (c.plain r x))
  | some h =>
    let is := c.coords h r x
    if h.inside is then do
      let a ← engineElem e kind h is
      failIf (2 ^ 49 ≤ a.toNat) causeAccess a
      failIf (a.toNat % h.esize != 0) causeMisalign a
      pure (some (a + BitVec.ofNat 64 (x % h.esize)))
    else pure none

/-- The pieces behind bytes x to x + n − 1 of row r of a side with a handle, byte by byte; outside elements give FILL (R246). -/
def planBytes (e : EngineFor) (kind : FaultKind) (c : CopySide) (h : HWord) (r : Nat) : Nat → Nat → EM (List Piece)
  | _, 0 => pure []
  | x, n + 1 => do
    let b ← (do
      match ← sideByte e kind c r x with
      | some va => do
        let p ← engineSpot e va .r kind
        pure (Piece.mem va p 1)
      | none => pure (.fill (h.fillByte x)))
    let more ← planBytes e kind c h r (x + 1) n
    pure (b :: more)

/-- The pieces behind the bytes of a row, all translated before any is read (R223). -/
def planSide (e : EngineFor) (kind : FaultKind) (c : CopySide) (r x n : Nat) : EM (List Piece) :=
  match c.hrec with
  | none => do
    let ps ← engineSpots e .r kind (linesOf (c.plain r x).toNat n)
    pure (ps.map (fun p => Piece.mem p.1 p.2.1 p.2.2))
  | some h => planBytes e kind c h r x n

/-- The addresses of bytes x to x + n − 1 of row r; none for an outside one. -/
def sideAddrs (e : EngineFor) (kind : FaultKind) (c : CopySide) (r : Nat) : Nat → Nat → EM (List (Option Word))
  | _, 0 => pure []
  | x, n + 1 => do
    let a ← sideByte e kind c r x
    let more ← sideAddrs e kind c r (x + 1) n
    pure (a :: more)

/-! ## Stretches of rows, and the lines of a relaying side (R247)

A stretch is a row, its first byte and how many. -/

/-- The pieces behind stretches. -/
def planParts (e : EngineFor) (kind : FaultKind) (c : CopySide) : List (Nat × Nat × Nat) → EM (List Piece)
  | [] => pure []
  | (r, x, n) :: rest => do
    let ps ← planSide e kind c r x n
    let more ← planParts e kind c rest
    pure (ps ++ more)

/-- The addresses of stretches, byte by byte. -/
def partAddrs (e : EngineFor) (kind : FaultKind) (c : CopySide) : List (Nat × Nat × Nat) → EM (List (Option Word))
  | [] => pure []
  | (r, x, n) :: rest => do
    let as ← sideAddrs e kind c r x n
    let more ← partAddrs e kind c rest
    pure (as ++ more)

/-- The place of each byte of stretches: its row and its place there. -/
def partPlaces (ps : List (Nat × Nat × Nat)) : List (Nat × Nat) := ps.flatMap (fun p => (upTo p.2.2).map (fun i => (p.1, p.2.1 + i)))

/-- Whether the handle of a side is under a relayout. -/
def CopySide.relays (c : CopySide) : Bool := c.hrec.any (fun h => h.nltag != 0)

/-- The line of byte x of row r: of its address; under a relayout that of its new address, with its block (R247); none for an
outside one. -/
def CopySide.lineOf (c : CopySide) (r x : Nat) : Option (Nat × Nat) :=
  match c.hrec with
  | none => some (0, (c.plain r x).toNat / 256)
  | some h =>
    let is := c.coords h r x
    if !h.inside is then none
    else if h.nltag = 0 then some (0, h.oldSide.addr h is / 256)
    else some (h.block is, h.newSide.addr h is / 256)

/-- Runs of consecutive numbers. -/
def runsOf : List Nat → List (Nat × Nat)
  | [] => []
  | x :: rest =>
    match runsOf rest with
    | (y, n) :: more => if y = x + 1 then (x, n + 1) :: more else (x, 1) :: (y, n) :: more
    | [] => [(x, 1)]

/-- The bytes of rows that stand in one line. -/
def CopySide.stretches (c : CopySide) (rows : List Nat) (l : Nat × Nat) : List (Nat × Nat × Nat) :=
  rows.flatMap (fun r => (runsOf ((upTo c.bytes).filter (fun x => c.lineOf r x == some l))).map (fun q => (r, q.1, q.2)))

/-- How many of the bytes, from the first on, lie in one line; outside bytes, and those of lines already written, are passed
with the run they stand in (R223, R246). -/
def blockRun (done : List (Nat × Nat)) : Option (Nat × Nat) → List (Option (Nat × Nat)) → Nat
  | _, [] => 0
  | line, none :: rest => 1 + blockRun done line rest
  | line, some a :: rest =>
    if done.contains a then 1 + blockRun done line rest
    else match line with
      | none => 1 + blockRun done (some a) rest
      | some b => if a = b then 1 + blockRun done line rest else 0

/-- A segment as its side cuts it: the bytes of the current row that it passes, the stretches that are one event, how many bytes
that counts, outside ones included, and the line of a relaying side that it completes. -/
structure Segment where
  passed : Nat
  parts : List (Nat × Nat × Nat)
  bytes : Nat
  line : Option (Nat × Nat)
  deriving DecidableEq, Repr

/-- The segment that begins at byte x of row r: the run of the row's bytes in one line (R223); through a relaying handle every
byte of that line in the rows that remain, since its elements are one event (R247; DEDUCED, entry 100). -/
def CopySide.segment (c : CopySide) (done : List (Nat × Nat)) (rows : List Nat) (r x : Nat) : Segment :=
  let ls := (upTo (min 256 (c.bytes - x))).map (fun i => c.lineOf r (x + i))
  let n := blockRun (if c.relays then done else []) none ls
  if c.relays then
    let l := ((ls.take n).filterMap id).find? (fun l => !done.contains l)
    let parts := (l.map (c.stretches rows)).getD []
    ⟨n, parts, (partPlaces parts).length + ((ls.take n).filter Option.isNone).length, l⟩
  else ⟨n, [(r, x, n)], n, none⟩

/-- What is read for stretches of a source: those bytes; through a relaying handle, what the remaining rows hold of each line
behind them that has not been read, which is one event (R247). -/
def CopySide.reads (c : CopySide) (kept : List ((Nat × Nat) × Byte)) (rows : List Nat) (parts : List (Nat × Nat × Nat)) :
    List (Nat × Nat × Nat) :=
  if c.relays then
    let wanted := (partPlaces parts).filter (fun q => !kept.any (fun b => b.1 == q))
    ((wanted.filterMap (fun q => c.lineOf q.1 q.2)).eraseDups).flatMap (c.stretches rows)
  else parts

/-- The bytes read through a relaying handle, by their places; none to keep without one. -/
def CopySide.keep (c : CopySide) (parts : List (Nat × Nat × Nat)) (raw : List Byte) : List ((Nat × Nat) × Byte) :=
  if c.relays then (partPlaces parts).zip raw else []

/-- The bytes of stretches of a source: those read; through a relaying handle those kept, FILL where they are outside. -/
def CopySide.taken (c : CopySide) (kept : List ((Nat × Nat) × Byte)) (parts : List (Nat × Nat × Nat)) (raw : List Byte) :
    List Byte :=
  if c.relays then (partPlaces parts).map (fun q =>
    ((kept.find? (fun b => b.1 == q)).map (·.2)).getD ((c.hrec.map (fun h => h.fillByte q.2)).getD 0))
  else raw

/-- The inside bytes of a segment, as runs of consecutive addresses. -/
def addrRuns : List (Option Word × Byte) → List (Word × List Byte)
  | [] => []
  | (none, _) :: rest => addrRuns rest
  | (some a, b) :: rest =>
    match addrRuns rest with
    | (a', bs) :: more => if a' = a + 1 then (a, b :: bs) :: more else (a, [b]) :: (a', bs) :: more
    | [] => [(a, [b])]

/-- The destination of a segment: its runs cut at the ends of lines and translated. -/
def targetRuns (e : EngineFor) (kind : FaultKind) : List (Word × Nat) → EM (List (Word × Spot × Nat))
  | [] => pure []
  | (a, n) :: rest => do
    let ps ← engineSpots e .w kind (linesOf a.toNat n)
    let more ← targetRuns e kind rest
    pure (ps ++ more)

/-! ## cpgo (R221) -/

/-- Check 5 of R221: a first or last byte that fails check 1 or 3 of R206. -/
def badByte (scratch : Nat) (a : Word) : Bool :=
  2 ^ 49 ≤ a.toNat || (inScratch a.toNat && scratch ≤ a.toNat - scratchBase)

/-- The address at issue of a byte of a row; none where its element lies outside. The map of a relaying handle is not read
at issue: the old address stands for its elements (DESIGN CHOICE, entry 80). -/
def CopySide.issueByte (c : CopySide) (r x : Nat) : Option Word :=
  match c.hrec with
  | none => some (c.plain r x)
  | some h =>
    let is := c.coords h r x
    if h.inside is then some (BitVec.ofNat 64 (h.oldSide.addr h is) + BitVec.ofNat 64 (x % h.esize)) else none

/-- The first such byte of a row of a side. -/
def CopySide.badRow (c : CopySide) (scratch r : Nat) : Option Word :=
  if c.bytes = 0 then none
  else ((c.issueByte r 0).filter (badByte scratch)).or ((c.issueByte r (c.bytes - 1)).filter (badByte scratch))

/-- The status of a thread set's copy set, among its 64 most recent (R222). -/
def copyNote (st : CopyStat) (l : List CopyStat) : List CopyStat :=
  let l := l.filter (fun q => q.id != st.id) ++ [st]
  l.drop (l.length - 64)

/-- The counter of copies after one more (R222). -/
def nextCopyId (n : BitVec 16) : BitVec 16 := if n = 0xFFFF then 1 else n + 1

/-- Check 4 of R221: the record of the handle side. -/
def handleSideM (f : Shadow) : M HWord := do
  if Shadow.handleEn f then do
    let h ← hM (Shadow.hreg f)
    liveHandleM h
    match h.validate with
    | some b => trapM causeBadShape b.tval
    | none => pure h
  else pure 0

/-- cpgo (R221). -/
def execCpgo (d : XReg) (s : State) : Host.Outcome State Fault Refusal :=
  word (do
    userM
    let me ← readS State.me
    let f := me.shadow
    match Shadow.reserved f with
    | some k => trapM causeAccess (BitVec.ofNat 64 k)
    | none => pure ()
    trapIf (2 ^ 32 ≤ Shadow.rows f * Shadow.rowBytes f) causeAccess 2
    trapIf (Shadow.rowBytes f % (Shadow.sizes f).1 != 0) causeAccess 5
    let h ← handleSideM f
    let s ← readS id
    let scratch := s.myCore.scratchSize
    let bad := (upTo (Shadow.rows f)).findSome? (fun r =>
      match (copySrc f h).badRow scratch r with
      | some a => some a
      | none => (copyDst f h).badRow scratch r)
    match bad with
    | some a => trapM causeAccess a
    | none => pure ()
    let n := me.nextCopy
    setXM d (n.setWidth 64)
    if Shadow.rows f = 0 ∨ Shadow.rowBytes f = 0 then
      updS (fun s => s.updMe (fun t => { t with nextCopy := nextCopyId n, copies := copyNote ⟨n, 3, 0⟩ t.copies }))
    else do
      enterClass .cp
      let order ← nextOrder
      let op : CopyOp := { thread := s.cur, stint := me.stint, act := me.act, id := n, order := order, fields := f, hrec := h, row := 0,
                           off := 0, segs := 0, suspended := false, moved := 0, kept := [], done := [] }
      updS (fun s => s.updMe (fun t => { t with nextCopy := nextCopyId n, copies := copyNote ⟨n, 1, 0⟩ t.copies }))
      updS (fun s => (s.updMyCluster (fun c => { c with copies := c.copies ++ [op] })).post (.copySegment s.cur n))) s

/-- cpst (R227). -/
def execCpst (d a : XReg) (s : State) : Host.Outcome State Fault Refusal :=
  word (do
    userM
    let w ← xM a
    let me ← readS State.me
    setXM d (match me.copies.find? (fun q => q.id == w.setWidth 16) with
      | some q => field 0 q.state ||| field 16 q.segs
      | none => 0)) s

/-! ## Completion and failure of asynchronous operations -/

/-- An operation leaves its class: its thread set counts it while it has not been freed since (R215). -/
def State.leaveFor (s : State) (t : TsId) (stint : Nat) (c : WClass) : State :=
  if (s.thread t).stint = stint then s.leaveClass t c else s

/-- The trap of a failed operation becomes pending with its thread set, or, when that has passed `join` since, with its
activation (R226, R261). -/
def State.addPend (s : State) (t : TsId) (stint : Nat) (k : Option ActKey) (p : PendTrap) : State :=
  if (s.thread t).stint = stint ∧ (s.thread t).joinAt ≤ p.order then s.updThread t (fun th => { th with pend := th.pend ++ [p] })
  else match k with
    | some k => s.updAct k (fun a => { a with pend := a.pend ++ [p] })
    | none => s

/-- Flags that an operation raises after its word: in its thread set, or, when a helper has passed `join`, in the fork
region that it belonged to. -/
def State.lateFlags (s : State) (t : TsId) (k : Option ActKey) (f : Flags) : State :=
  if (s.thread t).act = k then s.flagsOf t f
  else match k with
    | some k => (s.updAct k (fun a => { a with fork := a.fork.map (fun r => { r with flags := r.flags ||| f }) })).raise t f
    | none => s

/-- The activation whose store met a full line or set: it aborts, and is counted (R38). -/
def State.engineConflict (s : State) (k : Option ActKey) : State :=
  match k with
  | some k => (s.updRun k.run (fun x => { x with conflicts := x.conflicts + 1 })).endAct k
      (fun a => { a with ending := some .abort })
  | none => s

/-! ## Segments (R223 to R226) -/

/-- The oldest copy under an ID of a thread set that is not suspended: an ID may return while a copy of an earlier stint still
runs (R222). -/
def State.findCopy (s : State) (t : TsId) (n : BitVec 16) : Option CopyOp :=
  (s.cluster t.cluster).copies.find? (fun c => c.thread == t && c.id == n && !c.suspended)

def State.updCopy (s : State) (q : CopyOp) (f : CopyOp → CopyOp) : State :=
  s.updCluster q.thread.cluster (fun u => { u with copies := u.copies.map (fun c => if c.order = q.order then f c else c) })

/-- A copy leaves the engine; another under its ID goes on. -/
def State.dropCopy (s : State) (q : CopyOp) : State :=
  let s := s.updCluster q.thread.cluster (fun u => { u with copies := u.copies.filter (fun c => c.order != q.order) })
  if (s.findCopy q.thread q.id).isSome then s.postOnce (.copySegment q.thread q.id) else s

/-- The status of a running copy, while its thread set has not been freed since. -/
def State.noteCopy (s : State) (c : CopyOp) (state segs : Nat) : State :=
  if (s.thread c.thread).stint = c.stint then
    s.updThread c.thread (fun t => { t with copies := t.copies.map (fun q => if q.id = c.id then ⟨c.id, state, segs⟩ else q) })
  else s

/-- For whom a copy works. -/
def CopyOp.engine (c : CopyOp) (vf : Nat) : EngineFor :=
  ⟨.copy c.thread.cluster, vf, some (c.thread.cluster, c.thread.core), c.act, c.order⟩

/-- The addresses that byte x of row r of a side may have: under a relayout, the old one and the new one. -/
def CopySide.mayBe (d : CopySide) (r x : Nat) : List Word :=
  match d.hrec with
  | none => [d.plain r x]
  | some h =>
    let is := d.coords h r x
    let o := BitVec.ofNat 64 (x % h.esize)
    if !h.inside is then []
    else (BitVec.ofNat 64 (h.oldSide.addr h is) + o) ::
      (if h.nltag = 0 then [] else [BitVec.ofNat 64 (h.newSide.addr h is) + o])

/-- The physical address that an engine's translation gives for a global address now. -/
def State.physOf (s : State) (e : EngineFor) (va : Word) : Option Nat :=
  if inScratch va.toNat then none
  else match (s.translate e.pipe e.vf va.toNat).2 with
    | .page t => some (t.phys va.toNat)
    | _ => none

/-- Whether two destination bytes of an engine are one: the same address, or two addresses of one physical byte. -/
def State.sameByte (s : State) (e : EngineFor) (a b : Word) : Bool := a == b || ((s.physOf e a).isSome && s.physOf e a == s.physOf e b)

/-- Whether a byte is a destination byte that a copy has not yet written. -/
def State.unwritten (s : State) (e : EngineFor) (c : CopyOp) (a : Word) : Bool :=
  let d := copyDst c.fields c.hrec
  (upTo (Shadow.rows c.fields)).any (fun r => c.row ≤ r && (upTo d.bytes).any (fun x => (c.row < r || c.off ≤ x) &&
    !(d.lineOf r x).any c.done.contains && (d.mayBe r x).any (s.sameByte e a)))

/-- An earlier copy of the engine that has yet to write a byte of a segment (R225). -/
def State.copyBlocked (s : State) (e : EngineFor) (c : CopyOp) (addrs : List Word) : Bool :=
  (s.cluster c.thread.cluster).copies.any (fun q => q.order < c.order &&
    addrs.any (fun a => (!inScratch a.toNat || q.thread.core == c.thread.core) && s.unwritten e q a))

/-- The source bytes behind stretches of a destination under the sizes of a source and a destination element. -/
def sourceParts (ss ds : Nat) (ps : List (Nat × Nat × Nat)) : List (Nat × Nat × Nat) :=
  ps.map (fun p => (p.1, p.2.1 / ds * ss, (ceilDiv (p.2.1 + p.2.2) ds - p.2.1 / ds) * ss))

/-- The conversion of the source bytes of each stretch (R223), with its flags. -/
def Shadow.convert (f : Shadow) (ss ds : Nat) : List (Nat × Nat × Nat) → List Byte → List Byte × Flags
  | [], _ => ([], 0)
  | (_, x, n) :: rest, raw =>
    let k := (ceilDiv (x + n) ds - x / ds) * ss
    let (bs, fl) := if Shadow.widens f then ((Shadow.pair f).widenBytes (raw.take k), 0) else (Shadow.pair f).narrowBytes (raw.take k)
    let (more, fl') := Shadow.convert f ss ds rest (raw.drop k)
    ((bs.drop (x - x / ds * ds)).take n ++ more, fl ||| fl')

/-- The rows that an operation has yet to move. -/
def rowsFrom (r n : Nat) : List Nat := (upTo n).filter (r ≤ ·)

/-- The segment with which a copy goes on. -/
def CopyOp.next (c : CopyOp) : Segment :=
  (copyDst c.fields c.hrec).segment c.done (rowsFrom c.row (Shadow.rows c.fields)) c.row c.off

/-- One segment (R223): its translations, its reads, its conversion and its write; what it read through a relaying handle, and
the flags of the conversion. Its reads follow the atomics that the thread set has issued (R342; DEDUCED, entry 106). -/
def copySegmentE (e : EngineFor) (c : CopyOp) : EM (List ((Nat × Nat) × Byte) × Flags) := do
  let f := c.fields
  let src := copySrc f c.hrec
  let dst := copyDst f c.hrec
  let (ss, ds) := Shadow.sizes f
  let s ← stateE
  if s.amoBefore c.thread c.order then stopE .busy else pure ()
  let parts := c.next.parts
  let dests ← partAddrs e .copyWrite dst parts
  let froms := sourceParts ss ds parts
  let need := src.reads c.kept (rowsFrom c.row (Shadow.rows f)) froms
  let plan ← planParts e .copyRead src need
  let spots ← targetRuns e .copyWrite ((addrRuns (dests.map (fun a => (a, 0)))).map (fun r => (r.1, r.2.length)))
  let s ← stateE
  if s.copyBlocked e c (dests.filterMap id) then stopE .busy else pure ()
  let raw ← readPieces e plan
  let kept := c.kept ++ src.keep need raw
  let (bytes, fl) := Shadow.convert f ss ds parts (src.taken kept froms raw)
  writeSpots e ((dests.findSome? id).getD 0) spots ((addrRuns (dests.zip bytes)).flatMap (·.2))
  pure (kept, fl)

/-- The scope from which a fence waits for the bytes that an engine has yet to write: `.sys` where all of them lead to host or
peer memory (R217). -/
def State.sideReach (s : State) (e : EngineFor) (kind : FaultKind) (c : CopySide) (done : List (Nat × Nat)) (rows : List Nat)
    (r x : Nat) : Nat :=
  let left := rows.flatMap (fun q => ((upTo c.bytes).filter (fun y => (r < q || x ≤ y) && !(c.lineOf q y).any done.contains)).map (fun y => (q, y)))
  let far (q : Nat × Nat) : Option Bool :=
    match sideByte e kind c q.1 q.2 s with
    | .ok (none, _) => none
    | .ok (some va, s) =>
      match engineSpot e va .w kind s with
      | .ok (.phys .dram _, _) => some false
      | .ok (.phys _ _, _) => some true
      | _ => some false
    | _ => some false
  let ways := left.filterMap far
  if ways.contains true && !ways.contains false then 6 else 0

def State.copyReach (s : State) (c : CopyOp) (vf : Nat) : Nat :=
  s.sideReach (c.engine vf) .copyWrite (copyDst c.fields c.hrec) c.done (rowsFrom c.row (Shadow.rows c.fields)) c.row c.off

/-- A copy that fails (R226): the barrier's ERR, the status, the pending trap. -/
def State.failCopy (s : State) (c : CopyOp) (vf cause : Nat) (va : Word) : State :=
  let reach := s.copyReach c vf
  let s := if Shadow.barEn c.fields then
    s.barrierErr c.thread.cluster c.thread.core (Shadow.barn c.fields) (if cause = causePoison then 2 else 3) else s
  (((s.noteCopy c 4 c.segs).dropCopy c).leaveFor c.thread c.stint .cp).addPend c.thread c.stint c.act
    ⟨c.order, .cp, reach, cause, va, none, some c.id⟩

/-- What n more destination bytes credit: those bytes, or, into a tensor, those taken from the source (R228, R246). -/
def CopyOp.credits (c : CopyOp) (n : Nat) : Nat :=
  if (copyDst c.fields c.hrec).hrec.isNone then n
  else
    let (ss, ds) := Shadow.sizes c.fields
    (c.moved + n) * ss / ds - c.moved * ss / ds

/-- A segment has been written: the credit, SEGS, and the copy's end at its last (R223, R228). -/
def State.copyAdvance (s : State) (c : CopyOp) (kept : List ((Nat × Nat) × Byte)) (fl : Flags) : State :=
  let g := c.next
  let s := s.lateFlags c.thread c.act fl
  let s := if Shadow.barEn c.fields then s.credit c.thread.cluster c.thread.core (Shadow.barn c.fields) (c.credits g.bytes) else s
  let off := c.off + g.passed
  let segs := if g.bytes = 0 then c.segs else c.segs + 1
  let rowEnd := (copyDst c.fields c.hrec).bytes ≤ off
  if rowEnd ∧ Shadow.rows c.fields ≤ c.row + 1 then
    ((s.noteCopy c 3 segs).dropCopy c).leaveFor c.thread c.stint .cp
  else
    ((s.noteCopy c 1 segs).updCopy c (fun c =>
      { c with segs := segs, row := if rowEnd then c.row + 1 else c.row, off := if rowEnd then 0 else off,
               moved := c.moved + g.bytes, kept := kept, done := c.done ++ g.line.toList })).postOnce (.copySegment c.thread c.id)

/-- The next segment of a copy (R223 to R226). -/
def execCopySegment (t : TsId) (n : BitVec 16) (s : State) : Host.Outcome State Fault Refusal :=
  .next (match s.findCopy t n with
    | none => s
    | some c =>
      let vf := ((s.cluster t.cluster).run.map s.vfOfRun).getD 0
      match copySegmentE (c.engine vf) c s with
      | .ok ((kept, fl), s) => s.copyAdvance c kept fl
      | .error (.fault va kind) =>
        match s.joinMiss t.cluster vf va kind (.copyPipe t n) with
        | some s => (s.noteCopy c 2 c.segs).updCopy c (fun c => { c with suspended := true })
        | none => s.postOnce (.copySegment t n)
      | .error (.fail cause va) => s.failCopy c vf cause va
      | .error .conflict =>
        (((s.noteCopy c 4 c.segs).dropCopy c).leaveFor t c.stint .cp).engineConflict c.act
      | .error .busy => s.postOnce (.copySegment t n))

end Sys2Proof.Machine
end

