-- ==== Sys2Proof/Machine/Multicast.lean ====
section
/-! DEFINITION. The multicast request (R166 to R174): `mcrd`, its arrival at the home slices, the reply streams and their
merging, and the delivery of beats. -/
namespace Sys2Proof.Machine

/-! ## The descriptor (R167) -/

def mcMask (w : Word) : Nat := Word.bits w 15 0
def mcOx (w : Word) : Nat := Word.bits w 19 16
def mcOy (w : Word) : Nat := Word.bits w 23 20
def mcCore (w : Word) : Nat := Word.bits w 27 24
def mcSoff (w : Word) : Nat := Word.bits w 49 32
def mcReserved (w : Word) : Bool := Word.bits w 31 28 != 0 || Word.bits w 63 50 != 0

/-- The pack positions that a descriptor names: column and row from the pack origin. -/
def mcPlaces (w : Word) : List (Nat × Nat) :=
  ((upTo 16).filter (fun i => (mcMask w).testBit i)).map (fun i => (mcOx w + i % 4, mcOy w + i / 4))

/-- The physical lines of a range, line by line, and the page of each: an address in it and its size (R125, R168). -/
def mcLinesM (va : Word) : Nat → Nat → M (List ((Nat × Nat) × Nat × Nat))
  | _, 0 => pure []
  | i, n + 1 => do
    let a := va + BitVec.ofNat 64 (256 * i)
    let p ← checkM .mcrd a 1 []
    let bits ← readS (fun s => s.pageBits a)
    let rest ← mcLinesM va (i + 1) n
    match p with
    | .phys _ pa => pure (((pa, i), a.toNat / 2 ^ bits * 2 ^ bits, bits) :: rest)
    | _ => pure rest

/-- mcrd (R166 to R168, R174). -/
def execMcrd (a b : XReg) (barn : BarIx) (lines : BitVec 8) (s : State) : Host.Outcome State Fault Refusal :=
  word (do
    userM
    let va ← xM a
    let w ← xM b
    let n := lines.toNat
    if mcMask w = 0 then pure ()
    else do
      trapIf (va.toNat % 256 != 0) causeMisalign va
      trapIf (mcSoff w % 256 != 0) causeMisalign w
      let s ← readS id
      match s.myRun? with
      | none => privM
      | some x => do
        let inPack (p : Nat × Nat) : Bool := p.1 < Rec.packw x.rec_ && p.2 < Rec.packh x.rec_
        trapIf (mcReserved w || !(mcPlaces w).all inPack || 262144 < mcSoff w + 256 * n) causeAccess w
        trapIf (va.toNat < scratchEnd && scratchBase < va.toNat + 256 * n) causeAccess va
        let found ← mcLinesM va 0 n
        let ls := found.map (·.1)
        enterClass .cp
        let dests := (mcPlaces w).map (fun p => x.node + 16 * p.2 + p.1)
        let req : McrdReq := { id := s.nextMcrd, thread := s.cur, stint := s.me.stint, act := s.me.act, run := s.me.run.getD 0, lines := ls,
                               pages := (found.map (·.2)).eraseDups, dests := dests, dcore := mcCore w, soff := mcSoff w, barn := barn,
                               left := 2 * ls.length * dests.length, arrived := false }
        updS (fun s => ({ s with mcrds := NMap.set s.mcrds s.nextMcrd req, nextMcrd := s.nextMcrd + 1 }).post
          (.mcrdRequestArrive s.nextMcrd))) s

/-! ## Streams (R169, R172) -/

/-- The home of a line: its home slice, or the issuing cluster for a line outside the device (R353). -/
def State.lineHome (s : State) (r : McrdReq) (pa : Nat) : Nat :=
  if pa < 2 ^ 39 then s.homeNode (s.vfOfRun r.run) pa else r.thread.cluster

/-- Targets joined to a line. -/
def StreamLine.join (ts : List (Nat × Nat)) (l : StreamLine) : StreamLine := { l with targets := l.targets ++ ts }

/-- Whether a line has been sent to a destination. -/
def Stream.served (m : Stream) (index d : Nat) : Bool := m.sent.any (fun l => l.index == index && l.dests.contains d)

/-- A line that targets have missed, among those to be read again, which keep their ascending order: for the targets to whose
destinations it has not been sent (R172, R173). -/
def Stream.againFor (m : Stream) (ts : List (Nat × Nat)) (ls : List StreamLine) (l : Nat × Nat) : List StreamLine :=
  let ts := ts.filter (fun t => !m.served l.2 t.2)
  if ts.isEmpty then ls
  else if ls.any (fun q => q.index == l.2) then ls.map (fun q => if q.index = l.2 then q.join ts else q)
  else insertBy (·.index) ⟨l.1, l.2, ts, true⟩ ls

/-- The lines of a stream that have been begun. -/
def Stream.begun (m : Stream) : List (Nat × Nat) := m.total.filter (fun l => !m.todo.any (fun t => !t.again && t.index == l.2))

/-- A request joined to a stream: to the lines not yet begun, and to those it missed, read again after the last (R172). -/
def Stream.join (m : Stream) (ts : List (Nat × Nat)) : Stream :=
  { m with todo := (m.todo.filter (fun l => !l.again)).map (StreamLine.join ts) ++
                     m.begun.foldl (m.againFor ts) (m.todo.filter (·.again)) }

/-- Whether a stream serves the same lines to the same place, and still has one of which no beat has left (R172). -/
def Stream.merges (m : Stream) (r : McrdReq) (home : Nat) (ls : List (Nat × Nat)) : Bool :=
  m.run == r.run && m.home == home && m.dcore == r.dcore && m.soff == r.soff && m.barn == r.barn && m.total == ls &&
    m.todo.any (fun l => !l.again)

/-- The first key of a map that satisfies a condition. -/
def firstStream (p : Stream → Bool) : NMap Stream → Option Nat
  | [] => none
  | (k, m) :: rest => if p m then some k else firstStream p rest

/-- A beat is done for a request: with its last, the request leaves the CP class. -/
def State.beatDone (s : State) (req : Nat) : State :=
  match NMap.find? s.mcrds req with
  | none => s
  | some r =>
    if r.left ≤ 1 then { s with mcrds := NMap.erase s.mcrds req }.leaveFor r.thread r.stint .cp
    else { s with mcrds := NMap.set s.mcrds req { r with left := r.left - 1 } }

/-- A beat at its destination's network interface. -/
def State.deliverBeat (s : State) (b : Beat) : State :=
  if (s.core b.cluster b.dcore).scratchSize < b.off + 128 then s.barrierErr b.cluster b.dcore b.barn 1
  else if b.poison then s.barrierErr b.cluster b.dcore b.barn 2
  else
    let s := s.updCore b.cluster b.dcore (fun u => u.write b.off b.bytes)
    s.credit b.cluster b.dcore b.barn (128 * b.reqs.length)

/-- The first element that satisfies a condition, and the others. -/
def takeFirst {α : Type} (p : α → Bool) : List α → Option (α × List α)
  | [] => none
  | x :: xs => if p x then some (x, xs) else (takeFirst p xs).map (fun r => (r.1, x :: r.2))

/-- A beat that has left its stream credits one more request: with its delivery while it is under way; at once after it (R173). -/
def State.beatAlso (s : State) (stream : Nat) (m : Stream) (l : SentLine) (req d o : Nat) : State :=
  let off := m.soff + 256 * l.index + o
  let here (b : Beat) : Bool := b.stream == stream && b.cluster == d && b.off == off
  if s.beats.any here then { s with beats := s.beats.map (fun b => if here b then { b with reqs := b.reqs ++ [req] } else b) }
  else
    let s := if l.poison || (s.core d m.dcore).scratchSize < off + 128 then s else s.credit d m.dcore m.barn 128
    s.beatDone req

/-- The lines that a destination of a joining request has been sent already: each beat comes once, and its barrier is credited for
this request too (R173). -/
def State.servedAlso (s : State) (stream : Nat) (m : Stream) (ts : List (Nat × Nat)) : State :=
  (m.begun.flatMap (fun l => (m.sent.filter (fun q => q.index == l.2)).flatMap (fun q =>
    (ts.filter (fun t => q.dests.contains t.2)).map (fun t => (q, t))))).foldl
      (fun s (x : SentLine × Nat × Nat) => [0, 128].foldl (fun s o => s.beatAlso stream m x.1 x.2.1 x.2.2 o) s) s

/-- A request arrives at one home slice with the lines homed there. They go out in the order of the range, which is R169's
ascending address order by virtual addresses: the manual does not say which addresses it means where the pages of a range
do not ascend with it (DESIGN CHOICE, entry 108). -/
def State.arriveAt (s : State) (r : McrdReq) (home : Nat) : State :=
  let ls := r.lines.filter (fun l => s.lineHome r l.1 == home)
  let ts := r.dests.map (fun d => (r.id, d))
  match firstStream (fun m => m.merges r home ls) s.streams with
  | some k =>
    match NMap.find? s.streams k with
    | some m => { s with streams := NMap.set s.streams k (m.join ts) }.servedAlso k m ts
    | none => s
  | none =>
    let m : Stream := { home := home, run := r.run, dcore := r.dcore, soff := r.soff, barn := r.barn,
                        todo := ls.map (fun l => ⟨l.1, l.2, ts, false⟩), total := ls, sent := [] }
    ({ s with streams := NMap.set s.streams s.nextMcrd m, nextMcrd := s.nextMcrd + 1 }).post (.mcrdLineSend s.nextMcrd)

/-- A request reaches the home slices of its lines (R168, R169). -/
def execMcrdRequestArrive (req : Nat) (s : State) : Host.Outcome State Fault Refusal :=
  .next (match NMap.find? s.mcrds req with
    | none => s
    | some r =>
      if r.arrived then s
      else
        let s := { s with mcrds := NMap.set s.mcrds req { r with arrived := true } }
        ((r.lines.map (fun l => s.lineHome r l.1)).eraseDups).foldl (fun s h => s.arriveAt r h) s)

/-- The committed bytes of a line, or none where it is poisoned or out of reach (R169, R171); the line is filled first, and
none at all while it has no way (R184) or is held (R349). -/
def State.lineSnapshot (s : State) (vf pa : Nat) : Option (State × Option (List Byte)) :=
  match s.physRead vf pa 256, s.place pa with
  | .ok _, .ok q =>
    if q = .dram ∧ s.lineHeld (pa / 256) then none
    else (s.pullPlace q vf pa 256 false).map (fun s => (s, some (s.placeBytes q pa 256)))
  | _, _ => some (s, none)

/-- The two beats of a line for one destination (R169, R173). -/
def lineBeats (stream : Nat) (m : Stream) (l : StreamLine) (bytes : Option (List Byte)) (d : Nat) : List Beat :=
  let reqs := (l.targets.filter (fun t => t.2 == d)).map (·.1)
  [0, 128].map (fun o =>
    { home := m.home, stream := stream, cluster := d, dcore := m.dcore, off := m.soff + 256 * l.index + o, barn := m.barn,
      bytes := ((bytes.getD []).drop o).take 128, poison := bytes.isNone, reqs := reqs })

/-- A stream sends its next line to its destinations (R169 to R172). -/
def execMcrdLineSend (stream : Nat) (s : State) : Host.Outcome State Fault Refusal :=
  .next (match NMap.find? s.streams stream with
    | none => s
    | some m =>
      match m.todo with
      | [] => { s with streams := NMap.erase s.streams stream }
      | l :: rest =>
        match s.lineSnapshot (s.vfOfRun m.run) l.pa with
        | none => s.postOnce (.mcrdLineSend stream)
        | some (s, bytes) =>
          let dests := (l.targets.map (·.2)).eraseDups
          let beats := dests.flatMap (lineBeats stream m l bytes)
          let s := { s with beats := s.beats ++ beats }
          let s := beats.foldl (fun s b => s.post (.mcrdBeatDeliver b.cluster)) s
          if rest.isEmpty then { s with streams := NMap.erase s.streams stream }
          else
            let line : SentLine := ⟨l.index, dests, bytes.isNone⟩
            { s with streams := NMap.set s.streams stream { m with todo := rest, sent := m.sent ++ [line] } }.postOnce (.mcrdLineSend stream))

/-! ## Delivery (R171, R173, R174) -/

/-- The beats that may reach a cluster next: of each home slice the first (R198). -/
def firstBeats (cluster : Nat) : List Beat → List Nat → List Beat
  | [], _ => []
  | b :: bs, seen =>
    if b.cluster = cluster then
      (if seen.contains b.home then firstBeats cluster bs seen else b :: firstBeats cluster bs (b.home :: seen))
    else firstBeats cluster bs seen

/-- The next beat for a cluster is delivered, or refused (R171). -/
def execMcrdBeatDeliver (cluster : Nat) (s : State) : Host.Outcome State Fault Refusal :=
  .next (match s.pickFree (firstBeats cluster s.beats []) with
    | (s, none) => s
    | (s, some b) =>
      let s := { s with beats := s.beats.erase b }.deliverBeat b
      b.reqs.foldl (fun s r => s.beatDone r) s)

/-! ## fence (R217, R218) -/

/-- Whether a multicast of a thread set still delivers to a core within a scope. -/
def State.mcrdNear (s : State) (t : TsId) (code : Nat) : Bool :=
  s.mcrds.any (fun r => r.2.thread == t && r.2.stint == (s.thread t).stint &&
    r.2.dests.any (fun d => s.reach t d r.2.dcore ≤ code))

/-- Whether a message, an atomic or a deposit of a thread set to a core within a scope has not been performed: released and
not accepted, accepted and not applied, applied and not returned (R359), or accepted and not landed. -/
def State.messageNear (s : State) (t : TsId) (code : Nat) : Bool :=
  let near (c k : Nat) : Bool := s.reach t c k ≤ code
  (s.thread t).sendq.any (fun e => e.released && (s.sendTarget t e).any (fun u => near u.cluster u.core)) ||
    (s.thread t).amoq.any (fun a => a.act.isNone && (let o := s.ownerOf (s.vfOf t) a.pa; near o.1 o.2)) ||
    s.returns.any (fun r => r.1 == t && r.2.reach ≤ code) ||
    s.cores.any (fun c => near (c.1 / 16) (c.1 % 16) &&
      (c.2.deposits.any (fun d => d.sender == t) || (c.2.inq.filterMap InMsg.amo?).any (fun a => a.thread == t && a.act.isNone)))

/-- fence (R217, R352): loads, fills and drains are waited for whatever the scope; stores and copies into host or peer memory
under `.sys` only; messages, atomics, deposits and deliveries when their core lies in it. -/
def execFence (sc : Scope) (s : State) : Host.Outcome State Fault Refusal :=
  word (do
    let code := sc.code.toNat
    let s ← readS id
    let me := s.me
    let vf := s.vfOf s.cur
    holdIf (me.cnt.ld != 0 || me.cnt.tl != 0 || me.stOut.any (fun remote => !remote || code == 6) ||
      s.myCluster.copies.any (fun c => c.thread == s.cur && c.stint == me.stint && s.copyReach c vf ≤ code) ||
      s.mcrdNear s.cur code || s.messageNear s.cur code)
    latePendM (fun x => x.reach ≤ code)
    updS (fun s => s.edge s.cur)) s

end Sys2Proof.Machine
end

