-- ==== Sys2Proof/Machine/Control.lean ====
section
/-! DEFINITION. Control transfers (R113, R114) and the checks of their targets (R68). -/
namespace Sys2Proof.Machine

/-- A taken transfer: its target must lie in the 49-bit space (R68). -/
def gotoM (target : Word) : M Unit := do
  trapIf (2 ^ 49 ≤ target.toNat) causeAccess target
  updS (fun s => s.updMe (fun t => t.goto target))

/-- The target of a BR word (R113): its address + SignExtend(OFF32) × 8. -/
def brTarget (pc : Word) (off : BitVec 32) : Word := pc + off.signExtend 64 * 8

/-- The condition of `b` (R57). -/
def condHolds : Cond → Word → Word → Bool
  | .eq, a, b => a == b
  | .ne, a, b => a != b
  | .lt, a, b => a.slt b
  | .ge, a, b => !a.slt b
  | .ltu, a, b => a.ult b
  | .geu, a, b => !a.ult b
  | .al, _, _ => true

/-- b.cond (R113). The hint affects prediction only. -/
def execBCond (c : Cond) (a b : XReg) (_h : BrHint) (off : BitVec 32) (s : State) : Host.Outcome State Fault Refusal :=
  M.outcome (do
    let x ← xM a
    let y ← xM b
    let me ← readS State.me
    if condHolds c x y then gotoM (brTarget me.pc off) else updS State.advance) s

/-- call (R113): a trapping target writes no register. -/
def execCall (a : XReg) (_h : BrHint) (off : BitVec 32) (s : State) : Host.Outcome State Fault Refusal :=
  M.outcome (do
    let me ← readS State.me
    setXM a (me.pc + 8)
    gotoM (brTarget me.pc off)) s

/-- loop (R113). -/
def execLoop (a : XReg) (_h : BrHint) (off : BitVec 32) (s : State) : Host.Outcome State Fault Refusal :=
  M.outcome (do
    let me ← readS State.me
    let x ← xM a
    setXM a (x - 1)
    if x - 1 != 0 then gotoM (brTarget me.pc off) else updS State.advance) s

/-- A transfer through a register: its target must also be a multiple of 8 (R68), which is checked before its space; the manual
gives the two checks no order (DESIGN CHOICE, entry 111). -/
def jumpM (target : Word) : M Unit := do
  trapIf (Word.bits target 2 0 != 0) causeMisalign target
  gotoM target

/-- callr (R114): xA is read before xD is written. -/
def execCallr (d a : XReg) (s : State) : Host.Outcome State Fault Refusal :=
  M.outcome (do
    let me ← readS State.me
    let x ← xM a
    setXM d (me.pc + 8)
    jumpM x) s

/-- jr (R114). -/
def execJr (a : XReg) (s : State) : Host.Outcome State Fault Refusal :=
  M.outcome (do
    let x ← xM a
    jumpM x) s

/-- ret (R114). -/
def execRet (a : XReg) (s : State) : Host.Outcome State Fault Refusal :=
  M.outcome (do
    let x ← xM a
    jumpM x) s

end Sys2Proof.Machine
end

