-- ==== Sys2Proof/Machine/Fetch.lean ====
section
/-! DEFINITION. Fetching instruction words (R51, R68), the repetition buffer (R300 to R302), and placing a word where the
next step fetches it. -/
namespace Sys2Proof.Machine

/-- A word read at its home, once its line has a way (R184) and is free (R349): the newest committed one, of those that a fetch may
return (R51); also to an activation that has itself stored there, since R38 speaks of loads only (DESIGN CHOICE, entry 79). -/
def fetchHomeM (p : Place) (pa : Nat) : M Word := do
  let s ← readS id
  holdIf (p == .dram && s.lineHeld (pa / 256))
  match s.pullPlace p (s.vfOf s.cur) pa 8 false with
  | none => holdM
  | some s' => do
    updS (fun _ => s')
    pure (BitVec.ofNat 64 (leNat (s'.placeBytes p pa 8)))

/-- The word at an address, as a fetch reads it (R51, R68). -/
def fetchM (va : Word) : M Word := do
  let s ← readS id
  if s.inFirmware then do
    match ← firmwareSpot va 8 with
    | .sram off => pure (BitVec.ofNat 64 (ByteMap.readNat (s.fn s.cur.core).sram off 8))
    | .phys p pa => do
      trapIf (p == .dram && s.poisonAt pa 8) causePoison va
      fetchHomeM p pa
    | .scratch _ | .region .. => trapM causeAccess va
  else do
    trapIf (2 ^ 49 ≤ va.toNat || inScratch va.toNat) causeAccess va
    trapIf (va.toNat % 8 != 0) causeMisalign va
    let pa ← translateM .x .fetch va
    let s ← readS id
    match s.place pa with
    | .error e => physTrap e va
    | .ok p => do
      trapIf (p == .dram && s.homeDown (s.vfOf s.cur) pa) causeHomeDown va
      trapIf (p == .dram && s.poisonAt pa 8) causePoison va
      fetchHomeM p pa

/-! ## The repetition buffer -/

/-- A word that may stand in a body (R300). -/
def bodyWord (w : Word) : Bool :=
  let op := Word.bits w 63 56
  let fn := Word.bits w 31 26
  (0x40 ≤ op && op ≤ 0x50) || op == 0x62 || (op == 0x92 && (fn == 2 || fn == 3))

/-- The fields D, A and B of a word that its FIX bits keep on every pass (R64). -/
def fixBits (w : Word) : Bool × Bool × Bool :=
  let op := Word.bits w 63 56
  if op = 0x4E then (false, false, false)
  else if op = 0x62 then (Word.bit w 23, false, Word.bit w 24)
  else (Word.bit w 25, Word.bit w 24, Word.bit w 23)

/-- A register field stepped by a count: only a v register is stepped, modulo 32 (R301). -/
def stepField (fix : Bool) (step : Nat) (f : BitVec 6) : BitVec 6 :=
  if fix || !f.getLsbD 5 then f else 1#1 ++ BitVec.ofNat 5 (f.toNat + step)

/-- The copy of a body word that pass k executes (R301). -/
def stepWord (w : Word) (step : Nat) : Word :=
  let (fd, fa, fb) := fixBits w
  w.extractLsb' 56 8 ++ stepField fd step (w.extractLsb' 50 6) ++ stepField fa step (w.extractLsb' 44 6) ++
    stepField fb step (w.extractLsb' 38 6) ++ w.extractLsb' 0 38

/-- The copy that a repetition executes next. -/
def RepState.copy (r : RepState) : Word := stepWord (r.body.getD r.word 0) (r.pass * r.stride)

/-- An error of a thread set's registers is met by its next word, which traps POISON (R386); the manual gives no TVAL
(entry 96). -/
def eccM {α : Type} : M α := fun s =>
  .error (.late ({ s with freeIdx := s.freeIdx + 1 }.updMe (fun t => { t with ecc := false })) causePoison (Config.freeWord s.freeIdx))

/-- The next word of the issuing thread set: from its repetition buffer, or fetched. -/
def nextWordM : M Word := do
  let me ← readS State.me
  if me.ecc then eccM else
  match me.rep with
  | some r => pure r.copy
  | none => fetchM me.pc

/-- TVAL of a body that holds another word (R300). -/
def repTval (index op : Nat) : Word := field 0 0x58 ||| field 32 index ||| field 40 op

/-- The body words of a `rep` at an address. -/
def fetchBody (pc : Word) : Nat → Nat → M (List Word)
  | 0, _ => pure []
  | n + 1, i => do
    let w ← fetchM (pc + BitVec.ofNat 64 (8 * (i + 1)))
    let ws ← fetchBody pc n (i + 1)
    pure (w :: ws)

/-- The first word that may not stand in a body, with its index. -/
def badBody : List Word → Nat → Option (Nat × Word)
  | [], _ => none
  | w :: ws, i => if bodyWord w then badBody ws (i + 1) else some (i, w)

/-- rep (R300, R301). -/
def execRep (nm1 : BitVec 8) (lm1 : BitVec 3) (stride : BitVec 5) (s : State) : Host.Outcome State Fault Refusal :=
  M.outcome (do
    let me ← readS State.me
    let ws ← fetchBody me.pc (lm1.toNat + 1) 0
    match badBody ws 0 with
    | some (i, w) => trapM causeIllOp (repTval i (Word.bits w 63 56))
    | none => updS (fun s => s.updMe (fun t =>
        { t with rep := some ⟨ws, nm1.toNat + 1, stride.toNat, 0, 0⟩, count := t.count + 1, wait := none }))) s

/-! ## A word placed for the next step (assumption 6) -/

/-- The page that holds a placed word: virtual page 1 of function 0, identity-mapped. -/
def placedPc : Word := 0x10000

/-- A run of the physical function whose one rank executes a placed word: a GANG run of one thread set. -/
def placedRun : Run :=
  { rec_ := BitVec.ofNat 2048 (2 + 1 * 2 ^ 24 + 1 * 2 ^ 32 + 1 * 2 ^ 40 + 1 * 2 ^ 48), addr := 0, vf := 0, queue := 0,
    seq := 1, phase := .running, node := 0, gen := 0, rules := [], rulesAddr := 0, checked := true,
    replace := none, image := 0, cwins := [], tiles := [], ntiles := none,
    keymap := [], firings := 0, conflicts := 0, preempts := 0, packflags := 0, trunc := false, releasedAt := 0,
    ranBefore := 0, placedAt := 0, stop := none, wave := none, waveAt := 0, drainAt := 0, refused := [], sliceAt := 0,
    subst := [] }

/-- The state with a word stored where the next step fetches, and that step due: the thread set is the first of its core to be
offered a slot. -/
def State.placeWord (s : State) (w : Word) : State :=
  let t : TsId := ⟨0, 0, 0⟩
  let s := s.setRun 1 placedRun
  let s := s.updCluster 0 (fun c => { c with run := some 1 })
  let s := s.updThread t (fun th =>
    { th with pc := placedPc, run := some 1, rank := 0, status := .ready, rep := none, wait := none, refused := none, ecc := false })
  let s := s.updThread (handSet 0 0) (fun th => { th with status := .idle })
  let s := s.updCore 0 0 (fun c => { c with lastSet := 3, yielded := [], fenced := false, tlb := [⟨0, 0x10000, 16, 0x10000, true, true, true⟩] })
  let s := { s with hub := { s.hub with started := true } }
  { s with mem := ByteMap.writes s.mem 0x10000 (leBytes 8 w.toNat), lines := NMap.erase s.lines 0x100,
           nextRun := max s.nextRun 2, agenda := [.issue t] }

end Sys2Proof.Machine
end

