-- ==== Sys2Proof/Machine/FrontEnd.lean ====
section
/-! DEFINITION. How the front end and the dispatcher reach memory (R413), and registered images (R320, R400). -/
namespace Sys2Proof.Machine

/-! ## Accesses of the front end (R413) -/

/-- The front end works in a function's address space, from no cluster, without a translation cache. -/
def frontEnd (vf : Nat) : EngineFor := ⟨.none, vf, none, none, 0⟩

/-- What a front-end access comes to: done; it waits, for a fault's answer or for a way; it fails. -/
inductive FeResult (α : Type) where
  | done (s : State) (a : α)
  | wait (s : State)
  | fail (s : State) (cause : Nat) (va : Word)

/-- A fault of the front end (R376): the access waits for the answer. With no room in the miss file, or no way for the
line, its step is taken again. -/
def feStop {α : Type} (vf run : Nat) (again : Instr) (e : EngineStop) (s : State) : FeResult α :=
  match e with
  | .fault va kind =>
    match s.joinMiss fwNode vf va kind (.frontEnd run va) with
    | some s => .wait s
    | none => .wait (s.postOnce again)
  | .fail cause va => .fail s cause va
  | .busy | .conflict => .wait (s.postOnce again)

/-- A front-end action for a run (0 for the appender). A refused access fails (R378). -/
def feDo {α : Type} (vf run : Nat) (again : Instr) (refused : Option Word) (m : EM α) (s : State) : FeResult α :=
  match refused with
  | some va => .fail s causeAccess va
  | none =>
    match m s with
    | .ok (a, s) => .done s a
    | .error e => feStop vf run again e s

/-- Stores of the front end, line by line: those before the one that stops stand. -/
def feWrites (vf run : Nat) (again : Instr) (kind : FaultKind) : List (Word × List Byte) → State → FeResult Unit
  | [], s => .done s ()
  | (va, bs) :: rest, s =>
    match writePieces (frontEnd vf) kind va (linesOf va.toNat bs.length) bs s with
    | .ok (_, s) => feWrites vf run again kind rest s
    | .error e => feStop vf run again e s

/-- Stores of the front end for a run or queue (R413). -/
def feStore (vf run : Nat) (again : Instr) (kind : FaultKind) (refused : Option Word) (ws : List (Word × List Byte)) (s : State) :
    FeResult Unit :=
  match refused with
  | some va => .fail s causeAccess va
  | none => feWrites vf run again kind ws s

/-- The bytes at an address cut at the ends of lines. -/
def cutLines : List (Nat × Nat) → List Byte → List (Word × List Byte)
  | [], _ => []
  | (va, n) :: rest, bs => (BitVec.ofNat 64 va, bs.take n) :: cutLines rest (bs.drop n)

def lineWrites (va : Word) (bs : List Byte) : List (Word × List Byte) := cutLines (linesOf va.toNat bs.length) bs

/-- A read of a range by the front end. -/
def feRead (vf : Nat) (kind : FaultKind) (va : Word) (n : Nat) : EM (List Byte) := engineRead (frontEnd vf) kind va n

/-! ## Registered images (R320, R400) -/

/-- A registration entry. -/
abbrev Img := BitVec 1024

def Img.text (i : Img) : Nat := natBits i.toNat 63 0
def Img.textLen (i : Img) : Nat := natBits i.toNat 95 64
def Img.rulesLen (i : Img) : Nat := natBits i.toNat 127 96
def Img.rules (i : Img) : Nat := natBits i.toNat 191 128
def Img.cwin (i : Img) (n : Nat) : Nat := natBits i.toNat (192 + 64 * n + 63) (192 + 64 * n)
def Img.cwLen (i : Img) (n : Nat) : Nat := natBits i.toNat (704 + 32 * n + 31) (704 + 32 * n)
def Img.inText (i : Img) (a : Nat) : Bool := Img.text i ≤ a && a < Img.text i + Img.textLen i
def Img.inRules (i : Img) (a : Nat) : Bool := Img.rules i ≤ a && a < Img.rules i + Img.rulesLen i

/-- The entries of a function's registration table that are in use. -/
def State.images (s : State) (vf : Nat) : List Img :=
  ((upTo 32).map (fun i => BitVec.ofNat 1024 (leNat (s.sramReads vf (sramImages + 128 * i) 128)))).filter
    (fun i => Img.textLen i != 0)

/-- The image of a record (R320). -/
def State.imageFor (s : State) (vf : Nat) (r : Rec) : Option Img :=
  (s.images vf).find? (fun i => if Rec.isGang r then Img.inText i (Rec.entry r) else Img.inRules i (Rec.rulesAt r))

end Sys2Proof.Machine
end

