-- ==== Sys2Proof/Machine/Reaction.lean ====
section
/-! DEFINITION. The reaction instructions (R126 to R138): `emit`, the endings, `arbrd`, `kscan`, `runq`, `fork` and
`join`. -/
namespace Sys2Proof.Machine

/-! ## Contexts (R126) -/

/-- The activation or handler of a word that GANG code and firmware cores may not issue, nor handlers unless allowed. -/
def reactM (handlers : Bool) : M (ActKey × Act) := do
  let s ← readS id
  privUnless (!s.inFirmware && s.me.ctx != .gang && (s.me.ctx != .hand || handlers))
  match s.me.act, s.myAct? with
  | some k, some a => pure (k, a)
  | _, _ => privM

/-- A handler's run must be a REACT run. -/
def State.handlerReact (s : State) : Bool := s.myRun?.any (fun x => Rec.isReact x.rec_)

/-! ## emit (R127, R128) -/

/-- TVAL of the 257th product and of the ninth `runq`. -/
def productTval : Word := 0x1000000000000100
def runqTval : Word := 0x2000000000000008

/-- The emit order's place of a thread set's products: a fork region opens an odd phase, and its close an even one. -/
def Act.emitKey (a : Act) (t : Thread) : EmitKey := ⟨a.phase, if a.fork.isSome then t.sub else 0⟩

/-- The 32 bytes of a product as four words of a commit stream. -/
def productWords (b : BitVec 256) : List Word := (upTo 4).map (fun i => b.extractLsb' (64 * i) 64)

/-- emit (R127). -/
def execEmit (a : VReg) (half : Bool) (s : State) : Host.Outcome State Fault Refusal :=
  word (do
    let (k, act) ← reactM s.handlerReact
    let v ← vM a
    let tile : BitVec 256 := v.extractLsb' (if half then 256 else 0) 256
    if tile.extractLsb' 0 16 = 0#16 then pure ()
    else do
      trapIf (256 ≤ act.products.length) causeFootprint productTval
      let me ← readS State.me
      updS (fun s => (s.updAct k (fun a => { a with products := a.products ++ [(act.emitKey me, tile)] })).stream
        (productWords tile))) s

/-! ## done, abort, reject (R129) -/

/-- done: the commit follows when every asynchronous operation has completed (R36, R131). -/
def execDone (s : State) : Host.Outcome State Fault Refusal :=
  M.outcome (do
    let (k, a) ← reactM false
    let me ← readS State.me
    privUnless (me.ctx == .act && a.fork.isNone)
    updS (fun s => s.endAct k (fun a => { a with ending := some .done }))) s

/-- abort, by the activation or a helper (R37, R43). -/
def execAbort (s : State) : Host.Outcome State Fault Refusal :=
  M.outcome (do
    let (k, _) ← reactM false
    updS (fun s => s.endAct k (fun a => { a with ending := some .abort }))) s

/-- reject. -/
def execReject (s : State) : Host.Outcome State Fault Refusal :=
  M.outcome (do
    let (k, _) ← reactM false
    updS (fun s => s.endAct k (fun a => { a with ending := some .reject }))) s

/-! ## arbrd and kscan (R132, R133) -/

/-- arbrd (R14, R132). -/
def execArbrd (d : XReg) (sel : BitVec 8) (s : State) : Host.Outcome State Fault Refusal :=
  word (do
    let _ ← reactM s.handlerReact
    let me ← readS State.me
    setXM d (if sel = 0 then me.arb.summary else me.arb.trail.getD (sel.toNat - 1) 0)) s

/-- The slots of a kennel (R44) and of its match unit (R11). -/
def kennelSlots : Nat := 16384
def candSlots : Nat := 128

/-- A candidate that is enabled (R28). -/
def Kennel.enabledCand (n : Kennel) (c : Cand) : Bool :=
  !c.rejected && c.ages.all (fun g => n.tiles.any (fun t => t.tile.age == g && !t.held))

/-- The count that `kscan` returns (R133). -/
def Kennel.scan (n : Kennel) (kind : BitVec 16) (sel : Nat) : Nat :=
  let fits (t : Tile) : Bool := kind == 0 || t.kind == kind
  match sel with
  | 0 => (n.tiles.filter (fun t => !t.held && fits t.tile)).length
  | 1 => (n.tiles.filter (fun t => t.held && fits t.tile)).length
  | 2 => (n.ring.filter fits).length
  | 3 => kennelSlots - n.tiles.length - n.resSlots
  | _ => (n.cands.filter n.enabledCand).length

/-- The value of a `kscan`: to both twins one snapshot, taken at the first twin's issue (R390). -/
def scanM (v : Word) : M Word := do
  let s ← readS id
  match s.me.act, s.myAct? with
  | some k, some a =>
    if a.partner.isNone then pure v
    else do
      let got ← (if k.twin = 0 then pure v
        else match s.act? { k with twin := 0 } with
        | none => pure v
        | some f =>
          match f.scans[a.scans.length]? with
          | some w => pure w
          | none => if f.ending.isNone then holdM else pure v)
      updS (fun s => s.updAct k (fun a => { a with scans := a.scans ++ [got] }))
      pure got
  | _, _ => pure v

/-- kscan (R133). -/
def execKscan (d a : XReg) (sel : BitVec 3) (s : State) : Host.Outcome State Fault Refusal :=
  word (do
    let _ ← reactM s.handlerReact
    let w ← xM a
    let s ← readS id
    let v ← scanM (BitVec.ofNat 64 (s.myCluster.kennel.scan (w.setWidth 16) sel.toNat))
    setXM d v) s

/-! ## runq (R134, R135) -/

/-- TVAL of a full queue. -/
def queueTval (q : Nat) : Word := field 63 1 ||| field 0 q

/-- runq (R134, R135). -/
def execRunq (a b : XReg) (s : State) : Host.Outcome State Fault Refusal :=
  word (do
    let s ← readS id
    privUnless (!s.inFirmware)
    let addr ← xM a
    let q ← xM b
    let vf := s.vfOf s.cur
    trapIf (addr.toNat % 256 != 0) causeMisalign addr
    trapIf (63 < q.toNat || !(s.queue vf q.toNat).enabled) causeAccess q
    match s.me.act, s.myAct? with
    | some k, some act => do
      trapIf (8 ≤ act.runqs.length) causeFootprint runqTval
      updS (fun s => (s.updAct k (fun a => { a with runqs := a.runqs ++ [⟨addr, q.toNat⟩] })).stream [addr, q])
    | _, _ => do
      trapIf (s.queueRoom vf q.toNat == 0) causeOverflowFull (queueTval q.toNat)
      let bytes := match feRead vf .load addr 256 s with
        | .ok (bs, _) => some bs
        | .error _ => none
      enterClass .st
      updS (fun s =>
        let sub : Submission := { vf := vf, queue := q.toNat, addr := addr, reserved := true, bytes := bytes,
                                  thread := some s.cur, waiting := none, refused := none }
        ({ s with submissions := s.submissions ++ [sub] }.updQueue vf q.toNat
          (fun k => { k with reserved := k.reserved + 1 })).postOnce .queueAppend)) s

/-! ## fork and join (R41 to R43, R137, R138) -/

def joinWord : Word := 0xA500000004000000

/-- The chunks of a region, and the helpers that share them (R41). -/
def ForkRegion.chunks (r : ForkRegion) : Nat := ceilDiv r.trips r.chunk

/-- The bounds of helper i's subrange (R41). -/
def ForkRegion.lo (r : ForkRegion) (i : Nat) : Nat := i * r.chunks / r.n * r.chunk
def ForkRegion.hi (r : ForkRegion) (i : Nat) : Nat := min r.trips ((i + 1) * r.chunks / r.n * r.chunk)

/-- A thread set told the bounds of its subrange. -/
def Thread.bounds (t : Thread) (r : ForkRegion) (i : Nat) : Thread :=
  { (t.setX r.d (BitVec.ofNat 64 (r.lo i))).setX (r.d + 1) (BitVec.ofNat 64 (r.hi i)) with sub := i, pc := r.forkPc + 8 }

/-- The registers that a helper has at the start of a subrange: the forking set's at `fork` (R138, R219). -/
def Thread.forkRegs (t : Thread) (r : ForkRegion) : Thread :=
  { t with x := r.x, v := r.v, p := r.p, h := r.h, shadow := r.shadow }

/-- The trap state and the other registers of the forking set at `fork`, which a helper has at its start and the last set to
pass `join` has again after it (R43, R138; DEDUCED, entry 82). -/
def Thread.forkState (t : Thread) (r : ForkRegion) : Thread :=
  { t.forkRegs r with fpmode := r.fpmode, spillbase := r.spillbase, spilllim := r.spilllim, waitlim := r.waitlim, tpc := r.tpc,
                      tcause := r.tcause, tval := r.tval, mode := r.mode, pmode := r.pmode, intrap := r.intrap }

/-- The thread sets of a cluster that are eligible under R19 and run nothing, in ascending core and set. -/
def State.freeSets (s : State) (r : Nat) (x : Run) (c : Nat) : List TsId :=
  (upTo (Rec.cores x.rec_ * Rec.threads x.rec_)).filterMap (fun i =>
    let t : TsId := ⟨c, x.coreAt c (i / Rec.threads x.rec_), i % Rec.threads x.rec_⟩
    let th := s.thread t
    if th.run = some r ∧ th.status = .idle ∧ !(s.core c t.core).fenced then some t else none)

/-- The clusters of a pack, the issuing one first, then by distance and logical number (R42). -/
def State.treeOrder (s : State) (x : Run) (c : Nat) : List Nat :=
  sortBy (fun d => hops c d * 65536 + s.hub.logical kindCluster d) x.clusters

/-- The thread sets recruited for a region; twins recruit none (R42, R390). -/
def State.recruit (s : State) (r : Nat) (x : Run) (c want : Nat) (paired : Bool) : List TsId :=
  if paired then [] else ((s.treeOrder x c).flatMap (s.freeSets r x)).take want

/-- The chain with which an activation's recruit begins: its own, if it left the activation at `join` as the leash holder;
none otherwise (R307, R309; DEDUCED, entry 102). -/
def State.heldChain (s : State) (k : ActKey) (t : TsId) : Option Chain :=
  let a := (s.cluster t.cluster).array
  if a.holder == some t && a.holderAct == some k then a.orphan else none

/-- A recruited helper begins, after the forking set's events (R43, R211, R219, R344). -/
def State.startHelper (s : State) (k : ActKey) (r : ForkRegion) (me : Thread) (t : TsId) (i : Nat) : State :=
  let chain := s.heldChain k t
  let s := if chain.isSome then s.updCluster t.cluster (fun u => { u with array := { u.array with orphan := none } }) else s
  (s.updThread t (fun th =>
    (({ th with fpflags := me.fpflags, spillsp := r.spillbase, arb := me.arb, actid := me.actid, act := some k, ctx := .helper,
                status := .ready, wait := none, refused := none, rep := none, pend := [], chain := chain.getD Chain.closed, msg := none,
                nextCopy := 1, copies := [], ltime := max th.ltime me.ltime }).forkState r).bounds r i)).raise t me.fpflags

/-- The region that a fork opens: the forking set runs subrange 0, the helpers the next ones, the rest wait. -/
def ForkRegion.open_ (me : Thread) (d : XReg) (trips chunk n : Nat) (joinPc : Word) (helpers : List TsId) : ForkRegion :=
  { trips := trips, chunk := chunk, n := n, d := d, forkPc := me.pc, joinPc := joinPc, x := me.x, v := me.v, p := me.p, h := me.h,
    fpmode := me.fpmode, spillsp := me.spillsp, spillbase := me.spillbase, spilllim := me.spilllim, waitlim := me.waitlim,
    tpc := me.tpc, tcause := me.tcause, tval := me.tval, mode := me.mode, pmode := me.pmode, intrap := me.intrap,
    shadow := me.shadow, time := me.ltime, fin := 0, waiting := (upTo n).drop (helpers.length + 1), flags := 0,
    helpers := helpers }

/-- fork (R137, R138). -/
def execFork (d a b : XReg) (e : BitVec 20) (s : State) : Host.Outcome State Fault Refusal :=
  M.outcome (do
    let (k, act) ← reactM false
    let me ← readS State.me
    privUnless (me.ctx == .act && act.fork.isNone)
    let joinPc := me.pc + 8 * e.setWidth 64
    let w ← fetchM joinPc
    trapIf (w != joinWord) causeIllOp (opFnTval 0xA5 0)
    let trips ← xM a
    let c ← xM b
    if trips = 0 then gotoM (joinPc + 8)
    else do
      let chunk := if c = 0 then trips else c
      let n := min 64 (ceilDiv trips.toNat chunk.toNat)
      let s ← readS id
      match s.me.run, s.myRun? with
      | some r, some x => do
        let helpers := s.recruit r x s.cur.cluster (n - 1) act.partner.isSome
        let region := ForkRegion.open_ me d trips.toNat chunk.toNat n joinPc helpers
        updS (fun s =>
          let s := s.updAct k (fun a => { a with fork := some region, phase := a.phase + 1 })
          let s := (helpers.zip (upTo helpers.length)).foldl
            (fun s (h : TsId × Nat) => s.startHelper k region me h.1 (h.2 + 1)) s
          s.updMe (fun t => ({ t with count := t.count + 1, wait := none }).bounds region 0))
      | _, _ => privM) s

/-- A round is due in a kennel (R13). -/
def State.roundDue (s : State) (c : Nat) : State := s.postOnce (.arbitrationRound c)

/-- A thread set that an activation or handler leaves: it runs nothing, and what copies, fills and drains of its it leaves
under way is counted in its classes no longer. -/
def Thread.freed (t : Thread) : Thread :=
  { t with status := .idle, act := none, msg := none, rep := none, wait := none, refused := none, pend := [], intrap := false,
           mode := false, sub := 0, chain := Chain.closed, copies := [], stint := t.stint + 1,
           cnt := { t.cnt with cp := 0, tl := 0 } }

/-- A thread set becomes free, which makes a round due (R13). -/
def State.freeThread (s : State) (t : TsId) : State := ((s.updThread t Thread.freed).forgetMiss t).roundDue t.cluster

/-- The open chain of a set that leaves its activation at `join` while it holds the leash stays the array's, to the ending
(R130). -/
def State.leaveChain (s : State) (t : TsId) : State :=
  let c := (s.thread t).chain
  if s.isHolder t && (c.state != .none || c.blockErr) then s.updCluster t.cluster (fun u => { u with array := { u.array with orphan := some c } })
  else s

/-- The failures that a member of a region has pending at `join` pass to its activation, and those of operations that it
issued before follow (R226, R261). -/
def State.passPend (s : State) (k : ActKey) : State :=
  let me := s.me
  (s.updAct k (fun a => { a with pend := a.pend ++ me.pend })).updMe (fun t => { t with pend := [], joinAt := s.order })

/-- join (R138). -/
def execJoin (s : State) : Host.Outcome State Fault Refusal :=
  M.outcome (do
    let (k, act) ← reactM false
    match act.fork with
    | none => privM
    | some r => do
      let me ← readS State.me
      let r := { r with fin := r.fin + 1, flags := r.flags ||| me.fpflags, time := max r.time me.ltime }
      updS (fun s => s.passPend k)
      match r.waiting with
      | i :: rest =>
        updS (fun s => (s.updAct k (fun a => { a with fork := some { r with waiting := rest } })).updMe (fun t =>
          ({ t.forkRegs r with spillsp := t.spillbase, count := t.count + 1, wait := none }).bounds r i))
      | [] =>
        if r.fin = r.n then
          updS (fun s =>
            let t := s.cur
            let s := s.updAct k (fun a => { a with fork := none, phase := a.phase + 1, owner := t })
            let s := s.raise t (r.flags &&& ~~~me.fpflags)
            s.updMe (fun t =>
              { t.forkState r with spillsp := r.spillsp, fpflags := r.flags, ctx := .act, sub := 0, pc := r.joinPc + 8,
                                   count := t.count + 1, wait := none, ltime := max t.ltime r.time }))
        else
          updS (fun s =>
            let t := s.cur
            let s := s.updAct k (fun a => { a with fork := some { r with helpers := r.helpers.filter (· != t) } })
            (s.leaveChain t).freeThread t)) s

end Sys2Proof.Machine
end

