-- ==== Sys2Proof/Machine/System.lean ====
section
/-! DEFINITION. System registers (R115 to R120, R180, R182, R187 to R192, R281, R332, R373, R378, R395, R402, R406, R412),
`trap`, `brk`, `yield`, `halt`, `sret` and `tlbinv` (R121 to R125). -/
namespace Sys2Proof.Machine

/-! ## What the registers read -/

/-- TSTAT (R116). -/
def Thread.tstat (t : Thread) (fw : Bool) : Word :=
  let ctx : Nat := match t.ctx with
    | .gang => 0
    | .act => 1
    | .helper => 2
    | .hand => 3
  field 0 t.mode.toNat ||| field 1 t.pmode.toNat ||| field 2 t.intrap.toNat ||| field 3 ctx ||| field 5 fw.toNat

/-- A released run: from its release to its completion. -/
def Run.released (x : Run) : Bool :=
  match x.phase with
  | .running | .stopping | .draining | .saved => true
  | _ => false

/-- Whether a function has a released run (R189, R373). -/
def State.hasReleased (s : State) (vf : Nat) : Bool := s.runs.any (fun x => x.2.vf == vf && x.2.released)

/-- The stack that FWSEL selects (R115, R190). -/
def Fn.stackSel (f : Fn) : Nat := 2 * Word.bits f.fwsel 1 0 + Word.bits f.fwsel 2 2

/-- The thread set whose position CORE reports: in the second twin, the first twin's (R390). -/
def State.coreSelf (s : State) : TsId :=
  match s.me.act with
  | some k => if k.twin = 1 then ((s.act? { k with twin := 0 }).map (·.owner)).getD s.cur else s.cur
  | none => s.cur

/-- RANK (R115): in H, the rank of T0 of the same core. -/
def State.rankOf (s : State) (t : TsId) : BitVec 32 := if t.set = 4 then (s.thread { t with set := 0 }).rank else (s.thread t).rank

/-- PACKFLAGS of a run, with the flags on their way up from its clusters (R281). -/
def State.packFlags (s : State) (r : Nat) (x : Run) : Flags :=
  (x.clusters.filter (fun c => (s.cluster c).run == some r)).foldl (fun f c => f ||| (s.cluster c).raised) x.packflags

/-- The flags of a run's clusters reach its PACKFLAGS; a run that has not been released has none yet (R280). -/
def State.flushFlags (s : State) (r : Nat) : State :=
  match s.run? r with
  | some x =>
    if x.released then
      (x.clusters.filter (fun c => (s.cluster c).run == some r)).foldl (fun s c => s.updCluster c (fun u => { u with raised := 0 }))
        (s.setRun r { x with packflags := s.packFlags r x })
    else s
  | none => s

/-- A register of the run or of the issuing core's position; a firmware core has neither, and the manual gives no value
there (assumption 1). -/
def posM (f : State → Run → Word) : M Word := do
  let s ← readS id
  if s.inFirmware then drawM
  else match s.myRun? with
    | some x => pure (f s x)
    | none => pure 0

/-- A system register as `getsr` reads it. -/
def readSr (sr : SysReg) : M Word := do
  let s ← readS id
  let me := s.me
  let n := s.cur.core
  let f := s.fn n
  match sr with
  | .tstat => pure (me.tstat s.inFirmware)
  | .tcause => pure me.tcause
  | .tpc => pure me.tpc
  | .tval => pure me.tval
  | .fpmode => pure me.fpmode
  | .fpflags => pure (me.fpflags.setWidth 64)
  | .spillsp => pure me.spillsp
  | .spillbase => pure me.spillbase
  | .spilllim => pure me.spilllim
  | .waitlim => pure me.waitlim
  | .actid => if s.inFirmware then drawM else pure (if me.ctx == .gang then 0 else me.actid)
  | .runid => posM (fun _ x => x.id)
  | .rank => posM (fun s _ => (s.rankOf s.cur).setWidth 64)
  | .nrank => posM (fun _ x => BitVec.ofNat 64 (Rec.nrank x.rec_))
  | .core => posM (fun s _ => field 0 s.coreSelf.core ||| field 4 s.coreSelf.set)
  | .cluster => posM (fun s x =>
      let c := s.cur.cluster
      field 0 (s.hub.logical kindCluster c) ||| field 16 (c % 16 - x.node % 16) ||| field 24 (c / 16 - x.node / 16) |||
        field 32 (nodeDie c))
  | .cluflags => posM (fun s _ => s.myCluster.cluflags.setWidth 64)
  | .packflags => posM (fun s x => (s.packFlags (me.run.getD 0) x).setWidth 64)
  | .lsplit => posM (fun s _ => BitVec.ofNat 64 s.myCore.lsplit)
  | .vgroup => posM (fun s _ => BitVec.ofNat 64 s.myCore.vgroup)
  | .hashmask k => pure ((f.hashmask[k.toNat]?).getD 0)
  | .bktidx => pure f.bktidx
  | .bktdata => pure (BitVec.ofNat 64 (s.hub.bktEntry (Word.bits f.bktidx 5 0) (Word.bits f.bktidx 15 6)))
  | .fwsel => pure f.fwsel
  | .fwin k => pure (NMap.get s.hub.fwin (fwinKey f.stackSel k.toNat) 0)
  | .afr => pure s.hub.afr
  | .feat k => pure (s.hub.feat[k.toNat]'k.isLt)
  | .accept k => pure (s.hub.accept[k.toNat]'k.isLt)
  | .active k => pure (s.hub.active[k.toNat]'k.isLt)
  | .fwcommit => pure (field 0 f.committed.toNat)
  | .ptroot => pure f.ptroot
  | .fqhead => pure f.fqhead
  | .fqtail => pure f.fqtail
  | .fresp => pure 0
  | .diectl => pure s.hub.diectl
  | .therm => pure ((upTo 4).foldl (fun w k =>
      let d := (s.hub.dies[k]?).getD Die.reset
      w ||| field (8 * k) d.temp.toNat ||| field (32 + k) d.throttled.toNat) (field 36 s.hub.tripped.toNat))

/-! ## Who may reach a register (R115) -/

/-- The access codes of R115; `root` is F on the root core only, `wo` is F and write only. -/
inductive SrAccess where
  | ro | user | ur | sup | fw | root | wo
  deriving DecidableEq, Repr

def srAccess : SysReg → SrAccess
  | .tstat | .tcause | .tval => .ur
  | .tpc | .fpmode | .fpflags | .spillsp | .spillbase | .spilllim | .waitlim => .user
  | .actid | .runid | .rank | .nrank | .core | .cluster => .ro
  | .cluflags | .packflags | .lsplit | .vgroup => .sup
  | .fresp => .wo
  | .diectl | .therm => .root
  | .hashmask _ | .bktidx | .bktdata | .fwsel | .fwin _ | .afr | .feat _ | .accept _ | .active _ | .fwcommit | .ptroot
  | .fqhead | .fqtail => .fw

/-- Whether a thread set may read, or write, a register (check 6 of R66). -/
def State.mayAccess (s : State) (sr : SysReg) (write : Bool) : Bool :=
  let sup := s.me.mode
  let fw := s.inFirmware && sup
  match srAccess sr with
  | .ro => !write
  | .user => true
  | .ur => !write || sup
  | .sup => sup
  | .fw => fw
  | .root => fw && s.cur.core == 0
  | .wo => fw && write

def accessM (sr : SysReg) (write : Bool) : M Unit := do
  let s ← readS id
  trapIf (!s.mayAccess sr write) causePriv (opFnTval 0xF0 write.toNat)

/-- getsr (R120). Earlier words have completed, so FPFLAGS holds their flags. -/
def execGetsr (d : XReg) (sr : SysReg) (s : State) : Host.Outcome State Fault Refusal :=
  word (do
    accessM sr false
    let w ← readSr sr
    setXM d w) s

/-! ## putsr: the value's check (R120) -/

/-- TVAL of a refused value: 0xF0, 0x01, the SRN. -/
def srTval (sr : SysReg) : Word := field 0 0xF0 ||| field 8 0x01 ||| field 32 sr.code.toNat

def srNum (sr : SysReg) : Word := sr.code.setWidth 64

/-- The bits of a value that are not reserved. -/
def srMask : SysReg → Nat
  | .tstat => 0x3F
  | .tcause => 0xFF
  | .fpmode => 0xF
  | .fpflags | .cluflags | .packflags => 0x3F
  | .spillsp | .spilllim => 0x7FFF8
  | .spillbase => 0x3FFF8
  | .waitlim => 0xFFFFFFFFFFFF
  | .lsplit => 0xF
  | .vgroup => 0x3
  | .hashmask _ => 0xFFFFFFFFFFFFF
  | .bktidx | .bktdata => 0xFFFF
  | .fwsel => 0x7
  | .afr => 0x1FFFFFFFFFF
  | .fwcommit => 0x3
  | .ptroot => 0xFFFFFFFFFC001
  | .fqhead => 0xFF
  | .fresp => 0x3FFFFFFFF
  | .diectl => 0xFF
  | .therm => 0x1FFFFFFFFF
  | _ => 0xFFFFFFFFFFFFFFFF

/-- A value that R120 admits: no reserved bit, no reserved code. -/
def srAdmits (sr : SysReg) (w : Word) : Bool :=
  (w &&& ~~~BitVec.ofNat 64 (srMask sr)) == 0 && (match sr with
    | .fpmode => Word.bits w 2 0 ≤ 4
    | .spillsp | .spilllim => w.toNat ≤ 0x40000
    | .lsplit => w.toNat ≤ 8
    | .vgroup => w.toNat ≤ 2
    | _ => true)

/-- The access check and the value of a putsr. -/
def putM (sr : SysReg) (a : XReg) : M Word := do
  accessM sr true
  let w ← xM a
  trapIf (!srAdmits sr w) causeIllOp (srTval sr)
  pure w

/-! ## Effects of system-register writes -/

/-- Translations that satisfy a condition leave the caches of the clusters and cores named. -/
def State.dropTlb (s : State) (p : TlbEntry → Bool) (cl : Nat → Bool) : State :=
  let keep (l : List TlbEntry) : List TlbEntry := l.filter (fun e => !p e)
  { s with
    cores := s.cores.map (fun c => if cl (c.1 / 16) then (c.1, { c.2 with tlb := keep c.2.tlb }) else c),
    clusters := s.clusters.map (fun c => if cl c.1 then
      (c.1, { c.2 with l2tlb := keep c.2.l2tlb, copyTlb := keep c.2.copyTlb, fillTlb := keep c.2.fillTlb,
                       drainTlb := keep c.2.drainTlb, relayTlb := keep c.2.relayTlb }) else c) }

/-- Every translation of a function leaves every cache. -/
def State.dropVf (s : State) (vf : Nat) : State := s.dropTlb (fun e => e.vf == vf) (fun _ => true)

/-- Whether a trial image has had its 3,600,000,000 FCLK (R404). -/
def Fn.trialOver (f : Fn) (now : Nat) : Bool := f.trialSince.any (fun t => t + 3600000000 < now)

/-- DIECTL (R395). -/
def diectlM (w : Word) : M Unit := do
  let s ← readS id
  let old := s.hub.diectl
  let busy := Word.bit old 2
  if Word.bit w 2 then do
    trapIf busy causeAccess (srNum .diectl)
    let die := BitVec.ofNat 2 (Word.bits w 1 0)
    updS (fun s => { s with hub := { s.hub with diectl := field 0 die.toNat ||| field 2 1 } }.post .diectlGo)
  else if busy then pure ()
  else updS (fun s => { s with hub := { s.hub with diectl := (old &&& ~~~3) ||| field 0 (Word.bits w 1 0) } })

/-- putsr to a register without a behaviour of its own, and to those whose effect is a device step (R120, R378, R402). -/
def execPutsr (sr : SysReg) (a : XReg) (s : State) : Host.Outcome State Fault Refusal :=
  word (do
    let w ← putM sr a
    let s ← readS id
    let n := s.cur.core
    match sr with
    | .tcause => updS (fun s => s.updMe (fun t => { t with tcause := w }))
    | .tpc => updS (fun s => s.updMe (fun t => { t with tpc := w }))
    | .tval => updS (fun s => s.updMe (fun t => { t with tval := w }))
    | .spillsp => updS (fun s => s.updMe (fun t => { t with spillsp := w }))
    | .spillbase => updS (fun s => s.updMe (fun t => { t with spillbase := w }))
    | .spilllim => updS (fun s => s.updMe (fun t => { t with spilllim := w }))
    | .waitlim => updS (fun s => s.updMe (fun t => { t with waitlim := w }))
    | .bktidx => updS (fun s => s.updFn n (fun f => { f with bktidx := w }))
    | .fwsel => updS (fun s => s.updFn n (fun f => { f with fwsel := w }))
    | .afr => updS (fun s => { s with hub := { s.hub with afr := w } })
    | .accept k => updS (fun s => s.acceptWrite k w)
    | .fqhead => updS (fun s => (s.updFn n (fun f =>
        { f with fqhead := w, fqCount := f.fqCount - (w - f.fqhead).toNat % 256 })).postOnce (.faultQueueWrite n))
    | .fresp =>
      if Word.bits w 33 32 = 1 then updS (fun s => s.post (.frespServe n (Word.bits w 31 0)))
      else if Word.bits w 33 32 = 2 then updS (fun s => s.post (.frespRefuse n (Word.bits w 31 0)))
      else pure ()
    | .fwcommit => do
      if Word.bit w 0 then updS (fun s => s.postOnce (if (s.fn n).trialOver s.fclk then .trialBootExpiry else .fwcommitCommit n))
      else pure ()
      if Word.bit w 1 then updS (fun s => s.postOnce (.fwcommitKick n)) else pure ()
    | .diectl => diectlM w
    | _ => pure ()) s

/-- putsr TSTAT (R116): PMODE and INTRAP only. -/
def execPutsrTstat (a : XReg) (s : State) : Host.Outcome State Fault Refusal :=
  word (do
    let w ← putM .tstat a
    updS (fun s => s.updMe (fun t => { t with pmode := Word.bit w 1, intrap := Word.bit w 2 }))) s

/-- putsr FPMODE (R117, R120). -/
def execPutsrFpmode (a : XReg) (s : State) : Host.Outcome State Fault Refusal :=
  word (do
    let w ← putM .fpmode a
    updS (fun s => s.updMe (fun t => { t with fpmode := w }))) s

/-- putsr FPFLAGS (R117, R120, R281). -/
def execPutsrFpflags (a : XReg) (s : State) : Host.Outcome State Fault Refusal :=
  word (do
    let w ← putM .fpflags a
    updS (fun s =>
      let f := w.setWidth 6
      (s.updMe (fun t => { t with fpflags := f })).raise s.cur (f &&& ~~~s.me.fpflags))) s

/-- putsr CLUFLAGS (R280, R281): what it sets is also on its way to the PACKFLAGS, as what was on its way stays. -/
def execCluflagsWrite (a : XReg) (s : State) : Host.Outcome State Fault Refusal :=
  word (do
    let w ← putM .cluflags a
    updS (fun s => if s.inFirmware then s else
      (s.updMyCluster (fun c => { c with cluflags := w.setWidth 6, raised := c.raised ||| w.setWidth 6 })).postOnce .flagPropagate)) s

/-- putsr PACKFLAGS (R281): every copy of the pack's register. -/
def execPackflagsWrite (a : XReg) (s : State) : Host.Outcome State Fault Refusal :=
  word (do
    let w ← putM .packflags a
    updS (fun s => match s.me.run with
      | some r => (s.flushFlags r).updRun r (fun x => { x with packflags := w.setWidth 6 })
      | none => s)) s

/-- Whether a copy's destination reaches local scratch. -/
def CopyOp.toScratch (c : CopyOp) : Bool :=
  let d := copyDst c.fields c.hrec
  match d.hrec with
  | some h => inScratch h.oldSide.base || inScratch h.newSide.base
  | none => (upTo (Shadow.rows c.fields)).any (fun r =>
      d.bytes != 0 && (inScratch (d.plain r 0).toNat || inScratch (d.plain r (d.bytes - 1)).toNat))

/-- A copy or multicast delivery into a core's scratch is outstanding (R180): of a multicast, a request that has not reached
its homes, a line that a stream has yet to send there, or a beat on its way. -/
def State.scratchBusy (s : State) (c k : Nat) : Bool :=
  (s.cluster c).copies.any (fun o => o.thread.core == k && o.toScratch) ||
    s.mcrds.any (fun r => r.2.dcore == k && !r.2.arrived && r.2.dests.contains c) ||
    s.streams.any (fun t => t.2.dcore == k && t.2.todo.any (fun l => l.targets.any (·.2 == c))) ||
    s.beats.any (fun b => b.cluster == c && b.dcore == k)

/-- A core's SRAM redivided (R180): what leaves scratch is lost, what joins it reads zero. -/
def CoreUnit.resize (u : CoreUnit) (n : Nat) : CoreUnit :=
  { u with lsplit := n, priv := [], tlb := [], scratch := u.scratch.filter (fun b => b.1 < 32768 * n),
           poison := u.poison.filter (fun w => 8 * w.1 < 32768 * n) }

/-- putsr LSPLIT (R180). -/
def execLsplitWrite (a : XReg) (s : State) : Host.Outcome State Fault Refusal :=
  word (do
    let w ← putM .lsplit a
    let s ← readS id
    if s.inFirmware then pure ()
    else do
      trapIf (s.scratchBusy s.cur.cluster s.cur.core) causeAccess (srNum .lsplit)
      updS (fun s => s.updMyCore (fun u => u.resize w.toNat))) s

/-- putsr VGROUP (R182): the victim copies in a dissolved group are dropped. -/
def execVgroupWrite (a : XReg) (s : State) : Host.Outcome State Fault Refusal :=
  word (do
    let w ← putM .vgroup a
    updS (fun s =>
      if s.inFirmware || s.myCore.vgroup == w.toNat then s
      else
        let g := s.victimGroup s.cur.cluster s.cur.core
        let s := if g.length ≤ 1 then s else g.foldl (fun s j => s.updCore s.cur.cluster j (fun u => { u with priv := u.priv.filter (!·.victim) })) s
        s.updMyCore (fun u => { u with vgroup := w.toNat }))) s

/-- Whether lines that satisfy a condition cannot be written back yet: an activation or handler holds them tentative, or a
relayout engine exclusive. -/
def State.linesBusy (s : State) (p : Nat → Nat → Bool) : Bool :=
  s.acts.any (fun a => a.2.lines.any (p (s.vfOfRun a.1.run))) ||
    s.clusters.any (fun c => c.2.relayouts.any (fun r => r.moving.any (fun b => b.lines.any (p (s.vfOfRun r.run)))))

/-- putsr HASHMASKn (R187, R189). -/
def execHashmaskWrite (n : BitVec 4) (a : XReg) (s : State) : Host.Outcome State Fault Refusal :=
  word (do
    let w ← putM (.hashmask n) a
    let s ← readS id
    let vf := s.cur.core
    trapIf (s.hasReleased vf) causeAccess (srNum (.hashmask n))
    updS (fun s => ((s.writeBackAll (fun _ l => l.vf == vf)).dropVf vf).updFn vf (fun f =>
      { f with hashmask := f.hashmask.setIfInBounds n.toNat w }))) s

/-- Whether a present leaf below a table maps a page that meets a home window (R189). -/
def State.tableMeets (s : State) (vf window : Nat) : List Nat → Nat → Bool
  | [], _ => false
  | lo :: rest, base => (upTo 2048).any (fun i =>
    match s.physRead vf (base + 8 * i) 8 with
    | .error _ => false
    | .ok bs =>
      let w := BitVec.ofNat 64 (leNat bs)
      let addr := Word.bits w 51 14 * 2 ^ 14
      Word.bit w 0 && (if Word.bit w 1 then
        addr < 2 ^ 39 && addr / 2 ^ 33 ≤ window && window ≤ (addr + 2 ^ lo - 1) / 2 ^ 33
      else s.tableMeets vf window rest addr))

def State.mapsWindow (s : State) (vf window : Nat) : Bool :=
  let root := (s.fn vf).ptroot
  Word.bit root 0 && s.tableMeets vf window [38, 27, 16] (Word.bits root 51 14 * 2 ^ 14)

/-- putsr BKTDATA (R188, R189). -/
def execBktdataWrite (a : XReg) (s : State) : Host.Outcome State Fault Refusal :=
  word (do
    let w ← putM .bktdata a
    let s ← readS id
    let vf := s.cur.core
    let idx := (s.fn vf).bktidx
    let window := Word.bits idx 5 0
    let live := w.toNat < (s.hub.onNodes kindSlice).length && s.hub.stateOf ⟨kindSlice, s.hub.sliceNode w.toNat⟩ < 2
    trapIf (!live) causeAccess w
    trapIf (s.hasReleased vf && s.mapsWindow vf window) causeAccess (srNum .bktdata)
    holdIf (s.linesBusy (fun f _ => f == vf))
    updS (fun s =>
      let s := (s.writeBackAll (fun _ l => l.vf == vf)).dropVf vf
      { s with hub := { s.hub with bktmap := NMap.set s.hub.bktmap (window * 1024 + Word.bits idx 15 6) w.toNat } })) s

/-- Two ranges of a stack that share a byte. -/
def rangesMeet (a n b m : Nat) : Bool := n != 0 && m != 0 && a < b + m && b < a + n

/-- Whether an enabled window's ranges meet those of another. -/
def FWindow.meets (f g : FWindow) : Bool :=
  rangesMeet f.view f.len g.view g.len || rangesMeet f.view f.len g.store g.storage ||
    rangesMeet f.store f.storage g.view g.len || rangesMeet f.store f.storage g.store g.storage

/-- Whether a value may be written to window n of a stack (R190, R406). -/
def Hub.fwinOk (h : Hub) (stack n : Nat) (w : Word) : Bool :=
  let f := FWindow.of w
  Word.bits w 62 53 == 0 && f.mode < 4 && (f.mode == 0 ||
    (h.feature (f.mode - 1) && f.len != 0 && f.view + f.len ≤ 2 ^ 36 && f.store + f.storage ≤ 2 ^ 36 &&
      !rangesMeet f.view f.len f.store f.storage && (h.windows stack).all (fun g => g.1 == n || !f.meets g.2)))

/-- Whether a line lies in a range of an enabled window. -/
def FWindow.holds (f : FWindow) (stack line : Nat) : Bool :=
  f.mode != 0 && stackOf (line * 256) == stack &&
    (rangesMeet f.view f.len (stackOff (line * 256)) 256 || rangesMeet f.store f.storage (stackOff (line * 256)) 256)

/-- The private and victim copies of the lines that satisfy a condition are dropped. -/
def State.dropPrivs (s : State) (p : Nat → Bool) : State :=
  let keep (u : CoreUnit) : CoreUnit := { u with priv := u.priv.filter (fun l => !p l.line) }
  { s with cores := s.cores.map (fun c => (c.1, keep c.2)) }

/-- The lines that a write of a window concerns: those in its old and its new ranges (R190). -/
def State.fwinLines (s : State) (stack n : Nat) (w : Word) (line : Nat) : Bool :=
  (FWindow.of (NMap.get s.hub.fwin (fwinKey stack n) 0)).holds stack line || (FWindow.of w).holds stack line

/-- putsr FWINn (R190): it waits until the lines of the old and the new ranges can be written back; then they leave every
cache; SATW is cleared by writing 0. -/
def execFwinWrite (n : BitVec 4) (a : XReg) (s : State) : Host.Outcome State Fault Refusal :=
  word (do
    accessM (.fwin n) true
    let w ← xM a
    let s ← readS id
    let stack := (s.fn s.cur.core).stackSel
    trapIf (!s.hub.fwinOk stack n.toNat w) causeAccess (srNum (.fwin n))
    holdIf (s.linesBusy (fun _ => s.fwinLines stack n.toNat w))
    updS (fun s =>
      let inIt := s.fwinLines stack n.toNat w
      let s := s.writeBackAll (fun line _ => inIt line)
      let s := s.dropPrivs inIt
      let s := s.dropTlb (fun _ => true) (fun _ => true)
      let old := NMap.get s.hub.fwin (fwinKey stack n.toNat) 0
      let new := (w &&& ~~~field 63 1) ||| (w &&& old &&& field 63 1)
      { s with hub := { s.hub with fwin := NMap.set s.hub.fwin (fwinKey stack n.toNat) new } })) s

/-- putsr PTROOT (R373, R374). -/
def execPtrootWrite (a : XReg) (s : State) : Host.Outcome State Fault Refusal :=
  word (do
    let w ← putM .ptroot a
    let s ← readS id
    let vf := s.cur.core
    trapIf (s.hasReleased vf) causeAccess (srNum .ptroot)
    updS (fun s => (s.dropVf vf).updFn vf (fun f => { f with ptroot := w }))) s

/-! ## trap, brk, yield, halt, sret, tlbinv -/

/-- trap (R121). -/
def execTrap (code : BitVec 16) (s : State) : Host.Outcome State Fault Refusal :=
  M.outcome (trapM causeTrap (code.setWidth 64)) s

/-- brk (R121). -/
def execBrk (code : BitVec 16) (s : State) : Host.Outcome State Fault Refusal :=
  M.outcome (trapM causeBrk (code.setWidth 64)) s

/-- A user thread set ends its turn: no set of the core has been offered a slot since (R122). -/
def CoreUnit.yield (u : CoreUnit) (set : Nat) : CoreUnit := { u with yielded := u.yielded.filter (·.1 != set) ++ [(set, [])] }

/-- yield (R122): it uses its slot; a user set is not chosen again until every other ready one of the core has been offered
a slot. -/
def execYield (s : State) : Host.Outcome State Fault Refusal :=
  word (updS (fun s => if s.isUser then s.updMyCore (fun u => u.yield s.cur.set) else s)) s

/-- halt (R123): a pending failure is trapped there; the chain is closed and the clause array released (R152, R309). -/
def execHalt (s : State) : Host.Outcome State Fault Refusal :=
  M.outcome (do
    let s ← readS id
    if s.inFirmware then updS (fun s => s.advance.updMe (fun t => { t with status := .halted }))
    else do
      privUnless s.isGang
      holdIf ([WClass.ld, .st, .cp, .tl, .ms].any (fun k => s.me.cnt.get k != 0))
      latePendM (fun _ => true)
      updS (fun s =>
        let t := s.cur
        let s := (s.advance.updMe (fun th => { th with status := .halted })).closeChain t
        let s := s.releaseClause t.cluster (.thread t)
        match s.myRun? with
        | some x => s.barCheck x
        | none => s)) s

/-- sret (R124). -/
def execSret (s : State) : Host.Outcome State Fault Refusal :=
  M.outcome (do
    let me ← readS State.me
    trapIf (!(me.mode || (me.intrap && !me.pmode))) causePriv (opFnTval 0xF2 2)
    trapIf (Word.bits me.tpc 2 0 != 0) causeMisalign me.tpc
    trapIf (2 ^ 49 ≤ me.tpc.toNat) causeAccess me.tpc
    updS (fun s => s.updMe Thread.trapReturn)) s

/-- The clusters whose caches a `tlbinv` of a thread set reaches beyond its own core (R125). A firmware core stands on the hub
die, which has no translation cache: within its own die it reaches none (DESIGN CHOICE, entry 81). -/
def tlbReach (c : Nat) (reach : BitVec 2) (d : Nat) : Bool :=
  match reach.toNat with
  | 1 => d == c
  | 2 => c != fwNode && nodeDie d == nodeDie c
  | 3 => true
  | _ => false

/-- Step 2 of `tlbinv`: no cache within its reach holds a removed entry. -/
def State.invalidate (s : State) (va : Word) (all : Bool) (reach : BitVec 2) : State :=
  let vf := s.vfOf s.cur
  let gone (e : TlbEntry) : Bool := e.vf == vf && (all || e.covers vf va.toNat)
  let s := if s.inFirmware then s else s.updMyCore (fun u => { u with tlb := u.tlb.filter (fun e => !gone e) })
  s.dropTlb gone (tlbReach s.cur.cluster reach)

/-- Whether a thread set translates through a cache within reach. -/
def State.inReach (s : State) (reach : BitVec 2) (t : TsId) : Bool :=
  (t.cluster == s.cur.cluster && t.core == s.cur.core) || tlbReach s.cur.cluster reach t.cluster

/-- Step 3 of `tlbinv`: accesses of the function that have been translated within reach under a removed entry and are not yet
performed: atomics in the buffer of another activation, on their way or at their owners; multicast reads; and, whatever
their pages, blocks under conversion, which end in bounded time (DEDUCED, entry 81). -/
def State.underEntries (s : State) (va : Word) (all : Bool) (reach : BitVec 2) : Bool :=
  let vf := s.vfOf s.cur
  let under (a bits : Nat) : Bool := all || a / 2 ^ bits == va.toNat / 2 ^ bits
  let mine (q : AmoReq) : Bool := s.amoVf q == vf && s.inReach reach q.thread && under q.va.toNat q.bits
  s.acts.any (fun a => s.me.act != some a.1 && a.2.amos.any mine) || s.threads.any (fun t => t.2.amoq.any mine) ||
    s.cores.any (fun c => (c.2.inq.filterMap InMsg.amo?).any mine) ||
    s.mcrds.any (fun r => s.vfOfRun r.2.run == vf && s.inReach reach r.2.thread && r.2.pages.any (fun p => under p.1 p.2)) ||
    s.clusters.any (fun c => tlbReach s.cur.cluster reach c.1 &&
      c.2.relayouts.any (fun r => s.vfOfRun r.run == vf && r.moving.isSome))

/-- tlbinv (R125): it waits until the earlier stores are performed; then the entries are removed, and it waits again until
the accesses made under them are performed. -/
def execTlbinv (a : XReg) (all : Bool) (reach : BitVec 2) (s : State) : Host.Outcome State Fault Refusal :=
  word (do
    supervisorM 0xF3 0
    let va ← xM a
    let s ← readS id
    holdIf (s.me.cnt.st != 0)
    if s.underEntries va all reach then fun _ => .error (.hold (fun s => s.invalidate va all reach))
    else updS (fun s => s.invalidate va all reach)) s

end Sys2Proof.Machine
end

