-- ==== Sys2Proof/Machine/Message.lean ====
section
/-! DEFINITION. Messages, handlers, atomics and deposits (R333 to R340, R355 to R364): the instructions, and the device steps
of acceptance, application, return, landing and the start and rollback of handlers. -/
namespace Sys2Proof.Machine

/-! ## Queues (R334, R335) -/

/-- The places that a message needs at its destination: 0 a core's handler input queue (VN0), 1 a thread set's receive queue
(VN1), 2 a core's deposit places (VN0). -/
structure Lane where
  place : Nat
  cluster : Nat
  core : Nat
  set : Nat
  deriving DecidableEq, Repr

/-- A message that a thread set has released and that has not been accepted: an entry of its send queue or an atomic. -/
inductive OutMsg where
  | send (e : SendEntry)
  | amo (a : AmoReq)
  deriving DecidableEq, Repr

def OutMsg.order : OutMsg → Nat
  | .send e => e.order
  | .amo a => a.order

/-- Where a message goes (R334, R357, R361). -/
def State.laneOf (s : State) (t : TsId) (m : OutMsg) : Lane :=
  match m with
  | .amo a =>
    let o := s.ownerOf (s.amoVf a) a.pa
    ⟨0, o.1, o.2, 4⟩
  | .send e =>
    let dst := (s.sendTarget t e).getD t
    match e.kind with
    | .reply => ⟨1, dst.cluster, dst.core, dst.set⟩
    | .deposit _ => ⟨2, dst.cluster, dst.core, 4⟩
    | .request _ => ⟨0, dst.cluster, dst.core, 4⟩

/-- The messages that a thread set has released, in release order. -/
def State.outgoing (s : State) (t : TsId) : List OutMsg :=
  sortBy OutMsg.order (((s.thread t).sendq.filter (·.released)).map OutMsg.send ++ (s.thread t).amoq.map OutMsg.amo)

/-- A cluster on a die that has been lost, or that a warm reset has taken down (R394, R396). -/
def State.gone (s : State) (c : Nat) : Bool := (s.hub.dies[nodeDie c]?).any (fun d => d.lost || d.down)

/-- Whether a message's destination has a place for it (R335, R362); one on a die that is lost or down takes nothing, and holds
nothing back. -/
def State.hasPlace (s : State) (l : Lane) (m : OutMsg) : Bool :=
  s.gone l.cluster || match m with
  | .send e =>
    match e.kind with
    | .reply => (s.thread ⟨l.cluster, l.core, l.set⟩).recvq.length < 8
    | .deposit _ => (s.core l.cluster l.core).deposits.length < 4
    | .request _ => (s.core l.cluster l.core).inq.length < 16
  | .amo _ => (s.core l.cluster l.core).inq.length < 16

/-- Whether a message's turn has come: a GANG atomic goes to its owner when those issued before it have been applied (R342,
R348). -/
def State.inTurn (s : State) (t : TsId) (m : OutMsg) : Bool :=
  match m with
  | .amo q => q.act.isSome || !s.amoBefore t q.order
  | .send _ => true

/-- The messages of a thread set that can be accepted: of each lane the first released, if it has a place and its turn has
come (R198, R335). A deposit without a place holds back no request and no atomic, which need another (R366; DEDUCED, entry
74). -/
def State.firstOuts (s : State) (t : TsId) : List OutMsg → List Lane → List OutMsg
  | [], _ => []
  | m :: ms, seen =>
    let l := s.laneOf t m
    let rest := s.firstOuts t ms (l :: seen)
    if !seen.contains l && s.hasPlace l m && s.inTurn t m then m :: rest else rest

/-- The kennel of a cluster changed. -/
def State.updKennel (s : State) (c : Nat) (f : Kennel → Kennel) : State :=
  s.updCluster c (fun u => { u with kennel := f u.kennel })

/-- SND of a kennel (R45): a message of an activation, helper or handler is released there. -/
def State.countSnd (s : State) (c : Nat) : State := s.updKennel c (fun k => { k with snd := k.snd + 1, unacked := k.unacked + 1 })
def State.countRcv (s : State) (c : Nat) : State := s.updKennel c (fun k => { k with rcv := k.rcv + 1 })
def State.acked (s : State) (c : Nat) : State := s.updKennel c (fun k => { k with unacked := k.unacked - 1 })

/-- The next message of an idle H is served (R336, R359). -/
def State.kickH (s : State) (c k : Nat) : State :=
  if (s.thread (handSet c k)).act.isSome then s
  else match (s.core c k).inq with
  | .request .. :: _ => s.postOnce (.handlerStart c k)
  | .atomic _ :: _ => s.postOnce (.amoApply c k)
  | [] => s

/-! ## send, recv, sqstat (R333 to R340) -/

/-- TVAL of the ninth buffered send (R334) and of the 65th buffered atomic (R356). -/
def sendTval : Word := 0x3000000000000008
def amoTval : Word := 0x4000000000000040

/-- The sends that an activation buffers, its helpers' included. -/
def State.buffered (s : State) (k : ActKey) : Nat :=
  (s.threads.map (fun t => (t.2.sendq.filter (fun e => e.act = some k ∧ !e.released)).length)).sum

/-- A send is released: its payload is converted, its flags go to the sender, it enters the MS class (R335), and outside GANG
code it is counted (R45, R203). The flags are there at once, where R203 lets a `getsr` right after still miss them (DESIGN CHOICE,
entry 116). -/
def State.releaseSend (s : State) (t : TsId) (e : SendEntry) : State :=
  let (narrow, fl) := e.fmt.narrowBytes e.payload
  let sent := { e with released := true, order := s.order, payload := e.fmt.widenBytes narrow }
  let s := { s with order := s.order + 1 }.updThread t (fun th =>
    { th with sendq := th.sendq.filter (fun q => !(q = e)) ++ [sent], cnt := { th.cnt with ms := th.cnt.ms + 1 } })
  let s := if e.act.isSome then s.countSnd t.cluster else s
  (s.lateFlags t e.act fl).postOnce (.messageAccept t)

/-- An entry taken in the send queue; in H a full queue traps, elsewhere the word waits (R334, R338). -/
def takeEntryM (e : SendEntry) (full : Word) : M Unit := do
  let s ← readS id
  if 8 ≤ s.me.sendq.length then
    if s.me.ctx == .hand then trapM causeSendqFull full else holdM
  else updS (fun s => s.updMe (fun t => { t with sendq := t.sendq ++ [e] }))

/-- The commit-stream record of a send (R390). -/
def sendRecord (dest : Word) (fmt : Fmt) (payload : List Byte) : List Word :=
  [dest, BitVec.ofNat 64 fmt.code.toNat] ++ payload.map (fun b => BitVec.ofNat 64 b.toNat)

/-- The handler entry of a user's send (R334). -/
def entryM (c : XReg) : M Word := do
  let w ← xM c
  let s ← readS id
  trapIf (Word.bits w 2 0 != 0) causeMisalign w
  trapIf (!(s.myRun?.any (fun x => Img.inText x.image w.toNat))) causeAccess w
  pure w

/-- send (R333, R334). -/
def execSend (o : SendOp) (s : State) : Host.Outcome State Fault Refusal :=
  word (do
    privUnless (!s.inFirmware && (if s.me.ctx == .hand then o.pay.isSome else o.pay.isNone || o.len != 0))
    let dest ← xM o.a
    let s ← readS id
    match s.myRun? with
    | none => privM
    | some x => do
      trapIf (Rec.nrank x.rec_ ≤ Word.bits dest 31 0) causeAccess dest
      let kind ← (if s.me.ctx == .hand then do
          trapIf (o.c != 0) causeAccess 0
          pure SendKind.reply
        else do
          let e ← entryM o.c
          pure (SendKind.request e))
      let len := o.len.toNat
      let wide := if o.fmt = .none then 1 else o.fmt.types.1.size
      trapIf (len % wide != 0) causeAccess (BitVec.ofNat 64 len)
      trapIf (s.isBody && (s.me.act.any (fun k => 8 ≤ s.buffered k))) causeFootprint sendTval
      let payload ← (match o.pay with
        | some v => do
          let w ← vM v
          pure (w.bytes.take len)
        | none => pure [])
      if s.isGang then enterClass .ms else pure ()
      let e : SendEntry :=
        { dest := dest, kind := kind, len := len, fmt := o.fmt, payload := payload, srcRank := s.rankOf s.cur, released := false,
          order := s.order, act := s.me.act }
      takeEntryM e dest
      updS (fun s =>
        let s := { s with order := s.order + 1 }
        if s.isGang then
          (s.updMe (fun t => { t with cnt := { t.cnt with ms := t.cnt.ms - 1 } })).releaseSend s.cur e
        else s.stream (sendRecord dest o.fmt payload))) s

/-- recv (R339). -/
def execRecv (d : XReg) (b : VReg) (s : State) : Host.Outcome State Fault Refusal :=
  word (do
    userM
    let me ← readS State.me
    match me.recvq with
    | [] => boundedWait .recv 0
    | m :: rest => do
      updS (fun s => (s.updMe (fun t => { t with recvq := rest })).edge s.cur)
      setXM d m.word
      setVM b (VWord.ofBytes m.payload)) s

/-- sqstat (R340). -/
def execSqstat (d : XReg) (s : State) : Host.Outcome State Fault Refusal :=
  word (do
    privUnless (!s.inFirmware)
    let me ← readS State.me
    setXM d (field 0 me.sendq.length ||| field 8 (if me.ctx == .hand then 0 else me.recvq.length))) s

/-! ## dep (R361, R362) -/

/-- dep (R361, R362). -/
def execDep (a b : XReg) (target : DepTarget) (s : State) : Host.Outcome State Fault Refusal :=
  word (do
    privUnless s.isGang
    let dest ← xM a
    let v ← xM b
    match s.myRun? with
    | none => privM
    | some x => do
      trapIf (Word.bits dest 63 32 != 0 || Rec.nrank x.rec_ ≤ Word.bits dest 31 0) causeAccess dest
      trapIf (target == .fpmode && !srAdmits .fpmode v) causeAccess v
      enterClass .ms
      let e : SendEntry :=
        { dest := dest, kind := .deposit ⟨target, v⟩, len := 0, fmt := .none, payload := [], srcRank := s.me.rank,
          released := true, order := s.order, act := none }
      takeEntryM e dest
      updS (fun s => { s with order := s.order + 1 }.postOnce (.messageAccept s.cur))) s

/-- A deposit written into its target (R361, R363). -/
def Thread.deposit (t : Thread) (d : DepositVal) : Thread :=
  match d.target with
  | .xreg n => t.setX n d.value
  | .vlane n lane =>
    t.setV n (VWord.ofLanes 8 ((upTo 8).map (fun j => if j = lane.toNat then d.value.toNat else (t.getV n).lane 8 j)))
  | .vall n => t.setV n (VWord.ofLanes 8 (List.replicate 8 d.value.toNat))
  | .fpmode => { t with fpmode := d.value }

/-- Whether a deposit must follow the return of an atomic into its register (R363). -/
def Deposit.waits (s : State) (d : Deposit) : Bool :=
  match d.val.target with
  | .xreg n => (s.thread d.target).awaiting n
  | .vlane .. | .vall _ | .fpmode => false

/-- The next deposit lands (R363), and nowhere in a halted set. -/
def execDepLand (c k : Nat) (s : State) : Host.Outcome State Fault Refusal :=
  .next (match takeFirst (fun d => !Deposit.waits s d) (s.core c k).deposits with
    | none => if (s.core c k).deposits.isEmpty then s else s.postOnce (.depLand c k)
    | some (d, rest) =>
      let s := s.updCore c k (fun u => { u with deposits := rest })
      let s := if (s.thread d.target).status = .halted then s
        else (s.updThread d.target (fun t => t.deposit d.val)).edge d.target
      let s := s.leaveClass d.sender .ms
      if rest.isEmpty then s else s.postOnce (.depLand c k))

/-! ## Acceptance (R335) -/

/-- A send-queue entry leaves its queue. -/
def State.dropEntry (s : State) (t : TsId) (e : SendEntry) : State :=
  s.updThread t (fun th => { th with sendq := th.sendq.filter (fun q => !(q = e)) })

/-- A message placed at its destination: acceptance frees its entry and, but for a deposit, ends its stay in MS. RCV counts in the
accepting cluster, whatever run occupies it: of an activation's atomic whose owner stands outside the pack (R20), of which
the manual says no more, the run's own sums count SND alone (R45; DESIGN CHOICE, entry 107). -/
def State.accept (s : State) (t : TsId) (m : OutMsg) : State :=
  let l := s.laneOf t m
  match m with
  | .amo a =>
    let s := s.updThread t (fun th => { th with amoq := th.amoq.filter (fun q => !(q = a)) })
    let s := s.updCore l.cluster l.core (fun u => { u with inq := u.inq ++ [.atomic a] })
    (if a.act.isSome then s.countRcv l.cluster else s).kickH l.cluster l.core
  | .send e =>
    let s := s.dropEntry t e
    let tag := Word.bits e.dest 63 32
    let counted (s : State) : State :=
      let s := s.leaveClass t .ms
      if e.act.isSome then (s.countRcv l.cluster).acked t.cluster else s
    match e.kind with
    | .deposit d =>
      (s.updCore l.cluster l.core (fun u => { u with deposits := u.deposits ++ [⟨(s.sendTarget t e).getD t, d, t⟩] })).postOnce
        (.depLand l.cluster l.core)
    | .reply =>
      let r : RecvEntry := ⟨field 0 tag ||| field 32 e.srcRank.toNat, e.payload⟩
      counted (s.updThread ⟨l.cluster, l.core, l.set⟩ (fun th => { th with recvq := th.recvq ++ [r] }))
    | .request entry =>
      let q := InMsg.request t e.srcRank (BitVec.ofNat 32 tag) entry e.len e.payload 0
      (counted (s.updCore l.cluster l.core (fun u => { u with inq := u.inq ++ [q] }))).kickH l.cluster l.core

/-- What a thread set that held issue or slept does next: it issues, unless its run is stopping (R48, R370, R381). -/
def State.wokenStatus (s : State) (t : TsId) : TStatus :=
  let stopping := match (s.thread t).run.bind s.run? with
    | some x => x.phase != .running
    | none => false
  if stopping && (s.thread t).ctx == .gang then .stopped else .ready

/-- The return of a GANG atomic: it leaves its class, and its register awaits it no longer. -/
def State.amoDone (s : State) (t : TsId) (order : Nat) : State :=
  (s.leaveClass t .ms).updThread t (fun th => { th with awaits := th.awaits.filter (fun q => q.1 != order) })

/-- An atomic to a line whose home or DRAM is lost or down receives an error reply (R394, R396): its thread set traps HOME_DOWN as
for a poisoned one. -/
def State.amoLost (s : State) (c k : Nat) (q : AmoReq) : State :=
  match q.act with
  | some _ => s.acked q.thread.cluster
  | none =>
    (s.amoDone q.thread q.order).updThread q.thread (fun th => { th with pend := th.pend ++
      [⟨q.order, .ms, s.reach q.thread c k, causeHomeDown, q.va, if q.d = 0 then none else some q.d, none⟩] })

/-- A message to a die that is lost or down is lost. -/
def State.loseMessage (s : State) (t : TsId) (m : OutMsg) : State :=
  match m with
  | .amo a =>
    let l := s.laneOf t m
    (s.updThread t (fun th => { th with amoq := th.amoq.filter (fun q => !(q = a)) })).amoLost l.cluster l.core a
  | .send e =>
    let s := (s.dropEntry t e).leaveClass t .ms
    if e.act.isSome then s.acked t.cluster else s

/-- The next released message of a thread set is accepted, if its destination has a place (R335, R362). -/
def execMessageAccept (t : TsId) (s : State) : Host.Outcome State Fault Refusal :=
  .next (
    let ms := s.outgoing t
    if ms.isEmpty then s
    else match s.pickFree (s.firstOuts t ms []) with
    | (s, some m) => (if s.gone (s.laneOf t m).cluster then s.loseMessage t m else s.accept t m).postOnce (.messageAccept t)
    | (s, none) => s.postOnce (.messageAccept t))

/-! ## Handlers (R336, R337, R364) -/

/-- The rule record under which a handler runs: 256 lines (R337). -/
def handlerRule : Rule :=
  { kinds := [], prio := 0, paired := false, usesMat := false, usesClause := false, preds := [], foot := 256, entry := 0 }

/-- The registers of a thread set at the start of an activation or handler (R34, R336), apart from what it is given. -/
def Thread.startBody (t : Thread) (pc fpmode : Word) : Thread :=
  { t with x := Vector.replicate 32 0, v := Vector.replicate 32 0, h := Vector.replicate 16 0, p := Thread.reset.p, pc := pc,
           mode := false, intrap := false, fpmode := fpmode, fpflags := 0, spillsp := t.spillbase, status := .ready,
           wait := none, refused := none, rep := none, pend := [], shadow := Vector.replicate 8 0, nextCopy := 1, copies := [], count := 0,
           sub := 0, chain := Chain.closed }

/-- FPMODE as a run record gives it (R34). -/
def Run.fpmode (x : Run) : Word := BitVec.ofNat 64 (Rec.fpmode x.rec_)

/-- Whether handlers of a run may start: while it runs, and while it stops (R48, R370, R380, R381). -/
def Run.serves (x : Run) : Bool :=
  match x.phase with
  | .running | .stopping | .draining => true
  | _ => false

/-- A new activation or handler record. -/
def Act.fresh (handler : Bool) (cluster : Nat) (owner : TsId) (rule : Rule) : Act :=
  { handler := handler, cluster := cluster, owner := owner, partner := none, rule := rule, ruleIx := 0, ages := [], slot := 0, gen := 0,
    tent := [], marks := [], outside := [], products := [], runqs := [], amos := [], fork := none, phase := 0, stream := [], scans := [],
    pend := [], ending := none, rolled := none }

/-- A handler starts (R132, R336, R337). -/
def State.startHandler (s : State) (r : Nat) (x : Run) (c k : Nat) (m : InMsg) : State :=
  match m with
  | .atomic _ => s
  | .request _ rank tag entry len payload _ =>
    let t := handSet c k
    let sq := (s.core c k).handlerSeq + 1
    let id : Word := field 0 sq.toNat ||| field 32 (s.hub.logical kindCluster c) ||| field 48 1 ||| field 49 k
    let key : ActKey := ⟨r, id, 0⟩
    let s := s.updCore c k (fun u => { u with handlerSeq := sq, inq := u.inq.drop 1 })
    let s := s.setAct key (Act.fresh true c t handlerRule)
    (s.updThread t (fun th =>
      let th := th.startBody entry x.fpmode
      { (((th.setX 1 (rank.setWidth 64)).setX 2 (tag.setWidth 64)).setX 3 (BitVec.ofNat 64 len)).setV 30 (VWord.ofBytes payload)
        with ctx := .hand, actid := id, act := some key, run := some r, msg := some m,
             arb := (s.cluster c).kennel.lastRound })).edge t

/-- Whether a core starts handlers of a run: a fenced one only until the pack that is being pre-empted for it has come to
rest (R381, R392; DEDUCED, entry 101). -/
def State.serves (s : State) (c k : Nat) (x : Run) : Bool := x.serves && (!(s.core c k).fenced || x.phase != .running)

/-- The handler of the next request starts, when H is idle (R336). On a fenced core it waits until its pack is being stopped. -/
def execHandlerStart (c k : Nat) (s : State) : Host.Outcome State Fault Refusal :=
  .next (
    if (s.thread (handSet c k)).act.isSome then s
    else match (s.core c k).inq, (s.cluster c).run, (s.cluster c).run.bind s.run? with
    | .request a b d e f g h :: _, some r, some x =>
      if s.serves c k x then s.startHandler r x c k (.request a b d e f g h)
      else if x.phase = .running then s.postOnce (.handlerStart c k)
      else s
    | _, _, _ => s)

/-- hret (R336): the commit follows. -/
def execHret (s : State) : Host.Outcome State Fault Refusal :=
  M.outcome (do
    privUnless s.isHand
    match s.me.act with
    | some k => updS (fun s => s.endAct k (fun a => { a with ending := some .done }))
    | none => privM) s

/-- What an activation or handler has buffered in the queues of thread sets is discarded (R37). -/
def State.dropBuffered (s : State) (k : ActKey) : State :=
  let clean (t : Thread) : Thread := { t with sendq := t.sendq.filter (fun e => !(e.act = some k ∧ !e.released)) }
  { s with threads := s.threads.map (fun t => (t.1, clean t.2)) }

/-- H is free after a handler, and serves the next message. -/
def State.freeHand (s : State) (t : TsId) : State := ((s.updThread t Thread.freed).forgetMiss t).kickH t.cluster t.core

/-- RUNID of a cluster's run. -/
def State.runidAt (s : State) (c : Nat) : Word := (((s.cluster c).run.bind s.run?).map Run.id).getD 0

/-- A fault-queue entry of a run, of a cause other than a page fault (R376). -/
def State.causeEntryOf (s : State) (r : Option Nat) (cause : Nat) (va : Word) (agent c core rank tag : Nat) : State :=
  match r.bind s.run? with
  | some x => s.queueFault x.vf (faultEntry va cause 0 agent (s.hub.logical kindCluster c) core rank x.id 0 tag)
  | none => s

/-- One of the run that occupies the cluster. -/
def State.causeEntry (s : State) (cause : Nat) (va : Word) (agent c core rank tag : Nat) : State :=
  s.causeEntryOf (s.cluster c).run cause va agent c core rank tag

/-- A message with one more failed try. -/
def InMsg.again : InMsg → InMsg
  | .request a b d e f g n => .request a b d e f g (n + 1)
  | m => m

def InMsg.tries : InMsg → Nat
  | .request _ _ _ _ _ _ n => n
  | .atomic _ => 0

/-- The fault-queue entry of a rolled-back handler (R38, R364, R389): each poison rollback, and the second of the others;
none for one that a warm reset rolls back (cause 0, R396). -/
def State.rollEntry (s : State) (c k cause : Nat) (v : Word) (m : InMsg) : State :=
  match m with
  | .request _ rank tag entry _ _ tries =>
    if cause = causePoison then s.causeEntry cause v 4 c k 0 0
    else if tries = 0 ∨ cause = 0 then s
    else s.causeEntry cause entry 4 c k rank.toNat tag.toNat
  | .atomic _ => s

/-- The rollback of a handler (R38, R364, R389): its message runs again once, then it is dropped. The manual counts two failures
of one kind; a message has one count whatever failed each time (DESIGN CHOICE, entry 84). -/
def State.rollBack (s : State) (c k : Nat) (key : ActKey) (cause : Nat) (v : Word) : State :=
  let t := handSet c k
  let s := (s.dropBuffered key).dropAct key
  let s := match (s.thread t).msg with
    | some m =>
      let s := s.rollEntry c k cause v m
      if m.tries = 0 then s.updCore c k (fun u => { u with inq := m.again :: u.inq }) else s
    | none => s
  s.freeHand t

/-- A handler that is to be rolled back ends (R364). -/
def execHandlerLimit (c k : Nat) (s : State) : Host.Outcome State Fault Refusal :=
  .next (
    let th := s.thread (handSet c k)
    match th.act, th.act.bind s.act? with
    | some key, some a =>
      match a.rolled with
      | some (cause, v) =>
        if th.cnt.ld != 0 || th.cnt.st != 0 then s.postOnce (.handlerLimit c k) else s.rollBack c k key cause v
      | none => s
    | _, _ => s)

/-! ## Atomics (R355 to R359) -/

/-- The checks of `amo` up to its home (R356), and the physical address. -/
def amoCheckM (va : Word) (size : Nat) : M Nat := do
  trapIf (2 ^ 49 ≤ va.toNat) causeAccess va
  trapIf (inScratch va.toNat) causeAccess va
  trapIf (va.toNat % size != 0) causeMisalignAmo va
  let pa ← translateM .rw .atomic va
  let s ← readS id
  match s.place pa with
  | .error e => physTrap e va
  | .ok p => do
    trapIf (p != .dram) causeAccess va
    trapIf (s.homeDown (s.vfOf s.cur) pa) causeHomeDown va
    pure pa

/-- A GANG atomic is under way: of those that are to write one register the last issued will. -/
def Thread.amoSent (t : Thread) (q : AmoReq) : Thread :=
  { t with amoq := t.amoq ++ [q],
           awaits := t.awaits.filter (fun w => w.2 != q.d) ++ (if q.d = 0 then [] else [(q.order, q.d)]) }

/-- FN of an atomic (R65). -/
def AmoKind.code : AmoKind → Nat
  | .add => 0 | .min => 1 | .max => 2 | .minu => 3 | .maxu => 4 | .and => 5 | .or => 6 | .xor => 7 | .swap => 8 | .cas => 9
  | .fadd => 10

/-- amo (R355, R356, R358): a GANG atomic is sent at once, and its register awaits the return; an activation buffers. -/
def amo (kind : AmoKind) (o : AmoOp) (s : State) : Host.Outcome State Fault Refusal :=
  word (do
    userM
    let base ← xM o.a
    let va := base + o.e.signExtend 64
    let size := if o.dbl then 8 else 4
    let pa ← amoCheckM va size
    let operand ← xM o.b
    let compare ← (if kind = .cas then xM o.d else pure 0)
    let s ← readS id
    let q : AmoReq := { thread := s.cur, act := s.me.act, order := s.order, kind := kind, dbl := o.dbl, va := va, pa := pa,
                        bits := s.pageBits va, operand := operand, compare := compare, d := o.d }
    match s.me.act, s.myAct? with
    | some k, some a => do
      trapIf (64 ≤ a.amos.length) causeFootprint amoTval
      updS (fun s => ({ s with order := s.order + 1 }.updAct k (fun a => { a with amos := a.amos ++ [q] })).stream
        [va, BitVec.ofNat 64 kind.code, BitVec.ofNat 64 size, operand, compare])
    | _, _ => do
      enterClass .ms
      updS (fun s => ({ s with order := s.order + 1 }.updMe (fun t => t.amoSent q)).postOnce (.messageAccept s.cur))) s

def execAmoAdd (o : AmoOp) (s : State) : Host.Outcome State Fault Refusal := amo .add o s
def execAmoMin (o : AmoOp) (s : State) : Host.Outcome State Fault Refusal := amo .min o s
def execAmoMax (o : AmoOp) (s : State) : Host.Outcome State Fault Refusal := amo .max o s
def execAmoMinu (o : AmoOp) (s : State) : Host.Outcome State Fault Refusal := amo .minu o s
def execAmoMaxu (o : AmoOp) (s : State) : Host.Outcome State Fault Refusal := amo .maxu o s
def execAmoAnd (o : AmoOp) (s : State) : Host.Outcome State Fault Refusal := amo .and o s
def execAmoOr (o : AmoOp) (s : State) : Host.Outcome State Fault Refusal := amo .or o s
def execAmoXor (o : AmoOp) (s : State) : Host.Outcome State Fault Refusal := amo .xor o s
def execAmoSwap (o : AmoOp) (s : State) : Host.Outcome State Fault Refusal := amo .swap o s
def execAmoCas (o : AmoOp) (s : State) : Host.Outcome State Fault Refusal := amo .cas o s
def execAmoFadd (o : AmoOp) (s : State) : Host.Outcome State Fault Refusal := amo .fadd o s

/-- The new value of an application, over w bits (R357); none where nothing is written. -/
def AmoKind.apply (k : AmoKind) (w old operand compare : Nat) : Option Nat × Flags :=
  let a := BitVec.ofNat w old
  let b := BitVec.ofNat w operand
  let plain (v : BitVec w) : Option Nat × Flags := (some v.toNat, Flags.none)
  match k with
  | .add => plain (a + b)
  | .min => plain (if b.slt a then b else a)
  | .max => plain (if a.slt b then b else a)
  | .minu => plain (if b.ult a then b else a)
  | .maxu => plain (if a.ult b then b else a)
  | .and => plain (a &&& b)
  | .or => plain (a ||| b)
  | .xor => plain (a ^^^ b)
  | .swap => plain b
  | .cas => (if a = BitVec.ofNat w compare then some b.toNat else none, Flags.none)
  | .fadd =>
    let r := fp32.add .rne false (fp32.decode old) (fp32.decode operand)
    (some (if r.bits = 2 ^ 31 then 0 else r.bits), r.flags)

/-- The return of an application (R358): its value in GANG code; an acknowledgement otherwise. -/
def State.amoReply (s : State) (c k : Nat) (q : AmoReq) (value : Word) (fl : Flags) (poison : Bool) : State :=
  match q.act with
  | none =>
    let r : AmoRet := ⟨c, q.d, value, fl, poison, q.order, q.va, s.reach q.thread c k⟩
    { s with returns := s.returns ++ [(q.thread, r)] }.post (.amoReturn q.thread)
  | some a =>
    let s := s.acked q.thread.cluster
    if poison then s.causeEntryOf (some a.run) causePoison q.va 4 c k 0 0 else s.flagsOf (handSet c k) fl

/-- An atomic applied at its owner, as one event (R357); none while a relayout engine holds its line (R349). It waits for
nothing else: it takes no way of its set where there is none (R366; DEDUCED, entry 105). -/
def State.amoApplied (s : State) (c k : Nat) (q : AmoReq) : Option State :=
  let n := if q.dbl then 8 else 4
  let vf := s.amoVf q
  if s.homeDown vf q.pa then some (s.amoLost c k q)
  else if s.lineHeld (q.pa / 256) then none
  else if s.poisonAt q.pa n then some (s.amoReply c k q 0 0 true)
  else
    let s := s.pullNow vf q.pa n
    let old := leNat (s.bytesAt q.pa n)
    let (new, fl) := q.kind.apply (8 * n) old (q.operand.toNat % 2 ^ (8 * n)) (q.compare.toNat % 2 ^ (8 * n))
    let s := match new with
      | some v => s.storeNow vf q.pa (leBytes n v)
      | none => s
    some (s.amoReply c k q (BitVec.ofNat 64 old) fl false)

/-- The owner's H set applies the atomic at the head of its queue, between handlers (R359). -/
def execAmoApply (c k : Nat) (s : State) : Host.Outcome State Fault Refusal :=
  .next (
    if (s.thread (handSet c k)).act.isSome then s
    else match (s.core c k).inq with
    | .atomic q :: rest =>
      match s.amoApplied c k q with
      | some s => (s.updCore c k (fun u => { u with inq := rest })).kickH c k
      | none => s.postOnce (.amoApply c k)
    | _ => s)

/-- The returns that may reach a thread set next: of each owner's cluster to the thread set's the first (R198). -/
def firstReturns (t : TsId) : List (TsId × AmoRet) → List (Nat × Nat) → List (TsId × AmoRet)
  | [], _ => []
  | r :: rs, seen =>
    let pair := (r.2.source, r.1.cluster)
    let rest := firstReturns t rs (pair :: seen)
    if r.1 == t && !seen.contains pair then r :: rest else rest

/-- The return of a GANG atomic (R358, R359): its register is written and it leaves the MS class. -/
def execAmoReturn (t : TsId) (s : State) : Host.Outcome State Fault Refusal :=
  .next (match s.pickFree (firstReturns t s.returns []) with
    | (s, none) => if s.returns.any (·.1 == t) then s.post (.amoReturn t) else s
    | (s, some (_, r)) =>
      let due := (s.thread t).awaits.contains (r.order, r.d)
      let s := { s with returns := s.returns.erase (t, r) }.amoDone t r.order
      if r.poison then
        s.updThread t (fun th => { th with pend := th.pend ++
          [⟨r.order, .ms, r.reach, causePoison, r.va, if r.d = 0 then none else some r.d, none⟩] })
      else ((s.updThread t (fun th => if due then th.setX r.d r.value else th)).flagsOf t r.flags).edge t)

end Sys2Proof.Machine
end

