-- ==== Sys2Proof/Machine/Kennel.lean ====
section
/-! DEFINITION. Kennels (R10 to R14, R20, R22 to R50): tiles and candidates, arbitration rounds and the start of activations,
commits and the other endings, paired twins (R390 to R392), the insertion of products, and the whistle. -/
namespace Sys2Proof.Machine

/-! ## Tiles (R20, R22) -/

def Tile.ofBits (b : BitVec 256) : Tile :=
  { kind := b.extractLsb' 0 16, prog := b.extractLsb' 16 8, ovf := b.getLsbD 24, age := b.extractLsb' 32 32,
    key := b.extractLsb' 64 64, f0 := b.extractLsb' 128 32, f1 := b.extractLsb' 160 32, f2 := b.extractLsb' 192 32,
    f3 := b.extractLsb' 224 32 }

def Tile.bits (t : Tile) : BitVec 256 :=
  t.f3 ++ t.f2 ++ t.f1 ++ t.f0 ++ t.key ++ t.age ++ (0 : BitVec 7) ++ BitVec.ofBool t.ovf ++ t.prog ++ t.kind

def Tile.bytes (t : Tile) : List Byte := leBytes 32 t.bits.toNat

/-- The home kennel of a key (R20): the cluster that the key map gives for its bucket. -/
def State.homeOf (s : State) (x : Run) (key : Word) : Nat := x.keymap.getD ((s.fn x.vf).bucket key.toNat) x.node

/-! ## Candidates (R11, R25, R27 to R29) -/

/-- Field FA of a tile (R25). -/
def Tile.field (t : Tile) (fa : Nat) : BitVec 32 :=
  match fa with
  | 0 => t.f0
  | 1 => t.f1
  | 2 => t.f2
  | 3 => t.f3
  | 4 => t.prog.setWidth 32
  | 5 => t.key.extractLsb' 0 32
  | 6 => t.key.extractLsb' 32 32
  | _ => t.age

/-- A comparison of R25. -/
def predHolds (op : Nat) (a b : BitVec 32) : Bool :=
  match op with
  | 0 => a == b
  | 1 => a != b
  | 2 => a.slt b
  | 3 => a.sle b
  | 4 => a.ult b
  | 5 => a.ule b
  | _ => a &&& b == b

def tileAt (g : List Tile) (i : Nat) : Tile := (g[i]?).getD (Tile.ofBits 0)

/-- A predicate on a group in canonical order. -/
def RulePred.holds (p : RulePred) (g : List Tile) : Bool :=
  predHolds p.op ((tileAt g p.ti).field p.fa) (if p.kc then p.cval else (tileAt g p.tj).field p.fb)

/-- Whether a tile can take the next position of a group, of the kind given: the key is shared, and among positions of one
kind ages ascend (R27). -/
def fitsNext (chosen : List Tile) (kind : BitVec 16) (t : Tile) : Bool :=
  t.kind == kind && chosen.all (fun u => u.key == t.key && (u.kind != kind || u.age.ult t.age))

/-- The groups of tiles in canonical order that fill the positions that remain, in ascending age list when the tiles are in
ascending age. -/
def groupsOf (tiles : List Tile) : List (BitVec 16) → List Tile → List (List Tile)
  | [], chosen => [chosen]
  | k :: ks, chosen => (tiles.filter (fitsNext chosen k)).flatMap (fun t => groupsOf tiles ks (chosen ++ [t]))

/-- The groups that satisfy a rule. -/
def Rule.groups (r : Rule) (tiles : List Tile) : List (List Tile) :=
  (groupsOf tiles r.kinds []).filter (fun g => r.preds.all (fun p => p.holds g))

/-- The pairs of rule index and age list that satisfy a rule, in the order of R11. -/
def satisfying (tiles : List Tile) : List Rule → Nat → List (Nat × List (BitVec 32))
  | [], _ => []
  | r :: rs, i => (r.groups tiles).map (fun g => (i, g.map (·.age))) ++ satisfying tiles rs (i + 1)

/-- A candidate in the lowest free slot, if there is one (R11). -/
def placeCand (cands : List Cand) (g : Nat × List (BitVec 32)) : List Cand :=
  if cands.any (fun c => c.rule == g.1 && c.ages == g.2) then cands
  else match (upTo candSlots).find? (fun i => !cands.any (fun c => c.slot == i)) with
    | some i => insertBy Cand.slot ⟨i, g.1, g.2, 0, false⟩ cands
    | none => cands

/-- Candidates form in the free slots (R11, R29). -/
def Kennel.form (n : Kennel) (rules : List Rule) : Kennel :=
  { n with cands := (satisfying (n.tiles.map (·.tile)) rules 0).foldl placeCand n.cands }

/-! ## Slots and the overflow ring (R44) -/

/-- Tile slots of a kennel's ring. -/
def Run.ringCap (x : Run) : Nat := Rec.ovfcap x.rec_ / (Rec.packw x.rec_ * Rec.packh x.rec_ * 32)

/-- Free ring tiles return, oldest first, while a kennel slot is free. -/
def ringBack : Nat → Kennel → Nat → Kennel
  | 0, n, _ => n
  | fuel + 1, n, cap =>
    match n.ring with
    | [] => n
    | t :: rest =>
      if kennelSlots ≤ n.tiles.length + n.resSlots then n
      else ringBack fuel { n with ring := rest, ringHead := (n.ringHead + 1) % max 1 cap,
                                  tiles := insertBy (fun u => u.tile.age.toNat) ⟨{ t with ovf := false }, false⟩ n.tiles } cap

def Kennel.ringReturn (n : Kennel) (cap : Nat) : Kennel := ringBack n.ring.length n cap

/-- Consumed tiles leave, with the candidates that name them (R11, R36). -/
def Kennel.consume (n : Kennel) (ages : List (BitVec 32)) : Kennel :=
  let gone := n.tiles.filter (fun t => ages.contains t.tile.age)
  { n with tiles := n.tiles.filter (fun t => !ages.contains t.tile.age), rem := n.rem + gone.length,
           cands := n.cands.filter (fun c => !c.ages.any ages.contains) }

/-- The tiles of an ended activation return free (R28). -/
def Kennel.release (n : Kennel) (ages : List (BitVec 32)) : Kennel :=
  { n with tiles := n.tiles.map (fun t => if ages.contains t.tile.age then { t with held := false } else t) }

/-- An inserted tile's stamp (R10, R22), and the rejected marks that its kind clears (R13). Past 2^32 - 1 insertions the 32-bit
AGE begins again from 0: the manual gives no end of the counter (DESIGN CHOICE, entry 86). -/
def Kennel.stamp (n : Kennel) (rules : List Rule) (b : BitVec 256) (ovf : Bool) : Kennel × Tile :=
  let t := { Tile.ofBits b with age := n.ageCtr, ovf := ovf }
  let uses (c : Cand) : Bool := ((rules[c.rule]?).map (fun r => r.kinds.contains t.kind)).getD false
  ({ n with ageCtr := n.ageCtr + 1, ins := n.ins + 1,
            cands := n.cands.map (fun c => if uses c then { c with rejected := false } else c) }, t)

/-- A tile placed in a kennel slot. -/
def Kennel.addTile (n : Kennel) (t : Tile) : Kennel := { n with tiles := n.tiles ++ [⟨t, false⟩] }

/-! ## The order of a round (R12, R162, R163) -/

def listBefore : List (BitVec 32) → List (BitVec 32) → Bool
  | a :: as, b :: bs => if a = b then listBefore as bs else a.ult b
  | _, _ => false

/-- The age of a candidate's oldest tile. -/
def Cand.oldest (c : Cand) : BitVec 32 := c.ages.foldl (fun m a => if a.ult m then a else m) (BitVec.allOnes 32)

def Cand.promoted (c : Cand) : Bool := 8 ≤ c.skips

/-- Whether a candidate is decided before another. -/
def Cand.before (rules : List Rule) (a b : Cand) : Bool :=
  let prio (c : Cand) : Nat := ((rules[c.rule]?).map (·.prio)).getD 0
  let tail : Bool :=
    if a.oldest ≠ b.oldest then a.oldest.ult b.oldest
    else if a.rule ≠ b.rule then a.rule < b.rule
    else listBefore (a.ages.erase a.oldest) (b.ages.erase b.oldest)
  if a.promoted && b.promoted then (if a.skips ≠ b.skips then b.skips < a.skips else tail)
  else if a.promoted != b.promoted then a.promoted
  else if prio a ≠ prio b then prio b < prio a else tail

def insertWith {α : Type} (before : α → α → Bool) (a : α) : List α → List α
  | [] => [a]
  | b :: bs => if before a b then a :: b :: bs else b :: insertWith before a bs

def sortWith {α : Type} (before : α → α → Bool) (l : List α) : List α := l.foldl (fun acc a => insertWith before a acc) []

/-- An entry of the arbiter's trail. -/
structure TrailEntry where
  cand : Cand
  value : Bool
  level : Nat
  decided : Bool
  deriving DecidableEq, Repr

/-- The round of R163: the loaded candidates in slot order, those still to be visited in decision order. -/
def arbitrate (loaded : List Cand) : List Cand → Nat → List TrailEntry → List TrailEntry
  | [], _, trail => trail
  | c :: cs, level, trail =>
    if trail.any (fun e => e.cand.slot == c.slot) then arbitrate loaded cs level trail
    else
      let forced := loaded.filter (fun d => d.slot != c.slot && d.ages.any c.ages.contains &&
        !trail.any (fun e => e.cand.slot == d.slot))
      arbitrate loaded cs (level + 1)
        (trail ++ ⟨c, true, level + 1, true⟩ :: forced.map (fun d => ⟨d, false, level + 1, false⟩))

/-- The record of a round (R14, R164); ROUND is the number modulo 65536, which the manual leaves open past its 16 bits (DESIGN
CHOICE, entry 86). -/
def roundRecord (round : Nat) (loaded : List Cand) (trail : List TrailEntry) (started : List Nat) : RoundRec :=
  let ndec := (trail.filter (·.decided)).length
  { summary := field 0 (round % 65536) ||| field 16 loaded.length ||| field 24 ndec ||| field 32 (trail.length - ndec) |||
      field 40 started.length ||| field 48 (loaded.filter Cand.promoted).length,
    trail := trail.map (fun e => field 0 e.cand.slot ||| field 7 e.value.toNat ||| field 8 e.level |||
      field 16 e.decided.toNat ||| field 17 (started.contains e.cand.slot).toNat ||| field 32 e.cand.rule) }

/-! ## Starting activations (R32 to R35, R152, R390, R391) -/

/-- The partner of a core for twins (R32). -/
def partnerCore (k : Nat) : Nat := (k / 4 + 2) % 4 * 4 + (k % 4 + 2) % 4

/-- A thread set that runs nothing, on a core that is not fenced. -/
def State.setFree (s : State) (t : TsId) : Bool :=
  (s.thread t).status == .idle && (s.thread t).act.isNone && !(s.core t.cluster t.core).fenced

/-- The cores of a run in a cluster in the order in which an activation looks at them: the one that holds the logical number
of the owner core of its tile 0, if that is below CORES; then all of them in ascending number (R32; DEDUCED, entry 87). -/
def State.coreOrder (s : State) (x : Run) (c : Nat) (key : Word) : List Nat :=
  let o := (s.fn x.vf).ownerBits key.toNat
  (if o < Rec.cores x.rec_ then [x.coreAt c o] else []) ++ sortBy id ((upTo (Rec.cores x.rec_)).map (x.coreAt c))

/-- The thread set of an unpaired activation. -/
def State.pickSet (s : State) (x : Run) (c : Nat) (key : Word) : Option TsId :=
  (s.coreOrder x c key).findSome? (fun k =>
    ((upTo (Rec.threads x.rec_)).find? (fun i => s.setFree ⟨c, k, i⟩)).map (fun i => ⟨c, k, i⟩))

/-- The thread sets of a pair, on no core of a list. -/
def State.pickPairOff (s : State) (x : Run) (c : Nat) (key : Word) (avoid : List Nat) : Option (TsId × TsId) :=
  (s.coreOrder x c key).findSome? (fun k =>
    let p := partnerCore k
    if avoid.contains k || avoid.contains p then none
    else ((upTo (Rec.threads x.rec_)).find? (fun i => s.setFree ⟨c, k, i⟩ && s.setFree ⟨c, p, i⟩)).map
      (fun i => (⟨c, k, i⟩, ⟨c, p, i⟩)))

/-- The thread sets of a pair: off the cores of the last mismatch where one qualifies (R391). -/
def State.pickPair (s : State) (x : Run) (c : Nat) (key : Word) (avoid : List Nat) : Option (TsId × TsId) :=
  match s.pickPairOff x c key avoid with
  | some p => some p
  | none => s.pickPairOff x c key []

/-- What the device remembers of a candidate. -/
def State.rollback (s : State) (c rule : Nat) (ages : List (BitVec 32)) : Rollback :=
  (s.rollbacks.find? (fun r => r.cluster == c && r.rule == rule && r.ages == ages)).getD
    { cluster := c, rule := rule, ages := ages, poison := 0, avoid := [] }

def State.dropRollback (s : State) (c rule : Nat) (ages : List (BitVec 32)) : State :=
  { s with rollbacks := s.rollbacks.filter (fun r => !(r.cluster == c && r.rule == rule && r.ages == ages)) }

def State.setRollback (s : State) (r : Rollback) : State :=
  let s := s.dropRollback r.cluster r.rule r.ages
  { s with rollbacks := s.rollbacks ++ [r] }

/-- The bytes of the tile at a position of a group; zeros beyond the group. -/
def groupBytes (g : List Tile) (i : Nat) : List Byte := ((g[i]?).map Tile.bytes).getD (List.replicate 32 0)

/-- The thread set of an activation begins (R34, R35, R132); a poisoned tile among those it is given traps its first word
(R386, R389; entry 96). -/
def State.beginAct (s : State) (r : Nat) (x : Run) (t : TsId) (key : ActKey) (rule : Rule) (ix : Nat) (g : List Tile) : State :=
  (s.updThread t (fun th =>
    let th := th.startBody rule.entry x.fpmode
    let th := ((th.setX 1 (BitVec.ofNat 64 g.length)).setX 2 key.actid).setX 3 (BitVec.ofNat 64 ix)
    let th := (th.setV 30 (VWord.ofBytes (groupBytes g 0 ++ groupBytes g 1))).setV 31 (VWord.ofBytes (groupBytes g 2 ++ groupBytes g 3))
    { th with ctx := .act, actid := key.actid, act := some key, run := some r, msg := none,
              ecc := th.ecc || g.any (fun u => (s.cluster t.cluster).kennel.bad.contains u.age) })).edge t

/-- The activation record of a candidate. -/
def Act.ofCand (c gen : Nat) (owner : TsId) (rule : Rule) (d : Cand) (partner : Option ActKey) : Act :=
  { Act.fresh false c owner rule with ruleIx := d.rule, ages := d.ages, slot := d.slot, gen := gen, partner := partner }

/-- The thread sets for a decided candidate; none when it finds none, or the clause array it needs is held (R32, R152). -/
def State.setsFor (s : State) (x : Run) (c : Nat) (rule : Rule) (d : Cand) (key : Word) : Option (TsId × Option TsId) :=
  if rule.usesClause && (s.cluster c).clause.holder.isSome then none
  else if rule.paired then (s.pickPair x c key (s.rollback c d.rule d.ages).avoid).map (fun p => (p.1, some p.2))
  else (s.pickSet x c key).map (fun t => (t, none))

/-- The cores of a mismatched pair are avoided by the next start only (R391). -/
def State.avoided (s : State) (c : Nat) (d : Cand) : State :=
  let q := s.rollback c d.rule d.ages
  if q.avoid.isEmpty then s else if q.poison = 0 then s.dropRollback c d.rule d.ages else s.setRollback { q with avoid := [] }

/-- A decided candidate starts, if it finds its thread sets; its tiles are held. The activation's key. -/
def State.startCand (s : State) (r : Nat) (x : Run) (c : Nat) (d : Cand) : Option (State × ActKey) :=
  match x.rules[d.rule]? with
  | none => none
  | some rule =>
    let n := (s.cluster c).kennel
    let g := d.ages.filterMap (fun a => (n.tiles.find? (fun t => t.tile.age == a)).map (·.tile))
    (s.setsFor x c rule d (tileAt g 0).key).map (fun p =>
      let sq := n.actSeq + 1
      let id : Word := field 0 sq.toNat ||| field 32 (s.hub.logical kindCluster c)
      let k0 : ActKey := ⟨r, id, 0⟩
      let k1 : ActKey := ⟨r, id, 1⟩
      let s := (s.avoided c d).updKennel c (fun n =>
        { n with actSeq := sq, tiles := n.tiles.map (fun t => if d.ages.contains t.tile.age then { t with held := true } else t) })
      let s := if rule.usesClause then
        s.updClause c (fun u => { u with holder := some (.act k0), claimed := false, poisoned := false }) else s
      (match p.2 with
      | none => (s.setAct k0 (Act.ofCand c x.gen p.1 rule d none)).beginAct r x p.1 k0 rule d.rule g
      | some t1 =>
        let s := (s.setAct k0 (Act.ofCand c x.gen p.1 rule d (some k1))).setAct k1 (Act.ofCand c x.gen t1 rule d (some k0))
        (s.beginAct r x p.1 k0 rule d.rule g).beginAct r x t1 k1 rule d.rule g, k0))

/-- The decided candidates start in decision order; with the slots of those that did, and their activations. -/
def State.startAll (s : State) (r : Nat) (x : Run) (c : Nat) : List Cand → List (Nat × ActKey) → State × List (Nat × ActKey)
  | [], done => (s, done)
  | d :: ds, done =>
    match s.startCand r x c d with
    | some (s, k) => s.startAll r x c ds (done ++ [(d.slot, k)])
    | none => s.startAll r x c ds done

/-- Whether a run's kennels hold rounds (R13, R17, R49, R380). -/
def Run.holdsRounds (x : Run) : Bool :=
  x.phase == .running && Rec.isReact x.rec_ && x.replace.isNone && (Rec.firelim x.rec_ == 0 || x.firings < Rec.firelim x.rec_)

/-- A round (R30 to R32, R162 to R164): its record goes to the activations that it starts. -/
def State.holdRound (s : State) (r : Nat) (x : Run) (c : Nat) : State :=
  let n := (s.cluster c).kennel
  let loaded := n.cands.filter n.enabledCand
  let trail := arbitrate loaded (sortWith (Cand.before x.rules) loaded) 0 []
  let (s, begun) := s.startAll r x c ((trail.filter (·.decided)).map (·.cand)) []
  let started := begun.map (·.1)
  let rec_ := roundRecord (n.rounds + 1) loaded trail started
  let skipped (d : Cand) : Bool := loaded.any (fun e => e.slot == d.slot) && !started.contains d.slot
  let s := s.updKennel c (fun n =>
    { n with rounds := n.rounds + 1, lastRound := rec_, lastStart := s.fclk,
             cands := n.cands.map (fun d => if skipped d then { d with skips := d.skips + 1 } else d) })
  (s.acts.filter (fun a => begun.any (fun b => b.2 == { a.1 with twin := 0 }))).foldl (fun s a => s.updThread a.2.owner (fun th => { th with arb := rec_ })) s

/-- A round is held when a candidate is enabled and a thread set of the run is free (R13). -/
def execArbitrationRound (c : Nat) (s : State) : Host.Outcome State Fault Refusal :=
  .next (match (s.cluster c).run, (s.cluster c).run.bind s.run? with
    | some r, some x =>
      let n := (s.cluster c).kennel
      if x.holdsRounds && n.cands.any n.enabledCand && !(s.freeSets r x c).isEmpty then s.holdRound r x c else s
    | _, _ => s)

/-- 64 FCLK since the previous round make one due (R13). -/
def execRoundTimer (c : Nat) (s : State) : Host.Outcome State Fault Refusal :=
  .next (
    if (s.cluster c).kennel.lastStart + 64 ≤ s.fclk && ((s.cluster c).run.bind s.run?).any Run.holdsRounds then
      (s.updKennel c (fun n => { n with lastStart := s.fclk })).roundDue c
    else s)

/-! ## Endings (R36, R37, R129 to R131) -/

/-- Whether an asynchronous operation of an activation or handler is still under way. -/
def State.actBusy (s : State) (k : ActKey) : Bool :=
  s.clusters.any (fun c => c.2.copies.any (fun q => q.act == some k) || c.2.moves.any (fun m => m.act == some k)) ||
    s.mcrds.any (fun q => q.2.act == some k) ||
    s.threads.any (fun t => t.2.act == some k && (t.2.cnt.ld != 0 || t.2.cnt.st != 0))

/-- The thread sets that work for an activation or handler. -/
def State.setsOf (s : State) (k : ActKey) (a : Act) : List TsId :=
  (a.owner :: (match a.fork with
    | some r => r.helpers
    | none => [])).filter (fun t => (s.thread t).act == some k)

/-- The failure that `done` reports, of those of the activation (R131). -/
def State.actPend (s : State) (k : ActKey) (a : Act) : Option PendTrap :=
  firstPend (fun _ => true) ((s.setsOf k a).flatMap (fun t => (s.thread t).pend) ++ a.pend)

/-- The ending is undone and the trap is taken at its word (R131). -/
def State.endTrap (s : State) (k : ActKey) (a : Act) (cause : Nat) (v : Word) : Host.Outcome State Fault Refusal :=
  let s := s.updAct k (fun a => { a with ending := none })
  let s := s.updThread a.owner (fun th => { th with status := .ready })
  { s with cur := a.owner }.takeTrap cause v

/-- The failure that the ending reports is no longer pending. -/
def State.dropPend (s : State) (k : ActKey) (a : Act) (p : PendTrap) : State :=
  let s := (s.setsOf k a).foldl (fun s t => s.updThread t (fun th => { th with pend := th.pend.erase p })) s
  s.updAct k (fun a => { a with pend := a.pend.erase p })

/-- The leashes that an activation still holds through sets that have left it at `join` are freed (R130, R309). -/
def State.freeLeashes (s : State) (k : ActKey) : State :=
  ((s.clusters.filter (fun c => c.2.array.holderAct == some k)).map (·.1)).foldl (fun s c => s.freeLeash c) s

/-- The thread sets of an ended activation run nothing, its leash and its clause array are free (R130); a handler's core serves
its next message. -/
def State.freeSetsOf (s : State) (k : ActKey) (a : Act) : State :=
  let s := ((s.setsOf k a).foldl (fun s t => s.closeChain t) s).freeLeashes k
  let s := s.releaseClause a.cluster (.act { k with twin := 0 })
  if a.handler then s.freeHand a.owner else (s.setsOf k a).foldl (fun s t => s.freeThread t) s

/-- Whether the rule table that an activation was selected under is still its run's: after a switch its candidate is gone, and
what it comes to marks none (R49, R50; DEDUCED, entry 85). -/
def State.current (s : State) (k : ActKey) (a : Act) : Bool := (s.run? k.run).any (fun x => x.gen == a.gen)

/-- The candidate of an activation, while it is the one that started it. -/
def Act.isCand (a : Act) (d : Cand) : Bool := d.slot == a.slot && d.rule == a.ruleIx && d.ages == a.ages

/-- An activation or handler ends without a commit (R37): what it buffered is discarded, its tiles return free, `reject`
marks its candidate. -/
def State.discard (s : State) (k : ActKey) (a : Act) (reject : Bool) : State :=
  let s := s.dropBuffered k
  let s := if a.handler then s
    else (s.updKennel a.cluster (fun n =>
      let n := n.release a.ages
      { n with cands := n.cands.map (fun d => if reject && s.current k a && a.isCand d then { d with rejected := true, skips := 0 } else d) })).roundDue
      a.cluster
  (s.freeSetsOf k a).dropAct k

/-- A rollback for poison (R389): its fault-queue entry, and the end of the run at the fourth in a row. -/
def State.poisoned (s : State) (k : ActKey) (a : Act) (va : Word) : State :=
  let s := s.causeEntry causePoison va a.owner.set a.owner.cluster a.owner.core 0 0
  let q := s.rollback a.cluster a.ruleIx a.ages
  if !s.current k a then s else
  let s := s.setRollback { q with poison := q.poison + 1 }
  if 4 ≤ q.poison + 1 then s.endRun k.run ⟨6, causePoison, va⟩ else s

/-! ## The commit (R36, R44, R134, R343) -/

/-- What a reservation comes to: the state with it, or the TVAL of OVERFLOW_FULL. -/
def State.reserveTile (s : State) (x : Run) (b : BitVec 256) : Except Word (State × Insert) :=
  let h := s.homeOf x (Tile.ofBits b).key
  let n := (s.cluster h).kennel
  if n.tiles.length + n.resSlots < kennelSlots then
    .ok (s.updKennel h (fun n => { n with resSlots := n.resSlots + 1 }), ⟨0, 0, h, false, b⟩)
  else if n.ring.length + n.resRing < x.ringCap then
    .ok (s.updKennel h (fun n => { n with resRing := n.resRing + 1 }), ⟨0, 0, h, true, b⟩)
  else .error (BitVec.ofNat 64 (s.hub.logical kindCluster h))

/-- Every product reserved, in emit order. -/
def State.reserveTiles (s : State) (x : Run) : List (BitVec 256) → List Insert → Except Word (State × List Insert)
  | [], done => .ok (s, done)
  | b :: bs, done =>
    match s.reserveTile x b with
    | .ok (s, i) => s.reserveTiles x bs (done ++ [i])
    | .error v => .error v

/-- Every queued run's entry reserved, in issue order. -/
def State.reserveRuns (s : State) (vf : Nat) : List QueuedRun → Except Word State
  | [] => .ok s
  | q :: qs =>
    if s.queueRoom vf q.queue = 0 then .error (queueTval q.queue)
    else (s.updQueue vf q.queue (fun k => { k with reserved := k.reserved + 1 })).reserveRuns vf qs

/-- The products of an activation in emit order (R128). -/
def Act.emitted (a : Act) : List (BitVec 256) :=
  (sortWith (fun (p q : EmitKey × BitVec 256) => p.1.phase < q.1.phase || (p.1.phase == q.1.phase && p.1.sub < q.1.sub))
    a.products).map (·.2)

/-- A message that a commit releases, with its place in the issue order and the thread set that issued it (R36). -/
def State.heldMessages (s : State) (k : ActKey) (a : Act) : List (Nat × TsId × OutMsg) :=
  let sends := s.threads.flatMap (fun t =>
    let id : TsId := ⟨t.1 / 8 / 17, t.1 / 8 % 17, t.1 % 8⟩
    (t.2.sendq.filter (fun e => e.act == some k && !e.released)).map (fun e => (e.order, id, OutMsg.send e)))
  sortBy (·.1) (sends ++ a.amos.map (fun q => (q.order, q.thread, OutMsg.amo q)))

/-- A message released by a commit. -/
def State.releaseMsg (s : State) (t : TsId) (m : OutMsg) : State :=
  match m with
  | .send e => s.releaseSend t e
  | .amo q =>
    let q := { q with order := s.order }
    ((({ s with order := s.order + 1 }.updThread t (fun th => { th with amoq := th.amoq ++ [q] })).countSnd t.cluster)).postOnce
      (.messageAccept t)

/-- A product on its way to its home kennel (R36, R45). -/
def State.sendTile (s : State) (r c : Nat) (i : Insert) : State :=
  let s := s.updKennel c (fun n =>
    { n with unacked := n.unacked + 1, snd := if i.home = c then n.snd else n.snd + 1 })
  { s with inserts := s.inserts ++ [{ i with run := r, src := c }] }.post .tileInsert

/-- Whether a line is homed outside the device. -/
def outsideLine (line : Nat) : Bool := 2 ^ 31 ≤ line

/-- The private copies of lines that a commit stores, of the cores that stored to them, are renewed with it (R181). -/
def State.renewCopies (s : State) (now : Nat) (ms : List StoreMark) : State :=
  ms.foldl (fun s m => match s.place (256 * m.line) with
    | .ok q => if (s.copyOf m.cluster m.core m.line).isSome then s.addCopy m.cluster m.core q now m.line false else s
    | .error _ => s) s

/-- The writes to lines homed outside the device, released in issue order (R353); the storing cores' copies follow (R181). -/
def State.releaseOutside (s : State) (a : Act) (vf : Nat) : State :=
  let s := a.outside.foldl (fun s w => match s.place w.1 with
    | .ok p => (s.storePlace p vf w.1 w.2 false).getD s
    | .error _ => s) s
  s.renewCopies s.wmax (a.marks.filter (fun m => outsideLine m.line))

/-- A firing is counted; at the limit the run holds no further round (R17). -/
def State.countFiring (s : State) (r : Nat) : State :=
  match s.run? r with
  | some x =>
    let n := x.firings + 1
    let stop := Rec.firelim x.rec_ != 0 && Rec.firelim x.rec_ ≤ n && x.stop.isNone
    let s := s.setRun r { x with firings := n, stop := if stop then some ⟨2, 0, 0⟩ else x.stop,
                                 phase := if stop && x.phase == .running then .stopping else x.phase }
    if stop then s.postOnce (.completionSignal r) else s
  | none => s

/-- The commit event (step 3 of R36, R343): every tentative store becomes visible at once, and the held tiles leave. -/
def State.commitEvent (s : State) (k : ActKey) (a : Act) (x : Run) : State :=
  let s := s.storeTentative x.vf a.tent ((a.marks.filter (·.ev)).map (·.line))
  let s := (s.advanceTime a.owner s.wmax).renewCopies s.wmax (a.marks.filter (fun m => !outsideLine m.line))
  if a.handler then s
  else
    let s := s.updKennel a.cluster (fun n => (((n.consume a.ages).ringReturn x.ringCap).form x.rules))
    if s.current k a then s.dropRollback a.cluster a.ruleIx a.ages else s

/-- The commit event and what follows it (steps 3 to 6 of R36). -/
def State.commitWith (s : State) (k : ActKey) (a : Act) (x : Run) (ins : List Insert) : State :=
  let msgs := s.heldMessages k a
  let s := s.commitEvent k a x
  let s := s.releaseOutside a x.vf
  let s := msgs.foldl (fun s m => s.releaseMsg m.2.1 m.2.2) s
  let s := a.runqs.foldl (fun s q =>
    let sub : Submission := { vf := x.vf, queue := q.queue, addr := q.addr, reserved := true, bytes := none, thread := none,
                              waiting := none, refused := none }
    { s with submissions := s.submissions ++ [sub] }.postOnce .queueAppend) s
  let s := ins.foldl (fun s i => s.sendTile k.run a.cluster i) s
  let s := if a.handler then s else s.countFiring k.run
  (s.freeSetsOf k a).dropAct k

/-- A `done` or `hret` that nothing is outstanding for: the failure of an operation; a line whose home is down (R206, R394),
for which the manual names no address (DEDUCED, entry 72); a wait for a line that a relayout engine holds (R349); the
reservations, the commit (R36, R131). -/
def State.commitAct (s : State) (k : ActKey) (a : Act) : Host.Outcome State Fault Refusal :=
  match s.actPend k a, s.run? k.run with
  | some p, _ => (s.dropPend k a p).endTrap k a p.cause p.tval
  | none, none => .next s
  | none, some x =>
    if a.lines.any (fun l => s.homeDown x.vf (256 * l)) then
      { s with freeIdx := s.freeIdx + 1 }.endTrap k a causeHomeDown (Config.freeWord s.freeIdx)
    else if a.lines.any s.lineHeld then .next (s.postOnce (.commit k))
    else match s.reserveTiles x a.emitted [] with
    | .error v => s.endTrap k a causeOverflowFull v
    | .ok (s', ins) =>
      match s'.reserveRuns x.vf a.runqs with
      | .error v => s.endTrap k a causeOverflowFull v
      | .ok s'' => .next (s''.commitWith k a x ins)

/-! ## Paired twins (R390 to R392) -/

/-- A core is fenced (R392, R407, R409): the packs that use it are pre-empted. -/
def State.fenceCore (s : State) (c k : Nat) : State :=
  let s := s.updCore c k (fun u => { u with fenced := true })
  let s := { s with hub := { s.hub.updUnit ⟨kindCore, 16 * c + k⟩ (fun u => { u with state := 2 }) with
                             log := s.hub.log ++ [(5, 16 * c + k)] } }
  match (s.cluster c).run, (s.cluster c).run.bind s.run? with
  | some r, some x => s.postOnce (if Rec.isReact x.rec_ then .preemptReactPack r else .preemptGangPack r)
  | _, _ => s

/-- A mismatch is counted on a core; at the third in a row it is fenced. -/
def State.mismatch (s : State) (c k : Nat) : State :=
  let n := (s.core c k).mismatches + 1
  let s := s.updCore c k (fun u => { u with mismatches := n })
  if 3 ≤ n && !(s.core c k).fenced then s.fenceCore c k else s

/-- The commit-stream hash of a twin, over its records in issue order (R390). -/
def Act.streamHash (a : Act) : Word := Config.streamHash ((sortBy (·.1) a.stream).flatMap (·.2))

/-- Both twins end as if by `abort`. -/
def State.abortTwins (s : State) (k0 k1 : ActKey) (a0 a1 : Act) (reject : Bool) : State :=
  (s.discard k0 a0 reject).discard k1 a1 reject

/-- Whether both twins have ended. -/
def State.twinsEnded (s : State) (a0 a1 : Act) (k0 k1 : ActKey) : Bool :=
  a0.ending.isSome && a1.ending.isSome && !s.actBusy k0 && !s.actBusy k1

/-- The hashes differ (R391): both twins end, the mismatch is counted, the next start avoids their cores. -/
def State.twinsDiffer (s : State) (k0 k1 : ActKey) (a0 a1 : Act) : State :=
  let q := s.rollback a0.cluster a0.ruleIx a0.ages
  let s := if s.current k0 a0 then s.setRollback { q with avoid := [a0.owner.core, a1.owner.core] } else s
  ((s.abortTwins k0 k1 a0 a1 false).mismatch a0.cluster a0.owner.core).mismatch a0.cluster a1.owner.core

/-- One commit for both twins: the second twin's buffers are discarded (R391). Where its reservation fails the first twin takes
OVERFLOW_FULL and the second stays at its `done`: R131 says only that the activation traps (DESIGN CHOICE, entry 112). -/
def State.twinsMatch (s : State) (k0 k1 : ActKey) (a0 a1 : Act) : Host.Outcome State Fault Refusal :=
  match s.commitAct k0 a0 with
  | .next t =>
    if (t.act? k0).isSome then .next t
    else
      let ok (u : CoreUnit) : CoreUnit := { u with mismatches := 0 }
      let t := (t.updCore a0.cluster a0.owner.core ok).updCore a0.cluster a1.owner.core ok
      .next (((t.dropBuffered k1).freeSetsOf k1 a1).dropAct k1)
  | o => o

/-- The twins' comparison, when both have ended (R390, R391). -/
def execTwinCompare (k : ActKey) (s : State) : Host.Outcome State Fault Refusal :=
  let k0 := { k with twin := 0 }
  let k1 := { k with twin := 1 }
  match s.act? k0, s.act? k1 with
  | some a0, some a1 =>
    if !s.twinsEnded a0 a1 k0 k1 then .next s
    else match a0.rolled, a1.rolled with
      | some (_, v), _ => .next ((s.poisoned k0 a0 v).abortTwins k0 k1 a0 a1 false)
      | none, some (_, v) => .next ((s.poisoned k1 a1 v).abortTwins k0 k1 a0 a1 false)
      | none, none =>
        if a0.ending = some .reject ∧ a1.ending = some .reject then .next (s.abortTwins k0 k1 a0 a1 true)
        else if a0.ending = some .abort ∨ a1.ending = some .abort then .next (s.abortTwins k0 k1 a0 a1 false)
        else if a0.ending = a1.ending ∧ a0.streamHash = a1.streamHash then
          s.twinsMatch k0 k1 a0 a1
        else .next (s.twinsDiffer k0 k1 a0 a1)
  | _, _ => .next s

/-- The other twin of one that aborted or was rolled back ends too (R391). -/
def State.endPartner (s : State) (p : ActKey) : State :=
  match s.act? p with
  | some b => if b.ending.isNone then s.endAct p (fun a => { a with ending := some .abort }) else s
  | none => s

/-- The ending of an activation or handler, when its asynchronous operations have completed (R36, R37, R129). -/
def execCommit (k : ActKey) (s : State) : Host.Outcome State Fault Refusal :=
  match s.act? k with
  | none => .next s
  | some a =>
    match a.ending with
    | none => .next s
    | some e =>
      if s.actBusy k then .next (s.postOnce (.commit k))
      else match a.partner with
        | some p =>
          match e, s.actPend k a with
          | .done, some q => (s.dropPend k a q).endTrap k a q.cause q.tval
          | _, _ => .next ((if e = .abort then s.endPartner p else s).postOnce (.twinCompare k))
        | none =>
          match a.rolled, e with
          | some (_, v), _ => .next ((s.poisoned k a v).discard k a false)
          | none, .done => s.commitAct k a
          | none, .abort => .next (s.discard k a false)
          | none, .reject => .next (s.discard k a true)

/-! ## Insertion (R10, R36, R44, R45) -/

/-- Whether the front end's work for a run waits for the answer of a fault (R413). -/
def State.feWaits (s : State) (r : Nat) : Bool := (s.cluster fwNode).misses.any (fun m => m.agents.any (fun a => match a with
  | .frontEnd q _ => q == r
  | _ => false))

/-- The place of a cluster among the kennels of a run in ascending logical number. -/
def State.kennelRank (s : State) (x : Run) (c : Nat) : Nat :=
  (x.clusters.filter (fun d => s.hub.logical kindCluster d < s.hub.logical kindCluster c)).length

/-- The address of a slot of a kennel's overflow ring (R44). -/
def State.ringAddr (s : State) (x : Run) (c i : Nat) : Word :=
  BitVec.ofNat 64 (Rec.ovf x.rec_ + (s.kennelRank x c * x.ringCap + i) * 32)

/-- A product has left the network: it is acknowledged, and counted as received (R45). -/
def State.tileArrived (s : State) (i : Insert) : State :=
  let s := s.acked i.src
  if i.home = i.src then s else s.countRcv i.home

/-- A product placed in a kennel slot. -/
def State.insertSlot (s : State) (x : Run) (i : Insert) : State :=
  (s.updKennel i.home (fun n =>
    let (n, t) := { n with resSlots := n.resSlots - 1 }.stamp x.rules i.bits false
    ((n.addTile t).ringReturn x.ringCap).form x.rules)).roundDue i.home

/-- A product placed in the overflow ring. -/
def State.insertRing (s : State) (x : Run) (i : Insert) : State :=
  (s.updKennel i.home (fun n =>
    let (n, t) := { n with resRing := n.resRing - 1 }.stamp x.rules i.bits true
    (({ n with ring := n.ring ++ [t] }).ringReturn x.ringCap).form x.rules)).roundDue i.home

/-- A product arrives at its home kennel. -/
def State.insertOne (s : State) (x : Run) (i : Insert) (rest : List Insert) : State :=
  let drop (s : State) : State := { s with inserts := rest }
  if i.viaRing then
    let n := (s.cluster i.home).kennel
    let t := (n.stamp x.rules i.bits true).2
    let at_ := s.ringAddr x i.home ((n.ringHead + n.ring.length) % max 1 x.ringCap)
    match feStore x.vf i.run .tileInsert .store x.refused.head? (lineWrites at_ t.bytes) s with
    | .done s _ => ((drop s).tileArrived i).insertRing x i
    | .wait s => s
    | .fail s c va => (drop (s.endRun i.run ⟨6, c, va⟩)).tileArrived i
  else ((drop s).tileArrived i).insertSlot x i

/-- Of each source and destination the first product under way (R198), if its run does not wait for a fault of the front
end. -/
def State.firstInserts (s : State) : List Insert → List (Nat × Nat) → List Insert
  | [], _ => []
  | i :: is, seen =>
    let rest := s.firstInserts is ((i.src, i.home) :: seen)
    if !seen.contains (i.src, i.home) && !s.feWaits i.run then i :: rest else rest

/-- The next product arrives. -/
def execTileInsert (s : State) : Host.Outcome State Fault Refusal :=
  .next (match s.pickFree (s.firstInserts s.inserts []) with
    | (s, none) => s
    | (s, some i) =>
      match s.run? i.run with
      | some x => s.insertOne x i (s.inserts.erase i)
      | none => { s with inserts := s.inserts.erase i })

/-! ## The whistle (R45, R46) -/

/-- Whether a kennel reports quiet (R45). -/
def State.quiet (s : State) (c : Nat) : Bool :=
  let n := (s.cluster c).kennel
  !n.cands.any n.enabledCand && n.unacked == 0 && n.ring.isEmpty &&
    (upTo 80).all (fun i =>
      let t : TsId := ⟨c, i / 5, i % 5⟩
      (s.thread t).act.isNone && (t.set != 4 || (s.core c t.core).inq.isEmpty))

/-- What a wave returns. -/
def State.wave (s : State) (x : Run) : Wave :=
  x.clusters.foldl (fun w c =>
    let n := (s.cluster c).kennel
    ⟨w.quiet && s.quiet c, w.ins + n.ins, w.rem + n.rem, w.snd + n.snd, w.rcv + n.rcv⟩) ⟨true, 0, 0, 0, 0⟩

/-- A wave leaves the pack root (R46). -/
def execWhistleWave (r : Nat) (s : State) : Host.Outcome State Fault Refusal :=
  .next (match s.run? r with
    | some x =>
      if x.phase == .running && Rec.isReact x.rec_ then (s.setRun r { x with waveAt := s.fclk }).postOnce (.whistleReturn r) else s
    | none => s)

/-- Two consecutive waves that find the run stable. -/
def Wave.stable (a b : Wave) : Bool := a.quiet && b.quiet && a.snd == a.rcv && a == b

/-- A wave returns (R46): the run may be stable; after a quiet wave the next leaves at once. -/
def execWhistleReturn (r : Nat) (s : State) : Host.Outcome State Fault Refusal :=
  .next (match s.run? r with
    | some x =>
      if x.phase == .running && Rec.isReact x.rec_ then
        let w := s.wave x
        if x.wave.any (fun v => v.stable w) then
          (s.setRun r { x with wave := some w, stop := some ⟨1, 0, 0⟩, phase := .stopping }).postOnce (.completionSignal r)
        else
          let s := s.setRun r { x with wave := some w }
          if w.quiet then s.postOnce (.whistleWave r) else s
      else s
    | none => s)

end Sys2Proof.Machine
end

