-- ==== Sys2Proof/Machine/Runs.lean ====
section
/-! DEFINITION. Queues, the dispatcher and the life of a run (R17 to R26, R46 to R49, R319 to R330, R370, R401, R413): submission,
eligibility, placement, release, replacement of rules, limits and completion. -/
namespace Sys2Proof.Machine

/-! ## Rules (R24 to R26) -/

/-- A predicate of a rule record. -/
def RulePred.parse (w : Word) : RulePred :=
  { op := Word.bits w 2 0, ti := Word.bits w 4 3, fa := Word.bits w 7 5, tj := Word.bits w 9 8, fb := Word.bits w 12 10,
    kc := Word.bit w 13, cval := w.extractLsb' 32 32 }

def RulePred.ok (w : Word) (arity : Nat) : Bool :=
  let p := RulePred.parse w
  p.op != 7 && p.ti < arity && p.tj < arity && (if p.kc then p.tj == 0 && p.fb == 0 else p.cval == 0) && Word.bits w 31 14 == 0

/-- Predicate slot i of a rule record. -/
def rulePredWord (b : BitVec 512) (i : Nat) : Word := b.extractLsb' (192 + 64 * i) 64

def ruleArity (b : BitVec 512) : Nat := natBits b.toNat 66 64
def ruleNpred (b : BitVec 512) : Nat := natBits b.toNat 82 80

/-- A rule record (R24). -/
def Rule.parse (b : BitVec 512) : Rule :=
  let n := b.toNat
  let foot := natBits n 108 96
  { kinds := (upTo (ruleArity b)).map (fun i => b.extractLsb' (16 * i) 16), prio := natBits n 71 68, paired := b.getLsbD 72,
    usesMat := b.getLsbD 73, usesClause := b.getLsbD 74,
    preds := (upTo (ruleNpred b)).map (fun i => RulePred.parse (rulePredWord b i)), foot := if foot = 0 then 4096 else foot,
    entry := b.extractLsb' 128 64 }

/-- The checks of R26, and that of the feature for paired rules (R406). -/
def ruleOk (h : Hub) (img : Img) (b : BitVec 512) : Bool :=
  let n := b.toNat
  let ar := ruleArity b
  let np := ruleNpred b
  let entry := natBits n 191 128
  1 ≤ ar && ar ≤ 4 && (upTo 4).all (fun i => (natBits n (16 * i + 15) (16 * i) == 0) == (ar ≤ i)) &&
    np ≤ 4 && (upTo 4).all (fun i => if i < np then RulePred.ok (rulePredWord b i) ar else rulePredWord b i == 0) &&
    natBits n 108 96 ≤ 4096 && entry % 8 == 0 && Img.inText img entry &&
    natBits n 67 67 == 0 && natBits n 79 75 == 0 && natBits n 95 83 == 0 && natBits n 127 109 == 0 && natBits n 511 448 == 0 &&
    (!b.getLsbD 72 || h.feature 3)

/-- The rule records of a table. -/
def ruleRecords (bs : List Byte) (n : Nat) : List (BitVec 512) :=
  (upTo n).map (fun i => BitVec.ofNat 512 (leNat ((bs.drop (64 * i)).take 64)))

/-- A run with a rule that uses the matrix array (R21). -/
def Run.usesMat (x : Run) : Bool := x.rules.any (·.usesMat)

/-! ## What is due -/

/-- The device steps that a change in a function's queues may make due: eligibility of the heads, placement. -/
def State.dispatchDue (s : State) (vf : Nat) : State :=
  (((s.fn vf).queues.map (·.1)).foldl (fun s q => s.postOnce (.runEligible vf q)) s).postOnce .runPlace

/-- The runs of a queue that have not been released or completed, oldest first. -/
def State.headRun (s : State) (vf q : Nat) : Option Nat :=
  (s.queue vf q).runs.find? (fun r => (s.run? r).any Run.inRing)

/-- A run completes without being released (R323, R413). -/
def State.endUnreleased (s : State) (r : Nat) (c : StopCause) : State :=
  (s.updRun r (fun x => { x with stop := some c })).postOnce (.completionSignal r)

/-! ## Submission (R134, R135, R321, R322, R399) -/

/-- A doorbell write of the host or of a peer. -/
def execDoorbellWrite (s : State) : Host.Outcome State Fault Refusal :=
  .next (match s.input with
    | .doorbell vf q addr => if s.presented vf && q < 64 && s.hub.started && !s.hub.failed then s.doorbell vf q addr else s
    | _ => s)

/-- A read of a doorbell clears DROP. -/
def execQdbRead (s : State) : Host.Outcome State Fault Refusal :=
  .next (match s.input with
    | .readDoorbell vf q =>
      if s.presented vf && q < 64 then
        { s with hub := { s.hub with hostOut := s.hub.hostOut ++ [s.qdb vf q] } }.updQueue vf q (fun k => { k with drop := false })
      else s
    | _ => s)

/-- A queue control block as it stands in the table. -/
def State.qcbAt (s : State) (vf q : Nat) : Qcb := BitVec.ofNat 512 (leNat (s.sramReads vf (sramQcbs + 64 * q) 64))

/-- The dispatcher reads a queue control block, in one event, and accepts it when its generation is even and whole (R401). -/
def execQcbRead (vf q : Nat) (s : State) : Host.Outcome State Fault Refusal :=
  .next (
    let b := s.qcbAt vf q
    if Qcb.gen b % 2 = 0 ∧ natBits b.toNat 511 448 = Qcb.gen b then
      ((s.sramWrites vf (sramShadow + 64 * q) (leBytes 64 b.toNat)).updQueue vf q
        (fun k => { k with qcb := b, disabled := false })).postOnce (.runEligible vf q)
    else s)

/-- A submission leaves the appender: its reservation is returned, and its thread set's ST class is left (R134, R135). -/
def State.endSubmission (s : State) (sub : Submission) : State :=
  let s := { s with submissions := s.submissions.erase sub }
  let s := s.updQueue sub.vf sub.queue (fun k => { k with reserved := k.reserved - 1 })
  match sub.thread with
  | some t => s.leaveClass t .st
  | none => s

/-- A new run, in its queue. -/
def Run.new (vf q : Nat) (addr : Word) (b : BitVec 2048) : Run :=
  { rec_ := b, addr := addr, vf := vf, queue := q, seq := 0, phase := .queued, node := 0, gen := 0,
    rules := [], rulesAddr := Rec.rulesAt b, checked := false, replace := none,
    image := 0, cwins := [], tiles := [], ntiles := none, keymap := [], firings := 0, conflicts := 0, preempts := 0, packflags := 0,
    trunc := false, releasedAt := 0, ranBefore := 0, placedAt := 0, stop := none, wave := none, waveAt := 0, drainAt := 0,
    refused := [], sliceAt := 0, subst := [] }

/-- The record has been copied into the ring: TAIL advances, and the run stands in the queue (R322). -/
def State.appendRun (s : State) (sub : Submission) (bytes : List Byte) : State :=
  let r := s.nextRun
  let x := Run.new sub.vf sub.queue sub.addr (BitVec.ofNat 2048 (leNat bytes))
  let s := s.endSubmission sub
  (({ s with nextRun := r + 1 }.setRun r x).updQueue sub.vf sub.queue
    (fun k => { k with tail := k.tail + 1, runs := k.runs ++ [r] })).postOnce (.runEligible sub.vf sub.queue)

/-- A submission that fails appends nothing and sets DROP; one whose slot cannot be written disables the queue (R413). -/
def State.failSubmission (s : State) (sub : Submission) (disable : Bool) : State :=
  (s.endSubmission sub).updQueue sub.vf sub.queue (fun k => { k with drop := true, disabled := k.disabled || disable })

/-- A submission changed in place. -/
def State.updSubmission (s : State) (sub : Submission) (f : Submission → Submission) : State :=
  { s with submissions := s.submissions.map (fun q => if q = sub then f q else q) }

/-- A submission whose access at an address did not end: it waits when a fault of the appender there is unanswered, and is
served again otherwise. -/
def State.submissionWaits (s : State) (sub : Submission) (va : Word) : State :=
  if (s.missOf fwNode sub.vf (va.toNat / 65536)).any (fun m => m.agents.contains (.frontEnd 0 va)) then
    s.updSubmission sub (fun q => { q with waiting := some va })
  else s

/-- The appender's copy of a record into the ring. -/
def State.copyRecord (s : State) (sub : Submission) (bytes : List Byte) : State :=
  let k := s.queue sub.vf sub.queue
  if !k.enabled then s.failSubmission sub false
  else
    let at_ : Word := BitVec.ofNat 64 (Qcb.ring k.qcb + 256 * (k.tail % max 1 (Qcb.slots k.qcb)))
    match feStore sub.vf 0 .queueAppend .store sub.refused (lineWrites at_ bytes) s with
    | .done s _ => s.appendRun sub bytes
    | .wait s => s.submissionWaits sub at_
    | .fail s _ _ => s.failSubmission sub true

/-- The appender serves a submission: it reads the record, unless it has been read, and copies it. -/
def State.serveSubmission (s : State) (sub : Submission) : State :=
  match sub.bytes with
  | some bs => s.copyRecord sub bs
  | none =>
    match feDo sub.vf 0 .queueAppend sub.refused (feRead sub.vf .load sub.addr 256) s with
    | .done s bs =>
      let next : Submission := { sub with bytes := some bs }
      (s.updSubmission sub (fun _ => next)).copyRecord next bs
    | .wait s => s.submissionWaits sub sub.addr
    | .fail s _ _ => s.failSubmission sub false

/-- The first submission that does not wait, and stands behind none of its queue that does. -/
def firstSubmission : List Submission → List (Nat × Nat) → Option Submission
  | [], _ => none
  | q :: qs, blocked =>
    if blocked.contains (q.vf, q.queue) then firstSubmission qs blocked
    else if q.waiting.isSome then firstSubmission qs ((q.vf, q.queue) :: blocked)
    else some q

/-- The appender's next step (R322). -/
def execQueueAppend (s : State) : Host.Outcome State Fault Refusal :=
  .next (match firstSubmission s.submissions [] with
    | none => s
    | some sub =>
      let s := s.serveSubmission sub
      if (firstSubmission s.submissions []).isSome then s.postOnce .queueAppend else s)

/-! ## The checks of a record (R323, R327) -/

/-- Bits that must be zero in a record, apart from the dependences: the reserved fields of R319. -/
def recReserved (r : Rec) : Bool :=
  Rec.bits r 7 5 != 0 || Rec.bits r 23 22 != 0 || Rec.bits r 31 29 != 0 || Rec.bits r 39 37 != 0 || Rec.bits r 47 45 != 0 ||
    Rec.bits r 55 51 != 0 || Rec.bit r 63 || Rec.bits r 79 68 != 0 || Rec.bits r 2047 1920 != 0

def depReserved (r : Rec) : Bool := (upTo 4).any (fun n => natBits (Rec.dep r n) 31 7 != 0)

def depQueue (d : Nat) : Nat := d % 64
def depEn (d : Nat) : Bool := d.testBit 6
def depValue (d : Nat) : Nat := d / 2 ^ 32

/-- The fields of a REPLACE record other than KIND, OVERLAP, RULES, NRULES, ENTRY and DEP (R327). -/
def replaceExtra (r : Rec) : Bool :=
  Rec.bit r 2 || Rec.bits r 79 4 != 0 || Rec.bits r 255 96 != 0 || Rec.bits r 383 320 != 0 || Rec.bits r 1663 448 != 0

/-- The rectangle of the slices that a bucket map uses: its north-west node, its width and height (R20, R188). -/
def State.windowRect (s : State) (w : Nat) : Nat × Nat × Nat :=
  let nodes := ((upTo 1024).map (fun b => s.hub.sliceNode (s.hub.bktEntry w b))).eraseDups
  let x0 := nodes.foldl (fun m n => min m (n % 16)) 15
  let x1 := nodes.foldl (fun m n => max m (n % 16)) 0
  let y0 := nodes.foldl (fun m n => min m (n / 16)) 15
  let y1 := nodes.foldl (fun m n => max m (n / 16)) 0
  (16 * y0 + x0, x1 - x0 + 1, y1 - y0 + 1)

/-- Check 6 (R323): a dependence on a queue that is disabled. -/
def State.depDisabled (s : State) (vf : Nat) (r : Rec) : Bool :=
  (upTo 4).any (fun n => depEn (Rec.dep r n) && !(s.queue vf (depQueue (Rec.dep r n))).enabled)

/-- The number of the first failing check; 0 when all pass. -/
def State.recordCheck (s : State) (x : Run) (img : Option Img) : Nat :=
  let r := x.rec_
  let inRange (v hi : Nat) : Bool := 1 ≤ v && v ≤ hi
  let badRules := Rec.rulesAt r == 0 || Rec.rulesAt r % 64 != 0 || Rec.nrules r == 0
  if Rec.kind r = 0 || recReserved r || depReserved r || 5 ≤ Rec.fpmode r % 8 then 1
  else if Rec.kind r = 3 then
    (if replaceExtra r then 1 else if badRules then 3 else if s.depDisabled x.vf r then 6 else 0)
  else if !(inRange (Rec.packw r) 16 && inRange (Rec.packh r) 16 && inRange (Rec.cores r) 16 && inRange (Rec.threads r) 4) then 2
  else if Rec.isReact r && (badRules || img.any (fun i => Img.rules i + Img.rulesLen i < Rec.rulesAt r + 64 * Rec.nrules r)) then 3
  else if Rec.isGang r && (Rec.entry r % 8 != 0 || img.isNone) then 3
  else if img.isNone || (upTo 8).any (fun n => (Rec.cwmask r).testBit n && img.any (fun i => Img.cwin i n == 0)) then 4
  else if Rec.haswin r && (s.windowRect (Rec.homewin r)).2 != (Rec.packw r, Rec.packh r) then 5
  else if Rec.tilesAt r % 32 != 0 || Rec.save r % 256 != 0 || (Rec.ntind r && Rec.ntiles r % 4 != 0) || s.depDisabled x.vf r then 6
  else 0

/-! ## Eligibility (R20, R21, R136, R324, R413) -/

/-- Whether a dependence is met. -/
def State.depMet (s : State) (vf : Nat) (d : Nat) : Bool :=
  !depEn d || ((s.queue vf (depQueue d)).count.toNat + 2 ^ 32 - depValue d) % 2 ^ 32 < 2 ^ 31

/-- Whether a run at the head of its queue is eligible. -/
def State.isEligible (s : State) (r : Nat) (x : Run) : Bool :=
  let before := (s.queue x.vf x.queue).runs.takeWhile (· != r)
  (upTo 4).all (fun n => s.depMet x.vf (Rec.dep x.rec_ n)) &&
    (Rec.overlap x.rec_ || Rec.kind x.rec_ == 3 || before.isEmpty)

/-- What the front end reads first at eligibility: the rule table, none if a rule fails its checks; then the count, once. -/
def rulesE (h : Hub) (x : Run) (img : Img) : EM (Option (List Rule × Nat)) := do
  let r := x.rec_
  let raw ← (if Rec.isReact r then
      feRead x.vf .load (BitVec.ofNat 64 (Rec.rulesAt r)) (64 * Rec.nrules r)
    else pure [])
  let recs := ruleRecords raw (if Rec.isReact r then Rec.nrules r else 0)
  if !recs.all (ruleOk h img) then pure none
  else do
    let n ← (if Rec.ntind r then do
        let bs ← feRead x.vf .load (BitVec.ofNat 64 (Rec.ntiles r)) 4
        pure (leNat bs)
      else pure (Rec.ntiles r))
    pure (some (recs.map Rule.parse, n))

/-- The initial tiles of a run, read after their count. -/
def tilesE (x : Run) (n : Nat) : EM (List (BitVec 256)) := do
  let n := if Rec.isReact x.rec_ then n else 0
  let bs ← (if n = 0 then pure [] else feRead x.vf .load (BitVec.ofNat 64 (Rec.tilesAt x.rec_)) (32 * n))
  pure ((upTo n).map (fun i => BitVec.ofNat 256 (leNat ((bs.drop (32 * i)).take 32))))

/-- The live clusters of a rectangle, by ascending logical number. -/
def State.liveIn (s : State) (cs : List Nat) : List Nat :=
  sortBy (s.hub.logical kindCluster) (cs.filter s.hub.clusterLive)

/-- The next live array in ascending logical number from a cluster, wrapping (R21). -/
def nextLiveArray (s : State) (live : List Nat) (c : Nat) : Nat :=
  let i := indexIn c live 0
  ((live.drop i ++ live.take i).find? (fun d => !s.arrayDown d)).getD c

/-- The nearest live cluster of a pack to a node, ties to the lower logical number (R20). -/
def nearestLive (live : List Nat) (node : Nat) : Nat := (nearest node live).getD node

/-- The key map over the clusters of a rectangle (R20, R21). -/
def State.keyMap (s : State) (x : Run) (cs : List Nat) : List Nat :=
  let live := s.liveIn cs
  if Rec.haswin x.rec_ then
    (upTo 1024).map (fun b =>
      let n := s.hub.sliceNode (s.hub.bktEntry (Rec.homewin x.rec_) b)
      let c := if live.contains n then n else nearestLive live n
      if x.usesMat && s.arrayDown c then nextLiveArray s live c else c)
  else
    let ok := if x.usesMat then live.filter (fun c => !s.arrayDown c) else live
    (upTo 1024).map (fun b => ok.getD (b % max 1 ok.length) x.node)

/-- Whether each kennel can take its initial tiles (step 3 of R324). -/
def State.hasRoom (s : State) (x : Run) (keymap : List Nat) : Bool :=
  let homes := (x.tiles.filter (fun b => b.extractLsb' 0 16 != 0#16)).map (fun b =>
    keymap.getD ((s.fn x.vf).bucket (b.extractLsb' 64 64).toNat) 0)
  homes.all (fun h => (homes.filter (· == h)).length ≤ kennelSlots + x.ringCap)

/-- The clusters of the rectangle of a home window. -/
def rectClusters (node w h : Nat) : List Nat := (upTo (w * h)).map (fun c => node + 16 * (c / w) + c % w)

/-- Whether a checked run has room (R20, R21, R324). A key map that depends on the rectangle is judged at placement. -/
def State.roomNow (s : State) (x : Run) : Bool :=
  if !Rec.isReact x.rec_ then true
  else if Rec.haswin x.rec_ then
    let q := s.windowRect (Rec.homewin x.rec_)
    let cs := rectClusters q.1 q.2.1 q.2.2
    let live := s.liveIn cs
    !live.isEmpty && (!x.usesMat || live.any (fun c => !s.arrayDown c)) && s.hasRoom x (s.keyMap x cs)
  else if x.usesMat then true
  else s.hasRoom x ((upTo 1024).map (· % (Rec.packw x.rec_ * Rec.packh x.rec_)))

/-- A run whose rules and count have been read: its tiles, and whether they have room (R324). -/
def State.admitTiles (s : State) (vf q r : Nat) (x : Run) (n : Nat) : State :=
  match feDo vf r (.runEligible vf q) x.refused.head? (tilesE x n) s with
  | .wait s => s
  | .fail s c va => s.endUnreleased r ⟨6, c, va⟩
  | .done s tiles =>
    let x := { x with tiles := tiles, phase := .eligible }
    if s.roomNow x then (s.setRun r x).postOnce .runPlace
    else (s.setRun r x).endUnreleased r ⟨7, 0, 0⟩

/-- A checked run: its rules and count are read, then its tiles (R324). The count is kept when the tiles have to wait (R136). -/
def State.admitRules (s : State) (vf q r : Nat) (x : Run) : State :=
  match x.ntiles with
  | some n => s.admitTiles vf q r x n
  | none =>
    match feDo vf r (.runEligible vf q) x.refused.head? (rulesE s.hub x x.image) s with
    | .wait s => s
    | .fail s c va => s.endUnreleased r ⟨6, c, va⟩
    | .done s none => s.endUnreleased r ⟨4, 0, 0⟩
    | .done s (some (rules, n)) =>
      let x := { x with rules := rules, ntiles := some n, gen := 1 }
      (s.setRun r x).admitTiles vf q r x n

/-- The record at the head of a queue, eligible: its checks, made once, with which its image is found (R323); then what is to
be read (R324). -/
def State.admitRun (s : State) (vf q r : Nat) (x : Run) : State :=
  if x.checked then s.admitRules vf q r x
  else
    let img := s.imageFor vf x.rec_
    let sub := s.recordCheck x img
    if sub ≠ 0 then s.endUnreleased r ⟨5, sub, 0⟩
    else if Rec.kind x.rec_ = 3 then (s.setRun r { x with phase := .eligible }).postOnce (.replaceRequest r)
    else
      let x := { x with checked := true, image := img.getD 0 }
      (s.setRun r x).admitRules vf q r x

/-- Whether dispatch is open (R404, R405, R406, R412): an update of the root image freezes it. -/
def State.dispatchOpen (s : State) : Bool :=
  s.hub.started && !s.hub.failed && !(s.fn 0).trial

/-- The record at the head of a queue becomes eligible (R324). -/
def execRunEligible (vf q : Nat) (s : State) : Host.Outcome State Fault Refusal :=
  .next (match s.headRun vf q with
    | none => s
    | some r =>
      match s.run? r with
      | none => s
      | some x =>
        if x.phase = .queued && x.stop.isNone && s.dispatchOpen && !s.feWaits r && s.isEligible r x then s.admitRun vf q r x else s)

/-! ## Placement (R325, R326, R384) -/

/-- The priority at which a run runs (R321). -/
def State.prioOf (s : State) (x : Run) : Nat := min (Rec.prio x.rec_) (Qcb.priocap (s.queue x.vf x.queue).qcb)

/-- Unfenced cores of a cluster. -/
def State.unfenced (s : State) (c : Nat) : List Nat := (upTo 16).filter (fun k => !(s.core c k).fenced)

/-- Whether a rectangle qualifies for a run (R21, R325), its clusters free or among those given. -/
def State.qualifies (s : State) (x : Run) (cs freed : List Nat) : Bool :=
  let live := s.liveIn cs
  let free (c : Nat) : Bool := (s.cluster c).run.isNone || freed.contains c
  (if Rec.isReact x.rec_ && Rec.haswin x.rec_ then !live.isEmpty else live.length == cs.length) &&
    cs.all free && !cs.any s.hub.inReset && (!x.usesMat || live.any (fun c => !s.arrayDown c)) &&
    live.all (fun c => Rec.cores x.rec_ ≤ (s.unfenced c).length || Rec.isReact x.rec_)

/-- The north-west nodes at which a run's rectangle may stand. -/
def State.corners (s : State) (x : Run) : List Nat :=
  if Rec.haswin x.rec_ then [(s.windowRect (Rec.homewin x.rec_)).1]
  else (upTo 256).filter (fun n => n % 16 + Rec.packw x.rec_ ≤ 16 && n / 16 + Rec.packh x.rec_ ≤ 16)

/-- The rectangle for a run (R325): fewest dies, then the lowest logical number at its north-west cluster. -/
def State.bestRect (s : State) (x : Run) (freed : List Nat) : Option Nat :=
  let cs (n : Nat) : List Nat := rectClusters n (Rec.packw x.rec_) (Rec.packh x.rec_)
  let dies (n : Nat) : Nat := ((cs n).map nodeDie).eraseDups.length
  (sortBy (fun n => dies n * 65536 + s.hub.logical kindCluster n) ((s.corners x).filter (fun n => s.qualifies x (cs n) freed))).head?

/-- The cluster time of a function, the packs now running included. -/
def State.clusterTimeOf (s : State) (vf : Nat) : Nat :=
  s.runs.foldl (fun a r =>
    if r.2.vf = vf && (r.2.phase == .running || r.2.phase == .stopping || r.2.phase == .draining) then
      a + Rec.packw r.2.rec_ * Rec.packh r.2.rec_ * (s.fclk - r.2.placedAt) else a) (s.fn vf).clusterTime

/-- A run that waits for a rectangle: checked, or saved, not held (R396), and in no cluster yet. -/
def State.waitsPlace (s : State) (r : Nat) (x : Run) : Bool :=
  x.stop.isNone && s.dispatchOpen && !s.feWaits r && !s.hub.held.contains r && !s.clusters.any (fun c => c.2.run == some r) &&
    ((x.phase == .eligible && Rec.kind x.rec_ != 3) || x.phase == .saved)

/-- Whether the dispatcher serves a run before another (R326). -/
def State.servedBefore (s : State) (a b : Nat × Run) : Bool :=
  let pa := s.prioOf a.2
  let pb := s.prioOf b.2
  let ta := s.clusterTimeOf a.2.vf * max 1 (s.fn b.2.vf).weight
  let tb := s.clusterTimeOf b.2.vf * max 1 (s.fn a.2.vf).weight
  let turn (x : Run) : Nat := (x.queue + 63 - (s.fn x.vf).lastQueue) % 64
  if pa ≠ pb then pb < pa
  else if a.2.vf ≠ b.2.vf then (if ta ≠ tb then ta < tb else a.2.vf < b.2.vf)
  else turn a.2 < turn b.2

/-- The runs that wait for a rectangle, in the dispatcher's order. -/
def State.waiters (s : State) : List (Nat × Run) := sortWith s.servedBefore (s.runs.filter (fun r => s.waitsPlace r.1 r.2))

/-- The size of a run's save area (R382, R383). -/
def Run.saveSize (x : Run) : Nat :=
  let n := Rec.packw x.rec_ * Rec.packh x.rec_
  let co := Rec.cores x.rec_
  if Rec.isGang x.rec_ then 0x100 + n * (0x416000 + co * 0x40200 + co * Rec.threads x.rec_ * 0x2500)
  else 0x100 + n * (0x497100 + co * 0x40200)

/-- Whether a pack can be pre-empted (R379). -/
def Run.preemptible (x : Run) : Bool := x.phase == .running && Rec.save x.rec_ != 0 && x.saveSize ≤ Rec.savecap x.rec_

/-- The step that pre-empts a pack. -/
def Run.preemptStep (x : Run) (r : Nat) : Instr := if Rec.isGang x.rec_ then .preemptGangPack r else .preemptReactPack r

/-- The clusters of packs that are being saved. -/
def State.draining (s : State) : List Nat := (s.runs.filter (fun r => r.2.phase == .draining)).flatMap (fun r => r.2.clusters)

/-- The shortest prefix of the victims whose clusters yield a rectangle, and that rectangle. -/
def State.freeing (s : State) (x : Run) : List (Nat × Run) → List Nat → Option Nat
  | [], freed => s.bestRect x freed
  | v :: vs, freed =>
    match s.bestRect x freed with
    | some n => some n
    | none => s.freeing x vs (freed ++ v.2.clusters)

/-- The packs that a run may pre-empt in any case (R326): those of strictly lower priority, the lowest first and among equals
the most recently released. -/
def State.lowerPacks (s : State) (x : Run) : List (Nat × Run) :=
  let before (a b : Nat × Run) : Bool :=
    if s.prioOf a.2 ≠ s.prioOf b.2 then s.prioOf a.2 < s.prioOf b.2 else b.2.releasedAt < a.2.releasedAt
  sortWith before (s.runs.filter (fun r => r.2.preemptible && s.prioOf r.2 < s.prioOf x))

/-- The pre-emption of packs of a list for a run that finds no rectangle: none when their clusters yield none. Packs that are
being saved may yield it already. -/
def State.preemptOf (s : State) (x : Run) (vs : List (Nat × Run)) : Option State :=
  (s.freeing x vs s.draining).map (fun n =>
    let cs := rectClusters n (Rec.packw x.rec_) (Rec.packh x.rec_)
    if (s.bestRect x s.draining).isSome then s
    else (vs.filter (fun v => v.2.clusters.any cs.contains)).foldl (fun s v => s.postOnce (v.2.preemptStep v.1)) s)

/-- The cores that stand in for the fenced ones of a pack (R384). -/
def State.substFor (s : State) (x : Run) (c : Nat) : List (Nat × Nat × Nat) :=
  let co := Rec.cores x.rec_
  let spare := (s.unfenced c).filter (co ≤ ·)
  ((upTo co).filter (fun k => (s.core c k).fenced)).zip spare |>.map (fun p => (c, p.1, p.2))

/-- A run is placed. A saved one that comes to a rectangle with other live arrays has its key map built anew there, while its saved
tiles stay in the kennels that they were in, of which the manual says nothing (R21; DESIGN CHOICE, entry 109). -/
def State.placeAt (s : State) (r : Nat) (x : Run) (n : Nat) : State :=
  let cs := rectClusters n (Rec.packw x.rec_) (Rec.packh x.rec_)
  let live := s.liveIn cs
  let x := { x with node := n, subst := live.flatMap (s.substFor x) }
  let map := if Rec.isReact x.rec_ then s.keyMap x cs else []
  let x := { x with keymap := map }
  if x.phase = .eligible && Rec.isReact x.rec_ && !s.hasRoom x map then (s.setRun r x).endUnreleased r ⟨7, 0, 0⟩
  else
    let s := live.foldl (fun s c => s.updCluster c (fun u => { u with run := some r })) s
    let s := s.updFn x.vf (fun f => { f with lastQueue := x.queue })
    if x.phase = .saved then (s.setRun r x).postOnce (.resumePack r)
    else (s.setRun r { x with phase := .placed }).postOnce (.runRelease r)

/-- The dispatcher goes down the waiting runs: one that finds a rectangle is placed; one that can pre-empt for one does, and
holds back those after it; one that can do neither does not (R326). -/
def State.placeNext (s : State) : List (Nat × Run) → State
  | [] => s
  | (r, x) :: rest =>
    match s.bestRect x [] with
    | some n => (s.placeAt r x n).postOnce .runPlace
    | none => match s.preemptOf x (s.lowerPacks x) with
      | some s => s
      | none => s.placeNext rest

/-- The dispatcher places the next run (R326). -/
def execRunPlace (s : State) : Host.Outcome State Fault Refusal :=
  .next (s.placeNext s.waiters)

/-- The pack has run for its time slice (R326). -/
def State.sliceOver (s : State) (x : Run) : Bool := x.sliceAt + 3600000 ≤ s.fclk

/-- Pre-emption at the end of a time slice for a waiting run: of packs of lower priority, then of those of its own priority
and other functions whose slices are over. -/
def State.preemptSlice (s : State) (w : Run) : Option State :=
  s.preemptOf w (s.lowerPacks w ++ s.runs.filter (fun r =>
    r.2.preemptible && s.prioOf r.2 == s.prioOf w && r.2.vf != w.vf && s.sliceOver r.2))

/-- The time slice of a pack ends (R326): when eligible runs of its priority of other functions wait and cannot be placed,
packs whose slices are over are pre-empted for the first of them, in the dispatcher's order, to which their clusters yield a
rectangle; when none waits, a new slice begins. -/
def execTimeSliceExpiry (r : Nat) (s : State) : Host.Outcome State Fault Refusal :=
  .next (match s.run? r with
    | none => s
    | some x =>
      if x.phase ≠ .running ∨ !s.sliceOver x then s
      else
        let wants (w : Nat × Run) : Bool := w.2.vf != x.vf && s.prioOf w.2 == s.prioOf x && (s.bestRect w.2 []).isNone
        match s.waiters.filter wants with
        | [] => s.setRun r { x with sliceAt := s.fclk }
        | ws => (ws.findSome? (fun w => s.preemptSlice w.2)).getD s)

/-! ## Release (R18, R19, R183, R328) -/

/-- The constant windows that a record names (R87, R183). -/
def loadWindows (vf : Nat) (img : Img) (mask : Nat) : List Nat → EM (NMap (List Byte))
  | [] => pure []
  | n :: ns => do
    let rest ← loadWindows vf img mask ns
    if mask.testBit n then do
      let len := Img.cwLen img n
      let bs ← feRead vf .load (BitVec.ofNat 64 (Img.cwin img n)) len
      pure ((n, bs ++ List.replicate ((4 - len % 4) % 4) 0) :: rest)
    else pure rest

/-- The front end's reads of an image (R328, R413): the first 4 KiB of .text from each entry, as far as it goes, which are
placed in the slices (DEDUCED, entry 88). -/
def imageE (vf : Nat) (img : Img) : List Nat → EM Unit
  | [] => pure ()
  | a :: rest => do
    let _ ← (if Img.inText img a then
        feRead vf .load (BitVec.ofNat 64 a) (min 4096 (Img.text img + Img.textLen img - a))
      else pure [])
    imageE vf img rest

/-- The entries of a run: ENTRY of a GANG run, those of the rules of a REACT run. -/
def Run.entries (x : Run) : List Nat :=
  if Rec.isReact x.rec_ then x.rules.map (fun r => r.entry.toNat) else [Rec.entry x.rec_]

/-- Step 1 of a release: the image is read, and the constant windows (R328). -/
def loadE (x : Run) : EM (NMap (List Byte)) := do
  imageE x.vf x.image x.entries
  loadWindows x.vf x.image (Rec.cwmask x.rec_) (upTo 8)

/-- A cluster as a run finds it at its release (R253, R280, R304). -/
def Cluster.forRun (u : Cluster) (r : Nat) : Cluster :=
  { Cluster.reset with run := some r, misses := u.misses, l2tlb := u.l2tlb, copyTlb := u.copyTlb, fillTlb := u.fillTlb,
                       drainTlb := u.drainTlb, relayTlb := u.relayTlb,
                       array := { ArrayUnit.reset with failed := u.array.failed, lastCore := u.array.lastCore } }

/-- An atomic, whose owner's core need not belong to its run. -/
def InMsg.isAtomic : InMsg → Bool
  | .atomic _ => true
  | .request .. => false

/-- A core as a run finds it at its release (R180); the atomics that it has accepted stay. -/
def CoreUnit.forRun (u : CoreUnit) : CoreUnit :=
  { CoreUnit.reset with tlb := u.tlb, fenced := u.fenced, mismatches := u.mismatches, inq := u.inq.filter InMsg.isAtomic }

/-- The thread sets of a cluster, H sets included. -/
def clusterSets (c : Nat) : List TsId := (upTo 80).map (fun i => ⟨c, i / 5, i % 5⟩)

/-- A cluster, its cores and thread sets made ready for a run (R115, R328). -/
def State.freshCluster (s : State) (r : Nat) (x : Run) (c : Nat) : State :=
  let s := s.updCluster c (fun u => u.forRun r)
  let s := (upTo 16).foldl (fun s k => s.updCore c k CoreUnit.forRun) s
  (clusterSets c).foldl (fun s t => s.setThread t { Thread.reset with run := some r, fpmode := x.fpmode, ltime := s.wmax }) s

/-- The ranks of a run (R19), and in a GANG run the entry point. -/
def State.giveRanks (s : State) (x : Run) : State :=
  (upTo (Rec.nrank x.rec_)).foldl (fun s i => s.updThread (x.tsOf i) (fun th =>
    let th := { th with rank := BitVec.ofNat 32 i }
    if Rec.isGang x.rec_ then { th with pc := BitVec.ofNat 64 (Rec.entry x.rec_), status := .ready } else th)) s

/-- An initial tile in its home kennel, and the store of one placed in the ring (R10, R23, R44). -/
def State.seedTile (s : State) (x : Run) (b : BitVec 256) : State × List (Word × List Byte) :=
  if b.extractLsb' 0 16 = 0#16 then (s, [])
  else
    let h := s.homeOf x (Tile.ofBits b).key
    let n := (s.cluster h).kennel
    if n.tiles.length < kennelSlots then
      let (n, t) := n.stamp x.rules b false
      (s.updKennel h (fun _ => n.addTile t), [])
    else
      let (n', t) := n.stamp x.rules b true
      (s.updKennel h (fun _ => { n' with ring := n.ring ++ [t] }), lineWrites (s.ringAddr x h n.ring.length) t.bytes)

/-- The initial tiles in the order of their list. -/
def State.seedTiles (s : State) (x : Run) : List (BitVec 256) → State × List (Word × List Byte)
  | [] => (s, [])
  | b :: bs =>
    let (s, w) := s.seedTile x b
    let (s, ws) := s.seedTiles x bs
    (s, w ++ ws)

/-- The pack is ready: kennels form their candidates, the run is released and numbered (R118, R328), its PACKFLAGS 0 (R280). -/
def State.startRun (s : State) (r : Nat) (x : Run) (cwins : NMap (List Byte)) : State :=
  let seq := (s.fn x.vf).seq + 1
  let x := { x with phase := .running, seq := seq, cwins := cwins, releasedAt := s.fclk, placedAt := s.fclk, sliceAt := s.fclk,
                    waveAt := s.fclk, packflags := 0 }
  let s := (s.updFn x.vf (fun f => { f with seq := seq })).setRun r x
  let s := if Rec.isReact x.rec_ then
    x.clusters.foldl (fun s c => (s.updKennel c (fun n => { n.form x.rules with lastStart := s.fclk })).roundDue c) s else s
  s.dispatchDue x.vf

/-- A placed run gives its clusters back. -/
def State.unplace (s : State) (r : Nat) : State :=
  let held := (s.clusters.filter (fun c => c.2.run == some r)).map (·.1)
  held.foldl (fun s c => s.updCluster c (fun u => { u with run := none })) s

/-- The release of a placed run (R328). -/
def execRunRelease (r : Nat) (s : State) : Host.Outcome State Fault Refusal :=
  .next (match s.run? r with
    | none => s
    | some x =>
      if x.phase ≠ .placed ∨ x.stop.isSome ∨ s.feWaits r then s
      else match feDo x.vf r (.runRelease r) x.refused.head? (loadE x) s with
        | .wait s => s
        | .fail s c va => s.endUnreleased r ⟨6, c, va⟩
        | .done s cwins =>
          let live := x.clusters.filter (fun c => (s.cluster c).run == some r)
          let fresh := (live.foldl (fun s c => s.freshCluster r x c) s).giveRanks x
          let (seeded, writes) := fresh.seedTiles x x.tiles
          match feWrites x.vf r (.runRelease r) .store writes s with
          | .wait s => s
          | .fail s c va => s.endUnreleased r ⟨6, c, va⟩
          | .done s' _ =>
            ({ seeded with mem := s'.mem, lines := s'.lines, poison := s'.poison, wtimes := s'.wtimes, wmax := s'.wmax,
                           hub := s'.hub, pending := s'.pending }).startRun r x cwins)

/-! ## Replacement of a rule table (R49, R327) -/

/-- The run of a function that a RUNID names. -/
def State.runOf (s : State) (vf : Nat) (id : Word) : Option (Nat × Run) :=
  (List.find? (fun (r : Nat × Run) => r.2.released && r.2.vf == vf && r.2.id == id) s.runs)

/-- What the front end reads for a replacement. -/
def replaceE (h : Hub) (x : Run) (img : Img) : EM (Option (List Rule)) := do
  let bs ← feRead x.vf .load (BitVec.ofNat 64 (Rec.rulesAt x.rec_)) (64 * Rec.nrules x.rec_)
  let recs := ruleRecords bs (Rec.nrules x.rec_)
  pure (if recs.all (ruleOk h img) then some (recs.map Rule.parse) else none)

/-- A replacement is requested (R327): its target holds no further round. -/
def execReplaceRequest (r : Nat) (s : State) : Host.Outcome State Fault Refusal :=
  .next (match s.run? r with
    | none => s
    | some x =>
      if x.phase ≠ .eligible ∨ x.stop.isSome ∨ s.feWaits r then s
      else match s.runOf x.vf (BitVec.ofNat 64 (Rec.entry x.rec_)) with
        | none => s.endUnreleased r ⟨9, 0, 0⟩
        | some (t, y) =>
          if !Rec.isReact y.rec_ ∨ y.phase ≠ .running then s.endUnreleased r ⟨9, 0, 0⟩
          else if y.replace.isSome then s.postOnce (.replaceRequest r)
          else match feDo x.vf r (.replaceRequest r) x.refused.head? (replaceE s.hub x y.image) s with
            | .wait s => s
            | .fail s c va => s.endUnreleased r ⟨6, c, va⟩
            | .done s none => s.endUnreleased r ⟨4, 0, 0⟩
            | .done s (some rules) =>
              (s.updRun t (fun y => { y with replace := some ⟨r, rules⟩ })).postOnce (.ruleTableSwitch t))

/-- The switch to the new table under a new generation (R49): every candidate slot is cleared, with what the device remembers
of the candidates, and candidates form afresh. The key map stays, also when the new table is the first to use the matrix
array: R21 speaks of the table at launch (DESIGN CHOICE, entry 89). -/
def execRuleTableSwitch (t : Nat) (s : State) : Host.Outcome State Fault Refusal :=
  .next (match s.run? t with
    | none => s
    | some y =>
      match y.replace with
      | none => s
      | some p =>
        if y.phase = .draining ∨ y.phase = .saved then s.postOnce (.ruleTableSwitch t)
        else if y.phase ≠ .running then (s.setRun t { y with replace := none }).endUnreleased p.by_ ⟨9, 0, 0⟩
        else
          let addr := ((s.run? p.by_).map (fun q => Rec.rulesAt q.rec_)).getD y.rulesAddr
          let s := s.setRun t { y with rules := p.rules, rulesAddr := addr, gen := (y.gen + 1) % 65536, replace := none }
          let s := { s with rollbacks := s.rollbacks.filter (fun q => !y.clusters.contains q.cluster) }
          let s := y.clusters.foldl (fun s c => (s.updKennel c (fun n => { n with cands := [] }.form p.rules)).roundDue c) s
          s.endUnreleased p.by_ ⟨8, 0, 0⟩)

/-! ## Stopping (R17, R48, R370) -/

/-- The ranked thread sets of a GANG run issue nothing further: one that holds issue completes first, one that waits is
withdrawn (R48, R381). -/
def State.stopGang (s : State) (x : Run) : State :=
  x.ranked.foldl (fun s t => s.updThread t (fun th =>
    if th.status = .ready ∨ th.status = .asleep then { th with status := .stopped, wait := none } else th)) s

/-- A run reaches its time limit (R48), also while its pack is being stopped for pre-emption: it is not saved. -/
def execTimeLimitExpiry (r : Nat) (s : State) : Host.Outcome State Fault Refusal :=
  .next (match s.run? r with
    | none => s
    | some x =>
      let lim := Rec.timelim x.rec_
      if (x.phase ≠ .running ∧ x.phase ≠ .draining) ∨ x.stop.isSome ∨ lim = 0 ∨ x.ranBefore + (s.fclk - x.placedAt) < lim then s
      else
        let s := s.setRun r { x with phase := .stopping, stop := some ⟨if Rec.isReact x.rec_ then 2 else 10, 0, 0⟩ }
        (if Rec.isGang x.rec_ then s.stopGang x else s).postOnce (.completionSignal r))

/-- A run that a trap ends stops (R370). -/
def execRunStopTrapped (r : Nat) (s : State) : Host.Outcome State Fault Refusal :=
  .next (match s.run? r with
    | none => s
    | some x =>
      if x.phase = .complete ∨ x.stop.isNone then s
      else if x.inRing then s.postOnce (.completionSignal r)
      else
        let s := s.setRun r { x with phase := .stopping }
        let s := if Rec.isGang x.rec_ then s.stopGang x
          else (s.acts.filter (fun a => a.1.run == r && !a.2.handler)).foldl
            (fun s a => s.endAct a.1 (fun a => { a with ending := some .abort })) s
        s.postOnce (.completionSignal r))

/-! ## Completion (R15, R47, R329, R330, R351) -/

/-- Whether an activation, handler, message or asynchronous operation of a run is still under way (R351, R380, R381). -/
def State.packBusy (s : State) (r : Nat) (x : Run) : Bool :=
  let mine := x.clusters.filter (fun c => (s.cluster c).run == some r)
  s.acts.any (fun a => a.1.run == r) || s.inserts.any (fun i => i.run == r) || s.mcrds.any (fun q => q.2.run == r) ||
    s.cores.any (fun c => c.2.inq.any (fun m => match m with
      | .atomic q => q.act.any (fun k => k.run == r)
      | .request .. => false)) ||
    mine.any (fun c =>
      !(s.cluster c).copies.isEmpty || !(s.cluster c).moves.isEmpty ||
        (upTo 16).any (fun k => !(s.core c k).inq.isEmpty || !(s.core c k).deposits.isEmpty) ||
        (clusterSets c).any (fun t =>
          let th := s.thread t
          !th.sendq.isEmpty || !th.amoq.isEmpty || th.cnt != Counts.zero))

/-- Whether something that the completion signal follows is still to come (R351). -/
def State.runBusy (s : State) (r : Nat) (x : Run) : Bool :=
  s.packBusy r x || x.clusters.any (fun c => (s.cluster c).run == some r &&
    (s.cluster c).relayouts.any (fun q => q.state == .running && q.run == r))

/-- Whether a GANG run has halted (R18). -/
def State.gangHalted (s : State) (x : Run) : Bool := Rec.isGang x.rec_ && x.ranked.all (fun t => (s.thread t).status == .halted)

/-- The remaining tiles of a kennel by ascending age, those of the ring marked (R47). -/
def Kennel.remaining (n : Kennel) : List Tile := sortBy (fun t => t.age.toNat) (n.tiles.map (·.tile) ++ n.ring)

/-- The result region (R15, R47), and whether it is too small. -/
def State.resultBytes (s : State) (x : Run) (status : Nat) : List Byte × Bool :=
  let cs := sortBy (s.hub.logical kindCluster) x.clusters
  let tiles := cs.flatMap (fun c => (s.cluster c).kennel.remaining)
  let room := if Rec.rescap x.rec_ < 32 then 0 else (Rec.rescap x.rec_ - 32) / 32
  let head := leBytes 32 (tiles.length % 2 ^ 32 + 2 ^ 32 * status + 2 ^ 64 * x.firings)
  (if Rec.rescap x.rec_ < 32 then [] else head ++ (tiles.take room).flatMap Tile.bytes, room < tiles.length || Rec.rescap x.rec_ < 32)

/-- The completion record (R329). -/
def State.completionRecord (s : State) (r : Nat) (x : Run) (c : StopCause) : List Byte :=
  leBytes 64 (x.seq.toNat + 2 ^ 32 * x.vf + 2 ^ 37 * x.queue + 2 ^ 48 * c.status + 2 ^ 56 * (c.sub % 256) + 2 ^ 64 * x.addr.toNat +
    2 ^ 128 * (if Rec.isReact x.rec_ then x.firings else 0) + 2 ^ 192 * (x.conflicts % 2 ^ 32) + 2 ^ 224 * (x.preempts % 2 ^ 32) +
    2 ^ 256 * (s.packFlags r x).toNat + 2 ^ 262 * x.trunc.toNat + 2 ^ 320 * c.tval.toNat +
    2 ^ 384 * (if x.seq = 0 then 0 else s.fclk - x.releasedAt))

/-- The address at which the front end was refused within a range, if it was. -/
def Run.refusedIn (x : Run) (a n : Nat) : Option Word :=
  x.refused.find? (fun va => a / 65536 ≤ va.toNat / 65536 && va.toNat / 65536 ≤ (a + n - 1) / 65536)

/-- A completion write that fails is lost, and the queue is disabled (R413). -/
def State.completionWrite (s : State) (r : Nat) (x : Run) (a : Nat) (bs : List Byte) : FeResult Unit :=
  match feStore x.vf r (.completionSignal r) .store (x.refusedIn a bs.length) (lineWrites (BitVec.ofNat 64 a) bs) s with
  | .fail s _ _ => .done (s.updQueue x.vf x.queue (fun k => { k with disabled := true })) ()
  | o => o

/-- A cluster that no run occupies any longer: flags still on their way up its tree go nowhere else (R280). -/
def State.leaveCluster (s : State) (c : Nat) : State :=
  let s := s.updCluster c (fun u =>
    { u with run := none, copies := [], moves := [], relayouts := [], raised := 0,
             clause := { u.clause with holder := none, claimed := false, poisoned := false },
             array := { u.array with holder := none, holderAct := none, orphan := none } })
  (clusterSets c).foldl (fun s t => (s.setThread t Thread.reset).forgetMiss t) s

/-- The run's hold on its clusters ends, and its queue advances (R329). -/
def State.finishRun (s : State) (r : Nat) (x : Run) : State :=
  let mine := x.clusters.filter (fun c => (s.cluster c).run == some r)
  let s := mine.foldl State.leaveCluster s
  let s := { s with rollbacks := s.rollbacks.filter (fun q => !mine.contains q.cluster), saves := NMap.erase s.saves r }
  let s := s.setRun r { x with phase := .complete }
  let spent := if x.seq = 0 then 0 else Rec.packw x.rec_ * Rec.packh x.rec_ * (s.fclk - x.placedAt)
  let s := s.updFn x.vf (fun f => { f with clusterTime := f.clusterTime + spent })
  (s.updQueue x.vf x.queue (fun k => { k with count := k.count + 1, runs := k.runs.filter (· != r) })).dispatchDue x.vf

/-- The completion record and the counter cell are written, in that order (R329). -/
def State.signal (s : State) (r : Nat) (x : Run) (c : StopCause) : State :=
  let k := s.queue x.vf x.queue
  let at_ := Qcb.cring k.qcb + 64 * (k.count.toNat % max 1 (Qcb.cslots k.qcb))
  match s.completionWrite r x at_ (s.completionRecord r x c) with
  | .wait s => s
  | .fail s _ _ => s
  | .done s _ =>
    match s.completionWrite r x (Qcb.cnt k.qcb) (leBytes 8 (k.count + 1).toNat) with
    | .done s _ => s.finishRun r x
    | .wait s => s
    | .fail s _ _ => s

/-- The result region is written when the run was found stable or stopped at a limit; then the signal (R47, R329). -/
def State.conclude (s : State) (r : Nat) (x : Run) (c : StopCause) : State :=
  if c.status = 1 ∨ c.status = 2 then
    let (bs, trunc) := s.resultBytes x c.status
    let at_ := Rec.result x.rec_
    match feStore x.vf r (.completionSignal r) .store (x.refusedIn at_ bs.length) (lineWrites (BitVec.ofNat 64 at_) bs) s with
    | .wait s => s
    | .fail s cause va => s.endRun r ⟨6, cause, va⟩
    | .done s _ =>
      let x := { x with trunc := trunc }
      (s.setRun r x).signal r x c
  else s.signal r x c

/-- The completion of a run, when everything that it follows has come (R329, R351). -/
def execCompletionSignal (r : Nat) (s : State) : Host.Outcome State Fault Refusal :=
  .next (match s.run? r with
    | none => s
    | some x =>
      if x.phase = .complete ∨ s.feWaits r then s
      else match x.stop with
        | some c =>
          if x.inRing then (s.unplace r).signal r x c
          else if x.phase ≠ .stopping then s
          else if s.runBusy r x then s.postOnce (.completionSignal r)
          else s.conclude r x c
        | none =>
          if x.phase = .running && s.gangHalted x then
            (s.setRun r { x with phase := .stopping, stop := some ⟨3, 0, 0⟩ }).postOnce (.completionSignal r)
          else s)

/-! ## The flag tree (R280) -/

/-- Bits set in the CLUFLAGS of clusters reach the PACKFLAGS of their runs. -/
def execFlagPropagate (s : State) : Host.Outcome State Fault Refusal :=
  .next (((s.clusters.filter (fun c => c.2.raised != 0)).filterMap (fun c => c.2.run)).eraseDups.foldl State.flushFlags s)

end Sys2Proof.Machine
end

