-- ==== Sys2Proof/Machine/Tile.lean ====
section
/-! DEFINITION. The tile table, litters, fills and drains (R253 to R262). -/
namespace Sys2Proof.Machine

/-! ## Descriptors (R253) -/

def tdBuf (d : Word) : Buf := Buf.ofCode (Word.bits d 1 0)
def tdBase (d : Word) : Nat := Word.bits d 20 8
def tdRows (d : Word) : Nat := Word.bits d 32 24
def tdRowBytes (d : Word) : Nat := Word.bits d 47 34
def tdLit (d : Word) : LitIx := BitVec.ofNat 4 (Word.bits d 51 48)
def tdInLit (d : Word) : Bool := Word.bit d 52
def tdSlot (d : Word) : Nat := Word.bits d 56 53
def tdNm1 (d : Word) : Nat := Word.bits d 60 57

/-- A descriptor that `tdef` accepts (R255). -/
def tdOk (d : Word) : Bool :=
  Word.bits d 7 2 == 0 && Word.bits d 23 21 == 0 && !Word.bit d 33 && Word.bits d 63 61 == 0 &&
  1 ≤ tdRows d && tdRows d ≤ 256 && 1 ≤ tdRowBytes d && tdRowBytes d ≤ 8192 &&
  tdBase d * 256 + tdRows d * tdRowBytes d ≤ (tdBuf d).size && (!tdInLit d || tdSlot d ≤ tdNm1 d)

/-- An entry leaves the litter whose slot it is. -/
def State.unbind (s : State) (c : Nat) (n : TileIx) : State :=
  s.updCluster c (fun u => { u with litters := u.litters.map (fun l =>
    (l.1, { l.2 with slots := l.2.slots.filter (fun e => e.2 != n.toNat) })) })

/-- An entry bound to a slot of its litter, which is reset when its count differs (R255). -/
def State.bind (s : State) (c : Nat) (n : TileIx) (d : Word) : State :=
  s.updLitter c (tdLit d) (fun l =>
    let l := if l.n = tdNm1 d + 1 then l else ⟨tdNm1 d + 1, [], 0⟩
    { l with slots := l.slots.filter (fun e => e.1 != tdSlot d) ++ [(tdSlot d, n.toNat)] })

/-- tdef (R255). -/
def execTdef (n : TileIx) (a : XReg) (s : State) : Host.Outcome State Fault Refusal :=
  word (do
    userM
    let d ← xM a
    let s ← readS id
    let e := s.tile s.cur.cluster n
    trapIf (e.state == .filling || e.state == .draining) causeAccess (BitVec.ofNat 64 (0x100 + n.toNat))
    trapIf (!tdOk d) causeAccess d
    updS (fun s => s.updTile s.cur.cluster n (fun e => { e with desc := d, state := .empty, ferr := false }))
    updS (fun s => s.unbind s.cur.cluster n)
    if tdInLit d then updS (fun s => s.bind s.cur.cluster n d) else pure ()) s

/-- The STATE code of `tstat` (R260). -/
def TileState.code : TileState → Nat
  | .empty => 0
  | .filling => 1
  | .ready => 2
  | .draining => 3

/-- Whether an entry is a slot of a litter. -/
def State.bound (s : State) (c : Nat) (n : TileIx) : Bool :=
  (s.cluster c).litters.any (fun l => l.2.slots.any (fun e => e.2 == n.toNat))

/-- The word of `tstat` (R260). -/
def State.tileWord (s : State) (c : Nat) (n : TileIx) : Word :=
  let e := s.tile c n
  field 0 e.state.code ||| field 2 e.ferr.toNat ||| field 3 (s.bound c n).toNat ||| field 8 e.seq.toNat |||
    field 40 (e.bytes % 2 ^ 24)

/-- tstat (R260, R262). -/
def execTstat (d : XReg) (o : TileOpd) (s : State) : Host.Outcome State Fault Refusal :=
  word (do
    userM
    let n ← nameTileM o
    let s ← readS id
    setXM d (s.tileWord s.cur.cluster n)
    updS (fun s => s.edge s.cur)) s

/-- tfree (R260). -/
def execTfree (o : TileOpd) (s : State) : Host.Outcome State Fault Refusal :=
  word (do
    userM
    let n ← (match o with
      | .lit l x => consumeM l x
      | .tile n => do
        let s ← readS id
        let st := (s.tile s.cur.cluster n).state
        holdIf (st == .filling || st == .draining)
        pure n)
    updS (fun s => s.updTile s.cur.cluster n (fun e => { e with state := .empty }))) s

/-- lnext (R257). -/
def execLnext (d : XReg) (l : LitIx) (s : State) : Host.Outcome State Fault Refusal :=
  word (do
    userM
    let s ← readS id
    setXM d ((s.litter s.cur.cluster l).pseq.setWidth 64)
    updS (fun s => s.updLitter s.cur.cluster l (fun t => { t with pseq := t.pseq + 1 }))) s

/-- The word of `lget` (R257). -/
def State.litterWord (s : State) (c : Nat) (l : LitIx) : Word :=
  let t := s.litter c l
  let ready := t.slots.foldl (fun acc e =>
    if (s.tile c (BitVec.ofNat 8 e.2)).state = .ready then acc ||| 2 ^ e.1 else acc) 0
  field 0 t.pseq.toNat ||| field 32 t.n ||| field 48 ready

/-- lget (R257). -/
def execLget (d : XReg) (l : LitIx) (s : State) : Host.Outcome State Fault Refusal :=
  word (do
    userM
    let s ← readS id
    setXM d (s.litterWord s.cur.cluster l)) s

/-! ## tfill and tdrain (R258) -/

/-- TDIM of a coordinate, 1 at and above RANK. -/
def boxDim (h : HWord) (k : Nat) : Nat := if k < h.rank then h.tdim k else 1

/-- The checks of R258 on the handle and its operand. -/
def boxM (hr : HReg) (b : XReg) : M (HWord × List Nat) := do
  let h ← hM hr
  let w ← xM b
  let is ← coordsM h w
  match h.validate with
  | some e => trapM causeBadShape e.tval
  | none => pure (h, is)

/-- The box fits the entry's rows, or ACCESS. -/
def boxFitsM (h : HWord) (n : TileIx) : M Unit := do
  let s ← readS id
  let d := (s.tile s.cur.cluster n).desc
  trapIf (tdRowBytes d < boxDim h 0 * h.esize || tdRows d < boxDim h 1 * boxDim h 2 * boxDim h 3) causeAccess
    (BitVec.ofNat 64 (0x200 + n.toNat))

/-- TVAL of a tile operand's timeout. -/
def opdTvalM (o : TileOpd) (n : TileIx) : M Word := do
  match o with
  | .tile _ => pure (tileTval n)
  | .lit l x => do
    let q ← seqM x
    pure (litTval l q)

/-- The operation is given to its pipe, in the TL class. -/
def startMoveM (drain : Bool) (n : TileIx) (h : HWord) (is : List Nat) : M Unit := do
  enterClass .tl
  let order ← nextOrder
  let me ← readS State.me
  updS (fun s =>
    let op : MoveOp := { drain := drain, tile := n, thread := s.cur, stint := me.stint, act := me.act, order := order, hrec := h, coords := is,
                         row := 0, off := 0, suspended := false, kept := [], done := [] }
    (s.updMyCluster (fun c => { c with moves := c.moves ++ [op] })).post
      (if drain then .drainSegment s.cur.cluster n else .fillSegment s.cur.cluster n))

/-- tfill (R258). -/
def execTfill (o : TileOpd) (hr : HReg) (b : XReg) (s : State) : Host.Outcome State Fault Refusal :=
  word (do
    userM
    let (h, is) ← boxM hr b
    let n ← nameTileM o
    boxFitsM h n
    let s ← readS id
    let e := s.tile s.cur.cluster n
    let tv ← opdTvalM o n
    if e.state != .empty then boundedWait (.fill n) tv
    else do
      let q ← (match o with
        | .lit _ x => seqM x
        | .tile _ => pure e.seq)
      updS (fun s => s.updTile s.cur.cluster n (fun e => { e with seq := q, state := .filling, ferr := false, bytes := 0 }))
      startMoveM false n h is) s

/-- tdrain (R258). -/
def execTdrain (o : TileOpd) (hr : HReg) (b : XReg) (s : State) : Host.Outcome State Fault Refusal :=
  word (do
    userM
    let (h, is) ← boxM hr b
    let n ← nameTileM o
    boxFitsM h n
    let s ← readS id
    let n ← (match o with
      | .lit l x => consumeM l x
      | .tile n => if (s.tile s.cur.cluster n).state = .ready then pure n else boundedWait (.drain n) (tileTval n))
    updS (fun s => s.updTile s.cur.cluster n (fun e => { e with state := .draining, bytes := 0 }))
    startMoveM true n h is) s

/-! ## Segments -/

def MoveOp.rows (m : MoveOp) : Nat := boxDim m.hrec 1 * boxDim m.hrec 2 * boxDim m.hrec 3
def MoveOp.rowLen (m : MoveOp) : Nat := boxDim m.hrec 0 * m.hrec.esize

/-- The box as a side: its rows run along coordinates 1, 2 and 3 (R258). -/
def MoveOp.side (m : MoveOp) : CopySide :=
  ⟨0, 0, m.coords, (boxDim m.hrec 1, boxDim m.hrec 2), some m.hrec, m.rowLen⟩

def MoveOp.engine (m : MoveOp) (vf : Nat) : EngineFor :=
  ⟨if m.drain then .drain m.thread.cluster else .fill m.thread.cluster, vf, some (m.thread.cluster, m.thread.core), m.act, m.order⟩

/-- The buffer offset of byte x of box row r under a descriptor. -/
def boxAt (d : Word) (r x : Nat) : Nat := tdBase d * 256 + r * tdRowBytes d + x

/-- The bytes of the next segment of a fill: those of the box row within one buffer row. -/
def MoveOp.fillLen (m : MoveOp) (d : Word) : Nat := min (m.rowLen - m.off) (256 - boxAt d m.row m.off % 256)

/-- One segment of a fill: its bytes are read from the tensor, FILL outside (R246, R258); what a relaying handle keeps of them.
Its reads follow the atomics that the thread set has issued (R342; DEDUCED, entry 106). -/
def fillSegmentE (e : EngineFor) (c : Nat) (d : Word) (m : MoveOp) : EM (List ((Nat × Nat) × Byte)) := do
  let s ← stateE
  if s.amoBefore m.thread m.order then stopE .busy else pure ()
  let parts := [(m.row, m.off, m.fillLen d)]
  let need := m.side.reads m.kept (rowsFrom m.row m.rows) parts
  let plan ← planParts e .fill m.side need
  let raw ← readPieces e plan
  let kept := m.kept ++ m.side.keep need raw
  updE (fun s => s.updCluster c (fun u => u.writeBuf (tdBuf d) (boxAt d m.row m.off) (m.side.taken kept parts raw)))
  pure kept

/-- Whether buffer rows of a range are poisoned (R316). -/
def Cluster.rangeBad (c : Cluster) (b : Buf) (at_ n : Nat) : Bool :=
  (upTo ((at_ + n - 1) / 256 + 1 - at_ / 256)).any (fun i => c.rowBad b (at_ / 256 + i))

/-- The segment with which a drain goes on (R223, R247, R258). -/
def MoveOp.next (m : MoveOp) : Segment := m.side.segment m.done (rowsFrom m.row m.rows) m.row m.off

/-- One segment of a drain. A poisoned buffer row has no address of its own: the TVAL is a free value (assumption 1). -/
def drainSegmentE (e : EngineFor) (c : Nat) (d : Word) (m : MoveOp) : EM Unit := do
  let s ← stateE
  let parts := m.next.parts
  let dests ← partAddrs e .drain m.side parts
  let spots ← targetRuns e .drain ((addrRuns (dests.map (fun a => (a, 0)))).map (fun r => (r.1, r.2.length)))
  failIf (dests.any Option.isSome && parts.any (fun p => (s.cluster c).rangeBad (tdBuf d) (boxAt d p.1 p.2.1) p.2.2))
    causePoison (Config.freeWord s.freeIdx)
  let bs := parts.flatMap (fun p => ByteMap.reads ((s.cluster c).buf (tdBuf d)) (boxAt d p.1 p.2.1) p.2.2)
  writeSpots e ((dests.findSome? id).getD 0) spots ((addrRuns (dests.zip bs)).flatMap (·.2))

/-- The next segment of a fill or drain; what a relaying handle keeps of what it read. -/
def moveSegmentE (e : EngineFor) (c : Nat) (d : Word) (m : MoveOp) : EM (List ((Nat × Nat) × Byte)) :=
  if m.drain then do
    drainSegmentE e c d m
    pure []
  else fillSegmentE e c d m

def State.findMove (s : State) (c : Nat) (n : TileIx) (drain : Bool) : Option MoveOp :=
  (s.cluster c).moves.find? (fun m => m.tile == n && m.drain == drain)

def State.updMove (s : State) (c : Nat) (n : TileIx) (f : MoveOp → MoveOp) : State :=
  s.updCluster c (fun u => { u with moves := u.moves.map (fun m => if m.tile = n then f m else m) })

def State.dropMove (s : State) (c : Nat) (n : TileIx) : State :=
  s.updCluster c (fun u => { u with moves := u.moves.filter (fun m => m.tile != n) })

def moveEvent (c : Nat) (m : MoveOp) : Instr := if m.drain then .drainSegment c m.tile else .fillSegment c m.tile

/-- What the next segment of a fill or drain is, as its side cuts it. -/
def MoveOp.cut (m : MoveOp) (d : Word) : Segment :=
  if m.drain then m.next else ⟨m.fillLen d, [(m.row, m.off, m.fillLen d)], m.fillLen d, none⟩

/-- A segment has been moved: BYTES, and the entry's state at the last (R258). -/
def State.moveAdvance (s : State) (c : Nat) (m : MoveOp) (kept : List ((Nat × Nat) × Byte)) : State :=
  let g := m.cut (s.tile c m.tile).desc
  let s := s.updTile c m.tile (fun e => { e with bytes := e.bytes + g.bytes })
  let off := m.off + g.passed
  let rowEnd := m.rowLen ≤ off
  if rowEnd ∧ m.rows ≤ m.row + 1 then
    ((s.updTile c m.tile (fun e => { e with state := if m.drain then .empty else .ready })).dropMove c m.tile).leaveFor
      m.thread m.stint .tl
  else
    (s.updMove c m.tile (fun m => { m with row := if rowEnd then m.row + 1 else m.row, off := if rowEnd then 0 else off,
                                           kept := kept, done := m.done ++ g.line.toList })).postOnce (moveEvent c m)

/-- The scope from which a fence waits for a drain (R217). -/
def State.moveReach (s : State) (m : MoveOp) (vf : Nat) : Nat :=
  if m.drain then s.sideReach (m.engine vf) .drain m.side m.done (rowsFrom m.row m.rows) m.row m.off else 0

/-- A fill or drain ends without its last segment: EMPTY with FERR (R261). -/
def State.endMove (s : State) (c : Nat) (m : MoveOp) : State :=
  ((s.updTile c m.tile (fun e => { e with state := .empty, ferr := true })).dropMove c m.tile).leaveFor m.thread m.stint .tl

/-- A fill or drain fails (R261). -/
def State.failMove (s : State) (c : Nat) (m : MoveOp) (vf cause : Nat) (va : Word) : State :=
  let reach := s.moveReach m vf
  let s := { s with freeIdx := s.freeIdx + 1 }
  (s.endMove c m).addPend m.thread m.stint m.act ⟨m.order, .tl, reach, cause, va, none, none⟩

/-- The next segment of a fill or drain. -/
def State.moveSegment (s : State) (c : Nat) (m : MoveOp) : State :=
  let vf := ((s.cluster c).run.map s.vfOfRun).getD 0
  let d := (s.tile c m.tile).desc
  let e := m.engine vf
  match moveSegmentE e c d m s with
  | .ok (kept, s) => s.moveAdvance c m kept
  | .error (.fault va kind) =>
    match s.joinMiss c vf va kind (if m.drain then .drainPipe m.tile else .fillPipe m.tile) with
    | some s => s.updMove c m.tile (fun m => { m with suspended := true })
    | none => s.postOnce (moveEvent c m)
  | .error (.fail cause va) => s.failMove c m vf cause va
  | .error .conflict => (s.endMove c m).engineConflict m.act
  | .error .busy => s.postOnce (moveEvent c m)

/-- The next segment of a fill. -/
def execFillSegment (c : Nat) (n : TileIx) (s : State) : Host.Outcome State Fault Refusal :=
  .next (match s.findMove c n false with
    | some m => if m.suspended then s else s.moveSegment c m
    | none => s)

/-- The next segment of a drain. -/
def execDrainSegment (c : Nat) (n : TileIx) (s : State) : Host.Outcome State Fault Refusal :=
  .next (match s.findMove c n true with
    | some m => if m.suspended then s else s.moveSegment c m
    | none => s)

end Sys2Proof.Machine
end

