-- ==== Sys2Proof/Machine/Faults.lean ====
section
/-! DEFINITION. Page faults after they are raised (R374 to R378): the entries of the fault queue, the firmware's answers, the
walk that SERVE starts, and what each sleeping agent does then. -/
namespace Sys2Proof.Machine

/-! ## The fault queue (R375, R376) -/

/-- The next place of a fault queue: FQTAIL with WRAP (R373). -/
def nextTail (t : Word) : Word := if Word.bits t 7 0 = 255 then (t ^^^ field 8 1) &&& field 8 1 else t + 1

/-- Whether a function's fault queue of 256 entries takes another one. -/
def Fn.queueOpen (f : Fn) : Bool := f.fqCount < 256

/-- The oldest held entry is written at FQTAIL; a halted firmware core wakes (R123). -/
def execFaultQueueWrite (vf : Nat) (s : State) : Host.Outcome State Fault Refusal :=
  .next (match (s.fn vf).faults with
    | [] => s
    | e :: rest =>
      if !(s.fn vf).queueOpen then s
      else
        let s := s.sramWrites vf (sramFaults + 32 * Word.bits (s.fn vf).fqtail 7 0) e
        let s := s.updFn vf (fun f => { f with faults := rest, fqtail := nextTail f.fqtail, fqCount := f.fqCount + 1 })
        let s := s.postOnce (.firmwareWake vf)
        if rest.isEmpty then s else s.postOnce (.faultQueueWrite vf))

/-- A halted firmware core goes on (R123). -/
def execFirmwareWake (n : Nat) (s : State) : Host.Outcome State Fault Refusal :=
  .next (
    let t := TsId.firmware n
    if (s.thread t).status = .halted then s.updThread t (fun th => { th with status := .ready }) else s)

/-! ## What an answered agent does (R378, R413) -/

/-- The front end's step for a run is taken again. -/
def State.wakeRun (s : State) (r : Nat) : State :=
  match s.run? r with
  | none => s
  | some x =>
    let s := if s.inserts.any (fun i => i.run == r) then
      (s.inserts.filter (fun i => i.run == r)).foldl (fun s _ => s.post .tileInsert) s else s
    if x.inRing && x.stop.isSome then s.postOnce (.completionSignal r) else
    match x.phase with
    | .queued => s.postOnce (.runEligible x.vf x.queue)
    | .eligible => s.postOnce (.replaceRequest r)
    | .placed => s.postOnce (.runRelease r)
    | .running => s
    | .stopping => s.postOnce (.completionSignal r)
    | .draining => s.postOnce (.packSave r)
    | .saved => s.postOnce (.resumePack r)
    | .complete => s

/-- The submissions that wait for a page go on; refused ones are marked. -/
def State.wakeSubmissions (s : State) (vf page : Nat) (refuse : Option Word) : State :=
  let hit (q : Submission) : Bool := q.vf == vf && q.waiting.any (fun a => a.toNat / 65536 == page)
  { s with submissions := s.submissions.map (fun q =>
      if hit q then { q with waiting := none, refused := if refuse.isSome then refuse else q.refused } else q) }.postOnce .queueAppend

/-- A thread set that slept on a fault replays its word. Of a pack that is being pre-empted, a refused word is replayed to
trap before the pack is saved (R381). -/
def State.wakeThread (s : State) (t : TsId) (refuse : Option Word) : State :=
  if (s.thread t).status = .asleep ∨ (s.thread t).status = .stopped then
    let draining := ((s.thread t).run.bind s.run?).any (fun x => x.phase == .draining)
    let st : TStatus := if (s.thread t).status = .stopped then .stopped
      else if refuse.isSome && draining then .ready else s.wokenStatus t
    (s.updThread t (fun th => { th with status := st, refused := refuse })).edge t
  else s

/-- The oldest suspended copy under an ID of a thread set. -/
def State.sleeper (s : State) (t : TsId) (n : BitVec 16) : Option CopyOp :=
  (s.cluster t.cluster).copies.find? (fun c => c.thread == t && c.id == n && c.suspended)

/-- An agent goes on after SERVE. -/
def State.serveAgent (s : State) (c : Nat) (m : Miss) (a : Agent) : State :=
  match a with
  | .thread t => s.wakeThread t none
  | .copyPipe t n =>
    match s.sleeper t n with
    | some q => ((s.noteCopy q 1 q.segs).updCopy q (fun q => { q with suspended := false })).postOnce (.copySegment t n)
    | none => s
  | .fillPipe n | .drainPipe n =>
    match (s.cluster c).moves.find? (fun q => q.tile == n) with
    | some q => (s.updMove c n (fun q => { q with suspended := false })).postOnce (moveEvent c q)
    | none => s
  | .relayout map => (s.updRelayout c map (fun r => { r with suspended := false })).postOnce (.relayoutBlock c map)
  | .frontEnd r _ => if r = 0 then s.wakeSubmissions m.vf m.page none else s.wakeRun r

/-- The address at which a suspended copy, fill or drain meets a fault: found by trying its segment again. -/
def State.copyFaultVa (s : State) (q : CopyOp) (vf : Nat) (m : Miss) : Word :=
  match copySegmentE (q.engine vf) q s with
  | .error (.fault va _) => va
  | _ => m.va

def State.moveFaultVa (s : State) (c : Nat) (q : MoveOp) (vf : Nat) (m : Miss) : Word :=
  let d := (s.tile c q.tile).desc
  match moveSegmentE (q.engine vf) c d q s with
  | .error (.fault va _) => va
  | _ => m.va

def State.relayFaultVa (s : State) (c : Nat) (q : Relayout) (vf : Nat) (m : Miss) : Word :=
  match relayStart (relayEngine c vf) q.hrec q.block s with
  | .error (.fault va _) => va
  | _ => m.va

/-- An agent fails after REFUSE; `was` is the state in which the fault is still unanswered. -/
def State.refuseAgent (was s : State) (c : Nat) (m : Miss) (a : Agent) : State :=
  match a with
  | .thread t => s.wakeThread t (some (m.va >>> 16))
  | .copyPipe t n =>
    match s.sleeper t n with
    | some q => s.failCopy q m.vf causeAccess (was.copyFaultVa q m.vf m)
    | none => s
  | .fillPipe n | .drainPipe n =>
    match (s.cluster c).moves.find? (fun q => q.tile == n) with
    | some q => s.failMove c q m.vf causeAccess (was.moveFaultVa c q m.vf m)
    | none => s
  | .relayout map =>
    match (s.cluster c).relayouts.find? (fun q => q.map == map) with
    | some q => s.updRelayout c map (fun r => { r with suspended := false, state := .failed (was.relayFaultVa c q m.vf m) })
    | none => s
  | .frontEnd r va =>
    if r = 0 then s.wakeSubmissions m.vf m.page (some va)
    else (s.updRun r (fun x => { x with refused := x.refused ++ [va] })).wakeRun r

/-! ## Answers (R378) -/

/-- An entry of a cluster's miss file removed. -/
def State.dropMiss (s : State) (c : Nat) (m : Miss) : State :=
  s.updCluster c (fun u => { u with misses := u.misses.filter (fun q => !(q.vf == m.vf && q.page == m.page)) })

def State.updMiss (s : State) (c : Nat) (m : Miss) (f : Miss → Miss) : State :=
  s.updCluster c (fun u => { u with misses := u.misses.map (fun q => if q.vf = m.vf ∧ q.page = m.page then f q else q) })

/-- The miss of a function's unanswered fault. -/
def State.missOfFid (s : State) (vf fid : Nat) : Option (Nat × Miss) :=
  s.clusters.findSome? (fun c => (c.2.misses.find? (fun m => m.vf == vf && m.fid == fid && !m.served)).map (fun m => (c.1, m)))

/-- SERVE: the walk starts again. -/
def execFrespServe (vf fid : Nat) (s : State) : Host.Outcome State Fault Refusal :=
  .next (match s.missOfFid vf fid with
    | some (c, m) => (s.updMiss c m (fun m => { m with served := true })).postOnce (.pageWalk c vf m.page)
    | none => s)

/-- REFUSE: each merged access fails. -/
def execFrespRefuse (vf fid : Nat) (s : State) : Host.Outcome State Fault Refusal :=
  .next (match s.missOfFid vf fid with
    | some (c, m) => m.agents.foldl (fun t a => State.refuseAgent s t c m a) (s.dropMiss c m)
    | none => s)

/-- KIND of R376 from its code. -/
def FaultKind.ofCode (n : Nat) : FaultKind :=
  match n with
  | 0 => .fetch
  | 1 => .load
  | 2 => .store
  | 3 => .atomic
  | 4 => .copyRead
  | 5 => .copyWrite
  | 6 => .fill
  | 7 => .drain
  | 8 => .relayRead
  | 9 => .relayWrite
  | 10 => .mcrd
  | _ => .save

/-- The walk for an answered miss (R374, R375, R378): at a present leaf the second level is filled and every merged access
goes on; an entry not present raises a new fault, with a new FID. -/
def execPageWalk (c vf page : Nat) (s : State) : Host.Outcome State Fault Refusal :=
  .next (match s.missOf c vf page with
    | none => s
    | some m =>
      if !m.served then s
      else match s.walk vf m.va.toNat with
        | .present e =>
          let s := s.dropMiss c m
          let s := if c ≠ fwNode ∧ m.kinds.all (fun k => e.permits (FaultKind.ofCode k).need) then s.addL2 c e else s
          m.agents.foldl (fun s a => s.serveAgent c m a) s
        | .busy => s.postOnce (.pageWalk c vf page)
        | .failed _ => m.agents.foldl (fun s a => s.serveAgent c m a) (s.dropMiss c m)
        | .absent =>
          match m.agents with
          | [] => s.dropMiss c m
          | a :: _ =>
            let (s, fid) := s.raiseFault c vf m.va (FaultKind.ofCode m.kind) a
            s.updMiss c m (fun m => { m with fid := fid, served := false }))

end Sys2Proof.Machine
end

