-- ==== Sys2Proof/Machine/Preempt.lean ====
section
/-! DEFINITION. Pre-emption (R160, R318, R379 to R385): how a pack is stopped, its save area, and its resumption. -/
namespace Sys2Proof.Machine

/-! ## Bytes of records -/

def bytesIn (bs : List Byte) (off n : Nat) : List Byte := (bs.drop off).take n
def natIn (bs : List Byte) (off n : Nat) : Nat := leNat (bytesIn bs off n)
def dwordIn (bs : List Byte) (off : Nat) : Word := BitVec.ofNat 64 (natIn bs off 8)
def dwords (l : List Nat) : List Byte := l.flatMap (leBytes 8)

/-! ## Thread sets (R382) -/

/-- The IDs of the failed copies whose traps are pending with a thread set (R226, R382). -/
def Thread.pendCopies (t : Thread) : List (BitVec 16) := t.pend.filterMap (·.copy)

def Thread.copyBytes (t : Thread) : List Byte :=
  padTo 512 (t.copies.flatMap (fun q =>
    leBytes 8 (q.state + 8 * (t.pendCopies.contains q.id).toNat + 2 ^ 16 * q.segs + 2 ^ 48 * q.id.toNat)))

/-- The copies of a record, oldest first; an unused place has ID 0. -/
def copiesIn (bs : List Byte) : List CopyStat :=
  (upTo 64).filterMap (fun i =>
    let w := dwordIn bs (8 * i)
    if Word.bits w 63 48 = 0 then none else some ⟨BitVec.ofNat 16 (Word.bits w 63 48), Word.bits w 2 0, Word.bits w 47 16⟩)

/-- The repetition state: the eight body words, then n, len, STRIDE, pass and word, one dword each. -/
def repBytes (r : Option RepState) : List Byte :=
  match r with
  | none => zeros 128
  | some r => padTo 128 (padTo 64 (r.body.flatMap (fun w => leBytes 8 w.toNat)) ++ dwords [r.n, r.body.length, r.stride, r.pass, r.word])

def repIn (bs : List Byte) : Option RepState :=
  let len := natIn bs 72 8
  if len = 0 then none
  else some { body := (upTo len).map (fun i => dwordIn bs (8 * i)), n := natIn bs 64 8, stride := natIn bs 80 8,
              pass := natIn bs 88 8, word := natIn bs 96 8 }

/-- The chain record (R318). -/
def Chain.bytes (c : Chain) (held : Bool) : List Byte :=
  let st : Nat := if c.state = .none then 0 else 1
  let cls : Nat := match c.cls with
    | .none => 0
    | .float => 1
    | .int => 2
  leBytes 64 (st + 4 * cls + 16 * held.toNat + 2 ^ 32 * c.rowmask.toNat)

def Chain.ofBytes (c : Chain) (bs : List Byte) : Chain :=
  let w := dwordIn bs 0
  { c with state := if Word.bits w 1 0 = 1 then .parked else .none,
           cls := (match Word.bits w 3 2 with
             | 1 => .float
             | 2 => .int
             | _ => .none),
           rowmask := w.extractLsb' 32 32, resume := Word.bit w 4 }

/-- The receive queue: the `recv` word, the length, the payload at byte 64. -/
def recvBytes (q : List RecvEntry) : List Byte :=
  padTo 1024 (q.flatMap (fun e => padTo 128 (padTo 64 (dwords [e.word.toNat, e.payload.length]) ++ e.payload)))

def recvIn (bs : List Byte) (n : Nat) : List RecvEntry :=
  (upTo n).map (fun i => ⟨dwordIn bs (128 * i), bytesIn bs (128 * i + 64) (natIn bs (128 * i + 8) 8)⟩)

/-- HELD of a chain record (R318): the thread set holds the leash, or its next matrix instruction asks for it back, after a
re-arbitration or an earlier restoration (R310, R385). -/
def State.heldBit (s : State) (t : TsId) : Bool := s.isHolder t || (s.thread t).chain.resume

/-- The record of a thread set (R382): its wait classes are empty, and so is its send queue (R381). -/
def Thread.record (t : Thread) (park : List Byte) (held : Bool) : List Byte :=
  (upTo 32).flatMap (fun i => leBytes 8 (t.getX (BitVec.ofNat 5 i)).toNat) ++
  t.v.toList.flatMap (fun v => v.bytes) ++
  (upTo 8).flatMap (fun i => leBytes 8 (t.getP (BitVec.ofNat 3 i)).toNat) ++
  t.h.toList.flatMap (fun h => leBytes 128 h.toNat) ++
  padTo 128 (dwords [t.pc.toNat, t.tpc.toNat, t.tcause.toNat, t.tval.toNat, (t.tstat false).toNat, t.fpmode.toNat,
    t.fpflags.toNat, t.spillsp.toNat, t.spillbase.toNat, t.spilllim.toNat, t.waitlim.toNat, t.nextCopy.toNat]) ++
  t.shadow.toList.flatMap (fun w => leBytes 8 w.toNat) ++ t.copyBytes ++ repBytes t.rep ++ t.chain.bytes held ++
  padTo 2048 park ++ zeros 1024 ++ recvBytes t.recvq ++ zeros 64

/-- A thread set restored from its record; what the record does not hold stays as remembered. -/
def Thread.ofRecord (t : Thread) (bs : List Byte) : Thread :=
  let sr (i : Nat) : Word := dwordIn bs (0x1140 + 8 * i)
  { t with
    x := Vector.ofFn (fun i => dwordIn bs (8 * i.val))
    v := Vector.ofFn (fun i => VWord.ofBytes (bytesIn bs (0x100 + 64 * i.val) 64))
    p := Vector.ofFn (fun i => dwordIn bs (0x900 + 8 * i.val))
    h := Vector.ofFn (fun i => BitVec.ofNat 1024 (natIn bs (0x940 + 128 * i.val) 128))
    pc := sr 0, tpc := sr 1, tcause := sr 2, tval := sr 3
    mode := Word.bit (sr 4) 0, pmode := Word.bit (sr 4) 1, intrap := Word.bit (sr 4) 2
    fpmode := sr 5, fpflags := (sr 6).setWidth 6, spillsp := sr 7, spillbase := sr 8, spilllim := sr 9, waitlim := sr 10
    nextCopy := (sr 11).setWidth 16
    shadow := Vector.ofFn (fun i => dwordIn bs (0x11C0 + 8 * i.val))
    copies := copiesIn (bytesIn bs 0x1200 512)
    rep := repIn (bytesIn bs 0x1400 128)
    chain := t.chain.ofBytes (bytesIn bs 0x1480 64)
    recvq := recvIn (bytesIn bs 0x20C0 1024) t.recvq.length
    status := if t.status = .halted then .halted else .ready
    wait := none, refused := none, sendq := [], amoq := [], awaits := [], cnt := Counts.zero }

/-! ## Cores and clusters (R382) -/

def coreRecord : Nat := 0x40200
def threadRecord : Nat := 0x2500
def clusterFront : Nat := 0x416000

/-- The record of a core. -/
def CoreUnit.record (u : CoreUnit) : List Byte :=
  padTo coreRecord (padTo 0x200 (u.barriers.toList.flatMap (fun b =>
      leBytes 8 b.credit.toNat ++ leBytes 8 (b.expect.toNat + 2 ^ 32 * b.armed.toNat + 2 ^ 33 * b.err.toNat)) ++
    dwords [u.lsplit, u.vgroup]) ++ ByteMap.reads u.scratch 0 (32768 * u.lsplit))

/-- A core restored from its record; its caches start empty. -/
def CoreUnit.ofRecord (u saved : CoreUnit) (bs : List Byte) : CoreUnit :=
  let lsplit := natIn bs 0x100 8
  { u with
    barriers := Vector.ofFn (fun i =>
      let w := dwordIn bs (16 * i.val + 8)
      ⟨BitVec.ofNat 32 (natIn bs (16 * i.val) 4), w.setWidth 32, Word.bit w 32, w.extractLsb' 33 2⟩)
    lsplit := lsplit, vgroup := natIn bs 0x108 8
    scratch := ByteMap.writes [] 0 (bytesIn bs 0x200 (32768 * lsplit))
    poison := saved.poison, handlerSeq := saved.handlerSeq, lastSet := saved.lastSet
    priv := [], tlb := [] }

/-- The relayouts that a save area holds: those that run and those that failed. -/
def Cluster.savedRelays (u : Cluster) : List Relayout := (u.relayouts.filter (fun q => q.state != .complete)).take 16

def Relayout.record (q : Relayout) : List Byte :=
  let (st, addr) : Nat × Nat := match q.state with
    | .failed va => (1, va.toNat)
    | _ => (0, 0)
  leBytes 104 q.hrec.toNat ++ dwords [st, addr, 0]

/-- A relayout restored from its record, at the block with which it goes on. -/
def Relayout.ofRecord (r block : Nat) (bs : List Byte) : Relayout :=
  let h : HWord := BitVec.ofNat 1024 (natIn bs 0 104)
  { map := BitVec.ofNat 64 h.map, run := r, hrec := h, block := block, moving := none,
    state := if natIn bs 104 8 = 1 then .failed (dwordIn bs 112) else .running, suspended := false }

def TileEntry.record (e : TileEntry) : List Byte :=
  leBytes 8 e.desc.toNat ++ leBytes 8 (e.state.code + 4 * e.ferr.toNat + 2 ^ 8 * e.seq.toNat + 2 ^ 40 * (e.bytes % 2 ^ 24))

def TileState.ofCode (n : Nat) : TileState :=
  match n with
  | 1 => .filling
  | 2 => .ready
  | 3 => .draining
  | _ => .empty

def TileEntry.ofRecord (bs : List Byte) : TileEntry :=
  let w := dwordIn bs 8
  { desc := dwordIn bs 0, state := TileState.ofCode (Word.bits w 1 0), ferr := Word.bit w 2, seq := w.extractLsb' 8 32,
    bytes := Word.bits w 63 40 }

/-- The first part of a cluster's record, to 0x41_5FFF. -/
def Cluster.front (u : Cluster) (holder : Nat) (image : List Byte) : List Byte :=
  padTo 256 (leBytes 8 (holder + 2 ^ 8 * u.cluflags.toNat)) ++
  (upTo 256).flatMap (fun n => (NMap.get u.tiles n TileEntry.zero).record) ++
  (upTo 16).flatMap (fun n =>
    let l := NMap.get u.litters n Litter.zero
    dwords [l.pseq.toNat, l.n]) ++
  padTo 2048 (u.savedRelays.flatMap Relayout.record) ++ padTo 0x4600 image ++
  ByteMap.reads u.sbuf 0 0x10000 ++ ByteMap.reads u.abuf 0 0x100000 ++ ByteMap.reads u.cbuf 0 0x100000 ++
  ByteMap.reads u.wbuf 0 0x200000

/-- The litters of a record; which entries fill their slots stays as remembered. -/
def littersIn (saved : NMap Litter) (bs : List Byte) : NMap Litter :=
  (upTo 16).filterMap (fun n =>
    let l : Litter := ⟨natIn bs (16 * n + 8) 8, (NMap.get saved n Litter.zero).slots, BitVec.ofNat 32 (natIn bs (16 * n) 4)⟩
    if l = Litter.zero then none else some (n, l))

/-- A cluster restored from the first part of its record. -/
def Cluster.ofFront (u saved : Cluster) (relayouts : List Relayout) (clause : ClauseUnit) (bs : List Byte) : Cluster :=
  { u with
    cluflags := BitVec.ofNat 6 (natIn bs 1 4)
    tiles := (upTo 256).filterMap (fun n =>
      let e := TileEntry.ofRecord (bytesIn bs (0x100 + 16 * n) 16)
      if e = TileEntry.zero then none else some (n, e))
    litters := littersIn saved.litters (bytesIn bs 0x1100 256)
    relayouts := relayouts, clause := clause, badRows := saved.badRows
    sbuf := ByteMap.writes [] 0 (bytesIn bs 0x6000 0x10000), abuf := ByteMap.writes [] 0 (bytesIn bs 0x16000 0x100000)
    cbuf := ByteMap.writes [] 0 (bytesIn bs 0x116000 0x100000), wbuf := ByteMap.writes [] 0 (bytesIn bs 0x216000 0x200000)
    l2tlb := [], copyTlb := [], fillTlb := [], drainTlb := [], relayTlb := [] }

/-! ## Kennels (R383) -/

/-- A candidate slot: its ages, the rule index, the skips, the promoted and rejected marks, four bytes each. -/
def Cand.bytes (c : Cand) : List Byte :=
  padTo 16 (c.ages.flatMap (fun a => leBytes 4 a.toNat)) ++ leBytes 4 c.rule ++ leBytes 4 c.skips ++
    leBytes 4 (c.promoted.toNat + 2 * c.rejected.toNat) ++ zeros 4

def candIn (rules : List Rule) (slot : Nat) (bs : List Byte) : Option Cand :=
  let rule := natIn bs 16 4
  let arity := ((rules[rule]?).map (·.kinds.length)).getD 0
  if natIn bs 0 32 = 0 then none
  else some { slot := slot, rule := rule, ages := (upTo arity).map (fun i => BitVec.ofNat 32 (natIn bs (4 * i) 4)),
              skips := natIn bs 20 4, rejected := natIn bs 24 4 / 2 % 2 == 1 }

/-- The kennel's part of a record. -/
def Kennel.record (n : Kennel) (x : Run) : List Byte :=
  padTo 256 (dwords [n.ageCtr.toNat, n.actSeq.toNat, n.ins, n.rem, n.snd, n.rcv, x.rulesAddr, x.gen]) ++
  (upTo 128).flatMap (fun i => ((n.cands.find? (fun c => c.slot == i)).map Cand.bytes).getD (zeros 32)) ++
  padTo 0x80000 (n.tiles.flatMap (fun t => t.tile.bytes))

/-- A kennel restored from its part of a record; the overflow ring stays as remembered. The record of its last round is not
saved (R164); its rounds go on counting (R14). -/
def Kennel.ofRecord (saved : Kennel) (rules : List Rule) (now : Nat) (bs : List Byte) : Kennel :=
  { saved with
    ageCtr := BitVec.ofNat 32 (natIn bs 0 8), actSeq := BitVec.ofNat 32 (natIn bs 8 8), ins := natIn bs 16 8, rem := natIn bs 24 8
    snd := natIn bs 32 8, rcv := natIn bs 40 8
    cands := (upTo 128).filterMap (fun i => candIn rules i (bytesIn bs (0x100 + 32 * i) 32))
    tiles := (upTo kennelSlots).filterMap (fun i =>
      let t := Tile.ofBits (BitVec.ofNat 256 (natIn bs (0x1100 + 32 * i) 32))
      if t.kind = 0 then none else some ⟨t, false⟩)
    lastStart := now, lastRound := RoundRec.zero }

/-! ## The save area (R382, R383) -/

/-- The bytes of a cluster's record. -/
def Run.clusterRecord (x : Run) : Nat :=
  let co := Rec.cores x.rec_
  if Rec.isGang x.rec_ then clusterFront + co * coreRecord + co * Rec.threads x.rec_ * threadRecord
  else 0x497100 + co * coreRecord

def Run.runtime (x : Run) (now : Nat) : Nat := x.ranBefore + (now - x.placedAt)

/-- The header. -/
def State.saveHeader (s : State) (r : Nat) (x : Run) : List Byte :=
  let react := Rec.isReact x.rec_
  padTo 256 (leBytes 8 (0x45564153 + 2 ^ 32 * (if react then 1 else 2) + 2 ^ 40) ++
    dwords [x.saveSize, x.runtime s.fclk, (s.packFlags r x).toNat, if react then x.firings else 0])

/-- The core and set of the leash holder, as CORE gives them (R118); 0xFF if none. -/
def State.holderByte (s : State) (x : Run) (c : Nat) : Nat :=
  match (s.cluster c).array.holder with
  | some t => ((upTo 16).find? (fun k => x.coreAt c k == t.core)).getD t.core + 16 * t.set
  | none => 0xFF

/-- The clause image of a cluster (R160): zero when no ranked thread set holds the array. -/
def State.clauseImage (s : State) (c : Nat) : List Byte :=
  match (s.cluster c).clause.holder with
  | some (.thread t) => (s.cluster c).clause.arr.image (s.thread t).rank.toNat
  | _ => []

/-- The thread sets of a pack's cluster in the order of their records, and its cores. -/
def Run.setsAt (x : Run) (c : Nat) : List TsId :=
  (upTo (Rec.cores x.rec_ * Rec.threads x.rec_)).map (fun i => ⟨c, x.coreAt c (i / Rec.threads x.rec_), i % Rec.threads x.rec_⟩)

def Run.coresAt (x : Run) (c : Nat) : List Nat := (upTo (Rec.cores x.rec_)).map (x.coreAt c)

/-- The record of a cluster. -/
def State.clusterBytes (s : State) (x : Run) (c : Nat) : List Byte :=
  let u := s.cluster c
  let cores := (x.coresAt c).flatMap (fun k => (s.core c k).record)
  if Rec.isGang x.rec_ then
    u.front (s.holderByte x c) (s.clauseImage c) ++ cores ++
      (x.setsAt c).flatMap (fun t => (s.thread t).record (ByteMap.reads u.cbuf (parkSlot t) 2048) (s.heldBit t))
  else u.front 0xFF [] ++ u.kennel.record x ++ cores

/-- Every byte of a pack's save area. -/
def State.saveBytes (s : State) (r : Nat) (x : Run) : List Byte := s.saveHeader r x ++ x.clusters.flatMap (s.clusterBytes x)

/-! ## Stopping (R380, R381) -/

/-- A REACT pack holds no further round; its activations go on to the drain limit (R380). -/
def execPreemptReactPack (r : Nat) (s : State) : Host.Outcome State Fault Refusal :=
  .next (match s.run? r with
    | none => s
    | some x =>
      if x.preemptible && Rec.isReact x.rec_ then
        (s.setRun r { x with phase := .draining, drainAt := s.fclk }).postOnce (.packSave r)
      else s)

/-- The drain limit: what has not reached its commit event is aborted with its helpers (R131, R380). -/
def execDrainLimitExpiry (r : Nat) (s : State) : Host.Outcome State Fault Refusal :=
  .next (match s.run? r with
    | none => s
    | some x =>
      if x.phase == .draining && Rec.isReact x.rec_ && x.drainAt + 180000 ≤ s.fclk then
        (s.acts.filter (fun a => a.1.run == r && !a.2.handler && a.2.ending != some .reject)).foldl
          (fun s a => s.endAct a.1 (fun a => { a with ending := some .abort })) s
      else s)

/-- A GANG pack stops at instruction boundaries: a waiting word is withdrawn; one that holds issue completes, and one
asleep on a fault waits for its answer; one whose fault has been refused takes its trap first (R378, R381, R385). -/
def execPreemptGangPack (r : Nat) (s : State) : Host.Outcome State Fault Refusal :=
  .next (match s.run? r with
    | none => s
    | some x =>
      if x.preemptible && Rec.isGang x.rec_ then
        let s := x.ranked.foldl (fun s t => s.updThread t (fun th =>
          if th.status = .ready ∧ th.refused.isNone then { th with status := .stopped, wait := none } else th)) s
        (s.setRun r { x with phase := .draining, drainAt := s.fclk }).postOnce (.packSave r)
      else s)

/-- After a word of a GANG pack that is being pre-empted: the thread set stands at its next boundary (R381). -/
def State.restop (s : State) (t : TsId) : State :=
  let th := s.thread t
  if th.status == .ready && th.ctx == .gang && !isFirmware t && (th.run.bind s.run?).any (fun x => x.phase == .draining) then
    s.updThread t (fun th => { th with status := .stopped, wait := none })
  else s

/-! ## The save (R379, R382, R383) -/

/-- Whether a pack has come to rest (R380, R381). -/
def State.atRest (s : State) (r : Nat) (x : Run) : Bool :=
  !s.packBusy r x && x.clusters.all (fun c =>
    ((s.cluster c).kennel.unacked == 0 || Rec.isGang x.rec_) && (s.cluster c).relayouts.all (fun q => q.moving.isNone) &&
      (clusterSets c).all (fun t => (s.thread t).status != .asleep && ((s.thread t).status != .ready || Rec.isReact x.rec_)))

/-- What the device keeps of a cluster of a saved pack. -/
def State.remember (s : State) (x : Run) (c : Nat) : SavedCluster :=
  { cluster := s.cluster c, cores := (x.coresAt c).map (s.core c), threads := (x.setsAt c).map s.thread,
    rollbacks := s.rollbacks.filter (fun q => q.cluster == c) }

/-- The LIVE chains of a pack's leash holders are parked (R309). -/
def State.parkAll (s : State) (x : Run) : State :=
  x.clusters.foldl (fun s c => match (s.cluster c).array.holder with
    | some t => s.park t
    | none => s) s

/-- The pack has been saved and leaves its clusters, whose translation caches are emptied (R374). Of a REACT pack's sets only
the receive queues are kept, and of the H sets nothing: at the resumption they are as at a release, their special registers
included (DESIGN CHOICE, entry 90). -/
def State.savedPack (s : State) (r : Nat) (x : Run) : State :=
  let kept := x.clusters.map (s.remember x)
  let flags := s.packFlags r x
  let mine := x.clusters.filter (fun c => (s.cluster c).run == some r)
  let s := (mine.foldl State.leaveCluster s).dropTlb (fun _ => true) mine.contains
  let s := { s with rollbacks := s.rollbacks.filter (fun q => !mine.contains q.cluster), saves := NMap.set s.saves r kept }
  let spent := Rec.packw x.rec_ * Rec.packh x.rec_ * (s.fclk - x.placedAt)
  let s := s.updFn x.vf (fun f => { f with clusterTime := f.clusterTime + spent })
  (s.setRun r { x with phase := .saved, preempts := x.preempts + 1, ranBefore := x.runtime s.fclk, packflags := flags,
                       subst := [] }).dispatchDue x.vf

/-- The save area is written when the pack has come to rest. A run that has reached its firing limit meanwhile stops as
it would have (R17). -/
def execPackSave (r : Nat) (s : State) : Host.Outcome State Fault Refusal :=
  .next (match s.run? r with
    | none => s
    | some x =>
      if x.phase ≠ .draining ∨ s.feWaits r then s
      else if !s.atRest r x then s.postOnce (.packSave r)
      else if x.stop.isSome then (s.setRun r { x with phase := .stopping }).postOnce (.completionSignal r)
      else
        let s := s.parkAll x
        match feStore x.vf r (.packSave r) .save x.refused.head?
            (lineWrites (BitVec.ofNat 64 (Rec.save x.rec_)) (s.saveBytes r x)) s with
        | .wait s => s
        | .fail s cause va => s.endRun r ⟨6, cause, va⟩
        | .done s _ => s.savedPack r x)

/-! ## Resumption (R384) -/

/-- The lowest block of a map that is still OLD. -/
def lowestOld (bs : List Byte) (n : Nat) : Nat := ((upTo n).find? (fun b => mapCode (bs.getD (b / 4) 0) b == 0)).getD n

/-- The relayouts of a record, each with the lowest OLD block of its map. -/
def relaysE (vf r : Nat) : List (List Byte) → EM (List Relayout)
  | [] => pure []
  | b :: bs => do
    let rest ← relaysE vf r bs
    if natIn b 0 104 = 0 then pure rest
    else do
      let q := Relayout.ofRecord r 0 b
      let n := HWord.blocks q.hrec
      let m ← (if q.state = .running then feRead vf .save q.map (ceilDiv n 4) else pure [])
      let k := lowestOld m n
      pure ({ q with block := k, state := if q.state = .running && k == n then .complete else q.state } :: rest)

/-- The relayouts of the clusters' records. -/
def allRelaysE (vf r : Nat) : List (List Byte) → EM (List (List Relayout))
  | [] => pure []
  | c :: cs => do
    let qs ← relaysE vf r ((upTo 16).map (fun i => bytesIn c (0x1200 + 128 * i) 128))
    let rest ← allRelaysE vf r cs
    pure (qs :: rest)

/-- What the front end reads at a resumption: the image again (R328; DEDUCED, entry 88), the save area, the maps of its
relayouts. -/
def resumeE (x : Run) (r : Nat) : EM (List Byte × List (List Relayout)) := do
  imageE x.vf x.image x.entries
  let bs ← feRead x.vf .save (BitVec.ofNat 64 (Rec.save x.rec_)) x.saveSize
  let recs := (upTo x.clusters.length).map (fun c => bytesIn bs (0x100 + c * x.clusterRecord) x.clusterRecord)
  let qs ← (if Rec.isGang x.rec_ then allRelaysE x.vf r recs else pure [])
  pure (bs, qs)

/-- The clause array that a record describes, held by the thread set that now runs RANKH (R160). -/
def clauseIn (x : Run) (saved : ClauseUnit) (bs : List Byte) : ClauseUnit :=
  if natIn bs 4 4 % 2 = 0 then ClauseUnit.reset
  else
    let (rank, arr) := ClauseArray.ofImage bs
    { arr := arr, holder := some (.thread (x.tsOf rank)), claimed := saved.claimed, poisoned := saved.poisoned }

/-- A park slot restored where the rank now runs (R318). -/
def State.restorePark (s : State) (t : TsId) (bs : List Byte) : State :=
  s.updCluster t.cluster (fun u => { u with cbuf := ByteMap.writes u.cbuf (parkSlot t) (bytesIn bs 0x14C0 2048) })

/-- The cores, then the thread sets of a cluster restored from its record; of a REACT pack's sets the replies that wait for `recv`
(R365, R385; DEDUCED, entry 90). -/
def State.restoreSets (s : State) (r : Nat) (x : Run) (c : Nat) (k : SavedCluster) (bs : List Byte) : State :=
  let co := Rec.cores x.rec_
  let coreAt := if Rec.isGang x.rec_ then clusterFront else 0x497100
  let s := (upTo co).foldl (fun s i => s.updCore c (x.coreAt c i) (fun u =>
    u.ofRecord (k.cores.getD i CoreUnit.reset) (bytesIn bs (coreAt + i * coreRecord) coreRecord))) s
  if Rec.isGang x.rec_ then
    ((x.setsAt c).zip (upTo (x.setsAt c).length)).foldl (fun s (q : TsId × Nat) =>
      let rec_ := bytesIn bs (coreAt + co * coreRecord + q.2 * threadRecord) threadRecord
      let rank := (s.thread q.1).rank
      let th := ((k.threads[q.2]?).getD Thread.reset).ofRecord rec_
      (s.setThread q.1 { th with run := some r, rank := rank }).restorePark q.1 rec_) s
  else ((x.setsAt c).zip k.threads).foldl (fun s (q : TsId × Thread) => s.updThread q.1 (fun t => { t with recvq := q.2.recvq })) s

/-- A cluster of a resumed pack. -/
def State.restoreCluster (s : State) (r : Nat) (x : Run) (c : Nat) (k : SavedCluster) (qs : List Relayout) (bs : List Byte) : State :=
  let more := k.cluster.relayouts.filter (fun q => q.state == .complete) ++
    (k.cluster.relayouts.filter (fun q => q.state != .complete)).drop 16
  let clause := if Rec.isGang x.rec_ then clauseIn x k.cluster.clause (bytesIn bs 0x1A00 17792) else ClauseUnit.reset
  let s := s.updCluster c (fun u => u.ofFront k.cluster (qs ++ more) clause (bytesIn bs 0 clusterFront))
  let s := if Rec.isReact x.rec_ then
    s.updKennel c (fun _ => k.cluster.kennel.ofRecord x.rules s.fclk (bytesIn bs clusterFront 0x81100)) else s
  let s := s.restoreSets r x c k bs
  { s with rollbacks := s.rollbacks ++ k.rollbacks.map (fun q => { q with cluster := c }) }

/-- The clusters one by one. -/
def State.restoreAll (s : State) (r : Nat) (x : Run) (bs : List Byte) :
    List (Nat × Nat) → List SavedCluster → List (List Relayout) → State
  | (i, c) :: cs, k :: ks, qs =>
    let rec_ := bytesIn bs (0x100 + i * x.clusterRecord) x.clusterRecord
    (if (s.cluster c).run = some r then s.restoreCluster r x c k (qs.headD []) rec_ else s).restoreAll r x bs cs ks qs.tail
  | _, _, _ => s

/-- What a resumed pack has due. -/
def State.resumeDue (s : State) (r : Nat) (x : Run) : State :=
  x.clusters.foldl (fun s c =>
    let s := if Rec.isReact x.rec_ then s.roundDue c else s
    ((s.cluster c).relayouts.filter (fun q => q.state == .running)).foldl (fun s q => s.postOnce (.relayoutBlock c q.map)) s)
    (s.postOnce (.completionSignal r))

/-- A saved pack that has been placed again resumes. -/
def State.resumeRun (s : State) (r : Nat) (x : Run) (bs : List Byte) (qs : List (List Relayout)) : State :=
  let kept := NMap.get s.saves r []
  let fresh := ((x.clusters.filter (fun c => (s.cluster c).run == some r)).foldl (fun s c => s.freshCluster r x c) s).giveRanks x
  let s := fresh.restoreAll r x bs ((upTo x.clusters.length).zip x.clusters) kept qs
  let y := { x with phase := .running, placedAt := s.fclk, sliceAt := s.fclk, waveAt := s.fclk, wave := none,
                    ranBefore := natIn bs 16 8, packflags := BitVec.ofNat 6 (natIn bs 24 8),
                    firings := if Rec.isReact x.rec_ then natIn bs 32 8 else x.firings }
  ({ s with saves := NMap.erase s.saves r }.setRun r y).resumeDue r y

/-- The resumption of a pack (R384). -/
def execResumePack (r : Nat) (s : State) : Host.Outcome State Fault Refusal :=
  .next (match s.run? r with
    | none => s
    | some x =>
      if x.phase ≠ .saved ∨ x.stop.isSome ∨ s.feWaits r ∨ !s.clusters.any (fun c => c.2.run == some r) then s
      else match feDo x.vf r (.resumePack r) x.refused.head? (resumeE x r) s with
        | .wait s => s
        | .fail s cause va => s.endRun r ⟨6, cause, va⟩
        | .done s (bs, qs) => s.resumeRun r x bs qs)

end Sys2Proof.Machine
end

