-- ==== Sys2Proof/Machine/Contain.lean ====
section
/-! DEFINITION. Containment (R161, R316, R317, R386 to R396): errors, links, the loss of a die and its warm reset. -/
namespace Sys2Proof.Machine

/-! ## Errors (R316, R317, R386 to R388) -/

/-- A buffer row is poisoned. -/
def Cluster.poisonRow (u : Cluster) (b : Buf) (row : Nat) : Cluster :=
  { u with badRows := u.badRows.filter (fun r => !(r.buf == b && r.row == row)) ++ [⟨b, row, BitVec.allOnes 256⟩] }

/-- The buffer rows that a tile entry's descriptor names. -/
def tdBufRows (d : Word) : List Nat :=
  let first := boxAt d 0 0 / 256
  let last := (boxAt d (tdRows d - 1) (tdRowBytes d) - 1) / 256
  if tdRows d = 0 ∨ tdRowBytes d = 0 then [] else (upTo (last + 1 - first)).map (first + ·)

/-- An entry of an engine's TLB is discarded. -/
def Cluster.dropEngineTlb (u : Cluster) (pipe : BitVec 2) (i : Nat) : Cluster :=
  match pipe with
  | 0 => { u with copyTlb := u.copyTlb.eraseIdx i }
  | 1 => { u with fillTlb := u.fillTlb.eraseIdx i }
  | 2 => { u with drainTlb := u.drainTlb.eraseIdx i }
  | _ => { u with relayTlb := u.relayTlb.eraseIdx i }

/-- Data that fail ECC are poisoned; a TLB entry is discarded (R386, R388). The manual does not say how poison in a tile-table
entry, a kennel or a register file meets its consumer: the rows that the entry names are poisoned, the tile's activation and
the thread set trap POISON at their next word (DESIGN CHOICE, entry 96). -/
def State.poisonLoc (s : State) (l : EccLoc) : State :=
  match l with
  | .sector pa => s.poisonSector pa
  | .scratch c k off => s.updCore c k (fun u => { u with poison := NMap.set u.poison (off / 8) 0xFF })
  | .privLine c k line i => s.updCore c k (fun u => { u with priv := u.priv.map (fun p =>
      if p.line = line then { p with bad := p.bad ||| BitVec.ofNat 4 (2 ^ i.toNat) } else p) })
  | .buffer c b row => s.updCluster c (fun u => u.poisonRow (Buf.ofCode b.toNat) row)
  | .tlb c k i => s.updCore c k (fun u => { u with tlb := u.tlb.eraseIdx i })
  | .engineTlb c pipe i => s.updCluster c (fun u => u.dropEngineTlb pipe i)
  | .l2tlb c i => s.updCluster c (fun u => { u with l2tlb := u.l2tlb.eraseIdx i })
  | .constant c w line => s.updCluster c (fun u => { u with badConst := u.badConst.filter (· != (w.toNat, line)) ++ [(w.toNat, line)] })
  | .tileEntry c n =>
    let d := (s.tile c n).desc
    s.updCluster c (fun u => (tdBufRows d).foldl (fun u r => u.poisonRow (tdBuf d) r) u)
  | .kennel c i => s.updKennel c (fun k => { k with bad := k.bad ++ ((k.tiles[i]?).map (·.tile.age)).toList })
  | .registers t => s.updThread t (fun th => { th with ecc := true })

/-- An uncorrectable error. -/
def execUncorrectableError (s : State) : Host.Outcome State Fault Refusal :=
  .next (match s.input with
    | .ecc l => s.poisonLoc l
    | _ => s)

/-- The chain of the leash holder, if it is LIVE, is closed: an error in the block (R316), or the block is lost (R317). -/
def State.dropBlock (s : State) (c : Nat) (err : Bool) : State :=
  let drop (q : Chain) : Chain := if q.state = .live then { q with state := .none, cls := .none, blockErr := err } else q
  match (s.cluster c).array.holder, (s.cluster c).array.orphan with
  | some _, some q => s.updCluster c (fun u => { u with array := { u.array with orphan := some (drop q) } })
  | some t, none => s.updThread t (fun th => { th with chain := drop th.chain })
  | none, _ => s

/-- An uncorrectable error in a buffer row, or in the array's block during a LIVE chain (R316). -/
def execBufferRowPoison (s : State) : Host.Outcome State Fault Refusal :=
  .next (match s.input with
    | .bufferRow c (some (b, row)) => s.updCluster c (fun u => u.poisonRow (Buf.ofCode b.toNat) row)
    | .bufferRow c none => s.dropBlock c true
    | _ => s)

/-- The state of a unit of the inventory, an event of the measurement log (R407, R409). -/
def State.markUnit (s : State) (u : UnitId) (st : Nat) : State :=
  { s with hub := { s.hub.updUnit u (fun x => { x with state := st }) with log := s.hub.log ++ [(5, unitKey u)] } }

/-- An array fails in service (R317): it is fenced, the LIVE block is lost, nobody holds the leash. -/
def execArrayFail (s : State) : Host.Outcome State Fault Refusal :=
  .next (match s.input with
    | .cluster c =>
      ((s.dropBlock c false).updCluster c (fun u =>
        { u with array := { u.array with failed := true, holder := none, holderAct := none, orphan := none } })).markUnit ⟨kindArray, c⟩ 2
    | _ => s)

/-- A single-bit error is corrected and counted (R386, R407). -/
def execCorrectedError (s : State) : Host.Outcome State Fault Refusal :=
  .next (match s.input with
    | .unit u => { s with hub := s.hub.updUnit u (fun x => { x with cerr := x.cerr + 1 }) }
    | _ => s)

/-! ## The loss of a die (R354, R394) -/

/-- The device lines of the bytes of a segment, as an engine's translation finds them. -/
def State.segmentLines (s : State) (e : EngineFor) (kind : FaultKind) (c : CopySide) (g : Segment) : List Nat :=
  ((partPlaces g.parts).flatMap (fun q =>
    match sideByte e kind c q.1 q.2 s with
    | .ok (some va, _) => (((s.physOf e va).filter (· < 2 ^ 39)).map (· / 256)).toList
    | _ => [])).eraseDups

/-- The lines that the engines of a cluster hold exclusive (R225, R349, R354): the destination lines of each copy's next segment,
those of each fill's and drain's, and those of the blocks at MOVING. A die's loss finds its copies, fills and drains in the
middle of a segment (entry 67). -/
def State.exclusive (s : State) (c : Nat) : List Nat :=
  let u := s.cluster c
  let vf := (u.run.map s.vfOfRun).getD 0
  u.copies.flatMap (fun q => s.segmentLines (q.engine vf) .copyWrite (copyDst q.fields q.hrec) q.next) ++
    u.moves.flatMap (fun m => s.segmentLines (m.engine vf) (if m.drain then .drain else .fill) m.side (m.cut (s.tile c m.tile).desc)) ++
    u.relayouts.flatMap (fun q => (q.moving.map MovingBlock.lines).getD [])

/-- The clusters of a die. -/
def dieClusters (d : Nat) : List Nat := (upTo 64).map (dieNode d)

/-- The lines that the clusters of a die hold exclusive and whose homes stand on other dies. -/
def State.exclusiveAway (s : State) (d : Nat) : List Nat :=
  (dieClusters d).flatMap (fun c =>
    let vf := ((s.cluster c).run.map s.vfOfRun).getD 0
    (s.exclusive c).filter (fun l => nodeDie (s.homeNode vf (256 * l)) != d))

/-- Surviving homes mark the lines that the lost die held exclusive (step 2 of R394). -/
def State.poisonExclusive (s : State) (d : Nat) : State :=
  (s.exclusiveAway d).foldl (fun s l => (upTo 4).foldl (fun s k => s.poisonSector (256 * l + 64 * k)) s) s

/-- What a core of a lost die had accepted is lost with it. -/
def State.loseQueues (s : State) (c k : Nat) : State :=
  let u := s.core c k
  let s := u.inq.foldl (fun s m => match m with
    | .atomic q => s.amoLost c k q
    | .request .. => s) s
  let s := u.deposits.foldl (fun s d => s.leaveClass d.sender .ms) s
  s.updCore c k (fun u => { u with inq := [], deposits := [], priv := [], tlb := [] })

/-- A cluster whose die has stopped: its activations and handlers vanish, its thread sets run nothing. -/
def State.wipeCluster (s : State) (c : Nat) : State :=
  let s := (s.acts.filter (fun a => a.2.cluster == c)).foldl (fun s a => (s.freeSetsOf a.1 a.2).dropAct a.1) s
  let s := (upTo 16).foldl (fun s k => s.loseQueues c k) s
  let s := (clusterSets c).foldl (fun s t => s.setThread t { Thread.reset with run := (s.cluster c).run, stint := (s.thread t).stint + 1 }) s
  let late (i : Instr) : Bool := match i with
    | .loadComplete t | .storePerformed t => t.cluster == c
    | _ => false
  let s := { s with inserts := s.inserts.filter (fun i => i.home != c && i.src != c),
                    returns := s.returns.filter (fun r => r.1.cluster != c), pending := s.pending.filter (fun i => !late i) }
  s.updCluster c (fun u => { u with
    copies := [], moves := [], relayouts := [], misses := [], l2tlb := [], copyTlb := [], fillTlb := [], drainTlb := [], relayTlb := []
    clause := ClauseUnit.reset, array := { u.array with holder := none, holderAct := none, orphan := none }
    kennel := { u.kennel with unacked := 0 } })

/-- The runs that occupy clusters that satisfy a condition. -/
def State.runsOn (s : State) (p : Nat → Bool) : List Nat := ((s.clusters.filter (fun c => p c.1)).filterMap (fun c => c.2.run)).eraseDups

/-- The state of a die changed. -/
def State.setDie (s : State) (d : Nat) (f : Die → Die) : State :=
  let dies := s.hub.dies.setIfInBounds d (f ((s.hub.dies[d]?).getD Die.reset))
  { s with hub := { s.hub with dies := dies } }

/-- A boundary whose 64 modules are all retired. Until then the boundary carries what it carried, also when all eight modules
of one pair of facing routers are retired, of which the manual says nothing (DESIGN CHOICE, entry 103). -/
def Hub.boundaryDown (h : Hub) (b : Nat) : Bool := (upTo 64).all (fun i => 2 ≤ h.stateOf ⟨kindModule, 64 * b + i⟩)

def Hub.dieLost (h : Hub) (d : Nat) : Bool := (h.dies[d]?).any (·.lost)

/-- A die that is not lost and whose boundary links have all stopped answering (R394): those of a boundary that is down, and those
to a lost die (DEDUCED, entry 104). -/
def Hub.dieCut (h : Hub) (d : Nat) : Bool :=
  !h.dieLost d && (upTo 4).all (fun b => match boundaries[b]? with
    | some (x, y) => (x != d && y != d) || h.boundaryDown b || h.dieLost (if x = d then y else x)
    | none => true)

/-- A compute die is lost (R394): lines it held are poisoned, its clusters stop, and every run with a cluster there ends. -/
def State.loseOne (s : State) (d : Nat) : State :=
  let s := s.poisonExclusive d
  let runs := s.runsOn (fun c => nodeDie c == d)
  let s := s.setDie d (fun x => { x with lost := true, down := false })
  let s := (dieClusters d).foldl State.wipeCluster s
  runs.foldl (fun s r => s.endRun r ⟨6, causeHomeDown, 0⟩) s

/-- Every die that the state of the boundaries and of the other dies cuts off is lost, one after another. -/
def State.loseCut : Nat → State → State
  | 0, s => s
  | n + 1, s => match (upTo 4).find? s.hub.dieCut with
    | some d => (s.loseOne d).loseCut n
    | none => s

/-- A compute die is lost, and with it those that it cuts off. -/
def State.loseDie (s : State) (d : Nat) : State := State.loseCut 4 (s.loseOne d)

/-- A die stops answering, or its power fails. -/
def execDieLost (s : State) : Host.Outcome State Fault Refusal :=
  .next (match s.input with
    | .die d => s.loseDie d.toNat
    | _ => s)

/-! ## Links (R387, R410) -/

/-- A flit that fails its CRC is sent again in its place: nothing else changes. -/
def execFlitCrcFail (s : State) : Host.Outcome State Fault Refusal := .next s

/-- Eight failures in a row: the link holds its lanes and retrains. -/
def execLinkRetrain (s : State) : Host.Outcome State Fault Refusal :=
  .next (match s.input with
    | .unit u => { s with hub := { s.hub with retraining := s.hub.retraining.filter (· != u) ++ [u] } }
    | _ => s)

/-- Every run ends, and the device reports itself failed (R387, R412). -/
def State.failDevice (s : State) (c : StopCause) : State :=
  let s := { s with hub := { s.hub with failed := true } }
  (s.runs.filter (fun r => r.2.phase != .complete)).foldl (fun s r => s.endRun r.1 c) s

/-- A module is retired; the traffic of its router pair goes on over the pair's others (R387). -/
def State.retireModule (s : State) (u : UnitId) : State := State.loseCut 4 (s.markUnit u 2)

/-- A link that fails to retrain: a module is retired, a port is off, a hub link fails the device; a mesh link inside a
die, which a unit at its node stands for, loses the die. -/
def State.linkFailed (s : State) (u : UnitId) : State :=
  if u.kind = kindModule then s.retireModule u
  else if u.kind = kindPort then s.markUnit u 3
  else if u.kind = kindHubLink then (s.markUnit u 3).failDevice ⟨6, causeHomeDown, 0⟩
  else s.loseDie (nodeDie u.phys)

/-- The retraining of a link ends. -/
def execLinkRetrainDone (s : State) : Host.Outcome State Fault Refusal :=
  .next (match s.input with
    | .retrained u ok =>
      let s := { s with hub := { s.hub with retraining := s.hub.retraining.filter (· != u) } }
      if ok then s else s.linkFailed u
    | _ => s)

/-! ## Warm reset of a die (R395, R396) -/

def Hub.resetDie (h : Hub) : Nat := Word.bits h.diectl 1 0
def Hub.resetStep (h : Hub) : Nat := Word.bits h.diectl 5 3

/-- DIECTL at a step of R396. -/
def State.setStep (s : State) (n : Nat) : State :=
  { s with hub := { s.hub with diectl := field 0 s.hub.resetDie ||| field 2 1 ||| field 3 n } }

/-- The reset ends: DONE, or ERR and the die is lost; the packs held are placed again. -/
def State.endReset (s : State) (ok : Bool) : State :=
  let d := s.hub.resetDie
  let vfs := (s.hub.held.filterMap (fun r => (s.run? r).map (·.vf))).eraseDups
  let s := { s with hub := { s.hub with held := [], diectl := field 0 d ||| field 6 1 ||| field 7 (!ok).toNat } }
  let s := s.setDie d (fun x => { x with lost := !ok, down := false })
  let s := if ok then s else s.loseDie d
  (vfs.foldl (fun s vf => s.dispatchDue vf) s).postOnce .runPlace

/-- Step 1: the packs on the die are pre-empted and held; one that cannot be pre-empted fails the step. -/
def State.resetPreempt (s : State) : State :=
  let d := s.hub.resetDie
  let runs := (s.runsOn (fun c => nodeDie c == d)).filterMap (fun r => (s.run? r).map (fun x => (r, x)))
  if runs.any (fun q => q.2.phase == .running && !q.2.preemptible) then s.endReset false
  else
    let s := runs.foldl (fun s q =>
      let s := { s with hub := { s.hub with held := s.hub.held ++ [q.1] } }
      if q.2.phase == .running then s.postOnce (q.2.preemptStep q.1)
      else if q.2.phase == .placed then (s.unplace q.1).updRun q.1 (fun x => { x with phase := .eligible })
      else if q.2.phase == .saved then s.unplace q.1
      else s) s
    (s.setStep 1).post .diectlGo

/-- Activations and handlers of other packs that hold tentative lines in the die's slices are rolled back (R389, R396). -/
def State.resetRollback (s : State) : State :=
  let d := s.hub.resetDie
  let touches (a : ActKey × Act) : Bool :=
    a.2.ending.isNone && a.2.rolled.isNone && a.2.lines.any (fun l => nodeDie (s.homeNode (s.vfOfRun a.1.run) (l * 256)) == d)
  (s.acts.filter touches).foldl (fun s a =>
    if a.2.handler then s.rollHandler a.2.owner a.1 0 0
    else s.endAct a.1 (fun a => { a with ending := some .abort })) s

/-- Whether a packet from one node to another enters a die: that of its source, of its destination, or the one in the source's row
(R195). -/
def entersDie (d src dst : Nat) : Bool :=
  let a := nodeDie src
  let b := nodeDie dst
  a == d || b == d || b % 2 + 2 * (a / 2) == d

/-- Whether packets are under way on the links of a die: beats, returns of atomics, products, multicast requests that have not
arrived; or an atomic that a core of the die has accepted and not applied (R201, R396). -/
def State.dieTraffic (s : State) (d : Nat) : Bool :=
  s.beats.any (fun b => entersDie d b.home b.cluster) ||
    s.returns.any (fun r => entersDie d r.2.source r.1.cluster) ||
    s.inserts.any (fun i => entersDie d i.src i.home) ||
    s.mcrds.any (fun r => !r.2.arrived && r.2.lines.any (fun l => entersDie d r.2.thread.cluster (s.lineHome r.2 l.1))) ||
    s.cores.any (fun c => nodeDie (c.1 / 16) == d && c.2.inq.any (fun m => m.amo?.isSome))

/-- Steps 2 to 6: no pack is left on the die, its lines are written back, and accesses to it trap HOME_DOWN. What is stored
between step 3 and step 5 is written back when step 5 begins, so that no store is lost (R341). The die's links are drained in
step 2, and again before accesses trap and before the routing changes (R201). -/
def State.resetNext (s : State) : State :=
  let d := s.hub.resetDie
  let home (l : Nat) (vf : Nat) : Bool := nodeDie (s.homeNode vf (l * 256)) == d
  match s.hub.resetStep with
  | 1 =>
    let s := s.resetRollback
    let busy := !(s.runsOn (fun c => nodeDie c == d)).isEmpty || s.acts.any (fun a => a.2.lines.any (fun l => home l (s.vfOfRun a.1.run)))
    (if busy then s else s.setStep 2).post .diectlGo
  | 2 => (if s.dieTraffic d then s else s.setStep 3).post .diectlGo
  | 3 => ((s.writeBackAll (fun l x => home l x.vf)).setStep 4).post .diectlGo
  | 4 =>
    let s := s.resetRollback
    if s.acts.any (fun a => a.2.lines.any (fun l => home l (s.vfOfRun a.1.run))) || s.dieTraffic d then s.post .diectlGo
    else (((s.writeBackAll (fun l x => home l x.vf)).setStep 5).setDie d (fun x => { x with down := true })).post .diectlGo
  | 5 => (if s.dieTraffic d then s else s.setStep 6).post .diectlGo
  | 6 => s.setStep 7
  | _ => s

/-- A step of the warm reset that DIECTL has started. -/
def execDiectlGo (s : State) : Host.Outcome State Fault Refusal :=
  .next (if !Word.bit s.hub.diectl 2 then s
    else if s.hub.resetStep = 0 then s.resetPreempt
    else s.resetNext)

/-- The die's own state after its reset: nothing is cached in it; what its slices held when it was lost is gone. -/
def State.resetUnits (s : State) (d : Nat) : State :=
  let gone (l : Nat × SliceLine) : Bool := nodeDie (s.homeNode l.2.vf (l.1 * 256)) == d
  let s := { s with lines := s.lines.filter (fun l => !gone l) }
  (dieClusters d).foldl (fun s c =>
    let s := (upTo 16).foldl (fun s k => s.updCore c k (fun u => { u with priv := [], tlb := [] })) s
    s.updCluster c (fun u => { u with l2tlb := [], copyTlb := [], fillTlb := [], drainTlb := [], relayTlb := [] })) s

/-- The die has been reset and its links have retrained (step 7 of R396); or the step in progress fails, whichever it is. -/
def execWarmResetComplete (s : State) : Host.Outcome State Fault Refusal :=
  .next (match s.input with
    | .warmReset ok =>
      if !Word.bit s.hub.diectl 2 then s
      else if !ok then s.endReset false
      else if s.hub.resetStep == 7 then (s.resetUnits s.hub.resetDie).endReset true
      else s
    | _ => s)

end Sys2Proof.Machine
end

