-- ==== Sys2Proof/Machine/Float.lean ====
section
/-! DEFINITION. The scalar floating-point instructions (R105 to R112). -/
namespace Sys2Proof.Machine

/-- A floating-point result: written zero-extended, its flags ORed into FPFLAGS (R105, R112). -/
def fpResultM (d : XReg) (r : FRes) : M Unit := do
  setXM d (BitVec.ofNat 64 r.bits)
  flagsM r.flags

/-- A two-operand arithmetic instruction of OP 0x20 (R106). -/
def fpBin (o : FpBin) (f : FFormat → Rm → Bool → FVal → FVal → FRes) (s : State) : Host.Outcome State Fault Refusal :=
  word (do
    let me ← readS State.me
    let a ← xM o.a
    let b ← bM o.b
    let fm := o.fmt.format
    fpResultM o.d (f fm (me.rnd o.rnd) me.ftz (fm.decodeFtz me.ftz a.toNat) (fm.decodeFtz me.ftz b.toNat))) s

def execFadd (o : FpBin) (s : State) : Host.Outcome State Fault Refusal := fpBin o FFormat.add s
/-- A − B is A + (−B). -/
def execFsub (o : FpBin) (s : State) : Host.Outcome State Fault Refusal :=
  fpBin o (fun f rm ftz a b => f.add rm ftz a b.negate) s
def execFmul (o : FpBin) (s : State) : Host.Outcome State Fault Refusal := fpBin o FFormat.mul s
def execFdiv (o : FpBin) (s : State) : Host.Outcome State Fault Refusal := fpBin o FFormat.div s

/-- fmin and fmax (R107). -/
def fpMinMax (o : FpMinMax) (isMax : Bool) (s : State) : Host.Outcome State Fault Refusal :=
  word (do
    let me ← readS State.me
    let a ← xM o.a
    let b ← bM o.b
    fpResultM o.d (o.fmt.format.minMax isMax me.ftz a.toNat b.toNat)) s

def execFmin (o : FpMinMax) (s : State) : Host.Outcome State Fault Refusal := fpMinMax o false s
def execFmax (o : FpMinMax) (s : State) : Host.Outcome State Fault Refusal := fpMinMax o true s

/-- fsqrt (R106). -/
def execFsqrt (d a : XReg) (fmt : FpFmt) (rnd : RndSel) (s : State) : Host.Outcome State Fault Refusal :=
  word (do
    let me ← readS State.me
    let x ← xM a
    fpResultM d (fmt.format.sqrt (me.rnd rnd) me.ftz (fmt.format.decodeFtz me.ftz x.toNat))) s

/-- ffma (R106): one rounding. -/
def execFfma (o : FpFma) (s : State) : Host.Outcome State Fault Refusal :=
  word (do
    let me ← readS State.me
    let a ← xM o.a
    let b ← bM o.b
    let c ← xM o.c
    let fm := o.fmt.format
    fpResultM o.d (fm.fma (me.rnd o.rnd) me.ftz (fm.decodeFtz me.ftz a.toNat) (fm.decodeFtz me.ftz b.toNat)
      (fm.decodeFtz me.ftz c.toNat))) s

/-- fcmp (R108). -/
def execFcmp (d a b : XReg) (fmt : FpFmt) (rel : Rel) (s : State) : Host.Outcome State Fault Refusal :=
  word (do
    let me ← readS State.me
    let x ← xM a
    let y ← xM b
    let fm := fmt.format
    let (r, f) := FVal.rel rel (fm.decodeFtz me.ftz x.toNat) (fm.decodeFtz me.ftz y.toNat)
    setXM d (if r then 1 else 0)
    flagsM f) s

/-- fclass (R109): no flag, no FTZ. -/
def execFclass (d a : XReg) (fmt : FpFmt) (s : State) : Host.Outcome State Fault Refusal :=
  word (do
    let x ← xM a
    setXM d (BitVec.ofNat 64 (fmt.format.classify x.toNat))) s

/-- fcvt (R110): a signed integer result is sign-extended, every other zero-extended. -/
def execFcvt (o : FpCvt) (s : State) : Host.Outcome State Fault Refusal :=
  word (do
    let me ← readS State.me
    let x ← xM o.a
    let r := convert o.dst o.src (me.rnd o.rnd) me.ftz x.toNat
    setXM o.d (extendLoad o.dst.isSigned o.dst.size r.bits)
    flagsM r.flags) s

/-- fmv (R111): bits move, with no flag. -/
def execFmv (d a : XReg) (fmt : FpFmt) (s : State) : Host.Outcome State Fault Refusal :=
  word (do
    let x ← xM a
    setXM d (BitVec.ofNat 64 (Word.bits x (fmt.format.width - 1) 0))) s

end Sys2Proof.Machine
end

