-- ==== Sys2Proof/Machine/Hash.lean ====
section
/-! DEFINITION. SHA-384, which R403 and R409 name: its constants and its padding are those of FIPS 180-4 (PRESUMED, entry 91). -/
namespace Sys2Proof

/-- The 80 round constants. -/
def sha384Rounds : List Word :=
  [
    0x428a2f98d728ae22, 0x7137449123ef65cd, 0xb5c0fbcfec4d3b2f, 0xe9b5dba58189dbbc,
    0x3956c25bf348b538, 0x59f111f1b605d019, 0x923f82a4af194f9b, 0xab1c5ed5da6d8118,
    0xd807aa98a3030242, 0x12835b0145706fbe, 0x243185be4ee4b28c, 0x550c7dc3d5ffb4e2,
    0x72be5d74f27b896f, 0x80deb1fe3b1696b1, 0x9bdc06a725c71235, 0xc19bf174cf692694] ++
  [
    0xe49b69c19ef14ad2, 0xefbe4786384f25e3, 0x0fc19dc68b8cd5b5, 0x240ca1cc77ac9c65,
    0x2de92c6f592b0275, 0x4a7484aa6ea6e483, 0x5cb0a9dcbd41fbd4, 0x76f988da831153b5,
    0x983e5152ee66dfab, 0xa831c66d2db43210, 0xb00327c898fb213f, 0xbf597fc7beef0ee4,
    0xc6e00bf33da88fc2, 0xd5a79147930aa725, 0x06ca6351e003826f, 0x142929670a0e6e70] ++
  [
    0x27b70a8546d22ffc, 0x2e1b21385c26c926, 0x4d2c6dfc5ac42aed, 0x53380d139d95b3df,
    0x650a73548baf63de, 0x766a0abb3c77b2a8, 0x81c2c92e47edaee6, 0x92722c851482353b,
    0xa2bfe8a14cf10364, 0xa81a664bbc423001, 0xc24b8b70d0f89791, 0xc76c51a30654be30,
    0xd192e819d6ef5218, 0xd69906245565a910, 0xf40e35855771202a, 0x106aa07032bbd1b8] ++
  [
    0x19a4c116b8d2d0c8, 0x1e376c085141ab53, 0x2748774cdf8eeb99, 0x34b0bcb5e19b48a8,
    0x391c0cb3c5c95a63, 0x4ed8aa4ae3418acb, 0x5b9cca4f7763e373, 0x682e6ff3d6b2b8a3,
    0x748f82ee5defb2fc, 0x78a5636f43172f60, 0x84c87814a1f0ab72, 0x8cc702081a6439ec,
    0x90befffa23631e28, 0xa4506cebde82bde9, 0xbef9a3f7b2c67915, 0xc67178f2e372532b] ++
  [
    0xca273eceea26619c, 0xd186b8c721c0c207, 0xeada7dd6cde0eb1e, 0xf57d4f7fee6ed178,
    0x06f067aa72176fba, 0x0a637dc5a2c898a6, 0x113f9804bef90dae, 0x1b710b35131c471b,
    0x28db77f523047d84, 0x32caab7b40c72493, 0x3c9ebe0a15c9bebc, 0x431d67c49c100d4c,
    0x4cc5d4becb3e42b6, 0x597f299cfc657e2a, 0x5fcb6fab3ad6faec, 0x6c44198c4a475817]

/-- The eight words that the rounds work on. -/
structure Sha384 where
  a : Word
  b : Word
  c : Word
  d : Word
  e : Word
  f : Word
  g : Word
  h : Word
  deriving DecidableEq, Repr

/-- The initial hash value. -/
def Sha384.init : Sha384 :=
  ⟨0xcbbb9d5dc1059ed8, 0x629a292a367cd507, 0x9159015a3070dd17, 0x152fecd8f70e5939,
   0x67332667ffc00b31, 0x8eb44a8768581511, 0xdb0c2e0d64f98fa7, 0x47b5481dbefa4fa4⟩

def Sha384.add (x y : Sha384) : Sha384 :=
  ⟨x.a + y.a, x.b + y.b, x.c + y.c, x.d + y.d, x.e + y.e, x.f + y.f, x.g + y.g, x.h + y.h⟩

def Sha384.words (x : Sha384) : List Word := [x.a, x.b, x.c, x.d, x.e, x.f]

/-- One round with its constant and its message word. -/
def Sha384.round (x : Sha384) (k w : Word) : Sha384 :=
  let t1 := x.h + (x.e.rotateRight 14 ^^^ x.e.rotateRight 18 ^^^ x.e.rotateRight 41) + ((x.e &&& x.f) ^^^ (~~~x.e &&& x.g)) + k + w
  let t2 := (x.a.rotateRight 28 ^^^ x.a.rotateRight 34 ^^^ x.a.rotateRight 39) + ((x.a &&& x.b) ^^^ (x.a &&& x.c) ^^^ (x.b &&& x.c))
  ⟨t1 + t2, x.a, x.b, x.c, x.d + t1, x.e, x.f, x.g⟩

/-- The message word that follows sixteen. -/
def sha384Next (ws : List Word) : Word :=
  let w (i : Nat) : Word := ws.getD i 0
  let s0 := (w 1).rotateRight 1 ^^^ (w 1).rotateRight 8 ^^^ (w 1) >>> 7
  let s1 := (w 14).rotateRight 19 ^^^ (w 14).rotateRight 61 ^^^ (w 14) >>> 6
  s1 + w 9 + s0 + w 0

/-- The rounds over the message words of a block, sixteen of which are held. -/
def sha384Run : List Word → List Word → Sha384 → Sha384
  | [], _, x => x
  | k :: ks, ws, x => sha384Run ks (ws.drop 1 ++ [sha384Next ws]) (x.round k (ws.getD 0 0))

/-- A number from bytes, the most significant first. -/
def beNat (bs : List Byte) : Nat := leNat bs.reverse

/-- The bytes of a number, the most significant first. -/
def beBytes (n v : Nat) : List Byte := (leBytes n v).reverse

/-- A message with its padding: a one bit, zeros, and its length in bits. -/
def sha384Padded (bs : List Byte) : List Byte :=
  bs ++ 0x80 :: List.replicate ((239 - bs.length % 128) % 128) 0 ++ beBytes 16 (8 * bs.length)

/-- The blocks of 128 bytes one after another. -/
def sha384Blocks : Nat → List Byte → Sha384 → Sha384
  | 0, _, x => x
  | n + 1, bs, x =>
    let ws := (upTo 16).map (fun i => BitVec.ofNat 64 (beNat ((bs.drop (8 * i)).take 8)))
    sha384Blocks n (bs.drop 128) (x.add (sha384Run sha384Rounds ws x))

/-- The SHA-384 of a byte string: 48 bytes. -/
def sha384 (bs : List Byte) : List Byte :=
  let m := sha384Padded bs
  (sha384Blocks (m.length / 128) m Sha384.init).words.flatMap (fun w => beBytes 8 w.toNat)

end Sys2Proof
end

