-- ==== Sys2Proof/Machine/Ecdsa.lean ====
section
/-! DEFINITION. ECDSA over brainpoolP384r1 with SHA-384 (R403): the check of a signature. The curve is that of RFC 5639
(PRESUMED, entry 91). -/
namespace Sys2Proof

/-! ## The curve -/

def bpP : Nat := 0x8CB91E82A3386D280F5D6F7E50E641DF152F7109ED5456B412B1DA197FB71123ACD3A729901D1A71874700133107EC53
def bpA : Nat := 0x7BC382C63D8C150C3C72080ACE05AFA0C2BEA28E4FB22787139165EFBA91F90F8AA5814A503AD4EB04A8C7DD22CE2826
def bpB : Nat := 0x04A8C7DD22CE28268B39B55416F0447C2FB77DE107DCD2A62E880EA53EEB62D57CB4390295DBC9943AB78696FA504C11
/-- The order of its base point. -/
def bpN : Nat := 0x8CB91E82A3386D280F5D6F7E50E641DF152F7109ED5456B31F166E6CAC0425A7CF3AB6AF6B7FC3103B883202E9046565

/-- A point (x / z², y / z³); z = 0 at infinity. -/
structure CurvePoint where
  x : Nat
  y : Nat
  z : Nat
  deriving DecidableEq, Repr

def CurvePoint.infinity : CurvePoint := ⟨1, 1, 0⟩
def CurvePoint.base : CurvePoint :=
  ⟨0x1D1C64F068CF45FFA2A63A81B7C13F6B8847A3E77EF14FE3DB7FCAFE0CBD10E8E826E03436D646AAEF87B2E247D4AF1E,
   0x8ABE1D7520F9C2A45CB1EB8E95CFD55262B70B29FEEC5864E19C054FF99129280E4646217791811142820341263C5315, 1⟩

/-- a − b of the field. -/
def bpSub (a b : Nat) : Nat := (a + bpP - b) % bpP

/-- A point of the curve that is not infinity, by its coordinates. -/
def onCurve (x y : Nat) : Bool := x < bpP && y < bpP && y * y % bpP == (x * x % bpP * x + bpA * x + bpB) % bpP

def CurvePoint.double (p : CurvePoint) : CurvePoint :=
  let yy := p.y * p.y % bpP
  let zz := p.z * p.z % bpP
  let s := 4 * p.x * yy % bpP
  let m := (3 * p.x * p.x + bpA * (zz * zz % bpP)) % bpP
  let x := bpSub (m * m % bpP) (2 * s % bpP)
  ⟨x, bpSub (m * bpSub s x % bpP) (8 * (yy * yy % bpP) % bpP), 2 * p.y * p.z % bpP⟩

def CurvePoint.add (p q : CurvePoint) : CurvePoint :=
  if p.z = 0 then q
  else if q.z = 0 then p
  else
    let zp := p.z * p.z % bpP
    let zq := q.z * q.z % bpP
    let u := p.x * zq % bpP
    let v := p.y * q.z % bpP * zq % bpP
    let h := bpSub (q.x * zp % bpP) u
    let r := bpSub (q.y * p.z % bpP * zp % bpP) v
    if h = 0 then if r = 0 then p.double else CurvePoint.infinity
    else
      let hh := h * h % bpP
      let hhh := h * hh % bpP
      let w := u * hh % bpP
      let x := bpSub (bpSub (r * r % bpP) hhh) (2 * w % bpP)
      ⟨x, bpSub (r * bpSub w x % bpP) (v * hhh % bpP), p.z * q.z % bpP * h % bpP⟩

/-- The low n bits of a number, the most significant first. -/
def topBits (n k : Nat) : List Bool := (upTo n).map (fun i => k.testBit (n - 1 - i))

/-- j times one point and k times another, added to a point that is doubled for each bit. -/
def CurvePoint.combine (p q both : CurvePoint) : List (Bool × Bool) → CurvePoint → CurvePoint
  | [], acc => acc
  | b :: bs, acc =>
    let t := acc.double
    if t.z = 0 ∧ b = (false, false) then CurvePoint.combine p q both bs CurvePoint.infinity
    else match b with
      | (false, false) => CurvePoint.combine p q both bs t
      | (true, false) => CurvePoint.combine p q both bs (t.add p)
      | (false, true) => CurvePoint.combine p q both bs (t.add q)
      | (true, true) => CurvePoint.combine p q both bs (t.add both)

/-- b times the power of a number modulo n that the bits give. -/
def powMod (n b : Nat) : List Bool → Nat → Nat
  | [], acc => acc
  | x :: xs, acc =>
    let t := acc * acc % n
    let t := if x then t * b % n else t
    if t = 0 then 0 else powMod n b xs t

/-- The inverse modulo the order, which is prime. -/
def bpInv (a : Nat) : Nat := powMod bpN a (topBits 384 (bpN - 2)) 1

/-- Whether (r, s) is a signature of a digest under a public key. -/
def ecdsaVerifies (x y : Nat) (digest : List Byte) (r s : Nat) : Bool :=
  onCurve x y && decide (0 < r) && decide (r < bpN) && decide (0 < s) && decide (s < bpN) &&
    let w := bpInv s
    let q : CurvePoint := ⟨x, y, 1⟩
    let bits := (topBits 384 (beNat digest * w % bpN)).zip (topBits 384 (r * w % bpN))
    let p := CurvePoint.combine CurvePoint.base q (CurvePoint.base.add q) bits CurvePoint.infinity
    p.z != 0 && (r * (p.z * p.z % bpP) % bpP == p.x || (decide (r + bpN < bpP) && (r + bpN) * (p.z * p.z % bpP) % bpP == p.x))

end Sys2Proof
end

