-- ==== Sys2Proof/Machine/Hub.lean ====
section
/-! DEFINITION. The hub (R332, R341, R352, R397 to R412): images, start-up, restarts and trial boots, the inventory and its
measurements, temperature, and the accesses of the host and of peers. -/
namespace Sys2Proof.Machine

/-! ## Images (R403) -/

/-- Bits [hi:lo] of an image's header, below SIG. -/
def Image.fld (i : Image) (hi lo : Nat) : Nat := natBits (leNat i.head) hi lo
def Image.svn (i : Image) : Nat := i.fld 95 64
def Image.entry (i : Image) : Nat := i.fld 191 128
def Image.body (i : Image) : List Byte := i.rest.take (i.fld 127 96)

/-- An image written into a slot. -/
def Image.ofBytes (bs : List Byte) : Image :=
  { head := padTo 160 bs, sig := leNat ((bs.drop 160).take 96), rest := bs.drop 256 }

def Image.bytes (i : Image) : List Byte := padTo 160 i.head ++ leBytes 96 i.sig ++ i.rest

/-- The bytes that an image's signature covers: its header with SIG zero, and its body. -/
def Image.signed (i : Image) : List Byte := i.head ++ List.replicate 96 0 ++ i.body

/-- The signature verifies under the key whose digest is fused (R403): r and s are the low and the high half of SIG, and the digest
is over the key's coordinates, x then y, the most significant byte first (DESIGN CHOICE, entry 91). -/
def NvStore.verifies (v : NvStore) (i : Image) : Bool :=
  beNat (sha384 (beBytes 48 v.key.1 ++ beBytes 48 v.key.2)) == v.keyDigest &&
    ecdsaVerifies v.key.1 v.key.2 (sha384 i.signed) (i.sig % 2 ^ 384) (i.sig / 2 ^ 384)

/-- TARGET: 0 the root core, 1 the firmware cores. -/
def targetOf (n : Nat) : Nat := if n = 0 then 0 else 1

/-- An image that the security engine does not refuse. -/
def NvStore.acceptable (v : NvStore) (target : Nat) (i : Image) : Bool :=
  i.fld 31 0 == 0x57465A4D && i.fld 39 32 == target && i.fld 47 40 == 1 && v.verifies i && (v.minSvn[target]?).getD 0 ≤ i.svn

def NvStore.committedSlot (v : NvStore) (target : Nat) : Nat := if target = 0 then v.committedRoot else v.committedFw

/-- The other slot of a target: slots 0 and 1, or 2 and 3. -/
def otherSlot (slot : Nat) : Nat := if slot % 2 = 0 then slot + 1 else slot - 1

/-- A slot that may boot (R403, R404). -/
def NvStore.bootable (v : NvStore) (target slot : Nat) : Bool :=
  !v.rejected.contains slot && ((NMap.find? v.images slot).any (v.acceptable target))

/-! ## Starting a core (R402 to R404) -/

/-- A queue control block that an interrupted update left odd takes its shadow's place (R402). -/
def State.repairQcb (s : State) (n q : Nat) : State :=
  if Qcb.gen (s.qcbAt n q) % 2 = 1 then s.sramWrites n (sramQcbs + 64 * q) (s.sramReads n (sramShadow + 64 * q) 64) else s

/-- The slot from which a core starts that is to start from a slot: the other one when the security engine refuses its image or
it is rejected; none when both are (R403, R404; entry 97). -/
def NvStore.startSlot (v : NvStore) (target slot : Nat) : Option Nat := [slot, otherSlot slot].find? (v.bootable target)

/-- A slot whose image is committed, and not written since: it does not boot on trial (R404). -/
def NvStore.settled (v : NvStore) (target slot : Nat) : Bool := slot == v.committedSlot target && !v.fresh.contains slot

/-- A firmware core starts from a slot, or from the other: its SRAM below 0xF_0000 is cleared and takes the image's body; the
top 64 KiB are kept. A core without an image, or whose image has no body, has nothing to run. ENTRY becomes the PC as it is: an
image whose ENTRY is no multiple of 8 is not refused, and its first fetch traps MISALIGN (DESIGN CHOICE, entry 110). -/
def State.bootCore (s : State) (n slot : Nat) : State :=
  let v := s.hub.nv
  let image := (v.startSlot (targetOf n) slot).bind (NMap.find? v.images)
  let slot := (v.startSlot (targetOf n) slot).getD slot
  let body := (image.map Image.body).getD []
  let entry := (image.map Image.entry).getD 0
  let s := s.updFn n (fun f =>
    { f with sram := ByteMap.writes (f.sram.filter (fun c => 0xF0000 ≤ c.1)) 0 (body.take 0xF0000), slot := slot, committed := false,
             trial := !v.settled (targetOf n) slot, trialSince := none, kickAt := s.fclk })
  let s := (upTo 64).foldl (fun s q => s.repairQcb n q) s
  s.setThread (TsId.firmware n) { Thread.firmware with pc := BitVec.ofNat 64 entry, ltime := s.wmax,
                                                       status := if body.isEmpty then .halted else .ready }

/-- The root core and the firmware cores. -/
def firmwareCores : List Nat := upTo 17

/-! ## Start-up (R317, R405, R406, R408) -/

/-- The steps that have an alternative. -/
def hasAlternative (n : Nat) : Bool := !([2, 4, 10, 13] : List Nat).contains n

def BootEntry.zero : BootEntry := ⟨0, 0, 0, false⟩

/-- Whether a step runs its alternative at this start-up. -/
def NvStore.useAlt (v : NvStore) (n : Nat) : Bool :=
  let e := NMap.get v.boot n BootEntry.zero
  hasAlternative n && (e.alt || 2 ≤ e.fails)

/-- The slot from which a step starts a target's cores. -/
def NvStore.bootSlot (v : NvStore) (target n : Nat) : Nat :=
  if v.useAlt n then otherSlot (v.committedSlot target) else v.committedSlot target

/-- Whether a step passes: the inputs name those that fail; an image must be bootable. -/
def NvStore.passes (v : NvStore) (fails : List Nat) (n : Nat) : Bool :=
  !fails.contains n && (n != 1 || v.bootable 0 (v.bootSlot 0 1)) && (n != 11 || v.bootable 1 (v.bootSlot 1 11))

/-- The boot record after a step. -/
def NvStore.record (v : NvStore) (fails : List Nat) (n : Nat) : NvStore :=
  let e := NMap.get v.boot n BootEntry.zero
  let alt := v.useAlt n
  let ok := v.passes fails n
  { v with boot := NMap.set v.boot n { attempts := (e.attempts + 1) % 256, outcome := if !ok then 1 else if alt then 2 else 0,
                                       fails := if ok then 0 else (e.fails + 1) % 256, alt := alt } }

/-- The steps in order, up to the first that fails; with the store, and whether all passed. -/
def bootSteps (fails : List Nat) : List Nat → NvStore → NvStore × Bool
  | [], v => (v, true)
  | n :: ns, v => if v.passes fails n then bootSteps fails ns (v.record fails n) else (v.record fails n, false)

def startSteps : List Nat := [1, 2, 3, 4, 5, 6, 7, 8, 9, 10, 11, 12, 13]

/-- A 2 MiB unit of device memory that step 7 has tested, by its number; the inventory has no KIND for it (entry 93). -/
def kindMemory : Nat := 8

/-- A unit is live and degraded (STATE 1 of R407). -/
def State.degrade (s : State) (u : UnitId) : State :=
  { s with hub := s.hub.updUnit u (fun x => { x with state := max x.state 1 }) }

/-- The units that the alternatives of steps 3 and 6 leave degraded: the hub links at half rate, the stacks at 10 Gb/s
(entry 93). -/
def NvStore.slowUnits (v : NvStore) : List UnitId :=
  (if v.useAlt 3 then (upTo 2).map (fun n => ⟨kindHubLink, n⟩) else []) ++
    (if v.useAlt 6 then (upTo 8).map (fun n => ⟨kindStack, n⟩) else [])

/-- What the alternatives of steps 5, 7, 8 and 9 do with the units that fail their tests; a stack with a unit withheld is
degraded. -/
def State.withholdUnit (s : State) (v : NvStore) (u : UnitId) : State :=
  if u.kind = kindMemory then
    (if v.useAlt 7 then { s with hub := { s.hub with withheld := s.hub.withheld.filter (· != u.phys) ++ [u.phys] } }.degrade
      ⟨kindStack, stackOf (u.phys * 2 ^ 21)⟩ else s)
  else if u.kind = kindModule then (if v.useAlt 5 then { s with hub := s.hub.updUnit u (fun x => { x with state := 2 }) } else s)
  else if u.kind = kindArray then
    (if v.useAlt 8 then { s with hub := s.hub.updUnit u (fun x => { x with state := 3 }) }.updCluster u.phys (fun c =>
      { c with array := { c.array with failed := true } }) else s)
  else if (u.kind = kindCluster ∧ v.useAlt 8) ∨ (u.kind = kindSlice ∧ v.useAlt 9) then
    { s with hub := { s.hub with nv := { s.hub.nv with disabled := s.hub.nv.disabled.filter (· != u) ++ [u] } } }
  else s

/-- The device is up: features are offered, ACCEPT and ACTIVE are zero, masks, bucket maps and windows at their defaults,
fenced cores restored; the root core and the firmware cores start. -/
def State.bringUp (s : State) (old v : NvStore) (units : List UnitId) : State :=
  let root := old.bootSlot 0 1
  let fw := old.bootSlot 1 11
  let h := { Hub.reset with nv := v, started := true, degraded := startSteps.any old.useAlt }
  let h := { h with hostOut := s.hub.hostOut, hostMem := s.hub.hostMem, peerMem := s.hub.peerMem }
  let s := { s with hub := h }
  let s := units.foldl (fun s u => s.withholdUnit old u) (old.slowUnits.foldl State.degrade s)
  firmwareCores.foldl (fun s n => s.bootCore n (if n = 0 then root else fw)) s

/-- Start-up (R405): a step that fails leaves the device failed. -/
def execStartUp (s : State) : Host.Outcome State Fault Refusal :=
  .next (
    let (fails, units) := match s.input with
      | .tests f u => (f, u)
      | _ => ([], [])
    if s.hub.started then s
    else
      let (v, ok) := bootSteps fails startSteps s.hub.nv
      if ok then s.bringUp s.hub.nv v units
      else { s with hub := { s.hub with nv := v, failed := true } })

/-- Board power is removed: all state but the nonvolatile store is lost; start-up follows when it returns. What stands in
the host and in peers is theirs. -/
def execBoardPowerRemoved (s : State) : Host.Outcome State Fault Refusal :=
  .next (
    let h := { Hub.reset with nv := s.hub.nv, hostOut := s.hub.hostOut, hostMem := s.hub.hostMem, peerMem := s.hub.peerMem }
    { State.reset with hub := h, agenda := s.agenda, freeIdx := s.freeIdx })

/-! ## Commit, watchdog, trial boot (R402 to R404) -/

/-- The running trial image of a core is committed: the fused minimum rises to its SVN; its KICK deadline runs from now, since the
watchdog watches committed images (R402). -/
def execFwcommitCommit (n : Nat) (s : State) : Host.Outcome State Fault Refusal :=
  .next (
    let f := s.fn n
    if !f.trial then s
    else
      let t := targetOf n
      let v := { s.hub.nv with fresh := s.hub.nv.fresh.filter (· != f.slot) }
      let svn := ((NMap.find? v.images f.slot).map Image.svn).getD 0
      let v := { v with minSvn := v.minSvn.setIfInBounds t (max ((v.minSvn[t]?).getD 0) svn) }
      let v := if t = 0 then { v with committedRoot := f.slot } else { v with committedFw := f.slot }
      let s := { s with hub := { s.hub with nv := v, log := s.hub.log ++ [(t + 1, f.slot)] } }
      (s.updFn n (fun f => { f with committed := true, trial := false, trialSince := none, kickAt := s.fclk })).postOnce .runPlace)

/-- The running watchdog of a core is restarted. -/
def execFwcommitKick (n : Nat) (s : State) : Host.Outcome State Fault Refusal :=
  .next (s.updFn n (fun f => { f with kickAt := s.fclk }))

/-- A core that has missed its deadline: one whose image is committed (R402). -/
def State.watchdogDue (s : State) (n : Nat) : Bool :=
  s.hub.started && !s.hub.failed && !(s.fn n).trial && (s.fn n).kickAt + 900000000 < s.fclk

/-- The watchdog: the first core that is due is restarted from its committed slot. -/
def execWatchdogExpiry (s : State) : Host.Outcome State Fault Refusal :=
  .next (match firmwareCores.find? s.watchdogDue with
    | some n => s.bootCore n (s.hub.nv.committedSlot (targetOf n))
    | none => s)

/-- A core whose trial image has not committed in time (R404); a commit on its way was in time. -/
def State.trialDue (s : State) (n : Nat) : Bool := (s.fn n).trialOver s.fclk && !s.pending.contains (.fwcommitCommit n)

/-- The trial boot of the first core that is due is reverted: its slot is rejected, and it starts from the other. -/
def execTrialBootExpiry (s : State) : Host.Outcome State Fault Refusal :=
  .next (match firmwareCores.find? s.trialDue with
    | some n =>
      let slot := (s.fn n).slot
      let v := s.hub.nv
      let v := { v with rejected := v.rejected.filter (· != slot) ++ [slot] }
      let s := { s with hub := { s.hub with nv := v, log := s.hub.log ++ [(targetOf n + 1, slot)] } }
      (s.bootCore n (otherSlot slot)).postOnce .runPlace
    | none => s)

/-! ## Images written and updates (R404) -/

/-- An image is written into a slot, which is rejected no longer. -/
def State.slotWrite (s : State) (slot : Nat) (bs : List Byte) : State :=
  let v := s.hub.nv
  if 4 ≤ slot then s
  else { s with hub := { s.hub with nv := { v with images := NMap.set v.images slot (Image.ofBytes bs),
                                                   rejected := v.rejected.filter (· != slot),
                                                   fresh := v.fresh.filter (· != slot) ++ [slot] } } }

/-- A core is updated: it starts from the slot that is committed, if it runs another, or else from its other slot; firmware
cores on trial one at a time. An image that may not boot changes nothing (entry 97). -/
def State.updateCore (s : State) (n : Nat) : State :=
  let v := s.hub.nv
  let now := (s.fn n).slot
  let own := v.committedSlot (targetOf n)
  let slot := if now = own then otherSlot own else own
  if 16 < n ∨ !s.hub.started ∨ s.hub.failed ∨ !v.bootable (targetOf n) slot ∨
      (firmwareCores.filter (fun k => targetOf k == targetOf n)).any (fun k => (s.fn k).trial) then s
  else s.bootCore n slot

/-! ## Features (R406) -/

/-- The driver's write of an ACCEPT register. -/
def execAcceptWrite (s : State) : Host.Outcome State Fault Refusal :=
  .next (match s.input with
    | .accept n w => if s.hub.started then s.acceptWrite n w else s
    | _ => s)

/-! ## The activity forecast (R332) -/

/-- The root core's forecast: its algorithm is not given, so the power and the clusters are free values (assumption 1);
the horizon is 40. -/
def execAfrUpdate (s : State) : Host.Outcome State Fault Refusal :=
  .next (
    let w := Config.freeWord s.freeIdx
    let live := (s.hub.onNodes kindCluster).length
    let afr := field 0 (Word.bits w 11 0) ||| field 12 (Word.bits w 23 12) ||| field 24 40 |||
      field 32 (Word.bits w 40 32 % (live + 1))
    { s with freeIdx := s.freeIdx + 1, hub := { s.hub with afr := afr } })

/-! ## Temperature (R412) -/

/-- A die's hottest sensor. -/
def State.setTemp (s : State) (d : BitVec 2) (t : Byte) : State := s.setDie d.toNat (fun x => { x with temp := t })

/-- A sensor at 110 °C: every run ends, every compute die stops, the device is failed. -/
def State.trip (s : State) : State :=
  let s := { s with hub := { s.hub with tripped := true } }
  let s := (s.runsOn (fun _ => true)).foldl (fun s r =>
    (((s.run? r).map Run.clusters).getD []).foldl (fun s c => if (s.cluster c).run = some r then s.wipeCluster c else s) s) s
  s.failDevice ⟨6, 0, 1⟩

/-- A die's hottest sensor reads a temperature: from 100 °C on the die is throttled, until it falls below 95 °C; at 110 °C
the device trips. -/
def State.sensed (s : State) (d : BitVec 2) (t : Byte) : State :=
  let s := s.setTemp d t
  let s := if 100 ≤ t.toNat then s.setDie d.toNat (fun x => { x with throttled := true })
    else if t.toNat < 95 then s.setDie d.toNat (fun x => { x with throttled := false }) else s
  if 110 ≤ t.toNat then s.trip else s

/-- A die reaches 100 °C: it is throttled, which changes timing only. -/
def execThrottle (s : State) : Host.Outcome State Fault Refusal :=
  .next (match s.input with
    | .temp d t => s.sensed d t
    | _ => s)

/-- A throttled die falls below 95 °C. -/
def execThrottleClear (s : State) : Host.Outcome State Fault Refusal :=
  .next (match s.input with
    | .temp d t => s.sensed d t
    | _ => s)

/-- A sensor reaches 110 °C. -/
def execThermalTrip (s : State) : Host.Outcome State Fault Refusal :=
  .next (match s.input with
    | .temp d t => s.sensed d t
    | _ => s)

/-! ## The host and peers (R341, R352, R397, R398, R410) -/

/-- What the outside receives: words. -/
def State.answer (s : State) (ws : List Word) : State := { s with hub := { s.hub with hostOut := s.hub.hostOut ++ ws } }

/-- The words of a byte string. -/
def wordsOf (bs : List Byte) : List Word := (upTo (ceilDiv bs.length 8)).map (fun i => BitVec.ofNat 64 (leNat ((bs.drop (8 * i)).take 8)))

/-- Words that the manual does not give, as an answer. -/
def State.answerFree (s : State) (n : Nat) : State :=
  { s with freeIdx := s.freeIdx + n }.answer ((upTo n).map (fun i => Config.freeWord (s.freeIdx + i)))

/-- A read that the outside makes at a device home; none while it waits for a way. What a read of a poisoned or unreachable
line answers is not given (assumption 1). -/
def State.outsideRead (s : State) (pa len : Nat) : Option State :=
  match s.physRead 0 pa len with
  | .error _ => some (s.answerFree (ceilDiv len 8))
  | .ok bs => (s.pullPlace .dram 0 pa len false).map (fun s => s.answer (wordsOf bs))

/-- A store that the outside makes at a device home; none while it waits for a way. -/
def State.outsideWrite (s : State) (pa : Nat) (bs : List Byte) : Option State :=
  match s.physWrite 0 pa bs with
  | .ok r => r
  | .error _ => some s

/-- An access that the outside makes to bytes of one line at their device home, as one event (R341). It waits for a way, and
while an engine holds the line (R349). -/
def State.outsideAccess (s : State) (again : Instr) (pa len : Nat) (write : Option (List Byte)) : State :=
  let n := (write.map List.length).getD len
  if 2 ^ 39 ≤ pa ∨ n = 0 ∨ 256 < pa % 256 + n then s
  else
    let r := match write with
      | none => s.outsideRead pa len
      | some bs => s.outsideWrite pa bs
    match (if s.lineHeld (pa / 256) then none else r) with
    | some s => s
    | none => { s with agenda := s.agenda ++ [.event again s.input] }

/-- An access of the host through CXL.mem (R397). -/
def execHostCxlMemAccess (s : State) : Host.Outcome State Fault Refusal :=
  .next (match s.input with
    | .cxlMem pa len w => if s.hub.failed || !s.hub.started then s else s.outsideAccess .hostCxlMemAccess pa len w
    | _ => s)

/-- A load or store of a Foette peer (R341, R410). -/
def execFoettePeerAccess (s : State) : Host.Outcome State Fault Refusal :=
  .next (match s.input with
    | .peer port pa len w =>
      if s.hub.failed || !s.hub.feature 4 || 12 ≤ port || 2 ≤ s.hub.stateOf ⟨kindPort, port⟩ then s
      else s.outsideAccess .foettePeerAccess pa len w
    | _ => s)

/-- A host store to host memory, with the snoop that invalidates the device's copies of its line (R352). -/
def execHostSnoop (s : State) : Host.Outcome State Fault Refusal :=
  .next (match s.input with
    | .snoop a len v =>
      let n := min len 8
      let s := s.dropPrivs (fun line => (line * 256) / 2 ^ 51 % 2 == 1 && hostAddr (line * 256) < a + n && a < hostAddr (line * 256) + 256)
      let s := { s with hub := { s.hub with hostMem := ByteMap.writes s.hub.hostMem a (leBytes n v.toNat) } }
      (if n = 0 then [] else rangeLines (2 ^ 51 + a, n)).foldl State.stamp s
    | _ => s)

/-! ## Attestation (R409) -/

/-- An entry of the boot record (R405). -/
def BootEntry.bytes (e : BootEntry) : List Byte :=
  leBytes 16 (e.attempts + 2 ^ 8 * e.outcome + 2 ^ 16 * e.fails + 2 ^ 24 * e.alt.toNat)

/-- What a measurement block digests. -/
def State.measured (s : State) (index : Nat) : List Byte :=
  let v := s.hub.nv
  let image (n : Nat) : List Byte := ((NMap.find? v.images (s.fn n).slot).map (·.bytes)).getD []
  match index with
  | 1 => image 0
  | 2 => image 1
  | 3 => (v.fused ++ [(⟨0xFFFF, 0⟩ : UnitId)] ++ v.disabled).flatMap (fun u => leBytes 8 (unitKey u))
  | 4 => startSteps.flatMap (fun n => (NMap.get v.boot n BootEntry.zero).bytes) ++ v.rejected.flatMap (leBytes 8)
  | _ => s.hub.inventory false

/-- The device answers a request for a measurement block: its SHA-384 and a signature over it. -/
def execSpdmRequest (s : State) : Host.Outcome State Fault Refusal :=
  .next (match s.input with
    | .spdm i =>
      if i = 0 ∨ 5 < i ∨ !s.hub.started then s
      else
        let d := sha384 (s.measured i)
        s.answer (wordsOf d ++ wordsOf (Config.sign d))
    | _ => s)

/-! ## What no row of the opcode table names -/

/-- An act of the host, or of the board's management controller (R397, R399, R404, R409, R411). The control regions of
functions that are not presented are not there; a device that is not up takes no write. The measurement log is answered as
pairs: the block that changed, and the slot or unit. -/
def State.runOutside (s : State) (o : Outside) : State :=
  match o with
  | .regionRead vf off n =>
    if s.presented vf ∧ off + n ≤ regionSize vf then
      let (t, bs) := s.regionRead vf off n
      t.answer (wordsOf bs)
    else s
  | .regionWrite vf off bs =>
    if s.presented vf ∧ off + bs.length ≤ regionSize vf ∧ s.hub.started ∧ !s.hub.failed then s.regionWrite vf off bs else s
  | .slotWrite slot bs => s.slotWrite slot bs
  | .update n => s.updateCore n
  | .smbusRead device register => if device = 0x4A ∧ register = 0x10 then s.answer [s.hub.afr] else s
  | .measurementLog =>
    if s.hub.started then s.answer (s.hub.log.flatMap (fun e => [BitVec.ofNat 64 e.1, BitVec.ofNat 64 e.2])) else s

end Sys2Proof.Machine
end

