-- ==== Sys2Proof/Machine/Matrix.lean ====
section
/-! DEFINITION. The matrix instructions (R263 to R267, R305 to R317): the leash, `mrow`, `mzero`, `mmat`, `mmam` and
`mdrain`. -/
namespace Sys2Proof.Machine

/-! ## The checks of R312 -/

/-- The contexts that accept matrix forms (R263). -/
def State.matrixContext (s : State) : Bool := s.isGang || (s.isBody && s.myAct?.any (fun a => a.rule.usesMat))

/-- Checks 1 and 2. -/
def arrayM : M Unit := do
  let s ← readS id
  privUnless s.matrixContext
  trapIf (s.arrayDown s.cur.cluster) causeNoArray 0

/-- Whether the leash is free with nobody waiting for it. -/
def State.leashFree (s : State) : Bool :=
  s.myCluster.array.holder.isNone && (s.leashReqs s.cur.cluster).all (fun r => r.thread == s.cur)

/-- leash (R264): a rank that held the leash at a save asks for a resumption (R318). -/
def execLeash (s : State) : Host.Outcome State Fault Refusal :=
  word (do
    arrayM
    let s ← readS id
    let resume := s.me.chain.resume
    if s.isHolder s.cur then pure ()
    else if s.leashFree then updS (fun s => s.grant s.cur resume)
    else boundedWait (.leash resume) 0) s

/-- unleash (R264, R309). -/
def execUnleash (s : State) : Host.Outcome State Fault Refusal :=
  word (do
    arrayM
    let s ← readS id
    updS (fun s => s.updMe (fun t => { t with chain := { t.chain with resume := false } }))
    if s.isHolder s.cur then updS (fun s => s.freeLeash s.cur.cluster) else pure ()) s

/-- The bounds of a grant: 64 matrix instructions, or 8,192 ACLK, which are 24,576 FCLK (R4, R310). -/
def State.grantSpent (s : State) : Bool :=
  let a := s.myCluster.array
  64 ≤ a.grantCount || a.grantStart + 24576 ≤ s.fclk

/-- The holder re-arbitrates (R310): its chain is parked, and it waits for a resumption. -/
def State.rearbitrate (s : State) : State :=
  (s.freeLeash s.cur.cluster).updMe (fun t =>
    { t with wait := some ⟨s.fclk, .leash true, 0⟩, chain := { t.chain with resume := true } })

/-- Check 3: the holder, re-arbitrated past the bounds of its grant (R310). -/
def holderM : M Unit := do
  let s ← readS id
  if s.isHolder s.cur then
    if s.grantSpent then
      if (s.leashReqs s.cur.cluster).any (fun r => r.thread != s.cur) then
        fun _ => .error (.hold State.rearbitrate)
      else updS (fun s => s.updMyCluster (fun c => { c with array := { c.array with grantStart := s.fclk, grantCount := 0 } }))
    else pure ()
  else if s.me.chain.resume then
    if s.leashFree then updS (fun s => s.grant s.cur true) else boundedWait (.leash true) 0
  else trapM causeNoLeash 0

/-- TVAL bit 63 of an error in the array's own block (R316). -/
def blockTval : Word := field 63 1

/-- The trap that an error of the array's block left for the holder's next matrix instruction (R316). -/
def blockErrM : M Unit := do
  let s ← readS id
  if s.me.chain.blockErr then
    fun s => .error (.late (s.updMe (fun t => { t with chain := { t.chain with blockErr := false } })) causePoison blockTval)
  else pure ()

/-- A matrix instruction has been performed under the grant. -/
def countMatrixM : M Unit :=
  updS (fun s => s.updMyCluster (fun c => { c with array := { c.array with grantCount := c.array.grantCount + 1 } }))

/-! ## Operands (R305) -/

/-- TVAL of an entry of the wrong shape. -/
def shapeTval (n : TileIx) : Word := BitVec.ofNat 64 (0x300 + n.toNat)

def State.desc (s : State) (n : TileIx) : Word := (s.tile s.cur.cluster n).desc

/-- The tests of R266 at the turn of entryA, and of entryB. -/
def okA (da db : Word) : Bool :=
  tdBuf da == .abuf && tdRows da == 32 && tdRowBytes da % 256 == 0 && 256 ≤ tdRowBytes da && tdRowBytes da == tdRowBytes db
def okB (d da : Word) : Bool := tdBuf d == .wbuf && tdRows d == 16 && tdRowBytes d == tdRowBytes da
/-- `g` block scales for each K row. -/
def okS (d da : Word) (g : Nat) : Bool := tdBuf d == .sbuf && tdRows d == 48 && tdRowBytes da / 256 * g ≤ tdRowBytes d
def okC (d : Word) : Bool := tdBuf d == .cbuf && tdRows d == 32 && tdRowBytes d == 64

/-- The class of a type (R307). -/
def chainClass (t : ElemType) : ChainClass := if t = .i8 then .int else .float

/-! ## Poison (R316) -/

/-- TVAL of a poisoned row. -/
def poisonTval (entry row krow : Nat) : Word := field 0 entry ||| field 8 row ||| field 14 krow

/-- The first poisoned buffer row among rows of an entry that one K row reads: `width` bytes of each from an offset. -/
def badOperand (c : Cluster) (n : TileIx) (d : Word) (rows : List Nat) (krow off width : Nat) : Option Word :=
  (rows.find? (fun r => c.rangeBad (tdBuf d) (boxAt d r off) width)).map (fun r => poisonTval n.toNat r krow)

/-- The rows of a scale entry that are read: 0 to 31 with SA, 32 to 47 with SB (R313). -/
def scaleRows (sa sb : Bool) : List Nat := (if sa then upTo 32 else []) ++ (if sb then (upTo 16).map (32 + ·) else [])

/-- The first poison met, K row by K row: the A operand, the B operand, the rows of the scale entry in use. -/
def firstPoison (c : Cluster) (a b sc : TileIx × Word) (scales : List Nat) (g : Nat) : Option Word :=
  (upTo (tdRowBytes a.2 / 256)).findSome? (fun k =>
    match badOperand c a.1 a.2 (upTo (tdRows a.2)) k (256 * k) 256 with
    | some v => some v
    | none => match badOperand c b.1 b.2 (upTo (tdRows b.2)) k (256 * k) 256 with
      | some v => some v
      | none => badOperand c sc.1 sc.2 scales k (g * k) g)

/-- The first poisoned row of a thread set's park slot, as a block row. -/
def badSlot (c : Cluster) (t : TsId) : Option Word :=
  ((upTo 8).find? (fun i => c.rowBad .cbuf (parkSlot t / 256 + i))).map (fun i => poisonTval (4 * t.core + t.set) (4 * i) 0)

/-- A poison met traps, with nothing changed. -/
def poisonM (o : Option Word) : M Unit :=
  match o with
  | some v => trapM causePoison v
  | none => pure ()

/-! ## mmat and mmam (R313, R314) -/

/-- The elements of a buffer row range, from bytes. -/
def rowElems (size : Nat) : Nat → List Byte → List Nat
  | 0, _ => []
  | n + 1, bs => leNat (bs.take size) :: rowElems size n (bs.drop size)

/-- Operand row r of an entry: its n elements of a size. -/
def operandRow (c : Cluster) (d : Word) (r size n : Nat) : List Nat :=
  rowElems size n (ByteMap.reads (c.buf (tdBuf d)) (boxAt d r 0) (n * size))

/-- Scale row r of a scale entry: m bytes. -/
def scaleRow (c : Cluster) (d : Word) (r m : Nat) : List Nat :=
  (ByteMap.reads (c.buf (tdBuf d)) (boxAt d r 0) m).map BitVec.toNat

/-- The terms q[k] of R278, with the block scales of both operands; none stands for 1. -/
def scaledTerms (ty : ElemType) (sa sb : Option (List Nat)) : Nat → List Nat → List Nat → List Term
  | _, [], _ => []
  | _, _, [] => []
  | k, a :: as, b :: bs =>
    let scale (t : Term) (sc : Option (List Nat)) : Term :=
      match sc with
      | some l => t.mul (Term.ofVal (e4m3.decode (l.getD (k / 32) 0)))
      | none => t
    scale (scale (elemProduct ty a b) sa) sb :: scaledTerms ty sa sb (k + 1) as bs

/-- IntSum (R314). -/
def intSum (as bs : List Nat) (c : BitVec 32) (sat : Bool) : FRes :=
  let total := (List.zip as bs).foldl (fun acc p => acc + sxInt 8 p.1 * sxInt 8 p.2) c.toInt
  if sat then
    let (r, cl) := ElemType.clamp .i32 total
    ⟨wrapNat 32 r, Flags.when cl Flags.sat⟩
  else ⟨wrapNat 32 total, 0⟩

/-- What a block computation takes: the rows, the scales, and the modes. -/
structure BlockIn where
  ty : ElemType
  rowmask : BitVec 32
  aRows : List (List Nat)
  bRows : List (List Nat)
  sa : Option (List (List Nat))
  sb : Option (List (List Nat))
  ta : Nat
  tb : Nat
  rm : Rm
  ftz : Bool
  sat : Bool
  deriving DecidableEq, Repr

/-- Cell (i, j) of the new block, from the prior cell (R313). -/
def BlockIn.cell (x : BlockIn) (i j : Nat) (prior : BitVec 32) : FRes :=
  let a := x.aRows.getD i []
  let b := x.bRows.getD j []
  if x.ty = .i8 then intSum a b prior x.sat
  else matrixSum (scaledTerms x.ty (x.sa.map (·.getD i [])) (x.sb.map (·.getD j [])) 0 a b) x.ta x.tb prior.toNat x.rm x.ftz

/-- The new block and the flags: a disabled row reads +0 after `mmat` and stays as it stands after `mmam`. -/
def BlockIn.block (x : BlockIn) (mam : Bool) (prior : Block) : Block × Flags :=
  let cells : List FRes := (upTo 512).map (fun n =>
    let p := (prior[n]?).getD 0
    if x.rowmask.getLsbD (n / 16) then x.cell (n / 16) (n % 16) p
    else ⟨if mam then p.toNat else 0, 0⟩)
  (Vector.ofFn (fun n => BitVec.ofNat 32 ((cells.map FRes.bits).getD n.val 0)), cells.foldl (fun f r => f ||| r.flags) 0)

/-- mmat and mmam (R312, R313). -/
def matrixM (mam : Bool) (o : MatOp) : M Unit := do
  arrayM
  holderM
  let a ← readyTileM o.a
  let b ← readyTileM o.b
  let scaled := o.sa || o.sb
  if scaled then do let _ ← readyTileM (.tile o.o3) else pure ()
  let s ← readS id
  let da := s.desc a
  let db := s.desc b
  let ds := s.desc o.o3
  let g := 256 / o.ty.size / 32
  trapIf (!okA da db) causeAccess (shapeTval a)
  trapIf (!okB db da) causeAccess (shapeTval b)
  trapIf (scaled && !okS ds da g) causeAccess (shapeTval o.o3)
  let ch := s.me.chain
  trapIf (mam && ch.state != .none && ch.cls != .none && ch.cls != chainClass o.ty) causeAccess 0x400
  blockErrM
  let c := s.myCluster
  let reload := mam && ch.state == .parked
  poisonM (if reload then badSlot c s.cur else none)
  poisonM (firstPoison c (a, da) (b, db) (o.o3, ds) (scaleRows o.sa o.sb) g)
  let x ← xM o.d
  let n := tdRowBytes da / o.ty.size
  let m := n / 32
  let scales (on : Bool) (lo k : Nat) : Option (List (List Nat)) :=
    if on then some ((upTo k).map (fun i => scaleRow c ds (lo + i) m)) else none
  let inp : BlockIn :=
    { ty := o.ty, rowmask := c.array.rowmask, aRows := (upTo 32).map (fun i => operandRow c da i o.ty.size n),
      bRows := (upTo 16).map (fun j => operandRow c db j o.ty.size n),
      sa := scales o.sa 0 32, sb := scales o.sb 32 16,
      ta := if o.ts then Word.bits x 31 0 else oneF32, tb := if o.ts then Word.bits x 63 32 else oneF32,
      rm := s.me.rm, ftz := s.me.ftz, sat := o.sat }
  let prior : Block :=
    if !mam || ch.state == .none then Block.zero
    else if reload then Block.read c.cbuf (parkSlot s.cur) else c.array.block
  let (blk, fl) := inp.block mam prior
  updS (fun s => s.updMyCluster (fun c => { c with array := { c.array with block := blk } }))
  updS (fun s => s.updMe (fun t => { t with chain := { t.chain with state := .live, cls := chainClass o.ty } }))
  flagsM fl
  countMatrixM

/-- mmat (R266, R313). -/
def execMmat (o : MatOp) (s : State) : Host.Outcome State Fault Refusal := word (matrixM false o) s

/-- mmam (R313). -/
def execMmam (o : MatOp) (s : State) : Host.Outcome State Fault Refusal := word (matrixM true o) s

/-- mzero (R313). -/
def execMzero (s : State) : Host.Outcome State Fault Refusal :=
  word (do
    arrayM
    holderM
    blockErrM
    updS (fun s => s.updMyCluster (fun c => { c with array := { c.array with block := Block.zero } }))
    updS (fun s => s.updMe (fun t => { t with chain := { t.chain with state := .live, cls := .none } }))
    countMatrixM) s

/-- mrow (R265). -/
def execMrow (a : XReg) (s : State) : Host.Outcome State Fault Refusal :=
  word (do
    arrayM
    holderM
    blockErrM
    let w ← xM a
    updS (fun s => s.updMyCluster (fun c => { c with array := { c.array with rowmask := w.setWidth 32 } }))
    countMatrixM) s

/-! ## mdrain (R267, R315) -/

/-- The 2,048 bytes that `mdrain` writes: the LIVE block, the PARKED slot, or zeros. -/
def State.drainBytes (s : State) : List Byte :=
  match s.me.chain.state with
  | .live => Block.bytes s.myCluster.array.block
  | .parked => ByteMap.reads s.myCluster.cbuf (parkSlot s.cur) 2048
  | .none => List.replicate 2048 0

/-- The chain is closed by `mdrain`. -/
def closeM : M Unit := updS (fun s => s.updMe (fun t => { t with chain := { t.chain with state := .none, cls := .none } }))

/-- The poison of a PARKED chain's slot. -/
def slotPoisonM : M Unit := do
  let s ← readS id
  poisonM (if s.me.chain.state = .parked then badSlot s.myCluster s.cur else none)

/-- mdrain xA (R267). -/
def execMdrain (a : XReg) (s : State) : Host.Outcome State Fault Refusal :=
  word (do
    arrayM
    holderM
    let w ← xM a
    let s ← readS id
    trapIf (w.toNat % 64 != 0 || s.myCore.scratchSize < w.toNat + 2048) causeMisalign w
    blockErrM
    slotPoisonM
    storeSpot (.scratch w.toNat) 0 s.drainBytes .none
    closeM
    countMatrixM) s

/-- mdrain tile (R315): the target stays READY. -/
def execMdrainTile (t : TileOpd) (s : State) : Host.Outcome State Fault Refusal :=
  word (do
    arrayM
    holderM
    let n ← readyTileM t
    let s ← readS id
    let d := s.desc n
    trapIf (!okC d) causeAccess (shapeTval n)
    blockErrM
    slotPoisonM
    updS (fun s => s.updMyCluster (fun c => c.writeBuf .cbuf (tdBase d * 256) s.drainBytes))
    closeM
    countMatrixM) s

end Sys2Proof.Machine
end

