-- ==== Sys2Proof/Machine/Scalar.lean ====
section
/-! DEFINITION. The scalar integer instructions (R97 to R104). -/
namespace Sys2Proof.Machine

/-- A two-operand form of OP 0x01 or 0x04 (R98, R102). -/
def scalarBin (o : ScalarRR) (f : (w : Nat) → BitVec w → BitVec w → BitVec w) (s : State) :
    Host.Outcome State Fault Refusal :=
  word (do
    let a ← xM o.a
    let b ← bM o.b
    setXM o.d (wide o.w32 f a b)) s

/-- An immediate form of OP 0x02 (R98). -/
def scalarImm (o : ScalarRI) (f : (w : Nat) → BitVec w → BitVec w → BitVec w) (s : State) :
    Host.Outcome State Fault Refusal :=
  word (do
    let a ← xM o.a
    setXM o.d (wide o.w32 f a (o.imm.signExtend 64))) s

/-- An immediate shift of OP 0x02 (R99). -/
def shiftImm (o : ShiftRI) (f : (w : Nat) → BitVec w → BitVec w → BitVec w) (s : State) :
    Host.Outcome State Fault Refusal :=
  word (do
    let a ← xM o.a
    setXM o.d (wide o.w32 f a (o.n.setWidth 64))) s

/-- A one-operand form of OP 0x03 (R101). -/
def scalarUnary (o : UnaryRR) (f : (w : Nat) → BitVec w → BitVec w) (s : State) : Host.Outcome State Fault Refusal :=
  word (do
    let a ← xM o.a
    setXM o.d (wide o.w32 (fun w x _ => f w x) a 0)) s

def addW (w : Nat) (a b : BitVec w) : BitVec w := a + b
def subW (w : Nat) (a b : BitVec w) : BitVec w := a - b
def andW (w : Nat) (a b : BitVec w) : BitVec w := a &&& b
def orW (w : Nat) (a b : BitVec w) : BitVec w := a ||| b
def xorW (w : Nat) (a b : BitVec w) : BitVec w := a ^^^ b
def andnW (w : Nat) (a b : BitVec w) : BitVec w := a &&& ~~~b
def ornW (w : Nat) (a b : BitVec w) : BitVec w := a ||| ~~~b
/-- Shift counts are B mod w (R98). -/
def shlW (w : Nat) (a b : BitVec w) : BitVec w := a <<< (b.toNat % w)
def shrW (w : Nat) (a b : BitVec w) : BitVec w := a >>> (b.toNat % w)
def sarW (w : Nat) (a b : BitVec w) : BitVec w := a.sshiftRight (b.toNat % w)
def rolW (w : Nat) (a b : BitVec w) : BitVec w := a.rotateLeft (b.toNat % w)
def minW (w : Nat) (a b : BitVec w) : BitVec w := if a.slt b then a else b
def maxW (w : Nat) (a b : BitVec w) : BitVec w := if a.slt b then b else a
def minuW (w : Nat) (a b : BitVec w) : BitVec w := if a.ult b then a else b
def maxuW (w : Nat) (a b : BitVec w) : BitVec w := if a.ult b then b else a
def oneIf (w : Nat) (c : Bool) : BitVec w := if c then 1 else 0
def sltW (w : Nat) (a b : BitVec w) : BitVec w := oneIf w (a.slt b)
def sltuW (w : Nat) (a b : BitVec w) : BitVec w := oneIf w (a.ult b)
def seqW (w : Nat) (a b : BitVec w) : BitVec w := oneIf w (a == b)
def sneW (w : Nat) (a b : BitVec w) : BitVec w := oneIf w (a != b)

/-- The exact result clamped to the signed range, and whether it was (R100). -/
def satW (w : Nat) (i : Int) : BitVec w × Bool :=
  let lo : Int := -((2 ^ (w - 1) : Nat) : Int)
  let hi : Int := ((2 ^ (w - 1) : Nat) : Int) - 1
  if i < lo then (BitVec.ofInt w lo, true) else if hi < i then (BitVec.ofInt w hi, true) else (BitVec.ofInt w i, false)

/-- add and sub in the register and constant-window forms (R98, R100). -/
def arith (o : ArithRR) (f : (w : Nat) → BitVec w → BitVec w → BitVec w) (g : Int → Int → Int) (s : State) :
    Host.Outcome State Fault Refusal :=
  word (do
    let a ← xM o.a
    let b ← bM o.b
    if o.sat then do
      let r32 := satW 32 (g (a.setWidth 32).toInt (b.setWidth 32).toInt)
      let r64 := satW 64 (g a.toInt b.toInt)
      setXM o.d (if o.w32 then r32.1.signExtend 64 else r64.1)
      flagsM (Flags.when (if o.w32 then r32.2 else r64.2) Flags.sat)
    else setXM o.d (wide o.w32 f a b)) s

def execAdd (o : ArithRR) (s : State) : Host.Outcome State Fault Refusal := arith o addW (fun i j => i + j) s
def execAddImm (o : ScalarRI) (s : State) : Host.Outcome State Fault Refusal := scalarImm o addW s
def execSub (o : ArithRR) (s : State) : Host.Outcome State Fault Refusal := arith o subW (fun i j => i - j) s
def execSubImm (o : ScalarRI) (s : State) : Host.Outcome State Fault Refusal := scalarImm o subW s
def execAnd (o : ScalarRR) (s : State) : Host.Outcome State Fault Refusal := scalarBin o andW s
def execAndImm (o : ScalarRI) (s : State) : Host.Outcome State Fault Refusal := scalarImm o andW s
def execOr (o : ScalarRR) (s : State) : Host.Outcome State Fault Refusal := scalarBin o orW s
def execOrImm (o : ScalarRI) (s : State) : Host.Outcome State Fault Refusal := scalarImm o orW s
def execXor (o : ScalarRR) (s : State) : Host.Outcome State Fault Refusal := scalarBin o xorW s
def execXorImm (o : ScalarRI) (s : State) : Host.Outcome State Fault Refusal := scalarImm o xorW s
def execAndn (o : ScalarRR) (s : State) : Host.Outcome State Fault Refusal := scalarBin o andnW s
def execAndnImm (o : ScalarRI) (s : State) : Host.Outcome State Fault Refusal := scalarImm o andnW s
def execOrn (o : ScalarRR) (s : State) : Host.Outcome State Fault Refusal := scalarBin o ornW s
def execOrnImm (o : ScalarRI) (s : State) : Host.Outcome State Fault Refusal := scalarImm o ornW s
def execShl (o : ScalarRR) (s : State) : Host.Outcome State Fault Refusal := scalarBin o shlW s
def execShlImm (o : ShiftRI) (s : State) : Host.Outcome State Fault Refusal := shiftImm o shlW s
def execShr (o : ScalarRR) (s : State) : Host.Outcome State Fault Refusal := scalarBin o shrW s
def execShrImm (o : ShiftRI) (s : State) : Host.Outcome State Fault Refusal := shiftImm o shrW s
def execSar (o : ScalarRR) (s : State) : Host.Outcome State Fault Refusal := scalarBin o sarW s
def execSarImm (o : ShiftRI) (s : State) : Host.Outcome State Fault Refusal := shiftImm o sarW s
def execRol (o : ScalarRR) (s : State) : Host.Outcome State Fault Refusal := scalarBin o rolW s
def execRolImm (o : ShiftRI) (s : State) : Host.Outcome State Fault Refusal := shiftImm o rolW s
def execMin (o : ScalarRR) (s : State) : Host.Outcome State Fault Refusal := scalarBin o minW s
def execMinImm (o : ScalarRI) (s : State) : Host.Outcome State Fault Refusal := scalarImm o minW s
def execMax (o : ScalarRR) (s : State) : Host.Outcome State Fault Refusal := scalarBin o maxW s
def execMaxImm (o : ScalarRI) (s : State) : Host.Outcome State Fault Refusal := scalarImm o maxW s
def execMinu (o : ScalarRR) (s : State) : Host.Outcome State Fault Refusal := scalarBin o minuW s
def execMinuImm (o : ScalarRI) (s : State) : Host.Outcome State Fault Refusal := scalarImm o minuW s
def execMaxu (o : ScalarRR) (s : State) : Host.Outcome State Fault Refusal := scalarBin o maxuW s
def execMaxuImm (o : ScalarRI) (s : State) : Host.Outcome State Fault Refusal := scalarImm o maxuW s
def execSlt (o : ScalarRR) (s : State) : Host.Outcome State Fault Refusal := scalarBin o sltW s
def execSltImm (o : ScalarRI) (s : State) : Host.Outcome State Fault Refusal := scalarImm o sltW s
def execSltu (o : ScalarRR) (s : State) : Host.Outcome State Fault Refusal := scalarBin o sltuW s
def execSltuImm (o : ScalarRI) (s : State) : Host.Outcome State Fault Refusal := scalarImm o sltuW s
def execSeq (o : ScalarRR) (s : State) : Host.Outcome State Fault Refusal := scalarBin o seqW s
def execSeqImm (o : ScalarRI) (s : State) : Host.Outcome State Fault Refusal := scalarImm o seqW s
def execSne (o : ScalarRR) (s : State) : Host.Outcome State Fault Refusal := scalarBin o sneW s
def execSneImm (o : ScalarRI) (s : State) : Host.Outcome State Fault Refusal := scalarImm o sneW s

/-- sel (R101). -/
def execSel (d a b c : XReg) (s : State) : Host.Outcome State Fault Refusal :=
  word (do
    let va ← xM a
    let vb ← xM b
    let vc ← xM c
    setXM d (if vc != 0 then va else vb)) s

def clzW (w : Nat) (a : BitVec w) : BitVec w := BitVec.ofNat w (clzNat w a.toNat)
/-- Trailing zero bits; w for zero (R101). -/
def ctzW (w : Nat) (a : BitVec w) : BitVec w := BitVec.ofNat w (ctzNat w a.toNat)
def popcW (w : Nat) (a : BitVec w) : BitVec w := BitVec.ofNat w (popNat w a.toNat)
/-- The w/8 bytes in reversed order (R101). -/
def bswapW (w : Nat) (a : BitVec w) : BitVec w := BitVec.ofNat w (leNat (leBytes (w / 8) a.toNat).reverse)

def execClz (o : UnaryRR) (s : State) : Host.Outcome State Fault Refusal := scalarUnary o clzW s
def execCtz (o : UnaryRR) (s : State) : Host.Outcome State Fault Refusal := scalarUnary o ctzW s
def execPopc (o : UnaryRR) (s : State) : Host.Outcome State Fault Refusal := scalarUnary o popcW s
def execBswap (o : UnaryRR) (s : State) : Host.Outcome State Fault Refusal := scalarUnary o bswapW s

def mulW (w : Nat) (a b : BitVec w) : BitVec w := a * b
/-- The high half of the signed product (R102). -/
def mulhW (w : Nat) (a b : BitVec w) : BitVec w := BitVec.ofInt w (a.toInt * b.toInt / ((2 ^ w : Nat) : Int))
def mulhuW (w : Nat) (a b : BitVec w) : BitVec w := BitVec.ofNat w (a.toNat * b.toNat / 2 ^ w)
/-- Quotients truncate toward zero; a zero divisor gives all ones (R102). -/
def divW (w : Nat) (a b : BitVec w) : BitVec w := if b = 0 then BitVec.allOnes w else a.sdiv b
def divuW (w : Nat) (a b : BitVec w) : BitVec w := if b = 0 then BitVec.allOnes w else a / b
/-- Remainders take the sign of A; a zero divisor gives A (R102). -/
def remW (w : Nat) (a b : BitVec w) : BitVec w := if b = 0 then a else a.srem b
def remuW (w : Nat) (a b : BitVec w) : BitVec w := if b = 0 then a else a % b

def execMul (o : ScalarRR) (s : State) : Host.Outcome State Fault Refusal := scalarBin o mulW s
def execMulh (o : ScalarRR) (s : State) : Host.Outcome State Fault Refusal := scalarBin o mulhW s
def execMulhu (o : ScalarRR) (s : State) : Host.Outcome State Fault Refusal := scalarBin o mulhuW s

/-- A division (R102): a zero divisor sets DZ. -/
def division (o : ScalarRR) (f : (w : Nat) → BitVec w → BitVec w → BitVec w) (s : State) :
    Host.Outcome State Fault Refusal :=
  word (do
    let a ← xM o.a
    let b ← bM o.b
    setXM o.d (wide o.w32 f a b)
    flagsM (Flags.when (if o.w32 then b.setWidth 32 == 0#32 else b == 0) Flags.dz)) s

def execDiv (o : ScalarRR) (s : State) : Host.Outcome State Fault Refusal := division o divW s
def execDivu (o : ScalarRR) (s : State) : Host.Outcome State Fault Refusal := division o divuW s
def execRem (o : ScalarRR) (s : State) : Host.Outcome State Fault Refusal := division o remW s
def execRemu (o : ScalarRR) (s : State) : Host.Outcome State Fault Refusal := division o remuW s

/-- bfx (R103). -/
def execBfx (o : BFieldRI) (sx : Bool) (s : State) : Host.Outcome State Fault Refusal :=
  word (do
    let a ← xM o.a
    let len := o.lenm1.toNat + 1
    let v := Word.bits a (o.lsb.toNat + len - 1) o.lsb.toNat
    setXM o.d (if sx then sxWord len v else BitVec.ofNat 64 v)) s

/-- bfi (R103). -/
def execBfi (o : BFieldRI) (s : State) : Host.Outcome State Fault Refusal :=
  word (do
    let a ← xM o.a
    let d ← xM o.d
    let mask : Word := BitVec.ofNat 64 ((2 ^ (o.lenm1.toNat + 1) - 1) * 2 ^ o.lsb.toNat)
    setXM o.d ((d &&& ~~~mask) ||| ((a <<< o.lsb.toNat) &&& mask))) s

/-- li (R104). -/
def execLi (d : XReg) (imm : BitVec 32) (s : State) : Host.Outcome State Fault Refusal :=
  word (setXM d (imm.signExtend 64)) s

/-- lih (R104). -/
def execLih (d : XReg) (imm : BitVec 32) (s : State) : Host.Outcome State Fault Refusal :=
  word (do
    let v ← xM d
    setXM d (imm ++ v.setWidth 32)) s

end Sys2Proof.Machine
end

