-- ==== Sys2Proof/Machine/Vector.lean ====
section
/-! DEFINITION. The vector and predicate instructions (R284 to R299). -/
namespace Sys2Proof.Machine

/-! ## The element-wise scheme (R284) -/

/-- The results of the enabled lanes, by lane. -/
def laneResults (p : Word) (n : Nat) (f : Nat → FRes) : List (Option FRes) :=
  (upTo (64 / n)).map (fun j => if laneOn p n j then some (f j) else none)

/-- The flags of the enabled lanes. -/
def laneFlags (rs : List (Option FRes)) : Flags :=
  rs.foldl (fun acc r => match r with
    | some r => acc ||| r.flags
    | none => acc) Flags.none

/-- The destination: enabled lanes get their results, the others keep their values. -/
def laneMerge (old : VWord) (n : Nat) (rs : List (Option FRes)) : VWord :=
  VWord.ofLanes n ((upTo (64 / n)).map (fun j => match rs.getD j none with
    | some r => r.bits
    | none => old.lane n j))

/-- An element-wise instruction: results and flags of lanes j from a function of j. -/
def lanesM (d : VReg) (p : PReg) (n : Nat) (f : Nat → FRes) : M Unit := do
  let pred ← pM p
  let old ← vM d
  let rs := laneResults pred n f
  setVM d (laneMerge old n rs)
  flagsM (laneFlags rs)

/-- A lane result without a flag. -/
def plain (v : Nat) : FRes := ⟨v, Flags.none⟩

/-- A two-source element-wise instruction. -/
def vecBin (o : VBin) (f : Nat → Nat → FRes) (s : State) : Host.Outcome State Fault Refusal :=
  word (do
    let a ← vM o.a
    let b ← vM o.b
    let n := o.ty.size
    lanesM o.d o.p n (fun j => f (a.lane n j) (b.lane n j))) s

/-! ## Integer arithmetic, logic and shifts (R287, R288) -/

/-- An exact integer in a type: modulo 2^w, or clamped with `.sat`. -/
def intResult (t : ElemType) (sat : Bool) (i : Int) : FRes :=
  if sat then ⟨wrapNat (8 * t.size) (t.clamp i).1, Flags.when (t.clamp i).2 Flags.sat⟩
  else plain (wrapNat (8 * t.size) i)

/-- vadd and vsub. -/
def vecArith (o : VBinSat) (f : Int → Int → Int) (s : State) : Host.Outcome State Fault Refusal :=
  word (do
    let a ← vM o.a
    let b ← vM o.b
    let n := o.ty.size
    lanesM o.d o.p n (fun j => intResult o.ty o.sat (f (o.ty.readInt (a.lane n j)) (o.ty.readInt (b.lane n j))))) s

def execVadd (o : VBinSat) (s : State) : Host.Outcome State Fault Refusal := vecArith o (fun a b => a + b) s
def execVsub (o : VBinSat) (s : State) : Host.Outcome State Fault Refusal := vecArith o (fun a b => a - b) s

/-- An integer function of two lanes of the instruction's type. -/
def vecInt (o : VBin) (f : Int → Int → Int) (s : State) : Host.Outcome State Fault Refusal :=
  vecBin o (fun a b => plain (wrapNat (8 * o.ty.size) (f (o.ty.readInt a) (o.ty.readInt b)))) s

def execVmul (o : VBin) (s : State) : Host.Outcome State Fault Refusal := vecInt o (fun a b => a * b) s
/-- The high half of the 2w-bit product. -/
def execVmulh (o : VBin) (s : State) : Host.Outcome State Fault Refusal :=
  vecInt o (fun a b => a * b / ((2 ^ (8 * o.ty.size) : Nat) : Int)) s
def execVmin (o : VBin) (s : State) : Host.Outcome State Fault Refusal := vecInt o (fun a b => if a ≤ b then a else b) s
def execVmax (o : VBin) (s : State) : Host.Outcome State Fault Refusal := vecInt o (fun a b => if a ≤ b then b else a) s

/-- vabs (R287). -/
def execVabs (o : VUnSat) (s : State) : Host.Outcome State Fault Refusal :=
  word (do
    let a ← vM o.a
    let n := o.ty.size
    lanesM o.d o.p n (fun j => intResult o.ty o.sat ((o.ty.readInt (a.lane n j)).natAbs : Int))) s

/-- A function of the bits of two lanes. -/
def vecBits (o : VBin) (f : (w : Nat) → BitVec w → BitVec w → BitVec w) (s : State) : Host.Outcome State Fault Refusal :=
  let w := 8 * o.ty.size
  vecBin o (fun a b => plain (f w (BitVec.ofNat w a) (BitVec.ofNat w b)).toNat) s

def execVand (o : VBin) (s : State) : Host.Outcome State Fault Refusal := vecBits o (fun _ a b => a &&& b) s
def execVor (o : VBin) (s : State) : Host.Outcome State Fault Refusal := vecBits o (fun _ a b => a ||| b) s
def execVxor (o : VBin) (s : State) : Host.Outcome State Fault Refusal := vecBits o (fun _ a b => a ^^^ b) s
def execVandn (o : VBin) (s : State) : Host.Outcome State Fault Refusal := vecBits o (fun _ a b => a &&& ~~~b) s
def execVshl (o : VBin) (s : State) : Host.Outcome State Fault Refusal := vecBits o (fun w a b => a <<< (b.toNat % w)) s
def execVshr (o : VBin) (s : State) : Host.Outcome State Fault Refusal := vecBits o (fun w a b => a >>> (b.toNat % w)) s
def execVsar (o : VBin) (s : State) : Host.Outcome State Fault Refusal :=
  vecBits o (fun w a b => a.sshiftRight (b.toNat % w)) s

/-! ## Floating arithmetic (R289, R290) -/

/-- The format of a vector floating type. -/
def vecFormat (t : ElemType) : FFormat := t.format.getD fp32

/-- A rounded function of A, B and the old D. -/
def vecFloat (o : VFBin) (f : FFormat → Rm → Bool → FVal → FVal → FVal → FRes) (s : State) :
    Host.Outcome State Fault Refusal :=
  word (do
    let me ← readS State.me
    let a ← vM o.a
    let b ← vM o.b
    let d ← vM o.d
    let n := o.ty.size
    let fm := vecFormat o.ty
    let rd (v : VWord) (j : Nat) : FVal := fm.decodeFtz me.ftz (v.lane n j)
    lanesM o.d o.p n (fun j => f fm (me.rnd o.rnd) me.ftz (rd a j) (rd b j) (rd d j))) s

def execVfadd (o : VFBin) (s : State) : Host.Outcome State Fault Refusal := vecFloat o (fun f rm z a b _ => f.add rm z a b) s
def execVfsub (o : VFBin) (s : State) : Host.Outcome State Fault Refusal :=
  vecFloat o (fun f rm z a b _ => f.add rm z a b.negate) s
def execVfmul (o : VFBin) (s : State) : Host.Outcome State Fault Refusal := vecFloat o (fun f rm z a b _ => f.mul rm z a b) s
def execVffma (o : VFBin) (s : State) : Host.Outcome State Fault Refusal :=
  vecFloat o (fun f rm z a b d => f.fma rm z a b d) s

/-- vfmin and vfmax (R107). -/
def vecMinMax (o : VBin) (isMax : Bool) (s : State) : Host.Outcome State Fault Refusal :=
  vecBin o (fun a b => (vecFormat o.ty).minMax isMax s.me.ftz a b) s

def execVfmin (o : VBin) (s : State) : Host.Outcome State Fault Refusal := vecMinMax o false s
def execVfmax (o : VBin) (s : State) : Host.Outcome State Fault Refusal := vecMinMax o true s

/-- A one-source element-wise instruction. -/
def vecUn (o : VUn) (f : Nat → FRes) (s : State) : Host.Outcome State Fault Refusal :=
  word (do
    let a ← vM o.a
    let n := o.ty.size
    lanesM o.d o.p n (fun j => f (a.lane n j))) s

/-- vfabs and vfneg: the sign bit cleared or inverted, no flag, no FTZ. -/
def execVfabs (o : VUn) (s : State) : Host.Outcome State Fault Refusal :=
  vecUn o (fun a => plain (a % 2 ^ (8 * o.ty.size - 1))) s
def execVfneg (o : VUn) (s : State) : Host.Outcome State Fault Refusal :=
  vecUn o (fun a => plain ((a + 2 ^ (8 * o.ty.size - 1)) % 2 ^ (8 * o.ty.size))) s

def execVexp2 (o : VUn) (s : State) : Host.Outcome State Fault Refusal :=
  vecUn o (fun a => (vecFormat o.ty).exp2 s.me.ftz a) s
def execVrcp (o : VUn) (s : State) : Host.Outcome State Fault Refusal := vecUn o (fun a => (vecFormat o.ty).rcp s.me.ftz a) s
def execVrsq (o : VUn) (s : State) : Host.Outcome State Fault Refusal := vecUn o (fun a => (vecFormat o.ty).rsq s.me.ftz a) s

/-! ## Compares, selection, permutation, tables (R291 to R293) -/

/-- The predicate whose lanes j, of n bytes, are all ones where the list says so. -/
def predOf (n : Nat) (bs : List Bool) : Word :=
  (upTo bs.length).foldl (fun w j => if bs.getD j false then w ||| BitVec.ofNat 64 ((2 ^ n - 1) * 2 ^ (n * j)) else w) 0

/-- REL on integers. -/
def intRel (r : Rel) (a b : Int) : Bool :=
  match r with
  | .eq => a == b
  | .ne => a != b
  | .lt => a < b
  | .le => a ≤ b
  | .gt => b < a
  | .ge => b ≤ a
  | .un => false

/-- A comparison into a predicate register: disabled lanes write zeros. -/
def vecCmp (o : VCmp) (f : Nat → Nat → Bool × Flags) (s : State) : Host.Outcome State Fault Refusal :=
  word (do
    let a ← vM o.a
    let b ← vM o.b
    let p ← pM o.p
    let n := o.ty.size
    let rs := laneResults p n (fun j => let r := f (a.lane n j) (b.lane n j); ⟨r.1.toNat, r.2⟩)
    setPM o.d (predOf n (rs.map (fun r => r.any (fun r => r.bits == 1))))
    flagsM (laneFlags rs)) s

def execVcmp (o : VCmp) (s : State) : Host.Outcome State Fault Refusal :=
  vecCmp o (fun a b => (intRel o.rel (o.ty.readInt a) (o.ty.readInt b), Flags.none)) s

def execVfcmp (o : VCmp) (s : State) : Host.Outcome State Fault Refusal :=
  let fm := vecFormat o.ty
  vecCmp o (fun a b => FVal.rel o.rel (fm.decodeFtz s.me.ftz a) (fm.decodeFtz s.me.ftz b)) s

/-- vsel (R292): the predicate selects, every byte is written. -/
def execVsel (o : VByteSel) (s : State) : Host.Outcome State Fault Refusal :=
  word (do
    let a ← vM o.a
    let b ← vM o.b
    let p ← pM o.p
    setVM o.d (VWord.ofLanes 1 ((upTo 64).map (fun i => if p.getLsbD i then a.lane 1 i else b.lane 1 i)))) s

/-- vperm (R292). -/
def execVperm (o : VByteSel) (s : State) : Host.Outcome State Fault Refusal :=
  word (do
    let a ← vM o.a
    let b ← vM o.b
    lanesM o.d o.p 1 (fun i =>
      let x := b.lane 1 i
      plain (if x.testBit 7 then 0 else a.lane 1 (x % 64)))) s

/-- Entry e, of n bytes, of the table in the registers from b on (R293). -/
def Thread.tableEntry (t : Thread) (b : VReg) (n e : Nat) : Nat :=
  (t.getV (b + BitVec.ofNat 5 (e * n / 64))).lane n (e % (64 / n))

/-- vlut (R293). -/
def execVlut (o : VBin) (s : State) : Host.Outcome State Fault Refusal :=
  word (do
    let me ← readS State.me
    let a ← vM o.a
    let n := o.ty.size
    lanesM o.d o.p n (fun j => plain (me.tableEntry o.b n (a.lane 1 j % 64)))) s

/-! ## Lanes and scalars (R294) -/

/-- vsplat. -/
def execVsplat (o : VSplat) (s : State) : Host.Outcome State Fault Refusal :=
  word (do
    let a ← xM o.a
    let n := o.ty.size
    lanesM o.d o.p n (fun _ => plain (a.toNat % 2 ^ (8 * n)))) s

/-- vins. -/
def execVins (d : VReg) (a : XReg) (ty : ElemType) (lane : BitVec 6) (s : State) : Host.Outcome State Fault Refusal :=
  word (do
    let x ← xM a
    let old ← vM d
    let n := ty.size
    setVM d (VWord.ofLanes n ((upTo (64 / n)).map (fun j =>
      if j = lane.toNat then x.toNat % 2 ^ (8 * n) else old.lane n j)))) s

/-- vext. -/
def execVext (d : XReg) (a : VReg) (ty : ElemType) (lane : BitVec 6) (s : State) : Host.Outcome State Fault Refusal :=
  word (do
    let v ← vM a
    setXM d (extendLoad ty.isSigned ty.size (v.lane ty.size lane.toNat))) s

/-! ## Conversion and dot products (R295, R296) -/

/-- vcvt. -/
def execVcvt (o : VCvt) (s : State) : Host.Outcome State Fault Refusal :=
  word (do
    let me ← readS State.me
    let a ← vM o.a
    let p ← pM o.p
    let old ← vM o.d
    let (ss, sd) := (o.src.size, o.dst.size)
    let n := 64 / max ss sd
    let conv (v : Nat) : FRes :=
      if o.dst.isInt && o.src.isInt then convertInt o.dst o.src o.sat v else convert o.dst o.src (me.rnd o.rnd) me.ftz v
    let rs := (upTo n).map (fun j => if laneOn p sd j then some (conv (a.lane ss j)) else none)
    setVM o.d (VWord.ofLanes sd ((upTo n).map (fun j => match rs.getD j none with
      | some r => r.bits
      | none => old.lane sd j)))
    flagsM (laneFlags rs)) s

/-- One accumulator lane of vdot: the groups of elements of A and B, and the old lane. -/
def dotLane (o : VDot) (rm : Rm) (ftz : Bool) (as bs : List Nat) (c : Nat) : FRes :=
  if o.ty = .fp32 then
    matrixSum ((as.zip bs).map (fun (x : Nat × Nat) => elemProduct o.st x.1 x.2)) oneF32 oneF32 c rm ftz
  else
    intResult .i32 o.sat (sxInt 32 c + ((as.zip bs).map (fun (x : Nat × Nat) => o.st.readInt x.1 * o.st.readInt x.2)).sum)

/-- vdot. -/
def execVdot (o : VDot) (s : State) : Host.Outcome State Fault Refusal :=
  word (do
    let me ← readS State.me
    let a ← vM o.a
    let b ← vM o.b
    let c ← vM o.d
    let n := o.st.size
    let g := 4 / n
    let group (v : VWord) (j : Nat) : List Nat := (upTo g).map (fun i => v.lane n (j * g + i))
    lanesM o.d o.p 4 (fun j => dotLane o (me.rnd o.rnd) me.ftz (group a j) (group b j) (c.lane 4 j))) s

/-! ## Reductions and scans (R297, R298) -/

/-- The lanes of a source, absent where disabled. -/
def presentLanes (a : VWord) (p : Word) (n : Nat) : List (Option Nat) :=
  (upTo (64 / n)).map (fun j => if laneOn p n j then some (a.lane n j) else none)

/-- vred. -/
def execVred (o : VRed) (s : State) : Host.Outcome State Fault Refusal :=
  word (do
    let me ← readS State.me
    let a ← vM o.a
    let p ← pM o.p
    let r := treeSum (laneAdd o.ty (me.rnd o.rnd) me.ftz o.sat) 6 (presentLanes a p o.ty.size)
    setXM o.d (extendLoad o.ty.isSigned o.ty.size r.bits)
    flagsM r.flags) s

/-- The running sums of a scan, and their flags. -/
def scanFrom (op : Nat → Nat → FRes) : Option Nat → List (Option Nat) → List Nat × Flags
  | _, [] => ([], Flags.none)
  | run, x :: xs =>
    let (r, f) := combine op run x
    let (rs, g) := scanFrom op r xs
    (r.getD 0 :: rs, f ||| g)

/-- vscan: every lane is written. -/
def execVscan (o : VScan) (s : State) : Host.Outcome State Fault Refusal :=
  word (do
    let me ← readS State.me
    let a ← vM o.a
    let p ← pM o.p
    let n := o.ty.size
    let (rs, f) := scanFrom (laneAdd o.ty (me.rnd o.rnd) me.ftz o.sat) none (presentLanes a p n)
    setVM o.d (VWord.ofLanes n rs)
    flagsM f) s

/-! ## Predicates (R299) -/

/-- plog. -/
def execPlog (op : PlogOp) (d a b : PReg) (s : State) : Host.Outcome State Fault Refusal :=
  word (do
    let x ← pM a
    let y ← pM b
    setPM d (match op with
      | .and => x &&& y
      | .or => x ||| y
      | .xor => x ^^^ y
      | .andn => x &&& ~~~y
      | .not => ~~~x)) s

/-- pcnt. -/
def execPcnt (d : XReg) (a : PReg) (ty : ElemType) (s : State) : Host.Outcome State Fault Refusal :=
  word (do
    let p ← pM a
    setXM d (BitVec.ofNat 64 ((upTo (64 / ty.size)).filter (fun j => laneOn p ty.size j)).length)) s

end Sys2Proof.Machine
end

