-- ==== Sys2Proof/Machine/Dispatch.lean ====
section
/-! DEFINITION. One arm for every constructor of `Instr`: the meaning of each operation. -/
namespace Sys2Proof.Machine

def exec (i : Instr) (s : State) : Host.Outcome State Fault Refusal :=
  match i with
  | .add o => Sys2Proof.Machine.execAdd o s
  | .addImm o => Sys2Proof.Machine.execAddImm o s
  | .sub o => Sys2Proof.Machine.execSub o s
  | .subImm o => Sys2Proof.Machine.execSubImm o s
  | .and o => Sys2Proof.Machine.execAnd o s
  | .andImm o => Sys2Proof.Machine.execAndImm o s
  | .or o => Sys2Proof.Machine.execOr o s
  | .orImm o => Sys2Proof.Machine.execOrImm o s
  | .xor o => Sys2Proof.Machine.execXor o s
  | .xorImm o => Sys2Proof.Machine.execXorImm o s
  | .andn o => Sys2Proof.Machine.execAndn o s
  | .andnImm o => Sys2Proof.Machine.execAndnImm o s
  | .orn o => Sys2Proof.Machine.execOrn o s
  | .ornImm o => Sys2Proof.Machine.execOrnImm o s
  | .shl o => Sys2Proof.Machine.execShl o s
  | .shlImm o => Sys2Proof.Machine.execShlImm o s
  | .shr o => Sys2Proof.Machine.execShr o s
  | .shrImm o => Sys2Proof.Machine.execShrImm o s
  | .sar o => Sys2Proof.Machine.execSar o s
  | .sarImm o => Sys2Proof.Machine.execSarImm o s
  | .rol o => Sys2Proof.Machine.execRol o s
  | .rolImm o => Sys2Proof.Machine.execRolImm o s
  | .min o => Sys2Proof.Machine.execMin o s
  | .minImm o => Sys2Proof.Machine.execMinImm o s
  | .max o => Sys2Proof.Machine.execMax o s
  | .maxImm o => Sys2Proof.Machine.execMaxImm o s
  | .minu o => Sys2Proof.Machine.execMinu o s
  | .minuImm o => Sys2Proof.Machine.execMinuImm o s
  | .maxu o => Sys2Proof.Machine.execMaxu o s
  | .maxuImm o => Sys2Proof.Machine.execMaxuImm o s
  | .slt o => Sys2Proof.Machine.execSlt o s
  | .sltImm o => Sys2Proof.Machine.execSltImm o s
  | .sltu o => Sys2Proof.Machine.execSltu o s
  | .sltuImm o => Sys2Proof.Machine.execSltuImm o s
  | .seq o => Sys2Proof.Machine.execSeq o s
  | .seqImm o => Sys2Proof.Machine.execSeqImm o s
  | .sne o => Sys2Proof.Machine.execSne o s
  | .sneImm o => Sys2Proof.Machine.execSneImm o s
  | .sel d a b c => Sys2Proof.Machine.execSel d a b c s
  | .clz o => Sys2Proof.Machine.execClz o s
  | .ctz o => Sys2Proof.Machine.execCtz o s
  | .popc o => Sys2Proof.Machine.execPopc o s
  | .bswap o => Sys2Proof.Machine.execBswap o s
  | .mul o => Sys2Proof.Machine.execMul o s
  | .mulh o => Sys2Proof.Machine.execMulh o s
  | .mulhu o => Sys2Proof.Machine.execMulhu o s
  | .div o => Sys2Proof.Machine.execDiv o s
  | .divu o => Sys2Proof.Machine.execDivu o s
  | .rem o => Sys2Proof.Machine.execRem o s
  | .remu o => Sys2Proof.Machine.execRemu o s
  | .bfx o sx => Sys2Proof.Machine.execBfx o sx s
  | .bfi o => Sys2Proof.Machine.execBfi o s
  | .li d imm => Sys2Proof.Machine.execLi d imm s
  | .lih d imm => Sys2Proof.Machine.execLih d imm s
  | .fadd o => Sys2Proof.Machine.execFadd o s
  | .fsub o => Sys2Proof.Machine.execFsub o s
  | .fmul o => Sys2Proof.Machine.execFmul o s
  | .fdiv o => Sys2Proof.Machine.execFdiv o s
  | .fmin o => Sys2Proof.Machine.execFmin o s
  | .fmax o => Sys2Proof.Machine.execFmax o s
  | .fsqrt d a fmt rnd => Sys2Proof.Machine.execFsqrt d a fmt rnd s
  | .ffma o => Sys2Proof.Machine.execFfma o s
  | .fcmp d a b fmt rel => Sys2Proof.Machine.execFcmp d a b fmt rel s
  | .fclass d a fmt => Sys2Proof.Machine.execFclass d a fmt s
  | .fcvt o => Sys2Proof.Machine.execFcvt o s
  | .fmv d a fmt => Sys2Proof.Machine.execFmv d a fmt s
  | .bCond c a b h off => Sys2Proof.Machine.execBCond c a b h off s
  | .call a h off => Sys2Proof.Machine.execCall a h off s
  | .loop a h off => Sys2Proof.Machine.execLoop a h off s
  | .callr d a => Sys2Proof.Machine.execCallr d a s
  | .jr a => Sys2Proof.Machine.execJr a s
  | .ret a => Sys2Proof.Machine.execRet a s
  | .vadd o => Sys2Proof.Machine.execVadd o s
  | .vsub o => Sys2Proof.Machine.execVsub o s
  | .vmul o => Sys2Proof.Machine.execVmul o s
  | .vmulh o => Sys2Proof.Machine.execVmulh o s
  | .vmin o => Sys2Proof.Machine.execVmin o s
  | .vmax o => Sys2Proof.Machine.execVmax o s
  | .vabs o => Sys2Proof.Machine.execVabs o s
  | .vand o => Sys2Proof.Machine.execVand o s
  | .vor o => Sys2Proof.Machine.execVor o s
  | .vxor o => Sys2Proof.Machine.execVxor o s
  | .vandn o => Sys2Proof.Machine.execVandn o s
  | .vshl o => Sys2Proof.Machine.execVshl o s
  | .vshr o => Sys2Proof.Machine.execVshr o s
  | .vsar o => Sys2Proof.Machine.execVsar o s
  | .vfadd o => Sys2Proof.Machine.execVfadd o s
  | .vfsub o => Sys2Proof.Machine.execVfsub o s
  | .vfmul o => Sys2Proof.Machine.execVfmul o s
  | .vffma o => Sys2Proof.Machine.execVffma o s
  | .vfmin o => Sys2Proof.Machine.execVfmin o s
  | .vfmax o => Sys2Proof.Machine.execVfmax o s
  | .vfabs o => Sys2Proof.Machine.execVfabs o s
  | .vfneg o => Sys2Proof.Machine.execVfneg o s
  | .vexp2 o => Sys2Proof.Machine.execVexp2 o s
  | .vrcp o => Sys2Proof.Machine.execVrcp o s
  | .vrsq o => Sys2Proof.Machine.execVrsq o s
  | .vcmp o => Sys2Proof.Machine.execVcmp o s
  | .vfcmp o => Sys2Proof.Machine.execVfcmp o s
  | .vsel o => Sys2Proof.Machine.execVsel o s
  | .vperm o => Sys2Proof.Machine.execVperm o s
  | .vlut o => Sys2Proof.Machine.execVlut o s
  | .vsplat o => Sys2Proof.Machine.execVsplat o s
  | .vins d a ty lane => Sys2Proof.Machine.execVins d a ty lane s
  | .vext d a ty lane => Sys2Proof.Machine.execVext d a ty lane s
  | .vcvt o => Sys2Proof.Machine.execVcvt o s
  | .vdot o => Sys2Proof.Machine.execVdot o s
  | .vred o => Sys2Proof.Machine.execVred o s
  | .vscan o => Sys2Proof.Machine.execVscan o s
  | .plog op d a b => Sys2Proof.Machine.execPlog op d a b s
  | .pcnt d a ty => Sys2Proof.Machine.execPcnt d a ty s
  | .rep nm1 lm1 stride => Sys2Proof.Machine.execRep nm1 lm1 stride s
  | .ld o => Sys2Proof.Machine.execLd o s
  | .st o => Sys2Proof.Machine.execSt o s
  | .vld o => Sys2Proof.Machine.execVld o s
  | .vst o => Sys2Proof.Machine.execVst o s
  | .vgat o => Sys2Proof.Machine.execVgat o s
  | .vsca o => Sys2Proof.Machine.execVsca o s
  | .ldk d win off size sx => Sys2Proof.Machine.execLdk d win off size sx s
  | .pushm bank a b => Sys2Proof.Machine.execPushm bank a b s
  | .popm bank a b => Sys2Proof.Machine.execPopm bank a b s
  | .pref o => Sys2Proof.Machine.execPref o s
  | .cflush a b e => Sys2Proof.Machine.execCflush a b e s
  | .amoAdd o => Sys2Proof.Machine.execAmoAdd o s
  | .amoMin o => Sys2Proof.Machine.execAmoMin o s
  | .amoMax o => Sys2Proof.Machine.execAmoMax o s
  | .amoMinu o => Sys2Proof.Machine.execAmoMinu o s
  | .amoMaxu o => Sys2Proof.Machine.execAmoMaxu o s
  | .amoAnd o => Sys2Proof.Machine.execAmoAnd o s
  | .amoOr o => Sys2Proof.Machine.execAmoOr o s
  | .amoXor o => Sys2Proof.Machine.execAmoXor o s
  | .amoSwap o => Sys2Proof.Machine.execAmoSwap o s
  | .amoCas o => Sys2Proof.Machine.execAmoCas o s
  | .amoFadd o => Sys2Proof.Machine.execAmoFadd o s
  | .send o => Sys2Proof.Machine.execSend o s
  | .recv d b => Sys2Proof.Machine.execRecv d b s
  | .sqstat d => Sys2Proof.Machine.execSqstat d s
  | .dep a b t => Sys2Proof.Machine.execDep a b t s
  | .wait ld st cp tl ms => Sys2Proof.Machine.execWait ld st cp tl ms s
  | .fence sc => Sys2Proof.Machine.execFence sc s
  | .bexp n a => Sys2Proof.Machine.execBexp n a s
  | .bwait n => Sys2Proof.Machine.execBwait n s
  | .bpoll d n => Sys2Proof.Machine.execBpoll d n s
  | .cpset field a => Sys2Proof.Machine.execCpset field a s
  | .cpgo d => Sys2Proof.Machine.execCpgo d s
  | .cpst d a => Sys2Proof.Machine.execCpst d a s
  | .mcrd a b n lines => Sys2Proof.Machine.execMcrd a b n lines s
  | .tdef n a => Sys2Proof.Machine.execTdef n a s
  | .tfill t h b => Sys2Proof.Machine.execTfill t h b s
  | .tdrain t h b => Sys2Proof.Machine.execTdrain t h b s
  | .tstat d t => Sys2Proof.Machine.execTstat d t s
  | .tfree t => Sys2Proof.Machine.execTfree t s
  | .lnext d l => Sys2Proof.Machine.execLnext d l s
  | .lget d l => Sys2Proof.Machine.execLget d l s
  | .hmake d a b => Sys2Proof.Machine.execHmake d a b s
  | .hld d a => Sys2Proof.Machine.execHld d a s
  | .hst d a => Sys2Proof.Machine.execHst d a s
  | .hq d a sel => Sys2Proof.Machine.execHq d a sel s
  | .relay a b => Sys2Proof.Machine.execRelay a b s
  | .hwait a => Sys2Proof.Machine.execHwait a s
  | .ldh d a b => Sys2Proof.Machine.execLdh d a b s
  | .sth d a b => Sys2Proof.Machine.execSth d a b s
  | .vldh o => Sys2Proof.Machine.execVldh o s
  | .vsth o => Sys2Proof.Machine.execVsth o s
  | .mmat o => Sys2Proof.Machine.execMmat o s
  | .mmam o => Sys2Proof.Machine.execMmam o s
  | .mdrain a => Sys2Proof.Machine.execMdrain a s
  | .mdrainTile t => Sys2Proof.Machine.execMdrainTile t s
  | .mrow a => Sys2Proof.Machine.execMrow a s
  | .emit a half => Sys2Proof.Machine.execEmit a half s
  | .kscan d a sel => Sys2Proof.Machine.execKscan d a sel s
  | .arbrd d sel => Sys2Proof.Machine.execArbrd d sel s
  | .runq a b => Sys2Proof.Machine.execRunq a b s
  | .fork d a b e => Sys2Proof.Machine.execFork d a b e s
  | .cclaim d => Sys2Proof.Machine.execCclaim d s
  | .cload a b => Sys2Proof.Machine.execCload a b s
  | .cdrop a => Sys2Proof.Machine.execCdrop a s
  | .cdec a => Sys2Proof.Machine.execCdec a s
  | .cprop d => Sys2Proof.Machine.execCprop d s
  | .cback a => Sys2Proof.Machine.execCback a s
  | .ctrail d a => Sys2Proof.Machine.execCtrail d a s
  | .crow d a => Sys2Proof.Machine.execCrow d a s
  | .cconf d => Sys2Proof.Machine.execCconf d s
  | .getsr d sr => Sys2Proof.Machine.execGetsr d sr s
  | .putsr sr a => Sys2Proof.Machine.execPutsr sr a s
  | .trap code => Sys2Proof.Machine.execTrap code s
  | .brk code => Sys2Proof.Machine.execBrk code s
  | .tlbinv a all reach => Sys2Proof.Machine.execTlbinv a all reach s
  | .putsrTstat a => Sys2Proof.Machine.execPutsrTstat a s
  | .putsrFpmode a => Sys2Proof.Machine.execPutsrFpmode a s
  | .putsrFpflags a => Sys2Proof.Machine.execPutsrFpflags a s
  | .lsplitWrite a => Sys2Proof.Machine.execLsplitWrite a s
  | .vgroupWrite a => Sys2Proof.Machine.execVgroupWrite a s
  | .hashmaskWrite n a => Sys2Proof.Machine.execHashmaskWrite n a s
  | .bktdataWrite a => Sys2Proof.Machine.execBktdataWrite a s
  | .fwinWrite n a => Sys2Proof.Machine.execFwinWrite n a s
  | .cluflagsWrite a => Sys2Proof.Machine.execCluflagsWrite a s
  | .packflagsWrite a => Sys2Proof.Machine.execPackflagsWrite a s
  | .ptrootWrite a => Sys2Proof.Machine.execPtrootWrite a s
  | .frespServe vf fid => Sys2Proof.Machine.execFrespServe vf fid s
  | .frespRefuse vf fid => Sys2Proof.Machine.execFrespRefuse vf fid s
  | .fwcommitCommit n => Sys2Proof.Machine.execFwcommitCommit n s
  | .fwcommitKick n => Sys2Proof.Machine.execFwcommitKick n s
  | .qcbRead vf q => Sys2Proof.Machine.execQcbRead vf q s
  | .runEligible vf q => Sys2Proof.Machine.execRunEligible vf q s
  | .runRelease run => Sys2Proof.Machine.execRunRelease run s
  | .timeSliceExpiry run => Sys2Proof.Machine.execTimeSliceExpiry run s
  | .replaceRequest run => Sys2Proof.Machine.execReplaceRequest run s
  | .ruleTableSwitch run => Sys2Proof.Machine.execRuleTableSwitch run s
  | .roundTimer cluster => Sys2Proof.Machine.execRoundTimer cluster s
  | .arbitrationRound cluster => Sys2Proof.Machine.execArbitrationRound cluster s
  | .commit k => Sys2Proof.Machine.execCommit k s
  | .twinCompare k => Sys2Proof.Machine.execTwinCompare k s
  | .whistleWave run => Sys2Proof.Machine.execWhistleWave run s
  | .whistleReturn run => Sys2Proof.Machine.execWhistleReturn run s
  | .timeLimitExpiry run => Sys2Proof.Machine.execTimeLimitExpiry run s
  | .completionSignal run => Sys2Proof.Machine.execCompletionSignal run s
  | .runStopTrapped run => Sys2Proof.Machine.execRunStopTrapped run s
  | .waitTimeout t => Sys2Proof.Machine.execWaitTimeout t s
  | .leashGrant cluster => Sys2Proof.Machine.execLeashGrant cluster s
  | .messageAccept t => Sys2Proof.Machine.execMessageAccept t s
  | .handlerStart cluster core => Sys2Proof.Machine.execHandlerStart cluster core s
  | .handlerLimit cluster core => Sys2Proof.Machine.execHandlerLimit cluster core s
  | .amoApply cluster core => Sys2Proof.Machine.execAmoApply cluster core s
  | .amoReturn t => Sys2Proof.Machine.execAmoReturn t s
  | .depLand cluster core => Sys2Proof.Machine.execDepLand cluster core s
  | .mcrdRequestArrive req => Sys2Proof.Machine.execMcrdRequestArrive req s
  | .mcrdLineSend stream => Sys2Proof.Machine.execMcrdLineSend stream s
  | .mcrdBeatDeliver cluster => Sys2Proof.Machine.execMcrdBeatDeliver cluster s
  | .copySegment t id => Sys2Proof.Machine.execCopySegment t id s
  | .fillSegment cluster n => Sys2Proof.Machine.execFillSegment cluster n s
  | .drainSegment cluster n => Sys2Proof.Machine.execDrainSegment cluster n s
  | .relayoutBlock cluster map => Sys2Proof.Machine.execRelayoutBlock cluster map s
  | .sectorFillComplete pa => Sys2Proof.Machine.execSectorFillComplete pa s
  | .loadComplete t => Sys2Proof.Machine.execLoadComplete t s
  | .storePerformed t => Sys2Proof.Machine.execStorePerformed t s
  | .pageWalk cluster vf page => Sys2Proof.Machine.execPageWalk cluster vf page s
  | .faultQueueWrite vf => Sys2Proof.Machine.execFaultQueueWrite vf s
  | .firmwareWake n => Sys2Proof.Machine.execFirmwareWake n s
  | .preemptReactPack run => Sys2Proof.Machine.execPreemptReactPack run s
  | .drainLimitExpiry run => Sys2Proof.Machine.execDrainLimitExpiry run s
  | .preemptGangPack run => Sys2Proof.Machine.execPreemptGangPack run s
  | .packSave run => Sys2Proof.Machine.execPackSave run s
  | .resumePack run => Sys2Proof.Machine.execResumePack run s
  | .hret => Sys2Proof.Machine.execHret s
  | .bar => Sys2Proof.Machine.execBar s
  | .leash => Sys2Proof.Machine.execLeash s
  | .unleash => Sys2Proof.Machine.execUnleash s
  | .mzero => Sys2Proof.Machine.execMzero s
  | .done => Sys2Proof.Machine.execDone s
  | .abort => Sys2Proof.Machine.execAbort s
  | .reject => Sys2Proof.Machine.execReject s
  | .join => Sys2Proof.Machine.execJoin s
  | .cfree => Sys2Proof.Machine.execCfree s
  | .yield => Sys2Proof.Machine.execYield s
  | .halt => Sys2Proof.Machine.execHalt s
  | .sret => Sys2Proof.Machine.execSret s
  | .queueAppend => Sys2Proof.Machine.execQueueAppend s
  | .runPlace => Sys2Proof.Machine.execRunPlace s
  | .tileInsert => Sys2Proof.Machine.execTileInsert s
  | .flagPropagate => Sys2Proof.Machine.execFlagPropagate s
  | .startUp => Sys2Proof.Machine.execStartUp s
  | .afrUpdate => Sys2Proof.Machine.execAfrUpdate s
  | .watchdogExpiry => Sys2Proof.Machine.execWatchdogExpiry s
  | .trialBootExpiry => Sys2Proof.Machine.execTrialBootExpiry s
  | .diectlGo => Sys2Proof.Machine.execDiectlGo s
  | .doorbellWrite => Sys2Proof.Machine.execDoorbellWrite s
  | .qdbRead => Sys2Proof.Machine.execQdbRead s
  | .acceptWrite => Sys2Proof.Machine.execAcceptWrite s
  | .uncorrectableError => Sys2Proof.Machine.execUncorrectableError s
  | .clauseArrayEccError => Sys2Proof.Machine.execClauseArrayEccError s
  | .bufferRowPoison => Sys2Proof.Machine.execBufferRowPoison s
  | .arrayFail => Sys2Proof.Machine.execArrayFail s
  | .flitCrcFail => Sys2Proof.Machine.execFlitCrcFail s
  | .linkRetrain => Sys2Proof.Machine.execLinkRetrain s
  | .linkRetrainDone => Sys2Proof.Machine.execLinkRetrainDone s
  | .dieLost => Sys2Proof.Machine.execDieLost s
  | .warmResetComplete => Sys2Proof.Machine.execWarmResetComplete s
  | .throttle => Sys2Proof.Machine.execThrottle s
  | .throttleClear => Sys2Proof.Machine.execThrottleClear s
  | .thermalTrip => Sys2Proof.Machine.execThermalTrip s
  | .correctedError => Sys2Proof.Machine.execCorrectedError s
  | .hostCxlMemAccess => Sys2Proof.Machine.execHostCxlMemAccess s
  | .hostSnoop => Sys2Proof.Machine.execHostSnoop s
  | .spdmRequest => Sys2Proof.Machine.execSpdmRequest s
  | .foettePeerAccess => Sys2Proof.Machine.execFoettePeerAccess s
  | .boardPowerRemoved => Sys2Proof.Machine.execBoardPowerRemoved s

end Sys2Proof.Machine
end

