-- ==== Sys2Proof/Machine/Timers.lean ====
section
/-! DEFINITION. What the passage of time makes due, the choice of the next thread set (R122, R331), and the issue of its word
(R51, R66, R301, R364): what a step does, apart from its schedule. -/
namespace Sys2Proof.Machine

/-! ## What is due -/

/-- The device steps that a run has due: the whistle's next wave, at the latest 256 FCLK after the last (R46), the limits
of time, slice and drain (R48, R326, R380), and the completion of a run that has halted (R18). -/
def State.runDue (s : State) (r : Nat) (x : Run) : List Instr :=
  let running := x.phase == .running
  let react := Rec.isReact x.rec_
  (if running && react && x.waveAt + 256 ≤ s.fclk then [.whistleWave r] else []) ++
    (if (running || x.phase == .draining) && Rec.timelim x.rec_ != 0 && Rec.timelim x.rec_ ≤ x.ranBefore + (s.fclk - x.placedAt)
      then [.timeLimitExpiry r] else []) ++
    (if running && x.sliceAt + 3600000 ≤ s.fclk then [.timeSliceExpiry r] else []) ++
    (if x.phase == .draining && react && x.drainAt + 180000 ≤ s.fclk then [.drainLimitExpiry r] else []) ++
    (if running && s.gangHalted x then [.completionSignal r] else [])

/-- A kennel's round timer (R13). -/
def State.roundsDue (s : State) : List Instr :=
  (s.clusters.filter (fun c => (c.2.run.bind s.run?).any Run.holdsRounds && c.2.kennel.lastStart + 64 ≤ s.fclk)).map
    (fun c => .roundTimer c.1)

/-- The thread set with a key. -/
def TsId.ofKey (k : Nat) : TsId := ⟨k / 8 / 17, k / 8 % 17, k % 8⟩

/-- Bounded waits that have lasted their limit (R371). -/
def State.waitsDue (s : State) : List Instr :=
  (s.threads.filter (fun t => s.waitDue (TsId.ofKey t.1))).map (fun t => .waitTimeout (TsId.ofKey t.1))

/-- The queues whose control block differs from the one last accepted (R401). -/
def State.qcbsDue (s : State) : List Instr :=
  s.fns.flatMap (fun f => ((upTo 64).filter (fun q => s.qcbAt f.1 q != (s.queue f.1 q).qcb)).map (fun q => .qcbRead f.1 q))

/-- What comes once in every 1,800 FCLK (R332, R401), and the dispatcher's look at its queues. -/
def State.periodic (s : State) : List Instr :=
  if s.fclk / 1800 ≠ s.period then
    [.afrUpdate] ++ s.qcbsDue ++ s.fns.flatMap (fun f => f.2.queues.map (fun q => .runEligible f.1 q.1)) ++ [.runPlace]
  else []

/-- Every device step that time has made due. -/
def State.due (s : State) : List Instr :=
  s.roundsDue ++ s.runs.flatMap (fun r => s.runDue r.1 r.2) ++ s.waitsDue ++
    (if firmwareCores.any s.watchdogDue then [.watchdogExpiry] else []) ++
    (if firmwareCores.any s.trialDue then [.trialBootExpiry] else []) ++ s.periodic

/-- They are put on the work list, while the device is up. -/
def State.postDue (s : State) : State :=
  if s.hub.started then { s.due.foldl State.postOnce s with period := s.fclk / 1800 } else s

/-! ## The choice of a thread set (R122, R331) -/

/-- Whether a thread set may be offered its core's slot: on a fenced core, only a handler of a pack that is being stopped
(R392). Whether its next word can issue shows when it is tried. -/
def State.isReady (s : State) (t : TsId) : Bool :=
  (s.thread t).status == .ready && (isFirmware t || !(s.core t.cluster t.core).fenced ||
    (t.set == 4 && ((s.thread t).run.bind s.run?).any (fun x => x.phase != .running)))

/-- The user sets of a core in cyclic order after the one that issued last (R331). -/
def State.cyclic (s : State) (c k : Nat) : List TsId := (upTo 4).map (fun i => ⟨c, k, ((s.core c k).lastSet + 1 + i) % 4⟩)

/-- A set that has ended its turn by `yield` while another ready user set of the core has not been offered a slot since
(R122). -/
def State.yielding (s : State) (t : TsId) : Bool :=
  ((s.core t.cluster t.core).yielded.find? (fun y => y.1 == t.set)).any (fun y =>
    (upTo 4).any (fun j => j != t.set && s.isReady ⟨t.cluster, t.core, j⟩ && !y.2.contains j))

/-- The thread sets to which a core's slot is offered, in order, until the next word of one can issue (R331): H, then the user
sets; those that have yielded come after the others (R122). -/
def State.candidates (s : State) (c k : Nat) : List TsId :=
  if c = fwNode then [(⟨c, k, 0⟩ : TsId)].filter s.isReady
  else
    let users := (s.cyclic c k).filter s.isReady
    [handSet c k].filter s.isReady ++ users.filter (fun t => !s.yielding t) ++ users.filter s.yielding

/-- The cores, by number, that have a thread set to offer their slot to. -/
def State.readyCores (s : State) : List Nat :=
  ((s.threads.filter (fun t => s.isReady (TsId.ofKey t.1))).map (fun t => t.1 / 8)).eraseDups

/-- The next core to take its slot after the one that took one last, in ascending order and wrapping. -/
def State.nextCore (s : State) : Option Nat :=
  match s.readyCores.find? (fun k => s.lastIssued < k) with
  | some k => some k
  | none => s.readyCores.head?

/-- A user set is offered its core's slot (R122). -/
def CoreUnit.offered (u : CoreUnit) (set : Nat) : CoreUnit :=
  { u with yielded := u.yielded.map (fun y => if y.1 = set ∨ y.2.contains set then y else (y.1, y.2 ++ [set])) }

/-- A user set takes its core's slot (R122, R331). -/
def CoreUnit.chosen (u : CoreUnit) (set : Nat) : CoreUnit :=
  { u.offered set with lastSet := set, yielded := (u.offered set).yielded.filter (fun y => y.1 != set) }

/-- A thread set takes its core's slot; the first one of an image on trial starts its two seconds (R404). -/
def State.issued (s : State) (t : TsId) : State :=
  if isFirmware t then
    s.updFn t.core (fun f => if f.trial && f.trialSince.isNone then { f with trialSince := some s.fclk } else f)
  else if t.set == 4 then s
  else s.updCore t.cluster t.core (fun u => u.chosen t.set)

/-- The next word of a thread set cannot issue now: it waits, or sleeps on a fault, and nothing of the thread set has moved. -/
def State.stalled (before after : State) (t : TsId) : Bool :=
  let a := before.thread t
  let b := after.thread t
  b.count == a.count && b.pc == a.pc && b.intrap == a.intrap && b.act == a.act && (b.status == .ready || b.status == .asleep)

/-- The slot passes on: the set has been offered it and has not taken it. -/
def State.passed (before after : State) (t : TsId) : State :=
  if t.set == 4 then after
  else after.updCore t.cluster t.core (fun u =>
    let old := (before.core t.cluster t.core).offered t.set
    { u with lastSet := old.lastSet, yielded := old.yielded })

/-! ## Issue (R51, R66, R364) -/

/-- The outcome of a step with its next state changed. -/
def mapNext (f : State → State) : Host.Outcome State Fault Refusal → Host.Outcome State Fault Refusal
  | .next s => .next (f s)
  | .fault e => .fault e
  | .refused e => .refused e

/-- A decoded word runs; one that does not decode traps (R66). -/
def runDecoded (d : Except DecodeTrap Instr) (s : State) : Host.Outcome State Fault Refusal :=
  match d with
  | .ok i => exec i s
  | .error e => s.takeTrap (DecodeTrap.cause e) e.tval

/-- The issuing thread set's next word is fetched, decoded and run. -/
def State.runWord (s : State) : Host.Outcome State Fault Refusal :=
  match nextWordM s with
  | .ok (w, s) => runDecoded (decodeWord w) s
  | .error e => M.outcome (fun _ => .error e) s

/-- A handler that has executed its 4,096 words is rolled back (R364). -/
def State.handlerSpent (s : State) (t : TsId) : Bool := (s.thread t).ctx == .hand && 4096 ≤ (s.thread t).count

/-- The word of a thread set that takes its core's slot. -/
def State.issueOne (s : State) (t : TsId) : Host.Outcome State Fault Refusal :=
  let s := { s.issued t with cur := t }
  match s.handlerSpent t, s.me.act with
  | true, some k => .next (s.rollHandler t k causeHandlerLimit 0)
  | _, _ => mapNext (fun s => s.restop t) s.runWord

/-- A core's slot goes to the first of the thread sets given whose next word can issue (R331). A firmware core is alone. -/
def State.offer (s : State) : List TsId → Host.Outcome State Fault Refusal
  | [] => .next s
  | t :: ts =>
    match s.issueOne t with
    | .next u => if !isFirmware t && s.stalled u t then (s.passed u t).offer ts else .next u
    | .fault e => .fault e
    | .refused e => .refused e

/-- A core takes its issue slot. -/
def State.issueAt (s : State) (c k : Nat) : Host.Outcome State Fault Refusal :=
  { s with lastIssued := TsId.key ⟨c, k, 0⟩ / 8 }.offer (s.candidates c k)

/-- The next core with a thread set to issue takes its slot. -/
def State.issueNext (s : State) : Host.Outcome State Fault Refusal :=
  match s.nextCore with
  | some k => s.issueAt (k / 17) (k % 17)
  | none => .next s

/-! ## Device steps and inputs -/

/-- The oldest device step on the work list. -/
def State.runPending (s : State) : Host.Outcome State Fault Refusal :=
  match s.pending with
  | [] => .next s
  | i :: rest => exec i { s with pending := rest }

/-- An input from outside, or a device step, that the schedule names. -/
def State.runEvent (s : State) (i : Instr) (x : Input) : Host.Outcome State Fault Refusal :=
  mapNext (fun s => { s with input := .none }) (exec i { s with input := x })

/-- The default schedule: the work list, the thread sets, what time makes due, the thread sets. -/
def State.runTurn (s : State) : Host.Outcome State Fault Refusal :=
  let s1 := { s with turn := s.turn + 1 }
  match s.turn % 4 with
  | 0 => s1.runPending
  | 2 => .next s1.postDue
  | _ => s1.issueNext

/-- What the schedule names for a step. -/
def State.runAgenda (s : State) (t : Turn) : Host.Outcome State Fault Refusal :=
  match t with
  | .issue t => s.issueAt t.cluster t.core
  | .event i x => s.runEvent i x
  | .outside o => .next (s.runOutside o)
  | .tick n => .next { s with fclk := s.fclk + n }

end Sys2Proof.Machine
end

