-- ==== Sys2Proof/Machine/Step.lean ====
section
/-! DEFINITION. One step of the device: an FCLK passes, and the next thing in the schedule happens (assumption 7). -/
namespace Sys2Proof.Machine

/-- The state with a word stored where the next step fetches its instruction (assumption 6); every word has 64 bits. -/
def State.withFetchWord (s : State) (_nbits w : Nat) : State := s.placeWord (BitVec.ofNat 64 w)

/-- One step. -/
def step (s : State) : Host.Outcome State Fault Refusal :=
  let s := { s with fclk := s.fclk + 1 }
  match s.agenda with
  | t :: rest => { s with agenda := rest }.runAgenda t
  | [] => s.runTurn

end Sys2Proof.Machine
end

