-- ==== Sys2Proof/Safety.lean ====
section
/-! DEFINITION. The terms of the statements: the value of an operand, a word that completes with a result, and what a word
leaves as it was. -/
namespace Sys2Proof.Machine

/-! ## Operands -/

/-- These registers can be read: no atomic has yet to write one of them (R358), and no failed one waits to be reported by
such a read (R359). -/
def State.readable (s : State) (rs : List XReg) : Prop :=
  ∀ r ∈ rs, s.me.awaiting r = false ∧ ∀ p ∈ s.me.pend, p.reg ≠ some r

/-- The x registers that a B operand reads. -/
def regsOf : BSrc → List XReg
  | .reg r => [r]
  | .cw _ _ => []

/-- The value of a B operand (R54, R97): a register, or a constant-window word sign-extended; none where its window does not
hold that word, or the line of the constant cache that does is poisoned (R386). -/
def State.bValue (s : State) : BSrc → Option Word
  | .reg r => some (s.me.getX r)
  | .cw win off =>
    match s.cwin win with
    | some bs => if 4 * off.toNat + 4 ≤ bs.length ∧ s.cwinBad win (4 * off.toNat) 4 = false then
        some (sxWord 32 (leNat ((bs.drop (4 * off.toNat)).take 4)))
      else none
    | none => none

/-! ## Completion -/

/-- The issuing thread set changed, and its word completed. -/
def State.completed (s : State) (f : Thread → Thread) : State := (s.updMe f).advance

/-- An x register written, and the word completed. -/
def State.wroteX (s : State) (d : XReg) (v : Word) : State := s.completed (·.setX d v)

/-- An x register written, flags raised, and the word completed. -/
def State.wroteXF (s : State) (d : XReg) (v : Word) (f : Flags) : State := ((s.updMe (·.setX d v)).flags f).advance

/-! ## Vector lanes (R284) -/

/-- A v register written, flags raised, and the word completed. -/
def State.wroteV (s : State) (d : VReg) (v : VWord) (f : Flags) : State := ((s.updMe (·.setV d v)).flags f).advance

/-- A p register written, flags raised, and the word completed. -/
def State.wroteP (s : State) (d : PReg) (v : Word) (f : Flags) : State := ((s.updMe (·.setP d v)).flags f).advance

/-- A register's lanes of n bytes: the result in the enabled ones, the old value in the others. -/
def LanesAre (v old : VWord) (p : Word) (n : Nat) (r : Nat → Nat) : Prop :=
  ∀ j, j < 64 / n → v.lane n j = if p.getLsbD (j * n) then r j % 2 ^ (8 * n) else old.lane n j

/-- The OR of the flags of the enabled lanes. -/
def laneOr (p : Word) (n : Nat) (f : Nat → Flags) : Flags :=
  (List.range (64 / n)).foldl (fun acc j => if p.getLsbD (j * n) then acc ||| f j else acc) 0

/-! ## Units of the cluster -/

/-- A tile operand names an entry whose tile is READY: directly, or as the slot of a litter that holds the sequence (R256,
R259). -/
def State.TileReady (s : State) (o : TileOpd) (n : TileIx) : Prop :=
  (s.tile s.cur.cluster n).state = .ready ∧
  match o with
  | .tile m => m = n
  | .lit l x => s.readable [x] ∧ s.litEntry s.cur.cluster l ((s.me.getX x).setWidth 32) = some n ∧
      (s.tile s.cur.cluster n).seq = (s.me.getX x).setWidth 32

/-- The issuing thread set, a rank of a GANG, holds the leash of an array that works, within the bounds of its grant
(R310), and no error of the array or its buffers waits for it (R316). -/
structure State.HoldsLeash (s : State) : Prop where
  gang : s.isGang = true
  up : s.arrayDown s.cur.cluster = false
  holder : s.isHolder s.cur = true
  count : s.myCluster.array.grantCount < 64
  time : s.fclk < s.myCluster.array.grantStart + 24576
  noError : s.me.chain.blockErr = false
  noPoison : s.myCluster.badRows = []

/-- The cells of the block of the issuing thread set's chain: those of the array while it is LIVE, those of its park slot
while it is PARKED, else zeros (R308, R313). -/
def State.chainCell (s : State) (n : Nat) : BitVec 32 :=
  match s.me.chain.state with
  | .live => (s.myCluster.array.block[n]?).getD 0
  | .parked => BitVec.ofNat 32 (leNat (ByteMap.reads s.myCluster.cbuf (2048 * (4 * s.cur.core + s.cur.set) + 4 * n) 4))
  | .none => 0

/-- The issuing thread set holds the cluster's clause array (R151), with no error to report. -/
structure State.HoldsClauses (s : State) (c : ClauseArray) : Prop where
  context : s.clauseContext = true
  unit : s.myClause = ⟨c, some s.clauseSelf, true, false⟩

/-- The cluster's clause array changed. -/
def State.setClauses (s : State) (c : ClauseArray) : State :=
  s.updClause s.clauseHome (fun u => { u with arr := c })

/-- A thread set of a run whose traps go to its vector (R367, R368). -/
structure State.Vectored (s : State) (x : Run) : Prop where
  onCluster : isFirmware s.cur = false
  inRun : s.myRun? = some x
  untrapped : s.me.intrap = false
  vector : Rec.trapvec x.rec_ ≠ 0

/-- A thread set of a run on a cluster. -/
structure State.InRun (s : State) (x : Run) : Prop where
  onCluster : isFirmware s.cur = false
  inRun : s.myRun? = some x

/-! ## Where an access goes -/

/-- An access of a thread set of a cluster to global memory that passes checks 1, 2 and 4 of R206: its page stands in the
core's translation cache, aligned as every walk finds pages (R372), with the permission needed, and leads to a physical
address of a place. -/
structure State.Leads (s : State) (need : Need) (va : Word) (size pa : Nat) (q : Place) : Prop where
  onCluster : isFirmware s.cur = false
  space : va.toNat < 2 ^ 49
  aligned : va.toNat % size = 0
  global : inScratch va.toNat = false
  unrefused : s.me.refused ≠ some (va >>> 16)
  page : ∃ e, tlbFind (s.vfOf s.cur) va.toNat s.myCore.tlb = some e ∧ 16 ≤ e.bits ∧ e.pa % 2 ^ e.bits = 0 ∧
    e.permits need = true ∧ e.phys va.toNat = pa
  place : s.place pa = .ok q
  up : q = .dram → s.homeDown (s.vfOf s.cur) pa = false

/-- An aligned access to the scratch of the issuing thread set's core, at an offset (R165, R206 check 3). -/
structure State.InScratch (s : State) (va : Word) (size off : Nat) : Prop where
  onCluster : isFirmware s.cur = false
  address : va.toNat = scratchBase + off
  aligned : off % size = 0
  inside : off < s.myCore.scratchSize
  window : s.myCore.scratchSize ≤ 0x40000

/-- An aligned access of a firmware core to its own SRAM (assumption 12). -/
structure State.InSram (s : State) (va : Word) (size : Nat) : Prop where
  onFirmware : isFirmware s.cur = true
  inside : va.toNat < 0x100000
  aligned : va.toNat % size = 0

/-- An aligned access of a firmware core to device memory by its physical address (assumption 12). -/
structure State.InDram (s : State) (va : Word) (size : Nat) : Prop where
  onFirmware : isFirmware s.cur = true
  space : 0x100000 ≤ va.toNat ∧ va.toNat < 2 ^ 52
  aligned : va.toNat % size = 0
  place : s.place va.toNat = .ok .dram
  up : s.homeDown s.cur.core va.toNat = false

/-- An aligned access of a firmware core to a function's control region, at an offset (R398; assumptions 12 and 95). -/
structure State.InRegion (s : State) (va : Word) (size vf off : Nat) : Prop where
  onFirmware : isFirmware s.cur = true
  space : 0x100000 ≤ va.toNat ∧ va.toNat < 2 ^ 52
  aligned : va.toNat % size = 0
  region : regionOf va.toNat = some (vf, off)

/-- No private or victim copy serves a load of a line (R181). -/
def State.NoCopy (s : State) (pa : Nat) : Prop := s.myCore.privCap = 0 ∨ s.privHit s.cur (pa / 256) = none

/-- The line of a device address is free of relayout engines (R349) and finds a way in its set, where one must be written
back for it without a change to any byte (R184; `WriteBackKeepsBytes` says when that is so). -/
def State.FindsWay (s : State) (vf pa : Nat) : Prop :=
  s.lineHeld (pa / 256) = false ∧ ∃ t, s.room vf pa = some t ∧ ∀ a, t.byteAt a = s.byteAt a

/-- A load of n bytes, of which `en` are read, completes and returns them: from the core's scratch; from device, host or peer
memory, or a copy of the line, the activation's own data first; from a firmware core's SRAM, device memory or a control
region. No atomic that the thread set has issued is still to be applied (R342, entry 106), but to scratch and SRAM. -/
inductive State.LoadsBytes (s : State) (va : Word) (n : Nat) (en : Nat → Bool) : List Byte → Prop where
  | scratch (off : Nat) : s.InScratch va n off → (∀ i, i < n → en i = true → NMap.get s.myCore.poison ((off + i) / 8) 0 = 0) →
      LoadsBytes s va n en (ByteMap.reads s.myCore.scratch off n)
  | device (pa : Nat) : s.Leads .r va n pa .dram → s.me.cnt.ld < 63 → s.amoOpen s.cur = false →
      s.readsPoison (ownData s.myAct? .dram) pa n en = false → s.NoCopy pa → s.FindsWay (s.vfOf s.cur) pa →
      LoadsBytes s va n en ((List.range n).map (fun i =>
        ((s.myAct?.bind (fun a => overlayFind a.tent (pa + i))).getD (s.byteAt (pa + i)))))
  | remote (pa : Nat) (q : Place) : s.Leads .r va n pa q → q ≠ .dram → s.me.cnt.ld < 63 → s.amoOpen s.cur = false → s.NoCopy pa →
      LoadsBytes s va n en (overlaid (ownData s.myAct? q) pa (s.placeBytes q pa n))
  | copy (pa : Nat) (q : Place) (j : Nat) (p : PrivLine) : s.Leads .r va n pa q → s.me.cnt.ld < 63 →
      s.amoOpen s.cur = false → s.myCore.privCap ≠ 0 → s.privHit s.cur (pa / 256) = some (j, p) →
      p.readsPoison (ownData s.myAct? q) pa n en = false →
      LoadsBytes s va n en (overlaid (ownData s.myAct? q) pa ((p.bytes.drop (pa % 256)).take n))
  | sram : s.InSram va n → LoadsBytes s va n en (ByteMap.reads (s.fn s.cur.core).sram va.toNat n)
  | firmware : s.InDram va n → s.me.cnt.ld < 63 → (∀ i, i < n → en i = true → s.poisonAt (va.toNat + i) 1 = false) →
      s.amoOpen s.cur = false → s.NoCopy va.toNat → s.FindsWay s.cur.core va.toNat → s.me.act = none → LoadsBytes s va n en (s.bytesAt va.toNat n)
  | region (vf off : Nat) : s.InRegion va n vf off → LoadsBytes s va n en (s.regionRead vf off n).2

/-- All bytes of an access. -/
def allBytes : Nat → Bool := fun _ => true

/-- Where a store's bytes go: the core's scratch; device memory directly, or tentatively for an activation or handler; host
or peer memory; a firmware core's SRAM; a table of a function, which stands in the SRAM of its firmware core (R399). -/
inductive StoreSite where
  | scratch (off : Nat)
  | direct (pa : Nat)
  | tentative (k : ActKey) (pa : Nat)
  | remote (q : Place) (pa : Nat)
  | sram (off : Nat)
  | table (vf off : Nat)

/-- Conditions on the state alone under which a store of n bytes to an address completes at a site (R205, R206, R38 to
R40). No atomic that the thread set has issued is still to be applied (R342, entry 106), but to scratch and SRAM. -/
inductive State.StoresAt (s : State) (va : Word) (n : Nat) : StoreSite → Prop where
  | scratch (off : Nat) : s.InScratch va n off → StoresAt s va n (.scratch off)
  | direct (pa : Nat) : s.Leads .w va n pa .dram → s.me.cnt.st < 63 → s.amoOpen s.cur = false → s.me.act = none →
      s.FindsWay (s.vfOf s.cur) pa → StoresAt s va n (.direct pa)
  | privateRange (k : ActKey) (a : Act) (x : Run) (pa : Nat) : s.Leads .w va n pa .dram → s.me.cnt.st < 63 →
      s.amoOpen s.cur = false → s.me.act = some k → k.twin = 0 → s.act? k = some a → a.partner = none → s.myRun? = some x →
      (∀ i, i < n → x.inPrivateRange (va.toNat + i) = true) → s.FindsWay (s.vfOf s.cur) pa →
      StoresAt s va n (.direct pa)
  | tentative (k : ActKey) (a : Act) (x : Run) (pa : Nat) : s.Leads .w va n pa .dram → s.me.cnt.st < 63 →
      s.amoOpen s.cur = false → s.me.act = some k → s.act? k = some a → s.myRun? = some x → (∀ i, i < n → x.inPrivateRange (va.toNat + i) = false) →
      s.lineHeld (pa / 256) = false →
      (pa / 256 ∈ a.lines ∨ (pa / 256 ∉ a.footLines ∧ a.footLines.length < a.rule.foot ∧ s.otherHolders k (pa / 256) < 4 ∧
        ∃ t, s.room (s.vfOf s.cur) pa = some t ∧ ∀ b, (t.writeBack (pa / 256)).byteAt b = s.byteAt b)) →
      StoresAt s va n (.tentative k pa)
  | remote (pa : Nat) (q : Place) : s.Leads .w va n pa q → q ≠ .dram → s.me.cnt.st < 63 → s.amoOpen s.cur = false →
      s.me.act = none → StoresAt s va n (.remote q pa)
  | sram : s.InSram va n → StoresAt s va n (.sram va.toNat)
  | firmware : s.InDram va n → s.me.cnt.st < 63 → s.amoOpen s.cur = false → s.me.act = none → s.FindsWay s.cur.core va.toNat →
      StoresAt s va n (.direct va.toNat)
  | table (vf off a : Nat) : s.InRegion va n vf off →
      (off / 0x1000 = 1 ∧ a = sramQcbs + off % 0x1000 ∨ off / 0x1000 = 3 ∧ a = sramImages + off % 0x1000) →
      StoresAt s va n (.table vf a)

/-- A store of host or peer memory, seen as a byte store. -/
def Hub.remoteMem (h : Hub) : Place → ByteMap
  | .host => h.hostMem
  | .peer => h.peerMem
  | .dram => []

/-- The byte at a site's index i, as the storing thread set reads it back. -/
def State.siteByte (s : State) (w : StoreSite) (i : Nat) : Byte :=
  match w with
  | .scratch off => ByteMap.read s.myCore.scratch (off + i)
  | .direct pa => s.byteAt (pa + i)
  | .tentative k pa => ((s.act? k).bind (fun a => overlayFind a.tent (pa + i))).getD (s.byteAt (pa + i))
  | .remote q pa => ByteMap.read (s.hub.remoteMem q) ((if q = .host then hostAddr pa else peerAddr pa) + i)
  | .sram off => ByteMap.read (s.fn s.cur.core).sram (off + i)
  | .table vf off => ByteMap.read (s.fn vf).sram (off + i)

/-- Every byte of memory but those of the ranges given reads as before: device memory as committed, every scratch, every
SRAM, host and peer memory. -/
structure State.SameMemory (s t : State) (w : StoreSite) (n : Nat) : Prop where
  device : ∀ a, (∀ pa, w = .direct pa → a < pa ∨ pa + n ≤ a) → t.byteAt a = s.byteAt a
  scratch : ∀ c k a, (∀ off, w = .scratch off → coreKey c k = coreKey s.cur.cluster s.cur.core → a < off ∨ off + n ≤ a) →
    ByteMap.read (t.core c k).scratch a = ByteMap.read (s.core c k).scratch a
  sram : ∀ f a, (∀ off, w = .sram off → f = s.cur.core → a < off ∨ off + n ≤ a) →
    (∀ off, w = .table f off → a < off ∨ off + n ≤ a) →
    ByteMap.read (t.fn f).sram a = ByteMap.read (s.fn f).sram a
  remote : ∀ q a, (∀ pa, w = .remote q pa → a < (if q = .host then hostAddr pa else peerAddr pa) ∨
      (if q = .host then hostAddr pa else peerAddr pa) + n ≤ a) →
    ByteMap.read (t.hub.remoteMem q) a = ByteMap.read (s.hub.remoteMem q) a

/-- A site with no byte: all of memory reads as before. -/
def StoreSite.nowhere : StoreSite := .sram 0

/-- The registers of the issuing thread set, apart from its pc, its counts and what a statement names. -/
structure Thread.SameRegs (t u : Thread) : Prop where
  x : u.x = t.x
  v : u.v = t.v
  p : u.p = t.p
  h : u.h = t.h
  special : u.tcause = t.tcause ∧ u.tpc = t.tpc ∧ u.tval = t.tval ∧ u.mode = t.mode ∧ u.pmode = t.pmode ∧ u.intrap = t.intrap ∧
    u.ctx = t.ctx ∧ u.fpmode = t.fpmode ∧ u.spillsp = t.spillsp ∧ u.spillbase = t.spillbase ∧ u.spilllim = t.spilllim ∧
    u.waitlim = t.waitlim ∧ u.actid = t.actid ∧ u.rank = t.rank ∧ u.run = t.run ∧ u.act = t.act ∧ u.shadow = t.shadow ∧
    u.chain = t.chain ∧ u.status = t.status
  fpflags : u.fpflags = t.fpflags

/-! ## Engines (R223, R226) -/

/-- Where an engine's access leads, when its checks pass: to the scratch of the core it works for, through a page of its
own translation cache to a place, or, for the front end, through a walk of the tables. -/
inductive State.EngineAt (s : State) (e : EngineFor) (need : Need) (va : Word) : Spot → Prop where
  | scratch (c k off : Nat) : e.core = some (c, k) → va.toNat = scratchBase + off → off < (s.core c k).scratchSize →
      (s.core c k).scratchSize ≤ 0x40000 → EngineAt s e need va (.scratch off)
  | page (pa : Nat) (q : Place) : va.toNat < 2 ^ 49 → inScratch va.toNat = false →
      (∃ t, tlbFind e.vf va.toNat (s.pipeTlb e.pipe) = some t ∧ 16 ≤ t.bits ∧ t.pa % 2 ^ t.bits = 0 ∧
        t.permits need = true ∧ t.phys va.toNat = pa) →
      s.place pa = .ok q → (q = .dram → s.homeDown e.vf pa = false) → EngineAt s e need va (.phys q pa)
  | walk (t : TlbEntry) (pa : Nat) (q : Place) : e.pipe = .none → va.toNat < 2 ^ 49 → inScratch va.toNat = false →
      s.missOf fwNode e.vf (va.toNat / 2 ^ 16) = none → s.walk e.vf va.toNat = .present t → t.permits need = true →
      t.phys va.toNat = pa → s.place pa = .ok q → (q = .dram → s.homeDown e.vf pa = false) →
      EngineAt s e need va (.phys q pa)

/-- An engine reads a range, line by line, without an error, gets these bytes, and leaves the slices as in the last state:
each line finds its way without a change to any byte. -/
inductive State.EngineReads : State → EngineFor → Nat → Nat → List Byte → State → Prop where
  | nothing (s : State) (e : EngineFor) (va : Nat) : EngineReads s e va 0 [] s
  | line (s u t : State) (e : EngineFor) (va n : Nat) (p : Spot) (rest : List Byte) : 0 < n →
      s.EngineAt e .r (BitVec.ofNat 64 va) p → s.spotPoison e p (min n (256 - va % 256)) = false →
      s.pullSpot e p (min n (256 - va % 256)) = some u → (∀ a, u.byteAt a = s.byteAt a) →
      EngineReads u e (va + min n (256 - va % 256)) (n - min n (256 - va % 256)) rest t →
      EngineReads s e va n (u.spotBytes e p (min n (256 - va % 256)) ++ rest) t

/-- The front end reads an image, the first 4 KiB of its text from each entry of a list that lies in it, without an error, and
leaves the slices as in the last state (R328). -/
inductive State.ImageReads : State → Nat → Img → List Nat → State → Prop where
  | nothing (s : State) (vf : Nat) (img : Img) : ImageReads s vf img [] s
  | outside (s t : State) (vf : Nat) (img : Img) (a : Nat) (rest : List Nat) : Img.inText img a = false →
      ImageReads s vf img rest t → ImageReads s vf img (a :: rest) t
  | entry (s u t : State) (vf : Nat) (img : Img) (a : Nat) (rest : List Nat) (bs : List Byte) : Img.inText img a = true →
      EngineReads s (frontEnd vf) a (min 4096 (Img.text img + Img.textLen img - a)) bs u → ImageReads u vf img rest t →
      ImageReads s vf img (a :: rest) t

/-- An engine that works for no activation can write a line: to scratch, to host or peer memory, or to device memory whose
line is free and finds a way. -/
def State.EngineWrites (s : State) (e : EngineFor) (va : Word) (p : Spot) : Prop :=
  e.act = none ∧ s.EngineAt e .w va p ∧ ∀ pa, p = .phys .dram pa → s.FindsWay e.vf pa

/-- An engine reads the n bytes at an address, of one line, from a home that holds the line already, or from scratch, and gets
these bytes, whatever other such lines it reads before. -/
def State.EngineHas (s : State) (e : EngineFor) (va : Word) (n : Nat) (bs : List Byte) : Prop :=
  ∃ p, s.EngineAt e .r va p ∧ s.spotPoison e p n = false ∧ s.spotBytes e p n = bs ∧
    ∀ pa, p = .phys .dram pa → s.lineHeld (pa / 256) = false ∧ (NMap.find? s.lines (pa / 256)).isSome = true

/-- A spot as the site of a store. -/
def Spot.site : Spot → StoreSite
  | .scratch off => .scratch off
  | .sram off => .sram off
  | .region vf off => .table vf off
  | .phys .dram pa => .direct pa
  | .phys q pa => .remote q pa

/-- A tile operand that names an entry, whatever its state (R253, R256). -/
def State.TileNamed (s : State) (o : TileOpd) (n : TileIx) : Prop :=
  match o with
  | .tile m => m = n
  | .lit l x => s.readable [x] ∧ s.litEntry s.cur.cluster l ((s.me.getX x).setWidth 32) = some n

/-- The conditions of a fill's or drain's box: a valid record, coordinates within its rank, and rows that the entry holds
(R258). -/
structure State.BoxFits (s : State) (h : HWord) (w : Word) (n : TileIx) : Prop where
  live : h ≠ 0
  valid : h.validate = none
  coords : h.coordsOk (unpackCoords w) = true
  rowBytes : boxDim h 0 * h.esize ≤ tdRowBytes (s.desc n)
  rows : boxDim h 1 * boxDim h 2 * boxDim h 3 ≤ tdRows (s.desc n)

/-! ## Fetching and activations -/

/-- A fetch of a thread set of a cluster reads a word: its page stands in the core's translation cache, with X, its memory
answers (R51, R68), and its line stands in its slice already, or is read there, which leads to the state given (R184). -/
def State.FetchesAt (s : State) (va w : Word) (t : State) : Prop :=
  ∃ pa q, s.Leads .x va 8 pa q ∧ (q = .dram → s.poisonAt pa 8 = false ∧ s.lineHeld (pa / 256) = false) ∧
    s.pullPlace q (s.vfOf s.cur) pa 8 false = some t ∧ w = BitVec.ofNat 64 (leNat (t.placeBytes q pa 8))

/-- The front end can write one line of a function's memory. -/
def State.FrontWrites (s : State) (vf : Nat) (va : Word) (n : Nat) (p : Spot) : Prop :=
  va.toNat % 256 + n ≤ 256 ∧ s.EngineWrites (frontEnd vf) va p

/-- A range of a function's memory stands in host memory from a physical address on, and the front end may access it,
whatever host memory holds. -/
def State.HostRange (s : State) (vf : Nat) (need : Need) (va n pa : Nat) : Prop :=
  pa % 2 ^ 51 + n ≤ 2 ^ 51 ∧ ∀ i, i < n → ∀ m, State.EngineAt { s with hub := { s.hub with hostMem := m } } (frontEnd vf) need
    (BitVec.ofNat 64 (va + i)) (.phys .host (pa + i))

/-- The issuing thread set works for an activation, as the activation itself or as a helper (R126). -/
structure State.InBody (s : State) (k : ActKey) (a : Act) : Prop where
  onCluster : isFirmware s.cur = false
  context : s.me.ctx = .act ∨ s.me.ctx = .helper
  key : s.me.act = some k
  record : s.act? k = some a

/-- The issuing thread set works for an activation, or is the handler of a REACT run (R126). -/
structure State.InReaction (s : State) (k : ActKey) (a : Act) : Prop where
  onCluster : isFirmware s.cur = false
  context : s.me.ctx = .act ∨ s.me.ctx = .helper ∨ (s.me.ctx = .hand ∧ s.handlerReact = true)
  key : s.me.act = some k
  record : s.act? k = some a

end Sys2Proof.Machine
end

