-- ==== Sys2Proof/Certificates/Slice0/Obligations.lean ====
section
/-! DEFINITION. The statements for the provers. -/
open Sys2Proof Sys2Proof.Machine

/-- R97, R98, R102: the two-operand forms of OP 0x01 and 0x04, apart from add, sub and the divisions, on a register or a
constant-window B, at 64 bits or, with `.w`, at 32 bits with the result sign-extended. -/
def Obligations.ScalarBinaryResult : Prop :=
  ∀ p ∈ ([
      (.and, fun _ x y => x &&& y), (.or, fun _ x y => x ||| y), (.xor, fun _ x y => x ^^^ y),
      (.andn, fun _ x y => x &&& ~~~y), (.orn, fun _ x y => x ||| ~~~y),
      (.shl, fun w x y => x <<< (y.toNat % w)), (.shr, fun w x y => x >>> (y.toNat % w)),
      (.sar, fun w x y => x.sshiftRight (y.toNat % w)),
      (.rol, fun w x y => (x <<< (y.toNat % w)) ||| (x >>> (w - y.toNat % w))),
      (.min, fun w x y => BitVec.ofInt w (Min.min x.toInt y.toInt)), (.max, fun w x y => BitVec.ofInt w (Max.max x.toInt y.toInt)),
      (.minu, fun w x y => BitVec.ofNat w (Min.min x.toNat y.toNat)), (.maxu, fun w x y => BitVec.ofNat w (Max.max x.toNat y.toNat)),
      (.slt, fun _ x y => if x.toInt < y.toInt then 1 else 0), (.sltu, fun _ x y => if x.toNat < y.toNat then 1 else 0),
      (.seq, fun _ x y => if x = y then 1 else 0), (.sne, fun _ x y => if x ≠ y then 1 else 0),
      (.mul, fun w x y => BitVec.ofInt w (x.toInt * y.toInt)),
      (.mulh, fun w x y => BitVec.ofInt w ((x.toInt * y.toInt) / 2 ^ w)),
      (.mulhu, fun w x y => BitVec.ofNat w (x.toNat * y.toNat / 2 ^ w))] :
      List ((ScalarRR → Instr) × ((w : Nat) → BitVec w → BitVec w → BitVec w))),
  ∀ (o : ScalarRR) (s : State) (y : Word), s.readable (o.a :: regsOf o.b) → s.bValue o.b = some y →
    exec (p.1 o) s = .next (s.wroteX o.d
      (if o.w32 then (p.2 32 ((s.me.getX o.a).setWidth 32) (y.setWidth 32)).signExtend 64 else p.2 64 (s.me.getX o.a) y))

/-- R97 to R99: the immediate forms of OP 0x02, with SignExtend(IMM32) as B; the immediate shifts count by IMM32. -/
def Obligations.ScalarImmediateResult : Prop :=
  (∀ p ∈ ([
      (.addImm, fun _ x y => x + y), (.subImm, fun _ x y => x - y),
      (.andImm, fun _ x y => x &&& y), (.orImm, fun _ x y => x ||| y), (.xorImm, fun _ x y => x ^^^ y),
      (.andnImm, fun _ x y => x &&& ~~~y), (.ornImm, fun _ x y => x ||| ~~~y),
      (.minImm, fun w x y => BitVec.ofInt w (Min.min x.toInt y.toInt)), (.maxImm, fun w x y => BitVec.ofInt w (Max.max x.toInt y.toInt)),
      (.minuImm, fun w x y => BitVec.ofNat w (Min.min x.toNat y.toNat)), (.maxuImm, fun w x y => BitVec.ofNat w (Max.max x.toNat y.toNat)),
      (.sltImm, fun _ x y => if x.toInt < y.toInt then 1 else 0), (.sltuImm, fun _ x y => if x.toNat < y.toNat then 1 else 0),
      (.seqImm, fun _ x y => if x = y then 1 else 0), (.sneImm, fun _ x y => if x ≠ y then 1 else 0)] :
      List ((ScalarRI → Instr) × ((w : Nat) → BitVec w → BitVec w → BitVec w))),
    ∀ (o : ScalarRI) (s : State), s.readable [o.a] →
      exec (p.1 o) s = .next (s.wroteX o.d
        (if o.w32 then (p.2 32 ((s.me.getX o.a).setWidth 32) o.imm).signExtend 64
         else p.2 64 (s.me.getX o.a) (o.imm.signExtend 64)))) ∧
  (∀ p ∈ ([
      (.shlImm, fun _ x n => x <<< n), (.shrImm, fun _ x n => x >>> n), (.sarImm, fun _ x n => x.sshiftRight n),
      (.rolImm, fun w x n => (x <<< n) ||| (x >>> (w - n)))] :
      List ((ShiftRI → Instr) × ((w : Nat) → BitVec w → Nat → BitVec w))),
    ∀ (o : ShiftRI) (s : State), (p.1 o).wf = true → s.readable [o.a] →
      exec (p.1 o) s = .next (s.wroteX o.d
        (if o.w32 then (p.2 32 ((s.me.getX o.a).setWidth 32) o.n.toNat).signExtend 64
         else p.2 64 (s.me.getX o.a) o.n.toNat)))

/-- R97, R98, R100: add and sub; with `.sat` the exact signed result is clamped to the range of w bits, and SAT is raised
when it is. R102: quotients truncate toward zero and remainders take the sign of A; a zero divisor gives all ones and A, and
raises DZ. -/
def Obligations.AddSubDivResult : Prop :=
  (∀ p ∈ ([(.add, fun i j => i + j), (.sub, fun i j => i - j)] : List ((ArithRR → Instr) × (Int → Int → Int))),
  ∀ (o : ArithRR) (s : State) (y : Word), s.readable (o.a :: regsOf o.b) → s.bValue o.b = some y →
    let w : Nat := if o.w32 then 32 else 64
    let exact : Int := p.2 ((s.me.getX o.a).setWidth w).toInt (y.setWidth w).toInt
    let lo : Int := -(2 ^ (w - 1))
    let hi : Int := 2 ^ (w - 1) - 1
    let clamped : Int := Max.max lo (Min.min hi exact)
    exec (p.1 o) s = .next (if o.sat
      then s.wroteXF o.d ((BitVec.ofInt w clamped).signExtend 64) (if clamped = exact then 0 else Flags.sat)
      else s.wroteX o.d ((BitVec.ofInt w exact).signExtend 64))) ∧
  (∀ p ∈ ([
      (.div, fun w x y => if y = 0 then BitVec.allOnes w else BitVec.ofInt w (x.toInt.tdiv y.toInt)),
      (.divu, fun w x y => if y = 0 then BitVec.allOnes w else BitVec.ofNat w (x.toNat / y.toNat)),
      (.rem, fun w x y => if y = 0 then x else BitVec.ofInt w (x.toInt.tmod y.toInt)),
      (.remu, fun w x y => if y = 0 then x else BitVec.ofNat w (x.toNat % y.toNat))] :
      List ((ScalarRR → Instr) × ((w : Nat) → BitVec w → BitVec w → BitVec w))),
  ∀ (o : ScalarRR) (s : State) (y : Word), s.readable (o.a :: regsOf o.b) → s.bValue o.b = some y →
    let w : Nat := if o.w32 then 32 else 64
    exec (p.1 o) s = .next (s.wroteXF o.d ((p.2 w ((s.me.getX o.a).setWidth w) (y.setWidth w)).signExtend 64)
      (if y.setWidth w = 0 then Flags.dz else 0)))

/-- R101, R103, R104: sel, the bit counts, bswap, the bit fields, li and lih. -/
def Obligations.ScalarUnaryFieldResult : Prop :=
  (∀ (d a b c : XReg) (s : State), s.readable [a, b, c] →
    exec (.sel d a b c) s = .next (s.wroteX d (if s.me.getX c ≠ 0 then s.me.getX a else s.me.getX b))) ∧
  (∀ p ∈ ([
      (.clz, fun w x => BitVec.ofNat w (((List.range w).reverse.takeWhile (fun i => !x.getLsbD i)).length)),
      (.ctz, fun w x => BitVec.ofNat w (((List.range w).takeWhile (fun i => !x.getLsbD i)).length)),
      (.popc, fun w x => BitVec.ofNat w (((List.range w).filter (fun i => x.getLsbD i)).length)),
      (.bswap, fun w x => (List.range (w / 8)).foldl (fun r i => r ||| ((x >>> (8 * i)) &&& 0xFF) <<< (w - 8 - 8 * i)) 0)] :
      List ((UnaryRR → Instr) × ((w : Nat) → BitVec w → BitVec w))),
    ∀ (o : UnaryRR) (s : State), s.readable [o.a] →
      exec (p.1 o) s = .next (s.wroteX o.d
        (if o.w32 then (p.2 32 ((s.me.getX o.a).setWidth 32)).signExtend 64 else p.2 64 (s.me.getX o.a)))) ∧
  (∀ (o : BFieldRI) (sx : Bool) (s : State), (Instr.bfx o sx).wf = true → s.readable [o.a] →
    exec (.bfx o sx) s = .next (s.wroteX o.d
      (let len := o.lenm1.toNat + 1
       let top := (s.me.getX o.a) <<< (64 - len - o.lsb.toNat)
       if sx then top.sshiftRight (64 - len) else top >>> (64 - len)))) ∧
  (∀ (o : BFieldRI) (s : State), (Instr.bfi o).wf = true → s.readable [o.a, o.d] →
    ∃ v : Word, exec (.bfi o) s = .next (s.wroteX o.d v) ∧
      ∀ i : Nat, i < 64 → v.getLsbD i =
        (if o.lsb.toNat ≤ i ∧ i ≤ o.lsb.toNat + o.lenm1.toNat then (s.me.getX o.a).getLsbD (i - o.lsb.toNat)
         else (s.me.getX o.d).getLsbD i)) ∧
  (∀ (d : XReg) (imm : BitVec 32) (s : State), exec (.li d imm) s = .next (s.wroteX d (imm.signExtend 64))) ∧
  (∀ (d : XReg) (imm : BitVec 32) (s : State), s.readable [d] →
    exec (.lih d imm) s = .next (s.wroteX d (((imm.setWidth 64) <<< 32) ||| (s.me.getX d &&& 0xFFFFFFFF))))

/-- R54, R97: a constant-window word that does not lie in a window of the run is an ACCESS trap with the window in TVAL [2:0]
and the word offset in [36:20], and nothing is written. R68: a taken transfer outside the 49-bit space traps ACCESS, and a
transfer through a register to no multiple of 8 traps MISALIGN, with the target in TVAL and from the state before the word: no
register is written; that the alignment of a target is checked before its space is the model's choice (entry 111). R120: a
value with a reserved bit, or a reserved rounding code, traps ILL_OP with 0xF0, 0x01 and the register's number in TVAL, and
changes nothing. R66, R67, R115: an access to a system register that the mode or the core may not make traps PRIV at decode,
with OP and FN in TVAL, and so do `tlbinv` in user mode and the writes that only supervisor mode or a firmware core makes. -/
def Obligations.TrappingForms : Prop :=
  (∀ (win : BitVec 3) (off : BitVec 17) (s : State), (∀ bs, s.cwin win = some bs → bs.length < 4 * off.toNat + 4) →
    ∀ (d a : XReg) (w32 sat : Bool), s.readable [a] →
      ∀ i ∈ [Instr.add ⟨d, a, .cw win off, w32, sat⟩, .sub ⟨d, a, .cw win off, w32, sat⟩, .mul ⟨d, a, .cw win off, w32⟩,
          .div ⟨d, a, .cw win off, w32⟩, .xor ⟨d, a, .cw win off, w32⟩, .fadd ⟨d, a, .cw win off, .fp32, .mode⟩,
          .fmin ⟨d, a, .cw win off, .fp32⟩],
        exec i s = s.takeTrap 0x09 (BitVec.ofNat 64 (win.toNat + off.toNat * 2 ^ 20))) ∧
  ((∀ (a b : XReg) (h : BrHint) (off : BitVec 32) (s : State),
    let target := s.me.pc + off.signExtend 64 * 8
    2 ^ 49 ≤ target.toNat →
      (s.readable [a, b] → s.me.getX a = s.me.getX b → exec (.bCond .eq a b h off) s = s.takeTrap 0x09 target) ∧
      exec (.call a h off) s = s.takeTrap 0x09 target ∧
      (a ≠ 0 → s.readable [a] → s.me.getX a ≠ 1 → exec (.loop a h off) s = s.takeTrap 0x09 target)) ∧
  (∀ (d a : XReg) (s : State), s.readable [a] →
    let target := s.me.getX a
    (target.toNat % 8 ≠ 0 → ∀ i ∈ [Instr.callr d a, .jr a, .ret a], exec i s = s.takeTrap 0x04 target) ∧
    (target.toNat % 8 = 0 → 2 ^ 49 ≤ target.toNat → ∀ i ∈ [Instr.callr d a, .jr a, .ret a], exec i s = s.takeTrap 0x09 target))) ∧
  ((∀ (sr : SysReg) (a : XReg) (s : State), (Instr.putsr sr a).wf = true → s.mayAccess sr true = true → s.readable [a] →
    (s.me.getX a &&& ~~~BitVec.ofNat 64 (srMask sr)) ≠ 0 →
    exec (.putsr sr a) s = s.takeTrap 0x02 (BitVec.ofNat 64 (0x01F0 + 2 ^ 32 * sr.code.toNat))) ∧
  (∀ (a : XReg) (s : State), s.readable [a] → (16 ≤ (s.me.getX a).toNat ∨ 4 < (s.me.getX a).toNat % 8) →
    exec (.putsrFpmode a) s = s.takeTrap 0x02 0x0000_0008_0000_01F0)) ∧
  (∀ s : State, s.me.mode = false →
    (∀ d : XReg, ∀ sr ∈ [SysReg.cluflags, .packflags, .lsplit, .vgroup, .hashmask 0, .bktidx, .bktdata, .fwsel, .fwin 0, .afr,
        .feat 0, .accept 0, .active 0, .fwcommit, .ptroot, .fqhead, .fqtail, .diectl, .therm],
      exec (.getsr d sr) s = s.takeTrap 0x03 0x00F0) ∧
    (∀ (a : XReg) (n : BitVec 4), ∀ i ∈ [Instr.putsr .tcause a, .putsr .tval a, .putsrTstat a, .cluflagsWrite a, .packflagsWrite a,
        .lsplitWrite a, .vgroupWrite a, .hashmaskWrite n a, .bktdataWrite a, .fwinWrite n a, .ptrootWrite a, .putsr .bktidx a,
        .putsr .fwsel a, .putsr .afr a, .putsr (.accept 0) a, .putsr .fqhead a, .putsr .fresp a, .putsr .fwcommit a,
        .putsr .diectl a],
      exec i s = s.takeTrap 0x03 0x01F0) ∧
    (∀ (a : XReg) (all : Bool) (reach : BitVec 2), exec (.tlbinv a all reach) s = s.takeTrap 0x03 0x00F3))

/-- R105, R106, R112: fadd, fsub, fmul, fdiv, fsqrt and ffma write their result zero-extended and raise its flags; the
operands are the low bits of the registers, read under FTZ. -/
def Obligations.FpArithmeticResult : Prop :=
  (∀ p ∈ ([(.fadd, FFormat.add), (.fsub, fun f rm z a b => f.add rm z a b.negate), (.fmul, FFormat.mul), (.fdiv, FFormat.div)] :
      List ((FpBin → Instr) × (FFormat → Rm → Bool → FVal → FVal → FRes))),
    ∀ (o : FpBin) (s : State) (y : Word), s.readable (o.a :: regsOf o.b) → s.bValue o.b = some y →
      let f := o.fmt.format
      let z := s.me.ftz
      let x := (s.me.getX o.a).toNat % 2 ^ f.width
      let r := p.2 f (s.me.rnd o.rnd) z (f.decodeFtz z x) (f.decodeFtz z (y.toNat % 2 ^ f.width))
      exec (p.1 o) s = .next (s.wroteXF o.d (BitVec.ofNat 64 r.bits) r.flags)) ∧
  (∀ (d a : XReg) (fmt : FpFmt) (rnd : RndSel) (s : State), s.readable [a] →
    let f := fmt.format
    let z := s.me.ftz
    let r := f.sqrt (s.me.rnd rnd) z (f.decodeFtz z ((s.me.getX a).toNat % 2 ^ f.width))
    exec (.fsqrt d a fmt rnd) s = .next (s.wroteXF d (BitVec.ofNat 64 r.bits) r.flags)) ∧
  (∀ (o : FpFma) (s : State) (y : Word), s.readable (o.a :: o.c :: regsOf o.b) → s.bValue o.b = some y →
    let f := o.fmt.format
    let z := s.me.ftz
    let val (w : Word) : FVal := f.decodeFtz z (w.toNat % 2 ^ f.width)
    let r := f.fma (s.me.rnd o.rnd) z (val (s.me.getX o.a)) (val y) (val (s.me.getX o.c))
    exec (.ffma o) s = .next (s.wroteXF o.d (BitVec.ofNat 64 r.bits) r.flags))

/-- R107 to R111: fmin and fmax, fcmp, fclass, fcvt and fmv. -/
def Obligations.FpCompareConvertResult : Prop :=
  (∀ p ∈ ([(.fmin, false), (.fmax, true)] : List ((FpMinMax → Instr) × Bool)),
    ∀ (o : FpMinMax) (s : State) (y : Word), s.readable (o.a :: regsOf o.b) → s.bValue o.b = some y →
      let r := o.fmt.format.minMax p.2 s.me.ftz (s.me.getX o.a).toNat y.toNat
      exec (p.1 o) s = .next (s.wroteXF o.d (BitVec.ofNat 64 r.bits) r.flags)) ∧
  (∀ (d a b : XReg) (fmt : FpFmt) (rel : Rel) (s : State), s.readable [a, b] →
    let val (r : XReg) : FVal := fmt.format.decodeFtz s.me.ftz (s.me.getX r).toNat
    let un := (val a).isNan || (val b).isNan
    let c := (val a).cmp (val b)
    let holds : Bool := match rel with
      | .eq => !un && c == .eq
      | .ne => un || c != .eq
      | .lt => !un && c == .lt
      | .le => !un && c != .gt
      | .gt => !un && c == .gt
      | .ge => !un && c != .lt
      | .un => un
    let nv := (val a).isSig || (val b).isSig || (un && (rel == .lt || rel == .le || rel == .gt || rel == .ge))
    exec (.fcmp d a b fmt rel) s = .next (s.wroteXF d (if holds then 1 else 0) (if nv then Flags.nv else 0))) ∧
  (∀ (d a : XReg) (fmt : FpFmt) (s : State), s.readable [a] →
    exec (.fclass d a fmt) s = .next (s.wroteX d (BitVec.ofNat 64 (fmt.format.classify (s.me.getX a).toNat)))) ∧
  (∀ (o : FpCvt) (s : State), (Instr.fcvt o).wf = true → s.readable [o.a] →
    let r := convert o.dst o.src (s.me.rnd o.rnd) s.me.ftz (s.me.getX o.a).toNat
    exec (.fcvt o) s = .next (s.wroteXF o.d
      (if o.dst.isSigned then BitVec.ofInt 64 ((BitVec.ofNat (8 * o.dst.size) r.bits).toInt) else BitVec.ofNat 64 r.bits)
      r.flags)) ∧
  (∀ (d a : XReg) (fmt : FpFmt) (s : State), s.readable [a] →
    exec (.fmv d a fmt) s = .next (s.wroteX d (BitVec.ofNat 64 ((s.me.getX a).toNat % 2 ^ fmt.format.width))))

/-- R105, R106, R270, R276: a NaN result of fadd, fsub, fmul, fdiv, fsqrt, ffma, fmin and fmax in FP32, FP16 and BF16 is the
canonical NaN of its format, and a signaling NaN operand raises NV. Conversions (`fcvt`) are no part of this statement. -/
def Obligations.NanResultsCanonical : Prop :=
  ∀ (fmt : FpFmt) (rm : Rm) (z : Bool) (a b c : Nat),
    let f := fmt.format
    let va := f.decodeFtz z a
    let vb := f.decodeFtz z b
    let vc := f.decodeFtz z c
    ∀ r ∈ [(f.add rm z va vb, [va, vb]), (f.add rm z va vb.negate, [va, vb]), (f.mul rm z va vb, [va, vb]),
        (f.div rm z va vb, [va, vb]), (f.sqrt rm z va, [va]), (f.fma rm z va vb vc, [va, vb, vc]),
        (f.minMax false z a b, [va, vb]), (f.minMax true z a b, [va, vb])],
      r.1.bits < 2 ^ f.width ∧ ((f.decode r.1.bits).isNan = true → r.1.bits = f.nanBits) ∧
        (r.2.any FVal.isSig = true → r.1.flags &&& Flags.nv = Flags.nv)

/-- R275: a finite value that its format holds is rounded to itself, in every direction, with no flag. -/
def Obligations.RoundExactIdentity : Prop :=
  ∀ f ∈ [fp32, fp16, bf16, e4m3, e5m2], ∀ (rm : Rm) (bits m : Nat) (neg : Bool) (e : Int), bits < 2 ^ f.width →
    f.decode bits = .fin neg m e → m ≠ 0 → f.round rm false neg m e = ⟨bits, 0⟩

/-- R114: `callr`, `jr` and `ret` go to the value that the register held before the word, `callr` linking the next word; their
targets are checked as R68 says, and their unused fields are zero. R113: where the other transfers go, and what they write,
when the target they take is in range. -/
def Obligations.BranchResult : Prop :=
  (∀ (c : Cond) (a b : XReg) (h : BrHint) (off : BitVec 32) (s : State), s.readable [a, b] →
    let x := s.me.getX a
    let y := s.me.getX b
    let target := s.me.pc + off.signExtend 64 * 8
    let taken : Prop := match c with
      | .eq => x = y
      | .ne => x ≠ y
      | .lt => x.toInt < y.toInt
      | .ge => y.toInt ≤ x.toInt
      | .ltu => x.toNat < y.toNat
      | .geu => y.toNat ≤ x.toNat
      | .al => True
    (taken → target.toNat < 2 ^ 49 → exec (.bCond c a b h off) s = .next (s.updMe (·.goto target))) ∧
      (¬ taken → exec (.bCond c a b h off) s = .next s.advance)) ∧
  (∀ (a : XReg) (h : BrHint) (off : BitVec 32) (s : State),
    let target := s.me.pc + off.signExtend 64 * 8
    target.toNat < 2 ^ 49 →
      exec (.call a h off) s = .next (s.updMe (fun t => (t.setX a (t.pc + 8)).goto target))) ∧
  (∀ (a : XReg) (h : BrHint) (off : BitVec 32) (s : State), a ≠ 0 → s.readable [a] →
    let target := s.me.pc + off.signExtend 64 * 8
    let x := s.me.getX a
    (x ≠ 1 → target.toNat < 2 ^ 49 → exec (.loop a h off) s = .next (s.updMe (fun t => (t.setX a (x - 1)).goto target))) ∧
      (x = 1 → exec (.loop a h off) s = .next (s.wroteX a 0))) ∧
  (∀ (d a : XReg) (s : State), s.readable [a] →
    let target := s.me.getX a
    target.toNat % 8 = 0 → target.toNat < 2 ^ 49 →
      exec (.callr d a) s = .next (s.updMe (fun t => (t.setX d (t.pc + 8)).goto target)) ∧
      exec (.jr a) s = .next (s.updMe (·.goto target)) ∧ exec (.ret a) s = .next (s.updMe (·.goto target))) ∧
  (∀ (d a : XReg) (s : State), s.readable [a] → ∀ i ∈ [Instr.callr d a, .jr a, .ret a],
    let target := s.me.getX a
    (target.toNat % 8 ≠ 0 → target.toNat < 2 ^ 49 → exec i s = s.takeTrap 0x04 target) ∧
    (target.toNat % 8 = 0 → 2 ^ 49 ≤ target.toNat → exec i s = s.takeTrap 0x09 target)) ∧
  (∀ (d a : XReg) (w : Word),
    let fixed (d fn : Nat) : Prop := w.toNat = 0x32 * 2 ^ 56 + d * 2 ^ 50 + a.toNat * 2 ^ 44 + fn * 2 ^ 26
    (decodeWord w = .ok (.callr d a) → fixed d.toNat 0) ∧ (decodeWord w = .ok (.jr a) → fixed 0 1) ∧
      (decodeWord w = .ok (.ret a) → fixed 0 2))

/-- R368: trap entry to the vector, in one step; no other register, queue, counter or byte of memory changes. -/
def Obligations.TrapEntry : Prop :=
  ∀ (s : State) (x : Run) (cause : Nat) (tval : Word), s.Vectored x → cause ≠ 0x0A →
    ∃ t, s.takeTrap cause tval = .next t ∧
      t.me.tpc = s.me.pc ∧ t.me.tcause = BitVec.ofNat 64 cause ∧ t.me.tval = tval ∧
      t.me.pmode = s.me.mode ∧ t.me.intrap = true ∧ t.me.mode = decide (x.vf = 0) ∧
      t.me.pc = BitVec.ofNat 64 (Rec.trapvec x.rec_) ∧
      t.me = { s.me with tpc := t.me.tpc, tcause := t.me.tcause, tval := t.me.tval, pmode := t.me.pmode,
                         intrap := t.me.intrap, mode := t.me.mode, pc := t.me.pc, rep := none, wait := none, refused := none } ∧
      (∀ u : TsId, TsId.key u ≠ TsId.key s.cur → t.thread u = s.thread u) ∧
      t = { s with threads := t.threads } ∧ (∀ a, t.byteAt a = s.byteAt a)

/-- R121: `trap` and `brk` take their cause with CODE in TVAL, and TPC holds the address of the word itself. R367, R369, R370: a
trap inside a trap, or of a run without a vector, ends the run: the thread set issues nothing further, the cause and its
value are kept for the completion record, and the stop of the run is due. A GANG thread set's POISON trap does the same.
R66, R116, R368: a firmware core takes a trap too: its registers of trap entry are written, and it goes on in supervisor
mode; that it has a vector, a free value that is a multiple of 8, is the model's reading (entry 18). -/
def Obligations.TrapWordsAndRunEnd : Prop :=
  (∀ p ∈ ([(.trap, 0x21), (.brk, 0x20)] : List ((BitVec 16 → Instr) × Nat)),
  ∀ (code : BitVec 16) (s : State) (x : Run), s.Vectored x →
    ∃ t, exec (p.1 code) s = .next t ∧ t.me.tpc = s.me.pc ∧ t.me.tcause = BitVec.ofNat 64 p.2 ∧
      t.me.tval = code.setWidth 64 ∧ t.me.pc = BitVec.ofNat 64 (Rec.trapvec x.rec_) ∧ t.me.intrap = true) ∧
  (∀ p ∈ ([(.trap, 0x21), (.brk, 0x20)] : List ((BitVec 16 → Instr) × Nat)), ∀ (code : BitVec 16) (s : State),
    isFirmware s.cur = true → exec (p.1 code) s = s.takeTrap p.2 (code.setWidth 64)) ∧
  (∀ (s : State) (cause : Nat) (tval : Word), isFirmware s.cur = true →
    ∃ t, s.takeTrap cause tval = .next t ∧ t.me.pc.toNat % 8 = 0 ∧
      t.me = { s.me with tpc := s.me.pc, tcause := BitVec.ofNat 64 cause, tval := tval, pmode := s.me.mode, intrap := true,
                         mode := true, pc := t.me.pc, rep := none, wait := none, refused := none } ∧
      (∀ u : TsId, TsId.key u ≠ TsId.key s.cur → t.thread u = s.thread u) ∧
      t = { s with threads := t.threads, freeIdx := s.freeIdx + 1 } ∧ (∀ a, t.byteAt a = s.byteAt a)) ∧
  (∀ (s : State) (x : Run) (r cause : Nat) (tval : Word), s.InRun x → s.me.run = some r → s.me.act = none → x.stop = none →
    ((cause ≠ 0x0A ∧ (s.me.intrap = true ∨ Rec.trapvec x.rec_ = 0)) ∨ (cause = 0x0A ∧ s.me.ctx = .gang)) →
    ∃ t, s.takeTrap cause tval = .next t ∧ t.me.status = .stopped ∧ (∃ y, t.run? r = some y ∧ y.stop = some ⟨6, cause, tval⟩) ∧
      Instr.runStopTrapped r ∈ t.pending ∧ (∀ a, t.byteAt a = s.byteAt a))

/-- R124: sret restores MODE and PC and leaves the trap; it is privileged outside a user-mode handler, and a TPC that is no
target traps. R122, R123, R125: `yield` moves on, and its core records that the set has ended its turn; `halt` stops a GANG
thread set whose operations have completed, and a firmware core; `tlbinv`, once the stores before it are performed, removes
the entries that it names from every TLB within its reach, those of the engines included, and no others, and completes when no
access made under them is outstanding. That a firmware core's REACH 2 reaches no TLB, and which accesses were made under an
entry, are the model's readings (entry 81). -/
def Obligations.SystemWordsResult : Prop :=
  (∀ s : State,
    let t := s.me
    let allowed : Prop := t.mode = true ∨ (t.intrap = true ∧ t.pmode = false)
    (allowed → t.tpc.toNat % 8 = 0 → t.tpc.toNat < 2 ^ 49 →
      ∃ u, exec .sret s = .next u ∧ u.me.mode = t.pmode ∧ u.me.intrap = false ∧ u.me.pc = t.tpc ∧ u.me.x = t.x ∧
        u.me.tcause = t.tcause ∧ u.me.tpc = t.tpc ∧ u.me.tval = t.tval ∧ u.me.pmode = t.pmode ∧
        u = { s with threads := u.threads }) ∧
    (¬ allowed → exec .sret s = s.takeTrap 0x03 0x02F2) ∧
    (allowed → t.tpc.toNat % 8 ≠ 0 → exec .sret s = s.takeTrap 0x04 t.tpc) ∧
    (allowed → t.tpc.toNat % 8 = 0 → 2 ^ 49 ≤ t.tpc.toNat → exec .sret s = s.takeTrap 0x09 t.tpc)) ∧
  ((∀ s : State, exec .yield s = .next (if s.isUser then s.updMyCore (fun u =>
    { u with yielded := u.yielded.filter (·.1 != s.cur.set) ++ [(s.cur.set, [])] }) else s).advance) ∧
  (∀ s : State, isFirmware s.cur = true →
    ∃ t, exec .halt s = .next t ∧ t.me.status = .halted ∧ (s.me.rep = none → t.me.pc = s.me.pc + 8)) ∧
  (∀ s : State, s.isGang = true → s.me.cnt = Counts.zero → s.me.pend = [] →
    ∃ t, exec .halt s = .next t ∧ t.me.status = .halted ∧ t.me.chain.state = .none ∧ t.me.x = s.me.x) ∧
  (∀ s : State, s.isGang = true → s.me.cnt ≠ Counts.zero → exec .halt s = .next s) ∧
  (∀ (a : XReg) (all : Bool) (reach : BitVec 2) (s : State), s.me.mode = true → s.readable [a] →
    let gone (e : TlbEntry) : Bool := e.vf == s.vfOf s.cur && (all || (s.me.getX a).toNat / 2 ^ e.bits == e.va / 2 ^ e.bits)
    let reached (c : Nat) : Bool := (reach == 1 && c == s.cur.cluster) ||
      (reach == 2 && !isFirmware s.cur && nodeDie c == nodeDie s.cur.cluster) || reach == 3
    let kept (c : Nat) (l : List TlbEntry) : List TlbEntry := if reached c then l.filter (fun e => !gone e) else l
    (s.me.cnt.st ≠ 0 → exec (.tlbinv a all reach) s = .next s) ∧
    (s.me.cnt.st = 0 → ∃ t, exec (.tlbinv a all reach) s = .next t ∧
      (∀ c k, k < 16 → (t.core c k).tlb =
        if reached c ∨ (isFirmware s.cur = false ∧ coreKey c k = coreKey s.cur.cluster s.cur.core)
        then (s.core c k).tlb.filter (fun e => !gone e) else (s.core c k).tlb) ∧
      (∀ c, (t.cluster c).l2tlb = kept c (s.cluster c).l2tlb ∧
        ∀ p ∈ [Pipe.copy c, .fill c, .drain c, .relay c], t.pipeTlb p = kept c (s.pipeTlb p)) ∧
      (s.me.rep = none → t.me.pc = if s.underEntries (s.me.getX a) all reach then s.me.pc else s.me.pc + 8) ∧
      s.SameMemory t .nowhere 0 ∧ s.me.SameRegs t.me)))

/-- R115 to R118, R120, R190, R281, R339, R390, R395, R412: what `getsr` writes to its register, for every register that it may
read: those of the thread set, of its run, of its core and cluster, and of a firmware core. -/
def Obligations.GetsrResult : Prop :=
  (∀ p ∈ ([
      (.tcause, fun s => s.me.tcause), (.tpc, fun s => s.me.tpc), (.tval, fun s => s.me.tval), (.fpmode, fun s => s.me.fpmode),
      (.fpflags, fun s => s.me.fpflags.setWidth 64), (.spillsp, fun s => s.me.spillsp),
      (.spillbase, fun s => s.me.spillbase), (.spilllim, fun s => s.me.spilllim), (.waitlim, fun s => s.me.waitlim),
      (.tstat, fun s => BitVec.ofNat 64 (s.me.mode.toNat + 2 * s.me.pmode.toNat + 4 * s.me.intrap.toNat +
        8 * (match s.me.ctx with | .gang => 0 | .act => 1 | .helper => 2 | .hand => 3) + 32 * (isFirmware s.cur).toNat))] :
      List (SysReg × (State → Word))),
    ∀ (d : XReg) (s : State), exec (.getsr d p.1) s = .next (s.wroteX d (p.2 s))) ∧
  (∀ p ∈ ([
      (.runid, fun _ x => BitVec.ofNat 64 (x.seq.toNat + 2 ^ 32 * (x.vf % 32) + 2 ^ 37 * (x.queue % 64))),
      (.nrank, fun _ x => BitVec.ofNat 64 (Rec.packw x.rec_ * Rec.packh x.rec_ * Rec.cores x.rec_ * Rec.threads x.rec_)),
      (.actid, fun s _ => if s.me.ctx = .gang then 0 else s.me.actid)] :
      List (SysReg × (State → Run → Word))),
    ∀ (d : XReg) (s : State) (x : Run), s.InRun x → exec (.getsr d p.1) s = .next (s.wroteX d (p.2 s x))) ∧
  (∀ (d : XReg) (s : State) (x : Run), s.InRun x →
    exec (.getsr d .rank) s = .next (s.wroteX d
      ((if s.cur.set = 4 then s.thread { s.cur with set := 0 } else s.me).rank.setWidth 64))) ∧
  (∀ (d : XReg) (s : State) (x : Run), s.InRun x →
    (∀ self : TsId, ((∀ k, s.me.act = some k → k.twin ≠ 1) → self = s.cur) →
      (∀ k a, s.me.act = some k → k.twin = 1 → s.act? { k with twin := 0 } = some a → self = a.owner) →
      (∀ k, s.me.act = some k → k.twin = 1 → (s.act? { k with twin := 0 }).isSome = true) →
      exec (.getsr d .core) s = .next (s.wroteX d (field 0 self.core ||| field 4 self.set))) ∧
    let c := s.cur.cluster
    exec (.getsr d .cluster) s = .next (s.wroteX d (field 0 (s.hub.logical kindCluster c) ||| field 16 (c % 16 - x.node % 16) |||
      field 24 (c / 16 - x.node / 16) ||| field 32 (nodeDie c)))) ∧
  (∀ p ∈ ([
      (.cluflags, fun s _ => s.myCluster.cluflags.setWidth 64),
      (.packflags, fun s x => ((x.clusters.filter (fun c => (s.cluster c).run == s.me.run)).foldl
        (fun f c => f ||| (s.cluster c).raised) x.packflags).setWidth 64),
      (.lsplit, fun s _ => BitVec.ofNat 64 s.myCore.lsplit), (.vgroup, fun s _ => BitVec.ofNat 64 s.myCore.vgroup)] :
      List (SysReg × (State → Run → Word))),
    ∀ (d : XReg) (s : State) (x : Run), s.InRun x → s.me.mode = true → exec (.getsr d p.1) s = .next (s.wroteX d (p.2 s x))) ∧
  (∀ p ∈ ([
      (.bktidx, fun s => (s.fn s.cur.core).bktidx), (.fwsel, fun s => (s.fn s.cur.core).fwsel),
      (.fwcommit, fun s => if (s.fn s.cur.core).committed then 1 else 0), (.ptroot, fun s => (s.fn s.cur.core).ptroot), (.fqhead, fun s => (s.fn s.cur.core).fqhead),
      (.fqtail, fun s => (s.fn s.cur.core).fqtail), (.afr, fun s => s.hub.afr),
      (.bktdata, fun s => let i := (s.fn s.cur.core).bktidx.toNat
        BitVec.ofNat 64 (s.hub.bktEntry (i % 64) (i / 64 % 1024)))] : List (SysReg × (State → Word))),
    ∀ (d : XReg) (s : State), isFirmware s.cur = true → s.me.mode = true →
      exec (.getsr d p.1) s = .next (s.wroteX d (p.2 s))) ∧
  (∀ (d : XReg) (k : Fin 4) (n : BitVec 4) (s : State), isFirmware s.cur = true → s.me.mode = true →
    let f := s.fn s.cur.core
    let sel := f.fwsel.toNat
    let reads (sr : SysReg) (w : Word) : Prop := exec (.getsr d sr) s = .next (s.wroteX d w)
    reads (.feat (BitVec.ofFin k)) s.hub.feat[k] ∧ reads (.accept (BitVec.ofFin k)) s.hub.accept[k] ∧
    reads (.active (BitVec.ofFin k)) s.hub.active[k] ∧
    (∀ h : n.toNat < 14, reads (.hashmask n) f.hashmask[n.toNat]) ∧
    reads (.fwin n) (NMap.get s.hub.fwin (fwinKey (2 * (sel % 4) + sel / 4 % 2) n.toNat) 0) ∧
    (s.cur.core = 0 → reads .diectl s.hub.diectl ∧
      reads .therm ((List.finRange 4).foldl (fun w (i : Fin 4) => w ||| field (8 * i.val) s.hub.dies[i].temp.toNat |||
        field (32 + i.val) s.hub.dies[i].throttled.toNat) (field 36 s.hub.tripped.toNat))))

/-- R115, R120: `putsr` writes the register that it names, of the issuing thread set or of the firmware core's function, and
nothing else; the value has no reserved bit. R180, R182, R187 to R190, R281, R373, R374: the writes of the system registers that
act on a cluster, a core or a function. That the rectangle of R188 is the whole grid is the model's reading (entry 28). -/
def Obligations.PutsrResult : Prop :=
  ((∀ p ∈ ([
      (.tpc, fun w t => { t with tpc := w }), (.spillsp, fun w t => { t with spillsp := w }),
      (.spillbase, fun w t => { t with spillbase := w }), (.spilllim, fun w t => { t with spilllim := w }),
      (.waitlim, fun w t => { t with waitlim := w })] : List (SysReg × (Word → Thread → Thread))),
    ∀ (a : XReg) (s : State), s.readable [a] → srAdmits p.1 (s.me.getX a) = true →
      exec (.putsr p.1 a) s = .next (s.completed (p.2 (s.me.getX a)))) ∧
  (∀ p ∈ ([(.tcause, fun w t => { t with tcause := w }), (.tval, fun w t => { t with tval := w })] :
      List (SysReg × (Word → Thread → Thread))),
    ∀ (a : XReg) (s : State), s.me.mode = true → s.readable [a] → srAdmits p.1 (s.me.getX a) = true →
      exec (.putsr p.1 a) s = .next (s.completed (p.2 (s.me.getX a)))) ∧
  (∀ p ∈ ([(.bktidx, fun w f => { f with bktidx := w }), (.fwsel, fun w f => { f with fwsel := w })] :
      List (SysReg × (Word → Fn → Fn))),
    ∀ (a : XReg) (s : State), isFirmware s.cur = true → s.me.mode = true → s.readable [a] →
      srAdmits p.1 (s.me.getX a) = true →
      exec (.putsr p.1 a) s = .next (s.updFn s.cur.core (p.2 (s.me.getX a))).advance) ∧
  (∀ (a : XReg) (s : State), s.me.mode = true → s.readable [a] → srAdmits .tstat (s.me.getX a) = true →
    exec (.putsrTstat a) s = .next (s.completed (fun t =>
      { t with pmode := (s.me.getX a).getLsbD 1, intrap := (s.me.getX a).getLsbD 2 }))) ∧
  (∀ (a : XReg) (s : State), s.readable [a] → (s.me.getX a).toNat % 8 ≤ 4 → (s.me.getX a).toNat < 16 →
    exec (.putsrFpmode a) s = .next (s.completed (fun t => { t with fpmode := s.me.getX a }))) ∧
  (∀ (a : XReg) (s : State), s.readable [a] → (s.me.getX a).toNat < 64 →
    ∃ t, exec (.putsrFpflags a) s = .next t ∧ t.me.fpflags = (s.me.getX a).setWidth 6 ∧ t.me.x = s.me.x)) ∧
  ((∀ (a : XReg) (s : State), isFirmware s.cur = false → s.me.mode = true → s.readable [a] → (s.me.getX a).toNat < 64 →
    ∃ t, exec (.cluflagsWrite a) s = .next t ∧ t.myCluster.cluflags = (s.me.getX a).setWidth 6 ∧ s.me.SameRegs t.me) ∧
  (∀ (a : XReg) (s : State) (x : Run) (r : Nat), s.InRun x → s.me.run = some r → s.me.mode = true → s.readable [a] →
    (s.me.getX a).toNat < 64 →
    ∃ t y, exec (.packflagsWrite a) s = .next t ∧ t.run? r = some y ∧ y.packflags = (s.me.getX a).setWidth 6 ∧
      s.me.SameRegs t.me) ∧
  (∀ (a : XReg) (s : State), isFirmware s.cur = false → s.me.mode = true → s.readable [a] → (s.me.getX a).toNat ≤ 8 →
    s.scratchBusy s.cur.cluster s.cur.core = false →
    ∃ t, exec (.lsplitWrite a) s = .next t ∧ t.myCore.lsplit = (s.me.getX a).toNat ∧ t.myCore.priv = [] ∧ t.myCore.tlb = [] ∧
      (∀ off, ByteMap.read t.myCore.scratch off =
        if off < 32768 * (s.me.getX a).toNat then ByteMap.read s.myCore.scratch off else 0) ∧ s.me.SameRegs t.me) ∧
  (∀ (a : XReg) (s : State), isFirmware s.cur = false → s.me.mode = true → s.readable [a] → (s.me.getX a).toNat ≤ 2 →
    ∃ t, exec (.vgroupWrite a) s = .next t ∧ t.myCore.vgroup = (s.me.getX a).toNat ∧
      (s.myCore.vgroup ≠ (s.me.getX a).toNat → ∀ j ∈ s.victimGroup s.cur.cluster s.cur.core, j ≠ s.cur.core →
        ∀ p ∈ (t.core s.cur.cluster j).priv, p.victim = false) ∧ s.SameMemory t .nowhere 0 ∧ s.me.SameRegs t.me) ∧
  (∀ (n : BitVec 4) (a : XReg) (s : State), isFirmware s.cur = true → s.me.mode = true → n.toNat < 14 → s.readable [a] →
    (s.me.getX a).toNat < 2 ^ 52 → s.hasReleased s.cur.core = false →
    ∃ t, exec (.hashmaskWrite n a) s = .next t ∧ (t.fn s.cur.core).hashmask[n.toNat]? = some (s.me.getX a) ∧
      (∀ l ∈ t.lines, l.2.vf ≠ s.cur.core) ∧ (∀ c ∈ t.cores, ∀ e ∈ c.2.tlb, e.vf ≠ s.cur.core) ∧
      (∀ c ∈ t.clusters, ∀ e ∈ c.2.l2tlb, e.vf ≠ s.cur.core)) ∧
  (∀ (a : XReg) (s : State), isFirmware s.cur = true → s.me.mode = true → s.readable [a] →
    let w := (s.me.getX a).toNat
    let idx := (s.fn s.cur.core).bktidx.toNat
    w < 2 ^ 16 → w < (s.hub.onNodes kindSlice).length → s.hub.stateOf ⟨kindSlice, s.hub.sliceNode w⟩ < 2 →
    s.hasReleased s.cur.core = false → s.linesBusy (fun f _ => f == s.cur.core) = false →
    ∃ t, exec (.bktdataWrite a) s = .next t ∧ t.hub.bktEntry (idx % 64) (idx / 64 % 1024) = w ∧
      (∀ l ∈ t.lines, l.2.vf ≠ s.cur.core) ∧ (∀ c ∈ t.cores, ∀ e ∈ c.2.tlb, e.vf ≠ s.cur.core)) ∧
  (∀ (n : BitVec 4) (a : XReg) (s : State), isFirmware s.cur = true → s.me.mode = true → s.readable [a] →
    let sel := (s.fn s.cur.core).fwsel.toNat
    let stack := 2 * (sel % 4) + sel / 4 % 2
    s.hub.fwinOk stack n.toNat (s.me.getX a) = true → s.linesBusy (fun _ => s.fwinLines stack n.toNat (s.me.getX a)) = false →
    ∃ t w, exec (.fwinWrite n a) s = .next t ∧ NMap.find? t.hub.fwin (fwinKey stack n.toNat) = some w ∧
      (∀ i, i < 63 → w.getLsbD i = (s.me.getX a).getLsbD i) ∧ ((s.me.getX a).getLsbD 63 = false → w.getLsbD 63 = false) ∧
      (∀ c ∈ t.cores, c.2.tlb = []) ∧ (∀ l ∈ t.lines, s.fwinLines stack n.toNat (s.me.getX a) l.1 = false)) ∧
  (∀ (a : XReg) (s : State), isFirmware s.cur = true → s.me.mode = true → s.readable [a] →
    srAdmits .ptroot (s.me.getX a) = true → s.hasReleased s.cur.core = false →
    ∃ t, exec (.ptrootWrite a) s = .next t ∧ (t.fn s.cur.core).ptroot = s.me.getX a ∧
      (∀ c ∈ t.cores, ∀ e ∈ c.2.tlb, e.vf ≠ s.cur.core) ∧ s.SameMemory t .nowhere 0) ∧
  (∀ (a : XReg) (n : BitVec 4) (s : State), isFirmware s.cur = true → s.me.mode = true → s.readable [a] →
    s.hasReleased s.cur.core = true → n.toNat < 14 →
    (srAdmits .ptroot (s.me.getX a) = true → exec (.ptrootWrite a) s = s.takeTrap 0x09 0x0470) ∧
    ((s.me.getX a).toNat < 2 ^ 52 → exec (.hashmaskWrite n a) s = s.takeTrap 0x09 (BitVec.ofNat 64 (0x0400 + n.toNat)))))

/-- R204, R205, R208: `ld` and `vld` write the bytes that their address returns, little-endian and extended to 64 bits, or
masked by the predicate, which alone are read; no byte of memory and no other register changes. What a firmware core's
addresses reach is the model's reading (entries 12 and 95). -/
def Obligations.LoadResult : Prop :=
  (∀ (o : LoadOp) (s : State) (bs : List Byte), s.readable [o.a, o.b] →
    let n := o.size.bytes
    let va := s.me.getX o.a + s.me.getX o.b + o.e.signExtend 64
    s.LoadsBytes va n allBytes bs →
    ∃ t, exec (.ld o) s = .next t ∧
      t.me.getX o.d = (if o.d = 0 then 0
        else if o.sx then (BitVec.ofNat (8 * n) (leNat bs)).signExtend 64 else BitVec.ofNat 64 (leNat bs)) ∧
      (∀ r, r ≠ o.d → t.me.getX r = s.me.getX r) ∧ s.me.SameRegs { t.me with x := s.me.x } ∧
      s.SameMemory t .nowhere 0) ∧
  (∀ (o : VMemOp) (s : State) (bs : List Byte), s.readable [o.a, o.b] →
    let va := s.me.getX o.a + s.me.getX o.b + o.e.signExtend 64
    s.LoadsBytes va 64 (fun i => (s.me.getP o.p).getLsbD i) bs →
    ∃ t, exec (.vld o) s = .next t ∧
      (∀ i, i < 64 → (t.me.getV o.d).byte i = if (s.me.getP o.p).getLsbD i then bs.getD i 0 else 0) ∧
      (∀ r, r ≠ o.d → t.me.getV r = s.me.getV r) ∧ s.me.SameRegs { t.me with v := s.me.v } ∧
      s.SameMemory t .nowhere 0)

/-- R204, R205, R208, R38 to R40: `st` and `vst` put their bytes at their address, or the enabled bytes, and every other byte
of memory and every register stays. What a firmware core's addresses reach is the model's reading (entries 12 and 95). -/
def Obligations.StoreResult : Prop :=
  (∀ (o : StoreOp) (s : State) (w : StoreSite), s.readable [o.a, o.b, o.d] →
    let n := o.size.bytes
    let va := s.me.getX o.a + s.me.getX o.b + o.e.signExtend 64
    s.StoresAt va n w →
    ∃ t, exec (.st o) s = .next t ∧
      (∀ i, i < n → t.siteByte w i = (s.me.getX o.d).extractLsb' (8 * i) 8) ∧
      s.SameMemory t w n ∧ s.me.SameRegs t.me) ∧
  (∀ (o : VMemOp) (s : State) (w : StoreSite), s.readable [o.a, o.b] →
    let va := s.me.getX o.a + s.me.getX o.b + o.e.signExtend 64
    s.StoresAt va 64 w →
    ∃ t, exec (.vst o) s = .next t ∧
      (∀ i, i < 64 → t.siteByte w i =
        if (s.me.getP o.p).getLsbD i then (s.me.getV o.d).byte i else s.siteByte w i) ∧
      s.SameMemory t w 64 ∧ s.me.SameRegs t.me)

/-- R209: `vgat` and `vsca`, over the core's scratch and, with one enabled lane, over any memory; the lanes are addressed by
their own index, and disabled lanes read zero and store nothing. What a firmware core's addresses reach is the model's
reading (entries 12 and 95). -/
def Obligations.GatherScatterResult : Prop :=
  (∀ (o : VGatherOp) (s : State) (offs : Nat → Nat), s.readable [o.a] →
    let n := o.size.bytes
    let va (j : Nat) : Word := s.me.getX o.a +
      (BitVec.ofNat (8 * n) ((s.me.getV o.b).lane n j)).signExtend 64 * BitVec.ofNat 64 n + o.e.signExtend 64
    let on (j : Nat) : Prop := j < 64 / n ∧ (s.me.getP o.p).getLsbD (j * n) = true
    (∀ j, on j → s.InScratch (va j) n (offs j)) →
    ((∀ j, on j → NMap.get s.myCore.poison (offs j / 8) 0 = 0) →
      ∃ t, exec (.vgat o) s = .next t ∧
        (∀ j, on j → (t.me.getV o.d).lane n j = leNat (ByteMap.reads s.myCore.scratch (offs j) n)) ∧
        (∀ j, j < 64 / n → ¬ on j → (t.me.getV o.d).lane n j = 0) ∧
        (∀ r, r ≠ o.d → t.me.getV r = s.me.getV r) ∧ s.me.SameRegs { t.me with v := s.me.v } ∧ s.SameMemory t .nowhere 0) ∧
    (∃ t, exec (.vsca o) s = .next t ∧
      (∀ a, (∀ j, on j → a < offs j ∨ offs j + n ≤ a) →
        ByteMap.read t.myCore.scratch a = ByteMap.read s.myCore.scratch a) ∧
      (∀ j i, on j → i < n → (∀ k, on k → j < k → offs k ≠ offs j) →
        ByteMap.read t.myCore.scratch (offs j + i) = (BitVec.ofNat (8 * n) ((s.me.getV o.d).lane n j)).extractLsb' (8 * i) 8) ∧
      (∀ a, t.byteAt a = s.byteAt a) ∧ s.me.SameRegs t.me)) ∧
  (∀ (o : VGatherOp) (s : State) (j : Nat) (bs : List Byte) (w : StoreSite), s.readable [o.a] →
    let n := o.size.bytes
    let va : Word := s.me.getX o.a +
      (BitVec.ofNat (8 * n) ((s.me.getV o.b).lane n j)).signExtend 64 * BitVec.ofNat 64 n + o.e.signExtend 64
    (∀ k, k < 64 / n → ((s.me.getP o.p).getLsbD (k * n) = true ↔ k = j)) → j < 64 / n →
    (s.LoadsBytes va n allBytes bs →
      ∃ t, exec (.vgat o) s = .next t ∧ (t.me.getV o.d).lane n j = leNat bs ∧
        (∀ k, k < 64 / n → k ≠ j → (t.me.getV o.d).lane n k = 0) ∧ s.SameMemory t .nowhere 0) ∧
    (s.StoresAt va n w →
      ∃ t, exec (.vsca o) s = .next t ∧
        (∀ i, i < n → t.siteByte w i = (BitVec.ofNat (8 * n) ((s.me.getV o.d).lane n j)).extractLsb' (8 * i) 8) ∧
        s.SameMemory t w n ∧ s.me.SameRegs t.me))

/-- R206: the order of the first three checks, for each access form, a gather or scatter by its lowest enabled lane: a bit
above the 49-bit space traps ACCESS, then an address that is no multiple of the size traps MISALIGN, then an offset beyond the
scratch traps ACCESS, with the address in TVAL and nothing changed. R375: a load or store whose page no cache holds and no
table maps puts its thread set to sleep on the fault, and changes no register and no memory. -/
def Obligations.AccessChecks : Prop :=
  ((∀ (o : LoadOp) (u : StoreOp) (s : State), isFirmware s.cur = false → s.readable [o.a, o.b, u.d] →
    u.a = o.a → u.b = o.b → u.e = o.e → u.size = o.size →
    let va := s.me.getX o.a + s.me.getX o.b + o.e.signExtend 64
    ∀ i ∈ [Instr.ld o, .st u],
      (2 ^ 49 ≤ va.toNat → exec i s = s.takeTrap 0x09 va) ∧
      (va.toNat < 2 ^ 49 → va.toNat % o.size.bytes ≠ 0 → exec i s = s.takeTrap 0x04 va) ∧
      (va.toNat < 2 ^ 49 → va.toNat % o.size.bytes = 0 → inScratch va.toNat = true →
        s.myCore.scratchSize ≤ va.toNat - scratchBase → exec i s = s.takeTrap 0x09 va)) ∧
  (∀ (o : VMemOp) (s : State), isFirmware s.cur = false → s.readable [o.a, o.b] →
    let va := s.me.getX o.a + s.me.getX o.b + o.e.signExtend 64
    ∀ i ∈ [Instr.vld o, .vst o],
      (2 ^ 49 ≤ va.toNat → exec i s = s.takeTrap 0x09 va) ∧
      (va.toNat < 2 ^ 49 → va.toNat % 64 ≠ 0 → exec i s = s.takeTrap 0x04 va) ∧
      (va.toNat < 2 ^ 49 → va.toNat % 64 = 0 → inScratch va.toNat = true →
        s.myCore.scratchSize ≤ va.toNat - scratchBase → exec i s = s.takeTrap 0x09 va)) ∧
  (∀ (o : VGatherOp) (s : State) (j : Nat), isFirmware s.cur = false → s.readable [o.a] →
    let n := o.size.bytes
    let va : Word := s.me.getX o.a +
      (BitVec.ofNat (8 * n) ((s.me.getV o.b).lane n j)).signExtend 64 * BitVec.ofNat 64 n + o.e.signExtend 64
    j < 64 / n → (s.me.getP o.p).getLsbD (j * n) = true → (∀ k, k < j → (s.me.getP o.p).getLsbD (k * n) = false) →
    ∀ i ∈ [Instr.vgat o, .vsca o],
      (2 ^ 49 ≤ va.toNat → exec i s = s.takeTrap 0x09 va) ∧
      (va.toNat < 2 ^ 49 → va.toNat % n ≠ 0 → exec i s = s.takeTrap 0x04 va) ∧
      (va.toNat < 2 ^ 49 → va.toNat % n = 0 → inScratch va.toNat = true →
        s.myCore.scratchSize ≤ va.toNat - scratchBase → exec i s = s.takeTrap 0x09 va)) ∧
  (∀ (o : LoadOp) (u : StoreOp) (s : State) (e : TlbEntry), isFirmware s.cur = false → s.readable [o.a, o.b, u.d] →
    u.a = o.a → u.b = o.b → u.e = o.e → u.size = o.size →
    let va := s.me.getX o.a + s.me.getX o.b + o.e.signExtend 64
    va.toNat < 2 ^ 49 → va.toNat % o.size.bytes = 0 → inScratch va.toNat = false → s.me.refused ≠ some (va >>> 16) →
    tlbFind (s.vfOf s.cur) va.toNat s.myCore.tlb = some e →
      (e.r = false → exec (.ld o) s = s.takeTrap 0x09 va) ∧ (e.w = false → exec (.st u) s = s.takeTrap 0x09 va))) ∧
  (∀ (o : LoadOp) (u : StoreOp) (s : State) (t' : State), isFirmware s.cur = false → s.readable [o.a, o.b, u.d] →
    u.a = o.a → u.b = o.b → u.e = o.e → u.size = o.size →
    let va := s.me.getX o.a + s.me.getX o.b + o.e.signExtend 64
    va.toNat < 2 ^ 49 → va.toNat % o.size.bytes = 0 → inScratch va.toNat = false → s.me.refused ≠ some (va >>> 16) →
    s.translate (.core s.cur.cluster s.cur.core) (s.vfOf s.cur) va.toNat = (t', .missing) →
    s.missOf s.cur.cluster (s.vfOf s.cur) (va.toNat / 2 ^ 16) = none → (s.myCluster).misses.length < 64 →
    ∀ i ∈ [Instr.ld o, .st u], ∃ t, exec i s = .next t ∧ t.me.status = .asleep ∧ t.me.pc = s.me.pc ∧ t.me.x = s.me.x ∧
      (∃ m ∈ t.myCluster.misses, m.va = va ∧ m.agents = [.thread s.cur] ∧ m.served = false) ∧
      Instr.faultQueueWrite (s.vfOf s.cur) ∈ t.pending ∧ (∀ a, t.byteAt a = s.byteAt a))

/-- R185, R186: writing a line back to memory keeps the committed bytes: every byte outside the line, and every byte of a
sector that is dirty or does not hold it; no window being enabled. -/
def Obligations.WriteBackKeepsBytes : Prop :=
  ∀ (s : State) (line a : Nat), (∀ k, s.hub.windows k = []) →
    (a / 256 = line → ∀ l, NMap.find? s.lines line = some l →
      (l.sector (a / 64 % 4)).dirty = true ∨ (l.sector (a / 64 % 4)).have_.getLsbD (a % 64) = false) →
    (s.writeBack line).byteAt a = s.byteAt a ∧ NMap.find? (s.writeBack line).lines line = none

/-- R210 to R212: `ldk` reads its constant window; `pushm` and `popm` move registers to and from the spill stack in the
core's scratch, within SPILLBASE, SPILLLIM and the scratch size, and trap where a bound or an alignment fails. -/
def Obligations.SpillAndConstantResult : Prop :=
  (∀ (d : XReg) (win : BitVec 3) (off : BitVec 17) (size : Size) (sx : Bool) (s : State) (bs : List Byte),
    s.cwin win = some bs → (size = .d → off.getLsbD 0 = false) →
    4 * off.toNat + (if size = .d then 8 else 4) ≤ bs.length →
    s.cwinBad win (4 * off.toNat) (if size = .d then 8 else 4) = false →
    let v := leNat ((bs.drop (4 * off.toNat)).take size.bytes)
    exec (.ldk d win off size sx) s = .next (s.wroteX d
      (if sx then (BitVec.ofNat (8 * size.bytes) v).signExtend 64 else BitVec.ofNat 64 v))) ∧
  (∀ (bank : Bool) (a b : BitVec 5) (s : State), a ≤ b → isFirmware s.cur = false → s.me.pend = [] → s.me.awaits = [] →
    let n := b.toNat - a.toNat + 1
    let size := if bank then 64 else 8
    let sp := s.me.spillsp.toNat
    (bank = true → sp % 64 = 0) → sp + n * size ≤ s.me.spilllim.toNat → s.me.spilllim.toNat ≤ s.myCore.scratchSize →
    s.myCore.scratchSize ≤ 0x40000 →
    ∃ t, exec (.pushm bank a b) s = .next t ∧ t.me.spillsp = s.me.spillsp + BitVec.ofNat 64 (n * size) ∧
      (∀ k, k < n → ByteMap.reads t.myCore.scratch (sp + k * size) size =
        (if bank then (s.me.getV (a + BitVec.ofNat 5 k)).bytes else leBytes 8 (s.me.getX (a + BitVec.ofNat 5 k)).toNat)) ∧
      s.SameMemory t (.scratch sp) (n * size) ∧ s.me.SameRegs { t.me with spillsp := s.me.spillsp }) ∧
  (∀ (bank : Bool) (a b : BitVec 5) (s : State), a ≤ b → isFirmware s.cur = false →
    let n := b.toNat - a.toNat + 1
    let size := if bank then 64 else 8
    let sp := s.me.spillsp.toNat
    (bank = true → sp % 64 = 0) → s.me.spillbase.toNat + n * size ≤ sp → sp ≤ s.myCore.scratchSize → s.myCore.poison = [] →
    ∃ t, exec (.popm bank a b) s = .next t ∧ t.me.spillsp = s.me.spillsp - BitVec.ofNat 64 (n * size) ∧
      (∀ k, k < n →
        let bytes := ByteMap.reads s.myCore.scratch (sp - n * size + k * size) size
        if bank then t.me.getV (a + BitVec.ofNat 5 k) = VWord.ofBytes bytes
        else t.me.getX (a + BitVec.ofNat 5 k) = (if a + BitVec.ofNat 5 k = 0 then 0 else BitVec.ofNat 64 (leNat bytes))) ∧
      (bank = true → t.me.x = s.me.x) ∧ (bank = false → t.me.v = s.me.v) ∧
      (∀ r : BitVec 5, r < a ∨ b < r → t.me.getX r = s.me.getX r ∧ t.me.getV r = s.me.getV r) ∧
      s.me.SameRegs { t.me with spillsp := s.me.spillsp, x := s.me.x, v := s.me.v } ∧ s.SameMemory t .nowhere 0) ∧
  (∀ (bank : Bool) (a b : BitVec 5) (s : State), isFirmware s.cur = false →
    let need := BitVec.ofNat 64 ((b.toNat - a.toNat + 1) * (if bank then 64 else 8))
    (bank = true → s.me.spillsp.toNat % 64 = 0) →
    (s.me.spilllim.toNat < s.me.spillsp.toNat + need.toNat → exec (.pushm bank a b) s = s.takeTrap 0x16 (s.me.spillsp + need)) ∧
    (s.me.spillsp.toNat < s.me.spillbase.toNat + need.toNat → exec (.popm bank a b) s = s.takeTrap 0x16 (s.me.spillsp - need))) ∧
  (∀ (a b : BitVec 5) (s : State), s.me.spillsp.toNat % 64 ≠ 0 →
    ∀ i ∈ [Instr.pushm true a b, .popm true a b], exec i s = s.takeTrap 0x04 s.me.spillsp) ∧
  (∀ (d : XReg) (win : BitVec 3) (off : BitVec 17) (size : Size) (sx : Bool) (s : State),
    let tval := BitVec.ofNat 64 (win.toNat + off.toNat * 2 ^ 20)
    (size = .d → off.getLsbD 0 = true → exec (.ldk d win off size sx) s = s.takeTrap 0x04 tval) ∧
    ((size = .d → off.getLsbD 0 = false) →
      (∀ bs, s.cwin win = some bs → bs.length < 4 * off.toNat + (if size = .d then 8 else 4)) →
      exec (.ldk d win off size sx) s = s.takeTrap 0x09 tval))

/-- R213 to R218: `pref` changes no register and no byte; `cflush` writes its line back, which keeps the committed bytes where
`WriteBackKeepsBytes` says so, and drops it everywhere in the core; `wait` and `fence` pass when what they wait for is done,
as an edge of the order, and hold their word until then; the earliest failed operation among those that they wait for traps
there (R226, R261, R359). What an operation's place in a scope is, and so what a fence waits for, is the model's reading
(entry 31). R215: the completion of a load or a store takes it out of its class; that it changes nothing else, the data having
been written at the access, is the model's choice (entry 8). R185: the fill of a sector makes it valid without a change to any
byte. -/
def Obligations.FlushWaitFenceResult : Prop :=
  ((∀ (o : PrefOp) (s : State), s.readable [o.a, o.b] →
    let va := s.me.getX o.a + s.me.getX o.b + o.e.signExtend 64
    (isFirmware s.cur = true ∨ inScratch va.toNat = false →
      ∃ t, exec (.pref o) s = .next t ∧ s.SameMemory t .nowhere 0 ∧ s.me.SameRegs t.me ∧
        (s.me.rep = none → t.me.pc = s.me.pc + 8)) ∧
    (isFirmware s.cur = false → inScratch va.toNat = true → exec (.pref o) s = s.takeTrap 0x09 va)) ∧
  (∀ (a b : XReg) (e : BitVec 20) (s : State) (pa : Nat) (q : Place), s.readable [a, b] →
    let va := s.me.getX a + s.me.getX b + e.signExtend 64
    s.Leads .r va 1 pa q → s.me.cnt.st < 63 → (q = .dram → s.lineHeld (pa / 256) = false) →
    ∃ t, exec (.cflush a b e) s = .next t ∧ s.me.SameRegs t.me ∧
      (q = .dram → NMap.find? t.lines (pa / 256) = none ∧
        ((∀ k, s.hub.windows k = []) → ∀ x, (x / 256 = pa / 256 → ∀ l, NMap.find? s.lines (pa / 256) = some l →
          (l.sector (x / 64 % 4)).dirty = true ∨ (l.sector (x / 64 % 4)).have_.getLsbD (x % 64) = false) →
          t.byteAt x = s.byteAt x)) ∧ (q ≠ .dram → ∀ x, t.byteAt x = s.byteAt x) ∧
      (∀ p ∈ t.myCore.priv, p.line ≠ pa / 256)) ∧
  (∀ (ld st cp tl ms : BitVec 6) (s : State),
    let c := s.me.cnt
    let room : Prop := c.ld ≤ ld.toNat ∧ c.st ≤ st.toNat ∧ c.cp ≤ cp.toNat ∧ c.tl ≤ tl.toNat ∧ c.ms ≤ ms.toNat
    let lim (k : WClass) : Nat := match k with
      | .ld => ld.toNat
      | .st => st.toNat
      | .cp => cp.toNat
      | .tl => tl.toNat
      | .ms => ms.toNat
    (room → (∀ x ∈ s.me.pend, 63 ≤ lim x.cls) →
      exec (.wait ld st cp tl ms) s = .next (s.updMe (fun t => { t with ltime := max t.ltime s.wmax })).advance) ∧
    (room → ∀ x ∈ s.me.pend, lim x.cls < 63 → (∀ y ∈ s.me.pend, lim y.cls < 63 → y = x ∨ x.order < y.order) →
      exec (.wait ld st cp tl ms) s = (s.updMe (fun t => { t with pend := t.pend.erase x })).takeTrap x.cause x.tval) ∧
    (¬ room → exec (.wait ld st cp tl ms) s = .next s)) ∧
  (∀ (sc : Scope) (s : State),
    let me := s.me
    let code := sc.code.toNat
    let busy : Prop := me.cnt.ld ≠ 0 ∨ me.cnt.tl ≠ 0 ∨ (∃ remote ∈ me.stOut, remote = false ∨ sc = .sys) ∨
      (∃ c ∈ s.myCluster.copies, c.thread = s.cur ∧ c.stint = me.stint ∧ s.copyReach c (s.vfOf s.cur) ≤ code) ∨
      s.mcrdNear s.cur code = true ∨ s.messageNear s.cur code = true
    (¬ busy → (∀ x ∈ me.pend, code < x.reach) →
      exec (.fence sc) s = .next (s.updMe (fun t => { t with ltime := max t.ltime s.wmax })).advance) ∧
    (¬ busy → ∀ x ∈ me.pend, x.reach ≤ code → (∀ y ∈ me.pend, y.reach ≤ code → y = x ∨ x.order < y.order) →
      exec (.fence sc) s = (s.updMe (fun t => { t with pend := t.pend.erase x })).takeTrap x.cause x.tval) ∧
    (busy → exec (.fence sc) s = .next s))) ∧
  ((∀ (t : TsId) (s : State), (s.thread t).cnt.ld ≠ 0 →
    ∃ u, exec (.loadComplete t) s = .next u ∧ (u.thread t).cnt = { (s.thread t).cnt with ld := (s.thread t).cnt.ld - 1 } ∧
      (u.thread t).x = (s.thread t).x ∧ u = { s with threads := u.threads }) ∧
  (∀ (t : TsId) (s : State), (s.thread t).cnt.st ≠ 0 →
    ∃ u, exec (.storePerformed t) s = .next u ∧ (u.thread t).cnt = { (s.thread t).cnt with st := (s.thread t).cnt.st - 1 } ∧
      (u.thread t).stOut = (s.thread t).stOut.drop 1 ∧ (u.thread t).x = (s.thread t).x ∧ u = { s with threads := u.threads }) ∧
  (∀ (pa : Nat) (s : State) (l : SliceLine), NMap.find? s.lines (pa / 256) = some l → (l.sector (pa / 64 % 4)).filling = true →
    ∃ u, exec (.sectorFillComplete pa) s = .next u ∧
      (∃ m, NMap.find? u.lines (pa / 256) = some m ∧ (m.sector (pa / 64 % 4)).valid = true ∧
        (m.sector (pa / 64 % 4)).filling = false ∧ (m.sector (pa / 64 % 4)).dirty = (l.sector (pa / 64 % 4)).dirty) ∧
      (∀ a, u.byteAt a = s.byteAt a)))

/-- R175, R228: `bexp` arms a byte barrier and keeps its credit; `bwait` passes an armed barrier whose credit has come,
subtracts EXPECT and disarms it, as an edge of the order for every thread set of the core, and waits otherwise; `bpoll` reads
the barrier. R176, R371: `bar` opens when every other ranked thread set waits at it or has halted, and all move on; before,
the rank waits; a bounded wait that has lasted LIMIT FCLK, and is not over, traps WAIT_TIMEOUT at its instruction. -/
def Obligations.BarrierResult : Prop :=
  ((∀ (n : BarIx) (a : XReg) (s : State), s.isUser = true → s.readable [a] → (s.me.getX a).toNat < 2 ^ 32 →
    exec (.bexp n a) s = .next (s.updMyCore (fun c => c.setBarrier n
      { credit := (c.barrier n).credit, expect := (s.me.getX a).setWidth 32, armed := true, err := 0 })).advance) ∧
  (∀ (n : BarIx) (a : XReg) (s : State), s.isUser = true → s.readable [a] → 2 ^ 32 ≤ (s.me.getX a).toNat →
    exec (.bexp n a) s = s.takeTrap 0x09 (s.me.getX a)) ∧
  (∀ (n : BarIx) (s : State), s.isUser = true →
    let b := s.myCore.barrier n
    (b.err = 0 → b.armed = true → b.expect ≤ b.credit →
      ∃ t, exec (.bwait n) s = .next t ∧ t.myCore.barrier n = { b with credit := b.credit - b.expect, armed := false } ∧
        (∀ m, m ≠ n → t.myCore.barrier m = s.myCore.barrier m) ∧
        (∀ i, i < 5 → s.wmax ≤ (t.thread ⟨s.cur.cluster, s.cur.core, i⟩).ltime) ∧
        s.SameMemory t .nowhere 0 ∧ s.me.SameRegs t.me) ∧
    (b.err = 0 → (b.armed = false ∨ b.credit < b.expect) → s.me.wait = none →
      exec (.bwait n) s = .next (s.updMe (fun t => { t with wait := some ⟨s.fclk, .barrier n, BitVec.ofNat 64 n.toNat⟩ }))) ∧
    (b.err = 2 → exec (.bwait n) s = s.takeTrap 0x0A (BitVec.ofNat 64 n.toNat)) ∧
    (b.err = 1 ∨ b.err = 3 → exec (.bwait n) s = s.takeTrap 0x09 (BitVec.ofNat 64 n.toNat))) ∧
  (∀ (d : XReg) (n : BarIx) (s : State), s.isUser = true →
    let b := s.myCore.barrier n
    exec (.bpoll d n) s = .next (s.wroteX d
      (BitVec.ofNat 64 (b.credit.toNat + 2 ^ 32 * b.armed.toNat + 2 ^ 33 * b.err.toNat))))) ∧
  ((∀ (s : State) (x : Run), s.isGang = true → s.myRun? = some x → (x.ranked.map TsId.key).Nodup → s.cur ∈ x.ranked →
    ((∀ u ∈ x.ranked, u = s.cur ∨ s.barReady u = true) →
      ∃ t, exec .bar s = .next t ∧ (s.me.rep = none → t.me.pc = s.me.pc + 8) ∧ s.wmax ≤ t.me.ltime ∧
        (∀ u ∈ x.ranked, TsId.key u ≠ TsId.key s.cur → s.atBar u = true → (s.thread u).rep = none →
          (t.thread u).pc = (s.thread u).pc + 8 ∧ (t.thread u).wait = none ∧ s.wmax ≤ (t.thread u).ltime) ∧
        s.SameMemory t .nowhere 0) ∧
    ((∃ u ∈ x.ranked, u ≠ s.cur ∧ s.barReady u = false) → s.me.wait = none →
      exec .bar s = .next (s.updMe (fun t => { t with wait := some ⟨s.fclk, .bar, 0⟩ })))) ∧
  (∀ (t : TsId) (s : State) (w : WaitState) (x : Run), (s.thread t).wait = some w → (s.thread t).status = .ready →
    s.waitOver t w.what = false → (s.thread t).waitlim.toNat % 2 ^ 48 ≠ 0 →
    w.since + (s.thread t).waitlim.toNat % 2 ^ 48 ≤ s.fclk → State.Vectored { s with cur := t } x →
    ∃ u, exec (.waitTimeout t) s = .next u ∧ (u.thread t).tcause = 0x11 ∧ (u.thread t).tval = w.tval ∧
      (u.thread t).tpc = (s.thread t).pc ∧ (u.thread t).pc = BitVec.ofNat 64 (Rec.trapvec x.rec_) ∧
      (u.thread t).wait = none))

/-- R284, R287, R288: the integer vector forms: every enabled lane gets its result, by the type's own signedness, modulo 2^w,
the other lanes keep their values; vadd, vsub and vabs with `.sat` clamp to the type's range and raise SAT. -/
def Obligations.VectorIntegerResult : Prop :=
  (∀ p ∈ ([
      (.vmul, fun _ x y => x * y), (.vmulh, fun w x y => x * y / 2 ^ w), (.vmin, fun _ x y => Min.min x y),
      (.vmax, fun _ x y => Max.max x y)] : List ((VBin → Instr) × (Nat → Int → Int → Int))),
    ∀ (o : VBin) (s : State), (p.1 o).wf = true →
      let n := o.ty.size
      let val (x : Nat) : Int := if o.ty.isSigned then (BitVec.ofNat (8 * n) x).toInt else x
      ∃ v, exec (p.1 o) s = .next (s.wroteV o.d v 0) ∧ LanesAre v (s.me.getV o.d) (s.me.getP o.p) n (fun j =>
        (p.2 (8 * n) (val ((s.me.getV o.a).lane n j)) (val ((s.me.getV o.b).lane n j)) % 2 ^ (8 * n)).toNat)) ∧
  (∀ p ∈ ([
      (.vand, fun _ x y => x &&& y), (.vor, fun _ x y => x ||| y), (.vxor, fun _ x y => x ^^^ y),
      (.vandn, fun _ x y => x &&& ~~~y), (.vshl, fun w x y => x <<< (y.toNat % w)), (.vshr, fun w x y => x >>> (y.toNat % w)),
      (.vsar, fun w x y => x.sshiftRight (y.toNat % w))] :
      List ((VBin → Instr) × ((w : Nat) → BitVec w → BitVec w → BitVec w))),
    ∀ (o : VBin) (s : State),
      let n := o.ty.size
      let val (r : VReg) (j : Nat) : BitVec (8 * n) := BitVec.ofNat (8 * n) ((s.me.getV r).lane n j)
      ∃ v, exec (p.1 o) s = .next (s.wroteV o.d v 0) ∧ LanesAre v (s.me.getV o.d) (s.me.getP o.p) n (fun j =>
        (p.2 (8 * n) (val o.a j) (val o.b j)).toNat)) ∧
  (∀ p ∈ ([(.vadd, fun x y => x + y), (.vsub, fun x y => x - y)] : List ((VBinSat → Instr) × (Int → Int → Int))),
    ∀ (o : VBinSat) (s : State), (p.1 o).wf = true →
      let n := o.ty.size
      let val (r : VReg) (j : Nat) : Int :=
        let x := (s.me.getV r).lane n j
        if o.ty.isSigned then (BitVec.ofNat (8 * n) x).toInt else x
      let exact (j : Nat) : Int := p.2 (val o.a j) (val o.b j)
      let clamped (j : Nat) : Int := Max.max o.ty.intMin (Min.min o.ty.intMax (exact j))
      ∃ v, exec (p.1 o) s = .next (s.wroteV o.d v (laneOr (s.me.getP o.p) n (fun j =>
          if o.sat = true ∧ clamped j ≠ exact j then Flags.sat else 0))) ∧
        LanesAre v (s.me.getV o.d) (s.me.getP o.p) n (fun j =>
          ((if o.sat then clamped j else exact j) % 2 ^ (8 * n)).toNat)) ∧
  (∀ (o : VUnSat) (s : State), (Instr.vabs o).wf = true →
    let n := o.ty.size
    let val (j : Nat) : Int := (BitVec.ofNat (8 * n) ((s.me.getV o.a).lane n j)).toInt
    let least : Int := -(2 ^ (8 * n - 1))
    ∃ v, exec (.vabs o) s = .next (s.wroteV o.d v (laneOr (s.me.getP o.p) n (fun j =>
        if o.sat = true ∧ val j = least then Flags.sat else 0))) ∧
      LanesAre v (s.me.getV o.d) (s.me.getP o.p) n (fun j =>
        if o.sat = true ∧ val j = least then 2 ^ (8 * n - 1) - 1 else (val j).natAbs))

/-- R289, R290: the floating vector forms: every enabled lane gets the rounded result and raises its flags. -/
def Obligations.VectorFloatResult : Prop :=
  (∀ p ∈ ([(.vfadd, fun f rm z x y _ => f.add rm z x y), (.vfsub, fun f rm z x y _ => f.add rm z x y.negate),
      (.vfmul, fun f rm z x y _ => f.mul rm z x y), (.vffma, fun f rm z x y c => f.fma rm z x y c)] :
      List ((VFBin → Instr) × (FFormat → Rm → Bool → FVal → FVal → FVal → FRes))),
    ∀ f ∈ ([(.fp32, fp32), (.fp16, fp16), (.bf16, bf16)] : List (ElemType × FFormat)),
    ∀ (o : VFBin) (s : State), o.ty = f.1 →
      let n := o.ty.size
      let val (r : VReg) (j : Nat) : FVal := f.2.decodeFtz s.me.ftz ((s.me.getV r).lane n j)
      let r (j : Nat) : FRes := p.2 f.2 (s.me.rnd o.rnd) s.me.ftz (val o.a j) (val o.b j) (val o.d j)
      ∃ v, exec (p.1 o) s = .next (s.wroteV o.d v (laneOr (s.me.getP o.p) n (fun j => (r j).flags))) ∧
        LanesAre v (s.me.getV o.d) (s.me.getP o.p) n (fun j => (r j).bits)) ∧
  (∀ p ∈ ([(.vfmin, false), (.vfmax, true)] : List ((VBin → Instr) × Bool)),
    ∀ f ∈ ([(.fp32, fp32), (.fp16, fp16), (.bf16, bf16)] : List (ElemType × FFormat)),
    ∀ (o : VBin) (s : State), o.ty = f.1 →
      let n := o.ty.size
      let r (j : Nat) : FRes := f.2.minMax p.2 s.me.ftz ((s.me.getV o.a).lane n j) ((s.me.getV o.b).lane n j)
      ∃ v, exec (p.1 o) s = .next (s.wroteV o.d v (laneOr (s.me.getP o.p) n (fun j => (r j).flags))) ∧
        LanesAre v (s.me.getV o.d) (s.me.getP o.p) n (fun j => (r j).bits)) ∧
  (∀ p ∈ ([(.vexp2, FFormat.exp2), (.vrcp, FFormat.rcp), (.vrsq, FFormat.rsq),
      (.vfabs, fun f _ x => ⟨x % 2 ^ (f.width - 1), 0⟩),
      (.vfneg, fun f _ x => ⟨if x < 2 ^ (f.width - 1) then x + 2 ^ (f.width - 1) else x - 2 ^ (f.width - 1), 0⟩)] :
      List ((VUn → Instr) × (FFormat → Bool → Nat → FRes))),
    ∀ f ∈ ([(.fp32, fp32), (.fp16, fp16), (.bf16, bf16)] : List (ElemType × FFormat)),
    ∀ (o : VUn) (s : State), o.ty = f.1 →
      let n := o.ty.size
      let r (j : Nat) : FRes := p.2 f.2 s.me.ftz ((s.me.getV o.a).lane n j)
      ∃ v, exec (p.1 o) s = .next (s.wroteV o.d v (laneOr (s.me.getP o.p) n (fun j => (r j).flags))) ∧
        LanesAre v (s.me.getV o.d) (s.me.getP o.p) n (fun j => (r j).bits))

/-- R291 to R294, R299: compares write all ones or zeros over each lane, zeros where disabled; vsel, vperm and vlut; lanes to
and from scalars; plog and pcnt. A write of p0 is discarded. -/
def Obligations.VectorCompareMoveResult : Prop :=
  (∀ (o : VCmp) (s : State), (Instr.vcmp o).wf = true →
    let n := o.ty.size
    let val (r : VReg) (j : Nat) : Int :=
      let x := (s.me.getV r).lane n j
      if o.ty.isSigned then (BitVec.ofNat (8 * n) x).toInt else x
    let holds (j : Nat) : Prop := match o.rel with
      | .eq => val o.a j = val o.b j
      | .ne => val o.a j ≠ val o.b j
      | .lt => val o.a j < val o.b j
      | .le => val o.a j ≤ val o.b j
      | .gt => val o.b j < val o.a j
      | .ge => val o.b j ≤ val o.a j
      | .un => False
    ∃ v, exec (.vcmp o) s = .next (s.wroteP o.d v 0) ∧
      ∀ i, i < 64 → (v.getLsbD i = true ↔ (s.me.getP o.p).getLsbD (i / n * n) = true ∧ holds (i / n))) ∧
  (∀ f ∈ ([(.fp32, fp32), (.fp16, fp16), (.bf16, bf16)] : List (ElemType × FFormat)),
    ∀ (o : VCmp) (s : State), o.ty = f.1 →
    let n := o.ty.size
    let r (j : Nat) : Bool × Flags := FVal.rel o.rel (f.2.decodeFtz s.me.ftz ((s.me.getV o.a).lane n j))
      (f.2.decodeFtz s.me.ftz ((s.me.getV o.b).lane n j))
    ∃ v, exec (.vfcmp o) s = .next (s.wroteP o.d v (laneOr (s.me.getP o.p) n (fun j => (r j).2))) ∧
      ∀ i, i < 64 → v.getLsbD i = ((s.me.getP o.p).getLsbD (i / n * n) && (r (i / n)).1)) ∧
  (∀ (o : VByteSel) (s : State),
    ∃ v, exec (.vsel o) s = .next (s.completed (·.setV o.d v)) ∧ ∀ i, i < 64 →
      v.lane 1 i = if (s.me.getP o.p).getLsbD i then (s.me.getV o.a).lane 1 i else (s.me.getV o.b).lane 1 i) ∧
  (∀ (o : VByteSel) (s : State),
    ∃ v, exec (.vperm o) s = .next (s.wroteV o.d v 0) ∧ LanesAre v (s.me.getV o.d) (s.me.getP o.p) 1 (fun i =>
      let x := (s.me.getV o.b).lane 1 i
      if x < 128 then (s.me.getV o.a).lane 1 (x % 64) else 0)) ∧
  (∀ (o : VBin) (s : State), (Instr.vlut o).wf = true →
    let n := o.ty.size
    ∃ v, exec (.vlut o) s = .next (s.wroteV o.d v 0) ∧ LanesAre v (s.me.getV o.d) (s.me.getP o.p) n (fun j =>
      let e := (s.me.getV o.a).lane 1 j % 64
      leNat ((List.range n).map (fun i =>
        (s.me.getV (o.b + BitVec.ofNat 5 ((e * n + i) / 64))).byte ((e * n + i) % 64))))) ∧
  (∀ (o : VSplat) (s : State), s.readable [o.a] →
    ∃ v, exec (.vsplat o) s = .next (s.wroteV o.d v 0) ∧
      LanesAre v (s.me.getV o.d) (s.me.getP o.p) o.ty.size (fun _ => (s.me.getX o.a).toNat)) ∧
  (∀ (d : VReg) (a : XReg) (ty : ElemType) (lane : BitVec 6) (s : State), (Instr.vins d a ty lane).wf = true → s.readable [a] →
    ∃ v, exec (.vins d a ty lane) s = .next (s.completed (·.setV d v)) ∧ ∀ j, j < 64 / ty.size →
      v.lane ty.size j =
        if j = lane.toNat then (s.me.getX a).toNat % 2 ^ (8 * ty.size) else (s.me.getV d).lane ty.size j) ∧
  (∀ (d : XReg) (a : VReg) (ty : ElemType) (lane : BitVec 6) (s : State),
    let x := (s.me.getV a).lane ty.size lane.toNat
    exec (.vext d a ty lane) s = .next (s.wroteX d
      (if ty.isSigned then (BitVec.ofNat (8 * ty.size) x).signExtend 64 else BitVec.ofNat 64 x))) ∧
  (∀ (op : PlogOp) (d a b : PReg) (s : State),
    let x := s.me.getP a
    let y := s.me.getP b
    exec (.plog op d a b) s = .next (s.completed (·.setP d (match op with
      | .and => x &&& y
      | .or => x ||| y
      | .xor => x ^^^ y
      | .andn => x &&& ~~~y
      | .not => ~~~x)))) ∧
  (∀ (d : XReg) (a : PReg) (ty : ElemType) (s : State),
    exec (.pcnt d a ty) s = .next (s.wroteX d (BitVec.ofNat 64
      (((List.range (64 / ty.size)).filter (fun j => (s.me.getP a).getLsbD (j * ty.size))).length))))

/-- R295 to R298: vcvt, vdot, vred and vscan. Integer sums are sums modulo 2^w of the enabled lanes. -/
def Obligations.VectorConvertReduceResult : Prop :=
  (∀ (o : VCvt) (s : State), (Instr.vcvt o).wf = true →
    let n := 64 / max o.src.size o.dst.size
    let r (j : Nat) : FRes :=
      let x := (s.me.getV o.a).lane o.src.size j
      if o.dst.isInt && o.src.isInt then convertInt o.dst o.src o.sat x else convert o.dst o.src (s.me.rnd o.rnd) s.me.ftz x
    ∃ v f, exec (.vcvt o) s = .next (s.wroteV o.d v f) ∧
      f = (List.range n).foldl (fun acc j =>
        if (s.me.getP o.p).getLsbD (j * o.dst.size) then acc ||| (r j).flags else acc) 0 ∧
      ∀ j, j < 64 / o.dst.size → v.lane o.dst.size j =
        if n ≤ j then 0
        else if (s.me.getP o.p).getLsbD (j * o.dst.size) then (r j).bits % 2 ^ (8 * o.dst.size)
        else (s.me.getV o.d).lane o.dst.size j) ∧
  (∀ (o : VDot) (s : State), (Instr.vdot o).wf = true → o.ty = .i32 →
    let n := o.st.size
    let val (r : VReg) (k : Nat) : Int :=
      let x := (s.me.getV r).lane n k
      if o.st.isSigned then (BitVec.ofNat (8 * n) x).toInt else x
    let exact (j : Nat) : Int := (BitVec.ofNat 32 ((s.me.getV o.d).lane 4 j)).toInt +
      ((List.range (4 / n)).map (fun i => val o.a (j * (4 / n) + i) * val o.b (j * (4 / n) + i))).sum
    let clamped (j : Nat) : Int := Max.max (-(2 ^ 31)) (Min.min (2 ^ 31 - 1) (exact j))
    ∃ v, exec (.vdot o) s = .next (s.wroteV o.d v (laneOr (s.me.getP o.p) 4 (fun j =>
        if o.sat = true ∧ clamped j ≠ exact j then Flags.sat else 0))) ∧
      LanesAre v (s.me.getV o.d) (s.me.getP o.p) 4 (fun j => ((if o.sat then clamped j else exact j) % 2 ^ 32).toNat)) ∧
  (∀ (o : VDot) (s : State), o.ty = .fp32 →
    let n := o.st.size
    let r (j : Nat) : FRes := matrixSum ((List.range (4 / n)).map (fun i =>
        elemProduct o.st ((s.me.getV o.a).lane n (j * (4 / n) + i)) ((s.me.getV o.b).lane n (j * (4 / n) + i))))
      0x3F800000 0x3F800000 ((s.me.getV o.d).lane 4 j) (s.me.rnd o.rnd) s.me.ftz
    ∃ v, exec (.vdot o) s = .next (s.wroteV o.d v (laneOr (s.me.getP o.p) 4 (fun j => (r j).flags))) ∧
      LanesAre v (s.me.getV o.d) (s.me.getP o.p) 4 (fun j => (r j).bits)) ∧
  (∀ (o : VRed) (s : State), (Instr.vred o).wf = true →
    let n := o.ty.size
    let lane (j : Nat) : Nat := (s.me.getV o.a).lane n j
    let on (j : Nat) : Bool := (s.me.getP o.p).getLsbD (j * n)
    ∃ r : FRes, exec (.vred o) s = .next (s.wroteXF o.d
        (if o.ty.isSigned then (BitVec.ofNat (8 * n) r.bits).signExtend 64 else BitVec.ofNat 64 r.bits) r.flags) ∧
      r = treeSum (laneAdd o.ty (s.me.rnd o.rnd) s.me.ftz o.sat) 6
        ((List.range (64 / n)).map (fun j => if on j then some (lane j) else none)) ∧
      (o.ty.isInt = true → o.sat = false →
        r = ⟨(((List.range (64 / n)).filter on).map lane).sum % 2 ^ (8 * n), 0⟩)) ∧
  (∀ (o : VScan) (s : State), (Instr.vscan o).wf = true →
    let n := o.ty.size
    let lane (j : Nat) : Nat := (s.me.getV o.a).lane n j
    let on (j : Nat) : Bool := (s.me.getP o.p).getLsbD (j * n)
    let add := laneAdd o.ty (s.me.rnd o.rnd) s.me.ftz o.sat
    let running (j : Nat) : Option FRes := ((List.range (j + 1)).filter on).foldl (fun acc i => some (match acc with
      | none => ⟨lane i, 0⟩
      | some r => ⟨(add r.bits (lane i)).bits, r.flags ||| (add r.bits (lane i)).flags⟩)) none
    ∃ v f, exec (.vscan o) s = .next (s.wroteV o.d v f) ∧
      f = ((running (64 / n - 1)).map FRes.flags).getD 0 ∧
      (∀ j, j < 64 / n → v.lane n j = ((running j).map FRes.bits).getD 0 % 2 ^ (8 * n)) ∧
      (o.ty.isInt = true → o.sat = false → ∀ j, j < 64 / n →
        v.lane n j = (((List.range (j + 1)).filter on).map lane).sum % 2 ^ (8 * n)))

/-- R264, R265, R309, R310: `leash` takes the free leash, with a fresh grant and a full ROWMASK, and waits for one that is
held; `unleash` parks the chain and frees it; a grant goes to a waiting request of the highest priority. R263, R312 checks 1
to 3: without the leash, a matrix instruction traps NO_LEASH; on an array that has failed, NO_ARRAY. -/
def Obligations.LeashResult : Prop :=
  ((∀ s : State, s.isGang = true → s.arrayDown s.cur.cluster = false → s.isHolder s.cur = true →
    exec .leash s = .next s.advance) ∧
  (∀ s : State, s.isGang = true → s.arrayDown s.cur.cluster = false → s.me.chain.resume = false →
    s.myCluster.array.holder = none → s.leashReqs s.cur.cluster = [] →
    ∃ t, exec .leash s = .next t ∧ t.isHolder t.cur = true ∧ t.myCluster.array.rowmask = 0xFFFFFFFF ∧
      t.myCluster.array.grantStart = s.fclk ∧ t.myCluster.array.grantCount = 0 ∧ t.myCluster.array.block = s.myCluster.array.block ∧
      s.SameMemory t .nowhere 0 ∧ s.me.SameRegs t.me) ∧
  (∀ s : State, s.isGang = true → s.arrayDown s.cur.cluster = false → s.me.chain.resume = false → s.isHolder s.cur = false →
    s.myCluster.array.holder ≠ none → s.me.wait = none →
    exec .leash s = .next (s.updMe (fun t => { t with wait := some ⟨s.fclk, .leash false, 0⟩ }))) ∧
  (∀ s : State, s.isGang = true → s.arrayDown s.cur.cluster = false → s.isHolder s.cur = true →
    s.myCluster.array.orphan = none →
    ∃ t, exec .unleash s = .next t ∧ t.isHolder t.cur = false ∧
      (s.me.chain.state = .live → t.me.chain.state = .parked ∧ ∀ i, i < 2048 →
        ByteMap.read t.myCluster.cbuf (2048 * (4 * s.cur.core + s.cur.set) + i) = (Block.bytes s.myCluster.array.block).getD i 0) ∧
      (s.me.chain.state ≠ .live → t.me.chain.state = s.me.chain.state) ∧
      t.me.chain.rowmask = s.myCluster.array.rowmask ∧ t.me.chain.cls = s.me.chain.cls ∧
      s.SameMemory t .nowhere 0 ∧ s.me.SameRegs { t.me with chain := s.me.chain }) ∧
  (∀ (c : Nat) (s : State), (s.cluster c).array.holder = none → s.arrayDown c = false → s.leashReqs c ≠ [] →
    ∃ t r, exec (.leashGrant c) s = .next t ∧ r ∈ s.leashReqs c ∧ (∀ q ∈ s.leashReqs c, q.prio ≤ r.prio) ∧
      r.thread.cluster = c ∧ (t.cluster c).array.holder = some r.thread ∧ (t.cluster c).array.grantCount = 0)) ∧
  (∀ (o : MatOp) (a : XReg) (t : TileOpd) (s : State), s.isGang = true →
    ∀ i ∈ [Instr.mzero, .mrow a, .mmat o, .mmam o, .mdrain a, .mdrainTile t],
      (s.arrayDown s.cur.cluster = true → exec i s = s.takeTrap 0x19 0) ∧
      (s.arrayDown s.cur.cluster = false → s.isHolder s.cur = false → s.me.chain.resume = false → s.me.wait = none →
        exec i s = s.takeTrap 0x18 0))

/-- R265, R267, R313, R315: `mzero` opens a chain of zeros, `mrow` writes ROWMASK, `mdrain` writes the block to scratch or to
a tile of CBUF and closes the chain. -/
def Obligations.BlockMoves : Prop :=
  (∀ s : State, s.HoldsLeash →
    ∃ t, exec .mzero s = .next t ∧ (∀ n, n < 512 → t.chainCell n = 0) ∧ t.me.chain.state = .live ∧ t.me.chain.cls = .none ∧
      t.myCluster.array.rowmask = s.myCluster.array.rowmask ∧ s.SameMemory t .nowhere 0 ∧
      s.me.SameRegs { t.me with chain := s.me.chain }) ∧
  (∀ (a : XReg) (s : State), s.HoldsLeash → s.readable [a] →
    ∃ t, exec (.mrow a) s = .next t ∧ t.myCluster.array.rowmask = (s.me.getX a).setWidth 32 ∧
      t.myCluster.array.block = s.myCluster.array.block ∧ s.SameMemory t .nowhere 0 ∧ s.me.SameRegs t.me) ∧
  (∀ (a : XReg) (s : State), s.HoldsLeash → s.readable [a] →
    let off := (s.me.getX a).toNat
    (off % 64 = 0 → off + 2048 ≤ s.myCore.scratchSize →
      ∃ t, exec (.mdrain a) s = .next t ∧ t.me.chain.state = .none ∧
        (∀ n, n < 512 → leNat (ByteMap.reads t.myCore.scratch (off + 4 * n) 4) = (s.chainCell n).toNat) ∧
        s.SameMemory t (.scratch off) 2048 ∧ s.me.SameRegs { t.me with chain := s.me.chain }) ∧
    (off % 64 ≠ 0 ∨ s.myCore.scratchSize < off + 2048 → exec (.mdrain a) s = s.takeTrap 0x04 (s.me.getX a))) ∧
  (∀ (o : TileOpd) (n : TileIx) (s : State), s.HoldsLeash → s.TileReady o n →
    let d := s.desc n
    (tdBuf d = .cbuf → tdRows d = 32 → tdRowBytes d = 64 →
      ∃ t, exec (.mdrainTile o) s = .next t ∧ t.me.chain.state = .none ∧ (t.tile s.cur.cluster n).state = .ready ∧
        (∀ k, k < 512 → leNat (ByteMap.reads t.myCluster.cbuf (256 * tdBase d + 4 * k) 4) = (s.chainCell k).toNat) ∧
        s.SameMemory t .nowhere 0 ∧ s.me.SameRegs { t.me with chain := s.me.chain }) ∧
    (tdBuf d ≠ .cbuf ∨ tdRows d ≠ 32 ∨ tdRowBytes d ≠ 64 →
      exec (.mdrainTile o) s = s.takeTrap 0x09 (BitVec.ofNat 64 (0x300 + n.toNat))))

/-- R266, R278, R305, R313, R314: `mmat` and `mmam`. Row i of the A tile and row j of the B tile give cell (i, j): the exact
INT8 sum, or MatrixSum of the products, each times the scales of its group of 32; `mmam` starts from the chain's block. A row
whose ROWMASK bit is clear reads zero after `mmat` and keeps its cells after `mmam`. -/
def Obligations.MatrixProduct : Prop :=
  ∀ (mam : Bool) (o : MatOp) (na nb : TileIx) (s : State), (Instr.mmat o).wf = true → s.HoldsLeash → s.readable [o.d] →
    s.TileReady o.a na → s.TileReady o.b nb →
    let c := s.myCluster
    let da := s.desc na
    let db := s.desc nb
    let ds := s.desc o.o3
    let size := o.ty.size
    let len := tdRowBytes da / size
    tdBuf da = .abuf → tdRows da = 32 → tdRowBytes da % 256 = 0 → 256 ≤ tdRowBytes da →
    tdBuf db = .wbuf → tdRows db = 16 → tdRowBytes db = tdRowBytes da →
    (o.sa = true ∨ o.sb = true → s.TileReady (.tile o.o3) o.o3 ∧ tdBuf ds = .sbuf ∧ tdRows ds = 48 ∧ len / 32 ≤ tdRowBytes ds) →
    (mam = true → s.me.chain.state = .none ∨ s.me.chain.cls = .none ∨ s.me.chain.cls = (if o.ty = .i8 then .int else .float)) →
    let at_ (b : Buf) (d : Word) (r k n : Nat) : Nat :=
      leNat (ByteMap.reads (c.buf b) (256 * tdBase d + r * tdRowBytes d + k) n)
    let ea (i k : Nat) : Nat := at_ .abuf da i (k * size) size
    let eb (j k : Nat) : Nat := at_ .wbuf db j (k * size) size
    let scaled (on : Bool) (row k : Nat) (q : Term) : Term :=
      if on then q.mul (Term.ofVal (e4m3.decode (at_ .sbuf ds row (k / 32) 1))) else q
    let ta := if o.ts then (s.me.getX o.d).toNat % 2 ^ 32 else 0x3F800000
    let tb := if o.ts then (s.me.getX o.d).toNat / 2 ^ 32 else 0x3F800000
    let prior (n : Nat) : BitVec 32 := if mam then s.chainCell n else 0
    let cell (i j : Nat) : FRes :=
      if o.ty = .i8 then
        let exact : Int := (prior (16 * i + j)).toInt +
          ((List.range len).map (fun k => (BitVec.ofNat 8 (ea i k)).toInt * (BitVec.ofNat 8 (eb j k)).toInt)).sum
        let clamped : Int := Max.max (-(2 ^ 31)) (Min.min (2 ^ 31 - 1) exact)
        if o.sat then ⟨(BitVec.ofInt 32 clamped).toNat, if clamped = exact then 0 else Flags.sat⟩
        else ⟨(BitVec.ofInt 32 exact).toNat, 0⟩
      else matrixSum ((List.range len).map (fun k =>
        scaled o.sb (32 + j) k (scaled o.sa i k (elemProduct o.ty (ea i k) (eb j k))))) ta tb (prior (16 * i + j)).toNat
        s.me.rm s.me.ftz
    ∃ t, exec (if mam then .mmam o else .mmat o) s = .next t ∧
      (∀ i j, i < 32 → j < 16 → t.chainCell (16 * i + j) =
        if c.array.rowmask.getLsbD i then BitVec.ofNat 32 (cell i j).bits else prior (16 * i + j)) ∧
      t.me.chain.state = .live ∧ t.me.chain.cls = (if o.ty = .i8 then .int else .float) ∧
      t.me.fpflags = s.me.fpflags ||| (((List.range 512).filter (fun n => c.array.rowmask.getLsbD (n / 16))).foldl
        (fun f n => f ||| (cell (n / 16) (n % 16)).flags) 0) ∧
      s.SameMemory t .nowhere 0 ∧ s.me.SameRegs { t.me with chain := s.me.chain, fpflags := s.me.fpflags }

/-- R140, R141, R144 to R146, R151, R154 to R156, R158, R161: the clause instructions other than `cprop`, on an array that
the issuer holds; another's array is CLAUSE_BUSY. -/
def Obligations.ClauseResult : Prop :=
  (∀ (d : XReg) (s : State), s.clauseContext = true → s.myClause.poisoned = false →
    (s.myClause.holder = none ∨ s.myClause.holder = some s.clauseSelf →
      exec (.cclaim d) s = .next ((s.updClause s.clauseHome (fun _ =>
        ⟨ClauseArray.empty, some s.clauseSelf, true, false⟩)).wroteX d 0x0000000002000080)) ∧
    (∀ h, s.myClause.holder = some h → h ≠ s.clauseSelf → exec (.cclaim d) s = s.takeTrap 0x17 1)) ∧
  (∀ (d a : XReg) (v : VReg) (s : State), s.clauseContext = true →
    ∀ i ∈ [Instr.cload a v, .cdrop a, .cdec a, .cprop d, .cback a, .ctrail d a, .crow d a, .cconf d, .cfree],
      (∀ h, s.myClause.holder = some h → h ≠ s.clauseSelf → exec i s = s.takeTrap 0x17 1) ∧
      (s.myClause.holder = none → exec i s = s.takeTrap 0x17 0)) ∧
  (∀ (a : XReg) (v : VReg) (s : State) (c : ClauseArray), s.HoldsClauses c → s.readable [a] →
    let n := (s.me.getX a).toNat
    (511 < n → exec (.cload a v) s = s.takeTrap 0x09 (s.me.getX a) ∧ exec (.cdrop a) s = s.takeTrap 0x09 (s.me.getX a)) ∧
    (n ≤ 511 →
      (∃ c', exec (.cload a v) s = .next (s.setClauses c').advance ∧
        (∃ k, c'.cols.find? (fun p => p.1 = n) = some (n, k) ∧ ∀ r, r < 128 →
          (k.pos.getLsbD r = true ↔ ∃ i, i < 32 ∧ let h := (s.me.getV v).lane 2 i
            h.testBit 15 = true ∧ h.testBit 8 = false ∧ h % 128 = r) ∧
          (k.neg.getLsbD r = true ↔ ∃ i, i < 32 ∧ let h := (s.me.getV v).lane 2 i
            h.testBit 15 = true ∧ h.testBit 8 = true ∧ h % 128 = r)) ∧
        (∀ m, m ≠ n → c'.cols.find? (fun p => p.1 = m) = c.cols.find? (fun p => p.1 = m)) ∧
        c'.level = c.level ∧ c'.trail = c.trail ∧ c'.conf = c.conf) ∧
      (∃ c', exec (.cdrop a) s = .next (s.setClauses c').advance ∧
        (∀ m, c'.cols.find? (fun p => p.1 = m) = if m = n then none else c.cols.find? (fun p => p.1 = m)) ∧
        c'.level = c.level ∧ c'.trail = c.trail ∧ c'.conf = c.conf))) ∧
  (∀ (a : XReg) (s : State) (c : ClauseArray), s.HoldsClauses c → s.readable [a] →
    let w := (s.me.getX a).toNat
    ((∀ e ∈ c.trail, e.row ≠ w % 128) → c.conf = none →
      exec (.cdec a) s = .next (s.setClauses { c with
        level := c.level + 1
        trail := c.trail ++ [⟨w % 128, !w.testBit 8, c.level + 1, true, 0, 0⟩] }).advance) ∧
    ((∃ e ∈ c.trail, e.row = w % 128) →
      exec (.cdec a) s = s.takeTrap 0x09 (BitVec.ofNat 64 (0x0200000000000000 + w % 512))) ∧
    ((∀ e ∈ c.trail, e.row ≠ w % 128) → c.conf ≠ none →
      exec (.cdec a) s = s.takeTrap 0x09 (BitVec.ofNat 64 (0x0300000000000000 + w % 512))) ∧
    exec (.cback a) s = .next (s.setClauses { c with
      trail := c.trail.filter (fun e => e.level ≤ w % 256)
      level := min c.level (w % 256)
      conf := none }).advance) ∧
  (∀ (d a : XReg) (s : State) (c : ClauseArray), s.HoldsClauses c → s.readable [a] →
    let w := (s.me.getX a).toNat
    exec (.ctrail d a) s = .next (s.wroteX d (match c.trail[w]? with
      | some e => field 0 e.row ||| field 7 e.value.toNat ||| field 8 e.level ||| field 16 e.decided.toNat ||| field 32 e.reason |||
          field 48 e.wave
      | none => 0)) ∧
    exec (.crow d a) s = .next (s.wroteX d
      (field 24 (c.cols.any (fun k => k.2.pos.getLsbD (w % 128) || k.2.neg.getLsbD (w % 128))).toNat |||
        (match c.trail.find? (fun e => e.row == w % 128) with
        | some e => field 0 1 ||| field 1 e.value.toNat ||| field 8 e.level
        | none => 0))) ∧
    exec (.cconf d) s = .next (s.wroteX d (match c.conf with
      | some k => field 0 k.column ||| field 16 k.level ||| field 24 k.wave ||| field 32 1
      | none => 0)) ∧
    exec .cfree s = .next (s.updClause s.clauseHome (fun u =>
      { u with holder := none, claimed := false, poisoned := false })).advance) ∧
  (∀ (c : Nat) (s : State), s.input = .clauseEcc c false →
    exec .clauseArrayEccError s = .next (s.updClause c (fun u =>
      { u with arr := ClauseArray.empty, poisoned := u.holder.isSome }))) ∧
  (∀ (c : Nat) (s : State), s.input = .clauseEcc c true →
    ∃ t, exec .clauseArrayEccError s = .next t ∧ Instr.arbitrationRound c ∈ t.pending ∧ t = { s with pending := t.pending })

/-- R142, R143, R157: `cprop` runs its waves to the end: it stops on a conflict, which it reports, or leaves no column that
forces a row or conflicts; it adds trail entries of the current level, and changes no column. -/
def Obligations.PropagationResult : Prop :=
  ∀ (d : XReg) (s : State) (c : ClauseArray), s.HoldsClauses c →
    let word (st w f : Nat) (c : ClauseArray) : Word :=
      field 0 st ||| field 8 w ||| field 16 f ||| field 24 c.level ||| field 32 c.trail.length
    (c.conf ≠ none → exec (.cprop d) s = .next ((s.setClauses c).wroteX d (word 2 0 0 c))) ∧
    (c.conf = none →
      ∃ c' st w new, exec (.cprop d) s = .next ((s.setClauses c').wroteX d (word st w new.length c')) ∧
        c'.cols = c.cols ∧ c'.level = c.level ∧ c'.trail = c.trail ++ new ∧ 1 ≤ w ∧ w ≤ 129 ∧
        (∀ e ∈ new, e.level = c.level ∧ e.decided = false ∧ e.row < 128 ∧ ∀ x ∈ c.trail, x.row < 128 → x.row ≠ e.row) ∧
        (st = 2 ↔ c'.conf ≠ none) ∧
        (∀ k, c'.conf = some k → k.level = c.level ∧ k.wave = w ∧
          ∃ q ∈ c.cols, q.1 = k.column ∧ q.2.state c'.masks.1 c'.masks.2 = .conflict) ∧
        (c'.conf = none → (st = 1 ↔ ∀ r, r < 128 → c.used r = true → c'.masks.2.getLsbD r = true) ∧
          ∀ q ∈ c.cols, q.2.state c'.masks.1 c'.masks.2 = .satisfied ∨ q.2.state c'.masks.1 c'.masks.2 = .opened))

/-- R219 to R228: `cpset` writes a shadow field; `cpgo` checks the fields, numbers the copy and starts it; `cpst` reads a
copy's status; a segment of a copy moves the bytes that remain of its row within one 256-byte block of the destination,
credits its barrier, and the last one ends the copy. That a segment waits for the atomics that its thread set issued before is the
model's reading (entry 106). -/
def Obligations.CopyResult : Prop :=
  (∀ (k : BitVec 3) (a : XReg) (s : State), s.isUser = true → s.readable [a] →
    exec (.cpset k a) s = .next (s.completed (fun t => { t with shadow := t.shadow.set k.toNat (s.me.getX a) k.isLt }))) ∧
  (∀ (d : XReg) (s : State), s.isUser = true →
    let f := s.me.shadow
    let h := if Shadow.handleEn f then s.me.getH (Shadow.hreg f) else 0
    (∀ k, Shadow.reserved f = some k → exec (.cpgo d) s = s.takeTrap 0x09 (BitVec.ofNat 64 k)) ∧
    (Shadow.reserved f = none → 2 ^ 32 ≤ Shadow.rows f * Shadow.rowBytes f → exec (.cpgo d) s = s.takeTrap 0x09 2) ∧
    (Shadow.reserved f = none → Shadow.rows f * Shadow.rowBytes f < 2 ^ 32 → Shadow.rowBytes f % (Shadow.sizes f).1 = 0 →
      (Shadow.handleEn f = true → h ≠ 0 ∧ h.validate = none) →
      (∀ r, r < Shadow.rows f → (copySrc f h).badRow s.myCore.scratchSize r = none ∧
        (copyDst f h).badRow s.myCore.scratchSize r = none) →
      let n := s.me.nextCopy
      (Shadow.rows f = 0 ∨ Shadow.rowBytes f = 0 → ∃ t, exec (.cpgo d) s = .next t ∧
        t.me.getX d = (if d = 0 then 0 else n.setWidth 64) ∧ ⟨n, 3, 0⟩ ∈ t.me.copies ∧ t.me.cnt = s.me.cnt ∧
        t.myCluster.copies = s.myCluster.copies ∧ s.SameMemory t .nowhere 0) ∧
      (Shadow.rows f ≠ 0 → Shadow.rowBytes f ≠ 0 → s.me.cnt.cp < 63 → ∃ t, exec (.cpgo d) s = .next t ∧
        t.me.getX d = (if d = 0 then 0 else n.setWidth 64) ∧ ⟨n, 1, 0⟩ ∈ t.me.copies ∧
        t.me.cnt = { s.me.cnt with cp := s.me.cnt.cp + 1 } ∧
        t.myCluster.copies = s.myCluster.copies ++ [⟨s.cur, s.me.stint, s.me.act, n, s.order, f, h, 0, 0, 0, false, 0, [], []⟩] ∧
        Instr.copySegment s.cur n ∈ t.pending ∧ s.SameMemory t .nowhere 0))) ∧
  (∀ (d a : XReg) (s : State), s.isUser = true → s.readable [a] →
    exec (.cpst d a) s = .next (s.wroteX d
      (match s.me.copies.find? (fun q => q.id == (s.me.getX a).setWidth 16) with
      | some q => field 0 q.state ||| field 16 q.segs
      | none => 0))) ∧
  (∀ (c : CopyOp) (s u : State) (raw : List Byte) (p : Spot), (s.cluster c.thread.cluster).copies = [c] → c.suspended = false →
    c.act = none → (s.thread c.thread).act = none → (s.thread c.thread).stint = c.stint → Shadow.handleEn c.fields = false →
    c.row < Shadow.rows c.fields → s.amoBefore c.thread c.order = false →
    let f := c.fields
    let e := c.engine (((s.cluster c.thread.cluster).run.map s.vfOfRun).getD 0)
    let src := copySrc f c.hrec
    let dst := copyDst f c.hrec
    let a := dst.plain c.row c.off
    let n := min (dst.bytes - c.off) (256 - a.toNat % 256)
    let ss := (Shadow.sizes f).1
    let ds := (Shadow.sizes f).2
    let e0 := c.off / ds
    let e1 := (c.off + n + ds - 1) / ds
    c.off < dst.bytes →
    s.EngineReads e (src.plain c.row (e0 * ss)).toNat ((e1 - e0) * ss) raw u → s.EngineAt e .w a p → u.EngineWrites e a p →
    let conv := if Shadow.widens f then ((Shadow.pair f).widenBytes raw, 0) else (Shadow.pair f).narrowBytes raw
    let bytes := (conv.1.drop (c.off - e0 * ds)).take n
    let last := dst.bytes ≤ c.off + n ∧ Shadow.rows f ≤ c.row + 1
    ∃ t, exec (.copySegment c.thread c.id) s = .next t ∧ t.spotBytes e p n = bytes ∧
      State.SameMemory { s with cur := c.thread } t p.site n ∧
      (t.thread c.thread).fpflags = (s.thread c.thread).fpflags ||| conv.2 ∧
      (Shadow.barEn f = true → ((t.core c.thread.cluster c.thread.core).barrier (Shadow.barn f)).credit =
        ((s.core c.thread.cluster c.thread.core).barrier (Shadow.barn f)).credit + BitVec.ofNat 32 n) ∧
      (last → (t.cluster c.thread.cluster).copies = [] ∧ (t.thread c.thread).cnt.cp = (s.thread c.thread).cnt.cp - 1 ∧
        ((∃ q ∈ (s.thread c.thread).copies, q.id = c.id) → ⟨c.id, 3, c.segs + 1⟩ ∈ (t.thread c.thread).copies)) ∧
      (¬ last → (t.cluster c.thread.cluster).copies = [{ c with
          segs := c.segs + 1
          row := if dst.bytes ≤ c.off + n then c.row + 1 else c.row
          off := if dst.bytes ≤ c.off + n then 0 else c.off + n
          moved := c.moved + n }] ∧
        (t.thread c.thread).cnt = (s.thread c.thread).cnt ∧ Instr.copySegment c.thread c.id ∈ t.pending))

/-- R253 to R257, R259, R260: the tile table and its litters. -/
def Obligations.TileTableResult : Prop :=
  (∀ (n : TileIx) (a : XReg) (s : State), s.isUser = true → s.readable [a] →
    let d := s.me.getX a
    let e := s.tile s.cur.cluster n
    (e.state = .filling ∨ e.state = .draining → exec (.tdef n a) s = s.takeTrap 0x09 (BitVec.ofNat 64 (0x100 + n.toNat))) ∧
    (e.state = .empty ∨ e.state = .ready → tdOk d = false → exec (.tdef n a) s = s.takeTrap 0x09 d) ∧
    (e.state = .empty ∨ e.state = .ready → tdOk d = true →
      ∃ t, exec (.tdef n a) s = .next t ∧
        t.tile s.cur.cluster n = { e with desc := d, state := .empty, ferr := false } ∧
        (∀ m, m ≠ n → t.tile s.cur.cluster m = s.tile s.cur.cluster m) ∧
        (tdInLit d = true → ∀ q : BitVec 32, q.toNat % (tdNm1 d + 1) = tdSlot d →
          t.litEntry s.cur.cluster (tdLit d) q = some n) ∧
        (tdInLit d = false → t.bound s.cur.cluster n = false) ∧ s.SameMemory t .nowhere 0 ∧ s.me.SameRegs t.me)) ∧
  (∀ (d : XReg) (o : TileOpd) (n : TileIx) (s : State), s.isUser = true → s.TileNamed o n →
    let e := s.tile s.cur.cluster n
    let st := match e.state with
      | .empty => 0
      | .filling => 1
      | .ready => 2
      | .draining => 3
    exec (.tstat d o) s = .next (s.completed (fun t => { t.setX d (BitVec.ofNat 64 (st + 4 * e.ferr.toNat +
        8 * (s.bound s.cur.cluster n).toNat + 2 ^ 8 * e.seq.toNat + 2 ^ 40 * (e.bytes % 2 ^ 24))) with
      ltime := max t.ltime s.wmax }))) ∧
  (∀ (n : TileIx) (s : State), s.isUser = true →
    let st := (s.tile s.cur.cluster n).state
    (st = .empty ∨ st = .ready → exec (.tfree (.tile n)) s =
      .next (s.updTile s.cur.cluster n (fun e => { e with state := .empty })).advance) ∧
    (st = .filling ∨ st = .draining → exec (.tfree (.tile n)) s = .next s)) ∧
  (∀ (l : LitIx) (x : XReg) (n : TileIx) (s : State), s.isUser = true → s.TileReady (.lit l x) n →
    exec (.tfree (.lit l x)) s = .next (s.updTile s.cur.cluster n (fun e => { e with state := .empty })).advance) ∧
  (∀ (l : LitIx) (x : XReg) (o : TileOpd) (s : State), s.isUser = true → o = .lit l x → s.readable [x] →
    s.litEntry s.cur.cluster l ((s.me.getX x).setWidth 32) = none →
    ∀ d, ∀ i ∈ [Instr.tstat d o, .tfree o],
      exec i s = s.takeTrap 0x12 (BitVec.ofNat 64 ((s.me.getX x).toNat % 2 ^ 32 + 2 ^ 32 * l.toNat + 2 ^ 36))) ∧
  (∀ (d : XReg) (l : LitIx) (s : State), s.isUser = true →
    let t := s.litter s.cur.cluster l
    exec (.lnext d l) s = .next ((s.updMe (·.setX d (t.pseq.setWidth 64))).updLitter s.cur.cluster l
      (fun t => { t with pseq := t.pseq + 1 })).advance ∧
    exec (.lget d l) s = .next (s.wroteX d (field 0 t.pseq.toNat ||| field 32 t.n ||| field 48
      (t.slots.foldl (fun acc e =>
        if (s.tile s.cur.cluster (BitVec.ofNat 8 e.2)).state = .ready then acc ||| 2 ^ e.1 else acc) 0))))

/-- R258, R261: `tfill` and `tdrain` claim their entry and start; a segment of a fill writes bytes of the tensor, FILL
outside it, into one row of the buffer; a segment of a drain writes bytes of a buffer row into the tensor; the last makes the
entry READY or EMPTY. That a fill waits for the atomics that its thread set issued before is the model's reading (entry 106). -/
def Obligations.FillDrainResult : Prop :=
  (∀ (drain : Bool) (o : TileOpd) (h : HReg) (b : XReg) (n : TileIx) (s : State), s.isUser = true → s.readable [b] →
    s.TileNamed o n → s.BoxFits (s.me.getH h) (s.me.getX b) n → s.me.cnt.tl < 63 →
    let old := s.tile s.cur.cluster n
    (drain = false → old.state = .empty) → (drain = true → s.TileReady o n) →
    ∃ t, exec (if drain then .tdrain o h b else .tfill o h b) s = .next t ∧
      t.tile s.cur.cluster n = (if drain then { old with state := .draining, bytes := 0 } else
        { old with
          state := .filling
          ferr := false
          bytes := 0
          seq := (match o with
            | .lit _ x => (s.me.getX x).setWidth 32
            | .tile _ => old.seq) }) ∧
      t.myCluster.moves = s.myCluster.moves ++
        [⟨drain, n, s.cur, s.me.stint, s.me.act, s.order, s.me.getH h, unpackCoords (s.me.getX b), 0, 0, false, [], []⟩] ∧
      (if drain then Instr.drainSegment s.cur.cluster n else .fillSegment s.cur.cluster n) ∈ t.pending ∧
      t.me.cnt = { s.me.cnt with tl := s.me.cnt.tl + 1 } ∧ s.SameMemory t .nowhere 0 ∧ s.me.SameRegs t.me) ∧
  (∀ (c : Nat) (m : MoveOp) (s : State) (bs : List Byte), (s.cluster c).moves = [m] → m.drain = false → m.suspended = false →
    m.thread.cluster = c → (s.thread m.thread).stint = m.stint → m.hrec.nltag = 0 → s.amoBefore m.thread m.order = false →
    let d := (s.tile c m.tile).desc
    let e := m.engine (((s.cluster c).run.map s.vfOfRun).getD 0)
    let at_ := 256 * tdBase d + m.row * tdRowBytes d + m.off
    let n := min (m.rowLen - m.off) (256 - at_ % 256)
    let es := m.hrec.esize
    let box := boxDim m.hrec
    let elem (x : Nat) : List Nat := [coord m.coords 0 + x / es, coord m.coords 1 + m.row % box 1,
      coord m.coords 2 + m.row / box 1 % box 2, coord m.coords 3 + m.row / (box 1 * box 2)]
    m.off < m.rowLen → bs.length = n →
    (∀ i, i < n →
      (m.hrec.inside (elem (m.off + i)) = true → m.hrec.oldSide.addr m.hrec (elem (m.off + i)) % es = 0 ∧ s.EngineHas e
        (BitVec.ofNat 64 (m.hrec.oldSide.addr m.hrec (elem (m.off + i))) + BitVec.ofNat 64 ((m.off + i) % es)) 1
        [bs.getD i 0]) ∧
      (m.hrec.inside (elem (m.off + i)) = false → bs.getD i 0 = BitVec.ofNat 8 (m.hrec.fill / 256 ^ ((m.off + i) % es)))) →
    let last := m.rowLen ≤ m.off + n ∧ m.rows ≤ m.row + 1
    ∃ t, exec (.fillSegment c m.tile) s = .next t ∧
      ByteMap.reads ((t.cluster c).buf (tdBuf d)) at_ n = bs ∧
      (∀ x, x < at_ ∨ at_ + n ≤ x → ByteMap.read ((t.cluster c).buf (tdBuf d)) x = ByteMap.read ((s.cluster c).buf (tdBuf d)) x) ∧
      (t.tile c m.tile).bytes = (s.tile c m.tile).bytes + n ∧
      (last → (t.tile c m.tile).state = .ready ∧ (t.cluster c).moves = [] ∧
        (t.thread m.thread).cnt.tl = (s.thread m.thread).cnt.tl - 1) ∧
      (¬ last → (t.tile c m.tile).state = (s.tile c m.tile).state ∧ Instr.fillSegment c m.tile ∈ t.pending ∧
        (t.thread m.thread).cnt = (s.thread m.thread).cnt) ∧
      s.SameMemory t .nowhere 0) ∧
  (∀ (c : Nat) (m : MoveOp) (s : State) (a : Word) (p : Spot), (s.cluster c).moves = [m] → m.drain = true →
    m.suspended = false → m.thread.cluster = c → m.act = none → (s.thread m.thread).stint = m.stint → m.hrec.nltag = 0 →
    (s.cluster c).badRows = [] →
    let d := (s.tile c m.tile).desc
    let e := m.engine (((s.cluster c).run.map s.vfOfRun).getD 0)
    let at_ := 256 * tdBase d + m.row * tdRowBytes d + m.off
    let es := m.hrec.esize
    let n := min 256 (m.rowLen - m.off)
    let box := boxDim m.hrec
    let elem (x : Nat) : List Nat := [coord m.coords 0 + x / es, coord m.coords 1 + m.row % box 1,
      coord m.coords 2 + m.row / box 1 % box 2, coord m.coords 3 + m.row / (box 1 * box 2)]
    m.off < m.rowLen → a.toNat % 256 + n ≤ 256 →
    (∀ i, i < n → m.hrec.inside (elem (m.off + i)) = true ∧ m.hrec.oldSide.addr m.hrec (elem (m.off + i)) % es = 0 ∧
      m.hrec.oldSide.addr m.hrec (elem (m.off + i)) + (m.off + i) % es = a.toNat + i) →
    s.EngineWrites e a p →
    let last := m.rowLen ≤ m.off + n ∧ m.rows ≤ m.row + 1
    ∃ t, exec (.drainSegment c m.tile) s = .next t ∧
      t.spotBytes e p n = ByteMap.reads ((s.cluster c).buf (tdBuf d)) at_ n ∧
      State.SameMemory { s with cur := m.thread } t p.site n ∧
      (t.tile c m.tile).bytes = (s.tile c m.tile).bytes + n ∧
      (last → (t.tile c m.tile).state = .empty ∧ (t.cluster c).moves = [] ∧
        (t.thread m.thread).cnt.tl = (s.thread m.thread).cnt.tl - 1) ∧
      (¬ last → (t.tile c m.tile).state = (s.tile c m.tile).state ∧ Instr.drainSegment c m.tile ∈ t.pending ∧
        (t.thread m.thread).cnt = (s.thread m.thread).cnt))

/-- R229, R231, R236, R242 to R246, R249 to R252: records in and out of h registers, `hq`, `hwait`, and the element and
vector accesses through a record without a relayout in progress; FILL outside the extents. -/
def Obligations.HandleResult : Prop :=
  (∀ (d : HReg) (a b : VReg) (s : State), s.isUser = true →
    let h : HWord := s.me.getV b ++ s.me.getV a
    (HWord.validate h = none → exec (.hmake d a b) s = .next (s.completed (·.setH d h))) ∧
    (∀ x, HWord.validate h = some x → exec (.hmake d a b) s = s.takeTrap 0x13
      (BitVec.ofNat 64 x.sub ||| BitVec.ofNat 64 x.coord <<< 4 ||| BitVec.ofNat 64 x.new.toNat <<< 6))) ∧
  (∀ (d : HReg) (a : XReg) (s : State) (bs : List Byte), s.isUser = true → s.readable [a] →
    s.LoadsBytes (s.me.getX a) 128 allBytes bs →
    let h : HWord := BitVec.ofNat 1024 (leNat bs)
    HWord.validate h = none → ∃ t, exec (.hld d a) s = .next t ∧ t.me.getH d = h ∧ (∀ r, r ≠ d → t.me.getH r = s.me.getH r) ∧
      s.SameMemory t .nowhere 0 ∧ s.me.SameRegs { t.me with h := s.me.h }) ∧
  (∀ (d : HReg) (a : XReg) (s : State) (w : StoreSite), s.isUser = true → s.readable [a] → s.StoresAt (s.me.getX a) 128 w →
    ∃ t, exec (.hst d a) s = .next t ∧ (∀ i, i < 128 → t.siteByte w i = (s.me.getH d).extractLsb' (8 * i) 8) ∧
      s.SameMemory t w 128 ∧ s.me.SameRegs t.me) ∧
  (∀ (d : XReg) (a : HReg) (sel : BitVec 5) (s : State), s.isUser = true → (Instr.hq d a sel).wf = true →
    let h := s.me.getH a
    exec (.hq d a sel) s = .next (s.wroteX d
      (if sel.toNat < 16 then h.extractLsb' (64 * sel.toNat) 64
       else if h = 0 then 0
       else if sel.toNat = 16 then BitVec.ofNat 64 h.esize
       else if sel.toNat = 17 then BitVec.ofNat 64 ((h.oldSide.span h).2 - (h.oldSide.span h).1)
       else BitVec.ofNat 64 (((List.range h.rank).map h.ext).prod)))) ∧
  (∀ (a : HReg) (s : State), s.isUser = true →
    let h := s.me.getH a
    (h.nltag = 0 → exec (.hwait a) s = .next s.advance) ∧
    (h.nltag ≠ 0 → s.findRelayout h.map = none → exec (.hwait a) s = s.takeTrap 0x09 (BitVec.ofNat 64 h.map)) ∧
    (∀ r, h.nltag ≠ 0 → s.findRelayout h.map = some r →
      (r.state = .running → exec (.hwait a) s = .next s) ∧
      (∀ va, r.state = .failed va → exec (.hwait a) s = s.takeTrap 0x09 va) ∧
      (r.state = .complete → ∃ h' : HWord, exec (.hwait a) s = .next (s.completed (fun t =>
          { t.setH a h' with ltime := max t.ltime s.wmax })) ∧
        h'.base = h.nbase ∧ h'.ltag = h.nltag ∧ h'.nbase = 0 ∧ h'.nltag = 0 ∧ h'.etype = h.etype ∧ h'.rank = h.rank ∧
        (∀ k, k < 4 → h'.ext k = h.ext k ∧ h'.tdim k = h.tdim k ∧
          h'.stride k = (denseStrides h (LTag.of h.nltag)).getD k 0 % 2 ^ 64)))) ∧
  (∀ (d : XReg) (a : HReg) (b : XReg) (s : State), s.isUser = true → s.readable [b, d] →
    let h := s.me.getH a
    let w := s.me.getX b
    (h = 0 → exec (.ldh d a b) s = s.takeTrap 0x13 1 ∧ exec (.sth d a b) s = s.takeTrap 0x13 1) ∧
    (h ≠ 0 → h.coordsOk (unpackCoords w) = false →
      exec (.ldh d a b) s = s.takeTrap 0x09 w ∧ exec (.sth d a b) s = s.takeTrap 0x09 w) ∧
    (h ≠ 0 → h.coordsOk (unpackCoords w) = true → h.inside (unpackCoords w) = false →
      exec (.ldh d a b) s = .next (s.wroteX d (BitVec.ofNat 64 h.fill)) ∧ exec (.sth d a b) s = .next s.advance) ∧
    (h ≠ 0 → h.coordsOk (unpackCoords w) = true → h.inside (unpackCoords w) = true → h.nltag = 0 →
      let va := BitVec.ofNat 64 (h.oldSide.addr h (unpackCoords w))
      (∀ bs, s.LoadsBytes va h.esize allBytes bs → ∃ t, exec (.ldh d a b) s = .next t ∧
        t.me.getX d = (if d = 0 then 0 else BitVec.ofNat 64 (leNat bs)) ∧ (∀ r, r ≠ d → t.me.getX r = s.me.getX r) ∧
        s.SameMemory t .nowhere 0) ∧
      (∀ site, s.StoresAt va h.esize site → ∃ t, exec (.sth d a b) s = .next t ∧
        (∀ i, i < h.esize → t.siteByte site i = (s.me.getX d).extractLsb' (8 * i) 8) ∧
        s.SameMemory t site h.esize ∧ s.me.SameRegs t.me))) ∧
  (∀ (o : VHandleOp) (s : State) (offs : Nat → Nat), s.isUser = true → s.readable [o.b] →
    let h := s.me.getH o.a
    let is := unpackCoords (s.me.getX o.b)
    let n := h.esize
    let el (j : Nat) : List Nat := [coord is 0 + j, coord is 1, coord is 2, coord is 3]
    let on (j : Nat) : Prop := j < 64 / n ∧ (s.me.getP o.p).getLsbD (j * n) = true
    h ≠ 0 → h.coordsOk is = true → h.nltag = 0 →
    (∀ j, on j → h.inside (el j) = true →
      s.InScratch (BitVec.ofNat 64 (h.oldSide.addr h (el j))) n (offs j) ∧ NMap.get s.myCore.poison (offs j / 8) 0 = 0) →
    (∃ t, exec (.vldh o) s = .next t ∧ (∀ r, r ≠ o.d → t.me.getV r = s.me.getV r) ∧
      (∀ j, on j → (t.me.getV o.d).lane n j =
        if h.inside (el j) then leNat (ByteMap.reads s.myCore.scratch (offs j) n) else h.fill % 2 ^ (8 * n)) ∧
      (∀ j, j < 64 / n → ¬ on j → (t.me.getV o.d).lane n j = 0) ∧ s.SameMemory t .nowhere 0 ∧
      s.me.SameRegs { t.me with v := s.me.v }) ∧
    (∃ t, exec (.vsth o) s = .next t ∧
      (∀ a, (∀ j, on j → h.inside (el j) = true → a < offs j ∨ offs j + n ≤ a) →
        ByteMap.read t.myCore.scratch a = ByteMap.read s.myCore.scratch a) ∧
      (∀ j i, on j → h.inside (el j) = true → i < n →
        (∀ k, on k → h.inside (el k) = true → j < k → offs k ≠ offs j) →
        ByteMap.read t.myCore.scratch (offs j + i) = (BitVec.ofNat (8 * n) ((s.me.getV o.d).lane n j)).extractLsb' (8 * i) 8) ∧
      (∀ a, t.byteAt a = s.byteAt a) ∧ s.me.SameRegs t.me))

/-- R232 to R235: `relay` checks its operands, gives the record its new side, clears the map and starts the engine. R234: the
engine translates a block and makes its map entry MOVING, and no other byte changes; then it copies every unit of the block to
its new place, padding with FILL, makes the entry NEW, changes no other byte, and goes on to the next block, to the last.
That the map's spare entries are cleared too is the model's choice (entry 38). -/
def Obligations.RelayoutResult : Prop :=
  (∀ (a b : HReg) (s : State) (v : Word), s.isGang = true → relayCheck (s.me.getH a) (s.me.getH b) = some v →
    exec (.relay a b) s = s.takeTrap 0x09 v) ∧
  (∀ (a b : HReg) (s : State) (r : Nat) (w : StoreSite), s.isGang = true → s.me.run = some r → relayCheck (s.me.getH a) (s.me.getH b) = none →
    s.me.act = none →
    let old := s.me.getH a
    let h := (old.setFld 64 64 (s.me.getH b).base).setFld 160 16 (s.me.getH b).ltag
    let n := (h.blocks + 3) / 4
    h.map % 256 + n ≤ 256 → 0 < n → s.StoresAt (BitVec.ofNat 64 h.map) 1 w →
    ∃ t, exec (.relay a b) s = .next t ∧ t.me.getH a = h ∧ (∀ q, q ≠ a → t.me.getH q = s.me.getH q) ∧
      (∀ i, i < n → t.siteByte w i = 0) ∧ s.SameMemory t w n ∧
      ⟨BitVec.ofNat 64 h.map, r, h, 0, none, .running, false⟩ ∈ t.myCluster.relayouts ∧
      Instr.relayoutBlock s.cur.cluster (BitVec.ofNat 64 h.map) ∈ t.pending ∧ s.me.SameRegs { t.me with h := s.me.h }) ∧
  (∀ (c : Nat) (r : Relayout) (x : Run) (s : State) (mapPa : Nat) (srcPa : List Nat → Nat) (dstPa : Nat → Nat),
    (s.cluster c).relayouts = [r] → s.run? r.run = some x → x.phase = .running → r.state = .running → r.suspended = false →
    r.moving = none → s.acts = [] → (∀ line, s.lineHeld line = false) → s.poison = [] →
    let h := r.hrec
    let e := relayEngine c x.vf
    let mapVa := BitVec.ofNat 64 (h.map + r.block / 4)
    (∀ u ∈ h.unitsOfBlock r.block,
      (∀ is, u.2 = some is → h.oldSide.addr h is % 256 + h.esize ≤ 256 ∧
        s.EngineAt e .r (BitVec.ofNat 64 (h.oldSide.addr h is)) (.phys .dram (srcPa is))) ∧
      (h.nbase + u.1) % 256 + h.esize ≤ 256 ∧ s.EngineAt e .w (BitVec.ofNat 64 (h.nbase + u.1)) (.phys .dram (dstPa u.1))) →
    s.EngineWrites e mapVa (.phys .dram mapPa) →
    ∃ t, exec (.relayoutBlock c r.map) s = .next t ∧
      (t.cluster c).relayouts = [{ r with moving := some ⟨mapPa, (h.unitsOfBlock r.block).map (fun u =>
        { src := match u.2 with
            | some is => [(srcPa is, h.esize)]
            | none => []
          fill := leBytes h.esize h.fill
          dst := [(dstPa u.1, h.esize)] })⟩ }] ∧
      (∀ k, k < 4 → (t.byteAt mapPa).toNat / 4 ^ k % 4 =
        if k = r.block % 4 then 1 else (s.byteAt mapPa).toNat / 4 ^ k % 4) ∧
      Instr.relayoutBlock c r.map ∈ t.pending ∧ s.SameMemory t (.direct mapPa) 1) ∧
  (∀ (c : Nat) (r : Relayout) (x : Run) (s : State) (b : MovingBlock) (n : Nat) (fill : List Byte) (us : List (Option Nat × Nat)),
    (s.cluster c).relayouts = [r] → s.run? r.run = some x → r.state = .running → r.suspended = false → r.moving = some b →
    s.poison = [] → 0 < n → fill.length = n →
    b.units = us.map (fun u => ⟨(match u.1 with
      | some a => [(a, n)]
      | none => []), fill, [(u.2, n)]⟩) →
    let home (pa : Nat) : Prop := s.place pa = .ok .dram ∧ s.homeDown x.vf pa = false ∧ (NMap.find? s.lines (pa / 256)).isSome = true
    (∀ u ∈ us, home u.2 ∧ u.2 % 256 + n ≤ 256 ∧ ∀ a, u.1 = some a → home a ∧ a % 256 + n ≤ 256 ∧
      ∀ v ∈ us, a + n ≤ v.2 ∨ v.2 + n ≤ a) →
    us.Pairwise (fun u v => u.2 + n ≤ v.2 ∨ v.2 + n ≤ u.2) → home b.mapAt → (∀ u ∈ us, b.mapAt < u.2 ∨ u.2 + n ≤ b.mapAt) →
    (s.lineHeld (b.mapAt / 256) = true → b.mapAt / 256 ∈ b.lines) →
    ∃ t, exec (.relayoutBlock c r.map) s = .next t ∧
      (∀ u ∈ us, ∀ i, i < n → t.byteAt (u.2 + i) = match u.1 with
        | some a => s.byteAt (a + i)
        | none => fill.getD i 0) ∧
      (∀ k, k < 4 → (t.byteAt b.mapAt).toNat / 4 ^ k % 4 =
        if k = r.block % 4 then 2 else (s.byteAt b.mapAt).toNat / 4 ^ k % 4) ∧
      (∀ a, a ≠ b.mapAt → (∀ u ∈ us, a < u.2 ∨ u.2 + n ≤ a) → t.byteAt a = s.byteAt a) ∧
      (r.block + 1 < r.hrec.blocks → (t.cluster c).relayouts = [{ r with block := r.block + 1, moving := none }] ∧
        Instr.relayoutBlock c r.map ∈ t.pending) ∧
      (r.hrec.blocks ≤ r.block + 1 →
        (t.cluster c).relayouts = [{ r with block := r.block + 1, moving := none, state := .complete }]))

/-- R166 to R174: `mcrd` checks its descriptor and its range and sends one request; the home makes a stream of it; a line of
the stream is read once and sent as two beats to each destination; a beat writes 128 bytes of scratch and credits the
barrier, or sets its ERR. That a stream's ascending order is that of the range is the model's choice (entry 108). -/
def Obligations.MulticastResult : Prop :=
  (∀ (a b : XReg) (barn : BarIx) (lines : BitVec 8) (s : State), s.isUser = true → s.readable [a, b] →
    mcMask (s.me.getX b) = 0 → exec (.mcrd a b barn lines) s = .next s.advance) ∧
  (∀ (a b : XReg) (barn : BarIx) (lines : BitVec 8) (s : State) (r : Nat) (x : Run) (pa : Nat → Nat), s.isUser = true →
    s.readable [a, b] → s.me.run = some r → s.run? r = some x → mcMask (s.me.getX b) ≠ 0 →
    let va := s.me.getX a
    let w := s.me.getX b
    let n := lines.toNat
    (va.toNat % 256 ≠ 0 → exec (.mcrd a b barn lines) s = s.takeTrap 0x04 va) ∧
    (va.toNat % 256 = 0 → mcSoff w % 256 ≠ 0 → exec (.mcrd a b barn lines) s = s.takeTrap 0x04 w) ∧
    (va.toNat % 256 = 0 → mcSoff w % 256 = 0 →
      (mcReserved w = true ∨ 262144 < mcSoff w + 256 * n ∨
        (∃ p ∈ mcPlaces w, Rec.packw x.rec_ ≤ p.1 ∨ Rec.packh x.rec_ ≤ p.2)) →
      exec (.mcrd a b barn lines) s = s.takeTrap 0x09 w) ∧
    (va.toNat % 256 = 0 → mcSoff w % 256 = 0 → mcReserved w = false → mcSoff w + 256 * n ≤ 262144 →
      (∀ p ∈ mcPlaces w, p.1 < Rec.packw x.rec_ ∧ p.2 < Rec.packh x.rec_) →
      (scratchEnd ≤ va.toNat ∨ va.toNat + 256 * n ≤ scratchBase) → s.me.cnt.cp < 63 →
      (∀ i, i < n → ∃ q, s.Leads .r (va + BitVec.ofNat 64 (256 * i)) 1 (pa i) q) →
      ∃ t, exec (.mcrd a b barn lines) s = .next t ∧
        NMap.find? t.mcrds s.nextMcrd = some ⟨s.nextMcrd, s.cur, s.me.stint, s.me.act, r, (List.range n).map (fun i => (pa i, i)),
          ((List.range n).map (fun i =>
            let a := va + BitVec.ofNat 64 (256 * i)
            (a.toNat / 2 ^ s.pageBits a * 2 ^ s.pageBits a, s.pageBits a))).eraseDups,
          (mcPlaces w).map (fun p => x.node + 16 * p.2 + p.1), mcCore w, mcSoff w, barn, 2 * n * (mcPlaces w).length, false⟩ ∧
        Instr.mcrdRequestArrive s.nextMcrd ∈ t.pending ∧ t.me.cnt = { s.me.cnt with cp := s.me.cnt.cp + 1 } ∧
        s.SameMemory t .nowhere 0 ∧ s.me.SameRegs t.me)) ∧
  (∀ (q : Nat) (r : McrdReq) (home : Nat) (s : State), NMap.find? s.mcrds q = some r → r.arrived = false → r.lines ≠ [] →
    (∀ l ∈ r.lines, s.lineHome r l.1 = home) → s.streams = [] →
    ∃ t, exec (.mcrdRequestArrive q) s = .next t ∧ NMap.find? t.mcrds q = some { r with arrived := true } ∧
      NMap.find? t.streams s.nextMcrd = some ⟨home, r.run, r.dcore, r.soff, r.barn,
        r.lines.map (fun l => ⟨l.1, l.2, r.dests.map (fun d => (r.id, d)), false⟩), r.lines, []⟩ ∧
      Instr.mcrdLineSend s.nextMcrd ∈ t.pending ∧ s.SameMemory t .nowhere 0) ∧
  (∀ (k : Nat) (m : Stream) (l : StreamLine) (rest : List StreamLine) (bs : List Byte) (s : State),
    NMap.find? s.streams k = some m → m.todo = l :: rest → s.physRead (s.vfOfRun m.run) l.pa 256 = .ok bs →
    (s.place l.pa = .ok .dram → s.FindsWay (s.vfOfRun m.run) l.pa) →
    ∃ t new, exec (.mcrdLineSend k) s = .next t ∧ t.beats = s.beats ++ new ∧
      (∀ b ∈ new, b.home = m.home ∧ b.stream = k ∧ b.dcore = m.dcore ∧ b.barn = m.barn ∧ b.poison = false ∧ (∃ q ∈ l.targets, q.2 = b.cluster) ∧
        b.reqs = (l.targets.filter (fun q => q.2 == b.cluster)).map (·.1) ∧
        ((b.off = m.soff + 256 * l.index ∧ b.bytes = bs.take 128) ∨
          (b.off = m.soff + 256 * l.index + 128 ∧ b.bytes = (bs.drop 128).take 128))) ∧
      (∀ q ∈ l.targets, (new.filter (fun b => b.cluster == q.2)).length = 2 ∧ Instr.mcrdBeatDeliver q.2 ∈ t.pending) ∧
      NMap.find? t.streams k = (if rest = [] then none else
        some { m with todo := rest, sent := m.sent ++ [⟨l.index, (l.targets.map (·.2)).eraseDups, false⟩] }) ∧
      (rest ≠ [] → Instr.mcrdLineSend k ∈ t.pending) ∧ s.SameMemory t .nowhere 0) ∧
  (∀ (b : Beat) (rest : List Beat) (q : Nat) (r : McrdReq) (s : State), s.beats = b :: rest → b.reqs = [q] →
    (∀ x ∈ rest, x.cluster = b.cluster → x.home = b.home) →
    NMap.find? s.mcrds q = some r → (s.thread r.thread).stint = r.stint → b.bytes.length = 128 →
    ∃ t, exec (.mcrdBeatDeliver b.cluster) s = .next t ∧ t.beats = rest ∧
      (1 < r.left → NMap.find? t.mcrds q = some { r with left := r.left - 1 }) ∧
      (r.left ≤ 1 → NMap.find? t.mcrds q = none ∧ (t.thread r.thread).cnt.cp = (s.thread r.thread).cnt.cp - 1) ∧
      (let old := (s.core b.cluster b.dcore).barrier b.barn
       let new := (t.core b.cluster b.dcore).barrier b.barn
       let size := (s.core b.cluster b.dcore).scratchSize
       (size < b.off + 128 → new = { old with err := 1 } ∧ s.SameMemory t .nowhere 0) ∧
       (b.off + 128 ≤ size → b.poison = true → new = { old with err := 2 } ∧ s.SameMemory t .nowhere 0) ∧
       (b.off + 128 ≤ size → b.poison = false → new = { old with credit := old.credit + 128 } ∧
         ByteMap.reads (t.core b.cluster b.dcore).scratch b.off 128 = b.bytes ∧
         State.SameMemory { s with cur := ⟨b.cluster, b.dcore, 0⟩ } t (.scratch b.off) 128)))

/-- R342, R355 to R359: an atomic is sent to its owner, its register awaiting the return, for which every word that reads it
waits, or is buffered by its activation; the owner's H set reads, computes and writes as one event; the return writes the
register, unless a later word has written it, and raises the flags. Until the application a load or a store of the thread set
from or to global memory waits. That a word between writes the register for good, and that the atomic keeps its place in
program order so, are the model's readings (entries 19 and 106). -/
def Obligations.AtomicResult : Prop :=
  (∀ p ∈ ([(.amoAdd, .add), (.amoMin, .min), (.amoMax, .max), (.amoMinu, .minu), (.amoMaxu, .maxu), (.amoAnd, .and),
      (.amoOr, .or), (.amoXor, .xor), (.amoSwap, .swap), (.amoCas, .cas), (.amoFadd, .fadd)] :
      List ((AmoOp → Instr) × AmoKind)),
    ∀ (o : AmoOp) (s : State) (pa : Nat), s.isUser = true → s.readable [o.a, o.b, o.d] →
      let va := s.me.getX o.a + o.e.signExtend 64
      let n := if o.dbl then 8 else 4
      let q : AmoReq := ⟨s.cur, s.me.act, s.order, p.2, o.dbl, va, pa, s.pageBits va, s.me.getX o.b, if p.2 = .cas then s.me.getX o.d else 0, o.d⟩
      (va.toNat < 2 ^ 49 → inScratch va.toNat = false → va.toNat % n ≠ 0 → exec (p.1 o) s = s.takeTrap 0x05 va) ∧
      (s.Leads .rw va n pa .dram →
        (s.me.act = none → s.me.cnt.ms < 63 →
          ∃ t, exec (p.1 o) s = .next t ∧ t.me.amoq = s.me.amoq ++ [q] ∧ (o.d ≠ 0 → t.me.awaiting o.d = true) ∧
            (∀ r, r ≠ o.d → t.me.awaiting r = s.me.awaiting r) ∧
            t.me.cnt = { s.me.cnt with ms := s.me.cnt.ms + 1 } ∧ Instr.messageAccept s.cur ∈ t.pending ∧
            s.SameMemory t .nowhere 0 ∧ s.me.SameRegs t.me) ∧
        (∀ k a, s.me.act = some k → s.act? k = some a → a.amos.length < 64 →
          ∃ t a', exec (p.1 o) s = .next t ∧ t.act? k = some a' ∧ a'.amos = a.amos ++ [q] ∧ a'.tent = a.tent ∧
            s.SameMemory t .nowhere 0 ∧ s.me.SameRegs t.me))) ∧
  (∀ (r d : XReg) (s : State), s.me.awaiting r = true →
    ∀ i ∈ [Instr.jr r, .ret r, .callr d r, .lih r 0, .loop r .none 0, .bswap ⟨d, r, false⟩], exec i s = .next s) ∧
  (∀ (c k : Nat) (q : AmoReq) (rest : List InMsg) (s : State), (s.thread ⟨c, k, 4⟩).act = none →
    (s.core c k).inq = .atomic q :: rest → (q.kind = .fadd → q.dbl = false) →
    let n := if q.dbl then 8 else 4
    let w := 8 * n
    let old : BitVec w := BitVec.ofNat w (leNat (s.bytesAt q.pa n))
    let b : BitVec w := q.operand.setWidth w
    let sum := fp32.add .rne false (fp32.decode (leNat (s.bytesAt q.pa n))) (fp32.decode (q.operand.toNat % 2 ^ 32))
    let new : BitVec w := match q.kind with
      | .add => old + b
      | .min => if b.toInt < old.toInt then b else old
      | .max => if old.toInt < b.toInt then b else old
      | .minu => if b.toNat < old.toNat then b else old
      | .maxu => if old.toNat < b.toNat then b else old
      | .and => old &&& b
      | .or => old ||| b
      | .xor => old ^^^ b
      | .swap => b
      | .cas => if old = q.compare.setWidth w then b else old
      | .fadd => if sum.bits = 0x80000000 then 0 else BitVec.ofNat w sum.bits
    q.pa % n = 0 → s.poisonAt q.pa n = false → s.homeDown (s.amoVf q) q.pa = false → s.FindsWay (s.amoVf q) q.pa →
    ∃ t, exec (.amoApply c k) s = .next t ∧ leNat (t.bytesAt q.pa n) = new.toNat ∧ s.SameMemory t (.direct q.pa) n ∧
      (t.core c k).inq = rest ∧
      (q.act = none → t.returns = s.returns ++ [(q.thread, ⟨c, q.d, BitVec.ofNat 64 old.toNat,
          if q.kind = .fadd then sum.flags else 0, false, q.order, q.va, s.reach q.thread c k⟩)] ∧ Instr.amoReturn q.thread ∈ t.pending) ∧
      (q.act ≠ none → t.returns = s.returns)) ∧
  (∀ (t : TsId) (r : AmoRet) (rest : List (TsId × AmoRet)) (s : State), s.returns = (t, r) :: rest →
    (∀ x ∈ rest, x.1 = t → x.2.source = r.source) →
    ∃ u, exec (.amoReturn t) s = .next u ∧ u.returns = rest ∧
      (u.thread t).cnt = { (s.thread t).cnt with ms := (s.thread t).cnt.ms - 1 } ∧
      (u.thread t).status = (s.thread t).status ∧ (∀ w ∈ (u.thread t).awaits, w ∈ (s.thread t).awaits ∧ w.1 ≠ r.order) ∧
      (r.poison = false → (u.thread t).x = (if (r.order, r.d) ∈ (s.thread t).awaits then ((s.thread t).setX r.d r.value).x
          else (s.thread t).x) ∧
        (u.thread t).fpflags = (s.thread t).fpflags ||| r.flags ∧ (u.thread t).pend = (s.thread t).pend ∧
        s.wmax ≤ (u.thread t).ltime) ∧
      (r.poison = true → (u.thread t).x = (s.thread t).x ∧
        (u.thread t).pend = (s.thread t).pend ++ [⟨r.order, .ms, r.reach, 0x0A, r.va, if r.d = 0 then none else some r.d, none⟩]) ∧
      s.SameMemory u .nowhere 0) ∧
  (∀ (o : LoadOp) (u : StoreOp) (s : State) (pa : Nat) (q : Place), s.me.act = none → s.readable [o.a, o.b, u.d] →
    u.a = o.a → u.b = o.b → u.e = o.e → u.size = o.size →
    let va := s.me.getX o.a + s.me.getX o.b + o.e.signExtend 64
    s.amoOpen s.cur = true →
      (s.Leads .r va o.size.bytes pa q → s.loadPoison s.cur [] q pa o.size.bytes allBytes = false → exec (.ld o) s = .next s) ∧
      (s.Leads .w va o.size.bytes pa q → exec (.st u) s = .next s))

/-- R333 to R335, R338 to R340, R361 to R363: what `send`, `recv`, `sqstat` and `dep` do, a payload of no bytes being for H
alone; a full queue, for which H traps and other code waits; and how a message or deposit reaches its destination. The TVAL of
a context's PRIV trap is free (entry 17). -/
def Obligations.MessageResult : Prop :=
  (∀ (o : SendOp) (s : State) (x : Run), s.InRun x → s.readable [o.a, o.c] → s.me.sendq.length < 8 →
    (∀ q ∈ s.me.sendq, q.order < s.order) →
    let dest := s.me.getX o.a
    let form : Prop := o.pay = none ∨ o.len ≠ 0
    let payload := match o.pay with
      | some v => (s.me.getV v).bytes.take o.len.toNat
      | none => []
    (dest.toNat % 2 ^ 32 < Rec.nrank x.rec_ → o.len.toNat % (if o.fmt = .none then 1 else o.fmt.types.1.size) = 0 →
      (s.me.ctx = .gang → form → s.me.act = none → s.me.cnt.ms < 63 → (s.me.getX o.c).toNat % 8 = 0 →
        Img.inText x.image (s.me.getX o.c).toNat = true →
        ∃ t, exec (.send o) s = .next t ∧ t.me.sendq = s.me.sendq ++ [⟨dest, .request (s.me.getX o.c), o.len.toNat, o.fmt,
            o.fmt.widenBytes (o.fmt.narrowBytes payload).1, s.rankOf s.cur, true, s.order + 1, none⟩] ∧
          t.me.fpflags = s.me.fpflags ||| (o.fmt.narrowBytes payload).2 ∧
          t.me.cnt = { s.me.cnt with ms := s.me.cnt.ms + 1 } ∧ Instr.messageAccept s.cur ∈ t.pending ∧
          s.SameMemory t .nowhere 0 ∧ s.me.SameRegs { t.me with fpflags := s.me.fpflags }) ∧
      (s.me.ctx = .hand → o.pay ≠ none → o.c = 0 →
        ∃ t, exec (.send o) s = .next t ∧ t.me.sendq = s.me.sendq ++
            [⟨dest, .reply, o.len.toNat, o.fmt, payload, s.rankOf s.cur, false, s.order, s.me.act⟩] ∧
          s.SameMemory t .nowhere 0 ∧ s.me.SameRegs t.me)) ∧
    (∀ k, s.isBody = true → form → s.me.act = some k → s.buffered k < 8 → dest.toNat % 2 ^ 32 < Rec.nrank x.rec_ →
      o.len.toNat % (if o.fmt = .none then 1 else o.fmt.types.1.size) = 0 → (s.me.getX o.c).toNat % 8 = 0 →
      Img.inText x.image (s.me.getX o.c).toNat = true →
      ∃ t, exec (.send o) s = .next t ∧ t.me.sendq = s.me.sendq ++ [⟨dest, .request (s.me.getX o.c), o.len.toNat, o.fmt,
          payload, s.rankOf s.cur, false, s.order, some k⟩] ∧ s.SameMemory t .nowhere 0 ∧ s.me.SameRegs t.me) ∧
    (Rec.nrank x.rec_ ≤ dest.toNat % 2 ^ 32 → (if s.me.ctx = .hand then o.pay ≠ none else form) →
      exec (.send o) s = s.takeTrap 0x09 dest) ∧
    ((if s.me.ctx = .hand then o.pay = none else ¬ form) →
      exec (.send o) s = { s with freeIdx := s.freeIdx + 1 }.takeTrap 0x03 (Config.freeWord s.freeIdx))) ∧
  (∀ (o : SendOp) (s : State) (x : Run), s.InRun x → s.readable [o.a, o.c] → 8 ≤ s.me.sendq.length →
    let dest := s.me.getX o.a
    dest.toNat % 2 ^ 32 < Rec.nrank x.rec_ → o.len.toNat % (if o.fmt = .none then 1 else o.fmt.types.1.size) = 0 →
    (s.me.ctx = .hand → o.pay ≠ none → o.c = 0 → exec (.send o) s = s.takeTrap 0x10 dest) ∧
    (s.me.ctx ≠ .hand → o.pay = none ∨ o.len ≠ 0 → (s.me.getX o.c).toNat % 8 = 0 →
      Img.inText x.image (s.me.getX o.c).toNat = true →
      (s.isBody = true → ∀ k, s.me.act = some k → s.buffered k < 8) → exec (.send o) s = .next s)) ∧
  (∀ (d : XReg) (b : VReg) (s : State) (m : RecvEntry) (rest : List RecvEntry), s.isUser = true → s.me.recvq = m :: rest →
    exec (.recv d b) s = .next (s.completed (fun t =>
      { (t.setX d m.word).setV b (VWord.ofBytes m.payload) with recvq := rest, ltime := max t.ltime s.wmax }))) ∧
  (∀ (d : XReg) (b : VReg) (s : State), s.isUser = true → s.me.recvq = [] → s.me.wait = none →
    exec (.recv d b) s = .next (s.updMe (fun t => { t with wait := some ⟨s.fclk, .recv, 0⟩ }))) ∧
  (∀ (d : XReg) (b : VReg) (s : State), isFirmware s.cur = false → s.me.ctx = .hand →
    exec (.recv d b) s = { s with freeIdx := s.freeIdx + 1 }.takeTrap 0x03 (Config.freeWord s.freeIdx)) ∧
  (∀ (d : XReg) (s : State), isFirmware s.cur = false →
    exec (.sqstat d) s = .next (s.wroteX d
      (field 0 s.me.sendq.length ||| field 8 (if s.me.ctx = .hand then 0 else s.me.recvq.length)))) ∧
  (∀ (a b : XReg) (g : DepTarget) (s : State) (x : Run), s.isGang = true → s.myRun? = some x → s.readable [a, b] →
    let dest := s.me.getX a
    (dest.toNat < Rec.nrank x.rec_ → dest.toNat < 2 ^ 32 → (g = .fpmode → srAdmits .fpmode (s.me.getX b) = true) →
      s.me.cnt.ms < 63 → s.me.sendq.length < 8 →
      ∃ t, exec (.dep a b g) s = .next t ∧ t.me.sendq = s.me.sendq ++
          [⟨dest, .deposit ⟨g, s.me.getX b⟩, 0, .none, [], s.me.rank, true, s.order, none⟩] ∧
        t.me.cnt = { s.me.cnt with ms := s.me.cnt.ms + 1 } ∧ Instr.messageAccept s.cur ∈ t.pending ∧
        s.SameMemory t .nowhere 0 ∧ s.me.SameRegs t.me) ∧
    (2 ^ 32 ≤ dest.toNat ∨ Rec.nrank x.rec_ ≤ dest.toNat % 2 ^ 32 → exec (.dep a b g) s = s.takeTrap 0x09 dest)) ∧
  (∀ (t d : TsId) (e : SendEntry) (s : State), (s.thread t).sendq = [e] → e.released = true → (s.thread t).amoq = [] →
    s.sendTarget t e = some d → s.gone d.cluster = false →
    ((∃ v, e.kind = .deposit v) → (s.core d.cluster d.core).deposits.length < 4) →
    ((∃ w, e.kind = .request w) → (s.core d.cluster d.core).inq.length < 16) →
    (e.kind = .reply → (s.thread d).recvq.length < 8) →
    ∃ u, exec (.messageAccept t) s = .next u ∧ (u.thread t).sendq = [] ∧
      (∀ w, e.kind = .request w → (u.core d.cluster d.core).inq = (s.core d.cluster d.core).inq ++
        [.request t e.srcRank (BitVec.ofNat 32 (e.dest.toNat / 2 ^ 32)) w e.len e.payload 0]) ∧
      (e.kind = .reply → (u.thread d).recvq = (s.thread d).recvq ++
        [⟨BitVec.ofNat 64 (e.dest.toNat / 2 ^ 32 + 2 ^ 32 * e.srcRank.toNat), e.payload⟩]) ∧
      (∀ v, e.kind = .deposit v → (u.core d.cluster d.core).deposits = (s.core d.cluster d.core).deposits ++ [⟨d, v, t⟩] ∧
        Instr.depLand d.cluster d.core ∈ u.pending) ∧
      (u.thread t).cnt.ms = (s.thread t).cnt.ms - (match e.kind with
        | .deposit _ => 0
        | _ => 1) ∧ s.SameMemory u .nowhere 0) ∧
  (∀ (t : TsId) (a : AmoReq) (s : State), (s.thread t).sendq = [] → (s.thread t).amoq = [a] →
    (a.act = none → s.amoBefore t a.order = false) →
    let o := s.ownerOf (s.amoVf a) a.pa
    s.gone o.1 = false → (s.core o.1 o.2).inq.length < 16 →
    ∃ u, exec (.messageAccept t) s = .next u ∧ (u.thread t).amoq = [] ∧
      (u.core o.1 o.2).inq = (s.core o.1 o.2).inq ++ [.atomic a] ∧ s.SameMemory u .nowhere 0) ∧
  (∀ (c k : Nat) (d : Deposit) (rest : List Deposit) (s : State), (s.core c k).deposits = d :: rest →
    Deposit.waits s d = false →
    ∃ u, exec (.depLand c k) s = .next u ∧ (u.core c k).deposits = rest ∧
      (TsId.key d.sender ≠ TsId.key d.target → (u.thread d.sender).cnt.ms = (s.thread d.sender).cnt.ms - 1) ∧
      ((s.thread d.target).status = .halted → (u.thread d.target).x = (s.thread d.target).x ∧
        (u.thread d.target).v = (s.thread d.target).v) ∧
      ((s.thread d.target).status ≠ .halted → match d.val.target with
        | .xreg n => (u.thread d.target).x = ((s.thread d.target).setX n d.val.value).x
        | .vlane n lane => ∀ j, j < 8 → ((u.thread d.target).getV n).lane 8 j =
            if j = lane.toNat then d.val.value.toNat else ((s.thread d.target).getV n).lane 8 j
        | .vall n => ∀ j, j < 8 → ((u.thread d.target).getV n).lane 8 j = d.val.value.toNat
        | .fpmode => (u.thread d.target).fpmode = d.val.value) ∧ s.SameMemory u .nowhere 0)

/-- R336, R337, R364: a handler starts on an idle H set with its message in x1 to x3 and v30; `hret` ends it; one that is
rolled back frees H, and its message runs again once. That a second failure of another cause drops the message too is the model's
choice (entry 84). -/
def Obligations.HandlerResult : Prop :=
  (∀ (c k r : Nat) (x : Run) (src : TsId) (rank tag : BitVec 32) (entry : Word) (len : Nat) (payload : List Byte) (tries : Nat)
      (rest : List InMsg) (s : State),
    (s.thread ⟨c, k, 4⟩).act = none → (s.core c k).fenced = false →
    (s.core c k).inq = .request src rank tag entry len payload tries :: rest → (s.cluster c).run = some r → s.run? r = some x →
    x.phase = .running →
    ∃ t key, exec (.handlerStart c k) s = .next t ∧ (t.core c k).inq = rest ∧
      let h := t.thread ⟨c, k, 4⟩
      h.act = some key ∧ key.run = r ∧ (t.act? key).isSome = true ∧ h.pc = entry ∧ h.status = .ready ∧ h.ctx = .hand ∧
      h.mode = false ∧ h.intrap = false ∧ h.fpflags = 0 ∧ h.fpmode = BitVec.ofNat 64 (Rec.fpmode x.rec_) ∧ h.run = some r ∧
      h.getX 1 = rank.setWidth 64 ∧ h.getX 2 = tag.setWidth 64 ∧ h.getX 3 = BitVec.ofNat 64 len ∧
      (∀ n : XReg, 3 < n → h.getX n = 0) ∧ h.getV 30 = VWord.ofBytes payload ∧ (∀ n : VReg, n ≠ 30 → h.getV n = 0) ∧
      s.SameMemory t .nowhere 0) ∧
  (∀ (s : State) (k : ActKey) (a : Act), s.isHand = true → s.me.act = some k → s.act? k = some a →
    ∃ t a', exec .hret s = .next t ∧ t.act? k = some a' ∧ a'.ending = some .done ∧ a'.tent = a.tent ∧
      Instr.commit k ∈ t.pending ∧ (a.owner = s.cur → t.me.status = .held) ∧ s.SameMemory t .nowhere 0) ∧
  (∀ (c k : Nat) (key : ActKey) (a : Act) (cause : Nat) (v : Word) (m : InMsg) (s : State),
    (s.thread ⟨c, k, 4⟩).act = some key → s.act? key = some a → a.rolled = some (cause, v) →
    (s.thread ⟨c, k, 4⟩).msg = some m → (s.thread ⟨c, k, 4⟩).cnt.ld = 0 → (s.thread ⟨c, k, 4⟩).cnt.st = 0 →
    ∃ t, exec (.handlerLimit c k) s = .next t ∧ (t.thread ⟨c, k, 4⟩).act = none ∧ (t.thread ⟨c, k, 4⟩).status = .idle ∧
      t.act? key = none ∧ (t.core c k).inq = (if m.tries = 0 then m.again :: (s.core c k).inq else (s.core c k).inq) ∧
      (∀ b, t.byteAt b = s.byteAt b))

/-- R126 to R135: `emit` appends a product; the endings; `arbrd` and `kscan` read the round and the kennel; `runq` queues a
run, at once in GANG code, with the bytes of its record as they are now, or none until the append where they cannot be read. What
`kscan` counts as free, and when a record is read, are the model's readings (entries 49 and 50). -/
def Obligations.ReactionResult : Prop :=
  (∀ (v : VReg) (half : Bool) (s : State) (k : ActKey) (a : Act), s.InReaction k a →
    let tile : BitVec 256 := (s.me.getV v).extractLsb' (if half then 256 else 0) 256
    (tile.toNat % 2 ^ 16 = 0 → exec (.emit v half) s = .next s.advance) ∧
    (tile.toNat % 2 ^ 16 ≠ 0 → a.products.length < 256 →
      ∃ t a', exec (.emit v half) s = .next t ∧ t.act? k = some a' ∧ a'.products = a.products ++ [(a.emitKey s.me, tile)] ∧
        a'.tent = a.tent ∧ s.SameMemory t .nowhere 0 ∧ s.me.SameRegs t.me) ∧
    (tile.toNat % 2 ^ 16 ≠ 0 → 256 ≤ a.products.length → exec (.emit v half) s = s.takeTrap 0x14 0x1000000000000100)) ∧
  (∀ (s : State) (k : ActKey) (a : Act), s.InBody k a →
    (s.me.ctx = .act → a.fork = none → ∃ t a', exec .done s = .next t ∧ t.act? k = some a' ∧ a'.ending = some .done ∧
      a'.tent = a.tent ∧ a'.products = a.products ∧ Instr.commit k ∈ t.pending ∧ (a.owner = s.cur → t.me.status = .held) ∧
      s.SameMemory t .nowhere 0) ∧
    (∃ t a', exec .abort s = .next t ∧ t.act? k = some a' ∧ a'.ending = some .abort ∧ Instr.commit k ∈ t.pending ∧
      (a.owner = s.cur → t.me.status = .held) ∧ s.SameMemory t .nowhere 0) ∧
    (∃ t a', exec .reject s = .next t ∧ t.act? k = some a' ∧ a'.ending = some .reject ∧ Instr.commit k ∈ t.pending ∧
      (a.owner = s.cur → t.me.status = .held) ∧ s.SameMemory t .nowhere 0)) ∧
  (∀ (d : XReg) (sel : BitVec 8) (s : State) (k : ActKey) (a : Act), s.InReaction k a →
    exec (.arbrd d sel) s = .next (s.wroteX d
      (if sel = 0 then s.me.arb.summary else (s.me.arb.trail[sel.toNat - 1]?).getD 0))) ∧
  (∀ (d x : XReg) (sel : BitVec 3) (s : State) (k : ActKey) (a : Act), s.InReaction k a → s.readable [x] → a.partner = none →
    let n := s.myCluster.kennel
    let kind := (s.me.getX x).toNat % 2 ^ 16
    let fits (t : Tile) : Prop := kind = 0 ∨ t.kind.toNat = kind
    ∃ v, exec (.kscan d x sel) s = .next (s.wroteX d (BitVec.ofNat 64 v)) ∧
      (sel = 0 → ∃ l : List Resident, v = l.length ∧ l.Sublist n.tiles ∧
        (∀ r ∈ n.tiles, r ∈ l ↔ r.held = false ∧ fits r.tile)) ∧
      (sel = 1 → ∃ l : List Resident, v = l.length ∧ l.Sublist n.tiles ∧
        (∀ r ∈ n.tiles, r ∈ l ↔ r.held = true ∧ fits r.tile)) ∧
      (sel = 2 → ∃ l : List Tile, v = l.length ∧ l.Sublist n.ring ∧ (∀ r ∈ n.ring, r ∈ l ↔ fits r)) ∧
      (sel = 3 → v = 16384 - n.tiles.length - n.resSlots) ∧
      (sel = 4 → ∃ l : List Cand, v = l.length ∧ l.Sublist n.cands ∧ (∀ c ∈ n.cands, c ∈ l ↔
        c.rejected = false ∧ ∀ g ∈ c.ages, ∃ r ∈ n.tiles, r.tile.age = g ∧ r.held = false))) ∧
  (∀ (a b : XReg) (s : State), isFirmware s.cur = false → s.readable [a, b] →
    let addr := s.me.getX a
    let q := s.me.getX b
    let vf := s.vfOf s.cur
    (addr.toNat % 256 ≠ 0 → exec (.runq a b) s = s.takeTrap 0x04 addr) ∧
    (addr.toNat % 256 = 0 → 63 < q.toNat ∨ (s.queue vf q.toNat).enabled = false → exec (.runq a b) s = s.takeTrap 0x09 q) ∧
    (addr.toNat % 256 = 0 → q.toNat ≤ 63 → (s.queue vf q.toNat).enabled = true →
      (∀ k r, s.me.act = some k → s.act? k = some r → r.runqs.length < 8 →
        ∃ t r', exec (.runq a b) s = .next t ∧ t.act? k = some r' ∧ r'.runqs = r.runqs ++ [⟨addr, q.toNat⟩] ∧
          s.SameMemory t .nowhere 0 ∧ s.me.SameRegs t.me) ∧
      (s.me.act = none → s.queueRoom vf q.toNat = 0 →
        exec (.runq a b) s = s.takeTrap 0x1A (BitVec.ofNat 64 (2 ^ 63 + q.toNat))) ∧
      (s.me.act = none → s.queueRoom vf q.toNat ≠ 0 → s.me.cnt.st < 63 →
        ∃ t bytes, exec (.runq a b) s = .next t ∧
          t.submissions = s.submissions ++ [⟨vf, q.toNat, addr, true, bytes, some s.cur, none, none⟩] ∧
          (∀ bs u, State.EngineReads s (frontEnd vf) addr.toNat 256 bs u → bytes = some bs) ∧
          (∀ e, feRead vf .load addr 256 s = .error e → bytes = none) ∧
          (t.queue vf q.toNat).reserved = (s.queue vf q.toNat).reserved + 1 ∧ Instr.queueAppend ∈ t.pending ∧
          t.me.cnt = { s.me.cnt with st := s.me.cnt.st + 1 } ∧ s.SameMemory t .nowhere 0 ∧ s.me.SameRegs t.me)))

/-- R41 to R43, R137, R138: `fork` splits its trips into chunks over at most 64 subranges, one for each thread set that it
recruits and for itself, and `join` takes a subrange that waits, or closes the region, or frees its helper. That the trap
registers and the mode are among what a helper is given and the close restores is the model's reading (entry 82). -/
def Obligations.ForkJoinResult : Prop :=
  (∀ (d x y : XReg) (e : BitVec 20) (s u : State) (k : ActKey) (a : Act) (r : Nat) (run : Run), s.InBody k a → s.me.ctx = .act →
    a.fork = none → s.readable [x, y] → s.me.status = .ready → (Instr.fork d x y e).wf = true → s.me.run = some r →
    s.run? r = some run →
    let joinPc := s.me.pc + 8 * e.setWidth 64
    let trips := (s.me.getX x).toNat
    let chunk := if s.me.getX y = 0 then trips else (s.me.getX y).toNat
    let chunks := (trips + chunk - 1) / chunk
    let n := min 64 chunks
    s.FetchesAt joinPc 0xA500000004000000 u → (∀ b, u.byteAt b = s.byteAt b) → (joinPc + 8).toNat < 2 ^ 49 →
    (trips = 0 → exec (.fork d x y e) s = .next (u.updMe (·.goto (joinPc + 8)))) ∧
    (trips ≠ 0 →
      let helpers := u.recruit r run s.cur.cluster (n - 1) a.partner.isSome
      ∃ t a' g, exec (.fork d x y e) s = .next t ∧ t.act? k = some a' ∧ a'.fork = some g ∧ a'.phase = a.phase + 1 ∧
        g.trips = trips ∧ g.chunk = chunk ∧ g.n = n ∧ g.joinPc = joinPc ∧ g.helpers = helpers ∧ g.fin = 0 ∧
        g.waiting = (List.range n).drop (helpers.length + 1) ∧ g.x = s.me.x ∧ g.v = s.me.v ∧ g.p = s.me.p ∧ g.h = s.me.h ∧
        g.tpc = s.me.tpc ∧ g.tcause = s.me.tcause ∧ g.tval = s.me.tval ∧ g.mode = s.me.mode ∧ g.pmode = s.me.pmode ∧
        g.intrap = s.me.intrap ∧
        (∀ h ∈ helpers, (t.thread h).act = some k ∧ (t.thread h).ctx = .helper ∧ (t.thread h).status = .ready ∧
          (t.thread h).pc = s.me.pc + 8 ∧ (t.thread h).v = s.me.v ∧ (t.thread h).p = s.me.p ∧ (t.thread h).h = s.me.h ∧
          (t.thread h).fpmode = s.me.fpmode ∧ (t.thread h).tpc = s.me.tpc ∧ (t.thread h).tcause = s.me.tcause ∧
          (t.thread h).tval = s.me.tval ∧ (t.thread h).mode = s.me.mode) ∧
        ((helpers.map TsId.key).Nodup → ∀ i (h : i < helpers.length),
          let u := t.thread helpers[i]
          u.getX d = BitVec.ofNat 64 ((i + 1) * chunks / n * chunk) ∧
          u.getX (d + 1) = BitVec.ofNat 64 (min trips ((i + 2) * chunks / n * chunk)) ∧
          (∀ r, r ≠ d → r ≠ d + 1 → u.getX r = s.me.getX r)) ∧
        t.me.getX d = 0 ∧ t.me.getX (d + 1) = BitVec.ofNat 64 (min trips (chunks / n * chunk)) ∧ t.me.pc = s.me.pc + 8 ∧
        (∀ i, i ≠ d → i ≠ d + 1 → t.me.getX i = s.me.getX i) ∧ s.SameMemory t .nowhere 0)) ∧
  (∀ (s : State) (k : ActKey) (a : Act) (g : ForkRegion), s.InBody k a → a.fork = some g →
    (∀ i rest, g.waiting = i :: rest → ∃ t a' g', exec .join s = .next t ∧ t.act? k = some a' ∧ a'.fork = some g' ∧
      g'.fin = g.fin + 1 ∧ g'.waiting = rest ∧ g'.flags = g.flags ||| s.me.fpflags ∧
      t.me.x = (((s.me.forkRegs g).setX g.d (BitVec.ofNat 64 (i * g.chunks / g.n * g.chunk))).setX (g.d + 1)
        (BitVec.ofNat 64 (min g.trips ((i + 1) * g.chunks / g.n * g.chunk)))).x ∧
      t.me.v = g.v ∧ t.me.p = g.p ∧ t.me.h = g.h ∧ t.me.pc = g.forkPc + 8 ∧ s.SameMemory t .nowhere 0) ∧
    (g.waiting = [] → g.fin + 1 = g.n → ∃ t a', exec .join s = .next t ∧ t.act? k = some a' ∧ a'.fork = none ∧
      a'.phase = a.phase + 1 ∧ a'.owner = s.cur ∧ t.me.x = g.x ∧ t.me.v = g.v ∧ t.me.p = g.p ∧ t.me.h = g.h ∧
      t.me.fpmode = g.fpmode ∧ t.me.tpc = g.tpc ∧ t.me.tcause = g.tcause ∧ t.me.tval = g.tval ∧ t.me.mode = g.mode ∧
      t.me.fpflags = g.flags ||| s.me.fpflags ∧ t.me.ctx = .act ∧ t.me.pc = g.joinPc + 8 ∧
      s.SameMemory t .nowhere 0) ∧
    (g.waiting = [] → g.fin + 1 ≠ g.n → ∃ t a' g', exec .join s = .next t ∧ t.act? k = some a' ∧ a'.fork = some g' ∧
      g'.fin = g.fin + 1 ∧ g'.flags = g.flags ||| s.me.fpflags ∧ t.me.status = .idle ∧ t.me.act = none ∧
      Instr.arbitrationRound s.cur.cluster ∈ t.pending ∧ s.SameMemory t .nowhere 0))

/-- R300 to R302: `rep` takes the words that follow it, which may only be those that R300 admits, and each pass runs them
with the v registers stepped by the pass, unless a FIX bit keeps them; after the last pass the pc stands after the body. The
FIX bits of OP 0x40 to 0x50, 0x62 and 0x92 stand where R64 gives them; OP 0x4E has none (R301). -/
def Obligations.RepetitionResult : Prop :=
  (∀ (nm1 : BitVec 8) (lm1 : BitVec 3) (stride : BitVec 5) (s : State) (us : Nat → State) (ws : List Word), ws.length = lm1.toNat + 1 →
    us 0 = s → (∀ i, i ≤ lm1.toNat →
      (us i).FetchesAt (s.me.pc + BitVec.ofNat 64 (8 * (i + 1))) (ws.getD i 0) (us (i + 1))) →
    ((∀ w ∈ ws, bodyWord w = true) →
      exec (.rep nm1 lm1 stride) s = .next ((us (lm1.toNat + 1)).updMe (fun t =>
        { t with rep := some ⟨ws, nm1.toNat + 1, stride.toNat, 0, 0⟩, count := t.count + 1, wait := none }))) ∧
    (∀ i, i ≤ lm1.toNat → bodyWord (ws.getD i 0) = false → (∀ j, j < i → bodyWord (ws.getD j 0) = true) →
      exec (.rep nm1 lm1 stride) s = s.takeTrap 0x02
        (BitVec.ofNat 64 (0x58 + 2 ^ 32 * i + 2 ^ 40 * ((ws.getD i 0).toNat / 2 ^ 56))))) ∧
  (∀ (w : Word) (k : Nat),
    let c := stepWord w k
    let op := w.toNat / 2 ^ 56
    let f (x : Word) (lo : Nat) : Nat := x.toNat / 2 ^ lo % 64
    let stepped (fix : Bool) (x : Nat) : Nat := if fix = true ∨ x < 32 then x else 32 + (x + k) % 32
    let steps (fd fa fb : Bool) : Prop :=
      f c 50 = stepped fd (f w 50) ∧ f c 44 = stepped fa (f w 44) ∧ f c 38 = stepped fb (f w 38)
    c.toNat / 2 ^ 56 = op ∧ c.toNat % 2 ^ 38 = w.toNat % 2 ^ 38 ∧
    ((0x40 ≤ op ∧ op ≤ 0x50 ∧ op ≠ 0x4E) ∨ op = 0x92 → steps (w.getLsbD 25) (w.getLsbD 24) (w.getLsbD 23)) ∧
    (op = 0x4E → steps false false false) ∧ (op = 0x62 → steps (w.getLsbD 23) false (w.getLsbD 24))) ∧
  (∀ (t : Thread) (r : RepState), t.rep = some r → r.body ≠ [] →
    (r.word + 1 < r.body.length → t.next.rep = some { r with word := r.word + 1 } ∧ t.next.pc = t.pc) ∧
    (r.body.length ≤ r.word + 1 → r.pass + 1 < r.n → t.next.rep = some { r with word := 0, pass := r.pass + 1 } ∧
      t.next.pc = t.pc) ∧
    (r.body.length ≤ r.word + 1 → r.n ≤ r.pass + 1 → t.next.rep = none ∧
      t.next.pc = t.pc + BitVec.ofNat 64 (8 * (r.body.length + 1))))

/-- R12, R30, R31, R163: in a round no two decided candidates share a tile, every loaded candidate is decided or forced out,
and one is forced out only by a decided one that shares a tile with it; the first in decision order is decided. -/
def Obligations.ArbitrationDisjoint : Prop :=
  ∀ (loaded order : List Cand), order.Perm loaded → (loaded.map Cand.slot).Nodup →
    let trail := arbitrate loaded order 0 []
    let decided := (trail.filter (·.decided)).map (·.cand)
    (∀ c ∈ decided, c ∈ loaded) ∧
    decided.Pairwise (fun c d => ∀ g ∈ c.ages, g ∉ d.ages) ∧
    (∀ d ∈ loaded, d ∈ decided ∨ ∃ c ∈ decided, c.slot ≠ d.slot ∧ ∃ g ∈ d.ages, g ∈ c.ages) ∧
    (∀ c rest, order = c :: rest → decided.head? = some c) ∧
    (∀ e ∈ trail, e.value = e.decided)

/-- R10, R13, R22, R34, R35, R45: a product, one of those that may arrive next, is stamped with its kennel's age and takes a
slot (that a free value picks it among those of different sources and homes is the model's choice, entries 1 and 74); the
timer makes a round due; a round with one enabled candidate starts its activation, whose tiles are held, with its registers
set. R45, R46: a wave leaves the pack root and returns the sums of the kennels; two equal quiet ones whose sums balance stop
the run as stable, and a quiet one is followed by the next at once. The start of the timer and what a wave sums are the
model's readings (entries 53 and 55). -/
def Obligations.KennelResult : Prop :=
  ((∀ s : State, s.firstInserts s.inserts [] ≠ [] →
    (∀ i ∈ s.firstInserts s.inserts [], i.viaRing = false ∧ (s.run? i.run).isSome = true) →
    ∃ i ∈ s.firstInserts s.inserts [],
    let old := (s.cluster i.home).kennel
    ∃ t, exec .tileInsert s = .next t ∧ t.inserts = s.inserts.erase i ∧
      (let new := (t.cluster i.home).kennel
       ⟨{ Tile.ofBits i.bits with age := old.ageCtr, ovf := false }, false⟩ ∈ new.tiles ∧ (∀ u ∈ old.tiles, u ∈ new.tiles) ∧
       new.ageCtr = old.ageCtr + 1 ∧ new.ins = old.ins + 1 ∧ new.rcv = old.rcv + (if i.home = i.src then 0 else 1)) ∧
      Instr.arbitrationRound i.home ∈ t.pending ∧ s.SameMemory t .nowhere 0) ∧
  (∀ (c r : Nat) (x : Run) (s : State), (s.cluster c).run = some r → s.run? r = some x → x.holdsRounds = true →
    (s.cluster c).kennel.lastStart + 64 ≤ s.fclk →
    ∃ t, exec (.roundTimer c) s = .next t ∧ (t.cluster c).kennel.lastStart = s.fclk ∧ Instr.arbitrationRound c ∈ t.pending ∧
      t.acts = s.acts ∧ t.threads = s.threads) ∧
  (∀ (c r : Nat) (x : Run) (d : Cand) (rule : Rule) (u : TsId) (g : List Tile) (s : State), (s.cluster c).run = some r →
    s.run? r = some x → x.holdsRounds = true → s.freeSets r x c ≠ [] →
    let n := (s.cluster c).kennel
    n.cands.filter n.enabledCand = [d] → x.rules[d.rule]? = some rule → rule.usesClause = false → rule.paired = false →
    g = d.ages.filterMap (fun a => (n.tiles.find? (fun t => t.tile.age == a)).map (·.tile)) →
    s.pickSet x c (tileAt g 0).key = some u →
    ∃ t key a, exec (.arbitrationRound c) s = .next t ∧ t.act? key = some a ∧ key.run = r ∧ key.twin = 0 ∧ a.cluster = c ∧
      a.owner = u ∧ a.rule = rule ∧ a.ages = d.ages ∧ a.tent = [] ∧ a.products = [] ∧ a.ending = none ∧ a.handler = false ∧
      (let h := t.thread u
       h.status = .ready ∧ h.ctx = .act ∧ h.act = some key ∧ h.run = some r ∧ h.pc = rule.entry ∧ h.mode = false ∧
       h.intrap = false ∧ h.fpflags = 0 ∧ h.fpmode = BitVec.ofNat 64 (Rec.fpmode x.rec_) ∧
       h.getX 1 = BitVec.ofNat 64 g.length ∧ h.getX 2 = key.actid ∧ h.getX 3 = BitVec.ofNat 64 d.rule ∧
       (∀ i : XReg, 3 < i → h.getX i = 0) ∧ h.getV 30 = VWord.ofBytes (groupBytes g 0 ++ groupBytes g 1) ∧
       h.getV 31 = VWord.ofBytes (groupBytes g 2 ++ groupBytes g 3) ∧ h.arb = (t.cluster c).kennel.lastRound) ∧
      (let new := (t.cluster c).kennel
       new.rounds = n.rounds + 1 ∧ new.lastStart = s.fclk ∧ new.actSeq = n.actSeq + 1 ∧
       new.tiles = n.tiles.map (fun q => if q.tile.age ∈ d.ages then { q with held := true } else q)) ∧
      s.SameMemory t .nowhere 0)) ∧
  ((∀ (r : Nat) (x : Run) (s : State), s.run? r = some x → x.phase = .running → Rec.isReact x.rec_ = true →
    (∃ t, exec (.whistleWave r) s = .next t ∧ t.run? r = some { x with waveAt := s.fclk } ∧
      Instr.whistleReturn r ∈ t.pending ∧ t = { s with runs := t.runs, pending := t.pending }) ∧
    (∀ v, x.wave = some v → v.quiet = true → v.snd = v.rcv → s.wave x = v →
      ∃ t, exec (.whistleReturn r) s = .next t ∧
        t.run? r = some { x with wave := some v, stop := some ⟨1, 0, 0⟩, phase := .stopping } ∧
        Instr.completionSignal r ∈ t.pending) ∧
    (x.wave = none → ∃ t, exec (.whistleReturn r) s = .next t ∧ t.run? r = some { x with wave := some (s.wave x) } ∧
      ((s.wave x).quiet = true → Instr.whistleWave r ∈ t.pending) ∧ ((s.wave x).quiet = false → t.pending = s.pending))) ∧
  (∀ (x : Run) (s : State), s.wave x = ⟨x.clusters.all s.quiet,
    (x.clusters.map (fun c => (s.cluster c).kennel.ins)).sum, (x.clusters.map (fun c => (s.cluster c).kennel.rem)).sum,
    (x.clusters.map (fun c => (s.cluster c).kennel.snd)).sum, (x.clusters.map (fun c => (s.cluster c).kennel.rcv)).sum⟩))

/-- R17, R28, R36, R37, R129, R343: the commit of an activation makes its tentative bytes the committed ones, consumes its
tiles and counts a firing; an abort or a reject discards its bytes and returns its tiles free. R50: a reject marks the
candidate of the table that its activation was selected under only; that one of a replaced table marks none is the model's
reading (entry 85). R131, R206, R394: a commit one of whose lines has no home that is up commits nothing and traps HOME_DOWN
at its ending, which is the model's reading (entry 72; the TVAL is a free value, entry 1); R349: one that meets a line that a
relayout engine holds waits. -/
def Obligations.CommitResult : Prop :=
  (∀ (k : ActKey) (a : Act) (e : Ending) (s : State), s.act? k = some a → a.ending = some e → s.actBusy k = true →
    exec (.commit k) s = .next (s.postOnce (.commit k))) ∧
  (∀ (k : ActKey) (a : Act) (x : Run) (s : State), s.act? k = some a → a.ending = some .done → s.actBusy k = false →
    a.partner = none → a.rolled = none → a.handler = false → s.actPend k a = none → s.run? k.run = some x → a.products = [] →
    a.runqs = [] → a.outside = [] → s.heldMessages k a = [] → (a.tent.map (·.1)).Nodup → (s.thread a.owner).act = some k →
    (s.cluster a.cluster).kennel.ring = [] → (∀ l ∈ a.lines, s.homeDown x.vf (256 * l) = false ∧ s.lineHeld l = false) →
    ∃ t y, exec (.commit k) s = .next t ∧ (∀ c ∈ a.tent, t.byteAt c.1 = c.2) ∧
      (∀ p, (∀ c ∈ a.tent, c.1 ≠ p) → t.byteAt p = s.byteAt p) ∧ t.act? k = none ∧ (t.thread a.owner).act = none ∧
      (t.thread a.owner).status = .idle ∧
      (t.cluster a.cluster).kennel.tiles = (s.cluster a.cluster).kennel.tiles.filter (fun q => !a.ages.contains q.tile.age) ∧
      t.run? k.run = some y ∧ y.firings = x.firings + 1 ∧
      (Rec.firelim x.rec_ ≠ 0 → Rec.firelim x.rec_ ≤ x.firings + 1 → x.stop = none → y.stop = some ⟨2, 0, 0⟩)) ∧
  (∀ (k : ActKey) (a : Act) (x : Run) (s : State), s.act? k = some a → a.ending = some .done → s.actBusy k = false →
    a.partner = none → a.rolled = none → s.actPend k a = none → s.run? k.run = some x →
    ((∃ l ∈ a.lines, s.homeDown x.vf (256 * l) = true) →
      exec (.commit k) s = { s with freeIdx := s.freeIdx + 1 }.endTrap k a 0x0B (Config.freeWord s.freeIdx)) ∧
    ((∀ l ∈ a.lines, s.homeDown x.vf (256 * l) = false) → (∃ l ∈ a.lines, s.lineHeld l = true) →
      exec (.commit k) s = .next (s.postOnce (.commit k)))) ∧
  (∀ (k : ActKey) (a : Act) (e : Ending) (s : State), s.act? k = some a → a.ending = some e → e = .abort ∨ e = .reject →
    s.actBusy k = false → a.partner = none → a.rolled = none → a.handler = false → (s.thread a.owner).act = some k →
    ∃ t, exec (.commit k) s = .next t ∧ (∀ p, t.byteAt p = s.byteAt p) ∧ t.act? k = none ∧ (t.thread a.owner).act = none ∧
      (t.thread a.owner).status = .idle ∧
      (t.cluster a.cluster).kennel.tiles = (s.cluster a.cluster).kennel.tiles.map (fun q =>
        if q.tile.age ∈ a.ages then { q with held := false } else q) ∧
      (e = .reject → s.current k a = true →
        ∀ d ∈ (t.cluster a.cluster).kennel.cands, a.isCand d = true → d.rejected = true ∧ d.skips = 0) ∧
      (e = .abort ∨ s.current k a = false → (t.cluster a.cluster).kennel.cands = (s.cluster a.cluster).kennel.cands) ∧
      Instr.arbitrationRound a.cluster ∈ t.pending)

/-- R390, R391: twins whose commit streams, in issue order, agree commit once, and the second twin's bytes are discarded; twins
whose streams differ, or one of which aborts, end without a commit, and the next start of a differing pair's candidate is to avoid
their cores. The hash is a free function (entry 23), and what endings of two kinds come to is the model's reading (entry 54). -/
def Obligations.TwinResult : Prop :=
  ∀ (r : Nat) (id : Word) (a0 a1 : Act) (e0 e1 : Ending) (s : State),
    let k0 : ActKey := ⟨r, id, 0⟩
    let k1 : ActKey := ⟨r, id, 1⟩
    s.act? k0 = some a0 → s.act? k1 = some a1 → a0.ending = some e0 → a1.ending = some e1 → s.actBusy k0 = false →
    s.actBusy k1 = false → a0.rolled = none → a1.rolled = none → a0.handler = false → a1.handler = false →
    (e0 = .abort ∨ e1 = .abort ∨ (e0 = .reject ∧ e1 = .reject) ∨ e0 ≠ e1 ∨
        a0.streamHash ≠ a1.streamHash →
      ∃ t, exec (.twinCompare k0) s = .next t ∧ t.act? k0 = none ∧ t.act? k1 = none ∧ t.lines = s.lines ∧ t.mem = s.mem ∧
        (e0 = .done → e1 = .done → s.current k0 a0 = true →
          (t.rollback a0.cluster a0.ruleIx a0.ages).avoid = [a0.owner.core, a1.owner.core])) ∧
    (∀ x, e0 = .done → e1 = .done → a0.stream = a1.stream → s.actPend k0 a0 = none → s.run? r = some x → a0.products = [] →
      a0.runqs = [] → a0.outside = [] → s.heldMessages k0 a0 = [] → (a0.tent.map (·.1)).Nodup →
      (∀ l ∈ a0.lines, s.homeDown x.vf (256 * l) = false ∧ s.lineHeld l = false) →
      ∃ t, exec (.twinCompare k0) s = .next t ∧ t.act? k0 = none ∧ t.act? k1 = none ∧
        (∀ c ∈ a0.tent, t.byteAt c.1 = c.2) ∧ (∀ p, (∀ c ∈ a0.tent, c.1 ≠ p) → t.byteAt p = s.byteAt p))

/-- R134, R280, R321, R322, R401: a doorbell write is queued for the appender or sets DROP, and a read of the doorbell
answers FREE, EN and DROP and clears DROP; the appender copies the record's 256 bytes into the slot at TAIL; a whole control
block with an even generation is accepted and copied to its shadow; CLUFLAGS bits reach PACKFLAGS. -/
def Obligations.QueueResult : Prop :=
  (∀ (vf q : Nat) (addr : Word) (s : State), s.input = .doorbell vf q addr → s.presented vf = true → q < 64 →
    s.hub.started = true → s.hub.failed = false →
    (addr.toNat % 256 = 0 → s.queueRoom vf q ≠ 0 → ∃ t, exec .doorbellWrite s = .next t ∧
      t.submissions = s.submissions ++ [⟨vf, q, addr, true, none, none, none, none⟩] ∧
      t.queue vf q = { s.queue vf q with reserved := (s.queue vf q).reserved + 1 } ∧ Instr.queueAppend ∈ t.pending ∧
      s.SameMemory t .nowhere 0) ∧
    (addr.toNat % 256 ≠ 0 ∨ s.queueRoom vf q = 0 → ∃ t, exec .doorbellWrite s = .next t ∧ t.submissions = s.submissions ∧
      t.queue vf q = { s.queue vf q with drop := true } ∧ s.SameMemory t .nowhere 0)) ∧
  (∀ (vf q : Nat) (s : State), s.input = .readDoorbell vf q → s.presented vf = true → q < 64 → s.queueRoom vf q < 2 ^ 17 →
    ∃ t w, exec .qdbRead s = .next t ∧ t.hub.hostOut = s.hub.hostOut ++ [w] ∧
      w.toNat = s.queueRoom vf q + 2 ^ 17 * (s.queue vf q).enabled.toNat + 2 ^ 18 * (s.queue vf q).drop.toNat ∧
      t.queue vf q = { s.queue vf q with drop := false } ∧ s.SameMemory t .nowhere 0) ∧
  (∀ (sub : Submission) (bs : List Byte) (p : Spot) (s u : State), s.submissions = [sub] → sub.waiting = none →
    sub.refused = none → sub.thread = none → bs.length = 256 →
    (sub.bytes = some bs ∧ u = s) ∨ (sub.bytes = none ∧ s.EngineReads (frontEnd sub.vf) sub.addr.toNat 256 bs u) →
    let k := s.queue sub.vf sub.queue
    k.enabled = true → u.FrontWrites sub.vf (BitVec.ofNat 64 (Qcb.ring k.qcb + 256 * (k.tail % Qcb.slots k.qcb))) 256 p →
    ∃ t x, exec .queueAppend s = .next t ∧ t.submissions = [] ∧ t.run? s.nextRun = some x ∧
      x.rec_ = BitVec.ofNat 2048 (leNat bs) ∧ x.addr = sub.addr ∧ x.vf = sub.vf ∧ x.queue = sub.queue ∧ x.phase = .queued ∧
      t.queue sub.vf sub.queue = { k with tail := k.tail + 1, runs := k.runs ++ [s.nextRun], reserved := k.reserved - 1 } ∧
      Instr.runEligible sub.vf sub.queue ∈ t.pending ∧ (∀ i, i < 256 → t.siteByte p.site i = bs.getD i 0) ∧
      s.SameMemory t p.site 256) ∧
  (∀ (vf q : Nat) (s : State),
    let b := s.qcbAt vf q
    (Qcb.gen b % 2 = 0 → natBits b.toNat 511 448 = Qcb.gen b → ∃ t, exec (.qcbRead vf q) s = .next t ∧
      t.queue vf q = { s.queue vf q with qcb := b, disabled := false } ∧
      t.sramReads vf (sramShadow + 64 * q) 64 = leBytes 64 b.toNat ∧ Instr.runEligible vf q ∈ t.pending ∧
      (∀ a, t.byteAt a = s.byteAt a) ∧
      ∀ a, a < sramShadow + 64 * q ∨ sramShadow + 64 * q + 64 ≤ a → ByteMap.read (t.fn vf).sram a = ByteMap.read (s.fn vf).sram a) ∧
    (Qcb.gen b % 2 = 1 ∨ natBits b.toNat 511 448 ≠ Qcb.gen b → exec (.qcbRead vf q) s = .next s)) ∧
  (∀ (r : Nat) (x : Run) (s : State), s.run? r = some x → x.released = true →
    (∀ c ∈ s.clusters, c.2.raised ≠ 0 → c.2.run = some r) →
    (∃ c ∈ s.clusters, c.2.raised ≠ 0) →
    ∃ t, exec .flagPropagate s = .next t ∧ t.run? r = some { x with
        packflags := x.clusters.foldl (fun f c => f ||| (s.cluster c).raised) x.packflags } ∧
      (∀ c ∈ x.clusters, (t.cluster c).raised = 0 ∧ (t.cluster c).cluflags = (s.cluster c).cluflags) ∧
      s.SameMemory t .nowhere 0)

/-- R18 to R21, R26, R46 to R49, R115, R323 to R330, R351, R370: the checks and admission of a record, its placement and
release, replacement of a rule table, the limits, and the completion record with the count that follows it. The model's readings:
cores that stand in for fenced ones at placement (entry 61), a limit reached while a pack is stopped for pre-emption (entry 62),
the image that a release reads (entry 88), the key map that a replacement leaves as it stands (entry 89), and NO_TARGET for a
target that is draining or saved (entry 59). -/
def Obligations.RunResult : Prop :=
  (∀ (vf q r : Nat) (x : Run) (s : State), s.headRun vf q = some r → s.run? r = some x → x.phase = .queued → x.stop = none →
    s.dispatchOpen = true → s.feWaits r = false → s.isEligible r x = true → x.refused = [] → x.ntiles = none →
    (∀ n, x.checked = false → s.recordCheck x (s.imageFor vf x.rec_) = n → n ≠ 0 → ∃ t, exec (.runEligible vf q) s = .next t ∧
      t.run? r = some { x with stop := some ⟨5, n, 0⟩ } ∧ Instr.completionSignal r ∈ t.pending ∧ s.SameMemory t .nowhere 0) ∧
    (x.checked = true → Rec.kind x.rec_ = 2 → Rec.ntind x.rec_ = false → ∃ t, exec (.runEligible vf q) s = .next t ∧
      t.run? r = some { x with rules := [], tiles := [], ntiles := some (Rec.ntiles x.rec_), gen := 1, phase := .eligible } ∧
      Instr.runPlace ∈ t.pending ∧ s.SameMemory t .nowhere 0) ∧
    (∀ img, x.checked = false → s.imageFor vf x.rec_ = some img → s.recordCheck x (some img) = 0 →
      let x := { x with checked := true, image := img }
      (Rec.kind x.rec_ = 2 → Rec.ntind x.rec_ = false → ∃ t, exec (.runEligible vf q) s = .next t ∧
        t.run? r = some { x with rules := [], tiles := [], ntiles := some (Rec.ntiles x.rec_), gen := 1, phase := .eligible } ∧
        Instr.runPlace ∈ t.pending ∧ s.SameMemory t .nowhere 0) ∧
      (∀ raw u, Rec.kind x.rec_ = 1 → (s.setRun r x).EngineReads (frontEnd x.vf) (Rec.rulesAt x.rec_) (64 * Rec.nrules x.rec_) raw u →
        let recs := ruleRecords raw (Rec.nrules x.rec_)
        (recs.all (ruleOk s.hub img) = false → ∃ t, exec (.runEligible vf q) s = .next t ∧
          t.run? r = some { x with stop := some ⟨4, 0, 0⟩ } ∧ Instr.completionSignal r ∈ t.pending) ∧
        (∀ n cnt v tl w, recs.all (ruleOk s.hub img) = true →
          (Rec.ntind x.rec_ = false ∧ n = Rec.ntiles x.rec_ ∧ v = u) ∨
            (Rec.ntind x.rec_ = true ∧ n = leNat cnt ∧ u.EngineReads (frontEnd x.vf) (Rec.ntiles x.rec_) 4 cnt v) →
          let y := { x with rules := recs.map Rule.parse, ntiles := some n, gen := 1 }
          let z := { y with
            tiles := (List.range n).map (fun i => BitVec.ofNat 256 (leNat ((tl.drop (32 * i)).take 32)))
            phase := .eligible }
          (v.setRun r y).EngineReads (frontEnd x.vf) (Rec.tilesAt x.rec_) (32 * n) tl w →
          (w.roomNow z = false → ∃ t, exec (.runEligible vf q) s = .next t ∧
            t.run? r = some { z with stop := some ⟨7, 0, 0⟩ } ∧ Instr.completionSignal r ∈ t.pending) ∧
          (w.roomNow z = true → ∃ t, exec (.runEligible vf q) s = .next t ∧
            t.run? r = some z ∧ Instr.runPlace ∈ t.pending ∧ s.SameMemory t .nowhere 0))))) ∧
  (∀ (r n : Nat) (x : Run) (s : State), s.waiters = [(r, x)] → (∀ c ∈ s.clusters, c.2.run ≠ some r) → x.phase = .eligible →
    Rec.kind x.rec_ = 2 → s.bestRect x [] = some n →
    let live := s.liveIn (rectClusters n (Rec.packw x.rec_) (Rec.packh x.rec_))
    ∃ t, exec .runPlace s = .next t ∧
      t.run? r = some { x with node := n, subst := live.flatMap (s.substFor x), keymap := [], phase := .placed } ∧
      (∀ c, (t.cluster c).run = if c ∈ live then some r else (s.cluster c).run) ∧ Instr.runRelease r ∈ t.pending ∧
      s.SameMemory t .nowhere 0) ∧
  (∀ (r : Nat) (x : Run) (s u : State), s.run? r = some x → x.phase = .placed → x.stop = none →
    s.feWaits r = false →
    x.refused = [] → Rec.kind x.rec_ = 2 → Rec.cwmask x.rec_ = 0 → x.tiles = [] → x.subst = [] →
    s.ImageReads x.vf x.image [Rec.entry x.rec_] u →
    (∀ c ∈ x.clusters, (s.cluster c).run = some r) → Rec.packw x.rec_ ≤ 16 → Rec.cores x.rec_ ≤ 16 → Rec.threads x.rec_ ≤ 4 →
    ∃ t, exec (.runRelease r) s = .next t ∧
      t.run? r = some { x with phase := .running, seq := (s.fn x.vf).seq + 1, cwins := [], releasedAt := s.fclk,
                               placedAt := s.fclk, sliceAt := s.fclk, waveAt := s.fclk, packflags := 0 } ∧
      (t.fn x.vf).seq = (s.fn x.vf).seq + 1 ∧
      (∀ i, i < Rec.nrank x.rec_ → t.thread (x.tsOf i) = { Thread.reset with
        run := some r, rank := BitVec.ofNat 32 i, pc := BitVec.ofNat 64 (Rec.entry x.rec_), status := .ready
        fpmode := BitVec.ofNat 64 (Rec.fpmode x.rec_), ltime := s.wmax }) ∧
      (∀ c ∈ x.clusters, ∀ k, k < 16 → (t.core c k).scratch = [] ∧ (t.core c k).lsplit = 8 ∧
        ∀ n : BarIx, (t.core c k).barrier n = Barrier.zero) ∧ (∀ a, t.byteAt a = s.byteAt a)) ∧
  (∀ (r : Nat) (x : Run) (s : State), s.run? r = some x → x.phase = .running ∨ x.phase = .draining → x.stop = none →
    Rec.timelim x.rec_ ≠ 0 → Rec.timelim x.rec_ ≤ x.ranBefore + (s.fclk - x.placedAt) →
    ∃ t, exec (.timeLimitExpiry r) s = .next t ∧ t.run? r = some { x with
        phase := .stopping, stop := some ⟨if Rec.kind x.rec_ = 1 then 2 else 10, 0, 0⟩ } ∧
      Instr.completionSignal r ∈ t.pending ∧ s.SameMemory t .nowhere 0 ∧
      (Rec.kind x.rec_ = 2 → ∀ u ∈ x.ranked, (t.thread u).status ≠ .ready ∧ (t.thread u).status ≠ .asleep)) ∧
  (∀ (r : Nat) (x : Run) (s : State), s.run? r = some x → x.phase = .running →
    (s.fclk < x.sliceAt + 3600000 → exec (.timeSliceExpiry r) s = .next s) ∧
    (x.sliceAt + 3600000 ≤ s.fclk →
      let wants (w : Nat × Run) : Prop := w.2.vf ≠ x.vf ∧ s.prioOf w.2 = s.prioOf x ∧ s.bestRect w.2 [] = none
      ((∀ w ∈ s.waiters, ¬ wants w) →
        exec (.timeSliceExpiry r) s = .next (s.setRun r { x with sliceAt := s.fclk })) ∧
      ((∃ w ∈ s.waiters, wants w) → (∀ w ∈ s.waiters, wants w → s.preemptSlice w.2 = none) →
        exec (.timeSliceExpiry r) s = .next s) ∧
      (∀ before w after, s.waiters = before ++ w :: after → wants w → (∀ v ∈ before, wants v → s.preemptSlice v.2 = none) →
        s.draining = [] → s.lowerPacks w.2 = [] → x.preemptible = true →
        (∀ q ∈ s.runs, q.2.preemptible = true → s.prioOf q.2 = s.prioOf x → q.2.vf ≠ w.2.vf →
          q.2.sliceAt + 3600000 ≤ s.fclk → q = (r, x)) → s.runs.Nodup →
        (s.bestRect w.2 x.clusters = none → s.preemptSlice w.2 = none) ∧
        ((s.bestRect w.2 x.clusters).isSome = true → ∃ t, exec (.timeSliceExpiry r) s = .next t ∧
          x.preemptStep r ∈ t.pending ∧ t = { s with pending := t.pending }))) ∧
    (∀ c, x.stop = some c → ∃ t, exec (.runStopTrapped r) s = .next t ∧ t.run? r = some { x with phase := .stopping } ∧
      Instr.completionSignal r ∈ t.pending ∧ s.SameMemory t .nowhere 0 ∧
      (Rec.kind x.rec_ = 2 → ∀ u ∈ x.ranked, (t.thread u).status ≠ .ready ∧ (t.thread u).status ≠ .asleep))) ∧
  (∀ (r : Nat) (x : Run) (s : State), s.run? r = some x → x.phase = .eligible → x.stop = none → s.feWaits r = false →
    (s.runOf x.vf (BitVec.ofNat 64 (Rec.entry x.rec_)) = none ∨
        (∃ u y, s.runOf x.vf (BitVec.ofNat 64 (Rec.entry x.rec_)) = some (u, y) ∧
          (Rec.kind y.rec_ ≠ 1 ∨ y.phase ≠ .running)) → ∃ t, exec (.replaceRequest r) s = .next t ∧
      t.run? r = some { x with stop := some ⟨9, 0, 0⟩ } ∧ Instr.completionSignal r ∈ t.pending) ∧
    (∀ u y raw v, s.runOf x.vf (BitVec.ofNat 64 (Rec.entry x.rec_)) = some (u, y) → s.run? u = some y → Rec.kind y.rec_ = 1 →
      y.phase = .running → y.replace = none → x.refused = [] →
      s.EngineReads (frontEnd x.vf) (Rec.rulesAt x.rec_) (64 * Rec.nrules x.rec_) raw v →
      let recs := ruleRecords raw (Rec.nrules x.rec_)
      (recs.all (ruleOk s.hub y.image) = true → ∃ t, exec (.replaceRequest r) s = .next t ∧
        t.run? u = some { y with replace := some ⟨r, recs.map Rule.parse⟩ } ∧ Instr.ruleTableSwitch u ∈ t.pending) ∧
      (recs.all (ruleOk s.hub y.image) = false → ∃ t, exec (.replaceRequest r) s = .next t ∧
        t.run? r = some { x with stop := some ⟨4, 0, 0⟩ } ∧ Instr.completionSignal r ∈ t.pending))) ∧
  (∀ (u : Nat) (y q : Run) (p : Replace) (s : State), s.run? u = some y → y.replace = some p → y.phase = .running →
    p.by_ ≠ u → s.run? p.by_ = some q →
    ∃ t, exec (.ruleTableSwitch u) s = .next t ∧ t.run? u = some { y with
        rules := p.rules, rulesAddr := Rec.rulesAt q.rec_, gen := (y.gen + 1) % 65536, replace := none } ∧
      t.run? p.by_ = some { q with stop := some ⟨8, 0, 0⟩ } ∧ Instr.completionSignal p.by_ ∈ t.pending ∧
      (∀ c ∈ y.clusters, Instr.arbitrationRound c ∈ t.pending ∧
        (t.cluster c).kennel.tiles = (s.cluster c).kennel.tiles) ∧ s.SameMemory t .nowhere 0) ∧
  (∀ (r : Nat) (x : Run) (s : State), s.run? r = some x → s.feWaits r = false →
    (x.stop = none → x.phase = .running → s.gangHalted x = true → ∃ t, exec (.completionSignal r) s = .next t ∧
      t.run? r = some { x with phase := .stopping, stop := some ⟨3, 0, 0⟩ } ∧ Instr.completionSignal r ∈ t.pending) ∧
    (∀ c, x.stop = some c → x.phase = .stopping → s.runBusy r x = true →
      exec (.completionSignal r) s = .next (s.postOnce (.completionSignal r))) ∧
    (∀ c pr pa pb, x.stop = some c → x.phase = .stopping → s.runBusy r x = false → x.refused = [] →
      let k := s.queue x.vf x.queue
      let res := if c.status = 1 ∨ c.status = 2 then (s.resultBytes x c.status).1 else []
      let y := if c.status = 1 ∨ c.status = 2 then { x with trunc := (s.resultBytes x c.status).2 } else x
      k.enabled = true → s.HostRange x.vf .w (Rec.result x.rec_) res.length pr →
      s.HostRange x.vf .w (Qcb.cring k.qcb + 64 * (k.count.toNat % Qcb.cslots k.qcb)) 64 pa →
      s.HostRange x.vf .w (Qcb.cnt k.qcb) 8 pb →
      ∃ t, exec (.completionSignal r) s = .next t ∧
        t.hub.hostMem = ByteMap.writes (ByteMap.writes (ByteMap.writes s.hub.hostMem (hostAddr pr) res) (hostAddr pa)
          (s.completionRecord r y c)) (hostAddr pb) (leBytes 8 (k.count + 1).toNat) ∧
        t.run? r = some { y with phase := .complete } ∧
        t.queue x.vf x.queue = { k with count := k.count + 1, runs := k.runs.filter (· != r) } ∧
        (∀ n ∈ x.clusters, (s.cluster n).run = some r → (t.cluster n).run = none) ∧ (∀ a, t.byteAt a = s.byteAt a))) ∧
  (∀ (r : Nat) (x : Run) (c : StopCause) (s : State), x.vf < 32 → x.queue < 64 → c.status < 256 → c.sub < 256 → x.firings < 2 ^ 64 →
    s.fclk < 2 ^ 64 →
    let w : BitVec 512 := BitVec.ofNat 512 (leNat (s.completionRecord r x c))
    (s.completionRecord r x c).length = 64 ∧ w.extractLsb' 0 32 = x.seq ∧ natBits w.toNat 36 32 = x.vf ∧
    natBits w.toNat 42 37 = x.queue ∧ natBits w.toNat 47 43 = 0 ∧ natBits w.toNat 55 48 = c.status ∧
    natBits w.toNat 63 56 = c.sub ∧ w.extractLsb' 64 64 = x.addr ∧
    natBits w.toNat 191 128 = (if Rec.kind x.rec_ = 1 then x.firings else 0) ∧ w.extractLsb' 256 6 = (x.clusters.filter (fun n => (s.cluster n).run == some r)).foldl
      (fun f n => f ||| (s.cluster n).raised) x.packflags ∧
    w.getLsbD 262 = x.trunc ∧ natBits w.toNat 319 263 = 0 ∧ w.extractLsb' 320 64 = c.tval ∧
    natBits w.toNat 447 384 = (if x.seq = 0 then 0 else s.fclk - x.releasedAt))

/-- R349, R372 to R378, R123: what a table entry gives a walk, which waits for a line that a relayout engine holds; a fault's
entry in the queue at FQTAIL, while fewer than 256 stand there, and the firmware core it wakes; SERVE and REFUSE, and the walk
that SERVE starts, for thread sets, copies and the front end; a full miss file holds the miss of a new page. That the queue is
full at 256 entries between FQHEAD and FQTAIL is the model's reading (entry 57). -/
def Obligations.FaultResult : Prop :=
  (∀ (vf va lo base : Nat) (rest : List Nat) (w : Word) (s : State),
    let at_ := base + 8 * (va / 2 ^ lo % 2048)
    s.physRead vf at_ 8 = .ok (leBytes 8 w.toNat) → (at_ < 2 ^ 39 → s.lineHeld (at_ / 256) = false) →
    let leaf := w.getLsbD 1
    let addr := 2 ^ 14 * (w.extractLsb' 14 38).toNat
    let bad := w.getLsbD 0 = false ∨ w.extractLsb' 5 9 ≠ 0 ∨ w.extractLsb' 52 12 ≠ 0 ∨
      (leaf = false ∧ w.extractLsb' 2 3 ≠ 0) ∨ (leaf = true ∧ addr % 2 ^ lo ≠ 0)
    (bad → s.walkFrom vf va (lo :: rest) base = .absent) ∧
    (¬ bad → leaf = false → s.walkFrom vf va (lo :: rest) base = s.walkFrom vf va rest addr ∧
      (rest = [] → s.walkFrom vf va (lo :: rest) base = .absent)) ∧
    (¬ bad → leaf = true → s.walkFrom vf va (lo :: rest) base =
      .present ⟨vf, va / 2 ^ lo * 2 ^ lo, lo, addr, w.getLsbD 2, w.getLsbD 3, w.getLsbD 4⟩)) ∧
  (∀ (vf va lo base : Nat) (rest : List Nat) (s : State),
    let at_ := base + 8 * (va / 2 ^ lo % 2048)
    at_ < 2 ^ 39 → s.lineHeld (at_ / 256) = true → s.walkFrom vf va (lo :: rest) base = .busy) ∧
  (∀ (vf va : Nat) (e : TlbEntry) (s : State), s.walk vf va = .present e →
    (e.bits = 16 ∨ e.bits = 27 ∨ e.bits = 38) ∧ e.pa % 2 ^ e.bits = 0 ∧ e.vf = vf ∧ e.covers vf va = true ∧
    e.phys va = e.pa + va % 2 ^ e.bits ∧ (s.fn vf).ptroot.getLsbD 0 = true) ∧
  (∀ (vf : Nat) (e : List Byte) (rest : List (List Byte)) (s : State), (s.fn vf).faults = e :: rest → e.length = 32 →
    let tail := (s.fn vf).fqtail
    let slot := (tail.extractLsb' 0 8).toNat
    ((s.fn vf).fqCount < 256 → ∃ t, exec (.faultQueueWrite vf) s = .next t ∧ (t.fn vf).fqCount = (s.fn vf).fqCount + 1 ∧
      ByteMap.reads (t.fn vf).sram (0xFE000 + 32 * slot) 32 = e ∧ (t.fn vf).faults = rest ∧
      ((t.fn vf).fqtail.extractLsb' 0 8).toNat = (slot + 1) % 256 ∧
      ((t.fn vf).fqtail.getLsbD 8 = if slot = 255 then !tail.getLsbD 8 else tail.getLsbD 8) ∧
      (∀ a, a < 0xFE000 + 32 * slot ∨ 0xFE000 + 32 * slot + 32 ≤ a →
        ByteMap.read (t.fn vf).sram a = ByteMap.read (s.fn vf).sram a) ∧
      Instr.firmwareWake vf ∈ t.pending ∧ (rest ≠ [] → Instr.faultQueueWrite vf ∈ t.pending)) ∧
    (256 ≤ (s.fn vf).fqCount → exec (.faultQueueWrite vf) s = .next s)) ∧
  (∀ (n : Nat) (s : State), ∃ t, exec (.firmwareWake n) s = .next t ∧
    t.thread (TsId.firmware n) = { s.thread (TsId.firmware n) with
      status := if (s.thread (TsId.firmware n)).status = .halted then .ready else (s.thread (TsId.firmware n)).status }) ∧
  (∀ (vf fid c : Nat) (m : Miss) (s : State), s.missOfFid vf fid = some (c, m) → s.missOf c vf m.page = some m → m.vf = vf →
    (∃ t, exec (.frespServe vf fid) s = .next t ∧ t.missOf c vf m.page = some { m with served := true } ∧
      Instr.pageWalk c vf m.page ∈ t.pending ∧ t.threads = s.threads ∧ s.SameMemory t .nowhere 0) ∧
    ((∀ a ∈ m.agents, ∃ u, a = .thread u ∧ (s.thread u).status = .asleep ∧
        ∀ x, (s.thread u).run.bind s.run? = some x → x.phase ≠ .draining) →
      ∃ t, exec (.frespRefuse vf fid) s = .next t ∧ t.missOf c vf m.page = none ∧
        (∀ u, .thread u ∈ m.agents → (t.thread u).status = s.wokenStatus u ∧ (t.thread u).refused = some (m.va >>> 16) ∧
          (t.thread u).pc = (s.thread u).pc) ∧ s.SameMemory t .nowhere 0) ∧
    (∀ u n q, m.agents = [.copyPipe u n] → s.sleeper u n = some q → q.stint = (s.thread u).stint →
      (s.thread u).joinAt ≤ q.order →
      ∃ t reach va, exec (.frespRefuse vf fid) s = .next t ∧ t.missOf c vf m.page = none ∧
        (∀ p ∈ (t.cluster u.cluster).copies, p.order ≠ q.order) ∧
        (t.thread u).pend = (s.thread u).pend ++ [⟨q.order, .cp, reach, 0x09, va, none, some n⟩] ∧
        (t.thread u).cnt.cp = (s.thread u).cnt.cp - 1 ∧ s.SameMemory t .nowhere 0) ∧
    (∀ r x va, m.agents = [.frontEnd r va] → r ≠ 0 → s.run? r = some x → x.phase = .placed → x.stop = none → s.inserts = [] →
      ∃ t, exec (.frespRefuse vf fid) s = .next t ∧ t.missOf c vf m.page = none ∧
        t.run? r = some { x with refused := x.refused ++ [va] } ∧ Instr.runRelease r ∈ t.pending)) ∧
  (∀ (vf fid : Nat) (s : State), s.missOfFid vf fid = none →
    exec (.frespServe vf fid) s = .next s ∧ exec (.frespRefuse vf fid) s = .next s) ∧
  (∀ (c vf page : Nat) (m : Miss) (s : State), s.missOf c vf page = some m → m.vf = vf → m.page = page → m.served = true →
    (∀ e, s.walk vf m.va.toNat = .present e → (∀ a ∈ m.agents, ∃ u, a = .thread u ∧ (s.thread u).status = .asleep) →
      ∃ t, exec (.pageWalk c vf page) s = .next t ∧ t.missOf c vf page = none ∧
        (c ≠ fwNode → (∀ k ∈ m.kinds, e.permits (FaultKind.ofCode k).need = true) → e ∈ (t.cluster c).l2tlb) ∧
        ((∃ k ∈ m.kinds, e.permits (FaultKind.ofCode k).need = false) → (t.cluster c).l2tlb = (s.cluster c).l2tlb) ∧
        (∀ u, .thread u ∈ m.agents → (t.thread u).status = s.wokenStatus u ∧ (t.thread u).refused = none ∧
          (t.thread u).pc = (s.thread u).pc) ∧ s.SameMemory t .nowhere 0) ∧
    (∀ a rest, s.walk vf m.va.toNat = .absent → m.agents = a :: rest → c ≠ fwNode → m.kind < 12 → a.core < 16 → a.code < 10 →
      let fid := (s.fn vf).nextFid
      ∃ t e, exec (.pageWalk c vf page) s = .next t ∧
        t.missOf c vf page = some { m with fid := fid.toNat, served := false } ∧ (t.fn vf).nextFid = fid + 1 ∧
        (t.fn vf).faults = (s.fn vf).faults ++ [leBytes 32 e] ∧ Instr.faultQueueWrite vf ∈ t.pending ∧
        (let b : BitVec 256 := BitVec.ofNat 256 e
         b.extractLsb' 0 64 = m.va ∧ (b.extractLsb' 64 8).toNat = 8 ∧ (b.extractLsb' 72 4).toNat = m.kind ∧
         (b.extractLsb' 76 4).toNat = a.code ∧ (b.extractLsb' 80 16).toNat = s.hub.logical kindCluster c % 2 ^ 16 ∧
         (b.extractLsb' 96 4).toNat = a.core ∧ b.extractLsb' 100 28 = 0 ∧
         b.extractLsb' 128 64 = ((s.agentRun c a).map Run.id).getD 0 ∧ b.extractLsb' 192 32 = fid ∧ b.extractLsb' 224 32 = 0) ∧
        s.SameMemory t .nowhere 0)) ∧
  (∀ (p : Pipe) (vf : Nat) (va : Word) (kind : FaultKind) (a : Agent) (s : State), p ≠ .none → p.cluster ≠ fwNode →
    64 ≤ (s.cluster p.cluster).misses.length → tlbFind vf va.toNat (s.pipeTlb p) = none →
    tlbFind vf va.toNat (s.cluster p.cluster).l2tlb = none → s.missOf p.cluster vf (va.toNat / 2 ^ 16) = none →
    s.translate p vf va.toNat = (s, .missing) ∧ s.joinMiss p.cluster vf va kind a = none)

/-- R131, R164, R326, R374, R379 to R384: which packs are pre-empted and how they stop; the drain limit; the save area,
written by the front end when the pack has come to rest; the resumption of a pack from what its save area holds, with the
image read again and the replies that its thread sets had not read (the model's readings, entries 88 and 90). -/
def Obligations.PreemptResult : Prop :=
  (∀ x : Run,
    let n := Rec.packw x.rec_ * Rec.packh x.rec_
    let size := if Rec.kind x.rec_ = 2 then
        0x100 + n * (0x416000 + Rec.cores x.rec_ * 0x40200 + Rec.cores x.rec_ * Rec.threads x.rec_ * 0x2500)
      else 0x100 + n * (0x497100 + Rec.cores x.rec_ * 0x40200)
    x.saveSize = size ∧
    (x.preemptible = true ↔ x.phase = .running ∧ Rec.save x.rec_ ≠ 0 ∧ size ≤ Rec.savecap x.rec_)) ∧
  (∀ (r : Nat) (x : Run) (s : State), s.run? r = some x →
    (x.preemptible = true → Rec.kind x.rec_ = 1 → ∃ t, exec (.preemptReactPack r) s = .next t ∧
      t.run? r = some { x with phase := .draining, drainAt := s.fclk } ∧ Instr.packSave r ∈ t.pending ∧ t.threads = s.threads ∧
      t.acts = s.acts ∧ s.SameMemory t .nowhere 0) ∧
    (x.preemptible = true → Rec.kind x.rec_ = 2 → ∃ t, exec (.preemptGangPack r) s = .next t ∧
      t.run? r = some { x with phase := .draining, drainAt := s.fclk } ∧ Instr.packSave r ∈ t.pending ∧
      (∀ u ∈ x.ranked, (t.thread u).status =
        (if (s.thread u).status = .ready ∧ (s.thread u).refused = none then .stopped else (s.thread u).status) ∧
        (t.thread u).pc = (s.thread u).pc) ∧ s.SameMemory t .nowhere 0) ∧
    (x.preemptible = false → exec (.preemptReactPack r) s = .next s ∧ exec (.preemptGangPack r) s = .next s) ∧
    (x.phase = .draining → Rec.kind x.rec_ = 1 →
      (x.drainAt + 180000 ≤ s.fclk → (s.acts.map (·.1)).Nodup → ∃ t, exec (.drainLimitExpiry r) s = .next t ∧
        (∀ k a, s.act? k = some a → k.run = r → a.handler = false → a.ending ≠ some .reject →
          ∃ b, t.act? k = some b ∧ b.ending = some .abort ∧ b.ages = a.ages ∧ Instr.commit k ∈ t.pending) ∧
        (∀ k a, s.act? k = some a → k.run ≠ r ∨ a.handler = true → t.act? k = some a) ∧ s.SameMemory t .nowhere 0) ∧
      (s.fclk < x.drainAt + 180000 → exec (.drainLimitExpiry r) s = .next s)) ∧
    (x.phase = .draining → s.feWaits r = false →
      (s.atRest r x = false → exec (.packSave r) s = .next (s.postOnce (.packSave r))) ∧
      (∀ pa, s.atRest r x = true → x.stop = none → x.refused = [] →
        let u := s.parkAll x
        s.HostRange x.vf .w (Rec.save x.rec_) (u.saveBytes r x).length pa →
        ∃ t, exec (.packSave r) s = .next t ∧
          t.hub.hostMem = ByteMap.writes s.hub.hostMem (hostAddr pa) (u.saveBytes r x) ∧
          t.run? r = some { x with
            phase := .saved, preempts := x.preempts + 1, ranBefore := x.ranBefore + (s.fclk - x.placedAt)
            packflags := s.packFlags r x, subst := [] } ∧
          (∀ c ∈ x.clusters, (s.cluster c).run = some r → (t.cluster c).run = none ∧ (t.cluster c).l2tlb = [] ∧
            ∀ k, k < 16 → (t.core c k).tlb = []) ∧ (∀ a, t.byteAt a = s.byteAt a)))) ∧
  (∀ (r : Nat) (x : Run) (s : State), s.fclk < 2 ^ 64 → x.firings < 2 ^ 64 → x.ranBefore + (s.fclk - x.placedAt) < 2 ^ 64 →
    x.saveSize < 2 ^ 64 →
    let bs := s.saveBytes r x
    natIn bs 0 8 = 0x45564153 + 2 ^ 32 * (if Rec.kind x.rec_ = 1 then 1 else 2) + 2 ^ 40 ∧ natIn bs 8 8 = x.saveSize ∧
    natIn bs 16 8 = x.ranBefore + (s.fclk - x.placedAt) ∧ natIn bs 24 8 = (s.packFlags r x).toNat ∧
    natIn bs 32 8 = (if Rec.kind x.rec_ = 1 then x.firings else 0) ∧ natIn bs 40 216 = 0) ∧
  (∀ (r : Nat) (x : Run) (bs : List Byte) (s u v : State), s.run? r = some x → x.phase = .saved → x.stop = none →
    s.feWaits r = false → x.refused = [] → x.subst = [] → (∀ c ∈ x.clusters, (s.cluster c).run = some r) → x.clusters ≠ [] →
    (∃ c ∈ s.clusters, c.2.run = some r) →
    (NMap.get s.saves r []).length = x.clusters.length → Rec.packw x.rec_ ≤ 16 → Rec.cores x.rec_ ≤ 16 →
    Rec.threads x.rec_ ≤ 4 → s.ImageReads x.vf x.image x.entries u →
    u.EngineReads (frontEnd x.vf) (Rec.save x.rec_) x.saveSize bs v →
    (Rec.kind x.rec_ = 2 → (∀ i j, i < x.clusters.length → j < 16 →
        natIn bs (0x100 + i * x.clusterRecord + 0x1200 + 128 * j) 104 = 0) →
      ∃ t, exec (.resumePack r) s = .next t ∧
        t.run? r = some { x with
          phase := .running, placedAt := s.fclk, sliceAt := s.fclk, waveAt := s.fclk, wave := none
          ranBefore := natIn bs 16 8, packflags := BitVec.ofNat 6 (natIn bs 24 8) } ∧
        (∀ i, i < Rec.nrank x.rec_ →
          let per := Rec.cores x.rec_ * Rec.threads x.rec_
          let at_ := 0x100 + i / per * x.clusterRecord + 0x416000 + Rec.cores x.rec_ * 0x40200 + i % per * 0x2500
          let h := t.thread (x.tsOf i)
          (∀ n : XReg, n ≠ 0 → h.getX n = dwordIn bs (at_ + 8 * n.toNat)) ∧
          (∀ n : VReg, h.getV n = VWord.ofBytes (bytesIn bs (at_ + 0x100 + 64 * n.toNat) 64)) ∧
          (∀ n : PReg, n ≠ 0 → h.getP n = dwordIn bs (at_ + 0x900 + 8 * n.toNat)) ∧
          h.pc = dwordIn bs (at_ + 0x1140) ∧ h.tpc = dwordIn bs (at_ + 0x1148) ∧ h.tcause = dwordIn bs (at_ + 0x1150) ∧
          h.tval = dwordIn bs (at_ + 0x1158) ∧ h.mode = (dwordIn bs (at_ + 0x1160)).getLsbD 0 ∧
          h.pmode = (dwordIn bs (at_ + 0x1160)).getLsbD 1 ∧ h.intrap = (dwordIn bs (at_ + 0x1160)).getLsbD 2 ∧
          h.run = some r ∧ h.rank = BitVec.ofNat 32 i ∧ (h.status = .ready ∨ h.status = .halted)) ∧
        (∀ a, t.byteAt a = s.byteAt a)) ∧
    (Rec.kind x.rec_ = 1 →
      ∃ t, exec (.resumePack r) s = .next t ∧
        t.run? r = some { x with
          phase := .running, placedAt := s.fclk, sliceAt := s.fclk, waveAt := s.fclk, wave := none
          ranBefore := natIn bs 16 8, packflags := BitVec.ofNat 6 (natIn bs 24 8), firings := natIn bs 32 8 } ∧
        (∀ i, i < x.clusters.length →
          let n := (t.cluster (x.clusterAt i)).kennel
          let at_ := 0x100 + i * x.clusterRecord + 0x416000
          n.ageCtr = BitVec.ofNat 32 (natIn bs at_ 8) ∧ n.actSeq = BitVec.ofNat 32 (natIn bs (at_ + 8) 8) ∧
          n.ins = natIn bs (at_ + 16) 8 ∧ n.rem = natIn bs (at_ + 24) 8 ∧ n.snd = natIn bs (at_ + 32) 8 ∧
          n.rcv = natIn bs (at_ + 40) 8 ∧ n.lastRound = RoundRec.zero ∧ (∀ q ∈ n.tiles, q.held = false ∧ ∃ j, j < 16384 ∧
            q.tile = Tile.ofBits (BitVec.ofNat 256 (natIn bs (at_ + 0x1100 + 32 * j) 32))) ∧
          Instr.arbitrationRound (x.clusterAt i) ∈ t.pending) ∧
        (∀ (i j : Nat) (k : SavedCluster) (u : TsId) (th : Thread), (NMap.get s.saves r [])[i]? = some k →
          k.threads[j]? = some th → (x.setsAt (x.clusterAt i))[j]? = some u → (t.thread u).recvq = th.recvq) ∧ (∀ a, t.byteAt a = s.byteAt a)))

/-- R316, R317, R386 to R389, R394 to R396, R407: an error poisons what it strikes or discards a TLB entry (that one of a
register file is met by the thread set's next word is the model's choice, entry 96); an array that fails loses its LIVE block;
corrected errors are counted; links retrain or fail; a lost die ends its runs, and with it goes every die all of whose links
have stopped; the steps of a warm reset, which drain the die's links. How these events arrive (entry 25), what a failed step
leaves and which packets a drain waits for (entry 67), and that the links to a lost die have stopped (entry 104) are the
model's readings. -/
def Obligations.ContainResult : Prop :=
  (∀ (s : State),
    (∀ pa, s.input = .ecc (.sector pa) → ∃ t, exec .uncorrectableError s = .next t ∧
      (∀ b n, 0 < n → b / 64 ≤ pa / 64 → pa / 64 ≤ (b + n - 1) / 64 → t.poisonAt b n = true) ∧
      (∀ b n, 0 < n → ((b + n - 1) / 64 < pa / 64 ∨ pa / 64 < b / 64) → t.poisonAt b n = s.poisonAt b n) ∧
      s.SameMemory t .nowhere 0) ∧
    (∀ c k off, s.input = .ecc (.scratch c k off) → ∃ t, exec .uncorrectableError s = .next t ∧
      NMap.get (t.core c k).poison (off / 8) 0 = 0xFF ∧
      (∀ w, w ≠ off / 8 → NMap.get (t.core c k).poison w 0 = NMap.get (s.core c k).poison w 0) ∧
      s.SameMemory t .nowhere 0) ∧
    (∀ c k line i, s.input = .ecc (.privLine c k line i) → ∃ t, exec .uncorrectableError s = .next t ∧
      (∀ p ∈ (t.core c k).priv, ∃ q ∈ (s.core c k).priv, p.line = q.line ∧ p.bytes = q.bytes ∧
        ∀ j, j < 4 → p.bad.getLsbD j = (q.bad.getLsbD j || (q.line == line && j == i.toNat))) ∧ s.SameMemory t .nowhere 0) ∧
    (∀ c b row, s.input = .ecc (.buffer c b row) → ∃ t, exec .uncorrectableError s = .next t ∧
      ∀ b' row', (t.cluster c).rowBad b' row' = true ↔ (s.cluster c).rowBad b' row' = true ∨ (b' = Buf.ofCode b.toNat ∧ row' = row)) ∧
    (∀ c k i, s.input = .ecc (.tlb c k i) → ∃ t, exec .uncorrectableError s = .next t ∧
      (t.core c k).tlb = (s.core c k).tlb.eraseIdx i ∧ s.SameMemory t .nowhere 0) ∧
    (∀ c pipe i, s.input = .ecc (.engineTlb c pipe i) → ∃ t, exec .uncorrectableError s = .next t ∧
      (∀ p ∈ [(0, Pipe.copy c), (1, .fill c), (2, .drain c), (3, .relay c)], p.1 = pipe.toNat →
        t.pipeTlb p.2 = (s.pipeTlb p.2).eraseIdx i) ∧ s.SameMemory t .nowhere 0) ∧
    (∀ c i, s.input = .ecc (.l2tlb c i) → ∃ t, exec .uncorrectableError s = .next t ∧
      (t.cluster c).l2tlb = (s.cluster c).l2tlb.eraseIdx i ∧ s.SameMemory t .nowhere 0) ∧
    (∀ u, s.input = .ecc (.registers u) → ∃ t, exec .uncorrectableError s = .next t ∧
      t.thread u = { s.thread u with ecc := true } ∧ s.SameMemory t .nowhere 0) ∧
    (∀ c b row, s.input = .bufferRow c (some (b, row)) → ∃ t, exec .bufferRowPoison s = .next t ∧
      (t.cluster c).rowBad (Buf.ofCode b.toNat) row = true) ∧
    (∀ c u, s.input = .bufferRow c none → (s.cluster c).array.holder = some u →
      ((s.cluster c).array.orphan = none → (s.thread u).chain.state = .live →
        ∃ t, exec .bufferRowPoison s = .next t ∧ (t.thread u).chain.state = .none ∧ (t.thread u).chain.blockErr = true) ∧
      (∀ q, (s.cluster c).array.orphan = some q → q.state = .live → ∃ t, exec .bufferRowPoison s = .next t ∧
        (t.cluster c).array.orphan = some { q with state := .none, cls := .none, blockErr := true } ∧ t.threads = s.threads)) ∧
    (∀ c, s.input = .cluster c → ∃ t, exec .arrayFail s = .next t ∧ (t.cluster c).array.failed = true ∧
      (t.cluster c).array.holder = none ∧ (t.hub.unit ⟨kindArray, c⟩).state = 2 ∧
      (t.cluster c).array.orphan = none ∧
      (∀ u, (s.cluster c).array.holder = some u → (s.cluster c).array.orphan = none → (s.thread u).chain.state = .live →
        (t.thread u).chain.state = .none ∧
        (t.thread u).chain.blockErr = false) ∧ s.SameMemory t .nowhere 0) ∧
    (∀ u, s.input = .unit u → u.phys < 65536 → ∃ t, exec .correctedError s = .next t ∧
      (t.hub.unit u).cerr = (s.hub.unit u).cerr + 1 ∧ (t.hub.unit u).state = (s.hub.unit u).state ∧
      t = { s with hub := { s.hub with units := t.hub.units } } ∧
      (∀ w, w ≠ u → w.phys < 65536 → t.hub.unit w = s.hub.unit w)) ∧
    exec .flitCrcFail s = .next s ∧
    (∀ u, s.input = .unit u → ∃ t, exec .linkRetrain s = .next t ∧ u ∈ t.hub.retraining ∧
      t = { s with hub := { s.hub with retraining := t.hub.retraining } }) ∧
    (∀ u ok, s.input = .retrained u ok → ∃ t, exec .linkRetrainDone s = .next t ∧ u ∉ t.hub.retraining ∧
      (ok = true → t = { s with hub := { s.hub with retraining := t.hub.retraining } }) ∧
      (ok = false → u.kind = kindModule → (t.hub.unit u).state = 2) ∧
      (ok = false → u.kind = kindPort → (t.hub.unit u).state = 3) ∧
      (ok = false → u.kind = kindHubLink → (t.hub.unit u).state = 3 ∧ t.hub.failed = true ∧
        ∀ r x, s.runs = [(r, x)] → x.phase = .running → x.stop = none →
          t.run? r = some { x with stop := some ⟨6, 0x0B, 0⟩ } ∧ Instr.runStopTrapped r ∈ t.pending) ∧
      (ok = false → u.kind = kindCluster → (t.hub.dies[nodeDie u.phys]?).all (·.lost) = true))) ∧
  (∀ (d : BitVec 2) (s : State), s.input = .die d → ∃ t, exec .dieLost s = .next t ∧
    (t.hub.dies[d.toNat]'d.isLt).lost = true ∧ (∀ e, e < 4 → t.hub.dieCut e = false) ∧
    (∀ (r : Nat) (x : Run), s.run? r = some x → x.stop = none → (∃ c ∈ s.clusters, c.1 < 256 ∧ nodeDie c.1 = d.toNat ∧ c.2.run = some r) →
      t.run? r = some { x with stop := some ⟨6, 0x0B, 0⟩ } ∧ Instr.runStopTrapped r ∈ t.pending) ∧
    ((∀ e, e < 4 → (s.setDie d.toNat (fun y => { y with lost := true, down := false })).hub.dieCut e = false) →
      ∀ (r : Nat) (x : Run), s.run? r = some x → (∀ c ∈ s.clusters, nodeDie c.1 = d.toNat → c.2.run ≠ some r) →
      t.run? r = some x) ∧
    (∀ u : TsId, u.cluster < 256 → nodeDie u.cluster = d.toNat → u.core < 16 → u.set < 5 → (t.thread u).status = .idle)) ∧
  (∀ s : State,
    (s.hub.diectl.getLsbD 2 = false → exec .diectlGo s = .next s) ∧
    (s.hub.diectl.getLsbD 2 = true →
      let d := s.hub.resetDie
      let step (t : State) : Nat := (t.hub.diectl.extractLsb' 3 3).toNat
      (step s = 2 ∨ step s = 5 → s.dieTraffic d = true → exec .diectlGo s = .next (s.post .diectlGo)) ∧
      (step s = 2 → s.dieTraffic d = false → ∃ t, exec .diectlGo s = .next t ∧ step t = 3 ∧ Instr.diectlGo ∈ t.pending ∧ t.hub.resetDie = d) ∧
      (step s = 3 → ∃ t, exec .diectlGo s = .next t ∧ step t = 4 ∧ Instr.diectlGo ∈ t.pending ∧ t.hub.resetDie = d ∧
        ∀ l, NMap.find? t.lines l ≠ none → NMap.find? t.lines l = NMap.find? s.lines l) ∧
      (step s = 4 → s.acts = [] → s.dieTraffic d = false → ∃ t, exec .diectlGo s = .next t ∧ step t = 5 ∧ Instr.diectlGo ∈ t.pending ∧ t.hub.resetDie = d ∧
        (∀ vf pa, nodeDie (s.homeNode vf pa) = d ∨ stackOf pa / 2 = d → t.homeDown vf pa = true)) ∧
      (step s = 5 → s.dieTraffic d = false → ∃ t, exec .diectlGo s = .next t ∧ step t = 6 ∧ Instr.diectlGo ∈ t.pending ∧ t.hub.resetDie = d) ∧
      (step s = 6 → ∃ t, exec .diectlGo s = .next t ∧ step t = 7 ∧ t.hub.resetDie = d) ∧
      (step s = 0 → (∀ c ∈ s.clusters, nodeDie c.1 = d → c.2.run = none) → ∃ t, exec .diectlGo s = .next t ∧ step t = 1 ∧
        Instr.diectlGo ∈ t.pending ∧ t.hub.resetDie = d ∧ t.hub.held = s.hub.held) ∧
      (step s = 1 → s.acts = [] → (∀ c ∈ s.clusters, nodeDie c.1 = d → c.2.run = none) →
        ∃ t, exec .diectlGo s = .next t ∧ step t = 2 ∧ Instr.diectlGo ∈ t.pending ∧ t.hub.resetDie = d) ∧
      (step s = 7 → s.input = .warmReset true → ∃ t, exec .warmResetComplete s = .next t ∧ step t = 0 ∧
        t.hub.diectl.getLsbD 2 = false ∧ t.hub.diectl.getLsbD 6 = true ∧ t.hub.diectl.getLsbD 7 = false ∧ t.hub.held = [] ∧
        (∀ i x, t.hub.dies[i]? = some x → i = d → x.lost = false ∧ x.down = false) ∧ Instr.runPlace ∈ t.pending) ∧
      (s.input = .warmReset false → ∃ t, exec .warmResetComplete s = .next t ∧
        t.hub.diectl.getLsbD 2 = false ∧ t.hub.diectl.getLsbD 6 = true ∧ t.hub.diectl.getLsbD 7 = true ∧
        (∀ i x, t.hub.dies[i]? = some x → i = d → x.lost = true))))

/-- R332, R341, R352, R397, R399, R402 to R407, R409, R411, R412: start-up and its boot record; commit, watchdog and trial
boot; images written and updates; ACCEPT and ACTIVE; the control regions as the host reads and writes them; AFR (its contents
are free values of assumption 1), which the board reads too; temperature; the accesses of the host and of peers; measurements.
The model's own: that cores without a body stay halted (entry 12), the byte forms of what is measured (entry 24), how the
outside's events arrive (entry 25), what a failed step and a trial leave (entry 69), the start from the other slot when one
may not boot, and the order of an update (entry 97); what memory and the registers hold when power returns (entries 3 and 4),
and that writes to unassigned offsets are discarded (entry 95). -/
def Obligations.HubResult : Prop :=
  (∀ (fails : List Nat) (units : List UnitId) (s : State), s.input = .tests fails units → s.hub.started = false →
    let v := s.hub.nv
    ((∀ n, 1 ≤ n → n ≤ 13 → v.passes fails n = true) → units = [] → ∃ t, exec .startUp s = .next t ∧ t.hub.started = true ∧
      t.hub.failed = false ∧ t.hub.feat = #v[0x7F, 0, 0, 0] ∧ t.hub.accept = #v[0, 0, 0, 0] ∧
      t.hub.active = #v[0, 0, 0, 0] ∧ t.hub.bktmap = [] ∧ t.hub.fwin = [] ∧
      (∀ n, 1 ≤ n → n ≤ 13 → ∃ e, NMap.find? t.hub.nv.boot n = some e ∧ e.fails = 0 ∧
        e.outcome = (if v.useAlt n then 2 else 0) ∧ e.attempts = ((NMap.get v.boot n BootEntry.zero).attempts + 1) % 256) ∧
      (∀ n i, n ≤ 16 → NMap.find? v.images (if n = 0 then v.bootSlot 0 1 else v.bootSlot 1 11) = some i →
        let h := t.thread (TsId.firmware n)
        h.pc = BitVec.ofNat 64 i.entry ∧ h.mode = true ∧ h.status = (if i.body = [] then .halted else .ready) ∧
        (∀ a, a < 0xF0000 → ByteMap.read (t.fn n).sram a = i.body.getD a 0) ∧
        (t.fn n).committed = false ∧
        (∀ a, 0xF0000 ≤ a → a < 0xFC000 → ByteMap.read (t.fn n).sram a = ByteMap.read (s.fn n).sram a))) ∧
    (∀ n, 1 ≤ n → n ≤ 13 → (∀ m, 1 ≤ m → m < n → v.passes fails m = true) → v.passes fails n = false →
      ∃ t e, exec .startUp s = .next t ∧ t.hub.started = false ∧ t.hub.failed = true ∧
        NMap.find? t.hub.nv.boot n = some e ∧ e.outcome = 1 ∧ e.fails = ((NMap.get v.boot n BootEntry.zero).fails + 1) % 256 ∧
        t.threads = s.threads)) ∧
  (∀ (v : NvStore) (n : Nat), 1 ≤ n → n ≤ 13 → (v.useAlt n = true ↔ n ≠ 2 ∧ n ≠ 4 ∧ n ≠ 10 ∧ n ≠ 13 ∧
    ((NMap.get v.boot n BootEntry.zero).alt = true ∨ 2 ≤ (NMap.get v.boot n BootEntry.zero).fails))) ∧
  (∀ s : State, ∃ t, exec .boardPowerRemoved s = .next t ∧ t.hub.nv = s.hub.nv ∧ t.mem = [] ∧ t.lines = [] ∧ t.runs = [] ∧
    t.threads = [] ∧ t.fns = [] ∧ t.hub.started = false ∧ t.pending = [.startUp]) ∧
  (∀ (n : Nat) (s : State),
    (∀ i, n ≤ 16 → (s.fn n).trial = true → NMap.find? s.hub.nv.images (s.fn n).slot = some i →
      ∃ t, exec (.fwcommitCommit n) s = .next t ∧ (t.fn n).committed = true ∧ (t.fn n).trial = false ∧
        t.hub.nv.committedSlot (targetOf n) = (s.fn n).slot ∧ (t.fn n).kickAt = s.fclk ∧
        (∀ k : Fin 2, t.hub.nv.minSvn[k] = if k.val = targetOf n then max s.hub.nv.minSvn[k] i.svn else s.hub.nv.minSvn[k]) ∧
        t.threads = s.threads) ∧
    ((s.fn n).trial = false → exec (.fwcommitCommit n) s = .next s) ∧
    (∃ t, exec (.fwcommitKick n) s = .next t ∧ t.fn n = { s.fn n with kickAt := s.fclk } ∧ t.threads = s.threads) ∧
    (n ≤ 16 → (∀ m, m < n → s.watchdogDue m = false) → s.hub.started = true → s.hub.failed = false →
      (s.fn n).trial = false → (s.fn n).kickAt + 900000000 < s.fclk →
      exec .watchdogExpiry s = .next (s.bootCore n (s.hub.nv.committedSlot (targetOf n)))) ∧
    ((∀ m, m ≤ 16 → s.watchdogDue m = false) → exec .watchdogExpiry s = .next s) ∧
    (n ≤ 16 → (∀ m, m < n → s.trialDue m = false) → s.trialDue n = true →
      ∃ t, exec .trialBootExpiry s = .next t ∧ (s.fn n).slot ∈ t.hub.nv.rejected ∧
        t.hub.nv.bootable (targetOf n) (s.fn n).slot = false ∧ (t.fn n).slot = otherSlot (s.fn n).slot ∧
        (t.fn n).kickAt = s.fclk) ∧
    (∀ c, (s.fn n).trialSince = some c → s.trialDue n = true → c + 3600000000 < s.fclk) ∧
    (n ≤ 16 → s.hub.started = true → s.hub.failed = false → (∀ m, m ≤ 16 → targetOf m = targetOf n → (s.fn m).trial = false) →
      let own := s.hub.nv.committedSlot (targetOf n)
      (s.fn n).slot = own → s.hub.nv.bootable (targetOf n) (otherSlot own) = true →
      let t := s.runOutside (.update n)
      (t.fn n).slot = otherSlot own ∧ (t.fn n).trial = true ∧ (t.fn n).trialSince = none ∧ (t.fn n).kickAt = s.fclk ∧
        (n = 0 → t.dispatchOpen = false))) ∧
  (∀ (slot : Nat) (bs : List Byte) (s : State), slot < 4 →
    let t := s.runOutside (.slotWrite slot bs)
    NMap.find? t.hub.nv.images slot = some (Image.ofBytes bs) ∧ slot ∉ t.hub.nv.rejected ∧
      (∀ target, t.hub.nv.settled target slot = false) ∧ t.threads = s.threads ∧ t.fns = s.fns) ∧
  (∀ (vf off : Nat) (bs : List Byte) (s : State), s.presented vf = true → off + bs.length ≤ regionSize vf →
    s.hub.started = true → s.hub.failed = false →
    let t := s.runOutside (.regionWrite vf off bs)
    (0x1000 ≤ off → off + bs.length ≤ 0x2000 →
      (∀ i, i < bs.length → t.siteByte (.table vf (sramQcbs + (off - 0x1000))) i = bs.getD i 0) ∧
      s.SameMemory t (.table vf (sramQcbs + (off - 0x1000))) bs.length) ∧
    (0x3000 ≤ off → off + bs.length ≤ 0x4000 →
      (∀ i, i < bs.length → t.siteByte (.table vf (sramImages + (off - 0x3000))) i = bs.getD i 0) ∧
      s.SameMemory t (.table vf (sramImages + (off - 0x3000))) bs.length) ∧
    ((0x2000 ≤ off ∧ off + bs.length ≤ 0x2020) ∨ (0x2040 ≤ off ∧ off + bs.length ≤ 0x3000) ∨ 0x4000 ≤ off → t = s)) ∧
  (∀ s : State,
    (∀ k : Fin 4, s.runOutside (.regionRead 0 (0x2000 + 8 * k) 8) = s.answer [s.hub.feat[k]] ∧
      s.runOutside (.regionRead 0 (0x2040 + 8 * k) 8) = s.answer [s.hub.active[k]]) ∧
    (∀ vf q, s.presented vf = true → q < 64 → s.runOutside (.regionRead vf (8 * q) 8) =
      (s.updQueue vf q (fun k => { k with drop := false })).answer [s.qdb vf q]) ∧
    (∀ i, i < 7168 → s.runOutside (.regionRead 0 (0x4000 + 16 * i) 16) =
      s.answer (wordsOf ((List.range 16).map (fun j => (s.hub.inventory true).getD (16 * i + j) 0)))) ∧
    (s.hub.started = true → s.runOutside .measurementLog =
      s.answer (s.hub.log.flatMap (fun e => [BitVec.ofNat 64 e.1, BitVec.ofNat 64 e.2])))) ∧
  (∀ (n : BitVec 2) (w : Word) (s : State), s.input = .accept n w → s.hub.started = true →
    ((∀ x ∈ s.runs, x.2.phase = .complete) → s.submissions = [] → ∃ t, exec .acceptWrite s = .next t ∧
      t.hub.active[n.toNat]'n.isLt = (s.hub.feat[n.toNat]'n.isLt) &&& w ∧ t.hub.accept[n.toNat]'n.isLt = w ∧
      (∀ k : Fin 4, k.val ≠ n.toNat → t.hub.active[k] = s.hub.active[k])) ∧
    ((∃ x ∈ s.runs, x.2.phase ≠ .complete) → exec .acceptWrite s = .next s)) ∧
  (∀ s : State, s.runOutside (.smbusRead 0x4A 0x10) = s.answer [s.hub.afr]) ∧
  (∀ s : State, ∃ t, exec .afrUpdate s = .next t ∧ t.hub.afr.extractLsb' 24 8 = 40 ∧ t.hub.afr.extractLsb' 41 23 = 0 ∧
    (t.hub.afr.extractLsb' 32 9).toNat ≤ (s.hub.onNodes kindCluster).length ∧
    t = { s with freeIdx := s.freeIdx + 1, hub := { s.hub with afr := t.hub.afr } }) ∧
  (∀ (d : BitVec 2) (c : Byte) (s : State), s.input = .temp d c →
    let was := s.hub.dies[d.toNat]'d.isLt
    ∀ i ∈ [Instr.throttle, .throttleClear, .thermalTrip], ∃ t, exec i s = .next t ∧
      t.hub.dies[d.toNat]'d.isLt = { was with
        temp := c, throttled := if 100 ≤ c.toNat then true else if c.toNat < 95 then false else was.throttled } ∧
      (c.toNat < 110 → t = { s with hub := { s.hub with dies := t.hub.dies } }) ∧
      (110 ≤ c.toNat → t.hub.tripped = true ∧ t.hub.failed = true ∧
        ∀ r x, s.runs = [(r, x)] → x.phase = .running → x.stop = none → t.run? r = some { x with stop := some ⟨6, 0, 1⟩ })) ∧
  (∀ p ∈ ([(false, Instr.hostCxlMemAccess), (true, .foettePeerAccess)] : List (Bool × Instr)),
    ∀ (port pa len : Nat) (wr : Option (List Byte)) (s : State), s.input = (if p.1 then .peer port pa len wr else .cxlMem pa len wr) →
    s.hub.failed = false → s.hub.started = true →
    (p.1 = true → s.hub.feature 4 = true ∧ port < 12 ∧ s.hub.stateOf ⟨kindPort, port⟩ < 2) →
    pa < 2 ^ 39 → s.place pa = .ok .dram → s.homeDown 0 pa = false →
    (wr = none → 0 < len → pa % 256 + len ≤ 256 → s.poisonAt pa len = false → s.FindsWay 0 pa → ∃ t, exec p.2 s = .next t ∧
      t.hub.hostOut = s.hub.hostOut ++ wordsOf (s.bytesAt pa len) ∧ s.SameMemory t .nowhere 0) ∧
    (∀ bs, wr = some bs → 0 < bs.length → pa % 256 + bs.length ≤ 256 → s.FindsWay 0 pa → ∃ t, exec p.2 s = .next t ∧
      t.bytesAt pa bs.length = bs ∧ s.SameMemory t (.direct pa) bs.length) ∧
    (s.lineHeld (pa / 256) = true → (wr = none → 0 < len ∧ pa % 256 + len ≤ 256) →
      (∀ bs, wr = some bs → 0 < bs.length ∧ pa % 256 + bs.length ≤ 256) →
      exec p.2 s = .next { s with agenda := s.agenda ++ [.event p.2 s.input] })) ∧
  (∀ (a len : Nat) (w : Word) (s : State), s.input = .snoop a len w → ∃ t, exec .hostSnoop s = .next t ∧
    t.hub.hostMem = ByteMap.writes s.hub.hostMem a (leBytes (min len 8) w.toNat) ∧
    (∀ c k, ∀ l ∈ (t.core c k).priv, l ∈ (s.core c k).priv ∧
      ¬ (8 ≤ 256 * l.line / 2 ^ 48 ∧ 256 * l.line < 2 ^ 52 ∧ hostAddr (256 * l.line) < a + min len 8 ∧
        a < hostAddr (256 * l.line) + 256)) ∧ (∀ b, t.byteAt b = s.byteAt b)) ∧
  (∀ (i : Nat) (s : State), s.input = .spdm i → s.hub.started = true → 1 ≤ i → i ≤ 5 → ∃ t, exec .spdmRequest s = .next t ∧
    t = { s with hub := { s.hub with hostOut := t.hub.hostOut } } ∧
    (∃ ws, t.hub.hostOut = s.hub.hostOut ++ wordsOf (sha384 (s.measured i)) ++ ws))

/-- R51 to R67: the words that the manual writes out decode to the operations it gives them, and the words of the trap table
of R67 meet the traps that it gives. -/
def Obligations.ManualWordsDecode : Prop :=
  (∀ p ∈ ([
    (0x0110518000600000, .add ⟨4, 5, .reg 6, true, true⟩),
    (0x1E14000000000007, .li 5 7),
    (0x05105000000012C8, .bfx ⟨4, 5, 8, 11⟩ true),
    (0x2010518002400000, .fadd ⟨4, 5, .reg 6, .bf16, .rz⟩),
    (0x2110518200000000, .fcmp 4 5 6 .fp32 .lt),
    (0x301C610000000004, .bCond .ltu 7 6 .none 4),
    (0x317C000000000005, .call 31 .none 5),
    (0x33240000FFFFFFFF, .loop 9 .none 0xFFFFFFFF),
    (0x408628C400400005, .vadd ⟨1, 2, 3, 4, .i32, true, false, false, false⟩),
    (0x448628C00000002A, .vfadd ⟨1, 2, 3, 0, .bf16, .rz, false, false, false⟩),
    (0x480A494000000105, .vcmp ⟨2, 4, 5, 0, .i32, .lt, false, false⟩),
    (0x4A8A30000000200A, .vcvt ⟨2, 3, 0, .bf16, .fp32, .mode, false, false, false⟩),
    (0x4E13E04500000004, .vext 4 30 .i32 4),
    (0x500C108000000000, .plog .and 3 1 2),
    (0x6010500600200010, .ld ⟨4, 5, 0, 16, .w, true, .nt⟩),
    (0x660105C000000000, .pushm false 16 23),
    (0x7200984000000008, .send ⟨9, some 1, 0, 8, .none⟩),
    (0x7230088004000000, .recv 12 2),
    (0x7900000000600000, .fence .pack),
    (0x840000100C000000, .tfree (.tile 16)),
    (0xA000000004000000, .done),
    (0xF000604000080000, .putsrFpmode 6),
    (0xF014000000220000, .getsr 5 .rank),
    (0xF10000000000002A, .trap 42),
    (0xF200004000000000, .halt),
    (0xF200008000000000, .sret)] : List (Word × Instr)), decodeWord p.1 = .ok p.2) ∧
  (∀ p ∈ ([
    (0x0000000000000000, 0x01, 0x00), (0xFFFFFFFFFFFFFFFF, 0x01, 0xFF), (0x0000000000000001, 0x02, 0x0000),
    (0xA000000000000000, 0x02, 0x00A0), (0x448628C00000006A, 0x02, 0x0044), (0x01A0000000000000, 0x06, 0x28000001)] :
    List (Word × Nat × Word)), ∃ e, decodeWord p.1 = .error e ∧ DecodeTrap.cause e = p.2.1 ∧ e.tval = p.2.2)

/-- R51 to R67: the word that the encoder gives a well-formed instruction decodes to it again, with every operand. -/
def Obligations.DecodeOfEncode : Prop :=
  ∀ i : Instr, i.wf = true → i.isEvent = false → ∃ w, encode i = some w ∧ decodeWord w = .ok i

/-- R66: a word that passes decode names a well-formed instruction, and is the only word that names it: decode drops no bit.
-/
def Obligations.EncodeOfDecode : Prop :=
  ∀ (w : Word) (i : Instr), decodeWord w = .ok i → i.wf = true ∧ i.isEvent = false ∧ encode i = some w

/-- R51, R66, R68, R301, R331, R364, R386: a core's slot is offered to its ready thread sets in order; the one that issues runs the
instruction that its word decodes to, or takes the trap of its decode, and one whose word can only wait passes the slot on; a
repetition runs the copies of its body; a device step runs its instruction. The schedule is the model's choice (entry 7); a firmware
core's addresses are its reading (entry 12), the states in which a stopping pack's word is let go entries 62 and 65, the meeting of
a register-file error entry 96. -/
def Obligations.StepRunsDecoded : Prop :=
  (∀ (s u : State) (c k : Nat),
    ((∃ t rest, s.agenda = .issue t :: rest ∧ t.cluster = c ∧ t.core = k ∧
        u = { s with fclk := s.fclk + 1, agenda := rest }) ∨
      (s.agenda = [] ∧ (s.turn % 4 = 1 ∨ s.turn % 4 = 3) ∧ k < 17 ∧ u = { s with fclk := s.fclk + 1, turn := s.turn + 1 } ∧
        u.nextCore = some (17 * c + k))) →
    let v := { u with lastIssued := 17 * c + k }
    (v.candidates c k = [] → step s = .next v) ∧
    (∀ t ts, v.candidates c k = t :: ts →
      let s1 := { v.issued t with cur := t }
      (v.handlerSpent t = false → s1.me.ecc = false → ∀ w s2,
        (s1.me.rep = none ∧ s1.FetchesAt s1.me.pc w s2) ∨
          (s1.me.rep = none ∧ s2 = s1 ∧ s1.InSram s1.me.pc 8 ∧
            w = BitVec.ofNat 64 (ByteMap.readNat (s1.fn t.core).sram s1.me.pc.toNat 8)) ∨
          (s1.me.rep = none ∧ s1.InDram s1.me.pc 8 ∧ s1.poisonAt s1.me.pc.toNat 8 = false ∧
            s1.lineHeld (s1.me.pc.toNat / 256) = false ∧ s1.pullPlace .dram t.core s1.me.pc.toNat 8 false = some s2 ∧
            w = BitVec.ofNat 64 (leNat (s2.bytesAt s1.me.pc.toNat 8))) ∨
          (s2 = s1 ∧ ∃ r, s1.me.rep = some r ∧ w = stepWord (r.body.getD r.word 0) (r.pass * r.stride)) →
        ∀ o, (∀ i, decodeWord w = .ok i → o = exec i s2) →
          (∀ e, decodeWord w = .error e → o = s2.takeTrap (DecodeTrap.cause e) e.tval) →
          ∀ n, mapNext (fun v => v.restop t) o = .next n →
            (isFirmware t = true ∨ v.stalled n t = false → step s = .next n) ∧
            (isFirmware t = false → v.stalled n t = true → step s = (v.passed n t).offer ts)) ∧
      (v.handlerSpent t = false → s1.me.ecc = true →
        let s2 := { s1 with freeIdx := s1.freeIdx + 1 }.updMe (fun th => { th with ecc := false })
        ∀ n, mapNext (fun v => v.restop t) (s2.takeTrap 0x0A (Config.freeWord s1.freeIdx)) = .next n →
          isFirmware t = true ∨ v.stalled n t = false → step s = .next n) ∧
      (∀ key, v.handlerSpent t = true → (v.thread t).act = some key → step s = .next (s1.rollHandler t key 0x15 0)))) ∧
  (∀ (s : State) (t : TsId), (∀ x, (s.thread t).run.bind s.run? = some x → x.phase ≠ .draining) → s.restop t = s) ∧
  (∀ s : State, s.agenda = [] → s.turn % 4 = 0 →
    (∀ i rest, s.pending = i :: rest →
      step s = exec i { s with fclk := s.fclk + 1, turn := s.turn + 1, pending := rest }) ∧
    (s.pending = [] → step s = .next { s with fclk := s.fclk + 1, turn := s.turn + 1 })) ∧
  (∀ s : State, s.agenda = [] → s.turn % 4 = 2 → step s = .next { s with fclk := s.fclk + 1, turn := s.turn + 1 }.postDue) ∧
  (∀ (s : State) (o : Outside) (rest : List Turn), s.agenda = .outside o :: rest →
    step s = .next ({ s with fclk := s.fclk + 1, agenda := rest }.runOutside o)) ∧
  (∀ (s : State) (i : Instr) (x : Input) (rest : List Turn), s.agenda = .event i x :: rest →
    step s = mapNext (fun v => { v with input := .none })
      (exec i { s with fclk := s.fclk + 1, agenda := rest, input := x })) ∧
  (∀ (s : State) (n : Nat) (rest : List Turn), s.agenda = .tick n :: rest →
    step s = .next { s with fclk := s.fclk + 1 + n, agenda := rest })

/-- Every step keeps the canonical form of device memory, so that equal memories are equal data (the form is the model's). -/
def Obligations.StepKeepsMemoryForm : Prop :=
  ∀ s t : State, ByteMap.wf s.mem = true → step s = .next t → ByteMap.wf t.mem = true

/-- R19, R52, R53, R115, R116, R180, R182, R187, R373, R402, R406, R412: right after reset the registers hold the values that the
manual states, no function has its tables enabled, no run is released, and device memory has the canonical form. -/
def Obligations.ResetState : Prop :=
  let s := State.reset
  ByteMap.wf s.mem = true ∧
  (∀ t : TsId,
    let h := s.thread t
    (h.mode = true ↔ isFirmware t = true) ∧ h.pmode = false ∧ h.intrap = false ∧ h.tcause = 0 ∧ h.tpc = 0 ∧ h.tval = 0 ∧
    h.fpflags = 0 ∧ h.spillsp = 0 ∧ h.spillbase = 0 ∧ h.spilllim = 0 ∧ h.waitlim = 0x01000000 ∧ h.getX 0 = 0 ∧
    h.getP 0 = BitVec.allOnes 64 ∧ h.tstat (isFirmware t) = if isFirmware t then 0x21 else 0) ∧
  (∀ c k, (s.core c k).lsplit = 8 ∧ (s.core c k).vgroup = 0) ∧ (∀ c, (s.cluster c).cluflags = 0) ∧
  (∀ f, (s.fn f).ptroot = 0 ∧ (s.fn f).fqhead = 0 ∧ (s.fn f).fqtail = 0 ∧ (s.fn f).bktidx = 0 ∧ (s.fn f).fwsel = 0 ∧
    (s.fn f).committed = false ∧
    (∀ i : Fin 14, (s.fn f).hashmask[i] = 0) ∧ ∀ va, s.walk f va = .absent) ∧
  s.hub.diectl = 0 ∧ s.hub.afr = 0 ∧ (∀ i : Fin 4, s.hub.accept[i] = 0 ∧ s.hub.active[i] = 0) ∧ s.hub.tripped = false ∧
  s.runs = [] ∧ s.hub.fwin = [] ∧ s.pending = [.startUp]
end

