-- ==== Sys2Proof/Laws/Maps.lean ====
section
/-! SUPPORT. Byte stores, number maps and byte strings: reading after writing, and that every write keeps the canonical
form. -/
namespace Sys2Proof.Machine

/-! ## Number maps -/

@[simp] theorem NMap.find?_nil {α : Type} (n : Nat) : NMap.find? ([] : NMap α) n = none := rfl

@[simp] theorem NMap.find?_set_same {α : Type} (m : NMap α) (n : Nat) (a : α) : NMap.find? (NMap.set m n a) n = some a := by
  induction m with
  | nil => simp [NMap.set, NMap.find?]
  | cons h m ih =>
    obtain ⟨k, v⟩ := h
    unfold NMap.set
    split
    · simp [NMap.find?]
    · split
      · simp [NMap.find?]
      · next h1 h2 => simp only [NMap.find?, if_neg h2]; exact ih

theorem NMap.find?_set_ne {α : Type} (m : NMap α) (n k : Nat) (a : α) (h : k ≠ n) :
    NMap.find? (NMap.set m n a) k = NMap.find? m k := by
  induction m with
  | nil => simp [NMap.set, NMap.find?, h]
  | cons e m ih =>
    obtain ⟨j, v⟩ := e
    unfold NMap.set
    split
    · simp [NMap.find?, h]
    · split
      · next h2 => subst h2; simp [NMap.find?, h]
      · simp only [NMap.find?]; rw [ih]

@[simp] theorem NMap.set_set {α : Type} (m : NMap α) (n : Nat) (a b : α) : NMap.set (NMap.set m n a) n b = NMap.set m n b := by
  induction m with
  | nil => simp [NMap.set]
  | cons e m ih =>
    obtain ⟨k, v⟩ := e
    rcases Nat.lt_trichotomy n k with h | rfl | h
    · simp [NMap.set, h]
    · simp [NMap.set]
    · have h1 : ¬ n < k := Nat.not_lt.2 h.le
      have h2 : n ≠ k := Nat.ne_of_gt h
      simp [NMap.set, h1, h2, ih]

@[simp] theorem NMap.get_set_same {α : Type} (m : NMap α) (n : Nat) (a d : α) : NMap.get (NMap.set m n a) n d = a := by
  simp [NMap.get]

theorem NMap.get_set_ne {α : Type} (m : NMap α) (n k : Nat) (a d : α) (h : k ≠ n) :
    NMap.get (NMap.set m n a) k d = NMap.get m k d := by
  simp [NMap.get, NMap.find?_set_ne m n k a h]

@[simp] theorem NMap.find?_erase_same {α : Type} (m : NMap α) (n : Nat) : NMap.find? (NMap.erase m n) n = none := by
  induction m with
  | nil => rfl
  | cons e m ih =>
    unfold NMap.erase
    split
    · exact ih
    · next h => simp only [NMap.find?, if_neg h]; exact ih

theorem NMap.find?_erase_ne {α : Type} (m : NMap α) (n k : Nat) (h : k ≠ n) :
    NMap.find? (NMap.erase m n) k = NMap.find? m k := by
  induction m with
  | nil => rfl
  | cons e m ih =>
    unfold NMap.erase
    split
    · next h2 => subst h2; simp only [NMap.find?, if_neg h]; exact ih
    · simp only [NMap.find?]; rw [ih]

/-! ## Byte stores -/

@[simp] theorem ByteMap.read_nil (a : Nat) : ByteMap.read ([] : ByteMap) a = 0 := rfl

theorem ByteMap.read_clear (m : ByteMap) (a c : Nat) :
    ByteMap.read (ByteMap.clear m a) c = if c = a then 0 else ByteMap.read m c := by
  induction m with
  | nil => simp [ByteMap.clear, ByteMap.read]
  | cons e m ih =>
    unfold ByteMap.clear
    split
    · next h =>
      subst h
      rw [ih]
      simp only [ByteMap.read]
      split <;> rfl
    · next h =>
      simp only [ByteMap.read]
      rw [ih]
      by_cases hc : c = a
      · subst hc; simp [h]
      · simp [hc]

theorem ByteMap.read_put (m : ByteMap) (a c : Nat) (b : Byte) :
    ByteMap.read (ByteMap.put m a b) c = if c = a then b else ByteMap.read m c := by
  induction m with
  | nil => simp [ByteMap.put, ByteMap.read]
  | cons e m ih =>
    unfold ByteMap.put
    split
    · simp [ByteMap.read]
    · split
      · next h => subst h; simp only [ByteMap.read]; split <;> rfl
      · next h1 h2 =>
        simp only [ByteMap.read]; rw [ih]
        by_cases hc : c = a
        · subst hc; simp [h2]
        · simp [hc]

/-- Reading a byte after writing one. -/
theorem ByteMap.read_write (m : ByteMap) (a c : Nat) (b : Byte) :
    ByteMap.read (ByteMap.write m a b) c = if c = a then b else ByteMap.read m c := by
  unfold ByteMap.write
  split
  · next h => rw [ByteMap.read_clear, h]
  · exact ByteMap.read_put m a c b

/-- Reading a byte after writing consecutive ones. -/
theorem ByteMap.read_writes (m : ByteMap) (a c : Nat) (bs : List Byte) :
    ByteMap.read (ByteMap.writes m a bs) c =
      if a ≤ c ∧ c < a + bs.length then bs.getD (c - a) 0 else ByteMap.read m c := by
  induction bs generalizing m a with
  | nil => simp only [ByteMap.writes, List.length_nil, Nat.add_zero]; rw [if_neg (by omega)]
  | cons b bs ih =>
    simp only [ByteMap.writes, ih, ByteMap.read_write, List.length_cons]
    by_cases h : c = a
    · subst h; simp
    · by_cases h2 : a + 1 ≤ c ∧ c < a + 1 + bs.length
      · rw [if_pos h2, if_pos (by omega)]
        obtain ⟨d, rfl⟩ : ∃ d, c = a + 1 + d := ⟨c - (a + 1), by omega⟩
        simp [show a + 1 + d - (a + 1) = d by omega, show a + 1 + d - a = d + 1 by omega]
      · rw [if_neg h2, if_neg h, if_neg (by omega)]

theorem ByteMap.length_reads (m : ByteMap) (a n : Nat) : (ByteMap.reads m a n).length = n := by
  simp [ByteMap.reads, upTo]

/-- What was written is read. -/
theorem ByteMap.reads_writes_same (m : ByteMap) (a : Nat) (bs : List Byte) :
    ByteMap.reads (ByteMap.writes m a bs) a bs.length = bs := by
  apply List.ext_getElem
  · simp [ByteMap.length_reads]
  · intro i h1 h2
    simp [ByteMap.reads, upTo, ByteMap.read_writes, h2]

theorem ByteMap.wfFrom_cons (lo k : Nat) (v : Byte) (m : ByteMap) :
    ByteMap.wfFrom lo ((k, v) :: m) = true ↔ lo ≤ k ∧ v ≠ 0 ∧ ByteMap.wfFrom (k + 1) m = true := by
  simp only [ByteMap.wfFrom, Bool.and_eq_true, decide_eq_true_eq, bne_iff_ne, and_assoc]

theorem ByteMap.wfFrom_mono {lo lo' : Nat} (m : ByteMap) (h : lo' ≤ lo) (w : ByteMap.wfFrom lo m = true) :
    ByteMap.wfFrom lo' m = true := by
  cases m with
  | nil => rfl
  | cons e m =>
    rw [ByteMap.wfFrom_cons] at w ⊢
    exact ⟨by omega, w.2⟩

theorem ByteMap.wfFrom_put (m : ByteMap) (lo a : Nat) (b : Byte) (hb : b ≠ 0) (ha : lo ≤ a)
    (w : ByteMap.wfFrom lo m = true) : ByteMap.wfFrom lo (ByteMap.put m a b) = true := by
  induction m generalizing lo with
  | nil => exact (ByteMap.wfFrom_cons ..).2 ⟨ha, hb, rfl⟩
  | cons e m ih =>
    obtain ⟨k, v⟩ := e
    rw [ByteMap.wfFrom_cons] at w
    unfold ByteMap.put
    split
    · exact (ByteMap.wfFrom_cons ..).2 ⟨ha, hb, (ByteMap.wfFrom_cons ..).2 ⟨by omega, w.2⟩⟩
    · split
      · next h => subst h; exact (ByteMap.wfFrom_cons ..).2 ⟨ha, hb, w.2.2⟩
      · exact (ByteMap.wfFrom_cons ..).2 ⟨w.1, w.2.1, ih (k + 1) (by omega) w.2.2⟩

theorem ByteMap.wfFrom_clear (m : ByteMap) (lo a : Nat) (w : ByteMap.wfFrom lo m = true) :
    ByteMap.wfFrom lo (ByteMap.clear m a) = true := by
  induction m generalizing lo with
  | nil => rfl
  | cons e m ih =>
    obtain ⟨k, v⟩ := e
    rw [ByteMap.wfFrom_cons] at w
    unfold ByteMap.clear
    split
    · exact ByteMap.wfFrom_mono _ (by omega) (ih (k + 1) w.2.2)
    · exact (ByteMap.wfFrom_cons ..).2 ⟨w.1, w.2.1, ih (k + 1) w.2.2⟩

/-- A write keeps the canonical form. -/
theorem ByteMap.wf_write (m : ByteMap) (a : Nat) (b : Byte) (w : ByteMap.wf m = true) :
    ByteMap.wf (ByteMap.write m a b) = true := by
  unfold ByteMap.write
  split
  · exact ByteMap.wfFrom_clear m 0 a w
  · next h => exact ByteMap.wfFrom_put m 0 a b h (Nat.zero_le a) w

/-- Consecutive writes keep the canonical form. -/
theorem ByteMap.wf_writes (m : ByteMap) (a : Nat) (bs : List Byte) (w : ByteMap.wf m = true) :
    ByteMap.wf (ByteMap.writes m a bs) = true := by
  induction bs generalizing m a with
  | nil => exact w
  | cons b bs ih => exact ih _ _ (ByteMap.wf_write m a b w)

theorem ByteMap.read_below (m : ByteMap) (lo a : Nat) (w : ByteMap.wfFrom lo m = true) (h : a < lo) :
    ByteMap.read m a = 0 := by
  induction m generalizing lo with
  | nil => rfl
  | cons e m ih =>
    obtain ⟨k, v⟩ := e
    rw [ByteMap.wfFrom_cons] at w
    simp only [ByteMap.read]
    rw [if_neg (by omega)]
    exact ih (k + 1) w.2.2 (by omega)

theorem ByteMap.ext_wfFrom (m n : ByteMap) (lo : Nat) (wm : ByteMap.wfFrom lo m = true) (wn : ByteMap.wfFrom lo n = true)
    (h : ∀ a, ByteMap.read m a = ByteMap.read n a) : m = n := by
  induction m generalizing n lo with
  | nil =>
    cases n with
    | nil => rfl
    | cons e n =>
      obtain ⟨k, v⟩ := e
      rw [ByteMap.wfFrom_cons] at wn
      have := h k
      simp [ByteMap.read] at this
      exact absurd this.symm wn.2.1
  | cons e m ih =>
    obtain ⟨k, v⟩ := e
    rw [ByteMap.wfFrom_cons] at wm
    cases n with
    | nil =>
      have := h k
      simp [ByteMap.read] at this
      exact absurd this wm.2.1
    | cons e' n =>
      obtain ⟨k', v'⟩ := e'
      rw [ByteMap.wfFrom_cons] at wn
      have hk : k = k' := by
        rcases Nat.lt_trichotomy k k' with hlt | rfl | hgt
        · have := h k
          simp only [ByteMap.read, if_true, if_neg (Nat.ne_of_lt hlt)] at this
          rw [ByteMap.read_below n (k' + 1) k wn.2.2 (by omega)] at this
          exact absurd this wm.2.1
        · rfl
        · have := h k'
          simp only [ByteMap.read, if_true, if_neg (Nat.ne_of_lt hgt)] at this
          rw [ByteMap.read_below m (k + 1) k' wm.2.2 (by omega)] at this
          exact absurd this.symm wn.2.1
      subst hk
      have hv : v = v' := by simpa [ByteMap.read] using h k
      subst hv
      congr 1
      refine ih n (k + 1) wm.2.2 wn.2.2 ?_
      intro a
      by_cases ha : a = k
      · subst ha
        rw [ByteMap.read_below m (a + 1) a wm.2.2 (by omega), ByteMap.read_below n (a + 1) a wn.2.2 (by omega)]
      · simpa [ByteMap.read, ha] using h a

/-- Canonical stores that read alike are equal. -/
theorem ByteMap.ext_wf (m n : ByteMap) (wm : ByteMap.wf m = true) (wn : ByteMap.wf n = true)
    (h : ∀ a, ByteMap.read m a = ByteMap.read n a) : m = n := ByteMap.ext_wfFrom m n 0 wm wn h

/-! ## Byte strings -/

@[simp] theorem length_leBytes (n v : Nat) : (leBytes n v).length = n := by
  induction n generalizing v with
  | zero => rfl
  | succ n ih => simp [leBytes, ih]

/-- The bytes of a number, read back. -/
theorem leNat_leBytes (n v : Nat) : leNat (leBytes n v) = v % 256 ^ n := by
  induction n generalizing v with
  | zero => simp [leBytes, leNat]; omega
  | succ n ih =>
    simp only [leBytes, leNat, ih, BitVec.toNat_ofNat]
    rw [show (256 : Nat) ^ (n + 1) = 256 * 256 ^ n by ring, Nat.mod_mul]

@[simp] theorem leBytes_leNat (bs : List Byte) : leBytes bs.length (leNat bs) = bs := by
  induction bs with
  | nil => rfl
  | cons b bs ih =>
    have hb : b.toNat < 256 := b.isLt
    simp only [List.length_cons, leBytes, leNat]
    rw [show (b.toNat + 256 * leNat bs) / 256 = leNat bs by omega, ih]
    congr 1
    apply BitVec.eq_of_toNat_eq
    simp only [BitVec.toNat_ofNat]
    omega

/-- The reset state's memory is canonical: it lists nothing. -/
theorem reset_mem_wf : ByteMap.wf State.reset.mem = true := rfl

end Sys2Proof.Machine
end

