-- ==== Sys2Proof/Laws/State.lean ====
section
/-! SUPPORT. What each update of the state and of a thread set leaves as it was: one lemma per field per update; and what
it puts. -/
namespace Sys2Proof.Machine

/-! ## State: fields that an update does not touch -/

@[simp] theorem State.setThread_cores (s : State) (t : TsId) (th : Thread) : (s.setThread t th).cores = s.cores := rfl
@[simp] theorem State.setThread_clusters (s : State) (t : TsId) (th : Thread) : (s.setThread t th).clusters = s.clusters := rfl
@[simp] theorem State.setThread_runs (s : State) (t : TsId) (th : Thread) : (s.setThread t th).runs = s.runs := rfl
@[simp] theorem State.setThread_acts (s : State) (t : TsId) (th : Thread) : (s.setThread t th).acts = s.acts := rfl
@[simp] theorem State.setThread_fns (s : State) (t : TsId) (th : Thread) : (s.setThread t th).fns = s.fns := rfl
@[simp] theorem State.setThread_mem (s : State) (t : TsId) (th : Thread) : (s.setThread t th).mem = s.mem := rfl
@[simp] theorem State.setThread_lines (s : State) (t : TsId) (th : Thread) : (s.setThread t th).lines = s.lines := rfl
@[simp] theorem State.setThread_poison (s : State) (t : TsId) (th : Thread) : (s.setThread t th).poison = s.poison := rfl
@[simp] theorem State.setThread_wtimes (s : State) (t : TsId) (th : Thread) : (s.setThread t th).wtimes = s.wtimes := rfl
@[simp] theorem State.setThread_wmax (s : State) (t : TsId) (th : Thread) : (s.setThread t th).wmax = s.wmax := rfl
@[simp] theorem State.setThread_inserts (s : State) (t : TsId) (th : Thread) : (s.setThread t th).inserts = s.inserts := rfl
@[simp] theorem State.setThread_submissions (s : State) (t : TsId) (th : Thread) : (s.setThread t th).submissions = s.submissions := rfl
@[simp] theorem State.setThread_mcrds (s : State) (t : TsId) (th : Thread) : (s.setThread t th).mcrds = s.mcrds := rfl
@[simp] theorem State.setThread_streams (s : State) (t : TsId) (th : Thread) : (s.setThread t th).streams = s.streams := rfl
@[simp] theorem State.setThread_beats (s : State) (t : TsId) (th : Thread) : (s.setThread t th).beats = s.beats := rfl
@[simp] theorem State.setThread_returns (s : State) (t : TsId) (th : Thread) : (s.setThread t th).returns = s.returns := rfl
@[simp] theorem State.setThread_rollbacks (s : State) (t : TsId) (th : Thread) : (s.setThread t th).rollbacks = s.rollbacks := rfl
@[simp] theorem State.setThread_saves (s : State) (t : TsId) (th : Thread) : (s.setThread t th).saves = s.saves := rfl
@[simp] theorem State.setThread_hub (s : State) (t : TsId) (th : Thread) : (s.setThread t th).hub = s.hub := rfl
@[simp] theorem State.setThread_agenda (s : State) (t : TsId) (th : Thread) : (s.setThread t th).agenda = s.agenda := rfl
@[simp] theorem State.setThread_pending (s : State) (t : TsId) (th : Thread) : (s.setThread t th).pending = s.pending := rfl
@[simp] theorem State.setThread_input (s : State) (t : TsId) (th : Thread) : (s.setThread t th).input = s.input := rfl
@[simp] theorem State.setThread_cur (s : State) (t : TsId) (th : Thread) : (s.setThread t th).cur = s.cur := rfl
@[simp] theorem State.setThread_fclk (s : State) (t : TsId) (th : Thread) : (s.setThread t th).fclk = s.fclk := rfl
@[simp] theorem State.setThread_turn (s : State) (t : TsId) (th : Thread) : (s.setThread t th).turn = s.turn := rfl
@[simp] theorem State.setThread_lastIssued (s : State) (t : TsId) (th : Thread) : (s.setThread t th).lastIssued = s.lastIssued := rfl
@[simp] theorem State.setThread_order (s : State) (t : TsId) (th : Thread) : (s.setThread t th).order = s.order := rfl
@[simp] theorem State.setThread_period (s : State) (t : TsId) (th : Thread) : (s.setThread t th).period = s.period := rfl
@[simp] theorem State.setThread_nextRun (s : State) (t : TsId) (th : Thread) : (s.setThread t th).nextRun = s.nextRun := rfl
@[simp] theorem State.setThread_nextMcrd (s : State) (t : TsId) (th : Thread) : (s.setThread t th).nextMcrd = s.nextMcrd := rfl
@[simp] theorem State.setThread_freeIdx (s : State) (t : TsId) (th : Thread) : (s.setThread t th).freeIdx = s.freeIdx := rfl

@[simp] theorem State.updThread_cores (s : State) (t : TsId) (f : Thread → Thread) : (s.updThread t f).cores = s.cores := rfl
@[simp] theorem State.updThread_clusters (s : State) (t : TsId) (f : Thread → Thread) : (s.updThread t f).clusters = s.clusters := rfl
@[simp] theorem State.updThread_runs (s : State) (t : TsId) (f : Thread → Thread) : (s.updThread t f).runs = s.runs := rfl
@[simp] theorem State.updThread_acts (s : State) (t : TsId) (f : Thread → Thread) : (s.updThread t f).acts = s.acts := rfl
@[simp] theorem State.updThread_fns (s : State) (t : TsId) (f : Thread → Thread) : (s.updThread t f).fns = s.fns := rfl
@[simp] theorem State.updThread_mem (s : State) (t : TsId) (f : Thread → Thread) : (s.updThread t f).mem = s.mem := rfl
@[simp] theorem State.updThread_lines (s : State) (t : TsId) (f : Thread → Thread) : (s.updThread t f).lines = s.lines := rfl
@[simp] theorem State.updThread_poison (s : State) (t : TsId) (f : Thread → Thread) : (s.updThread t f).poison = s.poison := rfl
@[simp] theorem State.updThread_wtimes (s : State) (t : TsId) (f : Thread → Thread) : (s.updThread t f).wtimes = s.wtimes := rfl
@[simp] theorem State.updThread_wmax (s : State) (t : TsId) (f : Thread → Thread) : (s.updThread t f).wmax = s.wmax := rfl
@[simp] theorem State.updThread_inserts (s : State) (t : TsId) (f : Thread → Thread) : (s.updThread t f).inserts = s.inserts := rfl
@[simp] theorem State.updThread_submissions (s : State) (t : TsId) (f : Thread → Thread) : (s.updThread t f).submissions = s.submissions := rfl
@[simp] theorem State.updThread_mcrds (s : State) (t : TsId) (f : Thread → Thread) : (s.updThread t f).mcrds = s.mcrds := rfl
@[simp] theorem State.updThread_streams (s : State) (t : TsId) (f : Thread → Thread) : (s.updThread t f).streams = s.streams := rfl
@[simp] theorem State.updThread_beats (s : State) (t : TsId) (f : Thread → Thread) : (s.updThread t f).beats = s.beats := rfl
@[simp] theorem State.updThread_returns (s : State) (t : TsId) (f : Thread → Thread) : (s.updThread t f).returns = s.returns := rfl
@[simp] theorem State.updThread_rollbacks (s : State) (t : TsId) (f : Thread → Thread) : (s.updThread t f).rollbacks = s.rollbacks := rfl
@[simp] theorem State.updThread_saves (s : State) (t : TsId) (f : Thread → Thread) : (s.updThread t f).saves = s.saves := rfl
@[simp] theorem State.updThread_hub (s : State) (t : TsId) (f : Thread → Thread) : (s.updThread t f).hub = s.hub := rfl
@[simp] theorem State.updThread_agenda (s : State) (t : TsId) (f : Thread → Thread) : (s.updThread t f).agenda = s.agenda := rfl
@[simp] theorem State.updThread_pending (s : State) (t : TsId) (f : Thread → Thread) : (s.updThread t f).pending = s.pending := rfl
@[simp] theorem State.updThread_input (s : State) (t : TsId) (f : Thread → Thread) : (s.updThread t f).input = s.input := rfl
@[simp] theorem State.updThread_cur (s : State) (t : TsId) (f : Thread → Thread) : (s.updThread t f).cur = s.cur := rfl
@[simp] theorem State.updThread_fclk (s : State) (t : TsId) (f : Thread → Thread) : (s.updThread t f).fclk = s.fclk := rfl
@[simp] theorem State.updThread_turn (s : State) (t : TsId) (f : Thread → Thread) : (s.updThread t f).turn = s.turn := rfl
@[simp] theorem State.updThread_lastIssued (s : State) (t : TsId) (f : Thread → Thread) : (s.updThread t f).lastIssued = s.lastIssued := rfl
@[simp] theorem State.updThread_order (s : State) (t : TsId) (f : Thread → Thread) : (s.updThread t f).order = s.order := rfl
@[simp] theorem State.updThread_period (s : State) (t : TsId) (f : Thread → Thread) : (s.updThread t f).period = s.period := rfl
@[simp] theorem State.updThread_nextRun (s : State) (t : TsId) (f : Thread → Thread) : (s.updThread t f).nextRun = s.nextRun := rfl
@[simp] theorem State.updThread_nextMcrd (s : State) (t : TsId) (f : Thread → Thread) : (s.updThread t f).nextMcrd = s.nextMcrd := rfl
@[simp] theorem State.updThread_freeIdx (s : State) (t : TsId) (f : Thread → Thread) : (s.updThread t f).freeIdx = s.freeIdx := rfl

@[simp] theorem State.updMe_cores (s : State) (f : Thread → Thread) : (s.updMe f).cores = s.cores := rfl
@[simp] theorem State.updMe_clusters (s : State) (f : Thread → Thread) : (s.updMe f).clusters = s.clusters := rfl
@[simp] theorem State.updMe_runs (s : State) (f : Thread → Thread) : (s.updMe f).runs = s.runs := rfl
@[simp] theorem State.updMe_acts (s : State) (f : Thread → Thread) : (s.updMe f).acts = s.acts := rfl
@[simp] theorem State.updMe_fns (s : State) (f : Thread → Thread) : (s.updMe f).fns = s.fns := rfl
@[simp] theorem State.updMe_mem (s : State) (f : Thread → Thread) : (s.updMe f).mem = s.mem := rfl
@[simp] theorem State.updMe_lines (s : State) (f : Thread → Thread) : (s.updMe f).lines = s.lines := rfl
@[simp] theorem State.updMe_poison (s : State) (f : Thread → Thread) : (s.updMe f).poison = s.poison := rfl
@[simp] theorem State.updMe_wtimes (s : State) (f : Thread → Thread) : (s.updMe f).wtimes = s.wtimes := rfl
@[simp] theorem State.updMe_wmax (s : State) (f : Thread → Thread) : (s.updMe f).wmax = s.wmax := rfl
@[simp] theorem State.updMe_inserts (s : State) (f : Thread → Thread) : (s.updMe f).inserts = s.inserts := rfl
@[simp] theorem State.updMe_submissions (s : State) (f : Thread → Thread) : (s.updMe f).submissions = s.submissions := rfl
@[simp] theorem State.updMe_mcrds (s : State) (f : Thread → Thread) : (s.updMe f).mcrds = s.mcrds := rfl
@[simp] theorem State.updMe_streams (s : State) (f : Thread → Thread) : (s.updMe f).streams = s.streams := rfl
@[simp] theorem State.updMe_beats (s : State) (f : Thread → Thread) : (s.updMe f).beats = s.beats := rfl
@[simp] theorem State.updMe_returns (s : State) (f : Thread → Thread) : (s.updMe f).returns = s.returns := rfl
@[simp] theorem State.updMe_rollbacks (s : State) (f : Thread → Thread) : (s.updMe f).rollbacks = s.rollbacks := rfl
@[simp] theorem State.updMe_saves (s : State) (f : Thread → Thread) : (s.updMe f).saves = s.saves := rfl
@[simp] theorem State.updMe_hub (s : State) (f : Thread → Thread) : (s.updMe f).hub = s.hub := rfl
@[simp] theorem State.updMe_agenda (s : State) (f : Thread → Thread) : (s.updMe f).agenda = s.agenda := rfl
@[simp] theorem State.updMe_pending (s : State) (f : Thread → Thread) : (s.updMe f).pending = s.pending := rfl
@[simp] theorem State.updMe_input (s : State) (f : Thread → Thread) : (s.updMe f).input = s.input := rfl
@[simp] theorem State.updMe_cur (s : State) (f : Thread → Thread) : (s.updMe f).cur = s.cur := rfl
@[simp] theorem State.updMe_fclk (s : State) (f : Thread → Thread) : (s.updMe f).fclk = s.fclk := rfl
@[simp] theorem State.updMe_turn (s : State) (f : Thread → Thread) : (s.updMe f).turn = s.turn := rfl
@[simp] theorem State.updMe_lastIssued (s : State) (f : Thread → Thread) : (s.updMe f).lastIssued = s.lastIssued := rfl
@[simp] theorem State.updMe_order (s : State) (f : Thread → Thread) : (s.updMe f).order = s.order := rfl
@[simp] theorem State.updMe_period (s : State) (f : Thread → Thread) : (s.updMe f).period = s.period := rfl
@[simp] theorem State.updMe_nextRun (s : State) (f : Thread → Thread) : (s.updMe f).nextRun = s.nextRun := rfl
@[simp] theorem State.updMe_nextMcrd (s : State) (f : Thread → Thread) : (s.updMe f).nextMcrd = s.nextMcrd := rfl
@[simp] theorem State.updMe_freeIdx (s : State) (f : Thread → Thread) : (s.updMe f).freeIdx = s.freeIdx := rfl

@[simp] theorem State.updCore_threads (s : State) (c k : Nat) (f : CoreUnit → CoreUnit) : (s.updCore c k f).threads = s.threads := rfl
@[simp] theorem State.updCore_clusters (s : State) (c k : Nat) (f : CoreUnit → CoreUnit) : (s.updCore c k f).clusters = s.clusters := rfl
@[simp] theorem State.updCore_runs (s : State) (c k : Nat) (f : CoreUnit → CoreUnit) : (s.updCore c k f).runs = s.runs := rfl
@[simp] theorem State.updCore_acts (s : State) (c k : Nat) (f : CoreUnit → CoreUnit) : (s.updCore c k f).acts = s.acts := rfl
@[simp] theorem State.updCore_fns (s : State) (c k : Nat) (f : CoreUnit → CoreUnit) : (s.updCore c k f).fns = s.fns := rfl
@[simp] theorem State.updCore_mem (s : State) (c k : Nat) (f : CoreUnit → CoreUnit) : (s.updCore c k f).mem = s.mem := rfl
@[simp] theorem State.updCore_lines (s : State) (c k : Nat) (f : CoreUnit → CoreUnit) : (s.updCore c k f).lines = s.lines := rfl
@[simp] theorem State.updCore_poison (s : State) (c k : Nat) (f : CoreUnit → CoreUnit) : (s.updCore c k f).poison = s.poison := rfl
@[simp] theorem State.updCore_wtimes (s : State) (c k : Nat) (f : CoreUnit → CoreUnit) : (s.updCore c k f).wtimes = s.wtimes := rfl
@[simp] theorem State.updCore_wmax (s : State) (c k : Nat) (f : CoreUnit → CoreUnit) : (s.updCore c k f).wmax = s.wmax := rfl
@[simp] theorem State.updCore_inserts (s : State) (c k : Nat) (f : CoreUnit → CoreUnit) : (s.updCore c k f).inserts = s.inserts := rfl
@[simp] theorem State.updCore_submissions (s : State) (c k : Nat) (f : CoreUnit → CoreUnit) : (s.updCore c k f).submissions = s.submissions := rfl
@[simp] theorem State.updCore_mcrds (s : State) (c k : Nat) (f : CoreUnit → CoreUnit) : (s.updCore c k f).mcrds = s.mcrds := rfl
@[simp] theorem State.updCore_streams (s : State) (c k : Nat) (f : CoreUnit → CoreUnit) : (s.updCore c k f).streams = s.streams := rfl
@[simp] theorem State.updCore_beats (s : State) (c k : Nat) (f : CoreUnit → CoreUnit) : (s.updCore c k f).beats = s.beats := rfl
@[simp] theorem State.updCore_returns (s : State) (c k : Nat) (f : CoreUnit → CoreUnit) : (s.updCore c k f).returns = s.returns := rfl
@[simp] theorem State.updCore_rollbacks (s : State) (c k : Nat) (f : CoreUnit → CoreUnit) : (s.updCore c k f).rollbacks = s.rollbacks := rfl
@[simp] theorem State.updCore_saves (s : State) (c k : Nat) (f : CoreUnit → CoreUnit) : (s.updCore c k f).saves = s.saves := rfl
@[simp] theorem State.updCore_hub (s : State) (c k : Nat) (f : CoreUnit → CoreUnit) : (s.updCore c k f).hub = s.hub := rfl
@[simp] theorem State.updCore_agenda (s : State) (c k : Nat) (f : CoreUnit → CoreUnit) : (s.updCore c k f).agenda = s.agenda := rfl
@[simp] theorem State.updCore_pending (s : State) (c k : Nat) (f : CoreUnit → CoreUnit) : (s.updCore c k f).pending = s.pending := rfl
@[simp] theorem State.updCore_input (s : State) (c k : Nat) (f : CoreUnit → CoreUnit) : (s.updCore c k f).input = s.input := rfl
@[simp] theorem State.updCore_cur (s : State) (c k : Nat) (f : CoreUnit → CoreUnit) : (s.updCore c k f).cur = s.cur := rfl
@[simp] theorem State.updCore_fclk (s : State) (c k : Nat) (f : CoreUnit → CoreUnit) : (s.updCore c k f).fclk = s.fclk := rfl
@[simp] theorem State.updCore_turn (s : State) (c k : Nat) (f : CoreUnit → CoreUnit) : (s.updCore c k f).turn = s.turn := rfl
@[simp] theorem State.updCore_lastIssued (s : State) (c k : Nat) (f : CoreUnit → CoreUnit) : (s.updCore c k f).lastIssued = s.lastIssued := rfl
@[simp] theorem State.updCore_order (s : State) (c k : Nat) (f : CoreUnit → CoreUnit) : (s.updCore c k f).order = s.order := rfl
@[simp] theorem State.updCore_period (s : State) (c k : Nat) (f : CoreUnit → CoreUnit) : (s.updCore c k f).period = s.period := rfl
@[simp] theorem State.updCore_nextRun (s : State) (c k : Nat) (f : CoreUnit → CoreUnit) : (s.updCore c k f).nextRun = s.nextRun := rfl
@[simp] theorem State.updCore_nextMcrd (s : State) (c k : Nat) (f : CoreUnit → CoreUnit) : (s.updCore c k f).nextMcrd = s.nextMcrd := rfl
@[simp] theorem State.updCore_freeIdx (s : State) (c k : Nat) (f : CoreUnit → CoreUnit) : (s.updCore c k f).freeIdx = s.freeIdx := rfl

@[simp] theorem State.updMyCore_threads (s : State) (f : CoreUnit → CoreUnit) : (s.updMyCore f).threads = s.threads := rfl
@[simp] theorem State.updMyCore_clusters (s : State) (f : CoreUnit → CoreUnit) : (s.updMyCore f).clusters = s.clusters := rfl
@[simp] theorem State.updMyCore_runs (s : State) (f : CoreUnit → CoreUnit) : (s.updMyCore f).runs = s.runs := rfl
@[simp] theorem State.updMyCore_acts (s : State) (f : CoreUnit → CoreUnit) : (s.updMyCore f).acts = s.acts := rfl
@[simp] theorem State.updMyCore_fns (s : State) (f : CoreUnit → CoreUnit) : (s.updMyCore f).fns = s.fns := rfl
@[simp] theorem State.updMyCore_mem (s : State) (f : CoreUnit → CoreUnit) : (s.updMyCore f).mem = s.mem := rfl
@[simp] theorem State.updMyCore_lines (s : State) (f : CoreUnit → CoreUnit) : (s.updMyCore f).lines = s.lines := rfl
@[simp] theorem State.updMyCore_poison (s : State) (f : CoreUnit → CoreUnit) : (s.updMyCore f).poison = s.poison := rfl
@[simp] theorem State.updMyCore_wtimes (s : State) (f : CoreUnit → CoreUnit) : (s.updMyCore f).wtimes = s.wtimes := rfl
@[simp] theorem State.updMyCore_wmax (s : State) (f : CoreUnit → CoreUnit) : (s.updMyCore f).wmax = s.wmax := rfl
@[simp] theorem State.updMyCore_inserts (s : State) (f : CoreUnit → CoreUnit) : (s.updMyCore f).inserts = s.inserts := rfl
@[simp] theorem State.updMyCore_submissions (s : State) (f : CoreUnit → CoreUnit) : (s.updMyCore f).submissions = s.submissions := rfl
@[simp] theorem State.updMyCore_mcrds (s : State) (f : CoreUnit → CoreUnit) : (s.updMyCore f).mcrds = s.mcrds := rfl
@[simp] theorem State.updMyCore_streams (s : State) (f : CoreUnit → CoreUnit) : (s.updMyCore f).streams = s.streams := rfl
@[simp] theorem State.updMyCore_beats (s : State) (f : CoreUnit → CoreUnit) : (s.updMyCore f).beats = s.beats := rfl
@[simp] theorem State.updMyCore_returns (s : State) (f : CoreUnit → CoreUnit) : (s.updMyCore f).returns = s.returns := rfl
@[simp] theorem State.updMyCore_rollbacks (s : State) (f : CoreUnit → CoreUnit) : (s.updMyCore f).rollbacks = s.rollbacks := rfl
@[simp] theorem State.updMyCore_saves (s : State) (f : CoreUnit → CoreUnit) : (s.updMyCore f).saves = s.saves := rfl
@[simp] theorem State.updMyCore_hub (s : State) (f : CoreUnit → CoreUnit) : (s.updMyCore f).hub = s.hub := rfl
@[simp] theorem State.updMyCore_agenda (s : State) (f : CoreUnit → CoreUnit) : (s.updMyCore f).agenda = s.agenda := rfl
@[simp] theorem State.updMyCore_pending (s : State) (f : CoreUnit → CoreUnit) : (s.updMyCore f).pending = s.pending := rfl
@[simp] theorem State.updMyCore_input (s : State) (f : CoreUnit → CoreUnit) : (s.updMyCore f).input = s.input := rfl
@[simp] theorem State.updMyCore_cur (s : State) (f : CoreUnit → CoreUnit) : (s.updMyCore f).cur = s.cur := rfl
@[simp] theorem State.updMyCore_fclk (s : State) (f : CoreUnit → CoreUnit) : (s.updMyCore f).fclk = s.fclk := rfl
@[simp] theorem State.updMyCore_turn (s : State) (f : CoreUnit → CoreUnit) : (s.updMyCore f).turn = s.turn := rfl
@[simp] theorem State.updMyCore_lastIssued (s : State) (f : CoreUnit → CoreUnit) : (s.updMyCore f).lastIssued = s.lastIssued := rfl
@[simp] theorem State.updMyCore_order (s : State) (f : CoreUnit → CoreUnit) : (s.updMyCore f).order = s.order := rfl
@[simp] theorem State.updMyCore_period (s : State) (f : CoreUnit → CoreUnit) : (s.updMyCore f).period = s.period := rfl
@[simp] theorem State.updMyCore_nextRun (s : State) (f : CoreUnit → CoreUnit) : (s.updMyCore f).nextRun = s.nextRun := rfl
@[simp] theorem State.updMyCore_nextMcrd (s : State) (f : CoreUnit → CoreUnit) : (s.updMyCore f).nextMcrd = s.nextMcrd := rfl
@[simp] theorem State.updMyCore_freeIdx (s : State) (f : CoreUnit → CoreUnit) : (s.updMyCore f).freeIdx = s.freeIdx := rfl

@[simp] theorem State.updCluster_threads (s : State) (c : Nat) (f : Cluster → Cluster) : (s.updCluster c f).threads = s.threads := rfl
@[simp] theorem State.updCluster_cores (s : State) (c : Nat) (f : Cluster → Cluster) : (s.updCluster c f).cores = s.cores := rfl
@[simp] theorem State.updCluster_runs (s : State) (c : Nat) (f : Cluster → Cluster) : (s.updCluster c f).runs = s.runs := rfl
@[simp] theorem State.updCluster_acts (s : State) (c : Nat) (f : Cluster → Cluster) : (s.updCluster c f).acts = s.acts := rfl
@[simp] theorem State.updCluster_fns (s : State) (c : Nat) (f : Cluster → Cluster) : (s.updCluster c f).fns = s.fns := rfl
@[simp] theorem State.updCluster_mem (s : State) (c : Nat) (f : Cluster → Cluster) : (s.updCluster c f).mem = s.mem := rfl
@[simp] theorem State.updCluster_lines (s : State) (c : Nat) (f : Cluster → Cluster) : (s.updCluster c f).lines = s.lines := rfl
@[simp] theorem State.updCluster_poison (s : State) (c : Nat) (f : Cluster → Cluster) : (s.updCluster c f).poison = s.poison := rfl
@[simp] theorem State.updCluster_wtimes (s : State) (c : Nat) (f : Cluster → Cluster) : (s.updCluster c f).wtimes = s.wtimes := rfl
@[simp] theorem State.updCluster_wmax (s : State) (c : Nat) (f : Cluster → Cluster) : (s.updCluster c f).wmax = s.wmax := rfl
@[simp] theorem State.updCluster_inserts (s : State) (c : Nat) (f : Cluster → Cluster) : (s.updCluster c f).inserts = s.inserts := rfl
@[simp] theorem State.updCluster_submissions (s : State) (c : Nat) (f : Cluster → Cluster) : (s.updCluster c f).submissions = s.submissions := rfl
@[simp] theorem State.updCluster_mcrds (s : State) (c : Nat) (f : Cluster → Cluster) : (s.updCluster c f).mcrds = s.mcrds := rfl
@[simp] theorem State.updCluster_streams (s : State) (c : Nat) (f : Cluster → Cluster) : (s.updCluster c f).streams = s.streams := rfl
@[simp] theorem State.updCluster_beats (s : State) (c : Nat) (f : Cluster → Cluster) : (s.updCluster c f).beats = s.beats := rfl
@[simp] theorem State.updCluster_returns (s : State) (c : Nat) (f : Cluster → Cluster) : (s.updCluster c f).returns = s.returns := rfl
@[simp] theorem State.updCluster_rollbacks (s : State) (c : Nat) (f : Cluster → Cluster) : (s.updCluster c f).rollbacks = s.rollbacks := rfl
@[simp] theorem State.updCluster_saves (s : State) (c : Nat) (f : Cluster → Cluster) : (s.updCluster c f).saves = s.saves := rfl
@[simp] theorem State.updCluster_hub (s : State) (c : Nat) (f : Cluster → Cluster) : (s.updCluster c f).hub = s.hub := rfl
@[simp] theorem State.updCluster_agenda (s : State) (c : Nat) (f : Cluster → Cluster) : (s.updCluster c f).agenda = s.agenda := rfl
@[simp] theorem State.updCluster_pending (s : State) (c : Nat) (f : Cluster → Cluster) : (s.updCluster c f).pending = s.pending := rfl
@[simp] theorem State.updCluster_input (s : State) (c : Nat) (f : Cluster → Cluster) : (s.updCluster c f).input = s.input := rfl
@[simp] theorem State.updCluster_cur (s : State) (c : Nat) (f : Cluster → Cluster) : (s.updCluster c f).cur = s.cur := rfl
@[simp] theorem State.updCluster_fclk (s : State) (c : Nat) (f : Cluster → Cluster) : (s.updCluster c f).fclk = s.fclk := rfl
@[simp] theorem State.updCluster_turn (s : State) (c : Nat) (f : Cluster → Cluster) : (s.updCluster c f).turn = s.turn := rfl
@[simp] theorem State.updCluster_lastIssued (s : State) (c : Nat) (f : Cluster → Cluster) : (s.updCluster c f).lastIssued = s.lastIssued := rfl
@[simp] theorem State.updCluster_order (s : State) (c : Nat) (f : Cluster → Cluster) : (s.updCluster c f).order = s.order := rfl
@[simp] theorem State.updCluster_period (s : State) (c : Nat) (f : Cluster → Cluster) : (s.updCluster c f).period = s.period := rfl
@[simp] theorem State.updCluster_nextRun (s : State) (c : Nat) (f : Cluster → Cluster) : (s.updCluster c f).nextRun = s.nextRun := rfl
@[simp] theorem State.updCluster_nextMcrd (s : State) (c : Nat) (f : Cluster → Cluster) : (s.updCluster c f).nextMcrd = s.nextMcrd := rfl
@[simp] theorem State.updCluster_freeIdx (s : State) (c : Nat) (f : Cluster → Cluster) : (s.updCluster c f).freeIdx = s.freeIdx := rfl

@[simp] theorem State.updMyCluster_threads (s : State) (f : Cluster → Cluster) : (s.updMyCluster f).threads = s.threads := rfl
@[simp] theorem State.updMyCluster_cores (s : State) (f : Cluster → Cluster) : (s.updMyCluster f).cores = s.cores := rfl
@[simp] theorem State.updMyCluster_runs (s : State) (f : Cluster → Cluster) : (s.updMyCluster f).runs = s.runs := rfl
@[simp] theorem State.updMyCluster_acts (s : State) (f : Cluster → Cluster) : (s.updMyCluster f).acts = s.acts := rfl
@[simp] theorem State.updMyCluster_fns (s : State) (f : Cluster → Cluster) : (s.updMyCluster f).fns = s.fns := rfl
@[simp] theorem State.updMyCluster_mem (s : State) (f : Cluster → Cluster) : (s.updMyCluster f).mem = s.mem := rfl
@[simp] theorem State.updMyCluster_lines (s : State) (f : Cluster → Cluster) : (s.updMyCluster f).lines = s.lines := rfl
@[simp] theorem State.updMyCluster_poison (s : State) (f : Cluster → Cluster) : (s.updMyCluster f).poison = s.poison := rfl
@[simp] theorem State.updMyCluster_wtimes (s : State) (f : Cluster → Cluster) : (s.updMyCluster f).wtimes = s.wtimes := rfl
@[simp] theorem State.updMyCluster_wmax (s : State) (f : Cluster → Cluster) : (s.updMyCluster f).wmax = s.wmax := rfl
@[simp] theorem State.updMyCluster_inserts (s : State) (f : Cluster → Cluster) : (s.updMyCluster f).inserts = s.inserts := rfl
@[simp] theorem State.updMyCluster_submissions (s : State) (f : Cluster → Cluster) : (s.updMyCluster f).submissions = s.submissions := rfl
@[simp] theorem State.updMyCluster_mcrds (s : State) (f : Cluster → Cluster) : (s.updMyCluster f).mcrds = s.mcrds := rfl
@[simp] theorem State.updMyCluster_streams (s : State) (f : Cluster → Cluster) : (s.updMyCluster f).streams = s.streams := rfl
@[simp] theorem State.updMyCluster_beats (s : State) (f : Cluster → Cluster) : (s.updMyCluster f).beats = s.beats := rfl
@[simp] theorem State.updMyCluster_returns (s : State) (f : Cluster → Cluster) : (s.updMyCluster f).returns = s.returns := rfl
@[simp] theorem State.updMyCluster_rollbacks (s : State) (f : Cluster → Cluster) : (s.updMyCluster f).rollbacks = s.rollbacks := rfl
@[simp] theorem State.updMyCluster_saves (s : State) (f : Cluster → Cluster) : (s.updMyCluster f).saves = s.saves := rfl
@[simp] theorem State.updMyCluster_hub (s : State) (f : Cluster → Cluster) : (s.updMyCluster f).hub = s.hub := rfl
@[simp] theorem State.updMyCluster_agenda (s : State) (f : Cluster → Cluster) : (s.updMyCluster f).agenda = s.agenda := rfl
@[simp] theorem State.updMyCluster_pending (s : State) (f : Cluster → Cluster) : (s.updMyCluster f).pending = s.pending := rfl
@[simp] theorem State.updMyCluster_input (s : State) (f : Cluster → Cluster) : (s.updMyCluster f).input = s.input := rfl
@[simp] theorem State.updMyCluster_cur (s : State) (f : Cluster → Cluster) : (s.updMyCluster f).cur = s.cur := rfl
@[simp] theorem State.updMyCluster_fclk (s : State) (f : Cluster → Cluster) : (s.updMyCluster f).fclk = s.fclk := rfl
@[simp] theorem State.updMyCluster_turn (s : State) (f : Cluster → Cluster) : (s.updMyCluster f).turn = s.turn := rfl
@[simp] theorem State.updMyCluster_lastIssued (s : State) (f : Cluster → Cluster) : (s.updMyCluster f).lastIssued = s.lastIssued := rfl
@[simp] theorem State.updMyCluster_order (s : State) (f : Cluster → Cluster) : (s.updMyCluster f).order = s.order := rfl
@[simp] theorem State.updMyCluster_period (s : State) (f : Cluster → Cluster) : (s.updMyCluster f).period = s.period := rfl
@[simp] theorem State.updMyCluster_nextRun (s : State) (f : Cluster → Cluster) : (s.updMyCluster f).nextRun = s.nextRun := rfl
@[simp] theorem State.updMyCluster_nextMcrd (s : State) (f : Cluster → Cluster) : (s.updMyCluster f).nextMcrd = s.nextMcrd := rfl
@[simp] theorem State.updMyCluster_freeIdx (s : State) (f : Cluster → Cluster) : (s.updMyCluster f).freeIdx = s.freeIdx := rfl

@[simp] theorem State.updFn_threads (s : State) (vf : Nat) (f : Fn → Fn) : (s.updFn vf f).threads = s.threads := rfl
@[simp] theorem State.updFn_cores (s : State) (vf : Nat) (f : Fn → Fn) : (s.updFn vf f).cores = s.cores := rfl
@[simp] theorem State.updFn_clusters (s : State) (vf : Nat) (f : Fn → Fn) : (s.updFn vf f).clusters = s.clusters := rfl
@[simp] theorem State.updFn_runs (s : State) (vf : Nat) (f : Fn → Fn) : (s.updFn vf f).runs = s.runs := rfl
@[simp] theorem State.updFn_acts (s : State) (vf : Nat) (f : Fn → Fn) : (s.updFn vf f).acts = s.acts := rfl
@[simp] theorem State.updFn_mem (s : State) (vf : Nat) (f : Fn → Fn) : (s.updFn vf f).mem = s.mem := rfl
@[simp] theorem State.updFn_lines (s : State) (vf : Nat) (f : Fn → Fn) : (s.updFn vf f).lines = s.lines := rfl
@[simp] theorem State.updFn_poison (s : State) (vf : Nat) (f : Fn → Fn) : (s.updFn vf f).poison = s.poison := rfl
@[simp] theorem State.updFn_wtimes (s : State) (vf : Nat) (f : Fn → Fn) : (s.updFn vf f).wtimes = s.wtimes := rfl
@[simp] theorem State.updFn_wmax (s : State) (vf : Nat) (f : Fn → Fn) : (s.updFn vf f).wmax = s.wmax := rfl
@[simp] theorem State.updFn_inserts (s : State) (vf : Nat) (f : Fn → Fn) : (s.updFn vf f).inserts = s.inserts := rfl
@[simp] theorem State.updFn_submissions (s : State) (vf : Nat) (f : Fn → Fn) : (s.updFn vf f).submissions = s.submissions := rfl
@[simp] theorem State.updFn_mcrds (s : State) (vf : Nat) (f : Fn → Fn) : (s.updFn vf f).mcrds = s.mcrds := rfl
@[simp] theorem State.updFn_streams (s : State) (vf : Nat) (f : Fn → Fn) : (s.updFn vf f).streams = s.streams := rfl
@[simp] theorem State.updFn_beats (s : State) (vf : Nat) (f : Fn → Fn) : (s.updFn vf f).beats = s.beats := rfl
@[simp] theorem State.updFn_returns (s : State) (vf : Nat) (f : Fn → Fn) : (s.updFn vf f).returns = s.returns := rfl
@[simp] theorem State.updFn_rollbacks (s : State) (vf : Nat) (f : Fn → Fn) : (s.updFn vf f).rollbacks = s.rollbacks := rfl
@[simp] theorem State.updFn_saves (s : State) (vf : Nat) (f : Fn → Fn) : (s.updFn vf f).saves = s.saves := rfl
@[simp] theorem State.updFn_hub (s : State) (vf : Nat) (f : Fn → Fn) : (s.updFn vf f).hub = s.hub := rfl
@[simp] theorem State.updFn_agenda (s : State) (vf : Nat) (f : Fn → Fn) : (s.updFn vf f).agenda = s.agenda := rfl
@[simp] theorem State.updFn_pending (s : State) (vf : Nat) (f : Fn → Fn) : (s.updFn vf f).pending = s.pending := rfl
@[simp] theorem State.updFn_input (s : State) (vf : Nat) (f : Fn → Fn) : (s.updFn vf f).input = s.input := rfl
@[simp] theorem State.updFn_cur (s : State) (vf : Nat) (f : Fn → Fn) : (s.updFn vf f).cur = s.cur := rfl
@[simp] theorem State.updFn_fclk (s : State) (vf : Nat) (f : Fn → Fn) : (s.updFn vf f).fclk = s.fclk := rfl
@[simp] theorem State.updFn_turn (s : State) (vf : Nat) (f : Fn → Fn) : (s.updFn vf f).turn = s.turn := rfl
@[simp] theorem State.updFn_lastIssued (s : State) (vf : Nat) (f : Fn → Fn) : (s.updFn vf f).lastIssued = s.lastIssued := rfl
@[simp] theorem State.updFn_order (s : State) (vf : Nat) (f : Fn → Fn) : (s.updFn vf f).order = s.order := rfl
@[simp] theorem State.updFn_period (s : State) (vf : Nat) (f : Fn → Fn) : (s.updFn vf f).period = s.period := rfl
@[simp] theorem State.updFn_nextRun (s : State) (vf : Nat) (f : Fn → Fn) : (s.updFn vf f).nextRun = s.nextRun := rfl
@[simp] theorem State.updFn_nextMcrd (s : State) (vf : Nat) (f : Fn → Fn) : (s.updFn vf f).nextMcrd = s.nextMcrd := rfl
@[simp] theorem State.updFn_freeIdx (s : State) (vf : Nat) (f : Fn → Fn) : (s.updFn vf f).freeIdx = s.freeIdx := rfl

@[simp] theorem State.setRun_threads (s : State) (r : Nat) (x : Run) : (s.setRun r x).threads = s.threads := rfl
@[simp] theorem State.setRun_cores (s : State) (r : Nat) (x : Run) : (s.setRun r x).cores = s.cores := rfl
@[simp] theorem State.setRun_clusters (s : State) (r : Nat) (x : Run) : (s.setRun r x).clusters = s.clusters := rfl
@[simp] theorem State.setRun_acts (s : State) (r : Nat) (x : Run) : (s.setRun r x).acts = s.acts := rfl
@[simp] theorem State.setRun_fns (s : State) (r : Nat) (x : Run) : (s.setRun r x).fns = s.fns := rfl
@[simp] theorem State.setRun_mem (s : State) (r : Nat) (x : Run) : (s.setRun r x).mem = s.mem := rfl
@[simp] theorem State.setRun_lines (s : State) (r : Nat) (x : Run) : (s.setRun r x).lines = s.lines := rfl
@[simp] theorem State.setRun_poison (s : State) (r : Nat) (x : Run) : (s.setRun r x).poison = s.poison := rfl
@[simp] theorem State.setRun_wtimes (s : State) (r : Nat) (x : Run) : (s.setRun r x).wtimes = s.wtimes := rfl
@[simp] theorem State.setRun_wmax (s : State) (r : Nat) (x : Run) : (s.setRun r x).wmax = s.wmax := rfl
@[simp] theorem State.setRun_inserts (s : State) (r : Nat) (x : Run) : (s.setRun r x).inserts = s.inserts := rfl
@[simp] theorem State.setRun_submissions (s : State) (r : Nat) (x : Run) : (s.setRun r x).submissions = s.submissions := rfl
@[simp] theorem State.setRun_mcrds (s : State) (r : Nat) (x : Run) : (s.setRun r x).mcrds = s.mcrds := rfl
@[simp] theorem State.setRun_streams (s : State) (r : Nat) (x : Run) : (s.setRun r x).streams = s.streams := rfl
@[simp] theorem State.setRun_beats (s : State) (r : Nat) (x : Run) : (s.setRun r x).beats = s.beats := rfl
@[simp] theorem State.setRun_returns (s : State) (r : Nat) (x : Run) : (s.setRun r x).returns = s.returns := rfl
@[simp] theorem State.setRun_rollbacks (s : State) (r : Nat) (x : Run) : (s.setRun r x).rollbacks = s.rollbacks := rfl
@[simp] theorem State.setRun_saves (s : State) (r : Nat) (x : Run) : (s.setRun r x).saves = s.saves := rfl
@[simp] theorem State.setRun_hub (s : State) (r : Nat) (x : Run) : (s.setRun r x).hub = s.hub := rfl
@[simp] theorem State.setRun_agenda (s : State) (r : Nat) (x : Run) : (s.setRun r x).agenda = s.agenda := rfl
@[simp] theorem State.setRun_pending (s : State) (r : Nat) (x : Run) : (s.setRun r x).pending = s.pending := rfl
@[simp] theorem State.setRun_input (s : State) (r : Nat) (x : Run) : (s.setRun r x).input = s.input := rfl
@[simp] theorem State.setRun_cur (s : State) (r : Nat) (x : Run) : (s.setRun r x).cur = s.cur := rfl
@[simp] theorem State.setRun_fclk (s : State) (r : Nat) (x : Run) : (s.setRun r x).fclk = s.fclk := rfl
@[simp] theorem State.setRun_turn (s : State) (r : Nat) (x : Run) : (s.setRun r x).turn = s.turn := rfl
@[simp] theorem State.setRun_lastIssued (s : State) (r : Nat) (x : Run) : (s.setRun r x).lastIssued = s.lastIssued := rfl
@[simp] theorem State.setRun_order (s : State) (r : Nat) (x : Run) : (s.setRun r x).order = s.order := rfl
@[simp] theorem State.setRun_period (s : State) (r : Nat) (x : Run) : (s.setRun r x).period = s.period := rfl
@[simp] theorem State.setRun_nextRun (s : State) (r : Nat) (x : Run) : (s.setRun r x).nextRun = s.nextRun := rfl
@[simp] theorem State.setRun_nextMcrd (s : State) (r : Nat) (x : Run) : (s.setRun r x).nextMcrd = s.nextMcrd := rfl
@[simp] theorem State.setRun_freeIdx (s : State) (r : Nat) (x : Run) : (s.setRun r x).freeIdx = s.freeIdx := rfl

@[simp] theorem State.setAct_threads (s : State) (k : ActKey) (a : Act) : (s.setAct k a).threads = s.threads := rfl
@[simp] theorem State.setAct_cores (s : State) (k : ActKey) (a : Act) : (s.setAct k a).cores = s.cores := rfl
@[simp] theorem State.setAct_clusters (s : State) (k : ActKey) (a : Act) : (s.setAct k a).clusters = s.clusters := rfl
@[simp] theorem State.setAct_runs (s : State) (k : ActKey) (a : Act) : (s.setAct k a).runs = s.runs := rfl
@[simp] theorem State.setAct_fns (s : State) (k : ActKey) (a : Act) : (s.setAct k a).fns = s.fns := rfl
@[simp] theorem State.setAct_mem (s : State) (k : ActKey) (a : Act) : (s.setAct k a).mem = s.mem := rfl
@[simp] theorem State.setAct_lines (s : State) (k : ActKey) (a : Act) : (s.setAct k a).lines = s.lines := rfl
@[simp] theorem State.setAct_poison (s : State) (k : ActKey) (a : Act) : (s.setAct k a).poison = s.poison := rfl
@[simp] theorem State.setAct_wtimes (s : State) (k : ActKey) (a : Act) : (s.setAct k a).wtimes = s.wtimes := rfl
@[simp] theorem State.setAct_wmax (s : State) (k : ActKey) (a : Act) : (s.setAct k a).wmax = s.wmax := rfl
@[simp] theorem State.setAct_inserts (s : State) (k : ActKey) (a : Act) : (s.setAct k a).inserts = s.inserts := rfl
@[simp] theorem State.setAct_submissions (s : State) (k : ActKey) (a : Act) : (s.setAct k a).submissions = s.submissions := rfl
@[simp] theorem State.setAct_mcrds (s : State) (k : ActKey) (a : Act) : (s.setAct k a).mcrds = s.mcrds := rfl
@[simp] theorem State.setAct_streams (s : State) (k : ActKey) (a : Act) : (s.setAct k a).streams = s.streams := rfl
@[simp] theorem State.setAct_beats (s : State) (k : ActKey) (a : Act) : (s.setAct k a).beats = s.beats := rfl
@[simp] theorem State.setAct_returns (s : State) (k : ActKey) (a : Act) : (s.setAct k a).returns = s.returns := rfl
@[simp] theorem State.setAct_rollbacks (s : State) (k : ActKey) (a : Act) : (s.setAct k a).rollbacks = s.rollbacks := rfl
@[simp] theorem State.setAct_saves (s : State) (k : ActKey) (a : Act) : (s.setAct k a).saves = s.saves := rfl
@[simp] theorem State.setAct_hub (s : State) (k : ActKey) (a : Act) : (s.setAct k a).hub = s.hub := rfl
@[simp] theorem State.setAct_agenda (s : State) (k : ActKey) (a : Act) : (s.setAct k a).agenda = s.agenda := rfl
@[simp] theorem State.setAct_pending (s : State) (k : ActKey) (a : Act) : (s.setAct k a).pending = s.pending := rfl
@[simp] theorem State.setAct_input (s : State) (k : ActKey) (a : Act) : (s.setAct k a).input = s.input := rfl
@[simp] theorem State.setAct_cur (s : State) (k : ActKey) (a : Act) : (s.setAct k a).cur = s.cur := rfl
@[simp] theorem State.setAct_fclk (s : State) (k : ActKey) (a : Act) : (s.setAct k a).fclk = s.fclk := rfl
@[simp] theorem State.setAct_turn (s : State) (k : ActKey) (a : Act) : (s.setAct k a).turn = s.turn := rfl
@[simp] theorem State.setAct_lastIssued (s : State) (k : ActKey) (a : Act) : (s.setAct k a).lastIssued = s.lastIssued := rfl
@[simp] theorem State.setAct_order (s : State) (k : ActKey) (a : Act) : (s.setAct k a).order = s.order := rfl
@[simp] theorem State.setAct_period (s : State) (k : ActKey) (a : Act) : (s.setAct k a).period = s.period := rfl
@[simp] theorem State.setAct_nextRun (s : State) (k : ActKey) (a : Act) : (s.setAct k a).nextRun = s.nextRun := rfl
@[simp] theorem State.setAct_nextMcrd (s : State) (k : ActKey) (a : Act) : (s.setAct k a).nextMcrd = s.nextMcrd := rfl
@[simp] theorem State.setAct_freeIdx (s : State) (k : ActKey) (a : Act) : (s.setAct k a).freeIdx = s.freeIdx := rfl

@[simp] theorem State.dropAct_threads (s : State) (k : ActKey) : (s.dropAct k).threads = s.threads := rfl
@[simp] theorem State.dropAct_cores (s : State) (k : ActKey) : (s.dropAct k).cores = s.cores := rfl
@[simp] theorem State.dropAct_clusters (s : State) (k : ActKey) : (s.dropAct k).clusters = s.clusters := rfl
@[simp] theorem State.dropAct_runs (s : State) (k : ActKey) : (s.dropAct k).runs = s.runs := rfl
@[simp] theorem State.dropAct_fns (s : State) (k : ActKey) : (s.dropAct k).fns = s.fns := rfl
@[simp] theorem State.dropAct_mem (s : State) (k : ActKey) : (s.dropAct k).mem = s.mem := rfl
@[simp] theorem State.dropAct_lines (s : State) (k : ActKey) : (s.dropAct k).lines = s.lines := rfl
@[simp] theorem State.dropAct_poison (s : State) (k : ActKey) : (s.dropAct k).poison = s.poison := rfl
@[simp] theorem State.dropAct_wtimes (s : State) (k : ActKey) : (s.dropAct k).wtimes = s.wtimes := rfl
@[simp] theorem State.dropAct_wmax (s : State) (k : ActKey) : (s.dropAct k).wmax = s.wmax := rfl
@[simp] theorem State.dropAct_inserts (s : State) (k : ActKey) : (s.dropAct k).inserts = s.inserts := rfl
@[simp] theorem State.dropAct_submissions (s : State) (k : ActKey) : (s.dropAct k).submissions = s.submissions := rfl
@[simp] theorem State.dropAct_mcrds (s : State) (k : ActKey) : (s.dropAct k).mcrds = s.mcrds := rfl
@[simp] theorem State.dropAct_streams (s : State) (k : ActKey) : (s.dropAct k).streams = s.streams := rfl
@[simp] theorem State.dropAct_beats (s : State) (k : ActKey) : (s.dropAct k).beats = s.beats := rfl
@[simp] theorem State.dropAct_returns (s : State) (k : ActKey) : (s.dropAct k).returns = s.returns := rfl
@[simp] theorem State.dropAct_rollbacks (s : State) (k : ActKey) : (s.dropAct k).rollbacks = s.rollbacks := rfl
@[simp] theorem State.dropAct_saves (s : State) (k : ActKey) : (s.dropAct k).saves = s.saves := rfl
@[simp] theorem State.dropAct_hub (s : State) (k : ActKey) : (s.dropAct k).hub = s.hub := rfl
@[simp] theorem State.dropAct_agenda (s : State) (k : ActKey) : (s.dropAct k).agenda = s.agenda := rfl
@[simp] theorem State.dropAct_pending (s : State) (k : ActKey) : (s.dropAct k).pending = s.pending := rfl
@[simp] theorem State.dropAct_input (s : State) (k : ActKey) : (s.dropAct k).input = s.input := rfl
@[simp] theorem State.dropAct_cur (s : State) (k : ActKey) : (s.dropAct k).cur = s.cur := rfl
@[simp] theorem State.dropAct_fclk (s : State) (k : ActKey) : (s.dropAct k).fclk = s.fclk := rfl
@[simp] theorem State.dropAct_turn (s : State) (k : ActKey) : (s.dropAct k).turn = s.turn := rfl
@[simp] theorem State.dropAct_lastIssued (s : State) (k : ActKey) : (s.dropAct k).lastIssued = s.lastIssued := rfl
@[simp] theorem State.dropAct_order (s : State) (k : ActKey) : (s.dropAct k).order = s.order := rfl
@[simp] theorem State.dropAct_period (s : State) (k : ActKey) : (s.dropAct k).period = s.period := rfl
@[simp] theorem State.dropAct_nextRun (s : State) (k : ActKey) : (s.dropAct k).nextRun = s.nextRun := rfl
@[simp] theorem State.dropAct_nextMcrd (s : State) (k : ActKey) : (s.dropAct k).nextMcrd = s.nextMcrd := rfl
@[simp] theorem State.dropAct_freeIdx (s : State) (k : ActKey) : (s.dropAct k).freeIdx = s.freeIdx := rfl

@[simp] theorem State.post_threads (s : State) (i : Instr) : (s.post i).threads = s.threads := rfl
@[simp] theorem State.post_cores (s : State) (i : Instr) : (s.post i).cores = s.cores := rfl
@[simp] theorem State.post_clusters (s : State) (i : Instr) : (s.post i).clusters = s.clusters := rfl
@[simp] theorem State.post_runs (s : State) (i : Instr) : (s.post i).runs = s.runs := rfl
@[simp] theorem State.post_acts (s : State) (i : Instr) : (s.post i).acts = s.acts := rfl
@[simp] theorem State.post_fns (s : State) (i : Instr) : (s.post i).fns = s.fns := rfl
@[simp] theorem State.post_mem (s : State) (i : Instr) : (s.post i).mem = s.mem := rfl
@[simp] theorem State.post_lines (s : State) (i : Instr) : (s.post i).lines = s.lines := rfl
@[simp] theorem State.post_poison (s : State) (i : Instr) : (s.post i).poison = s.poison := rfl
@[simp] theorem State.post_wtimes (s : State) (i : Instr) : (s.post i).wtimes = s.wtimes := rfl
@[simp] theorem State.post_wmax (s : State) (i : Instr) : (s.post i).wmax = s.wmax := rfl
@[simp] theorem State.post_inserts (s : State) (i : Instr) : (s.post i).inserts = s.inserts := rfl
@[simp] theorem State.post_submissions (s : State) (i : Instr) : (s.post i).submissions = s.submissions := rfl
@[simp] theorem State.post_mcrds (s : State) (i : Instr) : (s.post i).mcrds = s.mcrds := rfl
@[simp] theorem State.post_streams (s : State) (i : Instr) : (s.post i).streams = s.streams := rfl
@[simp] theorem State.post_beats (s : State) (i : Instr) : (s.post i).beats = s.beats := rfl
@[simp] theorem State.post_returns (s : State) (i : Instr) : (s.post i).returns = s.returns := rfl
@[simp] theorem State.post_rollbacks (s : State) (i : Instr) : (s.post i).rollbacks = s.rollbacks := rfl
@[simp] theorem State.post_saves (s : State) (i : Instr) : (s.post i).saves = s.saves := rfl
@[simp] theorem State.post_hub (s : State) (i : Instr) : (s.post i).hub = s.hub := rfl
@[simp] theorem State.post_agenda (s : State) (i : Instr) : (s.post i).agenda = s.agenda := rfl
@[simp] theorem State.post_input (s : State) (i : Instr) : (s.post i).input = s.input := rfl
@[simp] theorem State.post_cur (s : State) (i : Instr) : (s.post i).cur = s.cur := rfl
@[simp] theorem State.post_fclk (s : State) (i : Instr) : (s.post i).fclk = s.fclk := rfl
@[simp] theorem State.post_turn (s : State) (i : Instr) : (s.post i).turn = s.turn := rfl
@[simp] theorem State.post_lastIssued (s : State) (i : Instr) : (s.post i).lastIssued = s.lastIssued := rfl
@[simp] theorem State.post_order (s : State) (i : Instr) : (s.post i).order = s.order := rfl
@[simp] theorem State.post_period (s : State) (i : Instr) : (s.post i).period = s.period := rfl
@[simp] theorem State.post_nextRun (s : State) (i : Instr) : (s.post i).nextRun = s.nextRun := rfl
@[simp] theorem State.post_nextMcrd (s : State) (i : Instr) : (s.post i).nextMcrd = s.nextMcrd := rfl
@[simp] theorem State.post_freeIdx (s : State) (i : Instr) : (s.post i).freeIdx = s.freeIdx := rfl

@[simp] theorem State.advance_cores (s : State)  : (s.advance ).cores = s.cores := rfl
@[simp] theorem State.advance_clusters (s : State)  : (s.advance ).clusters = s.clusters := rfl
@[simp] theorem State.advance_runs (s : State)  : (s.advance ).runs = s.runs := rfl
@[simp] theorem State.advance_acts (s : State)  : (s.advance ).acts = s.acts := rfl
@[simp] theorem State.advance_fns (s : State)  : (s.advance ).fns = s.fns := rfl
@[simp] theorem State.advance_mem (s : State)  : (s.advance ).mem = s.mem := rfl
@[simp] theorem State.advance_lines (s : State)  : (s.advance ).lines = s.lines := rfl
@[simp] theorem State.advance_poison (s : State)  : (s.advance ).poison = s.poison := rfl
@[simp] theorem State.advance_wtimes (s : State)  : (s.advance ).wtimes = s.wtimes := rfl
@[simp] theorem State.advance_wmax (s : State)  : (s.advance ).wmax = s.wmax := rfl
@[simp] theorem State.advance_inserts (s : State)  : (s.advance ).inserts = s.inserts := rfl
@[simp] theorem State.advance_submissions (s : State)  : (s.advance ).submissions = s.submissions := rfl
@[simp] theorem State.advance_mcrds (s : State)  : (s.advance ).mcrds = s.mcrds := rfl
@[simp] theorem State.advance_streams (s : State)  : (s.advance ).streams = s.streams := rfl
@[simp] theorem State.advance_beats (s : State)  : (s.advance ).beats = s.beats := rfl
@[simp] theorem State.advance_returns (s : State)  : (s.advance ).returns = s.returns := rfl
@[simp] theorem State.advance_rollbacks (s : State)  : (s.advance ).rollbacks = s.rollbacks := rfl
@[simp] theorem State.advance_saves (s : State)  : (s.advance ).saves = s.saves := rfl
@[simp] theorem State.advance_hub (s : State)  : (s.advance ).hub = s.hub := rfl
@[simp] theorem State.advance_agenda (s : State)  : (s.advance ).agenda = s.agenda := rfl
@[simp] theorem State.advance_pending (s : State)  : (s.advance ).pending = s.pending := rfl
@[simp] theorem State.advance_input (s : State)  : (s.advance ).input = s.input := rfl
@[simp] theorem State.advance_cur (s : State)  : (s.advance ).cur = s.cur := rfl
@[simp] theorem State.advance_fclk (s : State)  : (s.advance ).fclk = s.fclk := rfl
@[simp] theorem State.advance_turn (s : State)  : (s.advance ).turn = s.turn := rfl
@[simp] theorem State.advance_lastIssued (s : State)  : (s.advance ).lastIssued = s.lastIssued := rfl
@[simp] theorem State.advance_order (s : State)  : (s.advance ).order = s.order := rfl
@[simp] theorem State.advance_period (s : State)  : (s.advance ).period = s.period := rfl
@[simp] theorem State.advance_nextRun (s : State)  : (s.advance ).nextRun = s.nextRun := rfl
@[simp] theorem State.advance_nextMcrd (s : State)  : (s.advance ).nextMcrd = s.nextMcrd := rfl
@[simp] theorem State.advance_freeIdx (s : State)  : (s.advance ).freeIdx = s.freeIdx := rfl

@[simp] theorem State.updRun_threads (s : State) (r : Nat) (f : Run → Run) : (s.updRun r f).threads = s.threads := by
  unfold State.updRun; split <;> rfl
@[simp] theorem State.updRun_cores (s : State) (r : Nat) (f : Run → Run) : (s.updRun r f).cores = s.cores := by
  unfold State.updRun; split <;> rfl
@[simp] theorem State.updRun_clusters (s : State) (r : Nat) (f : Run → Run) : (s.updRun r f).clusters = s.clusters := by
  unfold State.updRun; split <;> rfl
@[simp] theorem State.updRun_acts (s : State) (r : Nat) (f : Run → Run) : (s.updRun r f).acts = s.acts := by
  unfold State.updRun; split <;> rfl
@[simp] theorem State.updRun_fns (s : State) (r : Nat) (f : Run → Run) : (s.updRun r f).fns = s.fns := by
  unfold State.updRun; split <;> rfl
@[simp] theorem State.updRun_mem (s : State) (r : Nat) (f : Run → Run) : (s.updRun r f).mem = s.mem := by
  unfold State.updRun; split <;> rfl
@[simp] theorem State.updRun_lines (s : State) (r : Nat) (f : Run → Run) : (s.updRun r f).lines = s.lines := by
  unfold State.updRun; split <;> rfl
@[simp] theorem State.updRun_poison (s : State) (r : Nat) (f : Run → Run) : (s.updRun r f).poison = s.poison := by
  unfold State.updRun; split <;> rfl
@[simp] theorem State.updRun_wtimes (s : State) (r : Nat) (f : Run → Run) : (s.updRun r f).wtimes = s.wtimes := by
  unfold State.updRun; split <;> rfl
@[simp] theorem State.updRun_wmax (s : State) (r : Nat) (f : Run → Run) : (s.updRun r f).wmax = s.wmax := by
  unfold State.updRun; split <;> rfl
@[simp] theorem State.updRun_inserts (s : State) (r : Nat) (f : Run → Run) : (s.updRun r f).inserts = s.inserts := by
  unfold State.updRun; split <;> rfl
@[simp] theorem State.updRun_submissions (s : State) (r : Nat) (f : Run → Run) : (s.updRun r f).submissions = s.submissions := by
  unfold State.updRun; split <;> rfl
@[simp] theorem State.updRun_mcrds (s : State) (r : Nat) (f : Run → Run) : (s.updRun r f).mcrds = s.mcrds := by
  unfold State.updRun; split <;> rfl
@[simp] theorem State.updRun_streams (s : State) (r : Nat) (f : Run → Run) : (s.updRun r f).streams = s.streams := by
  unfold State.updRun; split <;> rfl
@[simp] theorem State.updRun_beats (s : State) (r : Nat) (f : Run → Run) : (s.updRun r f).beats = s.beats := by
  unfold State.updRun; split <;> rfl
@[simp] theorem State.updRun_returns (s : State) (r : Nat) (f : Run → Run) : (s.updRun r f).returns = s.returns := by
  unfold State.updRun; split <;> rfl
@[simp] theorem State.updRun_rollbacks (s : State) (r : Nat) (f : Run → Run) : (s.updRun r f).rollbacks = s.rollbacks := by
  unfold State.updRun; split <;> rfl
@[simp] theorem State.updRun_saves (s : State) (r : Nat) (f : Run → Run) : (s.updRun r f).saves = s.saves := by
  unfold State.updRun; split <;> rfl
@[simp] theorem State.updRun_hub (s : State) (r : Nat) (f : Run → Run) : (s.updRun r f).hub = s.hub := by
  unfold State.updRun; split <;> rfl
@[simp] theorem State.updRun_agenda (s : State) (r : Nat) (f : Run → Run) : (s.updRun r f).agenda = s.agenda := by
  unfold State.updRun; split <;> rfl
@[simp] theorem State.updRun_pending (s : State) (r : Nat) (f : Run → Run) : (s.updRun r f).pending = s.pending := by
  unfold State.updRun; split <;> rfl
@[simp] theorem State.updRun_input (s : State) (r : Nat) (f : Run → Run) : (s.updRun r f).input = s.input := by
  unfold State.updRun; split <;> rfl
@[simp] theorem State.updRun_cur (s : State) (r : Nat) (f : Run → Run) : (s.updRun r f).cur = s.cur := by
  unfold State.updRun; split <;> rfl
@[simp] theorem State.updRun_fclk (s : State) (r : Nat) (f : Run → Run) : (s.updRun r f).fclk = s.fclk := by
  unfold State.updRun; split <;> rfl
@[simp] theorem State.updRun_turn (s : State) (r : Nat) (f : Run → Run) : (s.updRun r f).turn = s.turn := by
  unfold State.updRun; split <;> rfl
@[simp] theorem State.updRun_lastIssued (s : State) (r : Nat) (f : Run → Run) : (s.updRun r f).lastIssued = s.lastIssued := by
  unfold State.updRun; split <;> rfl
@[simp] theorem State.updRun_order (s : State) (r : Nat) (f : Run → Run) : (s.updRun r f).order = s.order := by
  unfold State.updRun; split <;> rfl
@[simp] theorem State.updRun_period (s : State) (r : Nat) (f : Run → Run) : (s.updRun r f).period = s.period := by
  unfold State.updRun; split <;> rfl
@[simp] theorem State.updRun_nextRun (s : State) (r : Nat) (f : Run → Run) : (s.updRun r f).nextRun = s.nextRun := by
  unfold State.updRun; split <;> rfl
@[simp] theorem State.updRun_nextMcrd (s : State) (r : Nat) (f : Run → Run) : (s.updRun r f).nextMcrd = s.nextMcrd := by
  unfold State.updRun; split <;> rfl
@[simp] theorem State.updRun_freeIdx (s : State) (r : Nat) (f : Run → Run) : (s.updRun r f).freeIdx = s.freeIdx := by
  unfold State.updRun; split <;> rfl

@[simp] theorem State.updAct_threads (s : State) (k : ActKey) (f : Act → Act) : (s.updAct k f).threads = s.threads := by
  unfold State.updAct; split <;> rfl
@[simp] theorem State.updAct_cores (s : State) (k : ActKey) (f : Act → Act) : (s.updAct k f).cores = s.cores := by
  unfold State.updAct; split <;> rfl
@[simp] theorem State.updAct_clusters (s : State) (k : ActKey) (f : Act → Act) : (s.updAct k f).clusters = s.clusters := by
  unfold State.updAct; split <;> rfl
@[simp] theorem State.updAct_runs (s : State) (k : ActKey) (f : Act → Act) : (s.updAct k f).runs = s.runs := by
  unfold State.updAct; split <;> rfl
@[simp] theorem State.updAct_fns (s : State) (k : ActKey) (f : Act → Act) : (s.updAct k f).fns = s.fns := by
  unfold State.updAct; split <;> rfl
@[simp] theorem State.updAct_mem (s : State) (k : ActKey) (f : Act → Act) : (s.updAct k f).mem = s.mem := by
  unfold State.updAct; split <;> rfl
@[simp] theorem State.updAct_lines (s : State) (k : ActKey) (f : Act → Act) : (s.updAct k f).lines = s.lines := by
  unfold State.updAct; split <;> rfl
@[simp] theorem State.updAct_poison (s : State) (k : ActKey) (f : Act → Act) : (s.updAct k f).poison = s.poison := by
  unfold State.updAct; split <;> rfl
@[simp] theorem State.updAct_wtimes (s : State) (k : ActKey) (f : Act → Act) : (s.updAct k f).wtimes = s.wtimes := by
  unfold State.updAct; split <;> rfl
@[simp] theorem State.updAct_wmax (s : State) (k : ActKey) (f : Act → Act) : (s.updAct k f).wmax = s.wmax := by
  unfold State.updAct; split <;> rfl
@[simp] theorem State.updAct_inserts (s : State) (k : ActKey) (f : Act → Act) : (s.updAct k f).inserts = s.inserts := by
  unfold State.updAct; split <;> rfl
@[simp] theorem State.updAct_submissions (s : State) (k : ActKey) (f : Act → Act) : (s.updAct k f).submissions = s.submissions := by
  unfold State.updAct; split <;> rfl
@[simp] theorem State.updAct_mcrds (s : State) (k : ActKey) (f : Act → Act) : (s.updAct k f).mcrds = s.mcrds := by
  unfold State.updAct; split <;> rfl
@[simp] theorem State.updAct_streams (s : State) (k : ActKey) (f : Act → Act) : (s.updAct k f).streams = s.streams := by
  unfold State.updAct; split <;> rfl
@[simp] theorem State.updAct_beats (s : State) (k : ActKey) (f : Act → Act) : (s.updAct k f).beats = s.beats := by
  unfold State.updAct; split <;> rfl
@[simp] theorem State.updAct_returns (s : State) (k : ActKey) (f : Act → Act) : (s.updAct k f).returns = s.returns := by
  unfold State.updAct; split <;> rfl
@[simp] theorem State.updAct_rollbacks (s : State) (k : ActKey) (f : Act → Act) : (s.updAct k f).rollbacks = s.rollbacks := by
  unfold State.updAct; split <;> rfl
@[simp] theorem State.updAct_saves (s : State) (k : ActKey) (f : Act → Act) : (s.updAct k f).saves = s.saves := by
  unfold State.updAct; split <;> rfl
@[simp] theorem State.updAct_hub (s : State) (k : ActKey) (f : Act → Act) : (s.updAct k f).hub = s.hub := by
  unfold State.updAct; split <;> rfl
@[simp] theorem State.updAct_agenda (s : State) (k : ActKey) (f : Act → Act) : (s.updAct k f).agenda = s.agenda := by
  unfold State.updAct; split <;> rfl
@[simp] theorem State.updAct_pending (s : State) (k : ActKey) (f : Act → Act) : (s.updAct k f).pending = s.pending := by
  unfold State.updAct; split <;> rfl
@[simp] theorem State.updAct_input (s : State) (k : ActKey) (f : Act → Act) : (s.updAct k f).input = s.input := by
  unfold State.updAct; split <;> rfl
@[simp] theorem State.updAct_cur (s : State) (k : ActKey) (f : Act → Act) : (s.updAct k f).cur = s.cur := by
  unfold State.updAct; split <;> rfl
@[simp] theorem State.updAct_fclk (s : State) (k : ActKey) (f : Act → Act) : (s.updAct k f).fclk = s.fclk := by
  unfold State.updAct; split <;> rfl
@[simp] theorem State.updAct_turn (s : State) (k : ActKey) (f : Act → Act) : (s.updAct k f).turn = s.turn := by
  unfold State.updAct; split <;> rfl
@[simp] theorem State.updAct_lastIssued (s : State) (k : ActKey) (f : Act → Act) : (s.updAct k f).lastIssued = s.lastIssued := by
  unfold State.updAct; split <;> rfl
@[simp] theorem State.updAct_order (s : State) (k : ActKey) (f : Act → Act) : (s.updAct k f).order = s.order := by
  unfold State.updAct; split <;> rfl
@[simp] theorem State.updAct_period (s : State) (k : ActKey) (f : Act → Act) : (s.updAct k f).period = s.period := by
  unfold State.updAct; split <;> rfl
@[simp] theorem State.updAct_nextRun (s : State) (k : ActKey) (f : Act → Act) : (s.updAct k f).nextRun = s.nextRun := by
  unfold State.updAct; split <;> rfl
@[simp] theorem State.updAct_nextMcrd (s : State) (k : ActKey) (f : Act → Act) : (s.updAct k f).nextMcrd = s.nextMcrd := by
  unfold State.updAct; split <;> rfl
@[simp] theorem State.updAct_freeIdx (s : State) (k : ActKey) (f : Act → Act) : (s.updAct k f).freeIdx = s.freeIdx := by
  unfold State.updAct; split <;> rfl

@[simp] theorem State.postOnce_threads (s : State) (i : Instr) : (s.postOnce i).threads = s.threads := by
  unfold State.postOnce; split <;> rfl
@[simp] theorem State.postOnce_cores (s : State) (i : Instr) : (s.postOnce i).cores = s.cores := by
  unfold State.postOnce; split <;> rfl
@[simp] theorem State.postOnce_clusters (s : State) (i : Instr) : (s.postOnce i).clusters = s.clusters := by
  unfold State.postOnce; split <;> rfl
@[simp] theorem State.postOnce_runs (s : State) (i : Instr) : (s.postOnce i).runs = s.runs := by
  unfold State.postOnce; split <;> rfl
@[simp] theorem State.postOnce_acts (s : State) (i : Instr) : (s.postOnce i).acts = s.acts := by
  unfold State.postOnce; split <;> rfl
@[simp] theorem State.postOnce_fns (s : State) (i : Instr) : (s.postOnce i).fns = s.fns := by
  unfold State.postOnce; split <;> rfl
@[simp] theorem State.postOnce_mem (s : State) (i : Instr) : (s.postOnce i).mem = s.mem := by
  unfold State.postOnce; split <;> rfl
@[simp] theorem State.postOnce_lines (s : State) (i : Instr) : (s.postOnce i).lines = s.lines := by
  unfold State.postOnce; split <;> rfl
@[simp] theorem State.postOnce_poison (s : State) (i : Instr) : (s.postOnce i).poison = s.poison := by
  unfold State.postOnce; split <;> rfl
@[simp] theorem State.postOnce_wtimes (s : State) (i : Instr) : (s.postOnce i).wtimes = s.wtimes := by
  unfold State.postOnce; split <;> rfl
@[simp] theorem State.postOnce_wmax (s : State) (i : Instr) : (s.postOnce i).wmax = s.wmax := by
  unfold State.postOnce; split <;> rfl
@[simp] theorem State.postOnce_inserts (s : State) (i : Instr) : (s.postOnce i).inserts = s.inserts := by
  unfold State.postOnce; split <;> rfl
@[simp] theorem State.postOnce_submissions (s : State) (i : Instr) : (s.postOnce i).submissions = s.submissions := by
  unfold State.postOnce; split <;> rfl
@[simp] theorem State.postOnce_mcrds (s : State) (i : Instr) : (s.postOnce i).mcrds = s.mcrds := by
  unfold State.postOnce; split <;> rfl
@[simp] theorem State.postOnce_streams (s : State) (i : Instr) : (s.postOnce i).streams = s.streams := by
  unfold State.postOnce; split <;> rfl
@[simp] theorem State.postOnce_beats (s : State) (i : Instr) : (s.postOnce i).beats = s.beats := by
  unfold State.postOnce; split <;> rfl
@[simp] theorem State.postOnce_returns (s : State) (i : Instr) : (s.postOnce i).returns = s.returns := by
  unfold State.postOnce; split <;> rfl
@[simp] theorem State.postOnce_rollbacks (s : State) (i : Instr) : (s.postOnce i).rollbacks = s.rollbacks := by
  unfold State.postOnce; split <;> rfl
@[simp] theorem State.postOnce_saves (s : State) (i : Instr) : (s.postOnce i).saves = s.saves := by
  unfold State.postOnce; split <;> rfl
@[simp] theorem State.postOnce_hub (s : State) (i : Instr) : (s.postOnce i).hub = s.hub := by
  unfold State.postOnce; split <;> rfl
@[simp] theorem State.postOnce_agenda (s : State) (i : Instr) : (s.postOnce i).agenda = s.agenda := by
  unfold State.postOnce; split <;> rfl
@[simp] theorem State.postOnce_input (s : State) (i : Instr) : (s.postOnce i).input = s.input := by
  unfold State.postOnce; split <;> rfl
@[simp] theorem State.postOnce_cur (s : State) (i : Instr) : (s.postOnce i).cur = s.cur := by
  unfold State.postOnce; split <;> rfl
@[simp] theorem State.postOnce_fclk (s : State) (i : Instr) : (s.postOnce i).fclk = s.fclk := by
  unfold State.postOnce; split <;> rfl
@[simp] theorem State.postOnce_turn (s : State) (i : Instr) : (s.postOnce i).turn = s.turn := by
  unfold State.postOnce; split <;> rfl
@[simp] theorem State.postOnce_lastIssued (s : State) (i : Instr) : (s.postOnce i).lastIssued = s.lastIssued := by
  unfold State.postOnce; split <;> rfl
@[simp] theorem State.postOnce_order (s : State) (i : Instr) : (s.postOnce i).order = s.order := by
  unfold State.postOnce; split <;> rfl
@[simp] theorem State.postOnce_period (s : State) (i : Instr) : (s.postOnce i).period = s.period := by
  unfold State.postOnce; split <;> rfl
@[simp] theorem State.postOnce_nextRun (s : State) (i : Instr) : (s.postOnce i).nextRun = s.nextRun := by
  unfold State.postOnce; split <;> rfl
@[simp] theorem State.postOnce_nextMcrd (s : State) (i : Instr) : (s.postOnce i).nextMcrd = s.nextMcrd := by
  unfold State.postOnce; split <;> rfl
@[simp] theorem State.postOnce_freeIdx (s : State) (i : Instr) : (s.postOnce i).freeIdx = s.freeIdx := by
  unfold State.postOnce; split <;> rfl

@[simp] theorem State.raise_threads (s : State) (t : TsId) (g : Flags) : (s.raise t g).threads = s.threads := by
  unfold State.raise; split <;> simp
@[simp] theorem State.raise_cores (s : State) (t : TsId) (g : Flags) : (s.raise t g).cores = s.cores := by
  unfold State.raise; split <;> simp
@[simp] theorem State.raise_runs (s : State) (t : TsId) (g : Flags) : (s.raise t g).runs = s.runs := by
  unfold State.raise; split <;> simp
@[simp] theorem State.raise_acts (s : State) (t : TsId) (g : Flags) : (s.raise t g).acts = s.acts := by
  unfold State.raise; split <;> simp
@[simp] theorem State.raise_fns (s : State) (t : TsId) (g : Flags) : (s.raise t g).fns = s.fns := by
  unfold State.raise; split <;> simp
@[simp] theorem State.raise_mem (s : State) (t : TsId) (g : Flags) : (s.raise t g).mem = s.mem := by
  unfold State.raise; split <;> simp
@[simp] theorem State.raise_lines (s : State) (t : TsId) (g : Flags) : (s.raise t g).lines = s.lines := by
  unfold State.raise; split <;> simp
@[simp] theorem State.raise_poison (s : State) (t : TsId) (g : Flags) : (s.raise t g).poison = s.poison := by
  unfold State.raise; split <;> simp
@[simp] theorem State.raise_wtimes (s : State) (t : TsId) (g : Flags) : (s.raise t g).wtimes = s.wtimes := by
  unfold State.raise; split <;> simp
@[simp] theorem State.raise_wmax (s : State) (t : TsId) (g : Flags) : (s.raise t g).wmax = s.wmax := by
  unfold State.raise; split <;> simp
@[simp] theorem State.raise_inserts (s : State) (t : TsId) (g : Flags) : (s.raise t g).inserts = s.inserts := by
  unfold State.raise; split <;> simp
@[simp] theorem State.raise_submissions (s : State) (t : TsId) (g : Flags) : (s.raise t g).submissions = s.submissions := by
  unfold State.raise; split <;> simp
@[simp] theorem State.raise_mcrds (s : State) (t : TsId) (g : Flags) : (s.raise t g).mcrds = s.mcrds := by
  unfold State.raise; split <;> simp
@[simp] theorem State.raise_streams (s : State) (t : TsId) (g : Flags) : (s.raise t g).streams = s.streams := by
  unfold State.raise; split <;> simp
@[simp] theorem State.raise_beats (s : State) (t : TsId) (g : Flags) : (s.raise t g).beats = s.beats := by
  unfold State.raise; split <;> simp
@[simp] theorem State.raise_returns (s : State) (t : TsId) (g : Flags) : (s.raise t g).returns = s.returns := by
  unfold State.raise; split <;> simp
@[simp] theorem State.raise_rollbacks (s : State) (t : TsId) (g : Flags) : (s.raise t g).rollbacks = s.rollbacks := by
  unfold State.raise; split <;> simp
@[simp] theorem State.raise_saves (s : State) (t : TsId) (g : Flags) : (s.raise t g).saves = s.saves := by
  unfold State.raise; split <;> simp
@[simp] theorem State.raise_hub (s : State) (t : TsId) (g : Flags) : (s.raise t g).hub = s.hub := by
  unfold State.raise; split <;> simp
@[simp] theorem State.raise_agenda (s : State) (t : TsId) (g : Flags) : (s.raise t g).agenda = s.agenda := by
  unfold State.raise; split <;> simp
@[simp] theorem State.raise_input (s : State) (t : TsId) (g : Flags) : (s.raise t g).input = s.input := by
  unfold State.raise; split <;> simp
@[simp] theorem State.raise_cur (s : State) (t : TsId) (g : Flags) : (s.raise t g).cur = s.cur := by
  unfold State.raise; split <;> simp
@[simp] theorem State.raise_fclk (s : State) (t : TsId) (g : Flags) : (s.raise t g).fclk = s.fclk := by
  unfold State.raise; split <;> simp
@[simp] theorem State.raise_turn (s : State) (t : TsId) (g : Flags) : (s.raise t g).turn = s.turn := by
  unfold State.raise; split <;> simp
@[simp] theorem State.raise_lastIssued (s : State) (t : TsId) (g : Flags) : (s.raise t g).lastIssued = s.lastIssued := by
  unfold State.raise; split <;> simp
@[simp] theorem State.raise_order (s : State) (t : TsId) (g : Flags) : (s.raise t g).order = s.order := by
  unfold State.raise; split <;> simp
@[simp] theorem State.raise_period (s : State) (t : TsId) (g : Flags) : (s.raise t g).period = s.period := by
  unfold State.raise; split <;> simp
@[simp] theorem State.raise_nextRun (s : State) (t : TsId) (g : Flags) : (s.raise t g).nextRun = s.nextRun := by
  unfold State.raise; split <;> simp
@[simp] theorem State.raise_nextMcrd (s : State) (t : TsId) (g : Flags) : (s.raise t g).nextMcrd = s.nextMcrd := by
  unfold State.raise; split <;> simp
@[simp] theorem State.raise_freeIdx (s : State) (t : TsId) (g : Flags) : (s.raise t g).freeIdx = s.freeIdx := by
  unfold State.raise; split <;> simp

@[simp] theorem State.flags_cores (s : State) (g : Flags) : (s.flags g).cores = s.cores := by
  simp [State.flags, State.flagsOf]
@[simp] theorem State.flags_runs (s : State) (g : Flags) : (s.flags g).runs = s.runs := by
  simp [State.flags, State.flagsOf]
@[simp] theorem State.flags_acts (s : State) (g : Flags) : (s.flags g).acts = s.acts := by
  simp [State.flags, State.flagsOf]
@[simp] theorem State.flags_fns (s : State) (g : Flags) : (s.flags g).fns = s.fns := by
  simp [State.flags, State.flagsOf]
@[simp] theorem State.flags_mem (s : State) (g : Flags) : (s.flags g).mem = s.mem := by
  simp [State.flags, State.flagsOf]
@[simp] theorem State.flags_lines (s : State) (g : Flags) : (s.flags g).lines = s.lines := by
  simp [State.flags, State.flagsOf]
@[simp] theorem State.flags_poison (s : State) (g : Flags) : (s.flags g).poison = s.poison := by
  simp [State.flags, State.flagsOf]
@[simp] theorem State.flags_wtimes (s : State) (g : Flags) : (s.flags g).wtimes = s.wtimes := by
  simp [State.flags, State.flagsOf]
@[simp] theorem State.flags_wmax (s : State) (g : Flags) : (s.flags g).wmax = s.wmax := by
  simp [State.flags, State.flagsOf]
@[simp] theorem State.flags_inserts (s : State) (g : Flags) : (s.flags g).inserts = s.inserts := by
  simp [State.flags, State.flagsOf]
@[simp] theorem State.flags_submissions (s : State) (g : Flags) : (s.flags g).submissions = s.submissions := by
  simp [State.flags, State.flagsOf]
@[simp] theorem State.flags_mcrds (s : State) (g : Flags) : (s.flags g).mcrds = s.mcrds := by
  simp [State.flags, State.flagsOf]
@[simp] theorem State.flags_streams (s : State) (g : Flags) : (s.flags g).streams = s.streams := by
  simp [State.flags, State.flagsOf]
@[simp] theorem State.flags_beats (s : State) (g : Flags) : (s.flags g).beats = s.beats := by
  simp [State.flags, State.flagsOf]
@[simp] theorem State.flags_returns (s : State) (g : Flags) : (s.flags g).returns = s.returns := by
  simp [State.flags, State.flagsOf]
@[simp] theorem State.flags_rollbacks (s : State) (g : Flags) : (s.flags g).rollbacks = s.rollbacks := by
  simp [State.flags, State.flagsOf]
@[simp] theorem State.flags_saves (s : State) (g : Flags) : (s.flags g).saves = s.saves := by
  simp [State.flags, State.flagsOf]
@[simp] theorem State.flags_hub (s : State) (g : Flags) : (s.flags g).hub = s.hub := by
  simp [State.flags, State.flagsOf]
@[simp] theorem State.flags_agenda (s : State) (g : Flags) : (s.flags g).agenda = s.agenda := by
  simp [State.flags, State.flagsOf]
@[simp] theorem State.flags_input (s : State) (g : Flags) : (s.flags g).input = s.input := by
  simp [State.flags, State.flagsOf]
@[simp] theorem State.flags_cur (s : State) (g : Flags) : (s.flags g).cur = s.cur := by
  simp [State.flags, State.flagsOf]
@[simp] theorem State.flags_fclk (s : State) (g : Flags) : (s.flags g).fclk = s.fclk := by
  simp [State.flags, State.flagsOf]
@[simp] theorem State.flags_turn (s : State) (g : Flags) : (s.flags g).turn = s.turn := by
  simp [State.flags, State.flagsOf]
@[simp] theorem State.flags_lastIssued (s : State) (g : Flags) : (s.flags g).lastIssued = s.lastIssued := by
  simp [State.flags, State.flagsOf]
@[simp] theorem State.flags_order (s : State) (g : Flags) : (s.flags g).order = s.order := by
  simp [State.flags, State.flagsOf]
@[simp] theorem State.flags_period (s : State) (g : Flags) : (s.flags g).period = s.period := by
  simp [State.flags, State.flagsOf]
@[simp] theorem State.flags_nextRun (s : State) (g : Flags) : (s.flags g).nextRun = s.nextRun := by
  simp [State.flags, State.flagsOf]
@[simp] theorem State.flags_nextMcrd (s : State) (g : Flags) : (s.flags g).nextMcrd = s.nextMcrd := by
  simp [State.flags, State.flagsOf]
@[simp] theorem State.flags_freeIdx (s : State) (g : Flags) : (s.flags g).freeIdx = s.freeIdx := by
  simp [State.flags, State.flagsOf]

/-! ## Thread: fields that an update does not touch -/

@[simp] theorem Thread.setX_v (t : Thread) (r : XReg) (w : Word) : (t.setX r w).v = t.v := by
  unfold Thread.setX; split <;> rfl
@[simp] theorem Thread.setX_p (t : Thread) (r : XReg) (w : Word) : (t.setX r w).p = t.p := by
  unfold Thread.setX; split <;> rfl
@[simp] theorem Thread.setX_h (t : Thread) (r : XReg) (w : Word) : (t.setX r w).h = t.h := by
  unfold Thread.setX; split <;> rfl
@[simp] theorem Thread.setX_pc (t : Thread) (r : XReg) (w : Word) : (t.setX r w).pc = t.pc := by
  unfold Thread.setX; split <;> rfl
@[simp] theorem Thread.setX_tcause (t : Thread) (r : XReg) (w : Word) : (t.setX r w).tcause = t.tcause := by
  unfold Thread.setX; split <;> rfl
@[simp] theorem Thread.setX_tpc (t : Thread) (r : XReg) (w : Word) : (t.setX r w).tpc = t.tpc := by
  unfold Thread.setX; split <;> rfl
@[simp] theorem Thread.setX_tval (t : Thread) (r : XReg) (w : Word) : (t.setX r w).tval = t.tval := by
  unfold Thread.setX; split <;> rfl
@[simp] theorem Thread.setX_mode (t : Thread) (r : XReg) (w : Word) : (t.setX r w).mode = t.mode := by
  unfold Thread.setX; split <;> rfl
@[simp] theorem Thread.setX_pmode (t : Thread) (r : XReg) (w : Word) : (t.setX r w).pmode = t.pmode := by
  unfold Thread.setX; split <;> rfl
@[simp] theorem Thread.setX_intrap (t : Thread) (r : XReg) (w : Word) : (t.setX r w).intrap = t.intrap := by
  unfold Thread.setX; split <;> rfl
@[simp] theorem Thread.setX_ctx (t : Thread) (r : XReg) (w : Word) : (t.setX r w).ctx = t.ctx := by
  unfold Thread.setX; split <;> rfl
@[simp] theorem Thread.setX_fpmode (t : Thread) (r : XReg) (w : Word) : (t.setX r w).fpmode = t.fpmode := by
  unfold Thread.setX; split <;> rfl
@[simp] theorem Thread.setX_fpflags (t : Thread) (r : XReg) (w : Word) : (t.setX r w).fpflags = t.fpflags := by
  unfold Thread.setX; split <;> rfl
@[simp] theorem Thread.setX_spillsp (t : Thread) (r : XReg) (w : Word) : (t.setX r w).spillsp = t.spillsp := by
  unfold Thread.setX; split <;> rfl
@[simp] theorem Thread.setX_spillbase (t : Thread) (r : XReg) (w : Word) : (t.setX r w).spillbase = t.spillbase := by
  unfold Thread.setX; split <;> rfl
@[simp] theorem Thread.setX_spilllim (t : Thread) (r : XReg) (w : Word) : (t.setX r w).spilllim = t.spilllim := by
  unfold Thread.setX; split <;> rfl
@[simp] theorem Thread.setX_waitlim (t : Thread) (r : XReg) (w : Word) : (t.setX r w).waitlim = t.waitlim := by
  unfold Thread.setX; split <;> rfl
@[simp] theorem Thread.setX_actid (t : Thread) (r : XReg) (w : Word) : (t.setX r w).actid = t.actid := by
  unfold Thread.setX; split <;> rfl
@[simp] theorem Thread.setX_run (t : Thread) (r : XReg) (w : Word) : (t.setX r w).run = t.run := by
  unfold Thread.setX; split <;> rfl
@[simp] theorem Thread.setX_rank (t : Thread) (r : XReg) (w : Word) : (t.setX r w).rank = t.rank := by
  unfold Thread.setX; split <;> rfl
@[simp] theorem Thread.setX_status (t : Thread) (r : XReg) (w : Word) : (t.setX r w).status = t.status := by
  unfold Thread.setX; split <;> rfl
@[simp] theorem Thread.setX_wait (t : Thread) (r : XReg) (w : Word) : (t.setX r w).wait = t.wait := by
  unfold Thread.setX; split <;> rfl
@[simp] theorem Thread.setX_refused (t : Thread) (r : XReg) (w : Word) : (t.setX r w).refused = t.refused := by
  unfold Thread.setX; split <;> rfl
@[simp] theorem Thread.setX_cnt (t : Thread) (r : XReg) (w : Word) : (t.setX r w).cnt = t.cnt := by
  unfold Thread.setX; split <;> rfl
@[simp] theorem Thread.setX_pend (t : Thread) (r : XReg) (w : Word) : (t.setX r w).pend = t.pend := by
  unfold Thread.setX; split <;> rfl
@[simp] theorem Thread.setX_shadow (t : Thread) (r : XReg) (w : Word) : (t.setX r w).shadow = t.shadow := by
  unfold Thread.setX; split <;> rfl
@[simp] theorem Thread.setX_nextCopy (t : Thread) (r : XReg) (w : Word) : (t.setX r w).nextCopy = t.nextCopy := by
  unfold Thread.setX; split <;> rfl
@[simp] theorem Thread.setX_copies (t : Thread) (r : XReg) (w : Word) : (t.setX r w).copies = t.copies := by
  unfold Thread.setX; split <;> rfl
@[simp] theorem Thread.setX_sendq (t : Thread) (r : XReg) (w : Word) : (t.setX r w).sendq = t.sendq := by
  unfold Thread.setX; split <;> rfl
@[simp] theorem Thread.setX_recvq (t : Thread) (r : XReg) (w : Word) : (t.setX r w).recvq = t.recvq := by
  unfold Thread.setX; split <;> rfl
@[simp] theorem Thread.setX_amoq (t : Thread) (r : XReg) (w : Word) : (t.setX r w).amoq = t.amoq := by
  unfold Thread.setX; split <;> rfl
@[simp] theorem Thread.setX_stOut (t : Thread) (r : XReg) (w : Word) : (t.setX r w).stOut = t.stOut := by
  unfold Thread.setX; split <;> rfl
@[simp] theorem Thread.setX_stint (t : Thread) (r : XReg) (w : Word) : (t.setX r w).stint = t.stint := by
  unfold Thread.setX; split <;> rfl
@[simp] theorem Thread.setX_joinAt (t : Thread) (r : XReg) (w : Word) : (t.setX r w).joinAt = t.joinAt := by
  unfold Thread.setX; split <;> rfl
@[simp] theorem Thread.setX_ecc (t : Thread) (r : XReg) (w : Word) : (t.setX r w).ecc = t.ecc := by
  unfold Thread.setX; split <;> rfl
@[simp] theorem Thread.setX_awaits (t : Thread) (r : XReg) (w : Word) :
    (t.setX r w).awaits = if r = 0 then t.awaits else t.awaits.filter (fun q => q.2 != r) := by
  unfold Thread.setX; split <;> rfl
@[simp] theorem Thread.setX_rep (t : Thread) (r : XReg) (w : Word) : (t.setX r w).rep = t.rep := by
  unfold Thread.setX; split <;> rfl
@[simp] theorem Thread.setX_chain (t : Thread) (r : XReg) (w : Word) : (t.setX r w).chain = t.chain := by
  unfold Thread.setX; split <;> rfl
@[simp] theorem Thread.setX_arb (t : Thread) (r : XReg) (w : Word) : (t.setX r w).arb = t.arb := by
  unfold Thread.setX; split <;> rfl
@[simp] theorem Thread.setX_act (t : Thread) (r : XReg) (w : Word) : (t.setX r w).act = t.act := by
  unfold Thread.setX; split <;> rfl
@[simp] theorem Thread.setX_sub (t : Thread) (r : XReg) (w : Word) : (t.setX r w).sub = t.sub := by
  unfold Thread.setX; split <;> rfl
@[simp] theorem Thread.setX_msg (t : Thread) (r : XReg) (w : Word) : (t.setX r w).msg = t.msg := by
  unfold Thread.setX; split <;> rfl
@[simp] theorem Thread.setX_count (t : Thread) (r : XReg) (w : Word) : (t.setX r w).count = t.count := by
  unfold Thread.setX; split <;> rfl
@[simp] theorem Thread.setX_ltime (t : Thread) (r : XReg) (w : Word) : (t.setX r w).ltime = t.ltime := by
  unfold Thread.setX; split <;> rfl

@[simp] theorem Thread.setV_x (t : Thread) (r : VReg) (w : VWord) : (t.setV r w).x = t.x := rfl
@[simp] theorem Thread.setV_p (t : Thread) (r : VReg) (w : VWord) : (t.setV r w).p = t.p := rfl
@[simp] theorem Thread.setV_h (t : Thread) (r : VReg) (w : VWord) : (t.setV r w).h = t.h := rfl
@[simp] theorem Thread.setV_pc (t : Thread) (r : VReg) (w : VWord) : (t.setV r w).pc = t.pc := rfl
@[simp] theorem Thread.setV_tcause (t : Thread) (r : VReg) (w : VWord) : (t.setV r w).tcause = t.tcause := rfl
@[simp] theorem Thread.setV_tpc (t : Thread) (r : VReg) (w : VWord) : (t.setV r w).tpc = t.tpc := rfl
@[simp] theorem Thread.setV_tval (t : Thread) (r : VReg) (w : VWord) : (t.setV r w).tval = t.tval := rfl
@[simp] theorem Thread.setV_mode (t : Thread) (r : VReg) (w : VWord) : (t.setV r w).mode = t.mode := rfl
@[simp] theorem Thread.setV_pmode (t : Thread) (r : VReg) (w : VWord) : (t.setV r w).pmode = t.pmode := rfl
@[simp] theorem Thread.setV_intrap (t : Thread) (r : VReg) (w : VWord) : (t.setV r w).intrap = t.intrap := rfl
@[simp] theorem Thread.setV_ctx (t : Thread) (r : VReg) (w : VWord) : (t.setV r w).ctx = t.ctx := rfl
@[simp] theorem Thread.setV_fpmode (t : Thread) (r : VReg) (w : VWord) : (t.setV r w).fpmode = t.fpmode := rfl
@[simp] theorem Thread.setV_fpflags (t : Thread) (r : VReg) (w : VWord) : (t.setV r w).fpflags = t.fpflags := rfl
@[simp] theorem Thread.setV_spillsp (t : Thread) (r : VReg) (w : VWord) : (t.setV r w).spillsp = t.spillsp := rfl
@[simp] theorem Thread.setV_spillbase (t : Thread) (r : VReg) (w : VWord) : (t.setV r w).spillbase = t.spillbase := rfl
@[simp] theorem Thread.setV_spilllim (t : Thread) (r : VReg) (w : VWord) : (t.setV r w).spilllim = t.spilllim := rfl
@[simp] theorem Thread.setV_waitlim (t : Thread) (r : VReg) (w : VWord) : (t.setV r w).waitlim = t.waitlim := rfl
@[simp] theorem Thread.setV_actid (t : Thread) (r : VReg) (w : VWord) : (t.setV r w).actid = t.actid := rfl
@[simp] theorem Thread.setV_run (t : Thread) (r : VReg) (w : VWord) : (t.setV r w).run = t.run := rfl
@[simp] theorem Thread.setV_rank (t : Thread) (r : VReg) (w : VWord) : (t.setV r w).rank = t.rank := rfl
@[simp] theorem Thread.setV_status (t : Thread) (r : VReg) (w : VWord) : (t.setV r w).status = t.status := rfl
@[simp] theorem Thread.setV_wait (t : Thread) (r : VReg) (w : VWord) : (t.setV r w).wait = t.wait := rfl
@[simp] theorem Thread.setV_refused (t : Thread) (r : VReg) (w : VWord) : (t.setV r w).refused = t.refused := rfl
@[simp] theorem Thread.setV_cnt (t : Thread) (r : VReg) (w : VWord) : (t.setV r w).cnt = t.cnt := rfl
@[simp] theorem Thread.setV_pend (t : Thread) (r : VReg) (w : VWord) : (t.setV r w).pend = t.pend := rfl
@[simp] theorem Thread.setV_shadow (t : Thread) (r : VReg) (w : VWord) : (t.setV r w).shadow = t.shadow := rfl
@[simp] theorem Thread.setV_nextCopy (t : Thread) (r : VReg) (w : VWord) : (t.setV r w).nextCopy = t.nextCopy := rfl
@[simp] theorem Thread.setV_copies (t : Thread) (r : VReg) (w : VWord) : (t.setV r w).copies = t.copies := rfl
@[simp] theorem Thread.setV_sendq (t : Thread) (r : VReg) (w : VWord) : (t.setV r w).sendq = t.sendq := rfl
@[simp] theorem Thread.setV_recvq (t : Thread) (r : VReg) (w : VWord) : (t.setV r w).recvq = t.recvq := rfl
@[simp] theorem Thread.setV_amoq (t : Thread) (r : VReg) (w : VWord) : (t.setV r w).amoq = t.amoq := rfl
@[simp] theorem Thread.setV_stOut (t : Thread) (r : VReg) (w : VWord) : (t.setV r w).stOut = t.stOut := rfl
@[simp] theorem Thread.setV_stint (t : Thread) (r : VReg) (w : VWord) : (t.setV r w).stint = t.stint := rfl
@[simp] theorem Thread.setV_joinAt (t : Thread) (r : VReg) (w : VWord) : (t.setV r w).joinAt = t.joinAt := rfl
@[simp] theorem Thread.setV_ecc (t : Thread) (r : VReg) (w : VWord) : (t.setV r w).ecc = t.ecc := rfl
@[simp] theorem Thread.setV_awaits (t : Thread) (r : VReg) (w : VWord) : (t.setV r w).awaits = t.awaits := rfl
@[simp] theorem Thread.setV_rep (t : Thread) (r : VReg) (w : VWord) : (t.setV r w).rep = t.rep := rfl
@[simp] theorem Thread.setV_chain (t : Thread) (r : VReg) (w : VWord) : (t.setV r w).chain = t.chain := rfl
@[simp] theorem Thread.setV_arb (t : Thread) (r : VReg) (w : VWord) : (t.setV r w).arb = t.arb := rfl
@[simp] theorem Thread.setV_act (t : Thread) (r : VReg) (w : VWord) : (t.setV r w).act = t.act := rfl
@[simp] theorem Thread.setV_sub (t : Thread) (r : VReg) (w : VWord) : (t.setV r w).sub = t.sub := rfl
@[simp] theorem Thread.setV_msg (t : Thread) (r : VReg) (w : VWord) : (t.setV r w).msg = t.msg := rfl
@[simp] theorem Thread.setV_count (t : Thread) (r : VReg) (w : VWord) : (t.setV r w).count = t.count := rfl
@[simp] theorem Thread.setV_ltime (t : Thread) (r : VReg) (w : VWord) : (t.setV r w).ltime = t.ltime := rfl

@[simp] theorem Thread.setP_x (t : Thread) (r : PReg) (w : Word) : (t.setP r w).x = t.x := by
  unfold Thread.setP; split <;> rfl
@[simp] theorem Thread.setP_v (t : Thread) (r : PReg) (w : Word) : (t.setP r w).v = t.v := by
  unfold Thread.setP; split <;> rfl
@[simp] theorem Thread.setP_h (t : Thread) (r : PReg) (w : Word) : (t.setP r w).h = t.h := by
  unfold Thread.setP; split <;> rfl
@[simp] theorem Thread.setP_pc (t : Thread) (r : PReg) (w : Word) : (t.setP r w).pc = t.pc := by
  unfold Thread.setP; split <;> rfl
@[simp] theorem Thread.setP_tcause (t : Thread) (r : PReg) (w : Word) : (t.setP r w).tcause = t.tcause := by
  unfold Thread.setP; split <;> rfl
@[simp] theorem Thread.setP_tpc (t : Thread) (r : PReg) (w : Word) : (t.setP r w).tpc = t.tpc := by
  unfold Thread.setP; split <;> rfl
@[simp] theorem Thread.setP_tval (t : Thread) (r : PReg) (w : Word) : (t.setP r w).tval = t.tval := by
  unfold Thread.setP; split <;> rfl
@[simp] theorem Thread.setP_mode (t : Thread) (r : PReg) (w : Word) : (t.setP r w).mode = t.mode := by
  unfold Thread.setP; split <;> rfl
@[simp] theorem Thread.setP_pmode (t : Thread) (r : PReg) (w : Word) : (t.setP r w).pmode = t.pmode := by
  unfold Thread.setP; split <;> rfl
@[simp] theorem Thread.setP_intrap (t : Thread) (r : PReg) (w : Word) : (t.setP r w).intrap = t.intrap := by
  unfold Thread.setP; split <;> rfl
@[simp] theorem Thread.setP_ctx (t : Thread) (r : PReg) (w : Word) : (t.setP r w).ctx = t.ctx := by
  unfold Thread.setP; split <;> rfl
@[simp] theorem Thread.setP_fpmode (t : Thread) (r : PReg) (w : Word) : (t.setP r w).fpmode = t.fpmode := by
  unfold Thread.setP; split <;> rfl
@[simp] theorem Thread.setP_fpflags (t : Thread) (r : PReg) (w : Word) : (t.setP r w).fpflags = t.fpflags := by
  unfold Thread.setP; split <;> rfl
@[simp] theorem Thread.setP_spillsp (t : Thread) (r : PReg) (w : Word) : (t.setP r w).spillsp = t.spillsp := by
  unfold Thread.setP; split <;> rfl
@[simp] theorem Thread.setP_spillbase (t : Thread) (r : PReg) (w : Word) : (t.setP r w).spillbase = t.spillbase := by
  unfold Thread.setP; split <;> rfl
@[simp] theorem Thread.setP_spilllim (t : Thread) (r : PReg) (w : Word) : (t.setP r w).spilllim = t.spilllim := by
  unfold Thread.setP; split <;> rfl
@[simp] theorem Thread.setP_waitlim (t : Thread) (r : PReg) (w : Word) : (t.setP r w).waitlim = t.waitlim := by
  unfold Thread.setP; split <;> rfl
@[simp] theorem Thread.setP_actid (t : Thread) (r : PReg) (w : Word) : (t.setP r w).actid = t.actid := by
  unfold Thread.setP; split <;> rfl
@[simp] theorem Thread.setP_run (t : Thread) (r : PReg) (w : Word) : (t.setP r w).run = t.run := by
  unfold Thread.setP; split <;> rfl
@[simp] theorem Thread.setP_rank (t : Thread) (r : PReg) (w : Word) : (t.setP r w).rank = t.rank := by
  unfold Thread.setP; split <;> rfl
@[simp] theorem Thread.setP_status (t : Thread) (r : PReg) (w : Word) : (t.setP r w).status = t.status := by
  unfold Thread.setP; split <;> rfl
@[simp] theorem Thread.setP_wait (t : Thread) (r : PReg) (w : Word) : (t.setP r w).wait = t.wait := by
  unfold Thread.setP; split <;> rfl
@[simp] theorem Thread.setP_refused (t : Thread) (r : PReg) (w : Word) : (t.setP r w).refused = t.refused := by
  unfold Thread.setP; split <;> rfl
@[simp] theorem Thread.setP_cnt (t : Thread) (r : PReg) (w : Word) : (t.setP r w).cnt = t.cnt := by
  unfold Thread.setP; split <;> rfl
@[simp] theorem Thread.setP_pend (t : Thread) (r : PReg) (w : Word) : (t.setP r w).pend = t.pend := by
  unfold Thread.setP; split <;> rfl
@[simp] theorem Thread.setP_shadow (t : Thread) (r : PReg) (w : Word) : (t.setP r w).shadow = t.shadow := by
  unfold Thread.setP; split <;> rfl
@[simp] theorem Thread.setP_nextCopy (t : Thread) (r : PReg) (w : Word) : (t.setP r w).nextCopy = t.nextCopy := by
  unfold Thread.setP; split <;> rfl
@[simp] theorem Thread.setP_copies (t : Thread) (r : PReg) (w : Word) : (t.setP r w).copies = t.copies := by
  unfold Thread.setP; split <;> rfl
@[simp] theorem Thread.setP_sendq (t : Thread) (r : PReg) (w : Word) : (t.setP r w).sendq = t.sendq := by
  unfold Thread.setP; split <;> rfl
@[simp] theorem Thread.setP_recvq (t : Thread) (r : PReg) (w : Word) : (t.setP r w).recvq = t.recvq := by
  unfold Thread.setP; split <;> rfl
@[simp] theorem Thread.setP_amoq (t : Thread) (r : PReg) (w : Word) : (t.setP r w).amoq = t.amoq := by
  unfold Thread.setP; split <;> rfl
@[simp] theorem Thread.setP_stOut (t : Thread) (r : PReg) (w : Word) : (t.setP r w).stOut = t.stOut := by
  unfold Thread.setP; split <;> rfl
@[simp] theorem Thread.setP_stint (t : Thread) (r : PReg) (w : Word) : (t.setP r w).stint = t.stint := by
  unfold Thread.setP; split <;> rfl
@[simp] theorem Thread.setP_joinAt (t : Thread) (r : PReg) (w : Word) : (t.setP r w).joinAt = t.joinAt := by
  unfold Thread.setP; split <;> rfl
@[simp] theorem Thread.setP_ecc (t : Thread) (r : PReg) (w : Word) : (t.setP r w).ecc = t.ecc := by
  unfold Thread.setP; split <;> rfl
@[simp] theorem Thread.setP_awaits (t : Thread) (r : PReg) (w : Word) : (t.setP r w).awaits = t.awaits := by
  unfold Thread.setP; split <;> rfl
@[simp] theorem Thread.setP_rep (t : Thread) (r : PReg) (w : Word) : (t.setP r w).rep = t.rep := by
  unfold Thread.setP; split <;> rfl
@[simp] theorem Thread.setP_chain (t : Thread) (r : PReg) (w : Word) : (t.setP r w).chain = t.chain := by
  unfold Thread.setP; split <;> rfl
@[simp] theorem Thread.setP_arb (t : Thread) (r : PReg) (w : Word) : (t.setP r w).arb = t.arb := by
  unfold Thread.setP; split <;> rfl
@[simp] theorem Thread.setP_act (t : Thread) (r : PReg) (w : Word) : (t.setP r w).act = t.act := by
  unfold Thread.setP; split <;> rfl
@[simp] theorem Thread.setP_sub (t : Thread) (r : PReg) (w : Word) : (t.setP r w).sub = t.sub := by
  unfold Thread.setP; split <;> rfl
@[simp] theorem Thread.setP_msg (t : Thread) (r : PReg) (w : Word) : (t.setP r w).msg = t.msg := by
  unfold Thread.setP; split <;> rfl
@[simp] theorem Thread.setP_count (t : Thread) (r : PReg) (w : Word) : (t.setP r w).count = t.count := by
  unfold Thread.setP; split <;> rfl
@[simp] theorem Thread.setP_ltime (t : Thread) (r : PReg) (w : Word) : (t.setP r w).ltime = t.ltime := by
  unfold Thread.setP; split <;> rfl

@[simp] theorem Thread.setH_x (t : Thread) (r : HReg) (w : HWord) : (t.setH r w).x = t.x := rfl
@[simp] theorem Thread.setH_v (t : Thread) (r : HReg) (w : HWord) : (t.setH r w).v = t.v := rfl
@[simp] theorem Thread.setH_p (t : Thread) (r : HReg) (w : HWord) : (t.setH r w).p = t.p := rfl
@[simp] theorem Thread.setH_pc (t : Thread) (r : HReg) (w : HWord) : (t.setH r w).pc = t.pc := rfl
@[simp] theorem Thread.setH_tcause (t : Thread) (r : HReg) (w : HWord) : (t.setH r w).tcause = t.tcause := rfl
@[simp] theorem Thread.setH_tpc (t : Thread) (r : HReg) (w : HWord) : (t.setH r w).tpc = t.tpc := rfl
@[simp] theorem Thread.setH_tval (t : Thread) (r : HReg) (w : HWord) : (t.setH r w).tval = t.tval := rfl
@[simp] theorem Thread.setH_mode (t : Thread) (r : HReg) (w : HWord) : (t.setH r w).mode = t.mode := rfl
@[simp] theorem Thread.setH_pmode (t : Thread) (r : HReg) (w : HWord) : (t.setH r w).pmode = t.pmode := rfl
@[simp] theorem Thread.setH_intrap (t : Thread) (r : HReg) (w : HWord) : (t.setH r w).intrap = t.intrap := rfl
@[simp] theorem Thread.setH_ctx (t : Thread) (r : HReg) (w : HWord) : (t.setH r w).ctx = t.ctx := rfl
@[simp] theorem Thread.setH_fpmode (t : Thread) (r : HReg) (w : HWord) : (t.setH r w).fpmode = t.fpmode := rfl
@[simp] theorem Thread.setH_fpflags (t : Thread) (r : HReg) (w : HWord) : (t.setH r w).fpflags = t.fpflags := rfl
@[simp] theorem Thread.setH_spillsp (t : Thread) (r : HReg) (w : HWord) : (t.setH r w).spillsp = t.spillsp := rfl
@[simp] theorem Thread.setH_spillbase (t : Thread) (r : HReg) (w : HWord) : (t.setH r w).spillbase = t.spillbase := rfl
@[simp] theorem Thread.setH_spilllim (t : Thread) (r : HReg) (w : HWord) : (t.setH r w).spilllim = t.spilllim := rfl
@[simp] theorem Thread.setH_waitlim (t : Thread) (r : HReg) (w : HWord) : (t.setH r w).waitlim = t.waitlim := rfl
@[simp] theorem Thread.setH_actid (t : Thread) (r : HReg) (w : HWord) : (t.setH r w).actid = t.actid := rfl
@[simp] theorem Thread.setH_run (t : Thread) (r : HReg) (w : HWord) : (t.setH r w).run = t.run := rfl
@[simp] theorem Thread.setH_rank (t : Thread) (r : HReg) (w : HWord) : (t.setH r w).rank = t.rank := rfl
@[simp] theorem Thread.setH_status (t : Thread) (r : HReg) (w : HWord) : (t.setH r w).status = t.status := rfl
@[simp] theorem Thread.setH_wait (t : Thread) (r : HReg) (w : HWord) : (t.setH r w).wait = t.wait := rfl
@[simp] theorem Thread.setH_refused (t : Thread) (r : HReg) (w : HWord) : (t.setH r w).refused = t.refused := rfl
@[simp] theorem Thread.setH_cnt (t : Thread) (r : HReg) (w : HWord) : (t.setH r w).cnt = t.cnt := rfl
@[simp] theorem Thread.setH_pend (t : Thread) (r : HReg) (w : HWord) : (t.setH r w).pend = t.pend := rfl
@[simp] theorem Thread.setH_shadow (t : Thread) (r : HReg) (w : HWord) : (t.setH r w).shadow = t.shadow := rfl
@[simp] theorem Thread.setH_nextCopy (t : Thread) (r : HReg) (w : HWord) : (t.setH r w).nextCopy = t.nextCopy := rfl
@[simp] theorem Thread.setH_copies (t : Thread) (r : HReg) (w : HWord) : (t.setH r w).copies = t.copies := rfl
@[simp] theorem Thread.setH_sendq (t : Thread) (r : HReg) (w : HWord) : (t.setH r w).sendq = t.sendq := rfl
@[simp] theorem Thread.setH_recvq (t : Thread) (r : HReg) (w : HWord) : (t.setH r w).recvq = t.recvq := rfl
@[simp] theorem Thread.setH_amoq (t : Thread) (r : HReg) (w : HWord) : (t.setH r w).amoq = t.amoq := rfl
@[simp] theorem Thread.setH_stOut (t : Thread) (r : HReg) (w : HWord) : (t.setH r w).stOut = t.stOut := rfl
@[simp] theorem Thread.setH_stint (t : Thread) (r : HReg) (w : HWord) : (t.setH r w).stint = t.stint := rfl
@[simp] theorem Thread.setH_joinAt (t : Thread) (r : HReg) (w : HWord) : (t.setH r w).joinAt = t.joinAt := rfl
@[simp] theorem Thread.setH_ecc (t : Thread) (r : HReg) (w : HWord) : (t.setH r w).ecc = t.ecc := rfl
@[simp] theorem Thread.setH_awaits (t : Thread) (r : HReg) (w : HWord) : (t.setH r w).awaits = t.awaits := rfl
@[simp] theorem Thread.setH_rep (t : Thread) (r : HReg) (w : HWord) : (t.setH r w).rep = t.rep := rfl
@[simp] theorem Thread.setH_chain (t : Thread) (r : HReg) (w : HWord) : (t.setH r w).chain = t.chain := rfl
@[simp] theorem Thread.setH_arb (t : Thread) (r : HReg) (w : HWord) : (t.setH r w).arb = t.arb := rfl
@[simp] theorem Thread.setH_act (t : Thread) (r : HReg) (w : HWord) : (t.setH r w).act = t.act := rfl
@[simp] theorem Thread.setH_sub (t : Thread) (r : HReg) (w : HWord) : (t.setH r w).sub = t.sub := rfl
@[simp] theorem Thread.setH_msg (t : Thread) (r : HReg) (w : HWord) : (t.setH r w).msg = t.msg := rfl
@[simp] theorem Thread.setH_count (t : Thread) (r : HReg) (w : HWord) : (t.setH r w).count = t.count := rfl
@[simp] theorem Thread.setH_ltime (t : Thread) (r : HReg) (w : HWord) : (t.setH r w).ltime = t.ltime := rfl

@[simp] theorem Thread.orFlags_x (t : Thread) (g : Flags) : (t.orFlags g).x = t.x := rfl
@[simp] theorem Thread.orFlags_v (t : Thread) (g : Flags) : (t.orFlags g).v = t.v := rfl
@[simp] theorem Thread.orFlags_p (t : Thread) (g : Flags) : (t.orFlags g).p = t.p := rfl
@[simp] theorem Thread.orFlags_h (t : Thread) (g : Flags) : (t.orFlags g).h = t.h := rfl
@[simp] theorem Thread.orFlags_pc (t : Thread) (g : Flags) : (t.orFlags g).pc = t.pc := rfl
@[simp] theorem Thread.orFlags_tcause (t : Thread) (g : Flags) : (t.orFlags g).tcause = t.tcause := rfl
@[simp] theorem Thread.orFlags_tpc (t : Thread) (g : Flags) : (t.orFlags g).tpc = t.tpc := rfl
@[simp] theorem Thread.orFlags_tval (t : Thread) (g : Flags) : (t.orFlags g).tval = t.tval := rfl
@[simp] theorem Thread.orFlags_mode (t : Thread) (g : Flags) : (t.orFlags g).mode = t.mode := rfl
@[simp] theorem Thread.orFlags_pmode (t : Thread) (g : Flags) : (t.orFlags g).pmode = t.pmode := rfl
@[simp] theorem Thread.orFlags_intrap (t : Thread) (g : Flags) : (t.orFlags g).intrap = t.intrap := rfl
@[simp] theorem Thread.orFlags_ctx (t : Thread) (g : Flags) : (t.orFlags g).ctx = t.ctx := rfl
@[simp] theorem Thread.orFlags_fpmode (t : Thread) (g : Flags) : (t.orFlags g).fpmode = t.fpmode := rfl
@[simp] theorem Thread.orFlags_spillsp (t : Thread) (g : Flags) : (t.orFlags g).spillsp = t.spillsp := rfl
@[simp] theorem Thread.orFlags_spillbase (t : Thread) (g : Flags) : (t.orFlags g).spillbase = t.spillbase := rfl
@[simp] theorem Thread.orFlags_spilllim (t : Thread) (g : Flags) : (t.orFlags g).spilllim = t.spilllim := rfl
@[simp] theorem Thread.orFlags_waitlim (t : Thread) (g : Flags) : (t.orFlags g).waitlim = t.waitlim := rfl
@[simp] theorem Thread.orFlags_actid (t : Thread) (g : Flags) : (t.orFlags g).actid = t.actid := rfl
@[simp] theorem Thread.orFlags_run (t : Thread) (g : Flags) : (t.orFlags g).run = t.run := rfl
@[simp] theorem Thread.orFlags_rank (t : Thread) (g : Flags) : (t.orFlags g).rank = t.rank := rfl
@[simp] theorem Thread.orFlags_status (t : Thread) (g : Flags) : (t.orFlags g).status = t.status := rfl
@[simp] theorem Thread.orFlags_wait (t : Thread) (g : Flags) : (t.orFlags g).wait = t.wait := rfl
@[simp] theorem Thread.orFlags_refused (t : Thread) (g : Flags) : (t.orFlags g).refused = t.refused := rfl
@[simp] theorem Thread.orFlags_cnt (t : Thread) (g : Flags) : (t.orFlags g).cnt = t.cnt := rfl
@[simp] theorem Thread.orFlags_pend (t : Thread) (g : Flags) : (t.orFlags g).pend = t.pend := rfl
@[simp] theorem Thread.orFlags_shadow (t : Thread) (g : Flags) : (t.orFlags g).shadow = t.shadow := rfl
@[simp] theorem Thread.orFlags_nextCopy (t : Thread) (g : Flags) : (t.orFlags g).nextCopy = t.nextCopy := rfl
@[simp] theorem Thread.orFlags_copies (t : Thread) (g : Flags) : (t.orFlags g).copies = t.copies := rfl
@[simp] theorem Thread.orFlags_sendq (t : Thread) (g : Flags) : (t.orFlags g).sendq = t.sendq := rfl
@[simp] theorem Thread.orFlags_recvq (t : Thread) (g : Flags) : (t.orFlags g).recvq = t.recvq := rfl
@[simp] theorem Thread.orFlags_amoq (t : Thread) (g : Flags) : (t.orFlags g).amoq = t.amoq := rfl
@[simp] theorem Thread.orFlags_stOut (t : Thread) (g : Flags) : (t.orFlags g).stOut = t.stOut := rfl
@[simp] theorem Thread.orFlags_stint (t : Thread) (g : Flags) : (t.orFlags g).stint = t.stint := rfl
@[simp] theorem Thread.orFlags_joinAt (t : Thread) (g : Flags) : (t.orFlags g).joinAt = t.joinAt := rfl
@[simp] theorem Thread.orFlags_ecc (t : Thread) (g : Flags) : (t.orFlags g).ecc = t.ecc := rfl
@[simp] theorem Thread.orFlags_awaits (t : Thread) (g : Flags) : (t.orFlags g).awaits = t.awaits := rfl
@[simp] theorem Thread.orFlags_rep (t : Thread) (g : Flags) : (t.orFlags g).rep = t.rep := rfl
@[simp] theorem Thread.orFlags_chain (t : Thread) (g : Flags) : (t.orFlags g).chain = t.chain := rfl
@[simp] theorem Thread.orFlags_arb (t : Thread) (g : Flags) : (t.orFlags g).arb = t.arb := rfl
@[simp] theorem Thread.orFlags_act (t : Thread) (g : Flags) : (t.orFlags g).act = t.act := rfl
@[simp] theorem Thread.orFlags_sub (t : Thread) (g : Flags) : (t.orFlags g).sub = t.sub := rfl
@[simp] theorem Thread.orFlags_msg (t : Thread) (g : Flags) : (t.orFlags g).msg = t.msg := rfl
@[simp] theorem Thread.orFlags_count (t : Thread) (g : Flags) : (t.orFlags g).count = t.count := rfl
@[simp] theorem Thread.orFlags_ltime (t : Thread) (g : Flags) : (t.orFlags g).ltime = t.ltime := rfl

@[simp] theorem Thread.goto_x (t : Thread) (w : Word) : (t.goto w).x = t.x := rfl
@[simp] theorem Thread.goto_v (t : Thread) (w : Word) : (t.goto w).v = t.v := rfl
@[simp] theorem Thread.goto_p (t : Thread) (w : Word) : (t.goto w).p = t.p := rfl
@[simp] theorem Thread.goto_h (t : Thread) (w : Word) : (t.goto w).h = t.h := rfl
@[simp] theorem Thread.goto_tcause (t : Thread) (w : Word) : (t.goto w).tcause = t.tcause := rfl
@[simp] theorem Thread.goto_tpc (t : Thread) (w : Word) : (t.goto w).tpc = t.tpc := rfl
@[simp] theorem Thread.goto_tval (t : Thread) (w : Word) : (t.goto w).tval = t.tval := rfl
@[simp] theorem Thread.goto_mode (t : Thread) (w : Word) : (t.goto w).mode = t.mode := rfl
@[simp] theorem Thread.goto_pmode (t : Thread) (w : Word) : (t.goto w).pmode = t.pmode := rfl
@[simp] theorem Thread.goto_intrap (t : Thread) (w : Word) : (t.goto w).intrap = t.intrap := rfl
@[simp] theorem Thread.goto_ctx (t : Thread) (w : Word) : (t.goto w).ctx = t.ctx := rfl
@[simp] theorem Thread.goto_fpmode (t : Thread) (w : Word) : (t.goto w).fpmode = t.fpmode := rfl
@[simp] theorem Thread.goto_fpflags (t : Thread) (w : Word) : (t.goto w).fpflags = t.fpflags := rfl
@[simp] theorem Thread.goto_spillsp (t : Thread) (w : Word) : (t.goto w).spillsp = t.spillsp := rfl
@[simp] theorem Thread.goto_spillbase (t : Thread) (w : Word) : (t.goto w).spillbase = t.spillbase := rfl
@[simp] theorem Thread.goto_spilllim (t : Thread) (w : Word) : (t.goto w).spilllim = t.spilllim := rfl
@[simp] theorem Thread.goto_waitlim (t : Thread) (w : Word) : (t.goto w).waitlim = t.waitlim := rfl
@[simp] theorem Thread.goto_actid (t : Thread) (w : Word) : (t.goto w).actid = t.actid := rfl
@[simp] theorem Thread.goto_run (t : Thread) (w : Word) : (t.goto w).run = t.run := rfl
@[simp] theorem Thread.goto_rank (t : Thread) (w : Word) : (t.goto w).rank = t.rank := rfl
@[simp] theorem Thread.goto_status (t : Thread) (w : Word) : (t.goto w).status = t.status := rfl
@[simp] theorem Thread.goto_refused (t : Thread) (w : Word) : (t.goto w).refused = t.refused := rfl
@[simp] theorem Thread.goto_cnt (t : Thread) (w : Word) : (t.goto w).cnt = t.cnt := rfl
@[simp] theorem Thread.goto_pend (t : Thread) (w : Word) : (t.goto w).pend = t.pend := rfl
@[simp] theorem Thread.goto_shadow (t : Thread) (w : Word) : (t.goto w).shadow = t.shadow := rfl
@[simp] theorem Thread.goto_nextCopy (t : Thread) (w : Word) : (t.goto w).nextCopy = t.nextCopy := rfl
@[simp] theorem Thread.goto_copies (t : Thread) (w : Word) : (t.goto w).copies = t.copies := rfl
@[simp] theorem Thread.goto_sendq (t : Thread) (w : Word) : (t.goto w).sendq = t.sendq := rfl
@[simp] theorem Thread.goto_recvq (t : Thread) (w : Word) : (t.goto w).recvq = t.recvq := rfl
@[simp] theorem Thread.goto_amoq (t : Thread) (w : Word) : (t.goto w).amoq = t.amoq := rfl
@[simp] theorem Thread.goto_stOut (t : Thread) (w : Word) : (t.goto w).stOut = t.stOut := rfl
@[simp] theorem Thread.goto_stint (t : Thread) (w : Word) : (t.goto w).stint = t.stint := rfl
@[simp] theorem Thread.goto_joinAt (t : Thread) (w : Word) : (t.goto w).joinAt = t.joinAt := rfl
@[simp] theorem Thread.goto_ecc (t : Thread) (w : Word) : (t.goto w).ecc = t.ecc := rfl
@[simp] theorem Thread.goto_awaits (t : Thread) (w : Word) : (t.goto w).awaits = t.awaits := rfl
@[simp] theorem Thread.goto_rep (t : Thread) (w : Word) : (t.goto w).rep = t.rep := rfl
@[simp] theorem Thread.goto_chain (t : Thread) (w : Word) : (t.goto w).chain = t.chain := rfl
@[simp] theorem Thread.goto_arb (t : Thread) (w : Word) : (t.goto w).arb = t.arb := rfl
@[simp] theorem Thread.goto_act (t : Thread) (w : Word) : (t.goto w).act = t.act := rfl
@[simp] theorem Thread.goto_sub (t : Thread) (w : Word) : (t.goto w).sub = t.sub := rfl
@[simp] theorem Thread.goto_msg (t : Thread) (w : Word) : (t.goto w).msg = t.msg := rfl
@[simp] theorem Thread.goto_ltime (t : Thread) (w : Word) : (t.goto w).ltime = t.ltime := rfl

@[simp] theorem Thread.next_x (t : Thread)  : (t.next ).x = t.x := by
  unfold Thread.next; dsimp only; (repeat' split) <;> rfl
@[simp] theorem Thread.next_v (t : Thread)  : (t.next ).v = t.v := by
  unfold Thread.next; dsimp only; (repeat' split) <;> rfl
@[simp] theorem Thread.next_p (t : Thread)  : (t.next ).p = t.p := by
  unfold Thread.next; dsimp only; (repeat' split) <;> rfl
@[simp] theorem Thread.next_h (t : Thread)  : (t.next ).h = t.h := by
  unfold Thread.next; dsimp only; (repeat' split) <;> rfl
@[simp] theorem Thread.next_tcause (t : Thread)  : (t.next ).tcause = t.tcause := by
  unfold Thread.next; dsimp only; (repeat' split) <;> rfl
@[simp] theorem Thread.next_tpc (t : Thread)  : (t.next ).tpc = t.tpc := by
  unfold Thread.next; dsimp only; (repeat' split) <;> rfl
@[simp] theorem Thread.next_tval (t : Thread)  : (t.next ).tval = t.tval := by
  unfold Thread.next; dsimp only; (repeat' split) <;> rfl
@[simp] theorem Thread.next_mode (t : Thread)  : (t.next ).mode = t.mode := by
  unfold Thread.next; dsimp only; (repeat' split) <;> rfl
@[simp] theorem Thread.next_pmode (t : Thread)  : (t.next ).pmode = t.pmode := by
  unfold Thread.next; dsimp only; (repeat' split) <;> rfl
@[simp] theorem Thread.next_intrap (t : Thread)  : (t.next ).intrap = t.intrap := by
  unfold Thread.next; dsimp only; (repeat' split) <;> rfl
@[simp] theorem Thread.next_ctx (t : Thread)  : (t.next ).ctx = t.ctx := by
  unfold Thread.next; dsimp only; (repeat' split) <;> rfl
@[simp] theorem Thread.next_fpmode (t : Thread)  : (t.next ).fpmode = t.fpmode := by
  unfold Thread.next; dsimp only; (repeat' split) <;> rfl
@[simp] theorem Thread.next_fpflags (t : Thread)  : (t.next ).fpflags = t.fpflags := by
  unfold Thread.next; dsimp only; (repeat' split) <;> rfl
@[simp] theorem Thread.next_spillsp (t : Thread)  : (t.next ).spillsp = t.spillsp := by
  unfold Thread.next; dsimp only; (repeat' split) <;> rfl
@[simp] theorem Thread.next_spillbase (t : Thread)  : (t.next ).spillbase = t.spillbase := by
  unfold Thread.next; dsimp only; (repeat' split) <;> rfl
@[simp] theorem Thread.next_spilllim (t : Thread)  : (t.next ).spilllim = t.spilllim := by
  unfold Thread.next; dsimp only; (repeat' split) <;> rfl
@[simp] theorem Thread.next_waitlim (t : Thread)  : (t.next ).waitlim = t.waitlim := by
  unfold Thread.next; dsimp only; (repeat' split) <;> rfl
@[simp] theorem Thread.next_actid (t : Thread)  : (t.next ).actid = t.actid := by
  unfold Thread.next; dsimp only; (repeat' split) <;> rfl
@[simp] theorem Thread.next_run (t : Thread)  : (t.next ).run = t.run := by
  unfold Thread.next; dsimp only; (repeat' split) <;> rfl
@[simp] theorem Thread.next_rank (t : Thread)  : (t.next ).rank = t.rank := by
  unfold Thread.next; dsimp only; (repeat' split) <;> rfl
@[simp] theorem Thread.next_status (t : Thread)  : (t.next ).status = t.status := by
  unfold Thread.next; dsimp only; (repeat' split) <;> rfl
@[simp] theorem Thread.next_refused (t : Thread)  : (t.next ).refused = t.refused := by
  unfold Thread.next; dsimp only; (repeat' split) <;> rfl
@[simp] theorem Thread.next_cnt (t : Thread)  : (t.next ).cnt = t.cnt := by
  unfold Thread.next; dsimp only; (repeat' split) <;> rfl
@[simp] theorem Thread.next_pend (t : Thread)  : (t.next ).pend = t.pend := by
  unfold Thread.next; dsimp only; (repeat' split) <;> rfl
@[simp] theorem Thread.next_shadow (t : Thread)  : (t.next ).shadow = t.shadow := by
  unfold Thread.next; dsimp only; (repeat' split) <;> rfl
@[simp] theorem Thread.next_nextCopy (t : Thread)  : (t.next ).nextCopy = t.nextCopy := by
  unfold Thread.next; dsimp only; (repeat' split) <;> rfl
@[simp] theorem Thread.next_copies (t : Thread)  : (t.next ).copies = t.copies := by
  unfold Thread.next; dsimp only; (repeat' split) <;> rfl
@[simp] theorem Thread.next_sendq (t : Thread)  : (t.next ).sendq = t.sendq := by
  unfold Thread.next; dsimp only; (repeat' split) <;> rfl
@[simp] theorem Thread.next_recvq (t : Thread)  : (t.next ).recvq = t.recvq := by
  unfold Thread.next; dsimp only; (repeat' split) <;> rfl
@[simp] theorem Thread.next_amoq (t : Thread)  : (t.next ).amoq = t.amoq := by
  unfold Thread.next; dsimp only; (repeat' split) <;> rfl
@[simp] theorem Thread.next_stOut (t : Thread)  : (t.next ).stOut = t.stOut := by
  unfold Thread.next; dsimp only; (repeat' split) <;> rfl
@[simp] theorem Thread.next_stint (t : Thread)  : (t.next ).stint = t.stint := by
  unfold Thread.next; dsimp only; (repeat' split) <;> rfl
@[simp] theorem Thread.next_joinAt (t : Thread)  : (t.next ).joinAt = t.joinAt := by
  unfold Thread.next; dsimp only; (repeat' split) <;> rfl
@[simp] theorem Thread.next_ecc (t : Thread)  : (t.next ).ecc = t.ecc := by
  unfold Thread.next; dsimp only; (repeat' split) <;> rfl
@[simp] theorem Thread.next_awaits (t : Thread)  : (t.next ).awaits = t.awaits := by
  unfold Thread.next; dsimp only; (repeat' split) <;> rfl
@[simp] theorem Thread.next_chain (t : Thread)  : (t.next ).chain = t.chain := by
  unfold Thread.next; dsimp only; (repeat' split) <;> rfl
@[simp] theorem Thread.next_arb (t : Thread)  : (t.next ).arb = t.arb := by
  unfold Thread.next; dsimp only; (repeat' split) <;> rfl
@[simp] theorem Thread.next_act (t : Thread)  : (t.next ).act = t.act := by
  unfold Thread.next; dsimp only; (repeat' split) <;> rfl
@[simp] theorem Thread.next_sub (t : Thread)  : (t.next ).sub = t.sub := by
  unfold Thread.next; dsimp only; (repeat' split) <;> rfl
@[simp] theorem Thread.next_msg (t : Thread)  : (t.next ).msg = t.msg := by
  unfold Thread.next; dsimp only; (repeat' split) <;> rfl
@[simp] theorem Thread.next_ltime (t : Thread)  : (t.next ).ltime = t.ltime := by
  unfold Thread.next; dsimp only; (repeat' split) <;> rfl

@[simp] theorem Thread.trapReturn_x (t : Thread)  : (t.trapReturn ).x = t.x := rfl
@[simp] theorem Thread.trapReturn_v (t : Thread)  : (t.trapReturn ).v = t.v := rfl
@[simp] theorem Thread.trapReturn_p (t : Thread)  : (t.trapReturn ).p = t.p := rfl
@[simp] theorem Thread.trapReturn_h (t : Thread)  : (t.trapReturn ).h = t.h := rfl
@[simp] theorem Thread.trapReturn_tcause (t : Thread)  : (t.trapReturn ).tcause = t.tcause := rfl
@[simp] theorem Thread.trapReturn_tpc (t : Thread)  : (t.trapReturn ).tpc = t.tpc := rfl
@[simp] theorem Thread.trapReturn_tval (t : Thread)  : (t.trapReturn ).tval = t.tval := rfl
@[simp] theorem Thread.trapReturn_pmode (t : Thread)  : (t.trapReturn ).pmode = t.pmode := rfl
@[simp] theorem Thread.trapReturn_ctx (t : Thread)  : (t.trapReturn ).ctx = t.ctx := rfl
@[simp] theorem Thread.trapReturn_fpmode (t : Thread)  : (t.trapReturn ).fpmode = t.fpmode := rfl
@[simp] theorem Thread.trapReturn_fpflags (t : Thread)  : (t.trapReturn ).fpflags = t.fpflags := rfl
@[simp] theorem Thread.trapReturn_spillsp (t : Thread)  : (t.trapReturn ).spillsp = t.spillsp := rfl
@[simp] theorem Thread.trapReturn_spillbase (t : Thread)  : (t.trapReturn ).spillbase = t.spillbase := rfl
@[simp] theorem Thread.trapReturn_spilllim (t : Thread)  : (t.trapReturn ).spilllim = t.spilllim := rfl
@[simp] theorem Thread.trapReturn_waitlim (t : Thread)  : (t.trapReturn ).waitlim = t.waitlim := rfl
@[simp] theorem Thread.trapReturn_actid (t : Thread)  : (t.trapReturn ).actid = t.actid := rfl
@[simp] theorem Thread.trapReturn_run (t : Thread)  : (t.trapReturn ).run = t.run := rfl
@[simp] theorem Thread.trapReturn_rank (t : Thread)  : (t.trapReturn ).rank = t.rank := rfl
@[simp] theorem Thread.trapReturn_status (t : Thread)  : (t.trapReturn ).status = t.status := rfl
@[simp] theorem Thread.trapReturn_refused (t : Thread)  : (t.trapReturn ).refused = t.refused := rfl
@[simp] theorem Thread.trapReturn_cnt (t : Thread)  : (t.trapReturn ).cnt = t.cnt := rfl
@[simp] theorem Thread.trapReturn_pend (t : Thread)  : (t.trapReturn ).pend = t.pend := rfl
@[simp] theorem Thread.trapReturn_shadow (t : Thread)  : (t.trapReturn ).shadow = t.shadow := rfl
@[simp] theorem Thread.trapReturn_nextCopy (t : Thread)  : (t.trapReturn ).nextCopy = t.nextCopy := rfl
@[simp] theorem Thread.trapReturn_copies (t : Thread)  : (t.trapReturn ).copies = t.copies := rfl
@[simp] theorem Thread.trapReturn_sendq (t : Thread)  : (t.trapReturn ).sendq = t.sendq := rfl
@[simp] theorem Thread.trapReturn_recvq (t : Thread)  : (t.trapReturn ).recvq = t.recvq := rfl
@[simp] theorem Thread.trapReturn_amoq (t : Thread)  : (t.trapReturn ).amoq = t.amoq := rfl
@[simp] theorem Thread.trapReturn_stOut (t : Thread)  : (t.trapReturn ).stOut = t.stOut := rfl
@[simp] theorem Thread.trapReturn_stint (t : Thread)  : (t.trapReturn ).stint = t.stint := rfl
@[simp] theorem Thread.trapReturn_joinAt (t : Thread)  : (t.trapReturn ).joinAt = t.joinAt := rfl
@[simp] theorem Thread.trapReturn_ecc (t : Thread)  : (t.trapReturn ).ecc = t.ecc := rfl
@[simp] theorem Thread.trapReturn_awaits (t : Thread)  : (t.trapReturn ).awaits = t.awaits := rfl
@[simp] theorem Thread.trapReturn_rep (t : Thread)  : (t.trapReturn ).rep = t.rep := rfl
@[simp] theorem Thread.trapReturn_chain (t : Thread)  : (t.trapReturn ).chain = t.chain := rfl
@[simp] theorem Thread.trapReturn_arb (t : Thread)  : (t.trapReturn ).arb = t.arb := rfl
@[simp] theorem Thread.trapReturn_act (t : Thread)  : (t.trapReturn ).act = t.act := rfl
@[simp] theorem Thread.trapReturn_sub (t : Thread)  : (t.trapReturn ).sub = t.sub := rfl
@[simp] theorem Thread.trapReturn_msg (t : Thread)  : (t.trapReturn ).msg = t.msg := rfl
@[simp] theorem Thread.trapReturn_ltime (t : Thread)  : (t.trapReturn ).ltime = t.ltime := rfl

@[simp] theorem Thread.enterVector_x (t : Thread) (c : Nat) (v w : Word) (m : Bool) : (t.enterVector c v w m).x = t.x := rfl
@[simp] theorem Thread.enterVector_v (t : Thread) (c : Nat) (v w : Word) (m : Bool) : (t.enterVector c v w m).v = t.v := rfl
@[simp] theorem Thread.enterVector_p (t : Thread) (c : Nat) (v w : Word) (m : Bool) : (t.enterVector c v w m).p = t.p := rfl
@[simp] theorem Thread.enterVector_h (t : Thread) (c : Nat) (v w : Word) (m : Bool) : (t.enterVector c v w m).h = t.h := rfl
@[simp] theorem Thread.enterVector_ctx (t : Thread) (c : Nat) (v w : Word) (m : Bool) : (t.enterVector c v w m).ctx = t.ctx := rfl
@[simp] theorem Thread.enterVector_fpmode (t : Thread) (c : Nat) (v w : Word) (m : Bool) : (t.enterVector c v w m).fpmode = t.fpmode := rfl
@[simp] theorem Thread.enterVector_fpflags (t : Thread) (c : Nat) (v w : Word) (m : Bool) : (t.enterVector c v w m).fpflags = t.fpflags := rfl
@[simp] theorem Thread.enterVector_spillsp (t : Thread) (c : Nat) (v w : Word) (m : Bool) : (t.enterVector c v w m).spillsp = t.spillsp := rfl
@[simp] theorem Thread.enterVector_spillbase (t : Thread) (c : Nat) (v w : Word) (m : Bool) : (t.enterVector c v w m).spillbase = t.spillbase := rfl
@[simp] theorem Thread.enterVector_spilllim (t : Thread) (c : Nat) (v w : Word) (m : Bool) : (t.enterVector c v w m).spilllim = t.spilllim := rfl
@[simp] theorem Thread.enterVector_waitlim (t : Thread) (c : Nat) (v w : Word) (m : Bool) : (t.enterVector c v w m).waitlim = t.waitlim := rfl
@[simp] theorem Thread.enterVector_actid (t : Thread) (c : Nat) (v w : Word) (m : Bool) : (t.enterVector c v w m).actid = t.actid := rfl
@[simp] theorem Thread.enterVector_run (t : Thread) (c : Nat) (v w : Word) (m : Bool) : (t.enterVector c v w m).run = t.run := rfl
@[simp] theorem Thread.enterVector_rank (t : Thread) (c : Nat) (v w : Word) (m : Bool) : (t.enterVector c v w m).rank = t.rank := rfl
@[simp] theorem Thread.enterVector_status (t : Thread) (c : Nat) (v w : Word) (m : Bool) : (t.enterVector c v w m).status = t.status := rfl
@[simp] theorem Thread.enterVector_cnt (t : Thread) (c : Nat) (v w : Word) (m : Bool) : (t.enterVector c v w m).cnt = t.cnt := rfl
@[simp] theorem Thread.enterVector_pend (t : Thread) (c : Nat) (v w : Word) (m : Bool) : (t.enterVector c v w m).pend = t.pend := rfl
@[simp] theorem Thread.enterVector_shadow (t : Thread) (c : Nat) (v w : Word) (m : Bool) : (t.enterVector c v w m).shadow = t.shadow := rfl
@[simp] theorem Thread.enterVector_nextCopy (t : Thread) (c : Nat) (v w : Word) (m : Bool) : (t.enterVector c v w m).nextCopy = t.nextCopy := rfl
@[simp] theorem Thread.enterVector_copies (t : Thread) (c : Nat) (v w : Word) (m : Bool) : (t.enterVector c v w m).copies = t.copies := rfl
@[simp] theorem Thread.enterVector_sendq (t : Thread) (c : Nat) (v w : Word) (m : Bool) : (t.enterVector c v w m).sendq = t.sendq := rfl
@[simp] theorem Thread.enterVector_recvq (t : Thread) (c : Nat) (v w : Word) (m : Bool) : (t.enterVector c v w m).recvq = t.recvq := rfl
@[simp] theorem Thread.enterVector_amoq (t : Thread) (c : Nat) (v w : Word) (m : Bool) : (t.enterVector c v w m).amoq = t.amoq := rfl
@[simp] theorem Thread.enterVector_stOut (t : Thread) (c : Nat) (v w : Word) (m : Bool) : (t.enterVector c v w m).stOut = t.stOut := rfl
@[simp] theorem Thread.enterVector_stint (t : Thread) (c : Nat) (v w : Word) (m : Bool) : (t.enterVector c v w m).stint = t.stint := rfl
@[simp] theorem Thread.enterVector_joinAt (t : Thread) (c : Nat) (v w : Word) (m : Bool) : (t.enterVector c v w m).joinAt = t.joinAt := rfl
@[simp] theorem Thread.enterVector_ecc (t : Thread) (c : Nat) (v w : Word) (m : Bool) : (t.enterVector c v w m).ecc = t.ecc := rfl
@[simp] theorem Thread.enterVector_awaits (t : Thread) (c : Nat) (v w : Word) (m : Bool) : (t.enterVector c v w m).awaits = t.awaits := rfl
@[simp] theorem Thread.enterVector_chain (t : Thread) (c : Nat) (v w : Word) (m : Bool) : (t.enterVector c v w m).chain = t.chain := rfl
@[simp] theorem Thread.enterVector_arb (t : Thread) (c : Nat) (v w : Word) (m : Bool) : (t.enterVector c v w m).arb = t.arb := rfl
@[simp] theorem Thread.enterVector_act (t : Thread) (c : Nat) (v w : Word) (m : Bool) : (t.enterVector c v w m).act = t.act := rfl
@[simp] theorem Thread.enterVector_sub (t : Thread) (c : Nat) (v w : Word) (m : Bool) : (t.enterVector c v w m).sub = t.sub := rfl
@[simp] theorem Thread.enterVector_msg (t : Thread) (c : Nat) (v w : Word) (m : Bool) : (t.enterVector c v w m).msg = t.msg := rfl
@[simp] theorem Thread.enterVector_count (t : Thread) (c : Nat) (v w : Word) (m : Bool) : (t.enterVector c v w m).count = t.count := rfl
@[simp] theorem Thread.enterVector_ltime (t : Thread) (c : Nat) (v w : Word) (m : Bool) : (t.enterVector c v w m).ltime = t.ltime := rfl

end Sys2Proof.Machine
end

