-- ==== Sys2Proof/Laws/Words.lean ====
section
/-! SUPPORT. Units by key, registers by number, and what the shared operations of words do: one lemma for each. -/
namespace Sys2Proof.Machine

/-! ## Units by key -/

@[simp] theorem State.thread_setThread_same (s : State) (t : TsId) (th : Thread) : (s.setThread t th).thread t = th := by
  simp [State.thread, State.setThread]

theorem State.thread_setThread_ne (s : State) (t u : TsId) (th : Thread) (h : TsId.key u ≠ TsId.key t) :
    (s.setThread t th).thread u = s.thread u := by
  simp [State.thread, State.setThread, NMap.get_set_ne _ _ _ _ _ h]

@[simp] theorem State.thread_updThread_same (s : State) (t : TsId) (f : Thread → Thread) :
    (s.updThread t f).thread t = f (s.thread t) := by simp [State.updThread]

theorem State.thread_updThread_ne (s : State) (t u : TsId) (f : Thread → Thread) (h : TsId.key u ≠ TsId.key t) :
    (s.updThread t f).thread u = s.thread u := State.thread_setThread_ne s t u _ h

@[simp] theorem State.me_updMe (s : State) (f : Thread → Thread) : (s.updMe f).me = f s.me := by
  simp [State.me, State.updMe]

/-- Two updates of one thread set are one. -/
theorem State.updThread_updThread (s : State) (t : TsId) (f g : Thread → Thread) :
    (s.updThread t f).updThread t g = s.updThread t (fun th => g (f th)) := by
  simp [State.updThread, State.setThread, State.thread]

theorem State.updMe_updMe (s : State) (f g : Thread → Thread) : (s.updMe f).updMe g = s.updMe (fun t => g (f t)) := by
  simp only [State.updMe, State.updThread_cur, State.updThread_updThread]

@[simp] theorem State.me_advance (s : State) : s.advance.me = s.me.next := by simp [State.advance]

theorem State.thread_updMe_ne (s : State) (u : TsId) (f : Thread → Thread) (h : TsId.key u ≠ TsId.key s.cur) :
    (s.updMe f).thread u = s.thread u := State.thread_updThread_ne s s.cur u f h

@[simp] theorem State.core_updCore_same (s : State) (c k : Nat) (f : CoreUnit → CoreUnit) :
    (s.updCore c k f).core c k = f (s.core c k) := by simp [State.core, State.updCore]

theorem State.core_updCore_ne (s : State) (c k d j : Nat) (f : CoreUnit → CoreUnit) (h : coreKey d j ≠ coreKey c k) :
    (s.updCore c k f).core d j = s.core d j := by
  simp [State.core, State.updCore, NMap.get_set_ne _ _ _ _ _ h]

@[simp] theorem State.cluster_updCluster_same (s : State) (c : Nat) (f : Cluster → Cluster) :
    (s.updCluster c f).cluster c = f (s.cluster c) := by simp [State.cluster, State.updCluster]

theorem State.cluster_updCluster_ne (s : State) (c d : Nat) (f : Cluster → Cluster) (h : d ≠ c) :
    (s.updCluster c f).cluster d = s.cluster d := by
  simp [State.cluster, State.updCluster, NMap.get_set_ne _ _ _ _ _ h]

@[simp] theorem State.fn_updFn_same (s : State) (vf : Nat) (f : Fn → Fn) : (s.updFn vf f).fn vf = f (s.fn vf) := by
  simp [State.fn, State.updFn]

theorem State.fn_updFn_ne (s : State) (vf n : Nat) (f : Fn → Fn) (h : n ≠ vf) : (s.updFn vf f).fn n = s.fn n := by
  simp [State.fn, State.updFn, NMap.get_set_ne _ _ _ _ _ h]

@[simp] theorem State.run?_setRun_same (s : State) (r : Nat) (x : Run) : (s.setRun r x).run? r = some x := by
  simp [State.run?, State.setRun]

theorem State.run?_setRun_ne (s : State) (r q : Nat) (x : Run) (h : q ≠ r) : (s.setRun r x).run? q = s.run? q := by
  simp [State.run?, State.setRun, NMap.find?_set_ne _ _ _ _ h]

/-- An update of a run is seen under its number. -/
@[simp] theorem State.run?_updRun_same (s : State) (r : Nat) (f : Run → Run) : (s.updRun r f).run? r = (s.run? r).map f := by
  unfold State.updRun
  split
  · next x h => simp [h]
  · next h => simp [h]

theorem State.run?_updRun_ne (s : State) (r q : Nat) (f : Run → Run) (h : q ≠ r) : (s.updRun r f).run? q = s.run? q := by
  unfold State.updRun
  split
  · exact State.run?_setRun_ne s r q _ h
  · rfl

/-! ## Registers by number -/

@[simp] theorem Thread.getX_zero (t : Thread) : t.getX 0 = 0 := by simp [Thread.getX]

@[simp] theorem Thread.setX_zero (t : Thread) (w : Word) : t.setX 0 w = t := by simp [Thread.setX]

theorem Thread.getX_setX_same (t : Thread) (r : XReg) (w : Word) (h : r ≠ 0) : (t.setX r w).getX r = w := by
  unfold Thread.getX Thread.setX
  rw [if_neg h, if_neg h]
  simp

theorem Thread.getX_setX_ne (t : Thread) (r q : XReg) (w : Word) (h : q ≠ r) : (t.setX r w).getX q = t.getX q := by
  have hn : r.toNat ≠ q.toNat := fun e => h (BitVec.eq_of_toNat_eq e.symm)
  unfold Thread.getX Thread.setX
  split
  · rfl
  · split
    · rfl
    · simp [hn]

@[simp] theorem Thread.getV_setV_same (t : Thread) (r : VReg) (w : VWord) : (t.setV r w).getV r = w := by
  simp [Thread.getV, Thread.setV]

theorem Thread.getV_setV_ne (t : Thread) (r q : VReg) (w : VWord) (h : q ≠ r) : (t.setV r w).getV q = t.getV q := by
  have hn : r.toNat ≠ q.toNat := fun e => h (BitVec.eq_of_toNat_eq e.symm)
  simp [Thread.getV, Thread.setV, hn]

@[simp] theorem Thread.getP_zero (t : Thread) : t.getP 0 = BitVec.allOnes 64 := by simp [Thread.getP]

@[simp] theorem Thread.setP_zero (t : Thread) (w : Word) : t.setP 0 w = t := by simp [Thread.setP]

theorem Thread.getP_setP_same (t : Thread) (r : PReg) (w : Word) (h : r ≠ 0) : (t.setP r w).getP r = w := by
  unfold Thread.getP Thread.setP
  rw [if_neg h, if_neg h]
  simp

theorem Thread.getP_setP_ne (t : Thread) (r q : PReg) (w : Word) (h : q ≠ r) : (t.setP r w).getP q = t.getP q := by
  have hn : r.toNat ≠ q.toNat := fun e => h (BitVec.eq_of_toNat_eq e.symm)
  unfold Thread.getP Thread.setP
  split
  · rfl
  · split
    · rfl
    · simp [hn]

@[simp] theorem Thread.getH_setH_same (t : Thread) (r : HReg) (w : HWord) : (t.setH r w).getH r = w := by
  simp [Thread.getH, Thread.setH]

theorem Thread.getH_setH_ne (t : Thread) (r q : HReg) (w : HWord) (h : q ≠ r) : (t.setH r w).getH q = t.getH q := by
  have hn : r.toNat ≠ q.toNat := fun e => h (BitVec.eq_of_toNat_eq e.symm)
  simp [Thread.getH, Thread.setH, hn]

/-- A register bank that did not change reads alike. -/
theorem Thread.getX_congr {t u : Thread} (h : u.x = t.x) (r : XReg) : u.getX r = t.getX r := by
  simp [Thread.getX, h]

theorem Thread.getV_congr {t u : Thread} (h : u.v = t.v) (r : VReg) : u.getV r = t.getV r := by
  simp [Thread.getV, h]

theorem Thread.getP_congr {t u : Thread} (h : u.p = t.p) (r : PReg) : u.getP r = t.getP r := by
  simp [Thread.getP, h]

theorem Thread.getH_congr {t u : Thread} (h : u.h = t.h) (r : HReg) : u.getH r = t.getH r := by
  simp [Thread.getH, h]

/-- Outside a repetition the next word is the one after. -/
theorem Thread.next_pc (t : Thread) (h : t.rep = none) : t.next.pc = t.pc + 8 := by
  simp [Thread.next, h]

/-! ## Running a body -/

@[simp] theorem M.pure_run {α : Type} (a : α) (s : State) : (pure a : M α) s = .ok (a, s) := rfl

@[simp] theorem M.bind_run {α β : Type} (m : M α) (f : α → M β) (s : State) :
    (m >>= f) s = match m s with
      | .ok (a, t) => f a t
      | .error e => .error e := by
  show (StateT.bind m f) s = _
  unfold StateT.bind
  cases m s with
  | ok r => rfl
  | error e => rfl

@[simp] theorem M.map_run {α β : Type} (f : α → β) (m : M α) (s : State) :
    (f <$> m) s = match m s with
      | .ok (a, t) => .ok (f a, t)
      | .error e => .error e := by
  show (StateT.map f m) s = _
  unfold StateT.map
  show (m s >>= _) = _
  cases m s with
  | ok r => rfl
  | error e => rfl

@[simp] theorem readS_run {α : Type} (f : State → α) (s : State) : readS f s = .ok (f s, s) := rfl
@[simp] theorem updS_run (f : State → State) (s : State) : updS f s = .ok ((), f s) := rfl
@[simp] theorem trapM_run {α : Type} (c : Nat) (v : Word) (s : State) : (trapM c v : M α) s = .error (.trap c v) := rfl
@[simp] theorem trapIf_false (c : Nat) (v : Word) (s : State) : trapIf false c v s = .ok ((), s) := rfl
@[simp] theorem trapIf_true (c : Nat) (v : Word) (s : State) : trapIf true c v s = .error (.trap c v) := rfl
@[simp] theorem holdIf_false (s : State) : holdIf false s = .ok ((), s) := rfl
@[simp] theorem holdIf_true (s : State) : holdIf true s = .error (.hold id) := rfl
@[simp] theorem privUnless_true (s : State) : privUnless true s = .ok ((), s) := rfl
@[simp] theorem privUnless_false (s : State) : privUnless false s = .error .priv := rfl

/-- A body that completes completes its word. -/
theorem word_ok {body : M Unit} {s t : State} (h : body s = .ok ((), t)) : word body s = .next t.advance := by
  simp [word, M.outcome, h]

/-- A body that traps has its trap taken from the state before the word. -/
theorem word_trap {body : M Unit} {s : State} {c : Nat} {v : Word} (h : body s = .error (.trap c v)) :
    word body s = s.takeTrap c v := by
  simp [word, M.outcome, h]

/-- A word that waits leaves what its body says. -/
theorem word_hold {body : M Unit} {s : State} {f : State → State} (h : body s = .error (.hold f)) :
    word body s = .next (f s) := by
  simp [word, M.outcome, h]

theorem outcome_ok {body : M Unit} {s t : State} (h : body s = .ok ((), t)) : M.outcome body s = .next t := by
  simp [M.outcome, h]

theorem outcome_trap {body : M Unit} {s : State} {c : Nat} {v : Word} (h : body s = .error (.trap c v)) :
    M.outcome body s = s.takeTrap c v := by
  simp [M.outcome, h]

/-- A register that no atomic has yet to write, and no pending failure names, is read. -/
theorem xM_ok {r : XReg} {s : State} (h : s.me.awaiting r = false ∧ ∀ p ∈ s.me.pend, p.reg ≠ some r) :
    xM r s = .ok (s.me.getX r, s) := by
  have hf : s.me.pend.find? (fun p => p.reg == some r) = none := by
    rw [List.find?_eq_none]
    intro p hp
    simpa using h.2 p hp
  simp [xM, unreadM, hf, h.1]

@[simp] theorem vM_run (r : VReg) (s : State) : vM r s = .ok (s.me.getV r, s) := rfl
@[simp] theorem pM_run (r : PReg) (s : State) : pM r s = .ok (s.me.getP r, s) := rfl
@[simp] theorem hM_run (r : HReg) (s : State) : hM r s = .ok (s.me.getH r, s) := rfl
@[simp] theorem setXM_run (r : XReg) (w : Word) (s : State) : setXM r w s = .ok ((), s.updMe (·.setX r w)) := rfl
@[simp] theorem setVM_run (r : VReg) (w : VWord) (s : State) : setVM r w s = .ok ((), s.updMe (·.setV r w)) := rfl
@[simp] theorem setPM_run (r : PReg) (w : Word) (s : State) : setPM r w s = .ok ((), s.updMe (·.setP r w)) := rfl
@[simp] theorem setHM_run (r : HReg) (w : HWord) (s : State) : setHM r w s = .ok ((), s.updMe (·.setH r w)) := rfl
@[simp] theorem flagsM_run (f : Flags) (s : State) : flagsM f s = .ok ((), s.flags f) := rfl

/-- A constant-window word that lies in its window, with no poison, is read (R54). -/
theorem cwinM_ok {win : BitVec 3} {off : BitVec 17} {n : Nat} {s : State} {bs : List Byte} (h : s.cwin win = some bs)
    (hl : 4 * off.toNat + n ≤ bs.length) (hb : s.cwinBad win (4 * off.toNat) n = false) :
    cwinM win off n s = .ok (leNat ((bs.drop (4 * off.toNat)).take n), s) := by
  have hd : decide (bs.length < 4 * off.toNat + n) = false := by simp; omega
  simp [cwinM, h, hd, hb]

/-- A B operand that has a value is read (R54, R97). -/
theorem bM_ok {b : BSrc} {s : State} {y : Word} (hr : s.readable (regsOf b)) (h : s.bValue b = some y) :
    bM b s = .ok (y, s) := by
  cases b with
  | reg r =>
    simp only [State.bValue, Option.some.injEq] at h
    subst h
    exact xM_ok (hr r (by simp [regsOf]))
  | cw win off =>
    simp only [State.bValue] at h
    split at h
    · next bs hc =>
      split at h
      · next hl =>
        simp only [Option.some.injEq] at h
        subst h
        simp [bM, cwinM_ok hc hl.1 hl.2]
      · simp at h
    · simp at h

theorem State.readable_head {s : State} {a : XReg} {l : List XReg} (h : s.readable (a :: l)) :
    s.me.awaiting a = false ∧ ∀ p ∈ s.me.pend, p.reg ≠ some a :=
  h a (by simp)

theorem State.readable_tail {s : State} {a : XReg} {l : List XReg} (h : s.readable (a :: l)) : s.readable l :=
  fun r hr => h r (by simp [hr])

/-- A transfer whose target is in range is taken (R68). -/
theorem gotoM_ok {target : Word} {s : State} (h : target.toNat < 2 ^ 49) :
    gotoM target s = .ok ((), s.updMe (·.goto target)) := by
  have hd : decide (2 ^ 49 ≤ target.toNat) = false := by simpa using h
  simp only [gotoM, M.bind_run, hd, trapIf_false, updS_run]

theorem gotoM_trap {target : Word} {s : State} (h : 2 ^ 49 ≤ target.toNat) :
    gotoM target s = .error (.trap causeAccess target) := by
  have hd : decide (2 ^ 49 ≤ target.toNat) = true := by simpa using h
  simp only [gotoM, M.bind_run, hd, trapIf_true]

/-! ## The shared scalar forms -/

theorem scalarImm_ok {o : ScalarRI} {f : (w : Nat) → BitVec w → BitVec w → BitVec w} {s : State}
    (h : s.me.awaiting o.a = false ∧ ∀ p ∈ s.me.pend, p.reg ≠ some o.a) :
    scalarImm o f s = .next (s.updMe (·.setX o.d (wide o.w32 f (s.me.getX o.a) (o.imm.signExtend 64)))).advance :=
  word_ok (by simp [xM_ok h])

theorem shiftImm_ok {o : ShiftRI} {f : (w : Nat) → BitVec w → BitVec w → BitVec w} {s : State}
    (h : s.me.awaiting o.a = false ∧ ∀ p ∈ s.me.pend, p.reg ≠ some o.a) :
    shiftImm o f s = .next (s.updMe (·.setX o.d (wide o.w32 f (s.me.getX o.a) (o.n.setWidth 64)))).advance :=
  word_ok (by simp [xM_ok h])

theorem scalarUnary_ok {o : UnaryRR} {f : (w : Nat) → BitVec w → BitVec w} {s : State}
    (h : s.me.awaiting o.a = false ∧ ∀ p ∈ s.me.pend, p.reg ≠ some o.a) :
    scalarUnary o f s =
      .next (s.updMe (·.setX o.d (wide o.w32 (fun w x _ => f w x) (s.me.getX o.a) 0))).advance :=
  word_ok (by simp [xM_ok h])

theorem scalarBin_ok {o : ScalarRR} {f : (w : Nat) → BitVec w → BitVec w → BitVec w} {s : State} {b : Word}
    (h : s.me.awaiting o.a = false ∧ ∀ p ∈ s.me.pend, p.reg ≠ some o.a) (hb : bM o.b s = .ok (b, s)) :
    scalarBin o f s = .next (s.updMe (·.setX o.d (wide o.w32 f (s.me.getX o.a) b))).advance :=
  word_ok (by simp [xM_ok h, hb])

/-- A division writes its result and raises DZ for a zero divisor (R102). -/
theorem division_ok {o : ScalarRR} {f : (w : Nat) → BitVec w → BitVec w → BitVec w} {s : State} {b : Word}
    (h : s.me.awaiting o.a = false ∧ ∀ p ∈ s.me.pend, p.reg ≠ some o.a) (hb : bM o.b s = .ok (b, s)) :
    division o f s = .next ((s.updMe (·.setX o.d (wide o.w32 f (s.me.getX o.a) b))).flags
      (Flags.when (if o.w32 then b.setWidth 32 == 0#32 else b == 0) Flags.dz)).advance :=
  word_ok (by simp [xM_ok h, hb])

end Sys2Proof.Machine
end

