-- ==== Sys2Proof/Laws/Access.lean ====
section
/-! SUPPORT. The checks of an access (R206), the wait classes, and what loads and stores do to the committed bytes. -/
namespace Sys2Proof.Machine

/-! ## Checks -/

/-- A translation that the core's cache holds, with the permission needed, is its page's address (R374). -/
theorem translateM_hit {need : Need} {kind : FaultKind} {va : Word} {s : State} {e : TlbEntry}
    (hr : s.me.refused ≠ some (va >>> 16)) (he : tlbFind (s.vfOf s.cur) va.toNat s.myCore.tlb = some e)
    (hp : e.permits need = true) : translateM need kind va s = .ok (e.phys va.toNat, s) := by
  have h1 : (s.me.refused == some (va >>> 16)) = false := by simpa using hr
  have h2 : s.translate (.core s.cur.cluster s.cur.core) (s.vfOf s.cur) va.toNat = (s, .page e) := by
    simp only [State.translate, State.pipeTlb]
    rw [show (s.core s.cur.cluster s.cur.core).tlb = s.myCore.tlb from rfl, he]
  simp only [translateM, M.bind_run, readS_run, id_eq, h1, trapIf_false, h2, hp, Bool.not_true, updS_run, M.pure_run]

theorem inScratch_false {a : Nat} (h : ¬ (scratchBase ≤ a ∧ a < scratchEnd)) : inScratch a = false := by
  simp only [inScratch, Bool.and_eq_false_iff, decide_eq_false_iff_not]
  omega

/-- The offset of an aligned scratch access, from its address. -/
theorem State.InScratch.facts {s : State} {va : Word} {n off : Nat} (h : s.InScratch va n off) (hn : n ∣ 64) :
    va.toNat < 2 ^ 49 ∧ va.toNat % n = 0 ∧ inScratch va.toNat = true ∧ va.toNat - scratchBase = off := by
  have h1 := h.address
  have h2 := h.inside
  have h3 := h.window
  have hb : scratchBase = 64 * 0x7FFFFFFF000 + 0 := by decide
  refine ⟨by rw [h1, hb]; omega, ?_, ?_, by omega⟩
  · obtain ⟨k, hk⟩ := hn
    rw [h1, Nat.add_mod, h.aligned, show scratchBase = n * (k * 0x7FFFFFFF000) by rw [hb, hk]; ring]
    simp
  · simp only [inScratch, Bool.and_eq_true, decide_eq_true_eq, h1, scratchEnd, scratchBase]
    omega

/-- A read of scratch none of whose words that are read is poisoned. -/
theorem CoreUnit.readsPoison_none {u : CoreUnit} {off n : Nat} {en : Nat → Bool}
    (h : ∀ i, i < n → en i = true → NMap.get u.poison ((off + i) / 8) 0 = 0) : u.readsPoison off n en = false := by
  simp only [CoreUnit.readsPoison, upTo, List.any_eq_false, List.mem_range, Bool.and_eq_true, not_and]
  intro i hi he
  simpa using h i hi he

/-- A load that no copy serves meets the poison of its home alone. -/
theorem State.loadPoison_home {s : State} {q : Place} {pa n : Nat} {en : Nat → Bool} {own : List Host.Cell} (h : s.NoCopy pa)
    (hp : q = .dram → s.readsPoison own pa n en = false) : s.loadPoison s.cur own q pa n en = false := by
  have hc : s.hitOf s.cur (pa / 256) = none := by
    rcases h with h | h
    · exact if_pos h
    · by_cases hz : s.myCore.privCap = 0
      · exact if_pos hz
      · exact (if_neg hz).trans (by rw [h]; rfl)
  simp only [State.loadPoison, hc]
  by_cases hq : q = .dram
  · simp [hp hq]
  · simp [hq]

/-- A load that a copy serves meets the poison of the copy alone. -/
theorem State.loadPoison_copy {s : State} {q : Place} {pa n j : Nat} {en : Nat → Bool} {own : List Host.Cell} {p : PrivLine}
    (h0 : s.myCore.privCap ≠ 0) (h : s.privHit s.cur (pa / 256) = some (j, p)) :
    s.loadPoison s.cur own q pa n en = p.readsPoison own pa n en := by
  have hc : s.hitOf s.cur (pa / 256) = some p := (if_neg h0).trans (by rw [h]; rfl)
  simp only [State.loadPoison, hc]

/-- A checked scratch access goes to its offset. -/
theorem checkBytesM_scratch {kind : AccKind} {va : Word} {n off : Nat} {en : Nat → Bool} {s : State} (ex : List Nat)
    (h : s.InScratch va n off) (hn : n ∣ 64) (hk : kind = .load ∨ kind = .store ∨ kind = .storeNone)
    (hp : kind = .load → ∀ i, i < n → en i = true → NMap.get s.myCore.poison ((off + i) / 8) 0 = 0) :
    checkBytesM kind va n ex en s = .ok (.scratch off, s) := by
  obtain ⟨h1, h2, h3, h4⟩ := h.facts hn
  have hfw : s.inFirmware = false := h.onCluster
  have d1 : decide (2 ^ 49 ≤ va.toNat) = false := by simpa using h1
  have d2 : (va.toNat % n != 0) = false := by simpa using h2
  have d3 : (decide (s.myCore.scratchSize ≤ off) || kind == .amo || kind == .flush || kind == .mcrd) = false := by
    have := h.inside
    rcases hk with rfl | rfl | rfl <;> simp <;> exact this
  have d4 : (kind == .load && s.myCore.readsPoison off n en) = false := by
    by_cases hl : kind = .load
    · simp [CoreUnit.readsPoison_none (hp hl)]
    · simp [hl]
  simp only [checkBytesM, M.bind_run, readS_run, id_eq, hfw, Bool.false_eq_true, if_false, d1, trapIf_false, d2, h3, if_true,
    h4, d3, d4, M.pure_run]

/-- A checked access to global memory, for the kinds that meet neither FOOT nor poison here. -/
theorem checkBytesM_leads {kind : AccKind} {va : Word} {n pa : Nat} {en : Nat → Bool} {q : Place} {s : State} (ex : List Nat)
    (h : s.Leads kind.need va n pa q) (hs : kind ≠ .store)
    (hp : kind = .load → s.loadPoison s.cur (ownData s.myAct? q) q pa n en = false) :
    checkBytesM kind va n ex en s = .ok (.phys q pa, s) := by
  obtain ⟨e, he, -, -, hperm, hpa⟩ := h.page
  have hfw : s.inFirmware = false := h.onCluster
  have d1 : decide (2 ^ 49 ≤ va.toNat) = false := by simpa using h.space
  have d2 : (va.toNat % n != 0) = false := by simpa using h.aligned
  have ht := translateM_hit (kind := kind.fault) h.unrefused he hperm
  have d3 : (q == .dram && kind != .flush && s.homeDown (s.vfOf s.cur) pa) = false := by
    by_cases hq : q = .dram
    · simp [h.up hq]
    · simp [hq]
  have d4 : (kind == .load && (Spot.phys q pa).meetsPoison s n en) = false := by
    by_cases hl : kind = .load
    · simp [Spot.meetsPoison, hp hl]
    · simp [hl]
  have d5 : (kind == .store) = false := by simpa using hs
  rw [hpa] at ht
  simp only [checkBytesM, M.bind_run, readS_run, id_eq, hfw, Bool.false_eq_true, if_false, d1, trapIf_false, d2, h.global, ht,
    h.place, d5, M.pure_run, d3, d4]

/-! ## Wait classes -/

/-- An operation enters a class that has room (R215). -/
theorem enterClass_ok {k : WClass} {s : State} (h : s.me.cnt.get k < 63) :
    enterClass k s = .ok ((), s.updMe (fun t => { t with cnt := t.cnt.upd k (· + 1) })) := by
  have d : decide (63 ≤ s.me.cnt.get k) = false := by simpa using h
  simp only [enterClass, M.bind_run, readS_run, id_eq, d, holdIf_false, updS_run]

end Sys2Proof.Machine
end

