-- ==== Sys2Proof/Laws/PerInstr.lean ====
section
/-! SUPPORT. One lemma per constructor of Instr: which operations are words (R51): the encoder gives a word exactly to those that
are no device step and no input. -/
namespace Sys2Proof.Laws.EncodesWords
open Sys2Proof

/-- The encoder gives the operation a word, unless it is a device step or an input. -/
def Statement (i : Instr) : Prop := (encode i).isSome = !i.isEvent

theorem add (o : ArithRR) : Statement (.add o) := rfl
theorem addImm (o : ScalarRI) : Statement (.addImm o) := rfl
theorem sub (o : ArithRR) : Statement (.sub o) := rfl
theorem subImm (o : ScalarRI) : Statement (.subImm o) := rfl
theorem and (o : ScalarRR) : Statement (.and o) := rfl
theorem andImm (o : ScalarRI) : Statement (.andImm o) := rfl
theorem or (o : ScalarRR) : Statement (.or o) := rfl
theorem orImm (o : ScalarRI) : Statement (.orImm o) := rfl
theorem xor (o : ScalarRR) : Statement (.xor o) := rfl
theorem xorImm (o : ScalarRI) : Statement (.xorImm o) := rfl
theorem andn (o : ScalarRR) : Statement (.andn o) := rfl
theorem andnImm (o : ScalarRI) : Statement (.andnImm o) := rfl
theorem orn (o : ScalarRR) : Statement (.orn o) := rfl
theorem ornImm (o : ScalarRI) : Statement (.ornImm o) := rfl
theorem shl (o : ScalarRR) : Statement (.shl o) := rfl
theorem shlImm (o : ShiftRI) : Statement (.shlImm o) := rfl
theorem shr (o : ScalarRR) : Statement (.shr o) := rfl
theorem shrImm (o : ShiftRI) : Statement (.shrImm o) := rfl
theorem sar (o : ScalarRR) : Statement (.sar o) := rfl
theorem sarImm (o : ShiftRI) : Statement (.sarImm o) := rfl
theorem rol (o : ScalarRR) : Statement (.rol o) := rfl
theorem rolImm (o : ShiftRI) : Statement (.rolImm o) := rfl
theorem min (o : ScalarRR) : Statement (.min o) := rfl
theorem minImm (o : ScalarRI) : Statement (.minImm o) := rfl
theorem max (o : ScalarRR) : Statement (.max o) := rfl
theorem maxImm (o : ScalarRI) : Statement (.maxImm o) := rfl
theorem minu (o : ScalarRR) : Statement (.minu o) := rfl
theorem minuImm (o : ScalarRI) : Statement (.minuImm o) := rfl
theorem maxu (o : ScalarRR) : Statement (.maxu o) := rfl
theorem maxuImm (o : ScalarRI) : Statement (.maxuImm o) := rfl
theorem slt (o : ScalarRR) : Statement (.slt o) := rfl
theorem sltImm (o : ScalarRI) : Statement (.sltImm o) := rfl
theorem sltu (o : ScalarRR) : Statement (.sltu o) := rfl
theorem sltuImm (o : ScalarRI) : Statement (.sltuImm o) := rfl
theorem seq (o : ScalarRR) : Statement (.seq o) := rfl
theorem seqImm (o : ScalarRI) : Statement (.seqImm o) := rfl
theorem sne (o : ScalarRR) : Statement (.sne o) := rfl
theorem sneImm (o : ScalarRI) : Statement (.sneImm o) := rfl
theorem sel (d a b c : XReg) : Statement (.sel d a b c) := rfl
theorem clz (o : UnaryRR) : Statement (.clz o) := rfl
theorem ctz (o : UnaryRR) : Statement (.ctz o) := rfl
theorem popc (o : UnaryRR) : Statement (.popc o) := rfl
theorem bswap (o : UnaryRR) : Statement (.bswap o) := rfl
theorem mul (o : ScalarRR) : Statement (.mul o) := rfl
theorem mulh (o : ScalarRR) : Statement (.mulh o) := rfl
theorem mulhu (o : ScalarRR) : Statement (.mulhu o) := rfl
theorem div (o : ScalarRR) : Statement (.div o) := rfl
theorem divu (o : ScalarRR) : Statement (.divu o) := rfl
theorem rem (o : ScalarRR) : Statement (.rem o) := rfl
theorem remu (o : ScalarRR) : Statement (.remu o) := rfl
theorem bfx (o : BFieldRI) (sx : Bool) : Statement (.bfx o sx) := rfl
theorem bfi (o : BFieldRI) : Statement (.bfi o) := rfl
theorem li (d : XReg) (imm : BitVec 32) : Statement (.li d imm) := rfl
theorem lih (d : XReg) (imm : BitVec 32) : Statement (.lih d imm) := rfl
theorem fadd (o : FpBin) : Statement (.fadd o) := rfl
theorem fsub (o : FpBin) : Statement (.fsub o) := rfl
theorem fmul (o : FpBin) : Statement (.fmul o) := rfl
theorem fdiv (o : FpBin) : Statement (.fdiv o) := rfl
theorem fmin (o : FpMinMax) : Statement (.fmin o) := rfl
theorem fmax (o : FpMinMax) : Statement (.fmax o) := rfl
theorem fsqrt (d a : XReg) (fmt : FpFmt) (rnd : RndSel) : Statement (.fsqrt d a fmt rnd) := rfl
theorem ffma (o : FpFma) : Statement (.ffma o) := rfl
theorem fcmp (d a b : XReg) (fmt : FpFmt) (rel : Rel) : Statement (.fcmp d a b fmt rel) := rfl
theorem fclass (d a : XReg) (fmt : FpFmt) : Statement (.fclass d a fmt) := rfl
theorem fcvt (o : FpCvt) : Statement (.fcvt o) := rfl
theorem fmv (d a : XReg) (fmt : FpFmt) : Statement (.fmv d a fmt) := rfl
theorem bCond (c : Cond) (a b : XReg) (h : BrHint) (off : BitVec 32) : Statement (.bCond c a b h off) := rfl
theorem call (a : XReg) (h : BrHint) (off : BitVec 32) : Statement (.call a h off) := rfl
theorem loop (a : XReg) (h : BrHint) (off : BitVec 32) : Statement (.loop a h off) := rfl
theorem callr (d a : XReg) : Statement (.callr d a) := rfl
theorem jr (a : XReg) : Statement (.jr a) := rfl
theorem ret (a : XReg) : Statement (.ret a) := rfl
theorem vadd (o : VBinSat) : Statement (.vadd o) := rfl
theorem vsub (o : VBinSat) : Statement (.vsub o) := rfl
theorem vmul (o : VBin) : Statement (.vmul o) := rfl
theorem vmulh (o : VBin) : Statement (.vmulh o) := rfl
theorem vmin (o : VBin) : Statement (.vmin o) := rfl
theorem vmax (o : VBin) : Statement (.vmax o) := rfl
theorem vabs (o : VUnSat) : Statement (.vabs o) := rfl
theorem vand (o : VBin) : Statement (.vand o) := rfl
theorem vor (o : VBin) : Statement (.vor o) := rfl
theorem vxor (o : VBin) : Statement (.vxor o) := rfl
theorem vandn (o : VBin) : Statement (.vandn o) := rfl
theorem vshl (o : VBin) : Statement (.vshl o) := rfl
theorem vshr (o : VBin) : Statement (.vshr o) := rfl
theorem vsar (o : VBin) : Statement (.vsar o) := rfl
theorem vfadd (o : VFBin) : Statement (.vfadd o) := rfl
theorem vfsub (o : VFBin) : Statement (.vfsub o) := rfl
theorem vfmul (o : VFBin) : Statement (.vfmul o) := rfl
theorem vffma (o : VFBin) : Statement (.vffma o) := rfl
theorem vfmin (o : VBin) : Statement (.vfmin o) := rfl
theorem vfmax (o : VBin) : Statement (.vfmax o) := rfl
theorem vfabs (o : VUn) : Statement (.vfabs o) := rfl
theorem vfneg (o : VUn) : Statement (.vfneg o) := rfl
theorem vexp2 (o : VUn) : Statement (.vexp2 o) := rfl
theorem vrcp (o : VUn) : Statement (.vrcp o) := rfl
theorem vrsq (o : VUn) : Statement (.vrsq o) := rfl
theorem vcmp (o : VCmp) : Statement (.vcmp o) := rfl
theorem vfcmp (o : VCmp) : Statement (.vfcmp o) := rfl
theorem vsel (o : VByteSel) : Statement (.vsel o) := rfl
theorem vperm (o : VByteSel) : Statement (.vperm o) := rfl
theorem vlut (o : VBin) : Statement (.vlut o) := rfl
theorem vsplat (o : VSplat) : Statement (.vsplat o) := rfl
theorem vins (d : VReg) (a : XReg) (ty : ElemType) (lane : BitVec 6) : Statement (.vins d a ty lane) := rfl
theorem vext (d : XReg) (a : VReg) (ty : ElemType) (lane : BitVec 6) : Statement (.vext d a ty lane) := rfl
theorem vcvt (o : VCvt) : Statement (.vcvt o) := rfl
theorem vdot (o : VDot) : Statement (.vdot o) := rfl
theorem vred (o : VRed) : Statement (.vred o) := rfl
theorem vscan (o : VScan) : Statement (.vscan o) := rfl
theorem plog (op : PlogOp) (d a b : PReg) : Statement (.plog op d a b) := rfl
theorem pcnt (d : XReg) (a : PReg) (ty : ElemType) : Statement (.pcnt d a ty) := rfl
theorem rep (nm1 : BitVec 8) (lm1 : BitVec 3) (stride : BitVec 5) : Statement (.rep nm1 lm1 stride) := rfl
theorem ld (o : LoadOp) : Statement (.ld o) := rfl
theorem st (o : StoreOp) : Statement (.st o) := rfl
theorem vld (o : VMemOp) : Statement (.vld o) := rfl
theorem vst (o : VMemOp) : Statement (.vst o) := rfl
theorem vgat (o : VGatherOp) : Statement (.vgat o) := rfl
theorem vsca (o : VGatherOp) : Statement (.vsca o) := rfl
theorem ldk (d : XReg) (win : BitVec 3) (off : BitVec 17) (size : Size) (sx : Bool) : Statement (.ldk d win off size sx) := rfl
theorem pushm (bank : Bool) (a b : BitVec 5) : Statement (.pushm bank a b) := rfl
theorem popm (bank : Bool) (a b : BitVec 5) : Statement (.popm bank a b) := rfl
theorem pref (o : PrefOp) : Statement (.pref o) := rfl
theorem cflush (a b : XReg) (e : BitVec 20) : Statement (.cflush a b e) := rfl
theorem amoAdd (o : AmoOp) : Statement (.amoAdd o) := rfl
theorem amoMin (o : AmoOp) : Statement (.amoMin o) := rfl
theorem amoMax (o : AmoOp) : Statement (.amoMax o) := rfl
theorem amoMinu (o : AmoOp) : Statement (.amoMinu o) := rfl
theorem amoMaxu (o : AmoOp) : Statement (.amoMaxu o) := rfl
theorem amoAnd (o : AmoOp) : Statement (.amoAnd o) := rfl
theorem amoOr (o : AmoOp) : Statement (.amoOr o) := rfl
theorem amoXor (o : AmoOp) : Statement (.amoXor o) := rfl
theorem amoSwap (o : AmoOp) : Statement (.amoSwap o) := rfl
theorem amoCas (o : AmoOp) : Statement (.amoCas o) := rfl
theorem amoFadd (o : AmoOp) : Statement (.amoFadd o) := rfl
theorem send (o : SendOp) : Statement (.send o) := rfl
theorem recv (d : XReg) (b : VReg) : Statement (.recv d b) := rfl
theorem sqstat (d : XReg) : Statement (.sqstat d) := rfl
theorem dep (a b : XReg) (t : DepTarget) : Statement (.dep a b t) := rfl
theorem wait (ld st cp tl ms : BitVec 6) : Statement (.wait ld st cp tl ms) := rfl
theorem fence (sc : Scope) : Statement (.fence sc) := rfl
theorem bexp (n : BarIx) (a : XReg) : Statement (.bexp n a) := rfl
theorem bwait (n : BarIx) : Statement (.bwait n) := rfl
theorem bpoll (d : XReg) (n : BarIx) : Statement (.bpoll d n) := rfl
theorem cpset (field : BitVec 3) (a : XReg) : Statement (.cpset field a) := rfl
theorem cpgo (d : XReg) : Statement (.cpgo d) := rfl
theorem cpst (d a : XReg) : Statement (.cpst d a) := rfl
theorem mcrd (a b : XReg) (n : BarIx) (lines : BitVec 8) : Statement (.mcrd a b n lines) := rfl
theorem tdef (n : TileIx) (a : XReg) : Statement (.tdef n a) := rfl
theorem tfill (t : TileOpd) (h : HReg) (b : XReg) : Statement (.tfill t h b) := rfl
theorem tdrain (t : TileOpd) (h : HReg) (b : XReg) : Statement (.tdrain t h b) := rfl
theorem tstat (d : XReg) (t : TileOpd) : Statement (.tstat d t) := rfl
theorem tfree (t : TileOpd) : Statement (.tfree t) := rfl
theorem lnext (d : XReg) (l : LitIx) : Statement (.lnext d l) := rfl
theorem lget (d : XReg) (l : LitIx) : Statement (.lget d l) := rfl
theorem hmake (d : HReg) (a b : VReg) : Statement (.hmake d a b) := rfl
theorem hld (d : HReg) (a : XReg) : Statement (.hld d a) := rfl
theorem hst (d : HReg) (a : XReg) : Statement (.hst d a) := rfl
theorem hq (d : XReg) (a : HReg) (sel : BitVec 5) : Statement (.hq d a sel) := rfl
theorem relay (a b : HReg) : Statement (.relay a b) := rfl
theorem hwait (a : HReg) : Statement (.hwait a) := rfl
theorem ldh (d : XReg) (a : HReg) (b : XReg) : Statement (.ldh d a b) := rfl
theorem sth (d : XReg) (a : HReg) (b : XReg) : Statement (.sth d a b) := rfl
theorem vldh (o : VHandleOp) : Statement (.vldh o) := rfl
theorem vsth (o : VHandleOp) : Statement (.vsth o) := rfl
theorem mmat (o : MatOp) : Statement (.mmat o) := rfl
theorem mmam (o : MatOp) : Statement (.mmam o) := rfl
theorem mdrain (a : XReg) : Statement (.mdrain a) := rfl
theorem mdrainTile (t : TileOpd) : Statement (.mdrainTile t) := rfl
theorem mrow (a : XReg) : Statement (.mrow a) := rfl
theorem emit (a : VReg) (half : Bool) : Statement (.emit a half) := rfl
theorem kscan (d a : XReg) (sel : BitVec 3) : Statement (.kscan d a sel) := rfl
theorem arbrd (d : XReg) (sel : BitVec 8) : Statement (.arbrd d sel) := rfl
theorem runq (a b : XReg) : Statement (.runq a b) := rfl
theorem fork (d a b : XReg) (e : BitVec 20) : Statement (.fork d a b e) := rfl
theorem cclaim (d : XReg) : Statement (.cclaim d) := rfl
theorem cload (a : XReg) (b : VReg) : Statement (.cload a b) := rfl
theorem cdrop (a : XReg) : Statement (.cdrop a) := rfl
theorem cdec (a : XReg) : Statement (.cdec a) := rfl
theorem cprop (d : XReg) : Statement (.cprop d) := rfl
theorem cback (a : XReg) : Statement (.cback a) := rfl
theorem ctrail (d a : XReg) : Statement (.ctrail d a) := rfl
theorem crow (d a : XReg) : Statement (.crow d a) := rfl
theorem cconf (d : XReg) : Statement (.cconf d) := rfl
theorem getsr (d : XReg) (sr : SysReg) : Statement (.getsr d sr) := rfl
theorem putsr (sr : SysReg) (a : XReg) : Statement (.putsr sr a) := rfl
theorem trap (code : BitVec 16) : Statement (.trap code) := rfl
theorem brk (code : BitVec 16) : Statement (.brk code) := rfl
theorem tlbinv (a : XReg) (all : Bool) (reach : BitVec 2) : Statement (.tlbinv a all reach) := rfl
theorem putsrTstat (a : XReg) : Statement (.putsrTstat a) := rfl
theorem putsrFpmode (a : XReg) : Statement (.putsrFpmode a) := rfl
theorem putsrFpflags (a : XReg) : Statement (.putsrFpflags a) := rfl
theorem lsplitWrite (a : XReg) : Statement (.lsplitWrite a) := rfl
theorem vgroupWrite (a : XReg) : Statement (.vgroupWrite a) := rfl
theorem hashmaskWrite (n : BitVec 4) (a : XReg) : Statement (.hashmaskWrite n a) := rfl
theorem bktdataWrite (a : XReg) : Statement (.bktdataWrite a) := rfl
theorem fwinWrite (n : BitVec 4) (a : XReg) : Statement (.fwinWrite n a) := rfl
theorem cluflagsWrite (a : XReg) : Statement (.cluflagsWrite a) := rfl
theorem packflagsWrite (a : XReg) : Statement (.packflagsWrite a) := rfl
theorem ptrootWrite (a : XReg) : Statement (.ptrootWrite a) := rfl
theorem frespServe (vf fid : Nat) : Statement (.frespServe vf fid) := rfl
theorem frespRefuse (vf fid : Nat) : Statement (.frespRefuse vf fid) := rfl
theorem fwcommitCommit (n : Nat) : Statement (.fwcommitCommit n) := rfl
theorem fwcommitKick (n : Nat) : Statement (.fwcommitKick n) := rfl
theorem qcbRead (vf q : Nat) : Statement (.qcbRead vf q) := rfl
theorem runEligible (vf q : Nat) : Statement (.runEligible vf q) := rfl
theorem runRelease (run : Nat) : Statement (.runRelease run) := rfl
theorem timeSliceExpiry (run : Nat) : Statement (.timeSliceExpiry run) := rfl
theorem replaceRequest (run : Nat) : Statement (.replaceRequest run) := rfl
theorem ruleTableSwitch (run : Nat) : Statement (.ruleTableSwitch run) := rfl
theorem roundTimer (cluster : Nat) : Statement (.roundTimer cluster) := rfl
theorem arbitrationRound (cluster : Nat) : Statement (.arbitrationRound cluster) := rfl
theorem commit (k : ActKey) : Statement (.commit k) := rfl
theorem twinCompare (k : ActKey) : Statement (.twinCompare k) := rfl
theorem whistleWave (run : Nat) : Statement (.whistleWave run) := rfl
theorem whistleReturn (run : Nat) : Statement (.whistleReturn run) := rfl
theorem timeLimitExpiry (run : Nat) : Statement (.timeLimitExpiry run) := rfl
theorem completionSignal (run : Nat) : Statement (.completionSignal run) := rfl
theorem runStopTrapped (run : Nat) : Statement (.runStopTrapped run) := rfl
theorem waitTimeout (t : TsId) : Statement (.waitTimeout t) := rfl
theorem leashGrant (cluster : Nat) : Statement (.leashGrant cluster) := rfl
theorem messageAccept (t : TsId) : Statement (.messageAccept t) := rfl
theorem handlerStart (cluster core : Nat) : Statement (.handlerStart cluster core) := rfl
theorem handlerLimit (cluster core : Nat) : Statement (.handlerLimit cluster core) := rfl
theorem amoApply (cluster core : Nat) : Statement (.amoApply cluster core) := rfl
theorem amoReturn (t : TsId) : Statement (.amoReturn t) := rfl
theorem depLand (cluster core : Nat) : Statement (.depLand cluster core) := rfl
theorem mcrdRequestArrive (req : Nat) : Statement (.mcrdRequestArrive req) := rfl
theorem mcrdLineSend (stream : Nat) : Statement (.mcrdLineSend stream) := rfl
theorem mcrdBeatDeliver (cluster : Nat) : Statement (.mcrdBeatDeliver cluster) := rfl
theorem copySegment (t : TsId) (id : BitVec 16) : Statement (.copySegment t id) := rfl
theorem fillSegment (cluster : Nat) (n : TileIx) : Statement (.fillSegment cluster n) := rfl
theorem drainSegment (cluster : Nat) (n : TileIx) : Statement (.drainSegment cluster n) := rfl
theorem relayoutBlock (cluster : Nat) (map : Word) : Statement (.relayoutBlock cluster map) := rfl
theorem sectorFillComplete (pa : Nat) : Statement (.sectorFillComplete pa) := rfl
theorem loadComplete (t : TsId) : Statement (.loadComplete t) := rfl
theorem storePerformed (t : TsId) : Statement (.storePerformed t) := rfl
theorem pageWalk (cluster vf page : Nat) : Statement (.pageWalk cluster vf page) := rfl
theorem faultQueueWrite (vf : Nat) : Statement (.faultQueueWrite vf) := rfl
theorem firmwareWake (n : Nat) : Statement (.firmwareWake n) := rfl
theorem preemptReactPack (run : Nat) : Statement (.preemptReactPack run) := rfl
theorem drainLimitExpiry (run : Nat) : Statement (.drainLimitExpiry run) := rfl
theorem preemptGangPack (run : Nat) : Statement (.preemptGangPack run) := rfl
theorem packSave (run : Nat) : Statement (.packSave run) := rfl
theorem resumePack (run : Nat) : Statement (.resumePack run) := rfl
theorem hret : Statement (.hret) := rfl
theorem bar : Statement (.bar) := rfl
theorem leash : Statement (.leash) := rfl
theorem unleash : Statement (.unleash) := rfl
theorem mzero : Statement (.mzero) := rfl
theorem done : Statement (.done) := rfl
theorem abort : Statement (.abort) := rfl
theorem reject : Statement (.reject) := rfl
theorem join : Statement (.join) := rfl
theorem cfree : Statement (.cfree) := rfl
theorem yield : Statement (.yield) := rfl
theorem halt : Statement (.halt) := rfl
theorem sret : Statement (.sret) := rfl
theorem queueAppend : Statement (.queueAppend) := rfl
theorem runPlace : Statement (.runPlace) := rfl
theorem tileInsert : Statement (.tileInsert) := rfl
theorem flagPropagate : Statement (.flagPropagate) := rfl
theorem startUp : Statement (.startUp) := rfl
theorem afrUpdate : Statement (.afrUpdate) := rfl
theorem watchdogExpiry : Statement (.watchdogExpiry) := rfl
theorem trialBootExpiry : Statement (.trialBootExpiry) := rfl
theorem diectlGo : Statement (.diectlGo) := rfl
theorem doorbellWrite : Statement (.doorbellWrite) := rfl
theorem qdbRead : Statement (.qdbRead) := rfl
theorem acceptWrite : Statement (.acceptWrite) := rfl
theorem uncorrectableError : Statement (.uncorrectableError) := rfl
theorem clauseArrayEccError : Statement (.clauseArrayEccError) := rfl
theorem bufferRowPoison : Statement (.bufferRowPoison) := rfl
theorem arrayFail : Statement (.arrayFail) := rfl
theorem flitCrcFail : Statement (.flitCrcFail) := rfl
theorem linkRetrain : Statement (.linkRetrain) := rfl
theorem linkRetrainDone : Statement (.linkRetrainDone) := rfl
theorem dieLost : Statement (.dieLost) := rfl
theorem warmResetComplete : Statement (.warmResetComplete) := rfl
theorem throttle : Statement (.throttle) := rfl
theorem throttleClear : Statement (.throttleClear) := rfl
theorem thermalTrip : Statement (.thermalTrip) := rfl
theorem correctedError : Statement (.correctedError) := rfl
theorem hostCxlMemAccess : Statement (.hostCxlMemAccess) := rfl
theorem hostSnoop : Statement (.hostSnoop) := rfl
theorem spdmRequest : Statement (.spdmRequest) := rfl
theorem foettePeerAccess : Statement (.foettePeerAccess) := rfl
theorem boardPowerRemoved : Statement (.boardPowerRemoved) := rfl

end Sys2Proof.Laws.EncodesWords
end

