-- ==== Sys2Proof/Laws/Steps.lean ====
section
/-! SUPPORT. What a step can do: the free choice among equals, the offer of an issue slot, and the kinds of turn. -/
namespace Sys2Proof.Machine

/-! ## A free choice -/

/-- One of several is picked, if there is one, and nothing but the count of free values changes. -/
theorem State.pickFree_cases {α : Type} (s : State) (l : List α) :
    (l = [] ∧ s.pickFree l = (s, none)) ∨
      ∃ a ∈ l, ∃ n, s.pickFree l = ({ s with freeIdx := n }, some a) := by
  match l with
  | [] => exact .inl ⟨rfl, rfl⟩
  | [a] => exact .inr ⟨a, by simp, s.freeIdx, rfl⟩
  | a :: b :: more =>
    refine .inr ?_
    have h : (Config.freeWord s.freeIdx).toNat % (more.length + 2) < (a :: b :: more).length := by
      exact Nat.mod_lt _ (Nat.succ_pos _)
    exact ⟨_, List.getElem_mem h, s.freeIdx + 1, by simp only [State.pickFree, List.getElem?_eq_getElem h]⟩

@[simp] theorem State.pickFree_one {α : Type} (s : State) (a : α) : s.pickFree [a] = (s, some a) := rfl

/-! ## The offer of a slot (R331) -/

@[simp] theorem State.offer_nil (s : State) : s.offer [] = .next s := rfl

/-- The first of the thread sets takes the slot, unless its word can only wait. -/
theorem State.offer_cons {s u : State} (t : TsId) (ts : List TsId) (h : s.issueOne t = .next u) :
    s.offer (t :: ts) = if isFirmware t = false ∧ s.stalled u t = true then (s.passed u t).offer ts else .next u := by
  simp only [State.offer, h, Bool.and_eq_true, Bool.not_eq_true']

/-! ## The turns of a step -/

/-- A step takes what the agenda names. -/
theorem step_agenda {s : State} {t : Turn} {rest : List Turn} (h : s.agenda = t :: rest) :
    step s = { s with fclk := s.fclk + 1, agenda := rest }.runAgenda t := by
  simp only [step, h]

/-- With nothing on the agenda a step takes the next turn of the default schedule. -/
theorem step_turn {s : State} (h : s.agenda = []) : step s = { s with fclk := s.fclk + 1 }.runTurn := by
  simp only [step, h]

end Sys2Proof.Machine
end

