-- ==== Sys2Proof/Tests/Slice0.lean ====
section
/-! SUPPORT. Tests: words of every family written out from the spec's encodings, ill-formed terms, the manual's worked
examples, and for each statement with hypotheses a state and operands that meet them. -/
namespace Sys2Proof.Tests
open Sys2Proof Sys2Proof.Machine
set_option Elab.async false

/-! ## Words written out from the encodings of R52 to R65 -/

/-- An RR or MM word (R55, R58) from its field values. -/
def rr (op : BitVec 8) (d a b c fn : BitVec 6) (md : BitVec 5) (ks : BitVec 1) (e : BitVec 20) : Word :=
  op ++ d ++ a ++ b ++ c ++ fn ++ md ++ ks ++ e

/-- An RI word (R56). -/
def ri (op : BitVec 8) (d a fn md : BitVec 6) (imm : BitVec 32) : Word := op ++ d ++ a ++ fn ++ md ++ imm

/-- A TL word (R59). -/
def tl (op : BitVec 8) (d a b : BitVec 6) (fn : BitVec 4) (l1 l2 : BitVec 1) (o1 o2 : BitVec 8) (hr barn : BitVec 4)
    (aux : BitVec 8) : Word := op ++ d ++ a ++ b ++ fn ++ l1 ++ l2 ++ o1 ++ o2 ++ hr ++ barn ++ aux

/-- An SY word (R61). -/
def sy (op : BitVec 8) (d a fn : BitVec 6) (srn code : BitVec 16) : Word := op ++ d ++ a ++ fn ++ 0#6 ++ srn ++ code

/-- Every pair's word decodes to the pair's operation. -/
def Decodes (l : List (Word × Instr)) : Prop := ∀ p ∈ l, decodeWord p.1 = .ok p.2

theorem Decodes.of {l : List (Word × Instr)} (h : (l.all fun p => decodeWord p.1 == .ok p.2) = true) : Decodes l :=
  fun p hp => by simpa using List.all_eq_true.mp h p hp

/-- OP 0x01, all FN; the sources of the constant-window form. R54's own example is the first word. -/
theorem test_decode_scalar : Decodes ([(0x011050000017A2F0, .add ⟨4, 5, .cw 3 0x1A2F0, false, false⟩),
    (rr 0x01 4 5 6 0 0x01 3 0 0, .sub ⟨4, 5, .reg 6, true, true⟩)] ++
    ([(0x08, .and), (0x09, .or), (0x0A, .xor), (0x0B, .andn), (0x0C, .orn), (0x10, .shl), (0x11, .shr), (0x12, .sar),
      (0x13, .rol), (0x18, .min), (0x19, .max), (0x1A, .minu), (0x1B, .maxu), (0x20, .slt), (0x21, .sltu), (0x22, .seq),
      (0x23, .sne)] : List (BitVec 6 × (ScalarRR → Instr))).map
      fun p => (rr 0x01 4 5 6 0 p.1 1 0 0, p.2 ⟨4, 5, .reg 6, true⟩)) := .of (by decide +kernel)

/-- OP 0x02, all FN. -/
theorem test_decode_scalar_imm : Decodes (([(0x00, .addImm), (0x01, .subImm), (0x08, .andImm), (0x09, .orImm),
      (0x0A, .xorImm), (0x0B, .andnImm), (0x0C, .ornImm), (0x18, .minImm), (0x19, .maxImm), (0x1A, .minuImm),
      (0x1B, .maxuImm), (0x20, .sltImm), (0x21, .sltuImm), (0x22, .seqImm), (0x23, .sneImm)] :
      List (BitVec 6 × (ScalarRI → Instr))).map (fun p => (ri 0x02 4 5 p.1 1 0xFFFFFFFE, p.2 ⟨4, 5, 0xFFFFFFFE, true⟩)) ++
    ([(0x10, .shlImm), (0x11, .shrImm), (0x12, .sarImm), (0x13, .rolImm)] : List (BitVec 6 × (ShiftRI → Instr))).map
      (fun p => (ri 0x02 4 5 p.1 0 63, p.2 ⟨4, 5, 63, false⟩)) ++
    [(0x0245168000000020, .minuImm ⟨17, 17, 32, false⟩)]) := .of (by decide +kernel)

/-- OP 0x03, 0x04, 0x05 and 0x1E. -/
theorem test_decode_scalar_more : Decodes ([(rr 0x03 4 5 6 7 0 0 0 0, .sel 4 5 6 7)] ++
    ([(1, .clz), (2, .ctz), (3, .popc), (4, .bswap)] : List (BitVec 6 × (UnaryRR → Instr))).map
      (fun p => (rr 0x03 4 5 0 0 p.1 1 0 0, p.2 ⟨4, 5, true⟩)) ++
    ([(0, .mul), (4, .div), (5, .divu), (6, .rem)] : List (BitVec 6 × (ScalarRR → Instr))).map
      (fun p => (rr 0x04 4 5 6 0 p.1 1 0 0, p.2 ⟨4, 5, .reg 6, true⟩)) ++
    ([(1, .mulh), (2, .mulhu)] : List (BitVec 6 × (ScalarRR → Instr))).map
      (fun p => (rr 0x04 4 5 6 0 p.1 0 0 0, p.2 ⟨4, 5, .reg 6, false⟩)) ++
    [(0x041851001C000000, .remu ⟨6, 5, .reg 4, false⟩), (ri 0x05 4 5 1 0 0x2C8, .bfi ⟨4, 5, 8, 11⟩),
     (ri 0x1E 5 0 1 0 7, .lih 5 7)]) := .of (by decide +kernel)

/-- OP 0x20 and 0x21. -/
theorem test_decode_fp : Decodes (([(1, .fsub), (2, .fmul), (3, .fdiv)] : List (BitVec 6 × (FpBin → Instr))).map
      (fun p => (rr 0x20 4 5 6 0 p.1 (4 + 8) 0 0, p.2 ⟨4, 5, .reg 6, .fp16, .rd⟩)) ++
    ([(4, .fmin), (5, .fmax)] : List (BitVec 6 × (FpMinMax → Instr))).map
      (fun p => (rr 0x20 4 5 6 0 p.1 16 0 0, p.2 ⟨4, 5, .reg 6, .bf16⟩)) ++
    [(rr 0x20 4 5 0 0 6 3 0 0, .fsqrt 4 5 .fp32 .ru), (rr 0x20 4 5 6 7 7 5 0 0, .ffma ⟨4, 5, .reg 6, 7, .fp32, .rna⟩),
     (rr 0x21 4 5 0 0 1 8 0 0, .fclass 4 5 .fp16), (rr 0x21 4 5 0 0xA 2 1 0 8, .fcvt ⟨4, 5, .bf16, .fp32, .rne⟩),
     (rr 0x21 4 5 0 0 3 8 0 0, .fmv 4 5 .fp16)]) := .of (by decide +kernel)

/-- OP 0x32. -/
theorem test_decode_jump : Decodes [(rr 0x32 4 5 0 0 0 0 0 0, .callr 4 5), (rr 0x32 0 5 0 0 1 0 0 0, .jr 5),
    (rr 0x32 0 31 0 0 2 0 0 0, .ret 31)] := .of (by decide +kernel)

/-- OP 0x40, 0x41, 0x44 and 0x45: v1, v2, v3 under p4 with `.fd` and `.fb`. -/
theorem test_decode_vector : Decodes ([(rr 0x40 33 34 35 4 1 2 0 4, .vsub ⟨1, 2, 3, 4, .u16, true, false, false, false⟩),
      (rr 0x40 33 34 0 4 6 2 0 3, .vabs ⟨1, 2, 4, .i16, true, false, false⟩)] ++
    ([(0x40, 2, .vmul), (0x40, 3, .vmulh), (0x40, 4, .vmin), (0x40, 5, .vmax), (0x41, 0, .vand), (0x41, 1, .vor),
      (0x41, 2, .vxor), (0x41, 3, .vandn), (0x41, 8, .vshl), (0x41, 9, .vshr), (0x41, 10, .vsar)] :
      List (BitVec 8 × BitVec 6 × (VBin → Instr))).map
      (fun p => (rr p.1 33 34 35 4 p.2.1 20 0 6, p.2.2 ⟨1, 2, 3, 4, .u32, true, false, true⟩)) ++
    ([(1, .vfsub), (2, .vfmul)] : List (BitVec 6 × (VFBin → Instr))).map
      (fun p => (rr 0x44 33 34 35 4 p.1 8 0 0x48, p.2 ⟨1, 2, 3, 4, .fp32, .rd, false, true, false⟩)) ++
    ([(4, .vfmin), (5, .vfmax)] : List (BitVec 6 × (VBin → Instr))).map
      (fun p => (rr 0x44 33 34 35 4 p.1 0 0 9, p.2 ⟨1, 2, 3, 4, .fp16, false, false, false⟩)) ++
    ([(0x44, 6, .vfabs), (0x44, 7, .vfneg), (0x45, 0, .vexp2), (0x45, 1, .vrcp), (0x45, 2, .vrsq)] :
      List (BitVec 8 × BitVec 6 × (VUn → Instr))).map
      (fun p => (rr p.1 33 34 0 4 p.2.1 24 0 10, p.2.2 ⟨1, 2, 4, .bf16, true, true⟩)) ++
    [(0x44A29A800C000008, .vffma ⟨8, 9, 10, 0, .fp32, .mode, false, false, false⟩)]) := .of (by decide +kernel)

/-- OP 0x48 to 0x50 and 0x58; the words in hexadecimal are the manual's own. -/
theorem test_decode_vector_more : Decodes [
    (rr 0x48 2 34 35 4 1 8 0 0x309, .vfcmp ⟨2, 2, 3, 4, .fp16, .un, true, false⟩),
    (rr 0x48 33 34 35 4 2 0 0 0, .vsel ⟨1, 2, 3, 4, false, false, false⟩),
    (rr 0x4C 33 34 35 4 0 16 0 0, .vperm ⟨1, 2, 3, 4, true, false, false⟩),
    (0x4C921A0004000008, .vlut ⟨4, 1, 8, 0, .fp32, false, false, false⟩), (0x4D9C900000000005, .vsplat ⟨7, 9, 0, .i32, false⟩),
    (ri 0x4E 33 5 0 3 31, .vins 1 5 .i16 31), (0x4B824A0000002808, .vdot ⟨0, 4, 8, 0, .fp32, .bf16, .mode, false, false, false, false⟩),
    (0x4B16400004000008, .vred ⟨5, 4, 0, .fp32, .mode, false, false⟩),
    (rr 0x4B 33 34 0 4 2 18 0 5, .vscan ⟨1, 2, 4, .i32, .mode, true, true, false⟩),
    (rr 0x50 5 2 0 0 1 0 0 3, .pcnt 5 2 .i16), (0x5800000000000803, .rep 3 0 1)] := .of (by decide +kernel)

/-- OP 0x60 to 0x68. -/
theorem test_decode_memory : Decodes [
    (0x6130F00300000000, .st ⟨12, 15, 0, 0, .d, .none⟩), (0x6290500200000040, .vld ⟨4, 5, 0, 0x40, 2, .none, false⟩),
    (rr 0x62 36 5 6 2 1 (3 + 4) 0 0xFFFFF, .vst ⟨4, 5, 6, 0xFFFFF, 2, .keep, true⟩),
    (0x629859D108000000, .vgat ⟨6, 5, 7, 0, 1, .w, .none, false, false⟩),
    (rr 0x62 36 5 38 2 3 (1 + 8) 0 0, .vsca ⟨4, 5, 6, 0, 2, .b, .nt, false, true⟩),
    (0x6414000000700000, .ldk 5 0 0 .d false), (rr 0x66 0 48 55 0 0 0 0 0, .pushm true 16 23),
    (0x660105C004000000, .popm false 16 23), (rr 0x68 0 5 6 0 0 2 0 8, .pref ⟨5, 6, 8, .ev⟩),
    (0x6800500004000000, .cflush 5 0 0)] := .of (by decide +kernel)

/-- OP 0x70 to 0x73. -/
theorem test_decode_message : Decodes (([(0, .amoAdd), (1, .amoMin), (2, .amoMax), (3, .amoMinu), (4, .amoMaxu),
      (5, .amoAnd), (6, .amoOr), (7, .amoXor), (8, .amoSwap), (9, .amoCas)] : List (BitVec 6 × (AmoOp → Instr))).map
      (fun p => (rr 0x70 4 5 9 3 p.1 0 0 0x10, p.2 ⟨4, 5, 9, 0x10, true⟩)) ++
    [(0x701C520228000000, .amoFadd ⟨7, 5, 8, 0, false⟩), (0x7200000008000000, .hret), (0x721800000C000000, .sqstat 6),
     (0x7300518000000009, .dep 5 6 (.xreg 9)), (0x730051800000006A, .dep 5 6 (.vall 10)),
     (rr 0x73 0 5 6 0 0 0 0 0x52A, .dep 5 6 (.vlane 10 5)), (rr 0x73 0 5 6 0 0 0 0 0x800, .dep 5 6 .fpmode)]) :=
  .of (by decide +kernel)

/-- OP 0x78 to 0x81. -/
theorem test_decode_wait : Decodes [(0x78FC003FFC000000, .wait 63 0 0 63 63),
    (tl 0x7A 0 0 0 0 0 0 0 0 0 0 0, .bar), (0x7A00700400000000, .bexp 0 7), (0x7A00000800000000, .bwait 0),
    (0x7A40000C00000000, .bpoll 16 0), (0x8000500000000000, .cpset 0 5), (0x8024000400000000, .cpgo 9),
    (0x8030900800000000, .cpst 12 9), (0x8100518000000020, .mcrd 5 6 0 32)] := .of (by decide +kernel)

/-- OP 0x84 to 0x92. -/
theorem test_decode_tile : Decodes [(0x840050000C000000, .tdef 12 5), (0x840003440C001000, .tfill (.tile 12) 1 13),
    (0x8400734603002000, .tfill (.lit 3 7) 2 13), (0x840003480C001000, .tdrain (.tile 12) 1 13),
    (0x8424000C0C000000, .tstat 9 (.tile 12)), (0x861C000203000000, .lnext 7 3), (0x8620000603000000, .lget 8 3),
    (0x900E494000000000, .hmake 3 4 5), (0x9004500004000000, .hld 1 5), (0x9004700008000000, .hst 1 7),
    (0x902010000C000002, .hq 8 1 2), (0x9100108000000000, .relay 1 2), (0x9100100004000000, .hwait 1),
    (0x9238134000000000, .ldh 14 1 13), (0x9238134004000000, .sth 14 1 13), (0x9290134208000000, .vldh ⟨4, 1, 13, 2, false⟩),
    (0x929013420C000000, .vsth ⟨4, 1, 13, 2, false⟩)] := .of (by decide +kernel)

/-- OP 0x98 and 0x99. -/
theorem test_decode_matrix : Decodes [(rr 0x98 0 0 0 0 0 0 0 0, .leash), (rr 0x98 0 0 0 0 1 0 0 0, .unleash),
    (0x9900000000000000, .mzero), (0x995000040408287B, .mmat ⟨.tile 4, .tile 8, .e4m3, true, true, true, false, 40, 20⟩),
    (0x9900724B0001000A, .mmam ⟨.lit 0 7, .lit 1 9, .bf16, false, false, false, false, 0, 0⟩),
    (0x9900E00C00000000, .mdrain 14), (0x9900000C32000001, .mdrainTile (.tile 50)), (0x9900C01000000000, .mrow 12)] :=
  .of (by decide +kernel)

/-- OP 0xA0 to 0xA5. -/
theorem test_decode_reaction : Decodes [(rr 0xA0 0 0 0 0 2 0 0 0, .abort), (rr 0xA0 0 0 0 0 3 0 0 0, .reject),
    (0xA103E00000000001, .emit 30 true), (0xA314610000000000, .kscan 5 6 0), (0xA320014000000000, .arbrd 8 0),
    (0xA400518000000000, .runq 5 6), (0xA52862000000002D, .fork 10 6 8 0x2D), (rr 0xA5 0 0 0 0 1 0 0 0, .join)] :=
  .of (by decide +kernel)

/-- OP 0xA8 to 0xAB. -/
theorem test_decode_clause : Decodes [(0xA810000000000000, .cclaim 4), (rr 0xA8 0 0 0 0 1 0 0 0, .cfree),
    (0xA900684000000000, .cload 6 1), (0xA900600004000000, .cdrop 6), (0xAA00D00000000000, .cdec 13),
    (0xAA28000004000000, .cprop 10), (0xAA01100008000000, .cback 17), (0xAB38C00000000000, .ctrail 14 12),
    (0xAB38D00004000000, .crow 14 13), (0xAB40000008000000, .cconf 16)] := .of (by decide +kernel)

/-- OP 0xF0 to 0xF3, with the numbers of R115. -/
theorem test_decode_system : Decodes ([(0xF02C000000020000, .getsr 11 .tpc), (0xF000B04000020000, .putsr .tpc 11),
    (sy 0xF0 5 0 0 0x40D 0, .getsr 5 (.hashmask 13)),
    (0xF100004000000005, .brk 5), (sy 0xF2 0 0 0 0 0, .yield), (0xF300500000000008, .tlbinv 5 false 2)] ++
    ([(0x00, .putsrTstat 5), (0x09, .putsrFpflags 5), (0x108, .lsplitWrite 5), (0x109, .vgroupWrite 5),
      (0x40D, .hashmaskWrite 13 5), (0x411, .bktdataWrite 5), (0x432, .fwinWrite 2 5), (0x100, .cluflagsWrite 5),
      (0x101, .packflagsWrite 5), (0x470, .ptrootWrite 5)] : List (BitVec 16 × Instr)).map
      fun p => (sy 0xF0 0 5 1 p.1 0, p.2)) := .of (by decide +kernel)

/-- The traps of R67's table. -/
theorem test_decode_traps : (([(0x0000000000000000, 0x01, 0x00), (0xFFFFFFFFFFFFFFFF, 0x01, 0xFF),
    (0x0000000000000001, 0x02, 0x0000), (0xA000000000000000, 0x02, 0x00A0), (0x448628C00000006A, 0x02, 0x0044),
    (0x01A0000000000000, 0x06, 0x28000001)] : List (Word × Nat × Word)).all fun p =>
      match decodeWord p.1 with
      | .error e => decide (DecodeTrap.cause e = p.2.1 ∧ e.tval = p.2.2)
      | .ok _ => false) = true := by decide +kernel

/-- A word in every group that misses one condition of check 4 or check 5 of R66. -/
theorem test_decode_refuses : ([rr 0x01 4 5 6 1 0 0 0 0, ri 0x02 4 5 0 2 0, rr 0x03 4 5 6 0 1 0 0 0,
    ri 0x02 4 5 0x10 1 32, rr 0x04 4 5 6 0 3 0 0 0, ri 0x05 4 5 0 0 0xFFF, rr 0x20 4 5 6 0 0 24 0 0,
    rr 0x21 4 5 6 7 0 0 0 0, rr 0x40 33 34 35 8 0 0 0 5, rr 0x41 33 34 35 0 4 0 0 5, rr 0x44 33 34 35 0 0 0 0 5,
    rr 0x48 2 34 35 0 0 0 0 0x305, rr 0x4B 33 34 0 0 2 0 0 0xB, ri 0x4E 33 5 0 3 32, rr 0x60 4 5 6 8 0 0 0 0,
    rr 0x64 5 0 0 0 0 0 0 0, rr 0x66 0 23 16 0 0 0 0 0, rr 0x70 4 5 6 1 0 0 0 0, rr 0x70 4 5 6 3 0xA 0 0 0,
    rr 0x79 0 0 0 0 0 28 0 0, tl 0x81 0 5 6 0 0 0 0 0 0 0 0, tl 0x84 0 7 0 4 1 0 0x13 0 0 0 0, rr 0x90 16 4 5 0 0 0 0 0,
    tl 0x99 0 0 0 1 0 0 4 8 0 0 8, rr 0xA5 31 6 8 0 0 0 0 1, sy 0xF0 0 5 1 0x22 0] : List Word).all
    (fun w => (decodeWord w).toBool == false) = true := by decide +kernel

/-! ## Ill-formed operations, one for each check of `Instr.wf` -/

/-- Each check refuses an operation that misses it alone. -/
theorem test_wf_refuses : ([
    .shlImm ⟨1, 2, 32, true⟩, .shrImm ⟨1, 2, 40, true⟩, .sarImm ⟨1, 2, 63, true⟩, .rolImm ⟨1, 2, 32, true⟩,
    .bfx ⟨1, 2, 60, 4⟩ false, .bfi ⟨1, 2, 1, 63⟩, .fcvt ⟨1, 2, .i32, .i64, .mode⟩, .fcvt ⟨1, 2, .fp32, .fp32, .mode⟩,
    .fcvt ⟨1, 2, .bytes, .fp32, .mode⟩, .fcvt ⟨1, 2, .fp32, .bytes, .mode⟩,
    .bCond .al 1 0 .none 0, .bCond .al 0 1 .none 0, .loop 0 .none 0,
    .vadd ⟨1, 2, 3, 0, .fp32, false, false, false, false⟩, .vsub ⟨1, 2, 3, 0, .lg6, false, false, false, false⟩,
    .vmul ⟨1, 2, 3, 0, .bytes, false, false, false⟩, .vmulh ⟨1, 2, 3, 0, .fp16, false, false, false⟩,
    .vmin ⟨1, 2, 3, 0, .bf16, false, false, false⟩, .vmax ⟨1, 2, 3, 0, .e4m3, false, false, false⟩,
    .vabs ⟨1, 2, 0, .u8, false, false, false⟩,
    .vand ⟨1, 2, 3, 0, .fp32, false, false, false⟩, .vor ⟨1, 2, 3, 0, .fp16, false, false, false⟩,
    .vxor ⟨1, 2, 3, 0, .e5m2, false, false, false⟩, .vandn ⟨1, 2, 3, 0, .lg6, false, false, false⟩,
    .vshl ⟨1, 2, 3, 0, .bytes, false, false, false⟩, .vshr ⟨1, 2, 3, 0, .fp32, false, false, false⟩,
    .vsar ⟨1, 2, 3, 0, .bf16, false, false, false⟩] : List Instr).all (fun i => i.wf == false) = true := by decide +kernel

theorem test_wf_refuses_vector : ([
    .vfadd ⟨1, 2, 3, 0, .i32, .mode, false, false, false⟩, .vfsub ⟨1, 2, 3, 0, .e4m3, .mode, false, false, false⟩,
    .vfmul ⟨1, 2, 3, 0, .bytes, .mode, false, false, false⟩, .vffma ⟨1, 2, 3, 0, .lg6, .mode, false, false, false⟩,
    .vfmin ⟨1, 2, 3, 0, .i8, false, false, false⟩, .vfmax ⟨1, 2, 3, 0, .u32, false, false, false⟩,
    .vfabs ⟨1, 2, 0, .i16, false, false⟩, .vfneg ⟨1, 2, 0, .e5m2, false, false⟩, .vexp2 ⟨1, 2, 0, .i32, false, false⟩,
    .vrcp ⟨1, 2, 0, .e4m3, false, false⟩, .vrsq ⟨1, 2, 0, .bytes, false, false⟩,
    .vcmp ⟨1, 2, 3, 0, .fp32, .lt, false, false⟩, .vcmp ⟨1, 2, 3, 0, .i32, .un, false, false⟩,
    .vfcmp ⟨1, 2, 3, 0, .i32, .lt, false, false⟩, .vlut ⟨1, 2, 29, 0, .i32, false, false, false⟩,
    .vlut ⟨1, 2, 3, 0, .bytes, false, false, false⟩, .vsplat ⟨1, 2, 0, .bytes, false⟩,
    .vins 1 2 .i32 16, .vext 1 2 .bytes 0, .vcvt ⟨1, 2, 0, .i32, .i32, .mode, false, false, false⟩,
    .vcvt ⟨1, 2, 0, .i8, .i32, .rz, false, false, false⟩, .vcvt ⟨1, 2, 0, .i32, .i8, .mode, true, false, false⟩,
    .vcvt ⟨1, 2, 0, .i8, .fp32, .mode, true, false, false⟩, .vcvt ⟨1, 2, 0, .bytes, .fp32, .mode, false, false, false⟩,
    .vdot ⟨1, 2, 3, 0, .fp32, .i8, .mode, false, false, false, false⟩,
    .vdot ⟨1, 2, 3, 0, .i32, .i8, .rz, false, false, false, false⟩,
    .vdot ⟨1, 2, 3, 0, .fp32, .fp16, .mode, true, false, false, false⟩,
    .vred ⟨1, 2, 0, .e4m3, .mode, false, false⟩, .vred ⟨1, 2, 0, .i32, .rz, false, false⟩,
    .vscan ⟨1, 2, 0, .fp32, .mode, true, false, false⟩, .plog .not 1 2 3] : List Instr).all (fun i => i.wf == false) = true := by
  decide +kernel

theorem test_wf_refuses_rest : ([
    .pushm false 5 4, .popm true 5 4, .amoFadd ⟨1, 2, 3, 0, true⟩, .send ⟨1, some 2, 0, 65, .none⟩,
    .send ⟨1, none, 0, 8, .none⟩, .dep 1 2 (.xreg 0), .mcrd 1 2 0 0, .mcrd 1 2 0 129, .hq 1 2 19,
    .mmat ⟨.tile 0, .tile 1, .fp32, false, false, false, false, 0, 0⟩, .mmat ⟨.tile 0, .tile 1, .fp16, false, false, false, true, 0, 0⟩,
    .mmat ⟨.tile 0, .tile 1, .i8, true, false, false, false, 0, 0⟩, .mmam ⟨.tile 0, .tile 1, .fp16, false, false, false, false, 1, 0⟩,
    .mmam ⟨.tile 0, .tile 1, .fp16, false, false, false, false, 0, 1⟩, .kscan 1 2 5, .fork 0 1 2 1, .fork 31 1 2 1,
    .fork 1 2 3 0, .getsr 1 (.hashmask 14), .putsr .rank 1, .tlbinv 1 true 0, .hashmaskWrite 14 1] : List Instr).all
    (fun i => i.wf == false) = true := by decide +kernel

/-! ## A small state, and the terms of the statements as checks -/

/-- One thread set of a GANG run, at VA 0x10000 of a page that maps to itself. -/
def base : State := { State.reset.withFetchWord 64 0 with cur := ⟨0, 0, 0⟩, agenda := [], pending := [] }

/-- The run of `base`, with fields added to its record at the given bits. -/
def runWith (l : List (Nat × Nat)) : Run :=
  { placedRun with rec_ := BitVec.ofNat 2048 (placedRun.rec_.toNat + (l.map (fun p => p.2 * 2 ^ p.1)).sum) }

/-- `base` with fields added to its run's record. -/
def withRec (l : List (Nat × Nat)) : State := base.setRun 1 (runWith l)

/-- A state with x registers set. -/
def xs (s : State) (l : List (XReg × Word)) : State := l.foldl (fun s p => s.updMe (·.setX p.1 p.2)) s

/-- The run of `base` with a trap vector. -/
def vec : State := withRec [(448, 0x10008)]
def vecRun : Run := runWith [(448, 0x10008)]

/-- `base` with a constant window k3 of two words. -/
def cw : State := base.setRun 1 { placedRun with cwins := [(3, leBytes 8 0x1122334455667788)] }

/-- A firmware core of function 1, in supervisor mode. -/
def fw : State := { base with cur := TsId.firmware 1 }

/-- `base` in supervisor mode. -/
def sup : State := base.updMe (fun t => { t with mode := true })

theorem readable_iff {s : State} {rs : List XReg} :
    s.readable rs ↔ (rs.all fun r => !s.me.awaiting r && s.me.pend.all fun p => decide (p.reg ≠ some r)) = true := by
  simp [State.readable]

theorem inRun_iff {s : State} {x : Run} : s.InRun x ↔ isFirmware s.cur = false ∧ s.myRun? = some x :=
  ⟨fun h => ⟨h.1, h.2⟩, fun h => ⟨h.1, h.2⟩⟩

theorem vectored_iff {s : State} {x : Run} : s.Vectored x ↔
    isFirmware s.cur = false ∧ s.myRun? = some x ∧ s.me.intrap = false ∧ Rec.trapvec x.rec_ ≠ 0 :=
  ⟨fun h => ⟨h.1, h.2, h.3, h.4⟩, fun h => ⟨h.1, h.2.1, h.2.2.1, h.2.2.2⟩⟩

theorem leads_iff {s : State} {need : Need} {va : Word} {size pa : Nat} {q : Place} : s.Leads need va size pa q ↔
    isFirmware s.cur = false ∧ va.toNat < 2 ^ 49 ∧ va.toNat % size = 0 ∧ inScratch va.toNat = false ∧
    s.me.refused ≠ some (va >>> 16) ∧ (∃ e ∈ tlbFind (s.vfOf s.cur) va.toNat s.myCore.tlb, 16 ≤ e.bits ∧ e.pa % 2 ^ e.bits = 0 ∧
      e.permits need = true ∧ e.phys va.toNat = pa) ∧ s.place pa = .ok q ∧
    (q = .dram → s.homeDown (s.vfOf s.cur) pa = false) :=
  ⟨fun h => ⟨h.1, h.2, h.3, h.4, h.5, h.6, h.7, h.8⟩,
   fun h => ⟨h.1, h.2.1, h.2.2.1, h.2.2.2.1, h.2.2.2.2.1, h.2.2.2.2.2.1, h.2.2.2.2.2.2.1, h.2.2.2.2.2.2.2⟩⟩

theorem inScratch_iff {s : State} {va : Word} {size off : Nat} : s.InScratch va size off ↔
    isFirmware s.cur = false ∧ va.toNat = scratchBase + off ∧ off % size = 0 ∧ off < s.myCore.scratchSize ∧
    s.myCore.scratchSize ≤ 0x40000 :=
  ⟨fun h => ⟨h.1, h.2, h.3, h.4, h.5⟩, fun h => ⟨h.1, h.2.1, h.2.2.1, h.2.2.2.1, h.2.2.2.2⟩⟩

theorem inSram_iff {s : State} {va : Word} {size : Nat} : s.InSram va size ↔
    isFirmware s.cur = true ∧ va.toNat < 0x100000 ∧ va.toNat % size = 0 :=
  ⟨fun h => ⟨h.1, h.2, h.3⟩, fun h => ⟨h.1, h.2.1, h.2.2⟩⟩

theorem inDram_iff {s : State} {va : Word} {size : Nat} : s.InDram va size ↔
    isFirmware s.cur = true ∧ (0x100000 ≤ va.toNat ∧ va.toNat < 2 ^ 52) ∧ va.toNat % size = 0 ∧
    s.place va.toNat = .ok .dram ∧ s.homeDown s.cur.core va.toNat = false :=
  ⟨fun h => ⟨h.1, h.2, h.3, h.4, h.5⟩, fun h => ⟨h.1, h.2.1, h.2.2.1, h.2.2.2.1, h.2.2.2.2⟩⟩

theorem holdsLeash_iff {s : State} : s.HoldsLeash ↔ s.isGang = true ∧ s.arrayDown s.cur.cluster = false ∧
    s.isHolder s.cur = true ∧ s.myCluster.array.grantCount < 64 ∧ s.fclk < s.myCluster.array.grantStart + 24576 ∧
    s.me.chain.blockErr = false ∧ s.myCluster.badRows = [] :=
  ⟨fun h => ⟨h.1, h.2, h.3, h.4, h.5, h.6, h.7⟩,
   fun h => ⟨h.1, h.2.1, h.2.2.1, h.2.2.2.1, h.2.2.2.2.1, h.2.2.2.2.2.1, h.2.2.2.2.2.2⟩⟩

theorem holdsClauses_iff {s : State} {c : ClauseArray} : s.HoldsClauses c ↔
    s.clauseContext = true ∧ s.myClause = ⟨c, some s.clauseSelf, true, false⟩ :=
  ⟨fun h => ⟨h.1, h.2⟩, fun h => ⟨h.1, h.2⟩⟩

theorem boxFits_iff {s : State} {h : HWord} {w : Word} {n : TileIx} : s.BoxFits h w n ↔ h ≠ 0 ∧ HWord.validate h = none ∧
    h.coordsOk (unpackCoords w) = true ∧ boxDim h 0 * h.esize ≤ tdRowBytes (s.desc n) ∧
    boxDim h 1 * boxDim h 2 * boxDim h 3 ≤ tdRows (s.desc n) :=
  ⟨fun h => ⟨h.1, h.2, h.3, h.4, h.5⟩, fun h => ⟨h.1, h.2.1, h.2.2.1, h.2.2.2.1, h.2.2.2.2⟩⟩

theorem inBody_iff {s : State} {k : ActKey} {a : Act} : s.InBody k a ↔ isFirmware s.cur = false ∧
    (s.me.ctx = .act ∨ s.me.ctx = .helper) ∧ s.me.act = some k ∧ s.act? k = some a :=
  ⟨fun h => ⟨h.1, h.2, h.3, h.4⟩, fun h => ⟨h.1, h.2.1, h.2.2.1, h.2.2.2⟩⟩

theorem inReaction_iff {s : State} {k : ActKey} {a : Act} : s.InReaction k a ↔ isFirmware s.cur = false ∧
    (s.me.ctx = .act ∨ s.me.ctx = .helper ∨ (s.me.ctx = .hand ∧ s.handlerReact = true)) ∧ s.me.act = some k ∧
    s.act? k = some a :=
  ⟨fun h => ⟨h.1, h.2, h.3, h.4⟩, fun h => ⟨h.1, h.2.1, h.2.2.1, h.2.2.2⟩⟩

/-! ## One step -/

/-- R51, R104: the step fetches the placed word `li x5, #7` and runs it. -/
theorem test_step_li : (match Machine.step (State.reset.withFetchWord 64 0x1E14000000000007) with
    | .next t => decide ((t.thread ⟨0, 0, 0⟩).getX 5 = 7 ∧ (t.thread ⟨0, 0, 0⟩).pc = 0x10008)
    | _ => false) = true := by decide +kernel

/-! ## States and operands that meet the hypotheses of the statements -/

theorem witness_ScalarBinaryResult :
    (base.readable (1 :: regsOf (.reg 2)) ∧ base.bValue (.reg 2) = some 0) ∧
    (cw.readable (1 :: regsOf (.cw 3 1)) ∧ cw.bValue (.cw 3 1) = some 0x11223344) := by
  simp only [readable_iff]; decide +kernel

theorem witness_ScalarImmediateResult : base.readable [1] ∧ (Instr.shlImm ⟨1, 1, 31, true⟩).wf = true ∧
    (Instr.rolImm ⟨1, 1, 63, false⟩).wf = true := by simp only [readable_iff]; decide +kernel

theorem witness_AddSubDivResult : base.readable (1 :: regsOf (.reg 2)) ∧ base.bValue (.reg 2) = some 0 ∧
    State.bValue (xs base [(2, 0xFFFFFFFFFFFFFFFF)]) (.reg 2) = some 0xFFFFFFFFFFFFFFFF := by simp only [readable_iff]; decide +kernel

theorem witness_ScalarUnaryFieldResult : base.readable [1, 2, 3] ∧ (Instr.bfx ⟨1, 2, 63, 0⟩ true).wf = true ∧
    (Instr.bfi ⟨1, 2, 0, 63⟩).wf = true := by simp only [readable_iff]; decide +kernel

theorem witness_TrappingForms :
    (cw.bValue (.cw 3 2) = none ∧ cw.bValue (.cw 4 0) = none ∧ cw.readable [1]) ∧
    (let s := base.updMe (fun t => { t with pc := 0x1FFFFFFFFFFF8 })
     2 ^ 49 ≤ (s.me.pc + (1 : BitVec 32).signExtend 64 * 8).toNat ∧ s.readable [1, 2] ∧ s.me.getX 1 = s.me.getX 2 ∧
       (1 : XReg) ≠ 0 ∧ s.me.getX 1 ≠ 1) ∧
    (let s := xs base [(1, 0x10001), (2, 0x2000000000000)]
     s.readable [1] ∧ (s.me.getX 1).toNat % 8 ≠ 0 ∧ (s.me.getX 2).toNat % 8 = 0 ∧ 2 ^ 49 ≤ (s.me.getX 2).toNat) ∧
    (let s := xs base [(1, 0x1000000000000)]
     (Instr.putsr .waitlim 1).wf = true ∧ s.mayAccess .waitlim true = true ∧ s.readable [1] ∧
       (s.me.getX 1 &&& ~~~BitVec.ofNat 64 (srMask .waitlim)) ≠ 0) ∧
    (16 ≤ ((xs base [(1, 16)]).me.getX 1).toNat ∧ 4 < ((xs base [(1, 5)]).me.getX 1).toNat % 8 ∧
      (xs base [(1, 16)]).readable [1]) ∧ base.me.mode = false := by simp only [readable_iff]; decide +kernel

theorem witness_FpArithmeticResult : base.readable [1] ∧ base.readable (1 :: 3 :: regsOf (.reg 2)) ∧
    base.bValue (.reg 2) = some 0 := by simp only [readable_iff]; decide +kernel

theorem witness_FpCompareConvertResult : base.readable [1, 2] ∧ base.bValue (.reg 2) = some 0 ∧
    (Instr.fcvt ⟨1, 2, .i64, .fp32, .mode⟩).wf = true ∧ (Instr.fcvt ⟨1, 2, .lg6, .fp32, .rz⟩).wf = true := by
  simp only [readable_iff]; decide +kernel

theorem witness_RoundExactIdentity : fp32.decode 0x3F800000 = .fin false 0x800000 (-23) ∧ 0x3F800000 < 2 ^ fp32.width ∧
    fp32.decode 1 = .fin false 1 (-149) ∧ fp32.decode 0xFF7FFFFF = .fin true 0xFFFFFF 104 := by decide +kernel

theorem witness_BranchResult :
    (base.readable [1, 2] ∧ base.me.getX 1 = base.me.getX 2 ∧
      (base.me.pc + (0xFFFFE000 : BitVec 32).signExtend 64 * 8).toNat < 2 ^ 49 ∧
      (base.me.pc + (5 : BitVec 32).signExtend 64 * 8).toNat < 2 ^ 49 ∧
      ¬ (base.me.getX 1).toInt < (base.me.getX 2).toInt) ∧
    ((1 : XReg) ≠ 0 ∧ base.readable [1] ∧ base.me.getX 1 ≠ 1 ∧ (xs base [(1, 1)]).me.getX 1 = 1) ∧
    (let s := xs base [(1, 0x1FFFFFFFFFFF8)]
     s.readable [1] ∧ (s.me.getX 1).toNat % 8 = 0 ∧ (s.me.getX 1).toNat < 2 ^ 49) ∧
    (let s := xs base [(1, 0x1FFFFFFFFFFFF), (2, 0x2000000000000)]
     s.readable [1] ∧ s.readable [2] ∧ (s.me.getX 1).toNat % 8 ≠ 0 ∧ (s.me.getX 1).toNat < 2 ^ 49 ∧
       (s.me.getX 2).toNat % 8 = 0 ∧ 2 ^ 49 ≤ (s.me.getX 2).toNat) ∧
    decodeWord 0x3210500000000000 = .ok (.callr 4 5) ∧ decodeWord 0x3200500004000000 = .ok (.jr 5) ∧
    decodeWord 0x3200500008000000 = .ok (.ret 5) := by simp only [readable_iff]; decide +kernel

theorem witness_TrapEntry : vec.Vectored vecRun := by rw [vectored_iff]; decide +kernel

theorem witness_TrapWordsAndRunEnd : vec.Vectored vecRun ∧
    (let s := vec.updMe (fun t => { t with intrap := true })
     s.InRun vecRun ∧ s.me.run = some 1 ∧ s.me.act = none ∧ vecRun.stop = none ∧ s.me.intrap = true) ∧
    (base.InRun placedRun ∧ base.me.run = some 1 ∧ base.me.act = none ∧ Rec.trapvec placedRun.rec_ = 0 ∧
      base.me.ctx = .gang) := by simp only [vectored_iff, inRun_iff]; decide +kernel

theorem witness_SystemWordsResult :
    (sup.me.mode = true ∧ sup.me.tpc.toNat % 8 = 0 ∧ sup.me.tpc.toNat < 2 ^ 49) ∧
    (let t := (base.updMe (fun t => { t with intrap := true, tpc := 0x2000000000000 })).me
     t.intrap = true ∧ t.pmode = false ∧ t.tpc.toNat % 8 = 0 ∧ 2 ^ 49 ≤ t.tpc.toNat) ∧
    (sup.updMe (fun t => { t with tpc := 4 })).me.tpc.toNat % 8 ≠ 0 ∧
    ¬ (base.me.mode = true ∨ (base.me.intrap = true ∧ base.me.pmode = false)) ∧
    isFirmware fw.cur = true ∧ fw.me.rep = none ∧
    (base.isGang = true ∧ base.me.cnt = Counts.zero ∧ base.me.pend = []) ∧
    (base.updMe (fun t => { t with cnt := ⟨0, 1, 0, 0, 0⟩ })).me.cnt ≠ Counts.zero ∧
    (sup.me.mode = true ∧ sup.readable [1]) ∧ (fw.me.mode = true ∧ fw.readable [1]) := by simp only [readable_iff]; decide +kernel

theorem witness_GetsrResult : base.InRun placedRun ∧ base.cur.set ≠ 4 ∧ (sup.InRun placedRun ∧ sup.me.mode = true) ∧
    isFirmware fw.cur = true ∧ fw.me.mode = true ∧ (3 : BitVec 4).toNat < 14 ∧
    (let s := { base with cur := TsId.firmware 0 }
     isFirmware s.cur = true ∧ s.me.mode = true ∧ s.cur.core = 0) := by simp only [inRun_iff]; decide +kernel

theorem witness_PutsrResult :
    ((xs base [(1, 0x40000)]).readable [1] ∧ srAdmits .spillsp ((xs base [(1, 0x40000)]).me.getX 1) = true ∧
      srAdmits .tpc (base.me.getX 1) = true) ∧
    (sup.me.mode = true ∧ sup.readable [1] ∧ srAdmits .tcause (sup.me.getX 1) = true ∧ srAdmits .tstat ((xs sup [(1, 0x3F)]).me.getX 1) = true) ∧
    (isFirmware fw.cur = true ∧ fw.me.mode = true ∧ fw.readable [1] ∧ srAdmits .bktidx ((xs fw [(1, 0xFFFF)]).me.getX 1) = true) ∧
    (((xs base [(1, 12)]).me.getX 1).toNat % 8 ≤ 4 ∧ ((xs base [(1, 12)]).me.getX 1).toNat < 16) ∧
    ((xs sup [(1, 63)]).me.getX 1).toNat < 64 ∧ (sup.InRun placedRun ∧ sup.me.run = some 1) ∧
    (isFirmware sup.cur = false ∧ ((xs sup [(1, 8)]).me.getX 1).toNat ≤ 8 ∧ sup.scratchBusy sup.cur.cluster sup.cur.core = false) ∧
    ((xs sup [(1, 2)]).me.getX 1).toNat ≤ 2 ∧
    ((13 : BitVec 4).toNat < 14 ∧ (fw.me.getX 1).toNat < 2 ^ 52 ∧ fw.hasReleased fw.cur.core = false) ∧
    (let w := (fw.me.getX 1).toNat
     w < 2 ^ 16 ∧ w < (fw.hub.onNodes kindSlice).length ∧ fw.hub.stateOf ⟨kindSlice, fw.hub.sliceNode w⟩ < 2 ∧
       fw.linesBusy (fun f _ => f == fw.cur.core) = false) ∧
    (fw.hub.fwinOk 0 15 (fw.me.getX 1) = true ∧ fw.linesBusy (fun _ => fw.fwinLines 0 15 (fw.me.getX 1)) = false) ∧ srAdmits .ptroot ((xs fw [(1, 0xFFFFFFFFFC001)]).me.getX 1) = true ∧
    ({ fw with cur := TsId.firmware 0 } : State).hasReleased 0 = true := by
  simp only [readable_iff, inRun_iff]; decide +kernel

/-! ### Memory -/

/-- `base` with its pc's page also at x1, and its core's scratch at x2. -/
def mem : State := xs base [(1, 0x10040), (2, 0x1FFFFFFFC0000)]

/-- `mem` with host memory reachable: FEAT bit 5 active, and a page of it in the core's TLB. -/
def hosted : State := { mem.updCore 0 0 (fun c => { c with tlb := c.tlb ++ [⟨0, 0x20000, 16, 2 ^ 51, true, true, true⟩] }) with
  hub := { mem.hub with active := #v[0x7F, 0, 0, 0] } }

theorem room_of {s : State} {vf pa : Nat}
    (h : (s.fixedWays vf (pa / 256)).length + (s.looseWays vf (pa / 256)).length < 16) : s.room vf pa = some s := by
  unfold State.room
  dsimp only
  split
  · rfl
  · simp [h]

theorem findsWay_of {s : State} {vf pa : Nat} (h : s.lineHeld (pa / 256) = false ∧
    (s.fixedWays vf (pa / 256)).length + (s.looseWays vf (pa / 256)).length < 16) : s.FindsWay vf pa :=
  ⟨h.1, s, room_of h.2, fun _ => rfl⟩

/-- A state after a read of n bytes of a line at its home that needs no way of another. -/
def pulled (s : State) (vf pa n : Nat) : State :=
  { s with lines := NMap.set s.lines (pa / 256) (s.loadedLine (pa / 256) (pa % 256) n false
      ((NMap.find? s.lines (pa / 256)).getD (SliceLine.fresh vf s.fclk false))) }

theorem pull_of {s : State} {vf pa n : Nat}
    (h : (s.fixedWays vf (pa / 256)).length + (s.looseWays vf (pa / 256)).length < 16) :
    s.pull vf pa n false = some (pulled s vf pa n) := by
  unfold State.pull
  rw [room_of h]
  rfl

/-- The first line in the slices changes no byte, where it changes none of its own. -/
theorem pulled_same {s : State} {vf pa n : Nat} (h : s.lines = [] ∧ ∀ i, i < 256 →
    (pulled s vf pa n).byteAt (256 * (pa / 256) + i) = s.byteAt (256 * (pa / 256) + i)) (a : Nat) :
    (pulled s vf pa n).byteAt a = s.byteAt a := by
  by_cases ha : a / 256 = pa / 256
  · have := h.2 (a % 256) (Nat.mod_lt _ (by decide))
    rwa [← ha, Nat.div_add_mod] at this
  · simp [pulled, State.byteAt, NMap.set, NMap.find?, ha, h.1]
    rfl

theorem fetches_of {s : State} {va w : Word} (pa : Nat) (h : s.Leads .x va 8 pa .dram)
    (hp : (s.poisonAt pa 8 = false ∧ s.lineHeld (pa / 256) = false) ∧
      (s.fixedWays (s.vfOf s.cur) (pa / 256)).length + (s.looseWays (s.vfOf s.cur) (pa / 256)).length < 16)
    (hw : w = BitVec.ofNat 64 (leNat ((pulled s (s.vfOf s.cur) pa 8).placeBytes .dram pa 8))) :
    s.FetchesAt va w (pulled s (s.vfOf s.cur) pa 8) :=
  ⟨pa, .dram, h, fun _ => hp.1, pull_of hp.2, hw⟩

theorem inRegion_iff {s : State} {va : Word} {size vf off : Nat} : s.InRegion va size vf off ↔ isFirmware s.cur = true ∧
    (0x100000 ≤ va.toNat ∧ va.toNat < 2 ^ 52) ∧ va.toNat % size = 0 ∧ regionOf va.toNat = some (vf, off) :=
  ⟨fun h => ⟨h.1, h.2, h.3, h.4⟩, fun h => ⟨h.1, h.2.1, h.2.2.1, h.2.2.2⟩⟩

/-- `mem` with a private cache of its core that holds the page's second line, for any time. -/
def copied : State := mem.updCore 0 0 (fun c => { c with lsplit := 4, priv := [⟨0x100, List.replicate 256 7, 9, 0, 63, false, false, 0⟩] })

theorem loads_device : mem.LoadsBytes 0x10040 64 allBytes (List.replicate 64 0) :=
  State.LoadsBytes.device 0x10040 (leads_iff.mpr (by decide +kernel)) (by decide +kernel) (by decide +kernel)
    (by decide +kernel) (Or.inl (by decide +kernel)) (findsWay_of (by decide +kernel))

theorem loads_scratch : mem.LoadsBytes 0x1FFFFFFFFFFF8 8 allBytes (List.replicate 8 0) :=
  State.LoadsBytes.scratch 0x3FFF8 (inScratch_iff.mpr (by decide +kernel)) (by
    have : mem.myCore.poison = [] := by decide +kernel
    intro i _ _
    rw [this]
    rfl)

theorem loads_host : hosted.LoadsBytes 0x20000 8 allBytes (List.replicate 8 0) :=
  State.LoadsBytes.remote (2 ^ 51) .host (leads_iff.mpr (by decide +kernel)) (by decide) (by decide +kernel)
    (by decide +kernel) (Or.inl (by decide +kernel))

theorem loads_copy : copied.LoadsBytes 0x10040 8 allBytes (List.replicate 8 7) :=
  State.LoadsBytes.copy 0x10040 .dram 0 ⟨0x100, List.replicate 256 7, 9, 0, 63, false, false, 0⟩ (leads_iff.mpr (by decide +kernel))
    (by decide +kernel) (by decide +kernel) (by decide +kernel) (by decide +kernel) (by decide +kernel)

theorem loads_sram : fw.LoadsBytes 0xFFFF8 8 allBytes (List.replicate 8 0) :=
  State.LoadsBytes.sram (inSram_iff.mpr (by decide +kernel))

theorem loads_firmware : fw.LoadsBytes 0x100000 8 allBytes (List.replicate 8 0) :=
  State.LoadsBytes.firmware (inDram_iff.mpr (by decide +kernel)) (by decide +kernel)
    (fun i h _ => (by decide +kernel : ∀ i, i < 8 → fw.poisonAt ((0x100000 : Word).toNat + i) 1 = false) i h)
    (by decide +kernel) (Or.inl (by decide +kernel)) (findsWay_of (by decide +kernel)) (by decide +kernel)

theorem loads_region : fw.LoadsBytes 0x2000000021000 8 allBytes (fw.regionRead 1 0x1000 8).2 :=
  State.LoadsBytes.region 1 0x1000 (inRegion_iff.mpr (by decide +kernel))

theorem witness_LoadResult : mem.readable [1, 3] ∧
    mem.LoadsBytes (mem.me.getX 1 + mem.me.getX 3 + (0 : BitVec 20).signExtend 64) 64 allBytes (List.replicate 64 0) ∧
    mem.LoadsBytes (mem.me.getX 2 + mem.me.getX 3 + (0x3FFF8 : BitVec 20).signExtend 64) 8 allBytes (List.replicate 8 0) ∧
    hosted.LoadsBytes 0x20000 8 allBytes (List.replicate 8 0) ∧ copied.LoadsBytes 0x10040 8 allBytes (List.replicate 8 7) ∧
    fw.LoadsBytes 0xFFFF8 8 allBytes (List.replicate 8 0) ∧ fw.LoadsBytes 0x100000 8 allBytes (List.replicate 8 0) ∧
    fw.LoadsBytes 0x2000000021000 8 allBytes (fw.regionRead 1 0x1000 8).2 :=
  ⟨readable_iff.mpr (by decide +kernel), loads_device, loads_scratch, loads_host, loads_copy, loads_sram, loads_firmware,
    loads_region⟩

/-- A REACT activation in `base`'s thread set, with a footprint of 1 line. -/
def rule : Rule := { kinds := [1], prio := 0, paired := false, usesMat := false, usesClause := false, preds := [], foot := 1, entry := 0x10000 }
def key : ActKey := ⟨1, 0, 0⟩
def act : Act :=
  { handler := false, cluster := 0, owner := ⟨0, 0, 0⟩, partner := none, rule := rule, ruleIx := 0, ages := [5], slot := 0,
    tent := [], outside := [], products := [], runqs := [], amos := [], fork := none, phase := 0, stream := [], scans := [],
    pend := [], ending := none, rolled := none, gen := 0, marks := [] }
def acting : State := (base.setAct key act).updMe (fun t => { t with ctx := .act, act := some key })

/-- `acting`, with a private scratch range over the page. -/
def ranged : State := acting.setRun 1 (runWith [(896, 0x10000), (1408, 0x10000)])

theorem stores_direct : mem.StoresAt 0x10040 64 (.direct 0x10040) :=
  State.StoresAt.direct _ (leads_iff.mpr (by decide +kernel)) (by decide +kernel) (by decide +kernel) (by decide +kernel)
    (findsWay_of (by decide +kernel))

theorem stores_scratch : mem.StoresAt 0x1FFFFFFFFFFF8 8 (.scratch 0x3FFF8) :=
  State.StoresAt.scratch _ (inScratch_iff.mpr (by decide +kernel))

theorem stores_private : ranged.StoresAt 0x10040 8 (.direct 0x10040) :=
  State.StoresAt.privateRange key act (runWith [(896, 0x10000), (1408, 0x10000)]) _ (leads_iff.mpr (by decide +kernel))
    (by decide +kernel) (by decide +kernel) (by decide +kernel) (by decide +kernel) (by decide +kernel) (by decide +kernel)
    (by decide +kernel) (by decide +kernel) (findsWay_of (by decide +kernel))

theorem stores_tentative : acting.StoresAt 0x10040 8 (.tentative key 0x10040) :=
  State.StoresAt.tentative key act placedRun _ (leads_iff.mpr (by decide +kernel)) (by decide +kernel) (by decide +kernel)
    (by decide +kernel) (by decide +kernel) (by decide +kernel) (by decide +kernel) (by decide +kernel)
    (Or.inr ⟨by decide +kernel, by decide +kernel, by decide +kernel, acting, room_of (by decide +kernel), fun b => by
      have h : NMap.find? acting.lines (0x10040 / 256) = none := by decide +kernel
      simp [State.writeBack, h]⟩)

theorem stores_host : hosted.StoresAt 0x20000 8 (.remote .host (2 ^ 51)) :=
  State.StoresAt.remote _ _ (leads_iff.mpr (by decide +kernel)) (by decide) (by decide +kernel) (by decide +kernel)
    (by decide +kernel)

theorem stores_firmware : fw.StoresAt 0x100000 8 (.direct 0x100000) :=
  State.StoresAt.firmware (inDram_iff.mpr (by decide +kernel)) (by decide +kernel) (by decide +kernel) (by decide +kernel)
    (findsWay_of (by decide +kernel))

theorem stores_table : fw.StoresAt 0x2000000023008 8 (.table 1 (sramImages + 8)) :=
  State.StoresAt.table 1 0x3008 _ (inRegion_iff.mpr (by decide +kernel)) (Or.inr (by decide +kernel))

theorem witness_StoreResult : mem.readable [1, 3, 4] ∧ mem.StoresAt 0x10040 64 (.direct 0x10040) ∧
    mem.StoresAt 0x1FFFFFFFFFFF8 8 (.scratch 0x3FFF8) ∧ ranged.StoresAt 0x10040 8 (.direct 0x10040) ∧
    acting.StoresAt 0x10040 8 (.tentative key 0x10040) ∧ hosted.StoresAt 0x20000 8 (.remote .host (2 ^ 51)) ∧
    fw.StoresAt 0x100000 8 (.direct 0x100000) ∧ fw.StoresAt 0xFFFF8 8 (.sram 0xFFFF8) ∧
    fw.StoresAt 0x2000000023008 8 (.table 1 (sramImages + 8)) :=
  ⟨readable_iff.mpr (by decide +kernel), stores_direct, stores_scratch, stores_private, stores_tentative, stores_host,
    stores_firmware, State.StoresAt.sram (inSram_iff.mpr (by decide +kernel)), stores_table⟩

/-- Every dword lane of v2, an index of zeros, addresses the scratch; with p1, lane 3 alone addresses the page. -/
theorem witness_GatherScatterResult :
    (mem.readable [2] ∧ ∀ j, j < 8 ∧ (mem.me.getP 0).getLsbD (j * 8) = true → mem.InScratch (mem.me.getX 2 +
      (BitVec.ofNat 64 ((mem.me.getV 2).lane 8 j)).signExtend 64 * 8 + (0 : BitVec 20).signExtend 64) 8 0 ∧
      NMap.get mem.myCore.poison (0 / 8) 0 = 0) ∧
    (let s := mem.updMe (·.setP 1 0x1000000)
     s.readable [1] ∧ (∀ k, k < 8 → ((s.me.getP 1).getLsbD (k * 8) = true ↔ k = 3)) ∧
       s.LoadsBytes (s.me.getX 1 + (BitVec.ofNat 64 ((s.me.getV 2).lane 8 3)).signExtend 64 * 8 +
         (0 : BitVec 20).signExtend 64) 8 allBytes (List.replicate 8 0) ∧ s.StoresAt 0x10040 8 (.direct 0x10040)) := by
  refine ⟨⟨readable_iff.mpr (by decide +kernel), fun j h => ⟨inScratch_iff.mpr ?_, by decide +kernel⟩⟩,
    readable_iff.mpr (by decide +kernel), by decide +kernel, ?_, ?_⟩
  · have : ∀ j, j < 8 → isFirmware mem.cur = false ∧ (mem.me.getX 2 +
        (BitVec.ofNat 64 ((mem.me.getV 2).lane 8 j)).signExtend 64 * 8 + (0 : BitVec 20).signExtend 64).toNat = scratchBase + 0 ∧
        0 % 8 = 0 ∧ 0 < mem.myCore.scratchSize ∧ mem.myCore.scratchSize ≤ 0x40000 := by decide +kernel
    exact this j h.1
  · exact State.LoadsBytes.device 0x10040 (leads_iff.mpr (by decide +kernel)) (by decide +kernel) (by decide +kernel)
      (by decide +kernel) (Or.inl (by decide +kernel)) (findsWay_of (by decide +kernel))
  · exact State.StoresAt.direct _ (leads_iff.mpr (by decide +kernel)) (by decide +kernel) (by decide +kernel)
      (by decide +kernel) (findsWay_of (by decide +kernel))

/-- Each boundary of the checks, with the pages of `base` without R or W, and an address that no table maps. -/
theorem witness_AccessChecks :
    (let s := xs base [(1, 0x2000000000000), (2, 0x10004), (3, 0x1FFFFFFFFFFF8), (4, 0x20000)]
     let t := s.updCore 0 0 (fun c => { c with lsplit := 7, tlb := [⟨0, 0x10000, 16, 0x10000, false, false, true⟩] })
     isFirmware s.cur = false ∧ s.readable [1, 2, 3, 4] ∧ 2 ^ 49 ≤ (s.me.getX 1).toNat ∧
       ((s.me.getX 2).toNat < 2 ^ 49 ∧ (s.me.getX 2).toNat % 8 ≠ 0) ∧
       ((t.me.getX 3).toNat < 2 ^ 49 ∧ (t.me.getX 3).toNat % 8 = 0 ∧ inScratch (t.me.getX 3).toNat = true ∧
         t.myCore.scratchSize ≤ (t.me.getX 3).toNat - scratchBase) ∧
       ((t.me.getX 2).toNat % 4 = 0 ∧ inScratch (t.me.getX 2).toNat = false ∧ t.me.refused ≠ some (t.me.getX 2 >>> 16) ∧
         tlbFind (t.vfOf t.cur) (t.me.getX 2).toNat t.myCore.tlb = some ⟨0, 0x10000, 16, 0x10000, false, false, true⟩) ∧
       (inScratch (s.me.getX 4).toNat = false ∧ (s.translate (.core 0 0) (s.vfOf s.cur) 0x20000).2 = .missing ∧
         s.missOf 0 (s.vfOf s.cur) 2 = none ∧ s.myCluster.misses.length < 64)) := by
  simp only [readable_iff]; decide +kernel

/-- A line with a dirty sector. -/
def dirtyLine : SliceLine :=
  { vf := 0, ev := false, used := 0, sectors := Vector.replicate 4
      { bytes := [], have_ := 1, mask := 0, valid := true, dirty := true, filling := false } }

/-- A line with a sector that waits for its fill. -/
def fillingLine : SliceLine :=
  { vf := 0, ev := false, used := 0, sectors := Vector.replicate 4
      { bytes := [], have_ := 1, mask := 0, valid := false, dirty := true, filling := true } }

theorem witness_WriteBackKeepsBytes : let s := { base with lines := [(0x100, dirtyLine)] }
    (∀ k, s.hub.windows k = []) ∧ NMap.find? s.lines 0x100 = some dirtyLine ∧ 0x10000 / 256 = 0x100 ∧
    (dirtyLine.sector (0x10000 / 64 % 4)).dirty = true := by
  refine ⟨fun k => ?_, by decide +kernel, by decide +kernel, by decide +kernel⟩
  show base.hub.windows k = []
  have : base.hub.fwin = [] := by decide +kernel
  simp [Hub.windows, this]

theorem witness_SpillAndConstantResult :
    (cw.cwin 3 = some (leBytes 8 0x1122334455667788) ∧ (Size.d = .d → (0 : BitVec 17).getLsbD 0 = false) ∧
      4 * (0 : BitVec 17).toNat + 8 ≤ (leBytes 8 0x1122334455667788).length ∧
      4 * (1 : BitVec 17).toNat + 4 ≤ (leBytes 8 0x1122334455667788).length) ∧
    (let s := base.updMe (fun t => { t with spillsp := 0x40, spilllim := 0x840 })
     (0 : BitVec 5) ≤ 31 ∧ isFirmware s.cur = false ∧ s.me.pend = [] ∧ s.me.spillsp.toNat % 64 = 0 ∧
       s.me.spillsp.toNat + 32 * 64 ≤ s.me.spilllim.toNat ∧ s.me.spilllim.toNat ≤ s.myCore.scratchSize ∧
       s.myCore.scratchSize ≤ 0x40000 ∧
       s.me.spillbase.toNat + 8 * 8 ≤ s.me.spillsp.toNat ∧ s.me.spillsp.toNat ≤ s.myCore.scratchSize ∧ s.myCore.poison = []) ∧
    (base.me.spilllim.toNat < base.me.spillsp.toNat + 8 ∧ base.me.spillsp.toNat < base.me.spillbase.toNat + 8) ∧
    (base.updMe (fun t => { t with spillsp := 0x48 })).me.spillsp.toNat % 64 ≠ 0 ∧ (1 : BitVec 17).getLsbD 0 = true ∧
    (∀ bs, cw.cwin 3 = some bs → bs.length < 4 * (2 : BitVec 17).toNat + 8) := by decide +kernel

theorem witness_FlushWaitFenceResult :
    (mem.readable [1, 3] ∧ inScratch (mem.me.getX 1 + mem.me.getX 3 + (0 : BitVec 20).signExtend 64).toNat = false ∧
      inScratch (mem.me.getX 2 + mem.me.getX 3 + (0 : BitVec 20).signExtend 64).toNat = true ∧ isFirmware mem.cur = false) ∧
    (mem.Leads .r (mem.me.getX 1 + mem.me.getX 3 + (0 : BitVec 20).signExtend 64) 1 0x10040 .dram ∧ mem.me.cnt.st < 63 ∧
      mem.lineHeld (0x10040 / 256) = false) ∧
    (mem.me.cnt = Counts.zero ∧ mem.me.pend = [] ∧ mem.me.stOut = [] ∧ mem.myCluster.copies = [] ∧
      mem.mcrdNear mem.cur 5 = false ∧ mem.messageNear mem.cur 5 = false) ∧
    (let p : PendTrap := ⟨3, .cp, 2, 0x12, 9, none, none⟩
     let q : PendTrap := ⟨4, .tl, 6, 0x12, 8, none, none⟩
     let pend := [q, p]
     p ∈ pend ∧ 0 < 63 ∧ (∀ y ∈ pend, y = p ∨ p.order < y.order) ∧ p.reach ≤ Scope.dev.code.toNat ∧
       (∀ y ∈ pend, y.reach ≤ Scope.dev.code.toNat → y = p ∨ p.order < y.order) ∧ Scope.dev.code.toNat < q.reach) ∧
    (let s := base.updMe (fun t => { t with cnt := ⟨1, 1, 0, 0, 0⟩ })
     ¬ s.me.cnt.ld ≤ (0 : BitVec 6).toNat ∧ s.me.cnt.ld ≠ 0 ∧ (s.thread ⟨0, 0, 0⟩).cnt.ld ≠ 0 ∧ (s.thread ⟨0, 0, 0⟩).cnt.st ≠ 0) ∧
    (let l : SliceLine := fillingLine
     NMap.find? ({ base with lines := [(0x100, l)] } : State).lines (0x10000 / 256) = some l ∧
       (l.sector (0x10000 / 64 % 4)).filling = true) := by
  simp only [readable_iff, leads_iff]; decide +kernel

/-- Two ranked thread sets: the second waits at the barrier, or does not. -/
def pair : State := (base.setRun 1 { placedRun with rec_ := placedRun.rec_ + BitVec.ofNat 2048 (2 ^ 48) }).updThread ⟨0, 0, 1⟩
  (fun t => { t with status := .ready, run := some 1, rank := 1, wait := some ⟨0, .bar, 0⟩ })

theorem witness_BarrierResult :
    (let b : Barrier := ⟨7, 7, true, 0⟩
     let s := (xs base [(1, 0xFFFFFFFF), (2, 0x100000000)]).updMyCore (fun c => ((((c.setBarrier 0 b).setBarrier 1 ⟨6, 7, true, 0⟩).setBarrier 2
       ⟨0, 0, true, 2⟩).setBarrier 3 ⟨0, 0, true, 1⟩).setBarrier 5 ⟨0, 0, true, 3⟩)
     s.isUser = true ∧ s.readable [1] ∧ (s.me.getX 1).toNat < 2 ^ 32 ∧ 2 ^ 32 ≤ (s.me.getX 2).toNat ∧
       ((s.myCore.barrier 0).err = 0 ∧ (s.myCore.barrier 0).armed = true ∧ (s.myCore.barrier 0).expect ≤ (s.myCore.barrier 0).credit) ∧
       ((s.myCore.barrier 1).err = 0 ∧ (s.myCore.barrier 1).credit < (s.myCore.barrier 1).expect ∧ s.me.wait = none) ∧
       (s.myCore.barrier 2).err = 2 ∧ (s.myCore.barrier 3).err = 1 ∧ (s.myCore.barrier 5).err = 3 ∧ (s.myCore.barrier 4).armed = false) ∧
    (let x := { placedRun with rec_ := placedRun.rec_ + BitVec.ofNat 2048 (2 ^ 48) }
     pair.isGang = true ∧ pair.myRun? = some x ∧ (x.ranked.map TsId.key).Nodup ∧ pair.cur ∈ x.ranked ∧
       (∀ u ∈ x.ranked, u = pair.cur ∨ pair.barReady u = true) ∧
       (let s := pair.updThread ⟨0, 0, 1⟩ (fun t => { t with wait := none })
        (∃ u ∈ x.ranked, u ≠ s.cur ∧ s.barReady u = false) ∧ s.me.wait = none)) ∧
    (let w : WaitState := ⟨0, .bar, 0⟩
     let s := { vec.updMe (fun t => { t with wait := some w }) with fclk := 0x01000000 }
     (s.thread ⟨0, 0, 0⟩).wait = some w ∧ (s.thread ⟨0, 0, 0⟩).status = .ready ∧ s.waitOver ⟨0, 0, 0⟩ w.what = false ∧
       (s.thread ⟨0, 0, 0⟩).waitlim.toNat % 2 ^ 48 ≠ 0 ∧ w.since + (s.thread ⟨0, 0, 0⟩).waitlim.toNat % 2 ^ 48 ≤ s.fclk ∧
       State.Vectored { s with cur := ⟨0, 0, 0⟩ } vecRun) := by
  simp only [readable_iff, vectored_iff]; decide +kernel

/-! ### Vectors -/

theorem witness_VectorIntegerResult : (Instr.vmulh ⟨1, 2, 3, 0, .i64, false, false, false⟩).wf = true ∧
    (Instr.vsub ⟨1, 1, 1, 1, .u8, true, false, false, false⟩).wf = true ∧ (Instr.vabs ⟨1, 1, 0, .i8, true, false, false⟩).wf = true := by
  decide +kernel

theorem witness_VectorFloatResult : (⟨1, 2, 3, 0, .bf16, .mode, false, false, false⟩ : VFBin).ty = .bf16 ∧
    (⟨1, 2, 0, .fp16, false, false⟩ : VUn).ty = .fp16 := by decide

theorem witness_VectorCompareMoveResult : (Instr.vcmp ⟨0, 2, 3, 0, .i64, .ge, false, false⟩).wf = true ∧
    (Instr.vlut ⟨1, 2, 28, 0, .fp32, false, false, false⟩).wf = true ∧ base.readable [1] ∧ (Instr.vins 1 2 .i8 63).wf = true := by
  simp only [readable_iff]; decide +kernel

theorem witness_VectorConvertReduceResult : (Instr.vcvt ⟨1, 2, 0, .i8, .i64, .mode, true, false, false⟩).wf = true ∧
    (Instr.vdot ⟨1, 2, 3, 0, .i32, .u8, .mode, true, false, false, false⟩).wf = true ∧
    (Instr.vred ⟨1, 2, 0, .bf16, .rz, false, false⟩).wf = true ∧ (Instr.vred ⟨1, 2, 0, .i64, .mode, false, false⟩).wf = true ∧
    (Instr.vscan ⟨1, 2, 0, .u16, .mode, false, false, false⟩).wf = true := by decide +kernel

/-! ### The array -/

/-- `base` with an array and tiles of cluster 0. -/
def arr (f : ArrayUnit → ArrayUnit) : State := base.updCluster 0 (fun c => { c with array := f c.array })
def leashed : State := arr (fun a => { a with holder := some ⟨0, 0, 0⟩ })

/-- A descriptor of R253: buffer, base in 256 bytes, rows, bytes of a row. -/
def desc (buf base rows bytes : Nat) : Word := BitVec.ofNat 64 (buf + base * 2 ^ 8 + rows * 2 ^ 24 + bytes * 2 ^ 34)

/-- A READY entry of cluster 0. -/
def State.ready (s : State) (n : TileIx) (d : Word) : State :=
  s.updTile 0 n (fun e => { e with desc := d, state := .ready })

theorem witness_LeashResult :
    (leashed.isGang = true ∧ leashed.arrayDown leashed.cur.cluster = false ∧ leashed.isHolder leashed.cur = true ∧
      leashed.myCluster.array.orphan = none) ∧
    (base.isGang = true ∧ base.arrayDown base.cur.cluster = false ∧ base.me.chain.resume = false ∧
      base.myCluster.array.holder = none ∧ base.leashReqs base.cur.cluster = [] ∧ base.isHolder base.cur = false ∧
      base.me.wait = none) ∧
    (arr (fun a => { a with holder := some ⟨0, 1, 0⟩ })).myCluster.array.holder ≠ none ∧
    (arr (fun a => { a with failed := true })).arrayDown 0 = true ∧
    (leashed.updMe (fun t => { t with chain := { t.chain with state := .live } })).me.chain.state = .live ∧
    (let s := base.updMe (fun t => { t with wait := some ⟨0, .leash false, 0⟩ })
     (s.cluster 0).array.holder = none ∧ s.arrayDown 0 = false ∧ s.leashReqs 0 ≠ []) := by decide +kernel

/-- The last count and the last cycle of a grant. -/
theorem witness_BlockMoves :
    (let s := xs { arr (fun a => { a with holder := some ⟨0, 0, 0⟩, grantCount := 63 }) with fclk := 24575 } [(1, 0x3F800), (2, 0x3F840)]
     s.HoldsLeash ∧ s.readable [1, 2] ∧ (s.me.getX 1).toNat % 64 = 0 ∧ (s.me.getX 1).toNat + 2048 ≤ s.myCore.scratchSize ∧
       s.myCore.scratchSize < (s.me.getX 2).toNat + 2048) ∧
    (let s := State.ready (State.ready leashed 50 (desc 2 0x10 32 64)) 51 (desc 2 0 32 128)
     s.HoldsLeash ∧ ((s.tile 0 50).state = .ready ∧ (50 : TileIx) = 50) ∧ tdBuf (s.desc 50) = .cbuf ∧ tdRows (s.desc 50) = 32 ∧
       tdRowBytes (s.desc 50) = 64 ∧ tdRowBytes (s.desc 51) ≠ 64) := by
  simp only [readable_iff, holdsLeash_iff]; decide +kernel

theorem witness_MatrixProduct :
    let s := State.ready (State.ready (State.ready leashed 4 (desc 1 0 32 256)) 8 (desc 0 0 16 256)) 40 (desc 3 0 48 8)
    let o : MatOp := ⟨.tile 4, .tile 8, .e4m3, true, true, true, false, 40, 20⟩
    (Instr.mmat o).wf = true ∧ s.HoldsLeash ∧ s.readable [o.d] ∧ s.TileReady o.a 4 ∧ s.TileReady o.b 8 ∧
    tdBuf (s.desc 4) = .abuf ∧ tdRows (s.desc 4) = 32 ∧ tdRowBytes (s.desc 4) % 256 = 0 ∧ 256 ≤ tdRowBytes (s.desc 4) ∧
    tdBuf (s.desc 8) = .wbuf ∧ tdRows (s.desc 8) = 16 ∧ tdRowBytes (s.desc 8) = tdRowBytes (s.desc 4) ∧
    (s.TileReady (.tile o.o3) 40 ∧ tdBuf (s.desc 40) = .sbuf ∧ tdRows (s.desc 40) = 48 ∧
      tdRowBytes (s.desc 4) / 1 / 32 ≤ tdRowBytes (s.desc 40)) ∧ s.me.chain.state = .none := by
  simp only [readable_iff, holdsLeash_iff, State.TileReady]; decide +kernel

/-! ### The clause array -/

def held (c : ClauseArray) : State :=
  xs (base.updClause 0 (fun u => { u with arr := c, holder := some (.thread ⟨0, 0, 0⟩), claimed := true })) [(1, 511), (2, 512), (3, 256 + 127)]

theorem witness_ClauseResult :
    (base.clauseContext = true ∧ base.myClause.poisoned = false ∧ base.myClause.holder = none) ∧
    (let s := base.updClause 0 (fun u => { u with holder := some (.thread ⟨0, 1, 0⟩) })
     s.clauseContext = true ∧ s.myClause.holder = some (.thread ⟨0, 1, 0⟩) ∧ ClauseHolder.thread ⟨0, 1, 0⟩ ≠ s.clauseSelf) ∧
    (let s := held ClauseArray.empty
     s.HoldsClauses ClauseArray.empty ∧ s.readable [1, 2, 3] ∧ (s.me.getX 1).toNat ≤ 511 ∧ 511 < (s.me.getX 2).toNat ∧
       ClauseArray.empty.conf = none) ∧
    (let c : ClauseArray := { ClauseArray.empty with trail := [⟨127, true, 0, true, 0, 0⟩] }
     (held c).HoldsClauses c ∧ ∃ e ∈ c.trail, e.row = ((held c).me.getX 3).toNat % 128) ∧
    (let c : ClauseArray := { ClauseArray.empty with conf := some ⟨0, 0, 1⟩ }
     (held c).HoldsClauses c ∧ c.conf ≠ none ∧ ∀ e ∈ c.trail, e.row ≠ ((held c).me.getX 3).toNat % 128) ∧
    ({ base with input := .clauseEcc 0 false } : State).input = .clauseEcc 0 false ∧
    ({ base with input := .clauseEcc 0 true } : State).input = .clauseEcc 0 true := by
  simp only [readable_iff, holdsClauses_iff]; decide +kernel

theorem witness_PropagationResult :
    (let c : ClauseArray := { ClauseArray.empty with cols := [(3, ⟨1, 2⟩)] }
     (held c).HoldsClauses c ∧ c.conf = none) ∧
    (let c : ClauseArray := { ClauseArray.empty with conf := some ⟨3, 1, 1⟩ }
     (held c).HoldsClauses c ∧ c.conf ≠ none) := by simp only [holdsClauses_iff]; decide +kernel

/-! ### Engines -/

theorem engine_page {s : State} {e : EngineFor} {need : Need} {va : Word} {q : Place} {pa : Nat}
    (h : va.toNat < 2 ^ 49 ∧ inScratch va.toNat = false ∧ (∃ t ∈ tlbFind e.vf va.toNat (s.pipeTlb e.pipe), 16 ≤ t.bits ∧
      t.pa % 2 ^ t.bits = 0 ∧ t.permits need = true ∧ t.phys va.toNat = pa) ∧ s.place pa = .ok q ∧
      (q = .dram → s.homeDown e.vf pa = false)) : s.EngineAt e need va (.phys q pa) :=
  .page pa q h.1 h.2.1 h.2.2.1 h.2.2.2.1 h.2.2.2.2

theorem reads_one {s u : State} {e : EngineFor} {va n : Nat} {p : Spot} {bs : List Byte} (h0 : 0 < n) (hn : va % 256 + n ≤ 256)
    (hat : s.EngineAt e .r (BitVec.ofNat 64 va) p) (hp : s.spotPoison e p n = false) (hu : s.pullSpot e p n = some u)
    (hk : ∀ a, u.byteAt a = s.byteAt a) (hb : u.spotBytes e p n = bs) : s.EngineReads e va n bs u := by
  have hm : min n (256 - va % 256) = n := by omega
  have h := State.EngineReads.line s u u e va n p [] h0 hat (by rw [hm]; exact hp) (by rw [hm]; exact hu) hk
    (by rw [hm, Nat.sub_self]; exact .nothing _ _ _)
  rw [hm, hb, List.append_nil] at h
  exact h

/-- The engines of cluster 0 find the page of `base` in their own caches. -/
def engines : State := base.updCluster 0 (fun c =>
  let t : List TlbEntry := [⟨0, 0x10000, 16, 0x10000, true, true, false⟩]
  { c with copyTlb := t, fillTlb := t, drainTlb := t, relayTlb := t })

/-- A copy of one row of 64 bytes from the page to the scratch, with a barrier. -/
def copyFields : Shadow := #v[0x10040, 0x1FFFFFFFC0000, 0x0000000100000040, 0, 0, 0, 0x13, 0]
def copyOp : CopyOp := ⟨⟨0, 0, 0⟩, 0, none, 1, 0, copyFields, 0, 0, 0, 0, false, 0, [], []⟩
def copying : State := engines.updCluster 0 (fun c => { c with copies := [copyOp] })

theorem copying_pull : copying.pullSpot (copyOp.engine 0) (.phys .dram 0x10040) 64 = some (pulled copying 0 0x10040 64) := by
  have hl : copying.lineHeld (0x10040 / 256) = false := by decide +kernel
  show (if Place.dram = .dram ∧ copying.lineHeld (0x10040 / 256) = true then none else copying.pull 0 0x10040 64 false) = _
  simp [hl, pull_of (s := copying) (vf := 0) (pa := 0x10040) (n := 64) (by decide +kernel)]

theorem witness_CopyResult :
    (base.isUser = true ∧ base.readable [1]) ∧
    (Shadow.reserved (copyFields.set 6 0x20) = some 6 ∧
      (let f := copyFields.set 2 0x0001000000010000
       Shadow.reserved f = none ∧ 2 ^ 32 ≤ Shadow.rows f * Shadow.rowBytes f) ∧
      (let f := copyFields
       Shadow.reserved f = none ∧ Shadow.rows f * Shadow.rowBytes f < 2 ^ 32 ∧ Shadow.rowBytes f % (Shadow.sizes f).1 = 0 ∧
         Shadow.handleEn f = false ∧ (∀ r, r < Shadow.rows f → (copySrc f 0).badRow 262144 r = none ∧
           (copyDst f 0).badRow 262144 r = none) ∧ Shadow.rows f ≠ 0 ∧ Shadow.rowBytes f ≠ 0 ∧ base.me.cnt.cp < 63) ∧
      Shadow.rowBytes (copyFields.set 2 0x0000000100000000) = 0) ∧
    (let s := copying
     (s.cluster copyOp.thread.cluster).copies = [copyOp] ∧ copyOp.suspended = false ∧ copyOp.act = none ∧
       (s.thread copyOp.thread).act = none ∧ (s.thread copyOp.thread).stint = copyOp.stint ∧ Shadow.handleEn copyOp.fields = false ∧ copyOp.row < Shadow.rows copyOp.fields ∧
       s.amoBefore copyOp.thread copyOp.order = false ∧
       copyOp.off < (copyDst copyFields 0).bytes ∧
       s.EngineReads (copyOp.engine 0) 0x10040 64 (List.replicate 64 0) (pulled copying 0 0x10040 64) ∧
       s.EngineAt (copyOp.engine 0) .w 0x1FFFFFFFC0000 (.scratch 0) ∧
       (pulled copying 0 0x10040 64).EngineWrites (copyOp.engine 0) 0x1FFFFFFFC0000 (.scratch 0)) := by
  refine ⟨⟨by decide +kernel, readable_iff.mpr (by decide +kernel)⟩, by decide +kernel, by decide +kernel, by decide +kernel, by decide +kernel,
    by decide +kernel, by decide +kernel, by decide +kernel, by decide +kernel, by decide +kernel, by decide +kernel,
    reads_one (p := .phys .dram 0x10040) (by decide) (by decide) (engine_page (q := .dram) (pa := 0x10040) (by decide +kernel)) (by decide +kernel)
      copying_pull (pulled_same (by decide +kernel)) (by decide +kernel),
    .scratch 0 0 0 rfl (by decide +kernel) (by decide +kernel) (by decide +kernel), rfl, .scratch 0 0 0 rfl (by decide +kernel) (by decide +kernel) (by decide +kernel), fun _ h => nomatch h⟩

/-- The record of a tensor of one byte, or of one of n bytes (R230): u8, ROW, at an address. -/
def tensor (at_ n : Nat) : HWord := BitVec.ofNat 1024 (at_ + 2 * 2 ^ 128 + 2 ^ 132 + 2 ^ 144 + n * 2 ^ 256 + 2 ^ 384 + n * 2 ^ 640)

theorem witness_TileTableResult :
    (let s := xs base [(1, desc 0 0x1F00 256 256), (2, desc 0 0x1F01 256 256)]
     s.isUser = true ∧ s.readable [1, 2] ∧ (s.tile 0 7).state = .empty ∧ tdOk (s.me.getX 1) = true ∧ tdOk (s.me.getX 2) = false) ∧
    (base.updTile 0 7 (fun e => { e with state := .filling })).tile 0 7 = { TileEntry.zero with state := .filling } ∧
    (let s := State.ready (base.updLitter 0 3 (fun _ => ⟨2, [(1, 7)], 0⟩)) 7 0
     let t := xs (s.updTile 0 7 (fun e => { e with seq := 5 })) [(4, 5), (5, 4)]
     t.isUser = true ∧ t.TileNamed (.lit 3 4) 7 ∧ t.TileReady (.lit 3 4) 7 ∧ t.TileNamed (.tile 7) 7 ∧ t.readable [5] ∧
       t.litEntry 0 3 ((t.me.getX 5).setWidth 32) = none) := by
  simp only [readable_iff, State.TileNamed, State.TileReady]; decide +kernel

theorem coord_lt {l : List Nat} (h : ∀ x ∈ l, x < 2 ^ 16) (k : Nat) : coord l k < 2 ^ 16 := by
  unfold coord
  by_cases hk : k < l.length
  · simpa [List.getD, hk] using h _ (List.getElem_mem hk)
  · simp [List.getD, hk]

/-- A fill or drain of the one byte at 0x10040, and one that lies outside its tensor. -/
def moveOp (drain : Bool) (c : Nat) : MoveOp := ⟨drain, 12, ⟨0, 0, 0⟩, 0, none, 0, tensor 0x10040 1, [c, 0, 0, 0], 0, 0, false, [], []⟩

/-- The record of a line that its slice has just taken in. -/
def emptyLine : SliceLine :=
  { vf := 0, ev := false, used := 0, sectors := Vector.replicate 4
      { bytes := [], have_ := 0, mask := 0, valid := false, dirty := false, filling := false } }
def moving (m : MoveOp) : State := { (engines.updCluster 0 (fun c => { c with moves := [m] })).updTile 0 12 (fun e =>
  { e with desc := desc 0 0 1 1, state := if m.drain then .draining else .filling }) with lines := [(0x100, emptyLine)] }

theorem fill_inside : let m := moveOp false 0
    (moving m).EngineHas (m.engine 0) 0x10040 1 [0] ∧ m.hrec.inside [0, 0, 0, 0] = true ∧
    m.hrec.oldSide.addr m.hrec [0, 0, 0, 0] = 0x10040 :=
  ⟨⟨.phys .dram 0x10040, engine_page (q := .dram) (pa := 0x10040) (by decide +kernel), by decide +kernel, by decide +kernel,
    fun pa h => by cases h; decide +kernel⟩, by decide +kernel, by decide +kernel⟩

theorem witness_FillDrainResult :
    (let s := xs ((base.updMe (·.setH 1 (tensor 0x10040 64))).updTile 0 12 (fun e => { e with desc := desc 0 0 1 64 })) [(2, 63)]
     s.isUser = true ∧ s.readable [2] ∧ s.TileNamed (.tile 12) 12 ∧ s.BoxFits (s.me.getH 1) (s.me.getX 2) 12 ∧ s.me.cnt.tl < 63 ∧
       (s.tile 0 12).state = .empty ∧ (State.ready s 12 (desc 0 0 1 64)).TileReady (.tile 12) 12) ∧
    (∀ c ∈ [0, 1], let m := moveOp false c
     let s := moving m
     (s.cluster 0).moves = [m] ∧ m.drain = false ∧ m.suspended = false ∧ m.thread.cluster = 0 ∧
       (s.thread m.thread).stint = m.stint ∧ m.hrec.nltag = 0 ∧ m.off < m.rowLen ∧ m.rowLen = 1 ∧
       s.amoBefore m.thread m.order = false ∧ (c = 0 → m.hrec.inside [c, 0, 0, 0] = true ∧ 0x10040 % m.hrec.esize = 0) ∧
       (c = 1 → m.hrec.inside [c, 0, 0, 0] = false ∧ m.hrec.fill = 0)) ∧
    (let m := moveOp true 0
     let s := moving m
     (s.cluster 0).moves = [m] ∧ m.drain = true ∧ m.suspended = false ∧ m.act = none ∧ (s.thread m.thread).stint = m.stint ∧
       m.hrec.nltag = 0 ∧ (s.cluster 0).badRows = [] ∧ m.off < m.rowLen ∧
       m.hrec.inside [0, 0, 0, 0] = true ∧ m.hrec.oldSide.addr m.hrec [0, 0, 0, 0] = 0x10040 ∧
       s.EngineWrites (m.engine 0) 0x10040 (.phys .dram 0x10040)) := by
  refine ⟨?_, by decide +kernel, by decide +kernel, rfl, rfl, rfl, by decide +kernel, by decide +kernel, by decide +kernel,
    by decide +kernel, by decide +kernel, by decide +kernel, rfl, engine_page (by decide +kernel), fun pa _ => ?_⟩
  · simp only [readable_iff, State.TileNamed, State.TileReady, boxFits_iff]; decide +kernel
  · exact findsWay_of (by rename_i h; cases h; decide +kernel)

/-- A tensor of 64 bytes in the scratch, and one in the page. -/
def handled : State := xs ((mem.updMe (·.setH 1 (tensor 0x1FFFFFFFC0000 64))).updMe (·.setH 2 (tensor 0x10000 64))) [(4, 63), (5, 64), (6, 0x10000)]

theorem witness_HandleResult :
    (let s := (base.updMe (·.setV 1 ((tensor 0x10000 64).extractLsb' 0 512))).updMe (·.setV 2 ((tensor 0x10000 64).extractLsb' 512 512))
     s.isUser = true ∧ HWord.validate (s.me.getV 2 ++ s.me.getV 1) = none ∧
       HWord.validate (s.me.getV 1 ++ s.me.getV 2) = some ⟨1, 0, false⟩) ∧
    (mem.readable [2] ∧ mem.StoresAt 0x10080 128 (.direct 0x10080) ∧ (Instr.hq 1 2 18).wf = true) ∧
    (let s := mem.updMe (·.setH 1 ((tensor 0x10000 64).setFld 160 16 1))
     (base.me.getH 1).nltag = 0 ∧ (s.me.getH 1).nltag ≠ 0 ∧ s.findRelayout (s.me.getH 1).map = none) ∧
    (∀ st ∈ [RelayState.running, .complete, .failed 0x10040],
      let h := ((tensor 0x10000 64).setFld 160 16 1).setFld 704 64 0x10800
      let s := (base.updMe (·.setH 1 h)).updCluster 0 (fun c => { c with relayouts := [⟨0x10800, 1, h, 0, none, st, false⟩] })
      (s.me.getH 1).nltag ≠ 0 ∧ s.findRelayout (s.me.getH 1).map = some ⟨0x10800, 1, h, 0, none, st, false⟩) ∧
    (let s := handled
     s.isUser = true ∧ s.readable [4, 3] ∧ s.me.getH 0 = 0 ∧ s.me.getH 1 ≠ 0 ∧
       (s.me.getH 1).coordsOk (unpackCoords (s.me.getX 6)) = false ∧
       ((s.me.getH 1).coordsOk (unpackCoords (s.me.getX 5)) = true ∧ (s.me.getH 1).inside (unpackCoords (s.me.getX 5)) = false) ∧
       ((s.me.getH 1).coordsOk (unpackCoords (s.me.getX 4)) = true ∧ (s.me.getH 1).inside (unpackCoords (s.me.getX 4)) = true ∧
         (s.me.getH 1).nltag = 0 ∧ (s.me.getH 1).oldSide.addr (s.me.getH 1) (unpackCoords (s.me.getX 4)) = 0x1FFFFFFFC003F) ∧
       (∀ j, j < 64 → (s.me.getH 1).inside [coord (unpackCoords (s.me.getX 0)) 0 + j, 0, 0, 0] = true →
         s.InScratch (BitVec.ofNat 64 ((s.me.getH 1).oldSide.addr (s.me.getH 1) [coord (unpackCoords (s.me.getX 0)) 0 + j, 0, 0, 0])) 1 j ∧
           NMap.get s.myCore.poison (j / 8) 0 = 0)) := by
  refine ⟨by decide +kernel, ⟨readable_iff.mpr (by decide +kernel), State.StoresAt.direct _ (leads_iff.mpr (by decide +kernel))
    (by decide +kernel) (by decide +kernel) (by decide +kernel) (findsWay_of (by decide +kernel)), by decide +kernel⟩, by decide +kernel,
    by decide +kernel, ?_⟩
  simp only [readable_iff, inScratch_iff]; decide +kernel

/-- The scratch is one place of `ldh` and `sth`, the page another. -/
theorem witness_HandleResult_accesses : handled.LoadsBytes 0x1FFFFFFFC003F 1 allBytes [0] ∧
    handled.LoadsBytes 0x10000 128 allBytes (List.replicate 128 0) ∧ handled.StoresAt 0x1FFFFFFFC003F 1 (.scratch 0x3F) ∧
    handled.StoresAt 0x10000 1 (.direct 0x10000) :=
  ⟨State.LoadsBytes.scratch 0x3F (inScratch_iff.mpr (by decide +kernel)) (by
      have : handled.myCore.poison = [] := by decide +kernel
      intro i _ _
      rw [this]
      rfl),
    State.LoadsBytes.device 0x10000 (leads_iff.mpr (by decide +kernel)) (by decide +kernel) (by decide +kernel)
      (by decide +kernel) (Or.inl (by decide +kernel)) (findsWay_of (by decide +kernel)),
    State.StoresAt.scratch _ (inScratch_iff.mpr (by decide +kernel)),
    State.StoresAt.direct _ (leads_iff.mpr (by decide +kernel)) (by decide +kernel) (by decide +kernel) (by decide +kernel)
      (findsWay_of (by decide +kernel))⟩

/-- A record with a map, and the record of its new side. -/
def oldH : HWord := (tensor 0x10040 1).setFld 704 64 0x10800
def newH : HWord := tensor 0x11000 1
def relayH : HWord := (oldH.setFld 64 64 0x11000).setFld 160 16 1
def relayOp : Relayout := ⟨0x10800, 1, relayH, 0, none, .running, false⟩

/-- The relayout before its first block, and with that block at MOVING. -/
def relaying (r : Relayout) : State := { engines.updCluster 0 (fun c => { c with relayouts := [r] }) with
  lines := [(0x100, emptyLine), (0x108, emptyLine), (0x110, emptyLine)] }
def movingBlock : MovingBlock := ⟨0x10800, [⟨[(0x10040, 1)], [0], [(0x11000, 1)]⟩]⟩

theorem witness_RelayoutResult :
    (base.isGang = true ∧ relayCheck (base.me.getH 1) (base.me.getH 2) = some 2) ∧
    (let s := (base.updMe (·.setH 1 oldH)).updMe (·.setH 2 newH)
     s.isGang = true ∧ s.me.run = some 1 ∧ relayCheck (s.me.getH 1) (s.me.getH 2) = none ∧ s.me.act = none ∧
       relayH.map % 256 + (relayH.blocks + 3) / 4 ≤ 256 ∧ 0 < (relayH.blocks + 3) / 4 ∧
       s.StoresAt 0x10800 1 (.direct 0x10800)) ∧
    (let s := relaying relayOp
     let e := relayEngine 0 0
     (s.cluster 0).relayouts = [relayOp] ∧ s.run? 1 = some placedRun ∧ placedRun.phase = .running ∧
       s.acts = [] ∧ (∀ line, s.lineHeld line = false) ∧ s.poison = [] ∧ relayH.unitsOfBlock 0 = [(0, some [0, 0, 0, 0])] ∧
       relayH.oldSide.addr relayH [0, 0, 0, 0] = 0x10040 ∧ relayH.esize = 1 ∧ relayH.nbase + 0 = 0x11000 ∧
       s.EngineAt e .r 0x10040 (.phys .dram 0x10040) ∧ s.EngineAt e .w 0x11000 (.phys .dram 0x11000) ∧
       relayH.map + 0 / 4 = 0x10800 ∧ s.EngineWrites e 0x10800 (.phys .dram 0x10800)) ∧
    (let r : Relayout := { relayOp with moving := some movingBlock }
     let s := relaying r
     (s.cluster 0).relayouts = [r] ∧ s.run? 1 = some placedRun ∧ s.poison = [] ∧
       movingBlock.units = [(some 0x10040, 0x11000)].map (fun u => ⟨(match u.1 with
         | some a => [(a, 1)]
         | none => []), [0], [(u.2, 1)]⟩) ∧
       (∀ pa ∈ [0x10040, 0x11000, 0x10800],
         s.place pa = .ok .dram ∧ s.homeDown 0 pa = false ∧ (NMap.find? s.lines (pa / 256)).isSome = true) ∧
       0x10040 + 1 ≤ 0x11000 ∧ 0x10800 < 0x11000 ∧ s.lineHeld (0x10800 / 256) = false ∧ relayH.blocks ≤ 0 + 1) := by
  refine ⟨by decide +kernel, ⟨by decide +kernel, by decide +kernel, by decide +kernel, by decide +kernel, by decide +kernel,
    by decide +kernel, State.StoresAt.direct _ (leads_iff.mpr (by decide +kernel)) (by decide +kernel) (by decide +kernel) (by decide +kernel)
      (findsWay_of (by decide +kernel))⟩, ⟨by decide +kernel, by decide +kernel, by decide +kernel, by decide +kernel, fun _ => rfl,
    by decide +kernel, by decide +kernel, by decide +kernel, by decide +kernel, by decide +kernel, engine_page (by decide +kernel),
    engine_page (by decide +kernel), by decide +kernel, rfl, engine_page (by decide +kernel), fun pa h => ?_⟩, by decide +kernel⟩
  exact findsWay_of (by cases h; decide +kernel)

/-- A request for one line to cluster 0, core 0, offset 0x3FF00. -/
def mcReq : McrdReq := ⟨1, ⟨0, 0, 0⟩, 0, none, 1, [(0x10000, 0)], [(0x10000, 16)], [0], 0, 0x3FF00, 0, 2, false⟩
def beat (off : Nat) : Beat := ⟨0, 1, 0, 0, off, 0, List.replicate 128 0, false, [1]⟩

def mcState : State := xs base [(1, 0x10000), (2, 0x0003FF0000000001), (3, 0x10040), (4, 0x0000008000000001),
  (5, 0x0003FF0010000001), (6, 0x0003FF0000000002)]

theorem witness_MulticastResult :
    (let s := mcState
     s.isUser = true ∧ s.readable [1, 2, 3, 4, 5, 6] ∧ s.me.run = some 1 ∧ s.run? 1 = some placedRun ∧ mcMask (s.me.getX 0) = 0 ∧
       mcMask (s.me.getX 2) ≠ 0 ∧ (s.me.getX 3).toNat % 256 ≠ 0 ∧ mcSoff (s.me.getX 4) % 256 ≠ 0 ∧
       mcReserved (s.me.getX 5) = true ∧ 262144 < mcSoff (s.me.getX 2) + 256 * 2 ∧
       (∃ p ∈ mcPlaces (s.me.getX 6), Rec.packw placedRun.rec_ ≤ p.1 ∨ Rec.packh placedRun.rec_ ≤ p.2) ∧
       ((s.me.getX 1).toNat % 256 = 0 ∧ mcSoff (s.me.getX 2) % 256 = 0 ∧ mcReserved (s.me.getX 2) = false ∧
         mcSoff (s.me.getX 2) + 256 * 1 ≤ 262144 ∧
         (∀ p ∈ mcPlaces (s.me.getX 2), p.1 < Rec.packw placedRun.rec_ ∧ p.2 < Rec.packh placedRun.rec_) ∧
         (s.me.getX 1).toNat + 256 * 1 ≤ scratchBase ∧ s.me.cnt.cp < 63 ∧
         ∀ i, i < 1 → s.Leads .r (s.me.getX 1 + BitVec.ofNat 64 (256 * i)) 1 0x10000 .dram)) ∧
    (let s := { base with mcrds := [(1, mcReq)] }
     NMap.find? s.mcrds 1 = some mcReq ∧ mcReq.arrived = false ∧ mcReq.lines ≠ [] ∧
       (∀ l ∈ mcReq.lines, s.lineHome mcReq l.1 = s.lineHome mcReq 0x10000) ∧ s.streams = []) ∧
    (let m : Stream := ⟨0, 1, 0, 0x3FF00, 0, [⟨0x10000, 0, [(1, 0)], false⟩], [(0x10000, 0)], []⟩
     let s := { base with streams := [(1, m)] }
     NMap.find? s.streams 1 = some m ∧ m.todo = ⟨0x10000, 0, [(1, 0)], false⟩ :: [] ∧
       s.physRead (s.vfOfRun m.run) 0x10000 256 = .ok (List.replicate 256 0) ∧ s.FindsWay (s.vfOfRun m.run) 0x10000) ∧
    (∀ off ∈ [0x3FF80, 0x3FF81], let s := { base with mcrds := [(1, { mcReq with arrived := true })], beats := [beat off] }
     s.beats = beat off :: [] ∧ (beat off).reqs = [1] ∧ NMap.find? s.mcrds 1 = some { mcReq with arrived := true } ∧
       (s.thread mcReq.thread).stint = mcReq.stint ∧ (beat off).bytes.length = 128 ∧
       (off = 0x3FF80 → off + 128 ≤ (s.core 0 0).scratchSize) ∧ (off = 0x3FF81 → (s.core 0 0).scratchSize < off + 128)) := by
  simp only [readable_iff, leads_iff]; refine ⟨⟨?_, ?_, ?_, ?_, ?_, ?_, ?_, ?_, ?_, ?_, ?_, ?_⟩, ?_, ⟨?_, ?_, ?_, findsWay_of ?_⟩, ?_⟩ <;> decide +kernel

/-! ### Messages and atomics -/

/-- A GANG run of two ranks, T0 and T1 of core 0, whose image's text is the page. -/
def duoRun : Run := { runWith [(48, 1)] with image := BitVec.ofNat 1024 (0x10000 + 0x1000 * 2 ^ 64) }
def duo : State := xs ((base.setRun 1 duoRun).updThread ⟨0, 0, 1⟩ (fun t => { t with status := .ready, run := some 1, rank := 1 }))
  [(1, 1), (2, 2), (3, 0x10008), (4, 0x10044)]

/-- An atomic at the input queue of core 0. -/
def amoReq : AmoReq := ⟨⟨0, 0, 0⟩, none, 0, .add, true, 0x10040, 0x10040, 16, 1, 0, 4⟩
def amoAt : State := base.updCore 0 0 (fun c => { c with inq := [.atomic amoReq] })

theorem witness_AtomicResult :
    (let s := xs base [(1, 0x10040), (2, 0x10044)]
     s.isUser = true ∧ s.readable [1, 2, 3] ∧ ((s.me.getX 2).toNat < 2 ^ 49 ∧ inScratch (s.me.getX 2).toNat = false ∧ (s.me.getX 2).toNat % 8 ≠ 0) ∧
       s.Leads .rw (s.me.getX 1 + (0 : BitVec 20).signExtend 64) 8 0x10040 .dram ∧ s.me.act = none ∧ s.me.cnt.ms < 63) ∧
    (let s := xs acting [(1, 0x10040)]
     s.isUser = true ∧ s.Leads .rw (s.me.getX 1) 8 0x10040 .dram ∧ s.me.act = some key ∧ s.act? key = some act ∧ act.amos.length < 64) ∧
    ((amoAt.thread ⟨0, 0, 4⟩).act = none ∧ (amoAt.core 0 0).inq = .atomic amoReq :: [] ∧ amoReq.pa % 8 = 0 ∧
      amoAt.poisonAt amoReq.pa 8 = false ∧ amoAt.homeDown (amoAt.amoVf amoReq) amoReq.pa = false ∧
      amoAt.FindsWay (amoAt.amoVf amoReq) amoReq.pa) ∧
    (base.updMe (fun t => { t with awaits := [(0, 4)] })).me.awaiting 4 = true ∧
    (∀ p ∈ [true, false], ({ base with returns := [(⟨0, 0, 0⟩, ⟨0, 4, 1, 0, p, 0, 0x10040, 2⟩)] } : State).returns =
      (⟨0, 0, 0⟩, ⟨0, 4, 1, 0, p, 0, 0x10040, 2⟩) :: []) ∧
    (let s := { xs (base.updMe (fun t => { t with amoq := [amoReq] })) [(1, 0x10040)] with order := 1 }
     s.me.act = none ∧ s.readable [1, 2, 3] ∧ s.amoOpen s.cur = true ∧ s.Leads .r (s.me.getX 1) 8 0x10040 .dram ∧
       s.loadPoison s.cur [] .dram 0x10040 8 allBytes = false ∧ s.Leads .w (s.me.getX 1) 8 0x10040 .dram) := by
  refine ⟨?_, ?_, ⟨by decide +kernel, by decide +kernel, by decide +kernel, by decide +kernel, by decide +kernel, findsWay_of (by decide +kernel)⟩, by decide +kernel, by decide +kernel, ?_⟩ <;>
    (simp only [readable_iff, leads_iff]; decide +kernel)

def entryOf (k : SendKind) : SendEntry := ⟨1, k, 0, .none, [], 0, true, 0, none⟩

theorem witness_MessageResult :
    (duo.InRun duoRun ∧ duo.readable [1, 3] ∧ duo.me.sendq.length < 8 ∧ duo.me.sendq = [] ∧
      (duo.me.getX 1).toNat % 2 ^ 32 < Rec.nrank duoRun.rec_ ∧ (64 : BitVec 7).toNat % 1 = 0 ∧ (64 : BitVec 7) ≠ 0 ∧ (∀ q ∈ duo.me.sendq, q.order < duo.order) ∧ duo.me.ctx = .gang ∧ duo.me.act = none ∧
      duo.me.cnt.ms < 63 ∧ (duo.me.getX 3).toNat % 8 = 0 ∧ Img.inText duoRun.image (duo.me.getX 3).toNat = true ∧
      Rec.nrank duoRun.rec_ ≤ (duo.me.getX 2).toNat % 2 ^ 32) ∧
    (duo.updMe (fun t => { t with ctx := .hand })).me.ctx = .hand ∧
    (∀ c ∈ [Ctx.gang, .hand], let s := duo.updMe (fun t => { t with ctx := c, sendq := List.replicate 8 (entryOf .reply) })
     s.InRun duoRun ∧ s.readable [1, 3] ∧ 8 ≤ s.me.sendq.length ∧ (s.me.getX 1).toNat % 2 ^ 32 < Rec.nrank duoRun.rec_ ∧
       s.me.ctx = c ∧ (s.me.getX 3).toNat % 8 = 0 ∧ Img.inText duoRun.image (s.me.getX 3).toNat = true ∧ s.isBody = false) ∧
    (let s := (duo.setAct key act).updMe (fun t => { t with ctx := .act, act := some key })
     s.InRun duoRun ∧ s.isBody = true ∧ s.me.act = some key ∧ s.buffered key < 8) ∧
    (let s := duo.updMe (fun t => { t with recvq := [⟨7, []⟩] })
     s.isUser = true ∧ s.me.recvq = ⟨7, []⟩ :: [] ∧ duo.me.recvq = [] ∧ duo.me.wait = none ∧ isFirmware duo.cur = false) ∧
    (duo.isGang = true ∧ duo.myRun? = some duoRun ∧ (duo.me.getX 1).toNat < Rec.nrank duoRun.rec_ ∧ srAdmits .fpmode (duo.me.getX 1) = true ∧
      (xs duo [(1, 0x100000000)]).me.getX 1 = 0x100000000) ∧
    (∀ k ∈ [SendKind.request 0x10008, .reply, .deposit ⟨.xreg 31, 5⟩],
      let s := duo.updMe (fun t => { t with sendq := [entryOf k] })
      (s.thread ⟨0, 0, 0⟩).sendq = [entryOf k] ∧ (entryOf k).released = true ∧ (s.thread ⟨0, 0, 0⟩).amoq = [] ∧
        s.sendTarget ⟨0, 0, 0⟩ (entryOf k) = some ⟨0, 0, 1⟩ ∧ s.gone 0 = false ∧ (s.core 0 0).deposits.length < 4 ∧
        (s.core 0 0).inq.length < 16 ∧ (s.thread ⟨0, 0, 1⟩).recvq.length < 8) ∧
    (let s := duo.updMe (fun t => { t with amoq := [amoReq] })
     (s.thread ⟨0, 0, 0⟩).sendq = [] ∧ (s.thread ⟨0, 0, 0⟩).amoq = [amoReq] ∧ s.amoBefore ⟨0, 0, 0⟩ amoReq.order = false ∧
       s.gone (s.ownerOf (s.amoVf amoReq) amoReq.pa).1 = false ∧
       (s.core (s.ownerOf (s.amoVf amoReq) amoReq.pa).1 (s.ownerOf (s.amoVf amoReq) amoReq.pa).2).inq.length < 16) ∧
    (let d : Deposit := ⟨⟨0, 0, 1⟩, ⟨.vlane 31 7, 5⟩, ⟨0, 0, 0⟩⟩
     let s := duo.updCore 0 0 (fun c => { c with deposits := [d] })
     (s.core 0 0).deposits = d :: [] ∧ Deposit.waits s d = false ∧ (s.thread d.target).status ≠ .halted) := by
  simp only [readable_iff, inRun_iff]
  refine ⟨?_, ?_, ?_, ?_, ?_, ?_, ?_, ?_, ?_⟩ <;> decide +kernel

/-- A handler in H of core 0. -/
def request : InMsg := .request ⟨0, 0, 0⟩ 0 9 0x10008 4 [1, 2, 3, 4] 0
def hkey : ActKey := ⟨1, 0x8000000000000000, 0⟩
def hact : Act := { act with handler := true, owner := ⟨0, 0, 4⟩ }
def handling : State :=
  { ((base.setAct hkey hact).updThread ⟨0, 0, 4⟩ (fun t => { t with ctx := .hand, act := some hkey, run := some 1, status := .ready, msg := some request }))
    with cur := ⟨0, 0, 4⟩ }

theorem witness_HandlerResult :
    (let s := base.updCore 0 0 (fun c => { c with inq := [request] })
     (s.thread ⟨0, 0, 4⟩).act = none ∧ (s.core 0 0).fenced = false ∧ (s.core 0 0).inq = request :: [] ∧
       (s.cluster 0).run = some 1 ∧ s.run? 1 = some placedRun ∧ placedRun.phase = .running) ∧
    (handling.isHand = true ∧ handling.me.act = some hkey ∧ handling.act? hkey = some hact) ∧
    (let a := { hact with rolled := some (0x15, 0) }
     let s := handling.setAct hkey a
     (s.thread ⟨0, 0, 4⟩).act = some hkey ∧ s.act? hkey = some a ∧ a.rolled = some (0x15, 0) ∧ (s.thread ⟨0, 0, 4⟩).msg = some request ∧
       (s.thread ⟨0, 0, 4⟩).cnt.ld = 0 ∧ (s.thread ⟨0, 0, 4⟩).cnt.st = 0) := by decide +kernel

/-! ### Reactions -/

/-- Queue 63 of the physical function, enabled, of two slots: record ring, completion ring and count of host memory's page. -/
def qcbWord : BitVec 512 := BitVec.ofNat 512 (0x4000000000 * 2 ^ 64 + 2 * 2 ^ 128 + 2 ^ 145 + 127 * 2 ^ 146 + 0x4000001000 * 2 ^ 192 +
  4 * 2 ^ 256 + 0x4000002000 * 2 ^ 320)
def withQueue (s : State) (q : Nat) : State := s.updQueue 0 q (fun k => { k with qcb := qcbWord })

theorem witness_ReactionResult :
    (acting.InReaction key act ∧ acting.InBody key act ∧ acting.me.ctx = .act ∧ act.fork = none ∧ act.partner = none ∧ acting.readable [1] ∧
      act.products.length < 256 ∧ ((acting.me.getV 1).extractLsb' 256 256 : BitVec 256).toNat % 2 ^ 16 = 0 ∧
      (((acting.updMe (·.setV 1 1)).me.getV 1).extractLsb' 0 256 : BitVec 256).toNat % 2 ^ 16 ≠ 0) ∧
    (let a := { act with products := List.replicate 256 (⟨0, 0⟩, 1) }
     (acting.setAct key a).InReaction key a ∧ 256 ≤ a.products.length) ∧
    (let s := withQueue (xs base [(1, 0x10000), (2, 63), (3, 64), (4, 0x10001)]) 63
     isFirmware s.cur = false ∧ s.readable [1, 2, 3, 4] ∧ (s.me.getX 4).toNat % 256 ≠ 0 ∧ (s.me.getX 1).toNat % 256 = 0 ∧
       63 < (s.me.getX 3).toNat ∧ (s.queue (s.vfOf s.cur) 0).enabled = false ∧
       ((s.me.getX 2).toNat ≤ 63 ∧ (s.queue (s.vfOf s.cur) (s.me.getX 2).toNat).enabled = true ∧ s.me.act = none ∧
         s.queueRoom (s.vfOf s.cur) (s.me.getX 2).toNat ≠ 0 ∧ s.me.cnt.st < 63) ∧
       (s.updQueue 0 63 (fun k => { k with reserved := 2 })).queueRoom 0 63 = 0) ∧
    (let s := withQueue (xs acting [(1, 0x10000), (2, 63)]) 63
     s.me.act = some key ∧ s.act? key = some act ∧ act.runqs.length < 8) := by
  simp only [readable_iff, inReaction_iff, inBody_iff]
  refine ⟨?_, ?_, ?_, ?_⟩ <;> decide +kernel

/-- `acting` with the word `join` at 0x10000 + 8 × 45. -/
def forkState : State :=
  { (xs acting [(6, 64), (7, 0)]) with mem := ByteMap.writes acting.mem 0x10168 (leBytes 8 0xA500000004000000) }
def region : ForkRegion :=
  { trips := 2, chunk := 1, n := 2, d := 10, forkPc := 0xFFF8, joinPc := 0x10000, x := Vector.replicate 32 0,
    v := Vector.replicate 32 0, p := Vector.replicate 8 0, h := Vector.replicate 16 0, fpmode := 0, spillsp := 0, spillbase := 0,
    spilllim := 0, waitlim := 0, tpc := 0, tcause := 0, tval := 0, mode := false, pmode := false, intrap := false,
    shadow := Vector.replicate 8 0, time := 0, fin := 0, waiting := [1], flags := 0, helpers := [] }

theorem witness_ForkJoinResult :
    (forkState.InBody key act ∧ forkState.me.ctx = .act ∧ act.fork = none ∧ forkState.readable [6, 7] ∧ forkState.me.status = .ready ∧
      (Instr.fork 10 6 7 0x2D).wf = true ∧ forkState.me.run = some 1 ∧ forkState.run? 1 = some placedRun ∧
      forkState.FetchesAt (forkState.me.pc + 8 * (0x2D : BitVec 20).setWidth 64) 0xA500000004000000 (pulled forkState 0 0x10168 8) ∧
      (∀ b, (pulled forkState 0 0x10168 8).byteAt b = forkState.byteAt b) ∧
      (forkState.me.pc + 8 * (0x2D : BitVec 20).setWidth 64 + 8).toNat < 2 ^ 49 ∧ (forkState.me.getX 6).toNat ≠ 0 ∧
      (forkState.me.getX 7).toNat = 0) ∧
    (∀ g ∈ [region, { region with waiting := [], fin := 1 }, { region with waiting := [] }],
      (acting.setAct key { act with fork := some g }).InBody key { act with fork := some g }) ∧
    ({ region with waiting := [], fin := 1 } : ForkRegion).fin + 1 = 2 := by
  refine ⟨⟨inBody_iff.mpr (by decide +kernel), by decide +kernel, by decide +kernel, readable_iff.mpr (by decide +kernel), by decide +kernel,
    by decide +kernel, by decide +kernel, by decide +kernel,
    fetches_of 0x10168 (leads_iff.mpr (by decide +kernel)) (by decide +kernel) (by decide +kernel), pulled_same (by decide +kernel),
    by decide +kernel, by decide +kernel, by decide +kernel⟩, ?_, by decide⟩
  simp only [inBody_iff]; decide +kernel

theorem witness_RepetitionResult :
    (let w : Word := 0x408628C400400005
     let s := { base with mem := ByteMap.writes base.mem 0x10008 (leBytes 8 w.toNat) }
     [w].length = (0 : BitVec 3).toNat + 1 ∧
       (let us (i : Nat) : State := if i = 0 then s else pulled s 0 0x10008 8
        us 0 = s ∧ ∀ i, i ≤ (0 : BitVec 3).toNat →
          (us i).FetchesAt (s.me.pc + BitVec.ofNat 64 (8 * (i + 1))) ([w].getD i 0) (us (i + 1))) ∧ bodyWord w = true ∧
       0x40 ≤ w.toNat / 2 ^ 56 ∧ w.toNat / 2 ^ 56 ≤ 0x50 ∧ w.toNat / 2 ^ 56 ≠ 0x4E) ∧
    (base.FetchesAt (base.me.pc + 8) 0 (pulled base 0 0x10008 8) ∧ bodyWord 0 = false) ∧
    (∀ n ∈ [1, 2], (base.updMe (fun t => { t with rep := some ⟨[0x408628C400400005], n, 1, 0, 0⟩ })).me.rep =
      some ⟨[0x408628C400400005], n, 1, 0, 0⟩) := by
  refine ⟨⟨rfl, ⟨rfl, fun i hi => ?_⟩, by decide +kernel, by decide +kernel, by decide +kernel, by decide +kernel⟩,
    ⟨fetches_of 0x10008 (leads_iff.mpr (by decide +kernel)) (by decide +kernel) (by decide +kernel), by decide +kernel⟩, by decide +kernel⟩
  obtain rfl : i = 0 := by simpa using hi
  exact fetches_of 0x10008 (leads_iff.mpr (by decide +kernel)) (by decide +kernel) (by decide +kernel)

def cand (slot : Nat) (ages : List (BitVec 32)) : Cand := ⟨slot, 0, ages, 0, false⟩

theorem witness_ArbitrationDisjoint : [cand 1 [2, 3], cand 0 [1, 2]].Perm [cand 0 [1, 2], cand 1 [2, 3]] ∧
    ([cand 0 [1, 2], cand 1 [2, 3]].map Cand.slot).Nodup := ⟨.swap _ _ _, by decide⟩

/-- A REACT run of one thread set, with one rule and one resident tile of its kind. -/
def reactRun : Run := { placedRun with rec_ := BitVec.ofNat 2048 (1 + 2 ^ 24 + 2 ^ 32 + 2 ^ 40 + 2 ^ 48), rules := [rule] }
def react : State :=
  { (((base.setRun 1 reactRun).updMe (fun t => { t with status := .idle })).updCluster 0 (fun c => { c with kennel :=
      { c.kennel with tiles := [⟨{ Tile.ofBits 1 with age := 5 }, false⟩], ageCtr := 6, cands := [cand 0 [5]] } })) with fclk := 64 }

theorem witness_KennelResult :
    (let i : Insert := ⟨1, 0, 0, false, 1⟩
     let s := { react with inserts := [i] }
     s.firstInserts s.inserts [] ≠ [] ∧ ∀ i ∈ s.firstInserts s.inserts [], i.viaRing = false ∧ (s.run? i.run).isSome = true) ∧
    ((react.cluster 0).run = some 1 ∧ react.run? 1 = some reactRun ∧ reactRun.holdsRounds = true ∧
      (react.cluster 0).kennel.lastStart + 64 ≤ react.fclk ∧ react.freeSets 1 reactRun 0 ≠ [] ∧
      (react.cluster 0).kennel.cands.filter (react.cluster 0).kennel.enabledCand = [cand 0 [5]] ∧ reactRun.rules[0]? = some rule ∧
      rule.usesClause = false ∧ rule.paired = false ∧
      [{ Tile.ofBits 1 with age := 5 }] = (cand 0 [5]).ages.filterMap (fun a =>
        ((react.cluster 0).kennel.tiles.find? (fun t => t.tile.age == a)).map (·.tile)) ∧
      react.pickSet reactRun 0 (tileAt [{ Tile.ofBits 1 with age := 5 }] 0).key = some ⟨0, 0, 0⟩) ∧
    (reactRun.phase = .running ∧ Rec.isReact reactRun.rec_ = true ∧ reactRun.wave = none) ∧
    (let v : Wave := ⟨true, 0, 0, 0, 0⟩
     let s := (react.updKennel 0 (fun n => { n with cands := [], tiles := [] })).setRun 1 { reactRun with wave := some v }
     s.run? 1 = some { reactRun with wave := some v } ∧ v.quiet = true ∧ v.snd = v.rcv ∧ s.wave { reactRun with wave := some v } = v) := by
  refine ⟨?_, ?_, ?_, ?_⟩ <;> decide +kernel

theorem witness_CommitResult :
    (let a := { act with ending := some .done, tent := [(0x10040, 7)] }
     let s := (acting.setAct key a).setRun 1 reactRun
     s.act? key = some a ∧ a.ending = some .done ∧ s.actBusy key = false ∧ a.partner = none ∧ a.rolled = none ∧ a.handler = false ∧
       s.actPend key a = none ∧ s.run? key.run = some reactRun ∧ a.products = [] ∧ a.runqs = [] ∧ a.outside = [] ∧ s.heldMessages key a = [] ∧
       (a.tent.map (·.1)).Nodup ∧ (s.thread a.owner).act = some key ∧ (s.cluster a.cluster).kennel.ring = [] ∧
       a.lines ≠ [] ∧ (∀ l ∈ a.lines, s.homeDown reactRun.vf (256 * l) = false ∧ s.lineHeld l = false)) ∧
    (let a := { act with ending := some .done }
     let s := (acting.setAct key a).updMe (fun t => { t with cnt := ⟨0, 1, 0, 0, 0⟩ })
     s.act? key = some a ∧ s.actBusy key = true) ∧
    (∀ e ∈ [Ending.abort, .reject], let a := { act with ending := some e }
     let s := acting.setAct key a
     s.act? key = some a ∧ a.ending = some e ∧ (e = .abort ∨ e = .reject) ∧ s.actBusy key = false ∧ a.partner = none ∧ a.rolled = none ∧
       a.handler = false ∧ (s.thread a.owner).act = some key) := by
  refine ⟨?_, ?_, ?_⟩ <;> decide +kernel

theorem witness_TwinResult : ∀ e ∈ [Ending.done, .abort],
    let k0 : ActKey := ⟨1, 7, 0⟩
    let k1 : ActKey := ⟨1, 7, 1⟩
    let a0 : Act := { act with partner := some k1, ending := some .done, tent := [(0x10040, 7)], stream := [(0, [1])] }
    let a1 : Act := { act with partner := some k0, ending := some e, stream := [(0, [1])], owner := ⟨0, 1, 0⟩ }
    let s := ((base.setRun 1 reactRun).setAct k0 a0).setAct k1 a1
    s.act? k0 = some a0 ∧ s.act? k1 = some a1 ∧ s.actBusy k0 = false ∧ s.actBusy k1 = false ∧ a0.rolled = none ∧ a1.rolled = none ∧
    a0.handler = false ∧ a1.handler = false ∧ a0.stream = a1.stream ∧ s.actPend k0 a0 = none ∧ s.run? 1 = some reactRun ∧
    a0.products = [] ∧ a0.runqs = [] ∧ a0.outside = [] ∧ s.heldMessages k0 a0 = [] ∧ (a0.tent.map (·.1)).Nodup ∧
    (∀ l ∈ a0.lines, s.homeDown reactRun.vf (256 * l) = false ∧ s.lineHeld l = false) := by decide +kernel

/-! ### The front end: one page of 2^38 bytes at VA 2^38, in host memory from PA 2^51 on (R372) -/

/-- A state with that table, and host memory reachable. -/
def serve (s : State) : State :=
  { (s.updFn 0 (fun f => { f with ptroot := 0x20001 })) with
    mem := ByteMap.writes s.mem 0x20008 (leBytes 8 (2 ^ 51 + 15))
    hub := { s.hub with active := #v[0x7F, 0, 0, 0] } }

def hostPage : TlbEntry := ⟨0, 2 ^ 38, 38, 2 ^ 51, true, true, false⟩

/-- What the walk of that page needs. -/
def Serves (s : State) : Prop :=
  (s.fn 0).ptroot = 0x20001 ∧ s.place 0x20008 = .ok .dram ∧ s.physRead 0 0x20008 8 = .ok (leBytes 8 (2 ^ 51 + 15)) ∧
  (s.cluster fwNode).misses = [] ∧ s.hub.feature 5 = true ∧ s.lineHeld (0x20008 / 256) = false

def hosting (s : State) (m : ByteMap) : State := { s with hub := { s.hub with hostMem := m } }

theorem Serves.hosting {s : State} (h : Serves s) (m : ByteMap) : Serves (hosting s m) := by
  obtain ⟨h1, h2, h3, h4, h5, h6⟩ := h
  refine ⟨h1, h2, ?_, h4, h5, h6⟩
  have e1 : (Tests.hosting s m).place 0x20008 = s.place 0x20008 := rfl
  have e2 : (Tests.hosting s m).homeDown 0 0x20008 = s.homeDown 0 0x20008 := rfl
  have e3 : (Tests.hosting s m).poisonAt 0x20008 8 = s.poisonAt 0x20008 8 := rfl
  have e4 : (Tests.hosting s m).placeBytes .dram 0x20008 8 = s.placeBytes .dram 0x20008 8 := rfl
  rw [← h3]
  unfold State.physRead
  rw [e1, h2]
  simp only [e2, e3, e4]

theorem Serves.walk {s : State} (h : Serves s) (x : Nat) (hx : x < 2 ^ 38) : s.walk 0 (2 ^ 38 + x) = .present hostPage := by
  have hd : (2 ^ 38 + x) / 2 ^ 38 = 1 := by omega
  have he : Word.bit (0x20001 : Word) 0 = true := by decide
  have hb : Word.bits (0x20001 : Word) 51 14 * 2 ^ 14 + 8 * (1 % 2048) = 0x20008 := by decide +kernel
  have hw : BitVec.ofNat 64 (leNat (leBytes 8 (2 ^ 51 + 15))) = (0x800000000000F : Word) := by decide +kernel
  unfold State.walk State.walkFrom
  simp only [h.1, he, hd, hb, h.2.2.1, hw]
  rw [if_neg (by decide), if_neg (by rw [h.2.2.2.2.2]; decide), if_neg (by decide +kernel), if_pos (by decide +kernel), if_neg (by decide +kernel)]
  decide +kernel

/-- The front end reaches a byte of that page. -/
theorem Serves.at {s : State} (h : Serves s) {need : Need} (hn : hostPage.permits need = true) {x : Nat} (hx : x < 2 ^ 38) :
    s.EngineAt (frontEnd 0) need (BitVec.ofNat 64 (2 ^ 38 + x)) (.phys .host (2 ^ 51 + x)) := by
  have hv : (BitVec.ofNat 64 (2 ^ 38 + x)).toNat = 2 ^ 38 + x := by rw [BitVec.toNat_ofNat]; omega
  have hs : ¬ scratchBase ≤ 2 ^ 38 + x := by unfold scratchBase; omega
  have h1 : ¬ 2 ^ 51 + x < 2 ^ 39 := by omega
  have h2 : 8 ≤ (2 ^ 51 + x) / 2 ^ 48 := by omega
  refine .walk hostPage _ _ rfl (by rw [hv]; omega) ?_ ?_ (by rw [hv]; exact h.walk x hx) hn ?_ ?_ (fun h => nomatch h)
  · rw [hv]; simp only [inScratch, hs, decide_false, Bool.false_and]
  · simp [State.missOf, frontEnd, h.2.2.2.1]
  · rw [hv]; simp only [TlbEntry.phys, hostPage]; omega
  · unfold State.place
    simp only [if_neg h1, if_pos h2, h.2.2.2.2.1, if_true]

theorem Serves.range {s : State} (h : Serves s) {need : Need} (hn : hostPage.permits need = true) {x n : Nat}
    (hx : x + n ≤ 2 ^ 38) : s.HostRange 0 need (2 ^ 38 + x) n (2 ^ 51 + x) :=
  ⟨by omega, fun i hi m => by
    rw [Nat.add_assoc, Nat.add_assoc]
    exact (h.hosting m).at hn (by omega)⟩

/-- It reads bytes of one line, and writes them. -/
theorem Serves.reads {s : State} (h : Serves s) {x n : Nat} (h0 : 0 < n) (hx : x % 256 + n ≤ 256) (hm : x < 2 ^ 38) :
    s.EngineReads (frontEnd 0) (2 ^ 38 + x) n (s.spotBytes (frontEnd 0) (.phys .host (2 ^ 51 + x)) n) s :=
  reads_one h0 (by omega) (h.at rfl hm) rfl rfl (fun _ => rfl) rfl

theorem reads_zeros (a n : Nat) : ByteMap.reads [] a n = List.replicate n 0 := by
  simp only [ByteMap.reads, ByteMap.read_nil, upTo]
  exact List.map_const' .. |>.trans (by simp)

/-- It reads any range of that page, of zeros where host memory holds none. -/
theorem Serves.zeros {s : State} (h : Serves s) (hz : s.hub.hostMem = []) (n : Nat) : ∀ x, x + n ≤ 2 ^ 38 →
    s.EngineReads (frontEnd 0) (2 ^ 38 + x) n (List.replicate n 0) s := by
  induction n using Nat.strongRecOn with
  | ind n ih =>
    intro x hx
    rcases Nat.eq_zero_or_pos n with rfl | h0
    · exact .nothing _ _ _
    · let k := min n (256 - (2 ^ 38 + x) % 256)
      have hk : 0 < k := by simp only [k]; omega
      have hn : k ≤ n := Nat.min_le_left ..
      have hr := ih (n - k) (by omega) (x + k) (by omega)
      rw [← Nat.add_assoc] at hr
      have hl := State.EngineReads.line s s s (frontEnd 0) (2 ^ 38 + x) n (.phys .host (2 ^ 51 + x)) _ h0 (h.at rfl (by omega)) rfl rfl
        (fun _ => rfl) hr
      have hb : s.spotBytes (frontEnd 0) (.phys .host (2 ^ 51 + x)) k = List.replicate k 0 := by
        have hr : s.placeBytes .host (2 ^ 51 + x) k = List.replicate k 0 := by
          simp only [State.placeBytes, hz, reads_zeros]
        simp only [State.spotBytes, frontEnd, Option.bind_none, ownData, Option.map_none, Option.getD_none, overlaid, overlayFind, hr]
        apply List.ext_getElem <;> simp [upTo]
      rw [hb] at hl
      have hc : n = k + (n - k) := by omega
      rw [show List.replicate n (0 : Byte) = List.replicate k 0 ++ List.replicate (n - k) 0 by
        rw [List.replicate_append_replicate, ← hc]]
      exact hl

theorem Serves.writes {s : State} (h : Serves s) {x n : Nat} (hx : x % 256 + n ≤ 256) (hm : x < 2 ^ 38) :
    s.FrontWrites 0 (BitVec.ofNat 64 (2 ^ 38 + x)) n (.phys .host (2 ^ 51 + x)) := by
  have hv : (BitVec.ofNat 64 (2 ^ 38 + x)).toNat = 2 ^ 38 + x := by rw [BitVec.toNat_ofNat]; omega
  exact ⟨by rw [hv]; omega, rfl, h.at rfl hm, fun _ h => nomatch h⟩

/-! ### Queues and runs -/

/-- The physical function's queue 0: its rings and count in that page. -/
def qcb0 : BitVec 512 := BitVec.ofNat 512 (2 ^ 38 * 2 ^ 64 + 2 * 2 ^ 128 + 2 ^ 145 + 127 * 2 ^ 146 + (2 ^ 38 + 0x1000) * 2 ^ 192 +
  4 * 2 ^ 256 + (2 ^ 38 + 0x2000) * 2 ^ 320)
def queued : State := serve (base.updQueue 0 0 (fun k => { k with qcb := qcb0, runs := [1] }))

theorem queued_serves : Serves queued := by unfold Serves; decide +kernel

def dispatching : State := { queued with runs := [] }
theorem dispatching_serves : Serves dispatching := by unfold Serves; decide +kernel

theorem witness_QueueResult :
    (({ dispatching with input := .doorbell 0 0 0x10000 } : State).input = .doorbell 0 0 0x10000 ∧ dispatching.presented 0 = true ∧
      dispatching.hub.started = true ∧ dispatching.hub.failed = false ∧ (0x10000 : Word).toNat % 256 = 0 ∧
      dispatching.queueRoom 0 0 ≠ 0 ∧ (0x10001 : Word).toNat % 256 ≠ 0) ∧
    (({ dispatching with input := .readDoorbell 0 63 } : State).input = .readDoorbell 0 63 ∧ dispatching.presented 0 = true ∧
      dispatching.queueRoom 0 63 < 2 ^ 17) ∧
    (Qcb.gen (base.qcbAt 0 0) % 2 = 0 ∧ natBits (base.qcbAt 0 0).toNat 511 448 = Qcb.gen (base.qcbAt 0 0)) ∧
    (let s := base.updFn 0 (fun f => { f with sram := ByteMap.writes f.sram 0xFC000 [1] })
     Qcb.gen (s.qcbAt 0 0) % 2 = 1) ∧
    (let s := base.updCluster 0 (fun c => { c with raised := 1 })
     s.run? 1 = some placedRun ∧ placedRun.released = true ∧ (∀ c ∈ s.clusters, c.2.raised ≠ 0 → c.2.run = some 1) ∧ ∃ c ∈ s.clusters, c.2.raised ≠ 0) := by
  refine ⟨?_, ?_, ?_, ?_, ?_⟩ <;> decide +kernel

/-- A record's bytes, and its submission to that queue. -/
def recBytes : List Byte := leBytes 256 placedRun.rec_.toNat
def appending : State := { dispatching with submissions := [⟨0, 0, 0x10000, true, some recBytes, none, none, none⟩] }

theorem witness_QueueResult_append :
    appending.submissions = [⟨0, 0, 0x10000, true, some recBytes, none, none, none⟩] ∧ recBytes.length = 256 ∧
      (appending.queue 0 0).enabled = true ∧
      Qcb.ring (appending.queue 0 0).qcb + 256 * ((appending.queue 0 0).tail % Qcb.slots (appending.queue 0 0).qcb) = 2 ^ 38 + 0 ∧
      appending.FrontWrites 0 (BitVec.ofNat 64 (2 ^ 38 + 0)) 256 (.phys .host (2 ^ 51 + 0)) := by
  refine ⟨rfl, by decide +kernel, by decide +kernel, by decide +kernel, ?_⟩
  exact Serves.writes (x := 0) (by unfold Serves; decide +kernel) (by omega) (by omega)

/-- A rule table of one good rule, at VA 2^38 + 0x3000, and an image that holds it. -/
def ruleRecord : Nat := 1 + 2 ^ 64 + 2 ^ 96 + 0x10000 * 2 ^ 128
def image : BitVec 1024 := BitVec.ofNat 1024 (0x10000 + 0x1000 * 2 ^ 64 + 64 * 2 ^ 96 + (2 ^ 38 + 0x3000) * 2 ^ 128)

/-- A state with that image registered, run 1 queued with fields at bits of its record, and that rule table. -/
def admitted (l : List (Nat × Nat)) (table : Nat) : State :=
  let x : Run := { placedRun with rec_ := BitVec.ofNat 2048 ((l.map (fun p => p.2 * 2 ^ p.1)).sum), phase := .queued, checked := false }
  let s := (queued.updFn 0 (fun f => { f with sram := ByteMap.writes f.sram 0xFB000 (leBytes 128 image.toNat) })).setRun 1 x
  { s with hub := { s.hub with hostMem := ByteMap.writes [] 0x3000 (leBytes 64 table) } }

def one : List (Nat × Nat) := [(24, 1), (32, 1), (40, 1), (48, 1)]
def gangRec : List (Nat × Nat) := (0, 2) :: (384, 0x10000) :: one
def reactRec : List (Nat × Nat) := (0, 1) :: (80, 1) :: (256, 2 ^ 38 + 0x3000) :: one

theorem admitted_serves : Serves (admitted gangRec 0) ∧ Serves (admitted reactRec 0) ∧ Serves (admitted reactRec ruleRecord) := by
  unfold Serves; decide +kernel

/-- The conditions under which a queued run is judged. -/
def judged (s : State) (x : Run) (checked : Bool := false) : Prop :=
  s.headRun 0 0 = some 1 ∧ s.run? 1 = some x ∧ x.phase = .queued ∧ x.stop = none ∧ s.dispatchOpen = true ∧ s.feWaits 1 = false ∧
  s.isEligible 1 x = true ∧ x.refused = [] ∧ x.ntiles = none ∧ x.checked = checked

def runOne (s : State) : Run := (s.run? 1).getD placedRun

theorem witness_RunResult_admission :
    (judged (admitted one 0) (runOne (admitted one 0)) ∧
      (admitted one 0).recordCheck (runOne (admitted one 0)) ((admitted one 0).imageFor 0 (runOne (admitted one 0)).rec_) = 1) ∧
    (let s := admitted gangRec 0
     judged s (runOne s) ∧ s.imageFor 0 (runOne s).rec_ = some image ∧ s.recordCheck (runOne s) (some image) = 0 ∧
       Rec.ntind (runOne s).rec_ = false ∧ Rec.kind (runOne s).rec_ = 2) ∧
    (let x := { runOne (admitted gangRec 0) with checked := true }
     judged ((admitted gangRec 0).setRun 1 x) x true) ∧
    (∀ p ∈ [(0, false), (ruleRecord, true)], let s := admitted reactRec p.1
     judged s (runOne s) ∧ s.imageFor 0 (runOne s).rec_ = some image ∧ s.recordCheck (runOne s) (some image) = 0 ∧
       Rec.kind (runOne s).rec_ = 1 ∧ Rec.rulesAt (runOne s).rec_ = 2 ^ 38 + 0x3000 ∧ 64 * Rec.nrules (runOne s).rec_ = 64 ∧
       32 * Rec.ntiles (runOne s).rec_ = 0 ∧
       (ruleRecords (s.spotBytes (frontEnd 0) (.phys .host (2 ^ 51 + 0x3000)) 64) 1).all (ruleOk s.hub image) = p.2) := by
  unfold judged; decide +kernel

/-- The run with the outcome of its checks, and its image. -/
def checkedRun (p : Nat) : State :=
  (admitted reactRec p).setRun 1 { runOne (admitted reactRec p) with checked := true, image := image }

theorem witness_RunResult_table : ∀ p ∈ [0, ruleRecord], (checkedRun p).EngineReads (frontEnd 0) (2 ^ 38 + 0x3000) 64
    ((checkedRun p).spotBytes (frontEnd 0) (.phys .host (2 ^ 51 + 0x3000)) 64) (checkedRun p) := by
  have h : ∀ p ∈ [0, ruleRecord], Serves (checkedRun p) := by unfold Serves; decide +kernel
  exact fun p hp => (h p hp).reads (by decide) (by decide) (by decide)

/-- With one initial tile, which the record's NTILES counts, or a word of host memory does: there is room for it, but not for
more than a kennel holds. -/
theorem witness_RunResult_tiles : ∀ c ∈ [(1, true), (16385, false)],
    let s := admitted reactRec ruleRecord
    let z : Run := { runOne s with rules := [rule], ntiles := some c.1, image := image, gen := 1,
                                   tiles := List.replicate c.1 (BitVec.ofNat 256 1), phase := .eligible }
    s.roomNow z = c.2 := by decide +kernel

theorem witness_RunResult_count (m : ByteMap) : (hosting (admitted reactRec ruleRecord) m).EngineReads (frontEnd 0) (2 ^ 38 + 0x4000) 4
    ((hosting (admitted reactRec ruleRecord) m).spotBytes (frontEnd 0) (.phys .host (2 ^ 51 + 0x4000)) 4)
    (hosting (admitted reactRec ruleRecord) m) :=
  (admitted_serves.2.2.hosting m).reads (by decide) (by decide) (by decide)

def phased (p : Phase) (l : List (Nat × Nat)) : Run := { runWith l with phase := p }

/-- A GANG run about to be released, whose image's text lies in that page. -/
def releasing : Run := { phased .placed [] with
  rec_ := BitVec.ofNat 2048 (2 + 2 ^ 24 + 2 ^ 32 + 2 ^ 40 + 2 ^ 48 + (2 ^ 38 + 0x40) * 2 ^ 384), image := BitVec.ofNat 1024 (2 ^ 38 + 0x80 * 2 ^ 64) }

theorem witness_RunResult_release : let s := queued.setRun 1 releasing
    s.run? 1 = some releasing ∧ Rec.kind releasing.rec_ = 2 ∧
    s.ImageReads 0 releasing.image [Rec.entry releasing.rec_] s ∧ s.ImageReads 0 placedRun.image [Rec.entry placedRun.rec_] s := by
  have h : Serves (queued.setRun 1 releasing) := by unfold Serves; decide +kernel
  have he : Rec.entry releasing.rec_ = 2 ^ 38 + 0x40 := by decide +kernel
  have hr := h.reads (x := 0x40) (n := 0x40) (by decide) (by decide) (by decide)
  refine ⟨by decide +kernel, by decide +kernel, ?_, .outside _ _ _ _ _ _ (by decide +kernel) (.nothing ..)⟩
  rw [he]
  have hn : min 4096 (Img.text releasing.image + Img.textLen releasing.image - (2 ^ 38 + 0x40)) = 0x40 := by decide +kernel
  exact .entry _ _ _ _ _ _ _ ((queued.setRun 1 releasing).spotBytes (frontEnd 0) (.phys .host (2 ^ 51 + 0x40)) 0x40) (by decide +kernel)
    (by rw [hn]; exact hr) (.nothing ..)

theorem witness_RunResult :
    (let s := { base with runs := [(1, phased .eligible [])], clusters := [] }
     s.waiters = [(1, phased .eligible [])] ∧ (∀ c ∈ s.clusters, c.2.run ≠ some 1) ∧ Rec.kind (phased .eligible []).rec_ = 2 ∧
       (s.bestRect (phased .eligible []) []).isSome = true) ∧
    (let x := phased .placed []
     let s := base.setRun 1 x
     s.run? 1 = some x ∧ x.stop = none ∧ s.feWaits 1 = false ∧ x.refused = [] ∧ Rec.cwmask x.rec_ = 0 ∧ x.tiles = [] ∧ x.subst = [] ∧
       (∀ c ∈ x.clusters, (s.cluster c).run = some 1) ∧ Rec.packw x.rec_ ≤ 16 ∧ Rec.cores x.rec_ ≤ 16 ∧ Rec.threads x.rec_ ≤ 4) ∧
    (∀ p ∈ [Phase.running, .draining], let x := phased p [(192, 3600000)]
     let s := { (base.setRun 1 x) with fclk := 3600000 }
     s.run? 1 = some x ∧ (x.phase = .running ∨ x.phase = .draining) ∧ x.stop = none ∧ x.sliceAt + 3600000 ≤ s.fclk ∧ s.waiters = [] ∧ Rec.timelim x.rec_ ≠ 0 ∧
       Rec.timelim x.rec_ ≤ x.ranBefore + (s.fclk - x.placedAt)) ∧
    ((base.setRun 1 { placedRun with stop := some ⟨6, 1, 0⟩ }).run? 1 = some { placedRun with stop := some ⟨6, 1, 0⟩ }) ∧
    (let x := phased .eligible [(0, 1)]
     let s := base.setRun 2 x
     s.run? 2 = some x ∧ x.phase = .eligible ∧ x.stop = none ∧ s.feWaits 2 = false ∧
       s.runOf x.vf (BitVec.ofNat 64 (Rec.entry x.rec_)) = none) ∧
    (let x := phased .eligible [(0, 1)]
     let y := phased .draining [(384, 0x10000)]
     let s := (base.setRun 2 x).setRun 1 { y with rec_ := x.rec_, addr := BitVec.ofNat 64 (Rec.entry x.rec_) }
     s.run? 2 = some x ∧ y.phase ≠ .running) ∧
    (let y : Run := { reactRun with replace := some ⟨2, [rule]⟩ }
     let s := (react.setRun 1 y).setRun 2 (phased .eligible [(0, 1)])
     s.run? 1 = some y ∧ y.replace = some ⟨2, [rule]⟩ ∧ y.phase = .running ∧ 2 ≠ 1 ∧ s.run? 2 = some (phased .eligible [(0, 1)])) ∧
    (let s := base.updMe (fun t => { t with status := .halted })
     s.run? 1 = some placedRun ∧ s.feWaits 1 = false ∧ placedRun.stop = none ∧ placedRun.phase = .running ∧ s.gangHalted placedRun = true) ∧
    (let x := { phased .stopping [] with stop := some ⟨3, 0, 0⟩ }
     let s := (base.setRun 1 x).updMe (fun t => { t with cnt := ⟨0, 1, 0, 0, 0⟩ })
     s.run? 1 = some x ∧ x.stop = some ⟨3, 0, 0⟩ ∧ x.phase = .stopping ∧ s.runBusy 1 x = true) ∧
    (placedRun.vf < 32 ∧ placedRun.queue < 64 ∧ placedRun.firings < 2 ^ 64 ∧ base.fclk < 2 ^ 64) := by
  refine ⟨?_, ?_, ?_, ?_, ?_, ?_, ?_, ?_, ?_⟩ <;> decide +kernel

/-- A pack with a save area in that page. -/
def saved (k : Nat) (p : Phase) : Run := { placedRun with
  rec_ := BitVec.ofNat 2048 (k + 2 ^ 24 + 2 ^ 32 + 2 ^ 40 + 2 ^ 48 + (2 ^ 38 + 0x100000) * 2 ^ 768 + 0x800000 * 2 ^ 832), phase := p }

/-- A run of function 1 that needs the whole grid, and a pack of function 0 that stands in it, alone or beside another. -/
def gridRun : Run := { phased .eligible [(24, 15), (32, 15)] with vf := 1, node := 0 }
theorem witness_RunResult_slice : ∀ c ∈ [true, false],
    let x := saved 2 .running
    let s := { (((base.setRun 1 x).setRun 2 gridRun).updCluster 9 (fun k => { k with run := if c then none else some 3 })) with fclk := 3600000 }
    s.run? 1 = some x ∧ x.phase = .running ∧ x.sliceAt + 3600000 ≤ s.fclk ∧ gridRun.vf ≠ x.vf ∧ s.prioOf gridRun = s.prioOf x ∧
    s.bestRect gridRun [] = none ∧ s.waiters = [(2, gridRun)] ∧ s.draining = [] ∧ s.lowerPacks gridRun = [] ∧ x.preemptible = true ∧
    (∀ q ∈ s.runs, q.2.preemptible = true → s.prioOf q.2 = s.prioOf x → q.2.vf ≠ gridRun.vf →
      q.2.sliceAt + 3600000 ≤ s.fclk → q = (1, x)) ∧ s.runs.Nodup ∧ (s.bestRect gridRun x.clusters).isSome = c := by decide +kernel

/-- A REPLACE record against a run of the same function, with a good and with a bad table. -/
theorem witness_RunResult_replace : ∀ p ∈ [(0, false), (ruleRecord, true)],
    let y : Run := { reactRun with image := image }
    let x : Run := { phased .eligible [] with rec_ := BitVec.ofNat 2048 (3 + 2 ^ 80 + (2 ^ 38 + 0x3000) * 2 ^ 256 + 2 ^ 384) }
    let s := ((admitted reactRec p.1).setRun 1 y).setRun 2 x
    s.run? 2 = some x ∧ s.runOf x.vf (BitVec.ofNat 64 (Rec.entry x.rec_)) = some (1, y) ∧ s.run? 1 = some y ∧ Rec.kind y.rec_ = 1 ∧
    y.phase = .running ∧ y.replace = none ∧ x.refused = [] ∧ Rec.rulesAt x.rec_ = 2 ^ 38 + 0x3000 ∧ 64 * Rec.nrules x.rec_ = 64 ∧
    (ruleRecords (s.spotBytes (frontEnd 0) (.phys .host (2 ^ 51 + 0x3000)) 64) 1).all (ruleOk s.hub y.image) = p.2 := by decide +kernel

/-- A run that has stopped, with its completion ring and count in host memory. -/
def stopped : State := queued.setRun 1 { phased .stopping [] with stop := some ⟨3, 0, 0⟩ }

theorem witness_RunResult_completion :
    (let x : Run := { phased .stopping [] with stop := some ⟨3, 0, 0⟩ }
     stopped.run? 1 = some x ∧ x.stop = some ⟨3, 0, 0⟩ ∧ stopped.feWaits 1 = false ∧ stopped.runBusy 1 x = false ∧ x.refused = [] ∧
       (stopped.queue 0 0).enabled = true ∧ Qcb.cring (stopped.queue 0 0).qcb + 64 * ((stopped.queue 0 0).count.toNat %
         Qcb.cslots (stopped.queue 0 0).qcb) = 2 ^ 38 + 0x1000 ∧ Qcb.cnt (stopped.queue 0 0).qcb = 2 ^ 38 + 0x2000) ∧
    stopped.HostRange 0 .w (2 ^ 38 + 0x1000) 64 (2 ^ 51 + 0x1000) ∧ stopped.HostRange 0 .w (2 ^ 38 + 0x2000) 8 (2 ^ 51 + 0x2000) ∧
    stopped.HostRange 0 .w 0 0 0 := by
  have h : Serves stopped := by unfold Serves; decide +kernel
  exact ⟨by decide +kernel, h.range rfl (by decide), h.range rfl (by decide), ⟨by decide, fun i hi => absurd hi (Nat.not_lt_zero i)⟩⟩

/-! ### Translation, faults and pre-emption -/

theorem served_walk_base : (serve base).walk 0 (2 ^ 38) = .present hostPage :=
  Serves.walk (s := serve base) (by unfold Serves; decide +kernel) 0 (by decide)

/-- A miss of cluster 0 on a page that `base` does not map, or on the page of `serve`. -/
def miss (va : Word) (served : Bool) (as : List Agent) : Miss := ⟨0, va.toNat / 2 ^ 16, va, 1, 1, served, as, [1]⟩
def missing (m : Miss) : State :=
  (base.updMe (fun t => { t with status := .asleep })).updCluster 0 (fun c => { c with misses := [m] })

theorem witness_FaultResult :
    ((serve base).physRead 0 (0x20000 + 8 * (2 ^ 38 / 2 ^ 38 % 2048)) 8 = .ok (leBytes 8 (0x800000000000F : Word).toNat) ∧
      (base.physRead 0 (0x20000 + 8 * (2 ^ 38 / 2 ^ 38 % 2048)) 8 = .ok (leBytes 8 (0 : Word).toNat)) ∧
      (serve base).lineHeld (0x20008 / 256) = false ∧
      0x10000 + 8 * (0 / 2 ^ 16 % 2048) < 2 ^ 39 ∧ (relaying { relayOp with moving := some movingBlock }).lineHeld (0x10000 / 256) = true) ∧
    (∀ p ∈ [(0, 0), (255, 255), (0x100, 256)], let s := base.updFn 1 (fun f => { f with
        faults := [List.replicate 32 7], fqtail := BitVec.ofNat 64 p.1, fqCount := p.2 })
     (s.fn 1).faults = List.replicate 32 7 :: [] ∧
       (List.replicate 32 (7 : Byte)).length = 32 ∧ (p.2 ≠ 256 → (s.fn 1).fqCount < 256) ∧ (p.2 = 256 → 256 ≤ (s.fn 1).fqCount)) ∧
    (let m := miss 0x20000 false [.thread ⟨0, 0, 0⟩]
     let s := missing m
     s.missOfFid 0 1 = some (0, m) ∧ s.missOf 0 0 m.page = some m ∧ m.vf = 0 ∧ (s.thread ⟨0, 0, 0⟩).status = .asleep ∧
       s.missOfFid 0 2 = none ∧ ∀ x, (s.thread ⟨0, 0, 0⟩).run.bind s.run? = some x → x.phase ≠ .draining) ∧
    (let m := miss 0x20000 false [.copyPipe ⟨0, 0, 0⟩ 1]
     let q : CopyOp := { copyOp with suspended := true }
     let s := (missing m).updCluster 0 (fun c => { c with copies := [q] })
     s.missOfFid 0 1 = some (0, m) ∧ m.agents = [.copyPipe ⟨0, 0, 0⟩ 1] ∧ s.sleeper ⟨0, 0, 0⟩ 1 = some q ∧
       q.stint = (s.thread ⟨0, 0, 0⟩).stint ∧ (s.thread ⟨0, 0, 0⟩).joinAt ≤ q.order) ∧
    (let m := miss 0x20000 false [.frontEnd 1 0x20008]
     let s := (base.setRun 1 (phased .placed [])).updCluster fwNode (fun c => { c with misses := [m] })
     s.missOfFid 0 1 = some (fwNode, m) ∧ s.run? 1 = some (phased .placed []) ∧ (phased .placed []).phase = .placed ∧ (phased .placed []).stop = none ∧ s.inserts = []) ∧
    (let m := miss 0x4000000000 true [.thread ⟨0, 0, 0⟩]
     let s := serve (missing m)
     s.missOf 0 0 m.page = some m ∧ m.served = true ∧ s.walk 0 m.va.toNat = .present hostPage ∧
       (∀ k ∈ m.kinds, hostPage.permits (FaultKind.ofCode k).need = true) ∧ hostPage.permits (FaultKind.ofCode 0).need = false) ∧
    (let s := base.updCluster 0 (fun c => { c with misses := List.replicate 64 (miss 0x20000 false []) })
     Pipe.copy 0 ≠ .none ∧ (Pipe.copy 0).cluster ≠ fwNode ∧ 64 ≤ (s.cluster (Pipe.copy 0).cluster).misses.length ∧
       tlbFind 0 0x30000 (s.pipeTlb (.copy 0)) = none ∧ tlbFind 0 0x30000 (s.cluster 0).l2tlb = none ∧ s.missOf 0 0 3 = none) ∧
    (let m := miss 0x20000 true [.thread ⟨0, 15, 4⟩]
     let s := missing m
     s.missOf 0 0 m.page = some m ∧ s.walk 0 m.va.toNat = .absent ∧ m.kind < 12 ∧ (Agent.thread ⟨0, 15, 4⟩).core < 16 ∧
       (Agent.thread ⟨0, 15, 4⟩).code < 10) := by
  refine ⟨?_, ?_, ?_, ?_, ?_, ?_, ?_, ?_⟩
  case refine_3 =>
    refine ⟨by decide +kernel, by decide +kernel, rfl, by decide +kernel, by decide +kernel, fun x h => ?_⟩
    have : (missing (miss 0x20000 false [.thread ⟨0, 0, 0⟩])).myRun? = some placedRun := by decide +kernel
    obtain rfl : placedRun = x := Option.some.inj (this.symm.trans h)
    decide
  all_goals decide +kernel

theorem natIn_zeros (n off k : Nat) : natIn (List.replicate n 0) off k = 0 := by
  have h (m : Nat) : leNat (List.replicate m 0#8) = 0 := by
    induction m with
    | zero => rfl
    | succ m ih => rw [List.replicate_succ, leNat, ih]; rfl
  simp [natIn, bytesIn, h]

/-- The save area of a pack, of zeros, and an image that lies in no text. -/
theorem witness_PreemptResult_resume : ∀ k ∈ [1, 2], let x := saved k .saved
    let s := { queued.setRun 1 x with saves := [(1, [⟨Cluster.reset, [], [], []⟩])] }
    s.ImageReads x.vf x.image x.entries s ∧
    s.EngineReads (frontEnd x.vf) (Rec.save x.rec_) x.saveSize (List.replicate x.saveSize 0) s ∧
    ∀ at_, natIn (List.replicate x.saveSize 0) at_ 104 = 0 := by
  intro k hk x s
  have h : Serves s := by
    have : ∀ k ∈ [1, 2], Serves { queued.setRun 1 (saved k .saved) with saves := [(1, [⟨Cluster.reset, [], [], []⟩])] } := by
      unfold Serves; decide +kernel
    exact this k hk
  have hp : ∀ k ∈ [1, 2], Rec.save (saved k .saved).rec_ = 2 ^ 38 + 0x100000 ∧ (saved k .saved).saveSize ≤ 0x800000 ∧
      ((saved k .saved).entries = [] ∨ (saved k .saved).entries = [0]) ∧ Img.inText (saved k .saved).image 0 = false := by decide +kernel
  obtain ⟨h1, h2, h3, h4⟩ := hp k hk
  refine ⟨?_, ?_, fun a => natIn_zeros ..⟩
  · rcases h3 with h3 | h3
    · rw [show x.entries = [] from h3]; exact .nothing ..
    · rw [show x.entries = [0] from h3]; exact .outside _ _ _ _ _ _ h4 (.nothing ..)
  · rw [show Rec.save x.rec_ = 2 ^ 38 + 0x100000 from h1]
    exact h.zeros rfl _ _ (by have : x.saveSize ≤ 0x800000 := h2; omega)

theorem witness_PreemptResult :
    (∀ k ∈ [1, 2], (base.setRun 1 (saved k .running)).run? 1 = some (saved k .running) ∧ (saved k .running).preemptible = true ∧
      Rec.kind (saved k .running).rec_ = k) ∧ placedRun.preemptible = false ∧
    (let x := saved 1 .draining
     let s := { (base.setRun 1 x).setAct key act with fclk := 180000 }
     s.run? 1 = some x ∧ x.phase = .draining ∧ x.drainAt + 180000 ≤ s.fclk ∧ (s.acts.map (·.1)).Nodup ∧ s.feWaits 1 = false ∧
       s.atRest 1 x = false) ∧
    (let x := saved 2 .draining
     let s := (queued.setRun 1 x).updMe (fun t => { t with status := .stopped })
     s.run? 1 = some x ∧ s.feWaits 1 = false ∧ s.atRest 1 x = true ∧ x.stop = none ∧ x.refused = [] ∧
       Rec.save x.rec_ = 2 ^ 38 + 0x100000) ∧
    (base.fclk < 2 ^ 64 ∧ placedRun.firings < 2 ^ 64 ∧ placedRun.ranBefore + (base.fclk - placedRun.placedAt) < 2 ^ 64 ∧
      placedRun.saveSize < 2 ^ 64) ∧
    (∀ k ∈ [1, 2], let x := saved k .saved
     let s := { queued.setRun 1 x with saves := [(1, [⟨Cluster.reset, [], [], []⟩])] }
     s.run? 1 = some x ∧ x.stop = none ∧ s.feWaits 1 = false ∧ x.refused = [] ∧ x.subst = [] ∧
       (∀ c ∈ x.clusters, (s.cluster c).run = some 1) ∧ x.clusters ≠ [] ∧ (∃ c ∈ s.clusters, c.2.run = some 1) ∧
       (NMap.get s.saves 1 []).length = x.clusters.length ∧ Rec.packw x.rec_ ≤ 16 ∧ Rec.cores x.rec_ ≤ 16 ∧ Rec.threads x.rec_ ≤ 4 ∧
       Rec.save x.rec_ = 2 ^ 38 + 0x100000) := by
  refine ⟨?_, ?_, ?_, ?_, ?_, ?_⟩ <;> decide +kernel

/-! ### Errors, resets and the hub -/

def withHub (f : Hub → Hub) : State := { base with hub := f base.hub }
def atStep (n : Nat) : State := withHub (fun h => { h with diectl := BitVec.ofNat 64 (1 + 4 + 8 * n) })

theorem witness_ContainResult :
    (({ base with input := .ecc (.sector 0x20000) } : State).input = .ecc (.sector 0x20000) ∧ 0 < 64 ∧
      0x20000 / 64 ≤ 0x20000 / 64 ∧ 0x20000 / 64 ≤ (0x20000 + 64 - 1) / 64 ∧ 0x20000 / 64 < 0x20040 / 64) ∧
    (({ base with input := .ecc (.scratch 0 0 8) } : State).input = .ecc (.scratch 0 0 8) ∧
      ({ base with input := .ecc (.buffer 0 1 2) } : State).input = .ecc (.buffer 0 1 2) ∧
      ({ copied with input := .ecc (.privLine 0 0 0x100 1) } : State).input = .ecc (.privLine 0 0 0x100 1) ∧
      (copied.core 0 0).priv ≠ [] ∧
      ({ base with input := .ecc (.tlb 0 0 0) } : State).input = .ecc (.tlb 0 0 0) ∧
      ({ base with input := .ecc (.engineTlb 0 3 0) } : State).input = .ecc (.engineTlb 0 3 0) ∧
      ({ base with input := .ecc (.l2tlb 0 0) } : State).input = .ecc (.l2tlb 0 0) ∧
      ({ base with input := .ecc (.registers ⟨0, 0, 0⟩) } : State).input = .ecc (.registers ⟨0, 0, 0⟩) ∧
      ({ base with input := .bufferRow 0 (some (1, 2)) } : State).input = .bufferRow 0 (some (1, 2))) ∧
    (let s : State := { (base.updMe (fun t => { t with chain := { t.chain with state := .live } })).updCluster 0 (fun c =>
        { c with array := { c.array with holder := some ⟨0, 0, 0⟩ } }) with input := .bufferRow 0 none }
     s.input = .bufferRow 0 none ∧ (s.cluster 0).array.holder = some ⟨0, 0, 0⟩ ∧ (s.cluster 0).array.orphan = none ∧
       (s.thread ⟨0, 0, 0⟩).chain.state = .live ∧
       (let q : Chain := { Chain.closed with state := .live }
        let t := s.updCluster 0 (fun c => { c with array := { c.array with orphan := some q } })
        t.input = .bufferRow 0 none ∧ (t.cluster 0).array.orphan = some q ∧ q.state = .live)) ∧
    (({ base with input := .cluster 0 } : State).input = .cluster 0 ∧
      ({ base with input := .unit ⟨kindPort, 3⟩ } : State).input = .unit ⟨kindPort, 3⟩ ∧
      (∀ p ∈ [(kindModule, true), (kindModule, false), (kindPort, false), (kindHubLink, false), (kindCluster, false)],
        ({ base with input := .retrained ⟨p.1, 0⟩ p.2 } : State).input = .retrained ⟨p.1, 0⟩ p.2) ∧
      base.runs = [(1, placedRun)] ∧ placedRun.phase = .running ∧ placedRun.stop = none) := by
  refine ⟨?_, ?_, ?_, ?_⟩ <;> decide +kernel

theorem witness_ContainResult_die :
    (({ base with input := .die 0 } : State).input = .die 0 ∧ base.run? 1 = some placedRun ∧ placedRun.stop = none ∧
      (∃ c ∈ base.clusters, c.1 < 256 ∧ nodeDie c.1 = (0 : BitVec 2).toNat ∧ c.2.run = some 1) ∧
      (∀ c ∈ base.clusters, nodeDie c.1 = (3 : BitVec 2).toNat → c.2.run ≠ some 1) ∧
      nodeDie (⟨0x88, 0, 0⟩ : TsId).cluster = 3 ∧
      ∀ e, e < 4 → (base.setDie 0 (fun y => { y with lost := true, down := false })).hub.dieCut e = false) ∧
    base.hub.diectl.getLsbD 2 = false ∧
    (∀ n ∈ [0, 1, 2, 3, 4, 5, 6, 7], (atStep n).hub.diectl.getLsbD 2 = true ∧
      ((atStep n).hub.diectl.extractLsb' 3 3).toNat = n ∧ (atStep n).hub.resetDie = 1 ∧ (atStep n).acts = [] ∧
      (∀ c ∈ (atStep n).clusters, nodeDie c.1 = 1 → c.2.run = none) ∧ (atStep n).dieTraffic 1 = false ∧
      ({ atStep n with returns := [(⟨0x8, 0, 0⟩, ⟨0, 4, 1, 0, false, 0, 0x10040, 2⟩)] } : State).dieTraffic 1 = true) ∧
    (stackOf 0 / 2 = 0 ∨ nodeDie (base.homeNode 0 0) = 1) ∧
    (∀ b ∈ [true, false], ({ atStep 7 with input := .warmReset b } : State).input = .warmReset b) := by
  refine ⟨?_, ?_, ?_, ?_, ?_⟩ <;> decide +kernel

/-- A core on trial since time 0, past its hour. -/
def onTrial : State := { base.updFn 0 (fun f => { f with trial := true, trialSince := some 0 }) with fclk := 3600000001 }
/-- A core past its watchdog. -/
def watched : State := { base with fclk := 900000001 }

/-- The images of the reset state verify under its key. -/
theorem reset_bootable (t slot : Nat) (h : (t = 0 ∧ slot = 0) ∨ (t = 1 ∧ slot = 2)) : NvStore.reset.bootable t slot = true := by
  rcases h with ⟨rfl, rfl⟩ | ⟨rfl, rfl⟩ <;> decide +kernel

theorem reset_passes (fails : List Nat) (n : Nat) : NvStore.reset.passes fails n = !fails.contains n := by
  simp [NvStore.passes, reset_bootable 0 (NvStore.reset.bootSlot 0 1) (.inl (by decide +kernel)),
    reset_bootable 1 (NvStore.reset.bootSlot 1 11) (.inr (by decide +kernel))]

theorem witness_HubResult_start :
    ({ State.reset with input := .tests [] [] } : State).input = .tests [] [] ∧ State.reset.hub.started = false ∧
      (∀ n, 1 ≤ n → n ≤ 13 → State.reset.hub.nv.passes [] n = true) ∧
      NMap.find? State.reset.hub.nv.images 0 = some (Image.blank 0) ∧ State.reset.hub.nv.bootSlot 0 1 = 0 ∧
      (∀ n, 1 ≤ n → n ≤ 13 → (∀ m, 1 ≤ m → m < n → State.reset.hub.nv.passes [n] m = true) ∧
        State.reset.hub.nv.passes [n] n = false) := by
  refine ⟨rfl, rfl, fun n _ _ => by rw [show State.reset.hub.nv = NvStore.reset from rfl, reset_passes]; rfl, rfl, by decide +kernel,
    fun n _ _ => ⟨fun m _ h => ?_, ?_⟩⟩ <;> rw [show State.reset.hub.nv = NvStore.reset from rfl, reset_passes]
  · simp [Nat.ne_of_lt h]
  · simp

theorem witness_HubResult :
    ((onTrial.fn 0).trial = true ∧ (onTrial.fn 0).trialSince = some 0 ∧
      (NMap.find? onTrial.hub.nv.images (onTrial.fn 0).slot).isSome = true ∧
      (base.fn 0).trial = false ∧ onTrial.trialDue 0 = true) ∧
    (watched.hub.started = true ∧ watched.hub.failed = false ∧ (watched.fn 0).trial = false ∧
      (watched.fn 0).kickAt + 900000000 < watched.fclk ∧ ∀ m, m < 17 → base.watchdogDue m = false) ∧
    (let s := { base with input := .accept 0 0x7F, runs := [] }
     s.input = .accept 0 0x7F ∧ s.hub.started = true ∧ (∀ x ∈ s.runs, x.2.phase = .complete) ∧ s.submissions = []) ∧
    ((∃ x ∈ base.runs, x.2.phase ≠ .complete) ∧ base.runs = [(1, placedRun)] ∧ placedRun.phase = .running ∧ placedRun.stop = none) ∧
    (({ base with input := .temp 0 110 } : State).input = .temp 0 110 ∧ 110 ≤ (110 : Byte).toNat ∧ (109 : Byte).toNat < 110) ∧
    (({ base with input := .snoop 0 8 1 } : State).input = .snoop 0 8 1) ∧
    (∀ i ∈ [1, 5], ({ base with input := .spdm i } : State).input = .spdm i ∧ base.hub.started = true) := by
  refine ⟨?_, ?_, ?_, ?_, ?_, ?_⟩ <;> decide +kernel

/-- The firmware cores' slot B is committed, and slot A is acceptable. -/
def updatable : State := (withHub (fun h => { h with nv := { h.nv with committedFw := 3 } })).updFn 1 (fun f => { f with slot := 3 })

theorem witness_HubResult_update :
    (updatable.hub.started = true ∧ updatable.hub.failed = false ∧ (∀ m, m < 17 → (updatable.fn m).trial = false) ∧
      (updatable.fn 1).slot = updatable.hub.nv.committedSlot (targetOf 1) ∧
      updatable.hub.nv.bootable (targetOf 1) (otherSlot (updatable.hub.nv.committedSlot (targetOf 1))) = true) ∧
    (base.presented 0 = true ∧ 0x1000 + 8 ≤ regionSize 0 ∧ 0x3FF8 + 8 ≤ regionSize 0 ∧ 0x4000 + 16 ≤ regionSize 0) :=
  ⟨⟨by decide +kernel, by decide +kernel, by decide +kernel, by decide +kernel, reset_bootable 1 2 (.inr (by decide))⟩, by decide +kernel⟩

/-- Device memory as the host and a peer reach it. -/
def reached (x : Input) : State := { withHub (fun h => { h with active := #v[0x7F, 0, 0, 0] }) with input := x }

theorem witness_HubResult_access :
    ((reached (.cxlMem 0x20000 8 none)).input = .cxlMem 0x20000 8 none ∧
      (reached (.peer 3 0x20000 8 (some (leBytes 8 5)))).input = .peer 3 0x20000 8 (some (leBytes 8 5))) ∧
    (let s := reached (.peer 3 0x20000 8 none)
     s.hub.failed = false ∧ s.hub.started = true ∧ s.hub.feature 4 = true ∧ s.hub.stateOf ⟨kindPort, 3⟩ < 2 ∧
       0x20000 % 256 + 8 ≤ 256 ∧ s.place 0x20000 = .ok .dram ∧ s.homeDown 0 0x20000 = false ∧ s.poisonAt 0x20000 8 = false) ∧
    (reached (.cxlMem 0x20000 64 (some (List.replicate 64 5)))).FindsWay 0 0x20000 ∧
    (let s := (reached (.cxlMem 0x10040 8 none)).updCluster 0 (fun c => { c with relayouts := [{ relayOp with moving := some movingBlock }] })
     s.lineHeld (0x10040 / 256) = true ∧ s.place 0x10040 = .ok .dram ∧ s.homeDown 0 0x10040 = false) := by
  refine ⟨by decide +kernel, by decide +kernel, findsWay_of (by decide +kernel), by decide +kernel⟩

/-! ### Encoding and steps -/

theorem witness_DecodeOfEncode : (Instr.halt).wf = true ∧ (Instr.halt).isEvent = false := by decide
theorem witness_EncodeOfDecode : decodeWord 0xF200004000000000 = .ok .halt := by decide +kernel

theorem witness_StepRunsDecoded :
    (let s := { State.reset.withFetchWord 64 0xA0000000000000 with agenda := [.issue ⟨0, 0, 0⟩] }
     s.agenda = .issue ⟨0, 0, 0⟩ :: [] ∧ s.candidates 0 0 = [⟨0, 0, 0⟩] ∧ s.handlerSpent ⟨0, 0, 0⟩ = false ∧ s.candidates 0 1 = []) ∧
    (let s := { base with turn := 1 }
     s.agenda = [] ∧ s.turn % 4 = 1 ∧ s.nextCore = some 0 ∧ s.candidates 0 0 = [⟨0, 0, 0⟩] ∧ s.me.rep = none ∧ s.me.ecc = false ∧
       (∀ x, (s.thread ⟨0, 0, 0⟩).run.bind s.run? = some x → x = placedRun) ∧ placedRun.phase ≠ .draining) ∧
    ((fw.updMe (fun t => { t with pc := 0x100 })).InSram (fw.updMe (fun t => { t with pc := 0x100 })).me.pc 8) ∧
    (let s := base.updMe (fun t => { t with ctx := .hand, count := 4096, act := some key })
     s.handlerSpent ⟨0, 0, 0⟩ = true ∧ (s.thread ⟨0, 0, 0⟩).act = some key) ∧
    (decodeWord 0x408628C400400005 = .ok (.vadd ⟨1, 2, 3, 4, .i32, true, false, false, false⟩) ∧
      (base.updMe (fun t => { t with rep := some ⟨[0x408628C400400005], 2, 0, 0, 0⟩ })).me.rep =
        some ⟨[0x408628C400400005], 2, 0, 0, 0⟩) := by
  refine ⟨by decide +kernel, ⟨by decide +kernel, by decide +kernel, by decide +kernel, by decide +kernel, by decide +kernel,
    by decide +kernel, fun x h => ?_, by decide +kernel⟩, inSram_iff.mpr (by decide +kernel),
    by decide +kernel, by decide +kernel⟩
  have : base.myRun? = some placedRun := by decide +kernel
  exact (Option.some.inj (this.symm.trans h)).symm

theorem witness_StepRunsDecoded_fetch : base.FetchesAt base.me.pc 0 (pulled base 0 0x10000 8) :=
  fetches_of 0x10000 (leads_iff.mpr (by decide +kernel)) (by decide +kernel) (by decide +kernel)

theorem witness_StepRunsDecoded_turns : ({ base with pending := [.runPlace] } : State).turn % 4 = 0 ∧ base.pending = [] ∧
    ({ base with agenda := [.event .runPlace .none] } : State).agenda = [.event .runPlace .none] ∧
    ({ base with agenda := [.tick 5] } : State).agenda = [.tick 5] ∧
    ({ base with agenda := [.outside .measurementLog] } : State).agenda = [.outside .measurementLog] := by decide +kernel

theorem witness_StepKeepsMemoryForm : ByteMap.wf { base with agenda := [.tick 5] }.mem = true ∧
    step { base with agenda := [.tick 5] } = .next { base with agenda := [], fclk := base.fclk + 6 } :=
  ⟨by decide +kernel, rfl⟩

/-! ## The manual's worked examples -/

/-- Whether the word, run first with these x registers, leaves a state with the property. -/
def runs (w : Nat) (l : List (XReg × Word)) (p : Thread → Bool) : Bool :=
  match Machine.step (xs { State.reset.withFetchWord 64 w with cur := ⟨0, 0, 0⟩ } l) with
  | .next t => p (t.thread ⟨0, 0, 0⟩)
  | _ => false

/-- R100: the saturating 32-bit sum of the manual, with SAT. -/
theorem test_add_saturates : runs 0x0110518000600000 [(5, 0x7FFFFFF0), (6, 0x20)] (fun t =>
    t.getX 4 == 0x7FFFFFFF && t.fpflags == Flags.sat) = true := by decide +kernel
/-- `bfx.s x4, x5, #8, #12`. -/
theorem test_bfx_signed : runs 0x05105000000012C8 [(5, 0xABC123)] (fun t => t.getX 4 == 0xFFFFFFFFFFFFFBC1) = true := by
  decide +kernel
/-- `fadd.bf16.rz` and `.rne` of 1.0 and 3 × 2^-9. -/
theorem test_fadd_rz : runs 0x2010518002400000 [(5, 0x3F80), (6, 0x3BC0)] (fun t =>
    t.getX 4 == 0x3F80 && t.fpflags == Flags.nx) = true := by decide +kernel
theorem test_fadd_rne : runs 0x2010518002200000 [(5, 0x3F80), (6, 0x3BC0)] (fun t => t.getX 4 == 0x3F81) = true := by
  decide +kernel
/-- `loop` branches back while its counter is not 0 after the decrement. -/
theorem test_loop_taken : runs 0x33240000FFFFFFFF [(9, 2)] (fun t => t.getX 9 == 1 && t.pc == 0xFFF8) = true := by decide +kernel
theorem test_loop_done : runs 0x33240000FFFFFFFF [(9, 1)] (fun t => t.getX 9 == 0 && t.pc == 0x10008) = true := by decide +kernel
/-- The trap example: a misaligned load in a run with a vector. -/
theorem test_misaligned_load : (match Machine.step (xs ({ State.reset.withFetchWord 64 0x6010500300000003 with
      cur := ⟨0, 0, 0⟩ }.setRun 1 vecRun) [(5, 0x100000000)]) with
    | .next s => decide ((s.thread ⟨0, 0, 0⟩).tcause = 4 ∧ (s.thread ⟨0, 0, 0⟩).tval = 0x100000003 ∧
        (s.thread ⟨0, 0, 0⟩).tpc = 0x10000 ∧ (s.thread ⟨0, 0, 0⟩).getX 4 = 0 ∧ (s.thread ⟨0, 0, 0⟩).pc = 0x10008)
    | _ => false) = true := by decide +kernel
/-- R202: 500.0 and 1.00390625 narrowed for a message. -/
theorem test_narrow : Fmt.narrow .f32e4m3 0x43FA0000 = ⟨0x7E, Flags.sat ||| Flags.nx⟩ ∧
    Fmt.narrow .f32bf16 0x3F808000 = ⟨0x3F80, Flags.nx⟩ ∧ Fmt.widen .f32bf16 0x3F80 = 0x3F800000 := by decide +kernel
/-- R279: one rounding of a truncated sum. -/
theorem test_matrixSum : matrixSum (([(0x4700, 0x4700), (0x3F80, 0x3F80), (0xC700, 0x4700), (0x3980, 0x3900)] :
    List (Nat × Nat)).map (fun p => elemProduct .bf16 p.1 p.2)) 0x3F800000 0x3F800000 0 .rne false =
    ⟨0x3F800000, Flags.nx⟩ := by decide +kernel
/-- R41: the bounds of the helpers' parts of 1,000 trips in chunks of 8. -/
theorem test_forkBounds : let r : ForkRegion := { region with trips := 1000, chunk := 8, n := 64 }
    (r.lo 0, r.hi 0, r.lo 1, r.hi 1, r.lo 63, r.hi 63) = (0, 8, 8, 24, 984, 1000) := by decide +kernel
/-- R187, R188: the manual's masks select single bits. -/
theorem test_home : let f : Fn := { Fn.reset with hashmask := Vector.ofFn (fun i => BitVec.ofNat 64
      (if i.val < 10 then 2 ^ (13 + i.val) else 2 ^ (9 + (i.val - 10)))) }
    f.bucket 0x4007AF400 = 983 ∧ f.ownerBits 0x4007AF400 = 10 ∧ State.reset.hub.bktEntry (0x4007AF400 / 2 ^ 33 % 64) 983 = 215 := by
  decide +kernel
/-- R191: view byte 0x1234 of the manual's PACK6 window is code 0 of the group at storage byte 0xDA7. -/
theorem test_pack6 : { withHub (fun h => { h with fwin := [(fwinKey 2 0, 0x0006000008008001)] }) with
      mem := ByteMap.writes [] 0x2300000DA7 [0x2A] }.dramByte 0x2200001234 = 0x2A := by decide +kernel

end Sys2Proof.Tests
end

section
/-! The round of R163: what every trail of `arbitrate` satisfies, from the empty one on. -/
namespace Sys2Proof.Machine

/-- The candidates that a trail has decided, in the order in which it did. -/
def decidedOf (trail : List TrailEntry) : List Cand := (trail.filter (·.decided)).map (·.cand)

/-- Two candidates that share a tile. -/
def Cand.Shares (c d : Cand) : Prop := ∃ g ∈ c.ages, g ∈ d.ages

/-- A slot that a trail names. -/
def SlotIn (trail : List TrailEntry) (slot : Nat) : Prop := ∃ e ∈ trail, e.cand.slot = slot

/-- The loaded candidates that the decision of one forces out (R163). -/
def forcedBy (loaded : List Cand) (c : Cand) (trail : List TrailEntry) : List Cand :=
  loaded.filter (fun d => d.slot != c.slot && d.ages.any c.ages.contains && !trail.any (fun e => e.cand.slot == d.slot))

/-- A trail with one more candidate decided, and those that it forces out. -/
def decideNext (loaded : List Cand) (c : Cand) (level : Nat) (trail : List TrailEntry) : List TrailEntry :=
  trail ++ ⟨c, true, level + 1, true⟩ :: (forcedBy loaded c trail).map (fun d => ⟨d, false, level + 1, false⟩)

theorem arbitrate_cons_seen {loaded : List Cand} {c : Cand} {cs : List Cand} {level : Nat} {trail : List TrailEntry}
    (h : SlotIn trail c.slot) : arbitrate loaded (c :: cs) level trail = arbitrate loaded cs level trail := by
  have hs : trail.any (fun e => e.cand.slot == c.slot) = true := by simpa [SlotIn] using h
  rw [arbitrate, if_pos hs]

theorem arbitrate_cons_new {loaded : List Cand} {c : Cand} {cs : List Cand} {level : Nat} {trail : List TrailEntry}
    (h : ¬ SlotIn trail c.slot) :
    arbitrate loaded (c :: cs) level trail = arbitrate loaded cs (level + 1) (decideNext loaded c level trail) := by
  have hs : ¬ trail.any (fun e => e.cand.slot == c.slot) = true := by simpa [SlotIn] using h
  rw [arbitrate, if_neg hs]
  rfl

theorem mem_forcedBy {loaded : List Cand} {c d : Cand} {trail : List TrailEntry} :
    d ∈ forcedBy loaded c trail ↔ d ∈ loaded ∧ d.slot ≠ c.slot ∧ d.Shares c ∧ ¬ SlotIn trail d.slot := by
  simp [forcedBy, Cand.Shares, SlotIn, and_assoc]

theorem decidedOf_decideNext (loaded : List Cand) (c : Cand) (level : Nat) (trail : List TrailEntry) :
    decidedOf (decideNext loaded c level trail) = decidedOf trail ++ [c] := by
  have hf : ((forcedBy loaded c trail).map (fun d => (⟨d, false, level + 1, false⟩ : TrailEntry))).filter (·.decided) = [] := by
    simp
  simp [decidedOf, decideNext, hf]

theorem mem_decidedOf_slotIn {trail : List TrailEntry} {c : Cand} (h : c ∈ decidedOf trail) : SlotIn trail c.slot := by
  simp only [decidedOf, List.mem_map, List.mem_filter] at h
  obtain ⟨e, ⟨he, -⟩, rfl⟩ := h
  exact ⟨e, he, rfl⟩

/-- What a round's trail satisfies at every point of the visit: it names loaded candidates, those decided share no tile, all
that share a tile with a decided one are named, and those forced out share a tile with a decided one. -/
structure TrailOk (loaded : List Cand) (trail : List TrailEntry) : Prop where
  named : ∀ e ∈ trail, e.cand ∈ loaded
  value : ∀ e ∈ trail, e.value = e.decided
  disjoint : (decidedOf trail).Pairwise (fun c d => ¬ c.Shares d)
  closed : ∀ c ∈ decidedOf trail, ∀ d ∈ loaded, d.slot ≠ c.slot → d.Shares c → SlotIn trail d.slot
  forced : ∀ e ∈ trail, e.decided = false → ∃ c ∈ decidedOf trail, c.slot ≠ e.cand.slot ∧ e.cand.Shares c

theorem TrailOk.empty (loaded : List Cand) : TrailOk loaded [] where
  named := by simp
  value := by simp
  disjoint := .nil
  closed := by simp [decidedOf]
  forced := by simp

theorem Cand.Shares.symm {c d : Cand} (h : c.Shares d) : d.Shares c :=
  let ⟨g, hc, hd⟩ := h
  ⟨g, hd, hc⟩

theorem slotIn_decideNext {loaded : List Cand} {c : Cand} {level slot : Nat} {trail : List TrailEntry} :
    SlotIn (decideNext loaded c level trail) slot ↔
      SlotIn trail slot ∨ c.slot = slot ∨ ∃ d ∈ forcedBy loaded c trail, d.slot = slot := by
  simp only [SlotIn, decideNext, List.mem_append, List.mem_cons, List.mem_map, or_and_right, exists_or, exists_eq_left]
  refine or_congr_right (or_congr_right ⟨?_, ?_⟩)
  · rintro ⟨_, ⟨d, hd, rfl⟩, hs⟩
    exact ⟨d, hd, hs⟩
  · rintro ⟨d, hd, hs⟩
    exact ⟨_, ⟨d, hd, rfl⟩, hs⟩

/-- Deciding a loaded candidate that the trail does not name keeps the invariant: by `closed`, it shares no tile with those
decided before. -/
theorem TrailOk.extend {loaded : List Cand} {c : Cand} {level : Nat} {trail : List TrailEntry} (h : TrailOk loaded trail)
    (hc : c ∈ loaded) (hn : ¬ SlotIn trail c.slot) : TrailOk loaded (decideNext loaded c level trail) where
  named := by
    intro e he
    simp only [decideNext, List.mem_append, List.mem_cons, List.mem_map] at he
    rcases he with he | rfl | ⟨d, hd, rfl⟩
    · exact h.named e he
    · exact hc
    · exact (mem_forcedBy.1 hd).1
  value := by
    intro e he
    simp only [decideNext, List.mem_append, List.mem_cons, List.mem_map] at he
    rcases he with he | rfl | ⟨d, hd, rfl⟩
    · exact h.value e he
    · rfl
    · rfl
  disjoint := by
    rw [decidedOf_decideNext, List.pairwise_append]
    refine ⟨h.disjoint, List.pairwise_singleton _ _, fun b hb d hd hs => ?_⟩
    obtain rfl := List.mem_singleton.1 hd
    refine hn (h.closed b hb d hc (fun hslot => hn ?_) hs.symm)
    exact hslot ▸ mem_decidedOf_slotIn hb
  closed := by
    intro b hb d hd hne hs
    rw [decidedOf_decideNext, List.mem_append, List.mem_singleton] at hb
    rw [slotIn_decideNext]
    rcases hb with hb | rfl
    · exact .inl (h.closed b hb d hd hne hs)
    · by_cases hin : SlotIn trail d.slot
      · exact .inl hin
      · exact .inr (.inr ⟨d, mem_forcedBy.2 ⟨hd, hne, hs, hin⟩, rfl⟩)
  forced := by
    intro e he hdec
    rw [decidedOf_decideNext]
    simp only [decideNext, List.mem_append, List.mem_cons, List.mem_map] at he
    rcases he with he | rfl | ⟨d, hd, rfl⟩
    · obtain ⟨b, hb, hbs⟩ := h.forced e he hdec
      exact ⟨b, List.mem_append_left _ hb, hbs⟩
    · cases hdec
    · obtain ⟨-, hne, hs, -⟩ := mem_forcedBy.1 hd
      exact ⟨c, by simp, hne.symm, hs⟩

/-- A visit of loaded candidates keeps the invariant, and names every candidate visited. -/
theorem arbitrate_ok {loaded : List Cand} (order : List Cand) (level : Nat) (trail : List TrailEntry)
    (hl : ∀ c ∈ order, c ∈ loaded) (h : TrailOk loaded trail) :
    TrailOk loaded (arbitrate loaded order level trail) ∧ trail <+: arbitrate loaded order level trail ∧
      ∀ c ∈ order, SlotIn (arbitrate loaded order level trail) c.slot := by
  induction order generalizing level trail with
  | nil => exact ⟨h, List.prefix_rfl, by simp⟩
  | cons c cs ih =>
    obtain ⟨hc, hcs⟩ := List.forall_mem_cons.1 hl
    have slotIn_mono : ∀ {t u : List TrailEntry}, t <+: u → SlotIn t c.slot → SlotIn u c.slot :=
      fun hp ⟨e, he, hs⟩ => ⟨e, hp.subset he, hs⟩
    by_cases hin : SlotIn trail c.slot
    · rw [arbitrate_cons_seen hin]
      obtain ⟨hok, hpre, hall⟩ := ih level trail hcs h
      exact ⟨hok, hpre, List.forall_mem_cons.2 ⟨slotIn_mono hpre hin, hall⟩⟩
    · rw [arbitrate_cons_new hin]
      obtain ⟨hok, hpre, hall⟩ := ih (level + 1) (decideNext loaded c level trail) hcs (h.extend hc hin)
      refine ⟨hok, (List.prefix_append ..).trans hpre, List.forall_mem_cons.2 ⟨slotIn_mono hpre ?_, hall⟩⟩
      exact slotIn_decideNext.2 (.inr (.inl rfl))

/-- The first candidate in decision order is the first decided. -/
theorem head?_decidedOf_arbitrate {loaded : List Cand} {c : Cand} {cs : List Cand} (hl : ∀ d ∈ c :: cs, d ∈ loaded) :
    (decidedOf (arbitrate loaded (c :: cs) 0 [])).head? = some c := by
  have hnil : ¬ SlotIn [] c.slot := by simp [SlotIn]
  obtain ⟨hc, hcs⟩ := List.forall_mem_cons.1 hl
  rw [arbitrate_cons_new hnil]
  obtain ⟨-, ⟨more, hmore⟩, -⟩ := arbitrate_ok cs 1 (decideNext loaded c 0 []) hcs ((TrailOk.empty loaded).extend hc hnil)
  rw [← hmore]
  simp [decideNext, decidedOf]

end Sys2Proof.Machine

open Sys2Proof Sys2Proof.Machine

/-- Settles O45: the invariant `TrailOk` holds of the empty trail and of every later one; slots name candidates uniquely. -/
theorem arbitrationDisjoint : Obligations.ArbitrationDisjoint := by
  unfold Obligations.ArbitrationDisjoint
  intro loaded order hperm hslots
  have hl : ∀ c ∈ order, c ∈ loaded := fun c hc => hperm.mem_iff.1 hc
  obtain ⟨hok, -, hall⟩ := arbitrate_ok order 0 [] hl (TrailOk.empty loaded)
  refine ⟨?_, ?_, ?_, ?_, hok.value⟩
  · intro c hc
    obtain ⟨e, he, rfl⟩ := List.mem_map.1 hc
    exact hok.named e (List.mem_filter.1 he).1
  · exact hok.disjoint.imp (fun hns g hc hd => hns ⟨g, hc, hd⟩)
  · intro d hd
    obtain ⟨e, he, hslot⟩ := hall d (hperm.mem_iff.2 hd)
    obtain rfl : e.cand = d := List.inj_on_of_nodup_map hslots (hok.named e he) hd hslot
    cases hdec : e.decided with
    | true => exact .inl (List.mem_map.2 ⟨e, List.mem_filter.2 ⟨he, hdec⟩, rfl⟩)
    | false => exact .inr (hok.forced e he hdec)
  · rintro c rest rfl
    exact head?_decidedOf_arbitrate hl
end

section
/-! The kennel's operations (R10 to R46), one rule for each: what an operation puts, and what it leaves as it was. -/
namespace Sys2Proof.Machine

/-! ## What leaves memory alone -/

/-- Device memory, the slices, the hub's stores, the functions and the cores stand as before. -/
structure State.MemoryKept (s t : State) : Prop where
  mem : t.mem = s.mem
  lines : t.lines = s.lines
  hub : t.hub = s.hub
  fns : t.fns = s.fns
  cores : t.cores = s.cores

theorem State.MemoryKept.trans {s t u : State} (h : s.MemoryKept t) (g : t.MemoryKept u) : s.MemoryKept u :=
  ⟨g.mem.trans h.mem, g.lines.trans h.lines, g.hub.trans h.hub, g.fns.trans h.fns, g.cores.trans h.cores⟩

theorem State.dramByte_congr {s t : State} (hm : t.mem = s.mem) (hh : t.hub = s.hub) (p : Nat) : t.dramByte p = s.dramByte p := by
  simp only [State.dramByte, State.decodeByte, hm, hh]

/-- The committed byte depends on DRAM, the slices and the format windows alone. -/
theorem State.byteAt_congr {s t : State} (hm : t.mem = s.mem) (hl : t.lines = s.lines) (hh : t.hub = s.hub) (p : Nat) :
    t.byteAt p = s.byteAt p := by
  simp only [State.byteAt, hl, State.dramByte_congr hm hh]

theorem State.MemoryKept.sameMemory {s t : State} (h : s.MemoryKept t) : s.SameMemory t .nowhere 0 where
  device p _ := State.byteAt_congr h.mem h.lines h.hub p
  scratch c k a _ := by simp only [State.core, h.cores]
  sram f a _ _ := by simp only [State.fn, h.fns]
  remote q a _ := by rw [h.hub]

theorem State.memoryKept_updThread (s : State) (t : TsId) (f : Thread → Thread) : s.MemoryKept (s.updThread t f) :=
  ⟨rfl, rfl, rfl, rfl, rfl⟩

theorem State.memoryKept_setAct (s : State) (k : ActKey) (a : Act) : s.MemoryKept (s.setAct k a) := ⟨rfl, rfl, rfl, rfl, rfl⟩

theorem State.memoryKept_updKennel (s : State) (c : Nat) (f : Kennel → Kennel) : s.MemoryKept (s.updKennel c f) :=
  ⟨rfl, rfl, rfl, rfl, rfl⟩

theorem State.memoryKept_postOnce (s : State) (i : Instr) : s.MemoryKept (s.postOnce i) := by constructor <;> simp

/-! ## The work list, activations and kennels by key -/

theorem State.mem_pending_postOnce (s : State) (i : Instr) : i ∈ (s.postOnce i).pending := by
  unfold State.postOnce
  split
  · assumption
  · simp [State.post]

theorem State.pending_subset_postOnce (s : State) (i : Instr) : s.pending ⊆ (s.postOnce i).pending := by
  unfold State.postOnce
  split
  · exact List.Subset.refl _
  · exact List.subset_append_left _ _

theorem find?_actSet_same (k : ActKey) (a : Act) (l : List (ActKey × Act)) :
    (actSet k a l).find? (fun e => e.1 = k) = some (k, a) := by
  induction l with
  | nil => simp [actSet]
  | cons e l ih =>
    unfold actSet
    split
    · simp
    · next h => rw [List.find?_cons_of_neg (by simpa using h), ih]

@[simp] theorem State.act?_setAct_same (s : State) (k : ActKey) (a : Act) : (s.setAct k a).act? k = some a := by
  simp [State.act?, State.setAct, find?_actSet_same]

theorem State.mem_acts_of_act? {s : State} {k : ActKey} {a : Act} (h : s.act? k = some a) : (k, a) ∈ s.acts := by
  obtain ⟨e, he, rfl⟩ := Option.map_eq_some_iff.1 h
  have hk : e.1 = k := by simpa using List.find?_some he
  exact hk ▸ List.mem_of_find?_eq_some he

@[simp] theorem State.cluster_updKennel_same (s : State) (c : Nat) (f : Kennel → Kennel) :
    (s.updKennel c f).cluster c = { s.cluster c with kennel := f (s.cluster c).kennel } :=
  State.cluster_updCluster_same ..

theorem State.cluster_updKennel_ne (s : State) (c d : Nat) (f : Kennel → Kennel) (h : d ≠ c) :
    (s.updKennel c f).cluster d = s.cluster d :=
  State.cluster_updCluster_ne _ _ _ _ h

theorem State.cluster_congr {s t : State} (h : t.clusters = s.clusters) (c : Nat) : t.cluster c = s.cluster c := by
  simp only [State.cluster, h]

@[simp] theorem State.cluster_postOnce (s : State) (i : Instr) (c : Nat) : (s.postOnce i).cluster c = s.cluster c :=
  State.cluster_congr (State.postOnce_clusters ..) c

theorem State.run?_congr {s t : State} (h : t.runs = s.runs) (r : Nat) : t.run? r = s.run? r := by
  simp only [State.run?, h]

theorem State.act?_congr {s t : State} (h : t.acts = s.acts) (k : ActKey) : t.act? k = s.act? k := by
  simp only [State.act?, h]

/-! ## Insertion (R10, R44, R45) -/

@[simp] theorem mem_insertBy {α : Type} {key : α → Nat} {a b : α} {l : List α} : b ∈ insertBy key a l ↔ b = a ∨ b ∈ l := by
  induction l with
  | nil => simp [insertBy]
  | cons c l ih =>
    unfold insertBy
    split
    · simp
    · simp only [List.mem_cons, ih]
      exact or_left_comm

/-- Tiles return from the ring: those resident stay, and the counters stand. -/
theorem ringBack_keeps (fuel : Nat) (n : Kennel) (cap : Nat) :
    n.tiles ⊆ (ringBack fuel n cap).tiles ∧ (ringBack fuel n cap).ageCtr = n.ageCtr ∧ (ringBack fuel n cap).ins = n.ins ∧
      (ringBack fuel n cap).rcv = n.rcv := by
  induction fuel generalizing n with
  | zero => exact ⟨List.Subset.refl _, rfl, rfl, rfl⟩
  | succ fuel ih =>
    unfold ringBack
    split
    · exact ⟨List.Subset.refl _, rfl, rfl, rfl⟩
    · split
      · exact ⟨List.Subset.refl _, rfl, rfl, rfl⟩
      · refine ⟨fun u hu => (ih _).1 ?_, (ih _).2⟩
        exact mem_insertBy.2 (.inr hu)

/-- What the arrival of a product does to its home kennel before it takes its slot: RCV counts it if it came from elsewhere. -/
theorem State.kennel_tileArrived (s : State) (i : Insert) :
    ∃ m, ((s.tileArrived i).cluster i.home).kennel =
      { (s.cluster i.home).kennel with
        unacked := m, rcv := (s.cluster i.home).kennel.rcv + if i.home = i.src then 0 else 1 } := by
  by_cases h : i.home = i.src
  · refine ⟨(s.cluster i.home).kennel.unacked - 1, ?_⟩
    simp [State.tileArrived, State.acked, h]
  · refine ⟨(s.cluster i.home).kennel.unacked, ?_⟩
    simp [State.tileArrived, State.acked, State.countRcv, h, State.cluster_updKennel_ne]

theorem State.memoryKept_tileArrived (s : State) (i : Insert) : s.MemoryKept (s.tileArrived i) := by
  unfold State.tileArrived
  split
  · exact State.memoryKept_updKennel ..
  · exact (State.memoryKept_updKennel ..).trans (State.memoryKept_updKennel ..)

theorem State.inserts_tileArrived (s : State) (i : Insert) : (s.tileArrived i).inserts = s.inserts := by
  unfold State.tileArrived
  split <;> rfl

/-- A product that has a kennel slot is stamped with the kennel's age and resident after it. -/
theorem State.kennel_insertSlot (s : State) (x : Run) (i : Insert) :
    let old := (s.cluster i.home).kennel
    let new := ((s.insertSlot x i).cluster i.home).kennel
    ⟨{ Tile.ofBits i.bits with age := old.ageCtr, ovf := false }, false⟩ ∈ new.tiles ∧ old.tiles ⊆ new.tiles ∧
      new.ageCtr = old.ageCtr + 1 ∧ new.ins = old.ins + 1 ∧ new.rcv = old.rcv := by
  intro old new
  let stamped := { old with resSlots := old.resSlots - 1 }.stamp x.rules i.bits false
  have hnew : new = ((stamped.1.addTile stamped.2).ringReturn x.ringCap).form x.rules := by
    simp only [new, State.insertSlot, State.roundDue, State.cluster_postOnce, State.cluster_updKennel_same]
    rfl
  obtain ⟨hsub, hage, hins, hrcv⟩ :=
    ringBack_keeps (stamped.1.addTile stamped.2).ring.length (stamped.1.addTile stamped.2) x.ringCap
  rw [hnew]
  refine ⟨hsub ?_, fun u hu => hsub ?_, hage, hins, hrcv⟩
  · exact List.mem_append_right _ (List.mem_singleton.2 rfl)
  · exact List.mem_append_left _ hu

theorem State.memoryKept_insertSlot (s : State) (x : Run) (i : Insert) : s.MemoryKept (s.insertSlot x i) :=
  (State.memoryKept_updKennel ..).trans (State.memoryKept_postOnce ..)

theorem State.insertOne_slot {s : State} {x : Run} {i : Insert} {rest : List Insert} (h : i.viaRing = false) :
    s.insertOne x i rest = (({ s with inserts := rest }).tileArrived i).insertSlot x i := by
  simp [State.insertOne, h]

/-- The arrival of a product for which a kennel slot is reserved. -/
theorem State.insertOne_slot_result {s : State} {x : Run} {i : Insert} {rest : List Insert} (h : i.viaRing = false) :
    let old := (s.cluster i.home).kennel
    let t := s.insertOne x i rest
    let new := (t.cluster i.home).kennel
    t.inserts = rest ∧
      (⟨{ Tile.ofBits i.bits with age := old.ageCtr, ovf := false }, false⟩ ∈ new.tiles ∧ (∀ u ∈ old.tiles, u ∈ new.tiles) ∧
        new.ageCtr = old.ageCtr + 1 ∧ new.ins = old.ins + 1 ∧ new.rcv = old.rcv + (if i.home = i.src then 0 else 1)) ∧
      Instr.arbitrationRound i.home ∈ t.pending ∧ s.MemoryKept t := by
  intro old t new
  let u := ({ s with inserts := rest } : State).tileArrived i
  have ht : t = u.insertSlot x i := State.insertOne_slot h
  obtain ⟨m, hm⟩ := State.kennel_tileArrived { s with inserts := rest } i
  obtain ⟨htile, hsub, hage, hins, hrcv⟩ := State.kennel_insertSlot u x i
  rw [hm] at htile hsub hage hins hrcv
  have hnew : new = ((u.insertSlot x i).cluster i.home).kennel := congrArg (fun s => (State.cluster s i.home).kennel) ht
  have h0 : s.MemoryKept { s with inserts := rest } := ⟨rfl, rfl, rfl, rfl, rfl⟩
  rw [hnew, ht]
  exact ⟨(State.postOnce_inserts ..).trans (State.inserts_tileArrived ..), ⟨htile, hsub, hage, hins, hrcv⟩,
    State.mem_pending_postOnce .., h0.trans ((State.memoryKept_tileArrived ..).trans (State.memoryKept_insertSlot ..))⟩

/-! ## Starting activations (R34, R35) -/

/-- The registers of a thread set that begins an activation. -/
def Thread.beganAct (th : Thread) (r : Nat) (x : Run) (key : ActKey) (rule : Rule) (ix : Nat) (g : List Tile) (bad : Bool) : Thread :=
  { ((((((th.startBody rule.entry x.fpmode).setX 1 (BitVec.ofNat 64 g.length)).setX 2 key.actid).setX 3 (BitVec.ofNat 64 ix)).setV 30
      (VWord.ofBytes (groupBytes g 0 ++ groupBytes g 1))).setV 31 (VWord.ofBytes (groupBytes g 2 ++ groupBytes g 3))) with
    ctx := .act, actid := key.actid, act := some key, run := some r, msg := none, ecc := th.ecc || bad }

theorem Thread.getX_startBody (t : Thread) (pc fpmode : Word) (i : XReg) : (t.startBody pc fpmode).getX i = 0 := by
  simp [Thread.getX, Thread.startBody]

/-- A thread set has the registers that an activation begins with: those of R34, its counts in x1 to x3, its tiles in v30 and
v31. -/
structure Thread.BeginsAct (h : Thread) (r : Nat) (x : Run) (key : ActKey) (rule : Rule) (ix : Nat) (g : List Tile) : Prop where
  special : h.status = .ready ∧ h.ctx = .act ∧ h.act = some key ∧ h.run = some r ∧ h.pc = rule.entry ∧ h.mode = false ∧
    h.intrap = false ∧ h.fpflags = 0 ∧ h.fpmode = BitVec.ofNat 64 (Rec.fpmode x.rec_)
  counts : h.getX 1 = BitVec.ofNat 64 g.length ∧ h.getX 2 = key.actid ∧ h.getX 3 = BitVec.ofNat 64 ix ∧
    ∀ i : XReg, 3 < i → h.getX i = 0
  tiles : h.getV 30 = VWord.ofBytes (groupBytes g 0 ++ groupBytes g 1) ∧ h.getV 31 = VWord.ofBytes (groupBytes g 2 ++ groupBytes g 3)

theorem Thread.getX_beganAct (th : Thread) (r : Nat) (x : Run) (key : ActKey) (rule : Rule) (ix : Nat) (g : List Tile) (bad : Bool)
    (i : XReg) : (th.beganAct r x key rule ix g bad).getX i = ((((th.startBody rule.entry x.fpmode).setX 1
      (BitVec.ofNat 64 g.length)).setX 2 key.actid).setX 3 (BitVec.ofNat 64 ix)).getX i :=
  Thread.getX_congr rfl i

theorem Thread.beginsAct_beganAct (th : Thread) (r : Nat) (x : Run) (key : ActKey) (rule : Rule) (ix : Nat) (g : List Tile) (bad : Bool) :
    (th.beganAct r x key rule ix g bad).BeginsAct r x key rule ix g where
  special := by simp [Thread.beganAct, Thread.startBody, Run.fpmode]
  counts := by
    simp only [Thread.getX_beganAct]
    refine ⟨?_, ?_, ?_, fun i hi => ?_⟩
    · rw [Thread.getX_setX_ne _ _ _ _ (by decide), Thread.getX_setX_ne _ _ _ _ (by decide), Thread.getX_setX_same _ _ _ (by decide)]
    · rw [Thread.getX_setX_ne _ _ _ _ (by decide), Thread.getX_setX_same _ _ _ (by decide)]
    · rw [Thread.getX_setX_same _ _ _ (by decide)]
    · have h1 : i ≠ 1 := by rintro rfl; exact absurd hi (by decide)
      have h2 : i ≠ 2 := by rintro rfl; exact absurd hi (by decide)
      have h3 : i ≠ 3 := by rintro rfl; exact absurd hi (by decide)
      rw [Thread.getX_setX_ne _ _ _ _ h3, Thread.getX_setX_ne _ _ _ _ h2, Thread.getX_setX_ne _ _ _ _ h1, Thread.getX_startBody]
  tiles := by simp [Thread.beganAct, Thread.getV, Thread.setV]

/-- The logical time and the round's record are no registers that the begin sets. -/
theorem Thread.BeginsAct.congr {h : Thread} {r : Nat} {x : Run} {key : ActKey} {rule : Rule} {ix : Nat} {g : List Tile}
    (hb : h.BeginsAct r x key rule ix g) (now : Nat) (w : RoundRec) :
    ({ h with ltime := now, arb := w } : Thread).BeginsAct r x key rule ix g :=
  ⟨hb.special, hb.counts, hb.tiles⟩

theorem State.find?_threads_updThread (s : State) (t : TsId) (f : Thread → Thread) :
    NMap.find? (s.updThread t f).threads (TsId.key t) = some (f (s.thread t)) :=
  NMap.find?_set_same ..

/-- The thread set of an activation after its begin; its logical time is past every event so far (R344). -/
theorem State.find?_threads_beginAct (s : State) (r : Nat) (x : Run) (t : TsId) (key : ActKey) (rule : Rule) (ix : Nat) (g : List Tile) :
    ∃ bad now, NMap.find? (s.beginAct r x t key rule ix g).threads (TsId.key t) =
      some { (s.thread t).beganAct r x key rule ix g bad with ltime := now } := by
  let bad := g.any (fun u => (s.cluster t.cluster).kennel.bad.contains u.age)
  have h : s.beginAct r x t key rule ix g = (s.updThread t (fun th => th.beganAct r x key rule ix g bad)).edge t := rfl
  refine ⟨bad, max ((s.thread t).beganAct r x key rule ix g bad).ltime s.wmax, ?_⟩
  rw [h, State.edge, State.advanceTime, State.find?_threads_updThread, State.thread_updThread_same]
  rfl

theorem State.memoryKept_beginAct (s : State) (r : Nat) (x : Run) (t : TsId) (key : ActKey) (rule : Rule) (ix : Nat) (g : List Tile) :
    s.MemoryKept (s.beginAct r x t key rule ix g) := ⟨rfl, rfl, rfl, rfl, rfl⟩

/-- The tiles that a candidate names, in canonical order. -/
def State.groupOf (s : State) (c : Nat) (d : Cand) : List Tile :=
  d.ages.filterMap (fun a => ((s.cluster c).kennel.tiles.find? (fun t => t.tile.age == a)).map (·.tile))

/-- The key of the next unpaired activation of a run in a cluster. -/
def State.nextActKey (s : State) (r c : Nat) : ActKey :=
  ⟨r, field 0 ((s.cluster c).kennel.actSeq + 1).toNat ||| field 32 (s.hub.logical kindCluster c), 0⟩

/-- The tiles of a candidate that starts are held, and its activation is counted. -/
def State.holdTiles (s : State) (c : Nat) (d : Cand) : State :=
  (s.avoided c d).updKennel c (fun n =>
    { n with actSeq := (s.cluster c).kennel.actSeq + 1,
             tiles := n.tiles.map (fun t => if d.ages.contains t.tile.age then { t with held := true } else t) })

/-- A candidate of an unpaired rule without the clause array starts on the thread set that it finds. -/
theorem State.startCand_unpaired {s : State} {r : Nat} {x : Run} {c : Nat} {d : Cand} {rule : Rule} {u : TsId}
    (hrule : x.rules[d.rule]? = some rule) (hclause : rule.usesClause = false) (hpaired : rule.paired = false)
    (hset : s.pickSet x c (tileAt (s.groupOf c d) 0).key = some u) :
    s.startCand r x c d = some (((s.holdTiles c d).setAct (s.nextActKey r c) (Act.ofCand c x.gen u rule d none)).beginAct r x u
      (s.nextActKey r c) rule d.rule (s.groupOf c d), s.nextActKey r c) := by
  have hsets : s.setsFor x c rule d (tileAt (s.groupOf c d) 0).key = some (u, none) := by
    simp [State.setsFor, hclause, hpaired, hset]
  unfold State.groupOf at hsets
  simp only [State.startCand, hrule, hsets, Option.map_some, hclause, Bool.false_eq_true, if_false]
  rfl

theorem State.avoided_keeps (s : State) (c : Nat) (d : Cand) :
    ∃ l, s.avoided c d = { s with rollbacks := l } := by
  unfold State.avoided
  simp only
  split
  · exact ⟨s.rollbacks, rfl⟩
  · split
    · exact ⟨_, rfl⟩
    · exact ⟨_, rfl⟩

theorem State.memoryKept_holdTiles (s : State) (c : Nat) (d : Cand) : s.MemoryKept (s.holdTiles c d) := by
  obtain ⟨l, hl⟩ := s.avoided_keeps c d
  have h0 : s.MemoryKept (s.avoided c d) := by rw [hl]; exact ⟨rfl, rfl, rfl, rfl, rfl⟩
  exact h0.trans (State.memoryKept_updKennel ..)

theorem State.kennel_holdTiles (s : State) (c : Nat) (d : Cand) :
    ((s.holdTiles c d).cluster c).kennel =
      { (s.cluster c).kennel with
        actSeq := (s.cluster c).kennel.actSeq + 1,
        tiles := (s.cluster c).kennel.tiles.map (fun q => if q.tile.age ∈ d.ages then { q with held := true } else q) } := by
  obtain ⟨l, hl⟩ := s.avoided_keeps c d
  simp only [State.holdTiles, hl, State.cluster_updKennel_same, List.contains_iff_mem]
  rfl

theorem State.fclk_holdTiles (s : State) (c : Nat) (d : Cand) : (s.holdTiles c d).fclk = s.fclk := by
  obtain ⟨l, hl⟩ := s.avoided_keeps c d
  simp only [State.holdTiles, hl]
  rfl

/-! ## A round with one enabled candidate (R13, R30 to R35) -/

/-- The round's record goes to the thread sets of an activation and its twin (R132). -/
def State.giveRecord (s : State) (k : ActKey) (w : RoundRec) : State :=
  (s.acts.filter (fun a => k == { a.1 with twin := 0 })).foldl (fun s a => s.updThread a.2.owner (fun th => { th with arb := w })) s

/-- A record given to owners of activations, one of which a thread set is, stands in its registers; nothing else of them
changes. -/
theorem find?_threads_foldl_arb {u : TsId} {w : RoundRec} (l : List (ActKey × Act)) (s : State) (th : Thread)
    (ht : NMap.find? s.threads (TsId.key u) = some th) (h : (∃ a ∈ l, a.2.owner = u) ∨ th.arb = w) :
    NMap.find? (l.foldl (fun s a => s.updThread a.2.owner (fun th => { th with arb := w })) s).threads (TsId.key u) =
      some { th with arb := w } := by
  induction l generalizing s th with
  | nil =>
    obtain ⟨a, ha, -⟩ | rfl := h
    · cases ha
    · exact ht
  | cons e l ih =>
    rw [List.foldl_cons]
    by_cases hk : TsId.key u = TsId.key e.2.owner
    · refine ih _ { th with arb := w } ?_ (.inr rfl)
      simp only [State.updThread, State.setThread, State.thread, ← hk, NMap.find?_set_same, NMap.get, ht, Option.getD_some]
    · refine ih _ th ?_ ?_
      · simpa only [State.updThread, State.setThread, NMap.find?_set_ne _ _ _ _ hk] using ht
      · refine h.imp_left (fun ⟨a, ha, hau⟩ => ⟨a, ?_, hau⟩)
        exact (List.mem_cons.1 ha).resolve_left (fun he => hk (by rw [← hau, he]))

theorem State.giveRecord_keeps (s : State) (k : ActKey) (w : RoundRec) :
    s.MemoryKept (s.giveRecord k w) ∧ (s.giveRecord k w).acts = s.acts ∧ (s.giveRecord k w).clusters = s.clusters := by
  refine List.foldlRecOn (motive := fun t => s.MemoryKept t ∧ t.acts = s.acts ∧ t.clusters = s.clusters) _ _
    ⟨⟨rfl, rfl, rfl, rfl, rfl⟩, rfl, rfl⟩ ?_
  rintro t ⟨hmem, hacts, hclusters⟩ a -
  exact ⟨hmem.trans (State.memoryKept_updThread ..), hacts, hclusters⟩

/-- The trail of a round that has loaded one candidate. -/
theorem arbitrate_single (d : Cand) : arbitrate [d] [d] 0 [] = [⟨d, true, 1, true⟩] := by
  have hnone : forcedBy [d] d [] = [] := by simp [forcedBy]
  rw [arbitrate_cons_new (by simp [SlotIn]), decideNext, hnone]
  rfl

/-- A round whose one enabled candidate starts: its record is the kennel's last, and goes to the activation's thread set. No
candidate is passed over. -/
theorem State.holdRound_single {s u : State} {r c : Nat} {x : Run} {d : Cand} {k : ActKey}
    (hl : (s.cluster c).kennel.cands.filter (s.cluster c).kennel.enabledCand = [d]) (hs : s.startCand r x c d = some (u, k)) :
    ∃ w, s.holdRound r x c = (u.updKennel c (fun n =>
      { n with rounds := n.rounds + 1, lastRound := w, lastStart := u.fclk })).giveRecord k w := by
  have hsort : sortWith (Cand.before x.rules) [d] = [d] := rfl
  have hstart : s.startAll r x c [d] [] = (u, [(d.slot, k)]) := by simp [State.startAll, hs]
  have hnone (e : Cand) : (d.slot == e.slot && !(e.slot == d.slot)) = false := by
    rw [Bool.beq_comm, Bool.and_not_self]
  refine ⟨roundRecord ((s.cluster c).kennel.rounds + 1) [d] [⟨d, true, 1, true⟩] [d.slot], ?_⟩
  simp only [State.holdRound, hl, hsort, arbitrate_single, List.filter_cons_of_pos, List.filter_nil, List.map_cons, List.map_nil,
    hstart, List.any_cons, List.any_nil, Bool.or_false, List.contains_cons, List.contains_nil, hnone, Bool.false_eq_true, if_false,
    List.map_id']
  rfl

/-- What a round with one enabled candidate of an unpaired rule leaves. -/
theorem State.holdRound_single_result {s : State} {r c : Nat} {x : Run} {d : Cand} {rule : Rule} {u : TsId}
    (hl : (s.cluster c).kennel.cands.filter (s.cluster c).kennel.enabledCand = [d]) (hrule : x.rules[d.rule]? = some rule)
    (hclause : rule.usesClause = false) (hpaired : rule.paired = false)
    (hset : s.pickSet x c (tileAt (s.groupOf c d) 0).key = some u) :
    let n := (s.cluster c).kennel
    let t := s.holdRound r x c
    let new := (t.cluster c).kennel
    let k := s.nextActKey r c
    t.act? k = some (Act.ofCand c x.gen u rule d none) ∧
      (t.thread u).BeginsAct r x k rule d.rule (s.groupOf c d) ∧ (t.thread u).arb = new.lastRound ∧
      (new.rounds = n.rounds + 1 ∧ new.lastStart = s.fclk ∧ new.actSeq = n.actSeq + 1 ∧
        new.tiles = n.tiles.map (fun q => if q.tile.age ∈ d.ages then { q with held := true } else q)) ∧
      s.MemoryKept t := by
  intro n t new k
  let a := Act.ofCand c x.gen u rule d none
  let held := (s.holdTiles c d).setAct k a
  let begun := held.beginAct r x u k rule d.rule (s.groupOf c d)
  obtain ⟨w, ht⟩ := State.holdRound_single hl (State.startCand_unpaired (r := r) hrule hclause hpaired hset)
  let counted := begun.updKennel c (fun n =>
    { n with rounds := n.rounds + 1, lastRound := w, lastStart := begun.fclk })
  have ht : t = counted.giveRecord k w := ht
  obtain ⟨hmem, hacts, hclusters⟩ := State.giveRecord_keeps counted k w
  have hact : counted.act? k = some a := State.act?_setAct_same (s.holdTiles c d) k a
  have hkennel : (begun.cluster c).kennel = ((s.holdTiles c d).cluster c).kennel := rfl
  have hfclk : begun.fclk = s.fclk := s.fclk_holdTiles c d
  have hcounted : t.cluster c = counted.cluster c := by rw [ht]; exact State.cluster_congr hclusters c
  have hnew : new = { (begun.cluster c).kennel with rounds := n.rounds + 1, lastRound := w, lastStart := s.fclk } := by
    simp only [new, hcounted, counted, State.cluster_updKennel_same, hfclk, hkennel, s.kennel_holdTiles c d, n]
  have hrec : new.lastRound = w := by rw [hnew]
  rw [hkennel, s.kennel_holdTiles c d] at hnew
  have hsums : new.rounds = n.rounds + 1 ∧ new.lastStart = s.fclk ∧ new.actSeq = n.actSeq + 1 ∧
      new.tiles = n.tiles.map (fun q => if q.tile.age ∈ d.ages then { q with held := true } else q) := by
    rw [hnew]
    exact ⟨rfl, rfl, rfl, rfl⟩
  have hkept : s.MemoryKept t := by
    rw [ht]
    exact (((s.memoryKept_holdTiles c d).trans (State.memoryKept_setAct ..)).trans (State.memoryKept_beginAct ..)).trans
      ((State.memoryKept_updKennel ..).trans hmem)
  obtain ⟨bad, now, hth⟩ := held.find?_threads_beginAct r x u k rule d.rule (s.groupOf c d)
  have howner : ∃ e ∈ counted.acts.filter (fun e => k == { e.1 with twin := 0 }), e.2.owner = u := by
    refine ⟨(k, a), List.mem_filter.2 ⟨State.mem_acts_of_act? hact, ?_⟩, rfl⟩
    simp [k, State.nextActKey]
  have hfound := find?_threads_foldl_arb (w := w) _ counted _ hth (.inl howner)
  have hthread : t.thread u =
      { (held.thread u).beganAct r x k rule d.rule (s.groupOf c d) bad with ltime := now, arb := new.lastRound } := by
    rw [hrec, ht]
    simp only [State.thread, NMap.get, State.giveRecord, hfound, Option.getD_some]
  refine ⟨by rw [ht, State.act?_congr hacts, hact], ?_, by rw [hthread], hsums, hkept⟩
  rw [hthread]
  exact (Thread.beginsAct_beganAct ..).congr now _

theorem exec_arbitrationRound (c : Nat) (s : State) : exec (.arbitrationRound c) s = execArbitrationRound c s := rfl
theorem exec_roundTimer (c : Nat) (s : State) : exec (.roundTimer c) s = execRoundTimer c s := rfl
theorem exec_tileInsert (s : State) : exec .tileInsert s = execTileInsert s := rfl
theorem exec_whistleWave (r : Nat) (s : State) : exec (.whistleWave r) s = execWhistleWave r s := rfl
theorem exec_whistleReturn (r : Nat) (s : State) : exec (.whistleReturn r) s = execWhistleReturn r s := rfl

/-- A round whose conditions hold is held (R13). -/
theorem exec_arbitrationRound_holds {s : State} {r c : Nat} {x : Run} (hc : (s.cluster c).run = some r) (hx : s.run? r = some x)
    (hr : x.holdsRounds = true) (hf : s.freeSets r x c ≠ []) (he : (s.cluster c).kennel.cands.any (s.cluster c).kennel.enabledCand = true) :
    exec (.arbitrationRound c) s = .next (s.holdRound r x c) := by
  have hfree : (s.freeSets r x c).isEmpty = false := by simpa using hf
  simp [exec_arbitrationRound, execArbitrationRound, hc, hx, hr, he, hfree]

/-- The timer makes a round due (R13). -/
theorem exec_roundTimer_due {s : State} {r c : Nat} {x : Run} (hc : (s.cluster c).run = some r) (hx : s.run? r = some x)
    (hr : x.holdsRounds = true) (ht : (s.cluster c).kennel.lastStart + 64 ≤ s.fclk) :
    exec (.roundTimer c) s = .next ((s.updKennel c (fun n => { n with lastStart := s.fclk })).roundDue c) := by
  simp [exec_roundTimer, execRoundTimer, hc, hx, hr, ht]

/-- A product that may arrive next does; a free value picks it. -/
theorem exec_tileInsert_picks {s : State} (hne : s.firstInserts s.inserts [] ≠ [])
    (hrun : ∀ i ∈ s.firstInserts s.inserts [], (s.run? i.run).isSome = true) :
    ∃ i ∈ s.firstInserts s.inserts [], ∃ n x, s.run? i.run = some x ∧
      exec .tileInsert s = .next ({ s with freeIdx := n }.insertOne x i (s.inserts.erase i)) := by
  rcases s.pickFree_cases (s.firstInserts s.inserts []) with ⟨h, -⟩ | ⟨i, hi, n, hpick⟩
  · exact absurd h hne
  · obtain ⟨x, hx⟩ := Option.isSome_iff_exists.1 (hrun i hi)
    have hx' : ({ s with freeIdx := n } : State).run? i.run = some x := hx
    exact ⟨i, hi, n, x, hx, by simp only [exec_tileInsert, execTileInsert, hpick, hx']⟩

/-! ## The whistle (R45, R46) -/

theorem Wave.stable_self {v : Wave} (hq : v.quiet = true) (hs : v.snd = v.rcv) : v.stable v = true := by
  simp [Wave.stable, hq, hs]

/-- A wave is the conjunction of the kennels' reports and the sums of their counters. -/
theorem State.wave_sums (s : State) (x : Run) :
    s.wave x = ⟨x.clusters.all s.quiet,
      (x.clusters.map (fun c => (s.cluster c).kennel.ins)).sum, (x.clusters.map (fun c => (s.cluster c).kennel.rem)).sum,
      (x.clusters.map (fun c => (s.cluster c).kennel.snd)).sum, (x.clusters.map (fun c => (s.cluster c).kennel.rcv)).sum⟩ := by
  have gen (l : List Nat) (w : Wave) : l.foldl (fun w c =>
      let n := (s.cluster c).kennel
      (⟨w.quiet && s.quiet c, w.ins + n.ins, w.rem + n.rem, w.snd + n.snd, w.rcv + n.rcv⟩ : Wave)) w =
      ⟨w.quiet && l.all s.quiet, w.ins + (l.map (fun c => (s.cluster c).kennel.ins)).sum,
        w.rem + (l.map (fun c => (s.cluster c).kennel.rem)).sum, w.snd + (l.map (fun c => (s.cluster c).kennel.snd)).sum,
        w.rcv + (l.map (fun c => (s.cluster c).kennel.rcv)).sum⟩ := by
    induction l generalizing w with
    | nil => simp
    | cons c l ih => rw [List.foldl_cons, ih]; simp [Bool.and_assoc, Nat.add_assoc]
  rw [State.wave, gen]
  simp

section
variable {s : State} {r : Nat} {x : Run} (hx : s.run? r = some x) (hp : x.phase = .running) (hr : Rec.isReact x.rec_ = true)
include hx hp hr

theorem exec_whistleWave_leaves :
    exec (.whistleWave r) s = .next ((s.setRun r { x with waveAt := s.fclk }).postOnce (.whistleReturn r)) := by
  simp [exec_whistleWave, execWhistleWave, hx, hp, hr]

theorem exec_whistleReturn_stable {v : Wave} (hv : x.wave = some v) (hs : v.stable (s.wave x) = true) :
    exec (.whistleReturn r) s = .next ((s.setRun r { x with wave := some (s.wave x), stop := some ⟨1, 0, 0⟩, phase := .stopping }).postOnce
      (.completionSignal r)) := by
  simp [exec_whistleReturn, execWhistleReturn, hx, hp, hr, hv, hs]

theorem exec_whistleReturn_first (hv : x.wave = none) :
    exec (.whistleReturn r) s = .next (if (s.wave x).quiet then (s.setRun r { x with wave := some (s.wave x) }).postOnce (.whistleWave r)
      else s.setRun r { x with wave := some (s.wave x) }) := by
  simp [exec_whistleReturn, execWhistleReturn, hx, hp, hr, hv]

end

theorem State.run?_postOnce (s : State) (i : Instr) (r : Nat) : (s.postOnce i).run? r = s.run? r :=
  State.run?_congr (State.postOnce_runs ..) r

theorem State.postOnce_only_pending (s : State) (i : Instr) : s.postOnce i = { s with pending := (s.postOnce i).pending } := by
  unfold State.postOnce
  split <;> rfl

end Sys2Proof.Machine

open Sys2Proof Sys2Proof.Machine

/-- Settles O46: one rule for each event of a kennel, and for each of the whistle. -/
theorem kennelResult : Obligations.KennelResult := by
  unfold Obligations.KennelResult
  refine ⟨⟨?_, ?_, ?_⟩, ?_, fun x s => s.wave_sums x⟩
  · intro s hne hall
    obtain ⟨i, hi, n, x, -, hexec⟩ := exec_tileInsert_picks hne (fun i hi => (hall i hi).2)
    obtain ⟨hins, hkennel, hdue, hmem⟩ :=
      State.insertOne_slot_result (s := { s with freeIdx := n }) (x := x) (rest := s.inserts.erase i) (hall i hi).1
    have h0 : s.MemoryKept { s with freeIdx := n } := ⟨rfl, rfl, rfl, rfl, rfl⟩
    exact ⟨i, hi, _, hexec, hins, hkennel, hdue, (h0.trans hmem).sameMemory⟩
  · intro c r x s hc hx hr ht
    refine ⟨_, exec_roundTimer_due hc hx hr ht, ?_, State.mem_pending_postOnce .., State.postOnce_acts .., State.postOnce_threads ..⟩
    simp only [State.roundDue, State.cluster_postOnce, State.cluster_updKennel_same]
  · intro c r x d rule u g s hc hx hr hf n hl hrule hclause hpaired hg hset
    subst hg
    have he : n.cands.any n.enabledCand = true := by
      have hd : d ∈ n.cands.filter n.enabledCand := by rw [hl]; exact List.mem_singleton.2 rfl
      exact List.any_eq_true.2 ⟨d, List.mem_filter.1 hd⟩
    obtain ⟨hact, hbegins, harb, hkennel, hmem⟩ := State.holdRound_single_result (r := r) hl hrule hclause hpaired hset
    obtain ⟨hstatus, hctx, hkey, hrun, hpc, hmode, hintrap, hflags, hfpmode⟩ := hbegins.special
    obtain ⟨h1, h2, h3, hx0⟩ := hbegins.counts
    obtain ⟨h30, h31⟩ := hbegins.tiles
    exact ⟨s.holdRound r x c, s.nextActKey r c, Act.ofCand c x.gen u rule d none, exec_arbitrationRound_holds hc hx hr hf he, hact,
      rfl, rfl, rfl, rfl, rfl, rfl, rfl, rfl, rfl, rfl,
      ⟨hstatus, hctx, hkey, hrun, hpc, hmode, hintrap, hflags, hfpmode, h1, h2, h3, hx0, h30, h31, harb⟩, hkennel, hmem.sameMemory⟩
  · intro r x s hx hp hr
    refine ⟨⟨_, exec_whistleWave_leaves hx hp hr, ?_, State.mem_pending_postOnce .., ?_⟩, ?_, ?_⟩
    · rw [State.run?_postOnce, State.run?_setRun_same]
    · rw [State.postOnce_only_pending]
      rfl
    · intro v hv hq hs hw
      have hstable : v.stable (s.wave x) = true := by rw [hw]; exact Wave.stable_self hq hs
      refine ⟨_, exec_whistleReturn_stable hx hp hr hv hstable, ?_, State.mem_pending_postOnce ..⟩
      rw [State.run?_postOnce, State.run?_setRun_same, hw]
    · intro hv
      refine ⟨_, exec_whistleReturn_first hx hp hr hv, ?_, fun hq => ?_, fun hq => ?_⟩
      · split
        · rw [State.run?_postOnce, State.run?_setRun_same]
        · rw [State.run?_setRun_same]
      · rw [if_pos hq]
        exact State.mem_pending_postOnce ..
      · rw [if_neg (by simp [hq])]
        rfl
end

section
/-! What stores into the slices do to the committed bytes (R185, R186, R343): a sector's store puts its bytes and leaves every
other byte; the pieces of tentative data put each of its cells. -/
namespace Sys2Proof.Machine

/-! ## One sector -/

/-- The byte at an offset of a sector: its own, or else the one beneath (R186). -/
def Sector.byteOr (c : Sector) (i : Nat) (d : Byte) : Byte := if c.have_.getLsbD i then ByteMap.read c.bytes i else d

@[simp] theorem Sector.byteOr_empty (i : Nat) (d : Byte) : Sector.empty.byteOr i d = d := by
  simp [Sector.byteOr, Sector.empty]

theorem getLsbD_bitRun (w lo n i : Nat) : (bitRun w lo n).getLsbD i = decide (i < w ∧ lo ≤ i ∧ i < lo + n) := by
  rw [bitRun, BitVec.getLsbD_ofNat, Nat.testBit_mul_two_pow, Nat.testBit_two_pow_sub_one, Bool.eq_iff_iff]
  simp only [Bool.and_eq_true, decide_eq_true_eq]
  omega

theorem Sector.byteOr_store (c : Sector) (off i : Nat) (bs : List Byte) (d : Byte) (hi : i < 64) :
    (c.store off bs).byteOr i d = if off ≤ i ∧ i < off + bs.length then bs.getD (i - off) 0 else c.byteOr i d := by
  have hhave : (c.store off bs).have_.getLsbD i = (c.have_.getLsbD i || decide (i < 64 ∧ off ≤ i ∧ i < off + bs.length)) := by
    rw [← getLsbD_bitRun, ← BitVec.getLsbD_or]
    rfl
  have hbytes : ByteMap.read (c.store off bs).bytes i = _ := ByteMap.read_writes c.bytes off i bs
  rw [Sector.byteOr, hhave, hbytes]
  by_cases h : off ≤ i ∧ i < off + bs.length
  · simp [h, hi]
  · simp [h, Sector.byteOr]

theorem SliceLine.sector_setSector (l : SliceLine) (k j : Nat) (c : Sector) (hk : k < 4) :
    (l.setSector k c).sector j = if j = k then c else l.sector j := by
  unfold SliceLine.sector SliceLine.setSector
  rw [Vector.getElem?_setIfInBounds]
  by_cases h : j = k
  · subst h
    simp [hk]
  · simp [h, Ne.symm h]

theorem SliceLine.sector_fresh (vf used j : Nat) (ev : Bool) : (SliceLine.fresh vf used ev).sector j = Sector.empty := by
  unfold SliceLine.sector SliceLine.fresh
  by_cases h : j < 4
  · simp [h]
  · simp [h]

/-- A line that a slice does not hold reads as a fresh one does. -/
theorem State.byteAt_eq (s : State) (vf used : Nat) (ev : Bool) (p : Nat) :
    s.byteAt p = (((NMap.find? s.lines (p / 256)).getD (SliceLine.fresh vf used ev)).sector (p / 64 % 4)).byteOr (p % 64)
      (s.dramByte p) := by
  unfold State.byteAt
  cases NMap.find? s.lines (p / 256) with
  | some l => rfl
  | none => simp [SliceLine.sector_fresh]

/-- What a store into a sector leaves: everything but the slices, the work list, poison and the write times. -/
theorem State.storeSector_keeps (s : State) (vf pa : Nat) (bs : List Byte) (ev : Bool) :
    let t := s.storeSector vf pa bs ev
    t.mem = s.mem ∧ t.hub = s.hub ∧ t.threads = s.threads ∧ t.clusters = s.clusters ∧ t.runs = s.runs := by
  simp only [State.storeSector, State.stamp, State.unpoison]
  split
  · simp
  · simp

theorem State.lines_storeSector (s : State) (vf pa : Nat) (bs : List Byte) (ev : Bool) :
    let l := (NMap.find? s.lines (pa / 256)).getD (SliceLine.fresh vf s.fclk ev)
    (s.storeSector vf pa bs ev).lines = NMap.set s.lines (pa / 256)
      { l.setSector (pa / 64 % 4) ((l.sector (pa / 64 % 4)).store (pa % 64) bs) with used := s.fclk, ev := l.ev || ev } := by
  simp only [State.storeSector, State.stamp, State.unpoison]
  split
  · simp only [State.postOnce_lines]
  · rfl

/-- A store inside one sector puts its bytes and leaves every other byte. -/
theorem State.byteAt_storeSector (s : State) (vf pa p : Nat) (bs : List Byte) (ev : Bool) (hin : pa % 64 + bs.length ≤ 64) :
    (s.storeSector vf pa bs ev).byteAt p = if pa ≤ p ∧ p < pa + bs.length then bs.getD (p - pa) 0 else s.byteAt p := by
  obtain ⟨hmem, hhub, -⟩ := s.storeSector_keeps vf pa bs ev
  rw [State.byteAt_eq _ vf s.fclk ev, State.dramByte_congr hmem hhub, State.lines_storeSector]
  by_cases hline : p / 256 = pa / 256
  · rw [hline, NMap.find?_set_same, Option.getD_some]
    have hsector := SliceLine.sector_setSector ((NMap.find? s.lines (pa / 256)).getD (SliceLine.fresh vf s.fclk ev)) (pa / 64 % 4)
      (p / 64 % 4) ((((NMap.find? s.lines (pa / 256)).getD (SliceLine.fresh vf s.fclk ev)).sector (pa / 64 % 4)).store (pa % 64) bs)
      (Nat.mod_lt _ (by decide))
    refine (congrArg (Sector.byteOr · (p % 64) (s.dramByte p)) hsector).trans ?_
    by_cases hk : p / 64 % 4 = pa / 64 % 4
    · have hoff : p / 64 = pa / 64 := by omega
      rw [if_pos hk, Sector.byteOr_store _ _ _ _ _ (Nat.mod_lt _ (by decide)), ← hk, ← hline, ← State.byteAt_eq]
      have hiff : (pa % 64 ≤ p % 64 ∧ p % 64 < pa % 64 + bs.length) ↔ (pa ≤ p ∧ p < pa + bs.length) := by omega
      have hsub : p % 64 - pa % 64 = p - pa := by omega
      simp only [hiff, hsub]
    · rw [if_neg hk, ← hline, ← State.byteAt_eq, if_neg (by omega)]
  · rw [NMap.find?_set_ne _ _ _ _ hline, ← State.byteAt_eq, if_neg (by omega)]

/-! ## Cells -/

/-- The cells of consecutive bytes. -/
def cellsAt : Nat → List Byte → List Host.Cell
  | _, [] => []
  | a, b :: bs => (a, b) :: cellsAt (a + 1) bs

/-- The byte at an address after cells have been written one after the other. -/
def lastOf (cells : List Host.Cell) (p : Nat) (d : Byte) : Byte := cells.foldl (fun v c => if c.1 = p then c.2 else v) d

theorem lastOf_append (l m : List Host.Cell) (p : Nat) (d : Byte) : lastOf (l ++ m) p d = lastOf m p (lastOf l p d) :=
  List.foldl_append

theorem lastOf_cellsAt (a p : Nat) (bs : List Byte) (d : Byte) :
    lastOf (cellsAt a bs) p d = if a ≤ p ∧ p < a + bs.length then bs.getD (p - a) 0 else d := by
  induction bs generalizing a d with
  | nil => rw [if_neg (by simp)]; rfl
  | cons b bs ih =>
    rw [cellsAt, lastOf, List.foldl_cons, ← lastOf, ih, List.length_cons]
    by_cases h : a = p
    · subst h
      simp
    · by_cases h2 : a + 1 ≤ p ∧ p < a + 1 + bs.length
      · rw [if_pos h2, if_pos (by omega), show p - a = (p - (a + 1)) + 1 by omega, List.getD_cons_succ]
      · rw [if_neg h2, if_neg h, if_neg (by omega)]

/-- An address that no cell names keeps its byte. -/
theorem lastOf_of_forall_ne {cells : List Host.Cell} {p : Nat} (h : ∀ c ∈ cells, c.1 ≠ p) (d : Byte) : lastOf cells p d = d := by
  induction cells with
  | nil => rfl
  | cons c l ih =>
    obtain ⟨hc, hl⟩ := List.forall_mem_cons.1 h
    rw [lastOf, List.foldl_cons, if_neg hc]
    exact ih hl

/-- Of cells with different addresses each stands. -/
theorem lastOf_of_mem {cells : List Host.Cell} (hn : (cells.map (·.1)).Nodup) {c : Host.Cell} (hc : c ∈ cells) (d : Byte) :
    lastOf cells c.1 d = c.2 := by
  induction cells generalizing d with
  | nil => cases hc
  | cons e l ih =>
    rw [List.map_cons, List.nodup_cons] at hn
    obtain ⟨he, hl⟩ := hn
    rw [lastOf, List.foldl_cons]
    rcases List.mem_cons.1 hc with rfl | hc
    · rw [if_pos rfl]
      exact lastOf_of_forall_ne (fun c' hc' heq => he (List.mem_map.2 ⟨c', hc', heq⟩)) _
    · exact ih hl hc _

/-- Runs of consecutive addresses are the cells they are made of. -/
theorem flatMap_cellRuns (cells : List Host.Cell) : (cellRuns cells).flatMap (fun r => cellsAt r.1 r.2) = cells := by
  induction cells with
  | nil => rfl
  | cons c rest ih =>
    obtain ⟨a, b⟩ := c
    unfold cellRuns
    split
    · next a' bs more hruns =>
      rw [hruns, List.flatMap_cons] at ih
      split
      · next h =>
        subst h
        rw [List.flatMap_cons, cellsAt, List.cons_append, ih]
      · rw [List.flatMap_cons, List.flatMap_cons, ih]
        rfl
    · next hruns =>
      rw [hruns] at ih
      rw [← ih]
      rfl

theorem cellsAt_append (a : Nat) (l m : List Byte) : cellsAt a (l ++ m) = cellsAt a l ++ cellsAt (a + l.length) m := by
  induction l generalizing a with
  | nil => rfl
  | cons b l ih =>
    rw [List.cons_append, cellsAt, ih, cellsAt, List.cons_append, List.length_cons, show a + 1 + l.length = a + (l.length + 1) by omega]

/-- The pieces of a byte string are its cells, when there is fuel for a piece in each sector that it touches. -/
theorem flatMap_sectorPieces (fuel pa : Nat) (bs : List Byte) (h : pa % 64 + bs.length ≤ 64 * fuel) :
    (sectorPieces fuel pa bs).flatMap (fun r => cellsAt r.1 r.2) = cellsAt pa bs := by
  induction fuel generalizing pa bs with
  | zero =>
    obtain rfl : bs = [] := List.length_eq_zero_iff.1 (by omega)
    rfl
  | succ fuel ih =>
    unfold sectorPieces
    split
    · next he => rw [List.isEmpty_iff.1 he]; rfl
    · have hfuel : (pa + (64 - pa % 64)) % 64 + (bs.drop (64 - pa % 64)).length ≤ 64 * fuel := by
        rw [List.length_drop]
        omega
      simp only [List.flatMap_cons, ih _ _ hfuel]
      by_cases hle : 64 - pa % 64 ≤ bs.length
      · conv_rhs => rw [← List.take_append_drop (64 - pa % 64) bs, cellsAt_append, List.length_take_of_le hle]
      · rw [List.drop_eq_nil_of_le (by omega), List.take_of_length_le (by omega)]
        simp [cellsAt]

theorem flatMap_piecesOf (pa : Nat) (bs : List Byte) : (piecesOf pa bs).flatMap (fun r => cellsAt r.1 r.2) = cellsAt pa bs :=
  flatMap_sectorPieces _ _ _ (by omega)

/-- Each piece lies in one sector. -/
theorem sectorPieces_fit (fuel pa : Nat) (bs : List Byte) : ∀ r ∈ sectorPieces fuel pa bs, r.1 % 64 + r.2.length ≤ 64 := by
  induction fuel generalizing pa bs with
  | zero => simp [sectorPieces]
  | succ fuel ih =>
    unfold sectorPieces
    split
    · simp
    · refine List.forall_mem_cons.2 ⟨?_, ih _ _⟩
      rw [List.length_take]
      omega

/-! ## Tentative data (R343) -/

/-- Pieces that each lie in one sector, stored one after the other, put their cells. -/
theorem State.byteAt_storePieces (vf : Nat) (ev : Nat → Bool) (ps : List (Nat × List Byte))
    (hfit : ∀ r ∈ ps, r.1 % 64 + r.2.length ≤ 64) (s : State) (p : Nat) :
    (ps.foldl (fun s r => s.storeSector vf r.1 r.2 (ev r.1)) s).byteAt p =
      lastOf (ps.flatMap (fun r => cellsAt r.1 r.2)) p (s.byteAt p) := by
  induction ps generalizing s with
  | nil => rfl
  | cons r ps ih =>
    obtain ⟨hr, hps⟩ := List.forall_mem_cons.1 hfit
    rw [List.foldl_cons, ih hps, State.byteAt_storeSector _ _ _ _ _ _ hr, List.flatMap_cons, lastOf_append, lastOf_cellsAt]

/-- The store of tentative data puts its cells and leaves every other byte. -/
theorem State.byteAt_storeTentative (s : State) (vf : Nat) (cells : List Host.Cell) (ev : List Nat) (p : Nat) :
    (s.storeTentative vf cells ev).byteAt p = lastOf cells p (s.byteAt p) := by
  have hfit : ∀ r ∈ (cellRuns cells).flatMap (fun r => piecesOf r.1 r.2), r.1 % 64 + r.2.length ≤ 64 := by
    intro r hr
    obtain ⟨q, -, hq⟩ := List.mem_flatMap.1 hr
    exact sectorPieces_fit _ _ _ r hq
  have hcells : ((cellRuns cells).flatMap (fun r => piecesOf r.1 r.2)).flatMap (fun r => cellsAt r.1 r.2) = cells := by
    rw [List.flatMap_assoc]
    simp only [flatMap_piecesOf, flatMap_cellRuns]
  rw [State.storeTentative, State.byteAt_storePieces vf (fun a => ev.contains (a / 256)) _ hfit, hcells]

theorem State.storeTentative_keeps (s : State) (vf : Nat) (cells : List Host.Cell) (ev : List Nat) :
    let t := s.storeTentative vf cells ev
    t.threads = s.threads ∧ t.clusters = s.clusters ∧ t.runs = s.runs := by
  refine List.foldlRecOn (motive := fun (t : State) => t.threads = s.threads ∧ t.clusters = s.clusters ∧ t.runs = s.runs) _ _
    ⟨rfl, rfl, rfl⟩ ?_
  rintro t ⟨hthreads, hclusters, hruns⟩ r -
  obtain ⟨-, -, hthreads', hclusters', hruns'⟩ := t.storeSector_keeps vf r.1 r.2 (ev.contains (r.1 / 256))
  exact ⟨hthreads'.trans hthreads, hclusters'.trans hclusters, hruns'.trans hruns⟩

end Sys2Proof.Machine
end

section
/-! The endings of activations (R36, R37, R129): what their housekeeping leaves alone, and what an ending comes to. -/
namespace Sys2Proof.Machine

/-! ## What housekeeping leaves alone -/

/-- Memory, the runs and the kennels stand as before, and no device step has left the work list. -/
structure State.BooksKept (s t : State) : Prop where
  mem : t.mem = s.mem
  lines : t.lines = s.lines
  hub : t.hub = s.hub
  runs : t.runs = s.runs
  kennel : ∀ c, (t.cluster c).kennel = (s.cluster c).kennel
  pending : s.pending ⊆ t.pending

/-- And every thread set works for the activation that it did. -/
structure State.WorkKept (s t : State) : Prop extends State.BooksKept s t where
  act : ∀ u, (t.thread u).act = (s.thread u).act

theorem State.BooksKept.refl (s : State) : s.BooksKept s := ⟨rfl, rfl, rfl, rfl, fun _ => rfl, List.Subset.refl _⟩

theorem State.BooksKept.trans {s t u : State} (h : s.BooksKept t) (g : t.BooksKept u) : s.BooksKept u :=
  ⟨g.mem.trans h.mem, g.lines.trans h.lines, g.hub.trans h.hub, g.runs.trans h.runs, fun c => (g.kennel c).trans (h.kennel c),
    fun _ hi => g.pending (h.pending hi)⟩

theorem State.WorkKept.refl (s : State) : s.WorkKept s := ⟨State.BooksKept.refl s, fun _ => rfl⟩

theorem State.WorkKept.trans {s t u : State} (h : s.WorkKept t) (g : t.WorkKept u) : s.WorkKept u :=
  ⟨h.toBooksKept.trans g.toBooksKept, fun v => (g.act v).trans (h.act v)⟩

/-- A fold of steps that keep the work keeps it. -/
theorem State.workKept_foldl {α : Type} {f : State → α → State} (hf : ∀ (s : State) (a : α), s.WorkKept (f s a)) (s : State) (l : List α) :
    s.WorkKept (l.foldl f s) :=
  List.foldlRecOn (motive := fun t => s.WorkKept t) _ _ (.refl s) (fun t h a _ => h.trans (hf t a))

/-- Thread sets that are not listed work for no activation, whatever their kind. -/
theorem State.thread_act_eq (s : State) (u : TsId) : (s.thread u).act = (NMap.find? s.threads (TsId.key u)).bind Thread.act := by
  simp only [State.thread, NMap.get]
  cases NMap.find? s.threads (TsId.key u) with
  | some th => rfl
  | none => simp only [Option.getD_none]; split <;> rfl

theorem State.booksKept_updThread (s : State) (t : TsId) (f : Thread → Thread) : s.BooksKept (s.updThread t f) :=
  ⟨rfl, rfl, rfl, rfl, fun _ => rfl, List.Subset.refl _⟩

theorem State.workKept_updThread (s : State) (t : TsId) {f : Thread → Thread} (hf : ∀ th, (f th).act = th.act := by exact fun _ => rfl) :
    s.WorkKept (s.updThread t f) := by
  refine ⟨s.booksKept_updThread t f, fun u => ?_⟩
  by_cases h : TsId.key u = TsId.key t
  · rw [State.thread_act_eq, h, State.find?_threads_updThread, Option.bind_some, hf, State.thread_act_eq, ← h, ← State.thread_act_eq]
  · rw [State.thread_updThread_ne _ _ _ _ h]

theorem State.workKept_updCluster (s : State) (c : Nat) {f : Cluster → Cluster}
    (hf : ∀ u, (f u).kennel = u.kennel := by exact fun _ => rfl) :
    s.WorkKept (s.updCluster c f) := by
  refine ⟨⟨rfl, rfl, rfl, rfl, fun d => ?_, List.Subset.refl _⟩, fun _ => rfl⟩
  by_cases h : d = c
  · rw [h, State.cluster_updCluster_same, hf]
  · rw [State.cluster_updCluster_ne _ _ _ _ h]

theorem State.workKept_updCore (s : State) (c k : Nat) (f : CoreUnit → CoreUnit) : s.WorkKept (s.updCore c k f) :=
  ⟨⟨rfl, rfl, rfl, rfl, fun _ => rfl, List.Subset.refl _⟩, fun _ => rfl⟩

theorem State.thread_congr {s t : State} (h : t.threads = s.threads) (u : TsId) : t.thread u = s.thread u := by
  simp only [State.thread, h]

theorem State.workKept_postOnce (s : State) (i : Instr) : s.WorkKept (s.postOnce i) where
  mem := State.postOnce_mem ..
  lines := State.postOnce_lines ..
  hub := State.postOnce_hub ..
  runs := State.postOnce_runs ..
  kennel c := by rw [State.cluster_postOnce]
  pending := State.pending_subset_postOnce ..
  act u := by rw [State.thread_congr (State.postOnce_threads ..)]

theorem State.workKept_dropAct (s : State) (k : ActKey) : s.WorkKept (s.dropAct k) :=
  ⟨⟨rfl, rfl, rfl, rfl, fun _ => rfl, List.Subset.refl _⟩, fun _ => rfl⟩

@[simp] theorem State.act?_dropAct_same (s : State) (k : ActKey) : (s.dropAct k).act? k = none := by
  simp [State.act?, State.dropAct]

/-! ## Private copies (R181) -/

theorem State.workKept_dropPriv (s : State) (c k line : Nat) : s.WorkKept (s.dropPriv c k line) :=
  State.workKept_foldl (fun t _ => t.workKept_updCore ..) s _

theorem State.workKept_placeVictim (s : State) (c : Nat) (v : PrivLine) (js : List Nat) : s.WorkKept (s.placeVictim c v js) := by
  induction js generalizing s v with
  | nil => exact .refl s
  | cons j js ih =>
    unfold State.placeVictim
    dsimp only
    split
    · exact (s.workKept_updCore ..).trans (ih ..)
    · exact s.workKept_updCore ..

theorem State.workKept_addPriv (s : State) (c k : Nat) (p : PrivLine) : s.WorkKept (s.addPriv c k p) := by
  unfold State.addPriv
  dsimp only
  split
  · exact (s.workKept_updCore ..).trans (State.workKept_placeVictim ..)
  · exact s.workKept_updCore ..

theorem State.workKept_addCopy (s : State) (c k : Nat) (q : Place) (now line : Nat) (keep : Bool) :
    s.WorkKept (s.addCopy c k q now line keep) := by
  have hwmax (t : State) (n : Nat) : t.WorkKept { t with wmax := n } :=
    ⟨⟨rfl, rfl, rfl, rfl, fun _ => rfl, List.Subset.refl _⟩, fun _ => rfl⟩
  exact ((s.workKept_dropPriv ..).trans (State.workKept_addPriv ..)).trans (hwmax ..)

theorem State.workKept_renewCopies (s : State) (now : Nat) (ms : List StoreMark) : s.WorkKept (s.renewCopies now ms) := by
  refine State.workKept_foldl (fun t m => ?_) s ms
  split
  · split
    · exact t.workKept_addCopy ..
    · exact .refl t
  · exact .refl t

/-! ## The leash, the clause array and the thread sets (R130, R152, R309) -/

theorem Cluster.kennel_writeBuf (u : Cluster) (b : Buf) (off : Nat) (bs : List Byte) : (u.writeBuf b off bs).kennel = u.kennel := by
  cases b <;> rfl

theorem State.workKept_park (s : State) (t : TsId) : s.WorkKept (s.park t) := by
  have hsave (c : Chain) : s.WorkKept (if c.state = .live then s.updCluster t.cluster (fun u =>
      u.writeBuf .cbuf (parkSlot t) (Block.bytes (s.cluster t.cluster).array.block)) else s) := by
    split
    · exact s.workKept_updCluster _ (fun u => u.kennel_writeBuf ..)
    · exact .refl s
  unfold State.park
  dsimp only
  split
  · exact hsave _
  · exact (hsave _).trans (State.workKept_updThread ..)

theorem State.workKept_freeLeash (s : State) (c : Nat) : s.WorkKept (s.freeLeash c) := by
  unfold State.freeLeash
  split
  · next t _ =>
    exact ((s.workKept_park t).trans (State.workKept_updCluster ..)).trans (State.workKept_postOnce ..)
  · exact .refl s

theorem State.workKept_closeChain (s : State) (t : TsId) : s.WorkKept (s.closeChain t) := by
  have hleash : s.WorkKept (if s.isHolder t then s.freeLeash t.cluster else s) := by
    split
    · exact s.workKept_freeLeash _
    · exact .refl s
  unfold State.closeChain
  exact hleash.trans (State.workKept_updThread ..)

theorem State.workKept_freeLeashes (s : State) (k : ActKey) : s.WorkKept (s.freeLeashes k) :=
  State.workKept_foldl State.workKept_freeLeash s _

theorem State.workKept_releaseClause (s : State) (c : Nat) (h : ClauseHolder) : s.WorkKept (s.releaseClause c h) := by
  unfold State.releaseClause State.freeClause State.updClause
  split
  · exact s.workKept_updCluster c
  · exact .refl s

theorem State.booksKept_freeThread (s : State) (t : TsId) : s.BooksKept (s.freeThread t) :=
  ((s.booksKept_updThread t _).trans (State.workKept_updCluster ..).toBooksKept).trans
    (State.workKept_postOnce ..).toBooksKept

/-- A thread set that runs nothing. -/
def Thread.Free (t : Thread) : Prop := t.act = none ∧ t.status = .idle

theorem State.thread_freeThread (s : State) (t u : TsId) : (s.freeThread t).thread u = (s.updThread t Thread.freed).thread u :=
  State.thread_congr (State.postOnce_threads ..) u

theorem State.freeThread_frees (s : State) (t : TsId) : ((s.freeThread t).thread t).Free := by
  rw [State.thread_freeThread, State.thread_updThread_same]
  exact ⟨rfl, rfl⟩

theorem State.free_freeThread {s : State} {u : TsId} (t : TsId) (h : (s.thread u).Free) : ((s.freeThread t).thread u).Free := by
  rw [State.thread_freeThread]
  by_cases hk : TsId.key u = TsId.key t
  · rw [State.thread, NMap.get, hk, State.find?_threads_updThread]
    exact ⟨rfl, rfl⟩
  · rw [State.thread_updThread_ne _ _ _ _ hk]
    exact h

/-- Of thread sets freed one after the other each is free at the end. -/
theorem State.foldl_freeThread_frees {u : TsId} (l : List TsId) (s : State) (h : u ∈ l ∨ (s.thread u).Free) :
    ((l.foldl (fun s t => s.freeThread t) s).thread u).Free := by
  induction l generalizing s with
  | nil => exact h.resolve_left (List.not_mem_nil)
  | cons t l ih =>
    refine ih _ ?_
    rcases h with h | h
    · rcases List.mem_cons.1 h with rfl | h
      · exact .inr (s.freeThread_frees u)
      · exact .inl h
    · exact .inr (State.free_freeThread t h)

theorem State.owner_mem_setsOf {s : State} {k : ActKey} {a : Act} (h : (s.thread a.owner).act = some k) : a.owner ∈ s.setsOf k a := by
  simp [State.setsOf, h]

/-- The thread sets of an activation that has ended are free, its owner among them; nothing else of the books changes. -/
theorem State.freeSetsOf_result {s : State} {k : ActKey} {a : Act} (hh : a.handler = false) (ho : (s.thread a.owner).act = some k) :
    s.BooksKept (s.freeSetsOf k a) ∧ ((s.freeSetsOf k a).thread a.owner).Free := by
  let closed := (((s.setsOf k a).foldl (fun s t => s.closeChain t) s).freeLeashes k).releaseClause a.cluster (.act { k with twin := 0 })
  have hclosed : s.WorkKept closed :=
    ((State.workKept_foldl State.workKept_closeChain s _).trans (State.workKept_freeLeashes ..)).trans (State.workKept_releaseClause ..)
  have heq : s.freeSetsOf k a = (closed.setsOf k a).foldl (fun s t => s.freeThread t) closed := by
    simp only [State.freeSetsOf, hh, Bool.false_eq_true, if_false]
    rfl
  have howner : (closed.thread a.owner).act = some k := (hclosed.act a.owner).trans ho
  rw [heq]
  refine ⟨hclosed.toBooksKept.trans ?_, State.foldl_freeThread_frees _ closed (.inl (State.owner_mem_setsOf howner))⟩
  exact List.foldlRecOn (motive := fun t => closed.BooksKept t) _ _ (.refl closed)
    (fun t h u _ => h.trans (t.booksKept_freeThread u))

/-- An activation leaves the machine: its record is gone and its thread sets are free. -/
theorem State.leave_result {s : State} {k : ActKey} {a : Act} (hh : a.handler = false) (ho : (s.thread a.owner).act = some k) :
    let t := (s.freeSetsOf k a).dropAct k
    s.BooksKept t ∧ t.act? k = none ∧ (t.thread a.owner).Free := by
  obtain ⟨hbooks, hfree⟩ := State.freeSetsOf_result hh ho
  exact ⟨hbooks.trans (State.workKept_dropAct ..).toBooksKept, State.act?_dropAct_same .., hfree⟩

/-! ## An ending without a commit (R28, R37) -/

theorem NMap.find?_map {α β : Type} (m : NMap α) (f : α → β) (n : Nat) :
    NMap.find? (m.map (fun e => (e.1, f e.2))) n = (NMap.find? m n).map f := by
  induction m with
  | nil => rfl
  | cons e m ih =>
    rw [List.map_cons, NMap.find?, NMap.find?, ih]
    split <;> rfl

/-- A thread set without what an activation has buffered in its send queue. -/
def Thread.unbuffered (k : ActKey) (t : Thread) : Thread :=
  { t with sendq := t.sendq.filter (fun e => !(e.act = some k ∧ !e.released)) }

theorem State.find?_threads_dropBuffered (s : State) (k : ActKey) (n : Nat) :
    NMap.find? (s.dropBuffered k).threads n = (NMap.find? s.threads n).map (Thread.unbuffered k) :=
  NMap.find?_map s.threads (Thread.unbuffered k) n

theorem State.workKept_dropBuffered (s : State) (k : ActKey) : s.WorkKept (s.dropBuffered k) := by
  refine ⟨⟨rfl, rfl, rfl, rfl, fun _ => rfl, List.Subset.refl _⟩, fun u => ?_⟩
  rw [State.thread_act_eq, State.thread_act_eq, State.find?_threads_dropBuffered]
  cases NMap.find? s.threads (TsId.key u) with
  | some th => rfl
  | none => rfl

theorem State.current_congr {s t : State} (h : t.runs = s.runs) (k : ActKey) (a : Act) : t.current k a = s.current k a := by
  simp only [State.current, State.run?_congr h]

/-- The candidate that a `reject` marks (R50). -/
def Cand.markIf (c : Bool) (d : Cand) : Cand := if c then { d with rejected := true, skips := 0 } else d

/-- The kennel after an ending without a commit: the tiles return free, and a `reject` marks its candidate. -/
def Kennel.discarded (n : Kennel) (a : Act) (mark : Bool) : Kennel :=
  { n.release a.ages with cands := n.cands.map (fun d => d.markIf (mark && a.isCand d)) }

theorem Kennel.tiles_discarded (n : Kennel) (a : Act) (mark : Bool) :
    (n.discarded a mark).tiles = n.tiles.map (fun q => if q.tile.age ∈ a.ages then { q with held := false } else q) := by
  simp only [Kennel.discarded, Kennel.release, List.contains_iff_mem]

theorem Kennel.cands_discarded_unmarked (n : Kennel) (a : Act) : (n.discarded a false).cands = n.cands := by
  simp [Kennel.discarded, Cand.markIf]

/-- A marked candidate is the activation's, and no other of its slot, rule and tiles is left. -/
theorem Kennel.cands_discarded_marked {n : Kennel} {a : Act} {d : Cand} (hd : d ∈ (n.discarded a true).cands) (hc : a.isCand d = true) :
    d.rejected = true ∧ d.skips = 0 := by
  obtain ⟨e, -, rfl⟩ := List.mem_map.1 hd
  cases he : a.isCand e with
  | true => simp [Cand.markIf]
  | false => simp [Cand.markIf, he] at hc

/-- An activation that ends without a commit. -/
theorem State.discard_result {s : State} {k : ActKey} {a : Act} (reject : Bool) (hh : a.handler = false)
    (ho : (s.thread a.owner).act = some k) :
    let t := s.discard k a reject
    (∀ p, t.byteAt p = s.byteAt p) ∧ t.act? k = none ∧ (t.thread a.owner).Free ∧
      (t.cluster a.cluster).kennel = (s.cluster a.cluster).kennel.discarded a (reject && s.current k a) ∧
      Instr.arbitrationRound a.cluster ∈ t.pending := by
  intro t
  let dropped := s.dropBuffered k
  have hdropped : s.WorkKept dropped := s.workKept_dropBuffered k
  let marked := dropped.updKennel a.cluster (fun n => n.discarded a (reject && dropped.current k a))
  have ht : t = ((marked.roundDue a.cluster).freeSetsOf k a).dropAct k := by
    simp only [t, State.discard, hh, Bool.false_eq_true, if_false]
    rfl
  have hdue : marked.WorkKept (marked.roundDue a.cluster) := marked.workKept_postOnce _
  have howner : ((marked.roundDue a.cluster).thread a.owner).act = some k :=
    (hdue.act _).trans ((hdropped.act _).trans ho)
  obtain ⟨hleft, hact, hfree⟩ := State.leave_result hh howner
  rw [← ht] at hleft hact hfree
  have hall : marked.BooksKept t := hdue.toBooksKept.trans hleft
  refine ⟨fun p => ?_, hact, hfree, ?_, hleft.pending (State.mem_pending_postOnce ..)⟩
  · exact State.byteAt_congr (hall.mem.trans hdropped.mem) (hall.lines.trans hdropped.lines) (hall.hub.trans hdropped.hub) p
  · rw [hall.kennel, State.cluster_updKennel_same, hdropped.kennel, State.current_congr hdropped.runs]

/-! ## The commit (R17, R36, R343) -/

/-- A run with one more firing, which stops at its limit (R17). -/
def Run.fired (x : Run) : Run :=
  let stop := Rec.firelim x.rec_ != 0 && Rec.firelim x.rec_ ≤ x.firings + 1 && x.stop.isNone
  { x with firings := x.firings + 1, stop := if stop then some ⟨2, 0, 0⟩ else x.stop,
           phase := if stop && x.phase == .running then .stopping else x.phase }

theorem Run.stop_fired {x : Run} (h0 : Rec.firelim x.rec_ ≠ 0) (h1 : Rec.firelim x.rec_ ≤ x.firings + 1) (h2 : x.stop = none) :
    x.fired.stop = some ⟨2, 0, 0⟩ := by
  simp [Run.fired, h0, h1, h2]

theorem State.countFiring_result {s : State} {r : Nat} {x : Run} (hx : s.run? r = some x) :
    let t := s.countFiring r
    t.run? r = some x.fired ∧ t.mem = s.mem ∧ t.lines = s.lines ∧ t.hub = s.hub ∧ t.clusters = s.clusters ∧ t.threads = s.threads := by
  intro t
  have ht : t = (if Rec.firelim x.rec_ != 0 && Rec.firelim x.rec_ ≤ x.firings + 1 && x.stop.isNone then
      (s.setRun r x.fired).postOnce (.completionSignal r) else s.setRun r x.fired) := by
    simp only [t, State.countFiring, hx]
    rfl
  rw [ht]
  split
  · refine ⟨?_, ?_, ?_, ?_, ?_, ?_⟩ <;> simp [State.run?_postOnce]
  · exact ⟨State.run?_setRun_same .., rfl, rfl, rfl, rfl, rfl⟩

theorem Kennel.ringReturn_nil {n : Kennel} (h : n.ring = []) (cap : Nat) : n.ringReturn cap = n := by
  simp [Kennel.ringReturn, h, ringBack]

/-- The commit event of an activation whose kennel has no tile in its ring: its tentative bytes are stored, its tiles leave. -/
theorem State.commitEvent_result {s : State} {k : ActKey} {a : Act} (x : Run) (hh : a.handler = false)
    (hring : (s.cluster a.cluster).kennel.ring = []) :
    let t := s.commitEvent k a x
    (∀ p, t.byteAt p = lastOf a.tent p (s.byteAt p)) ∧ t.runs = s.runs ∧ (∀ u, (t.thread u).act = (s.thread u).act) ∧
      (t.cluster a.cluster).kennel.tiles = (s.cluster a.cluster).kennel.tiles.filter (fun q => !a.ages.contains q.tile.age) := by
  intro t
  let stored := s.storeTentative x.vf a.tent ((a.marks.filter (·.ev)).map (·.line))
  let renewed := (stored.advanceTime a.owner stored.wmax).renewCopies stored.wmax (a.marks.filter (fun m => !outsideLine m.line))
  let consumed := renewed.updKennel a.cluster (fun n => (((n.consume a.ages).ringReturn x.ringCap).form x.rules))
  obtain ⟨hthreads, hclusters, hruns⟩ := s.storeTentative_keeps x.vf a.tent ((a.marks.filter (·.ev)).map (·.line))
  have hrenewed : stored.WorkKept renewed :=
    (stored.workKept_updThread a.owner).trans (State.workKept_renewCopies ..)
  have ht : ∃ l, t = { consumed with rollbacks := l } := by
    simp only [t, State.commitEvent, hh, Bool.false_eq_true, if_false]
    split
    · exact ⟨_, rfl⟩
    · exact ⟨_, rfl⟩
  obtain ⟨l, ht⟩ := ht
  have hkennel : (renewed.cluster a.cluster).kennel = (s.cluster a.cluster).kennel := by
    rw [hrenewed.kennel, State.cluster_congr hclusters]
  rw [ht]
  refine ⟨fun p => ?_, hrenewed.runs.trans hruns, fun u => ?_, ?_⟩
  · refine (State.byteAt_congr hrenewed.mem hrenewed.lines hrenewed.hub p).trans ?_
    exact State.byteAt_storeTentative ..
  · exact (hrenewed.act u).trans (congrArg Thread.act (State.thread_congr hthreads u))
  · have hconsumed : (consumed.cluster a.cluster).kennel =
        ((((s.cluster a.cluster).kennel.consume a.ages).ringReturn x.ringCap).form x.rules) := by
      rw [State.cluster_updKennel_same, hkennel]
    have hring' : ((s.cluster a.cluster).kennel.consume a.ages).ring = [] := hring
    rw [Kennel.ringReturn_nil hring'] at hconsumed
    exact congrArg Kennel.tiles hconsumed

/-- A commit with neither products, nor messages, nor queued runs, nor writes outside the device. -/
theorem State.commitWith_result {s : State} {k : ActKey} {a : Act} {x : Run} (hh : a.handler = false)
    (ho : (s.thread a.owner).act = some k) (hx : s.run? k.run = some x) (hruns : a.runqs = []) (hout : a.outside = [])
    (hmsgs : s.heldMessages k a = []) (hring : (s.cluster a.cluster).kennel.ring = []) :
    let t := s.commitWith k a x []
    (∀ p, t.byteAt p = lastOf a.tent p (s.byteAt p)) ∧ t.act? k = none ∧ (t.thread a.owner).Free ∧
      (t.cluster a.cluster).kennel.tiles = (s.cluster a.cluster).kennel.tiles.filter (fun q => !a.ages.contains q.tile.age) ∧
      t.run? k.run = some x.fired := by
  intro t
  let event := s.commitEvent k a x
  let renewed := event.renewCopies event.wmax (a.marks.filter (fun m => outsideLine m.line))
  let fired := renewed.countFiring k.run
  have ht : t = (fired.freeSetsOf k a).dropAct k := by
    simp only [t, State.commitWith, State.releaseOutside, hmsgs, hruns, hout, hh, List.foldl_nil, Bool.false_eq_true, if_false]
    rfl
  obtain ⟨hbytes, heruns, heact, hetiles⟩ := State.commitEvent_result (k := k) x hh hring
  have hrenewed : event.WorkKept renewed := event.workKept_renewCopies ..
  have hrun : renewed.run? k.run = some x := by rw [State.run?_congr (hrenewed.runs.trans heruns), hx]
  obtain ⟨hfrun, hfmem, hflines, hfhub, hfclusters, hfthreads⟩ := State.countFiring_result hrun
  have howner : (fired.thread a.owner).act = some k := by
    rw [State.thread_congr hfthreads, hrenewed.act, heact, ho]
  obtain ⟨hleft, hact, hfree⟩ := State.leave_result hh howner
  rw [← ht] at hleft hact hfree
  refine ⟨fun p => ?_, hact, hfree, ?_, ?_⟩
  · rw [State.byteAt_congr (hleft.mem.trans (hfmem.trans hrenewed.mem)) (hleft.lines.trans (hflines.trans hrenewed.lines))
      (hleft.hub.trans (hfhub.trans hrenewed.hub)), hbytes]
  · rw [hleft.kennel, State.cluster_congr hfclusters, hrenewed.kennel, hetiles]
  · rw [State.run?_congr hleft.runs, hfrun]

/-! ## What a commit step comes to (R129, R131, R349) -/

theorem exec_commit (k : ActKey) (s : State) : exec (.commit k) s = execCommit k s := rfl

section
variable {s : State} {k : ActKey} {a : Act} {e : Ending} (ha : s.act? k = some a) (he : a.ending = some e)
include ha he

/-- A commit waits for its activation's asynchronous operations. -/
theorem exec_commit_busy (hb : s.actBusy k = true) : exec (.commit k) s = .next (s.postOnce (.commit k)) := by
  simp [exec_commit, execCommit, ha, he, hb]

variable (hb : s.actBusy k = false) (hp : a.partner = none) (hr : a.rolled = none)
include hb hp hr

theorem exec_commit_done (hd : e = .done) : exec (.commit k) s = s.commitAct k a := by
  subst hd
  simp [exec_commit, execCommit, ha, he, hb, hp, hr]

theorem exec_commit_discard (hd : e = .abort ∨ e = .reject) : exec (.commit k) s = .next (s.discard k a (decide (e = .reject))) := by
  rcases hd with rfl | rfl
  · simp [exec_commit, execCommit, ha, he, hb, hp, hr]
  · simp [exec_commit, execCommit, ha, he, hb, hp, hr]

end

theorem Act.any_homeDown_false {s : State} {a : Act} {x : Run} (hd : ∀ l ∈ a.lines, s.homeDown x.vf (256 * l) = false) :
    a.lines.any (fun l => s.homeDown x.vf (256 * l)) = false :=
  List.any_eq_false.2 (fun l hl => by simp [hd l hl])

section
variable {s : State} {k : ActKey} {a : Act} {x : Run} (hpend : s.actPend k a = none) (hx : s.run? k.run = some x)
include hpend hx

/-- A line whose home is down (R206, R394; entry 72). -/
theorem State.commitAct_homeDown (hd : ∃ l ∈ a.lines, s.homeDown x.vf (256 * l) = true) :
    s.commitAct k a = { s with freeIdx := s.freeIdx + 1 }.endTrap k a 0x0B (Config.freeWord s.freeIdx) := by
  have hany : a.lines.any (fun l => s.homeDown x.vf (256 * l)) = true := List.any_eq_true.2 hd
  simp only [State.commitAct, hpend, hx, hany, if_true]
  rfl

/-- A line that a relayout engine holds is waited for (R349). -/
theorem State.commitAct_held (hd : ∀ l ∈ a.lines, s.homeDown x.vf (256 * l) = false) (hl : ∃ l ∈ a.lines, s.lineHeld l = true) :
    s.commitAct k a = .next (s.postOnce (.commit k)) := by
  have hany : a.lines.any s.lineHeld = true := List.any_eq_true.2 hl
  simp only [State.commitAct, hpend, hx, Act.any_homeDown_false hd, Bool.false_eq_true, if_false, hany, if_true]

/-- With nothing to reserve, a commit whose lines are free commits. -/
theorem State.commitAct_commits (hprod : a.products = []) (hruns : a.runqs = [])
    (hd : ∀ l ∈ a.lines, s.homeDown x.vf (256 * l) = false ∧ s.lineHeld l = false) :
    s.commitAct k a = .next (s.commitWith k a x []) := by
  have hheld : a.lines.any s.lineHeld = false := List.any_eq_false.2 (fun l hl => by simp [(hd l hl).2])
  have hemit : a.emitted = [] := by simp [Act.emitted, hprod, sortWith]
  simp only [State.commitAct, hpend, hx, Act.any_homeDown_false (fun l hl => (hd l hl).1), hheld, hemit, hruns,
    State.reserveTiles, State.reserveRuns, Bool.false_eq_true, if_false]

end

end Sys2Proof.Machine

open Sys2Proof Sys2Proof.Machine

/-- Settles O47: a commit step waits, commits, traps or discards, as its ending and its lines say. -/
theorem commitResult : Obligations.CommitResult := by
  unfold Obligations.CommitResult
  refine ⟨fun k a e s ha he hb => exec_commit_busy ha he hb, ?_, ?_, ?_⟩
  · intro k a x s ha he hb hp hr hh hpend hx hprod hruns hout hmsgs hnodup ho hring hlines
    have hexec := (exec_commit_done ha he hb hp hr rfl).trans (State.commitAct_commits hpend hx hprod hruns hlines)
    obtain ⟨hbytes, hact, ⟨hnone, hidle⟩, htiles, hrun⟩ := State.commitWith_result hh ho hx hruns hout hmsgs hring
    refine ⟨_, x.fired, hexec, fun c hc => ?_, fun p hne => ?_, hact, hnone, hidle, htiles, hrun, rfl, Run.stop_fired⟩
    · rw [hbytes, lastOf_of_mem hnodup hc]
    · rw [hbytes, lastOf_of_forall_ne hne]
  · intro k a x s ha he hb hp hr hpend hx
    have hexec := exec_commit_done ha he hb hp hr rfl
    exact ⟨fun hd => hexec.trans (State.commitAct_homeDown hpend hx hd),
      fun hd hl => hexec.trans (State.commitAct_held hpend hx hd hl)⟩
  · intro k a e s ha he hd hb hp hr hh ho
    obtain ⟨hbytes, hact, ⟨hnone, hidle⟩, hkennel, hdue⟩ := State.discard_result (decide (e = .reject)) hh ho
    refine ⟨_, exec_commit_discard ha he hb hp hr hd, hbytes, hact, hnone, hidle, ?_, ?_, ?_, hdue⟩
    · rw [hkennel, Kennel.tiles_discarded]
    · rintro rfl hcur d hmem hcand
      rw [hkennel, hcur] at hmem
      exact Kennel.cands_discarded_marked hmem hcand
    · intro hnot
      have hmark : (decide (e = .reject) && s.current k a) = false := by
        rcases hnot with rfl | hcur
        · rfl
        · rw [hcur, Bool.and_false]
      rw [hkennel, hmark, Kennel.cands_discarded_unmarked]
end

section
/-! The state right after reset: what reading a unit that is not listed gives. -/
namespace Sys2Proof.Machine

theorem State.thread_reset (t : TsId) : State.reset.thread t = if isFirmware t then Thread.firmware else Thread.reset := rfl
theorem State.core_reset (c k : Nat) : State.reset.core c k = CoreUnit.reset := rfl
theorem State.cluster_reset (c : Nat) : State.reset.cluster c = Cluster.reset := rfl
theorem State.fn_reset (f : Nat) : State.reset.fn f = Fn.reset := rfl

/-- With its tables disabled a function has no page (R373). -/
theorem State.walk_disabled {s : State} {f : Nat} (h : Word.bit (s.fn f).ptroot 0 = false) (va : Nat) : s.walk f va = .absent := by
  simp [State.walk, h]

end Sys2Proof.Machine

open Sys2Proof Sys2Proof.Machine

/-- Settles O60: every unit reads as its reset value; a thread set's depends on whether it is a firmware core. -/
theorem resetState : Obligations.ResetState := by
  unfold Obligations.ResetState
  refine ⟨reset_mem_wf, fun t => ?_, fun c k => ?_, fun c => ?_, fun f => ?_, rfl, rfl, ?_, rfl, rfl, rfl, rfl⟩
  · rw [State.thread_reset]
    cases isFirmware t <;> decide
  · rw [State.core_reset]
    exact ⟨rfl, rfl⟩
  · rw [State.cluster_reset]
    rfl
  · have hwalk (va : Nat) : State.reset.walk f va = .absent := State.walk_disabled (by rw [State.fn_reset]; decide) va
    rw [State.fn_reset]
    exact ⟨rfl, rfl, rfl, rfl, rfl, rfl, by decide, hwalk⟩
  · decide
end

section
/-! What a read at a home does (R184, R185): its line takes a way, for which another may be written back, and that touches
device memory, the slices and the SATW bits of format windows, and nothing else. -/
namespace Sys2Proof.Machine

/-- A state with other device memory, slices and format windows. -/
def State.resliced (s : State) (m : ByteMap) (l : NMap SliceLine) (w : NMap Word) : State :=
  { s with mem := m, lines := l, hub := { s.hub with fwin := w } }

/-- The second state differs from the first in device memory, the slices and format windows at most. -/
def State.Reslices (s t : State) : Prop := ∃ m l w, t = s.resliced m l w

theorem State.Reslices.refl (s : State) : s.Reslices s := ⟨s.mem, s.lines, s.hub.fwin, rfl⟩

theorem State.Reslices.trans {s t u : State} (h : s.Reslices t) (g : t.Reslices u) : s.Reslices u := by
  obtain ⟨m, l, w, rfl⟩ := h
  obtain ⟨m', l', w', rfl⟩ := g
  exact ⟨m', l', w', rfl⟩

theorem State.reslices_foldl {α : Type} {f : State → α → State} (hf : ∀ (s : State) (a : α), s.Reslices (f s a)) (s : State) (l : List α) :
    s.Reslices (l.foldl f s) :=
  List.foldlRecOn (motive := fun t => s.Reslices t) _ _ (.refl s) (fun t h a _ => h.trans (hf t a))

theorem State.reslices_mem (s : State) (m : ByteMap) : s.Reslices { s with mem := m } := ⟨m, s.lines, s.hub.fwin, rfl⟩

theorem State.reslices_lines (s : State) (l : NMap SliceLine) : s.Reslices { s with lines := l } := ⟨s.mem, l, s.hub.fwin, rfl⟩

theorem State.reslices_putSector (s : State) (pa : Nat) (c : Sector) : s.Reslices (s.putSector pa c) := by
  unfold State.putSector
  split
  · exact .refl s
  · exact s.reslices_mem _

theorem State.reslices_setSatw (s : State) (k n : Nat) : s.Reslices (s.setSatw k n) := ⟨s.mem, s.lines, _, rfl⟩

theorem State.reslices_encodeSector (s : State) (n : Nat) (f : FWindow) (pa : Nat) (bs : List Byte) :
    s.Reslices (s.encodeSector n f pa bs) := by
  have hsat (c : Bool) (m : ByteMap) : s.Reslices (if c then ({ s with mem := m } : State).setSatw (stackOf pa) n else { s with mem := m }) := by
    cases c
    · exact s.reslices_mem m
    · exact (s.reslices_mem m).trans (State.reslices_setSatw ..)
  unfold State.encodeSector
  dsimp only
  split
  · exact s.reslices_mem _
  · split
    · exact hsat _ _
    · exact hsat _ _

theorem State.reslices_putLine (s : State) (line : Nat) (l : SliceLine) : s.Reslices (s.putLine line l) := by
  unfold State.putLine
  split
  · exact State.reslices_foldl (fun t k => t.reslices_putSector ..) s _
  · split
    · exact State.reslices_foldl (fun t k => t.reslices_encodeSector ..) s _
    · exact .refl s

theorem State.reslices_writeBack (s : State) (line : Nat) : s.Reslices (s.writeBack line) := by
  unfold State.writeBack
  split
  · exact .refl s
  · exact (s.reslices_putLine ..).trans (State.reslices_lines ..)

theorem State.reslices_room {s t : State} {vf pa : Nat} (h : s.room vf pa = some t) : s.Reslices t := by
  unfold State.room at h
  dsimp only at h
  split at h
  · exact Option.some.inj h ▸ .refl s
  · split at h
    · exact Option.some.inj h ▸ .refl s
    · obtain ⟨l, -, rfl⟩ := Option.map_eq_some_iff.1 h
      exact s.reslices_writeBack _

theorem State.reslices_pull {s t : State} {vf pa n : Nat} {ev : Bool} (h : s.pull vf pa n ev = some t) : s.Reslices t := by
  obtain ⟨u, hu, rfl⟩ := Option.map_eq_some_iff.1 h
  exact (State.reslices_room hu).trans (State.reslices_lines ..)

theorem State.reslices_pullPlace {s t : State} {q : Place} {vf pa n : Nat} {ev : Bool} (h : s.pullPlace q vf pa n ev = some t) :
    s.Reslices t := by
  cases q with
  | dram => exact State.reslices_pull h
  | host => exact Option.some.inj h ▸ .refl s
  | peer => exact Option.some.inj h ▸ .refl s

/-- When a read changes no byte of device memory, all memory reads as before. -/
theorem State.Reslices.sameMemory {s t : State} (h : s.Reslices t) (hb : ∀ a, t.byteAt a = s.byteAt a) : s.SameMemory t .nowhere 0 := by
  obtain ⟨m, l, w, rfl⟩ := h
  exact ⟨fun a _ => hb a, fun c k a _ => rfl, fun f a _ _ => rfl, fun q a _ => by cases q <;> rfl⟩

theorem State.SameMemory.trans {s t u : State} (h : s.SameMemory t .nowhere 0) (g : t.SameMemory u .nowhere 0) :
    s.SameMemory u .nowhere 0 := by
  have hn : ∀ a off, StoreSite.nowhere = .sram off → a < off ∨ off + 0 ≤ a := fun a off _ => by omega
  exact ⟨fun a _ => (g.device a nofun).trans (h.device a nofun),
    fun c k a _ => (g.scratch c k a nofun).trans (h.scratch c k a nofun),
    fun f a _ _ => (g.sram f a (fun off e _ => hn a off e) nofun).trans (h.sram f a (fun off e _ => hn a off e) nofun),
    fun q a _ => (g.remote q a nofun).trans (h.remote q a nofun)⟩

/-! ## Fetches (R51, R68) -/

/-- A fetch whose checks pass reads its word, and leaves the slices as its read does. -/
theorem fetchM_ok {s t : State} {va w : Word} (h : s.FetchesAt va w t) : fetchM va s = .ok (w, t) := by
  obtain ⟨pa, q, hl, hd, hpull, rfl⟩ := h
  obtain ⟨e, he, -, -, hperm, hpa⟩ := hl.page
  have hfw : s.inFirmware = false := hl.onCluster
  have hspace : (decide (2 ^ 49 ≤ va.toNat) || inScratch va.toNat) = false := by simpa [hl.global] using hl.space
  have haligned : (va.toNat % 8 != 0) = false := by simp [hl.aligned]
  have htr : translateM .x .fetch va s = .ok (pa, s) := hpa ▸ translateM_hit hl.unrefused he hperm
  have hup : (q == .dram && s.homeDown (s.vfOf s.cur) pa) = false := by
    by_cases hq : q = .dram <;> simp [hq, hl.up]
  have hpoison : (q == .dram && s.poisonAt pa 8) = false := by
    by_cases hq : q = .dram
    · simp [(hd hq).1]
    · simp [hq]
  have hheld : (q == .dram && s.lineHeld (pa / 256)) = false := by
    by_cases hq : q = .dram
    · simp [(hd hq).2]
    · simp [hq]
  simp only [fetchM, fetchHomeM, M.bind_run, readS_run, id_eq, hfw, Bool.false_eq_true, if_false, hspace, haligned, trapIf_false, htr,
    hl.place, hup, hpoison, hheld, holdIf_false, hpull, updS_run, M.pure_run]

theorem State.FetchesAt.reslices {s t : State} {va w : Word} (h : s.FetchesAt va w t) : s.Reslices t := by
  obtain ⟨pa, q, -, -, hpull, -⟩ := h
  exact State.reslices_pullPlace hpull

end Sys2Proof.Machine
end

section
/-! `fork` and `join` (R41 to R43, R137, R138): the registers that a subrange begins with, what the helpers of a region get, and
each of join's three cases. -/
namespace Sys2Proof.Machine

/-! ## Bounds (R41) -/

section
variable (t : Thread) (r : ForkRegion) (i : Nat)

@[simp] theorem Thread.bounds_v : (t.bounds r i).v = t.v := by simp [Thread.bounds]
@[simp] theorem Thread.bounds_p : (t.bounds r i).p = t.p := by simp [Thread.bounds]
@[simp] theorem Thread.bounds_h : (t.bounds r i).h = t.h := by simp [Thread.bounds]
@[simp] theorem Thread.bounds_pc : (t.bounds r i).pc = r.forkPc + 8 := rfl
@[simp] theorem Thread.bounds_status : (t.bounds r i).status = t.status := by simp [Thread.bounds]
@[simp] theorem Thread.bounds_ctx : (t.bounds r i).ctx = t.ctx := by simp [Thread.bounds]
@[simp] theorem Thread.bounds_act : (t.bounds r i).act = t.act := by simp [Thread.bounds]
@[simp] theorem Thread.bounds_fpmode : (t.bounds r i).fpmode = t.fpmode := by simp [Thread.bounds]
@[simp] theorem Thread.bounds_tpc : (t.bounds r i).tpc = t.tpc := by simp [Thread.bounds]
@[simp] theorem Thread.bounds_tcause : (t.bounds r i).tcause = t.tcause := by simp [Thread.bounds]
@[simp] theorem Thread.bounds_tval : (t.bounds r i).tval = t.tval := by simp [Thread.bounds]
@[simp] theorem Thread.bounds_mode : (t.bounds r i).mode = t.mode := by simp [Thread.bounds]

/-- The bounds stand in register d, which is not x0, and the one after it; the other registers stay. -/
theorem Thread.getX_bounds (h0 : r.d ≠ 0) (h1 : r.d ≠ 31) :
    (t.bounds r i).getX r.d = BitVec.ofNat 64 (r.lo i) ∧ (t.bounds r i).getX (r.d + 1) = BitVec.ofNat 64 (r.hi i) ∧
      ∀ q, q ≠ r.d → q ≠ r.d + 1 → (t.bounds r i).getX q = t.getX q := by
  have hnext : r.d + 1 ≠ 0 := by bv_omega
  have hne : r.d ≠ r.d + 1 := by bv_omega
  have hx (q : XReg) : (t.bounds r i).getX q =
      ((t.setX r.d (BitVec.ofNat 64 (r.lo i))).setX (r.d + 1) (BitVec.ofNat 64 (r.hi i))).getX q := Thread.getX_congr rfl q
  refine ⟨?_, ?_, fun q hq hq' => ?_⟩
  · rw [hx, Thread.getX_setX_ne _ _ _ _ hne, Thread.getX_setX_same _ _ _ h0]
  · rw [hx, Thread.getX_setX_same _ _ _ hnext]
  · rw [hx, Thread.getX_setX_ne _ _ _ _ hq', Thread.getX_setX_ne _ _ _ _ hq]

end

/-- x registers of a thread set depend on its bank alone, also after a write. -/
theorem Thread.x_setX_congr {t u : Thread} (h : u.x = t.x) (r : XReg) (w : Word) : (u.setX r w).x = (t.setX r w).x := by
  unfold Thread.setX
  split
  · exact h
  · simp only [h]

theorem Thread.x_bounds_congr {t u : Thread} (h : u.x = t.x) (r : ForkRegion) (i : Nat) :
    (u.bounds r i).x = ((t.setX r.d (BitVec.ofNat 64 (r.lo i))).setX (r.d + 1) (BitVec.ofNat 64 (r.hi i))).x :=
  Thread.x_setX_congr (Thread.x_setX_congr h _ _) _ _

/-! ## Helpers (R42, R43, R138) -/

/-- The thread set that a recruited one becomes for a subrange: it keeps its own logical time, if later. -/
def Thread.helper (th : Thread) (k : ActKey) (r : ForkRegion) (me : Thread) (chain : Chain) (i : Nat) : Thread :=
  (({ th with fpflags := me.fpflags, spillsp := r.spillbase, arb := me.arb, actid := me.actid, act := some k, ctx := .helper,
              status := .ready, wait := none, refused := none, rep := none, pend := [], chain := chain, msg := none,
              nextCopy := 1, copies := [], ltime := max th.ltime me.ltime } : Thread).forkState r).bounds r i

theorem State.startHelper_eq (s : State) (k : ActKey) (r : ForkRegion) (me : Thread) (t : TsId) (i : Nat) :
    s.startHelper k r me t i =
      ((if (s.heldChain k t).isSome then s.updCluster t.cluster (fun u => { u with array := { u.array with orphan := none } }) else s).updThread
        t (fun th => th.helper k r me ((s.heldChain k t).getD Chain.closed) i)).raise t me.fpflags := rfl

theorem State.threads_startHelper (s : State) (k : ActKey) (r : ForkRegion) (me : Thread) (t : TsId) (i : Nat) :
    (s.startHelper k r me t i).threads =
      (s.updThread t (fun th => th.helper k r me ((s.heldChain k t).getD Chain.closed) i)).threads := by
  rw [State.startHelper_eq, State.raise_threads]
  split <;> rfl

/-- The start of a helper leaves memory, the activations and the issuing thread set's name alone. -/
theorem State.startHelper_keeps (s : State) (k : ActKey) (r : ForkRegion) (me : Thread) (t : TsId) (i : Nat) :
    s.MemoryKept (s.startHelper k r me t i) ∧ (s.startHelper k r me t i).acts = s.acts ∧ (s.startHelper k r me t i).cur = s.cur := by
  rw [State.startHelper_eq]
  refine ⟨⟨?_, ?_, ?_, ?_, ?_⟩, ?_, ?_⟩ <;> split <;> simp

/-- The helpers of a region, each with the number of its subrange, start one after the other. -/
def State.startHelpers (s : State) (k : ActKey) (r : ForkRegion) (me : Thread) (l : List (TsId × Nat)) : State :=
  l.foldl (fun s h => s.startHelper k r me h.1 (h.2 + 1)) s

theorem State.startHelpers_keeps (s : State) (k : ActKey) (r : ForkRegion) (me : Thread) (l : List (TsId × Nat)) :
    s.MemoryKept (s.startHelpers k r me l) ∧ (s.startHelpers k r me l).acts = s.acts ∧ (s.startHelpers k r me l).cur = s.cur := by
  induction l generalizing s with
  | nil => exact ⟨⟨rfl, rfl, rfl, rfl, rfl⟩, rfl, rfl⟩
  | cons h l ih =>
    obtain ⟨hm, ha, hc⟩ := s.startHelper_keeps k r me h.1 (h.2 + 1)
    obtain ⟨hm', ha', hc'⟩ := ih (s.startHelper k r me h.1 (h.2 + 1))
    exact ⟨hm.trans hm', ha'.trans ha, hc'.trans hc⟩

/-- A thread set that is not among the helpers goes on as it did. -/
theorem State.thread_startHelpers_ne {s : State} {k : ActKey} {r : ForkRegion} {me : Thread} {l : List (TsId × Nat)} {u : TsId}
    (h : ∀ e ∈ l, TsId.key u ≠ TsId.key e.1) : (s.startHelpers k r me l).thread u = s.thread u := by
  induction l generalizing s with
  | nil => rfl
  | cons e l ih =>
    obtain ⟨he, hl⟩ := List.forall_mem_cons.1 h
    refine (ih hl).trans ?_
    rw [State.thread_congr (State.threads_startHelper ..), State.thread_updThread_ne _ _ _ _ he]

/-- A thread set that works on a subrange of a region. -/
def Thread.Helps (t : Thread) (k : ActKey) (r : ForkRegion) (me : Thread) (i : Nat) : Prop :=
  ∃ (th : Thread) (chain : Chain), t = th.helper k r me chain i

theorem State.helps_startHelper {s : State} {k : ActKey} {r : ForkRegion} {me : Thread} {t u : TsId} {i : Nat}
    (h : TsId.key u = TsId.key t) : ((s.startHelper k r me t i).thread u).Helps k r me i := by
  rw [State.thread_congr (State.threads_startHelper ..), State.thread, NMap.get, h, State.find?_threads_updThread]
  exact ⟨_, _, rfl⟩

/-- Every helper works on some subrange. -/
theorem State.helps_startHelpers {k : ActKey} {r : ForkRegion} {me : Thread} {u : TsId} (l : List (TsId × Nat)) (s : State)
    (h : u ∈ l.map Prod.fst ∨ ∃ i, (s.thread u).Helps k r me i) : ∃ i, ((s.startHelpers k r me l).thread u).Helps k r me i := by
  induction l generalizing s with
  | nil => exact h.resolve_left List.not_mem_nil
  | cons e l ih =>
    refine ih (s.startHelper k r me e.1 (e.2 + 1)) ?_
    by_cases hk : TsId.key u = TsId.key e.1
    · exact .inr ⟨_, State.helps_startHelper hk⟩
    · rcases h with h | h
      · exact .inl ((List.mem_cons.1 h).resolve_left (fun he => hk (he ▸ rfl)))
      · rw [State.thread_congr (State.threads_startHelper ..), State.thread_updThread_ne _ _ _ _ hk]
        exact .inr h

/-- Where the helpers are distinct, each works on its own subrange. -/
theorem State.helps_startHelpers_nodup {k : ActKey} {r : ForkRegion} {me : Thread} {u : TsId} {i : Nat} {l : List (TsId × Nat)} {s : State}
    (hn : (l.map (fun e => TsId.key e.1)).Nodup) (h : (u, i) ∈ l) : ((s.startHelpers k r me l).thread u).Helps k r me (i + 1) := by
  induction l generalizing s with
  | nil => exact absurd h List.not_mem_nil
  | cons e l ih =>
    obtain ⟨hnew, hn⟩ := List.nodup_cons.1 hn
    rcases List.mem_cons.1 h with rfl | h
    · have hrest : ∀ e ∈ l, TsId.key u ≠ TsId.key e.1 := fun e he hk => hnew (List.mem_map.2 ⟨e, he, hk.symm⟩)
      rw [State.startHelpers, List.foldl_cons, ← State.startHelpers, State.thread_startHelpers_ne hrest]
      exact State.helps_startHelper rfl
    · exact ih hn h

/-- What a helper starts with: the forking set's registers and trap state, and the bounds of its subrange (R43, R138). -/
theorem Thread.Helps.registers {t me : Thread} {k : ActKey} {r : ForkRegion} {i : Nat} (h : t.Helps k r me i) :
    t.act = some k ∧ t.ctx = .helper ∧ t.status = .ready ∧ t.pc = r.forkPc + 8 ∧ t.v = r.v ∧ t.p = r.p ∧ t.h = r.h ∧
      t.fpmode = r.fpmode ∧ t.tpc = r.tpc ∧ t.tcause = r.tcause ∧ t.tval = r.tval ∧ t.mode = r.mode := by
  obtain ⟨th, chain, rfl⟩ := h
  simp [Thread.helper, Thread.forkState, Thread.forkRegs]

theorem Thread.Helps.getX {t me : Thread} {k : ActKey} {r : ForkRegion} {i : Nat} (h : t.Helps k r me i) (hx : r.x = me.x)
    (h0 : r.d ≠ 0) (h1 : r.d ≠ 31) :
    t.getX r.d = BitVec.ofNat 64 (r.lo i) ∧ t.getX (r.d + 1) = BitVec.ofNat 64 (r.hi i) ∧
      ∀ q, q ≠ r.d → q ≠ r.d + 1 → t.getX q = me.getX q := by
  obtain ⟨th, chain, rfl⟩ := h
  obtain ⟨hlo, hhi, hrest⟩ := Thread.getX_bounds _ r i h0 h1
  exact ⟨hlo, hhi, fun q hq hq' => (hrest q hq hq').trans (Thread.getX_congr hx q)⟩

/-! ## Recruiting (R42) -/

/-- Thread sets of one key have one status. -/
theorem State.status_eq_of_key {s : State} {t u : TsId} (h : TsId.key t = TsId.key u) : (s.thread t).status = (s.thread u).status := by
  simp only [State.thread, NMap.get, h]
  cases NMap.find? s.threads (TsId.key u) with
  | some th => rfl
  | none => cases isFirmware t <;> cases isFirmware u <;> rfl

/-- Only idle thread sets are recruited. -/
theorem State.idle_of_mem_recruit {s : State} {r c want : Nat} {x : Run} {b : Bool} {t : TsId} (h : t ∈ s.recruit r x c want b) :
    (s.thread t).status = .idle := by
  unfold State.recruit at h
  split at h
  · exact absurd h List.not_mem_nil
  · obtain ⟨d, -, hd⟩ := List.mem_flatMap.1 (List.mem_of_mem_take h)
    obtain ⟨i, -, hi⟩ := List.mem_filterMap.1 hd
    dsimp only at hi
    split at hi
    · next hfree => exact Option.some.inj hi ▸ hfree.2.1
    · exact nomatch hi

/-! ## `fork` -/


/-- The context that every reaction word asks for: an activation or a helper of one (R126). -/
theorem State.InBody.reactM {s : State} {k : ActKey} {a : Act} (h : s.InBody k a) : reactM false s = .ok ((k, a), s) := by
  have hfw : s.inFirmware = false := h.onCluster
  have hctx : (!s.inFirmware && s.me.ctx != .gang && (s.me.ctx != .hand || false)) = true := by
    rw [hfw]
    rcases h.context with hc | hc <;> rw [hc] <;> rfl
  have hact : s.myAct? = some a := by rw [State.myAct?, h.key, Option.bind_some, h.record]
  simp only [Machine.reactM, M.bind_run, readS_run, id_eq, hctx, privUnless_true, h.key, hact, M.pure_run]

/-- The state in which a region opens, with the helpers given. -/
def State.openFork (s : State) (k : ActKey) (g : ForkRegion) (helpers : List TsId) : State :=
  ((s.updAct k (fun a => { a with fork := some g, phase := a.phase + 1 })).startHelpers k g s.me
    (helpers.zip (upTo helpers.length))).updMe (fun t => ({ t with count := t.count + 1, wait := none } : Thread).bounds g 0)

section
variable {d x y : XReg} {e : BitVec 20} {s u : State} {k : ActKey} {a : Act} (hb : s.InBody k a) (hctx : s.me.ctx = .act)
  (hfork : a.fork = none) (hregs : s.readable [x, y]) (hf : s.FetchesAt (s.me.pc + 8 * e.setWidth 64) joinWord u)
include hb hctx hfork hregs hf

/-- A region without a trip goes on after its `join`. -/
theorem exec_fork_empty (h0 : s.me.getX x = 0) (hgoto : (s.me.pc + 8 * e.setWidth 64 + 8).toNat < 2 ^ 49) :
    exec (.fork d x y e) s = .next (u.updMe (·.goto (s.me.pc + 8 * e.setWidth 64 + 8))) := by
  obtain ⟨m, l, w, rfl⟩ := hf.reslices
  have hx : xM x (s.resliced m l w) = .ok (s.me.getX x, s.resliced m l w) := xM_ok (State.readable_head hregs)
  have hy : xM y (s.resliced m l w) = .ok (s.me.getX y, s.resliced m l w) := xM_ok (State.readable_head (State.readable_tail hregs))
  refine outcome_ok ?_
  simp only [M.bind_run, hb.reactM, readS_run, hctx, hfork, beq_self_eq_true, Option.isNone_none, Bool.and_self, privUnless_true,
    fetchM_ok hf, bne_self_eq_false, trapIf_false, hx, hy, h0, if_true, gotoM_ok hgoto]

/-- Otherwise a region of at most 64 subranges opens. -/
theorem exec_fork_opens {r : Nat} {run : Run} (hr : s.me.run = some r) (hrun : s.run? r = some run) (h0 : s.me.getX x ≠ 0) :
    let trips := (s.me.getX x).toNat
    let chunk := if s.me.getX y = 0 then trips else (s.me.getX y).toNat
    let n := min 64 (ceilDiv trips chunk)
    let helpers := u.recruit r run s.cur.cluster (n - 1) a.partner.isSome
    exec (.fork d x y e) s = .next (u.openFork k (ForkRegion.open_ s.me d trips chunk n (s.me.pc + 8 * e.setWidth 64) helpers)
      helpers) := by
  obtain ⟨m, l, w, rfl⟩ := hf.reslices
  have hx : xM x (s.resliced m l w) = .ok (s.me.getX x, s.resliced m l w) := xM_ok (State.readable_head hregs)
  have hy : xM y (s.resliced m l w) = .ok (s.me.getX y, s.resliced m l w) := xM_ok (State.readable_head (State.readable_tail hregs))
  have hme : (s.resliced m l w).me.run = some r := hr
  have hmyrun : (s.resliced m l w).myRun? = some run := by rw [State.myRun?, hme]; exact hrun
  refine outcome_ok ?_
  simp only [M.bind_run, hb.reactM, readS_run, hctx, hfork, beq_self_eq_true, Option.isNone_none, Bool.and_self, privUnless_true,
    fetchM_ok hf, bne_self_eq_false, trapIf_false, hx, hy, h0, if_false, id_eq, hme, hmyrun, updS_run,
    apply_ite BitVec.toNat]
  rfl

end

/-- What an open region comes to: its record in the activation, its helpers, and the forking set, which runs subrange 0. -/
theorem State.openFork_result {s : State} {k : ActKey} {a : Act} {g : ForkRegion} {helpers : List TsId} (ha : s.act? k = some a)
    (hready : s.me.status = .ready) (hidle : ∀ h ∈ helpers, (s.thread h).status = .idle) :
    let t := s.openFork k g helpers
    t.act? k = some { a with fork := some g, phase := a.phase + 1 } ∧ s.MemoryKept t ∧
      (∀ h ∈ helpers, ∃ i, (t.thread h).Helps k g s.me i) ∧
      ((helpers.map TsId.key).Nodup → ∀ i (h : i < helpers.length), (t.thread helpers[i]).Helps k g s.me (i + 1)) ∧
      t.me = ({ s.me with count := s.me.count + 1, wait := none } : Thread).bounds g 0 := by
  intro t
  let opened := s.setAct k { a with fork := some g, phase := a.phase + 1 }
  let l := helpers.zip (upTo helpers.length)
  let started := opened.startHelpers k g s.me l
  have hfst : l.map Prod.fst = helpers := List.map_fst_zip (by simp [upTo])
  have hopen : s.updAct k (fun a => { a with fork := some g, phase := a.phase + 1 }) = opened := by
    simp only [State.updAct, ha]
    rfl
  have ht : t = started.updMe (fun t => ({ t with count := t.count + 1, wait := none } : Thread).bounds g 0) := by
    simp only [t, State.openFork, hopen]
    rfl
  obtain ⟨hmem, hacts, hcur⟩ := opened.startHelpers_keeps k g s.me l
  have hother : ∀ h ∈ helpers, TsId.key h ≠ TsId.key s.cur := fun h hh hk => by
    have heq := (State.status_eq_of_key hk).symm.trans (hidle h hh)
    rw [← State.me, hready] at heq
    exact nomatch heq
  have hme : started.me = s.me := by
    rw [State.me, hcur]
    exact State.thread_startHelpers_ne (s := opened) (fun e he => (hother e.1 (hfst ▸ List.mem_map_of_mem he)).symm)
  have hthread : ∀ h ∈ helpers, t.thread h = started.thread h := fun h hh => by
    rw [ht]
    exact State.thread_updMe_ne _ _ _ (hcur ▸ hother h hh)
  refine ⟨?_, ?_, fun h hh => ?_, fun hn i hi => ?_, ?_⟩
  · rw [ht]
    exact (State.act?_congr hacts k).trans (State.act?_setAct_same ..)
  · rw [ht]
    exact ((s.memoryKept_setAct ..).trans hmem).trans (State.memoryKept_updThread ..)
  · rw [hthread h hh]
    exact State.helps_startHelpers l opened (.inl (hfst ▸ hh))
  · rw [hthread _ (List.getElem_mem hi)]
    have hl : l.map (fun e => TsId.key e.1) = helpers.map TsId.key := by rw [← hfst, List.map_map]; rfl
    refine State.helps_startHelpers_nodup (hl ▸ hn) (List.mem_iff_getElem.2 ⟨i, by simpa [l, upTo] using hi, ?_⟩)
    simp [l, upTo]
  · rw [ht, State.me_updMe, hme]

/-! ## `join` -/

/-- A region that one more of its sets has passed. -/
def ForkRegion.passed (g : ForkRegion) (me : Thread) : ForkRegion :=
  { g with fin := g.fin + 1, flags := g.flags ||| me.fpflags, time := max g.time me.ltime }

/-- The set takes the next subrange that waits. -/
def State.joinTakes (s : State) (k : ActKey) (g : ForkRegion) (i : Nat) (rest : List Nat) : State :=
  ((s.passPend k).updAct k (fun a => { a with fork := some { g with waiting := rest } })).updMe (fun t =>
    ({ t.forkRegs g with spillsp := t.spillbase, count := t.count + 1, wait := none } : Thread).bounds g i)

/-- The last set closes the region: its activation goes on with it, after `join`. -/
def State.joinCloses (s : State) (k : ActKey) (g : ForkRegion) : State :=
  (((s.passPend k).updAct k (fun a => { a with fork := none, phase := a.phase + 1, owner := s.cur })).raise s.cur
    (g.flags &&& ~~~s.me.fpflags)).updMe (fun t =>
      { t.forkState g with spillsp := g.spillsp, fpflags := g.flags, ctx := .act, sub := 0, pc := g.joinPc + 8, count := t.count + 1,
                           wait := none, ltime := max t.ltime g.time })

/-- Another set is free. -/
def State.joinLeaves (s : State) (k : ActKey) (g : ForkRegion) : State :=
  (((s.passPend k).updAct k (fun a => { a with fork := some { g with helpers := g.helpers.filter (· != s.cur) } })).leaveChain
    s.cur).freeThread s.cur

/-- The failures that a set has pending pass to its activation. -/
theorem State.passPend_result {s : State} {k : ActKey} {a : Act} (ha : s.act? k = some a) :
    ∃ p, (s.passPend k).act? k = some { a with pend := p } ∧ s.MemoryKept (s.passPend k) ∧ (s.passPend k).cur = s.cur ∧
      (s.passPend k).me = { s.me with pend := [], joinAt := s.order } := by
  have heq : s.passPend k = (s.setAct k { a with pend := a.pend ++ s.me.pend }).updMe (fun t => { t with pend := [], joinAt := s.order }) := by
    simp only [State.passPend, State.updAct, ha]
  rw [heq]
  exact ⟨_, State.act?_setAct_same .., (s.memoryKept_setAct ..).trans (State.memoryKept_updThread ..), rfl, State.me_updMe ..⟩

section
variable {s : State} {k : ActKey} {a : Act} {g : ForkRegion} (hb : s.InBody k a) (hg : a.fork = some g)
include hb hg

theorem exec_join_takes {i : Nat} {rest : List Nat} (hw : g.waiting = i :: rest) :
    exec .join s = .next (s.joinTakes k (g.passed s.me) i rest) := by
  refine outcome_ok ?_
  simp only [M.bind_run, hb.reactM, hg, readS_run, updS_run, hw, State.joinTakes, ForkRegion.passed]

theorem exec_join_closes (hw : g.waiting = []) (hn : g.fin + 1 = g.n) : exec .join s = .next (s.joinCloses k (g.passed s.me)) := by
  obtain ⟨p, -, -, hcur, -⟩ := State.passPend_result hb.record
  refine outcome_ok ?_
  simp only [M.bind_run, hb.reactM, hg, readS_run, updS_run, hw, hn, if_true, hcur, State.joinCloses, ForkRegion.passed]

theorem exec_join_leaves (hw : g.waiting = []) (hn : g.fin + 1 ≠ g.n) : exec .join s = .next (s.joinLeaves k (g.passed s.me)) := by
  obtain ⟨p, -, -, hcur, -⟩ := State.passPend_result hb.record
  refine outcome_ok ?_
  simp only [M.bind_run, hb.reactM, hg, readS_run, updS_run, hw, hn, if_false, hcur, State.joinLeaves, ForkRegion.passed]

end

theorem State.updAct_eq {s : State} {k : ActKey} {a : Act} (h : s.act? k = some a) (f : Act → Act) : s.updAct k f = s.setAct k (f a) := by
  simp only [State.updAct, h]

theorem State.joinTakes_result {s : State} {k : ActKey} {a : Act} (g : ForkRegion) (i : Nat) (rest : List Nat) (ha : s.act? k = some a) :
    let t := s.joinTakes k g i rest
    (∃ p, t.act? k = some { a with fork := some { g with waiting := rest }, pend := p }) ∧ s.MemoryKept t ∧
      t.me.x = (((s.me.forkRegs g).setX g.d (BitVec.ofNat 64 (g.lo i))).setX (g.d + 1) (BitVec.ofNat 64 (g.hi i))).x ∧
      t.me.v = g.v ∧ t.me.p = g.p ∧ t.me.h = g.h ∧ t.me.pc = g.forkPc + 8 := by
  intro t
  obtain ⟨p, hp, hmem, -, -⟩ := State.passPend_result ha
  have ht : t = ((s.passPend k).setAct k { a with fork := some { g with waiting := rest }, pend := p }).updMe (fun t =>
      ({ t.forkRegs g with spillsp := t.spillbase, count := t.count + 1, wait := none } : Thread).bounds g i) := by
    simp only [t, State.joinTakes, State.updAct_eq hp]
  rw [ht, State.me_updMe]
  refine ⟨⟨p, State.act?_setAct_same ..⟩,
    (hmem.trans (State.memoryKept_setAct ..)).trans (State.memoryKept_updThread ..), ?_, ?_, ?_, ?_, rfl⟩
  · refine Thread.x_bounds_congr (t := s.me.forkRegs g) ?_ g i
    rfl
  all_goals simp [Thread.forkRegs]

theorem State.memoryKept_raise (s : State) (t : TsId) (f : Flags) : s.MemoryKept (s.raise t f) := by constructor <;> simp

theorem State.joinCloses_result {s : State} {k : ActKey} {a : Act} (g : ForkRegion) (ha : s.act? k = some a) :
    let t := s.joinCloses k g
    (∃ p, t.act? k = some { a with fork := none, phase := a.phase + 1, owner := s.cur, pend := p }) ∧ s.MemoryKept t ∧
      ∃ th : Thread, t.me = { th.forkState g with spillsp := g.spillsp, fpflags := g.flags, ctx := .act, sub := 0, pc := g.joinPc + 8,
                                                  count := th.count + 1, wait := none, ltime := max th.ltime g.time } := by
  intro t
  obtain ⟨p, hp, hmem, -, -⟩ := State.passPend_result ha
  let raised := ((s.passPend k).setAct k { a with fork := none, phase := a.phase + 1, owner := s.cur, pend := p }).raise s.cur
    (g.flags &&& ~~~s.me.fpflags)
  have ht : t = raised.updMe (fun t =>
      { t.forkState g with spillsp := g.spillsp, fpflags := g.flags, ctx := .act, sub := 0, pc := g.joinPc + 8, count := t.count + 1,
                           wait := none, ltime := max t.ltime g.time }) := by
    simp only [t, State.joinCloses, State.updAct_eq hp, raised]
  rw [ht, State.me_updMe]
  exact ⟨⟨p, (State.act?_congr (State.raise_acts ..) k).trans (State.act?_setAct_same ..)⟩,
    ((hmem.trans (State.memoryKept_setAct ..)).trans (State.memoryKept_raise ..)).trans (State.memoryKept_updThread ..), _, rfl⟩

theorem State.memoryKept_updCluster (s : State) (c : Nat) (f : Cluster → Cluster) : s.MemoryKept (s.updCluster c f) :=
  ⟨rfl, rfl, rfl, rfl, rfl⟩

theorem State.leaveChain_keeps (s : State) (t : TsId) :
    s.MemoryKept (s.leaveChain t) ∧ (s.leaveChain t).acts = s.acts ∧ (s.leaveChain t).cur = s.cur := by
  unfold State.leaveChain
  dsimp only
  split
  · exact ⟨s.memoryKept_updCluster .., rfl, rfl⟩
  · exact ⟨⟨rfl, rfl, rfl, rfl, rfl⟩, rfl, rfl⟩

/-- A set that becomes free makes a round of its cluster due (R13). -/
theorem State.freeThread_keeps (s : State) (t : TsId) :
    s.MemoryKept (s.freeThread t) ∧ (s.freeThread t).acts = s.acts ∧ (s.freeThread t).cur = s.cur ∧
      Instr.arbitrationRound t.cluster ∈ (s.freeThread t).pending :=
  ⟨((s.memoryKept_updThread ..).trans (State.memoryKept_updCluster ..)).trans (State.memoryKept_postOnce ..),
    State.postOnce_acts .., State.postOnce_cur .., State.mem_pending_postOnce ..⟩

theorem State.joinLeaves_result {s : State} {k : ActKey} {a : Act} (g : ForkRegion) (ha : s.act? k = some a) :
    let t := s.joinLeaves k g
    (∃ p hs, t.act? k = some { a with fork := some { g with helpers := hs }, pend := p }) ∧ s.MemoryKept t ∧ t.me.Free ∧
      Instr.arbitrationRound s.cur.cluster ∈ t.pending := by
  intro t
  obtain ⟨p, hp, hmem, hcur, -⟩ := State.passPend_result ha
  let hs := g.helpers.filter (· != s.cur)
  let changed := (s.passPend k).setAct k { a with fork := some { g with helpers := hs }, pend := p }
  have ht : t = (changed.leaveChain s.cur).freeThread s.cur := by
    simp only [t, State.joinLeaves, State.updAct_eq hp, changed, hs]
  obtain ⟨hmem', hacts, hcur'⟩ := changed.leaveChain_keeps s.cur
  obtain ⟨hmem'', hacts', hcur'', hdue⟩ := (changed.leaveChain s.cur).freeThread_keeps s.cur
  have hme : t.me = t.thread s.cur := by rw [State.me, ht, hcur'', hcur', ← hcur]; rfl
  rw [hme, ht]
  exact ⟨⟨p, hs, (State.act?_congr (hacts'.trans hacts) k).trans (State.act?_setAct_same ..)⟩,
    ((hmem.trans (State.memoryKept_setAct ..)).trans hmem').trans hmem'', State.freeThread_frees .., hdue⟩

end Sys2Proof.Machine

open Sys2Proof Sys2Proof.Machine

/-- Settles O43: `fork` in its two outcomes, then the three cases of `join`. -/
theorem forkJoinResult : Obligations.ForkJoinResult := by
  unfold Obligations.ForkJoinResult
  refine ⟨?_, ?_⟩
  · intro d x y e s u k a r run hb hctx hfork hregs hready hwf hr hrun joinPc trips chunk chunks n hf hbytes hgoto
    obtain ⟨hd0, hd31⟩ : d ≠ 0 ∧ d ≠ 31 := by
      simp only [Instr.wf, Bool.and_eq_true, bne_iff_ne] at hwf
      exact hwf.1
    refine ⟨fun h0 => exec_fork_empty hb hctx hfork hregs hf (BitVec.eq_of_toNat_eq h0) hgoto, ?_⟩
    intro h0 helpers
    have hslices := hf.reslices
    let g := ForkRegion.open_ s.me d trips chunk n joinPc helpers
    have hexec : exec (.fork d x y e) s = .next (u.openFork k g helpers) :=
      exec_fork_opens hb hctx hfork hregs hf hr hrun (fun h => h0 (by simp only [trips, h]; rfl))
    have hme : u.me = s.me := by obtain ⟨m, l, w, rfl⟩ := hslices; rfl
    have hact : u.act? k = some a := by obtain ⟨m, l, w, rfl⟩ := hslices; exact hb.record
    obtain ⟨hrec, hmem, hhelps, hown, hself⟩ := State.openFork_result (g := g) (helpers := helpers) hact (hme ▸ hready)
      (fun h hh => State.idle_of_mem_recruit hh)
    rw [hme] at hhelps hown hself
    obtain ⟨hlo, hhi, hrest⟩ := Thread.getX_bounds { s.me with count := s.me.count + 1, wait := none } g 0 hd0 hd31
    refine ⟨u.openFork k g helpers, _, g, hexec, hrec, rfl, rfl, rfl, rfl, rfl, rfl, rfl, rfl, rfl, rfl, rfl, rfl, rfl, rfl, rfl, rfl,
      rfl, rfl, rfl, fun h hh => ?_, fun hn i hi => ?_, ?_, ?_, ?_, ?_, ?_⟩
    · obtain ⟨i, hi⟩ := hhelps h hh
      exact hi.registers
    · exact (hown hn i hi).getX rfl hd0 hd31
    · rw [hself]
      exact hlo.trans (by simp [ForkRegion.lo])
    · rw [hself]
      exact hhi.trans (by simp [ForkRegion.hi]; rfl)
    · rw [hself]
      rfl
    · rw [hself]
      exact hrest
    · exact (hslices.sameMemory hbytes).trans hmem.sameMemory
  · intro s k a g hb hg
    refine ⟨fun i rest hw => ?_, fun hw hn => ?_, fun hw hn => ?_⟩
    · obtain ⟨⟨p, hact⟩, hmem, hx, hv, hp, hh, hpc⟩ := State.joinTakes_result (g.passed s.me) i rest hb.record
      exact ⟨_, _, _, exec_join_takes hb hg hw, hact, rfl, rfl, rfl, rfl, hx, hv, hp, hh, hpc, hmem.sameMemory⟩
    · obtain ⟨⟨p, hact⟩, hmem, th, hme⟩ := State.joinCloses_result (g.passed s.me) hb.record
      refine ⟨_, _, exec_join_closes hb hg hw hn, hact, rfl, rfl, rfl, ?_⟩
      rw [hme]
      exact ⟨rfl, rfl, rfl, rfl, rfl, rfl, rfl, rfl, rfl, rfl, rfl, rfl, hmem.sameMemory⟩
    · obtain ⟨⟨p, hs, hact⟩, hmem, ⟨hnone, hidle⟩, hdue⟩ := State.joinLeaves_result (g.passed s.me) hb.record
      exact ⟨_, _, _, exec_join_leaves hb hg hw hn, hact, rfl, rfl, rfl, hidle, hnone, hdue, hmem.sameMemory⟩
end

section
/-! How the front end reads and writes (R413): what an engine's checks, reads and writes of a line come to when nothing stops
them, and what the front end reads of a record and an image. -/
namespace Sys2Proof.Machine

/-! ## Running an engine's action -/

@[simp] theorem EM.pure_run {α : Type} (a : α) (s : State) : (pure a : EM α) s = .ok (a, s) := rfl

@[simp] theorem EM.bind_run {α β : Type} (m : EM α) (f : α → EM β) (s : State) :
    (m >>= f) s = match m s with
      | .ok (a, t) => f a t
      | .error e => .error e := by
  show (StateT.bind m f) s = _
  unfold StateT.bind
  cases m s with
  | ok r => rfl
  | error e => rfl

@[simp] theorem stateE_run (s : State) : stateE s = .ok (s, s) := rfl
@[simp] theorem updE_run (f : State → State) (s : State) : updE f s = .ok ((), f s) := rfl
@[simp] theorem failIf_false (c : Nat) (va : Word) (s : State) : failIf false c va s = .ok ((), s) := rfl

/-! ## Checks (R206, R226) -/

/-- An access whose checks pass goes to its spot. -/
theorem engineSpot_ok {s : State} {e : EngineFor} {need : Need} {va : Word} {p : Spot} (h : s.EngineAt e need va p) (kind : FaultKind) :
    engineSpot e va need kind s = .ok (p, s) := by
  have hplace {t : TlbEntry} {pa : Nat} {q : Place} (hspace : va.toNat < 2 ^ 49) (hscratch : inScratch va.toNat = false)
      (htr : s.translate e.pipe e.vf va.toNat = (s, .page t)) (hperm : t.permits need = true) (hpa : t.phys va.toNat = pa)
      (hq : s.place pa = .ok q) (hup : q = .dram → s.homeDown e.vf pa = false) : engineSpot e va need kind s = .ok (.phys q pa, s) := by
    have hs : decide (2 ^ 49 ≤ va.toNat) = false := by simpa using hspace
    have hd : (q == .dram && s.homeDown e.vf pa) = false := by
      by_cases hc : q = .dram
      · simp [hup hc]
      · simp [hc]
    simp only [engineSpot, EM.bind_run, stateE_run, hs, failIf_false, hscratch, Bool.false_eq_true, if_false, htr, hperm, Bool.not_true,
      updE_run, hpa, hq, hd, EM.pure_run]
  cases h with
  | scratch c k off hc hva hoff hsize =>
    have hs : decide (2 ^ 49 ≤ va.toNat) = false := by
      have hb : scratchBase + 0x40000 = 2 ^ 49 := by decide
      simp only [decide_eq_false_iff_not]
      omega
    have hscratch : inScratch va.toNat = true := by
      simp only [inScratch, Bool.and_eq_true, decide_eq_true_eq, hva, scratchEnd, scratchBase]
      omega
    have hoff' : decide ((s.core c k).scratchSize ≤ va.toNat - scratchBase) = false := by
      simp only [decide_eq_false_iff_not]
      omega
    simp only [engineSpot, EM.bind_run, stateE_run, hs, failIf_false, hscratch, if_true, hc, hoff', EM.pure_run]
    rw [hva, Nat.add_sub_cancel_left]
  | page pa q hspace hscratch hpage hq hup =>
    obtain ⟨t, hfind, -, -, hperm, hpa⟩ := hpage
    exact hplace hspace hscratch (by simp only [State.translate, hfind]) hperm hpa hq hup
  | walk t pa q hpipe hspace hscratch hmiss hwalk hperm hpa hq hup =>
    refine hplace hspace hscratch ?_ hperm hpa hq hup
    have hfull : s.missesFull fwNode = false := by simp [State.missesFull]
    simp only [State.translate, hpipe, State.pipeTlb, tlbFind, List.find?_nil, if_true, Pipe.cluster, hmiss, hfull, Option.isSome_none,
      Bool.or_self, Bool.false_eq_true, if_false, hwalk]

/-! ## Reads -/

theorem State.reslices_pullSpot {s t : State} {e : EngineFor} {p : Spot} {n : Nat} (h : s.pullSpot e p n = some t) : s.Reslices t := by
  cases p with
  | phys q pa =>
    simp only [State.pullSpot] at h
    split at h
    · exact nomatch h
    · exact State.reslices_pullPlace h
  | scratch off => exact Option.some.inj h ▸ .refl s
  | sram off => exact Option.some.inj h ▸ .refl s
  | region vf off => exact Option.some.inj h ▸ .refl s

/-- An engine's read changes the slices and no byte. -/
theorem State.EngineReads.keeps {s t : State} {e : EngineFor} {va n : Nat} {bs : List Byte} (h : s.EngineReads e va n bs t) :
    s.Reslices t ∧ ∀ a, t.byteAt a = s.byteAt a := by
  induction h with
  | nothing s e va => exact ⟨.refl s, fun _ => rfl⟩
  | line s u t e va n p rest h0 hat hpoison hpull hbytes hrest ih =>
    exact ⟨(State.reslices_pullSpot hpull).trans ih.1, fun a => (ih.2 a).trans (hbytes a)⟩

/-- The pieces of a range's lines are those of the range that the fuel still reaches. -/
theorem engineReadLines_ok {s t : State} {e : EngineFor} {va n : Nat} {bs : List Byte} (h : s.EngineReads e va n bs t) (kind : FaultKind)
    (fuel : Nat) (hf : 0 < n → va % 256 + n ≤ 256 * fuel) : engineReadLines e kind (linePieces fuel va n) s = .ok (bs, t) := by
  induction h generalizing fuel with
  | nothing s e va => cases fuel <;> rfl
  | line s u t e va n p rest h0 hat hpoison hpull hbytes hrest ih =>
    obtain ⟨fuel, rfl⟩ : ∃ f, fuel = f + 1 := ⟨fuel - 1, by have := hf h0; omega⟩
    have hline : engineReadLine e kind (BitVec.ofNat 64 va) (min n (256 - va % 256)) s =
        .ok (u.spotBytes e p (min n (256 - va % 256)), u) := by
      simp only [engineReadLine, engineReadSpot, EM.bind_run, engineSpot_ok hat, stateE_run, hpoison, failIf_false, hpull, updE_run,
        EM.pure_run]
    have hrest := ih fuel (fun _ => by have := hf h0; omega)
    simp only [linePieces, Nat.ne_of_gt h0, if_false, engineReadLines, EM.bind_run, hline, hrest, EM.pure_run]

/-- A range that an engine can read is read. -/
theorem engineRead_ok {s t : State} {e : EngineFor} {va n : Nat} {bs : List Byte} (h : s.EngineReads e va n bs t) (kind : FaultKind)
    (hva : va < 2 ^ 64) : engineRead e kind (BitVec.ofNat 64 va) n s = .ok (bs, t) := by
  have hto : (BitVec.ofNat 64 va).toNat = va := by rw [BitVec.toNat_ofNat, Nat.mod_eq_of_lt hva]
  rw [engineRead, hto]
  exact engineReadLines_ok h kind _ (fun _ => by omega)

/-- A front-end action that nothing stops is done (R413). -/
theorem feDo_ok {α : Type} {m : EM α} {s t : State} {a : α} (h : m s = .ok (a, t)) (vf run : Nat) (again : Instr) :
    feDo vf run again none m s = .done t a := by
  simp only [feDo, h]

theorem Rec.bits_lt (r : Rec) (hi lo : Nat) : Rec.bits r hi lo < 2 ^ (hi + 1 - lo) := Nat.mod_lt _ (Nat.two_pow_pos _)

/-- A 64-bit field of a record is an address that the front end can read. -/
theorem feRead_ok {s t : State} {vf va n : Nat} {bs : List Byte} (h : s.EngineReads (frontEnd vf) va n bs t) (hva : va < 2 ^ 64) :
    feRead vf .load (BitVec.ofNat 64 va) n s = .ok (bs, t) := engineRead_ok h _ hva

/-! ## What the front end reads of a record (R324, R327) -/

section
variable {s u v : State} {x : Run} {h : Hub} {img : Img} {raw cnt tl : List Byte} {n : Nat}

/-- A GANG record has no rules, and its count stands in it unless NTIND is set. -/
theorem rulesE_gang (hk : Rec.kind x.rec_ = 2) (hi : Rec.ntind x.rec_ = false) : rulesE h x img s = .ok (some ([], Rec.ntiles x.rec_), s) := by
  simp [rulesE, Rec.isReact, hk, hi, ruleRecords, upTo]

theorem tilesE_gang (hk : Rec.kind x.rec_ = 2) : tilesE x n s = .ok ([], s) := by
  simp [tilesE, Rec.isReact, hk, upTo]

theorem rulesE_refuses (hk : Rec.kind x.rec_ = 1)
    (hr : s.EngineReads (frontEnd x.vf) (Rec.rulesAt x.rec_) (64 * Rec.nrules x.rec_) raw u)
    (hall : (ruleRecords raw (Rec.nrules x.rec_)).all (ruleOk h img) = false) : rulesE h x img s = .ok (none, u) := by
  have hread := feRead_ok hr (Rec.bits_lt ..)
  simp only [rulesE, Rec.isReact, hk, beq_self_eq_true, if_true, EM.bind_run, hread, hall, Bool.not_false, EM.pure_run]

/-- The count of tiles stands in the record, or in the word that it names. -/
def State.CountReads (u : State) (x : Run) (n : Nat) (v : State) : Prop :=
  (Rec.ntind x.rec_ = false ∧ n = Rec.ntiles x.rec_ ∧ v = u) ∨
    ∃ cnt, Rec.ntind x.rec_ = true ∧ n = leNat cnt ∧ u.EngineReads (frontEnd x.vf) (Rec.ntiles x.rec_) 4 cnt v

theorem State.CountReads.keeps (hc : u.CountReads x n v) : u.Reslices v ∧ ∀ a, v.byteAt a = u.byteAt a := by
  rcases hc with ⟨-, -, rfl⟩ | ⟨cnt, -, -, hr⟩
  · exact ⟨.refl _, fun _ => rfl⟩
  · exact hr.keeps

theorem rulesE_admits (hk : Rec.kind x.rec_ = 1)
    (hr : s.EngineReads (frontEnd x.vf) (Rec.rulesAt x.rec_) (64 * Rec.nrules x.rec_) raw u)
    (hall : (ruleRecords raw (Rec.nrules x.rec_)).all (ruleOk h img) = true) (hc : u.CountReads x n v) :
    rulesE h x img s = .ok (some ((ruleRecords raw (Rec.nrules x.rec_)).map Rule.parse, n), v) := by
  have hread := feRead_ok hr (Rec.bits_lt ..)
  rcases hc with ⟨hi, rfl, rfl⟩ | ⟨cnt, hi, rfl, hr'⟩
  · simp only [rulesE, Rec.isReact, hk, beq_self_eq_true, if_true, EM.bind_run, hread, hall, Bool.not_true, Bool.false_eq_true, if_false,
      hi, EM.pure_run]
  · have hread' := feRead_ok hr' (Rec.bits_lt ..)
    simp only [rulesE, Rec.isReact, hk, beq_self_eq_true, if_true, EM.bind_run, hread, hall, Bool.not_true, Bool.false_eq_true, if_false,
      hi, hread', EM.pure_run]

/-- The tiles of a list of 32-byte records. -/
def tileRecords (tl : List Byte) (n : Nat) : List (BitVec 256) :=
  (List.range n).map (fun i => BitVec.ofNat 256 (leNat ((tl.drop (32 * i)).take 32)))

/-- Nothing is read of an empty range. -/
theorem State.EngineReads.empty {e : EngineFor} {va : Nat} (hr : s.EngineReads e va 0 tl u) : tl = [] ∧ u = s := by
  cases hr with
  | nothing => exact ⟨rfl, rfl⟩
  | line => exact absurd ‹0 < 0› (Nat.lt_irrefl 0)

theorem tilesE_react (hk : Rec.kind x.rec_ = 1) (hr : s.EngineReads (frontEnd x.vf) (Rec.tilesAt x.rec_) (32 * n) tl u) :
    tilesE x n s = .ok (tileRecords tl n, u) := by
  by_cases h0 : n = 0
  · subst h0
    obtain ⟨rfl, rfl⟩ := hr.empty
    simp [tilesE, Rec.isReact, hk, upTo, tileRecords]
  · have hread := feRead_ok hr (Rec.bits_lt ..)
    simp only [tilesE, Rec.isReact, hk, beq_self_eq_true, if_true, h0, if_false, EM.bind_run, hread, EM.pure_run]
    rfl

theorem replaceE_ok (hr : s.EngineReads (frontEnd x.vf) (Rec.rulesAt x.rec_) (64 * Rec.nrules x.rec_) raw u) :
    replaceE h x img s = .ok (if (ruleRecords raw (Rec.nrules x.rec_)).all (ruleOk h img) then
      some ((ruleRecords raw (Rec.nrules x.rec_)).map Rule.parse) else none, u) := by
  have hread := feRead_ok hr (Rec.bits_lt ..)
  simp only [replaceE, EM.bind_run, hread, EM.pure_run]

/-! ## What the front end reads of an image (R328) -/

theorem State.ImageReads.keeps {vf : Nat} {es : List Nat} (hr : s.ImageReads vf img es u) :
    s.Reslices u ∧ ∀ a, u.byteAt a = s.byteAt a := by
  induction hr with
  | nothing => exact ⟨.refl _, fun _ => rfl⟩
  | outside s t vf img a rest hout hrest ih => exact ih
  | entry s u t vf img a rest bs hin hread hrest ih =>
    exact ⟨hread.keeps.1.trans ih.1, fun p => (ih.2 p).trans (hread.keeps.2 p)⟩

theorem imageE_ok {vf : Nat} {es : List Nat} (hr : s.ImageReads vf img es u) (hes : ∀ a ∈ es, a < 2 ^ 64) :
    imageE vf img es s = .ok ((), u) := by
  induction hr with
  | nothing => rfl
  | outside s t vf img a rest hout hrest ih =>
    simp only [imageE, hout, Bool.false_eq_true, if_false, EM.bind_run, EM.pure_run, ih (List.forall_mem_cons.1 hes).2]
  | entry s u t vf img a rest bs hin hread hrest ih =>
    simp only [imageE, hin, if_true, EM.bind_run, feRead_ok hread (List.forall_mem_cons.1 hes).1, ih (List.forall_mem_cons.1 hes).2]

theorem loadWindows_none {vf : Nat} (ns : List Nat) : loadWindows vf img 0 ns s = .ok ([], s) := by
  induction ns with
  | nil => rfl
  | cons n ns ih => simp only [loadWindows, EM.bind_run, ih, Nat.zero_testBit, Bool.false_eq_true, if_false, EM.pure_run]

/-- A GANG record without constant windows has the text at its entry read. -/
theorem loadE_gang (hk : Rec.kind x.rec_ = 2) (hm : Rec.cwmask x.rec_ = 0) (hr : s.ImageReads x.vf x.image [Rec.entry x.rec_] u) :
    loadE x s = .ok ([], u) := by
  have hentries : x.entries = [Rec.entry x.rec_] := by simp [Run.entries, Rec.isReact, hk]
  have himage := imageE_ok hr (fun a ha => List.mem_singleton.1 ha ▸ Rec.bits_lt ..)
  simp only [loadE, hentries, EM.bind_run, himage, hm, loadWindows_none]

end

end Sys2Proof.Machine
end

section
/-! The admission of a record (R323, R324): its checks, then its rules, its count and its tiles. -/
namespace Sys2Proof.Machine

/-! ## A run by its number -/

theorem State.memoryKept_setRun (s : State) (r : Nat) (x : Run) : s.MemoryKept (s.setRun r x) := ⟨rfl, rfl, rfl, rfl, rfl⟩

/-- A state that differs in its runs and work list alone. -/
theorem State.setRun_postOnce (s : State) (r : Nat) (x : Run) (i : Instr) :
    ((s.setRun r x).postOnce i).run? r = some x ∧ i ∈ ((s.setRun r x).postOnce i).pending ∧ s.MemoryKept ((s.setRun r x).postOnce i) :=
  ⟨(State.run?_postOnce ..).trans (State.run?_setRun_same ..), State.mem_pending_postOnce ..,
    (s.memoryKept_setRun r x).trans (State.memoryKept_postOnce ..)⟩

/-- A run that ends without being released carries its cause, and its completion is due. -/
theorem State.endUnreleased_result {s : State} {r : Nat} {x : Run} (hx : s.run? r = some x) (c : StopCause) :
    (s.endUnreleased r c).run? r = some { x with stop := some c } ∧ Instr.completionSignal r ∈ (s.endUnreleased r c).pending ∧
      s.MemoryKept (s.endUnreleased r c) := by
  have h : s.endUnreleased r c = (s.setRun r { x with stop := some c }).postOnce (.completionSignal r) := by
    simp only [State.endUnreleased, State.updRun, hx]
  rw [h]
  exact s.setRun_postOnce ..

theorem State.Reslices.run? {s t : State} (h : s.Reslices t) (r : Nat) : t.run? r = s.run? r := by
  obtain ⟨m, l, w, rfl⟩ := h
  rfl

theorem exec_runEligible (vf q : Nat) (s : State) : exec (.runEligible vf q) s = execRunEligible vf q s := rfl

/-- The record at the head of its queue is judged when nothing holds it back. -/
theorem exec_runEligible_admits {vf q r : Nat} {x : Run} {s : State} (hr : s.headRun vf q = some r) (hx : s.run? r = some x)
    (hp : x.phase = .queued) (hs : x.stop = none) (ho : s.dispatchOpen = true) (hw : s.feWaits r = false)
    (he : s.isEligible r x = true) : exec (.runEligible vf q) s = .next (s.admitRun vf q r x) := by
  simp [exec_runEligible, execRunEligible, hr, hx, hp, hs, ho, hw, he]

/-! ## The steps of an admission -/

section
variable {s u v w : State} {vf q r n : Nat} {x : Run}

/-- A record that fails a check ends. -/
theorem State.admitRun_refuses (hc : x.checked = false) (hn : s.recordCheck x (s.imageFor vf x.rec_) ≠ 0) :
    s.admitRun vf q r x = s.endUnreleased r ⟨5, s.recordCheck x (s.imageFor vf x.rec_), 0⟩ := by
  simp only [State.admitRun, hc, Bool.false_eq_true, if_false, ne_eq, hn, not_false_eq_true, if_true]

theorem State.admitRun_checked (hc : x.checked = true) : s.admitRun vf q r x = s.admitRules vf q r x := by
  simp only [State.admitRun, hc, if_true]

/-- A record other than REPLACE that passes its checks has its image found, and is read on. -/
theorem State.admitRun_passes {img : Img} (hc : x.checked = false) (hi : s.imageFor vf x.rec_ = some img)
    (hn : s.recordCheck x (some img) = 0) (hk : Rec.kind x.rec_ ≠ 3) :
    s.admitRun vf q r x = (s.setRun r { x with checked := true, image := img }).admitRules vf q r { x with checked := true, image := img } := by
  simp only [State.admitRun, hc, Bool.false_eq_true, if_false, hi, hn, ne_eq, not_true_eq_false, hk, Option.getD_some]

variable (href : x.refused = [])
include href

theorem State.admitTiles_judged {tiles : List (BitVec 256)} (ht : tilesE x n s = .ok (tiles, w)) :
    s.admitTiles vf q r x n = if w.roomNow { x with tiles := tiles, phase := .eligible } then
      (w.setRun r { x with tiles := tiles, phase := .eligible }).postOnce .runPlace
    else (w.setRun r { x with tiles := tiles, phase := .eligible }).endUnreleased r ⟨7, 0, 0⟩ := by
  simp only [State.admitTiles, href, List.head?_nil, feDo_ok ht]

variable (hnone : x.ntiles = none)
include hnone

theorem State.admitRules_refuses (hr : rulesE s.hub x x.image s = .ok (none, u)) :
    s.admitRules vf q r x = u.endUnreleased r ⟨4, 0, 0⟩ := by
  simp only [State.admitRules, hnone, href, List.head?_nil, feDo_ok hr]

theorem State.admitRules_admits {rules : List Rule} (hr : rulesE s.hub x x.image s = .ok (some (rules, n), v)) :
    s.admitRules vf q r x = (v.setRun r { x with rules := rules, ntiles := some n, gen := 1 }).admitTiles vf q r
      { x with rules := rules, ntiles := some n, gen := 1 } n := by
  simp only [State.admitRules, hnone, href, List.head?_nil, feDo_ok hr]

/-- A GANG record that has passed its checks waits for its place at once: nothing is read of it. -/
theorem State.admitRules_gang (hk : Rec.kind x.rec_ = 2) (hi : Rec.ntind x.rec_ = false) :
    let t := s.admitRules vf q r x
    t.run? r = some { x with rules := [], tiles := [], ntiles := some (Rec.ntiles x.rec_), gen := 1, phase := .eligible } ∧
      Instr.runPlace ∈ t.pending ∧ s.MemoryKept t := by
  intro t
  let y : Run := { x with rules := [], ntiles := some (Rec.ntiles x.rec_), gen := 1 }
  have ht : t = ((s.setRun r y).setRun r { y with tiles := [], phase := .eligible }).postOnce .runPlace := by
    simp only [t, State.admitRules_admits href hnone (rulesE_gang hk hi)]
    rw [State.admitTiles_judged (x := y) href (tilesE_gang (x := y) hk), if_pos]
    simp [State.roomNow, Rec.isReact, y, hk]
  rw [ht]
  obtain ⟨hrun, hdue, hmem⟩ := (s.setRun r y).setRun_postOnce r { y with tiles := [], phase := .eligible } .runPlace
  exact ⟨hrun, hdue, (s.memoryKept_setRun r y).trans hmem⟩

/-- A REACT record whose table holds a bad rule ends. -/
theorem State.admitRules_react_refused {raw : List Byte} (hx : s.run? r = some x) (hk : Rec.kind x.rec_ = 1)
    (hr : s.EngineReads (frontEnd x.vf) (Rec.rulesAt x.rec_) (64 * Rec.nrules x.rec_) raw u)
    (hall : (ruleRecords raw (Rec.nrules x.rec_)).all (ruleOk s.hub x.image) = false) :
    let t := s.admitRules vf q r x
    t.run? r = some { x with stop := some ⟨4, 0, 0⟩ } ∧ Instr.completionSignal r ∈ t.pending := by
  intro t
  have ht : t = u.endUnreleased r ⟨4, 0, 0⟩ := State.admitRules_refuses href hnone (rulesE_refuses hk hr hall)
  rw [ht]
  obtain ⟨hrun, hdue, -⟩ := State.endUnreleased_result ((hr.keeps.1.run? r).trans hx) ⟨4, 0, 0⟩
  exact ⟨hrun, hdue⟩

/-- A REACT record with a good table has its tiles read, and waits for its place if they have room. -/
theorem State.admitRules_react {raw tl : List Byte} (hk : Rec.kind x.rec_ = 1)
    (hr : s.EngineReads (frontEnd x.vf) (Rec.rulesAt x.rec_) (64 * Rec.nrules x.rec_) raw u)
    (hall : (ruleRecords raw (Rec.nrules x.rec_)).all (ruleOk s.hub x.image) = true) (hc : u.CountReads x n v) :
    let y : Run := { x with rules := (ruleRecords raw (Rec.nrules x.rec_)).map Rule.parse, ntiles := some n, gen := 1 }
    let z : Run := { y with tiles := tileRecords tl n, phase := .eligible }
    (v.setRun r y).EngineReads (frontEnd x.vf) (Rec.tilesAt x.rec_) (32 * n) tl w →
    let t := s.admitRules vf q r x
    (w.roomNow z = false → t.run? r = some { z with stop := some ⟨7, 0, 0⟩ } ∧ Instr.completionSignal r ∈ t.pending) ∧
      (w.roomNow z = true → t.run? r = some z ∧ Instr.runPlace ∈ t.pending ∧ s.SameMemory t .nowhere 0) := by
  intro y z htiles t
  have ht : t = if w.roomNow z then (w.setRun r z).postOnce .runPlace else (w.setRun r z).endUnreleased r ⟨7, 0, 0⟩ := by
    simp only [t, State.admitRules_admits href hnone (rulesE_admits hk hr hall hc)]
    exact State.admitTiles_judged (x := y) href (tilesE_react (x := y) hk htiles)
  refine ⟨fun hroom => ?_, fun hroom => ?_⟩
  · obtain ⟨hrun, hdue, -⟩ := State.endUnreleased_result (State.run?_setRun_same w r z) ⟨7, 0, 0⟩
    rw [ht, hroom]
    exact ⟨hrun, hdue⟩
  · obtain ⟨hrun, hdue, hmem⟩ := w.setRun_postOnce r z .runPlace
    have hread : s.SameMemory v .nowhere 0 :=
      (hr.keeps.1.sameMemory hr.keeps.2).trans (hc.keeps.1.sameMemory hc.keeps.2)
    have hplaced : (v.setRun r y).SameMemory w .nowhere 0 := htiles.keeps.1.sameMemory htiles.keeps.2
    rw [ht, hroom]
    exact ⟨hrun, hdue, ((hread.trans (v.memoryKept_setRun r y).sameMemory).trans hplaced).trans hmem.sameMemory⟩

end

end Sys2Proof.Machine
end

section
/-! Placement and time slices (R325, R326): the run that is placed, and the pack that is pre-empted for one that waits. -/
namespace Sys2Proof.Machine

/-! ## What leaves memory alone -/

theorem State.MemoryKept.refl (s : State) : s.MemoryKept s := ⟨rfl, rfl, rfl, rfl, rfl⟩

theorem State.memoryKept_foldl {α : Type} {f : State → α → State} (hf : ∀ (s : State) (a : α), s.MemoryKept (f s a)) (s : State) (l : List α) :
    s.MemoryKept (l.foldl f s) :=
  List.foldlRecOn (motive := fun t => s.MemoryKept t) _ _ (.refl s) (fun t h a _ => h.trans (hf t a))

/-- An update of a function that keeps its SRAM changes no byte of memory. -/
theorem State.sameMemory_updFn (s : State) (vf : Nat) {f : Fn → Fn} (hf : ∀ n, (f n).sram = n.sram := by exact fun _ => rfl) :
    s.SameMemory (s.updFn vf f) .nowhere 0 := by
  refine ⟨fun _ _ => rfl, fun _ _ _ _ => rfl, fun n a _ _ => ?_, fun _ _ _ => rfl⟩
  by_cases h : n = vf
  · rw [h, State.fn_updFn_same, hf]
  · rw [State.fn_updFn_ne _ _ _ _ h]

/-! ## Placement (R325) -/

/-- Clusters that a run is given are the run's, and the others stay. -/
theorem State.run_foldl_updCluster (v : Option Nat) (l : List Nat) (s : State) (c : Nat) :
    ((l.foldl (fun s c => s.updCluster c (fun u => { u with run := v })) s).cluster c).run = if c ∈ l then v else (s.cluster c).run := by
  induction l generalizing s with
  | nil => simp
  | cons d l ih =>
    rw [List.foldl_cons, ih]
    by_cases hl : c ∈ l
    · simp [hl]
    · by_cases hd : c = d
      · simp [hd]
      · rw [State.cluster_updCluster_ne _ _ _ _ hd]
        simp [hl, hd]

theorem exec_runPlace (s : State) : exec .runPlace s = execRunPlace s := rfl

/-- The one run that waits is placed where its rectangle is best. -/
theorem exec_runPlace_places {s : State} {r n : Nat} {x : Run} (hw : s.waiters = [(r, x)]) (hb : s.bestRect x [] = some n) :
    exec .runPlace s = .next ((s.placeAt r x n).postOnce .runPlace) := by
  simp only [exec_runPlace, execRunPlace, hw, State.placeNext, hb]

/-- A GANG run that is placed for the first time has the live clusters of its rectangle, and its release is due. -/
theorem State.placeAt_gang {s : State} {r n : Nat} {x : Run} (hp : x.phase = .eligible) (hk : Rec.kind x.rec_ = 2) :
    let live := s.liveIn (rectClusters n (Rec.packw x.rec_) (Rec.packh x.rec_))
    let t := s.placeAt r x n
    t.run? r = some { x with node := n, subst := live.flatMap (s.substFor x), keymap := [], phase := .placed } ∧
      (∀ c, (t.cluster c).run = if c ∈ live then some r else (s.cluster c).run) ∧ Instr.runRelease r ∈ t.pending ∧
      s.SameMemory t .nowhere 0 := by
  intro live t
  let y : Run := { x with node := n, subst := live.flatMap (s.substFor x), keymap := [], phase := .placed }
  let given := live.foldl (fun s c => s.updCluster c (fun u => { u with run := some r })) s
  let counted := given.updFn x.vf (fun f => { f with lastQueue := x.queue })
  have ht : t = (counted.setRun r y).postOnce (.runRelease r) := by
    simp [t, State.placeAt, Rec.isReact, hk, hp]
    rfl
  obtain ⟨hrun, hdue, hmem⟩ := counted.setRun_postOnce r y (.runRelease r)
  rw [ht]
  refine ⟨hrun, fun c => ?_, hdue, ?_⟩
  · rw [State.cluster_postOnce]
    exact State.run_foldl_updCluster (some r) live s c
  · have hgiven : s.MemoryKept given := State.memoryKept_foldl (fun t c => t.memoryKept_updCluster ..) s live
    exact (hgiven.sameMemory.trans (given.sameMemory_updFn _)).trans hmem.sameMemory

/-! ## Rectangles -/

@[simp] theorem mem_sortBy {α : Type} {key : α → Nat} {b : α} {l : List α} : b ∈ sortBy key l ↔ b ∈ l := by
  have gen (acc : List α) : b ∈ l.foldl (fun acc a => insertBy key a acc) acc ↔ b ∈ acc ∨ b ∈ l := by
    induction l generalizing acc with
    | nil => simp
    | cons a l ih =>
      rw [List.foldl_cons, ih, mem_insertBy, List.mem_cons]
      tauto
  simp [sortBy, gen]

/-- A run's rectangle qualifies where it is best. -/
theorem State.qualifies_of_bestRect {s : State} {x : Run} {freed : List Nat} {n : Nat} (h : s.bestRect x freed = some n) :
    n ∈ s.corners x ∧ s.qualifies x (rectClusters n (Rec.packw x.rec_) (Rec.packh x.rec_)) freed = true := by
  have hmem := List.mem_of_mem_head? (Option.mem_def.2 h)
  rw [mem_sortBy] at hmem
  exact List.mem_filter.1 hmem

/-- A run without a rectangle qualifies nowhere. -/
theorem State.not_qualifies_of_bestRect {s : State} {x : Run} {freed : List Nat} (h : s.bestRect x freed = none) {n : Nat}
    (hn : n ∈ s.corners x) : s.qualifies x (rectClusters n (Rec.packw x.rec_) (Rec.packh x.rec_)) freed = false := by
  have hnil := List.head?_eq_none_iff.1 h
  by_contra hq
  have hmem : n ∈ (s.corners x).filter (fun n => s.qualifies x (rectClusters n (Rec.packw x.rec_) (Rec.packh x.rec_)) freed) :=
    List.mem_filter.2 ⟨hn, by simpa using hq⟩
  rw [← mem_sortBy, hnil] at hmem
  exact List.not_mem_nil hmem

/-- Clusters outside a rectangle make no difference to it. -/
theorem State.qualifies_disjoint {s : State} {x : Run} {cs freed : List Nat} (h : ∀ c ∈ cs, c ∉ freed) :
    s.qualifies x cs freed = s.qualifies x cs [] := by
  have hfree : cs.all (fun c => (s.cluster c).run.isNone || freed.contains c) =
      cs.all (fun c => (s.cluster c).run.isNone || ([] : List Nat).contains c) := by
    rw [Bool.eq_iff_iff, List.all_eq_true, List.all_eq_true]
    refine forall₂_congr fun c hc => ?_
    simp [h c hc]
  simp only [State.qualifies, hfree]

/-- A rectangle that only the clusters of a pack make free has one of them. -/
theorem State.rect_meets {s : State} {x : Run} {freed : List Nat} {n : Nat} (h0 : s.bestRect x [] = none)
    (h : s.bestRect x freed = some n) : freed.any (rectClusters n (Rec.packw x.rec_) (Rec.packh x.rec_)).contains = true := by
  obtain ⟨hn, hq⟩ := State.qualifies_of_bestRect h
  by_contra hany
  have hdisjoint : ∀ c ∈ rectClusters n (Rec.packw x.rec_) (Rec.packh x.rec_), c ∉ freed := fun c hc hf =>
    hany (List.any_eq_true.2 ⟨c, hf, List.contains_iff_mem.2 hc⟩)
  rw [State.qualifies_disjoint hdisjoint, State.not_qualifies_of_bestRect h0 hn] at hq
  exact nomatch hq

/-! ## Time slices (R326) -/

theorem NMap.mem_of_find? {α : Type} {m : NMap α} {n : Nat} {a : α} (h : NMap.find? m n = some a) : (n, a) ∈ m := by
  induction m with
  | nil => exact nomatch h
  | cons e m ih =>
    obtain ⟨k, v⟩ := e
    rw [NMap.find?] at h
    split at h
    · next hk =>
      subst hk
      exact Option.some.inj h ▸ List.mem_cons_self
    · exact List.mem_cons_of_mem _ (ih h)

/-- A list without repetition in which one element alone passes a test. -/
theorem filter_eq_singleton {α : Type} {l : List α} {p : α → Bool} {a : α} (hn : l.Nodup) (ha : a ∈ l) (hp : p a = true)
    (h : ∀ b ∈ l, p b = true → b = a) : l.filter p = [a] := by
  refine List.perm_singleton.1 ((List.perm_ext_iff_of_nodup (hn.filter p) (List.nodup_singleton a)).2 fun b => ?_)
  rw [List.mem_filter, List.mem_singleton]
  exact ⟨fun hb => h b hb.1 hb.2, fun hb => hb ▸ ⟨ha, hp⟩⟩

/-- The pre-emption for a waiting run when one pack alone may give way. -/
theorem State.preemptOf_single {s : State} {w x : Run} {r : Nat} (hd : s.draining = []) (hn : s.bestRect w [] = none) :
    s.preemptOf w [(r, x)] = (s.bestRect w x.clusters).map (fun _ => s.postOnce (x.preemptStep r)) := by
  have hfree : s.freeing w [(r, x)] [] = s.bestRect w x.clusters := by simp [State.freeing, hn]
  rw [State.preemptOf, hd, hfree]
  cases hb : s.bestRect w x.clusters with
  | none => rfl
  | some n =>
    have hmeets := State.rect_meets hn hb
    simp only [Option.map_some, hn, Option.isSome_none, Bool.false_eq_true, if_false, List.filter_cons, hmeets, if_true, List.filter_nil,
      List.foldl_cons, List.foldl_nil]

/-- Whether a waiting run would have a pack give way at the end of its time slice. -/
def State.wantsSlice (s : State) (x : Run) (w : Nat × Run) : Bool :=
  w.2.vf != x.vf && s.prioOf w.2 == s.prioOf x && (s.bestRect w.2 []).isNone

theorem State.wantsSlice_iff {s : State} {x : Run} {w : Nat × Run} :
    s.wantsSlice x w = true ↔ w.2.vf ≠ x.vf ∧ s.prioOf w.2 = s.prioOf x ∧ s.bestRect w.2 [] = none := by
  simp [State.wantsSlice, and_assoc]

theorem exec_timeSliceExpiry (r : Nat) (s : State) : exec (.timeSliceExpiry r) s = execTimeSliceExpiry r s := rfl

section
variable {s : State} {r : Nat} {x : Run} (hx : s.run? r = some x)
include hx

theorem exec_timeSliceExpiry_early (hc : s.fclk < x.sliceAt + 3600000) : exec (.timeSliceExpiry r) s = .next s := by
  have hover : s.sliceOver x = false := by simpa [State.sliceOver] using hc
  simp [exec_timeSliceExpiry, execTimeSliceExpiry, hx, hover]

variable (hc : x.sliceAt + 3600000 ≤ s.fclk)
include hc

/-- The pack itself is the one that may give way, when no other of its priority and none of a lower one can. -/
theorem State.preemptSlice_single {w : Run} (hv : w.vf ≠ x.vf) (hprio : s.prioOf w = s.prioOf x) (hd : s.draining = [])
    (hl : s.lowerPacks w = []) (hpre : x.preemptible = true)
    (hone : ∀ q ∈ s.runs, q.2.preemptible = true → s.prioOf q.2 = s.prioOf x → q.2.vf ≠ w.vf →
      q.2.sliceAt + 3600000 ≤ s.fclk → q = (r, x)) (hnodup : s.runs.Nodup) (hn : s.bestRect w [] = none) :
    s.preemptSlice w = (s.bestRect w x.clusters).map (fun _ => s.postOnce (x.preemptStep r)) := by
  have hfilter : s.runs.filter (fun r => r.2.preemptible && s.prioOf r.2 == s.prioOf w && r.2.vf != w.vf && s.sliceOver r.2) = [(r, x)] := by
    refine filter_eq_singleton hnodup (NMap.mem_of_find? hx) ?_ fun q hq hq' => ?_
    · simp [hpre, hprio, State.sliceOver, hc, hv.symm]
    · simp only [Bool.and_eq_true, beq_iff_eq, bne_iff_ne, State.sliceOver, decide_eq_true_eq] at hq'
      obtain ⟨⟨⟨hqp, hqprio⟩, hqv⟩, hqs⟩ := hq'
      exact hone q hq hqp (hqprio.trans hprio) hqv hqs
  rw [State.preemptSlice, hl, List.nil_append, hfilter, State.preemptOf_single hd hn]

variable (hp : x.phase = .running)
include hp

/-- When none waits, a new slice begins. -/
theorem exec_timeSliceExpiry_renews (hw : s.waiters.filter (s.wantsSlice x) = []) :
    exec (.timeSliceExpiry r) s = .next (s.setRun r { x with sliceAt := s.fclk }) := by
  have hover : s.sliceOver x = true := by simpa [State.sliceOver] using hc
  unfold State.wantsSlice at hw
  simp [exec_timeSliceExpiry, execTimeSliceExpiry, hx, hp, hover, hw]

/-- Otherwise packs give way for the first of those that wait to which that yields a rectangle. -/
theorem exec_timeSliceExpiry_preempts (hw : s.waiters.filter (s.wantsSlice x) ≠ []) :
    exec (.timeSliceExpiry r) s = .next (((s.waiters.filter (s.wantsSlice x)).findSome? (fun w => s.preemptSlice w.2)).getD s) := by
  have hover : s.sliceOver x = true := by simpa [State.sliceOver] using hc
  obtain ⟨w, ws, hws⟩ := List.exists_cons_of_ne_nil hw
  rw [hws]
  unfold State.wantsSlice at hws
  simp [exec_timeSliceExpiry, execTimeSliceExpiry, hx, hp, hover, hws]

end

end Sys2Proof.Machine
end

section
/-! The release of a GANG run (R19, R115, R180, R328): its clusters, cores and thread sets are made ready, then its ranks given. -/
namespace Sys2Proof.Machine

/-! ## Seats: what a run occupies -/

/-- The second state differs from the first in thread sets, cores and clusters at most. -/
def State.Reseats (s t : State) : Prop := ∃ th co cl, t = { s with threads := th, cores := co, clusters := cl }

theorem State.Reseats.refl (s : State) : s.Reseats s := ⟨s.threads, s.cores, s.clusters, rfl⟩

theorem State.Reseats.trans {s t u : State} (h : s.Reseats t) (g : t.Reseats u) : s.Reseats u := by
  obtain ⟨th, co, cl, rfl⟩ := h
  obtain ⟨th', co', cl', rfl⟩ := g
  exact ⟨th', co', cl', rfl⟩

theorem State.reseats_foldl {α : Type} {f : State → α → State} (hf : ∀ (s : State) (a : α), s.Reseats (f s a)) (s : State) (l : List α) :
    s.Reseats (l.foldl f s) :=
  List.foldlRecOn (motive := fun t => s.Reseats t) _ _ (.refl s) (fun t h a _ => h.trans (hf t a))

theorem State.reseats_setThread (s : State) (t : TsId) (th : Thread) : s.Reseats (s.setThread t th) := ⟨_, s.cores, s.clusters, rfl⟩
theorem State.reseats_updCore (s : State) (c k : Nat) (f : CoreUnit → CoreUnit) : s.Reseats (s.updCore c k f) :=
  ⟨s.threads, _, s.clusters, rfl⟩
theorem State.reseats_updCluster (s : State) (c : Nat) (f : Cluster → Cluster) : s.Reseats (s.updCluster c f) :=
  ⟨s.threads, s.cores, _, rfl⟩

/-! ## Units by key -/

theorem State.thread_setThread_of_key {s : State} {t u : TsId} (th : Thread) (h : TsId.key u = TsId.key t) :
    (s.setThread t th).thread u = th := by
  simp only [State.thread, State.setThread, h, NMap.get_set_same]

/-- Thread sets updated one after the other under different keys are each updated once. -/
theorem State.thread_foldl_updThread {ι : Type} {t : ι → TsId} {f : ι → Thread → Thread} {l : List ι} {s : State}
    (hn : (l.map (fun i => TsId.key (t i))).Nodup) {i : ι} (hi : i ∈ l) :
    (l.foldl (fun s i => s.updThread (t i) (f i)) s).thread (t i) = f i (s.thread (t i)) := by
  have hother (l : List ι) (s : State) (h : ∀ j ∈ l, TsId.key (t i) ≠ TsId.key (t j)) :
      (l.foldl (fun s i => s.updThread (t i) (f i)) s).thread (t i) = s.thread (t i) := by
    induction l generalizing s with
    | nil => rfl
    | cons j l ih =>
      obtain ⟨hj, hl⟩ := List.forall_mem_cons.1 h
      rw [List.foldl_cons, ih _ hl, State.thread_updThread_ne _ _ _ _ hj]
  induction l generalizing s with
  | nil => exact absurd hi List.not_mem_nil
  | cons j l ih =>
    obtain ⟨hnew, hn⟩ := List.nodup_cons.1 hn
    rw [List.foldl_cons]
    rcases List.mem_cons.1 hi with rfl | hi
    · rw [hother l _ fun j hj hk => hnew (List.mem_map.2 ⟨j, hj, hk.symm⟩), State.thread_updThread_same]
    · have hk : TsId.key (t i) ≠ TsId.key (t j) := fun hk => hnew (List.mem_map.2 ⟨i, hi, hk⟩)
      rw [ih hn hi, State.thread_updThread_ne _ _ _ _ hk]

/-! ## A fresh cluster (R115, R180, R328) -/

/-- What one step of a fold establishes, and every step keeps, holds at its end. -/
theorem foldl_establishes {α σ : Type} {f : σ → α → σ} {I P : σ → Prop} {Q : α → Prop} (hI : ∀ s a, I s → I (f s a))
    (hQ : ∀ s a, I s → Q a → P (f s a)) (hP : ∀ s a, I s → P s → P (f s a)) (l : List α) (s : σ) (h0 : I s)
    (h : (∃ a ∈ l, Q a) ∨ P s) : P (l.foldl f s) := by
  induction l generalizing s with
  | nil => exact h.resolve_left (fun ⟨a, ha, _⟩ => List.not_mem_nil ha)
  | cons b l ih =>
    refine ih (f s b) (hI s b h0) ?_
    rcases h with ⟨a, ha, hq⟩ | h
    · rcases List.mem_cons.1 ha with hab | ha
      · exact .inr (hQ s b h0 (hab ▸ hq))
      · exact .inl ⟨a, ha, hq⟩
    · exact .inr (hP s b h0 h)

/-- A thread set as a run finds it. -/
def Thread.forRun (r : Nat) (x : Run) (now : Nat) : Thread := { Thread.reset with run := some r, fpmode := x.fpmode, ltime := now }

/-- A core that a run has found. -/
def CoreUnit.Fresh (u : CoreUnit) : Prop := ∃ v : CoreUnit, u = v.forRun

theorem CoreUnit.Fresh.reset {u : CoreUnit} (h : u.Fresh) : u.scratch = [] ∧ u.lsplit = 8 ∧ ∀ n : BarIx, u.barrier n = Barrier.zero := by
  obtain ⟨v, rfl⟩ := h
  refine ⟨rfl, rfl, fun n => ?_⟩
  simp [CoreUnit.barrier, CoreUnit.forRun, CoreUnit.reset]

/-- Cores and thread sets made ready for a run. -/
def State.coresForRun (s : State) (c : Nat) (l : List Nat) : State := l.foldl (fun s k => s.updCore c k CoreUnit.forRun) s
def State.setsForRun (s : State) (r : Nat) (x : Run) (l : List TsId) : State :=
  l.foldl (fun s t => s.setThread t (Thread.forRun r x s.wmax)) s

theorem State.freshCluster_eq (s : State) (r : Nat) (x : Run) (c : Nat) :
    s.freshCluster r x c = ((s.updCluster c (fun u => u.forRun r)).coresForRun c (upTo 16)).setsForRun r x (clusterSets c) := rfl

theorem State.reseats_coresForRun (s : State) (c : Nat) (l : List Nat) : s.Reseats (s.coresForRun c l) :=
  State.reseats_foldl (fun t _ => t.reseats_updCore ..) s l

theorem State.reseats_setsForRun (s : State) (r : Nat) (x : Run) (l : List TsId) : s.Reseats (s.setsForRun r x l) :=
  State.reseats_foldl (fun t _ => t.reseats_setThread ..) s l

theorem State.Reseats.wmax {s t : State} (h : s.Reseats t) : t.wmax = s.wmax := by
  obtain ⟨th, co, cl, rfl⟩ := h
  rfl

theorem State.threads_coresForRun (s : State) (c : Nat) (l : List Nat) : (s.coresForRun c l).threads = s.threads :=
  List.foldlRecOn (motive := fun t : State => t.threads = s.threads) _ _ rfl (fun _ h _ _ => h)

theorem State.cores_setsForRun (s : State) (r : Nat) (x : Run) (l : List TsId) : (s.setsForRun r x l).cores = s.cores :=
  List.foldlRecOn (motive := fun t : State => t.cores = s.cores) _ _ rfl (fun _ h _ _ => h)

/-- A core that is made ready is fresh, and so is one that was. -/
theorem State.fresh_coresForRun {s : State} {c d j : Nat} {l : List Nat} (h : (∃ k ∈ l, coreKey d j = coreKey c k) ∨ (s.core d j).Fresh) :
    ((s.coresForRun c l).core d j).Fresh := by
  have hmade (t : State) (k : Nat) (hk : coreKey d j = coreKey c k) : ((t.updCore c k CoreUnit.forRun).core d j).Fresh := by
    refine ⟨t.core c k, ?_⟩
    simp only [State.core, State.updCore, hk, NMap.get_set_same]
  refine foldl_establishes (I := fun _ => True) (P := fun t => (t.core d j).Fresh) (fun _ _ _ => trivial)
    (fun t k _ hk => hmade t k hk) (fun t k _ h => ?_) l s trivial h
  by_cases hk : coreKey d j = coreKey c k
  · exact hmade t k hk
  · rwa [State.core_updCore_ne _ _ _ _ _ _ hk]

/-- A thread set that is made ready is as the run finds it, and so is one that was. -/
theorem State.thread_setsForRun {s : State} {r now : Nat} {x : Run} {u : TsId} {l : List TsId} (hw : s.wmax = now)
    (h : (∃ t ∈ l, TsId.key u = TsId.key t) ∨ s.thread u = Thread.forRun r x now) :
    (s.setsForRun r x l).thread u = Thread.forRun r x now := by
  have hmade (s : State) (t : TsId) (hw : s.wmax = now) (hk : TsId.key u = TsId.key t) :
      (s.setThread t (Thread.forRun r x s.wmax)).thread u = Thread.forRun r x now := by
    rw [State.thread_setThread_of_key _ hk, hw]
  refine foldl_establishes (f := fun s t => s.setThread t (Thread.forRun r x s.wmax)) (I := fun s => s.wmax = now)
    (P := fun s => s.thread u = Thread.forRun r x now) (fun _ _ h => h)
    (fun s t hw hk => hmade s t hw hk) (fun s t hw h => ?_) l s hw h
  by_cases hk : TsId.key u = TsId.key t
  · exact hmade s t hw hk
  · rwa [State.thread_setThread_ne _ _ _ _ hk]

theorem State.reseats_freshCluster (s : State) (r : Nat) (x : Run) (c : Nat) : s.Reseats (s.freshCluster r x c) := by
  rw [State.freshCluster_eq]
  exact ((s.reseats_updCluster ..).trans (State.reseats_coresForRun ..)).trans (State.reseats_setsForRun ..)

theorem State.thread_freshCluster {s : State} {r now c : Nat} {x : Run} {u : TsId} (hw : s.wmax = now)
    (h : (∃ t ∈ clusterSets c, TsId.key u = TsId.key t) ∨ s.thread u = Thread.forRun r x now) :
    (s.freshCluster r x c).thread u = Thread.forRun r x now := by
  rw [State.freshCluster_eq]
  refine State.thread_setsForRun ((State.reseats_coresForRun ..).wmax.trans hw) ?_
  rwa [State.thread_congr (State.threads_coresForRun ..)]

theorem State.fresh_freshCluster {s : State} {r c d j : Nat} {x : Run}
    (h : (∃ k ∈ upTo 16, coreKey d j = coreKey c k) ∨ (s.core d j).Fresh) : ((s.freshCluster r x c).core d j).Fresh := by
  rw [State.freshCluster_eq, State.core, State.cores_setsForRun, ← State.core]
  exact State.fresh_coresForRun h

/-- The clusters of a run, each made ready for it. -/
def State.freshClusters (s : State) (r : Nat) (x : Run) (l : List Nat) : State := l.foldl (fun s c => s.freshCluster r x c) s

theorem State.foldl_freshCluster (s : State) (r : Nat) (x : Run) (l : List Nat) :
    l.foldl (fun s c => s.freshCluster r x c) s = s.freshClusters r x l := rfl

theorem State.reseats_freshClusters (s : State) (r : Nat) (x : Run) (l : List Nat) : s.Reseats (s.freshClusters r x l) :=
  State.reseats_foldl (fun t _ => t.reseats_freshCluster ..) s l

theorem State.thread_freshClusters {s : State} {r c : Nat} {x : Run} {u : TsId} {l : List Nat} (hc : c ∈ l)
    (hu : ∃ t ∈ clusterSets c, TsId.key u = TsId.key t) : (s.freshClusters r x l).thread u = Thread.forRun r x s.wmax :=
  foldl_establishes (I := fun t => t.wmax = s.wmax) (Q := fun c => ∃ t ∈ clusterSets c, TsId.key u = TsId.key t)
    (P := fun t => t.thread u = Thread.forRun r x s.wmax) (fun t _ h => (t.reseats_freshCluster ..).wmax.trans h)
    (fun _ _ hw h => State.thread_freshCluster hw (.inl h)) (fun _ _ hw h => State.thread_freshCluster hw (.inr h)) l s rfl
    (.inl ⟨c, hc, hu⟩)

theorem State.fresh_freshClusters {s : State} {r c k : Nat} {x : Run} {l : List Nat} (hc : c ∈ l) (hk : k < 16) :
    ((s.freshClusters r x l).core c k).Fresh :=
  foldl_establishes (I := fun _ => True) (Q := fun d => ∃ j ∈ upTo 16, coreKey c k = coreKey d j) (P := fun t => (t.core c k).Fresh)
    (fun _ _ _ => trivial) (fun _ _ _ h => State.fresh_freshCluster (.inl h)) (fun _ _ _ h => State.fresh_freshCluster (.inr h)) l s trivial
    (.inl ⟨c, hc, k, List.mem_range.2 hk, rfl⟩)

/-! ## Ranks (R19) -/

section
variable {x : Run} (hsub : x.subst = []) (hw : Rec.packw x.rec_ ≤ 16) (hco : Rec.cores x.rec_ ≤ 16) (hth : Rec.threads x.rec_ ≤ 4)

/-- A rank's parts: its pack cluster, its core and its set, each below its bound. -/
theorem Rec.rank_parts {y : Rec} {i : Nat} (h : i < Rec.nrank y) :
    i / Rec.threads y / Rec.cores y < Rec.packw y * Rec.packh y ∧ i / Rec.threads y % Rec.cores y < Rec.cores y ∧
      i % Rec.threads y < Rec.threads y ∧ 0 < Rec.packw y := by
  unfold Rec.nrank at h
  have hpos : 0 < Rec.packw y * Rec.packh y * Rec.cores y * Rec.threads y := Nat.lt_of_le_of_lt (Nat.zero_le i) h
  have ht : 0 < Rec.threads y := Nat.pos_of_mul_pos_left hpos
  have hc : 0 < Rec.cores y := Nat.pos_of_mul_pos_left (Nat.pos_of_mul_pos_right hpos)
  have hp : 0 < Rec.packw y * Rec.packh y := Nat.pos_of_mul_pos_right (Nat.pos_of_mul_pos_right hpos)
  refine ⟨?_, Nat.mod_lt _ hc, Nat.mod_lt _ ht, Nat.pos_of_mul_pos_right hp⟩
  rw [Nat.div_lt_iff_lt_mul hc, Nat.div_lt_iff_lt_mul ht]
  exact h

include hsub in
theorem Run.tsOf_eq (i : Nat) : x.tsOf i =
    ⟨x.clusterAt (i / Rec.threads x.rec_ / Rec.cores x.rec_), i / Rec.threads x.rec_ % Rec.cores x.rec_, i % Rec.threads x.rec_⟩ := by
  simp [Run.tsOf, Run.coreAt, hsub]

include hw in
/-- Clusters of a pack have different numbers. -/
theorem Run.clusterAt_injective {a b : Nat} (h0 : 0 < Rec.packw x.rec_) (h : x.clusterAt a = x.clusterAt b) : a = b := by
  simp only [Run.clusterAt] at h
  have ha := Nat.mod_lt a h0
  have hb := Nat.mod_lt b h0
  have hq : a / Rec.packw x.rec_ = b / Rec.packw x.rec_ := by omega
  have hr : a % Rec.packw x.rec_ = b % Rec.packw x.rec_ := by omega
  rw [← Nat.div_add_mod a (Rec.packw x.rec_), ← Nat.div_add_mod b (Rec.packw x.rec_), hq, hr]

include hsub hw hco hth in
/-- Each rank has its own thread set. -/
theorem Run.key_tsOf_injective {i j : Nat} (hi : i < Rec.nrank x.rec_) (hj : j < Rec.nrank x.rec_)
    (h : TsId.key (x.tsOf i) = TsId.key (x.tsOf j)) : i = j := by
  obtain ⟨-, hci, hti, h0⟩ := Rec.rank_parts hi
  obtain ⟨-, hcj, htj, -⟩ := Rec.rank_parts hj
  simp only [Run.tsOf_eq hsub, TsId.key] at h
  have hset : i % Rec.threads x.rec_ = j % Rec.threads x.rec_ := by omega
  have hcore : i / Rec.threads x.rec_ % Rec.cores x.rec_ = j / Rec.threads x.rec_ % Rec.cores x.rec_ := by omega
  have hcluster := Run.clusterAt_injective hw h0 (a := i / Rec.threads x.rec_ / Rec.cores x.rec_)
    (b := j / Rec.threads x.rec_ / Rec.cores x.rec_) (by omega)
  have hdiv : i / Rec.threads x.rec_ = j / Rec.threads x.rec_ := by
    rw [← Nat.div_add_mod (i / Rec.threads x.rec_) (Rec.cores x.rec_), ← Nat.div_add_mod (j / Rec.threads x.rec_) (Rec.cores x.rec_),
      hcluster, hcore]
  rw [← Nat.div_add_mod i (Rec.threads x.rec_), ← Nat.div_add_mod j (Rec.threads x.rec_), hdiv, hset]

include hsub hco hth in
/-- The thread set of a rank is one of its cluster's, which is one of the run's. -/
theorem Run.tsOf_mem {i : Nat} (hi : i < Rec.nrank x.rec_) :
    ∃ c ∈ x.clusters, ∃ t ∈ clusterSets c, TsId.key (x.tsOf i) = TsId.key t := by
  obtain ⟨hc, hk, ht, -⟩ := Rec.rank_parts hi
  refine ⟨x.clusterAt (i / Rec.threads x.rec_ / Rec.cores x.rec_), List.mem_map.2 ⟨_, List.mem_range.2 hc, rfl⟩,
    x.tsOf i, List.mem_map.2 ⟨5 * (i / Rec.threads x.rec_ % Rec.cores x.rec_) + i % Rec.threads x.rec_,
      List.mem_range.2 (by omega), ?_⟩, rfl⟩
  rw [Run.tsOf_eq hsub]
  simp only [TsId.mk.injEq, true_and]
  omega

end

/-- The thread set of a rank of a GANG run at its release (R19, R115). -/
def Thread.ranked (th : Thread) (x : Run) (i : Nat) : Thread :=
  { th with rank := BitVec.ofNat 32 i, pc := BitVec.ofNat 64 (Rec.entry x.rec_), status := .ready }

theorem State.giveRanks_gang {s : State} {x : Run} (hk : Rec.kind x.rec_ = 2) :
    s.giveRanks x = (List.range (Rec.nrank x.rec_)).foldl (fun s i => s.updThread (x.tsOf i) (fun th => th.ranked x i)) s := by
  have hg : Rec.isGang x.rec_ = true := by simp [Rec.isGang, hk]
  simp only [State.giveRanks, hg, if_true]
  rfl

/-! ## The release -/

/-- What the queues make due changes the work list alone. -/
theorem State.dispatchDue_only_pending (s : State) (vf : Nat) : ∃ p, s.dispatchDue vf = { s with pending := p } := by
  have hfold (l : List Nat) (s : State) : ∃ p, l.foldl (fun s q => s.postOnce (.runEligible vf q)) s = { s with pending := p } := by
    induction l generalizing s with
    | nil => exact ⟨s.pending, rfl⟩
    | cons q l ih =>
      obtain ⟨p, hp⟩ := ih (s.postOnce (.runEligible vf q))
      exact ⟨p, by rw [List.foldl_cons, hp, State.postOnce_only_pending]⟩
  obtain ⟨p, hp⟩ := hfold ((s.fn vf).queues.map (·.1)) s
  exact ⟨_, by rw [State.dispatchDue, hp, State.postOnce_only_pending]⟩

theorem exec_runRelease (r : Nat) (s : State) : exec (.runRelease r) s = execRunRelease r s := rfl

/-- A placed GANG run in a state in which its image has been read. -/
def State.releaseGang (s : State) (r : Nat) (x : Run) : State :=
  ((s.freshClusters r x x.clusters).giveRanks x).startRun r x []

/-- A placed run whose image is read and that has no initial tile is released. -/
theorem exec_runRelease_gang {s u : State} {r : Nat} {x : Run} (hx : s.run? r = some x) (hp : x.phase = .placed) (hs : x.stop = none)
    (hw : s.feWaits r = false) (href : x.refused = []) (hk : Rec.kind x.rec_ = 2) (hm : Rec.cwmask x.rec_ = 0) (ht : x.tiles = [])
    (hread : s.ImageReads x.vf x.image [Rec.entry x.rec_] u) (hc : ∀ c ∈ x.clusters, (s.cluster c).run = some r) :
    exec (.runRelease r) s = .next (u.releaseGang r x) := by
  have hlive : x.clusters.filter (fun c => (u.cluster c).run == some r) = x.clusters := by
    refine List.filter_eq_self.2 fun c hcm => ?_
    obtain ⟨m, l, w, rfl⟩ := hread.keeps.1
    exact beq_iff_eq.2 (hc c hcm)
  have hranks : u.Reseats ((u.freshClusters r x x.clusters).giveRanks x) := by
    rw [State.giveRanks_gang hk]
    exact (u.reseats_freshClusters ..).trans (State.reseats_foldl (fun t _ => t.reseats_setThread ..) _ _)
  obtain ⟨th, co, cl, hseats⟩ := hranks
  simp only [exec_runRelease, execRunRelease, hx, hp, hs, hw, href, List.head?_nil, feDo_ok (loadE_gang hk hm hread), ht, State.seedTiles,
    feWrites, hlive, State.foldl_freshCluster, ne_eq, not_true_eq_false, Option.isSome_none, Bool.false_eq_true, or_self, if_false, State.releaseGang, hseats]

/-- The run as it begins. -/
def Run.started (x : Run) (seq : BitVec 32) (now : Nat) : Run :=
  { x with phase := .running, seq := seq, cwins := [], releasedAt := now, placedAt := now, sliceAt := now, waveAt := now, packflags := 0 }

theorem State.startRun_gang {s : State} {r : Nat} {x : Run} (hk : Rec.kind x.rec_ = 2) :
    ∃ p, s.startRun r x [] = { (s.updFn x.vf (fun f => { f with seq := (s.fn x.vf).seq + 1 })).setRun r
      (x.started ((s.fn x.vf).seq + 1) s.fclk) with pending := p } := by
  have hr : Rec.isReact x.rec_ = false := by simp [Rec.isReact, hk]
  obtain ⟨p, hp⟩ := ((s.updFn x.vf (fun f => { f with seq := (s.fn x.vf).seq + 1 })).setRun r
    (x.started ((s.fn x.vf).seq + 1) s.fclk)).dispatchDue_only_pending x.vf
  refine ⟨p, Eq.trans ?_ hp⟩
  simp only [State.startRun, hr, Bool.false_eq_true, if_false]
  rfl

/-- What a released GANG run finds. -/
theorem State.releaseGang_result {s : State} {r : Nat} {x : Run} (hk : Rec.kind x.rec_ = 2) (hsub : x.subst = [])
    (hw : Rec.packw x.rec_ ≤ 16) (hco : Rec.cores x.rec_ ≤ 16) (hth : Rec.threads x.rec_ ≤ 4) :
    let t := s.releaseGang r x
    t.run? r = some (x.started ((s.fn x.vf).seq + 1) s.fclk) ∧ (t.fn x.vf).seq = (s.fn x.vf).seq + 1 ∧
      (∀ i, i < Rec.nrank x.rec_ → t.thread (x.tsOf i) = (Thread.forRun r x s.wmax).ranked x i) ∧
      (∀ c ∈ x.clusters, ∀ k, k < 16 → (t.core c k).Fresh) ∧ ∀ a, t.byteAt a = s.byteAt a := by
  intro t
  let fresh := s.freshClusters r x x.clusters
  have hranks := State.giveRanks_gang (s := fresh) hk
  have hseats : fresh.Reseats (fresh.giveRanks x) := hranks ▸ State.reseats_foldl (fun t _ => t.reseats_setThread ..) _ _
  obtain ⟨th, co, cl, hg⟩ := (s.reseats_freshClusters r x x.clusters).trans hseats
  have hcores : (fresh.giveRanks x).cores = fresh.cores :=
    hranks ▸ List.foldlRecOn (motive := fun t : State => t.cores = fresh.cores) _ _ rfl (fun _ h _ _ => h)
  obtain ⟨p, hp⟩ := State.startRun_gang (s := fresh.giveRanks x) (r := r) hk
  have ht : t = { ((fresh.giveRanks x).updFn x.vf (fun f => { f with seq := ((fresh.giveRanks x).fn x.vf).seq + 1 })).setRun r
      (x.started (((fresh.giveRanks x).fn x.vf).seq + 1) (fresh.giveRanks x).fclk) with pending := p } := hp
  have hfn : (fresh.giveRanks x).fn x.vf = s.fn x.vf := by rw [hg]; rfl
  have hfclk : (fresh.giveRanks x).fclk = s.fclk := by rw [hg]
  rw [hfn, hfclk] at ht
  refine ⟨?_, ?_, fun i hi => ?_, fun c hc k hk => ?_, fun a => ?_⟩
  · rw [ht]
    exact State.run?_setRun_same ..
  · rw [ht]
    exact congrArg Fn.seq (State.fn_updFn_same (fresh.giveRanks x) x.vf (fun f => { f with seq := (s.fn x.vf).seq + 1 }))
  · have hnodup : ((List.range (Rec.nrank x.rec_)).map (fun i => TsId.key (x.tsOf i))).Nodup :=
      List.Nodup.map_on (fun a ha b hb h => Run.key_tsOf_injective hsub hw hco hth (List.mem_range.1 ha) (List.mem_range.1 hb) h)
        List.nodup_range
    have hthread : (fresh.giveRanks x).thread (x.tsOf i) = (fresh.thread (x.tsOf i)).ranked x i := by
      rw [hranks]
      exact State.thread_foldl_updThread (f := fun i th => th.ranked x i) hnodup (List.mem_range.2 hi)
    obtain ⟨c, hc, hu⟩ := Run.tsOf_mem hsub hco hth hi
    rw [ht, ← State.thread_freshClusters hc hu]
    exact hthread
  · rw [ht]
    show ((fresh.giveRanks x).core c k).Fresh
    rw [State.core, hcores]
    exact State.fresh_freshClusters hc hk
  · rw [ht]
    show (fresh.giveRanks x).byteAt a = s.byteAt a
    rw [hg]
    rfl

end Sys2Proof.Machine
end

section
/-! How a run is stopped (R17, R48, R370), and how its rule table is replaced (R49, R327). -/
namespace Sys2Proof.Machine

/-! ## Stopping the ranks of a GANG run -/

theorem State.thread_updThread_of_key {s : State} {t u : TsId} (f : Thread → Thread) (h : TsId.key u = TsId.key t) :
    (s.updThread t f).thread u = f (s.thread t) := State.thread_setThread_of_key _ h

/-- A thread set that issues nothing and sleeps on nothing. -/
def Thread.Quiet (t : Thread) : Prop := t.status ≠ .ready ∧ t.status ≠ .asleep

/-- A thread set of a stopping GANG run. -/
def Thread.stoppedGang (th : Thread) : Thread :=
  if th.status = .ready ∨ th.status = .asleep then { th with status := .stopped, wait := none } else th

theorem Thread.quiet_stoppedGang (th : Thread) : th.stoppedGang.Quiet := by
  unfold Thread.stoppedGang
  split
  · exact ⟨nofun, nofun⟩
  · next h => exact not_or.1 h

theorem State.reseats_stopGang (s : State) (x : Run) : s.Reseats (s.stopGang x) :=
  State.reseats_foldl (fun t _ => t.reseats_setThread ..) s _

/-- No rank of a stopped GANG run issues any more. -/
theorem State.quiet_stopGang {s : State} {x : Run} {u : TsId} (hu : u ∈ x.ranked) : ((s.stopGang x).thread u).Quiet := by
  refine foldl_establishes (f := fun s t => s.updThread t Thread.stoppedGang) (I := fun _ => True) (Q := fun t => TsId.key u = TsId.key t)
    (P := fun t => (t.thread u).Quiet) (fun _ _ _ => trivial) (fun t v _ hk => ?_) (fun t v _ h => ?_) x.ranked s trivial
    (.inl ⟨u, hu, rfl⟩)
  · rw [State.thread_updThread_of_key _ hk]
    exact Thread.quiet_stoppedGang _
  · by_cases hk : TsId.key u = TsId.key v
    · rw [State.thread_updThread_of_key _ hk]
      exact Thread.quiet_stoppedGang _
    · rwa [State.thread_updThread_ne _ _ _ _ hk]

theorem State.memoryKept_stopGang (s : State) (x : Run) : s.MemoryKept (s.stopGang x) :=
  State.memoryKept_foldl (fun t _ => t.memoryKept_updThread ..) s _

theorem State.Reseats.run? {s t : State} (h : s.Reseats t) (r : Nat) : t.run? r = s.run? r := by
  obtain ⟨th, co, cl, rfl⟩ := h
  rfl

/-- The end of an activation leaves memory and the runs alone. -/
theorem State.endAct_keeps (s : State) (k : ActKey) (f : Act → Act) : s.MemoryKept (s.endAct k f) ∧ (s.endAct k f).runs = s.runs := by
  have hheld (l : List TsId) : s.MemoryKept (l.foldl (fun s t => s.updThread t (fun th =>
      if th.act = some k then { th with status := .held, rep := none, wait := none } else th)) s) :=
    State.memoryKept_foldl (fun t _ => t.memoryKept_updThread ..) s l
  have hruns (l : List TsId) : (l.foldl (fun s t => s.updThread t (fun th =>
      if th.act = some k then { th with status := .held, rep := none, wait := none } else th)) s).runs = s.runs :=
    List.foldlRecOn (motive := fun t : State => t.runs = s.runs) _ _ rfl (fun _ h _ _ => h)
  have hupd (t : State) : t.MemoryKept ((t.updAct k f).postOnce (.commit k)) := by constructor <;> simp
  unfold State.endAct
  exact ⟨(hheld _).trans (hupd _), by rw [State.postOnce_runs, State.updAct_runs]; exact hruns _⟩

/-- The activations of a stopping run end. -/
theorem State.endActs_keeps (s : State) (l : List (ActKey × Act)) (f : Act → Act) :
    let t := l.foldl (fun s a => s.endAct a.1 f) s
    s.MemoryKept t ∧ t.runs = s.runs :=
  List.foldlRecOn (motive := fun t : State => s.MemoryKept t ∧ t.runs = s.runs) _ _ ⟨.refl s, rfl⟩
    (fun t h _ _ => ⟨h.1.trans (t.endAct_keeps ..).1, (t.endAct_keeps ..).2.trans h.2⟩)

/-- The ranks of a GANG run that stops are quiet. -/
theorem State.stopGang_result {s : State} {r : Nat} {x y : Run} (hrun : s.run? r = some y) :
    (s.stopGang x).run? r = some y ∧ s.MemoryKept (s.stopGang x) ∧ ∀ v ∈ x.ranked, ((s.stopGang x).thread v).Quiet :=
  ⟨((State.reseats_stopGang ..).run? r).trans hrun, s.memoryKept_stopGang x, fun _ hv => State.quiet_stopGang hv⟩

/-- A run that stops, from the state in which it is so marked and, unless it is a GANG run, has ended what it does: its ranks
are quiet, if it has such, and its completion is due. -/
theorem State.stopped_result {s u v : State} {r : Nat} {x y : Run} (hu : u.run? r = some y) (hmu : s.MemoryKept u)
    (hv : v.run? r = some y) (hmv : s.MemoryKept v) :
    let t := (if Rec.isGang x.rec_ then u.stopGang x else v).postOnce (.completionSignal r)
    t.run? r = some y ∧ Instr.completionSignal r ∈ t.pending ∧ s.SameMemory t .nowhere 0 ∧
      (Rec.kind x.rec_ = 2 → ∀ w ∈ x.ranked, (t.thread w).status ≠ .ready ∧ (t.thread w).status ≠ .asleep) := by
  have hall : let p := if Rec.isGang x.rec_ then u.stopGang x else v
      p.run? r = some y ∧ s.MemoryKept p ∧ (Rec.kind x.rec_ = 2 → ∀ w ∈ x.ranked, (p.thread w).Quiet) := by
    by_cases hk : Rec.isGang x.rec_ = true
    · obtain ⟨hrun, hmem, hquiet⟩ := State.stopGang_result (x := x) hu
      rw [if_pos hk]
      exact ⟨hrun, hmu.trans hmem, fun _ => hquiet⟩
    · rw [if_neg hk]
      exact ⟨hv, hmv, fun h => absurd (by simp [Rec.isGang, h]) hk⟩
  obtain ⟨hrun, hmem, hquiet⟩ := hall
  refine ⟨(State.run?_postOnce ..).trans hrun, State.mem_pending_postOnce .., (hmem.trans (State.memoryKept_postOnce ..)).sameMemory,
    fun hk w hw => ?_⟩
  rw [State.thread_congr (State.postOnce_threads ..)]
  exact hquiet hk w hw

/-! ## Limits and traps -/

theorem exec_timeLimitExpiry (r : Nat) (s : State) : exec (.timeLimitExpiry r) s = execTimeLimitExpiry r s := rfl
theorem exec_runStopTrapped (r : Nat) (s : State) : exec (.runStopTrapped r) s = execRunStopTrapped r s := rfl

/-- A run at its time limit, also while its pack is being stopped (R48). -/
theorem exec_timeLimitExpiry_stops {s : State} {r : Nat} {x : Run} (hx : s.run? r = some x) (hp : x.phase = .running ∨ x.phase = .draining)
    (hs : x.stop = none) (h0 : Rec.timelim x.rec_ ≠ 0) (hl : Rec.timelim x.rec_ ≤ x.ranBefore + (s.fclk - x.placedAt)) :
    let y : Run := { x with phase := .stopping, stop := some ⟨if Rec.kind x.rec_ = 1 then 2 else 10, 0, 0⟩ }
    exec (.timeLimitExpiry r) s =
      .next ((if Rec.isGang x.rec_ then (s.setRun r y).stopGang x else s.setRun r y).postOnce (.completionSignal r)) := by
  have hphase : ¬ (x.phase ≠ .running ∧ x.phase ≠ .draining) := by rw [not_and_or, not_not, not_not]; exact hp
  have hlim : ¬ x.ranBefore + (s.fclk - x.placedAt) < Rec.timelim x.rec_ := Nat.not_lt.2 hl
  simp only [exec_timeLimitExpiry, execTimeLimitExpiry, hx, hphase, hs, h0, hlim, Option.isSome_none, Bool.false_eq_true, or_self, if_false,
    Rec.isReact, beq_iff_eq]

/-- A run that a trap ends (R370). -/
theorem exec_runStopTrapped_stops {s : State} {r : Nat} {x : Run} {c : StopCause} (hx : s.run? r = some x) (hp : x.phase = .running)
    (hs : x.stop = some c) :
    let y : Run := { x with phase := .stopping }
    let u := s.setRun r y
    exec (.runStopTrapped r) s = .next ((if Rec.isGang x.rec_ then u.stopGang x
      else (u.acts.filter (fun a => a.1.run == r && !a.2.handler)).foldl (fun s a => s.endAct a.1 (fun a => { a with ending := some .abort })) u).postOnce
        (.completionSignal r)) := by
  have hring : x.inRing = false := by simp only [Run.inRing, hp]
  simp only [exec_runStopTrapped, execRunStopTrapped, hx, hp, hs, hring, reduceCtorEq, Option.isNone_some, Bool.false_eq_true, or_self, if_false]

/-! ## Replacement of a rule table -/

theorem exec_replaceRequest (r : Nat) (s : State) : exec (.replaceRequest r) s = execReplaceRequest r s := rfl
theorem exec_ruleTableSwitch (r : Nat) (s : State) : exec (.ruleTableSwitch r) s = execRuleTableSwitch r s := rfl

section
variable {s v : State} {r u : Nat} {x y : Run} (hx : s.run? r = some x) (hp : x.phase = .eligible) (hs : x.stop = none)
  (hw : s.feWaits r = false)
include hx hp hs hw

/-- Without a REACT run that runs under the RUNID there is no target (R327). -/
theorem exec_replaceRequest_noTarget (ht : s.runOf x.vf (BitVec.ofNat 64 (Rec.entry x.rec_)) = none ∨
    ∃ u y, s.runOf x.vf (BitVec.ofNat 64 (Rec.entry x.rec_)) = some (u, y) ∧ (Rec.kind y.rec_ ≠ 1 ∨ y.phase ≠ .running)) :
    exec (.replaceRequest r) s = .next (s.endUnreleased r ⟨9, 0, 0⟩) := by
  rcases ht with ht | ⟨u, y, ht, hy⟩
  · simp [exec_replaceRequest, execReplaceRequest, hx, hp, hs, hw, ht]
  · have hno : (!Rec.isReact y.rec_) = true ∨ y.phase ≠ .running := by simpa [Rec.isReact] using hy
    simp only [exec_replaceRequest, execReplaceRequest, hx, hp, hs, hw, ht, hno, ne_eq, not_true_eq_false, Option.isSome_none,
      Bool.false_eq_true, or_self, if_false, if_true]

/-- A target that can take a table has it read. -/
theorem exec_replaceRequest_reads {rules : Option (List Rule)} (ht : s.runOf x.vf (BitVec.ofNat 64 (Rec.entry x.rec_)) = some (u, y))
    (hk : Rec.kind y.rec_ = 1) (hyp : y.phase = .running) (hyr : y.replace = none) (href : x.refused = [])
    (hread : replaceE s.hub x y.image s = .ok (rules, v)) :
    (rules = none → exec (.replaceRequest r) s = .next (v.endUnreleased r ⟨4, 0, 0⟩)) ∧
      ∀ l, rules = some l → exec (.replaceRequest r) s =
        .next ((v.updRun u (fun y => { y with replace := some ⟨r, l⟩ })).postOnce (.ruleTableSwitch u)) := by
  have hno : ¬ ((!Rec.isReact y.rec_) = true ∨ y.phase ≠ .running) := by simp [Rec.isReact, hk, hyp]
  refine ⟨?_, fun l => ?_⟩
  all_goals
    rintro rfl
    simp only [exec_replaceRequest, execReplaceRequest, hx, hp, hs, hw, ht, hno, hyr, href, List.head?_nil, feDo_ok hread, ne_eq,
      not_true_eq_false, Option.isSome_none, Bool.false_eq_true, or_self, if_false]

end

/-- The kennels of a run under a new table: candidates form afresh, and a round is due. -/
def State.reform (s : State) (rules : List Rule) (l : List Nat) : State :=
  l.foldl (fun s c => (s.updKennel c (fun n => { n with cands := [] }.form rules)).roundDue c) s

theorem State.roundDue_reform_keeps (s : State) (rules : List Rule) (c : Nat) :
    let t := (s.updKennel c (fun n => { n with cands := [] }.form rules)).roundDue c
    s.MemoryKept t ∧ t.runs = s.runs ∧ (∀ d, (t.cluster d).kennel.tiles = (s.cluster d).kennel.tiles) ∧ s.pending ⊆ t.pending ∧
      Instr.arbitrationRound c ∈ t.pending := by
  refine ⟨(s.memoryKept_updKennel ..).trans (State.memoryKept_postOnce ..), State.postOnce_runs .., fun d => ?_,
    State.pending_subset_postOnce (s.updKennel c _) _, State.mem_pending_postOnce ..⟩
  rw [State.roundDue, State.cluster_postOnce]
  by_cases hd : d = c
  · rw [hd, State.cluster_updKennel_same]
    rfl
  · rw [State.cluster_updKennel_ne _ _ _ _ hd]

/-- The tiles of the kennels stay, and every kennel of the list has a round due. -/
theorem State.reform_keeps (s : State) (rules : List Rule) (l : List Nat) :
    let t := s.reform rules l
    s.MemoryKept t ∧ t.runs = s.runs ∧ (∀ d, (t.cluster d).kennel.tiles = (s.cluster d).kennel.tiles) ∧ s.pending ⊆ t.pending ∧
      ∀ c ∈ l, Instr.arbitrationRound c ∈ t.pending := by
  induction l generalizing s with
  | nil => exact ⟨.refl s, rfl, fun _ => rfl, List.Subset.refl _, fun c hc => absurd hc List.not_mem_nil⟩
  | cons c l ih =>
    obtain ⟨hmem, hruns, htiles, hpend, hdue⟩ := s.roundDue_reform_keeps rules c
    obtain ⟨hmem', hruns', htiles', hpend', hdue'⟩ := ih ((s.updKennel c (fun n => { n with cands := [] }.form rules)).roundDue c)
    refine ⟨hmem.trans hmem', hruns'.trans hruns, fun d => (htiles' d).trans (htiles d), List.Subset.trans hpend hpend', fun d hd => ?_⟩
    rcases List.mem_cons.1 hd with rfl | hd
    · exact hpend' hdue
    · exact hdue' d hd

/-- A run under its new table and generation (R49). -/
def Run.switched (y : Run) (p : Replace) (addr : Nat) : Run :=
  { y with rules := p.rules, rulesAddr := addr, gen := (y.gen + 1) % 65536, replace := none }

/-- The state of a switch. -/
def State.switchTable (s : State) (u : Nat) (y : Run) (p : Replace) (addr : Nat) : State :=
  { s.setRun u (y.switched p addr) with rollbacks := s.rollbacks.filter (fun q => !y.clusters.contains q.cluster) }.reform p.rules y.clusters

theorem exec_ruleTableSwitch_switches {s : State} {u : Nat} {y q : Run} {p : Replace} (hy : s.run? u = some y) (hp : y.replace = some p)
    (hph : y.phase = .running) (hq : s.run? p.by_ = some q) :
    exec (.ruleTableSwitch u) s = .next ((s.switchTable u y p (Rec.rulesAt q.rec_)).endUnreleased p.by_ ⟨8, 0, 0⟩) := by
  have hkept : ¬ (y.phase = .draining ∨ y.phase = .saved) := by rw [hph]; nofun
  have hruns : ¬ y.phase ≠ .running := not_not.2 hph
  simp only [exec_ruleTableSwitch, execRuleTableSwitch, hy, hp, hkept, hruns, hq, if_false, Option.map_some, Option.getD_some]
  rfl

theorem State.pending_endUnreleased {s : State} {r : Nat} {x : Run} (hx : s.run? r = some x) (c : StopCause) :
    s.pending ⊆ (s.endUnreleased r c).pending ∧ (∀ d, (s.endUnreleased r c).cluster d = s.cluster d) ∧
      ∀ q, q ≠ r → (s.endUnreleased r c).run? q = s.run? q := by
  have h : s.endUnreleased r c = (s.setRun r { x with stop := some c }).postOnce (.completionSignal r) := by
    simp only [State.endUnreleased, State.updRun, hx]
  rw [h]
  refine ⟨State.pending_subset_postOnce (s.setRun r _) _, fun d => State.cluster_postOnce .., fun q hq => ?_⟩
  rw [State.run?_postOnce, State.run?_setRun_ne _ _ _ _ hq]

/-- A switch: the target runs under the new table, the record that asked for it ends, and every kennel of the target forms its
candidates afresh. -/
theorem State.switchTable_result {s : State} {u : Nat} {y q : Run} {p : Replace} (addr : Nat) (hne : p.by_ ≠ u) (hq : s.run? p.by_ = some q) :
    let t := (s.switchTable u y p addr).endUnreleased p.by_ ⟨8, 0, 0⟩
    t.run? u = some (y.switched p addr) ∧ t.run? p.by_ = some { q with stop := some ⟨8, 0, 0⟩ } ∧
      Instr.completionSignal p.by_ ∈ t.pending ∧
      (∀ c ∈ y.clusters, Instr.arbitrationRound c ∈ t.pending ∧ (t.cluster c).kennel.tiles = (s.cluster c).kennel.tiles) ∧
      s.SameMemory t .nowhere 0 := by
  intro t
  let cleared : State := { s.setRun u (y.switched p addr) with rollbacks := s.rollbacks.filter (fun q => !y.clusters.contains q.cluster) }
  obtain ⟨hmem, hruns, htiles, -, hrounds⟩ := cleared.reform_keeps p.rules y.clusters
  have hother : (s.switchTable u y p addr).run? p.by_ = some q :=
    (State.run?_congr hruns p.by_).trans ((State.run?_setRun_ne s u p.by_ _ hne).trans hq)
  obtain ⟨hby, hdue, hmem'⟩ := State.endUnreleased_result hother ⟨8, 0, 0⟩
  obtain ⟨hpend, hclusters, hrest⟩ := State.pending_endUnreleased hother ⟨8, 0, 0⟩
  refine ⟨?_, hby, hdue, fun c hc => ⟨hpend (hrounds c hc), ?_⟩, ?_⟩
  · exact (hrest u hne.symm).trans ((State.run?_congr hruns u).trans (State.run?_setRun_same s u _))
  · rw [hclusters]
    exact htiles c
  · have hcleared : s.MemoryKept cleared := ⟨rfl, rfl, rfl, rfl, rfl⟩
    exact ((hcleared.trans hmem).trans hmem').sameMemory

end Sys2Proof.Machine
end

section
/-! The front end's stores to host memory (R413), and the completion record and the count that follows it (R329, R330). -/
namespace Sys2Proof.Machine

/-! ## Bytes written in pieces -/

theorem ByteMap.writes_append (m : ByteMap) (a : Nat) (bs cs : List Byte) :
    ByteMap.writes m a (bs ++ cs) = ByteMap.writes (ByteMap.writes m a bs) (a + bs.length) cs := by
  induction bs generalizing m a with
  | nil => rfl
  | cons b bs ih =>
    rw [List.cons_append, ByteMap.writes, ih, List.length_cons, ByteMap.writes, Nat.add_assoc, Nat.add_comm 1]

/-- A range written up to a point and from there on. -/
theorem ByteMap.writes_take_drop (m : ByteMap) (a k : Nat) (bs : List Byte) (hk : k ≤ bs.length) :
    ByteMap.writes (ByteMap.writes m a (bs.take k)) (a + k) (bs.drop k) = ByteMap.writes m a bs := by
  have h := ByteMap.writes_append m a (bs.take k) (bs.drop k)
  rw [List.take_append_drop, List.length_take, Nat.min_eq_left hk] at h
  exact h.symm

/-- The physical addresses of a host range do not wrap. -/
theorem hostAddr_add {pa n k : Nat} (h : pa % 2 ^ 51 + n ≤ 2 ^ 51) (hk : k < n) : hostAddr (pa + k) = hostAddr pa + k := by
  unfold hostAddr
  omega

/-! ## What the front end's translation does not depend on -/

/-- A state with other host memory, runs and write times. -/
def State.hosted (s : State) (m : ByteMap) (rs : NMap Run) (w : NMap Nat) (n : Nat) : State :=
  { s with hub := { s.hub with hostMem := m }, runs := rs, wtimes := w, wmax := n }

/-- A state with other runs and write times. -/
def State.retimed (s : State) (rs : NMap Run) (w : NMap Nat) (n : Nat) : State := s.hosted s.hub.hostMem rs w n

theorem State.walkFrom_retimed (s : State) (rs : NMap Run) (w : NMap Nat) (n vf va : Nat) (levels : List Nat) (base : Nat) :
    (s.retimed rs w n).walkFrom vf va levels base = s.walkFrom vf va levels base := by
  induction levels generalizing base with
  | nil => rfl
  | cons lo rest ih =>
    have hread (a : Nat) : (s.retimed rs w n).physRead vf a 8 = s.physRead vf a 8 := rfl
    have hheld (a : Nat) : (s.retimed rs w n).lineHeld a = s.lineHeld a := rfl
    simp only [State.walkFrom, ih, hread, hheld]

theorem State.walk_retimed (s : State) (rs : NMap Run) (w : NMap Nat) (n vf va : Nat) :
    (s.retimed rs w n).walk vf va = s.walk vf va := by
  have hfn : (s.retimed rs w n).fn vf = s.fn vf := rfl
  simp only [State.walk, State.walkFrom_retimed, hfn]

/-- Runs and write times have no part in where the front end's access leads. -/
theorem State.EngineAt.retimed {s : State} {vf : Nat} {need : Need} {va : Word} {q : Place} {pa : Nat}
    (h : s.EngineAt (frontEnd vf) need va (.phys q pa)) (rs : NMap Run) (w : NMap Nat) (n : Nat) :
    (s.retimed rs w n).EngineAt (frontEnd vf) need va (.phys q pa) := by
  cases h with
  | page _ _ hspace hscratch hpage hq hup => exact .page _ _ hspace hscratch hpage hq hup
  | walk t _ _ hpipe hspace hscratch hmiss hwalk hperm hpa hq hup =>
    exact .walk t _ _ hpipe hspace hscratch hmiss ((s.walk_retimed rs w n _ _).trans hwalk) hperm hpa hq hup

/-- A host range stays one whatever host memory, the runs and the write times hold. -/
theorem State.HostRange.hosted {s : State} {vf va n pa : Nat} {need : Need} (h : s.HostRange vf need va n pa)
    (m : ByteMap) (rs : NMap Run) (w : NMap Nat) (k : Nat) : (s.hosted m rs w k).HostRange vf need va n pa :=
  ⟨h.1, fun i hi m' => (h.2 i hi m').retimed rs w k⟩

theorem State.HostRange.spot {s : State} {vf va n pa : Nat} {need : Need} (h : s.HostRange vf need va n pa) (hn : 0 < n) :
    s.EngineAt (frontEnd vf) need (BitVec.ofNat 64 va) (.phys .host pa) :=
  h.2 0 hn s.hub.hostMem

theorem State.HostRange.take {s : State} {vf va n pa : Nat} {need : Need} (h : s.HostRange vf need va n pa) {k : Nat} (hk : k ≤ n) :
    s.HostRange vf need va k pa :=
  ⟨by have := h.1; omega, fun i hi m => h.2 i (by omega) m⟩

theorem State.HostRange.drop {s : State} {vf va n pa : Nat} {need : Need} (h : s.HostRange vf need va n pa) {k : Nat} (hk : k ≤ n) :
    s.HostRange vf need (va + k) (n - k) (pa + k) := by
  refine ⟨by have := h.1; omega, fun i hi m => ?_⟩
  rw [Nat.add_assoc, Nat.add_assoc]
  exact h.2 (k + i) (by omega) m

/-- A nonempty host range lies in the 49 bits of a function's addresses. -/
theorem State.HostRange.below {s : State} {vf va n pa : Nat} {need : Need} (h : s.HostRange vf need va n pa) (hva : va < 2 ^ 64)
    (hn : 0 < n) : va + n ≤ 2 ^ 49 := by
  have hlow (i : Nat) (hi : i < n) : (va + i) % 2 ^ 64 < 2 ^ 49 := by
    have hat := h.2 i hi s.hub.hostMem
    cases hat with
    | page _ _ hspace => rwa [BitVec.toNat_ofNat] at hspace
    | walk _ _ _ _ hspace => rwa [BitVec.toNat_ofNat] at hspace
  by_contra hc
  have h0 := hlow 0 hn
  have h1 := hlow (2 ^ 49 - va) (by omega)
  omega

/-! ## Stores to host memory -/

/-- The second state is the first with other host memory, and other write times. -/
def State.Hosts (s : State) (m : ByteMap) (t : State) : Prop := ∃ w n, t = s.hosted m s.runs w n

theorem State.Hosts.trans {s t u : State} {m m' : ByteMap} (h : s.Hosts m t) (g : t.Hosts m' u) : s.Hosts m' u := by
  obtain ⟨w, n, rfl⟩ := h
  obtain ⟨w', n', rfl⟩ := g
  exact ⟨w', n', rfl⟩

theorem State.Hosts.hostMem {s t : State} {m : ByteMap} (h : s.Hosts m t) : t.hub.hostMem = m := by
  obtain ⟨w, n, rfl⟩ := h
  rfl

theorem State.Hosts.hostRange {s t : State} {m : ByteMap} (h : s.Hosts m t) {vf va n pa : Nat} {need : Need}
    (hr : s.HostRange vf need va n pa) : t.HostRange vf need va n pa := by
  obtain ⟨w, k, rfl⟩ := h
  exact hr.hosted m s.runs w k

theorem engineWrite_host {s : State} {vf pa : Nat} {va : Word} (h : s.EngineAt (frontEnd vf) .w va (.phys .host pa)) (kind : FaultKind)
    (first : Word) (bs : List Byte) : ∃ t, engineWrite (frontEnd vf) kind first va bs s = .ok ((), t) ∧
      s.Hosts (ByteMap.writes s.hub.hostMem (hostAddr pa) bs) t := by
  refine ⟨_, ?_, NMap.set s.wtimes (pa / 256) (s.wmax + 1), s.wmax + 1, rfl⟩
  simp only [engineWrite, EM.bind_run, engineSpot_ok h]
  rfl

theorem linePieces_cons {fuel va n : Nat} (h : n ≠ 0) : linePieces (fuel + 1) va n =
    (va, min n (256 - va % 256)) :: linePieces fuel (va + min n (256 - va % 256)) (n - min n (256 - va % 256)) := if_neg h

/-- The pieces of a host range, written one after another, are the range written. -/
theorem writePieces_host {vf : Nat} (kind : FaultKind) (first : Word) (fuel : Nat) {s : State} {va pa : Nat} {bs : List Byte}
    (h : s.HostRange vf .w va bs.length pa) (hf : 0 < bs.length → va % 256 + bs.length ≤ 256 * fuel) :
    ∃ t, writePieces (frontEnd vf) kind first (linePieces fuel va bs.length) bs s = .ok ((), t) ∧
      s.Hosts (ByteMap.writes s.hub.hostMem (hostAddr pa) bs) t := by
  induction fuel generalizing s va pa bs with
  | zero =>
    obtain rfl : bs = [] := List.eq_nil_of_length_eq_zero (by omega)
    exact ⟨s, rfl, s.wtimes, s.wmax, rfl⟩
  | succ fuel ih =>
    by_cases h0 : bs.length = 0
    · obtain rfl := List.eq_nil_of_length_eq_zero h0
      exact ⟨s, rfl, s.wtimes, s.wmax, rfl⟩
    · obtain ⟨k, hk⟩ : ∃ k, k = min bs.length (256 - va % 256) := ⟨_, rfl⟩
      have hkn : k ≤ bs.length := by omega
      obtain ⟨u, hwrite, hu⟩ := engineWrite_host (h.spot (by omega)) kind first (bs.take k)
      have hrest := hu.hostRange (h.drop hkn)
      rw [← List.length_drop] at hrest
      obtain ⟨t, hmore, ht⟩ := ih hrest (fun hpos => by have := hf (by omega); rw [List.length_drop] at hpos ⊢; omega)
      refine ⟨t, ?_, ?_⟩
      · rw [List.length_drop] at hmore
        simp only [linePieces_cons h0, writePieces, EM.bind_run, ← hk, hwrite, hmore]
      · have hall := hu.trans ht
        rw [hu.hostMem] at hall
        by_cases hend : k < bs.length
        · rwa [hostAddr_add h.1 hend, ByteMap.writes_take_drop _ _ _ _ hkn] at hall
        · rwa [List.drop_of_length_le (by omega), List.take_of_length_le (by omega)] at hall

/-- Lines that the front end stores one by one are the range stored. -/
theorem feWrites_host {vf : Nat} (run : Nat) (again : Instr) (kind : FaultKind) (fuel : Nat) {s : State} {va pa : Nat} {bs : List Byte}
    (h : s.HostRange vf .w va bs.length pa) (hva : va + bs.length ≤ 2 ^ 49) (hf : 0 < bs.length → va % 256 + bs.length ≤ 256 * fuel) :
    ∃ t, feWrites vf run again kind (cutLines (linePieces fuel va bs.length) bs) s = .done t () ∧
      s.Hosts (ByteMap.writes s.hub.hostMem (hostAddr pa) bs) t := by
  induction fuel generalizing s va pa bs with
  | zero =>
    obtain rfl : bs = [] := List.eq_nil_of_length_eq_zero (by omega)
    exact ⟨s, rfl, s.wtimes, s.wmax, rfl⟩
  | succ fuel ih =>
    by_cases h0 : bs.length = 0
    · obtain rfl := List.eq_nil_of_length_eq_zero h0
      exact ⟨s, rfl, s.wtimes, s.wmax, rfl⟩
    · obtain ⟨k, hk⟩ : ∃ k, k = min bs.length (256 - va % 256) := ⟨_, rfl⟩
      have hkn : k ≤ bs.length := by omega
      have hlen : (bs.take k).length = k := by rw [List.length_take, Nat.min_eq_left hkn]
      have hto : (BitVec.ofNat 64 va).toNat = va := by rw [BitVec.toNat_ofNat, Nat.mod_eq_of_lt (by omega)]
      have hline := h.take hkn
      rw [← hlen] at hline
      obtain ⟨u, hwrite, hu⟩ := writePieces_host kind (BitVec.ofNat 64 va) ((bs.take k).length / 256 + 2) hline (fun _ => by omega)
      have hrest := hu.hostRange (h.drop hkn)
      rw [← List.length_drop] at hrest
      obtain ⟨t, hmore, ht⟩ := ih hrest (by simp only [List.length_drop]; omega)
        (fun hpos => by have := hf (by omega); rw [List.length_drop] at hpos ⊢; omega)
      refine ⟨t, ?_, ?_⟩
      · rw [List.length_drop] at hmore
        simp only [linePieces_cons h0, cutLines, feWrites, ← hk, hto, linesOf, hwrite, hmore]
      · have hall := hu.trans ht
        rw [hu.hostMem] at hall
        by_cases hend : k < bs.length
        · rwa [hostAddr_add h.1 hend, ByteMap.writes_take_drop _ _ _ _ hkn] at hall
        · rwa [List.drop_of_length_le (by omega), List.take_of_length_le (by omega)] at hall

/-- A host range at an address beyond 64 bits is that at the address that they hold. -/
theorem State.HostRange.wrap {s : State} {vf va n pa : Nat} {need : Need} (h : s.HostRange vf need va n pa) :
    s.HostRange vf need (va % 2 ^ 64) n pa := by
  refine ⟨h.1, fun i hi m => ?_⟩
  have heq : BitVec.ofNat 64 (va % 2 ^ 64 + i) = BitVec.ofNat 64 (va + i) := BitVec.eq_of_toNat_eq (by simp)
  rw [heq]
  exact h.2 i hi m

/-- A store of the front end to a host range is done. -/
theorem feStore_host {s : State} {vf va pa : Nat} {bs : List Byte} (run : Nat) (again : Instr) (kind : FaultKind)
    (h : s.HostRange vf .w va bs.length pa) : ∃ t, feStore vf run again kind none (lineWrites (BitVec.ofNat 64 va) bs) s = .done t () ∧
      s.Hosts (ByteMap.writes s.hub.hostMem (hostAddr pa) bs) t := by
  by_cases h0 : bs.length = 0
  · obtain rfl := List.eq_nil_of_length_eq_zero h0
    exact ⟨s, rfl, s.wtimes, s.wmax, rfl⟩
  · have hbelow := h.wrap.below (Nat.mod_lt _ (Nat.two_pow_pos 64)) (by omega)
    rw [feStore, lineWrites, linesOf, BitVec.toNat_ofNat]
    exact feWrites_host run again kind _ h.wrap hbelow (fun _ => by omega)

/-- A completion write to a host range is done, when no access of the run was refused. -/
theorem State.completionWrite_host {s : State} {x : Run} {va n pa : Nat} {bs : List Byte} (r : Nat) (href : x.refused = [])
    (hn : bs.length = n) (h : s.HostRange x.vf .w va n pa) : ∃ t, s.completionWrite r x va bs = .done t () ∧
      s.Hosts (ByteMap.writes s.hub.hostMem (hostAddr pa) bs) t := by
  subst hn
  obtain ⟨t, hstore, ht⟩ := feStore_host r (.completionSignal r) .store h
  refine ⟨t, ?_, ht⟩
  simp only [State.completionWrite, Run.refusedIn, href, List.find?_nil, hstore]

/-! ## Leaving the clusters -/

theorem State.reseats_leaveCluster (s : State) (c : Nat) : s.Reseats (s.leaveCluster c) :=
  (s.reseats_updCluster ..).trans (State.reseats_foldl (fun t _ => (t.reseats_setThread ..).trans (State.reseats_updCluster ..)) _ _)

theorem State.run_forgetMiss (s : State) (t : TsId) (n : Nat) : ((s.forgetMiss t).cluster n).run = (s.cluster n).run := by
  unfold State.forgetMiss
  by_cases h : n = t.cluster
  · rw [h, State.cluster_updCluster_same]
  · rw [State.cluster_updCluster_ne _ _ _ _ h]

/-- A cluster that is left has no run, and the others keep theirs. -/
theorem State.run_leaveCluster (s : State) (c n : Nat) :
    ((s.leaveCluster c).cluster n).run = if n = c then none else (s.cluster n).run := by
  have hfold (l : List TsId) (t : State) :
      ((l.foldl (fun s t => (s.setThread t Thread.reset).forgetMiss t) t).cluster n).run = (t.cluster n).run :=
    List.foldlRecOn (motive := fun u : State => (u.cluster n).run = (t.cluster n).run) _ _ rfl
      (fun u h t' _ => (State.run_forgetMiss (u.setThread t' Thread.reset) t' n).trans h)
  unfold State.leaveCluster
  rw [hfold]
  by_cases h : n = c
  · rw [h, State.cluster_updCluster_same, if_pos rfl]
  · rw [State.cluster_updCluster_ne _ _ _ _ h, if_neg h]

theorem State.run_foldl_leaveCluster {s : State} {l : List Nat} {n : Nat} (h : n ∈ l ∨ (s.cluster n).run = none) :
    ((l.foldl State.leaveCluster s).cluster n).run = none := by
  induction l generalizing s with
  | nil => exact h.resolve_left List.not_mem_nil
  | cons c l ih =>
    rw [List.foldl_cons]
    apply ih
    rw [State.run_leaveCluster]
    by_cases hc : n = c
    · exact .inr (if_pos hc)
    · rw [if_neg hc]
      exact h.imp_left (fun hm => (List.mem_cons.1 hm).resolve_left hc)

/-! ## The end of a run -/

theorem State.queue_updQueue_same (s : State) (vf q : Nat) (f : Queue → Queue) :
    (s.updQueue vf q f).queue vf q = f (s.queue vf q) := by
  simp [State.updQueue, State.queue]

/-- A run that has left its clusters is complete, and its queue counts it. -/
def State.settle (s : State) (r : Nat) (x : Run) (mine : List Nat) : State :=
  let spent := if x.seq = 0 then 0 else Rec.packw x.rec_ * Rec.packh x.rec_ * (s.fclk - x.placedAt)
  let cleared : State := { s with rollbacks := s.rollbacks.filter (fun q => !mine.contains q.cluster), saves := NMap.erase s.saves r }
  ((cleared.setRun r { x with phase := .complete }).updFn x.vf (fun f => { f with clusterTime := f.clusterTime + spent })).updQueue
    x.vf x.queue (fun k => { k with count := k.count + 1, runs := k.runs.filter (· != r) })

theorem State.finishRun_eq (s : State) (r : Nat) (x : Run) :
    s.finishRun r x = (((x.clusters.filter (fun c => (s.cluster c).run == some r)).foldl State.leaveCluster s).settle r x
      (x.clusters.filter (fun c => (s.cluster c).run == some r))).dispatchDue x.vf := rfl

theorem State.settle_result (s : State) (r : Nat) (x : Run) (mine : List Nat) :
    let t := s.settle r x mine
    t.run? r = some { x with phase := .complete } ∧ t.queue x.vf x.queue = { s.queue x.vf x.queue with
      count := (s.queue x.vf x.queue).count + 1, runs := (s.queue x.vf x.queue).runs.filter (· != r) } := by
  refine ⟨State.run?_setRun_same { s with rollbacks := _, saves := _ } r _, (State.queue_updQueue_same ..).trans ?_⟩
  have hqueues (u : State) (n : Nat) : (u.updFn x.vf (fun f => { f with clusterTime := f.clusterTime + n })).queue x.vf x.queue =
      u.queue x.vf x.queue := by
    simp [State.queue]
  rw [hqueues]
  rfl

/-- The end of a run: it is complete, its queue counts it, and its clusters are free; hub and memory stay (R329). -/
theorem State.finishRun_result (s : State) (r : Nat) (x : Run) :
    let t := s.finishRun r x
    t.hub = s.hub ∧ t.run? r = some { x with phase := .complete } ∧
      t.queue x.vf x.queue = { s.queue x.vf x.queue with
        count := (s.queue x.vf x.queue).count + 1, runs := (s.queue x.vf x.queue).runs.filter (· != r) } ∧
      (∀ n ∈ x.clusters, (s.cluster n).run = some r → (t.cluster n).run = none) ∧ ∀ a, t.byteAt a = s.byteAt a := by
  obtain ⟨mine, hmine⟩ : ∃ l, l = x.clusters.filter (fun c => (s.cluster c).run == some r) := ⟨_, rfl⟩
  obtain ⟨u, hu⟩ : ∃ u, u = mine.foldl State.leaveCluster s := ⟨_, rfl⟩
  obtain ⟨p, hp⟩ := (u.settle r x mine).dispatchDue_only_pending x.vf
  obtain ⟨hrun, hqueue⟩ := u.settle_result r x mine
  have hseats : s.Reseats u := hu ▸ State.reseats_foldl State.reseats_leaveCluster s mine
  have hfree {n : Nat} (hn : n ∈ x.clusters) (h : (s.cluster n).run = some r) : (u.cluster n).run = none := by
    have hm : n ∈ mine := hmine ▸ List.mem_filter.2 ⟨hn, by rw [h, beq_self_eq_true]⟩
    exact hu ▸ State.run_foldl_leaveCluster (.inl hm)
  rw [State.finishRun_eq, ← hmine, ← hu, hp]
  obtain ⟨th, co, cl, rfl⟩ := hseats
  exact ⟨rfl, hrun, hqueue, fun _ hn h => hfree hn h, fun _ => rfl⟩

/-! ## The completion signal -/

theorem exec_completionSignal (r : Nat) (s : State) : exec (.completionSignal r) s = execCompletionSignal r s := rfl

section
variable {s : State} {r : Nat} {x : Run} (hx : s.run? r = some x) (hw : s.feWaits r = false)
include hx hw

/-- A GANG run that has halted stops with the completion status of that. -/
theorem exec_completionSignal_halted (hs : x.stop = none) (hp : x.phase = .running) (hh : s.gangHalted x = true) :
    exec (.completionSignal r) s = .next ((s.setRun r { x with phase := .stopping, stop := some ⟨3, 0, 0⟩ }).postOnce (.completionSignal r)) := by
  have hopen : ¬ (x.phase = .complete ∨ s.feWaits r = true) := by simp [hp, hw]
  have hhalt : (decide (x.phase = .running) && s.gangHalted x) = true := by simp [hp, hh]
  simp only [exec_completionSignal, execCompletionSignal, hx, hopen, hs, hhalt, if_false, if_true]

theorem exec_completionSignal_stopping {c : StopCause} (hs : x.stop = some c) (hp : x.phase = .stopping) :
    exec (.completionSignal r) s = .next (if s.runBusy r x then s.postOnce (.completionSignal r) else s.conclude r x c) := by
  have hopen : ¬ (x.phase = .complete ∨ s.feWaits r = true) := by simp [hp, hw]
  have hring : x.inRing = false := by simp only [Run.inRing, hp]
  have hstops : ¬ x.phase ≠ .stopping := not_not.2 hp
  simp only [exec_completionSignal, execCompletionSignal, hx, hopen, hs, hring, hstops, if_false, Bool.false_eq_true]

end

theorem State.length_completionRecord (s : State) (r : Nat) (x : Run) (c : StopCause) : (s.completionRecord r x c).length = 64 :=
  length_leBytes ..

/-- The record and the count are stored, in that order, and the run ends (R329). -/
theorem State.signal_result {s : State} {r pa pb : Nat} {x : Run} {c : StopCause} {k : Queue} (href : x.refused = [])
    (hk : s.queue x.vf x.queue = k) (hslots : Qcb.cslots k.qcb ≠ 0)
    (ha : s.HostRange x.vf .w (Qcb.cring k.qcb + 64 * (k.count.toNat % Qcb.cslots k.qcb)) 64 pa)
    (hb : s.HostRange x.vf .w (Qcb.cnt k.qcb) 8 pb) :
    ∃ t, s.signal r x c = t.finishRun r x ∧ s.Hosts (ByteMap.writes (ByteMap.writes s.hub.hostMem (hostAddr pa)
      (s.completionRecord r x c)) (hostAddr pb) (leBytes 8 (k.count + 1).toNat)) t := by
  have hmax : max 1 (Qcb.cslots k.qcb) = Qcb.cslots k.qcb := by omega
  obtain ⟨u, hrecord, hu⟩ := State.completionWrite_host r href (s.length_completionRecord r x c) ha
  obtain ⟨t, hcount, ht⟩ := State.completionWrite_host r href (length_leBytes 8 (k.count + 1).toNat) (hu.hostRange hb)
  refine ⟨t, ?_, ?_⟩
  · simp only [State.signal, hk, hmax, hrecord, hcount]
  · have hall := hu.trans ht
    rwa [hu.hostMem] at hall

theorem Queue.cslots_of_enabled {k : Queue} (h : k.enabled = true) : Qcb.cslots k.qcb ≠ 0 := by
  intro h0
  simp [Queue.enabled, Qcb.enabled, h0] at h

/-- A stored record and count, and the end of the run. -/
theorem State.signal_signals {s : State} {r pa pb : Nat} {x : Run} {c : StopCause} {k : Queue} (href : x.refused = [])
    (hk : s.queue x.vf x.queue = k) (hen : k.enabled = true)
    (ha : s.HostRange x.vf .w (Qcb.cring k.qcb + 64 * (k.count.toNat % Qcb.cslots k.qcb)) 64 pa)
    (hb : s.HostRange x.vf .w (Qcb.cnt k.qcb) 8 pb) :
    let t := s.signal r x c
    t.hub.hostMem = ByteMap.writes (ByteMap.writes s.hub.hostMem (hostAddr pa) (s.completionRecord r x c)) (hostAddr pb)
        (leBytes 8 (k.count + 1).toNat) ∧
      t.run? r = some { x with phase := .complete } ∧
      t.queue x.vf x.queue = { k with count := k.count + 1, runs := k.runs.filter (· != r) } ∧
      (∀ n ∈ x.clusters, (s.cluster n).run = some r → (t.cluster n).run = none) ∧ ∀ a, t.byteAt a = s.byteAt a := by
  obtain ⟨u, hsignal, w, n, rfl⟩ := State.signal_result (r := r) (c := c) href hk (Queue.cslots_of_enabled hen) ha hb
  obtain ⟨hhub, hrun, hqueue, hfree, hbyte⟩ := State.finishRun_result (s.hosted _ s.runs w n) r x
  rw [hsignal, ← hk]
  exact ⟨congrArg Hub.hostMem hhub, hrun, hqueue, hfree, hbyte⟩

/-- Host memory, the runs and the write times have no part in a completion record. -/
theorem State.completionRecord_hosted (s : State) (m : ByteMap) (rs : NMap Run) (w : NMap Nat) (n r : Nat) (x : Run) (c : StopCause) :
    (s.hosted m rs w n).completionRecord r x c = s.completionRecord r x c := rfl

/-- Signalled from a state with other host memory, runs and write times. -/
theorem State.signal_hosted {s : State} {r pa pb : Nat} {x : Run} {c : StopCause} {k : Queue} (m : ByteMap) (rs : NMap Run) (w : NMap Nat)
    (n : Nat) (href : x.refused = []) (hk : s.queue x.vf x.queue = k) (hen : k.enabled = true)
    (ha : s.HostRange x.vf .w (Qcb.cring k.qcb + 64 * (k.count.toNat % Qcb.cslots k.qcb)) 64 pa)
    (hb : s.HostRange x.vf .w (Qcb.cnt k.qcb) 8 pb) :
    let t := (s.hosted m rs w n).signal r x c
    t.hub.hostMem = ByteMap.writes (ByteMap.writes m (hostAddr pa) (s.completionRecord r x c)) (hostAddr pb)
        (leBytes 8 (k.count + 1).toNat) ∧
      t.run? r = some { x with phase := .complete } ∧
      t.queue x.vf x.queue = { k with count := k.count + 1, runs := k.runs.filter (· != r) } ∧
      (∀ n ∈ x.clusters, (s.cluster n).run = some r → (t.cluster n).run = none) ∧ ∀ a, t.byteAt a = s.byteAt a := by
  have h := State.signal_signals (s := s.hosted m rs w n) (r := r) (c := c) href hk hen (ha.hosted ..) (hb.hosted ..)
  rw [State.completionRecord_hosted] at h
  exact h

/-- The region of the remaining tiles of a run that was stopped at a limit or found stable (R47), and whether it is cut short. -/
def State.resultOf (s : State) (x : Run) (c : StopCause) : List Byte :=
  if c.status = 1 ∨ c.status = 2 then (s.resultBytes x c.status).1 else []
def State.concluded (s : State) (x : Run) (c : StopCause) : Run :=
  if c.status = 1 ∨ c.status = 2 then { x with trunc := (s.resultBytes x c.status).2 } else x

/-- Result region, completion record and count, in that order, and the end of the run (R47, R329). -/
theorem State.conclude_result {s : State} {r pr pa pb : Nat} {x : Run} {c : StopCause} {k : Queue} (href : x.refused = [])
    (hk : s.queue x.vf x.queue = k) (hen : k.enabled = true)
    (hr : s.HostRange x.vf .w (Rec.result x.rec_) (s.resultOf x c).length pr)
    (ha : s.HostRange x.vf .w (Qcb.cring k.qcb + 64 * (k.count.toNat % Qcb.cslots k.qcb)) 64 pa)
    (hb : s.HostRange x.vf .w (Qcb.cnt k.qcb) 8 pb) :
    let t := s.conclude r x c
    t.hub.hostMem = ByteMap.writes (ByteMap.writes (ByteMap.writes s.hub.hostMem (hostAddr pr) (s.resultOf x c)) (hostAddr pa)
        (s.completionRecord r (s.concluded x c) c)) (hostAddr pb) (leBytes 8 (k.count + 1).toNat) ∧
      t.run? r = some { s.concluded x c with phase := .complete } ∧
      t.queue x.vf x.queue = { k with count := k.count + 1, runs := k.runs.filter (· != r) } ∧
      (∀ n ∈ x.clusters, (s.cluster n).run = some r → (t.cluster n).run = none) ∧ ∀ a, t.byteAt a = s.byteAt a := by
  by_cases h : c.status = 1 ∨ c.status = 2
  · simp only [State.resultOf, State.concluded, h, if_true] at hr ⊢
    obtain ⟨u, hstore, w, n, rfl⟩ := feStore_host r (.completionSignal r) .store hr
    have hconclude : s.conclude r x c = (s.hosted (ByteMap.writes s.hub.hostMem (hostAddr pr) (s.resultBytes x c.status).1)
        (NMap.set s.runs r { x with trunc := (s.resultBytes x c.status).2 }) w n).signal r
        { x with trunc := (s.resultBytes x c.status).2 } c := by
      simp only [State.conclude, h, if_true, Run.refusedIn, href, List.find?_nil, hstore]
      rfl
    rw [hconclude]
    exact State.signal_hosted (x := { x with trunc := (s.resultBytes x c.status).2 }) _ _ w n href hk hen ha hb
  · simp only [State.resultOf, State.concluded, h, if_false]
    have hconclude : s.conclude r x c = s.signal r x c := by simp only [State.conclude, h, if_false]
    rw [hconclude]
    exact State.signal_signals href hk hen ha hb

end Sys2Proof.Machine
end

section
/-! The layout of a completion record (R329). -/
namespace Sys2Proof.Machine

/-- The number whose bytes are a completion record. -/
def State.completionNumber (s : State) (r : Nat) (x : Run) (c : StopCause) : Nat :=
  x.seq.toNat + 2 ^ 32 * x.vf + 2 ^ 37 * x.queue + 2 ^ 48 * c.status + 2 ^ 56 * (c.sub % 256) + 2 ^ 64 * x.addr.toNat +
    2 ^ 128 * (if Rec.isReact x.rec_ then x.firings else 0) + 2 ^ 192 * (x.conflicts % 2 ^ 32) + 2 ^ 224 * (x.preempts % 2 ^ 32) +
    2 ^ 256 * (s.packFlags r x).toNat + 2 ^ 262 * x.trunc.toNat + 2 ^ 320 * c.tval.toNat +
    2 ^ 384 * (if x.seq = 0 then 0 else s.fclk - x.releasedAt)

theorem State.completionRecord_eq (s : State) (r : Nat) (x : Run) (c : StopCause) :
    s.completionRecord r x c = leBytes 64 (s.completionNumber r x c) := rfl

section
variable {s : State} {r : Nat} {x : Run} {c : StopCause} (hvf : x.vf < 32) (hq : x.queue < 64) (hst : c.status < 256) (hsub : c.sub < 256)
  (hfir : x.firings < 2 ^ 64) (hclk : s.fclk < 2 ^ 64)

include hvf hq hst hsub hfir hclk

/-- The number of a completion record, read back field by field. -/
theorem State.completionNumber_fields :
    let n := s.completionNumber r x c
    n % 2 ^ 512 = n ∧ n % 2 ^ 32 = x.seq.toNat ∧ n / 2 ^ 32 % 2 ^ 5 = x.vf ∧ n / 2 ^ 37 % 2 ^ 6 = x.queue ∧ n / 2 ^ 43 % 2 ^ 5 = 0 ∧
      n / 2 ^ 48 % 2 ^ 8 = c.status ∧ n / 2 ^ 56 % 2 ^ 8 = c.sub ∧ n / 2 ^ 64 % 2 ^ 64 = x.addr.toNat ∧
      n / 2 ^ 128 % 2 ^ 64 = (if Rec.isReact x.rec_ then x.firings else 0) ∧ n / 2 ^ 256 % 2 ^ 6 = (s.packFlags r x).toNat ∧
      n / 2 ^ 262 % 2 = x.trunc.toNat ∧ n / 2 ^ 263 % 2 ^ 57 = 0 ∧ n / 2 ^ 320 % 2 ^ 64 = c.tval.toNat ∧
      n / 2 ^ 384 % 2 ^ 64 = (if x.seq = 0 then 0 else s.fclk - x.releasedAt) := by
  have hseq := x.seq.isLt
  have haddr := x.addr.isLt
  have hflags := (s.packFlags r x).isLt
  have htval := c.tval.isLt
  have htrunc := x.trunc.toNat_lt
  have hfired : (if Rec.isReact x.rec_ then x.firings else 0) < 2 ^ 64 := by split <;> omega
  have htime : (if x.seq = 0 then 0 else s.fclk - x.releasedAt) < 2 ^ 64 := by split <;> omega
  dsimp only [State.completionNumber]
  rw [Nat.mod_eq_of_lt hsub]
  generalize (if Rec.isReact x.rec_ then x.firings else 0) = f at *
  generalize (if x.seq = 0 then 0 else s.fclk - x.releasedAt) = t at *
  refine ⟨?_, ?_, ?_, ?_, ?_, ?_, ?_, ?_, ?_, ?_, ?_, ?_, ?_, ?_⟩
  all_goals omega

theorem State.toNat_completionRecord :
    (BitVec.ofNat 512 (leNat (s.completionRecord r x c))).toNat = s.completionNumber r x c := by
  obtain ⟨hmod, -⟩ := State.completionNumber_fields (s := s) (r := r) hvf hq hst hsub hfir hclk
  have hbytes : s.completionNumber r x c < 256 ^ 64 := by omega
  have hnat : leNat (s.completionRecord r x c) = s.completionNumber r x c := by
    rw [State.completionRecord_eq, leNat_leBytes, Nat.mod_eq_of_lt hbytes]
  rw [hnat, BitVec.toNat_ofNat]
  omega

/-- The fields of a completion record (R329). -/
theorem State.completionRecord_layout :
    let w : BitVec 512 := BitVec.ofNat 512 (leNat (s.completionRecord r x c))
    w.extractLsb' 0 32 = x.seq ∧ natBits w.toNat 36 32 = x.vf ∧
    natBits w.toNat 42 37 = x.queue ∧ natBits w.toNat 47 43 = 0 ∧ natBits w.toNat 55 48 = c.status ∧
    natBits w.toNat 63 56 = c.sub ∧ w.extractLsb' 64 64 = x.addr ∧
    natBits w.toNat 191 128 = (if Rec.isReact x.rec_ then x.firings else 0) ∧ w.extractLsb' 256 6 = s.packFlags r x ∧
    w.getLsbD 262 = x.trunc ∧ natBits w.toNat 319 263 = 0 ∧ w.extractLsb' 320 64 = c.tval ∧
    natBits w.toNat 447 384 = (if x.seq = 0 then 0 else s.fclk - x.releasedAt) := by
  intro w
  have hw : w.toNat = s.completionNumber r x c := State.toNat_completionRecord hvf hq hst hsub hfir hclk
  obtain ⟨-, hseq, hvf', hqueue, hzero, hstatus, hsub', haddr, hfired, hflags, htrunc, hzero', htval, htime⟩ :=
    State.completionNumber_fields (s := s) (r := r) hvf hq hst hsub hfir hclk
  have hfield {n : Nat} {v : BitVec n} (lo : Nat) (h : s.completionNumber r x c / 2 ^ lo % 2 ^ n = v.toNat) : w.extractLsb' lo n = v := by
    apply BitVec.eq_of_toNat_eq
    rw [BitVec.extractLsb'_toNat, hw, Nat.shiftRight_eq_div_pow, h]
  have hbits (hi lo : Nat) : natBits w.toNat hi lo = s.completionNumber r x c / 2 ^ lo % 2 ^ (hi + 1 - lo) := by
    rw [natBits, hw, Nat.shiftRight_eq_div_pow]
  have hbit : w.getLsbD 262 = x.trunc := by
    have hnat : (w.getLsbD 262).toNat = x.trunc.toNat := by
      rw [BitVec.getLsbD, Nat.toNat_testBit, hw]
      exact htrunc
    rw [← Bool.ofNat_toNat (w.getLsbD 262), hnat, Bool.ofNat_toNat]
  have hlow : w.extractLsb' 0 32 = x.seq := hfield 0 ((congrArg (· % 2 ^ 32) (Nat.div_one _)).trans hseq)
  exact ⟨hlow, (hbits ..).trans hvf', (hbits ..).trans hqueue, (hbits ..).trans hzero, (hbits ..).trans hstatus,
    (hbits ..).trans hsub', hfield 64 haddr, (hbits ..).trans hfired, hfield 256 hflags, hbit, (hbits ..).trans hzero',
    hfield 320 htval, (hbits ..).trans htime⟩

end
end Sys2Proof.Machine
end

section
/-! The life of a run (R18 to R21, R46 to R49, R323 to R330): the obligation, from the parts above. -/
namespace Sys2Proof.Machine

/-! ## Time slices, for whom waits -/

section
variable {s : State} {r : Nat} {x : Run} (hx : s.run? r = some x) (hc : x.sliceAt + 3600000 ≤ s.fclk) (hp : x.phase = .running)
include hx hc hp

/-- No pack gives way when that helps none of those that wait. -/
theorem exec_timeSliceExpiry_helpless (hany : ∃ w ∈ s.waiters, s.wantsSlice x w = true)
    (hnone : ∀ w ∈ s.waiters, s.wantsSlice x w = true → s.preemptSlice w.2 = none) : exec (.timeSliceExpiry r) s = .next s := by
  obtain ⟨w, hw, hwants⟩ := hany
  rw [exec_timeSliceExpiry_preempts hx hc hp (List.ne_nil_of_mem (List.mem_filter.2 ⟨hw, hwants⟩)), List.findSome?_eq_none_iff.2]
  · rfl
  · intro v hv
    obtain ⟨hv, hwants⟩ := List.mem_filter.1 hv
    exact hnone v hv hwants

/-- The packs give way for the first of those that wait whom that helps. -/
theorem exec_timeSliceExpiry_first {before after : List (Nat × Run)} {w : Nat × Run} {t : State} (hw : s.waiters = before ++ w :: after)
    (hwants : s.wantsSlice x w = true) (hbefore : ∀ v ∈ before, s.wantsSlice x v = true → s.preemptSlice v.2 = none)
    (ht : s.preemptSlice w.2 = some t) : exec (.timeSliceExpiry r) s = .next t := by
  have hmem : w ∈ s.waiters := hw ▸ List.mem_append_right _ List.mem_cons_self
  have hskip : (before.filter (s.wantsSlice x)).findSome? (fun v => s.preemptSlice v.2) = none :=
    List.findSome?_eq_none_iff.2 fun v hv => hbefore v (List.mem_filter.1 hv).1 (List.mem_filter.1 hv).2
  rw [exec_timeSliceExpiry_preempts hx hc hp (List.ne_nil_of_mem (List.mem_filter.2 ⟨hmem, hwants⟩)), hw, List.filter_append,
    List.findSome?_append, hskip, List.filter_cons_of_pos hwants, List.findSome?_cons, ht]
  rfl

end

end Sys2Proof.Machine

open Sys2Proof Sys2Proof.Machine

/-- Settles O50: admission, placement, release, limits and slices, replacement, and completion, one after another. -/
theorem runResult : Obligations.RunResult := by
  unfold Obligations.RunResult
  refine ⟨?admission, ?placement, ?release, ?timeLimit, ?timeSlice, ?request, ?switch, ?completion, ?record⟩
  case admission =>
    intro vf q r x s hr hx hp hs ho hw he href hnone
    have hexec := exec_runEligible_admits hr hx hp hs ho hw he
    refine ⟨fun n hc hn h0 => ?_, fun hc hk hi => ?_, fun img hc himg hn => ?_⟩
    · obtain ⟨hrun, hdue, hmem⟩ := State.endUnreleased_result hx ⟨5, n, 0⟩
      refine ⟨_, hexec, ?_⟩
      rw [State.admitRun_refuses hc (hn ▸ h0), hn]
      exact ⟨hrun, hdue, hmem.sameMemory⟩
    · obtain ⟨hrun, hdue, hmem⟩ := State.admitRules_gang (s := s) (vf := vf) (q := q) (r := r) href hnone hk hi
      refine ⟨_, hexec, ?_⟩
      rw [State.admitRun_checked hc]
      exact ⟨hrun, hdue, hmem.sameMemory⟩
    · intro x'
      refine ⟨fun hk hi => ?_, fun raw u hk hread => ?_⟩
      · obtain ⟨hrun, hdue, hmem⟩ := State.admitRules_gang (s := s.setRun r x') (vf := vf) (q := q) (r := r) (x := x') href hnone hk hi
        refine ⟨_, hexec, ?_⟩
        rw [State.admitRun_passes hc himg hn (by rw [hk]; decide)]
        exact ⟨hrun, hdue, ((s.memoryKept_setRun r x').trans hmem).sameMemory⟩
      · have hother : Rec.kind x.rec_ ≠ 3 := fun h3 => absurd (hk.symm.trans h3) (by decide)
        rw [State.admitRun_passes hc himg hn hother] at hexec
        refine ⟨fun hall => ?_, ?_⟩
        · exact ⟨_, hexec, State.admitRules_react_refused (x := x') href hnone (State.run?_setRun_same ..) hk hread hall⟩
        · intro n cnt v tl w hall hcount y z htiles
          have hreads : u.CountReads x' n v := hcount.imp_right fun ⟨hi, hn, hr⟩ => ⟨cnt, hi, hn, hr⟩
          obtain ⟨hfull, hroom⟩ := State.admitRules_react (vf := vf) (q := q) (x := x') href hnone hk hread hall hreads htiles
          refine ⟨fun h => ⟨_, hexec, hfull h⟩, fun h => ⟨_, hexec, ?_⟩⟩
          obtain ⟨hrun, hdue, hmem⟩ := hroom h
          exact ⟨hrun, hdue, (s.memoryKept_setRun r x').sameMemory.trans hmem⟩
  case placement =>
    intro r n x s hw _ hp hk hb live
    obtain ⟨hrun, hclusters, hdue, hmem⟩ := State.placeAt_gang (s := s) (r := r) (n := n) hp hk
    refine ⟨_, exec_runPlace_places hw hb, (State.run?_postOnce ..).trans hrun, fun c => ?_, State.pending_subset_postOnce _ _ hdue,
      hmem.trans (State.memoryKept_postOnce ..).sameMemory⟩
    rw [State.cluster_postOnce]
    exact hclusters c
  case release =>
    intro r x s u hx hp hs hw href hk hm ht hsub hread hc hpw hco hth
    have hexec := exec_runRelease_gang hx hp hs hw href hk hm ht hread hc
    obtain ⟨hrun, hseq, hthreads, hcores, hbytes⟩ := State.releaseGang_result (s := u) (r := r) hk hsub hpw hco hth
    obtain ⟨hslices, hsame⟩ := hread.keeps
    have hu : u.fn x.vf = s.fn x.vf ∧ u.fclk = s.fclk ∧ u.wmax = s.wmax := by
      obtain ⟨m, l, w, rfl⟩ := hslices
      exact ⟨rfl, rfl, rfl⟩
    obtain ⟨hfn, hfclk, hwmax⟩ := hu
    rw [hfn, hfclk] at hrun
    rw [hfn] at hseq
    rw [hwmax] at hthreads
    exact ⟨_, hexec, hrun, hseq, hthreads, fun c hc k hk => (hcores c hc k hk).reset, fun a => (hbytes a).trans (hsame a)⟩
  case timeLimit =>
    intro r x s hx hp hs h0 hl
    let y : Run := { x with phase := .stopping, stop := some ⟨if Rec.kind x.rec_ = 1 then 2 else 10, 0, 0⟩ }
    have hrun : (s.setRun r y).run? r = some y := State.run?_setRun_same s r y
    exact ⟨_, exec_timeLimitExpiry_stops hx hp hs h0 hl, State.stopped_result hrun (s.memoryKept_setRun r y) hrun (s.memoryKept_setRun r y)⟩
  case timeSlice =>
    intro r x s hx hp
    refine ⟨exec_timeSliceExpiry_early hx, fun hc => ?_, fun c hs => ?_⟩
    · intro wants
      have hwants (w : Nat × Run) : wants w ↔ s.wantsSlice x w = true := State.wantsSlice_iff.symm
      simp only [hwants]
      refine ⟨fun hnone => ?_, exec_timeSliceExpiry_helpless hx hc hp, fun before w after hw hwant hbefore hd hlower hpre hone hnodup => ?_⟩
      · exact exec_timeSliceExpiry_renews hx hc hp (List.filter_eq_nil_iff.2 hnone)
      · obtain ⟨hv, hprio, hbest⟩ := State.wantsSlice_iff.1 hwant
        have hsingle := State.preemptSlice_single hx hc hv hprio hd hlower hpre hone hnodup hbest
        refine ⟨fun hb => by rw [hsingle, hb]; rfl, fun hb => ?_⟩
        obtain ⟨n, hn⟩ := Option.isSome_iff_exists.1 hb
        rw [hn, Option.map_some] at hsingle
        exact ⟨_, exec_timeSliceExpiry_first hx hc hp hw hwant hbefore hsingle, State.mem_pending_postOnce .., s.postOnce_only_pending _⟩
    · let y : Run := { x with phase := .stopping }
      let u := s.setRun r y
      have hrun : u.run? r = some y := State.run?_setRun_same s r y
      obtain ⟨hmem, hruns⟩ := u.endActs_keeps (u.acts.filter (fun a => a.1.run == r && !a.2.handler)) (fun a => { a with ending := some .abort })
      exact ⟨_, exec_runStopTrapped_stops hx hp hs, State.stopped_result hrun (s.memoryKept_setRun r y) ((State.run?_congr hruns r).trans hrun)
        ((s.memoryKept_setRun r y).trans hmem)⟩
  case request =>
    intro r x s hx hp hs hw
    refine ⟨fun ht => ?_, ?_⟩
    · obtain ⟨hrun, hdue, -⟩ := State.endUnreleased_result hx ⟨9, 0, 0⟩
      exact ⟨_, exec_replaceRequest_noTarget hx hp hs hw ht, hrun, hdue⟩
    · intro u y raw v ht hu hk hyp hyr href hread recs
      obtain ⟨hbad, hgood⟩ := exec_replaceRequest_reads hx hp hs hw ht hk hyp hyr href (replaceE_ok (h := s.hub) (img := y.image) hread)
      have hkeep (n : Nat) : v.run? n = s.run? n := hread.keeps.1.run? n
      refine ⟨fun hall => ⟨_, hgood _ (if_pos hall), ?_, State.mem_pending_postOnce ..⟩, fun hall => ?_⟩
      · rw [State.run?_postOnce, State.run?_updRun_same, hkeep, hu]
        rfl
      · obtain ⟨hrun, hdue, -⟩ := State.endUnreleased_result ((hkeep r).trans hx) ⟨4, 0, 0⟩
        exact ⟨_, hbad (if_neg (Bool.eq_false_iff.1 hall)), hrun, hdue⟩
  case switch =>
    intro u y q p s hy hp hph hne hq
    exact ⟨_, exec_ruleTableSwitch_switches hy hp hph hq, State.switchTable_result (Rec.rulesAt q.rec_) hne hq⟩
  case completion =>
    intro r x s hx hw
    refine ⟨fun hs hp hh => ?_, fun c hs hp hb => ?_, ?_⟩
    · obtain ⟨hrun, hdue, -⟩ := s.setRun_postOnce r { x with phase := .stopping, stop := some ⟨3, 0, 0⟩ } (.completionSignal r)
      exact ⟨_, exec_completionSignal_halted hx hw hs hp hh, hrun, hdue⟩
    · rw [exec_completionSignal_stopping hx hw hs hp, if_pos hb]
    · intro c pr pa pb hs hp hb href k res y hen hr ha hb'
      have hexec := exec_completionSignal_stopping hx hw hs hp
      rw [hb] at hexec
      exact ⟨_, hexec, State.conclude_result href rfl hen hr ha hb'⟩
  case record =>
    intro r x c s hvf hq hst hsub hfir hclk w
    have hlayout := State.completionRecord_layout (s := s) (r := r) hvf hq hst hsub hfir hclk
    simp only [Rec.isReact, beq_iff_eq] at hlayout
    exact ⟨s.length_completionRecord r x c, hlayout⟩
end

section
/-! The fields of an instruction word (R52 to R61): a format is packed and unpacked without loss, and what each field reader of the
decoder accepts. -/
namespace Sys2Proof
open BitVec (extractLsb'_append_eq_of_le extractLsb'_append_eq_of_add_le extractLsb'_append_extractLsb'_eq_extractLsb'
  extractLsb'_append_eq_left extractLsb'_append_eq_right extractLsb'_eq_self)

/-! ## Fields of fields -/

/-- Two parts, the higher first, make up a stretch of bits when each is its own part of it. -/
theorem append_eq_extract_iff {w s m n : Nat} {x : BitVec w} {hi : BitVec m} {lo : BitVec n} :
    hi ++ lo = x.extractLsb' s (m + n) ↔ hi = x.extractLsb' (s + n) m ∧ lo = x.extractLsb' s n := by
  rw [← extractLsb'_append_extractLsb'_eq_extractLsb' rfl]
  constructor
  · intro h
    exact ⟨by simpa only [extractLsb'_append_eq_left] using congrArg (BitVec.extractLsb' n m) h,
      by simpa only [extractLsb'_append_eq_right] using congrArg (BitVec.extractLsb' 0 n) h⟩
  · rintro ⟨rfl, rfl⟩; rfl

theorem append_eq_iff {m n : Nat} {x : BitVec (m + n)} {hi : BitVec m} {lo : BitVec n} :
    @HAppend.hAppend _ _ (BitVec (no_index (m + n))) _ hi lo = x ↔ hi = x.extractLsb' n m ∧ lo = x.extractLsb' 0 n := by
  have h := append_eq_extract_iff (x := x) (s := 0) (hi := hi) (lo := lo)
  rwa [extractLsb'_eq_self, Nat.zero_add] at h

@[simp] theorem extract_append_high {m n s l : Nat} {x : BitVec m} {y : BitVec n} (h : n ≤ s) :
    BitVec.extractLsb' s l (@HAppend.hAppend _ _ (BitVec (no_index (m + n))) _ x y) = x.extractLsb' (s - n) l :=
  extractLsb'_append_eq_of_le h

@[simp] theorem extract_append_low {m n s l : Nat} {x : BitVec m} {y : BitVec n} (h : s + l ≤ n) :
    BitVec.extractLsb' s l (@HAppend.hAppend _ _ (BitVec (no_index (m + n))) _ x y) = y.extractLsb' s l :=
  extractLsb'_append_eq_of_add_le h

@[simp] theorem getElem_append_high {m n i : Nat} {x : BitVec m} {y : BitVec n} (h : n ≤ i) (hi : i < m + n) :
    (@HAppend.hAppend _ _ (BitVec (no_index (m + n))) _ x y)[i] = x[i - n] := by
  rw [BitVec.getElem_append, dif_neg (Nat.not_lt.2 h)]

@[simp] theorem getElem_append_low {m n i : Nat} {x : BitVec m} {y : BitVec n} (h : i < n) (hi : i < m + n) :
    (@HAppend.hAppend _ _ (BitVec (no_index (m + n))) _ x y)[i] = y[i] := by
  rw [BitVec.getElem_append, dif_pos h]

@[simp] theorem extract_extract {w s l t k : Nat} {x : BitVec w} (h : t + k ≤ l) :
    (x.extractLsb' s l).extractLsb' t k = x.extractLsb' (s + t) k := by
  ext i hi
  simp [show t + i < l by omega, Nat.add_assoc]

/-! ## One bit -/

@[simp] theorem getElem_b1 (b : Bool) : (b1 b)[0] = b := by cases b <;> rfl

@[simp] theorem b1_eq_extract_iff {w s : Nat} {x : BitVec w} {b : Bool} : b1 b = x.extractLsb' s 1 ↔ b = x.getLsbD s := by
  rw [BitVec.getLsbD_eq_extractLsb', b1]
  generalize x.extractLsb' s 1 = y
  revert b y; decide

/-! ## Register fields (R52) -/

@[simp] theorem xf_zero : xf 0#5 = 0#6 := rfl
@[simp] theorem xf_inj {r q : XReg} : xf r = xf q ↔ r = q := by simp [xf, append_eq_iff]
@[simp] theorem vf_inj {r q : VReg} : vf r = vf q ↔ r = q := by simp [vf, append_eq_iff]
@[simp] theorem pf_inj {r q : PReg} : pf r = pf q ↔ r = q := by simp [pf, append_eq_iff]
@[simp] theorem hf_inj {r q : HReg} : hf r = hf q ↔ r = q := by simp [hf, append_eq_iff]
@[simp] theorem xf_eq_zero {r : XReg} : xf r = 0#6 ↔ r = 0#5 := xf_inj (q := 0#5)
@[simp] theorem zero_eq_xf {r : XReg} : 0#6 = xf r ↔ r = 0#5 := eq_comm.trans xf_eq_zero
@[simp] theorem xf_eq_31 {r : XReg} : xf r = 31#6 ↔ r = 31#5 := xf_inj (q := 31#5)
@[simp] theorem pf_eq_zero {r : PReg} : pf r = 0#6 ↔ r = 0#3 := pf_inj (q := 0#3)
@[simp] theorem zero_eq_pf {r : PReg} : 0#6 = pf r ↔ r = 0#3 := eq_comm.trans pf_eq_zero
@[simp] theorem vf_ne_zero {r : VReg} : vf r ≠ 0#6 := by revert r; decide
@[simp] theorem bank_xf (r : XReg) : (xf r)[5] = false := by simp [xf]
@[simp] theorem bank_vf (r : VReg) : (vf r)[5] = true := by simp [vf]

theorem eq_ofNat_of_toNat {w n : Nat} {x : BitVec w} (h : x.toNat = n) : x = BitVec.ofNat w n := by
  rw [← h, BitVec.ofNat_toNat, BitVec.setWidth_eq]

/-! ## Formats (R55 to R61) -/

@[simp] theorem FRR.unpack_pack (f : FRR) : FRR.unpack f.pack = f := by
  simp only [FRR.unpack, FRR.pack, extractLsb'_append_eq_of_le, Nat.reduceLeDiff, Nat.reduceSub, extractLsb'_append_eq_right,
    extractLsb'_eq_self]

@[simp] theorem FRI.unpack_pack (f : FRI) : FRI.unpack f.pack = f := by
  simp only [FRI.unpack, FRI.pack, extractLsb'_append_eq_of_le, Nat.reduceLeDiff, Nat.reduceSub, extractLsb'_append_eq_right,
    extractLsb'_eq_self]

@[simp] theorem FTL.unpack_pack (f : FTL) : FTL.unpack f.pack = f := by
  simp only [FTL.unpack, FTL.pack, extractLsb'_append_eq_of_le, Nat.reduceLeDiff, Nat.reduceSub, extractLsb'_append_eq_right,
    extractLsb'_eq_self]

@[simp] theorem FWT.unpack_pack (f : FWT) : FWT.unpack f.pack = f := by
  simp only [FWT.unpack, FWT.pack, extractLsb'_append_eq_of_le, Nat.reduceLeDiff, Nat.reduceSub, extractLsb'_append_eq_right,
    extractLsb'_eq_self]

@[simp] theorem FSY.unpack_pack (f : FSY) : FSY.unpack f.pack = f := by
  simp only [FSY.unpack, FSY.pack, extractLsb'_append_eq_of_le, Nat.reduceLeDiff, Nat.reduceSub, extractLsb'_append_eq_right,
    extractLsb'_eq_self]

theorem FRR.pack_unpack (w : Word) : (FRR.unpack w).pack = w := by
  unfold FRR.unpack FRR.pack
  iterate 8 rw [extractLsb'_append_extractLsb'_eq_extractLsb' (by decide)]
  exact extractLsb'_eq_self

theorem FRI.pack_unpack (w : Word) : (FRI.unpack w).pack = w := by
  unfold FRI.unpack FRI.pack
  iterate 5 rw [extractLsb'_append_extractLsb'_eq_extractLsb' (by decide)]
  exact extractLsb'_eq_self

theorem FTL.pack_unpack (w : Word) : (FTL.unpack w).pack = w := by
  unfold FTL.unpack FTL.pack
  iterate 11 rw [extractLsb'_append_extractLsb'_eq_extractLsb' (by decide)]
  exact extractLsb'_eq_self

theorem FWT.pack_unpack (w : Word) : (FWT.unpack w).pack = w := by
  unfold FWT.unpack FWT.pack
  iterate 6 rw [extractLsb'_append_extractLsb'_eq_extractLsb' (by decide)]
  exact extractLsb'_eq_self

theorem FSY.pack_unpack (w : Word) : (FSY.unpack w).pack = w := by
  unfold FSY.unpack FSY.pack
  iterate 6 rw [extractLsb'_append_extractLsb'_eq_extractLsb' (by decide)]
  exact extractLsb'_eq_self

/-! ## Codes (R57, R62 to R64, R115, R202) -/

@[simp] theorem ElemType.ofCode_eq_some {c : BitVec 4} {t : ElemType} : ElemType.ofCode c = some t ↔ c = t.code := by
  revert c; cases t <;> decide
@[simp] theorem FpFmt.ofCode_eq_some {c : BitVec 2} {t : FpFmt} : FpFmt.ofCode c = some t ↔ c = t.code := by
  revert c; cases t <;> decide
@[simp] theorem RndSel.ofCode_eq_some {c : BitVec 3} {t : RndSel} : RndSel.ofCode c = some t ↔ c = t.code := by
  revert c; cases t <;> decide
@[simp] theorem Rel.ofCode_eq_some {c : BitVec 3} {t : Rel} : Rel.ofCode c = some t ↔ c = t.code := by
  revert c; cases t <;> decide
@[simp] theorem Scope.ofCode_eq_some {c : BitVec 3} {t : Scope} : Scope.ofCode c = some t ↔ c = t.code := by
  revert c; cases t <;> decide
@[simp] theorem Cond.ofCode_eq_some {c : BitVec 6} {t : Cond} : Cond.ofCode c = some t ↔ c = t.code := by
  revert c; cases t <;> decide
@[simp] theorem BrHint.ofCode_eq_some {c : BitVec 6} {h : BrHint} : BrHint.ofCode c = some h ↔ c = h.code := by
  revert c; cases h <;> decide
@[simp] theorem PlogOp.ofCode_eq_some {c : BitVec 3} {t : PlogOp} : PlogOp.ofCode c = some t ↔ c = t.code := by
  revert c; cases t <;> decide
@[simp] theorem Fmt.ofCode_eq_some {c : BitVec 4} {t : Fmt} : Fmt.ofCode c = some t ↔ c = t.code := by
  revert c; cases t <;> decide
theorem Size.code_ofCode (c : BitVec 2) : (Size.ofCode c).code = c := by revert c; decide
@[simp] theorem Size.ofCode_code (t : Size) : Size.ofCode t.code = t := by cases t <;> rfl
theorem Hint.code_ofCode (c : BitVec 2) : (Hint.ofCode c).code = c := by revert c; decide
@[simp] theorem Hint.ofCode_code (t : Hint) : Hint.ofCode t.code = t := by cases t <;> rfl

/-! ## Readers -/

@[simp] theorem Dec.bind_ok {α β : Type} {x : Dec α} {f : α → Dec β} {b : β} :
    (x >>= f) = .ok b ↔ ∃ a, x = .ok a ∧ f a = .ok b := by
  cases x with
  | ok a => exact ⟨fun h => ⟨a, rfl, h⟩, by rintro ⟨_, ⟨⟩, h⟩; exact h⟩
  | error e => exact ⟨nofun, nofun⟩

@[simp] theorem OpFn.ill_ok {α : Type} {k : OpFn} {a : α} : k.ill = .ok a ↔ False := by simp [OpFn.ill]

@[simp] theorem OpFn.need_ok {k : OpFn} {c : Bool} {u : Unit} : k.need c = .ok u ↔ c = true := by
  cases c <;> simp [OpFn.need, OpFn.ill]

@[simp] theorem OpFn.code_ok {α : Type} {k : OpFn} {c : Option α} {a : α} : k.code c = .ok a ↔ c = some a := by
  cases c <;> simp [OpFn.code, OpFn.ill]

@[simp] theorem OpFn.x_ok {k : OpFn} {fld : BitVec 3} {v : BitVec 6} {r : XReg} : k.x fld v = .ok r ↔ v = xf r := by
  rw [eq_comm (a := v), xf, append_eq_iff, OpFn.x]
  split <;> simp_all [eq_comm]

@[simp] theorem OpFn.v_ok {k : OpFn} {fld : BitVec 3} {v : BitVec 6} {r : VReg} : k.v fld v = .ok r ↔ v = vf r := by
  rw [eq_comm (a := v), vf, append_eq_iff, OpFn.v]
  split <;> simp_all [eq_comm]

@[simp] theorem OpFn.p_ok {k : OpFn} {fld : BitVec 3} {v : BitVec 6} {r : PReg} : k.p fld v = .ok r ↔ v = pf r := by
  rw [eq_comm (a := v), pf, append_eq_iff, OpFn.p]
  split <;> simp_all [eq_comm]

@[simp] theorem OpFn.h_ok {k : OpFn} {fld : BitVec 3} {v : BitVec 6} {r : HReg} : k.h fld v = .ok r ↔ v = hf r := by
  rw [eq_comm (a := v), hf, append_eq_iff, OpFn.h]
  split <;> simp_all [eq_comm]

@[simp] theorem OpFn.cp_ok {k : OpFn} {v : BitVec 6} {r : PReg} : k.cp v = .ok r ↔ v = pf r := by
  rw [eq_comm (a := v), pf, append_eq_iff, OpFn.cp]
  split <;> simp_all [eq_comm, OpFn.ill]

/-- The B, KS and E fields of a B operand (R54). -/
def BSrc.bField : BSrc → BitVec 6
  | .reg r => xf r
  | .cw _ _ => 0
def BSrc.ksField : BSrc → BitVec 1
  | .reg _ => 0
  | .cw _ _ => 1
def BSrc.eField : BSrc → BitVec 20
  | .reg _ => 0
  | .cw win off => win ++ off

theorem BSrc.put_eq (s : BSrc) (op : BitVec 8) (d a c fn : BitVec 6) (md : BitVec 5) :
    s.put { op := op, d := d, a := a, c := c, fn := fn, md := md } =
      ⟨op, d, a, s.bField, c, fn, md, s.ksField, s.eField⟩ := by
  cases s <;> rfl

/-- A B operand is read exactly from its fields. -/
theorem FRR.bsrc_ok {f : FRR} {s : BSrc} :
    (f.ksOk = true ∧ f.bsrc = .ok s) ↔ f.b = s.bField ∧ f.ks = s.ksField ∧ f.e = s.eField := by
  have hks : f.ks = 0#1 ∨ f.ks = 1#1 := by generalize f.ks = k; revert k; decide
  rcases hks with hks | hks <;> cases s with
  | reg r => simp [FRR.ksOk, FRR.bsrc, hks, BSrc.bField, BSrc.ksField, BSrc.eField, and_comm]
  | cw win off =>
    simp [FRR.ksOk, FRR.bsrc, hks, BSrc.bField, BSrc.ksField, BSrc.eField, eq_comm (b := win ++ off), append_eq_iff,
      eq_comm (a := win), eq_comm (a := off)]

@[simp] theorem FRR.ksOk_fields (s : BSrc) (op : BitVec 8) (d a c fn : BitVec 6) (md : BitVec 5) :
    FRR.ksOk ⟨op, d, a, s.bField, c, fn, md, s.ksField, s.eField⟩ = true :=
  (FRR.bsrc_ok.2 ⟨rfl, rfl, rfl⟩).1

@[simp] theorem FRR.bsrc_fields (s : BSrc) (op : BitVec 8) (d a c fn : BitVec 6) (md : BitVec 5) :
    FRR.bsrc ⟨op, d, a, s.bField, c, fn, md, s.ksField, s.eField⟩ = .ok s :=
  (FRR.bsrc_ok.2 ⟨rfl, rfl, rfl⟩).2

/-- The L, O and register fields of a tile operand (R59). -/
def TileOpd.lField : TileOpd → BitVec 1
  | .tile _ => 0
  | .lit _ _ => 1
def TileOpd.oField : TileOpd → BitVec 8
  | .tile n => n
  | .lit l _ => 0#4 ++ l
def TileOpd.rField : TileOpd → BitVec 6
  | .tile _ => 0
  | .lit _ x => xf x

theorem TileOpd.pack_put1 (t : TileOpd) (op : BitVec 8) (d b : BitVec 6) (fn : BitVec 4) (l2 : BitVec 1) (o2 : BitVec 8)
    (hr barn : BitVec 4) (aux : BitVec 8) :
    (t.put1 { op := op, d := d, b := b, fn := fn, l2 := l2, o2 := o2, hr := hr, barn := barn, aux := aux }).pack =
      FTL.pack ⟨op, d, t.rField, b, fn, t.lField, l2, t.oField, o2, hr, barn, aux⟩ := by
  cases t <;> rfl

/-- A tile operand is read exactly from its fields. -/
theorem OpFn.tileOpd_ok {k : OpFn} {l : BitVec 1} {o : BitVec 8} {fld : BitVec 3} {r : BitVec 6} {t : TileOpd} :
    (tileOk l o r = true ∧ k.tileOpd l o fld r = .ok t) ↔ l = t.lField ∧ o = t.oField ∧ r = t.rField := by
  have hl : l = 0#1 ∨ l = 1#1 := by revert l; decide
  rcases hl with hl | hl <;> cases t with
  | tile n => simp [tileOk, OpFn.tileOpd, hl, TileOpd.lField, TileOpd.oField, TileOpd.rField, and_comm]
  | lit i x =>
    simp [tileOk, OpFn.tileOpd, hl, TileOpd.lField, TileOpd.oField, TileOpd.rField, eq_comm (b := 0#4 ++ i), append_eq_iff,
      eq_comm (a := i), eq_comm (a := 0#4), and_left_comm, and_assoc]

@[simp] theorem tileOk_fields (t : TileOpd) : tileOk t.lField t.oField t.rField = true :=
  (OpFn.tileOpd_ok (k := ⟨0, 0⟩) (fld := 0).2 ⟨rfl, rfl, rfl⟩).1

@[simp] theorem OpFn.tileOpd_fields (k : OpFn) (fld : BitVec 3) (t : TileOpd) : k.tileOpd t.lField t.oField fld t.rField = .ok t :=
  (OpFn.tileOpd_ok.2 ⟨rfl, rfl, rfl⟩).2

/-- The sub-fields of a vector word, and which FIX bits its register fields allow (R64, R285). -/
theorem FRR.vsub_ok {f : FRR} {s : VSub} :
    f.vsub = .ok s ↔ f.ks = 0 ∧ f.e = vE s.ty s.rnd s.rel s.st ∧ f.md = vM s.fd s.fa s.fb s.sat ∧
      (s.fd = true → f.d.getLsbD 5 = true) ∧ (s.fa = true → f.a.getLsbD 5 = true) ∧ (s.fb = true → f.b.getLsbD 5 = true) := by
  obtain ⟨ty, rnd, rel, st, sat, fd, fa, fb⟩ := s
  have h0 : 0#1 = f.md.extractLsb' 0 1 ↔ f.md[0] = false :=
    (b1_eq_extract_iff (b := false)).trans (by simp)
  simp [FRR.vsub, vE, vM, h0, eq_comm (a := f.e), eq_comm (a := f.md), append_eq_iff]
  grind

/-! ## A bit that is clear -/

@[simp] theorem extract_eq_zero_iff {w s : Nat} {x : BitVec w} : x.extractLsb' s 1 = 0#1 ↔ x.getLsbD s = false := by
  rw [eq_comm, eq_comm (b := false)]
  exact b1_eq_extract_iff (b := false)

@[simp] theorem zero_eq_extract_iff {w s : Nat} {x : BitVec w} : 0#1 = x.extractLsb' s 1 ↔ x.getLsbD s = false :=
  eq_comm.trans extract_eq_zero_iff

/-! ## Words and fields -/

/-- The instruction is well-formed, a word names it, and that word is its encoding. -/
def Instr.IsWord (i : Instr) (w : Word) : Prop := i.wf = true ∧ i.isEvent = false ∧ encode i = some w

theorem FRR.mk_eq_iff {f : FRR} {op : BitVec 8} {d a b c fn : BitVec 6} {md : BitVec 5} {ks : BitVec 1} {e : BitVec 20} :
    FRR.mk op d a b c fn md ks e = f ↔ op = f.op ∧ d = f.d ∧ a = f.a ∧ b = f.b ∧ c = f.c ∧ fn = f.fn ∧ md = f.md ∧ ks = f.ks ∧
      e = f.e := by
  cases f; simp

theorem FRI.mk_eq_iff {f : FRI} {op : BitVec 8} {d a fn md : BitVec 6} {imm : BitVec 32} :
    FRI.mk op d a fn md imm = f ↔ op = f.op ∧ d = f.d ∧ a = f.a ∧ fn = f.fn ∧ md = f.md ∧ imm = f.imm := by
  cases f; simp

theorem FTL.mk_eq_iff {f : FTL} {op : BitVec 8} {d a b : BitVec 6} {fn : BitVec 4} {l1 l2 : BitVec 1} {o1 o2 : BitVec 8}
    {hr barn : BitVec 4} {aux : BitVec 8} :
    FTL.mk op d a b fn l1 l2 o1 o2 hr barn aux = f ↔ op = f.op ∧ d = f.d ∧ a = f.a ∧ b = f.b ∧ fn = f.fn ∧ l1 = f.l1 ∧ l2 = f.l2 ∧
      o1 = f.o1 ∧ o2 = f.o2 ∧ hr = f.hr ∧ barn = f.barn ∧ aux = f.aux := by
  cases f; simp

theorem FWT.mk_eq_iff {f : FWT} {op : BitVec 8} {ld st cp tl ms : BitVec 6} {z : BitVec 26} :
    FWT.mk op ld st cp tl ms z = f ↔ op = f.op ∧ ld = f.ld ∧ st = f.st ∧ cp = f.cp ∧ tl = f.tl ∧ ms = f.ms ∧ z = f.z := by
  cases f; simp

theorem FSY.mk_eq_iff {f : FSY} {op : BitVec 8} {d a fn z : BitVec 6} {srn code : BitVec 16} :
    FSY.mk op d a fn z srn code = f ↔ op = f.op ∧ d = f.d ∧ a = f.a ∧ fn = f.fn ∧ z = f.z ∧ srn = f.srn ∧ code = f.code := by
  cases f; simp

section
variable {i : Instr} (hw : i.wf = true) (hv : i.isEvent = false)
include hw hv
theorem Instr.IsWord.rr {f g : FRR} (he : encode i = some g.pack) (hg : g = f) : i.IsWord f.pack := ⟨hw, hv, hg ▸ he⟩
theorem Instr.IsWord.ri {f g : FRI} (he : encode i = some g.pack) (hg : g = f) : i.IsWord f.pack := ⟨hw, hv, hg ▸ he⟩
theorem Instr.IsWord.tl {f g : FTL} (he : encode i = some g.pack) (hg : g = f) : i.IsWord f.pack := ⟨hw, hv, hg ▸ he⟩
theorem Instr.IsWord.wt {f g : FWT} (he : encode i = some g.pack) (hg : g = f) : i.IsWord f.pack := ⟨hw, hv, hg ▸ he⟩
theorem Instr.IsWord.sy {f g : FSY} (he : encode i = some g.pack) (hg : g = f) : i.IsWord f.pack := ⟨hw, hv, hg ▸ he⟩
end

end Sys2Proof
end

section
/-! The words of OP 0x01, 0x03 and 0x04 (R97 to R102): what decodes is a well-formed instruction, and the word is its encoding. -/
namespace Sys2Proof

theorem encScalar_eq (fn : BitVec 6) (o : ScalarRR) (op : BitVec 8) : encScalar fn o op =
    FRR.pack ⟨op, xf o.d, xf o.a, o.b.bField, 0, fn, 0#4 ++ b1 o.w32, o.b.ksField, o.b.eField⟩ := by
  rw [encScalar, BSrc.put_eq]

theorem encArith_eq (fn : BitVec 6) (o : ArithRR) : encArith fn o =
    FRR.pack ⟨0x01, xf o.d, xf o.a, o.b.bField, 0, fn, 0#3 ++ b1 o.sat ++ b1 o.w32, o.b.ksField, o.b.eField⟩ := by
  rw [encArith, BSrc.put_eq]

theorem encFp_eq (fn : BitVec 6) (d a : XReg) (b : BSrc) (c : BitVec 6) (fmt : FpFmt) (rnd : RndSel) : encFp fn d a b c fmt rnd =
    FRR.pack ⟨0x20, xf d, xf a, b.bField, c, fn, fmt.code ++ rnd.code, b.ksField, b.eField⟩ := by
  rw [encFp, BSrc.put_eq]

section
variable {f : FRR} {i : Instr}

theorem scalarRR_isWord {c : ScalarRR → Instr} {o : ScalarRR} (h : scalarRR f.fn = some c) (he : encScalar f.fn o 0x01 = f.pack) :
    (c o).IsWord f.pack := by
  rw [← he]
  unfold scalarRR at h
  split at h
  case h_18 => cases h
  all_goals
    next hn =>
    cases h
    rw [eq_ofNat_of_toNat hn]
    exact ⟨rfl, rfl, rfl⟩

theorem mulDiv_isWord {c : ScalarRR → Instr} {o : ScalarRR} (h : mulDiv f.fn = some c) (he : encScalar f.fn o 0x04 = f.pack) :
    (c o).IsWord f.pack := by
  rw [← he]
  unfold mulDiv at h
  split at h
  case h_8 => cases h
  all_goals
    next hn =>
    cases h
    rw [eq_ofNat_of_toNat hn]
    exact ⟨rfl, rfl, rfl⟩

/-- What a word of OP 0x01 or 0x04 with two register fields, a B operand and W32 is packed from. -/
theorem encScalar_eq_pack {o : ScalarRR} (hc : f.c = 0) (hm : f.md.extractLsb' 1 4 = 0) (hk : f.ksOk = true)
    (hd : f.d = xf o.d) (ha : f.a = xf o.a) (hb : f.bsrc = .ok o.b) (hw : f.md.getLsbD 0 = o.w32) :
    encScalar f.fn o f.op = f.pack := by
  obtain ⟨h1, h2, h3⟩ := FRR.bsrc_ok.1 ⟨hk, hb⟩
  rw [encScalar_eq]
  congr 1
  simp_all [FRR.mk_eq_iff, append_eq_iff]

theorem decMulDiv_isWord (hop : f.op = 0x04) (h : decMulDiv f = .ok i) : i.IsWord f.pack := by
  simp [decMulDiv] at h
  obtain ⟨c, hc, ⟨⟨h1, h2⟩, h3⟩, d, hd, a, ha, b, hb, rfl⟩ := h
  exact mulDiv_isWord hc (hop ▸ encScalar_eq_pack h1 h2 h3 hd ha hb rfl)

theorem decScalar_isWord (hop : f.op = 0x01) (h : decScalar f = .ok i) : i.IsWord f.pack := by
  unfold decScalar at h
  split at h
  · simp at h
    obtain ⟨⟨⟨h1, h2⟩, h3⟩, d, hd, a, ha, b, hb, rfl⟩ := h
    obtain ⟨hb, hk, he⟩ := FRR.bsrc_ok.1 ⟨h3, hb⟩
    split
    · exact .rr rfl rfl (congrArg some (encArith_eq ..)) (by simp_all [FRR.mk_eq_iff, append_eq_iff])
    · exact .rr rfl rfl (congrArg some (encArith_eq ..)) (by simp_all [FRR.mk_eq_iff, append_eq_iff])
  · simp at h
    obtain ⟨c, hc, ⟨⟨h1, h2⟩, h3⟩, d, hd, a, ha, b, hb, rfl⟩ := h
    exact scalarRR_isWord hc (hop ▸ encScalar_eq_pack h1 h2 h3 hd ha hb rfl)

theorem unaryRR_isWord {c : UnaryRR → Instr} {o : UnaryRR} (h : unaryRR f.fn = some c) (he : encUnary f.fn o = f.pack) :
    (c o).IsWord f.pack := by
  rw [← he]
  unfold unaryRR at h
  split at h
  case h_5 => cases h
  all_goals
    next hn =>
    cases h
    rw [eq_ofNat_of_toNat hn]
    exact ⟨rfl, rfl, rfl⟩

theorem decScalar3_isWord (hop : f.op = 0x03) (h : decScalar3 f = .ok i) : i.IsWord f.pack := by
  unfold decScalar3 at h
  split at h
  · simp at h
    obtain ⟨hz, d, hd, a, ha, b, hb, c, hc, rfl⟩ := h
    exact .rr rfl rfl rfl (by simp_all [FRR.mk_eq_iff])
  · simp at h
    obtain ⟨c, hc, hz, d, hd, a, ha, rfl⟩ := h
    refine unaryRR_isWord hc (congrArg FRR.pack ?_)
    simp_all [FRR.mk_eq_iff, append_eq_iff]
end

end Sys2Proof
end

section
/-! The words of RI form (R56, R57): what decodes is a well-formed instruction, and the word is its encoding. -/
namespace Sys2Proof

section
variable {f : FRI} {i : Instr}

theorem scalarRI_isWord {c : ScalarRI → Instr} {o : ScalarRI} (h : scalarRI f.fn = some c) (he : encImm f.fn o = f.pack) :
    (c o).IsWord f.pack := by
  rw [← he]
  unfold scalarRI at h
  split at h
  case h_16 => cases h
  all_goals
    next hn =>
    cases h
    rw [eq_ofNat_of_toNat hn]
    exact ⟨rfl, rfl, rfl⟩

theorem shiftRI_isWord {c : ShiftRI → Instr} {o : ShiftRI} (h : shiftRI f.fn = some c) (hw : o.wf = true)
    (he : encShift f.fn o = f.pack) : (c o).IsWord f.pack := by
  rw [← he]
  unfold shiftRI at h
  split at h
  case h_5 => cases h
  all_goals
    next hn =>
    cases h
    rw [eq_ofNat_of_toNat hn]
    exact ⟨hw, rfl, rfl⟩

/-- Bit 5 of a shift count is clear just when it is below 32 (R99). -/
theorem bit5_eq_false_iff {x : BitVec 32} : x[5] = false ↔ x.extractLsb' 0 6 < 32#6 := by
  have h : ∀ n : BitVec 6, n[5] = false ↔ n < 32#6 := by decide
  simpa using h (x.extractLsb' 0 6)

theorem decScalarImm_isWord (hop : f.op = 0x02) (h : decScalarImm f = .ok i) : i.IsWord f.pack := by
  unfold decScalarImm at h
  split at h
  case h_1 c hc =>
    simp at h
    obtain ⟨⟨⟨hm, hi⟩, hw⟩, d, hd, a, ha, rfl⟩ := h
    refine shiftRI_isWord hc ?_ (congrArg FRI.pack ?_)
    · simpa [ShiftRI.wf, ← bit5_eq_false_iff] using hw
    · simp_all [FRI.mk_eq_iff, append_eq_iff]
  case h_2 =>
    simp at h
    obtain ⟨c, hc, hm, d, hd, a, ha, rfl⟩ := h
    refine scalarRI_isWord hc (congrArg FRI.pack ?_)
    simp_all [FRI.mk_eq_iff, append_eq_iff]

theorem decField_isWord (hop : f.op = 0x05) (h : decField f = .ok i) : i.IsWord f.pack := by
  unfold decField at h
  split at h
  case h_1 hn =>
    have hn := eq_ofNat_of_toNat hn
    simp at h
    obtain ⟨⟨⟨hm, hi⟩, hw⟩, d, hd, a, ha, rfl⟩ := h
    exact .ri (by exact hw) rfl rfl (by simp_all [FRI.mk_eq_iff, append_eq_iff])
  case h_2 hn =>
    have hn := eq_ofNat_of_toNat hn
    simp at h
    obtain ⟨⟨⟨⟨hm, hi⟩, hw⟩, hs⟩, d, hd, a, ha, rfl⟩ := h
    exact .ri (by exact hw) rfl rfl (by simp_all [FRI.mk_eq_iff, append_eq_iff])
  case h_3 => simp at h

theorem decLi_isWord (hop : f.op = 0x1E) (h : decLi f = .ok i) : i.IsWord f.pack := by
  simp [decLi] at h
  obtain ⟨hn, hz, d, hd, rfl⟩ := h
  split
  · exact .ri rfl rfl rfl (by simp_all [FRI.mk_eq_iff])
  · exact .ri rfl rfl rfl (by simp_all [FRI.mk_eq_iff])

theorem decBranch_isWord (hop : f.op = 0x30 ∨ f.op = 0x31 ∨ f.op = 0x33) (h : decBranch f = .ok i) : i.IsWord f.pack := by
  unfold decBranch at h
  split at h
  case h_1 hn =>
    have hn := eq_ofNat_of_toNat hn
    simp at h
    obtain ⟨c, hc, hint, hh, hal, a, ha, b, hb, rfl⟩ := h
    refine .ri ?_ rfl rfl (by simp_all [FRI.mk_eq_iff])
    simp_all [Instr.wf]
  case h_2 hn =>
    have hn := eq_ofNat_of_toNat hn
    simp at h
    obtain ⟨hf, hint, hh, hz, a, ha, rfl⟩ := h
    exact .ri rfl rfl rfl (by simp_all [FRI.mk_eq_iff])
  case h_3 hn1 hn2 =>
    have hn : f.op = 0x33 := by rcases hop with hop | hop | hop <;> simp_all
    simp at h
    obtain ⟨hf, hint, hh, ⟨hz, h0⟩, a, ha, rfl⟩ := h
    refine .ri ?_ rfl rfl (by simp_all [FRI.mk_eq_iff])
    simp_all [Instr.wf]

theorem dec4E_isWord (hop : f.op = 0x4E) (h : dec4E f = .ok i) : i.IsWord f.pack := by
  simp [dec4E] at h
  obtain ⟨hn, ty, ht, ⟨⟨hm, hi⟩, hw⟩, h⟩ := h
  split at h
  · simp at h
    obtain ⟨d, hd, a, ha, rfl⟩ := h
    exact .ri (by exact hw) rfl rfl (by simp_all [FRI.mk_eq_iff, append_eq_iff])
  · simp at h
    obtain ⟨d, hd, a, ha, rfl⟩ := h
    exact .ri (by exact hw) rfl rfl (by simp_all [FRI.mk_eq_iff, append_eq_iff])

theorem dec58_isWord (hop : f.op = 0x58) (h : dec58 f = .ok i) : i.IsWord f.pack := by
  simp [dec58] at h
  obtain ⟨hn, hz, rfl⟩ := h
  exact .ri rfl rfl rfl (by simp_all [FRI.mk_eq_iff, append_eq_iff])

theorem decA1_isWord (hop : f.op = 0xA1) (h : decA1 f = .ok i) : i.IsWord f.pack := by
  simp [decA1] at h
  obtain ⟨hn, hz, a, ha, rfl⟩ := h
  exact .ri rfl rfl rfl (by simp_all [FRI.mk_eq_iff, append_eq_iff])

theorem decA3_isWord (hop : f.op = 0xA3) (h : decA3 f = .ok i) : i.IsWord f.pack := by
  unfold decA3 at h
  split at h
  case h_1 hn =>
    have hn := eq_ofNat_of_toNat hn
    simp at h
    obtain ⟨⟨hz, hs⟩, d, hd, a, ha, rfl⟩ := h
    exact .ri (by simpa [Instr.wf] using hs) rfl rfl (by simp_all [FRI.mk_eq_iff, append_eq_iff])
  case h_2 hn =>
    have hn := eq_ofNat_of_toNat hn
    simp at h
    obtain ⟨⟨hz, hs⟩, d, hd, rfl⟩ := h
    exact .ri rfl rfl rfl (by simp_all [FRI.mk_eq_iff, append_eq_iff])
  case h_3 => simp at h
end

end Sys2Proof
end

section
/-! The scalar floating-point words and the transfers through a register (R105 to R111, R114): what decodes is a well-formed
instruction, and the word is its encoding. -/
namespace Sys2Proof

section
variable {f : FRR} {i : Instr}

theorem decFp_isWord (hop : f.op = 0x20) (h : decFp f = .ok i) : i.IsWord f.pack := by
  simp [decFp] at h
  obtain ⟨hn8, fmt, hf, rnd, hr, h⟩ := h
  split at h
  case h_1 hn =>
    have hn := eq_ofNat_of_toNat hn
    simp at h
    obtain ⟨⟨⟨hc, hm⟩, hk⟩, d, hd, a, ha, b, hb, rfl⟩ := h
    obtain ⟨hb, hs, he⟩ := FRR.bsrc_ok.1 ⟨hk, hb⟩
    exact .rr rfl rfl (congrArg some (encFp_eq ..)) (by simp_all [FRR.mk_eq_iff, append_eq_iff])
  case h_2 hn =>
    have hn := eq_ofNat_of_toNat hn
    simp at h
    obtain ⟨⟨⟨hc, hm⟩, hk⟩, d, hd, a, ha, b, hb, rfl⟩ := h
    obtain ⟨hb, hs, he⟩ := FRR.bsrc_ok.1 ⟨hk, hb⟩
    exact .rr rfl rfl (congrArg some (encFp_eq ..)) (by simp_all [FRR.mk_eq_iff, append_eq_iff])
  case h_3 hn =>
    have hn := eq_ofNat_of_toNat hn
    simp at h
    obtain ⟨hz, d, hd, a, ha, rfl⟩ := h
    exact .rr rfl rfl rfl (by simp_all [FRR.mk_eq_iff, append_eq_iff, BSrc.put])
  case h_4 hn =>
    have hn := eq_ofNat_of_toNat hn
    simp at h
    obtain ⟨hk, d, hd, a, ha, b, hb, c, hc, rfl⟩ := h
    obtain ⟨hb, hs, he⟩ := FRR.bsrc_ok.1 ⟨hk, hb⟩
    exact .rr rfl rfl (congrArg some (encFp_eq ..)) (by simp_all [FRR.mk_eq_iff, append_eq_iff])
  case h_5 hn4 hn5 hn6 hn7 =>
    simp at h
    obtain ⟨⟨hc, hk⟩, d, hd, a, ha, b, hb, rfl⟩ := h
    obtain ⟨hb, hs, he⟩ := FRR.bsrc_ok.1 ⟨hk, hb⟩
    split
    case h_4 hn0 hn1 hn2 =>
      have hn : f.fn.toNat = 3 := by grind
      have hn := eq_ofNat_of_toNat hn
      exact .rr rfl rfl (congrArg some (encFp_eq ..)) (by simp_all [FRR.mk_eq_iff, append_eq_iff])
    all_goals
      next hn =>
      have hn := eq_ofNat_of_toNat hn
      exact .rr rfl rfl (congrArg some (encFp_eq ..)) (by simp_all [FRR.mk_eq_iff, append_eq_iff])

theorem decFp2_isWord (hop : f.op = 0x21) (h : decFp2 f = .ok i) : i.IsWord f.pack := by
  simp [decFp2] at h
  obtain ⟨hn4, fmt, hf, rnd, hr, h⟩ := h
  split at h
  case h_1 hn =>
    have hn := eq_ofNat_of_toNat hn
    simp at h
    obtain ⟨rel, hrel, hz, d, hd, a, ha, b, hb, rfl⟩ := h
    exact .rr rfl rfl rfl (by simp_all [FRR.mk_eq_iff, append_eq_iff, RndSel.code])
  case h_2 hn =>
    have hn := eq_ofNat_of_toNat hn
    simp at h
    obtain ⟨hz, d, hd, a, ha, rfl⟩ := h
    exact .rr rfl rfl rfl (by simp_all [FRR.mk_eq_iff, append_eq_iff, RndSel.code])
  case h_3 hn =>
    have hn := eq_ofNat_of_toNat hn
    simp at h
    obtain ⟨dst, hdst, src, hsrc, ⟨hz, hw⟩, d, hd, a, ha, rfl⟩ := h
    exact .rr (by exact hw) rfl rfl (by simp_all [FRR.mk_eq_iff, append_eq_iff, FpFmt.code])
  case h_4 hn0 hn1 hn2 =>
    have hn : f.fn.toNat = 3 := by grind
    have hn := eq_ofNat_of_toNat hn
    simp at h
    obtain ⟨hz, d, hd, a, ha, rfl⟩ := h
    exact .rr rfl rfl rfl (by simp_all [FRR.mk_eq_iff, append_eq_iff, RndSel.code])

theorem decJump_isWord (hop : f.op = 0x32) (h : decJump f = .ok i) : i.IsWord f.pack := by
  simp [decJump, FRR.restZero] at h
  obtain ⟨hn3, hz, d, hd, a, ha, rfl⟩ := h
  split
  case h_1 hn =>
    have hn := eq_ofNat_of_toNat hn
    exact .rr rfl rfl rfl (by simp_all [FRR.mk_eq_iff])
  case h_2 hn =>
    have hn := eq_ofNat_of_toNat hn
    exact .rr rfl rfl rfl (by simp_all [FRR.mk_eq_iff])
  case h_3 hn0 hn1 =>
    have hn : f.fn.toNat = 2 := by grind
    have hn := eq_ofNat_of_toNat hn
    exact .rr rfl rfl rfl (by simp_all [FRR.mk_eq_iff])
end

end Sys2Proof
end

section
/-! The vector and predicate words of RR form (R285 to R299): what decodes is a well-formed instruction, and the word is its
encoding. -/
namespace Sys2Proof

section
variable {f : FRR} {i : Instr}

theorem decVBin_ok {ok : ElemType → Bool} {c : VBin → Instr} (h : decVBin f ok c = .ok i) :
    ∃ o, i = c o ∧ ok o.ty = true ∧ f.b = vf o.b ∧ encVBin f.op f.fn o = f.pack := by
  simp [decVBin, FRR.vsub_ok] at h
  obtain ⟨s, hs, hz, p, hp, d, hd, a, ha, b, hb, rfl⟩ := h
  refine ⟨_, rfl, by simp [hz], hb, congrArg FRR.pack ?_⟩
  simp_all [FRR.mk_eq_iff]

theorem decVBinSat_ok {c : VBinSat → Instr} (hop : f.op = 0x40) (h : decVBinSat f c = .ok i) :
    ∃ o, i = c o ∧ o.ty.isInt = true ∧ encVBinSat f.fn o = f.pack := by
  simp [decVBinSat, FRR.vsub_ok] at h
  obtain ⟨s, hs, hz, p, hp, d, hd, a, ha, b, hb, rfl⟩ := h
  refine ⟨_, rfl, by simp [hz], congrArg FRR.pack ?_⟩
  simp_all [FRR.mk_eq_iff]

theorem decVFBin_ok {c : VFBin → Instr} (hop : f.op = 0x44) (h : decVFBin f c = .ok i) :
    ∃ o, i = c o ∧ o.ty.isVecFloat = true ∧ encVFBin f.fn o = f.pack := by
  simp [decVFBin, FRR.vsub_ok] at h
  obtain ⟨s, hs, hz, p, hp, d, hd, a, ha, b, hb, rfl⟩ := h
  refine ⟨_, rfl, by simp [hz], congrArg FRR.pack ?_⟩
  simp_all [FRR.mk_eq_iff]

theorem decVUn_ok {c : VUn → Instr} (h : decVUn f c = .ok i) :
    ∃ o, i = c o ∧ o.ty.isVecFloat = true ∧ encVUn f.op f.fn o = f.pack := by
  simp [decVUn, FRR.vsub_ok] at h
  obtain ⟨s, hs, hz, p, hp, d, hd, a, ha, rfl⟩ := h
  refine ⟨_, rfl, by simp [hz], congrArg FRR.pack ?_⟩
  simp_all [FRR.mk_eq_iff]

theorem decVByteSel_ok {c : VByteSel → Instr} (h : decVByteSel f c = .ok i) :
    ∃ o, i = c o ∧ encVByteSel f.op f.fn o = f.pack := by
  simp [decVByteSel, FRR.vsub_ok] at h
  obtain ⟨s, hs, hz, p, hp, d, hd, a, ha, b, hb, rfl⟩ := h
  refine ⟨_, rfl, congrArg FRR.pack ?_⟩
  simp_all [FRR.mk_eq_iff]

theorem decVCmp_ok {ok : ElemType → Rel → Bool} {c : VCmp → Instr} (hop : f.op = 0x48) (h : decVCmp f ok c = .ok i) :
    ∃ o, i = c o ∧ ok o.ty o.rel = true ∧ encVCmp f.fn o = f.pack := by
  simp [decVCmp, FRR.vsub_ok] at h
  obtain ⟨s, hs, rel, hr, hz, p, hp, d, hd, a, ha, b, hb, rfl⟩ := h
  refine ⟨_, rfl, by simp [hz], congrArg FRR.pack ?_⟩
  simp_all [FRR.mk_eq_iff]

theorem dec40_isWord (hop : f.op = 0x40) (h : dec40 f = .ok i) : i.IsWord f.pack := by
  unfold dec40 at h
  split at h
  case h_7 hn =>
    have hn := eq_ofNat_of_toNat hn
    simp [FRR.vsub_ok] at h
    obtain ⟨s, hs, hz, p, hp, d, hd, a, ha, rfl⟩ := h
    exact .rr (by simp [Instr.wf, hz]) rfl rfl (by simp_all [FRR.mk_eq_iff])
  case h_8 => simp at h
  case h_1 hn =>
    obtain ⟨o, rfl, ho, he⟩ := decVBinSat_ok hop h
    exact ⟨ho, rfl, by rw [← he, eq_ofNat_of_toNat hn]; rfl⟩
  case h_2 hn =>
    obtain ⟨o, rfl, ho, he⟩ := decVBinSat_ok hop h
    exact ⟨ho, rfl, by rw [← he, eq_ofNat_of_toNat hn]; rfl⟩
  all_goals
    next hn =>
    obtain ⟨o, rfl, ho, -, he⟩ := decVBin_ok h
    exact ⟨ho, rfl, by rw [← he, eq_ofNat_of_toNat hn, hop]; rfl⟩

theorem dec41_isWord (hop : f.op = 0x41) (h : dec41 f = .ok i) : i.IsWord f.pack := by
  unfold dec41 at h
  split at h
  case h_8 => simp at h
  all_goals
    next hn =>
    obtain ⟨o, rfl, ho, -, he⟩ := decVBin_ok h
    exact ⟨ho, rfl, by rw [← he, eq_ofNat_of_toNat hn, hop]; rfl⟩

theorem dec44_isWord (hop : f.op = 0x44) (h : dec44 f = .ok i) : i.IsWord f.pack := by
  unfold dec44 at h
  split at h
  case h_5 hn | h_6 hn =>
    obtain ⟨o, rfl, ho, -, he⟩ := decVBin_ok h
    exact ⟨ho, rfl, by rw [← he, eq_ofNat_of_toNat hn, hop]; rfl⟩
  case h_7 hn | h_8 hn =>
    obtain ⟨o, rfl, ho, he⟩ := decVUn_ok h
    exact ⟨ho, rfl, by rw [← he, eq_ofNat_of_toNat hn, hop]; rfl⟩
  case h_9 => simp at h
  all_goals
    next hn =>
    obtain ⟨o, rfl, ho, he⟩ := decVFBin_ok hop h
    exact ⟨ho, rfl, by rw [← he, eq_ofNat_of_toNat hn]; rfl⟩

theorem dec45_isWord (hop : f.op = 0x45) (h : dec45 f = .ok i) : i.IsWord f.pack := by
  unfold dec45 at h
  split at h
  case h_4 => simp at h
  all_goals
    next hn =>
    obtain ⟨o, rfl, ho, he⟩ := decVUn_ok h
    exact ⟨ho, rfl, by rw [← he, eq_ofNat_of_toNat hn, hop]; rfl⟩

theorem dec48_isWord (hop : f.op = 0x48) (h : dec48 f = .ok i) : i.IsWord f.pack := by
  unfold dec48 at h
  split at h
  case h_1 hn | h_2 hn =>
    obtain ⟨o, rfl, ho, he⟩ := decVCmp_ok hop h
    exact ⟨ho, rfl, by rw [← he, eq_ofNat_of_toNat hn]; rfl⟩
  case h_3 hn =>
    obtain ⟨o, rfl, he⟩ := decVByteSel_ok h
    exact ⟨rfl, rfl, by rw [← he, eq_ofNat_of_toNat hn, hop]; rfl⟩
  case h_4 => simp at h

theorem dec4A_isWord (hop : f.op = 0x4A) (h : dec4A f = .ok i) : i.IsWord f.pack := by
  simp [dec4A, FRR.vsub_ok] at h
  obtain ⟨hn, s, hs, src, hsrc, ⟨hz, hw⟩, p, hp, d, hd, a, ha, rfl⟩ := h
  exact .rr (by exact hw) rfl rfl (by simp_all [FRR.mk_eq_iff])

theorem dec4B_isWord (hop : f.op = 0x4B) (h : dec4B f = .ok i) : i.IsWord f.pack := by
  unfold dec4B at h
  split at h
  case h_1 hn =>
    have hn := eq_ofNat_of_toNat hn
    simp [FRR.vsub_ok] at h
    obtain ⟨s, hs, st, hst, ⟨hz, hw⟩, p, hp, d, hd, a, ha, b, hb, rfl⟩ := h
    exact .rr (by exact hw) rfl rfl (by simp_all [FRR.mk_eq_iff])
  case h_2 hn =>
    have hn := eq_ofNat_of_toNat hn
    simp [FRR.vsub_ok] at h
    obtain ⟨s, hs, ⟨hz, hw⟩, p, hp, d, hd, a, ha, rfl⟩ := h
    exact .rr (by exact hw) rfl rfl (by simp_all [FRR.mk_eq_iff])
  case h_3 hn =>
    have hn := eq_ofNat_of_toNat hn
    simp [FRR.vsub_ok] at h
    obtain ⟨s, hs, ⟨hz, hw⟩, p, hp, d, hd, a, ha, rfl⟩ := h
    exact .rr (by exact hw) rfl rfl (by simp_all [FRR.mk_eq_iff])
  case h_4 => simp at h

theorem dec4C_isWord (hop : f.op = 0x4C) (h : dec4C f = .ok i) : i.IsWord f.pack := by
  unfold dec4C at h
  split at h
  case h_1 hn =>
    obtain ⟨o, rfl, he⟩ := decVByteSel_ok h
    exact ⟨rfl, rfl, by rw [← he, eq_ofNat_of_toNat hn, hop]; rfl⟩
  case h_2 hn =>
    obtain ⟨o, rfl, ho, hb, he⟩ := decVBin_ok h
    refine ⟨?_, rfl, by rw [← he, eq_ofNat_of_toNat hn, hop]; rfl⟩
    simpa [Instr.wf, hb, vf] using ho
  case h_3 => simp at h

theorem dec4D_isWord (hop : f.op = 0x4D) (h : dec4D f = .ok i) : i.IsWord f.pack := by
  simp [dec4D, FRR.vsub_ok] at h
  obtain ⟨hn, s, hs, hz, p, hp, d, hd, a, ha, rfl⟩ := h
  exact .rr (by simp [Instr.wf, hz]) rfl rfl (by simp_all [FRR.mk_eq_iff])

theorem dec50_isWord (hop : f.op = 0x50) (h : dec50 f = .ok i) : i.IsWord f.pack := by
  unfold dec50 at h
  split at h
  case h_1 hn =>
    have hn := eq_ofNat_of_toNat hn
    simp at h
    obtain ⟨op, ho, ⟨hz, hw⟩, d, hd, a, ha, b, hb, rfl⟩ := h
    exact .rr (by simp_all [Instr.wf]) rfl rfl (by simp_all [FRR.mk_eq_iff, append_eq_iff])
  case h_2 hn =>
    have hn := eq_ofNat_of_toNat hn
    simp at h
    obtain ⟨ty, ht, hz, d, hd, a, ha, rfl⟩ := h
    exact .rr rfl rfl rfl (by simp_all [FRR.mk_eq_iff, append_eq_iff])
  case h_3 => simp at h

end

end Sys2Proof
end

section
/-! The words of RR and MM form from OP 0x60 on, and the wait words (R58, R60): what decodes is a well-formed instruction, and the
word is its encoding. -/
namespace Sys2Proof

section
variable {f : FRR} {i : Instr}

theorem decLdSt_isWord (hop : f.op = 0x60 ∨ f.op = 0x61) (h : decLdSt f = .ok i) : i.IsWord f.pack := by
  simp [decLdSt] at h
  obtain ⟨hn, hz, d, hd, a, ha, b, hb, rfl⟩ := h
  split
  · exact .rr rfl rfl rfl (by simp_all [FRR.mk_eq_iff, append_eq_iff, Size.code_ofCode, Hint.code_ofCode])
  · next h60 =>
    have hop := hop.resolve_left h60
    have hc : 0#4 = f.c.extractLsb' 2 4 := (append_eq_extract_iff (hi := 0#3) (lo := 0#1)).2 (by simp_all)
    exact .rr rfl rfl rfl (by simp_all [FRR.mk_eq_iff, append_eq_iff, Size.code_ofCode, Hint.code_ofCode])

theorem dec68_isWord (hop : f.op = 0x68) (h : dec68 f = .ok i) : i.IsWord f.pack := by
  simp [dec68] at h
  obtain ⟨hn, hz, a, ha, b, hb, rfl⟩ := h
  split
  · exact .rr rfl rfl rfl (by simp_all [FRR.mk_eq_iff, append_eq_iff, Hint.code_ofCode])
  · exact .rr rfl rfl rfl (by simp_all [FRR.mk_eq_iff])

theorem dec62_isWord (hop : f.op = 0x62) (h : dec62 f = .ok i) : i.IsWord f.pack := by
  simp [dec62] at h
  obtain ⟨hn4, h⟩ := h
  split at h
  · next hn2 =>
    simp at h
    obtain ⟨hz, p, hp, d, hd, a, ha, b, hb, rfl⟩ := h
    split
    · exact .rr rfl rfl rfl (by simp_all [FRR.mk_eq_iff, append_eq_iff, Hint.code_ofCode])
    · have hn : f.fn = 1#6 := by bv_omega
      exact .rr rfl rfl rfl (by simp_all [FRR.mk_eq_iff, append_eq_iff, Hint.code_ofCode])
  · simp at h
    obtain ⟨hz, d, hd, a, ha, b, hb, rfl⟩ := h
    split
    · exact .rr rfl rfl rfl (by simp_all [FRR.mk_eq_iff, append_eq_iff, Size.code_ofCode, Hint.code_ofCode])
    · have hn : f.fn = 3#6 := by bv_omega
      exact .rr rfl rfl rfl (by simp_all [FRR.mk_eq_iff, append_eq_iff, Size.code_ofCode, Hint.code_ofCode])

theorem dec64_isWord (hop : f.op = 0x64) (h : dec64 f = .ok i) : i.IsWord f.pack := by
  simp [dec64] at h
  obtain ⟨hn, hz, d, hd, rfl⟩ := h
  exact .rr rfl rfl rfl (by simp_all [FRR.mk_eq_iff, append_eq_iff, Size.code_ofCode])

theorem dec66_isWord (hop : f.op = 0x66) (h : dec66 f = .ok i) : i.IsWord f.pack := by
  simp [dec66] at h
  obtain ⟨hn, ⟨⟨hz, hb⟩, hw⟩, rfl⟩ := h
  split
  · exact .rr (by simpa [Instr.wf] using hw) rfl rfl (by simp_all [FRR.mk_eq_iff, append_eq_iff])
  · exact .rr (by simpa [Instr.wf] using hw) rfl rfl (by simp_all [FRR.mk_eq_iff, append_eq_iff])

theorem amoCtor_isWord {c : AmoOp → Instr} {o : AmoOp} (h : amoCtor f.fn = some c) (hd : o.dbl = true → f.fn ≠ 10)
    (he : encAmo f.fn o = f.pack) : (c o).IsWord f.pack := by
  rw [← he]
  unfold amoCtor at h
  split at h
  case h_12 => cases h
  case h_11 hn =>
    cases h
    rw [eq_ofNat_of_toNat hn] at hd ⊢
    exact ⟨by simpa [Instr.wf] using hd, rfl, rfl⟩
  all_goals
    next hn =>
    cases h
    rw [eq_ofNat_of_toNat hn]
    exact ⟨rfl, rfl, rfl⟩

theorem dec70_isWord (hop : f.op = 0x70) (h : dec70 f = .ok i) : i.IsWord f.pack := by
  simp [dec70] at h
  obtain ⟨c, hc, ⟨hz, hs⟩, d, hd, a, ha, b, hb, rfl⟩ := h
  refine amoCtor_isWord hc ?_ (congrArg FRR.pack ?_)
  · rcases hs with hs | hs <;> simp [hs]
  · rcases hs with hs | hs <;> simp_all [FRR.mk_eq_iff]

theorem dec72_isWord (hop : f.op = 0x72) (h : dec72 f = .ok i) : i.IsWord f.pack := by
  unfold dec72 at h
  split at h
  case h_1 hn =>
    have hn := eq_ofNat_of_toNat hn
    simp at h
    obtain ⟨fmt, hfmt, ⟨hz, hl⟩, a, ha, h⟩ := h
    split at h
    case isTrue hb =>
      obtain ⟨hb, hl0⟩ := hb
      simp at h
      obtain ⟨c, hc, rfl⟩ := h
      refine .rr (by simp_all [Instr.wf, SendOp.wf]) rfl rfl ?_
      clear hl0
      simp_all [FRR.mk_eq_iff, append_eq_iff]
    case isFalse =>
      simp at h
      obtain ⟨b, hb, c, hc, rfl⟩ := h
      exact .rr (by simp_all [Instr.wf, SendOp.wf]) rfl rfl (by simp_all [FRR.mk_eq_iff, append_eq_iff])
  case h_2 hn =>
    have hn := eq_ofNat_of_toNat hn
    simp at h
    obtain ⟨hz, d, hd, b, hb, rfl⟩ := h
    exact .rr rfl rfl rfl (by simp_all [FRR.mk_eq_iff])
  case h_3 hn =>
    have hn := eq_ofNat_of_toNat hn
    simp [FRR.restZero] at h
    obtain ⟨hz, rfl⟩ := h
    exact .rr rfl rfl rfl (by simp_all [FRR.mk_eq_iff])
  case h_4 hn =>
    have hn := eq_ofNat_of_toNat hn
    simp [FRR.restZero] at h
    obtain ⟨hz, d, hd, rfl⟩ := h
    exact .rr rfl rfl rfl (by simp_all [FRR.mk_eq_iff])
  case h_5 => simp at h

theorem DepTarget.e_eq (t : DepTarget) : t.e = match t with
    | .xreg n => 0#8 ++ b1 false ++ 0#3 ++ 0#2 ++ xf n
    | .vlane n lane => 0#8 ++ b1 false ++ lane ++ 0#2 ++ vf n
    | .vall n => 0#8 ++ b1 false ++ 0#3 ++ 1#2 ++ vf n
    | .fpmode => 0#8 ++ b1 true ++ 0#3 ++ 0#2 ++ 0#6 := by
  cases t with
  | xreg n => revert n; decide
  | vlane n lane => revert n lane; decide
  | vall n => revert n; decide
  | fpmode => rfl

/-- A register field is its bank bit and its number. -/
theorem xf_extract {w : Nat} {x : BitVec w} (h : x.getLsbD 5 = false) : xf (x.extractLsb' 0 5) = x.extractLsb' 0 6 :=
  append_eq_extract_iff.2 (by simp [h])

theorem vf_extract {w : Nat} {x : BitVec w} (h : x.getLsbD 5 = true) : vf (x.extractLsb' 0 5) = x.extractLsb' 0 6 :=
  append_eq_extract_iff.2 ⟨b1_eq_extract_iff.2 h.symm, rfl⟩

theorem dec73_isWord (hop : f.op = 0x73) (h : dec73 f = .ok i) : i.IsWord f.pack := by
  simp [dec73] at h
  obtain ⟨hn, hz, t, ht, a, ha, b, hb, rfl⟩ := h
  have he : 0#8 ++ b1 (f.e.getLsbD 11) ++ f.e.extractLsb' 8 3 ++ f.e.extractLsb' 6 2 ++ f.e.extractLsb' 0 6 = f.e := by
    simp [append_eq_iff, hz]
  suffices hw : t.wf = true ∧ t.e = f.e from .rr (by exact hw.1) rfl rfl (by simp_all [FRR.mk_eq_iff])
  rw [← he, DepTarget.e_eq]
  split at ht
  case isTrue h11 =>
    simp at ht
    obtain ⟨hc, rfl⟩ := ht
    exact ⟨rfl, by simp [h11, hc]⟩
  case isFalse h11 =>
    split at ht
    case isTrue h5 =>
      split at ht
      case isTrue hv =>
        simp at ht
        subst ht
        exact ⟨rfl, by simp [h11, hv, vf_extract h5]⟩
      case isFalse =>
        simp at ht
        obtain ⟨hc, rfl⟩ := ht
        exact ⟨rfl, by simp [h11, hc, vf_extract h5]⟩
    case isFalse h5 =>
      simp at ht
      obtain ⟨hc, rfl⟩ := ht
      have hx := xf_extract (x := f.e) (by simpa using h5)
      exact ⟨by simpa [DepTarget.wf, ← hx] using hc.1, by simp [h11, hc, hx]⟩

theorem dec78_isWord {f : FWT} (hop : f.op = 0x78) (h : dec78 f = .ok i) : i.IsWord f.pack := by
  simp [dec78] at h
  obtain ⟨hz, rfl⟩ := h
  exact .wt rfl rfl rfl (by simp_all [FWT.mk_eq_iff])

theorem dec79_isWord (hop : f.op = 0x79) (h : dec79 f = .ok i) : i.IsWord f.pack := by
  simp [dec79] at h
  obtain ⟨hn, sc, hs, hz, rfl⟩ := h
  exact .rr rfl rfl rfl (by simp_all [FRR.mk_eq_iff, append_eq_iff])

theorem dec90_isWord (hop : f.op = 0x90) (h : dec90 f = .ok i) : i.IsWord f.pack := by
  simp [dec90] at h
  obtain ⟨hn4, hz, h⟩ := h
  split at h
  case h_1 hn =>
    have hn := eq_ofNat_of_toNat hn
    simp at h
    obtain ⟨d, hd, a, ha, b, hb, rfl⟩ := h
    exact .rr rfl rfl rfl (by simp_all [FRR.mk_eq_iff])
  case h_2 hn | h_3 hn =>
    have hn := eq_ofNat_of_toNat hn
    simp at h
    obtain ⟨d, hd, a, ha, rfl⟩ := h
    exact .rr rfl rfl rfl (by simp_all [FRR.mk_eq_iff])
  case h_4 hn0 hn1 hn2 =>
    have hn : f.fn.toNat = 3 := by grind
    have hn := eq_ofNat_of_toNat hn
    simp at h
    obtain ⟨d, hd, a, ha, rfl⟩ := h
    exact .rr (by simp_all [Instr.wf]) rfl rfl (by simp_all [FRR.mk_eq_iff, append_eq_iff])

theorem dec91_isWord (hop : f.op = 0x91) (h : dec91 f = .ok i) : i.IsWord f.pack := by
  simp [dec91] at h
  obtain ⟨hn, hz, h⟩ := h
  split at h
  · simp at h
    obtain ⟨a, ha, b, hb, rfl⟩ := h
    exact .rr rfl rfl rfl (by simp_all [FRR.mk_eq_iff])
  · simp at h
    obtain ⟨a, ha, rfl⟩ := h
    exact .rr rfl rfl rfl (by simp_all [FRR.mk_eq_iff])

theorem dec98_isWord (hop : f.op = 0x98) (h : dec98 f = .ok i) : i.IsWord f.pack := by
  simp [dec98, FRR.restZero] at h
  obtain ⟨hn, hz, rfl⟩ := h
  split
  · exact .rr rfl rfl rfl (by simp_all [FRR.mk_eq_iff])
  · exact .rr rfl rfl rfl (by simp_all [FRR.mk_eq_iff])

theorem decA0_isWord (hop : f.op = 0xA0) (h : decA0 f = .ok i) : i.IsWord f.pack := by
  simp [decA0, FRR.restZero] at h
  obtain ⟨hj, hz⟩ := h
  split at hj
  case h_4 => cases hj
  all_goals
    next hn =>
    have hn := eq_ofNat_of_toNat hn
    cases hj
    exact .rr rfl rfl rfl (by simp_all [FRR.mk_eq_iff])

theorem decA4_isWord (hop : f.op = 0xA4) (h : decA4 f = .ok i) : i.IsWord f.pack := by
  simp [decA4] at h
  obtain ⟨hn, hz, a, ha, b, hb, rfl⟩ := h
  exact .rr rfl rfl rfl (by simp_all [FRR.mk_eq_iff])

theorem decA5_isWord (hop : f.op = 0xA5) (h : decA5 f = .ok i) : i.IsWord f.pack := by
  simp [decA5] at h
  obtain ⟨hn, h⟩ := h
  split at h
  · simp at h
    obtain ⟨hz, d, hd, a, ha, b, hb, rfl⟩ := h
    exact .rr (by simp_all [Instr.wf]) rfl rfl (by simp_all [FRR.mk_eq_iff])
  · simp [FRR.restZero] at h
    obtain ⟨hz, rfl⟩ := h
    exact .rr rfl rfl rfl (by simp_all [FRR.mk_eq_iff])

theorem dec92_isWord (hop : f.op = 0x92) (h : dec92 f = .ok i) : i.IsWord f.pack := by
  simp [dec92] at h
  obtain ⟨hn4, h⟩ := h
  split at h
  · simp at h
    obtain ⟨hz, d, hd, a, ha, b, hb, rfl⟩ := h
    split
    · exact .rr rfl rfl rfl (by simp_all [FRR.mk_eq_iff])
    · have hn : f.fn = 1#6 := by bv_omega
      exact .rr rfl rfl rfl (by simp_all [FRR.mk_eq_iff])
  · simp at h
    obtain ⟨hz, p, hp, d, hd, a, ha, b, hb, rfl⟩ := h
    split
    · exact .rr rfl rfl rfl (by simp_all [FRR.mk_eq_iff, append_eq_iff])
    · have hn : f.fn = 3#6 := by bv_omega
      exact .rr rfl rfl rfl (by simp_all [FRR.mk_eq_iff, append_eq_iff])

theorem decClause_isWord (h : decClause f = .ok i) : i.IsWord f.pack := by
  unfold decClause at h
  split at h
  case h_2 ho hn =>
    have ho := eq_ofNat_of_toNat ho
    have hn := eq_ofNat_of_toNat hn
    simp at h
    obtain ⟨hz, rfl⟩ := h
    exact .rr rfl rfl rfl (by simp_all [FRR.mk_eq_iff])
  case h_3 ho hn | h_8 ho hn | h_9 ho hn =>
    have ho := eq_ofNat_of_toNat ho
    have hn := eq_ofNat_of_toNat hn
    simp at h
    obtain ⟨hz, a, ha, b, hb, rfl⟩ := h
    exact .rr rfl rfl rfl (by simp_all [FRR.mk_eq_iff])
  case h_11 => simp at h
  all_goals
    next ho hn =>
    have ho := eq_ofNat_of_toNat ho
    have hn := eq_ofNat_of_toNat hn
    simp at h
    obtain ⟨hz, a, ha, rfl⟩ := h
    exact .rr rfl rfl rfl (by simp_all [FRR.mk_eq_iff])
end

end Sys2Proof
end

section
/-! The words of TL and SY form (R59, R61): what decodes is a well-formed instruction, and the word is its encoding. -/
namespace Sys2Proof

section
variable {f : FTL} {i : Instr}

theorem dec7A_isWord (hop : f.op = 0x7A) (h : dec7A f = .ok i) : i.IsWord f.pack := by
  simp [dec7A] at h
  obtain ⟨hn4, hz, h⟩ := h
  split at h
  case h_1 hn | h_3 hn =>
    have hn := eq_ofNat_of_toNat hn
    simp at h
    subst h
    exact .tl rfl rfl rfl (by simp_all [FTL.mk_eq_iff])
  case h_2 hn =>
    have hn := eq_ofNat_of_toNat hn
    simp at h
    obtain ⟨a, ha, rfl⟩ := h
    exact .tl rfl rfl rfl (by simp_all [FTL.mk_eq_iff])
  case h_4 hn0 hn1 hn2 =>
    have hn : f.fn.toNat = 3 := by grind
    have hn := eq_ofNat_of_toNat hn
    simp at h
    obtain ⟨d, hd, rfl⟩ := h
    exact .tl rfl rfl rfl (by simp_all [FTL.mk_eq_iff])

theorem dec80_isWord (hop : f.op = 0x80) (h : dec80 f = .ok i) : i.IsWord f.pack := by
  simp [dec80, FTL.noTile] at h
  obtain ⟨hn3, hz, h⟩ := h
  split at h
  case h_1 hn =>
    have hn := eq_ofNat_of_toNat hn
    simp at h
    obtain ⟨a, ha, rfl⟩ := h
    exact .tl rfl rfl rfl (by simp_all [FTL.mk_eq_iff, append_eq_iff])
  case h_2 hn =>
    have hn := eq_ofNat_of_toNat hn
    simp at h
    obtain ⟨d, hd, rfl⟩ := h
    exact .tl rfl rfl rfl (by simp_all [FTL.mk_eq_iff])
  case h_3 hn0 hn1 =>
    have hn : f.fn.toNat = 2 := by grind
    have hn := eq_ofNat_of_toNat hn
    simp at h
    obtain ⟨d, hd, a, ha, rfl⟩ := h
    exact .tl rfl rfl rfl (by simp_all [FTL.mk_eq_iff])

theorem dec81_isWord (hop : f.op = 0x81) (h : dec81 f = .ok i) : i.IsWord f.pack := by
  simp [dec81] at h
  obtain ⟨hn, ⟨⟨hz, h1⟩, h2⟩, a, ha, b, hb, rfl⟩ := h
  exact .tl (by simp [Instr.wf, h1, h2]) rfl rfl (by simp_all [FTL.mk_eq_iff])

theorem dec84_isWord (hop : f.op = 0x84) (h : dec84 f = .ok i) : i.IsWord f.pack := by
  simp [dec84] at h
  obtain ⟨hn5, hz, h⟩ := h
  split at h
  case h_1 hn =>
    have hn := eq_ofNat_of_toNat hn
    simp at h
    obtain ⟨hz', a, ha, rfl⟩ := h
    exact .tl rfl rfl rfl (by simp_all [FTL.mk_eq_iff])
  case h_2 hn | h_3 hn =>
    have hn := eq_ofNat_of_toNat hn
    simp at h
    obtain ⟨⟨hz', hk⟩, t, ht, b, hb, rfl⟩ := h
    obtain ⟨hl, ho, hr⟩ := OpFn.tileOpd_ok.1 ⟨hk, ht⟩
    exact .tl rfl rfl (congrArg some (TileOpd.pack_put1 ..)) (by simp_all [FTL.mk_eq_iff])
  case h_4 hn =>
    have hn := eq_ofNat_of_toNat hn
    simp at h
    obtain ⟨⟨hz', hk⟩, d, hd, t, ht, rfl⟩ := h
    obtain ⟨hl, ho, hr⟩ := OpFn.tileOpd_ok.1 ⟨hk, ht⟩
    exact .tl rfl rfl (congrArg some (TileOpd.pack_put1 ..)) (by simp_all [FTL.mk_eq_iff])
  case h_5 hn0 hn1 hn2 hn3 =>
    have hn : f.fn.toNat = 4 := by grind
    have hn := eq_ofNat_of_toNat hn
    simp at h
    obtain ⟨⟨hz', hk⟩, t, ht, rfl⟩ := h
    obtain ⟨hl, ho, hr⟩ := OpFn.tileOpd_ok.1 ⟨hk, ht⟩
    exact .tl rfl rfl (congrArg some (TileOpd.pack_put1 ..)) (by simp_all [FTL.mk_eq_iff])

theorem dec86_isWord (hop : f.op = 0x86) (h : dec86 f = .ok i) : i.IsWord f.pack := by
  simp [dec86] at h
  obtain ⟨hn, hz, d, hd, rfl⟩ := h
  split
  · exact .tl rfl rfl rfl (by simp_all [FTL.mk_eq_iff, append_eq_iff])
  · exact .tl rfl rfl rfl (by simp_all [FTL.mk_eq_iff, append_eq_iff])

theorem encMat_eq (fn : BitVec 4) (o : MatOp) : encMat fn o = FTL.pack ⟨0x99, xf o.d, o.a.rField, o.b.rField, fn, o.a.lField, o.b.lField,
    o.a.oField, o.b.oField, o.o3.extractLsb' 4 4, o.o3.extractLsb' 0 4,
    b1 o.sat ++ b1 o.ts ++ b1 o.sb ++ b1 o.sa ++ o.ty.code⟩ := by
  obtain ⟨a, b, ty, sa, sb, ts, sat, o3, d⟩ := o
  cases a <;> cases b <;> rfl

theorem dec99_isWord (hop : f.op = 0x99) (h : dec99 f = .ok i) : i.IsWord f.pack := by
  unfold dec99 at h
  split at h
  case h_1 hn =>
    have hn := eq_ofNat_of_toNat hn
    simp [FTL.noTile] at h
    obtain ⟨hz, rfl⟩ := h
    exact .tl rfl rfl rfl (by simp_all [FTL.mk_eq_iff])
  case h_2 hn =>
    have hn := eq_ofNat_of_toNat hn
    simp [FTL.noTile] at h
    split at h
    · simp at h
      obtain ⟨⟨hz, hk⟩, t, ht, rfl⟩ := h
      obtain ⟨hl, ho, hr⟩ := OpFn.tileOpd_ok.1 ⟨hk, ht⟩
      refine .tl rfl rfl (congrArg some (TileOpd.pack_put1 ..)) ?_
      simp_all [FTL.mk_eq_iff, append_eq_iff]
    · simp at h
      obtain ⟨hz, a, ha, rfl⟩ := h
      exact .tl rfl rfl rfl (by simp_all [FTL.mk_eq_iff])
  case h_3 hn =>
    have hn := eq_ofNat_of_toNat hn
    simp [FTL.noTile] at h
    obtain ⟨hz, a, ha, rfl⟩ := h
    exact .tl rfl rfl rfl (by simp_all [FTL.mk_eq_iff])
  case h_4 hn0 hn3 hn4 =>
    simp at h
    obtain ⟨hn, ty, hty, ⟨⟨⟨hw, hd0⟩, hka⟩, hkb⟩, d, hd, a, ha, b, hb, rfl⟩ := h
    obtain ⟨hla, hoa, hra⟩ := OpFn.tileOpd_ok.1 ⟨hka, ha⟩
    obtain ⟨hlb, hob, hrb⟩ := OpFn.tileOpd_ok.1 ⟨hkb, hb⟩
    have hwf : ∀ m n, (⟨m, n, ty, f.aux[4], f.aux[5], f.aux[6], f.aux[7], f.hr ++ f.barn, d⟩ : MatOp).wf = true := by
      intro m n
      simp_all [MatOp.wf]
    split
    · have hn := eq_ofNat_of_toNat (by assumption)
      exact .tl (by exact hwf ..) rfl (congrArg some (encMat_eq ..)) (by simp_all [FTL.mk_eq_iff, append_eq_iff])
    · have hn := eq_ofNat_of_toNat (hn.resolve_left (by assumption))
      exact .tl (by exact hwf ..) rfl (congrArg some (encMat_eq ..)) (by simp_all [FTL.mk_eq_iff, append_eq_iff])

end

section
variable {f : FSY} {i : Instr}

/-- A code names one register, which is well-formed (R115). -/
theorem SysReg.ofCode_ok {c : BitVec 16} {sr : SysReg} (h : SysReg.ofCode c = some sr) : sr.wf = true ∧ sr.code = c := by
  simp only [SysReg.ofCode] at h
  split at h
  · next hc =>
    split at h
    · next hn => cases h; exact ⟨by simpa [SysReg.wf] using hn, by simp [SysReg.code, append_eq_iff, hc]⟩
    · cases h
  split at h
  · next hc => cases h; exact ⟨rfl, by simp [SysReg.code, append_eq_iff, hc]⟩
  split at h
  · next hc => cases h; exact ⟨rfl, by simp [SysReg.code, append_eq_iff, hc]⟩
  split at h
  · next hc => cases h; exact ⟨rfl, by simp [SysReg.code, append_eq_iff, hc]⟩
  split at h
  · next hc => cases h; exact ⟨rfl, by simp [SysReg.code, append_eq_iff, hc]⟩
  split at h
  case h_32 => cases h
  all_goals
    next hc =>
    cases h
    exact ⟨rfl, (eq_ofNat_of_toNat hc).symm⟩

theorem putsrCtor_isWord {sr : SysReg} {a : XReg} (hs : sr.wf = true) (h : putsrCtor sr a = some i) : i.IsWord (encPutsr sr a) := by
  unfold putsrCtor at h
  split at h
  case h_12 => 
    split at h
    case isTrue hw => cases h; exact ⟨hw, rfl, rfl⟩
    case isFalse => cases h
  case h_6 => cases h; exact ⟨hs, rfl, rfl⟩
  all_goals
    cases h
    exact ⟨rfl, rfl, rfl⟩

theorem decSys_isWord (h : decSys f = .ok i) : i.IsWord f.pack := by
  unfold decSys at h
  split at h
  case h_1 ho hn =>
    have ho := eq_ofNat_of_toNat ho
    have hn := eq_ofNat_of_toNat hn
    simp at h
    obtain ⟨sr, hs, hz, d, hd, rfl⟩ := h
    obtain ⟨hw, hc⟩ := SysReg.ofCode_ok hs
    exact .sy (by exact hw) rfl rfl (by simp_all [FSY.mk_eq_iff])
  case h_2 ho hn =>
    have ho := eq_ofNat_of_toNat ho
    have hn := eq_ofNat_of_toNat hn
    simp at h
    obtain ⟨sr, hs, -, hz, a, ha, hi⟩ := h
    obtain ⟨hw, hc⟩ := SysReg.ofCode_ok hs
    have he : encPutsr sr a = f.pack := congrArg FSY.pack (by simp_all [FSY.mk_eq_iff])
    exact he ▸ putsrCtor_isWord hw hi
  case h_3 ho hn | h_4 ho hn =>
    have ho := eq_ofNat_of_toNat ho
    have hn := eq_ofNat_of_toNat hn
    simp at h
    obtain ⟨hz, rfl⟩ := h
    exact .sy rfl rfl rfl (by simp_all [FSY.mk_eq_iff])
  case h_5 ho =>
    have ho := eq_ofNat_of_toNat ho
    simp at h
    obtain ⟨hi, hz⟩ := h
    split at hi
    case h_4 => cases hi
    all_goals
      next hn =>
      have hn := eq_ofNat_of_toNat hn
      cases hi
      exact .sy rfl rfl rfl (by simp_all [FSY.mk_eq_iff])
  case h_6 ho hn =>
    have ho := eq_ofNat_of_toNat ho
    have hn := eq_ofNat_of_toNat hn
    simp at h
    obtain ⟨⟨hz, hw⟩, a, ha, rfl⟩ := h
    exact .sy (by simp_all [Instr.wf]) rfl rfl (by simp_all [FSY.mk_eq_iff, append_eq_iff])
  case h_7 => simp at h
end

end Sys2Proof
end

section
/-! Every word that decodes (R65, R66), from its opcode's decoder, and the statement about decoding. -/
namespace Sys2Proof

/-- A word that decodes is the encoding of a well-formed instruction: the decoders of the opcodes, one after another (R65). -/
theorem decodeWord_isWord {w : Word} {i : Instr} (h : decodeWord w = .ok i) : i.IsWord w := by
  simp only [decodeWord] at h
  split at h
  · cases h
  split at h
  · cases h
  split at h
  case h_1 ho => have ho := eq_ofNat_of_toNat ho; exact FRR.pack_unpack w ▸ decScalar_isWord ho h
  case h_2 ho => have ho := eq_ofNat_of_toNat ho; exact FRI.pack_unpack w ▸ decScalarImm_isWord ho h
  case h_3 ho => have ho := eq_ofNat_of_toNat ho; exact FRR.pack_unpack w ▸ decScalar3_isWord ho h
  case h_4 ho => have ho := eq_ofNat_of_toNat ho; exact FRR.pack_unpack w ▸ decMulDiv_isWord ho h
  case h_5 ho => have ho := eq_ofNat_of_toNat ho; exact FRI.pack_unpack w ▸ decField_isWord ho h
  case h_6 ho => have ho := eq_ofNat_of_toNat ho; exact FRI.pack_unpack w ▸ decLi_isWord ho h
  case h_7 ho => have ho := eq_ofNat_of_toNat ho; exact FRR.pack_unpack w ▸ decFp_isWord ho h
  case h_8 ho => have ho := eq_ofNat_of_toNat ho; exact FRR.pack_unpack w ▸ decFp2_isWord ho h
  case h_9 ho => have ho := eq_ofNat_of_toNat ho; exact FRI.pack_unpack w ▸ decBranch_isWord (.inl ho) h
  case h_10 ho => have ho := eq_ofNat_of_toNat ho; exact FRI.pack_unpack w ▸ decBranch_isWord (.inr (.inl ho)) h
  case h_11 ho => have ho := eq_ofNat_of_toNat ho; exact FRI.pack_unpack w ▸ decBranch_isWord (.inr (.inr ho)) h
  case h_12 ho => have ho := eq_ofNat_of_toNat ho; exact FRR.pack_unpack w ▸ decJump_isWord ho h
  case h_13 ho => have ho := eq_ofNat_of_toNat ho; exact FRR.pack_unpack w ▸ dec40_isWord ho h
  case h_14 ho => have ho := eq_ofNat_of_toNat ho; exact FRR.pack_unpack w ▸ dec41_isWord ho h
  case h_15 ho => have ho := eq_ofNat_of_toNat ho; exact FRR.pack_unpack w ▸ dec44_isWord ho h
  case h_16 ho => have ho := eq_ofNat_of_toNat ho; exact FRR.pack_unpack w ▸ dec45_isWord ho h
  case h_17 ho => have ho := eq_ofNat_of_toNat ho; exact FRR.pack_unpack w ▸ dec48_isWord ho h
  case h_18 ho => have ho := eq_ofNat_of_toNat ho; exact FRR.pack_unpack w ▸ dec4A_isWord ho h
  case h_19 ho => have ho := eq_ofNat_of_toNat ho; exact FRR.pack_unpack w ▸ dec4B_isWord ho h
  case h_20 ho => have ho := eq_ofNat_of_toNat ho; exact FRR.pack_unpack w ▸ dec4C_isWord ho h
  case h_21 ho => have ho := eq_ofNat_of_toNat ho; exact FRR.pack_unpack w ▸ dec4D_isWord ho h
  case h_22 ho => have ho := eq_ofNat_of_toNat ho; exact FRI.pack_unpack w ▸ dec4E_isWord ho h
  case h_23 ho => have ho := eq_ofNat_of_toNat ho; exact FRR.pack_unpack w ▸ dec50_isWord ho h
  case h_24 ho => have ho := eq_ofNat_of_toNat ho; exact FRI.pack_unpack w ▸ dec58_isWord ho h
  case h_25 ho => have ho := eq_ofNat_of_toNat ho; exact FRR.pack_unpack w ▸ decLdSt_isWord (.inl ho) h
  case h_26 ho => have ho := eq_ofNat_of_toNat ho; exact FRR.pack_unpack w ▸ decLdSt_isWord (.inr ho) h
  case h_27 ho => have ho := eq_ofNat_of_toNat ho; exact FRR.pack_unpack w ▸ dec62_isWord ho h
  case h_28 ho => have ho := eq_ofNat_of_toNat ho; exact FRR.pack_unpack w ▸ dec64_isWord ho h
  case h_29 ho => have ho := eq_ofNat_of_toNat ho; exact FRR.pack_unpack w ▸ dec66_isWord ho h
  case h_30 ho => have ho := eq_ofNat_of_toNat ho; exact FRR.pack_unpack w ▸ dec68_isWord ho h
  case h_31 ho => have ho := eq_ofNat_of_toNat ho; exact FRR.pack_unpack w ▸ dec70_isWord ho h
  case h_32 ho => have ho := eq_ofNat_of_toNat ho; exact FRR.pack_unpack w ▸ dec72_isWord ho h
  case h_33 ho => have ho := eq_ofNat_of_toNat ho; exact FRR.pack_unpack w ▸ dec73_isWord ho h
  case h_34 ho => have ho := eq_ofNat_of_toNat ho; exact FWT.pack_unpack w ▸ dec78_isWord ho h
  case h_35 ho => have ho := eq_ofNat_of_toNat ho; exact FRR.pack_unpack w ▸ dec79_isWord ho h
  case h_36 ho => have ho := eq_ofNat_of_toNat ho; exact FTL.pack_unpack w ▸ dec7A_isWord ho h
  case h_37 ho => have ho := eq_ofNat_of_toNat ho; exact FTL.pack_unpack w ▸ dec80_isWord ho h
  case h_38 ho => have ho := eq_ofNat_of_toNat ho; exact FTL.pack_unpack w ▸ dec81_isWord ho h
  case h_39 ho => have ho := eq_ofNat_of_toNat ho; exact FTL.pack_unpack w ▸ dec84_isWord ho h
  case h_40 ho => have ho := eq_ofNat_of_toNat ho; exact FTL.pack_unpack w ▸ dec86_isWord ho h
  case h_41 ho => have ho := eq_ofNat_of_toNat ho; exact FRR.pack_unpack w ▸ dec90_isWord ho h
  case h_42 ho => have ho := eq_ofNat_of_toNat ho; exact FRR.pack_unpack w ▸ dec91_isWord ho h
  case h_43 ho => have ho := eq_ofNat_of_toNat ho; exact FRR.pack_unpack w ▸ dec92_isWord ho h
  case h_44 ho => have ho := eq_ofNat_of_toNat ho; exact FRR.pack_unpack w ▸ dec98_isWord ho h
  case h_45 ho => have ho := eq_ofNat_of_toNat ho; exact FTL.pack_unpack w ▸ dec99_isWord ho h
  case h_46 ho => have ho := eq_ofNat_of_toNat ho; exact FRR.pack_unpack w ▸ decA0_isWord ho h
  case h_47 ho => have ho := eq_ofNat_of_toNat ho; exact FRI.pack_unpack w ▸ decA1_isWord ho h
  case h_48 ho => have ho := eq_ofNat_of_toNat ho; exact FRI.pack_unpack w ▸ decA3_isWord ho h
  case h_49 ho => have ho := eq_ofNat_of_toNat ho; exact FRR.pack_unpack w ▸ decA4_isWord ho h
  case h_50 ho => have ho := eq_ofNat_of_toNat ho; exact FRR.pack_unpack w ▸ decA5_isWord ho h
  case h_51 => exact FRR.pack_unpack w ▸ decClause_isWord h
  case h_52 => exact FRR.pack_unpack w ▸ decClause_isWord h
  case h_53 => exact FRR.pack_unpack w ▸ decClause_isWord h
  case h_54 => exact FRR.pack_unpack w ▸ decClause_isWord h
  case h_55 => exact FSY.pack_unpack w ▸ decSys_isWord h
  case h_56 => exact FSY.pack_unpack w ▸ decSys_isWord h
  case h_57 => exact FSY.pack_unpack w ▸ decSys_isWord h
  case h_58 => exact FSY.pack_unpack w ▸ decSys_isWord h
  case h_59 => cases h

/-- Settles O57: every opcode's decoder reads its word's fields without dropping one, as `decodeWord_isWord` collects. -/
theorem encodeOfDecode : Obligations.EncodeOfDecode := fun _ _ h => decodeWord_isWord h

end Sys2Proof
end

section
/-! Every encoding decodes to its instruction (R51 to R67): one lemma per constructor, or one per table that the decoder reads its
constructor from, and the statement about encoding. -/
namespace Sys2Proof

theorem ne_of_op_ne {w v : Word} (h : w.extractLsb' 56 8 ≠ v.extractLsb' 56 8) : w ≠ v := fun e => h (e ▸ rfl)

@[simp] theorem FRR.op_pack (f : FRR) : f.pack.extractLsb' 56 8 = f.op := congrArg FRR.op f.unpack_pack
@[simp] theorem FRI.op_pack (f : FRI) : f.pack.extractLsb' 56 8 = f.op := congrArg FRI.op f.unpack_pack
@[simp] theorem FTL.op_pack (f : FTL) : f.pack.extractLsb' 56 8 = f.op := congrArg FTL.op f.unpack_pack
@[simp] theorem FWT.op_pack (f : FWT) : f.pack.extractLsb' 56 8 = f.op := congrArg FWT.op f.unpack_pack
@[simp] theorem FSY.op_pack (f : FSY) : f.pack.extractLsb' 56 8 = f.op := congrArg FSY.op f.unpack_pack

@[simp] theorem FRR.pack_ne_zero {f : FRR} (h : f.op ≠ 0#8) : f.pack ≠ 0#64 := ne_of_op_ne (by simpa using h)
@[simp] theorem FRI.pack_ne_zero {f : FRI} (h : f.op ≠ 0#8) : f.pack ≠ 0#64 := ne_of_op_ne (by simpa using h)
@[simp] theorem FTL.pack_ne_zero {f : FTL} (h : f.op ≠ 0#8) : f.pack ≠ 0#64 := ne_of_op_ne (by simpa using h)
@[simp] theorem FWT.pack_ne_zero {f : FWT} (h : f.op ≠ 0#8) : f.pack ≠ 0#64 := ne_of_op_ne (by simpa using h)
@[simp] theorem FSY.pack_ne_zero {f : FSY} (h : f.op ≠ 0#8) : f.pack ≠ 0#64 := ne_of_op_ne (by simpa using h)
@[simp] theorem FRR.pack_ne_ones {f : FRR} (h : f.op ≠ 255#8) : f.pack ≠ 0xFFFFFFFFFFFFFFFF#64 := ne_of_op_ne (by simpa using h)
@[simp] theorem FRI.pack_ne_ones {f : FRI} (h : f.op ≠ 255#8) : f.pack ≠ 0xFFFFFFFFFFFFFFFF#64 := ne_of_op_ne (by simpa using h)
@[simp] theorem FTL.pack_ne_ones {f : FTL} (h : f.op ≠ 255#8) : f.pack ≠ 0xFFFFFFFFFFFFFFFF#64 := ne_of_op_ne (by simpa using h)
@[simp] theorem FWT.pack_ne_ones {f : FWT} (h : f.op ≠ 255#8) : f.pack ≠ 0xFFFFFFFFFFFFFFFF#64 := ne_of_op_ne (by simpa using h)
@[simp] theorem FSY.pack_ne_ones {f : FSY} (h : f.op ≠ 255#8) : f.pack ≠ 0xFFFFFFFFFFFFFFFF#64 := ne_of_op_ne (by simpa using h)

@[simp] theorem ElemType.ofCode_code (c : ElemType) : ElemType.ofCode c.code = some c := ElemType.ofCode_eq_some.2 rfl
@[simp] theorem FpFmt.ofCode_code (c : FpFmt) : FpFmt.ofCode c.code = some c := FpFmt.ofCode_eq_some.2 rfl
@[simp] theorem RndSel.ofCode_code (c : RndSel) : RndSel.ofCode c.code = some c := RndSel.ofCode_eq_some.2 rfl
@[simp] theorem Rel.ofCode_code (c : Rel) : Rel.ofCode c.code = some c := Rel.ofCode_eq_some.2 rfl
@[simp] theorem Scope.ofCode_code (c : Scope) : Scope.ofCode c.code = some c := Scope.ofCode_eq_some.2 rfl
@[simp] theorem Cond.ofCode_code (c : Cond) : Cond.ofCode c.code = some c := Cond.ofCode_eq_some.2 rfl
@[simp] theorem BrHint.ofCode_code (c : BrHint) : BrHint.ofCode c.code = some c := BrHint.ofCode_eq_some.2 rfl
@[simp] theorem PlogOp.ofCode_code (c : PlogOp) : PlogOp.ofCode c.code = some c := PlogOp.ofCode_eq_some.2 rfl
@[simp] theorem Fmt.ofCode_code (c : Fmt) : Fmt.ofCode c.code = some c := Fmt.ofCode_eq_some.2 rfl
@[simp] theorem Rel.code_inj {a b : Rel} : a.code = b.code ↔ a = b := by rw [← Rel.ofCode_eq_some, Rel.ofCode_code, Option.some_inj]
@[simp] theorem ElemType.code_inj {a b : ElemType} : a.code = b.code ↔ a = b := by
  rw [← ElemType.ofCode_eq_some, ElemType.ofCode_code, Option.some_inj]
@[simp] theorem num_xf (r : XReg) : (xf r).extractLsb' 0 5 = r := by simp [xf]
@[simp] theorem num_vf (r : VReg) : (vf r).extractLsb' 0 5 = r := by simp [vf]
@[simp] theorem SysReg.ofCode_code {sr : SysReg} (h : sr.wf = true) : SysReg.ofCode sr.code = some sr := by
  cases sr with
  | hashmask n => simpa [SysReg.wf, SysReg.code, SysReg.ofCode] using h
  | fwin n | feat n | accept n | active n => simp [SysReg.code, SysReg.ofCode]
  | _ => rfl

/-- The sub-fields of a vector word that is packed with FIX bits for v registers alone are read back. -/
@[simp] theorem FRR.vsub_fields {op : BitVec 8} {d a b c fn : BitVec 6} {ty : ElemType} {rnd : RndSel} {rel : BitVec 3}
    {st : BitVec 4} {fd fa fb sat : Bool} (hd : fd = true → d.getLsbD 5 = true) (ha : fa = true → a.getLsbD 5 = true)
    (hb : fb = true → b.getLsbD 5 = true) :
    FRR.vsub ⟨op, d, a, b, c, fn, vM fd fa fb sat, 0#1, vE ty rnd rel st⟩ = .ok ⟨ty, rnd, rel, st, sat, fd, fa, fb⟩ :=
  FRR.vsub_ok.2 ⟨rfl, rfl, rfl, hd, ha, hb⟩

/-- Its encoding decodes to it. -/
def Instr.Decodes (i : Instr) : Prop := ∃ w, encode i = some w ∧ decodeWord w = .ok i

theorem decode_encScalar {fn : BitVec 6} {c : ScalarRR → Instr} (h : scalarRR fn = some c) (o : ScalarRR) :
    decodeWord (encScalar fn o) = .ok (c o) := by
  have hn : ¬ (fn = 0#6 ∨ fn = 1#6) := by rintro (rfl | rfl) <;> simp [scalarRR] at h
  rw [encScalar_eq]
  simp [decodeWord, decScalar, hn, h]

theorem decode_encMulDiv {fn : BitVec 6} {c : ScalarRR → Instr} (h : mulDiv fn = some c) (o : ScalarRR) :
    decodeWord (encScalar fn o 0x04) = .ok (c o) := by
  rw [encScalar_eq]
  simp [decodeWord, decMulDiv, h]

theorem decode_encUnary {fn : BitVec 6} {c : UnaryRR → Instr} (h : unaryRR fn = some c) (o : UnaryRR) :
    decodeWord (encUnary fn o) = .ok (c o) := by
  have hn : fn ≠ 0#6 := by rintro rfl; simp [unaryRR] at h
  simp [encUnary, decodeWord, decScalar3, hn, h]

theorem decode_encImm {fn : BitVec 6} {c : ScalarRI → Instr} (hs : shiftRI fn = none) (h : scalarRI fn = some c) (o : ScalarRI) :
    decodeWord (encImm fn o) = .ok (c o) := by
  simp [encImm, decodeWord, decScalarImm, hs, h]

/-- A shift count below 32 has bit 5 clear (R99). -/
theorem bit5_of_lt {n : BitVec 6} : n < 32#6 → n[5] = false := by revert n; decide

theorem decode_encShift {fn : BitVec 6} {c : ShiftRI → Instr} (h : shiftRI fn = some c) {o : ShiftRI} (hw : o.wf = true) :
    decodeWord (encShift fn o) = .ok (c o) := by
  have h32 : o.w32 = false ∨ o.n[5] = false := by
    simp only [ShiftRI.wf, Bool.or_eq_true, Bool.not_eq_true', decide_eq_true_eq] at hw
    exact hw.imp_right bit5_of_lt
  simp [encShift, decodeWord, decScalarImm, h, h32]

theorem decode_encAmo {fn : BitVec 6} {c : AmoOp → Instr} (h : amoCtor fn = some c) {o : AmoOp} (hd : o.dbl = false ∨ fn ≠ 10) :
    decodeWord (encAmo fn o) = .ok (c o) := by
  obtain ⟨d, a, b, e, dbl⟩ := o
  cases dbl <;> simp_all [encAmo, decodeWord, dec70]

theorem decode_encPutsr {sr : SysReg} {a : XReg} {i : Instr} (hw : sr.wf = true) (h0 : (putsrCtor sr 0).isSome = true)
    (h : putsrCtor sr a = some i) : decodeWord (encPutsr sr a) = .ok i := by
  obtain ⟨j, hj⟩ := Option.isSome_iff_exists.1 h0
  have hj : putsrCtor sr 0#5 = some j := hj
  simp [encPutsr, encSy, decodeWord, decSys, hw, hj, h]

end Sys2Proof

namespace Sys2Proof.Instr.Decodes

/-! ## Scalar words (R98 to R104) -/

theorem add (o) : (Instr.add o).Decodes := ⟨_, congrArg some (encArith_eq ..), by simp [decodeWord, decScalar]⟩
theorem sub (o) : (Instr.sub o).Decodes := ⟨_, congrArg some (encArith_eq ..), by simp [decodeWord, decScalar]⟩
theorem sel (d a b c) : (Instr.sel d a b c).Decodes := ⟨_, rfl, by simp [decodeWord, decScalar3]⟩
theorem bfx (o sx) (hw : (Instr.bfx o sx).wf = true) : (Instr.bfx o sx).Decodes :=
  ⟨_, rfl, by simpa [encField, decodeWord, decField, BFieldRI.wf, Instr.wf] using hw⟩
theorem bfi (o) (hw : (Instr.bfi o).wf = true) : (Instr.bfi o).Decodes :=
  ⟨_, rfl, by simpa [encField, decodeWord, decField, BFieldRI.wf, Instr.wf] using hw⟩
theorem li (d imm) : (Instr.li d imm).Decodes := ⟨_, rfl, by simp [decodeWord, decLi]⟩
theorem lih (d imm) : (Instr.lih d imm).Decodes := ⟨_, rfl, by simp [decodeWord, decLi]⟩

/-! ## Scalar floating-point words (R105 to R111) -/

theorem fadd (o) : (Instr.fadd o).Decodes := ⟨_, congrArg some (encFp_eq ..), by simp [decodeWord, decFp]⟩
theorem fsub (o) : (Instr.fsub o).Decodes := ⟨_, congrArg some (encFp_eq ..), by simp [decodeWord, decFp]⟩
theorem fmul (o) : (Instr.fmul o).Decodes := ⟨_, congrArg some (encFp_eq ..), by simp [decodeWord, decFp]⟩
theorem fdiv (o) : (Instr.fdiv o).Decodes := ⟨_, congrArg some (encFp_eq ..), by simp [decodeWord, decFp]⟩
theorem fmin (o) : (Instr.fmin o).Decodes := ⟨_, congrArg some (encFp_eq ..), by simp [decodeWord, decFp]⟩
theorem fmax (o) : (Instr.fmax o).Decodes := ⟨_, congrArg some (encFp_eq ..), by simp [decodeWord, decFp]⟩
theorem ffma (o) : (Instr.ffma o).Decodes := ⟨_, congrArg some (encFp_eq ..), by simp [decodeWord, decFp]⟩
theorem fsqrt (d a fmt rnd) : (Instr.fsqrt d a fmt rnd).Decodes :=
  ⟨_, congrArg some (encFp_eq ..), by simp [decodeWord, decFp, BSrc.bField, BSrc.ksField, BSrc.eField]⟩
theorem fcmp (d a b fmt rel) : (Instr.fcmp d a b fmt rel).Decodes := ⟨_, rfl, by simp [decodeWord, decFp2, RndSel.ofCode]⟩
theorem fclass (d a fmt) : (Instr.fclass d a fmt).Decodes := ⟨_, rfl, by simp [decodeWord, decFp2, RndSel.ofCode]⟩
theorem fmv (d a fmt) : (Instr.fmv d a fmt).Decodes := ⟨_, rfl, by simp [decodeWord, decFp2, RndSel.ofCode]⟩
theorem fcvt (o) (hw : (Instr.fcvt o).wf = true) : (Instr.fcvt o).Decodes :=
  ⟨_, rfl, by simpa [decodeWord, decFp2, FpFmt.ofCode, FpCvt.wf, Instr.wf] using hw⟩

/-! ## Transfers (R113, R114) -/

theorem bCond (c a b h off) (hw : (Instr.bCond c a b h off).wf = true) : (Instr.bCond c a b h off).Decodes :=
  ⟨_, rfl, by simpa [encBr, decodeWord, decBranch, Instr.wf] using hw⟩
theorem call (a h off) : (Instr.call a h off).Decodes := ⟨_, rfl, by simp [encBr, decodeWord, decBranch]⟩
theorem loop (a h off) (hw : (Instr.loop a h off).wf = true) : (Instr.loop a h off).Decodes :=
  ⟨_, rfl, by simpa [encBr, decodeWord, decBranch, Instr.wf] using hw⟩
theorem callr (d a) : (Instr.callr d a).Decodes := ⟨_, rfl, by simp [encClause, decodeWord, decJump, FRR.restZero]⟩
theorem jr (a) : (Instr.jr a).Decodes := ⟨_, rfl, by simp [encClause, decodeWord, decJump, FRR.restZero]⟩
theorem ret (a) : (Instr.ret a).Decodes := ⟨_, rfl, by simp [encClause, decodeWord, decJump, FRR.restZero]⟩

/-! ## Vector words (R285 to R300) -/

theorem vadd (o) (hw : (Instr.vadd o).wf = true) : (Instr.vadd o).Decodes :=
  ⟨_, rfl, by simpa [encVBinSat, decodeWord, dec40, decVBinSat, Instr.wf] using hw⟩
theorem vsub (o) (hw : (Instr.vsub o).wf = true) : (Instr.vsub o).Decodes :=
  ⟨_, rfl, by simpa [encVBinSat, decodeWord, dec40, decVBinSat, Instr.wf] using hw⟩
theorem vmul (o) (hw : (Instr.vmul o).wf = true) : (Instr.vmul o).Decodes :=
  ⟨_, rfl, by simpa [encVBin, decodeWord, dec40, decVBin, Instr.wf] using hw⟩
theorem vmulh (o) (hw : (Instr.vmulh o).wf = true) : (Instr.vmulh o).Decodes :=
  ⟨_, rfl, by simpa [encVBin, decodeWord, dec40, decVBin, Instr.wf] using hw⟩
theorem vmin (o) (hw : (Instr.vmin o).wf = true) : (Instr.vmin o).Decodes :=
  ⟨_, rfl, by simpa [encVBin, decodeWord, dec40, decVBin, Instr.wf] using hw⟩
theorem vmax (o) (hw : (Instr.vmax o).wf = true) : (Instr.vmax o).Decodes :=
  ⟨_, rfl, by simpa [encVBin, decodeWord, dec40, decVBin, Instr.wf] using hw⟩
theorem vabs (o) (hw : (Instr.vabs o).wf = true) : (Instr.vabs o).Decodes :=
  ⟨_, rfl, by simpa [decodeWord, dec40, Instr.wf] using hw⟩
theorem vand (o) (hw : (Instr.vand o).wf = true) : (Instr.vand o).Decodes :=
  ⟨_, rfl, by simpa [encVBin, decodeWord, dec41, decVBin, intOrBytes, Instr.wf] using hw⟩
theorem vor (o) (hw : (Instr.vor o).wf = true) : (Instr.vor o).Decodes :=
  ⟨_, rfl, by simpa [encVBin, decodeWord, dec41, decVBin, intOrBytes, Instr.wf] using hw⟩
theorem vxor (o) (hw : (Instr.vxor o).wf = true) : (Instr.vxor o).Decodes :=
  ⟨_, rfl, by simpa [encVBin, decodeWord, dec41, decVBin, intOrBytes, Instr.wf] using hw⟩
theorem vandn (o) (hw : (Instr.vandn o).wf = true) : (Instr.vandn o).Decodes :=
  ⟨_, rfl, by simpa [encVBin, decodeWord, dec41, decVBin, intOrBytes, Instr.wf] using hw⟩
theorem vshl (o) (hw : (Instr.vshl o).wf = true) : (Instr.vshl o).Decodes :=
  ⟨_, rfl, by simpa [encVBin, decodeWord, dec41, decVBin, intOrBytes, Instr.wf] using hw⟩
theorem vshr (o) (hw : (Instr.vshr o).wf = true) : (Instr.vshr o).Decodes :=
  ⟨_, rfl, by simpa [encVBin, decodeWord, dec41, decVBin, intOrBytes, Instr.wf] using hw⟩
theorem vsar (o) (hw : (Instr.vsar o).wf = true) : (Instr.vsar o).Decodes :=
  ⟨_, rfl, by simpa [encVBin, decodeWord, dec41, decVBin, intOrBytes, Instr.wf] using hw⟩
theorem vfadd (o) (hw : (Instr.vfadd o).wf = true) : (Instr.vfadd o).Decodes :=
  ⟨_, rfl, by simpa [encVFBin, decodeWord, dec44, decVFBin, Instr.wf] using hw⟩
theorem vfsub (o) (hw : (Instr.vfsub o).wf = true) : (Instr.vfsub o).Decodes :=
  ⟨_, rfl, by simpa [encVFBin, decodeWord, dec44, decVFBin, Instr.wf] using hw⟩
theorem vfmul (o) (hw : (Instr.vfmul o).wf = true) : (Instr.vfmul o).Decodes :=
  ⟨_, rfl, by simpa [encVFBin, decodeWord, dec44, decVFBin, Instr.wf] using hw⟩
theorem vffma (o) (hw : (Instr.vffma o).wf = true) : (Instr.vffma o).Decodes :=
  ⟨_, rfl, by simpa [encVFBin, decodeWord, dec44, decVFBin, Instr.wf] using hw⟩
theorem vfmin (o) (hw : (Instr.vfmin o).wf = true) : (Instr.vfmin o).Decodes :=
  ⟨_, rfl, by simpa [encVBin, decodeWord, dec44, decVBin, Instr.wf] using hw⟩
theorem vfmax (o) (hw : (Instr.vfmax o).wf = true) : (Instr.vfmax o).Decodes :=
  ⟨_, rfl, by simpa [encVBin, decodeWord, dec44, decVBin, Instr.wf] using hw⟩
theorem vfabs (o) (hw : (Instr.vfabs o).wf = true) : (Instr.vfabs o).Decodes :=
  ⟨_, rfl, by simpa [encVUn, decodeWord, dec44, decVUn, Instr.wf] using hw⟩
theorem vfneg (o) (hw : (Instr.vfneg o).wf = true) : (Instr.vfneg o).Decodes :=
  ⟨_, rfl, by simpa [encVUn, decodeWord, dec44, decVUn, Instr.wf] using hw⟩
theorem vexp2 (o) (hw : (Instr.vexp2 o).wf = true) : (Instr.vexp2 o).Decodes :=
  ⟨_, rfl, by simpa [encVUn, decodeWord, dec45, decVUn, Instr.wf] using hw⟩
theorem vrcp (o) (hw : (Instr.vrcp o).wf = true) : (Instr.vrcp o).Decodes :=
  ⟨_, rfl, by simpa [encVUn, decodeWord, dec45, decVUn, Instr.wf] using hw⟩
theorem vrsq (o) (hw : (Instr.vrsq o).wf = true) : (Instr.vrsq o).Decodes :=
  ⟨_, rfl, by simpa [encVUn, decodeWord, dec45, decVUn, Instr.wf] using hw⟩
theorem vcmp (o) (hw : (Instr.vcmp o).wf = true) : (Instr.vcmp o).Decodes :=
  ⟨_, rfl, by simpa [encVCmp, decodeWord, dec48, decVCmp, Instr.wf] using hw⟩
theorem vfcmp (o) (hw : (Instr.vfcmp o).wf = true) : (Instr.vfcmp o).Decodes :=
  ⟨_, rfl, by simpa [encVCmp, decodeWord, dec48, decVCmp, Instr.wf] using hw⟩
theorem vsel (o) : (Instr.vsel o).Decodes := ⟨_, rfl, by simp [encVByteSel, decodeWord, dec48, decVByteSel]⟩
theorem vperm (o) : (Instr.vperm o).Decodes := ⟨_, rfl, by simp [encVByteSel, decodeWord, dec4C, decVByteSel]⟩
theorem vlut (o) (hw : (Instr.vlut o).wf = true) : (Instr.vlut o).Decodes :=
  ⟨_, rfl, by simpa [encVBin, decodeWord, dec4C, decVBin, Instr.wf] using hw⟩
theorem vsplat (o) (hw : (Instr.vsplat o).wf = true) : (Instr.vsplat o).Decodes :=
  ⟨_, rfl, by simpa [decodeWord, dec4D, Instr.wf] using hw⟩
theorem vins (d a ty lane) (hw : (Instr.vins d a ty lane).wf = true) : (Instr.vins d a ty lane).Decodes :=
  ⟨_, rfl, by simpa [decodeWord, dec4E, Instr.wf] using hw⟩
theorem vext (d a ty lane) (hw : (Instr.vext d a ty lane).wf = true) : (Instr.vext d a ty lane).Decodes :=
  ⟨_, rfl, by simpa [decodeWord, dec4E, Instr.wf] using hw⟩
theorem vcvt (o) (hw : (Instr.vcvt o).wf = true) : (Instr.vcvt o).Decodes :=
  ⟨_, rfl, by simpa [decodeWord, dec4A, VCvt.wf, Instr.wf] using hw⟩
theorem vdot (o) (hw : (Instr.vdot o).wf = true) : (Instr.vdot o).Decodes :=
  ⟨_, rfl, by simpa [decodeWord, dec4B, VDot.wf, Instr.wf] using hw⟩
theorem vred (o) (hw : (Instr.vred o).wf = true) : (Instr.vred o).Decodes :=
  ⟨_, rfl, by simpa [decodeWord, dec4B, Instr.wf] using hw⟩
theorem vscan (o) (hw : (Instr.vscan o).wf = true) : (Instr.vscan o).Decodes :=
  ⟨_, rfl, by simpa [decodeWord, dec4B, Instr.wf] using hw⟩
theorem plog (op d a b) (hw : (Instr.plog op d a b).wf = true) : (Instr.plog op d a b).Decodes :=
  ⟨_, rfl, by simpa [decodeWord, dec50, Instr.wf] using hw⟩
theorem pcnt (d a ty) : (Instr.pcnt d a ty).Decodes := ⟨_, rfl, by simp [decodeWord, dec50]⟩
theorem rep (nm1 lm1 stride) : (Instr.rep nm1 lm1 stride).Decodes := ⟨_, rfl, by simp [decodeWord, dec58]⟩

/-! ## Memory words (R204 to R214) -/

theorem ld (o) : (Instr.ld o).Decodes := ⟨_, rfl, by simp [decodeWord, decLdSt]⟩
theorem st (o) : (Instr.st o).Decodes := ⟨_, rfl, by simp [decodeWord, decLdSt]⟩
theorem vld (o) : (Instr.vld o).Decodes := ⟨_, rfl, by simp [encVMem, decodeWord, dec62]⟩
theorem vst (o) : (Instr.vst o).Decodes := ⟨_, rfl, by simp [encVMem, decodeWord, dec62]⟩
theorem vgat (o) : (Instr.vgat o).Decodes := ⟨_, rfl, by simp [encVGather, decodeWord, dec62]⟩
theorem vsca (o) : (Instr.vsca o).Decodes := ⟨_, rfl, by simp [encVGather, decodeWord, dec62]⟩
theorem ldk (d win off size sx) : (Instr.ldk d win off size sx).Decodes := ⟨_, rfl, by simp [decodeWord, dec64]⟩
theorem pushm (bank a b) (hw : (Instr.pushm bank a b).wf = true) : (Instr.pushm bank a b).Decodes :=
  ⟨_, rfl, by simpa [decodeWord, dec66, Instr.wf] using hw⟩
theorem popm (bank a b) (hw : (Instr.popm bank a b).wf = true) : (Instr.popm bank a b).Decodes :=
  ⟨_, rfl, by simpa [decodeWord, dec66, Instr.wf] using hw⟩
theorem pref (o) : (Instr.pref o).Decodes := ⟨_, rfl, by simp [decodeWord, dec68]⟩
theorem cflush (a b e) : (Instr.cflush a b e).Decodes := ⟨_, rfl, by simp [decodeWord, dec68]⟩

/-! ## Messages (R333, R361) -/

theorem send (o) (hw : (Instr.send o).wf = true) : (Instr.send o).Decodes := by
  obtain ⟨a, pay, c, len, fmt⟩ := o
  refine ⟨_, rfl, ?_⟩
  cases pay with
  | some v => simpa [decodeWord, dec72, Instr.wf, SendOp.wf] using hw
  | none =>
    obtain ⟨-, hl⟩ : _ ∧ len = 0#7 := by simpa [Instr.wf, SendOp.wf] using hw
    simp [decodeWord, dec72, hl]

theorem recv (d b) : (Instr.recv d b).Decodes := ⟨_, rfl, by simp [decodeWord, dec72]⟩
theorem hret : (Instr.hret).Decodes := ⟨_, rfl, by simp [decodeWord, dec72, FRR.restZero]⟩
theorem sqstat (d) : (Instr.sqstat d).Decodes := ⟨_, rfl, by simp [decodeWord, dec72, FRR.restZero]⟩

theorem dep (a b t) (hw : (Instr.dep a b t).wf = true) : (Instr.dep a b t).Decodes := by
  refine ⟨_, rfl, ?_⟩
  cases t with
  | xreg n =>
    have hn : n ≠ 0#5 := by simpa [Instr.wf, DepTarget.wf] using hw
    simp [decodeWord, dec73, DepTarget.e_eq, hn]
  | vlane n l => simp [decodeWord, dec73, DepTarget.e_eq]
  | vall n => simp [decodeWord, dec73, DepTarget.e_eq]
  | fpmode => simp [decodeWord, dec73, DepTarget.e]

/-! ## Waits, fences, barriers and copies (R166, R216 to R227) -/

theorem wait (ld st cp tl ms) : (Instr.wait ld st cp tl ms).Decodes := ⟨_, rfl, by simp [decodeWord, dec78]⟩
theorem fence (sc) : (Instr.fence sc).Decodes := ⟨_, rfl, by simp [decodeWord, dec79]⟩
theorem bar : (Instr.bar).Decodes := ⟨_, rfl, by simp [decodeWord, dec7A]⟩
theorem bexp (n a) : (Instr.bexp n a).Decodes := ⟨_, rfl, by simp [decodeWord, dec7A]⟩
theorem bwait (n) : (Instr.bwait n).Decodes := ⟨_, rfl, by simp [decodeWord, dec7A]⟩
theorem bpoll (d n) : (Instr.bpoll d n).Decodes := ⟨_, rfl, by simp [decodeWord, dec7A]⟩
theorem cpset (fld a) : (Instr.cpset fld a).Decodes := ⟨_, rfl, by simp [decodeWord, dec80, FTL.noTile]⟩
theorem cpgo (d) : (Instr.cpgo d).Decodes := ⟨_, rfl, by simp [decodeWord, dec80, FTL.noTile]⟩
theorem cpst (d a) : (Instr.cpst d a).Decodes := ⟨_, rfl, by simp [decodeWord, dec80, FTL.noTile]⟩
theorem mcrd (a b n lines) (hw : (Instr.mcrd a b n lines).wf = true) : (Instr.mcrd a b n lines).Decodes :=
  ⟨_, rfl, by simpa [decodeWord, dec81, Instr.wf] using hw⟩

/-! ## Tiles and handles (R229, R248, R254) -/

theorem tdef (n a) : (Instr.tdef n a).Decodes := ⟨_, rfl, by simp [decodeWord, dec84]⟩
theorem tfill (t h b) : (Instr.tfill t h b).Decodes := ⟨_, congrArg some (TileOpd.pack_put1 ..), by simp [decodeWord, dec84]⟩
theorem tdrain (t h b) : (Instr.tdrain t h b).Decodes := ⟨_, congrArg some (TileOpd.pack_put1 ..), by simp [decodeWord, dec84]⟩
theorem tstat (d t) : (Instr.tstat d t).Decodes := ⟨_, congrArg some (TileOpd.pack_put1 ..), by simp [decodeWord, dec84]⟩
theorem tfree (t) : (Instr.tfree t).Decodes := ⟨_, congrArg some (TileOpd.pack_put1 ..), by simp [decodeWord, dec84]⟩
theorem lnext (d l) : (Instr.lnext d l).Decodes := ⟨_, rfl, by simp [decodeWord, dec86]⟩
theorem lget (d l) : (Instr.lget d l).Decodes := ⟨_, rfl, by simp [decodeWord, dec86]⟩
theorem hmake (d a b) : (Instr.hmake d a b).Decodes := ⟨_, rfl, by simp [encHandle, decodeWord, dec90]⟩
theorem hld (d a) : (Instr.hld d a).Decodes := ⟨_, rfl, by simp [encHandle, decodeWord, dec90]⟩
theorem hst (d a) : (Instr.hst d a).Decodes := ⟨_, rfl, by simp [encHandle, decodeWord, dec90]⟩
theorem hq (d a sel) (hw : (Instr.hq d a sel).wf = true) : (Instr.hq d a sel).Decodes :=
  ⟨_, rfl, by simpa [encHandle, decodeWord, dec90, Instr.wf] using hw⟩
theorem relay (a b) : (Instr.relay a b).Decodes := ⟨_, rfl, by simp [encHandle, decodeWord, dec91]⟩
theorem hwait (a) : (Instr.hwait a).Decodes := ⟨_, rfl, by simp [encHandle, decodeWord, dec91]⟩
theorem ldh (d a b) : (Instr.ldh d a b).Decodes := ⟨_, rfl, by simp [encHandle, decodeWord, dec92]⟩
theorem sth (d a b) : (Instr.sth d a b).Decodes := ⟨_, rfl, by simp [encHandle, decodeWord, dec92]⟩
theorem vldh (o) : (Instr.vldh o).Decodes := ⟨_, rfl, by simp [encHandle, decodeWord, dec92]⟩
theorem vsth (o) : (Instr.vsth o).Decodes := ⟨_, rfl, by simp [encHandle, decodeWord, dec92]⟩

/-! ## Matrix words (R263, R311) -/

theorem leash : (Instr.leash).Decodes := ⟨_, rfl, by simp [encHandle, decodeWord, dec98, FRR.restZero]⟩
theorem unleash : (Instr.unleash).Decodes := ⟨_, rfl, by simp [encHandle, decodeWord, dec98, FRR.restZero]⟩

/-- The decoder checks a matrix word before it has read its operands (R311). -/
theorem MatOp.wf_bare {o : MatOp} (hw : o.wf = true) :
    (⟨.tile 0#8, .tile 0#8, o.ty, o.sa, o.sb, o.ts, o.sat, o.o3, 0#5⟩ : MatOp).wf = true ∧ (o.ts = true ∨ o.d = 0#5) := by
  simp_all [MatOp.wf]

/-- O3 is HR and BARN together (R311). -/
theorem MatOp.o3_halves (o : MatOp) : o.o3.extractLsb' 4 4 ++ o.o3.extractLsb' 0 4 = o.o3 := append_eq_iff.2 ⟨rfl, rfl⟩
theorem mmat (o) (hw : (Instr.mmat o).wf = true) : (Instr.mmat o).Decodes :=
  ⟨_, congrArg some (encMat_eq ..), by simp [decodeWord, dec99, MatOp.o3_halves, MatOp.wf_bare hw]⟩
theorem mmam (o) (hw : (Instr.mmam o).wf = true) : (Instr.mmam o).Decodes :=
  ⟨_, congrArg some (encMat_eq ..), by simp [decodeWord, dec99, MatOp.o3_halves, MatOp.wf_bare hw]⟩
theorem mzero : (Instr.mzero).Decodes := ⟨_, rfl, by simp [decodeWord, dec99, FTL.noTile]⟩
theorem mdrain (a) : (Instr.mdrain a).Decodes := ⟨_, rfl, by simp [decodeWord, dec99, FTL.noTile]⟩
theorem mrow (a) : (Instr.mrow a).Decodes := ⟨_, rfl, by simp [decodeWord, dec99, FTL.noTile]⟩
theorem mdrainTile (t) : (Instr.mdrainTile t).Decodes := ⟨_, congrArg some (TileOpd.pack_put1 ..), by simp [decodeWord, dec99]⟩

/-! ## Reactions and the clause array (R127 to R153) -/

theorem done : (Instr.done).Decodes := ⟨_, rfl, by simp [encHandle, decodeWord, decA0, FRR.restZero]⟩
theorem abort : (Instr.abort).Decodes := ⟨_, rfl, by simp [encHandle, decodeWord, decA0, FRR.restZero]⟩
theorem reject : (Instr.reject).Decodes := ⟨_, rfl, by simp [encHandle, decodeWord, decA0, FRR.restZero]⟩
theorem emit (a half) : (Instr.emit a half).Decodes := ⟨_, rfl, by simp [decodeWord, decA1]⟩
theorem kscan (d a sel) (hw : (Instr.kscan d a sel).wf = true) : (Instr.kscan d a sel).Decodes :=
  ⟨_, rfl, by simpa [decodeWord, decA3, Instr.wf] using hw⟩
theorem arbrd (d sel) : (Instr.arbrd d sel).Decodes := ⟨_, rfl, by simp [decodeWord, decA3]⟩
theorem runq (a b) : (Instr.runq a b).Decodes := ⟨_, rfl, by simp [encHandle, decodeWord, decA4]⟩

theorem fork (d a b e) (hw : (Instr.fork d a b e).wf = true) : (Instr.fork d a b e).Decodes := by
  obtain ⟨⟨h0, h31⟩, he⟩ : (d ≠ 0#5 ∧ d ≠ 31#5) ∧ e ≠ 0#20 := by simpa [Instr.wf] using hw
  exact ⟨_, rfl, by simp [encHandle, decodeWord, decA5, h0, h31, he]⟩

theorem join : (Instr.join).Decodes := ⟨_, rfl, by simp [encHandle, decodeWord, decA5, FRR.restZero]⟩
theorem cclaim (d) : (Instr.cclaim d).Decodes := ⟨_, rfl, by simp [encClause, decodeWord, decClause]⟩
theorem cfree : (Instr.cfree).Decodes := ⟨_, rfl, by simp [encClause, decodeWord, decClause]⟩
theorem cload (a b) : (Instr.cload a b).Decodes := ⟨_, rfl, by simp [encClause, decodeWord, decClause]⟩
theorem cdrop (a) : (Instr.cdrop a).Decodes := ⟨_, rfl, by simp [encClause, decodeWord, decClause]⟩
theorem cdec (a) : (Instr.cdec a).Decodes := ⟨_, rfl, by simp [encClause, decodeWord, decClause]⟩
theorem cprop (d) : (Instr.cprop d).Decodes := ⟨_, rfl, by simp [encClause, decodeWord, decClause]⟩
theorem cback (a) : (Instr.cback a).Decodes := ⟨_, rfl, by simp [encClause, decodeWord, decClause]⟩
theorem ctrail (d a) : (Instr.ctrail d a).Decodes := ⟨_, rfl, by simp [encClause, decodeWord, decClause]⟩
theorem crow (d a) : (Instr.crow d a).Decodes := ⟨_, rfl, by simp [encClause, decodeWord, decClause]⟩
theorem cconf (d) : (Instr.cconf d).Decodes := ⟨_, rfl, by simp [encClause, decodeWord, decClause]⟩

/-! ## System words (R120 to R125) -/

theorem getsr (d sr) (hw : (Instr.getsr d sr).wf = true) : (Instr.getsr d sr).Decodes :=
  ⟨_, rfl, by simp [encSy, decodeWord, decSys, show sr.wf = true from hw]⟩

/-- A register that some mode writes, and that has no constructor of its own. -/
theorem putsrCtor_plainWritable {sr : SysReg} (h : sr.plainWritable = true) (a : XReg) : putsrCtor sr a = some (.putsr sr a) := by
  cases sr <;> simp_all [putsrCtor, SysReg.plainWritable]

theorem SysReg.wf_of_plainWritable {sr : SysReg} (h : sr.plainWritable = true) : sr.wf = true := by
  cases sr <;> simp_all [SysReg.plainWritable, SysReg.wf]

theorem putsr (sr a) (hw : (Instr.putsr sr a).wf = true) : (Instr.putsr sr a).Decodes :=
  ⟨_, rfl, decode_encPutsr (SysReg.wf_of_plainWritable hw) (by rw [putsrCtor_plainWritable hw]; rfl)
    (putsrCtor_plainWritable hw a)⟩
theorem trap (code) : (Instr.trap code).Decodes := ⟨_, rfl, by simp [encSy, decodeWord, decSys]⟩
theorem brk (code) : (Instr.brk code).Decodes := ⟨_, rfl, by simp [encSy, decodeWord, decSys]⟩
theorem yield : (Instr.yield).Decodes := ⟨_, rfl, by simp [encSy, decodeWord, decSys]⟩
theorem halt : (Instr.halt).Decodes := ⟨_, rfl, by simp [encSy, decodeWord, decSys]⟩
theorem sret : (Instr.sret).Decodes := ⟨_, rfl, by simp [encSy, decodeWord, decSys]⟩
theorem tlbinv (a all reach) (hw : (Instr.tlbinv a all reach).wf = true) : (Instr.tlbinv a all reach).Decodes :=
  ⟨_, rfl, by simpa [encSy, decodeWord, decSys, Instr.wf] using hw⟩

end Sys2Proof.Instr.Decodes

namespace Sys2Proof

/-- Settles O56: one constructor after another. -/
theorem decodeOfEncode : Obligations.DecodeOfEncode := by
  intro i hw hv
  change i.Decodes
  cases i with
  | add o => exact .add o
  | sub o => exact .sub o
  | addImm o | subImm o | andImm o | orImm o | xorImm o | andnImm o | ornImm o | minImm o | maxImm o | minuImm o | maxuImm o
  | sltImm o | sltuImm o | seqImm o | sneImm o => exact ⟨_, rfl, decode_encImm rfl rfl o⟩
  | and o | or o | xor o | andn o | orn o | shl o | shr o | sar o | rol o | min o | max o | minu o | maxu o
  | slt o | sltu o | seq o | sne o => exact ⟨_, rfl, decode_encScalar rfl o⟩
  | shlImm o | shrImm o | sarImm o | rolImm o => exact ⟨_, rfl, decode_encShift rfl hw⟩
  | sel d a b c => exact .sel d a b c
  | clz o | ctz o | popc o | bswap o => exact ⟨_, rfl, decode_encUnary rfl o⟩
  | mul o | mulh o | mulhu o | div o | divu o | rem o | remu o => exact ⟨_, rfl, decode_encMulDiv rfl o⟩
  | bfx o sx => exact .bfx o sx hw
  | bfi o => exact .bfi o hw
  | li d imm => exact .li d imm
  | lih d imm => exact .lih d imm
  | fadd o => exact .fadd o
  | fsub o => exact .fsub o
  | fmul o => exact .fmul o
  | fdiv o => exact .fdiv o
  | fmin o => exact .fmin o
  | fmax o => exact .fmax o
  | ffma o => exact .ffma o
  | fsqrt d a fmt rnd => exact .fsqrt d a fmt rnd
  | fcmp d a b fmt rel => exact .fcmp d a b fmt rel
  | fclass d a fmt => exact .fclass d a fmt
  | fmv d a fmt => exact .fmv d a fmt
  | fcvt o => exact .fcvt o hw
  | bCond c a b h off => exact .bCond c a b h off hw
  | call a h off => exact .call a h off
  | loop a h off => exact .loop a h off hw
  | callr d a => exact .callr d a
  | jr a => exact .jr a
  | ret a => exact .ret a
  | vadd o => exact .vadd o hw
  | vsub o => exact .vsub o hw
  | vmul o => exact .vmul o hw
  | vmulh o => exact .vmulh o hw
  | vmin o => exact .vmin o hw
  | vmax o => exact .vmax o hw
  | vabs o => exact .vabs o hw
  | vand o => exact .vand o hw
  | vor o => exact .vor o hw
  | vxor o => exact .vxor o hw
  | vandn o => exact .vandn o hw
  | vshl o => exact .vshl o hw
  | vshr o => exact .vshr o hw
  | vsar o => exact .vsar o hw
  | vfadd o => exact .vfadd o hw
  | vfsub o => exact .vfsub o hw
  | vfmul o => exact .vfmul o hw
  | vffma o => exact .vffma o hw
  | vfmin o => exact .vfmin o hw
  | vfmax o => exact .vfmax o hw
  | vfabs o => exact .vfabs o hw
  | vfneg o => exact .vfneg o hw
  | vexp2 o => exact .vexp2 o hw
  | vrcp o => exact .vrcp o hw
  | vrsq o => exact .vrsq o hw
  | vcmp o => exact .vcmp o hw
  | vfcmp o => exact .vfcmp o hw
  | vsel o => exact .vsel o
  | vperm o => exact .vperm o
  | vlut o => exact .vlut o hw
  | vsplat o => exact .vsplat o hw
  | vins d a ty lane => exact .vins d a ty lane hw
  | vext d a ty lane => exact .vext d a ty lane hw
  | vcvt o => exact .vcvt o hw
  | vdot o => exact .vdot o hw
  | vred o => exact .vred o hw
  | vscan o => exact .vscan o hw
  | plog op d a b => exact .plog op d a b hw
  | pcnt d a ty => exact .pcnt d a ty
  | rep nm1 lm1 stride => exact .rep nm1 lm1 stride
  | ld o => exact .ld o
  | st o => exact .st o
  | vld o => exact .vld o
  | vst o => exact .vst o
  | vgat o => exact .vgat o
  | vsca o => exact .vsca o
  | ldk d win off size sx => exact .ldk d win off size sx
  | pushm bank a b => exact .pushm bank a b hw
  | popm bank a b => exact .popm bank a b hw
  | pref o => exact .pref o
  | cflush a b e => exact .cflush a b e
  | amoFadd o => exact ⟨_, rfl, decode_encAmo rfl (.inl (by simpa [Instr.wf] using hw))⟩
  | amoAdd o | amoMin o | amoMax o | amoMinu o | amoMaxu o | amoAnd o | amoOr o | amoXor o | amoSwap o | amoCas o =>
    exact ⟨_, rfl, decode_encAmo rfl (.inr (by decide))⟩
  | send o => exact .send o hw
  | recv d b => exact .recv d b
  | hret => exact .hret
  | sqstat d => exact .sqstat d
  | dep a b t => exact .dep a b t hw
  | wait ld st cp tl ms => exact .wait ld st cp tl ms
  | fence sc => exact .fence sc
  | bar => exact .bar
  | bexp n a => exact .bexp n a
  | bwait n => exact .bwait n
  | bpoll d n => exact .bpoll d n
  | cpset fld a => exact .cpset fld a
  | cpgo d => exact .cpgo d
  | cpst d a => exact .cpst d a
  | mcrd a b n lines => exact .mcrd a b n lines hw
  | tdef n a => exact .tdef n a
  | tfill t h b => exact .tfill t h b
  | tdrain t h b => exact .tdrain t h b
  | tstat d t => exact .tstat d t
  | tfree t => exact .tfree t
  | lnext d l => exact .lnext d l
  | lget d l => exact .lget d l
  | hmake d a b => exact .hmake d a b
  | hld d a => exact .hld d a
  | hst d a => exact .hst d a
  | hq d a sel => exact .hq d a sel hw
  | relay a b => exact .relay a b
  | hwait a => exact .hwait a
  | ldh d a b => exact .ldh d a b
  | sth d a b => exact .sth d a b
  | vldh o => exact .vldh o
  | vsth o => exact .vsth o
  | leash => exact .leash
  | unleash => exact .unleash
  | mmat o => exact .mmat o hw
  | mmam o => exact .mmam o hw
  | mzero => exact .mzero
  | mdrain a => exact .mdrain a
  | mrow a => exact .mrow a
  | mdrainTile t => exact .mdrainTile t
  | done => exact .done
  | abort => exact .abort
  | reject => exact .reject
  | emit a half => exact .emit a half
  | kscan d a sel => exact .kscan d a sel hw
  | arbrd d sel => exact .arbrd d sel
  | runq a b => exact .runq a b
  | fork d a b e => exact .fork d a b e hw
  | join => exact .join
  | cclaim d => exact .cclaim d
  | cfree => exact .cfree
  | cload a b => exact .cload a b
  | cdrop a => exact .cdrop a
  | cdec a => exact .cdec a
  | cprop d => exact .cprop d
  | cback a => exact .cback a
  | ctrail d a => exact .ctrail d a
  | crow d a => exact .crow d a
  | cconf d => exact .cconf d
  | getsr d sr => exact .getsr d sr hw
  | putsr sr a => exact .putsr sr a hw
  | putsrTstat a | putsrFpmode a | putsrFpflags a | lsplitWrite a | vgroupWrite a | bktdataWrite a | fwinWrite n a
  | cluflagsWrite a | packflagsWrite a | ptrootWrite a => exact ⟨_, rfl, decode_encPutsr rfl rfl rfl⟩
  | hashmaskWrite n a => exact ⟨_, rfl, decode_encPutsr hw rfl rfl⟩
  | trap code => exact .trap code
  | brk code => exact .brk code
  | yield => exact .yield
  | halt => exact .halt
  | sret => exact .sret
  | tlbinv a all reach => exact .tlbinv a all reach hw
  | _ => cases hv

end Sys2Proof
end

section
/-! What words trap at decode's last check and in their bodies (R54, R66 to R68, R97, R115, R120): one lemma per shared body,
then the statement of the trapping forms. -/
namespace Sys2Proof.Machine

/-! ## TVAL and the bits of a value -/

/-- Fields that share no bit add up. -/
theorem field_or_field {l m a b : Nat} (ha : a <<< l < 2 ^ m) : field l a ||| field m b = BitVec.ofNat 64 (a <<< l + b <<< m) := by
  rw [field, field, ← BitVec.ofNat_or, Nat.add_comm, Nat.shiftLeft_add_eq_or_of_lt ha, Nat.or_comm]

theorem cwTval_eq (win : BitVec 3) (off : BitVec 17) : cwTval win off = BitVec.ofNat 64 (win.toNat + off.toNat * 2 ^ 20) := by
  have hw : win.toNat <<< 0 < 2 ^ 20 := by have := win.isLt; simp only [Nat.shiftLeft_zero]; omega
  rw [cwTval, field_or_field hw, Nat.shiftLeft_zero, Nat.shiftLeft_eq]

theorem srTval_eq (sr : SysReg) : srTval sr = BitVec.ofNat 64 (0x01F0 + 2 ^ 32 * sr.code.toNat) := by
  have hf : field 0 0xF0 ||| field 8 0x01 = BitVec.ofNat 64 0x01F0 := field_or_field (by decide)
  rw [srTval, hf, field, ← BitVec.ofNat_or, Nat.or_comm, ← Nat.shiftLeft_add_eq_or_of_lt (by decide), Nat.shiftLeft_eq,
    Nat.add_comm, Nat.mul_comm]

theorem bits_low_three (w : Word) : Word.bits w 2 0 = w.toNat % 8 := by simp [Word.bits]

/-- A value of 16 or more has a bit that FPMODE reserves. -/
theorem fpmode_reserved {w : Word} (h : 16 ≤ w.toNat) : w &&& ~~~BitVec.ofNat 64 (srMask .fpmode) ≠ 0 := by
  intro h0
  have hlt : w.toNat < 2 ^ 4 := Nat.lt_pow_two_of_testBit w.toNat fun i hi => by
    have hb : (w &&& ~~~BitVec.ofNat 64 (2 ^ 4 - 1)).getLsbD i = false := by
      rw [show 2 ^ 4 - 1 = srMask .fpmode from rfl, h0]; simp
    rw [BitVec.getLsbD_and, BitVec.getLsbD_not, BitVec.getLsbD_ofNat, Nat.testBit_two_pow_sub_one] at hb
    have : ¬ i < 4 := by omega
    by_cases hi : i < 64
    · rw [BitVec.testBit_toNat]
      simpa [this, hi] using hb
    · exact BitVec.getLsbD_of_ge w i (by omega)
  omega

/-! ## Constant windows (R54, R97) -/

/-- A constant-window operand outside the windows of the run traps. -/
theorem bM_cw_trap {win : BitVec 3} {off : BitVec 17} {s : State}
    (h : ∀ bs, s.cwin win = some bs → bs.length < 4 * off.toNat + 4) :
    bM (.cw win off) s = .error (.trap causeAccess (cwTval win off)) := by
  cases hc : s.cwin win with
  | none => simp [bM, cwinM, hc]
  | some bs => simp [bM, cwinM, hc, h bs hc]

section
variable {s : State} {a : XReg} {b : BSrc} {c : Nat} {v : Word}
  (ha : s.me.awaiting a = false ∧ ∀ p ∈ s.me.pend, p.reg ≠ some a) (hb : bM b s = .error (.trap c v))
include ha hb

theorem scalarBin_trap (d : XReg) (w32 : Bool) (f : (w : Nat) → BitVec w → BitVec w → BitVec w) :
    scalarBin ⟨d, a, b, w32⟩ f s = s.takeTrap c v :=
  word_trap (by simp [xM_ok ha, hb])

theorem arith_trap (d : XReg) (w32 sat : Bool) (f : (w : Nat) → BitVec w → BitVec w → BitVec w) (g : Int → Int → Int) :
    arith ⟨d, a, b, w32, sat⟩ f g s = s.takeTrap c v :=
  word_trap (by simp [xM_ok ha, hb])

theorem division_trap (d : XReg) (w32 : Bool) (f : (w : Nat) → BitVec w → BitVec w → BitVec w) :
    division ⟨d, a, b, w32⟩ f s = s.takeTrap c v :=
  word_trap (by simp [xM_ok ha, hb])

theorem fpBin_trap (d : XReg) (fmt : FpFmt) (rnd : RndSel) (f : FFormat → Rm → Bool → FVal → FVal → FRes) :
    fpBin ⟨d, a, b, fmt, rnd⟩ f s = s.takeTrap c v :=
  word_trap (by simp [xM_ok ha, hb])

theorem fpMinMax_trap (d : XReg) (fmt : FpFmt) (isMax : Bool) : fpMinMax ⟨d, a, b, fmt⟩ isMax s = s.takeTrap c v :=
  word_trap (by simp [xM_ok ha, hb])

end

/-! ## Transfers (R68, R113, R114) -/

theorem exec_bCond (c : Cond) (a b : XReg) (h : BrHint) (off : BitVec 32) (s : State) :
    exec (.bCond c a b h off) s = execBCond c a b h off s := rfl
theorem exec_call (a : XReg) (h : BrHint) (off : BitVec 32) (s : State) : exec (.call a h off) s = execCall a h off s := rfl
theorem exec_loop (a : XReg) (h : BrHint) (off : BitVec 32) (s : State) : exec (.loop a h off) s = execLoop a h off s := rfl
theorem exec_callr (d a : XReg) (s : State) : exec (.callr d a) s = execCallr d a s := rfl
theorem exec_jr (a : XReg) (s : State) : exec (.jr a) s = execJr a s := rfl
theorem exec_ret (a : XReg) (s : State) : exec (.ret a) s = execRet a s := rfl

theorem exec_bCond_trap {c : Cond} {a b : XReg} {h : BrHint} {off : BitVec 32} {s : State}
    (ht : 2 ^ 49 ≤ (brTarget s.me.pc off).toNat) (hr : s.readable [a, b])
    (hc : condHolds c (s.me.getX a) (s.me.getX b) = true) :
    exec (.bCond c a b h off) s = s.takeTrap causeAccess (brTarget s.me.pc off) := by
  rw [exec_bCond]
  refine outcome_trap ?_
  simp [xM_ok (State.readable_head hr), xM_ok (State.readable_head (State.readable_tail hr)), hc, gotoM_trap ht]

theorem exec_call_trap {a : XReg} {h : BrHint} {off : BitVec 32} {s : State} (ht : 2 ^ 49 ≤ (brTarget s.me.pc off).toNat) :
    exec (.call a h off) s = s.takeTrap causeAccess (brTarget s.me.pc off) := by
  rw [exec_call]
  refine outcome_trap ?_
  simp [gotoM_trap ht]

theorem exec_loop_trap {a : XReg} {h : BrHint} {off : BitVec 32} {s : State} (ht : 2 ^ 49 ≤ (brTarget s.me.pc off).toNat)
    (hr : s.readable [a]) (hx : s.me.getX a ≠ 1) :
    exec (.loop a h off) s = s.takeTrap causeAccess (brTarget s.me.pc off) := by
  have hne : (s.me.getX a - 1 != 0) = true := by
    simpa only [bne_iff_ne, ne_eq, sub_eq_zero] using hx
  rw [exec_loop]
  refine outcome_trap ?_
  simp only [M.bind_run, readS_run, xM_ok (State.readable_head hr), setXM_run, hne, if_true, gotoM_trap ht]

theorem jumpM_misalign {target : Word} (h : target.toNat % 8 ≠ 0) (s : State) :
    jumpM target s = .error (.trap causeMisalign target) := by
  have hd : (Word.bits target 2 0 != 0) = true := by simpa [bits_low_three] using h
  simp only [jumpM, M.bind_run, hd, trapIf_true]

theorem jumpM_access {target : Word} (h : target.toNat % 8 = 0) (hs : 2 ^ 49 ≤ target.toNat) (s : State) :
    jumpM target s = .error (.trap causeAccess target) := by
  have hd : (Word.bits target 2 0 != 0) = false := by simpa [bits_low_three] using h
  simp only [jumpM, M.bind_run, hd, trapIf_false, gotoM_trap hs]

/-- A transfer through a register whose target traps writes no register: the trap is taken from the state before the word. -/
theorem exec_jump_trap {d a : XReg} {s : State} {c : Nat} {v : Word} (hr : s.readable [a])
    (hj : ∀ t, jumpM (s.me.getX a) t = .error (.trap c v)) :
    ∀ i ∈ [Instr.callr d a, .jr a, .ret a], exec i s = s.takeTrap c v := by
  have hx := xM_ok (State.readable_head hr)
  simp only [List.forall_mem_cons, exec_callr, exec_jr, exec_ret]
  refine ⟨outcome_trap ?_, outcome_trap ?_, outcome_trap ?_, by simp⟩ <;> simp [hx, hj]

/-! ## System registers (R66, R67, R115, R120) -/

theorem accessM_ok {sr : SysReg} {write : Bool} {s : State} (h : s.mayAccess sr write = true) :
    accessM sr write s = .ok ((), s) := by
  simp [accessM, h]

theorem accessM_trap {sr : SysReg} {write : Bool} {s : State} (h : s.mayAccess sr write = false) :
    accessM sr write s = .error (.trap causePriv (opFnTval 0xF0 write.toNat)) := by
  simp [accessM, h]

theorem putM_priv {sr : SysReg} {a : XReg} {s : State} (h : s.mayAccess sr true = false) :
    putM sr a s = .error (.trap causePriv 0x01F0) := by
  simp [putM, accessM_trap h]
  rfl

theorem putM_ill {sr : SysReg} {a : XReg} {s : State} (h : s.mayAccess sr true = true) (hr : s.readable [a])
    (hv : srAdmits sr (s.me.getX a) = false) : putM sr a s = .error (.trap causeIllOp (srTval sr)) := by
  simp [putM, accessM_ok h, xM_ok (State.readable_head hr), hv]

/-- A body that traps in its first part traps. -/
theorem word_bind_trap {α : Type} {m : M α} {f : α → M Unit} {s : State} {c : Nat} {v : Word} (h : m s = .error (.trap c v)) :
    word (m >>= f) s = s.takeTrap c v :=
  word_trap (by rw [M.bind_run, h])

/-- In user mode no register but those of the codes U, RO and UR is reached, and the last not for a write (R115). -/
theorem mayAccess_user {sr : SysReg} {write : Bool} {s : State} (hm : s.me.mode = false) (hr : srAccess sr ∉ [.ro, .user])
    (hw : srAccess sr = .ur → write = true) : s.mayAccess sr write = false := by
  cases h : srAccess sr with
  | ro => simp [h] at hr
  | user => simp [h] at hr
  | ur => simp [State.mayAccess, h, hm, hw h]
  | sup => simp [State.mayAccess, h, hm]
  | fw => simp [State.mayAccess, h, hm]
  | root => simp [State.mayAccess, h, hm]
  | wo => simp [State.mayAccess, h, hm]

theorem srAdmits_reserved {sr : SysReg} {w : Word} (h : w &&& ~~~BitVec.ofNat 64 (srMask sr) ≠ 0) : srAdmits sr w = false := by
  unfold srAdmits
  rw [Bool.and_eq_false_iff]
  exact .inl (beq_eq_false_iff_ne.mpr h)

theorem exec_getsr (d : XReg) (sr : SysReg) (s : State) : exec (.getsr d sr) s = execGetsr d sr s := rfl
theorem exec_putsr (sr : SysReg) (a : XReg) (s : State) : exec (.putsr sr a) s = execPutsr sr a s := rfl
theorem exec_tlbinv (a : XReg) (all : Bool) (reach : BitVec 2) (s : State) :
    exec (.tlbinv a all reach) s = execTlbinv a all reach s := rfl
theorem exec_putsrFpmode (a : XReg) (s : State) : exec (.putsrFpmode a) s = execPutsrFpmode a s := rfl

/-- A read of a register that the mode keeps from the thread set. -/
theorem exec_getsr_priv {d : XReg} {sr : SysReg} {s : State} (h : s.mayAccess sr false = false) :
    exec (.getsr d sr) s = s.takeTrap causePriv 0x00F0 :=
  (exec_getsr d sr s).trans (word_bind_trap (accessM_trap h))

theorem exec_putsr_ill {sr : SysReg} {a : XReg} {s : State} (h : s.mayAccess sr true = true) (hr : s.readable [a])
    (hv : srAdmits sr (s.me.getX a) = false) : exec (.putsr sr a) s = s.takeTrap causeIllOp (srTval sr) :=
  (exec_putsr sr a s).trans (word_bind_trap (putM_ill h hr hv))

theorem exec_putsrFpmode_ill {a : XReg} {s : State} (hr : s.readable [a]) (hv : srAdmits .fpmode (s.me.getX a) = false) :
    exec (.putsrFpmode a) s = s.takeTrap causeIllOp (srTval .fpmode) :=
  (exec_putsrFpmode a s).trans (word_bind_trap (putM_ill rfl hr hv))

theorem exec_tlbinv_priv {a : XReg} {all : Bool} {reach : BitVec 2} {s : State} (hm : s.me.mode = false) :
    exec (.tlbinv a all reach) s = s.takeTrap causePriv 0x00F3 :=
  (exec_tlbinv a all reach s).trans (word_bind_trap (by simp [supervisorM, hm, opFnTval]))

section
variable {s : State} (hm : s.me.mode = false)
include hm

/-- A word that opens as a write of a register does, in user mode. -/
theorem word_putM_user (sr : SysReg) (a : XReg) (f : Word → M Unit) (hs : srAccess sr ∉ [.ro, .user] := by simp [srAccess]) :
    word (putM sr a >>= f) s = s.takeTrap causePriv 0x01F0 :=
  word_bind_trap (putM_priv (mayAccess_user hm hs fun _ => rfl))

theorem exec_putsr_user (sr : SysReg) (a : XReg) (hs : srAccess sr ∉ [.ro, .user] := by simp [srAccess]) :
    exec (.putsr sr a) s = s.takeTrap causePriv 0x01F0 :=
  word_putM_user hm sr a _ hs

theorem exec_getsr_user {sr : SysReg} (hs : srAccess sr ∉ [.ro, .user, .ur]) (d : XReg) :
    exec (.getsr d sr) s = s.takeTrap causePriv 0x00F0 := by
  simp only [List.mem_cons, not_or] at hs
  obtain ⟨hro, huser, hur, -⟩ := hs
  exact exec_getsr_priv (mayAccess_user hm (by simp [hro, huser]) fun h => absurd h hur)

end

/-! ## The statement -/

/-- Settles O5: each form's body traps before its first write, so the trap is taken from the state before the word. -/
theorem trappingForms : Obligations.TrappingForms := by
  unfold Obligations.TrappingForms
  refine ⟨?windows, ⟨?branches, ?jumps⟩, ⟨?values, ?fpmode⟩, ?modes⟩
  case windows =>
    intro win off s hw d a w32 sat hr
    have ha := State.readable_head hr
    have hb := bM_cw_trap hw
    simp only [List.forall_mem_cons, ← cwTval_eq]
    exact ⟨arith_trap ha hb .., arith_trap ha hb .., scalarBin_trap ha hb .., division_trap ha hb .., scalarBin_trap ha hb ..,
      fpBin_trap ha hb .., fpMinMax_trap ha hb .., by simp⟩
  case branches =>
    intro a b h off s target ht
    refine ⟨fun hr he => exec_bCond_trap ht hr ?_, exec_call_trap ht, fun _ hr hx => exec_loop_trap ht hr hx⟩
    simp [condHolds, he]
  case jumps =>
    intro d a s hr target
    exact ⟨fun h => exec_jump_trap hr (jumpM_misalign h), fun h hs => exec_jump_trap hr (jumpM_access h hs)⟩
  case values =>
    intro sr a s _ hm hr hv
    rw [← srTval_eq]
    exact exec_putsr_ill hm hr (srAdmits_reserved hv)
  case fpmode =>
    intro a s hr hv
    have hbad : srAdmits .fpmode (s.me.getX a) = false := by
      rcases hv with h | h
      · exact srAdmits_reserved (fpmode_reserved h)
      · simp [srAdmits, bits_low_three]; omega
    exact (exec_putsrFpmode_ill hr hbad).trans (by rw [srTval_eq]; rfl)
  case modes =>
    intro s hm
    refine ⟨fun d => ?reads, fun a n => ?writes, fun a all reach => exec_tlbinv_priv hm⟩
    case reads =>
      intro sr hs
      refine exec_getsr_user hm ?_ d
      revert sr
      decide
    case writes =>
      simp only [List.forall_mem_cons]
      exact ⟨exec_putsr_user hm .tcause a, exec_putsr_user hm .tval a, word_putM_user hm .tstat a _,
        word_putM_user hm .cluflags a _, word_putM_user hm .packflags a _, word_putM_user hm .lsplit a _,
        word_putM_user hm .vgroup a _, word_putM_user hm (.hashmask n) a _, word_putM_user hm .bktdata a _,
        word_bind_trap (accessM_trap (mayAccess_user hm (sr := .fwin n) (by simp [srAccess]) fun _ => rfl)),
        word_putM_user hm .ptroot a _, exec_putsr_user hm .bktidx a, exec_putsr_user hm .fwsel a, exec_putsr_user hm .afr a,
        exec_putsr_user hm (.accept 0) a, exec_putsr_user hm .fqhead a, exec_putsr_user hm .fresp a,
        exec_putsr_user hm .fwcommit a, exec_putsr_user hm .diectl a, by simp⟩

end Sys2Proof.Machine
end

section
/-! Taking a trap (R66, R116, R121, R367 to R370): to the run's vector, on a firmware core, and as the end of the run. -/
namespace Sys2Proof.Machine

theorem exec_trap (code : BitVec 16) (s : State) : exec (.trap code) s = s.takeTrap causeTrap (code.setWidth 64) := rfl
theorem exec_brk (code : BitVec 16) (s : State) : exec (.brk code) s = s.takeTrap causeBrk (code.setWidth 64) := rfl

/-! ## Where a trap goes -/

theorem State.takeTrap_vectored {s : State} {x : Run} {cause : Nat} (hv : s.Vectored x) (hc : cause ≠ causePoison) (tval : Word) :
    s.takeTrap cause tval =
      .next (s.updMe (·.enterVector cause tval (BitVec.ofNat 64 (Rec.trapvec x.rec_)) (x.vf == 0))) := by
  simp [State.takeTrap, hv.onCluster, hc, hv.inRun, hv.untrapped, hv.vector]

theorem State.takeTrap_firmware {s : State} (hf : isFirmware s.cur = true) (cause : Nat) (tval : Word) :
    s.takeTrap cause tval = .next (s.firmwareTrap cause tval) := by
  simp [State.takeTrap, hf]

/-- A trap inside a trap, or of a run without a vector, ends the run (R367). -/
theorem State.takeTrap_unvectored {s : State} {x : Run} {cause : Nat} (hx : s.InRun x) (hc : cause ≠ causePoison)
    (h : s.me.intrap = true ∨ Rec.trapvec x.rec_ = 0) (tval : Word) :
    s.takeTrap cause tval = .next (s.trapEndsRun cause tval) := by
  simp [State.takeTrap, hx.onCluster, hc, hx.inRun, h]

/-- The POISON trap of GANG code ends the run (R389). -/
theorem State.takeTrap_poison_gang {s : State} (hc : isFirmware s.cur = false) (hg : s.me.ctx = .gang) (tval : Word) :
    s.takeTrap causePoison tval = .next (s.trapEndsRun causePoison tval) := by
  simp [State.takeTrap, hc, State.poisonTrap, hg]

/-! ## What it leaves -/

/-- The vector of a firmware core is a multiple of 8 (entry 18). -/
theorem toNat_multiple_of_eight (w : Word) : (w &&& ~~~7#64).toNat % 8 = 0 := by
  have h : (w &&& ~~~7#64).setWidth 3 = 0#3 := by
    rw [BitVec.setWidth_and]
    exact BitVec.and_zero
  exact (BitVec.toNat_setWidth 3 _).symm.trans (congrArg BitVec.toNat h)

theorem State.firmwareTrap_result (s : State) (cause : Nat) (tval : Word) :
    let t := s.firmwareTrap cause tval
    t.me.pc.toNat % 8 = 0 ∧ t.me = s.me.enterVector cause tval t.me.pc true ∧
      (∀ u, TsId.key u ≠ TsId.key s.cur → t.thread u = s.thread u) ∧
      t = { s with threads := t.threads, freeIdx := s.freeIdx + 1 } ∧ ∀ a, t.byteAt a = s.byteAt a := by
  have hme : (s.firmwareTrap cause tval).me = s.me.enterVector cause tval (Config.freeWord s.freeIdx &&& ~~~7#64) true :=
    State.me_updMe ..
  refine ⟨?_, ?_, fun u hu => State.thread_updMe_ne _ u _ hu, rfl, State.byteAt_congr rfl rfl rfl⟩
  · rw [hme]
    exact toNat_multiple_of_eight _
  · rw [hme]
    rfl

/-- A thread set whose trap ended its run. -/
def Thread.endedByTrap (t : Thread) : Thread := { t with status := .stopped, rep := none, wait := none, refused := none }

section
variable {s : State} {x : Run} {r : Nat} (hr : s.me.run = some r) (hx : s.run? r = some x) (ha : s.me.act = none)
  (hs : x.stop = none)
include hr hx ha hs

theorem State.trapEndsRun_eq (cause : Nat) (tval : Word) : s.trapEndsRun cause tval =
    ((s.updMe Thread.endedByTrap).setRun r { x with stop := some ⟨6, cause, tval⟩ }).postOnce (.runStopTrapped r) := by
  have hx' (f : Thread → Thread) : (s.updMe f).run? r = some x := hx
  simp only [State.trapEndsRun, ha, hr, State.endRun, hx', hs]
  rfl

/-- The end of a run by a trap of a thread set outside an activation (R370): the set stops, and the cause is kept. -/
theorem State.trapEndsRun_result (cause : Nat) (tval : Word) :
    let t := s.trapEndsRun cause tval
    t.me.status = .stopped ∧ (∃ y, t.run? r = some y ∧ y.stop = some ⟨6, cause, tval⟩) ∧ Instr.runStopTrapped r ∈ t.pending ∧
      ∀ a, t.byteAt a = s.byteAt a := by
  simp only [State.trapEndsRun_eq hr hx ha hs]
  refine ⟨?_, ⟨{ x with stop := some ⟨6, cause, tval⟩ }, by simp [State.run?_postOnce], rfl⟩,
    State.mem_pending_postOnce .., State.byteAt_congr (by simp) (by simp) (by simp)⟩
  rw [State.me, State.postOnce_cur, State.thread_congr (State.postOnce_threads ..)]
  exact congrArg Thread.status (State.me_updMe s Thread.endedByTrap)

end

/-! ## The statement -/

/-- Settles O12, by where `takeTrap` sends a trap and what each of its ends leaves. -/
theorem trapWordsAndRunEnd : Obligations.TrapWordsAndRunEnd := by
  unfold Obligations.TrapWordsAndRunEnd
  refine ⟨?vector, ?firmware, ?entry, ?ends⟩
  case vector =>
    simp only [List.forall_mem_cons, exec_trap, exec_brk]
    refine ⟨fun code s x hv => ⟨_, State.takeTrap_vectored hv (by decide) _, ?_⟩,
      fun code s x hv => ⟨_, State.takeTrap_vectored hv (by decide) _, ?_⟩, by simp⟩
    · simp [Thread.enterVector, causeTrap]
    · simp [Thread.enterVector, causeBrk]
  case firmware =>
    simp only [List.forall_mem_cons]
    exact ⟨fun code s _ => exec_trap code s, fun code s _ => exec_brk code s, by simp⟩
  case entry =>
    intro s cause tval hf
    exact ⟨_, State.takeTrap_firmware hf cause tval, State.firmwareTrap_result s cause tval⟩
  case ends =>
    intro s x r cause tval hx hr ha hs h
    have hrun : s.run? r = some x := by simpa [State.myRun?, hr] using hx.inRun
    refine ⟨s.trapEndsRun cause tval, ?_, State.trapEndsRun_result hr hrun ha hs cause tval⟩
    rcases h with ⟨hc, h⟩ | ⟨rfl, hg⟩
    · exact State.takeTrap_unvectored hx hc h tval
    · exact State.takeTrap_poison_gang hx.onCluster hg tval

end Sys2Proof.Machine
end

section
/-! What a step does (R51, R66, R68, R301, R331, R364, R386): the word that a thread set meets next, its issue, and the turns of
the schedule. -/
namespace Sys2Proof.Machine

/-! ## The next word -/

theorem firmwareSpot_sram {s : State} {va : Word} {size : Nat} (h : s.InSram va size) :
    firmwareSpot va size s = .ok (.sram va.toNat, s) := by
  have hspace : decide (2 ^ 52 ≤ va.toNat) = false := by have := h.inside; simp; omega
  have haligned : (va.toNat % size != 0) = false := by simp [h.aligned]
  simp only [firmwareSpot, M.bind_run, readS_run, hspace, haligned, trapIf_false, h.inside, if_true, M.pure_run]

/-- A device address lies in no control region (R398). -/
theorem regionOf_of_dram {s : State} {pa : Nat} (h : s.place pa = .ok .dram) : regionOf pa = none := by
  have hpa : pa < 2 ^ 39 := by
    by_contra hge
    simp only [State.place, if_neg hge] at h
    split at h
    · split at h <;> cases h
    · split at h
      · split at h <;> cases h
      · cases h
  have htop : pa / 2 ^ 48 ≠ 2 := by omega
  exact if_neg fun hr => htop hr.1

theorem firmwareSpot_dram {s : State} {va : Word} {size : Nat} (h : s.InDram va size) :
    firmwareSpot va size s = .ok (.phys .dram va.toNat, s) := by
  obtain ⟨hlo, hhi⟩ := h.space
  have hspace : decide (2 ^ 52 ≤ va.toNat) = false := by simp; omega
  have haligned : (va.toNat % size != 0) = false := by simp [h.aligned]
  have hup : (Place.dram == .dram && s.homeDown s.cur.core va.toNat) = false := by simp [h.up]
  simp only [firmwareSpot, M.bind_run, readS_run, id_eq, hspace, haligned, trapIf_false, if_neg (Nat.not_lt.mpr hlo),
    regionOf_of_dram h.place, h.place, hup, M.pure_run]

/-- A firmware core fetches from its SRAM (entry 12). -/
theorem fetchM_sram {s : State} {va : Word} (h : s.InSram va 8) :
    fetchM va s = .ok (BitVec.ofNat 64 (ByteMap.readNat (s.fn s.cur.core).sram va.toNat 8), s) := by
  have hfw : s.inFirmware = true := h.onFirmware
  simp only [fetchM, M.bind_run, readS_run, id_eq, hfw, if_true, firmwareSpot_sram h, M.pure_run]

/-- A firmware core fetches from device memory, where the line's way and its poison let it (entry 12). -/
theorem fetchM_dram {s t : State} {va : Word} (h : s.InDram va 8) (hp : s.poisonAt va.toNat 8 = false)
    (hl : s.lineHeld (va.toNat / 256) = false) (ht : s.pullPlace .dram s.cur.core va.toNat 8 false = some t) :
    fetchM va s = .ok (BitVec.ofNat 64 (leNat (t.bytesAt va.toNat 8)), t) := by
  have hfw : s.inFirmware = true := h.onFirmware
  have hvf : s.vfOf s.cur = s.cur.core := if_pos h.onFirmware
  simp only [fetchM, fetchHomeM, M.bind_run, readS_run, id_eq, hfw, if_true, firmwareSpot_dram h, hp, hl, Bool.and_false,
    trapIf_false, holdIf_false, hvf, ht, updS_run, M.pure_run, State.placeBytes]

theorem nextWordM_fetched {s : State} (he : s.me.ecc = false) (hr : s.me.rep = none) : nextWordM s = fetchM s.me.pc s := by
  simp [nextWordM, he, hr]

theorem nextWordM_copy {s : State} {r : RepState} (he : s.me.ecc = false) (hr : s.me.rep = some r) :
    nextWordM s = .ok (r.copy, s) := by
  simp [nextWordM, he, hr]

theorem State.runWord_ok {s t : State} {w : Word} (h : nextWordM s = .ok (w, t)) : s.runWord = runDecoded (decodeWord w) t := by
  simp [State.runWord, h]

/-- An error of the registers is met by the next word (R386). -/
theorem State.runWord_ecc {s : State} (h : s.me.ecc = true) :
    s.runWord = ({ s with freeIdx := s.freeIdx + 1 }.updMe (fun th => { th with ecc := false })).takeTrap causePoison
      (Config.freeWord s.freeIdx) := by
  simp [State.runWord, nextWordM, h, eccM, M.outcome]

/-! ## The issue of a word -/

@[simp] theorem State.issued_threads (s : State) (t : TsId) : (s.issued t).threads = s.threads := by
  unfold State.issued
  split
  · simp
  · split <;> simp

theorem State.handlerSpent_issued (s : State) (t : TsId) :
    State.handlerSpent { s.issued t with cur := t } t = s.handlerSpent t := by
  have hth : State.thread { s.issued t with cur := t } t = s.thread t := State.thread_congr (State.issued_threads s t) t
  rw [State.handlerSpent, hth, State.handlerSpent]

theorem State.issueOne_runs {s : State} {t : TsId} (h : s.handlerSpent t = false) :
    s.issueOne t = mapNext (fun v => v.restop t) (State.runWord { s.issued t with cur := t }) := by
  simp only [State.issueOne, State.handlerSpent_issued, h]

theorem State.issueOne_spent {s : State} {t : TsId} {key : ActKey} (h : s.handlerSpent t = true)
    (hk : (s.thread t).act = some key) :
    s.issueOne t = .next (State.rollHandler { s.issued t with cur := t } t key causeHandlerLimit 0) := by
  have hact : State.me { s.issued t with cur := t } = s.thread t := State.thread_congr (State.issued_threads s t) t
  simp only [State.issueOne, State.handlerSpent_issued, h, hact, hk]

theorem State.status_rollHandler (s : State) (t : TsId) (k : ActKey) (c : Nat) (v : Word) :
    ((s.rollHandler t k c v).thread t).status = .held := by
  have hth : (s.rollHandler t k c v).threads =
      (s.updThread t fun th => { th with status := .held, rep := none, wait := none }).threads := by
    simp [State.rollHandler]
  rw [State.thread_congr hth, State.thread_updThread_same]

/-- A handler that is rolled back does not pass its slot on. -/
theorem State.stalled_of_held {s u : State} {t : TsId} (h : (u.thread t).status = .held) : s.stalled u t = false := by
  simp [State.stalled, h]

theorem State.restop_of_not_draining {s : State} {t : TsId}
    (h : ∀ x, (s.thread t).run.bind s.run? = some x → x.phase ≠ .draining) : s.restop t = s := by
  have hno : ((s.thread t).run.bind s.run?).any (fun x => x.phase == .draining) = false := by
    cases hx : (s.thread t).run.bind s.run? with
    | none => rfl
    | some x => simpa using h x hx
  simp [State.restop, hno]

/-! ## The offer of the slot -/

/-- A thread set that takes the slot has its word's outcome. -/
theorem State.offer_takes {s u : State} {t : TsId} {ts : List TsId} (h : s.issueOne t = .next u)
    (hs : isFirmware t = true ∨ s.stalled u t = false) : s.offer (t :: ts) = .next u := by
  rw [State.offer_cons t ts h, if_neg]
  rcases hs with hs | hs <;> simp [hs]

theorem State.offer_passes {s u : State} {t : TsId} {ts : List TsId} (h : s.issueOne t = .next u)
    (hf : isFirmware t = false) (hs : s.stalled u t = true) : s.offer (t :: ts) = (s.passed u t).offer ts := by
  rw [State.offer_cons t ts h, if_pos ⟨hf, hs⟩]

/-! ## The turns of the schedule -/

theorem State.issueAt_eq (s : State) (c k : Nat) :
    s.issueAt c k = State.offer { s with lastIssued := 17 * c + k } (State.candidates { s with lastIssued := 17 * c + k } c k) := by
  have hkey : TsId.key ⟨c, k, 0⟩ / 8 = 17 * c + k := by simp only [TsId.key]; omega
  rw [State.issueAt, hkey]
  rfl

theorem step_issue {s : State} {t : TsId} {rest : List Turn} (h : s.agenda = .issue t :: rest) :
    step s = State.issueAt { s with fclk := s.fclk + 1, agenda := rest } t.cluster t.core := step_agenda h

theorem step_turn_issue {s : State} {c k : Nat} (h : s.agenda = []) (ht : s.turn % 4 = 1 ∨ s.turn % 4 = 3) (hk : k < 17)
    (hn : State.nextCore { s with fclk := s.fclk + 1, turn := s.turn + 1 } = some (17 * c + k)) :
    step s = State.issueAt { s with fclk := s.fclk + 1, turn := s.turn + 1 } c k := by
  have hdiv : (17 * c + k) / 17 = c := by omega
  have hmod : (17 * c + k) % 17 = k := by omega
  have hissue : State.issueNext { s with fclk := s.fclk + 1, turn := s.turn + 1 } =
      State.issueAt { s with fclk := s.fclk + 1, turn := s.turn + 1 } c k := by
    rw [State.issueNext, hn]
    simp only [hdiv, hmod]
  rw [step_turn h, ← hissue, State.runTurn]
  rcases ht with ht | ht <;> rw [ht] <;> rfl

theorem step_turn_pending {s : State} (h : s.agenda = []) (ht : s.turn % 4 = 0) :
    step s = State.runPending { s with fclk := s.fclk + 1, turn := s.turn + 1 } := by
  rw [step_turn h, State.runTurn, ht]
  rfl

theorem step_turn_due {s : State} (h : s.agenda = []) (ht : s.turn % 4 = 2) :
    step s = .next { s with fclk := s.fclk + 1, turn := s.turn + 1 }.postDue := by
  rw [step_turn h, State.runTurn, ht]
  rfl

end Sys2Proof.Machine
end

section
/-! The statement of the step (O58), from the rules of the slot's offer. -/
namespace Sys2Proof.Machine

/-- A slot that is taken goes to the first of the core's thread sets (R331). -/
theorem step_offers {s u : State} {c k : Nat}
    (h : (∃ t rest, s.agenda = .issue t :: rest ∧ t.cluster = c ∧ t.core = k ∧
        u = { s with fclk := s.fclk + 1, agenda := rest }) ∨
      (s.agenda = [] ∧ (s.turn % 4 = 1 ∨ s.turn % 4 = 3) ∧ k < 17 ∧ u = { s with fclk := s.fclk + 1, turn := s.turn + 1 } ∧
        u.nextCore = some (17 * c + k))) :
    step s = State.offer { u with lastIssued := 17 * c + k } (State.candidates { u with lastIssued := 17 * c + k } c k) := by
  rw [← State.issueAt_eq]
  rcases h with ⟨t, rest, hagenda, rfl, rfl, rfl⟩ | ⟨hagenda, hturn, hk, rfl, hnext⟩
  · exact step_issue hagenda
  · exact step_turn_issue hagenda hturn hk hnext

/-- The word that a thread set meets next: fetched on a cluster, from a firmware core's SRAM or device memory, or the copy that
its repetition executes (R51, R68, R301). -/
theorem nextWordM_meets {s t : State} {w : Word} (he : s.me.ecc = false)
    (h : (s.me.rep = none ∧ s.FetchesAt s.me.pc w t) ∨
      (s.me.rep = none ∧ t = s ∧ s.InSram s.me.pc 8 ∧
        w = BitVec.ofNat 64 (ByteMap.readNat (s.fn s.cur.core).sram s.me.pc.toNat 8)) ∨
      (s.me.rep = none ∧ s.InDram s.me.pc 8 ∧ s.poisonAt s.me.pc.toNat 8 = false ∧
        s.lineHeld (s.me.pc.toNat / 256) = false ∧ s.pullPlace .dram s.cur.core s.me.pc.toNat 8 false = some t ∧
        w = BitVec.ofNat 64 (leNat (t.bytesAt s.me.pc.toNat 8))) ∨
      (t = s ∧ ∃ r, s.me.rep = some r ∧ w = stepWord (r.body.getD r.word 0) (r.pass * r.stride))) :
    nextWordM s = .ok (w, t) := by
  rcases h with ⟨hr, hf⟩ | ⟨hr, rfl, hf, rfl⟩ | ⟨hr, hf, hp, hl, ht, rfl⟩ | ⟨rfl, r, hr, rfl⟩
  · rw [nextWordM_fetched he hr, fetchM_ok hf]
  · rw [nextWordM_fetched he hr, fetchM_sram hf]
  · rw [nextWordM_fetched he hr, fetchM_dram hf hp hl ht]
  · exact nextWordM_copy he hr

theorem runDecoded_eq {d : Except DecodeTrap Instr} {s : State} {o : Host.Outcome State Fault Refusal}
    (hok : ∀ i, d = .ok i → o = exec i s) (herr : ∀ e, d = .error e → o = s.takeTrap (DecodeTrap.cause e) e.tval) :
    runDecoded d s = o := by
  cases d with
  | ok i => exact (hok i rfl).symm
  | error e => exact (herr e rfl).symm

/-- Settles O58, turn by turn; an issue is the offer of the slot to the first candidate. -/
theorem stepRunsDecoded : Obligations.StepRunsDecoded := by
  unfold Obligations.StepRunsDecoded
  refine ⟨?issue, fun s t h => State.restop_of_not_draining h, ?work, fun s h ht => step_turn_due h ht,
    fun s o rest h => step_agenda h, fun s i x rest h => step_agenda h, fun s n rest h => step_agenda h⟩
  case work =>
    intro s h ht
    rw [step_turn_pending h ht]
    exact ⟨fun i rest hp => by simp only [State.runPending, hp], fun hp => by simp only [State.runPending, hp]⟩
  case issue =>
    intro s u c k hslot v
    have hstep : step s = v.offer (v.candidates c k) := step_offers hslot
    refine ⟨fun hnone => by rw [hstep, hnone, State.offer_nil], ?_⟩
    intro t ts hcands s1
    rw [hstep, hcands]
    refine ⟨?word, ?ecc, ?spent⟩
    case word =>
      intro hns hecc w s2 hword o hok herr n hn
      have hissue : v.issueOne t = .next n := by
        rw [State.issueOne_runs hns, State.runWord_ok (nextWordM_meets hecc hword), runDecoded_eq hok herr, hn]
      exact ⟨State.offer_takes hissue, State.offer_passes hissue⟩
    case ecc =>
      intro hns hecc s2 n hn
      have hissue : v.issueOne t = .next n := by
        rw [State.issueOne_runs hns, State.runWord_ecc hecc]
        exact hn
      exact State.offer_takes hissue
    case spent =>
      intro key hspent hkey
      exact State.offer_takes (State.issueOne_spent hspent hkey) (.inr (State.stalled_of_held (State.status_rollHandler ..)))

end Sys2Proof.Machine
end

section
/-! The arithmetic of the scalar integer operations (R98 to R104), as the manual gives it, at every width. -/
namespace Sys2Proof.Machine

/-! ## Operations at every width (R98, R102) -/

theorem rolW_eq (w : Nat) (x y : BitVec w) : rolW w x y = (x <<< (y.toNat % w)) ||| (x >>> (w - y.toNat % w)) := by
  rw [rolW, BitVec.rotateLeft_def, Nat.mod_mod]

theorem minW_eq (w : Nat) (x y : BitVec w) : minW w x y = BitVec.ofInt w (min x.toInt y.toInt) := by
  simp only [minW, min_def_lt, apply_ite (BitVec.ofInt w), BitVec.ofInt_toInt, BitVec.slt_iff_toInt_lt]

theorem maxW_eq (w : Nat) (x y : BitVec w) : maxW w x y = BitVec.ofInt w (max x.toInt y.toInt) := by
  simp only [maxW, max_def_lt, apply_ite (BitVec.ofInt w), BitVec.ofInt_toInt, BitVec.slt_iff_toInt_lt]

theorem minuW_eq (w : Nat) (x y : BitVec w) : minuW w x y = BitVec.ofNat w (min x.toNat y.toNat) := by
  simp only [minuW, min_def_lt, apply_ite (BitVec.ofNat w), BitVec.ofNat_toNat, BitVec.setWidth_eq, BitVec.ult_iff_toNat_lt]

theorem maxuW_eq (w : Nat) (x y : BitVec w) : maxuW w x y = BitVec.ofNat w (max x.toNat y.toNat) := by
  simp only [maxuW, max_def_lt, apply_ite (BitVec.ofNat w), BitVec.ofNat_toNat, BitVec.setWidth_eq, BitVec.ult_iff_toNat_lt]

theorem sltW_eq (w : Nat) (x y : BitVec w) : sltW w x y = if x.toInt < y.toInt then 1 else 0 := by
  simp only [sltW, oneIf, BitVec.slt_iff_toInt_lt]

theorem sltuW_eq (w : Nat) (x y : BitVec w) : sltuW w x y = if x.toNat < y.toNat then 1 else 0 := by
  simp only [sltuW, oneIf, BitVec.ult_iff_toNat_lt]

theorem seqW_eq (w : Nat) (x y : BitVec w) : seqW w x y = if x = y then 1 else 0 := by
  simp only [seqW, oneIf, beq_iff_eq]

theorem sneW_eq (w : Nat) (x y : BitVec w) : sneW w x y = if x ≠ y then 1 else 0 := by
  simp only [sneW, oneIf, bne_iff_ne]

theorem mulW_eq (w : Nat) (x y : BitVec w) : mulW w x y = BitVec.ofInt w (x.toInt * y.toInt) := by
  rw [mulW, BitVec.ofInt_mul, BitVec.ofInt_toInt, BitVec.ofInt_toInt]

theorem mulhW_eq (w : Nat) (x y : BitVec w) : mulhW w x y = BitVec.ofInt w (x.toInt * y.toInt / 2 ^ w) := by
  rw [mulhW, Nat.cast_pow, Nat.cast_ofNat]

/-! ## Exact results (R98, R100, R102) -/

theorem addW_eq (w : Nat) (x y : BitVec w) : addW w x y = BitVec.ofInt w (x.toInt + y.toInt) := by
  rw [addW, BitVec.ofInt_add, BitVec.ofInt_toInt, BitVec.ofInt_toInt]

theorem subW_eq (w : Nat) (x y : BitVec w) : subW w x y = BitVec.ofInt w (x.toInt - y.toInt) := by
  rw [subW]
  exact BitVec.eq_of_toInt_eq (by rw [BitVec.toInt_sub, BitVec.toInt_ofInt])

/-- The range of w bits, and an integer clamped to it (R100). -/
theorem satW_eq (w : Nat) (i : Int) :
    let clamped : Int := max (-(2 ^ (w - 1))) (min (2 ^ (w - 1) - 1) i)
    satW w i = (BitVec.ofInt w clamped, decide (clamped ≠ i)) := by
  simp only [satW, Nat.cast_pow, Nat.cast_ofNat]
  have hpos : (0 : Int) < 2 ^ (w - 1) := by positivity
  generalize (2 : Int) ^ (w - 1) = m at *
  split
  · rw [max_eq_left (by omega)]
    simp
    omega
  · split
    · rw [min_eq_left (by omega), max_eq_right (by omega)]
      simp
      omega
    · rw [min_eq_right (by omega), max_eq_right (by omega)]
      simp

theorem divW_eq (w : Nat) (x y : BitVec w) :
    divW w x y = if y = 0 then BitVec.allOnes w else BitVec.ofInt w (x.toInt.tdiv y.toInt) := by
  have h : x.sdiv y = BitVec.ofInt w (x.toInt.tdiv y.toInt) :=
    BitVec.eq_of_toInt_eq (by rw [BitVec.toInt_sdiv, BitVec.toInt_ofInt])
  rw [divW, h]

theorem divuW_eq (w : Nat) (x y : BitVec w) :
    divuW w x y = if y = 0 then BitVec.allOnes w else BitVec.ofNat w (x.toNat / y.toNat) := by
  rw [divuW, ← BitVec.toNat_udiv, BitVec.ofNat_toNat, BitVec.setWidth_eq]

theorem remW_eq (w : Nat) (x y : BitVec w) : remW w x y = if y = 0 then x else BitVec.ofInt w (x.toInt.tmod y.toInt) := by
  rw [remW, ← BitVec.toInt_srem, BitVec.ofInt_toInt]

theorem remuW_eq (w : Nat) (x y : BitVec w) : remuW w x y = if y = 0 then x else BitVec.ofNat w (x.toNat % y.toNat) := by
  rw [remuW, ← BitVec.toNat_umod, BitVec.ofNat_toNat, BitVec.setWidth_eq]

/-! ## The bit counts (R101) -/

/-- Bit w is the highest of the w + 1 bits. -/
theorem clzNat_succ (w v : Nat) : clzNat (w + 1) v = if v.testBit w then 0 else clzNat w v + 1 := by
  have hsplit : v % 2 ^ (w + 1) = v % 2 ^ w + 2 ^ w * (v / 2 ^ w % 2) := Nat.mod_pow_succ
  have hlt : v % 2 ^ w < 2 ^ w := Nat.mod_lt _ (Nat.two_pow_pos w)
  unfold clzNat
  by_cases hb : v / 2 ^ w % 2 = 1
  · have hne : v % 2 ^ (w + 1) ≠ 0 := by rw [hsplit, hb]; omega
    have hlog : Nat.log2 (v % 2 ^ (w + 1)) = w := by
      rw [Nat.log2_eq_iff hne, hsplit, hb, pow_succ]; omega
    simp [Nat.testBit_eq_decide_div_mod_eq, hb, hne, hlog]
  · have hsame : v % 2 ^ (w + 1) = v % 2 ^ w := by rw [hsplit, Nat.mod_two_ne_one.mp hb]; rfl
    rw [hsame]
    by_cases hz : v % 2 ^ w = 0
    · simp [Nat.testBit_eq_decide_div_mod_eq, hb, hz]
    · have hlog : Nat.log2 (v % 2 ^ w) < w := (Nat.log2_lt hz).mpr hlt
      simp [Nat.testBit_eq_decide_div_mod_eq, hb, hz]
      omega

theorem length_takeWhile_reverse_range (w v : Nat) :
    ((List.range w).reverse.takeWhile (fun i => !v.testBit i)).length = clzNat w v := by
  induction w with
  | zero => simp [clzNat]
  | succ w ih =>
    rw [List.range_succ, List.reverse_append, List.reverse_singleton, List.singleton_append, List.takeWhile_cons,
      clzNat_succ, ← ih]
    cases v.testBit w <;> simp

theorem length_takeWhile_range (w v : Nat) :
    ((List.range w).takeWhile (fun i => !v.testBit i)).length = ctzNat w v := by
  induction w generalizing v with
  | zero => rfl
  | succ w ih =>
    have hrec : ((List.range w).takeWhile (fun i => !v.testBit (i + 1))).length = ctzNat w (v / 2) := by
      rw [← ih]; simp only [Nat.testBit_succ]
    rw [List.range_succ_eq_map, List.takeWhile_cons, ctzNat, List.takeWhile_map, ← hrec, Nat.testBit_zero]
    by_cases h : v % 2 = 1 
    · simp [h]
    · simp [h, Function.comp_def]; omega

theorem length_filter_range (w v : Nat) :
    ((List.range w).filter (fun i => v.testBit i)).length = popNat w v := by
  induction w generalizing v with
  | zero => rfl
  | succ w ih =>
    have hrec : ((List.range w).filter (fun i => v.testBit (i + 1))).length = popNat w (v / 2) := by
      rw [← ih]; simp only [Nat.testBit_succ]
    rw [List.range_succ_eq_map, List.filter_cons, popNat, List.filter_map, ← hrec, Nat.testBit_zero]
    by_cases h : v % 2 = 1
    · simp [h, Function.comp_def]; omega
    · simp [h, Function.comp_def]; omega


/-! ## The bytes of a number (R8, R101) -/

theorem testBit_leNat (bs : List Byte) (j : Nat) : (leNat bs).testBit j = (bs.getD (j / 8) 0).getLsbD (j % 8) := by
  induction bs generalizing j with
  | nil => simp [leNat]
  | cons b bs ih =>
    rw [leNat, show 256 = 2 ^ 8 from rfl, Nat.add_comm, Nat.testBit_two_pow_mul_add _ b.isLt]
    by_cases h : j < 8
    · simp [h, Nat.div_eq_of_lt h, Nat.mod_eq_of_lt h, BitVec.getLsbD]
    · obtain ⟨k, rfl⟩ : ∃ k, j = k + 8 := ⟨j - 8, by omega⟩
      simp [ih]

theorem getD_leBytes (n v k : Nat) (h : k < n) : (leBytes n v).getD k 0 = BitVec.ofNat 8 (v >>> (8 * k)) := by
  induction n generalizing v k with
  | zero => omega
  | succ n ih =>
    cases k with
    | zero => simp [leBytes]
    | succ k =>
      rw [leBytes, List.getD_cons_succ, ih _ _ (by omega), show 256 = 2 ^ 8 from rfl, ← Nat.shiftRight_eq_div_pow,
        ← Nat.shiftRight_add]
      congr 2; omega



theorem getLsbD_foldl_or {w : Nat} (f : Nat → BitVec w) (l : List Nat) (z : BitVec w) (j : Nat) :
    (l.foldl (fun r i => r ||| f i) z).getLsbD j = (z.getLsbD j || l.any (fun i => (f i).getLsbD j)) := by
  induction l generalizing z with
  | nil => simp
  | cons i l ih => simp [ih, Bool.or_assoc]

theorem getLsbD_bswapW {w n j : Nat} (hw : w = 8 * n) (x : BitVec w) (hj : j < w) :
    (bswapW w x).getLsbD j = x.getLsbD (8 * (n - 1 - j / 8) + j % 8) := by
  have hn : w / 8 = n := by omega
  have hk : j / 8 < n := by omega
  rw [bswapW, BitVec.getLsbD_ofNat, testBit_leNat, hn, List.getD_eq_getElem _ _ (by simpa using hk), List.getElem_reverse,
    ← List.getD_eq_getElem _ 0, length_leBytes, getD_leBytes _ _ _ (by omega), BitVec.getLsbD_ofNat, Nat.testBit_shiftRight]
  simp [hj, Nat.mod_lt, BitVec.getLsbD]

theorem getLsbD_ff (w k : Nat) : (0xFF : BitVec w).getLsbD k = decide (k < w ∧ k < 8) := by
  rw [show (0xFF : BitVec w) = BitVec.ofNat w (2 ^ 8 - 1) from rfl, BitVec.getLsbD_ofNat, Nat.testBit_two_pow_sub_one]; simp

/-- Byte i, put where the reversed order wants it, reaches only the bits of that place. -/
theorem getLsbD_movedByte {w n i j : Nat} (hw : w = 8 * n) (x : BitVec w) (hi : i < n) (hj : j < w) :
    (((x >>> (8 * i)) &&& 0xFF) <<< (w - 8 - 8 * i)).getLsbD j =
      (decide (i = n - 1 - j / 8) && x.getLsbD (8 * (n - 1 - j / 8) + j % 8)) := by
  rw [BitVec.getLsbD_shiftLeft, BitVec.getLsbD_and, BitVec.getLsbD_ushiftRight, getLsbD_ff]
  by_cases h : i = n - 1 - j / 8
  · have hk : 8 * i + (j - (w - 8 - 8 * i)) = 8 * (n - 1 - j / 8) + j % 8 := by omega
    have hlow : ¬ j < w - 8 - 8 * i ∧ j - (w - 8 - 8 * i) < w ∧ j - (w - 8 - 8 * i) < 8 := by omega
    rw [decide_eq_true h, hk]
    simp [hlow, hj]
  · have hout : j < w - 8 - 8 * i ∨ ¬ j - (w - 8 - 8 * i) < 8 := by omega
    rcases hout with hout | hout <;> simp [hout, h]

theorem bswapW_eq {w n : Nat} (hw : w = 8 * n) (x : BitVec w) :
    bswapW w x = (List.range (w / 8)).foldl (fun r i => r ||| ((x >>> (8 * i)) &&& 0xFF) <<< (w - 8 - 8 * i)) 0 := by
  refine BitVec.eq_of_getLsbD_eq fun j hj => ?_
  have hn : w / 8 = n := by omega
  have hk : n - 1 - j / 8 < n := by omega
  rw [getLsbD_bswapW hw x hj, getLsbD_foldl_or, hn, Bool.eq_iff_iff, Bool.or_eq_true, List.any_eq_true]
  constructor
  · intro hb
    exact .inr ⟨_, List.mem_range.mpr hk, by rw [getLsbD_movedByte hw x hk hj]; simp [hb]⟩
  · rintro (h0 | ⟨i, hi, hb⟩)
    · simp at h0
    · rw [getLsbD_movedByte hw x (List.mem_range.mp hi) hj, Bool.and_eq_true] at hb
      exact hb.2


section
variable (w : Nat) (x : BitVec w)

theorem clzW_eq : clzW w x = BitVec.ofNat w (((List.range w).reverse.takeWhile (fun i => !x.getLsbD i)).length) :=
  congrArg (BitVec.ofNat w) (length_takeWhile_reverse_range w x.toNat).symm

theorem ctzW_eq : ctzW w x = BitVec.ofNat w (((List.range w).takeWhile (fun i => !x.getLsbD i)).length) :=
  congrArg (BitVec.ofNat w) (length_takeWhile_range w x.toNat).symm

theorem popcW_eq : popcW w x = BitVec.ofNat w (((List.range w).filter (fun i => x.getLsbD i)).length) :=
  congrArg (BitVec.ofNat w) (length_filter_range w x.toNat).symm

end

/-! ## Bit fields and halves (R103, R104) -/

theorem sxWord_eq (n v : Nat) : sxWord n v = (BitVec.ofNat n v).signExtend 64 := by
  rw [sxWord, BitVec.signExtend, sxInt, BitVec.toInt, BitVec.toNat_ofNat]

/-- A field's bits, moved to the top of the word. -/
theorem getLsbD_fieldTop (a : Word) {len lsb i : Nat} (h : lsb + len ≤ 64) (hl : 0 < len) (hi : i < len) :
    (a <<< (64 - len - lsb)).getLsbD (64 - len + i) = a.getLsbD (lsb + i) := by
  rw [BitVec.getLsbD_shiftLeft]
  have hk : 64 - len + i - (64 - len - lsb) = lsb + i := by omega
  have hlow : 64 - len + i < 64 ∧ ¬ 64 - len + i < 64 - len - lsb := by omega
  simp [hk, hlow]

theorem sxWord_field (a : Word) {len lsb : Nat} (h : lsb + len ≤ 64) (hl : 0 < len) :
    sxWord len (Word.bits a (lsb + len - 1) lsb) = (a <<< (64 - len - lsb)).sshiftRight (64 - len) := by
  have hx : BitVec.ofNat len (Word.bits a (lsb + len - 1) lsb) = a.extractLsb' lsb len := by
    rw [Word.bits, show lsb + len - 1 + 1 - lsb = len by omega]
    exact BitVec.eq_of_toNat_eq (by simp)
  have hmsb : (a.extractLsb' lsb len).msb = (a <<< (64 - len - lsb)).msb := by
    rw [BitVec.msb_eq_getLsbD_last, BitVec.msb_eq_getLsbD_last, show 64 - 1 = 64 - len + (len - 1) by omega,
      getLsbD_fieldTop a h hl (by omega), BitVec.getLsbD_extractLsb']
    simp [hl]
  rw [sxWord_eq, hx]
  refine BitVec.eq_of_getLsbD_eq fun i hi => ?_
  rw [BitVec.getLsbD_signExtend, BitVec.getLsbD_sshiftRight, hmsb]
  by_cases hlow : i < len
  · rw [if_pos hlow, if_pos (by omega), getLsbD_fieldTop a h hl hlow, BitVec.getLsbD_extractLsb']
    simp [hi, hlow]
  · rw [if_neg hlow, if_neg (by omega)]
    simp [hi]

theorem ofNat_field (a : Word) {len lsb : Nat} (h : lsb + len ≤ 64) (hl : 0 < len) :
    BitVec.ofNat 64 (Word.bits a (lsb + len - 1) lsb) = (a <<< (64 - len - lsb)) >>> (64 - len) := by
  refine BitVec.eq_of_getLsbD_eq fun i hi => ?_
  rw [Word.bits, show lsb + len - 1 + 1 - lsb = len by omega, BitVec.getLsbD_ofNat, BitVec.getLsbD_ushiftRight,
    Nat.testBit_mod_two_pow, Nat.testBit_shiftRight]
  by_cases hlow : i < len
  · rw [getLsbD_fieldTop a h hl hlow]
    simp [hi, hlow, BitVec.getLsbD]
  · rw [BitVec.getLsbD_of_ge _ _ (by omega)]
    simp [hlow]

/-- The bits of a field are those from its first to its last. -/
theorem getLsbD_fieldMask (len lsb i : Nat) :
    (BitVec.ofNat 64 ((2 ^ len - 1) * 2 ^ lsb)).getLsbD i = decide (i < 64 ∧ lsb ≤ i ∧ i < lsb + len) := by
  rw [BitVec.getLsbD_ofNat, ← Nat.shiftLeft_eq, Nat.testBit_shiftLeft, Nat.testBit_two_pow_sub_one, Bool.eq_iff_iff]
  simp
  omega

/-- A field of one word put into another. -/
theorem getLsbD_insertField (a d : Word) {len lsb i : Nat} (hi : i < 64) :
    ((d &&& ~~~BitVec.ofNat 64 ((2 ^ len - 1) * 2 ^ lsb)) |||
      ((a <<< lsb) &&& BitVec.ofNat 64 ((2 ^ len - 1) * 2 ^ lsb))).getLsbD i =
      if lsb ≤ i ∧ i < lsb + len then a.getLsbD (i - lsb) else d.getLsbD i := by
  rw [BitVec.getLsbD_or, BitVec.getLsbD_and, BitVec.getLsbD_and, BitVec.getLsbD_not, getLsbD_fieldMask,
    BitVec.getLsbD_shiftLeft]
  by_cases h : lsb ≤ i ∧ i < lsb + len
  · simp [h, hi]
  · simp [h, hi]

/-- The high half replaced. -/
theorem append_low_half (imm : BitVec 32) (v : Word) :
    (imm ++ v.setWidth 32 : BitVec (32 + 32)) = ((imm.setWidth 64) <<< 32) ||| (v &&& 0xFFFFFFFF) := by
  have hmask : (0xFFFFFFFF : Word) = BitVec.ofNat 64 (2 ^ 32 - 1) := rfl
  refine BitVec.eq_of_getLsbD_eq fun i hi => ?_
  rw [BitVec.getLsbD_append, BitVec.getLsbD_or, BitVec.getLsbD_and, BitVec.getLsbD_shiftLeft, hmask, BitVec.getLsbD_ofNat,
    Nat.testBit_two_pow_sub_one]
  by_cases h : i < 32
  · simp [h, hi]
  · have hhigh : i - 32 < 64 := by omega
    simp [h, hi, hhigh]

end Sys2Proof.Machine
end

section
/-! The scalar integer instructions (R97 to R104): one rule for each form, and the statements of what they write. -/
namespace Sys2Proof.Machine

/-! ## Forms of two operands (R97 to R99) -/

theorem State.wroteX_eq (s : State) (d : XReg) (v : Word) : s.wroteX d v = (s.updMe (·.setX d v)).advance := rfl

theorem State.wroteXF_eq (s : State) (d : XReg) (v : Word) (f : Flags) :
    s.wroteXF d v f = ((s.updMe (·.setX d v)).flags f).advance := rfl

/-- The rule of a form on a register or a constant-window word, at the width of `.w`. -/
def WritesBinary (p : (ScalarRR → Instr) × ((w : Nat) → BitVec w → BitVec w → BitVec w)) : Prop :=
  ∀ (o : ScalarRR) (s : State) (y : Word), s.readable (o.a :: regsOf o.b) → s.bValue o.b = some y →
    exec (p.1 o) s = .next (s.wroteX o.d
      (if o.w32 then (p.2 32 ((s.me.getX o.a).setWidth 32) (y.setWidth 32)).signExtend 64 else p.2 64 (s.me.getX o.a) y))

/-- The rule of a form on an immediate. -/
def WritesImmediate (p : (ScalarRI → Instr) × ((w : Nat) → BitVec w → BitVec w → BitVec w)) : Prop :=
  ∀ (o : ScalarRI) (s : State), s.readable [o.a] →
    exec (p.1 o) s = .next (s.wroteX o.d
      (if o.w32 then (p.2 32 ((s.me.getX o.a).setWidth 32) o.imm).signExtend 64
       else p.2 64 (s.me.getX o.a) (o.imm.signExtend 64)))

/-- The rule of an immediate shift, whose count is below the width. -/
def WritesShift (p : (ShiftRI → Instr) × ((w : Nat) → BitVec w → Nat → BitVec w)) : Prop :=
  ∀ (o : ShiftRI) (s : State), (p.1 o).wf = true → s.readable [o.a] →
    exec (p.1 o) s = .next (s.wroteX o.d
      (if o.w32 then (p.2 32 ((s.me.getX o.a).setWidth 32) o.n.toNat).signExtend 64
       else p.2 64 (s.me.getX o.a) o.n.toNat))

section
variable (f : (w : Nat) → BitVec w → BitVec w → BitVec w)

theorem writesBinary {c : ScalarRR → Instr} {g : (w : Nat) → BitVec w → BitVec w → BitVec w}
    (hc : ∀ o s, exec (c o) s = scalarBin o f s) (hfg : ∀ w x y, f w x y = g w x y) : WritesBinary (c, g) := by
  intro o s y hr hy
  rw [hc, scalarBin_ok (State.readable_head hr) (bM_ok (State.readable_tail hr) hy), State.wroteX_eq, wide, hfg, hfg]

theorem writesImmediate {c : ScalarRI → Instr} {g : (w : Nat) → BitVec w → BitVec w → BitVec w}
    (hc : ∀ o s, exec (c o) s = scalarImm o f s) (hfg : ∀ w x y, f w x y = g w x y) : WritesImmediate (c, g) := by
  intro o s hr
  have himm : (o.imm.signExtend 64).setWidth 32 = o.imm := by
    refine BitVec.eq_of_getLsbD_eq fun i hi => ?_
    rw [BitVec.getLsbD_setWidth, BitVec.getLsbD_signExtend]
    simp [hi]
    omega
  rw [hc, scalarImm_ok (State.readable_head hr), State.wroteX_eq, wide, himm, hfg, hfg]

theorem writesShift {c : ShiftRI → Instr} {g : (w : Nat) → BitVec w → Nat → BitVec w}
    (hc : ∀ o s, exec (c o) s = shiftImm o f s) (hw : ∀ o, (c o).wf = o.wf) (hfg : ∀ w x y, f w x y = g w x (y.toNat % w)) :
    WritesShift (c, g) := by
  intro o s h hr
  have hn := o.n.isLt
  have h64 : (o.n.setWidth 64).toNat % 64 = o.n.toNat := by simp; omega
  rw [hc, shiftImm_ok (State.readable_head hr), State.wroteX_eq, wide, hfg, hfg, h64]
  by_cases hw32 : o.w32 = true
  · have hlt : o.n.toNat < 32 := by
      rw [hw, ShiftRI.wf, hw32] at h
      simpa [BitVec.lt_def] using h
    have h32 : ((o.n.setWidth 64).setWidth 32).toNat % 32 = o.n.toNat := by simp; omega
    rw [if_pos hw32, if_pos hw32, h32]
  · rw [if_neg hw32, if_neg hw32]

end

/-- Settles O1: the rule of the form, with each operation's arithmetic. -/
theorem scalarBinaryResult : Obligations.ScalarBinaryResult := by
  change ∀ p ∈ _, WritesBinary p
  simp only [List.forall_mem_cons]
  exact ⟨writesBinary andW (fun _ _ => rfl) fun _ _ _ => rfl, writesBinary orW (fun _ _ => rfl) fun _ _ _ => rfl,
    writesBinary xorW (fun _ _ => rfl) fun _ _ _ => rfl, writesBinary andnW (fun _ _ => rfl) fun _ _ _ => rfl,
    writesBinary ornW (fun _ _ => rfl) fun _ _ _ => rfl, writesBinary shlW (fun _ _ => rfl) fun _ _ _ => rfl,
    writesBinary shrW (fun _ _ => rfl) fun _ _ _ => rfl, writesBinary sarW (fun _ _ => rfl) fun _ _ _ => rfl,
    writesBinary rolW (fun _ _ => rfl) rolW_eq, writesBinary minW (fun _ _ => rfl) minW_eq,
    writesBinary maxW (fun _ _ => rfl) maxW_eq, writesBinary minuW (fun _ _ => rfl) minuW_eq,
    writesBinary maxuW (fun _ _ => rfl) maxuW_eq, writesBinary sltW (fun _ _ => rfl) sltW_eq,
    writesBinary sltuW (fun _ _ => rfl) sltuW_eq, writesBinary seqW (fun _ _ => rfl) seqW_eq,
    writesBinary sneW (fun _ _ => rfl) sneW_eq, writesBinary mulW (fun _ _ => rfl) mulW_eq,
    writesBinary mulhW (fun _ _ => rfl) mulhW_eq, writesBinary mulhuW (fun _ _ => rfl) fun _ _ _ => rfl, by simp⟩

/-- Settles O2: as O1, with the immediate as the second operand. -/
theorem scalarImmediateResult : Obligations.ScalarImmediateResult := by
  change (∀ p ∈ _, WritesImmediate p) ∧ ∀ p ∈ _, WritesShift p
  simp only [List.forall_mem_cons]
  refine ⟨⟨writesImmediate addW (fun _ _ => rfl) fun _ _ _ => rfl, writesImmediate subW (fun _ _ => rfl) fun _ _ _ => rfl,
    writesImmediate andW (fun _ _ => rfl) fun _ _ _ => rfl, writesImmediate orW (fun _ _ => rfl) fun _ _ _ => rfl,
    writesImmediate xorW (fun _ _ => rfl) fun _ _ _ => rfl, writesImmediate andnW (fun _ _ => rfl) fun _ _ _ => rfl,
    writesImmediate ornW (fun _ _ => rfl) fun _ _ _ => rfl, writesImmediate minW (fun _ _ => rfl) minW_eq,
    writesImmediate maxW (fun _ _ => rfl) maxW_eq, writesImmediate minuW (fun _ _ => rfl) minuW_eq,
    writesImmediate maxuW (fun _ _ => rfl) maxuW_eq, writesImmediate sltW (fun _ _ => rfl) sltW_eq,
    writesImmediate sltuW (fun _ _ => rfl) sltuW_eq, writesImmediate seqW (fun _ _ => rfl) seqW_eq,
    writesImmediate sneW (fun _ _ => rfl) sneW_eq, by simp⟩, ?_⟩
  exact ⟨writesShift shlW (fun _ _ => rfl) (fun _ => rfl) fun _ _ _ => rfl,
    writesShift shrW (fun _ _ => rfl) (fun _ => rfl) fun _ _ _ => rfl,
    writesShift sarW (fun _ _ => rfl) (fun _ => rfl) fun _ _ _ => rfl,
    writesShift rolW (fun _ _ => rfl) (fun _ => rfl) rolW_eq, by simp⟩

/-! ## add, sub and the divisions (R100, R102) -/

/-- The rule of add and sub, by their exact results; with `.sat` the result is clamped. -/
def WritesArith (p : (ArithRR → Instr) × (Int → Int → Int)) : Prop :=
  ∀ (o : ArithRR) (s : State) (y : Word), s.readable (o.a :: regsOf o.b) → s.bValue o.b = some y →
    let w : Nat := if o.w32 then 32 else 64
    let exact : Int := p.2 ((s.me.getX o.a).setWidth w).toInt (y.setWidth w).toInt
    let lo : Int := -(2 ^ (w - 1))
    let hi : Int := 2 ^ (w - 1) - 1
    let clamped : Int := Max.max lo (Min.min hi exact)
    exec (p.1 o) s = .next (if o.sat
      then s.wroteXF o.d ((BitVec.ofInt w clamped).signExtend 64) (if clamped = exact then 0 else Flags.sat)
      else s.wroteX o.d ((BitVec.ofInt w exact).signExtend 64))

/-- The rule of the divisions. -/
def WritesDivision (p : (ScalarRR → Instr) × ((w : Nat) → BitVec w → BitVec w → BitVec w)) : Prop :=
  ∀ (o : ScalarRR) (s : State) (y : Word), s.readable (o.a :: regsOf o.b) → s.bValue o.b = some y →
    let w : Nat := if o.w32 then 32 else 64
    exec (p.1 o) s = .next (s.wroteXF o.d ((p.2 w ((s.me.getX o.a).setWidth w) (y.setWidth w)).signExtend 64)
      (if y.setWidth w = 0 then Flags.dz else 0))

/-- The width of a form: 32 bits with `.w` (R97). -/
abbrev formWidth (w32 : Bool) : Nat := if w32 then 32 else 64

theorem wide_eq (w32 : Bool) (f : (w : Nat) → BitVec w → BitVec w → BitVec w) (a b : Word) :
    wide w32 f a b = (f (formWidth w32) (a.setWidth (formWidth w32)) (b.setWidth (formWidth w32))).signExtend 64 := by
  cases w32 <;> simp [wide, formWidth]

theorem divisor_eq_zero (w32 : Bool) (b : Word) :
    (if w32 then b.setWidth 32 == 0#32 else b == 0) = decide (b.setWidth (formWidth w32) = 0) := by
  rw [Bool.eq_iff_iff]
  cases w32 <;> simp [formWidth]

theorem Flags.when_ne (i j : Int) (f : Flags) : Flags.when (decide (i ≠ j)) f = if i = j then 0 else f := by
  simp [Flags.when]

section
variable {o : ArithRR} {f : (w : Nat) → BitVec w → BitVec w → BitVec w} {g : Int → Int → Int} {s : State} {b : Word}
  (h : s.me.awaiting o.a = false ∧ ∀ p ∈ s.me.pend, p.reg ≠ some o.a) (hb : bM o.b s = .ok (b, s))
include h hb

theorem arith_wraps (hs : o.sat = false) : arith o f g s = .next (s.wroteX o.d (wide o.w32 f (s.me.getX o.a) b)) :=
  word_ok (by simp [xM_ok h, hb, hs])

theorem arith_saturates (hs : o.sat = true) :
    let r := satW (formWidth o.w32) (g ((s.me.getX o.a).setWidth (formWidth o.w32)).toInt (b.setWidth (formWidth o.w32)).toInt)
    arith o f g s = .next (s.wroteXF o.d (r.1.signExtend 64) (Flags.when r.2 Flags.sat)) := by
  intro r
  have hbody : arith o f g s = .next (s.wroteXF o.d
      (if o.w32 then (satW 32 (g ((s.me.getX o.a).setWidth 32).toInt (b.setWidth 32).toInt)).1.signExtend 64
        else (satW 64 (g (s.me.getX o.a).toInt b.toInt)).1)
      (Flags.when (if o.w32 then (satW 32 (g ((s.me.getX o.a).setWidth 32).toInt (b.setWidth 32).toInt)).2
        else (satW 64 (g (s.me.getX o.a).toInt b.toInt)).2) Flags.sat)) :=
    word_ok (by simp [xM_ok h, hb, hs])
  rw [hbody]
  revert r
  cases o.w32 <;> simp [formWidth]

end

theorem writesArith (f : (w : Nat) → BitVec w → BitVec w → BitVec w) {c : ArithRR → Instr} {g : Int → Int → Int}
    (hc : ∀ o s, exec (c o) s = arith o f g s) (hfg : ∀ w x y, f w x y = BitVec.ofInt w (g x.toInt y.toInt)) :
    WritesArith (c, g) := by
  intro o s y hr hy w exact lo hi clamped
  have hx := State.readable_head hr
  have hb := bM_ok (State.readable_tail hr) hy
  rw [hc]
  by_cases hs : o.sat = true
  · rw [arith_saturates hx hb hs, satW_eq, Flags.when_ne, if_pos hs]
  · rw [arith_wraps hx hb (by simpa using hs), wide_eq, hfg, if_neg hs]

theorem writesDivision (f : (w : Nat) → BitVec w → BitVec w → BitVec w) {c : ScalarRR → Instr}
    {g : (w : Nat) → BitVec w → BitVec w → BitVec w} (hc : ∀ o s, exec (c o) s = division o f s)
    (hfg : ∀ w x y, f w x y = g w x y) : WritesDivision (c, g) := by
  intro o s y hr hy w
  rw [hc, division_ok (State.readable_head hr) (bM_ok (State.readable_tail hr) hy), State.wroteXF_eq, wide_eq, divisor_eq_zero,
    hfg]
  simp only [Flags.when, decide_eq_true_eq]
  rfl

/-- Settles O3: the rules of the two forms. -/
theorem addSubDivResult : Obligations.AddSubDivResult := by
  change (∀ p ∈ _, WritesArith p) ∧ ∀ p ∈ _, WritesDivision p
  simp only [List.forall_mem_cons]
  exact ⟨⟨writesArith addW (fun _ _ => rfl) addW_eq, writesArith subW (fun _ _ => rfl) subW_eq, by simp⟩,
    writesDivision divW (fun _ _ => rfl) divW_eq, writesDivision divuW (fun _ _ => rfl) divuW_eq,
    writesDivision remW (fun _ _ => rfl) remW_eq, writesDivision remuW (fun _ _ => rfl) remuW_eq, by simp⟩

/-! ## One operand, fields and halves (R101, R103, R104) -/

/-- The rule of the one-operand forms. -/
def WritesUnary (p : (UnaryRR → Instr) × ((w : Nat) → BitVec w → BitVec w)) : Prop :=
  ∀ (o : UnaryRR) (s : State), s.readable [o.a] →
    exec (p.1 o) s = .next (s.wroteX o.d
      (if o.w32 then (p.2 32 ((s.me.getX o.a).setWidth 32)).signExtend 64 else p.2 64 (s.me.getX o.a)))

theorem writesUnary (f : (w : Nat) → BitVec w → BitVec w) {c : UnaryRR → Instr} {g : (w : Nat) → BitVec w → BitVec w}
    (hc : ∀ o s, exec (c o) s = scalarUnary o f s) (h32 : ∀ x, f 32 x = g 32 x) (h64 : ∀ x, f 64 x = g 64 x) :
    WritesUnary (c, g) := by
  intro o s hr
  rw [hc, scalarUnary_ok (State.readable_head hr), State.wroteX_eq, wide, h32, h64]

theorem exec_sel {d a b c : XReg} {s : State} (hr : s.readable [a, b, c]) :
    exec (.sel d a b c) s = .next (s.wroteX d (if s.me.getX c ≠ 0 then s.me.getX a else s.me.getX b)) := by
  have hb := State.readable_tail hr
  exact word_ok (by simp [xM_ok (State.readable_head hr), xM_ok (State.readable_head hb),
    xM_ok (State.readable_head (State.readable_tail hb))])

theorem exec_bfx {o : BFieldRI} {sx : Bool} {s : State} (hr : s.readable [o.a]) :
    let v := Word.bits (s.me.getX o.a) (o.lsb.toNat + (o.lenm1.toNat + 1) - 1) o.lsb.toNat
    exec (.bfx o sx) s = .next (s.wroteX o.d (if sx then sxWord (o.lenm1.toNat + 1) v else BitVec.ofNat 64 v)) :=
  word_ok (by simp [xM_ok (State.readable_head hr)])

theorem exec_bfi {o : BFieldRI} {s : State} (hr : s.readable [o.a, o.d]) :
    let mask : Word := BitVec.ofNat 64 ((2 ^ (o.lenm1.toNat + 1) - 1) * 2 ^ o.lsb.toNat)
    exec (.bfi o) s = .next (s.wroteX o.d ((s.me.getX o.d &&& ~~~mask) ||| ((s.me.getX o.a <<< o.lsb.toNat) &&& mask))) :=
  word_ok (by simp [xM_ok (State.readable_head hr), xM_ok (State.readable_head (State.readable_tail hr))])

theorem exec_li (d : XReg) (imm : BitVec 32) (s : State) : exec (.li d imm) s = .next (s.wroteX d (imm.signExtend 64)) :=
  word_ok (setXM_run d (imm.signExtend 64) s)

theorem exec_lih {d : XReg} {imm : BitVec 32} {s : State} (hr : s.readable [d]) :
    exec (.lih d imm) s = .next (s.wroteX d (imm ++ (s.me.getX d).setWidth 32 : BitVec (32 + 32))) :=
  word_ok (by simp [xM_ok (State.readable_head hr)])

/-- Settles O4: each form's rule, and the arithmetic of its operation. -/
theorem scalarUnaryFieldResult : Obligations.ScalarUnaryFieldResult := by
  refine ⟨fun d a b c s => exec_sel, ?unary, ?bfx, ?bfi, fun d imm s => exec_li d imm s, ?lih⟩
  case unary =>
    change ∀ p ∈ _, WritesUnary p
    simp only [List.forall_mem_cons]
    exact ⟨writesUnary clzW (fun _ _ => rfl) (clzW_eq 32) (clzW_eq 64),
      writesUnary ctzW (fun _ _ => rfl) (ctzW_eq 32) (ctzW_eq 64),
      writesUnary popcW (fun _ _ => rfl) (popcW_eq 32) (popcW_eq 64),
      writesUnary bswapW (fun _ _ => rfl) (bswapW_eq (n := 4) rfl) (bswapW_eq (n := 8) rfl), by simp⟩
  case bfx =>
    intro o sx s hw hr
    have hin : o.lsb.toNat + (o.lenm1.toNat + 1) ≤ 64 := by
      have := of_decide_eq_true hw
      omega
    rw [exec_bfx hr, sxWord_field _ hin (by omega), ofNat_field _ hin (by omega)]
  case bfi =>
    intro o s _ hr
    refine ⟨_, exec_bfi hr, fun i hi => ?_⟩
    rw [getLsbD_insertField _ _ hi]
    simp only [← Nat.add_assoc, Nat.lt_succ_iff]
  case lih =>
    intro d imm s hr
    rw [exec_lih hr, append_low_half]

end Sys2Proof.Machine
end

section
/-! The scalar floating-point instructions (R105 to R112): one rule for each form, and the statements of what they write. -/
namespace Sys2Proof

/-! ## The bits that a format reads (R112, R269) -/

/-- A format reads the low bits of its width alone. -/
theorem FFormat.fields_mod (f : FFormat) (n : Nat) :
    n % 2 ^ f.width % 2 ^ f.fbits = n % 2 ^ f.fbits ∧
      ((n % 2 ^ f.width) >>> f.fbits) % 2 ^ f.ebits = (n >>> f.fbits) % 2 ^ f.ebits ∧
      (n % 2 ^ f.width).testBit (f.ebits + f.fbits) = n.testBit (f.ebits + f.fbits) := by
  refine ⟨Nat.mod_mod_of_dvd _ (Nat.pow_dvd_pow 2 (by simp [FFormat.width])), ?_, ?_⟩
  · refine Nat.eq_of_testBit_eq fun i => ?_
    simp only [Nat.testBit_mod_two_pow, Nat.testBit_shiftRight, FFormat.width]
    by_cases h : i < f.ebits
    · simp [h, show f.fbits + i < 1 + f.ebits + f.fbits by omega]
    · simp [h]
  · simp [Nat.testBit_mod_two_pow, FFormat.width]

theorem FFormat.decode_mod (f : FFormat) (n : Nat) : f.decode (n % 2 ^ f.width) = f.decode n := by
  obtain ⟨hfrac, hexp, hsign⟩ := f.fields_mod n
  simp only [FFormat.decode, hfrac, hexp, hsign]

@[simp] theorem FFormat.decodeFtz_mod (f : FFormat) (z : Bool) (n : Nat) : f.decodeFtz z (n % 2 ^ f.width) = f.decodeFtz z n := by
  obtain ⟨hfrac, hexp, hsign⟩ := f.fields_mod n
  have hsub : f.isSub (n % 2 ^ f.width) = f.isSub n := by rw [FFormat.isSub, FFormat.isSub, hfrac, hexp]
  rw [FFormat.decodeFtz, FFormat.decodeFtz, hsub, hsign, f.decode_mod]

end Sys2Proof

namespace Sys2Proof.Machine

/-! ## Arithmetic (R105, R106) -/

/-- The rule of fadd, fsub, fmul and fdiv. -/
def WritesFp (p : (FpBin → Instr) × (FFormat → Rm → Bool → FVal → FVal → FRes)) : Prop :=
  ∀ (o : FpBin) (s : State) (y : Word), s.readable (o.a :: regsOf o.b) → s.bValue o.b = some y →
    let f := o.fmt.format
    let z := s.me.ftz
    let x := (s.me.getX o.a).toNat % 2 ^ f.width
    let r := p.2 f (s.me.rnd o.rnd) z (f.decodeFtz z x) (f.decodeFtz z (y.toNat % 2 ^ f.width))
    exec (p.1 o) s = .next (s.wroteXF o.d (BitVec.ofNat 64 r.bits) r.flags)

theorem fpBin_ok {o : FpBin} {f : FFormat → Rm → Bool → FVal → FVal → FRes} {s : State} {b : Word}
    (h : s.me.awaiting o.a = false ∧ ∀ p ∈ s.me.pend, p.reg ≠ some o.a) (hb : bM o.b s = .ok (b, s)) :
    let m := o.fmt.format
    let r := f m (s.me.rnd o.rnd) s.me.ftz (m.decodeFtz s.me.ftz (s.me.getX o.a).toNat) (m.decodeFtz s.me.ftz b.toNat)
    fpBin o f s = .next (s.wroteXF o.d (BitVec.ofNat 64 r.bits) r.flags) :=
  word_ok (by simp [xM_ok h, hb, fpResultM])

theorem writesFp {c : FpBin → Instr} {f : FFormat → Rm → Bool → FVal → FVal → FRes} (hc : ∀ o s, exec (c o) s = fpBin o f s) :
    WritesFp (c, f) := by
  intro o s y hr hy m z x r
  rw [hc, fpBin_ok (State.readable_head hr) (bM_ok (State.readable_tail hr) hy), ← m.decodeFtz_mod, ← m.decodeFtz_mod _ y.toNat]

theorem exec_fsqrt {d a : XReg} {fmt : FpFmt} {rnd : RndSel} {s : State} (hr : s.readable [a]) :
    let m := fmt.format
    let r := m.sqrt (s.me.rnd rnd) s.me.ftz (m.decodeFtz s.me.ftz (s.me.getX a).toNat)
    exec (.fsqrt d a fmt rnd) s = .next (s.wroteXF d (BitVec.ofNat 64 r.bits) r.flags) :=
  word_ok (by simp [xM_ok (State.readable_head hr), fpResultM])

theorem exec_ffma {o : FpFma} {s : State} {b : Word} (hr : s.readable (o.a :: o.c :: regsOf o.b)) (hb : s.bValue o.b = some b) :
    let m := o.fmt.format
    let r := m.fma (s.me.rnd o.rnd) s.me.ftz (m.decodeFtz s.me.ftz (s.me.getX o.a).toNat) (m.decodeFtz s.me.ftz b.toNat)
      (m.decodeFtz s.me.ftz (s.me.getX o.c).toNat)
    exec (.ffma o) s = .next (s.wroteXF o.d (BitVec.ofNat 64 r.bits) r.flags) := by
  have hc := State.readable_tail hr
  exact word_ok (by simp [xM_ok (State.readable_head hr), xM_ok (State.readable_head hc), bM_ok (State.readable_tail hc) hb,
    fpResultM])

/-- Settles O6: a format reads the low bits of its operands alone. -/
theorem fpArithmeticResult : Obligations.FpArithmeticResult := by
  refine ⟨?binary, ?sqrt, ?fma⟩
  case binary =>
    change ∀ p ∈ _, WritesFp p
    simp only [List.forall_mem_cons]
    exact ⟨writesFp fun _ _ => rfl, writesFp fun _ _ => rfl, writesFp fun _ _ => rfl, writesFp fun _ _ => rfl, by simp⟩
  case sqrt =>
    intro d a fmt rnd s hr f z r
    rw [exec_fsqrt hr, ← f.decodeFtz_mod]
  case fma =>
    intro o s y hr hy f z val r
    rw [exec_ffma hr hy, ← f.decodeFtz_mod, ← f.decodeFtz_mod _ y.toNat, ← f.decodeFtz_mod _ (s.me.getX o.c).toNat]

/-! ## fmin, fmax, fcmp, fclass, fcvt and fmv (R107 to R111) -/

theorem fpMinMax_ok {o : FpMinMax} {isMax : Bool} {s : State} {b : Word} (hr : s.readable (o.a :: regsOf o.b))
    (hb : s.bValue o.b = some b) :
    let r := o.fmt.format.minMax isMax s.me.ftz (s.me.getX o.a).toNat b.toNat
    fpMinMax o isMax s = .next (s.wroteXF o.d (BitVec.ofNat 64 r.bits) r.flags) :=
  word_ok (by simp [xM_ok (State.readable_head hr), bM_ok (State.readable_tail hr) hb, fpResultM])

theorem exec_fcmp {d a b : XReg} {fmt : FpFmt} {rel : Rel} {s : State} (hr : s.readable [a, b]) :
    let r := FVal.rel rel (fmt.format.decodeFtz s.me.ftz (s.me.getX a).toNat) (fmt.format.decodeFtz s.me.ftz (s.me.getX b).toNat)
    exec (.fcmp d a b fmt rel) s = .next (s.wroteXF d (if r.1 then 1 else 0) r.2) :=
  word_ok (by simp [xM_ok (State.readable_head hr), xM_ok (State.readable_head (State.readable_tail hr))])

theorem exec_fclass {d a : XReg} {fmt : FpFmt} {s : State} (hr : s.readable [a]) :
    exec (.fclass d a fmt) s = .next (s.wroteX d (BitVec.ofNat 64 (fmt.format.classify (s.me.getX a).toNat))) :=
  word_ok (by simp [xM_ok (State.readable_head hr)])

theorem exec_fcvt {o : FpCvt} {s : State} (hr : s.readable [o.a]) :
    let r := convert o.dst o.src (s.me.rnd o.rnd) s.me.ftz (s.me.getX o.a).toNat
    exec (.fcvt o) s = .next (s.wroteXF o.d (extendLoad o.dst.isSigned o.dst.size r.bits) r.flags) :=
  word_ok (by simp [xM_ok (State.readable_head hr)])

theorem exec_fmv {d a : XReg} {fmt : FpFmt} {s : State} (hr : s.readable [a]) :
    exec (.fmv d a fmt) s = .next (s.wroteX d (BitVec.ofNat 64 (Word.bits (s.me.getX a) (fmt.format.width - 1) 0))) :=
  word_ok (by simp [xM_ok (State.readable_head hr)])

theorem extendLoad_eq (sx : Bool) (n v : Nat) :
    extendLoad sx n v = if sx then BitVec.ofInt 64 (BitVec.ofNat (8 * n) v).toInt else BitVec.ofNat 64 v := by
  rw [extendLoad, sxWord_eq, BitVec.signExtend]

/-- Settles O7: each form's rule; a relation holds and raises NV as R108 says. -/
theorem fpCompareConvertResult : Obligations.FpCompareConvertResult := by
  refine ⟨?minmax, ?compare, fun d a fmt s hr => exec_fclass hr, ?convert, ?move⟩
  case minmax =>
    simp only [List.forall_mem_cons]
    exact ⟨fun o s y hr hy => fpMinMax_ok hr hy, fun o s y hr hy => fpMinMax_ok hr hy, by simp⟩
  case compare =>
    intro d a b fmt rel s hr val un c holds nv
    rw [exec_fcmp hr]
    cases rel <;> rfl
  case convert =>
    intro o s _ hr r
    rw [exec_fcvt hr, extendLoad_eq]
  case move =>
    intro d a fmt s hr
    have hw : fmt.format.width - 1 + 1 - 0 = fmt.format.width := by cases fmt <;> rfl
    rw [exec_fmv hr, Word.bits, hw, Nat.shiftRight_zero]

end Sys2Proof.Machine
end

section
/-! NaN results (R105, R106, R270, R276): the bits that a result can have, and what a NaN operand makes of each operation. -/
namespace Sys2Proof

/-! ## Bits that are no NaN (R269, R270) -/

/-- Bits of a format that are the canonical NaN, if a NaN at all. -/
def FFormat.Canonical (f : FFormat) (bits : Nat) : Prop :=
  bits < 2 ^ f.width ∧ ((f.decode bits).isNan = true → bits = f.nanBits)

/-- In a format with infinities a NaN has the top exponent and a fraction. -/
theorem FFormat.fields_of_isNan {f : FFormat} {bits : Nat} (hf : f.ieee = true) (h : (f.decode bits).isNan = true) :
    (bits >>> f.fbits) % 2 ^ f.ebits = 2 ^ f.ebits - 1 ∧ bits % 2 ^ f.fbits ≠ 0 := by
  simp only [FFormat.decode, hf, if_true] at h
  split at h
  · cases h
  · split at h
    · next htop =>
      split at h
      · cases h
      · next hfrac => exact ⟨htop, hfrac⟩
    · cases h

theorem FFormat.infBits_lt (f : FFormat) : f.infBits < 2 ^ (f.ebits + f.fbits) := by
  have he : 0 < 2 ^ f.ebits := Nat.two_pow_pos _
  rw [FFormat.infBits, Nat.pow_add]
  exact Nat.mul_lt_mul_of_pos_right (by omega) (Nat.two_pow_pos _)

/-- A sign and a magnitude up to infinity are no NaN. -/
theorem FFormat.canonical_signed {f : FFormat} (hf : f.ieee = true) (neg : Bool) {b : Nat} (hb : b ≤ f.infBits) :
    f.Canonical (f.signBit neg + b) := by
  have hlt := f.infBits_lt
  have hw : 2 ^ f.width = 2 * 2 ^ (f.ebits + f.fbits) := by rw [FFormat.width, Nat.add_assoc, Nat.pow_add, Nat.pow_one]
  obtain ⟨m, hm⟩ : ∃ m, f.signBit neg = 2 ^ f.fbits * (2 ^ f.ebits * m) ∧ m ≤ 1 := by
    cases neg with
    | false => exact ⟨0, rfl, by omega⟩
    | true => exact ⟨1, by rw [FFormat.signBit, Nat.mul_one, Nat.pow_add, Nat.mul_comm]; rfl, by omega⟩
  constructor
  · cases neg <;> simp [FFormat.signBit] <;> omega
  · intro hn
    obtain ⟨htop, hfrac⟩ := FFormat.fields_of_isNan hf hn
    rw [hm.1, Nat.shiftRight_eq_div_pow, Nat.mul_add_div (Nat.two_pow_pos _), Nat.mul_add_mod] at htop
    rw [hm.1, Nat.mul_add_mod] at hfrac
    have hquot : 2 ^ f.ebits - 1 ≤ b / 2 ^ f.fbits := htop ▸ Nat.mod_le _ _
    have hinf : b = f.infBits := by
      refine Nat.le_antisymm hb ?_
      exact (Nat.mul_le_mul_right _ hquot).trans (Nat.div_mul_le_self b _)
    exact absurd (by rw [hinf, FFormat.infBits, Nat.mul_mod_left]) hfrac

theorem FFormat.canonical_nan {f : FFormat} (hn : f.nanBits < 2 ^ f.width) : f.Canonical f.nanBits := ⟨hn, fun _ => rfl⟩

/-! ## Results (R275, R276) -/

section
variable {f : FFormat} (hf : f.ieee = true) (hn : f.nanBits < 2 ^ f.width) (rm : Rm) (z : Bool)
include hf

theorem FFormat.maxFinite_le : f.maxFinite ≤ f.infBits := by
  rw [FFormat.maxFinite, if_pos hf, FFormat.infBits]
  exact Nat.sub_le _ _

theorem FFormat.canonical_zero (neg : Bool) : f.Canonical (f.zero neg).bits :=
  FFormat.canonical_signed hf neg (Nat.zero_le _)

theorem FFormat.canonical_inf (neg : Bool) : f.Canonical (f.inf neg).bits :=
  FFormat.canonical_signed hf neg le_rfl

theorem FFormat.canonical_overflow (neg : Bool) : f.Canonical (f.overflow rm neg).bits := by
  unfold FFormat.overflow
  rw [if_pos hf]
  exact FFormat.canonical_signed hf neg
    (iteInduction (motive := (· ≤ f.infBits)) (fun _ => FFormat.maxFinite_le hf) (fun _ => le_rfl))

theorem FFormat.canonical_round (neg : Bool) (m : Nat) (e : Int) (sticky : Bool) :
    f.Canonical (f.round rm z neg m e sticky).bits := by
  simp only [FFormat.round]
  split
  · exact FFormat.canonical_overflow hf rm neg
  · next hmax =>
    split
    · exact FFormat.canonical_zero hf neg
    · exact FFormat.canonical_signed hf neg ((Nat.le_of_not_lt hmax).trans (FFormat.maxFinite_le hf))

theorem FFormat.canonical_roundDy (d : Dy) : f.Canonical (f.roundDy rm z d).bits := by
  rw [FFormat.roundDy]
  split
  · exact FFormat.canonical_zero hf _
  · exact FFormat.canonical_round hf rm z _ _ _ _

/-- A number that fmin or fmax passes on, as FTZ reads it, is no NaN. -/
theorem FFormat.canonical_passed {n : Nat} (h : (f.decodeFtz z n).isNan = false) :
    f.Canonical (if z && f.isSub n then f.signBit (n.testBit (f.ebits + f.fbits)) else n % 2 ^ f.width) := by
  rw [FFormat.decodeFtz] at h
  split at h
  · next hsub =>
    rw [if_pos hsub]
    exact FFormat.canonical_zero hf _
  · next hsub =>
    rw [if_neg hsub]
    exact ⟨Nat.mod_lt _ (Nat.two_pow_pos _), fun hnan => by rw [f.decode_mod, h] at hnan; cases hnan⟩

/-! ## Operations (R105, R106) -/

include hn

theorem FFormat.canonical_add (a b : FVal) : f.Canonical (f.add rm z a b).bits := by
  unfold FFormat.add
  split
  · split
    · exact FFormat.canonical_zero hf _
    · exact FFormat.canonical_roundDy hf rm z _
  · split
    · exact FFormat.canonical_inf hf _
    · exact FFormat.canonical_nan hn
  · exact FFormat.canonical_inf hf _
  · exact FFormat.canonical_inf hf _
  · exact FFormat.canonical_nan hn

theorem FFormat.canonical_mul (a b : FVal) : f.Canonical (f.mul rm z a b).bits := by
  unfold FFormat.mul
  split
  · exact FFormat.canonical_nan hn
  · split
    · exact FFormat.canonical_nan hn
    · split
      · split
        · exact FFormat.canonical_zero hf _
        · exact FFormat.canonical_round hf rm z _ _ _ _
      · exact FFormat.canonical_inf hf _

theorem FFormat.canonical_div (a b : FVal) : f.Canonical (f.div rm z a b).bits := by
  unfold FFormat.div
  split
  · exact FFormat.canonical_nan hn
  · split
    · split
      · split
        · exact FFormat.canonical_nan hn
        · exact FFormat.canonical_inf hf _
      · split
        · exact FFormat.canonical_zero hf _
        · exact FFormat.canonical_round hf rm z _ _ _ _
    · exact FFormat.canonical_inf hf _
    · exact FFormat.canonical_zero hf _
    · exact FFormat.canonical_nan hn

theorem FFormat.canonical_sqrt (a : FVal) : f.Canonical (f.sqrt rm z a).bits := by
  unfold FFormat.sqrt
  split
  · split
    · exact FFormat.canonical_zero hf _
    · split
      · exact FFormat.canonical_nan hn
      · exact FFormat.canonical_round hf rm z _ _ _ _
  · exact FFormat.canonical_inf hf _
  · exact FFormat.canonical_nan hn
  · exact FFormat.canonical_nan hn

theorem FFormat.canonical_fma (a b c : FVal) : f.Canonical (f.fma rm z a b c).bits := by
  unfold FFormat.fma
  split
  · exact FFormat.canonical_nan hn
  · split
    · exact FFormat.canonical_nan hn
    · dsimp only
      split
      · split
        · exact FFormat.canonical_zero hf _
        · exact FFormat.canonical_roundDy hf rm z _
      · exact FFormat.canonical_inf hf _
      · split
        · exact FFormat.canonical_inf hf _
        · exact FFormat.canonical_nan hn
      · exact FFormat.canonical_inf hf _

theorem FFormat.canonical_minMax (isMax : Bool) (a b : Nat) : f.Canonical (f.minMax isMax z a b).bits := by
  simp only [FFormat.minMax]
  cases ha : (f.decodeFtz z a).isNan with
  | true =>
    cases hb : (f.decodeFtz z b).isNan with
    | true => exact FFormat.canonical_nan hn
    | false => exact FFormat.canonical_passed hf z hb
  | false =>
    cases hb : (f.decodeFtz z b).isNan with
    | true => exact FFormat.canonical_passed hf z ha
    | false =>
      exact iteInduction (motive := f.Canonical) (fun _ => FFormat.canonical_passed hf z ha)
        (fun _ => FFormat.canonical_passed hf z hb)

end

/-! ## NaN operands (R105, R106) -/

section
variable (f : FFormat) (rm : Rm) (z : Bool) {a b c : FVal}

theorem FVal.isNan_of_isSig {x : FVal} (h : x.isSig = true) : x.isNan = true := by
  cases x <;> trivial

@[simp] theorem FVal.isNan_negate (x : FVal) : x.negate.isNan = x.isNan := by cases x <;> rfl
@[simp] theorem FVal.isSig_negate (x : FVal) : x.negate.isSig = x.isSig := by cases x <;> rfl

theorem FFormat.add_nan (h : a.isNan = true ∨ b.isNan = true) : f.add rm z a b = f.nanOf [a, b] := by
  rcases h with h | h
  · cases a with
    | nan _ | nar => rfl
    | inf _ | fin _ _ _ => cases h
  · cases b with
    | nan _ | nar => cases a <;> rfl
    | inf _ | fin _ _ _ => cases h

theorem FFormat.mul_nan (h : a.isNan = true ∨ b.isNan = true) : f.mul rm z a b = f.nanOf [a, b] :=
  if_pos (Bool.or_eq_true_iff.mpr h)

theorem FFormat.div_nan (h : a.isNan = true ∨ b.isNan = true) : f.div rm z a b = f.nanOf [a, b] :=
  if_pos (Bool.or_eq_true_iff.mpr h)

theorem FFormat.sqrt_nan (h : a.isNan = true) : f.sqrt rm z a = f.nanOf [a] := by
  cases a with
  | nan _ | nar => rfl
  | inf _ | fin _ _ _ => cases h

/-- 0 × inf raises NV whatever C is. -/
theorem FFormat.fma_nan (h : a.isNan = true ∨ b.isNan = true ∨ c.isNan = true) :
    f.fma rm z a b c = f.nan true ∨ f.fma rm z a b c = f.nanOf [a, b, c] := by
  unfold FFormat.fma
  split
  · exact .inl rfl
  · exact .inr (if_pos (by simpa [or_assoc] using h))

/-- A signaling operand of a NaN result raises NV. -/
theorem FFormat.flags_nanOf {l : List FVal} (h : l.any FVal.isSig = true) : (f.nanOf l).flags &&& Flags.nv = Flags.nv := by
  simp [FFormat.nanOf, FFormat.nan, h, Flags.when]

theorem FFormat.flags_minMax (isMax : Bool) {m n : Nat}
    (h : ((f.decodeFtz z m).isSig || (f.decodeFtz z n).isSig) = true) :
    (f.minMax isMax z m n).flags &&& Flags.nv = Flags.nv := by
  have hflags : (f.minMax isMax z m n).flags = Flags.nv := by
    simp only [FFormat.minMax, h, Flags.when, if_true]
    split
    · rfl
    · split
      · rfl
      · split
        · rfl
        · rfl
  rw [hflags, BitVec.and_self]

end

/-- The three formats of the scalar instructions have infinities, and their canonical NaN fits them. -/
theorem FpFmt.format_nan (fmt : FpFmt) : fmt.format.ieee = true ∧ fmt.format.nanBits < 2 ^ fmt.format.width := by
  cases fmt <;> decide

/-- The rule of a result with its operands: it is canonical, and a signaling operand raises NV. -/
def FFormat.NanRule (f : FFormat) (r : FRes) (l : List FVal) : Prop :=
  r.bits < 2 ^ f.width ∧ ((f.decode r.bits).isNan = true → r.bits = f.nanBits) ∧
    (l.any FVal.isSig = true → r.flags &&& Flags.nv = Flags.nv)

theorem FFormat.nanRule {f : FFormat} {r : FRes} {l : List FVal} (hc : f.Canonical r.bits)
    (hv : l.any FVal.isSig = true → r.flags &&& Flags.nv = Flags.nv) : f.NanRule r l :=
  ⟨hc.1, hc.2, hv⟩

/-- The result of a NaN operand is that of R270. -/
theorem FFormat.nanRule_of_nanOf {f : FFormat} {r : FRes} {l m : List FVal} (hc : f.Canonical r.bits)
    (hlm : m.any FVal.isSig = l.any FVal.isSig) (hr : l.any FVal.isSig = true → r = f.nanOf m) : f.NanRule r l :=
  FFormat.nanRule hc fun h => hr h ▸ f.flags_nanOf (hlm.trans h)

/-- Settles O8: no operation's bits but the canonical NaN's are a NaN's, and a NaN operand makes the result that of R270. -/
theorem nanResultsCanonical : Obligations.NanResultsCanonical := by
  intro fmt rm z a b c f va vb vc
  obtain ⟨hf, hn⟩ := fmt.format_nan
  have hpair : [va, vb].any FVal.isSig = true → va.isNan = true ∨ vb.isNan = true := by
    simpa using Or.imp FVal.isNan_of_isSig FVal.isNan_of_isSig
  have htriple : [va, vb, vc].any FVal.isSig = true → va.isNan = true ∨ vb.isNan = true ∨ vc.isNan = true := by
    simpa using Or.imp FVal.isNan_of_isSig (Or.imp FVal.isNan_of_isSig FVal.isNan_of_isSig)
  change ∀ r ∈ (_ : List (FRes × List FVal)), f.NanRule r.1 r.2
  simp only [List.forall_mem_cons]
  refine ⟨?add, ?sub, ?mul, ?div, ?sqrt, ?fma, ?min, ?max, by simp⟩
  case add => exact FFormat.nanRule_of_nanOf (FFormat.canonical_add hf hn ..) rfl fun h => f.add_nan rm z (hpair h)
  case sub =>
    exact FFormat.nanRule_of_nanOf (FFormat.canonical_add hf hn ..) (m := [va, vb.negate]) (by simp) fun h =>
      f.add_nan rm z (by simpa using hpair h)
  case mul => exact FFormat.nanRule_of_nanOf (FFormat.canonical_mul hf hn ..) rfl fun h => f.mul_nan rm z (hpair h)
  case div => exact FFormat.nanRule_of_nanOf (FFormat.canonical_div hf hn ..) rfl fun h => f.div_nan rm z (hpair h)
  case sqrt =>
    exact FFormat.nanRule_of_nanOf (FFormat.canonical_sqrt hf hn ..) rfl fun h =>
      f.sqrt_nan rm z (FVal.isNan_of_isSig (by simpa using h))
  case fma =>
    refine FFormat.nanRule (FFormat.canonical_fma hf hn ..) fun h => ?_
    rcases f.fma_nan rm z (htriple h) with hr | hr
    · rw [hr]
      exact BitVec.and_self
    · rw [hr]
      exact f.flags_nanOf h
  case min => exact FFormat.nanRule (FFormat.canonical_minMax hf hn ..) fun h => f.flags_minMax z false (by simpa using h)
  case max => exact FFormat.nanRule (FFormat.canonical_minMax hf hn ..) fun h => f.flags_minMax z true (by simpa using h)

end Sys2Proof
end

section
/-! Where the transfers go, and what they link (R113, R114). -/
namespace Sys2Proof.Machine

/-! ## Transfers by a word's offset (R113) -/

theorem State.updMe_congr {s : State} {f g : Thread → Thread} (h : f s.me = g s.me) : s.updMe f = s.updMe g :=
  congrArg (s.setThread s.cur) h

section
variable {c : Cond} {a b : XReg} {h : BrHint} {off : BitVec 32} {s : State}

theorem exec_bCond_taken (hr : s.readable [a, b]) (hc : condHolds c (s.me.getX a) (s.me.getX b) = true)
    (ht : (brTarget s.me.pc off).toNat < 2 ^ 49) :
    exec (.bCond c a b h off) s = .next (s.updMe (·.goto (brTarget s.me.pc off))) := by
  rw [exec_bCond]
  refine outcome_ok ?_
  simp [xM_ok (State.readable_head hr), xM_ok (State.readable_head (State.readable_tail hr)), hc, gotoM_ok ht]

theorem exec_bCond_passed (hr : s.readable [a, b]) (hc : ¬ condHolds c (s.me.getX a) (s.me.getX b) = true) :
    exec (.bCond c a b h off) s = .next s.advance := by
  rw [exec_bCond]
  refine outcome_ok ?_
  simp [xM_ok (State.readable_head hr), xM_ok (State.readable_head (State.readable_tail hr)), hc]

theorem exec_call_goes (ht : (brTarget s.me.pc off).toNat < 2 ^ 49) :
    exec (.call a h off) s = .next (s.updMe (fun t => (t.setX a (t.pc + 8)).goto (brTarget s.me.pc off))) := by
  rw [exec_call]
  refine outcome_ok ?_
  simp only [M.bind_run, readS_run, setXM_run, gotoM_ok ht, State.updMe_updMe]
  exact congrArg (fun t => Except.ok ((), t)) (State.updMe_congr rfl)

theorem exec_loop_again (hr : s.readable [a]) (hx : s.me.getX a ≠ 1) (ht : (brTarget s.me.pc off).toNat < 2 ^ 49) :
    exec (.loop a h off) s =
      .next (s.updMe (fun t => (t.setX a (s.me.getX a - 1)).goto (brTarget s.me.pc off))) := by
  have hne : (s.me.getX a - 1 != 0) = true := by simpa only [bne_iff_ne, ne_eq, sub_eq_zero] using hx
  rw [exec_loop]
  refine outcome_ok ?_
  simp only [M.bind_run, readS_run, xM_ok (State.readable_head hr), setXM_run, hne, if_true, gotoM_ok ht, State.updMe_updMe]

theorem exec_loop_ends (hr : s.readable [a]) (hx : s.me.getX a = 1) : exec (.loop a h off) s = .next (s.wroteX a 0) := by
  rw [exec_loop]
  refine outcome_ok ?_
  simp [xM_ok (State.readable_head hr), hx, State.wroteX_eq]

end

/-! ## Transfers through a register (R114) -/

theorem jumpM_ok {target : Word} (h : target.toNat % 8 = 0) (hs : target.toNat < 2 ^ 49) (s : State) :
    jumpM target s = .ok ((), s.updMe (·.goto target)) := by
  have hd : (Word.bits target 2 0 != 0) = false := by simpa [bits_low_three] using h
  simp only [jumpM, M.bind_run, hd, trapIf_false, gotoM_ok hs]

/-- The register is read before the link is written. -/
theorem exec_jump_goes {d a : XReg} {s : State} (hr : s.readable [a]) (h : (s.me.getX a).toNat % 8 = 0)
    (hs : (s.me.getX a).toNat < 2 ^ 49) :
    exec (.callr d a) s = .next (s.updMe (fun t => (t.setX d (t.pc + 8)).goto (s.me.getX a))) ∧
      exec (.jr a) s = .next (s.updMe (·.goto (s.me.getX a))) ∧ exec (.ret a) s = .next (s.updMe (·.goto (s.me.getX a))) := by
  have hx := xM_ok (State.readable_head hr)
  rw [exec_callr, exec_jr, exec_ret]
  refine ⟨outcome_ok ?_, outcome_ok ?_, outcome_ok ?_⟩
  · simp only [M.bind_run, readS_run, hx, setXM_run, jumpM_ok h hs, State.updMe_updMe]
    exact congrArg (fun t => Except.ok ((), t)) (State.updMe_congr rfl)
  · simp [hx, jumpM_ok h hs]
  · simp [hx, jumpM_ok h hs]

/-! ## The words of R114 -/

theorem toNat_append_add {m n : Nat} (x : BitVec m) (y : BitVec n) : (x ++ y).toNat = x.toNat * 2 ^ n + y.toNat := by
  rw [BitVec.toNat_append, ← Nat.shiftLeft_add_eq_or_of_lt y.isLt, Nat.shiftLeft_eq]

theorem toNat_xf (r : XReg) : (xf r).toNat = r.toNat := by
  rw [xf, toNat_append_add]
  simp

/-- The word of two registers and a function, its other fields zero (R55). -/
theorem toNat_encClause (op : BitVec 8) (fn : BitVec 6) (d a : XReg) :
    (encClause op fn d a).toNat = op.toNat * 2 ^ 56 + d.toNat * 2 ^ 50 + a.toNat * 2 ^ 44 + fn.toNat * 2 ^ 26 := by
  simp only [encClause, FRR.pack, toNat_append_add, toNat_xf, BitVec.ofNat_eq_ofNat, BitVec.toNat_ofNat]
  omega

theorem toNat_of_decode {i : Instr} {w : Word} {op : BitVec 8} {fn : BitVec 6} {d a : XReg}
    (he : encode i = some (encClause op fn d a)) (h : decodeWord w = .ok i) :
    w.toNat = op.toNat * 2 ^ 56 + d.toNat * 2 ^ 50 + a.toNat * 2 ^ 44 + fn.toNat * 2 ^ 26 := by
  obtain ⟨-, -, hw⟩ := decodeWord_isWord h
  rw [← toNat_encClause, Option.some.inj (hw.symm.trans he)]

/-- Settles O10: each transfer's rule; the words of R114 are their encodings. -/
theorem branchResult : Obligations.BranchResult := by
  refine ⟨?branch, fun a h off s => exec_call_goes, ?loop, ?jump, ?jumpTraps, ?words⟩
  case branch =>
    intro c a b h off s hr x y target taken
    have hc : taken ↔ condHolds c x y = true := by
      cases c <;> simp [taken, condHolds, BitVec.slt_eq_decide, BitVec.ult]
    exact ⟨fun ht => exec_bCond_taken hr (hc.mp ht), fun ht => exec_bCond_passed hr (fun h => ht (hc.mpr h))⟩
  case loop =>
    intro a h off s _ hr target x
    exact ⟨fun hx ht => exec_loop_again hr hx ht, fun hx => exec_loop_ends hr hx⟩
  case jump =>
    intro d a s hr target h hs
    exact exec_jump_goes hr h hs
  case jumpTraps =>
    intro d a s hr i hi target
    exact ⟨fun h _ => exec_jump_trap hr (jumpM_misalign h) i hi, fun h hs => exec_jump_trap hr (jumpM_access h hs) i hi⟩
  case words =>
    intro d a w fixed
    exact ⟨toNat_of_decode (op := 0x32) (fn := 0) (d := d) rfl, toNat_of_decode (op := 0x32) (fn := 1) (d := 0) rfl,
      toNat_of_decode (op := 0x32) (fn := 2) (d := 0) rfl⟩

end Sys2Proof.Machine
end

section
/-! What `getsr` writes (R115 to R118, R120, R190, R281, R339, R390, R395, R412). -/
namespace Sys2Proof.Machine

/-! ## Values of several fields -/

/-- A field above a number's bits adds up. -/
theorem ofNat_or_field {v m b : Nat} (h : v < 2 ^ m) : BitVec.ofNat 64 v ||| field m b = BitVec.ofNat 64 (v + 2 ^ m * b) := by
  rw [field, ← BitVec.ofNat_or, Nat.or_comm, ← Nat.shiftLeft_add_eq_or_of_lt h, Nat.shiftLeft_eq, Nat.add_comm, Nat.mul_comm]

theorem field_zero (v : Nat) : field 0 v = BitVec.ofNat 64 v := rfl

theorem tstat_fields (m p i f : Bool) {c : Nat} (hc : c < 4) :
    field 0 m.toNat ||| field 1 p.toNat ||| field 2 i.toNat ||| field 3 c ||| field 5 f.toNat =
      BitVec.ofNat 64 (m.toNat + 2 * p.toNat + 4 * i.toNat + 8 * c + 32 * f.toNat) := by
  have hm := m.toNat_le
  have hp := p.toNat_le
  have hi := i.toNat_le
  rw [field_zero, ofNat_or_field (by omega), ofNat_or_field (by omega), ofNat_or_field (by omega), ofNat_or_field (by omega)]
  simp only [Nat.pow_one, Nat.reducePow]

theorem Run.id_eq (x : Run) :
    x.id = BitVec.ofNat 64 (x.seq.toNat + 2 ^ 32 * (x.vf % 32) + 2 ^ 37 * (x.queue % 64)) := by
  have hs := x.seq.isLt
  rw [Run.id, field_zero, ofNat_or_field (by omega), ofNat_or_field (by omega)]

/-! ## Reading a register (R115, R120) -/

theorem exec_getsr_reads {d : XReg} {sr : SysReg} {s : State} {w : Word} (ha : s.mayAccess sr false = true)
    (hw : readSr sr s = .ok (w, s)) : exec (.getsr d sr) s = .next (s.wroteX d w) :=
  word_ok (by simp [accessM_ok ha, hw])

/-- A register of the run or of the position (R115). -/
theorem posM_ok {s : State} {x : Run} (hx : s.InRun x) (f : State → Run → Word) : posM f s = .ok (f s x, s) := by
  have hf : s.inFirmware = false := hx.onCluster
  simp [posM, hf, hx.inRun]

theorem State.InRun.run {s : State} {x : Run} (hx : s.InRun x) : ∃ r, s.me.run = some r ∧ s.run? r = some x :=
  Option.bind_eq_some_iff.mp hx.inRun

theorem mayAccess_sup {s : State} {sr : SysReg} (hs : srAccess sr = .sup) (hm : s.me.mode = true) (write : Bool) :
    s.mayAccess sr write = true := by
  simp [State.mayAccess, hs, hm]

theorem mayAccess_fw {s : State} {sr : SysReg} (hs : srAccess sr = .fw) (hf : isFirmware s.cur = true) (hm : s.me.mode = true)
    (write : Bool) : s.mayAccess sr write = true := by
  simp [State.mayAccess, hs, hm, State.inFirmware, hf]

theorem mayAccess_root {s : State} {sr : SysReg} (hs : srAccess sr = .root) (hf : isFirmware s.cur = true) (hm : s.me.mode = true)
    (h0 : s.cur.core = 0) (write : Bool) : s.mayAccess sr write = true := by
  simp [State.mayAccess, hs, hm, State.inFirmware, hf, h0]

section
variable {s : State} {x : Run} (hx : s.InRun x) (d : XReg)
include hx

theorem exec_getsr_actid :
    exec (.getsr d .actid) s = .next (s.wroteX d (if s.me.ctx = .gang then 0 else s.me.actid)) := by
  have hf : s.inFirmware = false := hx.onCluster
  refine exec_getsr_reads rfl ?_
  simp [readSr, hf]

theorem State.packFlags_run : s.packFlags (s.me.run.getD 0) x =
    (x.clusters.filter (fun c => (s.cluster c).run == s.me.run)).foldl (fun f c => f ||| (s.cluster c).raised) x.packflags := by
  obtain ⟨r, hr, -⟩ := hx.run
  rw [State.packFlags, hr, Option.getD_some]

end

/-- In H, RANK is that of T0 (R115). -/
theorem State.rankOf_cur (s : State) :
    s.rankOf s.cur = (if s.cur.set = 4 then s.thread { s.cur with set := 0 } else s.me).rank := by
  rw [State.rankOf]
  split <;> rfl

/-- The position that CORE reports: in the second twin the first twin's (R390). -/
theorem State.coreSelf_eq {s : State} {self : TsId} (hself : (∀ k, s.me.act = some k → k.twin ≠ 1) → self = s.cur)
    (htwin : ∀ k a, s.me.act = some k → k.twin = 1 → s.act? { k with twin := 0 } = some a → self = a.owner)
    (hsome : ∀ k, s.me.act = some k → k.twin = 1 → (s.act? { k with twin := 0 }).isSome = true) : s.coreSelf = self := by
  unfold State.coreSelf
  split
  · next k hk =>
    split
    · next h1 =>
      obtain ⟨a, ha⟩ := Option.isSome_iff_exists.mp (hsome k hk h1)
      rw [ha, htwin k a hk h1 ha]
      rfl
    · next h1 => exact (hself fun q hq => Option.some.inj (hk.symm.trans hq) ▸ h1).symm
  · next hk => exact (hself fun q hq => by rw [hk] at hq; cases hq).symm

section
variable {s : State} (hf : isFirmware s.cur = true) (hm : s.me.mode = true) (d : XReg)
include hf hm

theorem exec_getsr_fw {sr : SysReg} (hs : srAccess sr = .fw) {w : Word} (hr : readSr sr s = .ok (w, s)) :
    exec (.getsr d sr) s = .next (s.wroteX d w) :=
  exec_getsr_reads (mayAccess_fw hs hf hm _) hr

theorem exec_getsr_root (h0 : s.cur.core = 0) {sr : SysReg} (hs : srAccess sr = .root) {w : Word} (hr : readSr sr s = .ok (w, s)) :
    exec (.getsr d sr) s = .next (s.wroteX d w) :=
  exec_getsr_reads (mayAccess_root hs hf hm h0 _) hr

end

/-- Settles O14, register by register: whom it belongs to, and what it reads. -/
theorem getsrResult : Obligations.GetsrResult := by
  refine ⟨?thread, ?run, ?rank, ?position, ?cluster, ?firmware, ?indexed⟩
  case thread =>
    simp only [List.forall_mem_cons]
    refine ⟨fun d s => exec_getsr_reads rfl rfl, fun d s => exec_getsr_reads rfl rfl, fun d s => exec_getsr_reads rfl rfl,
      fun d s => exec_getsr_reads rfl rfl, fun d s => exec_getsr_reads rfl rfl, fun d s => exec_getsr_reads rfl rfl,
      fun d s => exec_getsr_reads rfl rfl, fun d s => exec_getsr_reads rfl rfl, fun d s => exec_getsr_reads rfl rfl,
      fun d s => ?_, by simp⟩
    rw [← tstat_fields _ _ _ _ (by cases s.me.ctx <;> decide)]
    exact exec_getsr_reads rfl rfl
  case run =>
    simp only [List.forall_mem_cons]
    refine ⟨fun d s x hx => exec_getsr_reads rfl ?_, fun d s x hx => exec_getsr_reads rfl ?_,
      fun d s x hx => exec_getsr_actid hx d, by simp⟩
    · simp [readSr, posM_ok hx, Run.id_eq]
    · simp [readSr, posM_ok hx, Rec.nrank]
  case rank =>
    intro d s x hx
    refine exec_getsr_reads rfl ?_
    simp [readSr, posM_ok hx, State.rankOf_cur]
  case position =>
    intro d s x hx
    refine ⟨fun self hself htwin hsome => exec_getsr_reads rfl ?_, exec_getsr_reads rfl ?_⟩
    · simp [readSr, posM_ok hx, State.coreSelf_eq hself htwin hsome]
    · simp [readSr, posM_ok hx]
  case cluster =>
    simp only [List.forall_mem_cons]
    refine ⟨fun d s x hx hm => exec_getsr_reads (mayAccess_sup rfl hm _) ?_,
      fun d s x hx hm => exec_getsr_reads (mayAccess_sup rfl hm _) ?_,
      fun d s x hx hm => exec_getsr_reads (mayAccess_sup rfl hm _) ?_,
      fun d s x hx hm => exec_getsr_reads (mayAccess_sup rfl hm _) ?_, by simp⟩
    · simp [readSr, posM_ok hx]
    · simp [readSr, posM_ok hx, State.packFlags_run hx]
    · simp [readSr, posM_ok hx]
    · simp [readSr, posM_ok hx]
  case firmware =>
    simp only [List.forall_mem_cons]
    refine ⟨fun d s hf hm => exec_getsr_fw hf hm d rfl rfl, fun d s hf hm => exec_getsr_fw hf hm d rfl rfl,
      fun d s hf hm => exec_getsr_fw hf hm d rfl ?_, fun d s hf hm => exec_getsr_fw hf hm d rfl rfl,
      fun d s hf hm => exec_getsr_fw hf hm d rfl rfl, fun d s hf hm => exec_getsr_fw hf hm d rfl rfl,
      fun d s hf hm => exec_getsr_fw hf hm d rfl rfl, fun d s hf hm => exec_getsr_fw hf hm d rfl ?_, by simp⟩
    · cases h : (s.fn s.cur.core).committed <;> simp [readSr, h, field]
    · simp [readSr, Word.bits, Nat.shiftRight_eq_div_pow]
  case indexed =>
    intro d k n s hf hm f sel reads
    refine ⟨exec_getsr_fw hf hm d rfl rfl, exec_getsr_fw hf hm d rfl rfl, exec_getsr_fw hf hm d rfl rfl,
      fun h => exec_getsr_fw hf hm d rfl ?_, exec_getsr_fw hf hm d rfl ?_,
      fun h0 => ⟨exec_getsr_root hf hm d h0 rfl rfl, exec_getsr_root hf hm d h0 rfl rfl⟩⟩
    · simp [readSr, f, h]
    · simp [readSr, Fn.stackSel, Word.bits, Nat.shiftRight_eq_div_pow, f, sel]

end Sys2Proof.Machine
end

section
/-! What the updates of units leave as it was: the registers of the issuing thread set, memory, and the translations that a
removal of entries keeps (R125, R374). -/
namespace Sys2Proof.Machine

/-! ## The issuing thread set -/

/-- The thread sets, and which of them issues, stand as before. -/
structure State.SetsKept (s t : State) : Prop where
  threads : t.threads = s.threads
  cur : t.cur = s.cur

theorem State.SetsKept.refl (s : State) : s.SetsKept s := ⟨rfl, rfl⟩

theorem State.SetsKept.trans {s t u : State} (h : s.SetsKept t) (g : t.SetsKept u) : s.SetsKept u :=
  ⟨g.threads.trans h.threads, g.cur.trans h.cur⟩

theorem State.SetsKept.thread {s t : State} (h : s.SetsKept t) (u : TsId) : t.thread u = s.thread u :=
  State.thread_congr h.threads u

theorem State.SetsKept.me {s t : State} (h : s.SetsKept t) : t.me = s.me := by
  rw [State.me, h.cur, h.thread, State.me]

theorem State.setsKept_foldl {α : Type} {f : State → α → State} (hf : ∀ (s : State) (a : α), s.SetsKept (f s a))
    (s : State) (l : List α) : s.SetsKept (l.foldl f s) :=
  List.foldlRecOn (motive := fun t => s.SetsKept t) _ _ (.refl s) (fun t h a _ => h.trans (hf t a))

theorem State.Reslices.setsKept {s t : State} (h : s.Reslices t) : s.SetsKept t := by
  obtain ⟨m, l, w, rfl⟩ := h
  exact ⟨rfl, rfl⟩

theorem State.setsKept_postOnce (s : State) (i : Instr) : s.SetsKept (s.postOnce i) := ⟨by simp, by simp⟩

theorem Thread.SameRegs.refl (t : Thread) : t.SameRegs t :=
  ⟨rfl, rfl, rfl, rfl, ⟨rfl, rfl, rfl, rfl, rfl, rfl, rfl, rfl, rfl, rfl, rfl, rfl, rfl, rfl, rfl, rfl, rfl, rfl, rfl⟩, rfl⟩

theorem Thread.sameRegs_next (t : Thread) : t.SameRegs t.next := by
  constructor <;> simp

/-- A word that completes and touches no thread set keeps the registers. -/
theorem State.SetsKept.sameRegs_advance {s t : State} (h : s.SetsKept t) : s.me.SameRegs t.advance.me := by
  rw [State.me_advance, h.me]
  exact s.me.sameRegs_next

/-! ## Memory -/

theorem State.memoryKept_advance (s : State) : s.MemoryKept s.advance := ⟨rfl, rfl, rfl, rfl, rfl⟩

/-- Cores that keep their scratch keep memory. -/
theorem State.sameMemory_of_scratch {s t : State} (hm : t.mem = s.mem) (hl : t.lines = s.lines) (hh : t.hub = s.hub)
    (hf : t.fns = s.fns) (hs : ∀ c k, (t.core c k).scratch = (s.core c k).scratch) : s.SameMemory t .nowhere 0 where
  device p _ := State.byteAt_congr hm hl hh p
  scratch c k a _ := by rw [hs]
  sram f a _ _ := by simp only [State.fn, hf]
  remote q a _ := by rw [hh]

/-! ## Translations (R374) -/

theorem NMap.find?_map_keyed {α β : Type} (m : NMap α) (f : Nat → α → β) (n : Nat) :
    NMap.find? (m.map (fun e => (e.1, f e.1 e.2))) n = (NMap.find? m n).map (f n) := by
  induction m with
  | nil => rfl
  | cons e m ih =>
    rw [List.map_cons, NMap.find?, NMap.find?, ih]
    split
    · next h => rw [h]; rfl
    · rfl

/-- A core without the translations that satisfy a condition. -/
def CoreUnit.without (u : CoreUnit) (p : TlbEntry → Bool) : CoreUnit := { u with tlb := u.tlb.filter (fun e => !p e) }

/-- A cluster's caches without the translations that satisfy a condition. -/
def Cluster.without (u : Cluster) (p : TlbEntry → Bool) : Cluster :=
  { u with l2tlb := u.l2tlb.filter (fun e => !p e), copyTlb := u.copyTlb.filter (fun e => !p e),
           fillTlb := u.fillTlb.filter (fun e => !p e), drainTlb := u.drainTlb.filter (fun e => !p e),
           relayTlb := u.relayTlb.filter (fun e => !p e) }

section
variable (s : State) (p : TlbEntry → Bool) (cl : Nat → Bool)

theorem State.dropTlb_eq : s.dropTlb p cl =
    { s with cores := s.cores.map (fun c => (c.1, if cl (c.1 / 16) then c.2.without p else c.2)),
             clusters := s.clusters.map (fun c => (c.1, if cl c.1 then c.2.without p else c.2)) } := by
  have hpair {α : Type} (b : Bool) (c : Nat × α) (f : α → α) :
      (if b then (c.1, f c.2) else c) = (c.1, if b then f c.2 else c.2) := by
    cases b <;> rfl
  calc s.dropTlb p cl
    _ = { s with cores := s.cores.map (fun c => if cl (c.1 / 16) then (c.1, c.2.without p) else c),
                 clusters := s.clusters.map (fun c => if cl c.1 then (c.1, c.2.without p) else c) } := rfl
    _ = _ := by simp only [hpair _ _ (CoreUnit.without · p), hpair _ _ (Cluster.without · p)]

theorem State.core_dropTlb (c k : Nat) : (s.dropTlb p cl).core c k =
    if cl (coreKey c k / 16) then (s.core c k).without p else s.core c k := by
  rw [State.dropTlb_eq, State.core, State.core, NMap.get, NMap.get,
    NMap.find?_map_keyed (f := fun n u => if cl (n / 16) then CoreUnit.without u p else u)]
  cases NMap.find? s.cores (coreKey c k) with
  | some u => rfl
  | none => exact (ite_self (c := cl (coreKey c k / 16) = true) CoreUnit.reset).symm

theorem State.cluster_dropTlb (c : Nat) : (s.dropTlb p cl).cluster c =
    if cl c then (s.cluster c).without p else s.cluster c := by
  rw [State.dropTlb_eq, State.cluster, State.cluster, NMap.get, NMap.get,
    NMap.find?_map_keyed (f := fun n u => if cl n then Cluster.without u p else u)]
  cases NMap.find? s.clusters c with
  | some u => rfl
  | none => exact (ite_self (c := cl c = true) Cluster.reset).symm

theorem State.setsKept_dropTlb : s.SetsKept (s.dropTlb p cl) := ⟨rfl, rfl⟩

theorem State.sameMemory_dropTlb : s.SameMemory (s.dropTlb p cl) .nowhere 0 := by
  refine State.sameMemory_of_scratch rfl rfl rfl rfl fun c k => ?_
  rw [State.core_dropTlb]
  split <;> rfl

end

end Sys2Proof.Machine
end

section
/-! `sret`, `yield`, `halt` and `tlbinv` (R122 to R125). -/
namespace Sys2Proof.Machine

theorem exec_sret (s : State) : exec .sret s = execSret s := rfl
theorem exec_halt (s : State) : exec .halt s = execHalt s := rfl

/-! ## sret (R124) -/

section
variable {s : State}

theorem Thread.mayReturn_iff {t : Thread} :
    (t.mode || (t.intrap && !t.pmode)) = true ↔ t.mode = true ∨ (t.intrap = true ∧ t.pmode = false) := by
  simp only [Bool.or_eq_true, Bool.and_eq_true, Bool.not_eq_true']

theorem exec_sret_priv (h : ¬ (s.me.mode = true ∨ (s.me.intrap = true ∧ s.me.pmode = false))) :
    exec .sret s = s.takeTrap causePriv 0x02F2 := by
  have hd : (!(s.me.mode || (s.me.intrap && !s.me.pmode))) = true := by
    rw [Bool.not_eq_true', ← Bool.not_eq_true, Thread.mayReturn_iff]
    exact h
  rw [exec_sret]
  refine outcome_trap ?_
  simp only [M.bind_run, readS_run, hd, trapIf_true]
  rfl

variable (h : s.me.mode = true ∨ (s.me.intrap = true ∧ s.me.pmode = false))
include h

theorem exec_sret_misalign (ht : s.me.tpc.toNat % 8 ≠ 0) : exec .sret s = s.takeTrap causeMisalign s.me.tpc := by
  have hd : (!(s.me.mode || (s.me.intrap && !s.me.pmode))) = false := by
    rw [Bool.not_eq_false', Thread.mayReturn_iff]
    exact h
  have ha : (Word.bits s.me.tpc 2 0 != 0) = true := by simpa [bits_low_three] using ht
  rw [exec_sret]
  refine outcome_trap ?_
  simp only [M.bind_run, readS_run, hd, trapIf_false, ha, trapIf_true]

variable (ht : s.me.tpc.toNat % 8 = 0)
include ht

theorem exec_sret_access (hs : 2 ^ 49 ≤ s.me.tpc.toNat) : exec .sret s = s.takeTrap causeAccess s.me.tpc := by
  have hd : (!(s.me.mode || (s.me.intrap && !s.me.pmode))) = false := by
    rw [Bool.not_eq_false', Thread.mayReturn_iff]
    exact h
  have ha : (Word.bits s.me.tpc 2 0 != 0) = false := by simpa [bits_low_three] using ht
  have hx : decide (2 ^ 49 ≤ s.me.tpc.toNat) = true := by simpa using hs
  rw [exec_sret]
  refine outcome_trap ?_
  simp only [M.bind_run, readS_run, hd, trapIf_false, ha, hx, trapIf_true]

theorem exec_sret_returns (hs : s.me.tpc.toNat < 2 ^ 49) : exec .sret s = .next (s.updMe Thread.trapReturn) := by
  have hd : (!(s.me.mode || (s.me.intrap && !s.me.pmode))) = false := by
    rw [Bool.not_eq_false', Thread.mayReturn_iff]
    exact h
  have ha : (Word.bits s.me.tpc 2 0 != 0) = false := by simpa [bits_low_three] using ht
  have hx : decide (2 ^ 49 ≤ s.me.tpc.toNat) = false := by simpa using hs
  rw [exec_sret]
  refine outcome_ok ?_
  simp only [M.bind_run, readS_run, hd, trapIf_false, ha, hx, updS_run]

end

/-! ## halt (R123, R152, R309) -/

theorem Counts.any_get {c : Counts} :
    ([WClass.ld, .st, .cp, .tl, .ms].any (fun k => c.get k != 0)) = false ↔ c = Counts.zero := by
  obtain ⟨ld, st, cp, tl, ms⟩ := c
  simp [Counts.get, Counts.zero]

@[simp] theorem Thread.next_wait (t : Thread) : t.next.wait = none := by
  unfold Thread.next
  dsimp only
  split
  · rfl
  · split
    · rfl
    · split <;> rfl

/-- A set's update that reaches its chain alone. -/
def Thread.withChain (t : Thread) (c : Chain) : Thread := { t with chain := c }

theorem State.park_chain (s : State) (t : TsId) :
    (s.park t).cur = s.cur ∧ ∃ c, (s.park t).thread t = (s.thread t).withChain c := by
  have hsave (c : Chain) : s.SetsKept (if c.state = .live then s.updCluster t.cluster (fun u =>
      u.writeBuf .cbuf (parkSlot t) (Block.bytes (s.cluster t.cluster).array.block)) else s) := by
    split
    · exact ⟨rfl, rfl⟩
    · exact .refl s
  unfold State.park
  dsimp only
  split
  · next c _ => exact ⟨(hsave c).cur, (s.thread t).chain, (hsave c).thread t⟩
  · exact ⟨(hsave _).cur, _, by rw [State.thread_updThread_same, (hsave _).thread]; rfl⟩

/-- The leash freed by its holder. -/
theorem State.freeLeash_chain {s : State} {t : TsId} (h : s.isHolder t = true) :
    (s.freeLeash t.cluster).cur = s.cur ∧ ∃ c, (s.freeLeash t.cluster).thread t = (s.thread t).withChain c := by
  have hh : (s.cluster t.cluster).array.holder = some t := by
    simp only [State.isHolder, Bool.and_eq_true, beq_iff_eq] at h
    exact h.1
  obtain ⟨hcur, c, hc⟩ := s.park_chain t
  have hposted := State.setsKept_postOnce ((s.park t).updCluster t.cluster (fun u =>
    { u with array := { u.array with holder := none, holderAct := none, orphan := none } })) (.leashGrant t.cluster)
  unfold State.freeLeash
  rw [hh]
  exact ⟨hposted.cur.trans hcur, c, (hposted.thread t).trans hc⟩

theorem State.closeChain_chain (s : State) (t : TsId) :
    (s.closeChain t).cur = s.cur ∧ ∃ c, c.state = .none ∧ (s.closeChain t).thread t = (s.thread t).withChain c := by
  have hleash : (if s.isHolder t then s.freeLeash t.cluster else s).cur = s.cur ∧
      ∃ c, (if s.isHolder t then s.freeLeash t.cluster else s).thread t = (s.thread t).withChain c := by
    split
    · next h => exact State.freeLeash_chain h
    · exact ⟨rfl, (s.thread t).chain, rfl⟩
  obtain ⟨hcur, c, hc⟩ := hleash
  unfold State.closeChain
  exact ⟨hcur, _, rfl, by rw [State.thread_updThread_same, hc]; rfl⟩

theorem State.setsKept_releaseClause (s : State) (c : Nat) (h : ClauseHolder) : s.SetsKept (s.releaseClause c h) := by
  unfold State.releaseClause State.freeClause State.updClause
  split
  · exact ⟨rfl, rfl⟩
  · exact .refl s

/-- Thread sets of one key wait for the same. -/
theorem State.atBar_of_key {s : State} {t u : TsId} (h : TsId.key t = TsId.key u) : s.atBar t = s.atBar u := by
  have hw : (s.thread t).wait = (s.thread u).wait := by
    simp only [State.thread, NMap.get, h]
    cases NMap.find? s.threads (TsId.key u) with
    | some th => rfl
    | none => cases isFirmware t <;> cases isFirmware u <;> rfl
  rw [State.atBar, State.atBar, hw]

/-- The barrier lets those pass who wait at it, and no one else. -/
theorem State.barCheck_other {s : State} {t : TsId} (h : s.atBar t = false) (x : Run) :
    (s.barCheck x).cur = s.cur ∧ (s.barCheck x).thread t = s.thread t := by
  unfold State.barCheck State.barRelease
  split
  · refine List.foldlRecOn (motive := fun (v : State) => v.cur = s.cur ∧ v.thread t = s.thread t) _ _ ⟨rfl, rfl⟩ ?_
    rintro v ⟨hcur, hv⟩ u hu
    have hne : TsId.key t ≠ TsId.key u := fun hk => by
      rw [State.atBar_of_key hk, (List.mem_filter.mp hu).2] at h
      cases h
    refine ⟨hcur, ?_⟩
    rw [State.edge, State.advanceTime, State.thread_updThread_ne _ _ _ _ hne, State.thread_updThread_ne _ _ _ _ hne, hv]
  · exact ⟨rfl, rfl⟩

/-- A thread set that has halted. -/
def Thread.halts (t : Thread) : Thread := { t.next with status := .halted }

/-- What `halt` leaves of a GANG thread set's state. -/
def State.halts (s : State) : State :=
  let u := ((s.advance.updMe (fun th => { th with status := .halted })).closeChain s.cur).releaseClause
    s.cur.cluster (.thread s.cur)
  match u.myRun? with
  | some x => u.barCheck x
  | none => u

theorem State.me_halts (s : State) : ∃ c, c.state = .none ∧ s.halts.me = s.me.halts.withChain c := by
  have hstart : (s.advance.updMe (fun th => { th with status := .halted })).thread s.cur = s.me.halts := by
    have hme := (s.advance).me_updMe (fun th => { th with status := .halted })
    rw [State.me_advance] at hme
    exact hme
  obtain ⟨hcur, c, hc, hchain⟩ := (s.advance.updMe (fun th => { th with status := .halted })).closeChain_chain s.cur
  have hclause := ((s.advance.updMe (fun th => { th with status := .halted })).closeChain s.cur).setsKept_releaseClause
    s.cur.cluster (.thread s.cur)
  rw [hstart] at hchain
  refine ⟨c, hc, ?_⟩
  unfold State.halts
  dsimp only
  generalize (((s.advance.updMe (fun th => { th with status := .halted })).closeChain s.cur).releaseClause
    s.cur.cluster (.thread s.cur)) = u at *
  have hucur : u.cur = s.cur := hclause.cur.trans hcur
  have hu : u.thread s.cur = s.me.halts.withChain c := (hclause.thread _).trans hchain
  have hbar : u.atBar s.cur = false := by
    rw [State.atBar, hu, Thread.withChain, Thread.halts, Thread.next_wait]
    rfl
  split
  · next x _ =>
    obtain ⟨hxcur, hx⟩ := State.barCheck_other hbar x
    rw [State.me, hxcur, hucur, hx, hu]
  · rw [State.me, hucur, hu]

section
variable {s : State}

theorem exec_halt_firmware (hf : isFirmware s.cur = true) :
    exec .halt s = .next (s.advance.updMe (fun t => { t with status := .halted })) := by
  have h : s.inFirmware = true := hf
  rw [exec_halt]
  refine outcome_ok ?_
  simp only [M.bind_run, readS_run, id_eq, h, if_true, updS_run]

variable (hg : s.isGang = true)
include hg

theorem State.inFirmware_of_isGang : s.inFirmware = false := by
  simp only [State.isGang, Bool.and_eq_true, Bool.not_eq_true'] at hg
  exact hg.1

theorem exec_halt_gang (hc : s.me.cnt = Counts.zero) (hp : s.me.pend = []) : exec .halt s = .next s.halts := by
  have hnone : latePendM (fun _ => true) s = .ok ((), s) := by
    simp [latePendM, hp, firstPend]
  rw [exec_halt]
  refine outcome_ok ?_
  simp only [M.bind_run, readS_run, id_eq, State.inFirmware_of_isGang hg, Bool.false_eq_true, if_false, hg, privUnless_true,
    Counts.any_get.mpr hc, holdIf_false, hnone, updS_run]
  rfl

theorem exec_halt_waits (hc : s.me.cnt ≠ Counts.zero) : exec .halt s = .next s := by
  have hany : ([WClass.ld, .st, .cp, .tl, .ms].any (fun k => s.me.cnt.get k != 0)) = true := by
    rw [← Bool.not_eq_false, Counts.any_get]
    exact hc
  rw [exec_halt, execHalt, M.outcome]
  simp only [M.bind_run, readS_run, id_eq, State.inFirmware_of_isGang hg, Bool.false_eq_true, if_false, hg, privUnless_true,
    hany, holdIf_true]

end

/-! ## yield (R122) -/

theorem exec_yield (s : State) : exec .yield s = .next (if s.isUser then s.updMyCore (fun u =>
    { u with yielded := u.yielded.filter (·.1 != s.cur.set) ++ [(s.cur.set, [])] }) else s).advance := rfl

/-! ## tlbinv (R125) -/

theorem State.core_updMyCore (s : State) (f : CoreUnit → CoreUnit) (c k : Nat) : (s.updMyCore f).core c k =
    if coreKey c k = coreKey s.cur.cluster s.cur.core then f (s.core c k) else s.core c k := by
  change (s.updCore s.cur.cluster s.cur.core f).core c k = _
  split
  · next h =>
    rw [State.core, State.core, h]
    exact State.core_updCore_same ..
  · next h => exact State.core_updCore_ne _ _ _ _ _ _ h

/-- An update of the issuing core that keeps its scratch. -/
theorem State.sameMemory_updMyCore (s : State) {f : CoreUnit → CoreUnit}
    (hf : ∀ u, (f u).scratch = u.scratch := by exact fun _ => rfl) : s.SameMemory (s.updMyCore f) .nowhere 0 := by
  refine State.sameMemory_of_scratch rfl rfl rfl rfl fun c k => ?_
  rw [State.core_updMyCore]
  split
  · exact hf _
  · rfl

/-- An entry that a `tlbinv` names. -/
def State.entryGone (s : State) (va : Word) (all : Bool) (e : TlbEntry) : Bool :=
  e.vf == s.vfOf s.cur && (all || va.toNat / 2 ^ e.bits == e.va / 2 ^ e.bits)

/-- The entries removed from the issuing core, before those of the clusters within reach. -/
def State.ownWithout (s : State) (p : TlbEntry → Bool) : State :=
  if s.inFirmware then s else s.updMyCore (·.without p)

theorem tlbReach_eq (s : State) (reach : BitVec 2) (c : Nat) : tlbReach s.cur.cluster reach c =
    ((reach == 1 && c == s.cur.cluster) || (reach == 2 && !isFirmware s.cur && nodeDie c == nodeDie s.cur.cluster) ||
      reach == 3) := by
  have hreach : reach = 0 ∨ reach = 1 ∨ reach = 2 ∨ reach = 3 := by revert reach; decide
  rcases hreach with rfl | rfl | rfl | rfl
  · rfl
  · exact (Bool.or_false (c == s.cur.cluster)).symm.trans (Bool.or_false _).symm
  · exact (Bool.or_false (!isFirmware s.cur && nodeDie c == nodeDie s.cur.cluster)).symm
  · exact (Bool.or_true _).symm

section
variable (s : State) (va : Word) (all : Bool) (reach : BitVec 2)

theorem State.invalidate_eq : s.invalidate va all reach =
    (s.ownWithout (s.entryGone va all)).dropTlb (s.entryGone va all) (tlbReach s.cur.cluster reach) := by
  have hgone : (fun e : TlbEntry => e.vf == s.vfOf s.cur && (all || e.covers (s.vfOf s.cur) va.toNat)) = s.entryGone va all := by
    funext e
    unfold TlbEntry.covers State.entryGone
    cases e.vf == s.vfOf s.cur <;> rfl
  rw [← hgone]
  unfold State.invalidate State.ownWithout
  cases s.inFirmware <;> rfl

variable (p : TlbEntry → Bool)

theorem State.core_ownWithout (c k : Nat) : (s.ownWithout p).core c k =
    if isFirmware s.cur = false ∧ coreKey c k = coreKey s.cur.cluster s.cur.core then (s.core c k).without p
    else s.core c k := by
  unfold State.ownWithout State.inFirmware
  split
  · next h => simp [h]
  · next h => simp [h, State.core_updMyCore]

theorem State.setsKept_ownWithout : s.SetsKept (s.ownWithout p) := by
  unfold State.ownWithout
  split
  · exact .refl s
  · exact ⟨rfl, rfl⟩

theorem State.cluster_ownWithout (c : Nat) : (s.ownWithout p).cluster c = s.cluster c := by
  unfold State.ownWithout
  split <;> rfl

theorem State.sameMemory_ownWithout : s.SameMemory (s.ownWithout p) .nowhere 0 := by
  unfold State.ownWithout
  split
  · exact (State.MemoryKept.refl s).sameMemory
  · exact s.sameMemory_updMyCore

theorem State.setsKept_invalidate : s.SetsKept (s.invalidate va all reach) := by
  rw [State.invalidate_eq]
  exact (s.setsKept_ownWithout _).trans (State.setsKept_dropTlb ..)

theorem State.sameMemory_invalidate : s.SameMemory (s.invalidate va all reach) .nowhere 0 := by
  rw [State.invalidate_eq]
  exact (s.sameMemory_ownWithout _).trans (State.sameMemory_dropTlb ..)

/-- A core within reach loses the entries named, and so does the core that issues. -/
theorem State.tlb_invalidate {c k : Nat} (hk : k < 16) : ((s.invalidate va all reach).core c k).tlb =
    if tlbReach s.cur.cluster reach c = true ∨
      (isFirmware s.cur = false ∧ coreKey c k = coreKey s.cur.cluster s.cur.core)
    then (s.core c k).tlb.filter (fun e => !s.entryGone va all e) else (s.core c k).tlb := by
  have hc : coreKey c k / 16 = c := by
    unfold coreKey
    omega
  rw [State.invalidate_eq, State.core_dropTlb, State.core_ownWithout, hc]
  by_cases hr : tlbReach s.cur.cluster reach c = true <;>
    by_cases ho : isFirmware s.cur = false ∧ coreKey c k = coreKey s.cur.cluster s.cur.core <;>
      simp [hr, ho, CoreUnit.without]

theorem State.cluster_invalidate (c : Nat) : (s.invalidate va all reach).cluster c =
    if tlbReach s.cur.cluster reach c then (s.cluster c).without (s.entryGone va all) else s.cluster c := by
  rw [State.invalidate_eq, State.cluster_dropTlb, State.cluster_ownWithout]

end

section
variable {a : XReg} {all : Bool} {reach : BitVec 2} {s : State} (hm : s.me.mode = true) (hr : s.readable [a])
include hm hr

theorem exec_tlbinv_waits (hst : s.me.cnt.st ≠ 0) : exec (.tlbinv a all reach) s = .next s := by
  rw [exec_tlbinv]
  refine word_hold (f := id) ?_
  simp [supervisorM, hm, xM_ok (State.readable_head hr), bne_iff_ne.mpr hst]

variable (hst : s.me.cnt.st = 0)
include hst

/-- It removes the entries and waits for the accesses made under them. -/
theorem exec_tlbinv_holds (hu : s.underEntries (s.me.getX a) all reach = true) :
    exec (.tlbinv a all reach) s = .next (s.invalidate (s.me.getX a) all reach) := by
  rw [exec_tlbinv]
  refine word_hold (f := fun s' => s'.invalidate (s.me.getX a) all reach) ?_
  simp [supervisorM, hm, xM_ok (State.readable_head hr), hst, hu]

theorem exec_tlbinv_completes (hu : s.underEntries (s.me.getX a) all reach = false) :
    exec (.tlbinv a all reach) s = .next (s.invalidate (s.me.getX a) all reach).advance := by
  rw [exec_tlbinv]
  refine word_ok ?_
  simp [supervisorM, hm, xM_ok (State.readable_head hr), hst, hu]

end

/-- What a `tlbinv` has done to the caches and left of the rest, whether it then completes or waits. -/
theorem State.invalidated_caches (s : State) (va : Word) (all : Bool) (reach : BitVec 2) :
    let gone := s.entryGone va all
    let reached := tlbReach s.cur.cluster reach
    let t := s.invalidate va all reach
    (∀ c k, k < 16 → (t.core c k).tlb =
      if reached c = true ∨ (isFirmware s.cur = false ∧ coreKey c k = coreKey s.cur.cluster s.cur.core)
      then (s.core c k).tlb.filter (fun e => !gone e) else (s.core c k).tlb) ∧
    (∀ c, (t.cluster c).l2tlb = (if reached c then (s.cluster c).l2tlb.filter (fun e => !gone e) else (s.cluster c).l2tlb) ∧
      ∀ p ∈ [Pipe.copy c, .fill c, .drain c, .relay c],
        t.pipeTlb p = if reached c then (s.pipeTlb p).filter (fun e => !gone e) else s.pipeTlb p) := by
  refine ⟨fun c k hk => s.tlb_invalidate va all reach hk, fun c => ?_⟩
  simp only [State.pipeTlb, State.cluster_invalidate, List.forall_mem_cons]
  cases tlbReach s.cur.cluster reach c <;> exact ⟨rfl, rfl, rfl, rfl, rfl, by simp⟩

/-- Settles O13: each of the four words has an equation for what it does, and the entries that a `tlbinv` names leave exactly
the caches within its reach. -/
theorem systemWordsResult : Obligations.SystemWordsResult := by
  unfold Obligations.SystemWordsResult
  refine ⟨fun s => ⟨fun h ht hs => ?_, exec_sret_priv, exec_sret_misalign, exec_sret_access⟩, exec_yield, fun s hf => ?_,
    fun s hg hc hp => ?_, fun s => exec_halt_waits, fun a all reach s hm hr => ?_⟩
  · refine ⟨_, exec_sret_returns h ht hs, ?_⟩
    rw [State.me_updMe]
    exact ⟨rfl, rfl, rfl, rfl, rfl, rfl, rfl, rfl, rfl⟩
  · refine ⟨_, exec_halt_firmware hf, ?_⟩
    rw [State.me_updMe, State.me_advance]
    exact ⟨rfl, s.me.next_pc⟩
  · obtain ⟨c, hnone, hme⟩ := s.me_halts
    refine ⟨_, exec_halt_gang hg hc hp, ?_⟩
    rw [hme]
    exact ⟨rfl, hnone, s.me.next_x⟩
  · refine ⟨exec_tlbinv_waits hm hr, fun hst => ?_⟩
    obtain ⟨hcores, hclusters⟩ := s.invalidated_caches (s.me.getX a) all reach
    have hsets := s.setsKept_invalidate (s.me.getX a) all reach
    have hmem := s.sameMemory_invalidate (s.me.getX a) all reach
    simp only [tlbReach_eq] at hcores hclusters
    cases hu : s.underEntries (s.me.getX a) all reach with
    | true =>
      refine ⟨_, exec_tlbinv_holds hm hr hst hu, hcores, hclusters, fun _ => ?_, hmem, ?_⟩
      · rw [hsets.me]
        rfl
      · rw [hsets.me]
        exact .refl _
    | false =>
      refine ⟨_, exec_tlbinv_completes hm hr hst hu, hcores, hclusters, fun hrep => ?_,
        hmem.trans (State.memoryKept_advance _).sameMemory, hsets.sameRegs_advance⟩
      rw [State.me_advance, hsets.me]
      exact s.me.next_pc hrep

end Sys2Proof.Machine
end

section
/-! What `putsr` writes (R115 to R118, R120): the value's check, and the registers of the thread set and of a function. -/
namespace Sys2Proof.Machine

/-! ## The value's check (R120) -/

/-- A number of n bits has no bit beyond them. -/
theorem reserved_of_lt {w : Word} {m : Nat} (n : Nat) (hm : m = 2 ^ n - 1) (hw : w.toNat < 2 ^ n) :
    w &&& ~~~BitVec.ofNat 64 m = 0 := by
  subst hm
  refine BitVec.eq_of_getLsbD_eq fun i hi => ?_
  by_cases hin : i < n
  · have hmask : (BitVec.ofNat 64 (2 ^ n - 1)).getLsbD i = true := by
      rw [BitVec.getLsbD_ofNat, Nat.testBit_two_pow_sub_one, decide_eq_true hin, decide_eq_true hi]
      rfl
    rw [BitVec.getLsbD_and, BitVec.getLsbD_not, hmask, Bool.not_true, Bool.and_false, Bool.and_false]
    exact BitVec.getLsbD_zero.symm
  · have hbit : w.getLsbD i = false :=
      Nat.testBit_lt_two_pow (hw.trans_le (Nat.pow_le_pow_right (by omega) (by omega)))
    rw [BitVec.getLsbD_and, hbit, Bool.false_and]
    exact BitVec.getLsbD_zero.symm

section
variable {w : Word}

/-- A register without reserved codes admits every number of its bits. -/
theorem srAdmits_of_lt {sr : SysReg} (n : Nat) (hw : w.toNat < 2 ^ n) (hm : srMask sr = 2 ^ n - 1 := by rfl)
    (hc : srAdmits sr w = ((w &&& ~~~BitVec.ofNat 64 (srMask sr)) == 0 && true) := by rfl) : srAdmits sr w = true := by
  rw [hc, reserved_of_lt n hm hw]
  rfl

theorem srAdmits_fpmode (hc : w.toNat % 8 ≤ 4) (hw : w.toNat < 16) : srAdmits .fpmode w = true :=
  Bool.and_eq_true_iff.mpr ⟨beq_iff_eq.mpr (reserved_of_lt 4 rfl hw), decide_eq_true (bits_low_three w ▸ hc)⟩

theorem srAdmits_lsplit (hw : w.toNat ≤ 8) : srAdmits .lsplit w = true :=
  Bool.and_eq_true_iff.mpr ⟨beq_iff_eq.mpr (reserved_of_lt 4 rfl (by omega)), decide_eq_true hw⟩

theorem srAdmits_vgroup (hw : w.toNat ≤ 2) : srAdmits .vgroup w = true :=
  Bool.and_eq_true_iff.mpr ⟨beq_iff_eq.mpr (reserved_of_lt 2 rfl (by omega)), decide_eq_true hw⟩

end

/-! ## Words that write a register -/

section
variable {sr : SysReg} {a : XReg} {s : State} (h : s.mayAccess sr true = true) (hr : s.readable [a])
  (hv : srAdmits sr (s.me.getX a) = true)
include h hr hv

theorem putM_ok : putM sr a s = .ok (s.me.getX a, s) := by
  simp [putM, accessM_ok h, xM_ok (State.readable_head hr), hv]

/-- A word that writes an admitted value does what its body says. -/
theorem word_putM_ok {f : Word → M Unit} {t : State} (hf : f (s.me.getX a) s = .ok ((), t)) :
    word (putM sr a >>= f) s = .next t.advance :=
  word_ok (by rw [M.bind_run, putM_ok h hr hv]; exact hf)

theorem word_putM_trap {f : Word → M Unit} {c : Nat} {v : Word} (hf : f (s.me.getX a) s = .error (.trap c v)) :
    word (putM sr a >>= f) s = s.takeTrap c v :=
  word_trap (by rw [M.bind_run, putM_ok h hr hv]; exact hf)

end

theorem exec_putsrTstat (a : XReg) (s : State) : exec (.putsrTstat a) s = execPutsrTstat a s := rfl
theorem exec_putsrFpflags (a : XReg) (s : State) : exec (.putsrFpflags a) s = execPutsrFpflags a s := rfl
theorem exec_cluflagsWrite (a : XReg) (s : State) : exec (.cluflagsWrite a) s = execCluflagsWrite a s := rfl
theorem exec_packflagsWrite (a : XReg) (s : State) : exec (.packflagsWrite a) s = execPackflagsWrite a s := rfl
theorem exec_lsplitWrite (a : XReg) (s : State) : exec (.lsplitWrite a) s = execLsplitWrite a s := rfl
theorem exec_vgroupWrite (a : XReg) (s : State) : exec (.vgroupWrite a) s = execVgroupWrite a s := rfl
theorem exec_hashmaskWrite (n : BitVec 4) (a : XReg) (s : State) : exec (.hashmaskWrite n a) s = execHashmaskWrite n a s := rfl
theorem exec_bktdataWrite (a : XReg) (s : State) : exec (.bktdataWrite a) s = execBktdataWrite a s := rfl
theorem exec_fwinWrite (n : BitVec 4) (a : XReg) (s : State) : exec (.fwinWrite n a) s = execFwinWrite n a s := rfl
theorem exec_ptrootWrite (a : XReg) (s : State) : exec (.ptrootWrite a) s = execPtrootWrite a s := rfl

theorem mayAccess_ur {s : State} {sr : SysReg} (hs : srAccess sr = .ur) (hm : s.me.mode = true) (write : Bool) :
    s.mayAccess sr write = true := by
  simp [State.mayAccess, hs, hm]

/-! ## The registers of the thread set and of a function -/

section
variable {a : XReg} {s : State} (hr : s.readable [a])
include hr

/-- The registers that any code writes. -/
theorem exec_putsr_user_regs : ∀ p ∈ ([
      (.tpc, fun w t => { t with tpc := w }), (.spillsp, fun w t => { t with spillsp := w }),
      (.spillbase, fun w t => { t with spillbase := w }), (.spilllim, fun w t => { t with spilllim := w }),
      (.waitlim, fun w t => { t with waitlim := w })] : List (SysReg × (Word → Thread → Thread))),
    srAdmits p.1 (s.me.getX a) = true → exec (.putsr p.1 a) s = .next (s.completed (p.2 (s.me.getX a))) := by
  simp only [List.forall_mem_cons, exec_putsr]
  exact ⟨fun hv => word_putM_ok rfl hr hv rfl, fun hv => word_putM_ok rfl hr hv rfl, fun hv => word_putM_ok rfl hr hv rfl,
    fun hv => word_putM_ok rfl hr hv rfl, fun hv => word_putM_ok rfl hr hv rfl, by simp⟩

theorem exec_putsr_trap_regs (hm : s.me.mode = true) : ∀ p ∈ ([
      (.tcause, fun w t => { t with tcause := w }), (.tval, fun w t => { t with tval := w })] :
      List (SysReg × (Word → Thread → Thread))),
    srAdmits p.1 (s.me.getX a) = true → exec (.putsr p.1 a) s = .next (s.completed (p.2 (s.me.getX a))) := by
  simp only [List.forall_mem_cons, exec_putsr]
  exact ⟨fun hv => word_putM_ok (mayAccess_ur rfl hm _) hr hv rfl, fun hv => word_putM_ok (mayAccess_ur rfl hm _) hr hv rfl,
    by simp⟩

theorem exec_putsr_fn_regs (hf : isFirmware s.cur = true) (hm : s.me.mode = true) : ∀ p ∈ ([
      (.bktidx, fun w f => { f with bktidx := w }), (.fwsel, fun w f => { f with fwsel := w })] :
      List (SysReg × (Word → Fn → Fn))),
    srAdmits p.1 (s.me.getX a) = true →
      exec (.putsr p.1 a) s = .next (s.updFn s.cur.core (p.2 (s.me.getX a))).advance := by
  simp only [List.forall_mem_cons, exec_putsr]
  exact ⟨fun hv => word_putM_ok (mayAccess_fw rfl hf hm _) hr hv rfl, fun hv => word_putM_ok (mayAccess_fw rfl hf hm _) hr hv rfl,
    by simp⟩

theorem exec_putsrTstat_writes (hm : s.me.mode = true) (hv : srAdmits .tstat (s.me.getX a) = true) :
    exec (.putsrTstat a) s = .next (s.completed (fun t =>
      { t with pmode := (s.me.getX a).getLsbD 1, intrap := (s.me.getX a).getLsbD 2 })) := by
  rw [exec_putsrTstat]
  exact word_putM_ok (mayAccess_ur rfl hm _) hr hv rfl

theorem exec_putsrFpmode_writes (hc : (s.me.getX a).toNat % 8 ≤ 4) (hw : (s.me.getX a).toNat < 16) :
    exec (.putsrFpmode a) s = .next (s.completed (fun t => { t with fpmode := s.me.getX a })) := by
  rw [exec_putsrFpmode]
  exact word_putM_ok rfl hr (srAdmits_fpmode hc hw) rfl

theorem exec_putsrFpflags_writes (hw : (s.me.getX a).toNat < 64) : exec (.putsrFpflags a) s =
    .next ((s.updMe (fun t => { t with fpflags := (s.me.getX a).setWidth 6 })).raise s.cur
      ((s.me.getX a).setWidth 6 &&& ~~~s.me.fpflags)).advance := by
  rw [exec_putsrFpflags]
  exact word_putM_ok rfl hr (srAdmits_of_lt 6 hw) rfl

end

end Sys2Proof.Machine
end

section
/-! The system registers that act on the issuing cluster, run or core (R180, R182, R281). -/
namespace Sys2Proof.Machine

/-! ## CLUFLAGS and PACKFLAGS (R280, R281) -/

/-- The cluster's flags, which are on their way to the pack's too. -/
def Cluster.withFlags (c : Cluster) (f : Flags) : Cluster := { c with cluflags := f, raised := c.raised ||| f }

/-- CLUFLAGS of the issuing cluster written. -/
def State.wroteCluflags (s : State) (f : Flags) : State := (s.updMyCluster (·.withFlags f)).postOnce .flagPropagate

/-- PACKFLAGS of a run written, once the flags on their way have reached it. -/
def State.wrotePackflags (s : State) (r : Nat) (f : Flags) : State :=
  (s.flushFlags r).updRun r (fun x => { x with packflags := f })

section
variable {a : XReg} {s : State} (hm : s.me.mode = true) (hr : s.readable [a])
include hm hr

theorem exec_cluflagsWrite_writes (hf : isFirmware s.cur = false) (hw : (s.me.getX a).toNat < 64) : exec (.cluflagsWrite a) s =
    .next (s.wroteCluflags ((s.me.getX a).setWidth 6)).advance := by
  have hfirm : s.inFirmware = false := hf
  rw [exec_cluflagsWrite]
  refine word_putM_ok (mayAccess_sup rfl hm _) hr (srAdmits_of_lt 6 hw) ?_
  rw [updS_run, hfirm]
  rfl

theorem exec_packflagsWrite_writes {r : Nat} (hrun : s.me.run = some r) (hw : (s.me.getX a).toNat < 64) :
    exec (.packflagsWrite a) s = .next (s.wrotePackflags r ((s.me.getX a).setWidth 6)).advance := by
  rw [exec_packflagsWrite]
  refine word_putM_ok (mayAccess_sup rfl hm _) hr (srAdmits_of_lt 6 hw) ?_
  rw [updS_run, hrun]
  rfl

end

theorem State.setsKept_wroteCluflags (s : State) (f : Flags) : s.SetsKept (s.wroteCluflags f) := by
  have hcluster : s.SetsKept (s.updMyCluster (·.withFlags f)) := ⟨rfl, rfl⟩
  exact hcluster.trans (State.setsKept_postOnce ..)

theorem State.cluflags_wroteCluflags (s : State) (f : Flags) : (s.wroteCluflags f).myCluster.cluflags = f := by
  rw [State.myCluster, (s.setsKept_wroteCluflags f).cur, State.wroteCluflags, State.cluster_postOnce, State.updMyCluster,
    State.cluster_updCluster_same]
  rfl

/-- The run whose flags are gathered stays a run, and the thread sets stay. -/
theorem State.flushFlags_run {s : State} {r : Nat} {x : Run} (hx : s.run? r = some x) :
    s.SetsKept (s.flushFlags r) ∧ ∃ y, (s.flushFlags r).run? r = some y := by
  unfold State.flushFlags
  rw [hx]
  dsimp only
  split
  · refine List.foldlRecOn (motive := fun (t : State) => s.SetsKept t ∧ ∃ y, t.run? r = some y) _ _
      ⟨⟨rfl, rfl⟩, _, s.run?_setRun_same r _⟩ ?_
    rintro t ⟨hsets, hrun⟩ c -
    exact ⟨hsets.trans ⟨rfl, rfl⟩, hrun⟩
  · exact ⟨.refl s, x, hx⟩

theorem State.setsKept_updRun (s : State) (r : Nat) (f : Run → Run) : s.SetsKept (s.updRun r f) := by
  unfold State.updRun
  split
  · exact ⟨rfl, rfl⟩
  · exact .refl s

theorem State.wrotePackflags_run {s : State} {r : Nat} {x : Run} (hx : s.run? r = some x) (f : Flags) :
    s.SetsKept (s.wrotePackflags r f) ∧ ∃ y, (s.wrotePackflags r f).run? r = some y ∧ y.packflags = f := by
  obtain ⟨hsets, y, hy⟩ := State.flushFlags_run hx
  refine ⟨hsets.trans (State.setsKept_updRun ..), { y with packflags := f }, ?_, rfl⟩
  rw [State.wrotePackflags, State.run?_updRun_same, hy]
  rfl

/-! ## LSPLIT (R180) -/

/-- What is read of the bytes whose addresses satisfy a condition. -/
theorem ByteMap.read_filter (m : ByteMap) (p : Nat → Bool) (n : Nat) :
    ByteMap.read (m.filter (fun b => p b.1)) n = if p n then ByteMap.read m n else 0 := by
  induction m with
  | nil => simp
  | cons b m ih =>
    by_cases hn : n = b.1
    · subst hn
      by_cases hp : p b.1 = true
      · simp [hp, ByteMap.read]
      · simpa [hp] using ih
    · by_cases hp : p b.1 = true
      · simpa [hp, ByteMap.read, hn] using ih
      · simpa [hp, ByteMap.read, hn] using ih

theorem State.myCore_updMyCore (s : State) (f : CoreUnit → CoreUnit) : (s.updMyCore f).myCore = f s.myCore :=
  s.core_updCore_same ..

theorem exec_lsplitWrite_writes {a : XReg} {s : State} (hf : isFirmware s.cur = false) (hm : s.me.mode = true)
    (hr : s.readable [a]) (hw : (s.me.getX a).toNat ≤ 8) (hb : s.scratchBusy s.cur.cluster s.cur.core = false) :
    exec (.lsplitWrite a) s = .next (s.updMyCore (·.resize (s.me.getX a).toNat)).advance := by
  have hfirm : s.inFirmware = false := hf
  rw [exec_lsplitWrite]
  refine word_putM_ok (mayAccess_sup rfl hm _) hr (srAdmits_lsplit hw) ?_
  simp [hfirm, hb]

/-! ## VGROUP (R182) -/

/-- A core without the victim copies that it holds. -/
def CoreUnit.noVictims (u : CoreUnit) : CoreUnit := { u with priv := u.priv.filter (!·.victim) }

/-- The victim copies in the issuing core's group dropped, when it has other members. -/
def State.dissolve (s : State) : State :=
  let g := s.victimGroup s.cur.cluster s.cur.core
  if g.length ≤ 1 then s else g.foldl (fun s j => s.updCore s.cur.cluster j CoreUnit.noVictims) s

/-- A core of a MODE. -/
def CoreUnit.withVgroup (u : CoreUnit) (n : Nat) : CoreUnit := { u with vgroup := n }

/-- VGROUP of the issuing core written; a group is dissolved when the MODE changes. -/
def State.regrouped (s : State) (n : Nat) : State :=
  if s.myCore.vgroup = n then s else s.dissolve.updMyCore (·.withVgroup n)

theorem exec_vgroupWrite_writes {a : XReg} {s : State} (hf : isFirmware s.cur = false) (hm : s.me.mode = true)
    (hr : s.readable [a]) (hw : (s.me.getX a).toNat ≤ 2) :
    exec (.vgroupWrite a) s = .next (s.regrouped (s.me.getX a).toNat).advance := by
  have hfirm : s.inFirmware = false := hf
  rw [exec_vgroupWrite]
  refine word_putM_ok (mayAccess_sup rfl hm _) hr (srAdmits_vgroup hw) ?_
  rw [updS_run, hfirm, Bool.false_or]
  simp only [beq_iff_eq]
  rfl

theorem vgroupCores_single {m k : Nat} (h : (vgroupCores m k).length ≤ 1) : vgroupCores m k = [k] := by
  unfold vgroupCores at h ⊢
  split at h
  · simp at h
  · next h1 =>
    split at h
    · simp at h
    · next h2 => rw [if_neg h1, if_neg h2]

/-- A group of one is the core itself (R182). -/
theorem State.victimGroup_single {s : State} {c k j : Nat} (h : (s.victimGroup c k).length ≤ 1) (hj : j ∈ s.victimGroup c k) :
    j = k := by
  unfold State.victimGroup at h hj
  dsimp only at h hj
  split at hj
  · next hall =>
    rw [if_pos hall] at h
    exact List.mem_singleton.mp (vgroupCores_single h ▸ hj)
  · exact List.mem_singleton.mp hj

/-- Updates of cores of the issuing cluster give every core of the list what each of them gives and keeps. -/
theorem State.core_foldl_updCore {f : CoreUnit → CoreUnit} {P : CoreUnit → Prop} (hf : ∀ u, P (f u)) {c : Nat} :
    ∀ (l : List Nat) (s : State) {j : Nat}, s.cur.cluster = c → (P (s.core c j) ∨ j ∈ l) →
      P ((l.foldl (fun s j => s.updCore s.cur.cluster j f) s).core c j)
  | [], s, j, _, h => h.resolve_right (by simp)
  | i :: l, s, j, hc, h => by
    refine State.core_foldl_updCore hf l (s.updCore s.cur.cluster i f) hc ?_
    rw [hc]
    by_cases hk : coreKey c j = coreKey c i
    · have hcore : (s.updCore c i f).core c j = f (s.core c i) := by
        rw [State.core, hk]
        exact s.core_updCore_same c i f
      exact .inl (hcore ▸ hf _)
    · rw [s.core_updCore_ne c i c j f hk]
      exact h.imp_right fun hj => (List.mem_cons.mp hj).resolve_left fun hji => hk (by rw [hji])

section
variable (s : State)

theorem State.setsKept_dissolve : s.SetsKept s.dissolve := by
  unfold State.dissolve
  dsimp only
  split
  · exact .refl s
  · exact State.setsKept_foldl (f := fun s j => s.updCore s.cur.cluster j CoreUnit.noVictims) (fun _ _ => ⟨rfl, rfl⟩) s _

theorem State.sameMemory_updCore {c k : Nat} {f : CoreUnit → CoreUnit}
    (hf : ∀ u, (f u).scratch = u.scratch := by exact fun _ => rfl) : s.SameMemory (s.updCore c k f) .nowhere 0 := by
  refine State.sameMemory_of_scratch rfl rfl rfl rfl fun d j => ?_
  by_cases h : coreKey d j = coreKey c k
  · rw [State.core, State.core, h]
    exact (congrArg CoreUnit.scratch (s.core_updCore_same c k f)).trans (hf _)
  · rw [s.core_updCore_ne _ _ _ _ _ h]

theorem State.sameMemory_dissolve : s.SameMemory s.dissolve .nowhere 0 := by
  unfold State.dissolve
  dsimp only
  split
  · exact (State.MemoryKept.refl s).sameMemory
  · exact List.foldlRecOn (motive := fun (t : State) => s.SameMemory t .nowhere 0) _ _ (State.MemoryKept.refl s).sameMemory
      fun t h j _ => h.trans t.sameMemory_updCore

/-- No member of the group but the core itself keeps a victim copy, even if the group has no other member. -/
theorem State.dissolve_victims {j : Nat} (hj : j ∈ s.victimGroup s.cur.cluster s.cur.core) (hne : j ≠ s.cur.core) :
    ∀ p ∈ (s.dissolve.core s.cur.cluster j).priv, p.victim = false := by
  unfold State.dissolve
  dsimp only
  split
  · next h => exact absurd (State.victimGroup_single h hj) hne
  · refine State.core_foldl_updCore (P := fun u => ∀ p ∈ u.priv, p.victim = false) (fun u p hp => ?_) _ s rfl (.inr hj)
    simpa using (List.mem_filter.mp hp).2

variable (n : Nat)

theorem State.vgroup_regrouped : (s.regrouped n).myCore.vgroup = n := by
  unfold State.regrouped
  split
  · assumption
  · rw [State.myCore_updMyCore]
    rfl

theorem State.setsKept_regrouped : s.SetsKept (s.regrouped n) := by
  unfold State.regrouped
  split
  · exact .refl s
  · exact s.setsKept_dissolve.trans ⟨rfl, rfl⟩

theorem State.sameMemory_regrouped : s.SameMemory (s.regrouped n) .nowhere 0 := by
  unfold State.regrouped
  split
  · exact (State.MemoryKept.refl s).sameMemory
  · exact s.sameMemory_dissolve.trans (State.sameMemory_updMyCore _)

theorem State.priv_regrouped (h : s.myCore.vgroup ≠ n) (c j : Nat) :
    ((s.regrouped n).core c j).priv = (s.dissolve.core c j).priv := by
  rw [State.regrouped, if_neg h, State.core_updMyCore]
  split <;> rfl

end

end Sys2Proof.Machine
end

section
/-! The system registers that decide where device memory lies (R187 to R190, R373, R374): the lines concerned are written back,
and the translations concerned are dropped. -/
namespace Sys2Proof.Machine

/-! ## Lines written back and dropped (R185) -/

theorem NMap.mem_erase {α : Type} {m : NMap α} {n : Nat} {e : Nat × α} : e ∈ NMap.erase m n ↔ e ∈ m ∧ e.1 ≠ n := by
  induction m with
  | nil => simp [NMap.erase]
  | cons x m ih =>
    unfold NMap.erase
    split
    · next h =>
      rw [ih, List.mem_cons]
      exact ⟨fun hm => ⟨.inr hm.1, hm.2⟩, fun hm => ⟨hm.1.resolve_left fun he => hm.2 (he ▸ h.symm), hm.2⟩⟩
    · next h =>
      rw [List.mem_cons, List.mem_cons, ih]
      refine ⟨?_, fun hm => hm.1.imp_right fun hmem => ⟨hmem, hm.2⟩⟩
      rintro (rfl | hm)
      · exact ⟨.inl rfl, Ne.symm h⟩
      · exact ⟨.inr hm.1, hm.2⟩

theorem NMap.ne_of_find?_none {α : Type} {m : NMap α} {n : Nat} (h : NMap.find? m n = none) : ∀ e ∈ m, e.1 ≠ n := by
  induction m with
  | nil => simp
  | cons x m ih =>
    rw [NMap.find?] at h
    split at h
    · cases h
    · next hx => exact List.forall_mem_cons.mpr ⟨Ne.symm hx, ih h⟩

theorem State.lines_foldl {α : Type} {f : State → α → State} (hf : ∀ (s : State) (a : α), (f s a).lines = s.lines)
    (s : State) (l : List α) : (l.foldl f s).lines = s.lines :=
  List.foldlRecOn (motive := fun (t : State) => t.lines = s.lines) _ _ rfl fun t h a _ => (hf t a).trans h

theorem State.lines_putSector (s : State) (pa : Nat) (c : Sector) : (s.putSector pa c).lines = s.lines := by
  unfold State.putSector
  split <;> rfl

theorem State.lines_encodeSector (s : State) (n : Nat) (f : FWindow) (pa : Nat) (bs : List Byte) :
    (s.encodeSector n f pa bs).lines = s.lines := by
  have hsat (c : Bool) (t : State) (ht : t.lines = s.lines) :
      (if c then t.setSatw (stackOf pa) n else t).lines = s.lines := by
    cases c <;> exact ht
  unfold State.encodeSector
  dsimp only
  split
  · rfl
  · split <;> exact hsat _ _ rfl

/-- Writing a line to memory leaves it in its slice. -/
theorem State.lines_putLine (s : State) (line : Nat) (l : SliceLine) : (s.putLine line l).lines = s.lines := by
  unfold State.putLine
  split
  · exact State.lines_foldl (fun t _ => t.lines_putSector _ _) s _
  · split
    · exact State.lines_foldl (fun t _ => t.lines_encodeSector _ _ _ _) s _
    · rfl

theorem State.mem_lines_writeBack {s : State} {line : Nat} {l : Nat × SliceLine} (h : l ∈ (s.writeBack line).lines) :
    l ∈ s.lines ∧ l.1 ≠ line := by
  unfold State.writeBack at h
  split at h
  · next hnone => exact ⟨h, NMap.ne_of_find?_none hnone l h⟩
  · rw [← s.lines_putLine line]
    exact NMap.mem_erase.mp h

theorem State.mem_lines_foldl_writeBack {l : Nat × SliceLine} : ∀ (q : List (Nat × SliceLine)) {s : State},
    l ∈ (q.foldl (fun s l => s.writeBack l.1) s).lines → l ∈ s.lines ∧ ∀ e ∈ q, l.1 ≠ e.1
  | [], _, h => ⟨h, by simp⟩
  | e :: q, _, h => by
    obtain ⟨hback, hq⟩ := State.mem_lines_foldl_writeBack q h
    obtain ⟨hmem, he⟩ := State.mem_lines_writeBack hback
    exact ⟨hmem, List.forall_mem_cons.mpr ⟨he, hq⟩⟩

/-- No line that satisfies the condition is left. -/
theorem State.lines_writeBackAll {s : State} {p : Nat → SliceLine → Bool} :
    ∀ l ∈ (s.writeBackAll p).lines, p l.1 l.2 = false := by
  intro l hl
  obtain ⟨hmem, hne⟩ := State.mem_lines_foldl_writeBack _ hl
  rw [← Bool.not_eq_true]
  exact fun hp => hne l (List.mem_filter.mpr ⟨hmem, hp⟩) rfl

/-! ## Translations dropped (R374) -/

section
variable {s : State} {p : TlbEntry → Bool}

/-- No core keeps a translation that leaves every cache. -/
theorem State.cores_dropTlb : ∀ c ∈ (s.dropTlb p fun _ => true).cores, ∀ e ∈ c.2.tlb, p e = false := by
  rw [State.dropTlb_eq]
  intro c hc e he
  obtain ⟨u, -, rfl⟩ := List.mem_map.mp hc
  simpa using (List.mem_filter.mp he).2

theorem State.clusters_dropTlb : ∀ c ∈ (s.dropTlb p fun _ => true).clusters, ∀ e ∈ c.2.l2tlb, p e = false := by
  rw [State.dropTlb_eq]
  intro c hc e he
  obtain ⟨u, -, rfl⟩ := List.mem_map.mp hc
  simpa using (List.mem_filter.mp he).2

end

/-- A function's lines written back and dropped, and its translations dropped. -/
def State.cleared (s : State) (vf : Nat) : State := (s.writeBackAll (fun _ l => l.vf == vf)).dropVf vf

section
variable {s : State} {vf : Nat}

theorem State.lines_cleared : ∀ l ∈ (s.cleared vf).lines, l.2.vf ≠ vf :=
  fun l hl => beq_eq_false_iff_ne.mp (State.lines_writeBackAll (s := s) (p := fun _ l => l.vf == vf) l hl)

theorem State.cores_dropVf : ∀ c ∈ (s.dropVf vf).cores, ∀ e ∈ c.2.tlb, e.vf ≠ vf :=
  fun c hc e he => beq_eq_false_iff_ne.mp (State.cores_dropTlb (s := s) c hc e he)

theorem State.clusters_dropVf : ∀ c ∈ (s.dropVf vf).clusters, ∀ e ∈ c.2.l2tlb, e.vf ≠ vf :=
  fun c hc e he => beq_eq_false_iff_ne.mp (State.clusters_dropTlb (s := s) c hc e he)

end

/-! ## HASHMASK, BKTDATA, FWIN and PTROOT -/

/-- A mask of a function's hash. -/
def Fn.withMask (f : Fn) (i : Nat) (w : Word) : Fn := { f with hashmask := f.hashmask.setIfInBounds i w }

theorem Fn.mask_withMask (f : Fn) {i : Nat} (w : Word) (h : i < 14) : (f.withMask i w).hashmask[i]? = some w := by
  simp [Fn.withMask, h]

/-- The root of a function's tables. -/
def Fn.withRoot (f : Fn) (w : Word) : Fn := { f with ptroot := w }

/-- An entry of the bucket maps set. -/
def State.setBucket (s : State) (i v : Nat) : State := { s with hub := { s.hub with bktmap := NMap.set s.hub.bktmap i v } }

theorem State.bktEntry_setBucket (s : State) (i j v : Nat) : (s.setBucket (i * 1024 + j) v).hub.bktEntry i j = v :=
  NMap.get_set_same ..

theorem bktidx_window (w : Word) : Word.bits w 5 0 = w.toNat % 64 := by simp [Word.bits]

theorem bktidx_bucket (w : Word) : Word.bits w 15 6 = w.toNat / 64 % 1024 := by
  simp [Word.bits, Nat.shiftRight_eq_div_pow]

section
variable {a : XReg} {s : State} (hf : isFirmware s.cur = true) (hm : s.me.mode = true) (hr : s.readable [a])
include hf hm hr

theorem exec_hashmaskWrite_writes {n : BitVec 4} (hw : (s.me.getX a).toNat < 2 ^ 52) (hrel : s.hasReleased s.cur.core = false) :
    exec (.hashmaskWrite n a) s =
      .next ((s.cleared s.cur.core).updFn s.cur.core (·.withMask n.toNat (s.me.getX a))).advance := by
  rw [exec_hashmaskWrite]
  refine word_putM_ok (mayAccess_fw rfl hf hm _) hr (srAdmits_of_lt 52 hw) ?_
  simp only [M.bind_run, readS_run, id_eq, hrel, trapIf_false, updS_run]
  rfl

/-- A function with a released run keeps its masks (R189). -/
theorem exec_hashmaskWrite_access {n : BitVec 4} (hw : (s.me.getX a).toNat < 2 ^ 52) (hrel : s.hasReleased s.cur.core = true) :
    exec (.hashmaskWrite n a) s = s.takeTrap causeAccess (srNum (.hashmask n)) := by
  rw [exec_hashmaskWrite]
  refine word_putM_trap (mayAccess_fw rfl hf hm _) hr (srAdmits_of_lt 52 hw) ?_
  simp only [M.bind_run, readS_run, id_eq, hrel, trapIf_true]

theorem exec_ptrootWrite_writes (hv : srAdmits .ptroot (s.me.getX a) = true) (hrel : s.hasReleased s.cur.core = false) :
    exec (.ptrootWrite a) s =
      .next ((s.dropVf s.cur.core).updFn s.cur.core (·.withRoot (s.me.getX a))).advance := by
  rw [exec_ptrootWrite]
  refine word_putM_ok (mayAccess_fw rfl hf hm _) hr hv ?_
  simp only [M.bind_run, readS_run, id_eq, hrel, trapIf_false, updS_run]
  rfl

theorem exec_ptrootWrite_access (hv : srAdmits .ptroot (s.me.getX a) = true) (hrel : s.hasReleased s.cur.core = true) :
    exec (.ptrootWrite a) s = s.takeTrap causeAccess (srNum .ptroot) := by
  rw [exec_ptrootWrite]
  refine word_putM_trap (mayAccess_fw rfl hf hm _) hr hv ?_
  simp only [M.bind_run, readS_run, id_eq, hrel, trapIf_true]

theorem exec_bktdataWrite_writes (hw : (s.me.getX a).toNat < 2 ^ 16) (hl : (s.me.getX a).toNat < (s.hub.onNodes kindSlice).length)
    (hlive : s.hub.stateOf ⟨kindSlice, s.hub.sliceNode (s.me.getX a).toNat⟩ < 2) (hrel : s.hasReleased s.cur.core = false)
    (hb : s.linesBusy (fun f _ => f == s.cur.core) = false) :
    exec (.bktdataWrite a) s = .next ((s.cleared s.cur.core).setBucket ((s.fn s.cur.core).bktidx.toNat % 64 * 1024 +
      (s.fn s.cur.core).bktidx.toNat / 64 % 1024) (s.me.getX a).toNat).advance := by
  rw [← bktidx_window, ← bktidx_bucket]
  rw [exec_bktdataWrite]
  refine word_putM_ok (mayAccess_fw rfl hf hm _) hr (srAdmits_of_lt 16 hw) ?_
  simp only [M.bind_run, readS_run, id_eq, decide_eq_true hl, decide_eq_true hlive, Bool.and_self, Bool.not_true, hrel,
    Bool.false_and, trapIf_false, hb, holdIf_false, updS_run]
  rfl

end

/-- The lines of a window's ranges written back and dropped, with the copies of them and every translation (R190). -/
def State.clearedLines (s : State) (p : Nat → Bool) : State :=
  ((s.writeBackAll (fun line _ => p line)).dropPrivs p).dropTlb (fun _ => true) (fun _ => true)

/-- A window's value: SATW is cleared by writing 0, and not set. -/
def fwinValue (old w : Word) : Word := (w &&& ~~~field 63 1) ||| (w &&& old &&& field 63 1)

/-- A window set. -/
def State.setFwin (s : State) (i : Nat) (w : Word) : State :=
  { s with hub := { s.hub with fwin := NMap.set s.hub.fwin i (fwinValue (NMap.get s.hub.fwin i 0) w) } }

theorem getLsbD_satw {i : Nat} (h : i < 63) : (field 63 1).getLsbD i = false := by
  have hfield : field 63 1 = BitVec.twoPow 64 63 := by decide
  rw [hfield, BitVec.getLsbD_twoPow, decide_eq_false (show ¬ 63 = i by omega), Bool.and_false]

theorem fwinValue_below {old w : Word} {i : Nat} (h : i < 63) : (fwinValue old w).getLsbD i = w.getLsbD i := by
  rw [fwinValue, BitVec.getLsbD_or, BitVec.getLsbD_and, BitVec.getLsbD_and, BitVec.getLsbD_not, getLsbD_satw h,
    decide_eq_true (show i < 64 by omega), Bool.and_false, Bool.or_false]
  exact Bool.and_true _

theorem fwinValue_satw {old w : Word} (h : w.getLsbD 63 = false) : (fwinValue old w).getLsbD 63 = false := by
  unfold fwinValue
  rw [BitVec.getLsbD_or, BitVec.getLsbD_and, BitVec.getLsbD_and, BitVec.getLsbD_and, h]
  rfl

theorem Fn.stackSel_eq (f : Fn) : f.stackSel = 2 * (f.fwsel.toNat % 4) + f.fwsel.toNat / 4 % 2 := by
  simp [Fn.stackSel, Word.bits, Nat.shiftRight_eq_div_pow]

theorem exec_fwinWrite_writes {a : XReg} {n : BitVec 4} {s : State} (hf : isFirmware s.cur = true) (hm : s.me.mode = true)
    (hr : s.readable [a]) {k : Nat} (hk : (s.fn s.cur.core).stackSel = k) (hok : s.hub.fwinOk k n.toNat (s.me.getX a) = true)
    (hb : s.linesBusy (fun _ => s.fwinLines k n.toNat (s.me.getX a)) = false) :
    exec (.fwinWrite n a) s =
      .next ((s.clearedLines (s.fwinLines k n.toNat (s.me.getX a))).setFwin (fwinKey k n.toNat) (s.me.getX a)).advance := by
  subst hk
  rw [exec_fwinWrite]
  refine word_ok ?_
  simp only [M.bind_run, accessM_ok (mayAccess_fw (sr := .fwin n) rfl hf hm _), xM_ok (State.readable_head hr), readS_run, id_eq,
    hok, Bool.not_true, trapIf_false, hb, holdIf_false, updS_run]
  rfl

end Sys2Proof.Machine
end

section
/-! What `putsr` and the writes that act on a cluster, a core or a function leave (R115, R120, R180 to R190, R281, R373). -/
namespace Sys2Proof.Machine

theorem srNum_hashmask (n : BitVec 4) : srNum (.hashmask n) = BitVec.ofNat 64 (0x0400 + n.toNat) := by
  revert n
  decide

/-- Settles O15: each write is an equation for the state that it leaves, whose register is read back; what it drops is a
property of the state in which the lines were written back and the translations filtered. -/
theorem putsrResult : Obligations.PutsrResult := by
  unfold Obligations.PutsrResult
  refine ⟨⟨fun p hp a s hr => exec_putsr_user_regs hr p hp, fun p hp a s hm hr => exec_putsr_trap_regs hr hm p hp,
    fun p hp a s hf hm hr => exec_putsr_fn_regs hr hf hm p hp, fun a s hm hr => exec_putsrTstat_writes hr hm,
    fun a s hr => exec_putsrFpmode_writes hr, fun a s hr hw => ?_⟩,
    fun a s hf hm hr hw => ?_, fun a s x r hx hrun hm hr hw => ?_, fun a s hf hm hr hw hb => ?_, fun a s hf hm hr hw => ?_,
    fun n a s hf hm hn hr hw hrel => ?_, fun a s hf hm hr => ?_, fun n a s hf hm hr => ?_, fun a s hf hm hr hv hrel => ?_,
    fun a n s hf hm hr hrel _ => ⟨fun hv => ?_, fun hw => ?_⟩⟩
  · refine ⟨_, exec_putsrFpflags_writes hr hw, ?_⟩
    have hme : ((s.updMe (fun t => { t with fpflags := (s.me.getX a).setWidth 6 })).raise s.cur
        ((s.me.getX a).setWidth 6 &&& ~~~s.me.fpflags)).me = { s.me with fpflags := (s.me.getX a).setWidth 6 } := by
      rw [State.me, State.thread_congr (State.raise_threads ..), State.raise_cur]
      exact s.me_updMe _
    rw [State.me_advance, hme]
    exact ⟨Thread.next_fpflags _, Thread.next_x _⟩
  · exact ⟨_, exec_cluflagsWrite_writes hm hr hf hw, s.cluflags_wroteCluflags _, (s.setsKept_wroteCluflags _).sameRegs_advance⟩
  · obtain ⟨q, hq, hxq⟩ := hx.run
    obtain rfl : q = r := Option.some.inj (hq.symm.trans hrun)
    obtain ⟨hsets, y, hy, hflags⟩ := State.wrotePackflags_run hxq ((s.me.getX a).setWidth 6)
    exact ⟨_, y, exec_packflagsWrite_writes hm hr hrun hw, hy, hflags, hsets.sameRegs_advance⟩
  · refine ⟨_, exec_lsplitWrite_writes hf hm hr hw hb, ?_⟩
    have hcore : (s.updMyCore (·.resize (s.me.getX a).toNat)).advance.myCore = s.myCore.resize (s.me.getX a).toNat :=
      s.myCore_updMyCore (·.resize (s.me.getX a).toNat)
    have hsets : s.SetsKept (s.updMyCore (·.resize (s.me.getX a).toNat)) := ⟨rfl, rfl⟩
    rw [hcore]
    refine ⟨rfl, rfl, rfl, fun off => ?_, hsets.sameRegs_advance⟩
    simpa [CoreUnit.resize] using s.myCore.scratch.read_filter (fun b => decide (b < 32768 * (s.me.getX a).toNat)) off
  · refine ⟨_, exec_vgroupWrite_writes hf hm hr hw, s.vgroup_regrouped _, fun hne j hj hother p hp => ?_,
      (s.sameMemory_regrouped _).trans (State.memoryKept_advance _).sameMemory, (s.setsKept_regrouped _).sameRegs_advance⟩
    exact s.dissolve_victims hj hother p (s.priv_regrouped _ hne s.cur.cluster j ▸ hp)
  · have hfn := (s.cleared s.cur.core).fn_updFn_same s.cur.core (·.withMask n.toNat (s.me.getX a))
    exact ⟨_, exec_hashmaskWrite_writes hf hm hr hw hrel, (congrArg (·.hashmask[n.toNat]?) hfn).trans (Fn.mask_withMask _ _ hn),
      State.lines_cleared, State.cores_dropVf, State.clusters_dropVf⟩
  · intro w idx hw hl hlive hrel hb
    exact ⟨_, exec_bktdataWrite_writes hf hm hr hw hl hlive hrel hb, State.bktEntry_setBucket .., State.lines_cleared,
      State.cores_dropVf⟩
  · intro sel stack hok hb
    refine ⟨_, _, exec_fwinWrite_writes hf hm hr (Fn.stackSel_eq _) hok hb, NMap.find?_set_same .., fun i => fwinValue_below,
      fwinValue_satw, fun c hc => ?_, State.lines_writeBackAll (p := fun l _ => s.fwinLines stack n.toNat (s.me.getX a) l)⟩
    exact List.eq_nil_iff_forall_not_mem.mpr fun e he => Bool.noConfusion (State.cores_dropTlb c hc e he)
  · refine ⟨_, exec_ptrootWrite_writes hf hm hr hv hrel, ?_, State.cores_dropVf, ?_⟩
    · exact congrArg Fn.ptroot ((s.dropVf s.cur.core).fn_updFn_same s.cur.core (·.withRoot (s.me.getX a)))
    · exact ((State.sameMemory_dropTlb ..).trans (State.sameMemory_updFn _ _)).trans (State.memoryKept_advance _).sameMemory
  · exact exec_ptrootWrite_access hf hm hr hv hrel
  · exact srNum_hashmask n ▸ exec_hashmaskWrite_access hf hm hr hw hrel

end Sys2Proof.Machine
end

section
/-! The reaction instructions (R126 to R135): the context that they ask for, what an ending does to an activation and its thread
sets, what is recorded with an activation, and the submission of a run. -/
namespace Sys2Proof.Machine

/-! ## The context of a reaction word (R126) -/

/-- The context that `emit`, `arbrd` and `kscan` ask for: an activation, a helper of one, or a handler of a REACT run. -/
theorem State.InReaction.reactM {s : State} {k : ActKey} {a : Act} (h : s.InReaction k a) :
    Machine.reactM s.handlerReact s = .ok ((k, a), s) := by
  have hfw : s.inFirmware = false := h.onCluster
  have hctx : (!s.inFirmware && s.me.ctx != .gang && (s.me.ctx != .hand || s.handlerReact)) = true := by
    rw [hfw]
    rcases h.context with hc | hc | ⟨hc, hreact⟩
    · rw [hc]; rfl
    · rw [hc]; rfl
    · rw [hc, hreact]; rfl
  have hact : s.myAct? = some a := by rw [State.myAct?, h.key, Option.bind_some, h.record]
  simp only [Machine.reactM, M.bind_run, readS_run, id_eq, hctx, privUnless_true, h.key, hact, M.pure_run]

theorem exec_emit (v : VReg) (half : Bool) (s : State) : exec (.emit v half) s = execEmit v half s := rfl
theorem exec_done (s : State) : exec .done s = execDone s := rfl
theorem exec_abort (s : State) : exec .abort s = execAbort s := rfl
theorem exec_reject (s : State) : exec .reject s = execReject s := rfl
theorem exec_arbrd (d : XReg) (sel : BitVec 8) (s : State) : exec (.arbrd d sel) s = execArbrd d sel s := rfl
theorem exec_kscan (d x : XReg) (sel : BitVec 3) (s : State) : exec (.kscan d x sel) s = execKscan d x sel s := rfl
theorem exec_runq (a b : XReg) (s : State) : exec (.runq a b) s = execRunq a b s := rfl

/-! ## What is recorded with an activation (R128, R134, R390) -/

/-- A record of the commit stream changes nothing of an activation but its stream. -/
theorem State.stream_result {s : State} {k : ActKey} {a : Act} (hk : s.me.act = some k) (ha : s.act? k = some a) (ws : List Word) :
    (∃ st, (s.stream ws).act? k = some { a with stream := st }) ∧ s.MemoryKept (s.stream ws) ∧ s.SetsKept (s.stream ws) := by
  have hs : s.stream ws = s.setAct k (if a.partner.isSome then { a with stream := a.stream ++ [(s.order, ws)] } else a) := by
    simp only [State.stream, hk, State.streamFor, State.updAct_eq ha]
  rw [hs, State.act?_setAct_same]
  refine ⟨?_, s.memoryKept_setAct .., rfl, rfl⟩
  cases a.partner.isSome with
  | true => exact ⟨_, rfl⟩
  | false => exact ⟨a.stream, rfl⟩

/-- A word that changes its activation's record, and puts a record into its commit stream, leaves memory and registers. -/
theorem State.record_result {s : State} {k : ActKey} {a : Act} (hk : s.me.act = some k) (ha : s.act? k = some a) (f : Act → Act)
    (ws : List Word) : let t := ((s.updAct k f).stream ws).advance
    (∃ st, t.act? k = some { f a with stream := st }) ∧ s.SameMemory t .nowhere 0 ∧ s.me.SameRegs t.me := by
  intro t
  have hsets : s.SetsKept (s.setAct k (f a)) := ⟨rfl, rfl⟩
  have hu : s.updAct k f = s.setAct k (f a) := State.updAct_eq ha f
  obtain ⟨hst, hmem, hset⟩ := State.stream_result (hsets.me ▸ hk) (s.act?_setAct_same k (f a)) ws
  simp only [t, hu]
  exact ⟨hst, ((s.memoryKept_setAct ..).trans (hmem.trans (State.memoryKept_advance _))).sameMemory,
    (hsets.trans hset).sameRegs_advance⟩

/-! ## `emit` (R127, R128) -/

/-- The KIND of a tile is its low 16 bits (R22). -/
theorem kind_eq_zero_iff (tile : BitVec 256) : tile.extractLsb' 0 16 = 0#16 ↔ tile.toNat % 2 ^ 16 = 0 := by
  rw [← BitVec.toNat_inj, BitVec.extractLsb'_toNat]
  rfl

section
variable {s : State} {k : ActKey} {a : Act} (h : s.InReaction k a) (v : VReg) (half : Bool) {tile : BitVec 256}
  (htile : (s.me.getV v).extractLsb' (if half then 256 else 0) 256 = tile)
include h htile

/-- A tile of KIND 0 is no product. -/
theorem exec_emit_none (h0 : tile.toNat % 2 ^ 16 = 0) : exec (.emit v half) s = .next s.advance := by
  rw [exec_emit]
  refine word_ok ?_
  simp only [M.bind_run, h.reactM, vM_run, htile, (kind_eq_zero_iff tile).2 h0, if_true, M.pure_run]

theorem exec_emit_appends (h0 : tile.toNat % 2 ^ 16 ≠ 0) (hroom : a.products.length < 256) : exec (.emit v half) s =
    .next ((s.updAct k (fun b => { b with products := b.products ++ [(a.emitKey s.me, tile)] })).stream (productWords tile)).advance := by
  have hkind : ¬ tile.extractLsb' 0 16 = 0#16 := mt (kind_eq_zero_iff tile).1 h0
  have hfits : decide (256 ≤ a.products.length) = false := decide_eq_false (Nat.not_le.2 hroom)
  rw [exec_emit]
  refine word_ok ?_
  simp only [M.bind_run, h.reactM, vM_run, htile, hkind, if_false, hfits, trapIf_false, readS_run, updS_run]

/-- The 257th product traps (R127). -/
theorem exec_emit_full (h0 : tile.toNat % 2 ^ 16 ≠ 0) (hfull : 256 ≤ a.products.length) :
    exec (.emit v half) s = s.takeTrap causeFootprint productTval := by
  have hkind : ¬ tile.extractLsb' 0 16 = 0#16 := mt (kind_eq_zero_iff tile).1 h0
  have hfits : decide (256 ≤ a.products.length) = true := decide_eq_true hfull
  rw [exec_emit]
  refine word_trap ?_
  simp only [M.bind_run, h.reactM, vM_run, htile, hkind, if_false, hfits, trapIf_true]

end

/-! ## The endings (R36, R129) -/

/-- A thread set of an activation that ends. -/
def Thread.heldFor (k : ActKey) (th : Thread) : Thread :=
  if th.act = some k then { th with status := .held, rep := none, wait := none } else th

theorem Thread.act_heldFor (k : ActKey) (th : Thread) : (th.heldFor k).act = th.act := by
  unfold Thread.heldFor
  split <;> rfl

/-- The thread sets of an activation: its owner, and its helpers while a region is open. -/
def Act.sets (a : Act) : List TsId := a.owner :: (match a.fork with
  | some r => r.helpers
  | none => [])

def State.holdSets (s : State) (k : ActKey) (l : List TsId) : State := l.foldl (fun s t => s.updThread t (Thread.heldFor k)) s

theorem State.endAct_eq {s : State} {k : ActKey} {a : Act} (ha : s.act? k = some a) (f : Act → Act) :
    s.endAct k f = ((s.holdSets k a.sets).updAct k f).postOnce (.commit k) := by
  simp only [State.endAct, ha]
  rfl

theorem State.holdSets_acts (s : State) (k : ActKey) (l : List TsId) : (s.holdSets k l).acts = s.acts ∧ (s.holdSets k l).cur = s.cur :=
  List.foldlRecOn (motive := fun t : State => t.acts = s.acts ∧ t.cur = s.cur) _ _ ⟨rfl, rfl⟩ (fun _ h _ _ => h)

/-- A thread set of the activation, when it is listed, issues nothing more. -/
theorem State.status_holdSets {s : State} {k : ActKey} {l : List TsId} {u : TsId} (hu : u ∈ l) (hk : (s.thread u).act = some k) :
    ((s.holdSets k l).thread u).status = .held := by
  have hact (s : State) (t : TsId) (h : TsId.key u = TsId.key t) (hk : (s.thread u).act = some k) : (s.thread t).act = some k := by
    rw [State.thread_act_eq, ← h, ← State.thread_act_eq]
    exact hk
  have hheld (s : State) (t : TsId) (h : TsId.key u = TsId.key t) (hk : (s.thread u).act = some k) :
      ((s.updThread t (Thread.heldFor k)).thread u).status = .held := by
    rw [State.thread_updThread_of_key _ h, Thread.heldFor, if_pos (hact s t h hk)]
  refine foldl_establishes (f := fun s t => s.updThread t (Thread.heldFor k)) (I := fun s => (s.thread u).act = some k)
    (Q := fun t => TsId.key u = TsId.key t) (P := fun s => (s.thread u).status = .held) (fun s t hk => ?_)
    (fun s t hk h => hheld s t h hk) (fun s t hk h => ?_) l s hk (.inl ⟨u, hu, rfl⟩)
  · exact ((s.workKept_updThread t (Thread.act_heldFor k)).act u).trans hk
  · by_cases hkey : TsId.key u = TsId.key t
    · exact hheld s t hkey hk
    · rwa [State.thread_updThread_ne _ _ _ _ hkey]

/-- What the end of an activation makes of it: its record is changed as given, its commit step is due, and its owner issues
nothing more. -/
theorem State.endAct_result {s : State} {k : ActKey} {a : Act} (ha : s.act? k = some a) (f : Act → Act) :
    (s.endAct k f).act? k = some (f a) ∧ Instr.commit k ∈ (s.endAct k f).pending ∧
      (a.owner = s.cur → s.me.act = some k → (s.endAct k f).me.status = .held) ∧ s.SameMemory (s.endAct k f) .nowhere 0 := by
  obtain ⟨hacts, hcur⟩ := s.holdSets_acts k a.sets
  have hrec : (s.holdSets k a.sets).act? k = some a := (State.act?_congr hacts k).trans ha
  refine ⟨?_, ?_, fun ho hk => ?_, (s.endAct_keeps k f).1.sameMemory⟩
  · rw [State.endAct_eq ha, State.updAct_eq hrec, State.act?_congr (State.postOnce_acts ..), State.act?_setAct_same]
  · rw [State.endAct_eq ha]
    exact State.mem_pending_postOnce ..
  · have hsets : (s.holdSets k a.sets).SetsKept (s.endAct k f) := by
      rw [State.endAct_eq ha]
      constructor <;> simp
    have hme : (s.endAct k f).me = (s.holdSets k a.sets).thread s.cur := by rw [hsets.me, State.me, hcur]
    rw [hme]
    exact State.status_holdSets (ho ▸ List.mem_cons_self) hk

section
variable {s : State} {k : ActKey} {a : Act} (h : s.InBody k a)
include h

theorem exec_done_ends (hctx : s.me.ctx = .act) (hfork : a.fork = none) :
    exec .done s = .next (s.endAct k (fun a => { a with ending := some .done })) := by
  rw [exec_done]
  refine outcome_ok ?_
  simp only [M.bind_run, h.reactM, readS_run, hctx, hfork, beq_self_eq_true, Option.isNone_none, Bool.and_self, privUnless_true, updS_run]

theorem exec_abort_ends : exec .abort s = .next (s.endAct k (fun a => { a with ending := some .abort })) := by
  rw [exec_abort]
  refine outcome_ok ?_
  simp only [M.bind_run, h.reactM, updS_run]

theorem exec_reject_ends : exec .reject s = .next (s.endAct k (fun a => { a with ending := some .reject })) := by
  rw [exec_reject]
  refine outcome_ok ?_
  simp only [M.bind_run, h.reactM, updS_run]

end

/-! ## `arbrd` and `kscan` (R132, R133) -/

theorem exec_arbrd_reads {s : State} {k : ActKey} {a : Act} (h : s.InReaction k a) (d : XReg) (sel : BitVec 8) : exec (.arbrd d sel) s =
    .next (s.wroteX d (if sel = 0 then s.me.arb.summary else (s.me.arb.trail[sel.toNat - 1]?).getD 0)) := by
  rw [exec_arbrd]
  refine word_ok ?_
  simp only [M.bind_run, h.reactM, readS_run, setXM_run, List.getD_eq_getElem?_getD]

/-- An activation that is no twin reads the kennel as it is. -/
theorem scanM_unpaired {s : State} {k : ActKey} {a : Act} (hk : s.me.act = some k) (ha : s.myAct? = some a) (hp : a.partner = none)
    (v : Word) : scanM v s = .ok (v, s) := by
  simp only [scanM, M.bind_run, readS_run, id_eq, hk, ha, hp, Option.isNone_none, if_true, M.pure_run]

theorem exec_kscan_reads {s : State} {k : ActKey} {a : Act} (h : s.InReaction k a) (hp : a.partner = none) (d x : XReg) (sel : BitVec 3)
    (hr : s.readable [x]) : exec (.kscan d x sel) s =
      .next (s.wroteX d (BitVec.ofNat 64 (s.myCluster.kennel.scan ((s.me.getX x).setWidth 16) sel.toNat))) := by
  have hact : s.myAct? = some a := by rw [State.myAct?, h.key, Option.bind_some, h.record]
  rw [exec_kscan]
  refine word_ok ?_
  simp only [M.bind_run, h.reactM, xM_ok (State.readable_head hr), readS_run, id_eq, scanM_unpaired h.key hact hp, setXM_run]

/-- Whether a tile is of a KIND, or any tile is meant. -/
theorem fits_iff (w : Word) (t : Tile) : (w.setWidth 16 == 0 || t.kind == w.setWidth 16) = true ↔
    w.toNat % 2 ^ 16 = 0 ∨ t.kind.toNat = w.toNat % 2 ^ 16 := by
  rw [Bool.or_eq_true, beq_iff_eq, beq_iff_eq, ← BitVec.toNat_inj, ← BitVec.toNat_inj, BitVec.toNat_setWidth]
  rfl

/-- A count of a list's elements is the length of the sublist of them. -/
theorem exists_sublist_of_filter {α : Type} (l : List α) (p : α → Bool) (P : α → Prop) (h : ∀ r ∈ l, p r = true ↔ P r) :
    ∃ m : List α, (l.filter p).length = m.length ∧ m.Sublist l ∧ ∀ r ∈ l, r ∈ m ↔ P r :=
  ⟨l.filter p, rfl, List.filter_sublist, fun r hr => by rw [List.mem_filter, and_iff_right hr, h r hr]⟩

theorem Kennel.enabledCand_iff (n : Kennel) (c : Cand) : n.enabledCand c = true ↔
    c.rejected = false ∧ ∀ g ∈ c.ages, ∃ r ∈ n.tiles, r.tile.age = g ∧ r.held = false := by
  simp [Kennel.enabledCand]

/-! ## `runq` (R134, R135) -/

/-- A submission joins the list of those whose records are still to be copied, with a slot of its queue reserved; the appender is due. -/
def State.submit (s : State) (sub : Submission) : State :=
  ({ s with submissions := s.submissions ++ [sub] }.updQueue sub.vf sub.queue (fun k => { k with reserved := k.reserved + 1 })).postOnce
    .queueAppend

/-- The states that hold the same queues. -/
theorem State.queue_congr {s t : State} (h : t.fns = s.fns) (vf q : Nat) : t.queue vf q = s.queue vf q := by
  simp only [State.queue, State.fn, h]

theorem State.queue_submit (s : State) (sub : Submission) : (s.submit sub).queue sub.vf sub.queue =
    { s.queue sub.vf sub.queue with reserved := (s.queue sub.vf sub.queue).reserved + 1 } :=
  (State.queue_congr (State.postOnce_fns ..) _ _).trans (State.queue_updQueue_same ..)

theorem State.submit_result (s : State) (sub : Submission) : let t := s.submit sub
    t.submissions = s.submissions ++ [sub] ∧
    (t.queue sub.vf sub.queue).reserved = (s.queue sub.vf sub.queue).reserved + 1 ∧ Instr.queueAppend ∈ t.pending ∧
    s.SameMemory t .nowhere 0 ∧ s.SetsKept t := by
  intro t
  have hlist : s.SameMemory { s with submissions := s.submissions ++ [sub] } .nowhere 0 :=
    ⟨fun _ _ => rfl, fun _ _ _ _ => rfl, fun _ _ _ _ => rfl, fun _ _ _ => rfl⟩
  refine ⟨by simp [t, State.submit, State.updQueue], by rw [State.queue_submit], State.mem_pending_postOnce .., ?_, ?_⟩
  · exact hlist.trans ((State.sameMemory_updFn _ sub.vf).trans (State.memoryKept_postOnce _ _).sameMemory)
  · exact State.SetsKept.trans (t := { s with submissions := s.submissions ++ [sub] }.updQueue sub.vf sub.queue
      (fun k => { k with reserved := k.reserved + 1 })) ⟨rfl, rfl⟩ (State.setsKept_postOnce _ _)

/-- The bytes of a record, where the engine that reads it meets no fault. -/
def State.recordNow (s : State) (vf : Nat) (addr : Word) : Option (List Byte) :=
  match feRead vf .load addr 256 s with
  | .ok (bs, _) => some bs
  | .error _ => none

theorem State.recordNow_ok {s u : State} {vf : Nat} {addr : Word} {bs : List Byte}
    (h : s.EngineReads (frontEnd vf) addr.toNat 256 bs u) : s.recordNow vf addr = some bs := by
  have hread := feRead_ok h addr.isLt
  rw [BitVec.ofNat_toNat, BitVec.setWidth_eq] at hread
  rw [State.recordNow, hread]

theorem State.recordNow_error {s : State} {vf : Nat} {addr : Word} {e : EngineStop} (h : feRead vf .load addr 256 s = .error e) :
    s.recordNow vf addr = none := by
  rw [State.recordNow, h]

theorem queueTval_eq {q : Nat} (hq : q ≤ 63) : queueTval q = BitVec.ofNat 64 (2 ^ 63 + q) := by
  rw [queueTval, field_zero, BitVec.or_comm, ofNat_or_field (by omega), Nat.mul_one, Nat.add_comm]

section
variable {s : State} {a b : XReg} (hfw : isFirmware s.cur = false) (hr : s.readable [a, b])
include hfw hr

/-- A record that is not aligned traps. -/
theorem exec_runq_misaligned (hal : (s.me.getX a).toNat % 256 ≠ 0) : exec (.runq a b) s = s.takeTrap causeMisalign (s.me.getX a) := by
  rw [exec_runq]
  refine word_trap ?_
  simp only [M.bind_run, readS_run, id_eq, State.inFirmware, hfw, Bool.not_false, privUnless_true, xM_ok (State.readable_head hr),
    xM_ok (State.readable_head (State.readable_tail hr)), bne_iff_ne.2 hal, trapIf_true]

variable (hal : (s.me.getX a).toNat % 256 = 0)
include hal

/-- A queue that accepts nothing traps. -/
theorem exec_runq_access (hq : 63 < (s.me.getX b).toNat ∨ (s.queue (s.vfOf s.cur) (s.me.getX b).toNat).enabled = false) :
    exec (.runq a b) s = s.takeTrap causeAccess (s.me.getX b) := by
  have hbad : (decide (63 < (s.me.getX b).toNat) || !(s.queue (s.vfOf s.cur) (s.me.getX b).toNat).enabled) = true := by
    simpa using hq
  rw [exec_runq]
  refine word_trap ?_
  simp only [M.bind_run, readS_run, id_eq, State.inFirmware, hfw, Bool.not_false, privUnless_true, xM_ok (State.readable_head hr),
    xM_ok (State.readable_head (State.readable_tail hr)), hal, bne_self_eq_false, trapIf_false, hbad, trapIf_true]

variable (hq : (s.me.getX b).toNat ≤ 63) (hen : (s.queue (s.vfOf s.cur) (s.me.getX b).toNat).enabled = true)
include hq hen

/-- An activation's submission waits for its commit (R134). -/
theorem exec_runq_buffers {k : ActKey} {r : Act} (hk : s.me.act = some k) (ha : s.act? k = some r) (hroom : r.runqs.length < 8) :
    exec (.runq a b) s = .next ((s.updAct k (fun c => { c with runqs := c.runqs ++ [⟨s.me.getX a, (s.me.getX b).toNat⟩] })).stream
      [s.me.getX a, s.me.getX b]).advance := by
  have hact : s.myAct? = some r := by rw [State.myAct?, hk, Option.bind_some, ha]
  rw [exec_runq]
  refine word_ok ?_
  simp only [M.bind_run, readS_run, id_eq, State.inFirmware, hfw, Bool.not_false, privUnless_true, xM_ok (State.readable_head hr),
    xM_ok (State.readable_head (State.readable_tail hr)), hal, bne_self_eq_false, trapIf_false, decide_eq_false (Nat.not_lt.2 hq), hen,
    Bool.not_true, Bool.or_self, hk, hact, decide_eq_false (Nat.not_le.2 hroom), updS_run]

/-- GANG code meets a queue without a slot. -/
theorem exec_runq_full (hk : s.me.act = none) (hroom : s.queueRoom (s.vfOf s.cur) (s.me.getX b).toNat = 0) :
    exec (.runq a b) s = s.takeTrap causeOverflowFull (BitVec.ofNat 64 (2 ^ 63 + (s.me.getX b).toNat)) := by
  rw [exec_runq]
  refine word_trap ?_
  simp only [M.bind_run, readS_run, id_eq, State.inFirmware, hfw, Bool.not_false, privUnless_true, xM_ok (State.readable_head hr),
    xM_ok (State.readable_head (State.readable_tail hr)), hal, bne_self_eq_false, trapIf_false, decide_eq_false (Nat.not_lt.2 hq), hen,
    Bool.not_true, Bool.or_self, hk, hroom, beq_self_eq_true, trapIf_true, queueTval_eq hq]

/-- GANG code submits at once, with the record's bytes as they are now. -/
theorem exec_runq_submits (hk : s.me.act = none) (hroom : s.queueRoom (s.vfOf s.cur) (s.me.getX b).toNat ≠ 0)
    (hcnt : s.me.cnt.st < 63) :
    exec (.runq a b) s = .next ((s.updMe (fun t => { t with cnt := t.cnt.upd .st (· + 1) })).submit ⟨s.vfOf s.cur, (s.me.getX b).toNat,
      s.me.getX a, true, s.recordNow (s.vfOf s.cur) (s.me.getX a), some s.cur, none, none⟩).advance := by
  have henter := enterClass_ok (k := .st) hcnt
  rw [exec_runq]
  refine word_ok ?_
  simp only [M.bind_run, readS_run, id_eq, State.inFirmware, hfw, Bool.not_false, privUnless_true, xM_ok (State.readable_head hr),
    xM_ok (State.readable_head (State.readable_tail hr)), hal, bne_self_eq_false, trapIf_false, decide_eq_false (Nat.not_lt.2 hq), hen,
    Bool.not_true, Bool.or_self, hk, beq_eq_false_iff_ne.2 hroom, henter, updS_run]
  rfl

end

section
variable {s : State} {a b : XReg} (hfw : isFirmware s.cur = false) (hr : s.readable [a, b])
  (hal : (s.me.getX a).toNat % 256 = 0) (hq : (s.me.getX b).toNat ≤ 63)
  (hen : (s.queue (s.vfOf s.cur) (s.me.getX b).toNat).enabled = true)
include hfw hr hal hq hen

theorem exec_runq_buffers_result {k : ActKey} {r : Act} (hk : s.me.act = some k) (ha : s.act? k = some r) (hroom : r.runqs.length < 8) :
    ∃ t r', exec (.runq a b) s = .next t ∧ t.act? k = some r' ∧ r'.runqs = r.runqs ++ [⟨s.me.getX a, (s.me.getX b).toNat⟩] ∧
      s.SameMemory t .nowhere 0 ∧ s.me.SameRegs t.me := by
  obtain ⟨⟨st, hst⟩, hmem, hregs⟩ := State.record_result hk ha
    (fun c => { c with runqs := c.runqs ++ [⟨s.me.getX a, (s.me.getX b).toNat⟩] }) [s.me.getX a, s.me.getX b]
  exact ⟨_, _, exec_runq_buffers hfw hr hal hq hen hk ha hroom, hst, rfl, hmem, hregs⟩

theorem exec_runq_submits_result (hk : s.me.act = none) (hroom : s.queueRoom (s.vfOf s.cur) (s.me.getX b).toNat ≠ 0)
    (hcnt : s.me.cnt.st < 63) : let vf := s.vfOf s.cur
    ∃ t bytes, exec (.runq a b) s = .next t ∧
      t.submissions = s.submissions ++ [⟨vf, (s.me.getX b).toNat, s.me.getX a, true, bytes, some s.cur, none, none⟩] ∧
      (∀ bs u, State.EngineReads s (frontEnd vf) (s.me.getX a).toNat 256 bs u → bytes = some bs) ∧
      (∀ e, feRead vf .load (s.me.getX a) 256 s = .error e → bytes = none) ∧
      (t.queue vf (s.me.getX b).toNat).reserved = (s.queue vf (s.me.getX b).toNat).reserved + 1 ∧ Instr.queueAppend ∈ t.pending ∧
      t.me.cnt = { s.me.cnt with st := s.me.cnt.st + 1 } ∧ s.SameMemory t .nowhere 0 ∧ s.me.SameRegs t.me := by
  intro vf
  obtain ⟨hsub, hres, hdue, hmem, hsets⟩ := State.submit_result (s.updMe (fun t => { t with cnt := t.cnt.upd .st (· + 1) }))
    ⟨vf, (s.me.getX b).toNat, s.me.getX a, true, s.recordNow vf (s.me.getX a), some s.cur, none, none⟩
  have hregs := hsets.sameRegs_advance
  rw [State.me_updMe] at hregs
  refine ⟨_, _, exec_runq_submits hfw hr hal hq hen hk hroom hcnt, hsub, fun bs u => State.recordNow_ok,
    fun e => State.recordNow_error, hres, hdue, ?_, ?_, ?_⟩
  · rw [State.me_advance, Thread.next_cnt, hsets.me, State.me_updMe]
    rfl
  · exact (s.memoryKept_updThread s.cur _).sameMemory.trans (hmem.trans (State.memoryKept_advance _).sameMemory)
  · exact ⟨hregs.x, hregs.v, hregs.p, hregs.h, hregs.special, hregs.fpflags⟩

end

/-! ## What the words make -/

/-- A product joins those of its activation (R127, R128). -/
theorem exec_emit_result {s : State} {k : ActKey} {a : Act} (h : s.InReaction k a) (v : VReg) (half : Bool) {tile : BitVec 256}
    (htile : (s.me.getV v).extractLsb' (if half then 256 else 0) 256 = tile) (h0 : tile.toNat % 2 ^ 16 ≠ 0)
    (hroom : a.products.length < 256) :
    ∃ t a', exec (.emit v half) s = .next t ∧ t.act? k = some a' ∧ a'.products = a.products ++ [(a.emitKey s.me, tile)] ∧
      a'.tent = a.tent ∧ s.SameMemory t .nowhere 0 ∧ s.me.SameRegs t.me := by
  obtain ⟨⟨st, hst⟩, hmem, hregs⟩ := State.record_result h.key h.record
    (fun b => { b with products := b.products ++ [(a.emitKey s.me, tile)] }) (productWords tile)
  exact ⟨_, _, exec_emit_appends h v half htile h0 hroom, hst, rfl, rfl, hmem, hregs⟩

/-- What `kscan` counts, by its selector (R133). -/
theorem Kennel.scan_result (n : Kennel) (w : Word) (sel : BitVec 3) :
    let kind := w.toNat % 2 ^ 16
    let fits (t : Tile) : Prop := kind = 0 ∨ t.kind.toNat = kind
    let v := n.scan (w.setWidth 16) sel.toNat
    (sel = 0 → ∃ l : List Resident, v = l.length ∧ l.Sublist n.tiles ∧
      (∀ r ∈ n.tiles, r ∈ l ↔ r.held = false ∧ fits r.tile)) ∧
    (sel = 1 → ∃ l : List Resident, v = l.length ∧ l.Sublist n.tiles ∧
      (∀ r ∈ n.tiles, r ∈ l ↔ r.held = true ∧ fits r.tile)) ∧
    (sel = 2 → ∃ l : List Tile, v = l.length ∧ l.Sublist n.ring ∧ (∀ r ∈ n.ring, r ∈ l ↔ fits r)) ∧
    (sel = 3 → v = 16384 - n.tiles.length - n.resSlots) ∧
    (sel = 4 → ∃ l : List Cand, v = l.length ∧ l.Sublist n.cands ∧ (∀ c ∈ n.cands, c ∈ l ↔
      c.rejected = false ∧ ∀ g ∈ c.ages, ∃ r ∈ n.tiles, r.tile.age = g ∧ r.held = false)) := by
  refine ⟨?_, ?_, ?_, ?_, ?_⟩
  · rintro rfl
    refine exists_sublist_of_filter _ _ _ (fun r _ => ?_)
    rw [Bool.and_eq_true, Bool.not_eq_true', fits_iff]
  · rintro rfl
    refine exists_sublist_of_filter _ _ _ (fun r _ => ?_)
    rw [Bool.and_eq_true, fits_iff]
  · rintro rfl
    exact exists_sublist_of_filter _ _ _ (fun r _ => fits_iff w r)
  · rintro rfl
    rfl
  · rintro rfl
    exact exists_sublist_of_filter _ _ _ (fun c _ => n.enabledCand_iff c)

end Sys2Proof.Machine

open Sys2Proof Sys2Proof.Machine

/-- Settles O42: a word of a reaction asks for its context, changes its activation's record alone, and leaves memory; an ending
makes the commit step due and holds the owner; `runq` either records the run with the activation or submits it. -/
theorem reactionResult : Obligations.ReactionResult := by
  unfold Obligations.ReactionResult
  refine ⟨?emit, ?endings, ?arbrd, ?kscan, ?runq⟩
  case emit =>
    intro v half s k a h tile
    exact ⟨exec_emit_none h v half rfl, exec_emit_result h v half rfl, exec_emit_full h v half rfl⟩
  case endings =>
    intro s k a h
    refine ⟨fun hctx hfork => ?_, ?_, ?_⟩
    · obtain ⟨hact, hdue, hheld, hmem⟩ := State.endAct_result h.record (fun a => { a with ending := some .done })
      exact ⟨_, _, exec_done_ends h hctx hfork, hact, rfl, rfl, rfl, hdue, fun ho => hheld ho h.key, hmem⟩
    · obtain ⟨hact, hdue, hheld, hmem⟩ := State.endAct_result h.record (fun a => { a with ending := some .abort })
      exact ⟨_, _, exec_abort_ends h, hact, rfl, hdue, fun ho => hheld ho h.key, hmem⟩
    · obtain ⟨hact, hdue, hheld, hmem⟩ := State.endAct_result h.record (fun a => { a with ending := some .reject })
      exact ⟨_, _, exec_reject_ends h, hact, rfl, hdue, fun ho => hheld ho h.key, hmem⟩
  case arbrd => exact fun d sel s k a h => exec_arbrd_reads h d sel
  case kscan => exact fun d x sel s k a h hr hp => ⟨_, exec_kscan_reads h hp d x sel hr, Kennel.scan_result ..⟩
  case runq =>
    intro a b s hfw hr addr q vf
    refine ⟨exec_runq_misaligned hfw hr, fun hal hq => exec_runq_access hfw hr hal hq, fun hal hq hen => ⟨?_, ?_, ?_⟩⟩
    · exact fun k r hk ha hroom => exec_runq_buffers_result hfw hr hal hq hen hk ha hroom
    · exact exec_runq_full hfw hr hal hq hen
    · exact exec_runq_submits_result hfw hr hal hq hen

end

section
/-! A line that the front end writes (R223, R226, R413): its translation, the store of bytes that lie in one line of device memory,
and what the write leaves alone. -/
namespace Sys2Proof.Machine

/-! ## The front end's translation -/

/-- A page that a walk finds is aligned, and holds whole lines. -/
theorem State.walkFrom_present {s : State} {vf va : Nat} {e : TlbEntry} (levels : List Nat) (hlevels : ∀ lo ∈ levels, 16 ≤ lo)
    (base : Nat) (h : s.walkFrom vf va levels base = .present e) : 16 ≤ e.bits ∧ e.pa % 2 ^ e.bits = 0 := by
  induction levels generalizing base with
  | nil => exact nomatch h
  | cons lo rest ih =>
    obtain ⟨hlo, hrest⟩ := List.forall_mem_cons.1 hlevels
    unfold State.walkFrom at h
    dsimp only at h
    split at h
    · exact nomatch h
    · split at h
      · exact nomatch h
      · split at h
        · exact nomatch h
        · split at h
          · split at h
            · exact nomatch h
            · next hal =>
              obtain rfl := Walk.present.inj h
              exact ⟨hlo, by simpa using hal⟩
          · split at h
            · exact nomatch h
            · exact ih hrest _ h

theorem State.walk_present {s : State} {vf va : Nat} {e : TlbEntry} (h : s.walk vf va = .present e) :
    16 ≤ e.bits ∧ e.pa % 2 ^ e.bits = 0 := by
  unfold State.walk at h
  dsimp only at h
  split at h
  · exact nomatch h
  · exact State.walkFrom_present _ (by decide) _ h

/-- In an aligned page of whole lines an address keeps its place in its line. -/
theorem TlbEntry.phys_mod_line {e : TlbEntry} (hb : 16 ≤ e.bits) (hal : e.pa % 2 ^ e.bits = 0) (va : Nat) :
    e.phys va % 256 = va % 256 := by
  have hdvd : 256 ∣ 2 ^ e.bits := pow_dvd_pow (m := 8) 2 (by omega)
  have hpa : e.pa % 256 = 0 := Nat.mod_eq_zero_of_dvd (hdvd.trans (Nat.dvd_of_mod_eq_zero hal))
  rw [TlbEntry.phys, Nat.add_mod, hpa, Nat.zero_add, Nat.mod_mod, Nat.mod_mod_of_dvd _ hdvd]

/-- The front end reaches memory only, at the place in the line that the address has. -/
theorem State.EngineAt.frontEnd_phys {s : State} {vf : Nat} {need : Need} {va : Word} {p : Spot} (h : s.EngineAt (frontEnd vf) need va p) :
    ∃ q pa, p = .phys q pa ∧ pa % 256 = va.toNat % 256 := by
  cases h with
  | scratch c k off hc => exact nomatch hc
  | page pa q _ _ hpage =>
    obtain ⟨t, -, hb, hal, -, rfl⟩ := hpage
    exact ⟨q, _, rfl, TlbEntry.phys_mod_line hb hal _⟩
  | walk t pa q _ _ _ _ hwalk _ hpa =>
    obtain ⟨hb, hal⟩ := State.walk_present hwalk
    exact ⟨q, pa, rfl, hpa ▸ TlbEntry.phys_mod_line hb hal _⟩

/-! ## What a store to memory leaves alone -/

/-- The units, the runs, the functions and the queues of work but the work list stand as before. -/
structure State.StoreKept (s t : State) : Prop where
  threads : t.threads = s.threads
  cores : t.cores = s.cores
  clusters : t.clusters = s.clusters
  runs : t.runs = s.runs
  fns : t.fns = s.fns
  submissions : t.submissions = s.submissions
  nextRun : t.nextRun = s.nextRun

theorem State.StoreKept.refl (s : State) : s.StoreKept s := ⟨rfl, rfl, rfl, rfl, rfl, rfl, rfl⟩

theorem State.StoreKept.trans {s t u : State} (h : s.StoreKept t) (g : t.StoreKept u) : s.StoreKept u where
  threads := g.threads.trans h.threads
  cores := g.cores.trans h.cores
  clusters := g.clusters.trans h.clusters
  runs := g.runs.trans h.runs
  fns := g.fns.trans h.fns
  submissions := g.submissions.trans h.submissions
  nextRun := g.nextRun.trans h.nextRun

theorem State.Reslices.storeKept {s t : State} (h : s.Reslices t) : s.StoreKept t := by
  obtain ⟨m, l, w, rfl⟩ := h
  exact ⟨rfl, rfl, rfl, rfl, rfl, rfl, rfl⟩

/-! ## A store to one line of device memory (R185) -/

theorem State.storeKept_storeSector (s : State) (vf pa : Nat) (bs : List Byte) (ev : Bool) :
    s.StoreKept (s.storeSector vf pa bs ev) ∧ (s.storeSector vf pa bs ev).hub = s.hub := by
  simp only [State.storeSector, State.stamp, State.unpoison]
  split
  · exact ⟨by constructor <;> simp, by simp⟩
  · exact ⟨⟨rfl, rfl, rfl, rfl, rfl, rfl, rfl⟩, rfl⟩

/-- Sectors stored one after the other. -/
def State.storeSectors (s : State) (vf : Nat) (ev : Bool) (ps : List (Nat × List Byte)) : State :=
  ps.foldl (fun s p => s.storeSector vf p.1 p.2 ev) s

theorem State.storeKept_storeSectors (s : State) (vf : Nat) (ev : Bool) (ps : List (Nat × List Byte)) :
    s.StoreKept (s.storeSectors vf ev ps) ∧ (s.storeSectors vf ev ps).hub = s.hub :=
  List.foldlRecOn (motive := fun t : State => s.StoreKept t ∧ t.hub = s.hub) _ _ ⟨.refl s, rfl⟩ (fun t h p _ =>
    have hp := t.storeKept_storeSector vf p.1 p.2 ev
    ⟨h.1.trans hp.1, hp.2.trans h.2⟩)

/-- A string that lies in one line has its pieces there. -/
theorem sectorPieces_line (fuel pa : Nat) (bs : List Byte) (h : pa % 256 + bs.length ≤ 256) :
    ∀ p ∈ sectorPieces fuel pa bs, p.1 / 256 = pa / 256 := by
  induction fuel generalizing pa bs with
  | zero => exact fun p hp => nomatch hp
  | succ fuel ih =>
    unfold sectorPieces
    split
    · exact fun p hp => nomatch hp
    · refine List.forall_mem_cons.2 ⟨rfl, fun p hp => ?_⟩
      by_cases hmore : bs.length ≤ 64 - pa % 64
      · rw [List.drop_eq_nil_of_le hmore] at hp
        cases fuel <;> exact nomatch hp
      · exact (ih _ _ (by rw [List.length_drop]; omega) p hp).trans (by omega)

/-- Once its line has a way, the rest of a string is stored without another. -/
theorem storePieces_of_line (vf line : Nat) (ev : Bool) (ps : List (Nat × List Byte)) (hps : ∀ p ∈ ps, p.1 / 256 = line) (s : State)
    (hs : (NMap.find? s.lines line).isSome = true) :
    ps.foldl (fun o p => o.bind (fun s => (s.room vf p.1).map (fun s => s.storeSector vf p.1 p.2 ev))) (some s) =
      some (s.storeSectors vf ev ps) := by
  induction ps generalizing s with
  | nil => rfl
  | cons p ps ih =>
    obtain ⟨rfl, hrest⟩ := List.forall_mem_cons.1 hps
    have hroom : s.room vf p.1 = some s := by simp only [State.room, hs, if_true]
    rw [List.foldl_cons, Option.bind_some, hroom, Option.map_some, ih hrest, State.storeSectors, State.storeSectors, List.foldl_cons]
    rw [State.lines_storeSector, NMap.find?_set_same]
    rfl

/-- A string that lies in one line is stored when the line finds a way. -/
theorem State.storeDevice_line {s u : State} {vf pa : Nat} {bs : List Byte} (hroom : s.room vf pa = some u) (hpos : bs ≠ [])
    (hline : pa % 256 + bs.length ≤ 256) (ev : Bool) : s.storeDevice vf pa bs ev = some (u.storeSectors vf ev (piecesOf pa bs)) := by
  have hlines := sectorPieces_line (bs.length / 64 + 2) pa bs hline
  have hcons : piecesOf pa bs = (pa, bs.take (64 - pa % 64)) ::
      sectorPieces (bs.length / 64 + 1) (pa + (64 - pa % 64)) (bs.drop (64 - pa % 64)) := by
    simp only [piecesOf, sectorPieces, List.isEmpty_iff, hpos, if_false]
  rw [← piecesOf, hcons] at hlines
  rw [State.storeDevice, hcons, List.foldl_cons, Option.bind_some, hroom, Option.map_some,
    storePieces_of_line vf (pa / 256) ev _ (List.forall_mem_cons.1 hlines).2]
  · rfl
  · rw [State.lines_storeSector, NMap.find?_set_same]
    rfl

/-- The bytes of a string that is stored by its sectors. -/
theorem State.byteAt_storeSectors (s : State) (vf pa a : Nat) (ev : Bool) (bs : List Byte) :
    (s.storeSectors vf ev (piecesOf pa bs)).byteAt a = if pa ≤ a ∧ a < pa + bs.length then bs.getD (a - pa) 0 else s.byteAt a := by
  rw [State.storeSectors, State.byteAt_storePieces vf (fun _ => ev) (piecesOf pa bs) (sectorPieces_fit _ pa bs),
    flatMap_piecesOf, lastOf_cellsAt]

/-! ## The write of a line -/

/-- What a write of bytes at a site does: they stand there, all other memory reads as before, and no unit changes. -/
structure State.WroteAt (s : State) (w : StoreSite) (bs : List Byte) (t : State) : Prop where
  bytes : ∀ i, i < bs.length → t.siteByte w i = bs.getD i 0
  memory : s.SameMemory t w bs.length
  kept : s.StoreKept t

theorem State.storeDevice_result {s : State} {vf pa : Nat} {bs : List Byte} (hway : s.FindsWay vf pa) (hpos : bs ≠ [])
    (hline : pa % 256 + bs.length ≤ 256) : ∃ t, s.storeDevice vf pa bs false = some t ∧ s.WroteAt (.direct pa) bs t := by
  obtain ⟨-, u, hroom, hbytes⟩ := hway
  have hu := State.reslices_room hroom
  have hmem := hu.sameMemory hbytes
  obtain ⟨hkept, hhub⟩ := u.storeKept_storeSectors vf false (piecesOf pa bs)
  refine ⟨_, State.storeDevice_line hroom hpos hline false, fun i hi => ?_,
    ⟨fun a ha => ?_, fun c k a _ => ?_, fun f a _ _ => ?_, fun q a _ => ?_⟩, hu.storeKept.trans hkept⟩
  · rw [State.siteByte, State.byteAt_storeSectors, if_pos (by omega), Nat.add_sub_cancel_left]
  · have hout := ha pa rfl
    rw [State.byteAt_storeSectors, if_neg (by omega), hbytes]
  · simp only [State.core, hkept.cores, hu.storeKept.cores]
  · simp only [State.fn, hkept.fns, hu.storeKept.fns]
  · rw [hhub]
    exact hmem.remote q a (fun _ h => nomatch h)

theorem ByteMap.read_writes_inside (m : ByteMap) (a : Nat) {bs : List Byte} {i : Nat} (hi : i < bs.length) :
    ByteMap.read (ByteMap.writes m a bs) (a + i) = bs.getD i 0 := by
  rw [ByteMap.read_writes, if_pos (by omega), Nat.add_sub_cancel_left]

theorem ByteMap.read_writes_outside (m : ByteMap) {a c : Nat} {bs : List Byte} (h : c < a ∨ a + bs.length ≤ c) :
    ByteMap.read (ByteMap.writes m a bs) c = ByteMap.read m c := by
  rw [ByteMap.read_writes, if_neg (by omega)]

/-- A store to host or peer memory puts its bytes there. -/
theorem State.storePlace_remote_result (s : State) (vf pa : Nat) (bs : List Byte) {q : Place} (hq : q ≠ .dram) :
    ∃ t, s.storePlace q vf pa bs false = some t ∧ s.WroteAt (.remote q pa) bs t := by
  cases q with
  | dram => exact absurd rfl hq
  | host =>
    refine ⟨_, rfl, fun i hi => ByteMap.read_writes_inside s.hub.hostMem (hostAddr pa) hi, ?_, ⟨rfl, rfl, rfl, rfl, rfl, rfl, rfl⟩⟩
    refine ⟨fun _ _ => rfl, fun _ _ _ _ => rfl, fun _ _ _ _ => rfl, fun q a ha => ?_⟩
    cases q with
    | host => exact ByteMap.read_writes_outside s.hub.hostMem (ha pa rfl)
    | dram => rfl
    | peer => rfl
  | peer =>
    refine ⟨_, rfl, fun i hi => ByteMap.read_writes_inside s.hub.peerMem (peerAddr pa) hi, ?_, ⟨rfl, rfl, rfl, rfl, rfl, rfl, rfl⟩⟩
    refine ⟨fun _ _ => rfl, fun _ _ _ _ => rfl, fun _ _ _ _ => rfl, fun q a ha => ?_⟩
    cases q with
    | peer => exact ByteMap.read_writes_outside s.hub.peerMem (ha pa rfl)
    | dram => rfl
    | host => rfl

/-- The front end writes a line where its checks pass. -/
theorem engineWrite_frontEnd {s : State} {vf : Nat} {va : Word} {p : Spot} {bs : List Byte} (h : s.FrontWrites vf va bs.length p)
    (hpos : bs ≠ []) (kind : FaultKind) (first : Word) :
    ∃ t, engineWrite (frontEnd vf) kind first va bs s = .ok ((), t) ∧ s.WroteAt p.site bs t := by
  obtain ⟨hline, hact, hat, hway⟩ := h
  obtain ⟨q, pa, rfl, hpa⟩ := hat.frontEnd_phys
  have hwrite {t : State} (hheld : ¬ (q = .dram ∧ s.lineHeld (pa / 256) = true)) (hstore : s.storePlace q vf pa bs false = some t) :
      engineWrite (frontEnd vf) kind first va bs s = .ok ((), t) := by
    have hst : s.engineStore (frontEnd vf) (.phys q pa) bs = some t := hstore
    have hnone : (frontEnd vf).act = none := rfl
    simp only [engineWrite, EM.bind_run, engineSpot_ok hat, engineFoot, engineWriteSpot, stateE_run, hnone, EM.pure_run, hheld, if_false,
      hst, updE_run]
  cases q with
  | dram =>
    obtain ⟨t, hstore, ht⟩ := State.storeDevice_result (hway pa rfl) hpos (hpa ▸ hline)
    exact ⟨t, hwrite (fun hc => Bool.false_ne_true ((hway pa rfl).1.symm.trans hc.2)) hstore, ht⟩
  | host =>
    obtain ⟨t, hstore, ht⟩ := s.storePlace_remote_result vf pa bs (q := .host) nofun
    exact ⟨t, hwrite (fun hc => nomatch hc.1) hstore, ht⟩
  | peer =>
    obtain ⟨t, hstore, ht⟩ := s.storePlace_remote_result vf pa bs (q := .peer) nofun
    exact ⟨t, hwrite (fun hc => nomatch hc.1) hstore, ht⟩

/-- A string in one line is one piece. -/
theorem linesOf_one {va n : Nat} (h0 : n ≠ 0) (hline : va % 256 + n ≤ 256) : linesOf va n = [(va, n)] := by
  rw [linesOf, linePieces_cons h0, Nat.min_eq_left (by omega), Nat.sub_self]
  rfl

/-- A store of the front end that lies in one line is done. -/
theorem feStore_line {s : State} {vf n : Nat} {va : Word} {p : Spot} {bs : List Byte} (h : s.FrontWrites vf va n p) (hn : bs.length = n)
    (hpos : bs ≠ []) (run : Nat) (again : Instr) (kind : FaultKind) :
    ∃ t, feStore vf run again kind none (lineWrites va bs) s = .done t () ∧ s.WroteAt p.site bs t := by
  subst hn
  obtain ⟨t, hwrite, ht⟩ := engineWrite_frontEnd h hpos kind va
  have h0 : bs.length ≠ 0 := mt List.eq_nil_of_length_eq_zero hpos
  refine ⟨t, ?_, ht⟩
  rw [feStore, lineWrites, linesOf_one h0 h.1]
  simp only [cutLines, feWrites, BitVec.ofNat_toNat, BitVec.setWidth_eq, List.take_length, linesOf_one h0 h.1, writePieces, EM.bind_run,
    hwrite, EM.pure_run]

end Sys2Proof.Machine
end

section
/-! Doorbells, the appender, control blocks and PACKFLAGS (R134, R280, R321, R322, R401). -/
namespace Sys2Proof.Machine

/-! ## Doorbells (R322) -/

theorem exec_doorbellWrite (s : State) : exec .doorbellWrite s = execDoorbellWrite s := rfl
theorem exec_qdbRead (s : State) : exec .qdbRead s = execQdbRead s := rfl
theorem exec_queueAppend (s : State) : exec .queueAppend s = execQueueAppend s := rfl
theorem exec_qcbRead (vf q : Nat) (s : State) : exec (.qcbRead vf q) s = execQcbRead vf q s := rfl
theorem exec_flagPropagate (s : State) : exec .flagPropagate s = execFlagPropagate s := rfl

theorem State.sameMemory_updQueue (s : State) (vf q : Nat) (f : Queue → Queue) : s.SameMemory (s.updQueue vf q f) .nowhere 0 :=
  s.sameMemory_updFn vf

section
variable {s : State} {vf q : Nat} (hp : s.presented vf = true) (hq : q < 64)
include hp hq

theorem exec_doorbellWrite_serves {addr : Word} (hin : s.input = .doorbell vf q addr) (hstarted : s.hub.started = true)
    (hfailed : s.hub.failed = false) : exec .doorbellWrite s = .next (s.doorbell vf q addr) := by
  simp only [exec_doorbellWrite, execDoorbellWrite, hin, hp, hq, hstarted, hfailed, decide_true, Bool.not_false, Bool.and_self, if_true]

/-- A read of a doorbell answers the host, and clears DROP. -/
theorem exec_qdbRead_serves (hin : s.input = .readDoorbell vf q) : exec .qdbRead s =
    .next ({ s with hub := { s.hub with hostOut := s.hub.hostOut ++ [s.qdb vf q] } }.updQueue vf q
      (fun k => { k with drop := false })) := by
  simp only [exec_qdbRead, execQdbRead, hin, hp, hq, decide_true, Bool.and_self, if_true]

end

/-- A doorbell that is aligned, with a free slot, is a submission of the host. -/
theorem State.doorbell_submits {s : State} {vf q : Nat} {addr : Word} (hal : addr.toNat % 256 = 0) (hroom : s.queueRoom vf q ≠ 0) :
    s.doorbell vf q addr = s.submit ⟨vf, q, addr, true, none, none, none, none⟩ :=
  if_neg (not_or.2 ⟨not_not.2 hal, hroom⟩)

/-- Any other sets DROP. -/
theorem State.doorbell_drops {s : State} {vf q : Nat} {addr : Word} (h : addr.toNat % 256 ≠ 0 ∨ s.queueRoom vf q = 0) :
    s.doorbell vf q addr = s.updQueue vf q (fun k => { k with drop := true }) := if_pos h

/-- The answer of a doorbell: FREE, EN and DROP side by side. -/
theorem State.toNat_qdb {s : State} {vf q : Nat} (h : s.queueRoom vf q < 2 ^ 17) : (s.qdb vf q).toNat =
    s.queueRoom vf q + 2 ^ 17 * (s.queue vf q).enabled.toNat + 2 ^ 18 * (s.queue vf q).drop.toNat := by
  have he := Bool.toNat_le (s.queue vf q).enabled
  have hd := Bool.toNat_le (s.queue vf q).drop
  rw [State.qdb, field_zero, ofNat_or_field h, ofNat_or_field (by omega), BitVec.toNat_ofNat, Nat.mod_eq_of_lt (by omega)]

/-! ## A submission is a submission whatever the list of submissions holds -/

/-- A state with another list of submissions. -/
def State.listed (s : State) (l : List Submission) : State := { s with submissions := l }

theorem State.walkFrom_listed (s : State) (l : List Submission) (vf va : Nat) (levels : List Nat) (base : Nat) :
    (s.listed l).walkFrom vf va levels base = s.walkFrom vf va levels base := by
  induction levels generalizing base with
  | nil => rfl
  | cons lo rest ih =>
    have hread (a : Nat) : (s.listed l).physRead vf a 8 = s.physRead vf a 8 := rfl
    have hheld (a : Nat) : (s.listed l).lineHeld a = s.lineHeld a := rfl
    simp only [State.walkFrom, ih, hread, hheld]

theorem State.walk_listed (s : State) (l : List Submission) (vf va : Nat) : (s.listed l).walk vf va = s.walk vf va := by
  have hfn : (s.listed l).fn vf = s.fn vf := rfl
  simp only [State.walk, State.walkFrom_listed, hfn]

theorem State.EngineAt.listed {s : State} {vf : Nat} {need : Need} {va : Word} {p : Spot}
    (h : s.EngineAt (frontEnd vf) need va p) (l : List Submission) : (s.listed l).EngineAt (frontEnd vf) need va p := by
  cases h with
  | scratch c k off hc => exact nomatch hc
  | page _ _ hspace hscratch hpage hq hup => exact .page _ _ hspace hscratch hpage hq hup
  | walk t _ _ hpipe hspace hscratch hmiss hwalk hperm hpa hq hup =>
    exact .walk t _ _ hpipe hspace hscratch hmiss ((s.walk_listed l _ _).trans hwalk) hperm hpa hq hup

theorem State.putSector_listed (s : State) (l : List Submission) (pa : Nat) (c : Sector) :
    (s.listed l).putSector pa c = (s.putSector pa c).listed l := by
  unfold State.putSector
  split <;> rfl

theorem State.encodeSector_listed (s : State) (l : List Submission) (n : Nat) (f : FWindow) (pa : Nat) (bs : List Byte) :
    (s.listed l).encodeSector n f pa bs = (s.encodeSector n f pa bs).listed l := by
  simp only [State.encodeSector, apply_ite (fun t : State => t.listed l)]
  rfl

theorem State.putLine_listed (s : State) (l : List Submission) (line : Nat) (x : SliceLine) :
    (s.listed l).putLine line x = (s.putLine line x).listed l := by
  have hview : (s.listed l).hub = s.hub := rfl
  unfold State.putLine
  rw [hview]
  split
  · exact List.foldl_hom (fun s : State => s.listed l) (fun t k => t.putSector_listed l _ _)
  · split
    · exact List.foldl_hom (fun s : State => s.listed l) (fun t k => t.encodeSector_listed l _ _ _ _)
    · rfl

theorem State.writeBack_listed (s : State) (l : List Submission) (line : Nat) :
    (s.listed l).writeBack line = (s.writeBack line).listed l := by
  have hlines : (s.listed l).lines = s.lines := rfl
  unfold State.writeBack
  rw [hlines]
  split
  · rfl
  · rw [State.putLine_listed]
    rfl

theorem State.room_listed (s : State) (l : List Submission) (vf pa : Nat) :
    (s.listed l).room vf pa = (s.room vf pa).map (fun t => t.listed l) := by
  have hlines : (s.listed l).lines = s.lines := rfl
  have hfixed : (s.listed l).fixedWays vf (pa / 256) = s.fixedWays vf (pa / 256) := rfl
  have hloose : (s.listed l).looseWays vf (pa / 256) = s.looseWays vf (pa / 256) := rfl
  unfold State.room
  dsimp only
  rw [hlines, hfixed, hloose]
  split
  · rfl
  · split
    · rfl
    · simp only [State.writeBack_listed, Option.map_map, Function.comp_def]

theorem State.FindsWay.listed {s : State} {vf pa : Nat} (h : s.FindsWay vf pa) (l : List Submission) : (s.listed l).FindsWay vf pa := by
  obtain ⟨hheld, t, hroom, hbytes⟩ := h
  exact ⟨hheld, t.listed l, by rw [State.room_listed, hroom, Option.map_some], hbytes⟩

theorem State.FrontWrites.listed {s : State} {vf n : Nat} {va : Word} {p : Spot} (h : s.FrontWrites vf va n p) (l : List Submission) :
    (s.listed l).FrontWrites vf va n p := by
  obtain ⟨hline, hact, hat, hway⟩ := h
  exact ⟨hline, hact, hat.listed l, fun pa hp => (hway pa hp).listed l⟩

/-! ## The appender (R322) -/

/-- A run that the appender has put into its queue. -/
theorem State.appendRun_result (s : State) {sub : Submission} (bs : List Byte) (hthread : sub.thread = none) :
    let k := s.queue sub.vf sub.queue
    let t := s.appendRun sub bs
    t.submissions = s.submissions.erase sub ∧
    t.run? s.nextRun = some (Run.new sub.vf sub.queue sub.addr (BitVec.ofNat 2048 (leNat bs))) ∧
    t.queue sub.vf sub.queue = { k with tail := k.tail + 1, runs := k.runs ++ [s.nextRun], reserved := k.reserved - 1 } ∧
    Instr.runEligible sub.vf sub.queue ∈ t.pending ∧ s.SameMemory t .nowhere 0 ∧ t.cur = s.cur := by
  intro k t
  let ended : State := ({ s with submissions := s.submissions.erase sub }).updQueue sub.vf sub.queue
    (fun k => { k with reserved := k.reserved - 1 })
  let placed : State := { ended with nextRun := s.nextRun + 1 }.setRun s.nextRun
    (Run.new sub.vf sub.queue sub.addr (BitVec.ofNat 2048 (leNat bs)))
  let queued : State := placed.updQueue sub.vf sub.queue (fun k => { k with tail := k.tail + 1, runs := k.runs ++ [s.nextRun] })
  have hend : s.endSubmission sub = ended := by
    rw [State.endSubmission, hthread]
  have ht : t = queued.postOnce (.runEligible sub.vf sub.queue) := by
    simp only [t, State.appendRun, hend]
    rfl
  have hplaced : ended.MemoryKept placed := ⟨rfl, rfl, rfl, rfl, rfl⟩
  have herased : s.MemoryKept { s with submissions := s.submissions.erase sub } := ⟨rfl, rfl, rfl, rfl, rfl⟩
  have hqueue : queued.queue sub.vf sub.queue =
      { k with tail := k.tail + 1, runs := k.runs ++ [s.nextRun], reserved := k.reserved - 1 } := by
    have hended : ended.queue sub.vf sub.queue = { k with reserved := k.reserved - 1 } :=
      State.queue_updQueue_same { s with submissions := s.submissions.erase sub } ..
    have hset : placed.queue sub.vf sub.queue = ended.queue sub.vf sub.queue := rfl
    rw [State.queue_updQueue_same, hset, hended]
  rw [ht]
  refine ⟨State.postOnce_submissions .., ?_, (State.queue_congr (State.postOnce_fns ..) _ _).trans hqueue,
    State.mem_pending_postOnce .., ?_, State.postOnce_cur ..⟩
  · rw [State.run?_postOnce]
    exact State.run?_setRun_same ..
  · exact herased.sameMemory.trans ((State.sameMemory_updQueue ..).trans (hplaced.sameMemory.trans
      ((State.sameMemory_updQueue ..).trans (State.memoryKept_postOnce ..).sameMemory)))

/-- Two changes of memory, of which the first changes no byte. -/
theorem State.SameMemory.after {s t u : State} {w : StoreSite} {n : Nat} (h : s.SameMemory t .nowhere 0) (hcur : t.cur = s.cur)
    (g : t.SameMemory u w n) : s.SameMemory u w n where
  device a ha := (g.device a ha).trans (h.device a nofun)
  scratch c k a ha := (g.scratch c k a (hcur ▸ ha)).trans (h.scratch c k a nofun)
  sram f a ha ha' := (g.sram f a (hcur ▸ ha) ha').trans (h.sram f a (fun _ e => by cases e; omega) nofun)
  remote q a ha := (g.remote q a ha).trans (h.remote q a nofun)

/-- Two changes of memory, of which the second changes no byte. -/
theorem State.SameMemory.before {s t u : State} {w : StoreSite} {n : Nat} (h : s.SameMemory t w n) (g : t.SameMemory u .nowhere 0) :
    s.SameMemory u w n where
  device a ha := (g.device a nofun).trans (h.device a ha)
  scratch c k a ha := (g.scratch c k a nofun).trans (h.scratch c k a ha)
  sram f a ha ha' := (g.sram f a (fun _ e => by cases e; omega) nofun).trans (h.sram f a ha ha')
  remote q a ha := (g.remote q a nofun).trans (h.remote q a ha)

/-- A byte at a site of the front end, where no byte of memory changes. -/
theorem State.SameMemory.siteByte {s t : State} (h : s.SameMemory t .nowhere 0) (q : Place) (pa i : Nat) :
    t.siteByte (Spot.phys q pa).site i = s.siteByte (Spot.phys q pa).site i := by
  cases q with
  | dram => exact h.device _ nofun
  | host => exact h.remote _ _ nofun
  | peer => exact h.remote _ _ nofun

/-- The slot that a queue's next record takes: an enabled queue has one. -/
theorem Queue.max_slots_of_enabled {k : Queue} (h : k.enabled = true) : max 1 (Qcb.slots k.qcb) = Qcb.slots k.qcb := by
  have h0 : Qcb.slots k.qcb ≠ 0 := fun h0 => by simp [Queue.enabled, Qcb.enabled, h0] at h
  exact Nat.max_eq_right (Nat.one_le_iff_ne_zero.2 h0)

/-- What stands when the appender has copied a record into its slot, and put the run into its queue. -/
structure State.Appended (s : State) (sub : Submission) (bs : List Byte) (p : Spot) (t : State) : Prop where
  run : t.run? s.nextRun = some (Run.new sub.vf sub.queue sub.addr (BitVec.ofNat 2048 (leNat bs)))
  queue : t.queue sub.vf sub.queue = { s.queue sub.vf sub.queue with
    tail := (s.queue sub.vf sub.queue).tail + 1, runs := (s.queue sub.vf sub.queue).runs ++ [s.nextRun],
    reserved := (s.queue sub.vf sub.queue).reserved - 1 }
  due : Instr.runEligible sub.vf sub.queue ∈ t.pending
  bytes : ∀ i, i < 256 → t.siteByte p.site i = bs.getD i 0
  memory : s.SameMemory t p.site 256

/-- The appender copies a record into the slot at TAIL (R322). -/
theorem State.copyRecord_result {s : State} {sub : Submission} {bs : List Byte} {p : Spot} (hthread : sub.thread = none)
    (hrefused : sub.refused = none) (hlen : bs.length = 256) (hen : (s.queue sub.vf sub.queue).enabled = true)
    (hfront : s.FrontWrites sub.vf (BitVec.ofNat 64 (Qcb.ring (s.queue sub.vf sub.queue).qcb +
      256 * ((s.queue sub.vf sub.queue).tail % Qcb.slots (s.queue sub.vf sub.queue).qcb))) 256 p) :
    (s.copyRecord sub bs).submissions = s.submissions.erase sub ∧ s.Appended sub bs p (s.copyRecord sub bs) := by
  have hpos : bs ≠ [] := List.ne_nil_of_length_pos (by omega)
  have ⟨_, _, hat, _⟩ := hfront
  obtain ⟨q, pa, rfl, -⟩ := hat.frontEnd_phys
  obtain ⟨t, hstore, hbytes, hmem, hkept⟩ := feStore_line hfront hlen hpos 0 .queueAppend .store
  have hcopy : s.copyRecord sub bs = t.appendRun sub bs := by
    simp only [State.copyRecord, hen, Bool.not_true, Bool.false_eq_true, if_false, Queue.max_slots_of_enabled hen, hrefused, hstore]
  obtain ⟨hsub, hrun, hqueue, hdue, hsame, -⟩ := t.appendRun_result bs hthread
  rw [State.queue_congr hkept.fns, hkept.nextRun] at hqueue
  rw [hkept.submissions] at hsub
  rw [hkept.nextRun] at hrun
  rw [hlen] at hmem hbytes
  rw [hcopy]
  exact ⟨hsub, hrun, hqueue, hdue, fun i hi => (hsame.siteByte q pa i).trans (hbytes i hi), hmem.before hsame⟩

theorem firstSubmission_one {sub : Submission} (h : sub.waiting = none) : firstSubmission [sub] [] = some sub := by
  simp only [firstSubmission, List.contains_nil, Bool.false_eq_true, if_false, h, Option.isSome_none]

section
variable {s : State} {sub : Submission} {bs : List Byte} {p : Spot} (hone : s.submissions = [sub])
  (hrefused : sub.refused = none) (hthread : sub.thread = none) (hlen : bs.length = 256)
include hone

/-- The appender's one submission, when it can be served, leaves the list. -/
theorem exec_queueAppend_one (hwaits : sub.waiting = none) (hdone : (s.serveSubmission sub).submissions = []) :
    exec .queueAppend s = .next (s.serveSubmission sub) := by
  simp only [exec_queueAppend, execQueueAppend, hone, firstSubmission_one hwaits, hdone, firstSubmission, Option.isSome_none,
    Bool.false_eq_true, if_false]

variable (hen : (s.queue sub.vf sub.queue).enabled = true)
include hrefused hthread hlen hen

/-- A record whose bytes have been read is copied. -/
theorem State.serveSubmission_given (hbytes : sub.bytes = some bs)
    (hfront : s.FrontWrites sub.vf (BitVec.ofNat 64 (Qcb.ring (s.queue sub.vf sub.queue).qcb +
      256 * ((s.queue sub.vf sub.queue).tail % Qcb.slots (s.queue sub.vf sub.queue).qcb))) 256 p) :
    (s.serveSubmission sub).submissions = [] ∧ s.Appended sub bs p (s.serveSubmission sub) := by
  obtain ⟨hsub, happ⟩ := State.copyRecord_result hthread hrefused hlen hen hfront
  have hserve : s.serveSubmission sub = s.copyRecord sub bs := by simp only [State.serveSubmission, hbytes]
  rw [hserve]
  exact ⟨by rw [hsub, hone, List.erase_cons_head], happ⟩

/-- One whose bytes have not is read first. -/
theorem State.serveSubmission_reads {u : State} (hbytes : sub.bytes = none)
    (hread : s.EngineReads (frontEnd sub.vf) sub.addr.toNat 256 bs u)
    (hfront : u.FrontWrites sub.vf (BitVec.ofNat 64 (Qcb.ring (s.queue sub.vf sub.queue).qcb +
      256 * ((s.queue sub.vf sub.queue).tail % Qcb.slots (s.queue sub.vf sub.queue).qcb))) 256 p) :
    (s.serveSubmission sub).submissions = [] ∧ s.Appended sub bs p (s.serveSubmission sub) := by
  obtain ⟨hslices, hsame⟩ := hread.keeps
  have hmem := hslices.sameMemory hsame
  have hkept := hslices.storeKept
  have hcur := hslices.setsKept.cur
  let next : Submission := { sub with bytes := some bs }
  have hfe : feRead sub.vf .load sub.addr 256 s = .ok (bs, u) := by
    have h := feRead_ok hread sub.addr.isLt
    rwa [BitVec.ofNat_toNat, BitVec.setWidth_eq] at h
  have hlist : u.updSubmission sub (fun _ => next) = u.listed [next] := by
    rw [State.updSubmission, hkept.submissions, hone, State.listed, List.map_cons, List.map_nil, if_pos rfl]
  have hdo : feDo sub.vf 0 .queueAppend sub.refused (feRead sub.vf .load sub.addr 256) s = .done u bs := hrefused ▸ feDo_ok hfe ..
  have hserve : s.serveSubmission sub = (u.listed [next]).copyRecord next bs := by
    rw [← hlist]
    simp only [State.serveSubmission, hbytes, hdo, next]
  have hq : (u.listed [next]).queue sub.vf sub.queue = s.queue sub.vf sub.queue := State.queue_congr hkept.fns _ _
  obtain ⟨hsub, hrun, hqueue, hdue, hput, hafter⟩ := State.copyRecord_result (s := u.listed [next]) (sub := next) (p := p)
    hthread hrefused hlen (hq.symm ▸ hen) (hq.symm ▸ hfront.listed [next])
  have hlisted : s.SameMemory (u.listed [next]) .nowhere 0 := ⟨hmem.1, hmem.2, hmem.3, hmem.4⟩
  have hnext : (u.listed [next]).nextRun = s.nextRun := hkept.nextRun
  rw [hnext] at hrun
  simp only [next] at hqueue
  rw [hq, hnext] at hqueue
  rw [hserve]
  exact ⟨hsub.trans (List.erase_cons_head ..), hrun, hqueue, hdue, hput, hlisted.after hcur hafter⟩

end

/-! ## Control blocks (R401) -/

/-- A control block that is whole, of an even generation, is accepted, and its shadow holds it. -/
theorem exec_qcbRead_accepts {s : State} {vf q : Nat} (heven : Qcb.gen (s.qcbAt vf q) % 2 = 0)
    (hwhole : natBits (s.qcbAt vf q).toNat 511 448 = Qcb.gen (s.qcbAt vf q)) : let b := s.qcbAt vf q
    ∃ t, exec (.qcbRead vf q) s = .next t ∧ t.queue vf q = { s.queue vf q with qcb := b, disabled := false } ∧
      t.sramReads vf (sramShadow + 64 * q) 64 = leBytes 64 b.toNat ∧ Instr.runEligible vf q ∈ t.pending ∧
      (∀ a, t.byteAt a = s.byteAt a) ∧
      ∀ a, a < sramShadow + 64 * q ∨ sramShadow + 64 * q + 64 ≤ a →
        ByteMap.read (t.fn vf).sram a = ByteMap.read (s.fn vf).sram a := by
  intro b
  let shadowed : State := s.sramWrites vf (sramShadow + 64 * q) (leBytes 64 b.toNat)
  let accepted : State := shadowed.updQueue vf q (fun k => { k with qcb := b, disabled := false })
  have hexec : exec (.qcbRead vf q) s = .next (accepted.postOnce (.runEligible vf q)) := by
    simp only [exec_qcbRead, execQcbRead, heven, hwhole, and_self, if_true]
    rfl
  have hlen : (leBytes 64 b.toNat).length = 64 := length_leBytes ..
  have hsram : ((accepted.postOnce (.runEligible vf q)).fn vf).sram =
      ByteMap.writes (s.fn vf).sram (sramShadow + 64 * q) (leBytes 64 b.toNat) := by
    have hfn : (accepted.postOnce (.runEligible vf q)).fn vf = accepted.fn vf := by simp only [State.fn, State.postOnce_fns]
    rw [hfn]
    simp [accepted, shadowed, State.updQueue, State.sramWrites]
  refine ⟨_, hexec, ?_, ?_, State.mem_pending_postOnce .., fun a => ?_, fun a ha => ?_⟩
  · rw [State.queue_congr (State.postOnce_fns ..), State.queue_updQueue_same]
    simp [shadowed, State.queue, State.sramWrites]
  · have hreads := ByteMap.reads_writes_same (s.fn vf).sram (sramShadow + 64 * q) (leBytes 64 b.toNat)
    rw [hlen] at hreads
    rw [State.sramReads, hsram, hreads]
  · exact State.byteAt_congr (by simp [accepted, shadowed, State.updQueue, State.sramWrites])
      (by simp [accepted, shadowed, State.updQueue, State.sramWrites]) (by simp [accepted, shadowed, State.updQueue, State.sramWrites]) a
  · rw [hsram, ByteMap.read_writes, if_neg (by omega)]

/-- Any other is not read. -/
theorem exec_qcbRead_refuses {s : State} {vf q : Nat}
    (h : Qcb.gen (s.qcbAt vf q) % 2 = 1 ∨ natBits (s.qcbAt vf q).toNat 511 448 ≠ Qcb.gen (s.qcbAt vf q)) :
    exec (.qcbRead vf q) s = .next s := by
  have hbad : ¬ (Qcb.gen (s.qcbAt vf q) % 2 = 0 ∧ natBits (s.qcbAt vf q).toNat 511 448 = Qcb.gen (s.qcbAt vf q)) := fun hc =>
    h.elim (fun h1 => by omega) (fun h2 => h2 hc.2)
  simp only [exec_qcbRead, execQcbRead, hbad, if_false]

/-! ## PACKFLAGS (R280) -/

/-- A nonempty list of one value has that value alone. -/
theorem eraseDups_of_all_eq {α : Type} [BEq α] [LawfulBEq α] {r : α} {l : List α} (hne : l ≠ []) (h : ∀ a ∈ l, a = r) :
    l.eraseDups = [r] := by
  obtain ⟨a, l, rfl⟩ := List.exists_cons_of_ne_nil hne
  obtain ⟨rfl, hl⟩ := List.forall_mem_cons.1 h
  have hnone : l.filter (fun b => !b == a) = [] := List.filter_eq_nil_iff.2 (fun b hb => by simp [hl b hb])
  rw [List.eraseDups_cons, hnone]
  rfl

/-- A cluster whose flags are on their way up is one that the state names. -/
theorem State.mem_clusters_of_raised {s : State} {c : Nat} (h : (s.cluster c).raised ≠ 0) : (c, s.cluster c) ∈ s.clusters := by
  unfold State.cluster NMap.get at h ⊢
  cases hfind : NMap.find? s.clusters c with
  | none => exact absurd rfl (by rwa [hfind] at h)
  | some u => exact NMap.mem_of_find? hfind

section
variable {s : State} {r : Nat} {x : Run}
  (hall : ∀ c ∈ s.clusters, c.2.raised ≠ 0 → c.2.run = some r)
include hall

/-- Where all raised flags are one run's, the clusters that are not its own add nothing. -/
theorem State.packFlags_eq : s.packFlags r x = x.clusters.foldl (fun f c => f ||| (s.cluster c).raised) x.packflags := by
  have hnone (c : Nat) (h : ¬ (s.cluster c).run = some r) : (s.cluster c).raised = 0 := by
    by_contra h0
    exact h (hall _ (State.mem_clusters_of_raised h0) h0)
  unfold State.packFlags
  rw [List.foldl_filter]
  congr 1
  funext f c
  by_cases h : (s.cluster c).run = some r
  · simp [h]
  · simp [h, hnone c h]

/-- The flags of a released run's clusters reach its PACKFLAGS. -/
theorem exec_flagPropagate_flushes (hsome : ∃ c ∈ s.clusters, c.2.raised ≠ 0) : exec .flagPropagate s = .next (s.flushFlags r) := by
  obtain ⟨c, hc, h0⟩ := hsome
  have hmem : c ∈ s.clusters.filter (fun c => c.2.raised != 0) := List.mem_filter.2 ⟨hc, bne_iff_ne.2 h0⟩
  have hruns : ((s.clusters.filter (fun c => c.2.raised != 0)).filterMap (fun c => c.2.run)).eraseDups = [r] := by
    refine eraseDups_of_all_eq (fun hnil => ?_) (fun q hq => ?_)
    · exact nomatch (hall c hc h0).symm.trans (List.filterMap_eq_nil_iff.1 hnil c hmem)
    · obtain ⟨d, hd, hrun⟩ := List.mem_filterMap.1 hq
      obtain ⟨hd, hraised⟩ := List.mem_filter.1 hd
      exact Option.some.inj (hrun.symm.trans (hall d hd (bne_iff_ne.1 hraised)))
  simp only [exec_flagPropagate, execFlagPropagate, hruns, List.foldl_cons, List.foldl_nil]

end

/-- Clusters whose flags are lowered keep their CLUFLAGS. -/
theorem State.cluster_foldl_lower (l : List Nat) (s : State) (c : Nat) :
    ((l.foldl (fun s c => s.updCluster c (fun u => { u with raised := 0 })) s).cluster c) =
      if c ∈ l then { s.cluster c with raised := 0 } else s.cluster c := by
  induction l generalizing s with
  | nil => simp
  | cons d l ih =>
    rw [List.foldl_cons, ih]
    by_cases hd : c = d
    · subst hd
      simp
    · rw [State.cluster_updCluster_ne _ _ _ _ hd]
      simp [hd]

theorem State.flushFlags_result {s : State} {r : Nat} {x : Run} (hrun : s.run? r = some x) (hrel : x.released = true)
    (hall : ∀ c ∈ s.clusters, c.2.raised ≠ 0 → c.2.run = some r) : let t := s.flushFlags r
    t.run? r = some { x with packflags := x.clusters.foldl (fun f c => f ||| (s.cluster c).raised) x.packflags } ∧
      (∀ c ∈ x.clusters, (t.cluster c).raised = 0 ∧ (t.cluster c).cluflags = (s.cluster c).cluflags) ∧
      s.SameMemory t .nowhere 0 := by
  intro t
  let mine := x.clusters.filter (fun c => (s.cluster c).run == some r)
  let gathered := s.setRun r { x with packflags := s.packFlags r x }
  have ht : t = mine.foldl (fun s c => s.updCluster c (fun u => { u with raised := 0 })) gathered := by
    simp only [t, State.flushFlags, hrun, hrel, if_true]
    rfl
  have hkept : gathered.MemoryKept t := ht ▸ State.memoryKept_foldl (fun t c => t.memoryKept_updCluster ..) _ _
  have hruns : t.runs = gathered.runs := by
    rw [ht]
    exact List.foldlRecOn (motive := fun t : State => t.runs = gathered.runs) _ _ rfl (fun _ h _ _ => h)
  refine ⟨?_, fun c hc => ?_, ((s.memoryKept_setRun ..).trans hkept).sameMemory⟩
  · rw [State.run?_congr hruns, State.run?_setRun_same, State.packFlags_eq hall]
  · have hcluster := State.cluster_foldl_lower mine gathered c
    rw [← ht] at hcluster
    have hsame : gathered.cluster c = s.cluster c := rfl
    rw [hcluster, hsame]
    by_cases hm : c ∈ mine
    · rw [if_pos hm]
      exact ⟨rfl, rfl⟩
    · rw [if_neg hm]
      refine ⟨?_, rfl⟩
      by_contra h0
      exact hm (List.mem_filter.2 ⟨hc, beq_iff_eq.2 (hall _ (State.mem_clusters_of_raised h0) h0)⟩)

end Sys2Proof.Machine

open Sys2Proof Sys2Proof.Machine

/-- Settles O49: a doorbell is a submission or sets DROP; the appender's read and store are those of the front end, in one line
each; a control block is accepted as its generation says; and the raised flags of a run's clusters are gathered by one flush. -/
theorem queueResult : Obligations.QueueResult := by
  unfold Obligations.QueueResult
  refine ⟨?doorbell, ?freeRead, ?append, ?qcb, ?flags⟩
  case doorbell =>
    intro vf q addr s hin hp hq hstarted hfailed
    have hexec := exec_doorbellWrite_serves hp hq hin hstarted hfailed
    refine ⟨fun hal hroom => ?_, fun h => ?_⟩
    · obtain ⟨hsub, -, hdue, hmem, -⟩ := s.submit_result ⟨vf, q, addr, true, none, none, none, none⟩
      rw [State.doorbell_submits hal hroom] at hexec
      exact ⟨_, hexec, hsub, State.queue_submit .., hdue, hmem⟩
    · rw [State.doorbell_drops h] at hexec
      exact ⟨_, hexec, rfl, State.queue_updQueue_same .., State.sameMemory_updQueue ..⟩
  case freeRead =>
    intro vf q s hin hp hq hroom
    have hhub : s.SameMemory { s with hub := { s.hub with hostOut := s.hub.hostOut ++ [s.qdb vf q] } } .nowhere 0 :=
      ⟨fun _ _ => rfl, fun _ _ _ _ => rfl, fun _ _ _ _ => rfl, fun q _ _ => by cases q <;> rfl⟩
    exact ⟨_, s.qdb vf q, exec_qdbRead_serves hp hq hin, rfl, State.toNat_qdb hroom, State.queue_updQueue_same ..,
      hhub.trans (State.sameMemory_updQueue ..)⟩
  case append =>
    intro sub bs p s u hone hwaits hrefused hthread hlen hbytes k hen hfront
    obtain ⟨hdone, happ⟩ : (s.serveSubmission sub).submissions = [] ∧ s.Appended sub bs p (s.serveSubmission sub) := by
      rcases hbytes with ⟨hgiven, rfl⟩ | ⟨hnone, hread⟩
      · exact State.serveSubmission_given hone hrefused hthread hlen hen hgiven hfront
      · exact State.serveSubmission_reads hone hrefused hthread hlen hen hnone hread hfront
    exact ⟨_, _, exec_queueAppend_one hone hwaits hdone, hdone, happ.run, rfl, rfl, rfl, rfl, rfl, happ.queue, happ.due, happ.bytes,
      happ.memory⟩
  case qcb => exact fun vf q s => ⟨exec_qcbRead_accepts, exec_qcbRead_refuses⟩
  case flags =>
    intro r x s hrun hrel hall hsome
    obtain ⟨hflags, hclusters, hmem⟩ := State.flushFlags_result hrun hrel hall
    exact ⟨_, exec_flagPropagate_flushes hall hsome, hflags, hclusters, hmem⟩

end

section
/-! Pre-emption (R379 to R381): which packs may be pre-empted, how they stop, and the drain limit. -/
namespace Sys2Proof.Machine

theorem exec_preemptReactPack (r : Nat) (s : State) : exec (.preemptReactPack r) s = execPreemptReactPack r s := rfl
theorem exec_preemptGangPack (r : Nat) (s : State) : exec (.preemptGangPack r) s = execPreemptGangPack r s := rfl
theorem exec_drainLimitExpiry (r : Nat) (s : State) : exec (.drainLimitExpiry r) s = execDrainLimitExpiry r s := rfl
theorem exec_packSave (r : Nat) (s : State) : exec (.packSave r) s = execPackSave r s := rfl
theorem exec_resumePack (r : Nat) (s : State) : exec (.resumePack r) s = execResumePack r s := rfl

theorem Rec.isGang_iff {y : Rec} : Rec.isGang y = true ↔ Rec.kind y = 2 := beq_iff_eq
theorem Rec.isReact_iff {y : Rec} : Rec.isReact y = true ↔ Rec.kind y = 1 := beq_iff_eq

theorem Rec.not_isGang_of_react {y : Rec} (h : Rec.kind y = 1) : Rec.isGang y = false := by
  rw [← Bool.not_eq_true, Rec.isGang_iff, h]
  decide

theorem Rec.not_isReact_of_gang {y : Rec} (h : Rec.kind y = 2) : Rec.isReact y = false := by
  rw [← Bool.not_eq_true, Rec.isReact_iff, h]
  decide

/-! ## Which packs may be pre-empted (R379, R382, R383) -/

theorem Run.saveSize_eq (x : Run) : x.saveSize = (let n := Rec.packw x.rec_ * Rec.packh x.rec_
    if Rec.kind x.rec_ = 2 then
      0x100 + n * (0x416000 + Rec.cores x.rec_ * 0x40200 + Rec.cores x.rec_ * Rec.threads x.rec_ * 0x2500)
    else 0x100 + n * (0x497100 + Rec.cores x.rec_ * 0x40200)) := by
  simp only [Run.saveSize, Rec.isGang_iff]

theorem Run.preemptible_iff (x : Run) :
    x.preemptible = true ↔ x.phase = .running ∧ Rec.save x.rec_ ≠ 0 ∧ x.saveSize ≤ Rec.savecap x.rec_ := by
  simp only [Run.preemptible, Bool.and_eq_true, beq_iff_eq, bne_iff_ne, decide_eq_true_eq, and_assoc]

/-! ## How a pack stops (R380, R381) -/

/-- A run that drains before it is saved. -/
def Run.drained (x : Run) (now : Nat) : Run := { x with phase := .draining, drainAt := now }

/-- A thread set of a GANG pack at an instruction boundary stops; one whose fault was refused takes its trap first (entry 65). -/
def Thread.preempted (th : Thread) : Thread :=
  if th.status = .ready ∧ th.refused.isNone then { th with status := .stopped, wait := none } else th

theorem Thread.preempted_fields (th : Thread) :
    th.preempted.status = (if th.status = .ready ∧ th.refused = none then .stopped else th.status) ∧ th.preempted.pc = th.pc ∧
      th.preempted.refused = th.refused := by
  simp only [Thread.preempted, Option.isNone_iff_eq_none]
  split <;> exact ⟨rfl, rfl, rfl⟩

def State.stopRanks (s : State) (l : List TsId) : State := l.foldl (fun s t => s.updThread t Thread.preempted) s

theorem exec_preemptReactPack_stops {s : State} {r : Nat} {x : Run} (hx : s.run? r = some x) (hp : x.preemptible = true)
    (hk : Rec.kind x.rec_ = 1) : exec (.preemptReactPack r) s = .next ((s.setRun r (x.drained s.fclk)).postOnce (.packSave r)) := by
  simp only [exec_preemptReactPack, execPreemptReactPack, hx, hp, Rec.isReact_iff.2 hk, Bool.and_self, if_true]
  rfl

theorem exec_preemptGangPack_stops {s : State} {r : Nat} {x : Run} (hx : s.run? r = some x) (hp : x.preemptible = true)
    (hk : Rec.kind x.rec_ = 2) : exec (.preemptGangPack r) s =
      .next (((s.stopRanks x.ranked).setRun r (x.drained (s.stopRanks x.ranked).fclk)).postOnce (.packSave r)) := by
  simp only [exec_preemptGangPack, execPreemptGangPack, hx, hp, Rec.isGang_iff.2 hk, Bool.and_self, if_true]
  rfl

theorem exec_preempt_refused {s : State} {r : Nat} {x : Run} (hx : s.run? r = some x) (hp : x.preemptible = false) :
    exec (.preemptReactPack r) s = .next s ∧ exec (.preemptGangPack r) s = .next s := by
  simp only [exec_preemptReactPack, execPreemptReactPack, exec_preemptGangPack, execPreemptGangPack, hx, hp, Bool.false_and,
    Bool.false_eq_true, if_false, and_self]

/-- Two names of one thread set: what a stop looks at is the same. -/
theorem State.thread_stop_eq (s : State) {t u : TsId} (h : TsId.key u = TsId.key t) :
    (s.thread t).status = (s.thread u).status ∧ (s.thread t).pc = (s.thread u).pc ∧ (s.thread t).refused = (s.thread u).refused := by
  simp only [State.thread, NMap.get, h]
  cases NMap.find? s.threads (TsId.key t) with
  | some th => exact ⟨rfl, rfl, rfl⟩
  | none =>
    simp only [Option.getD_none]
    cases isFirmware t <;> cases isFirmware u <;> exact ⟨rfl, rfl, rfl⟩

/-- The status of a thread set that stops. -/
def Thread.stoppedStatus (th : Thread) : TStatus := if th.status = .ready ∧ th.refused = none then .stopped else th.status

/-- The second thread set is the first, stopped. -/
structure Thread.StoppedAs (th v : Thread) : Prop where
  status : v.status = th.stoppedStatus
  pc : v.pc = th.pc
  refused : v.refused = th.refused

/-- A thread set that stands as before, or has stopped, stops. -/
theorem Thread.stoppedAs_preempted {th v : Thread} (hst : v.status = th.status ∨ v.status = th.stoppedStatus) (hpc : v.pc = th.pc)
    (href : v.refused = th.refused) : th.StoppedAs v.preempted := by
  obtain ⟨fst, fpc, fref⟩ := v.preempted_fields
  refine ⟨?_, fpc.trans hpc, fref.trans href⟩
  rw [fst, href]
  rcases hst with hst | hst
  · rw [hst, Thread.stoppedStatus]
  · rw [hst, Thread.stoppedStatus]
    by_cases h : th.status = .ready ∧ th.refused = none
    · simp [h]
    · simp [h]

/-- A thread set that may stop: it stands as before, or has stopped. -/
structure State.MayStop (s : State) (u : TsId) (v : State) : Prop where
  status : (v.thread u).status = (s.thread u).status ∨ (v.thread u).status = (s.thread u).stoppedStatus
  pc : (v.thread u).pc = (s.thread u).pc
  refused : (v.thread u).refused = (s.thread u).refused

theorem State.MayStop.stops {s v : State} {u t : TsId} (h : s.MayStop u v) (hk : TsId.key u = TsId.key t) :
    (s.thread u).StoppedAs ((v.updThread t Thread.preempted).thread u) := by
  obtain ⟨est, epc, eref⟩ := v.thread_stop_eq hk
  rw [State.thread_updThread_of_key _ hk]
  exact Thread.stoppedAs_preempted (est ▸ h.status) (epc.trans h.pc) (eref.trans h.refused)

theorem Thread.StoppedAs.mayStop {s v : State} {u : TsId} (h : (s.thread u).StoppedAs (v.thread u)) : s.MayStop u v :=
  ⟨.inr h.status, h.pc, h.refused⟩

theorem State.thread_stopRanks {s : State} {l : List TsId} {u : TsId} (hu : u ∈ l) :
    (s.thread u).StoppedAs ((s.stopRanks l).thread u) := by
  refine foldl_establishes (f := fun s t => s.updThread t Thread.preempted) (I := s.MayStop u)
    (P := fun v => (s.thread u).StoppedAs (v.thread u)) (Q := fun t => TsId.key u = TsId.key t) (fun v t h => ?_)
    (fun v t h hk => h.stops hk) (fun v t h hs => ?_) l s ⟨.inl rfl, rfl, rfl⟩ (.inl ⟨u, hu, rfl⟩)
  · by_cases hk : TsId.key u = TsId.key t
    · exact (h.stops hk).mayStop
    · have hother := State.thread_updThread_ne v t u Thread.preempted hk
      exact ⟨hother ▸ h.status, hother ▸ h.pc, hother ▸ h.refused⟩
  · by_cases hk : TsId.key u = TsId.key t
    · exact h.stops hk
    · rwa [State.thread_updThread_ne v t u Thread.preempted hk]

theorem State.stopRanks_keeps (s : State) (l : List TsId) : s.MemoryKept (s.stopRanks l) ∧ (s.stopRanks l).fclk = s.fclk :=
  ⟨State.memoryKept_foldl (fun t _ => t.memoryKept_updThread ..) s l,
    List.foldlRecOn (motive := fun t : State => t.fclk = s.fclk) _ _ rfl (fun _ h _ _ => h)⟩

/-- A REACT pack drains, and its activations go on. -/
theorem exec_preemptReactPack_result {s : State} {r : Nat} {x : Run} (hx : s.run? r = some x) (hp : x.preemptible = true)
    (hk : Rec.kind x.rec_ = 1) : ∃ t, exec (.preemptReactPack r) s = .next t ∧
      t.run? r = some { x with phase := .draining, drainAt := s.fclk } ∧ Instr.packSave r ∈ t.pending ∧ t.threads = s.threads ∧
      t.acts = s.acts ∧ s.SameMemory t .nowhere 0 := by
  obtain ⟨hrun, hdue, hmem⟩ := s.setRun_postOnce r (x.drained s.fclk) (.packSave r)
  exact ⟨_, exec_preemptReactPack_stops hx hp hk, hrun, hdue, by simp, by simp, hmem.sameMemory⟩

/-- A GANG pack stops at instruction boundaries. -/
theorem exec_preemptGangPack_result {s : State} {r : Nat} {x : Run} (hx : s.run? r = some x) (hp : x.preemptible = true)
    (hk : Rec.kind x.rec_ = 2) : ∃ t, exec (.preemptGangPack r) s = .next t ∧
      t.run? r = some { x with phase := .draining, drainAt := s.fclk } ∧ Instr.packSave r ∈ t.pending ∧
      (∀ u ∈ x.ranked, (t.thread u).status = (s.thread u).stoppedStatus ∧ (t.thread u).pc = (s.thread u).pc) ∧
      s.SameMemory t .nowhere 0 := by
  obtain ⟨hstop, hclk⟩ := s.stopRanks_keeps x.ranked
  obtain ⟨hrun, hdue, hmem⟩ := (s.stopRanks x.ranked).setRun_postOnce r (x.drained (s.stopRanks x.ranked).fclk) (.packSave r)
  refine ⟨_, exec_preemptGangPack_stops hx hp hk, hrun.trans (by rw [hclk]; rfl), hdue, fun u hu => ?_, (hstop.trans hmem).sameMemory⟩
  rw [State.thread_congr (s := s.stopRanks x.ranked) (by simp)]
  have hu' := State.thread_stopRanks (s := s) hu
  exact ⟨hu'.status, hu'.pc⟩

/-! ## The drain limit (R131, R380) -/

/-- The activations that the drain limit ends. -/
def State.drainees (s : State) (r : Nat) : List (ActKey × Act) :=
  s.acts.filter (fun a => a.1.run == r && !a.2.handler && a.2.ending != some .reject)

def State.abortActs (s : State) (l : List (ActKey × Act)) : State :=
  l.foldl (fun s a => s.endAct a.1 (fun a => { a with ending := some .abort })) s

theorem exec_drainLimitExpiry_due {s : State} {r : Nat} {x : Run} (hx : s.run? r = some x) (hp : x.phase = .draining)
    (hk : Rec.kind x.rec_ = 1) (hdue : x.drainAt + 180000 ≤ s.fclk) :
    exec (.drainLimitExpiry r) s = .next (s.abortActs (s.drainees r)) := by
  simp only [exec_drainLimitExpiry, execDrainLimitExpiry, hx, hp, Rec.isReact_iff.2 hk, hdue, beq_self_eq_true, decide_true, Bool.and_self,
    if_true]
  rfl

theorem exec_drainLimitExpiry_early {s : State} {r : Nat} {x : Run} (hx : s.run? r = some x) (hearly : s.fclk < x.drainAt + 180000) :
    exec (.drainLimitExpiry r) s = .next s := by
  simp only [exec_drainLimitExpiry, execDrainLimitExpiry, hx, decide_eq_false (Nat.not_le.2 hearly), Bool.and_false, Bool.false_eq_true,
    if_false]

theorem find?_actSet_ne {k k' : ActKey} (h : k' ≠ k) (a : Act) (l : List (ActKey × Act)) :
    (actSet k a l).find? (fun e => e.1 = k') = l.find? (fun e => e.1 = k') := by
  induction l with
  | nil => simp [actSet, h.symm]
  | cons e l ih =>
    obtain ⟨j, b⟩ := e
    unfold actSet
    split
    · next hj => simp [hj, h.symm]
    · simp only [List.find?_cons, ih]

theorem State.act?_setAct_ne {s : State} {k k' : ActKey} (h : k' ≠ k) (a : Act) : (s.setAct k a).act? k' = s.act? k' := by
  simp only [State.act?, State.setAct, find?_actSet_ne h]

/-- The end of an activation leaves the records of the others. -/
theorem State.act?_endAct_ne {s : State} {k k' : ActKey} (h : k' ≠ k) (f : Act → Act) : (s.endAct k f).act? k' = s.act? k' := by
  cases ha : s.act? k with
  | none =>
    have hend : s.endAct k f = s.postOnce (.commit k) := by simp only [State.endAct, ha, State.updAct, List.foldl_nil]
    rw [hend, State.act?_congr (State.postOnce_acts ..)]
  | some a =>
    obtain ⟨hacts, -⟩ := s.holdSets_acts k a.sets
    rw [State.endAct_eq ha, State.act?_congr (State.postOnce_acts ..), State.updAct_eq ((State.act?_congr hacts k).trans ha),
      State.act?_setAct_ne h, State.act?_congr hacts]

theorem State.pending_subset_endAct (s : State) (k : ActKey) (f : Act → Act) : s.pending ⊆ (s.endAct k f).pending := by
  cases ha : s.act? k with
  | none =>
    have hend : s.endAct k f = s.postOnce (.commit k) := by simp only [State.endAct, ha, State.updAct, List.foldl_nil]
    rw [hend]
    exact State.pending_subset_postOnce ..
  | some a =>
    have hpend : (s.holdSets k a.sets).pending = s.pending :=
      List.foldlRecOn (motive := fun t : State => t.pending = s.pending) _ _ rfl (fun _ h _ _ => h)
    rw [State.endAct_eq ha, ← hpend]
    exact List.Subset.trans (by simp) (State.pending_subset_postOnce ..)

/-- An activation that has been aborted: its record says so, with its ages, and its commit step is due. -/
def State.Aborted (s : State) (k : ActKey) (ages : List (BitVec 32)) : Prop :=
  ∃ b, s.act? k = some b ∧ b.ending = some .abort ∧ b.ages = ages ∧ Instr.commit k ∈ s.pending

theorem State.aborted_endAct {s : State} {k : ActKey} {a : Act} (ha : s.act? k = some a) :
    (s.endAct k (fun a => { a with ending := some .abort })).Aborted k a.ages := by
  obtain ⟨hact, hdue, -⟩ := State.endAct_result ha (fun a => { a with ending := some .abort })
  exact ⟨_, hact, rfl, rfl, hdue⟩

/-- Every activation listed is aborted, whose record stands. -/
theorem State.aborted_abortActs {s : State} {k : ActKey} {a : Act} {l : List (ActKey × Act)} (ha : s.act? k = some a) (hl : (k, a) ∈ l) :
    (s.abortActs l).Aborted k a.ages := by
  have hends (v : State) (e : ActKey × Act) (h : ∃ b, v.act? k = some b ∧ b.ages = a.ages) (hk : e.1 = k) :
      (v.endAct e.1 (fun a => { a with ending := some .abort })).Aborted k a.ages := by
    obtain ⟨b, hb, hages⟩ := h
    rw [hk, ← hages]
    exact State.aborted_endAct hb
  refine foldl_establishes (f := fun s e => s.endAct e.1 (fun a => { a with ending := some .abort }))
    (I := fun v => ∃ b, v.act? k = some b ∧ b.ages = a.ages) (Q := fun e => e.1 = k) (P := fun v => v.Aborted k a.ages)
    (fun v e h => ?_) (fun v e h hk => hends v e h hk) (fun v e h hp => ?_) l s ⟨a, ha, rfl⟩ (.inl ⟨(k, a), hl, rfl⟩)
  · by_cases hk : e.1 = k
    · obtain ⟨b, hb, -, hages, -⟩ := hends v e h hk
      exact ⟨b, hb, hages⟩
    · rwa [State.act?_endAct_ne (Ne.symm hk)]
  · by_cases hk : e.1 = k
    · exact hends v e h hk
    · obtain ⟨b, hb, hend, hages, hdue⟩ := hp
      exact ⟨b, (State.act?_endAct_ne (Ne.symm hk) _).trans hb, hend, hages, State.pending_subset_endAct _ _ _ hdue⟩

/-- One that is not listed keeps its record. -/
theorem State.act?_abortActs_of_not_mem {s : State} {k : ActKey} {l : List (ActKey × Act)} (h : ∀ e ∈ l, e.1 ≠ k) :
    (s.abortActs l).act? k = s.act? k :=
  List.foldlRecOn (motive := fun t : State => t.act? k = s.act? k) _ _ rfl
    (fun _ ht e he => (State.act?_endAct_ne (h e he).symm _).trans ht)

theorem State.mem_of_act? {s : State} {k : ActKey} {a : Act} (h : s.act? k = some a) : (k, a) ∈ s.acts := by
  obtain ⟨⟨j, b⟩, hfind, rfl⟩ := Option.map_eq_some_iff.1 h
  obtain rfl : j = k := of_decide_eq_true (List.find?_some (p := fun e : ActKey × Act => decide (e.1 = k)) hfind)
  exact List.mem_of_find?_eq_some hfind

/-- With different keys, an activation has one record. -/
theorem State.eq_of_mem_acts {s : State} {k : ActKey} {a b : Act} (hn : (s.acts.map (·.1)).Nodup) (ha : s.act? k = some a)
    (hb : (k, b) ∈ s.acts) : b = a :=
  congrArg Prod.snd (List.inj_on_of_nodup_map hn hb (State.mem_of_act? ha) rfl)

/-- The drain limit aborts what has not reached its commit event. -/
theorem exec_drainLimitExpiry_result {s : State} {r : Nat} {x : Run} (hx : s.run? r = some x) (hp : x.phase = .draining)
    (hk : Rec.kind x.rec_ = 1) (hdue : x.drainAt + 180000 ≤ s.fclk) (hn : (s.acts.map (·.1)).Nodup) :
    ∃ t, exec (.drainLimitExpiry r) s = .next t ∧
      (∀ k a, s.act? k = some a → k.run = r → a.handler = false → a.ending ≠ some .reject → t.Aborted k a.ages) ∧
      (∀ k a, s.act? k = some a → k.run ≠ r ∨ a.handler = true → t.act? k = some a) ∧ s.SameMemory t .nowhere 0 := by
  refine ⟨_, exec_drainLimitExpiry_due hx hp hk hdue, fun k a ha hrun hhand hrej => ?_, fun k a ha hout => ?_, ?_⟩
  · refine State.aborted_abortActs ha (List.mem_filter.2 ⟨State.mem_of_act? ha, ?_⟩)
    simp [hrun, hhand, hrej]
  · rw [State.act?_abortActs_of_not_mem fun e he hk => ?_, ha]
    obtain ⟨hmem, hcond⟩ := List.mem_filter.1 he
    obtain ⟨j, b⟩ := e
    obtain rfl : j = k := hk
    obtain rfl := State.eq_of_mem_acts hn ha hmem
    simp only [Bool.and_eq_true, beq_iff_eq, Bool.not_eq_true'] at hcond
    obtain ⟨⟨hmine, hbody⟩, -⟩ := hcond
    exact hout.elim (fun h => h hmine) (fun h => Bool.false_ne_true (hbody.symm.trans h))
  · exact (State.endActs_keeps s _ _).1.sameMemory

end Sys2Proof.Machine
end

section
/-! The save of a pack (R379, R382, R383): the header of its save area, and what the write of the area leaves. -/
namespace Sys2Proof.Machine

/-! ## Numbers in a byte string -/

theorem bytesIn_append {a b : List Byte} {off n : Nat} (h : a.length = off) : bytesIn (a ++ b) off n = b.take n := by
  rw [bytesIn, ← h, List.drop_left]

theorem dwords_cons (v : Nat) (l : List Nat) : dwords (v :: l) = leBytes 8 v ++ dwords l := rfl

theorem length_dwords (l : List Nat) : (dwords l).length = 8 * l.length := by
  induction l with
  | nil => rfl
  | cons v l ih => rw [dwords_cons, List.length_append, length_leBytes, ih, List.length_cons, Nat.mul_succ, Nat.add_comm]

/-- A dword of a list of them. -/
theorem natIn_dwords (l : List Nat) (more : List Byte) {i v : Nat} (h : l[i]? = some v) (hv : v < 2 ^ 64) :
    natIn (dwords l ++ more) (8 * i) 8 = v := by
  obtain ⟨hi, rfl⟩ := List.getElem?_eq_some_iff.1 h
  have hsplit : dwords l = dwords (l.take i) ++ (leBytes 8 l[i] ++ dwords (l.drop (i + 1))) := by
    rw [← dwords_cons, ← List.drop_eq_getElem_cons hi, dwords, dwords, dwords, ← List.flatMap_append, List.take_append_drop]
  have hoff : (dwords (l.take i)).length = 8 * i := by rw [length_dwords, List.length_take, Nat.min_eq_left (Nat.le_of_lt hi)]
  rw [natIn, hsplit, List.append_assoc, bytesIn_append hoff, List.append_assoc, List.take_left' (length_leBytes ..), leNat_leBytes]
  exact Nat.mod_eq_of_lt hv

theorem leNat_zeros (n : Nat) : leNat (zeros n) = 0 := by
  induction n with
  | zero => rfl
  | succ n ih =>
    rw [zeros, List.replicate_succ, leNat, ← zeros, ih]
    rfl

/-- A string that is brought to a length has zeros behind it. -/
theorem padTo_eq {n : Nat} {bs : List Byte} (h : bs.length ≤ n) : padTo n bs = bs ++ zeros (n - bs.length) := by
  rw [padTo, List.take_of_length_le h]

/-! ## The header (R382) -/

/-- The dwords of a header. -/
def State.headerWords (s : State) (r : Nat) (x : Run) : List Nat :=
  [0x45564153 + 2 ^ 32 * (if Rec.isReact x.rec_ then 1 else 2) + 2 ^ 40, x.saveSize, x.runtime s.fclk, (s.packFlags r x).toNat,
    if Rec.isReact x.rec_ then x.firings else 0]

theorem State.saveBytes_eq (s : State) (r : Nat) (x : Run) : s.saveBytes r x =
    dwords (s.headerWords r x) ++ (zeros 216 ++ x.clusters.flatMap (s.clusterBytes x)) := by
  have hpad : s.saveHeader r x = dwords (s.headerWords r x) ++ zeros 216 := padTo_eq (n := 256) (bs := dwords (s.headerWords r x))
    (by rw [length_dwords]; exact Nat.le_of_ble_eq_true rfl)
  rw [State.saveBytes, hpad, List.append_assoc]

theorem State.saveHeader_result {s : State} {r : Nat} {x : Run} (hf : x.firings < 2 ^ 64)
    (ht : x.ranBefore + (s.fclk - x.placedAt) < 2 ^ 64) (hs : x.saveSize < 2 ^ 64) : let bs := s.saveBytes r x
    natIn bs 0 8 = 0x45564153 + 2 ^ 32 * (if Rec.kind x.rec_ = 1 then 1 else 2) + 2 ^ 40 ∧ natIn bs 8 8 = x.saveSize ∧
    natIn bs 16 8 = x.ranBefore + (s.fclk - x.placedAt) ∧ natIn bs 24 8 = (s.packFlags r x).toNat ∧
    natIn bs 32 8 = (if Rec.kind x.rec_ = 1 then x.firings else 0) ∧ natIn bs 40 216 = 0 := by
  intro bs
  have hword {i v : Nat} (h : (s.headerWords r x)[i]? = some v) (hv : v < 2 ^ 64) : natIn bs (8 * i) 8 = v := by
    simp only [bs, State.saveBytes_eq]
    exact natIn_dwords _ _ h hv
  have hflags := (s.packFlags r x).isLt
  refine ⟨?_, hword (i := 1) rfl hs, hword (i := 2) rfl ht, hword (i := 3) rfl (by omega), ?_, ?_⟩
  · simp only [← Rec.isReact_iff]
    exact hword (i := 0) rfl (by split <;> omega)
  · simp only [← Rec.isReact_iff]
    exact hword (i := 4) rfl (by split <;> omega)
  · have hlen : (dwords (s.headerWords r x)).length = 40 := length_dwords _
    simp only [natIn, bs, State.saveBytes_eq, bytesIn_append hlen]
    rw [List.take_left' (show (zeros 216).length = 216 from List.length_replicate ..), leNat_zeros]

/-! ## The chains of the leash holders (R309) -/

/-- What is asked of every entry of a map, and of no default, is asked of the map with an entry that does as the one before. -/
theorem NMap.any_set {α : Type} {m : NMap α} {n : Nat} {a d : α} {p : α → Bool} (ha : p a = p (NMap.get m n d)) (hd : p d = false) :
    (NMap.set m n a).any (fun e => p e.2) = m.any (fun e => p e.2) := by
  have hnew (l : NMap α) (h : p a = p (NMap.get l n d)) (hp : p a = true) : l.any (fun e => p e.2) = true := by
    rw [hp, NMap.get] at h
    cases hfind : NMap.find? l n with
    | none => rw [hfind, Option.getD_none, hd] at h; exact nomatch h
    | some u =>
      rw [hfind, Option.getD_some] at h
      exact List.any_eq_true.2 ⟨_, NMap.mem_of_find? hfind, h.symm⟩
  induction m with
  | nil =>
    simp only [NMap.get, NMap.find?, Option.getD_none] at ha
    simp only [NMap.set, List.any_cons, List.any_nil, ha, hd, Bool.or_self]
  | cons e m ih =>
    obtain ⟨k, v⟩ := e
    unfold NMap.set
    split
    · rw [List.any_cons]
      cases hp : p a with
      | false => rfl
      | true => rw [hnew _ ha hp]; rfl
    · split
      · next hk =>
        subst hk
        simp only [NMap.get, NMap.find?, if_true, Option.getD_some] at ha
        simp only [List.any_cons, ha]
      · next hk =>
        have hget : NMap.get ((k, v) :: m) n d = NMap.get m n d := by simp only [NMap.get, NMap.find?, hk, if_false]
        rw [List.any_cons, List.any_cons, ih (hget ▸ ha)]

/-- What the parking of chains leaves: it changes thread sets and the buffers of clusters. -/
structure State.Parks (s t : State) : Prop where
  seats : s.Reseats t
  held : ∀ l, t.lineHeld l = s.lineHeld l
  misses : ∀ c, (t.cluster c).misses = (s.cluster c).misses
  run : ∀ c, (t.cluster c).run = (s.cluster c).run
  raised : ∀ c, (t.cluster c).raised = (s.cluster c).raised

theorem State.Parks.refl (s : State) : s.Parks s := ⟨.refl s, fun _ => rfl, fun _ => rfl, fun _ => rfl, fun _ => rfl⟩

theorem State.Parks.trans {s t u : State} (h : s.Parks t) (g : t.Parks u) : s.Parks u where
  seats := h.seats.trans g.seats
  held l := (g.held l).trans (h.held l)
  misses c := (g.misses c).trans (h.misses c)
  run c := (g.run c).trans (h.run c)
  raised c := (g.raised c).trans (h.raised c)

theorem State.parks_updThread (s : State) (t : TsId) (f : Thread → Thread) : s.Parks (s.updThread t f) :=
  ⟨s.reseats_setThread t _, fun _ => rfl, fun _ => rfl, fun _ => rfl, fun _ => rfl⟩

theorem State.parks_writeBuf (s : State) (c off : Nat) (bs : List Byte) :
    s.Parks (s.updCluster c (fun u => u.writeBuf .cbuf off bs)) := by
  have hcluster {β : Type} (f : Cluster → β) (hf : ∀ u : Cluster, f (u.writeBuf .cbuf off bs) = f u) (d : Nat) :
      f ((s.updCluster c (fun u => u.writeBuf .cbuf off bs)).cluster d) = f (s.cluster d) := by
    by_cases h : d = c
    · rw [h, State.cluster_updCluster_same, hf]
    · rw [State.cluster_updCluster_ne _ _ _ _ h]
  refine ⟨s.reseats_updCluster .., fun l => ?_, hcluster _ fun _ => rfl, hcluster _ fun _ => rfl, hcluster _ fun _ => rfl⟩
  exact NMap.any_set (m := s.clusters) (n := c) (a := (s.cluster c).writeBuf .cbuf off bs) (d := Cluster.reset)
    (p := fun u => u.relayouts.any (fun r => r.moving.any (fun b => b.lines.contains l))) rfl rfl

theorem State.parks_park (s : State) (t : TsId) : s.Parks (s.park t) := by
  have hsave (c : Chain) (v : State) : v.Parks (if c.state = .live then
      v.updCluster t.cluster (fun u => u.writeBuf .cbuf (parkSlot t) (Block.bytes (s.cluster t.cluster).array.block)) else v) := by
    split
    · exact v.parks_writeBuf ..
    · exact .refl v
  unfold State.park
  dsimp only
  split
  · exact hsave _ s
  · exact (hsave _ s).trans (State.parks_updThread ..)

theorem State.parks_parkAll (s : State) (x : Run) : s.Parks (s.parkAll x) := by
  refine List.foldlRecOn (motive := fun v : State => s.Parks v) _ _ (.refl s) (fun v h c _ => h.trans ?_)
  cases hc : (v.cluster c).array.holder with
  | some t => exact v.parks_park t
  | none => exact .refl v

theorem State.Parks.walkFrom {s t : State} (h : s.Parks t) (vf va : Nat) (levels : List Nat) (base : Nat) :
    t.walkFrom vf va levels base = s.walkFrom vf va levels base := by
  induction levels generalizing base with
  | nil => rfl
  | cons lo rest ih =>
    have hread (a : Nat) : t.physRead vf a 8 = s.physRead vf a 8 := by
      obtain ⟨th, co, cl, rfl⟩ := h.seats
      rfl
    simp only [State.walkFrom, ih, hread, h.held]

/-- Parked chains have no part in where the front end's access leads. -/
theorem State.Parks.engineAt {s t : State} (h : s.Parks t) {vf : Nat} {need : Need} {va : Word} {q : Place} {pa : Nat}
    (hat : s.EngineAt (frontEnd vf) need va (.phys q pa)) : t.EngineAt (frontEnd vf) need va (.phys q pa) := by
  have hwalks (n : Nat) : t.walk vf n = s.walk vf n := by
    have hfn : t.fn vf = s.fn vf := by
      obtain ⟨th, co, cl, rfl⟩ := h.seats
      rfl
    simp only [State.walk, hfn, h.walkFrom]
  have hmisses (n : Nat) : t.missOf fwNode vf n = s.missOf fwNode vf n := by simp only [State.missOf, h.misses]
  have hplace : ∀ n, t.place n = s.place n := by
    obtain ⟨th, co, cl, rfl⟩ := h.seats
    exact fun _ => rfl
  have hdown : ∀ n, t.homeDown vf n = s.homeDown vf n := by
    obtain ⟨th, co, cl, rfl⟩ := h.seats
    exact fun _ => rfl
  cases hat with
  | page _ _ _ _ hpage =>
    obtain ⟨e, hfind, -⟩ := hpage
    exact nomatch hfind
  | walk e _ _ hpipe hspace hscratch hmiss hwalk hperm hpa hq hup =>
    exact .walk e _ _ hpipe hspace hscratch ((hmisses _).trans hmiss) ((hwalks _).trans hwalk) hperm hpa ((hplace _).trans hq)
      (fun hc => (hdown _).trans (hup hc))

/-- Other host memory stands in both states. -/
theorem State.Parks.hosted {s t : State} (h : s.Parks t) (m : ByteMap) :
    State.Parks { s with hub := { s.hub with hostMem := m } } { t with hub := { t.hub with hostMem := m } } := by
  refine ⟨?_, h.held, h.misses, h.run, h.raised⟩
  obtain ⟨th, co, cl, rfl⟩ := h.seats
  exact ⟨th, co, cl, rfl⟩

theorem State.Parks.hostRange {s t : State} (h : s.Parks t) {vf va n pa : Nat} {need : Need} (hr : s.HostRange vf need va n pa) :
    t.HostRange vf need va n pa :=
  ⟨hr.1, fun i hi m => (h.hosted m).engineAt (hr.2 i hi m)⟩

theorem State.Parks.packFlags {s t : State} (h : s.Parks t) (r : Nat) (x : Run) : t.packFlags r x = s.packFlags r x := by
  simp only [State.packFlags, h.run, h.raised]

/-! ## The pack leaves its clusters (R374) -/

/-- A run that has been saved. -/
def Run.saved (x : Run) (now : Nat) (flags : Flags) : Run :=
  { x with phase := .saved, preempts := x.preempts + 1, ranBefore := x.runtime now, packflags := flags, subst := [] }

/-- The pack's clusters. -/
def State.occupied (s : State) (r : Nat) (x : Run) : List Nat := x.clusters.filter (fun c => (s.cluster c).run == some r)

/-- The state in which a pack has left its clusters, and their translation caches are empty. -/
def State.vacated (s : State) (r : Nat) (x : Run) : State :=
  ((s.occupied r x).foldl State.leaveCluster s).dropTlb (fun _ => true) (s.occupied r x).contains

theorem State.reseats_vacated (s : State) (r : Nat) (x : Run) : s.Reseats (s.vacated r x) := by
  have hleave : s.Reseats ((s.occupied r x).foldl State.leaveCluster s) :=
    State.reseats_foldl (fun t c => t.reseats_leaveCluster c) s _
  exact hleave.trans ⟨_, _, _, rfl⟩

theorem State.vacated_clusters {s : State} {r : Nat} {x : Run} {c : Nat} (hc : c ∈ x.clusters) (hrun : (s.cluster c).run = some r) :
    ((s.vacated r x).cluster c).run = none ∧ ((s.vacated r x).cluster c).l2tlb = [] ∧
      ∀ k, k < 16 → ((s.vacated r x).core c k).tlb = [] := by
  have hmine : c ∈ s.occupied r x := List.mem_filter.2 ⟨hc, beq_iff_eq.2 hrun⟩
  have hcl : (s.occupied r x).contains c = true := List.contains_iff_mem.2 hmine
  have hempty (l : List TlbEntry) : l.filter (fun e => !(fun _ => true) e) = [] := List.filter_eq_nil_iff.2 (fun _ _ => Bool.false_ne_true)
  rw [State.vacated, State.cluster_dropTlb, if_pos hcl]
  refine ⟨State.run_foldl_leaveCluster (.inl hmine), hempty _, fun k hk => ?_⟩
  have hkey : coreKey c k / 16 = c := by unfold coreKey; omega
  rw [State.core_dropTlb, hkey, if_pos hcl]
  exact hempty _

/-- What a saved pack leaves. -/
theorem State.savedPack_result (s : State) (r : Nat) (x : Run) : let t := s.savedPack r x
    t.hub = s.hub ∧ t.run? r = some (x.saved s.fclk (s.packFlags r x)) ∧
      (∀ c ∈ x.clusters, (s.cluster c).run = some r → (t.cluster c).run = none ∧ (t.cluster c).l2tlb = [] ∧
        ∀ k, k < 16 → (t.core c k).tlb = []) ∧ ∀ a, t.byteAt a = s.byteAt a := by
  intro t
  have hleft (c : Nat) (hc : c ∈ x.clusters) (hrun : (s.cluster c).run = some r) := State.vacated_clusters hc hrun
  obtain ⟨th, co, cl, hvac⟩ := s.reseats_vacated r x
  let kept : State := { s.vacated r x with
    rollbacks := (s.vacated r x).rollbacks.filter (fun q => !(s.occupied r x).contains q.cluster)
    saves := NMap.set (s.vacated r x).saves r (x.clusters.map (s.remember x)) }
  let spent := Rec.packw x.rec_ * Rec.packh x.rec_ * (kept.fclk - x.placedAt)
  let counted : State := kept.updFn x.vf (fun f => { f with clusterTime := f.clusterTime + spent })
  have hclk : kept.fclk = s.fclk := by simp only [kept, hvac]
  obtain ⟨p, hp⟩ := (counted.setRun r (x.saved kept.fclk (s.packFlags r x))).dispatchDue_only_pending x.vf
  have ht : t = { counted.setRun r (x.saved kept.fclk (s.packFlags r x)) with pending := p } := hp
  rw [ht]
  refine ⟨?_, ?_, fun c hc hrun => hleft c hc hrun, fun a => ?_⟩
  · simp [counted, kept, hvac]
  · rw [← hclk]
    exact State.run?_setRun_same counted r _
  · exact State.byteAt_congr (by simp [counted, kept, hvac]) (by simp [counted, kept, hvac]) (by simp [counted, kept, hvac]) a

/-! ## The write of the save area -/

theorem State.hostMem_hosted (s : State) (m : ByteMap) (rs : NMap Run) (w : NMap Nat) (n : Nat) : (s.hosted m rs w n).hub.hostMem = m := rfl

section
variable {s : State} {r : Nat} {x : Run} (hx : s.run? r = some x) (hp : x.phase = .draining) (hfe : s.feWaits r = false)
include hx hp hfe

/-- A pack that has not come to rest is asked again. -/
theorem exec_packSave_waits (hrest : s.atRest r x = false) : exec (.packSave r) s = .next (s.postOnce (.packSave r)) := by
  simp only [exec_packSave, execPackSave, hx, hp, hfe, hrest, ne_eq, not_true_eq_false, Bool.false_eq_true, or_self, if_false,
    Bool.not_false, if_true]

/-- At rest the front end writes the area, and the pack leaves. -/
theorem exec_packSave_saves {t : State} (hrest : s.atRest r x = true) (hstop : x.stop = none) (href : x.refused = [])
    (hstore : feStore x.vf r (.packSave r) .save none (lineWrites (BitVec.ofNat 64 (Rec.save x.rec_)) ((s.parkAll x).saveBytes r x))
      (s.parkAll x) = .done t ()) : exec (.packSave r) s = .next (t.savedPack r x) := by
  simp only [exec_packSave, execPackSave, hx, hp, hfe, hrest, hstop, href, List.head?_nil, hstore, ne_eq, not_true_eq_false,
    Bool.false_eq_true, or_self, if_false, Bool.not_true, Option.isSome_none]

theorem exec_packSave_result {pa : Nat} (hrest : s.atRest r x = true) (hstop : x.stop = none) (href : x.refused = [])
    (hr : s.HostRange x.vf .w (Rec.save x.rec_) ((s.parkAll x).saveBytes r x).length pa) :
    ∃ t, exec (.packSave r) s = .next t ∧
      t.hub.hostMem = ByteMap.writes s.hub.hostMem (hostAddr pa) ((s.parkAll x).saveBytes r x) ∧
      t.run? r = some (x.saved s.fclk (s.packFlags r x)) ∧
      (∀ c ∈ x.clusters, (s.cluster c).run = some r → (t.cluster c).run = none ∧ (t.cluster c).l2tlb = [] ∧
        ∀ k, k < 16 → (t.core c k).tlb = []) ∧ ∀ a, t.byteAt a = s.byteAt a := by
  have hparks := s.parks_parkAll x
  obtain ⟨u, hstore, w, n, rfl⟩ := feStore_host r (.packSave r) .save (hparks.hostRange hr)
  let stored : State := (s.parkAll x).hosted (ByteMap.writes (s.parkAll x).hub.hostMem (hostAddr pa) ((s.parkAll x).saveBytes r x))
    (s.parkAll x).runs w n
  obtain ⟨hhub, hrun, hclusters, hbytes⟩ := stored.savedPack_result r x
  have hflags : stored.packFlags r x = s.packFlags r x := hparks.packFlags r x
  have hruns := hparks.run
  obtain ⟨th, co, cl, hseats⟩ := hparks.seats
  have hkept : (s.parkAll x).hub = s.hub ∧ (s.parkAll x).fclk = s.fclk ∧ ∀ a, (s.parkAll x).byteAt a = s.byteAt a := by
    rw [hseats]
    exact ⟨rfl, rfl, fun _ => rfl⟩
  obtain ⟨hsame, hclk, hbyte⟩ := hkept
  have hnow : stored.fclk = s.fclk := hclk
  rw [hflags, hnow] at hrun
  refine ⟨_, exec_packSave_saves hx hp hfe hrest hstop href hstore, ?_, hrun,
    fun c hc hc' => hclusters c hc ((hruns c).trans hc'), fun a => ?_⟩
  · rw [hhub, State.hostMem_hosted, hsame]
  · exact (hbytes a).trans (hbyte a)

end

end Sys2Proof.Machine
end

section
/-! The resumption of a pack (R384): what the front end reads, and what the records of the save area restore. -/
namespace Sys2Proof.Machine

/-! ## Records in a byte string -/

/-- A string in a part of a string. -/
theorem bytesIn_bytesIn {bs : List Byte} {o m p n : Nat} (h : p + n ≤ m) : bytesIn (bytesIn bs o m) p n = bytesIn bs (o + p) n := by
  rw [bytesIn, bytesIn, bytesIn, List.drop_take, List.drop_drop, List.take_take, Nat.min_eq_left (by omega)]

theorem natIn_bytesIn {bs : List Byte} {o m p n : Nat} (h : p + n ≤ m) : natIn (bytesIn bs o m) p n = natIn bs (o + p) n := by
  rw [natIn, natIn, bytesIn_bytesIn h]

theorem dwordIn_bytesIn {bs : List Byte} {o m p : Nat} (h : p + 8 ≤ m) : dwordIn (bytesIn bs o m) p = dwordIn bs (o + p) := by
  rw [dwordIn, dwordIn, natIn_bytesIn h]

/-! ## What the front end reads -/

/-- Records without a relayout hold none. -/
theorem relaysE_none {vf r : Nat} {l : List (List Byte)} (h : ∀ b ∈ l, natIn b 0 104 = 0) (s : State) :
    relaysE vf r l s = .ok ([], s) := by
  induction l with
  | nil => rfl
  | cons b l ih =>
    obtain ⟨hb, hl⟩ := List.forall_mem_cons.1 h
    simp only [relaysE, EM.bind_run, ih hl, hb, if_true, EM.pure_run]

theorem allRelaysE_none {vf r : Nat} {l : List (List Byte)}
    (h : ∀ c ∈ l, ∀ j, j < 16 → natIn c (0x1200 + 128 * j) 104 = 0) (s : State) :
    allRelaysE vf r l s = .ok (l.map (fun _ => []), s) := by
  induction l with
  | nil => rfl
  | cons c l ih =>
    obtain ⟨hc, hl⟩ := List.forall_mem_cons.1 h
    have hnone : ∀ b ∈ (upTo 16).map (fun i => bytesIn c (0x1200 + 128 * i) 128), natIn b 0 104 = 0 := by
      intro b hb
      obtain ⟨j, hj, rfl⟩ := List.mem_map.1 hb
      rw [natIn_bytesIn (by decide)]
      exact hc j (List.mem_range.1 hj)
    simp only [allRelaysE, EM.bind_run, relaysE_none hnone, ih hl, EM.pure_run, List.map_cons]

/-- The records of the clusters in a save area. -/
def Run.clusterRecords (x : Run) (bs : List Byte) : List (List Byte) :=
  (upTo x.clusters.length).map (fun c => bytesIn bs (0x100 + c * x.clusterRecord) x.clusterRecord)

theorem Run.clusterRecord_gang {x : Run} (hk : Rec.kind x.rec_ = 2) : x.clusterRecord =
    clusterFront + Rec.cores x.rec_ * coreRecord + Rec.cores x.rec_ * Rec.threads x.rec_ * threadRecord := by
  simp only [Run.clusterRecord, Rec.isGang_iff.2 hk, if_true]

theorem Run.clusterRecord_react {x : Run} (hk : Rec.kind x.rec_ = 1) : x.clusterRecord =
    0x497100 + Rec.cores x.rec_ * coreRecord := by
  simp only [Run.clusterRecord, Rec.not_isGang_of_react hk, Bool.false_eq_true, if_false]

theorem Run.entries_lt (x : Run) : ∀ a ∈ x.entries, a < 2 ^ 64 := by
  intro a ha
  unfold Run.entries at ha
  split at ha
  · obtain ⟨rule, -, rfl⟩ := List.mem_map.1 ha
    exact rule.entry.isLt
  · obtain rfl := List.mem_singleton.1 ha
    exact Rec.bits_lt ..

section
variable {s u v : State} {r : Nat} {x : Run} {bs : List Byte} (himage : s.ImageReads x.vf x.image x.entries u)
  (hread : u.EngineReads (frontEnd x.vf) (Rec.save x.rec_) x.saveSize bs v)

include himage hread in
/-- What the front end reads, up to the maps of relayouts. -/
theorem resumeE_reads {qs : List (List Relayout)}
    (hqs : (if Rec.isGang x.rec_ then allRelaysE x.vf r (x.clusterRecords bs) else pure []) v = .ok (qs, v)) :
    resumeE x r s = .ok ((bs, qs), v) := by
  have himg := imageE_ok himage x.entries_lt
  have hsave : feRead x.vf .save (BitVec.ofNat 64 (Rec.save x.rec_)) x.saveSize u = .ok (bs, v) :=
    engineRead_ok hread .save (Rec.bits_lt ..)
  unfold Run.clusterRecords at hqs
  simp only [resumeE, EM.bind_run, himg, hsave, hqs, EM.pure_run]

include himage hread in
theorem resumeE_react (hk : Rec.kind x.rec_ = 1) : resumeE x r s = .ok ((bs, []), v) :=
  resumeE_reads himage hread (by rw [if_neg (by rw [Rec.not_isGang_of_react hk]; exact Bool.false_ne_true)]; rfl)

include himage hread in
theorem resumeE_gang (hk : Rec.kind x.rec_ = 2) (hnone : ∀ i j, i < x.clusters.length → j < 16 →
      natIn bs (0x100 + i * x.clusterRecord + 0x1200 + 128 * j) 104 = 0) :
    resumeE x r s = .ok ((bs, (x.clusterRecords bs).map (fun _ => [])), v) := by
  refine resumeE_reads himage hread ?_
  rw [if_pos (Rec.isGang_iff.2 hk)]
  refine allRelaysE_none (fun c hc j hj => ?_) v
  obtain ⟨i, hi, rfl⟩ := List.mem_map.1 hc
  have hsize : clusterFront ≤ x.clusterRecord := by rw [Run.clusterRecord_gang hk]; omega
  rw [natIn_bytesIn (by unfold clusterFront at hsize; omega), ← Nat.add_assoc]
  exact hnone i j (List.mem_range.1 hi) hj

/-- A saved pack that has been placed again resumes in the state in which the front end has read what it needs. -/
theorem exec_resumePack_resumes {qs : List (List Relayout)} (hx : s.run? r = some x) (hp : x.phase = .saved) (hstop : x.stop = none)
    (hfe : s.feWaits r = false) (href : x.refused = []) (hany : ∃ c ∈ s.clusters, c.2.run = some r)
    (hread : resumeE x r s = .ok ((bs, qs), v)) : exec (.resumePack r) s = .next (v.resumeRun r x bs qs) := by
  have hplaced : s.clusters.any (fun c => c.2.run == some r) = true := by
    obtain ⟨c, hc, hrun⟩ := hany
    exact List.any_eq_true.2 ⟨c, hc, beq_iff_eq.2 hrun⟩
  simp only [exec_resumePack, execResumePack, hx, hp, hstop, hfe, href, hplaced, List.head?_nil, feDo_ok hread, ne_eq, not_true_eq_false,
    Option.isSome_none, Bool.not_true, Bool.false_eq_true, or_self, if_false]

end

/-! ## What a restored cluster leaves alone -/

/-- Thread sets, cores, clusters and rollbacks may change, but no cluster changes its run. -/
structure State.Refills (s t : State) : Prop where
  seats : ∃ th co cl rb, t = { s with threads := th, cores := co, clusters := cl, rollbacks := rb }
  run : ∀ c, (t.cluster c).run = (s.cluster c).run

theorem State.Refills.refl (s : State) : s.Refills s := ⟨⟨s.threads, s.cores, s.clusters, s.rollbacks, rfl⟩, fun _ => rfl⟩

theorem State.Refills.trans {s t u : State} (h : s.Refills t) (g : t.Refills u) : s.Refills u := by
  refine ⟨?_, fun c => (g.run c).trans (h.run c)⟩
  obtain ⟨th, co, cl, rb, rfl⟩ := h.seats
  obtain ⟨th', co', cl', rb', rfl⟩ := g.seats
  exact ⟨th', co', cl', rb', rfl⟩

theorem State.Refills.fclk {s t : State} (h : s.Refills t) : t.fclk = s.fclk := by
  obtain ⟨th, co, cl, rb, rfl⟩ := h.seats
  rfl

theorem State.Refills.byteAt {s t : State} (h : s.Refills t) (a : Nat) : t.byteAt a = s.byteAt a := by
  obtain ⟨th, co, cl, rb, rfl⟩ := h.seats
  rfl

theorem State.refills_foldl {α : Type} {f : State → α → State} (hf : ∀ (s : State) (a : α), s.Refills (f s a)) (s : State) (l : List α) :
    s.Refills (l.foldl f s) :=
  List.foldlRecOn (motive := fun t => s.Refills t) _ _ (.refl s) (fun t h a _ => h.trans (hf t a))

theorem State.refills_setThread (s : State) (t : TsId) (th : Thread) : s.Refills (s.setThread t th) :=
  ⟨⟨_, s.cores, s.clusters, s.rollbacks, rfl⟩, fun _ => rfl⟩

theorem State.refills_updCore (s : State) (c k : Nat) (f : CoreUnit → CoreUnit) : s.Refills (s.updCore c k f) :=
  ⟨⟨s.threads, _, s.clusters, s.rollbacks, rfl⟩, fun _ => rfl⟩

theorem State.refills_updCluster (s : State) (c : Nat) {f : Cluster → Cluster} (hf : ∀ u, (f u).run = u.run := by exact fun _ => rfl) :
    s.Refills (s.updCluster c f) := by
  refine ⟨⟨s.threads, s.cores, _, s.rollbacks, rfl⟩, fun d => ?_⟩
  by_cases h : d = c
  · rw [h, State.cluster_updCluster_same, hf]
  · rw [State.cluster_updCluster_ne _ _ _ _ h]

/-! ## The thread sets of a restored cluster -/

/-- The record of a GANG pack's thread set in its cluster's record. -/
def Run.threadBytes (x : Run) (bs : List Byte) (j : Nat) : List Byte :=
  bytesIn bs (clusterFront + Rec.cores x.rec_ * coreRecord + j * threadRecord) threadRecord

/-- A thread set that goes on from its record, with the rank that it now has. -/
def Thread.resumed (saved : Thread) (r : Nat) (rank : BitVec 32) (bs : List Byte) : Thread :=
  { saved.ofRecord bs with run := some r, rank := rank }

/-- The cores of a cluster restored. -/
def State.restoreCores (s : State) (x : Run) (c : Nat) (k : SavedCluster) (bs : List Byte) : State :=
  (upTo (Rec.cores x.rec_)).foldl (fun s i => s.updCore c (x.coreAt c i) (fun u =>
    u.ofRecord (k.cores.getD i CoreUnit.reset)
      (bytesIn bs ((if Rec.isGang x.rec_ then clusterFront else 0x497100) + i * coreRecord) coreRecord))) s

theorem State.restoreCores_keeps (s : State) (x : Run) (c : Nat) (k : SavedCluster) (bs : List Byte) :
    s.Refills (s.restoreCores x c k bs) ∧ (s.restoreCores x c k bs).threads = s.threads ∧
      (s.restoreCores x c k bs).clusters = s.clusters :=
  ⟨State.refills_foldl (fun t _ => t.refills_updCore ..) s _,
    List.foldlRecOn (motive := fun t : State => t.threads = s.threads) _ _ rfl (fun _ h _ _ => h),
    List.foldlRecOn (motive := fun t : State => t.clusters = s.clusters) _ _ rfl (fun _ h _ _ => h)⟩

/-- The replies that a REACT pack's thread sets had not read. -/
def State.restoreReplies (s : State) (l : List (TsId × Thread)) : State :=
  l.foldl (fun s q => s.updThread q.1 (fun t => { t with recvq := q.2.recvq })) s

/-- The thread sets of a GANG pack's cluster. -/
def State.restoreRanks (s : State) (r : Nat) (x : Run) (k : SavedCluster) (bs : List Byte) (l : List (TsId × Nat)) : State :=
  l.foldl (fun s q => (s.updThread q.1 (fun th =>
    ((k.threads[q.2]?).getD Thread.reset).resumed r th.rank (x.threadBytes bs q.2))).restorePark q.1 (x.threadBytes bs q.2)) s

theorem State.restoreSets_gang {x : Run} (hk : Rec.kind x.rec_ = 2) (s : State) (r c : Nat) (k : SavedCluster) (bs : List Byte) :
    s.restoreSets r x c k bs =
      (s.restoreCores x c k bs).restoreRanks r x k bs ((x.setsAt c).zip (upTo (x.setsAt c).length)) := by
  have hg := Rec.isGang_iff.2 hk
  simp only [State.restoreSets, State.restoreCores, hg, if_true]
  rfl

theorem State.restoreSets_react {x : Run} (hg : Rec.isGang x.rec_ = false) (s : State) (r c : Nat) (k : SavedCluster) (bs : List Byte) :
    s.restoreSets r x c k bs = (s.restoreCores x c k bs).restoreReplies ((x.setsAt c).zip k.threads) := by
  simp only [State.restoreSets, State.restoreCores, hg, Bool.false_eq_true, if_false]
  rfl

end Sys2Proof.Machine
end

section
/-! What the records of a save area restore of a cluster, and of the clusters one after the other (R382 to R384). -/
namespace Sys2Proof.Machine

/-! ## The thread sets of a cluster, each once -/

section
variable {x : Run} (hsub : x.subst = []) (hco : Rec.cores x.rec_ ≤ 16) (hth : Rec.threads x.rec_ ≤ 4)

include hsub in
theorem Run.getElem?_setsAt {c j : Nat} {u : TsId} (h : (x.setsAt c)[j]? = some u) :
    j < Rec.cores x.rec_ * Rec.threads x.rec_ ∧ u = ⟨c, j / Rec.threads x.rec_, j % Rec.threads x.rec_⟩ := by
  rw [Run.setsAt, List.getElem?_map, Option.map_eq_some_iff] at h
  obtain ⟨i, hi, rfl⟩ := h
  obtain ⟨hj, rfl⟩ := List.getElem?_eq_some_iff.1 hi
  rw [upTo, List.length_range] at hj
  simp only [upTo, List.getElem_range, Run.coreAt, hsub, List.find?_nil, Option.map_none, Option.getD_none]
  exact ⟨hj, trivial⟩

theorem Run.setsAt_getElem? (x : Run) (c : Nat) {i : Nat} (hi : i < Rec.cores x.rec_ * Rec.threads x.rec_) :
    (x.setsAt c)[i]? = some ⟨c, x.coreAt c (i / Rec.threads x.rec_), i % Rec.threads x.rec_⟩ := by
  rw [Run.setsAt, List.getElem?_map, upTo, List.getElem?_range hi, Option.map_some]

include hsub hco hth in
/-- Two records of thread sets are of one set only when they are one record. -/
theorem Run.key_setsAt_injective {c d i j : Nat} {u v : TsId} (hu : (x.setsAt c)[i]? = some u) (hv : (x.setsAt d)[j]? = some v)
    (h : TsId.key u = TsId.key v) : c = d ∧ i = j := by
  obtain ⟨hi, rfl⟩ := Run.getElem?_setsAt hsub hu
  obtain ⟨hj, rfl⟩ := Run.getElem?_setsAt hsub hv
  have ht : 0 < Rec.threads x.rec_ := Nat.pos_of_mul_pos_left (Nat.lt_of_le_of_lt (Nat.zero_le i) hi)
  have hci : i / Rec.threads x.rec_ < Rec.cores x.rec_ := (Nat.div_lt_iff_lt_mul ht).2 hi
  have hcj : j / Rec.threads x.rec_ < Rec.cores x.rec_ := (Nat.div_lt_iff_lt_mul ht).2 hj
  have hti := Nat.mod_lt i ht
  have htj := Nat.mod_lt j ht
  simp only [TsId.key] at h
  have hset : i % Rec.threads x.rec_ = j % Rec.threads x.rec_ := by omega
  have hboth : c = d ∧ i / Rec.threads x.rec_ = j / Rec.threads x.rec_ := by
    generalize i / Rec.threads x.rec_ = p at h hci ⊢
    generalize j / Rec.threads x.rec_ = q at h hcj ⊢
    omega
  obtain ⟨hcluster, hcore⟩ := hboth
  refine ⟨hcluster, ?_⟩
  rw [← Nat.div_add_mod i (Rec.threads x.rec_), ← Nat.div_add_mod j (Rec.threads x.rec_), hset, hcore]

include hsub hco hth in
theorem Run.nodup_key_setsAt (c : Nat) : ((x.setsAt c).map TsId.key).Nodup := by
  rw [Run.setsAt, List.map_map]
  exact List.Nodup.map_on (fun i hi j hj h => (Run.key_setsAt_injective hsub hco hth (x.setsAt_getElem? c (List.mem_range.1 hi))
    (x.setsAt_getElem? c (List.mem_range.1 hj)) h).2) List.nodup_range

end

theorem map_fst_zip_sublist {α β : Type} (l : List α) (m : List β) : ((l.zip m).map Prod.fst).Sublist l := by
  induction l generalizing m with
  | nil => simp
  | cons a l ih =>
    cases m with
    | nil => simp
    | cons b m => exact (ih m).cons_cons a

/-- Thread sets paired with what is theirs have the keys that they had. -/
theorem nodup_key_zip {β : Type} {l : List TsId} (h : (l.map TsId.key).Nodup) (m : List β) :
    ((l.zip m).map (fun q => TsId.key q.1)).Nodup := by
  have hmap : (l.zip m).map (fun q => TsId.key q.1) = ((l.zip m).map Prod.fst).map TsId.key := by rw [List.map_map]; rfl
  rw [hmap]
  exact h.sublist ((map_fst_zip_sublist l m).map TsId.key)

/-- Thread sets updated one after the other leave the others. -/
theorem State.thread_foldl_updThread_other {ι : Type} {t : ι → TsId} {f : ι → Thread → Thread} {l : List ι} {u : TsId} {s : State}
    (h : ∀ i ∈ l, TsId.key u ≠ TsId.key (t i)) : (l.foldl (fun s i => s.updThread (t i) (f i)) s).thread u = s.thread u :=
  List.foldlRecOn (motive := fun v : State => v.thread u = s.thread u) _ _ rfl
    (fun v hv i hi => (State.thread_updThread_ne v (t i) u (f i) (h i hi)).trans hv)

/-- The park slots that are restored with the thread sets are no part of them. -/
theorem State.threads_restoreRanks (s : State) (r : Nat) (x : Run) (k : SavedCluster) (bs : List Byte) (l : List (TsId × Nat)) :
    (s.restoreRanks r x k bs l).threads = (l.foldl (fun s q => s.updThread q.1 (fun th =>
      ((k.threads[q.2]?).getD Thread.reset).resumed r th.rank (x.threadBytes bs q.2))) s).threads := by
  have hsame (l : List (TsId × Nat)) (s v : State) (h : s.threads = v.threads) : (s.restoreRanks r x k bs l).threads =
      (l.foldl (fun s q => s.updThread q.1 (fun th =>
        ((k.threads[q.2]?).getD Thread.reset).resumed r th.rank (x.threadBytes bs q.2))) v).threads := by
    induction l generalizing s v with
    | nil => exact h
    | cons q l ih =>
      refine ih _ _ ?_
      simp only [State.restorePark, State.updThread, State.setThread, State.thread_congr h, State.updCluster, h]
  exact hsame l s s rfl

/-! ## A cluster -/

/-- The front of a cluster's record, and its kennel. -/
def State.restoreFront (s : State) (x : Run) (c : Nat) (k : SavedCluster) (qs : List Relayout) (bs : List Byte) : State :=
  let more := k.cluster.relayouts.filter (fun q => q.state == .complete) ++
    (k.cluster.relayouts.filter (fun q => q.state != .complete)).drop 16
  let clause := if Rec.isGang x.rec_ then clauseIn x k.cluster.clause (bytesIn bs 0x1A00 17792) else ClauseUnit.reset
  let s := s.updCluster c (fun u => u.ofFront k.cluster (qs ++ more) clause (bytesIn bs 0 clusterFront))
  if Rec.isReact x.rec_ then
    s.updKennel c (fun _ => k.cluster.kennel.ofRecord x.rules s.fclk (bytesIn bs clusterFront 0x81100)) else s

theorem State.restoreCluster_eq (s : State) (r : Nat) (x : Run) (c : Nat) (k : SavedCluster) (qs : List Relayout) (bs : List Byte) :
    s.restoreCluster r x c k qs bs = { (s.restoreFront x c k qs bs).restoreSets r x c k bs with
      rollbacks := ((s.restoreFront x c k qs bs).restoreSets r x c k bs).rollbacks ++
        k.rollbacks.map (fun q => { q with cluster := c }) } :=
  rfl

theorem State.restoreFront_keeps (s : State) (x : Run) (c : Nat) (k : SavedCluster) (qs : List Relayout) (bs : List Byte) :
    s.Refills (s.restoreFront x c k qs bs) ∧ (s.restoreFront x c k qs bs).threads = s.threads ∧
      ∀ d, d ≠ c → (s.restoreFront x c k qs bs).cluster d = s.cluster d := by
  unfold State.restoreFront
  dsimp only
  split
  · exact ⟨(State.refills_updCluster ..).trans (State.refills_updCluster ..), rfl, fun d h =>
      (State.cluster_updCluster_ne _ _ _ _ h).trans (State.cluster_updCluster_ne _ _ _ _ h)⟩
  · exact ⟨State.refills_updCluster .., rfl, fun d h => State.cluster_updCluster_ne _ _ _ _ h⟩

theorem State.refills_restorePark (s : State) (t : TsId) (bs : List Byte) : s.Refills (s.restorePark t bs) :=
  s.refills_updCluster t.cluster (f := fun u => { u with cbuf := ByteMap.writes u.cbuf (parkSlot t) (bytesIn bs 0x14C0 2048) })

theorem State.refills_restoreSets (s : State) (r : Nat) (x : Run) (c : Nat) (k : SavedCluster) (bs : List Byte) :
    s.Refills (s.restoreSets r x c k bs) := by
  have hcores := (s.restoreCores_keeps x c k bs).1
  cases hg : Rec.isGang x.rec_ with
  | true =>
    rw [State.restoreSets_gang (Rec.isGang_iff.1 hg)]
    exact hcores.trans (State.refills_foldl (fun t q => (t.refills_setThread ..).trans (State.refills_restorePark ..)) _ _)
  | false =>
    rw [State.restoreSets_react hg]
    exact hcores.trans (State.refills_foldl (fun t q => t.refills_setThread ..) _ _)

theorem State.refills_restoreCluster (s : State) (r : Nat) (x : Run) (c : Nat) (k : SavedCluster) (qs : List Relayout) (bs : List Byte) :
    s.Refills (s.restoreCluster r x c k qs bs) := by
  rw [State.restoreCluster_eq]
  refine ((s.restoreFront_keeps ..).1.trans (State.refills_restoreSets ..)).trans ⟨⟨_, _, _, _, rfl⟩, fun _ => rfl⟩

section
variable {s : State} {r c : Nat} {x : Run} {k : SavedCluster} {qs : List Relayout} {bs : List Byte}
  (hsub : x.subst = []) (hco : Rec.cores x.rec_ ≤ 16) (hth : Rec.threads x.rec_ ≤ 4)

theorem State.thread_restoreCores (u : TsId) :
    ((s.restoreFront x c k qs bs).restoreCores x c k bs).thread u = s.thread u := by
  rw [State.thread_congr ((State.restoreCores_keeps ..).2.1), State.thread_congr ((s.restoreFront_keeps ..).2.1)]

include hsub hco hth

/-- A GANG pack's thread set goes on from its record. -/
theorem State.thread_restoreCluster_gang (hk : Rec.kind x.rec_ = 2) {j : Nat} {u : TsId} (hj : (x.setsAt c)[j]? = some u) :
    (s.restoreCluster r x c k qs bs).thread u =
      ((k.threads[j]?).getD Thread.reset).resumed r (s.thread u).rank (x.threadBytes bs j) := by
  have hlt := (List.getElem?_eq_some_iff.1 hj).1
  have hmem : (u, j) ∈ (x.setsAt c).zip (upTo (x.setsAt c).length) :=
    List.mem_of_getElem? (List.getElem?_zip_eq_some.2 ⟨hj, List.getElem?_range hlt⟩)
  have hnodup := nodup_key_zip (Run.nodup_key_setsAt hsub hco hth c) (upTo (x.setsAt c).length)
  have hfold := State.thread_foldl_updThread (s := (s.restoreFront x c k qs bs).restoreCores x c k bs) (t := Prod.fst)
    (f := fun (q : TsId × Nat) th => ((k.threads[q.2]?).getD Thread.reset).resumed r th.rank (x.threadBytes bs q.2)) hnodup hmem
  rw [State.restoreCluster_eq, State.restoreSets_gang hk]
  refine (State.thread_congr (State.threads_restoreRanks ..) u).trans (hfold.trans ?_)
  rw [State.thread_restoreCores]

/-- A REACT pack's thread set has the replies that it had not read. -/
theorem State.recvq_restoreCluster_react (hk : Rec.kind x.rec_ = 1) {j : Nat} {u : TsId} {th : Thread}
    (hj : (x.setsAt c)[j]? = some u) (hsaved : k.threads[j]? = some th) :
    ((s.restoreCluster r x c k qs bs).thread u).recvq = th.recvq := by
  have hmem : (u, th) ∈ (x.setsAt c).zip k.threads := List.mem_of_getElem? (List.getElem?_zip_eq_some.2 ⟨hj, hsaved⟩)
  have hnodup := nodup_key_zip (Run.nodup_key_setsAt hsub hco hth c) k.threads
  have hfold := State.thread_foldl_updThread (s := (s.restoreFront x c k qs bs).restoreCores x c k bs) (t := Prod.fst)
    (f := fun (q : TsId × Thread) t => { t with recvq := q.2.recvq }) hnodup hmem
  rw [State.restoreCluster_eq, State.restoreSets_react (Rec.not_isGang_of_react hk)]
  have hreplies := congrArg Thread.recvq hfold
  exact hreplies

/-- The thread sets of the other clusters stay. -/
theorem State.thread_restoreCluster_other {d j : Nat} {u : TsId} (hd : d ≠ c) (hj : (x.setsAt d)[j]? = some u) :
    (s.restoreCluster r x c k qs bs).thread u = s.thread u := by
  have hother {β : Type} (m : List β) : ∀ q ∈ (x.setsAt c).zip m, TsId.key u ≠ TsId.key q.1 := by
    intro q hq hkey
    obtain ⟨i, hi⟩ := List.getElem?_of_mem hq
    exact hd (Run.key_setsAt_injective hsub hco hth hj (List.getElem?_zip_eq_some.1 hi).1 hkey).1
  rw [State.restoreCluster_eq, ← State.thread_restoreCores (s := s) (c := c) (k := k) (qs := qs) (bs := bs) u]
  cases hg : Rec.isGang x.rec_ with
  | true =>
    rw [State.restoreSets_gang (Rec.isGang_iff.1 hg)]
    exact (State.thread_congr (State.threads_restoreRanks ..) u).trans (State.thread_foldl_updThread_other (hother _))
  | false =>
    rw [State.restoreSets_react hg]
    exact State.thread_foldl_updThread_other (hother _)

end

/-- The cores and thread sets of a REACT pack's cluster are no part of its kennel. -/
theorem State.clusters_restoreCluster_react {s : State} {r c : Nat} {x : Run} {k : SavedCluster} {qs : List Relayout} {bs : List Byte}
    (hk : Rec.kind x.rec_ = 1) : (s.restoreCluster r x c k qs bs).clusters = (s.restoreFront x c k qs bs).clusters := by
  rw [State.restoreCluster_eq, State.restoreSets_react (Rec.not_isGang_of_react hk)]
  have hreplies (v : State) (l : List (TsId × Thread)) : (v.restoreReplies l).clusters = v.clusters :=
    List.foldlRecOn (motive := fun t : State => t.clusters = v.clusters) _ _ rfl (fun _ h _ _ => h)
  exact (hreplies _ _).trans (State.restoreCores_keeps ..).2.2

/-- A REACT pack's kennel goes on from its record. -/
theorem State.kennel_restoreCluster_react {s : State} {r c : Nat} {x : Run} {k : SavedCluster} {qs : List Relayout} {bs : List Byte}
    (hk : Rec.kind x.rec_ = 1) : ((s.restoreCluster r x c k qs bs).cluster c).kennel =
      k.cluster.kennel.ofRecord x.rules s.fclk (bytesIn bs clusterFront 0x81100) := by
  rw [State.cluster_congr (State.clusters_restoreCluster_react hk)]
  simp only [State.restoreFront, Rec.isReact_iff.2 hk, if_true, State.updKennel, State.cluster_updCluster_same]
  rfl

theorem State.kennel_restoreCluster_other {s : State} {r c d : Nat} {x : Run} {k : SavedCluster} {qs : List Relayout} {bs : List Byte}
    (hk : Rec.kind x.rec_ = 1) (hd : d ≠ c) :
    ((s.restoreCluster r x c k qs bs).cluster d).kennel = (s.cluster d).kennel := by
  rw [State.cluster_congr (State.clusters_restoreCluster_react hk), (s.restoreFront_keeps ..).2.2 d hd]

end Sys2Proof.Machine
end

section
/-! A pack that resumes (R384), and the settlement of pre-emption. -/
namespace Sys2Proof.Machine

/-! ## The clusters one by one -/

section
variable {r i₀ : Nat} {x : Run} {bs : List Byte} {k₀ : SavedCluster} {A B : State → Prop}

/-- The record of a cluster in a save area. -/
def Run.recordAt (x : Run) (bs : List Byte) (i : Nat) : List Byte := bytesIn bs (0x100 + i * x.clusterRecord) x.clusterRecord

/-- What no other cluster's restoration disturbs stands at the end. -/
theorem State.restoreAll_keeps
    (hB : ∀ (v : State) (i : Nat) (k : SavedCluster) (qs : List Relayout) (b : List Byte), i ≠ i₀ → B v →
      B (v.restoreCluster r x (x.clusterAt i) k qs b))
    (l : List Nat) (hl : i₀ ∉ l) (ks : List SavedCluster) (qs : List (List Relayout)) (s : State) (h : B s) :
    B (s.restoreAll r x bs (l.map (fun i => (i, x.clusterAt i))) ks qs) := by
  induction l generalizing ks qs s with
  | nil => exact h
  | cons i l ih =>
    obtain ⟨hi, hl⟩ := not_or.1 (mt List.mem_cons.2 hl)
    cases ks with
    | nil => exact h
    | cons k ks =>
      refine ih hl ks qs.tail _ ?_
      split
      · exact hB s i k _ _ (Ne.symm hi) h
      · exact h

/-- What the restoration of one cluster establishes, from what the others before it keep, stands at the end. -/
theorem State.restoreAll_establishes
    (hA : ∀ (v : State) (i : Nat) (k : SavedCluster) (qs : List Relayout) (b : List Byte), i ≠ i₀ → A v →
      A (v.restoreCluster r x (x.clusterAt i) k qs b))
    (hdo : ∀ (v : State) (qs : List Relayout), A v → B (v.restoreCluster r x (x.clusterAt i₀) k₀ qs (x.recordAt bs i₀)))
    (hB : ∀ (v : State) (i : Nat) (k : SavedCluster) (qs : List Relayout) (b : List Byte), i ≠ i₀ → B v →
      B (v.restoreCluster r x (x.clusterAt i) k qs b))
    (l : List Nat) (hn : l.Nodup) {m : Nat} (hl : l[m]? = some i₀) (ks : List SavedCluster) (hk : ks[m]? = some k₀)
    (qs : List (List Relayout)) (s : State) (hrun : ∀ i ∈ l, (s.cluster (x.clusterAt i)).run = some r) (h : A s) :
    B (s.restoreAll r x bs (l.map (fun i => (i, x.clusterAt i))) ks qs) := by
  induction l generalizing m ks qs s with
  | nil => exact nomatch hl
  | cons i l ih =>
    obtain ⟨hi, hn⟩ := List.nodup_cons.1 hn
    obtain ⟨hhead, hrest⟩ := List.forall_mem_cons.1 hrun
    cases ks with
    | nil => exact nomatch hk
    | cons k ks =>
      have hstep : s.restoreAll r x bs ((i :: l).map (fun i => (i, x.clusterAt i))) (k :: ks) qs =
          (s.restoreCluster r x (x.clusterAt i) k (qs.headD []) (x.recordAt bs i)).restoreAll r x bs
            (l.map (fun i => (i, x.clusterAt i))) ks qs.tail := by
        simp only [List.map_cons, State.restoreAll, hhead, if_true]
        rfl
      rw [hstep]
      cases m with
      | zero =>
        obtain rfl := Option.some.inj hl
        obtain rfl := Option.some.inj hk
        exact State.restoreAll_keeps hB l hi ks _ _ (hdo s _ h)
      | succ m =>
        have hne : i ≠ i₀ := fun heq => hi (heq ▸ List.mem_of_getElem? hl)
        have hkeep := s.refills_restoreCluster r x (x.clusterAt i) k (qs.headD []) (x.recordAt bs i)
        exact ih hn hl ks hk _ _ (fun j hj => (hkeep.run _).trans (hrest j hj)) (hA s i k _ _ hne h)

end

theorem State.refills_restoreAll (s : State) (r : Nat) (x : Run) (bs : List Byte) (l : List (Nat × Nat)) (ks : List SavedCluster)
    (qs : List (List Relayout)) : s.Refills (s.restoreAll r x bs l ks qs) := by
  induction l generalizing s ks qs with
  | nil => exact .refl s
  | cons e l ih =>
    cases ks with
    | nil => exact .refl s
    | cons k ks =>
      refine State.Refills.trans ?_ (ih _ ks qs.tail)
      split
      · exact s.refills_restoreCluster ..
      · exact .refl s

/-! ## What a resumed pack has due -/

/-- Steps fall due, and nothing else changes. -/
def State.Posts (s t : State) : Prop := ∃ p, t = { s with pending := p } ∧ s.pending ⊆ p

theorem State.Posts.refl (s : State) : s.Posts s := ⟨s.pending, rfl, List.Subset.refl _⟩

theorem State.Posts.trans {s t u : State} (h : s.Posts t) (g : t.Posts u) : s.Posts u := by
  obtain ⟨p, rfl, hp⟩ := h
  obtain ⟨q, rfl, hq⟩ := g
  exact ⟨q, rfl, List.Subset.trans hp hq⟩

theorem State.Posts.pending {s t : State} (h : s.Posts t) : s.pending ⊆ t.pending := by
  obtain ⟨p, rfl, hp⟩ := h
  exact hp

theorem State.posts_postOnce (s : State) (i : Instr) : s.Posts (s.postOnce i) :=
  ⟨_, State.postOnce_only_pending .., State.pending_subset_postOnce ..⟩

theorem State.posts_foldl {α : Type} {f : State → α → State} (hf : ∀ (s : State) (a : α), s.Posts (f s a)) (s : State) (l : List α) :
    s.Posts (l.foldl f s) :=
  List.foldlRecOn (motive := fun t => s.Posts t) _ _ (.refl s) (fun t h a _ => h.trans (hf t a))

/-- The relayouts of a cluster go on. -/
def State.relaysDue (s : State) (c : Nat) : State :=
  ((s.cluster c).relayouts.filter (fun q => q.state == .running)).foldl (fun s q => s.postOnce (.relayoutBlock c q.map)) s

theorem State.posts_relaysDue (s : State) (c : Nat) : s.Posts (s.relaysDue c) := State.posts_foldl (fun t _ => t.posts_postOnce _) s _

theorem State.resumeDue_eq (s : State) (r : Nat) (x : Run) : s.resumeDue r x = x.clusters.foldl (fun s c =>
    (if Rec.isReact x.rec_ then s.roundDue c else s).relaysDue c) (s.postOnce (.completionSignal r)) := rfl

theorem State.posts_resumeStep (s : State) (x : Run) (c : Nat) :
    s.Posts ((if Rec.isReact x.rec_ then s.roundDue c else s).relaysDue c) := by
  refine State.Posts.trans ?_ (State.posts_relaysDue ..)
  split
  · exact s.posts_postOnce _
  · exact .refl s

theorem State.posts_resumeDue (s : State) (r : Nat) (x : Run) : s.Posts (s.resumeDue r x) := by
  rw [State.resumeDue_eq]
  exact (s.posts_postOnce _).trans (State.posts_foldl (fun t c => t.posts_resumeStep x c) _ _)

/-- A round is due in each kennel of a REACT pack. -/
theorem State.roundDue_resumeDue {s : State} {r c : Nat} {x : Run} (hk : Rec.kind x.rec_ = 1) (hc : c ∈ x.clusters) :
    Instr.arbitrationRound c ∈ (s.resumeDue r x).pending := by
  rw [State.resumeDue_eq]
  refine foldl_establishes (I := fun _ => True) (Q := fun d => d = c) (P := fun t : State => Instr.arbitrationRound c ∈ t.pending)
    (fun _ _ _ => trivial) (fun t d _ hd => ?_) (fun t d _ h => (t.posts_resumeStep x d).pending h) _ _ trivial (.inl ⟨c, hc, rfl⟩)
  subst hd
  rw [if_pos (Rec.isReact_iff.2 hk)]
  exact (State.posts_relaysDue ..).pending (State.mem_pending_postOnce ..)

/-! ## The pack that resumes -/

/-- A run that goes on. -/
def Run.resumed (x : Run) (now : Nat) (bs : List Byte) : Run :=
  { x with phase := .running, placedAt := now, sliceAt := now, waveAt := now, wave := none,
           ranBefore := natIn bs 16 8, packflags := BitVec.ofNat 6 (natIn bs 24 8),
           firings := if Rec.isReact x.rec_ then natIn bs 32 8 else x.firings }

/-- The pack's clusters, made ready, before their records are restored. -/
def State.readied (s : State) (r : Nat) (x : Run) : State := (s.freshClusters r x x.clusters).giveRanks x

/-- The pack's clusters restored. -/
def State.restored (s : State) (r : Nat) (x : Run) (bs : List Byte) (qs : List (List Relayout)) : State :=
  (s.readied r x).restoreAll r x bs ((upTo x.clusters.length).map (fun i => (i, x.clusterAt i))) (NMap.get s.saves r []) qs

theorem Run.zip_clusters (x : Run) : (upTo x.clusters.length).zip x.clusters =
    (upTo x.clusters.length).map (fun i => (i, x.clusterAt i)) := by
  have hlen : x.clusters.length = Rec.packw x.rec_ * Rec.packh x.rec_ := by rw [Run.clusters, List.length_map, upTo, List.length_range]
  rw [hlen, Run.clusters]
  have hzip := List.zip_map' (f := fun i => i) (g := x.clusterAt) (l := upTo (Rec.packw x.rec_ * Rec.packh x.rec_))
  rwa [List.map_id'] at hzip

/-- Ranks are given to thread sets alone. -/
theorem State.giveRanks_keeps (s : State) (x : Run) : s.Reseats (s.giveRanks x) ∧ (s.giveRanks x).clusters = s.clusters :=
  ⟨State.reseats_foldl (fun t _ => t.reseats_setThread ..) s _,
    List.foldlRecOn (motive := fun t : State => t.clusters = s.clusters) _ _ rfl (fun _ h _ _ => h)⟩

theorem State.reseats_readied (s : State) (r : Nat) (x : Run) : s.Reseats (s.readied r x) :=
  (s.reseats_freshClusters r x x.clusters).trans (State.giveRanks_keeps ..).1

/-- A cluster that is made ready is the run's, and so is one that was. -/
theorem State.run_freshCluster {s : State} {r c d : Nat} {x : Run} (h : d = c ∨ (s.cluster d).run = some r) :
    ((s.freshCluster r x c).cluster d).run = some r := by
  have hcores (v : State) (l : List Nat) : (v.coresForRun c l).clusters = v.clusters :=
    List.foldlRecOn (motive := fun t : State => t.clusters = v.clusters) _ _ rfl (fun _ h _ _ => h)
  have hsets (v : State) (l : List TsId) : (v.setsForRun r x l).clusters = v.clusters :=
    List.foldlRecOn (motive := fun t : State => t.clusters = v.clusters) _ _ rfl (fun _ h _ _ => h)
  rw [State.freshCluster_eq, State.cluster_congr ((hsets ..).trans (hcores ..))]
  by_cases hd : d = c
  · rw [hd, State.cluster_updCluster_same]
    rfl
  · rw [State.cluster_updCluster_ne _ _ _ _ hd]
    exact h.resolve_left hd

theorem State.run_readied {s : State} {r c : Nat} {x : Run} (hc : c ∈ x.clusters) : ((s.readied r x).cluster c).run = some r := by
  rw [State.readied, State.cluster_congr (State.giveRanks_keeps ..).2]
  exact foldl_establishes (I := fun _ => True) (Q := fun d => c = d) (P := fun t : State => (t.cluster c).run = some r)
    (fun _ _ _ => trivial) (fun _ _ _ h => State.run_freshCluster (.inl h)) (fun _ _ _ h => State.run_freshCluster (.inr h)) _ s trivial
    (.inl ⟨c, hc, rfl⟩)

/-- A rank has its number. -/
theorem State.rank_readied {s : State} {r i : Nat} {x : Run} (hk : Rec.kind x.rec_ = 2) (hsub : x.subst = []) (hw : Rec.packw x.rec_ ≤ 16)
    (hco : Rec.cores x.rec_ ≤ 16) (hth : Rec.threads x.rec_ ≤ 4) (hi : i < Rec.nrank x.rec_) :
    ((s.readied r x).thread (x.tsOf i)).rank = BitVec.ofNat 32 i := by
  have hnodup : ((List.range (Rec.nrank x.rec_)).map (fun i => TsId.key (x.tsOf i))).Nodup :=
    List.Nodup.map_on (fun a ha b hb h => Run.key_tsOf_injective hsub hw hco hth (List.mem_range.1 ha) (List.mem_range.1 hb) h)
      List.nodup_range
  rw [State.readied, State.giveRanks_gang hk,
    State.thread_foldl_updThread (f := fun i th => th.ranked x i) hnodup (List.mem_range.2 hi)]
  rfl

/-- A run that goes on is not saved any longer. -/
def State.goesOn (s : State) (r : Nat) (y : Run) : State := { s with saves := NMap.erase s.saves r }.setRun r y

/-- What a resumption comes to. -/
theorem State.resumeRun_eq {s : State} {r : Nat} {x : Run} (bs : List Byte) (qs : List (List Relayout))
    (hrun : ∀ c ∈ x.clusters, (s.cluster c).run = some r) : s.resumeRun r x bs qs =
      ((s.restored r x bs qs).goesOn r (x.resumed (s.restored r x bs qs).fclk bs)).resumeDue r
        (x.resumed (s.restored r x bs qs).fclk bs) := by
  have hmine : x.clusters.filter (fun c => (s.cluster c).run == some r) = x.clusters :=
    List.filter_eq_self.2 fun c hc => beq_iff_eq.2 (hrun c hc)
  have hall : ((x.clusters.filter (fun c => (s.cluster c).run == some r)).foldl (fun s c => s.freshCluster r x c) s).giveRanks x =
      s.readied r x := by rw [hmine]; rfl
  unfold State.resumeRun
  dsimp only
  rw [hall, Run.zip_clusters]
  rfl

section
variable {s : State} {r : Nat} {x : Run} {bs : List Byte} {qs : List (List Relayout)}
  (hrun : ∀ c ∈ x.clusters, (s.cluster c).run = some r)

theorem State.restored_keeps : (s.restored r x bs qs).fclk = s.fclk ∧ ∀ a, (s.restored r x bs qs).byteAt a = s.byteAt a := by
  have hfill := (s.readied r x).refills_restoreAll r x bs ((upTo x.clusters.length).map (fun i => (i, x.clusterAt i)))
    (NMap.get s.saves r []) qs
  obtain ⟨th, co, cl, hseats⟩ := s.reseats_readied r x
  exact ⟨hfill.fclk.trans (by rw [hseats]), fun a => (hfill.byteAt a).trans (by rw [hseats]; rfl)⟩

include hrun

/-- A resumed pack runs, and its thread sets and clusters are as restored. -/
theorem State.resumeRun_result : let t := s.resumeRun r x bs qs
    t.run? r = some (x.resumed s.fclk bs) ∧ t.threads = (s.restored r x bs qs).threads ∧
      t.clusters = (s.restored r x bs qs).clusters ∧
      (Rec.kind x.rec_ = 1 → ∀ c ∈ x.clusters, Instr.arbitrationRound c ∈ t.pending) ∧ ∀ a, t.byteAt a = s.byteAt a := by
  intro t
  obtain ⟨hclk, hbyte⟩ := State.restored_keeps (s := s) (r := r) (x := x) (bs := bs) (qs := qs)
  have ht : t = ((s.restored r x bs qs).goesOn r (x.resumed s.fclk bs)).resumeDue r (x.resumed s.fclk bs) := by
    rw [← hclk]
    exact State.resumeRun_eq bs qs hrun
  obtain ⟨p, hp, -⟩ := ((s.restored r x bs qs).goesOn r (x.resumed s.fclk bs)).posts_resumeDue r (x.resumed s.fclk bs)
  have hfields := ht.trans hp
  refine ⟨?_, ?_, ?_, fun hk c hc => ?_, fun a => ?_⟩
  · rw [hfields]
    exact State.run?_setRun_same ..
  · rw [hfields]
    rfl
  · rw [hfields]
    rfl
  · rw [ht]
    exact State.roundDue_resumeDue hk hc
  · rw [hfields]
    exact hbyte a

end

/-! ## What a thread set and a kennel go on with -/

/-- What a thread set has from its record, which stands in the save area at an address (R382). -/
structure Thread.GoesOnAt (h : Thread) (bs : List Byte) (at_ : Nat) : Prop where
  x : ∀ n : XReg, n ≠ 0 → h.getX n = dwordIn bs (at_ + 8 * n.toNat)
  v : ∀ n : VReg, h.getV n = VWord.ofBytes (bytesIn bs (at_ + 0x100 + 64 * n.toNat) 64)
  p : ∀ n : PReg, n ≠ 0 → h.getP n = dwordIn bs (at_ + 0x900 + 8 * n.toNat)
  pc : h.pc = dwordIn bs (at_ + 0x1140)
  tpc : h.tpc = dwordIn bs (at_ + 0x1148)
  tcause : h.tcause = dwordIn bs (at_ + 0x1150)
  tval : h.tval = dwordIn bs (at_ + 0x1158)
  mode : h.mode = (dwordIn bs (at_ + 0x1160)).getLsbD 0
  pmode : h.pmode = (dwordIn bs (at_ + 0x1160)).getLsbD 1
  intrap : h.intrap = (dwordIn bs (at_ + 0x1160)).getLsbD 2
  status : h.status = .ready ∨ h.status = .halted

theorem Thread.goesOnAt_resumed (saved : Thread) (r : Nat) (rank : BitVec 32) (bs : List Byte) (at_ : Nat) :
    (saved.resumed r rank (bytesIn bs at_ threadRecord)).GoesOnAt bs at_ := by
  have hword {off : Nat} (h : off + 8 ≤ threadRecord) : dwordIn (bytesIn bs at_ threadRecord) off = dwordIn bs (at_ + off) :=
    dwordIn_bytesIn h
  have hmode : dwordIn (bytesIn bs at_ threadRecord) (0x1140 + 8 * 4) = dwordIn bs (at_ + 0x1160) := hword (by decide)
  constructor
  case x =>
    intro n hn
    have hlt := n.isLt
    simp only [Thread.getX, hn, if_false, Thread.resumed, Thread.ofRecord, Vector.getElem_ofFn]
    exact hword (by unfold threadRecord; omega)
  case v =>
    intro n
    have hlt := n.isLt
    simp only [Thread.getV, Thread.resumed, Thread.ofRecord, Vector.getElem_ofFn]
    rw [bytesIn_bytesIn (by unfold threadRecord; omega), ← Nat.add_assoc]
  case p =>
    intro n hn
    have hlt := n.isLt
    simp only [Thread.getP, hn, if_false, Thread.resumed, Thread.ofRecord, Vector.getElem_ofFn]
    rw [hword (by unfold threadRecord; omega), ← Nat.add_assoc]
  case pc => exact hword (by decide)
  case tpc => exact hword (by decide)
  case tcause => exact hword (by decide)
  case tval => exact hword (by decide)
  case mode => exact congrArg (Word.bit · 0) hmode
  case pmode => exact congrArg (Word.bit · 1) hmode
  case intrap => exact congrArg (Word.bit · 2) hmode
  case status =>
    simp only [Thread.resumed, Thread.ofRecord]
    split
    · exact .inr rfl
    · exact .inl rfl

/-- What a kennel has from its record, which stands in the save area at an address (R383). -/
structure Kennel.GoesOnAt (n : Kennel) (bs : List Byte) (at_ : Nat) : Prop where
  ageCtr : n.ageCtr = BitVec.ofNat 32 (natIn bs at_ 8)
  actSeq : n.actSeq = BitVec.ofNat 32 (natIn bs (at_ + 8) 8)
  ins : n.ins = natIn bs (at_ + 16) 8
  rem : n.rem = natIn bs (at_ + 24) 8
  snd : n.snd = natIn bs (at_ + 32) 8
  rcv : n.rcv = natIn bs (at_ + 40) 8
  lastRound : n.lastRound = RoundRec.zero
  tiles : ∀ q ∈ n.tiles, q.held = false ∧
    ∃ j, j < 16384 ∧ q.tile = Tile.ofBits (BitVec.ofNat 256 (natIn bs (at_ + 0x1100 + 32 * j) 32))

theorem Kennel.goesOnAt_ofRecord (saved : Kennel) (rules : List Rule) (now : Nat) (bs : List Byte) (at_ : Nat) :
    (saved.ofRecord rules now (bytesIn bs at_ 0x81100)).GoesOnAt bs at_ := by
  have hnat {off n : Nat} (h : off + n ≤ 0x81100) : natIn (bytesIn bs at_ 0x81100) off n = natIn bs (at_ + off) n := natIn_bytesIn h
  constructor
  case ageCtr => exact congrArg (BitVec.ofNat 32) (hnat (by decide))
  case actSeq => exact congrArg (BitVec.ofNat 32) (hnat (by decide))
  case ins => exact hnat (by decide)
  case rem => exact hnat (by decide)
  case snd => exact hnat (by decide)
  case rcv => exact hnat (by decide)
  case lastRound => rfl
  case tiles =>
    intro q hq
    simp only [Kennel.ofRecord, List.mem_filterMap, upTo, List.mem_range, kennelSlots] at hq
    obtain ⟨j, hlt, hsome⟩ := hq
    split at hsome
    · exact nomatch hsome
    · obtain rfl := Option.some.inj hsome
      rw [hnat (by omega), ← Nat.add_assoc]
      exact ⟨rfl, j, hlt, rfl⟩

end Sys2Proof.Machine
end

section
/-! The settlement of pre-emption (R131, R164, R326, R374, R379 to R384). -/
namespace Sys2Proof.Machine

section
variable {s : State} {r : Nat} {x : Run} {bs : List Byte} {qs : List (List Relayout)}
  (hsub : x.subst = []) (hw : Rec.packw x.rec_ ≤ 16) (hco : Rec.cores x.rec_ ≤ 16) (hth : Rec.threads x.rec_ ≤ 4)
  (hsaves : (NMap.get s.saves r []).length = x.clusters.length)

theorem Run.length_clusters (x : Run) : x.clusters.length = Rec.packw x.rec_ * Rec.packh x.rec_ := by
  rw [Run.clusters, List.length_map, upTo, List.length_range]

theorem Run.clusterAt_mem {i : Nat} (hi : i < x.clusters.length) : x.clusterAt i ∈ x.clusters :=
  List.mem_map.2 ⟨i, List.mem_range.2 (x.length_clusters ▸ hi), rfl⟩

include hw in
/-- Different clusters of a pack have different numbers. -/
theorem Run.clusterAt_ne {i j n : Nat} (hn : n < x.clusters.length) (h : i ≠ j) : x.clusterAt i ≠ x.clusterAt j := by
  rw [x.length_clusters] at hn
  exact fun he => h (Run.clusterAt_injective hw (Nat.pos_of_mul_pos_right (Nat.lt_of_le_of_lt (Nat.zero_le n) hn)) he)

include hsaves in
/-- What the device keeps of a cluster of a saved pack. -/
theorem State.kept_of_lt {i : Nat} (hi : i < x.clusters.length) : ∃ k, (NMap.get s.saves r [])[i]? = some k :=
  ⟨_, List.getElem?_eq_getElem (hsaves ▸ hi)⟩

/-- What one cluster's restoration establishes, and no other's disturbs, stands when the pack has been restored. -/
theorem State.restored_establishes {i : Nat} {k : SavedCluster} {A B : State → Prop} (hi : i < x.clusters.length)
    (hkept : (NMap.get s.saves r [])[i]? = some k)
    (hA : ∀ (v : State) (j : Nat) (k : SavedCluster) (qs : List Relayout) (b : List Byte), j ≠ i → A v →
      A (v.restoreCluster r x (x.clusterAt j) k qs b))
    (hdo : ∀ (v : State) (qs : List Relayout), A v → B (v.restoreCluster r x (x.clusterAt i) k qs (x.recordAt bs i)))
    (hB : ∀ (v : State) (j : Nat) (k : SavedCluster) (qs : List Relayout) (b : List Byte), j ≠ i → B v →
      B (v.restoreCluster r x (x.clusterAt j) k qs b))
    (h : A (s.readied r x)) : B (s.restored r x bs qs) :=
  State.restoreAll_establishes hA hdo hB (upTo x.clusters.length) List.nodup_range (List.getElem?_range hi) _ hkept qs _
    (fun _ hj => State.run_readied (Run.clusterAt_mem (List.mem_range.1 hj))) h

include hsub in
/-- A rank's place in its cluster. -/
theorem Run.setsAt_tsOf {i : Nat} (hi : i < Rec.nrank x.rec_) : let per := Rec.cores x.rec_ * Rec.threads x.rec_
    i / per < x.clusters.length ∧ i % per < per ∧ (x.setsAt (x.clusterAt (i / per)))[i % per]? = some (x.tsOf i) := by
  intro per
  obtain ⟨hc, -, -, -⟩ := Rec.rank_parts hi
  have hpos : 0 < per := by
    have h := Nat.lt_of_le_of_lt (Nat.zero_le i) hi
    rw [Rec.nrank, Nat.mul_assoc] at h
    exact Nat.pos_of_mul_pos_left h
  have hdiv : i / per = i / Rec.threads x.rec_ / Rec.cores x.rec_ := by rw [Nat.div_div_eq_div_mul, Nat.mul_comm]
  have hmod : i % per / Rec.threads x.rec_ = i / Rec.threads x.rec_ % Rec.cores x.rec_ := Nat.mod_mul_left_div_self ..
  have hset : i % per % Rec.threads x.rec_ = i % Rec.threads x.rec_ := Nat.mod_mod_of_dvd _ (Nat.dvd_mul_left ..)
  refine ⟨x.length_clusters ▸ hdiv ▸ hc, Nat.mod_lt _ hpos, ?_⟩
  rw [x.setsAt_getElem? _ (Nat.mod_lt _ hpos), Run.tsOf_eq hsub, hmod, hset, hdiv]
  simp [Run.coreAt, hsub]

/-- The address of a GANG pack's thread set in the save area. -/
def Run.rankOffset (x : Run) (i : Nat) : Nat :=
  let per := Rec.cores x.rec_ * Rec.threads x.rec_
  0x100 + i / per * x.clusterRecord + 0x416000 + Rec.cores x.rec_ * 0x40200 + i % per * 0x2500

/-- The record of a thread set in the record of its cluster is that in the save area. -/
theorem Run.threadBytes_recordAt (hk : Rec.kind x.rec_ = 2) {i : Nat} (hi : i % (Rec.cores x.rec_ * Rec.threads x.rec_) <
    Rec.cores x.rec_ * Rec.threads x.rec_) : x.threadBytes (x.recordAt bs (i / (Rec.cores x.rec_ * Rec.threads x.rec_)))
      (i % (Rec.cores x.rec_ * Rec.threads x.rec_)) = bytesIn bs (x.rankOffset i) threadRecord := by
  have hfit : clusterFront + Rec.cores x.rec_ * coreRecord + i % (Rec.cores x.rec_ * Rec.threads x.rec_) * threadRecord + threadRecord ≤
      x.clusterRecord := by
    have hmul := Nat.mul_le_mul_right threadRecord hi
    rw [Run.clusterRecord_gang hk]
    rw [Nat.succ_mul] at hmul
    omega
  rw [Run.threadBytes, Run.recordAt, bytesIn_bytesIn hfit, Run.rankOffset]
  simp only [clusterFront, coreRecord, threadRecord, Nat.add_assoc]

include hsub hw hco hth hsaves in
/-- A rank of a GANG pack goes on from its record. -/
theorem State.thread_restored_gang (hk : Rec.kind x.rec_ = 2) {i : Nat} (hi : i < Rec.nrank x.rec_) : ∃ saved,
    (s.restored r x bs qs).thread (x.tsOf i) =
      Thread.resumed saved r (BitVec.ofNat 32 i) (bytesIn bs (x.rankOffset i) threadRecord) := by
  obtain ⟨hcluster, hset, hsets⟩ := Run.setsAt_tsOf hsub hi
  obtain ⟨k, hkept⟩ := State.kept_of_lt hsaves hcluster
  rw [← Run.threadBytes_recordAt hk hset]
  refine ⟨(k.threads[i % (Rec.cores x.rec_ * Rec.threads x.rec_)]?).getD Thread.reset, ?_⟩
  have hother (v : State) (j : Nat) (k : SavedCluster) (qs : List Relayout) (b : List Byte)
      (hj : j ≠ i / (Rec.cores x.rec_ * Rec.threads x.rec_)) :
      (v.restoreCluster r x (x.clusterAt j) k qs b).thread (x.tsOf i) = v.thread (x.tsOf i) :=
    State.thread_restoreCluster_other hsub hco hth (Run.clusterAt_ne hw hcluster hj.symm) hsets
  refine State.restored_establishes (A := fun v => (v.thread (x.tsOf i)).rank = BitVec.ofNat 32 i) hcluster hkept
    (fun v j k qs b hj h => (congrArg Thread.rank (hother v j k qs b hj)).trans h) (fun v qs h => ?_)
    (fun v j k qs b hj h => (hother v j k qs b hj).trans h) (State.rank_readied hk hsub hw hco hth hi)
  rw [State.thread_restoreCluster_gang hsub hco hth hk hsets, h]

include hw hsaves in
/-- A kennel of a REACT pack goes on from its record. -/
theorem State.kennel_restored (hk : Rec.kind x.rec_ = 1) {i : Nat} (hi : i < x.clusters.length) :
    ((s.restored r x bs qs).cluster (x.clusterAt i)).kennel.GoesOnAt bs (0x100 + i * x.clusterRecord + 0x416000) := by
  obtain ⟨k, hkept⟩ := State.kept_of_lt hsaves hi
  have hother (v : State) (j : Nat) (k : SavedCluster) (qs : List Relayout) (b : List Byte) (hj : j ≠ i) :
      ((v.restoreCluster r x (x.clusterAt j) k qs b).cluster (x.clusterAt i)).kennel = (v.cluster (x.clusterAt i)).kennel :=
    State.kennel_restoreCluster_other hk (Run.clusterAt_ne hw hi hj.symm)
  refine State.restored_establishes (A := fun _ => True)
    (B := fun v => (v.cluster (x.clusterAt i)).kennel.GoesOnAt bs (0x100 + i * x.clusterRecord + 0x416000)) hi hkept
    (fun _ _ _ _ _ _ _ => trivial) (fun v qs _ => ?_) (fun v j k qs b hj h => (hother v j k qs b hj).symm ▸ h) trivial
  have hfit : clusterFront + 0x81100 ≤ x.clusterRecord := by
    rw [Run.clusterRecord_react hk]
    unfold clusterFront
    omega
  rw [State.kennel_restoreCluster_react hk, Run.recordAt, bytesIn_bytesIn hfit]
  exact Kennel.goesOnAt_ofRecord ..

include hsub hw hco hth hsaves in
/-- A thread set of a REACT pack has the replies that it had not read. -/
theorem State.recvq_restored (hk : Rec.kind x.rec_ = 1) {i j : Nat} {k : SavedCluster} {u : TsId} {th : Thread}
    (hkept : (NMap.get s.saves r [])[i]? = some k) (hsaved : k.threads[j]? = some th)
    (hu : (x.setsAt (x.clusterAt i))[j]? = some u) : ((s.restored r x bs qs).thread u).recvq = th.recvq := by
  have hi : i < x.clusters.length := hsaves ▸ (List.getElem?_eq_some_iff.1 hkept).1
  refine State.restored_establishes (A := fun _ => True) (B := fun v => (v.thread u).recvq = th.recvq) hi hkept
    (fun _ _ _ _ _ _ _ => trivial) (fun v qs _ => State.recvq_restoreCluster_react hsub hco hth hk hu hsaved)
    (fun v n k qs b hn h => ?_) trivial
  rw [State.thread_restoreCluster_other hsub hco hth (Run.clusterAt_ne hw hi hn.symm) hu]
  exact h

end

/-! ## The resumption -/

section
variable {s u v : State} {r : Nat} {x : Run} {bs : List Byte} (hx : s.run? r = some x) (hp : x.phase = .saved) (hstop : x.stop = none)
  (hfe : s.feWaits r = false) (href : x.refused = []) (hsub : x.subst = []) (hrun : ∀ c ∈ x.clusters, (s.cluster c).run = some r)
  (hany : ∃ c ∈ s.clusters, c.2.run = some r) (hsaves : (NMap.get s.saves r []).length = x.clusters.length)
  (hw : Rec.packw x.rec_ ≤ 16) (hco : Rec.cores x.rec_ ≤ 16) (hth : Rec.threads x.rec_ ≤ 4)
  (himage : s.ImageReads x.vf x.image x.entries u)
  (hread : u.EngineReads (frontEnd x.vf) (Rec.save x.rec_) x.saveSize bs v)

include himage hread in
theorem State.resume_reads : s.Reslices v ∧ ∀ a, v.byteAt a = s.byteAt a :=
  ⟨himage.keeps.1.trans hread.keeps.1, fun a => (hread.keeps.2 a).trans (himage.keeps.2 a)⟩

include hx hp hstop hfe href hsub hrun hany hsaves hw hco hth himage hread

/-- A GANG pack goes on from its save area. -/
theorem exec_resumePack_gang (hk : Rec.kind x.rec_ = 2) (hnone : ∀ i j, i < x.clusters.length → j < 16 →
      natIn bs (0x100 + i * x.clusterRecord + 0x1200 + 128 * j) 104 = 0) :
    ∃ t, exec (.resumePack r) s = .next t ∧ t.run? r = some (x.resumed s.fclk bs) ∧
      (∀ i, i < Rec.nrank x.rec_ → (t.thread (x.tsOf i)).GoesOnAt bs (x.rankOffset i) ∧ (t.thread (x.tsOf i)).run = some r ∧
        (t.thread (x.tsOf i)).rank = BitVec.ofNat 32 i) ∧ ∀ a, t.byteAt a = s.byteAt a := by
  obtain ⟨⟨m, l, w, hv⟩, hbytes⟩ := State.resume_reads himage hread
  have hexec := exec_resumePack_resumes hx hp hstop hfe href hany (resumeE_gang (r := r) himage hread hk hnone)
  subst hv
  obtain ⟨hr, hthreads, -, -, hsame⟩ := State.resumeRun_result (s := s.resliced m l w) (bs := bs)
    (qs := (x.clusterRecords bs).map (fun _ => [])) hrun
  refine ⟨_, hexec, hr, fun i hi => ?_, fun a => (hsame a).trans (hbytes a)⟩
  obtain ⟨saved, hgoes⟩ := State.thread_restored_gang (s := s.resliced m l w) (r := r) (bs := bs)
    (qs := (x.clusterRecords bs).map (fun _ => [])) hsub hw hco hth hsaves hk hi
  rw [State.thread_congr hthreads, hgoes]
  exact ⟨Thread.goesOnAt_resumed .., rfl, rfl⟩

/-- A REACT pack goes on from its save area. -/
theorem exec_resumePack_react (hk : Rec.kind x.rec_ = 1) :
    ∃ t, exec (.resumePack r) s = .next t ∧ t.run? r = some (x.resumed s.fclk bs) ∧
      (∀ i, i < x.clusters.length →
        (t.cluster (x.clusterAt i)).kennel.GoesOnAt bs (0x100 + i * x.clusterRecord + 0x416000) ∧
          Instr.arbitrationRound (x.clusterAt i) ∈ t.pending) ∧
      (∀ (i j : Nat) (k : SavedCluster) (u : TsId) (th : Thread), (NMap.get s.saves r [])[i]? = some k → k.threads[j]? = some th →
        (x.setsAt (x.clusterAt i))[j]? = some u → (t.thread u).recvq = th.recvq) ∧ ∀ a, t.byteAt a = s.byteAt a := by
  obtain ⟨⟨m, l, w, hv⟩, hbytes⟩ := State.resume_reads himage hread
  have hexec := exec_resumePack_resumes hx hp hstop hfe href hany (resumeE_react (r := r) himage hread hk)
  subst hv
  obtain ⟨hr, hthreads, hclusters, hrounds, hsame⟩ := State.resumeRun_result (s := s.resliced m l w) (bs := bs) (qs := []) hrun
  refine ⟨_, hexec, hr, fun i hi => ⟨?_, hrounds hk _ (Run.clusterAt_mem hi)⟩, fun i j k u th hkept hsaved hu => ?_,
    fun a => (hsame a).trans (hbytes a)⟩
  · rw [State.cluster_congr hclusters]
    exact State.kennel_restored (s := s.resliced m l w) hw hsaves hk hi
  · rw [State.thread_congr hthreads]
    exact State.recvq_restored (s := s.resliced m l w) hsub hw hco hth hsaves hk hkept hsaved hu

end

end Sys2Proof.Machine

open Sys2Proof Sys2Proof.Machine

/-- Settles O52: a pack stops by a fold over its ranks or is drained; the save area is one string that the front end stores; and the
resumption restores the clusters one by one, each thread set and kennel from its own record. -/
theorem preemptResult : Obligations.PreemptResult := by
  unfold Obligations.PreemptResult
  refine ⟨?size, ?stop, ?header, ?resume⟩
  case size =>
    intro x n size
    have hsize : x.saveSize = size := x.saveSize_eq
    exact ⟨hsize, hsize ▸ x.preemptible_iff⟩
  case stop =>
    intro r x s hx
    refine ⟨exec_preemptReactPack_result hx, exec_preemptGangPack_result hx, exec_preempt_refused hx, fun hp hk => ⟨fun hdue hn => ?_,
      exec_drainLimitExpiry_early hx⟩, fun hp hfe => ⟨exec_packSave_waits hx hp hfe, fun pa hrest hstop href => ?_⟩⟩
    · exact exec_drainLimitExpiry_result hx hp hk hdue hn
    · exact exec_packSave_result hx hp hfe hrest hstop href
  case header => exact fun r x s _ hf ht hs => State.saveHeader_result hf ht hs
  case resume =>
    intro r x bs s u v hx hp hstop hfe href hsub hrun _ hany hsaves hw hco hth himage hread
    refine ⟨fun hk hnone => ?_, fun hk => ?_⟩
    · obtain ⟨t, hexec, hrun?, hranks, hbytes⟩ := exec_resumePack_gang hx hp hstop hfe href hsub hrun hany hsaves hw hco hth
        himage hread hk hnone
      refine ⟨t, hexec, hrun?.trans ?_, fun i hi => ?_, hbytes⟩
      · simp only [Run.resumed, Rec.not_isReact_of_gang hk, Bool.false_eq_true, if_false]
      · obtain ⟨h, hr, hrank⟩ := hranks i hi
        exact ⟨h.x, h.v, h.p, h.pc, h.tpc, h.tcause, h.tval, h.mode, h.pmode, h.intrap, hr, hrank, h.status⟩
    · obtain ⟨t, hexec, hrun?, hkennels, hreplies, hbytes⟩ := exec_resumePack_react hx hp hstop hfe href hsub hrun hany hsaves hw hco hth
        himage hread hk
      refine ⟨t, hexec, hrun?.trans ?_, fun i hi => ?_, hreplies, hbytes⟩
      · simp only [Run.resumed, Rec.isReact_iff.2 hk, if_true]
      · obtain ⟨h, hround⟩ := hkennels i hi
        exact ⟨h.ageCtr, h.actSeq, h.ins, h.rem, h.snd, h.rcv, h.lastRound, h.tiles, hround⟩

end

section
/-! The clause array as data (R140 to R158): the columns that `cload` and `cdrop` leave, and the rows that the trail assigns. -/
namespace Sys2Proof

/-! ## Columns (R141, R155) -/

/-- The rows with a negative literal, or those with a positive one. -/
def CColumn.side (k : CColumn) (neg : Bool) : BitVec 128 := if neg then k.neg else k.pos

/-- A column after one literal half. -/
def CColumn.withHalf (k : CColumn) (h : Nat) : CColumn :=
  if h.testBit 15 then
    let bit := BitVec.ofNat 128 (2 ^ (h % 128))
    if h.testBit 8 then { k with neg := k.neg ||| bit } else { k with pos := k.pos ||| bit }
  else k

theorem columnOf_eq (v : VWord) : columnOf v = (upTo 32).foldl (fun k i => k.withHalf (v.lane 2 i)) ⟨0, 0⟩ := rfl

theorem getLsbD_rowBit {row r : Nat} (hr : r < 128) : (BitVec.ofNat 128 (2 ^ row)).getLsbD r = decide (row = r) := by
  rw [BitVec.getLsbD_ofNat, Nat.testBit_two_pow, decide_eq_true hr, Bool.true_and]

/-- A valid half adds its row to the side of its sign, and nothing else. -/
theorem CColumn.getLsbD_side_withHalf (k : CColumn) (h : Nat) (neg : Bool) {r : Nat} (hr : r < 128) :
    ((k.withHalf h).side neg).getLsbD r = true ↔
      (k.side neg).getLsbD r = true ∨ (h.testBit 15 = true ∧ h.testBit 8 = neg ∧ h % 128 = r) := by
  unfold CColumn.withHalf
  cases h15 : h.testBit 15 with
  | false => simp
  | true =>
    cases h8 : h.testBit 8 <;> cases neg <;>
      simp only [CColumn.side, if_true, if_false, Bool.false_eq_true, reduceCtorEq, BitVec.getLsbD_or, Bool.or_eq_true,
        getLsbD_rowBit hr, decide_eq_true_iff, true_and, false_and, or_false]

theorem CColumn.getLsbD_side_foldl (v : VWord) (neg : Bool) {r : Nat} (hr : r < 128) (l : List Nat) (k : CColumn) :
    ((l.foldl (fun k i => k.withHalf (v.lane 2 i)) k).side neg).getLsbD r = true ↔ (k.side neg).getLsbD r = true ∨
      ∃ i ∈ l, (v.lane 2 i).testBit 15 = true ∧ (v.lane 2 i).testBit 8 = neg ∧ v.lane 2 i % 128 = r := by
  induction l generalizing k with
  | nil => simp
  | cons i l ih => rw [List.foldl_cons, ih, CColumn.getLsbD_side_withHalf _ _ _ hr, List.exists_mem_cons_iff, or_assoc]

/-- The column that a record describes: the rows of its valid halves, by sign. -/
theorem getLsbD_side_columnOf (v : VWord) (neg : Bool) {r : Nat} (hr : r < 128) :
    ((columnOf v).side neg).getLsbD r = true ↔
      ∃ i, i < 32 ∧ (v.lane 2 i).testBit 15 = true ∧ (v.lane 2 i).testBit 8 = neg ∧ v.lane 2 i % 128 = r := by
  rw [columnOf_eq, CColumn.getLsbD_side_foldl v neg hr]
  cases neg <;> simp [CColumn.side, upTo]

theorem find?_colSet_same (n : Nat) (k : CColumn) (l : List (Nat × CColumn)) :
    (colSet n k l).find? (fun p => p.1 = n) = some (n, k) := by
  induction l with
  | nil => simp [colSet]
  | cons q l ih =>
    obtain ⟨m, k'⟩ := q
    rcases Nat.lt_trichotomy n m with h | h | h
    · simp [colSet, h]
    · simp [colSet, h]
    · simp [colSet, h.not_gt, h.ne, h.ne', ih]

theorem find?_colSet_ne {n m : Nat} (hm : m ≠ n) (k : CColumn) (l : List (Nat × CColumn)) :
    (colSet n k l).find? (fun p => p.1 = m) = l.find? (fun p => p.1 = m) := by
  induction l with
  | nil => simp [colSet, hm.symm]
  | cons q l ih =>
    obtain ⟨j, k'⟩ := q
    unfold colSet
    split
    · simp [hm.symm]
    · split
      · next h => subst h; simp [hm.symm]
      · rw [List.find?_cons, List.find?_cons, ih]

theorem ClauseArray.find?_drop (c : ClauseArray) (n m : Nat) :
    (c.drop n).cols.find? (fun p => p.1 = m) = if m = n then none else c.cols.find? (fun p => p.1 = m) := by
  rw [ClauseArray.drop, List.find?_filter]
  split
  · next h => simp [h]
  · next h =>
    congr 1
    funext p
    by_cases hp : p.1 = m
    · simp [hp, h]
    · simp [hp]

/-! ## Rows (R140, R144, R149) -/

theorem ClauseArray.used_eq (c : ClauseArray) (r : Nat) :
    c.used r = c.cols.any (fun k => k.2.pos.getLsbD r || k.2.neg.getLsbD r) := by
  simp only [ClauseArray.used, BitVec.getLsbD_or]

theorem ClauseArray.isSome_val (c : ClauseArray) (r : Nat) : (c.val r).isSome = true ↔ ∃ e ∈ c.trail, e.row = r := by
  simp [ClauseArray.val]

theorem ClauseArray.isSome_val_false (c : ClauseArray) {r : Nat} (h : ∀ e ∈ c.trail, e.row ≠ r) : (c.val r).isSome = false :=
  Bool.eq_false_iff.2 fun hv =>
    let ⟨e, he, hr⟩ := (c.isSome_val r).1 hv
    h e he hr

/-- The assigned rows are those of the trail's entries. -/
theorem ClauseArray.getLsbD_assigned (c : ClauseArray) {r : Nat} (hr : r < 128) :
    c.masks.2.getLsbD r = true ↔ ∃ e ∈ c.trail, e.row = r := by
  have hfold (l : List CEntry) (m : BitVec 128 × BitVec 128) : (l.foldl (fun m e =>
      let bit := BitVec.ofNat 128 (2 ^ e.row)
      (if e.value then m.1 ||| bit else m.1, m.2 ||| bit)) m).2.getLsbD r = true ↔
        m.2.getLsbD r = true ∨ ∃ e ∈ l, e.row = r := by
    induction l generalizing m with
    | nil => simp
    | cons e l ih =>
      rw [List.foldl_cons, ih, BitVec.getLsbD_or, getLsbD_rowBit hr, List.exists_mem_cons_iff, Bool.or_eq_true,
        decide_eq_true_iff, or_assoc]
  rw [ClauseArray.masks, hfold]
  simp

end Sys2Proof
end

section
/-! The waves of `cprop` (R142, R143, R157): what one wave finds, and how the last one ends. -/
namespace Sys2Proof

/-! ## A wave (R142) -/

/-- A unit column's row is one of the array's, and has no value. -/
theorem CColumn.unit_row {k : CColumn} {t a : BitVec 128} {r : Nat} {v : Bool} (h : k.state t a = .unit r v) :
    r < 128 ∧ a.getLsbD r = false := by
  unfold CColumn.state at h
  simp only at h
  split at h
  · cases h
  split at h
  · cases h
  next hfree =>
  split at h
  · next =>
    obtain ⟨rfl, -⟩ := ColState.unit.inj h
    have hne : ((k.pos ||| k.neg) &&& ~~~a).toNat ≠ 0 := fun h0 => hfree (BitVec.eq_of_toNat_eq h0)
    have hbit := Nat.testBit_log2 hne
    rw [BitVec.testBit_toNat, BitVec.getLsbD_and, BitVec.getLsbD_not, Bool.and_eq_true, Bool.and_eq_true] at hbit
    obtain ⟨-, hlt, ha⟩ := hbit
    exact ⟨of_decide_eq_true hlt, (Bool.not_eq_true' _).mp ha⟩
  · cases h

theorem firstConflict_some {t a : BitVec 128} {n : Nat} {l : List (Nat × CColumn)} (h : firstConflict t a l = some n) :
    ∃ q ∈ l, q.1 = n ∧ q.2.state t a = .conflict := by
  induction l with
  | nil => cases h
  | cons q l ih =>
    obtain ⟨m, k⟩ := q
    unfold firstConflict at h
    split at h
    · next hk => exact ⟨(m, k), List.mem_cons_self, Option.some.inj h, hk⟩
    · obtain ⟨q, hq, hc⟩ := ih h
      exact ⟨q, List.mem_cons_of_mem _ hq, hc⟩

theorem firstConflict_none {t a : BitVec 128} {l : List (Nat × CColumn)} (h : firstConflict t a l = none) :
    ∀ q ∈ l, q.2.state t a ≠ .conflict := by
  induction l with
  | nil => simp
  | cons q l ih =>
    obtain ⟨m, k⟩ := q
    unfold firstConflict at h
    split at h
    · cases h
    · next hk => exact List.forall_mem_cons.2 ⟨hk, ih h⟩

/-- A wave forces nothing but the rows of unit columns. -/
theorem mem_forcedRows {t a : BitVec 128} {f : Nat × Bool × Nat} {l : List (Nat × CColumn)} {acc : List (Nat × Bool × Nat)}
    (h : f ∈ forcedRows t a l acc) : f ∈ acc ∨ ∃ q ∈ l, q.1 = f.2.2 ∧ q.2.state t a = .unit f.1 f.2.1 := by
  induction l generalizing acc with
  | nil => exact .inl h
  | cons q l ih =>
    obtain ⟨n, k⟩ := q
    rw [List.exists_mem_cons_iff]
    unfold forcedRows at h
    split at h
    · next r v hk =>
      rcases ih h with hacc | hl
      · split at hacc
        · exact .inl hacc
        · rcases List.mem_append.1 hacc with hacc | hnew
          · exact .inl hacc
          · obtain rfl := List.mem_singleton.1 hnew
            exact .inr (.inl ⟨rfl, hk⟩)
      · exact .inr (.inr hl)
    · exact (ih h).imp_right .inr

theorem subset_forcedRows (t a : BitVec 128) (l : List (Nat × CColumn)) (acc : List (Nat × Bool × Nat)) :
    acc ⊆ forcedRows t a l acc := by
  induction l generalizing acc with
  | nil => exact List.Subset.refl _
  | cons q l ih =>
    unfold forcedRows
    split
    · refine List.Subset.trans ?_ (ih _)
      split
      · exact List.Subset.refl _
      · exact List.subset_append_left ..
    · exact ih _

/-- The row of every unit column is forced. -/
theorem forcedRows_unit {t a : BitVec 128} {q : Nat × CColumn} {r : Nat} {v : Bool} {l : List (Nat × CColumn)}
    (acc : List (Nat × Bool × Nat)) (hq : q ∈ l) (hu : q.2.state t a = .unit r v) : ∃ f ∈ forcedRows t a l acc, f.1 = r := by
  induction l generalizing acc with
  | nil => cases hq
  | cons p l ih =>
    unfold forcedRows
    rcases List.mem_cons.1 hq with rfl | hl
    · simp only [hu]
      split
      · next hany =>
        obtain ⟨f, hf, hr⟩ := List.any_eq_true.1 hany
        exact ⟨f, subset_forcedRows _ _ _ _ hf, beq_iff_eq.1 hr⟩
      · exact ⟨(r, v, q.1), subset_forcedRows _ _ _ _ (by simp), rfl⟩
    · split
      · exact ih _ hl
      · exact ih _ hl

/-- The entries of a wave are forced, of its level, and in rows of the array. -/
theorem mem_forcedEntries {level wave : Nat} {fs : List (Nat × Bool × Nat)} {e : CEntry} (h : e ∈ forcedEntries level wave fs) :
    e.level = level ∧ e.decided = false ∧ e.row < 128 ∧ ∃ f ∈ fs, f.1 = e.row := by
  simp only [forcedEntries, upTo, List.mem_filterMap, List.mem_range, Option.map_eq_some_iff] at h
  obtain ⟨r, hr, f, hf, rfl⟩ := h
  exact ⟨rfl, rfl, hr, f, List.mem_of_find?_eq_some hf, by simpa using List.find?_some hf⟩

/-- A forced row of the array has an entry. -/
theorem forcedEntries_ne_nil {fs : List (Nat × Bool × Nat)} {f : Nat × Bool × Nat} (hf : f ∈ fs) (hr : f.1 < 128) (level wave : Nat) :
    forcedEntries level wave fs ≠ [] := by
  obtain ⟨g, hg⟩ := Option.isSome_iff_exists.1 (List.find?_isSome (p := fun g => g.1 == f.1).2 ⟨f, hf, beq_self_eq_true f.1⟩)
  refine List.ne_nil_of_mem (a := ⟨f.1, g.2.1, level, false, g.2.2, wave⟩) (List.mem_filterMap.2 ⟨f.1, List.mem_range.2 hr, ?_⟩)
  rw [hg, Option.map_some]

/-- The entries that a wave adds. -/
def ClauseArray.forced (c : ClauseArray) (w : Nat) : List CEntry :=
  forcedEntries c.level w (forcedRows c.masks.1 c.masks.2 c.cols [])

theorem ClauseArray.mem_forced {c : ClauseArray} {w : Nat} {e : CEntry} (h : e ∈ c.forced w) :
    e.level = c.level ∧ e.decided = false ∧ e.row < 128 ∧ c.masks.2.getLsbD e.row = false := by
  obtain ⟨hlevel, hdec, hlt, f, hf, hrow⟩ := mem_forcedEntries h
  refine ⟨hlevel, hdec, hlt, ?_⟩
  rcases mem_forcedRows hf with hnil | ⟨q, -, -, hu⟩
  · cases hnil
  · exact hrow ▸ (CColumn.unit_row hu).2

/-- A wave that adds nothing finds no unit column. -/
theorem ClauseArray.not_unit_of_forced_nil {c : ClauseArray} {w : Nat} (h : c.forced w = []) {q : Nat × CColumn} (hq : q ∈ c.cols)
    (r : Nat) (v : Bool) : q.2.state c.masks.1 c.masks.2 ≠ .unit r v := by
  intro hu
  obtain ⟨f, hf, rfl⟩ := forcedRows_unit [] hq hu
  exact forcedEntries_ne_nil hf (CColumn.unit_row hu).1 _ _ h

/-! ## The waves (R157) -/

section
variable (c : ClauseArray) (n w f : Nat)

/-- A wave that meets a conflict is the last one. -/
theorem ClauseArray.waves_conflict {col : Nat} (h : firstConflict c.masks.1 c.masks.2 c.cols = some col) :
    ClauseArray.waves (n + 1) w f c =
      ({ c with conf := some ⟨col, c.level, w + 1⟩ }, ({ c with conf := some ⟨col, c.level, w + 1⟩ } : ClauseArray).word 2 (w + 1) f) := by
  simp only [ClauseArray.waves, h]

/-- STATUS of a quiet end. -/
def ClauseArray.quietStatus : Nat := if (upTo 128).all (fun r => !c.used r || c.masks.2.getLsbD r) then 1 else 0

/-- A wave that forces nothing is the last one. -/
theorem ClauseArray.waves_quiet (h : firstConflict c.masks.1 c.masks.2 c.cols = none) (hnil : c.forced (w + 1) = []) :
    ClauseArray.waves (n + 1) w f c = (c, c.word c.quietStatus (w + 1) f) := by
  rw [ClauseArray.forced] at hnil
  simp only [ClauseArray.waves, h, hnil, List.isEmpty_nil, if_true, ClauseArray.quietStatus]

/-- After another wave the next one runs on the longer trail. -/
theorem ClauseArray.waves_forcing (h : firstConflict c.masks.1 c.masks.2 c.cols = none) (hne : c.forced (w + 1) ≠ []) :
    ClauseArray.waves (n + 1) w f c = ClauseArray.waves n (w + 1) (f + (c.forced (w + 1)).length)
      { c with trail := c.trail ++ c.forced (w + 1) } := by
  have hempty : (c.forced (w + 1)).isEmpty = false := by simpa using hne
  rw [ClauseArray.forced] at hempty
  simp only [ClauseArray.waves, h, hempty, Bool.false_eq_true, if_false, ClauseArray.forced]

end

theorem ClauseArray.quietStatus_eq_one (c : ClauseArray) :
    c.quietStatus = 1 ↔ ∀ r, r < 128 → c.used r = true → c.masks.2.getLsbD r = true := by
  simp [ClauseArray.quietStatus, upTo, Classical.or_iff_not_imp_left]

theorem ClauseArray.quietStatus_ne_two (c : ClauseArray) : c.quietStatus ≠ 2 := by
  unfold ClauseArray.quietStatus
  split <;> decide

/-- How the waves on `c` end in `c'`: STATUS, the last wave, and the entries added. -/
structure ClauseArray.PropagatesTo (c c' : ClauseArray) (st w : Nat) (new : List CEntry) : Prop where
  cols : c'.cols = c.cols
  level : c'.level = c.level
  trail : c'.trail = c.trail ++ new
  forced : ∀ e ∈ new, e.level = c.level ∧ e.decided = false ∧ e.row < 128 ∧ ∀ x ∈ c.trail, x.row ≠ e.row
  status : st = 2 ↔ c'.conf ≠ none
  conflict : ∀ k, c'.conf = some k → k.level = c.level ∧ k.wave = w ∧
    ∃ q ∈ c.cols, q.1 = k.column ∧ q.2.state c'.masks.1 c'.masks.2 = .conflict
  quiet : c'.conf = none → (st = 1 ↔ ∀ r, r < 128 → c.used r = true → c'.masks.2.getLsbD r = true) ∧
    ∀ q ∈ c.cols, q.2.state c'.masks.1 c'.masks.2 = .satisfied ∨ q.2.state c'.masks.1 c'.masks.2 = .opened

section
variable {c : ClauseArray}

theorem ClauseArray.propagatesTo_conflict {col : Nat} (h : firstConflict c.masks.1 c.masks.2 c.cols = some col) (w : Nat) :
    c.PropagatesTo { c with conf := some ⟨col, c.level, w⟩ } 2 w [] where
  cols := rfl
  level := rfl
  trail := (List.append_nil _).symm
  forced := by simp
  status := by simp
  conflict := by
    rintro k ⟨⟩
    exact ⟨rfl, rfl, firstConflict_some h⟩
  quiet := by simp

theorem ClauseArray.propagatesTo_quiet (hconf : c.conf = none) (h : firstConflict c.masks.1 c.masks.2 c.cols = none) {w : Nat}
    (hnil : c.forced w = []) : c.PropagatesTo c c.quietStatus w [] where
  cols := rfl
  level := rfl
  trail := (List.append_nil _).symm
  forced := by simp
  status := by simp [hconf, c.quietStatus_ne_two]
  conflict := by simp [hconf]
  quiet := by
    refine fun _ => ⟨c.quietStatus_eq_one, fun q hq => ?_⟩
    have hnc := firstConflict_none h q hq
    have hnu := ClauseArray.not_unit_of_forced_nil hnil hq
    cases hst : q.2.state c.masks.1 c.masks.2 with
    | satisfied => exact .inl rfl
    | conflict => exact absurd hst hnc
    | unit r v => exact absurd hst (hnu r v)
    | opened => exact .inr rfl

/-- A forcing wave before the others: its entries come first, and none of the later ones is in a row that it assigned. -/
theorem ClauseArray.PropagatesTo.after_wave {c' : ClauseArray} {st w v : Nat} {new : List CEntry}
    (h : ClauseArray.PropagatesTo { c with trail := c.trail ++ c.forced v } c' st w new) : c.PropagatesTo c' st w (c.forced v ++ new) where
  cols := h.cols
  level := h.level
  trail := h.trail.trans (List.append_assoc ..)
  forced := by
    intro e he
    rcases List.mem_append.1 he with he | he
    · obtain ⟨hlevel, hdec, hlt, hfree⟩ := ClauseArray.mem_forced he
      refine ⟨hlevel, hdec, hlt, fun x hx hrow => ?_⟩
      exact Bool.false_ne_true (hfree.symm.trans ((c.getLsbD_assigned hlt).2 ⟨x, hx, hrow⟩))
    · obtain ⟨hlevel, hdec, hlt, hfresh⟩ := h.forced e he
      exact ⟨hlevel, hdec, hlt, fun x hx => hfresh x (List.mem_append_left _ hx)⟩
  status := h.status
  conflict := h.conflict
  quiet := h.quiet

end

/-- The rows without a value. -/
def ClauseArray.unassigned (c : ClauseArray) : Finset Nat := (Finset.range 128).filter (fun r => c.masks.2.getLsbD r = false)

theorem ClauseArray.card_unassigned_le (c : ClauseArray) : c.unassigned.card ≤ 128 :=
  (Finset.card_filter_le ..).trans_eq (Finset.card_range 128)

/-- A forcing wave leaves fewer rows without a value, so that at most 128 waves force (R157). -/
theorem ClauseArray.card_unassigned_lt {c : ClauseArray} {w : Nat} (h : c.forced w ≠ []) :
    (ClauseArray.unassigned { c with trail := c.trail ++ c.forced w }).card < c.unassigned.card := by
  obtain ⟨e, he⟩ := List.exists_mem_of_ne_nil _ h
  obtain ⟨-, -, hlt, hfree⟩ := ClauseArray.mem_forced he
  refine Finset.card_lt_card (Finset.ssubset_iff_of_subset (fun r hr => ?_) |>.2 ⟨e.row, ?_, ?_⟩)
  · simp only [ClauseArray.unassigned, Finset.mem_filter, Finset.mem_range, ← Bool.not_eq_true] at hr ⊢
    obtain ⟨hr, hnone⟩ := hr
    refine ⟨hr, fun ha => hnone ?_⟩
    obtain ⟨x, hx, hrow⟩ := (c.getLsbD_assigned hr).1 ha
    exact (ClauseArray.getLsbD_assigned _ hr).2 ⟨x, List.mem_append_left _ hx, hrow⟩
  · exact Finset.mem_filter.2 ⟨Finset.mem_range.2 hlt, hfree⟩
  · intro hmem
    have hnone := (Finset.mem_filter.1 hmem).2
    have hsome := (ClauseArray.getLsbD_assigned { c with trail := c.trail ++ c.forced w } hlt).2 ⟨e, List.mem_append_right _ he, rfl⟩
    exact Bool.false_ne_true (hnone.symm.trans hsome)

/-- The waves end before the bound when it is above the number of rows without a value. -/
theorem ClauseArray.waves_propagates (n w f : Nat) {c : ClauseArray} (hconf : c.conf = none) (hn : c.unassigned.card < n) :
    ∃ c' st v new, ClauseArray.waves n w f c = (c', c'.word st v (f + new.length)) ∧ c.PropagatesTo c' st v new ∧ w < v ∧ v ≤ w + n := by
  induction n generalizing w f c with
  | zero => exact absurd hn (Nat.not_lt_zero _)
  | succ n ih =>
    cases hc : firstConflict c.masks.1 c.masks.2 c.cols with
    | some col => exact ⟨_, 2, w + 1, [], c.waves_conflict n w f hc, ClauseArray.propagatesTo_conflict hc _, by omega, by omega⟩
    | none =>
      by_cases hnil : c.forced (w + 1) = []
      · exact ⟨c, c.quietStatus, w + 1, [], c.waves_quiet n w f hc hnil, ClauseArray.propagatesTo_quiet hconf hc hnil, by omega, by omega⟩
      · have hfewer := ClauseArray.card_unassigned_lt hnil
        obtain ⟨c', st, v, new, heq, hend, hlo, hhi⟩ :=
          ih (w + 1) (f + (c.forced (w + 1)).length) (c := { c with trail := c.trail ++ c.forced (w + 1) }) hconf (by omega)
        refine ⟨c', st, v, _, ?_, hend.after_wave, by omega, by omega⟩
        rw [c.waves_forcing n w f hc hnil, heq, List.length_append, Nat.add_assoc]

theorem ClauseArray.prop_of_conflict {c : ClauseArray} (h : c.conf ≠ none) : c.prop = (c, c.word 2 0 0) := by
  rw [ClauseArray.prop, if_pos (Option.isSome_iff_ne_none.2 h)]

/-- `cprop` with no conflict recorded: 129 waves are enough (R157). -/
theorem ClauseArray.prop_propagates {c : ClauseArray} (h : c.conf = none) :
    ∃ c' st w new, c.prop = (c', c'.word st w new.length) ∧ c.PropagatesTo c' st w new ∧ 1 ≤ w ∧ w ≤ 129 := by
  have hrun : c.prop = ClauseArray.waves 129 0 0 c := if_neg (by simp [h])
  have hfuel : c.unassigned.card < 129 := c.card_unassigned_le.trans_lt (by decide)
  obtain ⟨c', st, w, new, heq, hend, hlo, hhi⟩ := ClauseArray.waves_propagates 129 0 0 h hfuel
  exact ⟨c', st, w, new, by rw [hrun, heq, Nat.zero_add], hend, hlo, by omega⟩

end Sys2Proof
end

section
/-! The clause instructions (R139 to R161): the checks that they share, and one rule for each. -/
namespace Sys2Proof.Machine

/-! ## The checks (R151, R152) -/

@[simp] theorem setClauseM_run (c : ClauseArray) (s : State) : setClauseM c s = .ok ((), s.setClauses c) := rfl

theorem clausePoisonM_ok {s : State} (h : s.myClause.poisoned = false) : clausePoisonM s = .ok ((), s) := by
  simp [clausePoisonM, h]

/-- The holder of an array with no error to report reads it. -/
theorem State.HoldsClauses.clauseM {s : State} {c : ClauseArray} (h : s.HoldsClauses c) : Machine.clauseM s = .ok (c, s) := by
  have hpoison : s.myClause.poisoned = false := by rw [h.unit]
  simp [Machine.clauseM, h.context, h.unit, clausePoisonM_ok hpoison]

section
variable {s : State} (hctx : s.clauseContext = true)
include hctx

theorem clauseM_busy {q : ClauseHolder} (hq : s.myClause.holder = some q) (hne : q ≠ s.clauseSelf) :
    clauseM s = .error (.trap causeClauseBusy 1) := by
  have hmine : (some q == some s.clauseSelf) = false := by simpa using hne
  simp only [clauseM, M.bind_run, readS_run, id_eq, hctx, privUnless_true, hq, hmine, Bool.false_and, Bool.not_false, trapIf_true,
    Option.isSome_some, Bool.and_self, if_true]

theorem clauseM_free (hfree : s.myClause.holder = none) : clauseM s = .error (.trap causeClauseBusy 0) := by
  simp [clauseM, hctx, hfree]

end

/-- The clause instructions that need the array claimed: all but `cclaim`. -/
def clauseWords (d a : XReg) (v : VReg) : List Instr :=
  [.cload a v, .cdrop a, .cdec a, .cprop d, .cback a, .ctrail d a, .crow d a, .cconf d, .cfree]

/-- Each of them begins with the shared checks. -/
theorem exec_clauseWords {d a : XReg} {v : VReg} {i : Instr} (hi : i ∈ clauseWords d a v) :
    ∃ body : ClauseArray → M Unit, ∀ s, exec i s = word (clauseM >>= body) s := by
  revert i
  simp only [clauseWords, List.forall_mem_cons]
  exact ⟨⟨_, fun _ => rfl⟩, ⟨_, fun _ => rfl⟩, ⟨_, fun _ => rfl⟩, ⟨_, fun _ => rfl⟩, ⟨_, fun _ => rfl⟩, ⟨_, fun _ => rfl⟩,
    ⟨_, fun _ => rfl⟩, ⟨_, fun _ => rfl⟩, ⟨_, fun _ => rfl⟩, by simp⟩

/-- What the checks trap, the word traps. -/
theorem exec_clauseWords_trap {d a : XReg} {v : VReg} {i : Instr} (hi : i ∈ clauseWords d a v) {s : State} {k : Nat} {tval : Word}
    (h : clauseM s = .error (.trap k tval)) : exec i s = s.takeTrap k tval := by
  obtain ⟨body, hbody⟩ := exec_clauseWords hi
  rw [hbody]
  refine word_trap ?_
  rw [M.bind_run, h]

/-! ## cclaim (R140, R151, R154) -/

theorem exec_cclaim (d : XReg) (s : State) : exec (.cclaim d) s = execCclaim d s := rfl

section
variable {s : State} (hctx : s.clauseContext = true) (d : XReg)
include hctx

theorem exec_cclaim_claims (hpoison : s.myClause.poisoned = false)
    (hmine : s.myClause.holder = none ∨ s.myClause.holder = some s.clauseSelf) :
    exec (.cclaim d) s = .next ((s.updClause s.clauseHome (fun _ =>
      ⟨ClauseArray.empty, some s.clauseSelf, true, false⟩)).wroteX d ClauseArray.capacity) := by
  have hbusy : (s.myClause.holder.isSome && s.myClause.holder != some s.clauseSelf) = false := by
    rcases hmine with h | h <;> simp [h]
  rw [exec_cclaim]
  refine word_ok ?_
  simp only [M.bind_run, readS_run, id_eq, hctx, privUnless_true, hbusy, trapIf_false, clausePoisonM_ok hpoison, updS_run, setXM_run]

theorem exec_cclaim_busy {q : ClauseHolder} (hq : s.myClause.holder = some q) (hne : q ≠ s.clauseSelf) :
    exec (.cclaim d) s = s.takeTrap causeClauseBusy 1 := by
  have hbusy : (s.myClause.holder.isSome && s.myClause.holder != some s.clauseSelf) = true := by simp [hq, hne]
  rw [exec_cclaim]
  refine word_trap ?_
  simp only [M.bind_run, readS_run, id_eq, hctx, privUnless_true, hbusy, trapIf_true]

end

/-! ## The words of the holder -/

/-- TVAL of a `cdec` that traps (R156): the reason above the row and sign. -/
theorem cdecTval_eq (w : Word) {m b : Nat} (hm : 9 ≤ m) :
    field m b ||| field 0 (Word.bits w 8 0) = BitVec.ofNat 64 (2 ^ m * b + w.toNat % 512) := by
  have hbits : Word.bits w 8 0 = w.toNat % 512 := by simp [Word.bits]
  have hlt : w.toNat % 512 < 2 ^ m := (Nat.mod_lt _ (show 0 < 512 by decide)).trans_le (Nat.pow_le_pow_right Nat.two_pos hm)
  rw [hbits, field_zero, BitVec.or_comm, ofNat_or_field hlt, Nat.add_comm]

theorem clauseRow_eq (w : Word) : Word.bits w 6 0 = w.toNat % 128 := by simp [Word.bits]

theorem clauseLevel_eq (w : Word) : Word.bits w 7 0 = w.toNat % 256 := by simp [Word.bits]

theorem exec_cload (a : XReg) (b : VReg) (s : State) : exec (.cload a b) s = execCload a b s := rfl
theorem exec_cdrop (a : XReg) (s : State) : exec (.cdrop a) s = execCdrop a s := rfl
theorem exec_cdec (a : XReg) (s : State) : exec (.cdec a) s = execCdec a s := rfl
theorem exec_cprop (d : XReg) (s : State) : exec (.cprop d) s = execCprop d s := rfl
theorem exec_cback (a : XReg) (s : State) : exec (.cback a) s = execCback a s := rfl
theorem exec_ctrail (d a : XReg) (s : State) : exec (.ctrail d a) s = execCtrail d a s := rfl
theorem exec_crow (d a : XReg) (s : State) : exec (.crow d a) s = execCrow d a s := rfl
theorem exec_cconf (d : XReg) (s : State) : exec (.cconf d) s = execCconf d s := rfl
theorem exec_cfree (s : State) : exec .cfree s = execCfree s := rfl

section
variable {s : State} {c : ClauseArray} (h : s.HoldsClauses c) (d : XReg)
include h

theorem exec_cprop_holder : exec (.cprop d) s = .next ((s.setClauses c.prop.1).wroteX d c.prop.2) := by
  rw [exec_cprop]
  refine word_ok ?_
  simp only [M.bind_run, h.clauseM, setClauseM_run, setXM_run]

theorem exec_cconf_holder : exec (.cconf d) s = .next (s.wroteX d c.confWord) := by
  rw [exec_cconf]
  refine word_ok ?_
  simp only [M.bind_run, h.clauseM, setXM_run]

theorem exec_cfree_holder : exec .cfree s = .next (s.freeClause s.clauseHome).advance := by
  rw [exec_cfree]
  refine word_ok ?_
  simp only [M.bind_run, h.clauseM, updS_run]

variable {a : XReg} (ha : s.readable [a])
include ha

theorem exec_cload_holder (v : VReg) (hn : (s.me.getX a).toNat ≤ 511) :
    exec (.cload a v) s = .next (s.setClauses (c.load (s.me.getX a).toNat (s.me.getV v))).advance := by
  rw [exec_cload]
  refine word_ok ?_
  simp only [M.bind_run, h.clauseM, xM_ok (State.readable_head ha), vM_run, decide_eq_false (Nat.not_lt.2 hn), trapIf_false,
    setClauseM_run]

theorem exec_cload_access (v : VReg) (hn : 511 < (s.me.getX a).toNat) :
    exec (.cload a v) s = s.takeTrap causeAccess (s.me.getX a) := by
  rw [exec_cload]
  refine word_trap ?_
  simp only [M.bind_run, h.clauseM, xM_ok (State.readable_head ha), vM_run, decide_eq_true hn, trapIf_true]

theorem exec_cdrop_holder (hn : (s.me.getX a).toNat ≤ 511) :
    exec (.cdrop a) s = .next (s.setClauses (c.drop (s.me.getX a).toNat)).advance := by
  rw [exec_cdrop]
  refine word_ok ?_
  simp only [M.bind_run, h.clauseM, xM_ok (State.readable_head ha), decide_eq_false (Nat.not_lt.2 hn), trapIf_false, setClauseM_run]

theorem exec_cdrop_access (hn : 511 < (s.me.getX a).toNat) : exec (.cdrop a) s = s.takeTrap causeAccess (s.me.getX a) := by
  rw [exec_cdrop]
  refine word_trap ?_
  simp only [M.bind_run, h.clauseM, xM_ok (State.readable_head ha), decide_eq_true hn, trapIf_true]

/-- A row that has a value is not decided (R156). -/
theorem exec_cdec_assigned (hrow : ∃ e ∈ c.trail, e.row = (s.me.getX a).toNat % 128) :
    exec (.cdec a) s = s.takeTrap causeAccess (BitVec.ofNat 64 (0x0200000000000000 + (s.me.getX a).toNat % 512)) := by
  rw [show 0x0200000000000000 = 2 ^ 57 * 1 from rfl, ← cdecTval_eq _ (show 9 ≤ 57 by decide), exec_cdec]
  refine word_trap ?_
  simp only [M.bind_run, h.clauseM, xM_ok (State.readable_head ha), clauseRow_eq, (c.isSome_val _).2 hrow, trapIf_true]
  rfl

section
variable (hrow : ∀ e ∈ c.trail, e.row ≠ (s.me.getX a).toNat % 128)
include hrow

/-- Nothing is decided while a conflict is recorded (R156). -/
theorem exec_cdec_conflict (hconf : c.conf ≠ none) :
    exec (.cdec a) s = s.takeTrap causeAccess (BitVec.ofNat 64 (0x0300000000000000 + (s.me.getX a).toNat % 512)) := by
  have hval : (c.val ((s.me.getX a).toNat % 128)).isSome = false :=
    c.isSome_val_false hrow
  rw [show 0x0300000000000000 = 2 ^ 56 * 3 from rfl, ← cdecTval_eq _ (show 9 ≤ 56 by decide), exec_cdec]
  refine word_trap ?_
  simp only [M.bind_run, h.clauseM, xM_ok (State.readable_head ha), clauseRow_eq, hval, Option.isSome_iff_ne_none.2 hconf,
    trapIf_false, trapIf_true]
  rfl

theorem exec_cdec_decides (hconf : c.conf = none) : exec (.cdec a) s =
    .next (s.setClauses (c.decide ((s.me.getX a).toNat % 128) (!(s.me.getX a).toNat.testBit 8))).advance := by
  have hval : (c.val ((s.me.getX a).toNat % 128)).isSome = false :=
    c.isSome_val_false hrow
  rw [exec_cdec]
  refine word_ok ?_
  simp only [M.bind_run, h.clauseM, xM_ok (State.readable_head ha), clauseRow_eq, hval, hconf, Option.isSome_none, trapIf_false,
    setClauseM_run]
  rfl

end

theorem exec_cback_holder : exec (.cback a) s = .next (s.setClauses (c.back ((s.me.getX a).toNat % 256))).advance := by
  rw [exec_cback]
  refine word_ok ?_
  simp only [M.bind_run, h.clauseM, xM_ok (State.readable_head ha), clauseLevel_eq, setClauseM_run]

theorem exec_ctrail_holder : exec (.ctrail d a) s = .next (s.wroteX d (c.trailWord (s.me.getX a).toNat)) := by
  rw [exec_ctrail]
  refine word_ok ?_
  simp only [M.bind_run, h.clauseM, xM_ok (State.readable_head ha), setXM_run]

theorem exec_crow_holder : exec (.crow d a) s = .next (s.wroteX d (c.rowWord ((s.me.getX a).toNat % 128))) := by
  rw [exec_crow]
  refine word_ok ?_
  simp only [M.bind_run, h.clauseM, xM_ok (State.readable_head ha), clauseRow_eq, setXM_run]

end

/-! ## Errors of the array (R161) -/

theorem exec_clauseArrayEccError {s : State} {c : Nat} {arbiter : Bool} (h : s.input = .clauseEcc c arbiter) :
    exec .clauseArrayEccError s = .next (s.clauseEcc c arbiter) := by
  show execClauseArrayEccError s = _
  rw [execClauseArrayEccError, h]

end Sys2Proof.Machine

open Sys2Proof Sys2Proof.Machine

/-- Settles O32: a forcing wave leaves fewer rows without a value, so the waves end within 129, on a conflict or with no unit
column left. -/
theorem propagationResult : Obligations.PropagationResult := by
  unfold Obligations.PropagationResult
  intro d s c h word
  refine ⟨fun hconf => ?_, fun hconf => ?_⟩
  · rw [exec_cprop_holder h, ClauseArray.prop_of_conflict hconf]
    rfl
  · obtain ⟨c', st, w, new, heq, hend, hlo, hhi⟩ := ClauseArray.prop_propagates hconf
    refine ⟨c', st, w, new, ?_, hend.cols, hend.level, hend.trail, hlo, hhi, fun e he => ?_, hend.status, hend.conflict, hend.quiet⟩
    · rw [exec_cprop_holder h, heq]
      rfl
    · obtain ⟨hlevel, hdec, hlt, hfresh⟩ := hend.forced e he
      exact ⟨hlevel, hdec, hlt, fun x hx _ => hfresh x hx⟩

/-- Settles O31, word by word: the shared checks, and what each word makes of the array. -/
theorem clauseResult : Obligations.ClauseResult := by
  unfold Obligations.ClauseResult
  refine ⟨?claim, ?checks, ?columns, ?levels, ?reads, ?ecc, ?arbiter⟩
  case claim =>
    exact fun d s hctx hpoison => ⟨exec_cclaim_claims hctx d hpoison, fun q hq hne => exec_cclaim_busy hctx d hq hne⟩
  case checks =>
    exact fun d a v s hctx i hi => ⟨fun q hq hne => exec_clauseWords_trap hi (clauseM_busy hctx hq hne),
      fun hfree => exec_clauseWords_trap hi (clauseM_free hctx hfree)⟩
  case columns =>
    intro a v s c h ha n
    refine ⟨fun hn => ⟨exec_cload_access h ha v hn, exec_cdrop_access h ha hn⟩, fun hn => ⟨?_, ?_⟩⟩
    · refine ⟨_, exec_cload_holder h ha v hn, ⟨_, find?_colSet_same n _ _, fun r hr => ⟨?_, ?_⟩⟩,
        fun m hm => find?_colSet_ne hm _ _, rfl, rfl, rfl⟩
      · exact getLsbD_side_columnOf (s.me.getV v) false hr
      · exact getLsbD_side_columnOf (s.me.getV v) true hr
    · exact ⟨_, exec_cdrop_holder h ha hn, c.find?_drop n, rfl, rfl, rfl⟩
  case levels =>
    exact fun a s c h ha => ⟨exec_cdec_decides h ha, exec_cdec_assigned h ha, exec_cdec_conflict h ha, exec_cback_holder h ha⟩
  case reads =>
    intro d a s c h ha w
    have hrow := exec_crow_holder h d ha
    rw [ClauseArray.rowWord, ClauseArray.used_eq] at hrow
    exact ⟨exec_ctrail_holder h d ha, hrow, exec_cconf_holder h d, exec_cfree_holder h⟩
  case ecc => exact fun c s hin => exec_clauseArrayEccError hin
  case arbiter =>
    exact fun c s hin => ⟨_, exec_clauseArrayEccError hin, State.mem_pending_postOnce .., State.postOnce_only_pending ..⟩

end

section
/-! A read at a home fills sectors of its line (R185) and changes no committed byte (R191): the bytes that a fill brings are those
that were read through the sector before. -/
namespace Sys2Proof.Machine

/-! ## Views (R190, R191) -/

/-- The view of an enabled window begins and ends at a multiple of 64. -/
theorem Hub.windows_aligned {h : Hub} {stack : Nat} {w : Nat × FWindow} (hw : w ∈ h.windows stack) :
    64 ∣ w.2.view ∧ 64 ∣ w.2.len := by
  obtain ⟨n, -, hn⟩ := List.mem_filterMap.1 hw
  cases hf : NMap.find? h.fwin (fwinKey stack n) with
  | none => simp [hf] at hn
  | some x =>
    simp only [hf] at hn
    split at hn
    · cases hn
    · cases hn
      exact ⟨Dvd.dvd.mul_left (by decide) _, Dvd.dvd.mul_left (by decide) _⟩

/-- The bytes of a sector stand in the same view, or in none. -/
theorem Hub.viewOf_sector (h : Hub) {pa i : Nat} (hpa : pa % 64 = 0) (hi : i < 64) : h.viewOf (pa + i) = h.viewOf pa := by
  have hstack : stackOf (pa + i) = stackOf pa := by simp only [stackOf]; omega
  have hoff : stackOff (pa + i) = stackOff pa + i ∧ 64 ∣ stackOff pa := by simp only [stackOff]; omega
  obtain ⟨hoff, hdvd⟩ := hoff
  simp only [Hub.viewOf, hstack, hoff]
  refine List.find?_congr fun w hw => ?_
  obtain ⟨hview, hlen⟩ := Hub.windows_aligned hw
  rw [Bool.eq_iff_iff]
  simp only [Bool.and_eq_true, decide_eq_true_eq]
  omega

/-! ## Fills (R185) -/

/-- The bytes below n that a store lacks, written into it. -/
theorem ByteMap.read_fill (keep : Nat → Bool) (v : Nat → Byte) (m : ByteMap) (n a : Nat) :
    ByteMap.read ((List.range n).foldl (fun m i => if keep i then m else ByteMap.write m i (v i)) m) a =
      if a < n ∧ keep a = false then v a else ByteMap.read m a := by
  induction n with
  | zero => simp
  | succ n ih =>
    rw [List.range_succ, List.foldl_append, List.foldl_cons, List.foldl_nil]
    cases hk : keep n with
    | true =>
      rw [if_pos rfl, ih]
      by_cases ha : a = n
      · simp [ha, hk]
      · simp only [show a < n + 1 ↔ a < n by omega]
    | false =>
      rw [if_neg Bool.false_ne_true, ByteMap.read_write, ih]
      by_cases ha : a = n
      · simp [ha, hk]
      · simp only [if_neg ha, show a < n + 1 ↔ a < n by omega]

/-- A sector reads as before its fill. -/
theorem Sector.byteOr_filled (s : State) (c : Sector) {pa i : Nat} (hpa : pa % 64 = 0) (hi : i < 64) :
    (s.filled pa c).byteOr i (s.dramByte (pa + i)) = c.byteOr i (s.dramByte (pa + i)) := by
  have hread : ByteMap.read (s.filled pa c).bytes i = if i < 64 ∧ c.have_.getLsbD i = false then s.dramByte (pa + i)
      else ByteMap.read c.bytes i := by
    rw [State.dramByte, s.hub.viewOf_sector hpa hi]
    simp only [State.filled, upTo, ByteMap.read_fill]
  have hhave : (s.filled pa c).have_.getLsbD i = true := (BitVec.getLsbD_allOnes ..).trans (decide_eq_true hi)
  rw [Sector.byteOr, if_pos hhave, hread, Sector.byteOr]
  cases c.have_.getLsbD i with
  | true => rw [if_neg (by simp), if_pos rfl]
  | false => rw [if_pos ⟨hi, rfl⟩, if_neg Bool.false_ne_true]

/-- A line reads as before a load of it. -/
theorem State.byteOr_loadedLine (s : State) (line off n : Nat) (ev : Bool) (l : SliceLine) {k i : Nat} (hi : i < 64) :
    ((s.loadedLine line off n ev l).sector k).byteOr i (s.dramByte (256 * line + 64 * k + i)) =
      (l.sector k).byteOr i (s.dramByte (256 * line + 64 * k + i)) := by
  refine List.foldlRecOn (motive := fun (m : SliceLine) =>
    (m.sector k).byteOr i (s.dramByte (256 * line + 64 * k + i)) = (l.sector k).byteOr i (s.dramByte (256 * line + 64 * k + i)))
    _ _ rfl fun m hm j hj => ?_
  dsimp only
  split
  · rw [SliceLine.sector_setSector _ _ _ _ (List.mem_range.1 hj)]
    split
    · next h =>
      rw [← h, Sector.byteOr_filled s _ (by omega) hi, hm]
    · exact hm
  · exact hm

/-- Once its line has a way, a read changes no byte. -/
theorem State.pull_of_room {s u : State} {vf pa : Nat} (h : s.room vf pa = some u) (n : Nat) (ev : Bool) :
    ∃ t, s.pull vf pa n ev = some t ∧ ∀ a, t.byteAt a = u.byteAt a := by
  refine ⟨_, by rw [State.pull, h, Option.map_some], fun a => ?_⟩
  by_cases hline : a / 256 = pa / 256
  · have haddr : 256 * (pa / 256) + 64 * (a / 64 % 4) + a % 64 = a := by omega
    have hload := u.byteOr_loadedLine (pa / 256) (pa % 256) n ev
      ((NMap.find? u.lines (pa / 256)).getD (SliceLine.fresh vf u.fclk ev)) (k := a / 64 % 4) (Nat.mod_lt a (by decide : 0 < 64))
    rw [haddr, ← hline, ← State.byteAt_eq] at hload
    rw [State.byteAt_eq _ vf u.fclk ev, hline, NMap.find?_set_same, Option.getD_some, ← hline]
    exact hload
  · rw [State.byteAt_eq _ vf u.fclk ev, u.byteAt_eq vf u.fclk ev, NMap.find?_set_ne _ _ _ _ hline]
    rfl

/-- The bytes at a place depend on the committed bytes, host memory and peer memory. -/
theorem State.SameMemory.placeBytes {s t : State} (h : s.SameMemory t .nowhere 0) (q : Place) (pa n : Nat) :
    t.placeBytes q pa n = s.placeBytes q pa n := by
  cases q with
  | dram => exact List.map_congr_left fun i _ => h.device _ nofun
  | host => exact List.map_congr_left fun i _ => h.remote .host _ nofun
  | peer => exact List.map_congr_left fun i _ => h.remote .peer _ nofun

end Sys2Proof.Machine
end

section
/-! `mcrd` (R166 to R168, R174): the checks of its descriptor and of its range, and the request that it sends. -/
namespace Sys2Proof.Machine

theorem exec_mcrd (a b : XReg) (barn : BarIx) (lines : BitVec 8) (s : State) :
    exec (.mcrd a b barn lines) s = execMcrd a b barn lines s := rfl

theorem userM_ok {s : State} (h : s.isUser = true) : userM s = .ok ((), s) := by
  simp only [userM, M.bind_run, readS_run, id_eq, h, privUnless_true]

/-! ## The descriptor (R167, R168) -/

/-- A descriptor of n lines that `mcrd` refuses: a reserved bit, a destination outside the pack, or an end beyond a core's
scratch. -/
def mcRefused (x : Run) (w : Word) (n : Nat) : Bool :=
  mcReserved w || !(mcPlaces w).all (fun p => p.1 < Rec.packw x.rec_ && p.2 < Rec.packh x.rec_) || 262144 < mcSoff w + 256 * n

theorem mcRefused_iff {x : Run} {w : Word} {n : Nat} : mcRefused x w n = true ↔
    mcReserved w = true ∨ 262144 < mcSoff w + 256 * n ∨ ∃ p ∈ mcPlaces w, Rec.packw x.rec_ ≤ p.1 ∨ Rec.packh x.rec_ ≤ p.2 := by
  have hplaces : (mcPlaces w).all (fun p => p.1 < Rec.packw x.rec_ && p.2 < Rec.packh x.rec_) = false ↔
      ∃ p ∈ mcPlaces w, Rec.packw x.rec_ ≤ p.1 ∨ Rec.packh x.rec_ ≤ p.2 := by
    simp only [List.all_eq_false, Bool.and_eq_true, decide_eq_true_eq, not_and_or, Nat.not_lt]
  rw [mcRefused, Bool.or_eq_true, Bool.or_eq_true, Bool.not_eq_true', hplaces, decide_eq_true_eq, or_assoc]
  exact or_congr_right or_comm

theorem mcRefused_false {x : Run} {w : Word} {n : Nat} (hres : mcReserved w = false) (hend : mcSoff w + 256 * n ≤ 262144)
    (hplaces : ∀ p ∈ mcPlaces w, p.1 < Rec.packw x.rec_ ∧ p.2 < Rec.packh x.rec_) : mcRefused x w n = false := by
  rw [← Bool.not_eq_true, mcRefused_iff]
  rintro (h | h | ⟨p, hp, h⟩)
  · simp [hres] at h
  · omega
  · have := hplaces p hp
    omega

/-! ## The range (R125, R168) -/

/-- The page of an address as a request records it (R125): its first address and its size. -/
def State.pageOf (s : State) (a : Word) : Nat × Nat := (a.toNat / 2 ^ s.pageBits a * 2 ^ s.pageBits a, s.pageBits a)

/-- The lines of a range whose pages are all at hand. -/
theorem mcLinesM_ok {s : State} {va : Word} {pa : Nat → Nat} (n i : Nat)
    (h : ∀ j, i ≤ j → j < i + n → ∃ q, s.Leads .r (va + BitVec.ofNat 64 (256 * j)) 1 (pa j) q) : mcLinesM va i n s =
      .ok ((List.range' i n).map (fun j => ((pa j, j), s.pageOf (va + BitVec.ofNat 64 (256 * j)))), s) := by
  induction n generalizing i with
  | zero => rfl
  | succ n ih =>
    obtain ⟨q, hq⟩ := h i (Nat.le_refl i) (by omega)
    have hcheck : checkM .mcrd (va + BitVec.ofNat 64 (256 * i)) 1 [] s = .ok (.phys q (pa i), s) :=
      checkBytesM_leads [] hq nofun nofun
    have hrest := ih (i + 1) (fun j hj hlt => h j (by omega) (by omega))
    simp only [mcLinesM, M.bind_run, hcheck, readS_run, hrest, M.pure_run, List.range'_succ, List.map_cons]
    rfl

/-! ## Entering a class (R215) -/

/-- A thread set with one more operation in a class. -/
def Thread.entered (t : Thread) (k : WClass) : Thread := { t with cnt := t.cnt.upd k (· + 1) }

theorem enterClass_room {k : WClass} {s : State} (h : s.me.cnt.get k < 63) : enterClass k s = .ok ((), s.updMe (·.entered k)) :=
  enterClass_ok h

/-- A completed word that enters a class keeps the registers. -/
theorem Thread.sameRegs_next_entered (t : Thread) (k : WClass) : t.SameRegs (t.entered k).next :=
  have h := (t.entered k).sameRegs_next
  ⟨h.x, h.v, h.p, h.h, h.special, h.fpflags⟩

/-! ## The word -/

section
variable {a b : XReg} {s : State} (hu : s.isUser = true) (hr : s.readable [a, b]) (barn : BarIx) {lines : BitVec 8}
include hu hr

/-- A descriptor without a destination asks for nothing (R167). -/
theorem exec_mcrd_none (hmask : mcMask (s.me.getX b) = 0) : exec (.mcrd a b barn lines) s = .next s.advance := by
  rw [exec_mcrd]
  refine word_ok ?_
  simp only [M.bind_run, userM_ok hu, xM_ok (State.readable_head hr), xM_ok (State.readable_head (State.readable_tail hr)), hmask,
    if_true, M.pure_run]

variable (hmask : mcMask (s.me.getX b) ≠ 0)
include hmask

theorem exec_mcrd_misaligned_range (hva : (s.me.getX a).toNat % 256 ≠ 0) :
    exec (.mcrd a b barn lines) s = s.takeTrap causeMisalign (s.me.getX a) := by
  rw [exec_mcrd]
  refine word_trap ?_
  simp only [M.bind_run, userM_ok hu, xM_ok (State.readable_head hr), xM_ok (State.readable_head (State.readable_tail hr)), hmask,
    if_false, bne_iff_ne.2 hva, trapIf_true]

variable (hva : (s.me.getX a).toNat % 256 = 0)
include hva

theorem exec_mcrd_misaligned_place (hoff : mcSoff (s.me.getX b) % 256 ≠ 0) :
    exec (.mcrd a b barn lines) s = s.takeTrap causeMisalign (s.me.getX b) := by
  have h0 : ((s.me.getX a).toNat % 256 != 0) = false := by simp [hva]
  rw [exec_mcrd]
  refine word_trap ?_
  simp only [M.bind_run, userM_ok hu, xM_ok (State.readable_head hr), xM_ok (State.readable_head (State.readable_tail hr)), hmask,
    if_false, h0, trapIf_false, bne_iff_ne.2 hoff, trapIf_true]

variable (hoff : mcSoff (s.me.getX b) % 256 = 0) {x : Run} (hx : s.myRun? = some x)
include hoff hx

theorem exec_mcrd_refused (hbad : mcRefused x (s.me.getX b) lines.toNat = true) :
    exec (.mcrd a b barn lines) s = s.takeTrap causeAccess (s.me.getX b) := by
  have h0 : ((s.me.getX a).toNat % 256 != 0) = false := by simp [hva]
  have h1 : (mcSoff (s.me.getX b) % 256 != 0) = false := by simp [hoff]
  rw [mcRefused] at hbad
  rw [exec_mcrd]
  refine word_trap ?_
  simp only [M.bind_run, userM_ok hu, xM_ok (State.readable_head hr), xM_ok (State.readable_head (State.readable_tail hr)), hmask,
    if_false, h0, h1, trapIf_false, readS_run, id_eq, hx, hbad, trapIf_true]

/-- The request that the word sends for n lines at physical addresses. -/
def State.mcrdFor (s : State) (x : Run) (va w : Word) (barn : BarIx) (n : Nat) (pa : Nat → Nat) : McrdReq :=
  ⟨s.nextMcrd, s.cur, s.me.stint, s.me.act, s.me.run.getD 0, (List.range n).map (fun i => (pa i, i)),
    ((List.range n).map (fun i => s.pageOf (va + BitVec.ofNat 64 (256 * i)))).eraseDups,
    (mcPlaces w).map (fun p => x.node + 16 * p.2 + p.1), mcCore w, mcSoff w, barn, 2 * n * (mcPlaces w).length, false⟩

/-- A request on its way to the home slices. -/
def State.sendMcrd (s : State) (req : McrdReq) : State :=
  ({ s with mcrds := NMap.set s.mcrds s.nextMcrd req, nextMcrd := s.nextMcrd + 1 }).post (.mcrdRequestArrive s.nextMcrd)

theorem exec_mcrd_sends {pa : Nat → Nat} (hok : mcRefused x (s.me.getX b) lines.toNat = false)
    (hscratch : scratchEnd ≤ (s.me.getX a).toNat ∨ (s.me.getX a).toNat + 256 * lines.toNat ≤ scratchBase) (hroom : s.me.cnt.cp < 63)
    (hpages : ∀ i, i < lines.toNat → ∃ q, s.Leads .r (s.me.getX a + BitVec.ofNat 64 (256 * i)) 1 (pa i) q) :
    exec (.mcrd a b barn lines) s = .next ((s.updMe (·.entered .cp)).sendMcrd
      (s.mcrdFor x (s.me.getX a) (s.me.getX b) barn lines.toNat pa)).advance := by
  have h0 : ((s.me.getX a).toNat % 256 != 0) = false := by simp [hva]
  have h1 : (mcSoff (s.me.getX b) % 256 != 0) = false := by simp [hoff]
  have h2 : (decide ((s.me.getX a).toNat < scratchEnd) && decide (scratchBase < (s.me.getX a).toNat + 256 * lines.toNat)) = false := by
    simp only [Bool.and_eq_false_iff, decide_eq_false_iff_not]
    omega
  have hlines := mcLinesM_ok lines.toNat 0 (fun j _ hj => hpages j (by omega))
  rw [← List.range_eq_range'] at hlines
  have hcnt : s.me.cnt.get .cp < 63 := hroom
  rw [mcRefused] at hok
  rw [exec_mcrd]
  refine word_ok ?_
  simp only [M.bind_run, userM_ok hu, xM_ok (State.readable_head hr), xM_ok (State.readable_head (State.readable_tail hr)), hmask,
    if_false, h0, h1, h2, trapIf_false, readS_run, id_eq, hx, hok, hlines, enterClass_room hcnt, updS_run, State.sendMcrd, State.mcrdFor,
    List.map_map, List.length_map, List.length_range]
  rfl

end

/-- What the request's state holds, and what sending it leaves as it was. -/
theorem State.sendMcrd_result (s : State) (req : McrdReq) :
    let t := ((s.updMe (·.entered .cp)).sendMcrd req).advance
    NMap.find? t.mcrds s.nextMcrd = some req ∧ Instr.mcrdRequestArrive s.nextMcrd ∈ t.pending ∧
      t.me.cnt = { s.me.cnt with cp := s.me.cnt.cp + 1 } ∧ s.SameMemory t .nowhere 0 ∧ s.me.SameRegs t.me := by
  have hsets : (s.updMe (·.entered .cp)).SetsKept ((s.updMe (·.entered .cp)).sendMcrd req) := ⟨rfl, rfl⟩
  have hme : ((s.updMe (·.entered .cp)).sendMcrd req).advance.me = (s.me.entered .cp).next := by
    rw [State.me_advance, hsets.me, State.me_updMe]
  refine ⟨NMap.find?_set_same .., List.mem_append_right _ (List.mem_singleton.2 rfl), ?_,
    State.MemoryKept.sameMemory ⟨rfl, rfl, rfl, rfl, rfl⟩, ?_⟩
  · rw [hme, Thread.next_cnt]
    rfl
  · rw [hme]
    exact s.me.sameRegs_next_entered .cp

end Sys2Proof.Machine
end

section
/-! From a request to beats on their way (R168 to R173): the stream that a home makes of a request, and a line that it sends. -/
namespace Sys2Proof.Machine

theorem exec_mcrdRequestArrive (q : Nat) (s : State) : exec (.mcrdRequestArrive q) s = execMcrdRequestArrive q s := rfl
theorem exec_mcrdLineSend (k : Nat) (s : State) : exec (.mcrdLineSend k) s = execMcrdLineSend k s := rfl

/-! ## Arrival (R168, R169) -/

/-- The stream that serves a request alone, whose lines have all one home. -/
def McrdReq.stream (r : McrdReq) (home : Nat) : Stream :=
  ⟨home, r.run, r.dcore, r.soff, r.barn, r.lines.map (fun l => ⟨l.1, l.2, r.dests.map (fun d => (r.id, d)), false⟩), r.lines, []⟩

/-- A stream begins. -/
def State.beginStream (s : State) (m : Stream) : State :=
  ({ s with streams := NMap.set s.streams s.nextMcrd m, nextMcrd := s.nextMcrd + 1 }).post (.mcrdLineSend s.nextMcrd)

/-- A request that meets no stream to join begins one. -/
theorem State.arriveAt_begins {s : State} {r : McrdReq} {home : Nat} (hhome : ∀ l ∈ r.lines, s.lineHome r l.1 = home)
    (hnone : s.streams = []) : s.arriveAt r home = s.beginStream (r.stream home) := by
  have hall : r.lines.filter (fun l => s.lineHome r l.1 == home) = r.lines :=
    List.filter_eq_self.2 fun l hl => beq_iff_eq.2 (hhome l hl)
  have hjoin : firstStream (fun m => m.merges r home r.lines) s.streams = none := by rw [hnone]; rfl
  simp only [State.arriveAt, hall, hjoin]
  rfl

theorem exec_mcrdRequestArrive_begins {s : State} {q home : Nat} {r : McrdReq} (hr : NMap.find? s.mcrds q = some r)
    (hnew : r.arrived = false) (hne : r.lines ≠ []) (hhome : ∀ l ∈ r.lines, s.lineHome r l.1 = home) (hnone : s.streams = []) :
    exec (.mcrdRequestArrive q) s =
      .next ({ s with mcrds := NMap.set s.mcrds q { r with arrived := true } }.beginStream (r.stream home)) := by
  have hone : (r.lines.map (fun l => s.lineHome r l.1)).eraseDups = [home] :=
    eraseDups_of_all_eq (by simpa using hne) (List.forall_mem_map.2 hhome)
  have hbegin : ({ s with mcrds := NMap.set s.mcrds q { r with arrived := true } } : State).arriveAt r home = _ :=
    State.arriveAt_begins hhome hnone
  rw [← hbegin, exec_mcrdRequestArrive, execMcrdRequestArrive, hr]
  simp only [hnew, Bool.false_eq_true, if_false]
  rw [show (r.lines.map (fun l => State.lineHome { s with mcrds := NMap.set s.mcrds q { r with arrived := true } } r l.1)).eraseDups =
    [home] from hone]
  rfl

/-! ## The snapshot of a line (R169) -/

/-- A line that can be read is read, once it has a way; no byte of memory changes. -/
theorem State.lineSnapshot_ok {s : State} {vf pa : Nat} {bs : List Byte} (hread : s.physRead vf pa 256 = .ok bs)
    (hway : s.place pa = .ok .dram → s.FindsWay vf pa) :
    ∃ t, s.lineSnapshot vf pa = some (t, some bs) ∧ s.Reslices t ∧ s.SameMemory t .nowhere 0 := by
  obtain ⟨q, hq⟩ : ∃ q, s.place pa = .ok q := by
    cases hp : s.place pa with
    | ok q => exact ⟨q, rfl⟩
    | error e => simp [State.physRead, hp] at hread
  have hbytes : bs = s.placeBytes q pa 256 := by
    simp only [State.physRead, hq] at hread
    split at hread
    · cases hread
    · split at hread <;> cases hread
      rfl
  obtain ⟨hheld, t, hpull, hslice, hmem⟩ : ¬ (q = .dram ∧ s.lineHeld (pa / 256) = true) ∧
      ∃ t, s.pullPlace q vf pa 256 false = some t ∧ s.Reslices t ∧ s.SameMemory t .nowhere 0 := by
    cases q with
    | dram =>
      obtain ⟨hheld, u, hroom, hu⟩ := hway hq
      obtain ⟨t, ht, hbyte⟩ := State.pull_of_room hroom 256 false
      exact ⟨by simp [hheld], t, ht, State.reslices_pull ht,
        (State.reslices_pull ht).sameMemory fun a => (hbyte a).trans (hu a)⟩
    | host => exact ⟨nofun, s, rfl, .refl s, (State.Reslices.refl s).sameMemory fun _ => rfl⟩
    | peer => exact ⟨nofun, s, rfl, .refl s, (State.Reslices.refl s).sameMemory fun _ => rfl⟩
  refine ⟨t, ?_, hslice, hmem⟩
  simp only [State.lineSnapshot, hread, hq, if_neg hheld, hpull, Option.map_some, hmem.placeBytes, hbytes]

/-! ## The beats of a line (R169, R170, R173) -/

/-- The destinations of a line, each once. -/
def StreamLine.dests (l : StreamLine) : List Nat := (l.targets.map (·.2)).eraseDups

theorem StreamLine.mem_dests {l : StreamLine} {d : Nat} : d ∈ l.dests ↔ ∃ q ∈ l.targets, q.2 = d := by
  rw [StreamLine.dests, List.mem_eraseDups, List.mem_map]

theorem nodup_eraseDups {α : Type} [BEq α] [LawfulBEq α] : (l : List α) → l.eraseDups.Nodup
  | [] => List.nodup_nil
  | a :: l => by
    rw [List.eraseDups_cons, List.nodup_cons, List.mem_eraseDups]
    exact ⟨by simp, nodup_eraseDups _⟩
termination_by l => l.length
decreasing_by exact Nat.lt_succ_of_le (List.length_filter_le ..)

theorem mem_lineBeats {k : Nat} {m : Stream} {l : StreamLine} {bs : List Byte} {d : Nat} {b : Beat}
    (h : b ∈ lineBeats k m l (some bs) d) :
    b.home = m.home ∧ b.stream = k ∧ b.cluster = d ∧ b.dcore = m.dcore ∧ b.barn = m.barn ∧ b.poison = false ∧
      b.reqs = (l.targets.filter (fun q => q.2 == d)).map (·.1) ∧
      ((b.off = m.soff + 256 * l.index ∧ b.bytes = bs.take 128) ∨
        (b.off = m.soff + 256 * l.index + 128 ∧ b.bytes = (bs.drop 128).take 128)) := by
  simp only [lineBeats, List.map_cons, List.map_nil, List.mem_cons, List.not_mem_nil, or_false] at h
  rcases h with rfl | rfl
  · exact ⟨rfl, rfl, rfl, rfl, rfl, rfl, rfl, .inl ⟨rfl, rfl⟩⟩
  · exact ⟨rfl, rfl, rfl, rfl, rfl, rfl, rfl, .inr ⟨rfl, rfl⟩⟩

/-- Of the beats for a list of destinations, those for one of them. -/
theorem filter_flatMap_lineBeats (k : Nat) (m : Stream) (l : StreamLine) (bytes : Option (List Byte)) {d : Nat} {ds : List Nat}
    (hn : ds.Nodup) (hd : d ∈ ds) :
    (ds.flatMap (lineBeats k m l bytes)).filter (fun b => b.cluster == d) = lineBeats k m l bytes d := by
  induction ds with
  | nil => cases hd
  | cons e ds ih =>
    obtain ⟨hnew, hn⟩ := List.nodup_cons.1 hn
    rw [List.flatMap_cons, List.filter_append]
    rcases List.mem_cons.1 hd with rfl | hd
    · have hrest : (ds.flatMap (lineBeats k m l bytes)).filter (fun b => b.cluster == d) = [] := by
        rw [List.filter_flatMap, List.flatMap_eq_nil_iff]
        intro e he
        have hne : e ≠ d := fun h => hnew (h ▸ he)
        simp [lineBeats, hne]
      rw [hrest, List.append_nil]
      simp [lineBeats]
    · have hne : e ≠ d := fun h => hnew (h ▸ hd)
      rw [ih hn hd]
      simp [lineBeats, hne]

/-! ## Sending (R169, R172) -/

theorem State.foldl_post {α : Type} (f : α → Instr) (l : List α) (s : State) :
    l.foldl (fun s a => s.post (f a)) s = { s with pending := s.pending ++ l.map f } := by
  induction l generalizing s with
  | nil => simp
  | cons a l ih => rw [List.foldl_cons, ih]; simp [State.post]

/-- The step that delivers a beat. -/
def Beat.delivery (b : Beat) : Instr := .mcrdBeatDeliver b.cluster

/-- Both beats of a line leave for each of its destinations, and the stream goes on to its next line, or ends. -/
def State.sendLine (s : State) (k : Nat) (m : Stream) (l : StreamLine) (rest : List StreamLine) (bs : List Byte) : State :=
  let new := l.dests.flatMap (lineBeats k m l (some bs))
  let t := { s with beats := s.beats ++ new, pending := s.pending ++ new.map Beat.delivery }
  let after : Stream := { m with todo := rest, sent := m.sent ++ [⟨l.index, l.dests, false⟩] }
  if rest = [] then { t with streams := NMap.erase t.streams k }
  else { t with streams := NMap.set t.streams k after }.postOnce (.mcrdLineSend k)

theorem exec_mcrdLineSend_sends {s t : State} {k : Nat} {m : Stream} {l : StreamLine} {rest : List StreamLine} {bs : List Byte}
    (hm : NMap.find? s.streams k = some m) (htodo : m.todo = l :: rest)
    (hsnap : s.lineSnapshot (s.vfOfRun m.run) l.pa = some (t, some bs)) :
    exec (.mcrdLineSend k) s = .next (t.sendLine k m l rest bs) := by
  rw [exec_mcrdLineSend, execMcrdLineSend, hm]
  simp only [htodo, hsnap, State.foldl_post, List.isEmpty_iff, Option.isNone_some]
  rfl

section
variable (s : State) (k : Nat) (m : Stream) (l : StreamLine) (rest : List StreamLine) (bs : List Byte)

theorem State.sendLine_beats : (s.sendLine k m l rest bs).beats = s.beats ++ l.dests.flatMap (lineBeats k m l (some bs)) := by
  unfold State.sendLine
  dsimp only
  split
  · rfl
  · rw [State.postOnce_beats]

theorem State.memoryKept_sendLine : s.MemoryKept (s.sendLine k m l rest bs) := by
  unfold State.sendLine
  dsimp only
  split
  · exact ⟨rfl, rfl, rfl, rfl, rfl⟩
  · constructor <;> simp

theorem State.streams_sendLine : NMap.find? (s.sendLine k m l rest bs).streams k = if rest = [] then none else
    some { m with todo := rest, sent := m.sent ++ [⟨l.index, l.dests, false⟩] } := by
  unfold State.sendLine
  dsimp only
  split
  · exact NMap.find?_erase_same ..
  · rw [State.postOnce_streams, NMap.find?_set_same]

theorem State.mem_pending_sendLine_next (h : rest ≠ []) : Instr.mcrdLineSend k ∈ (s.sendLine k m l rest bs).pending := by
  unfold State.sendLine
  dsimp only
  rw [if_neg h]
  exact State.mem_pending_postOnce ..

theorem State.mem_pending_sendLine_beat {b : Beat} (h : b ∈ l.dests.flatMap (lineBeats k m l (some bs))) :
    Instr.mcrdBeatDeliver b.cluster ∈ (s.sendLine k m l rest bs).pending := by
  have hmem := List.mem_append_right s.pending (List.mem_map_of_mem (f := Beat.delivery) h)
  unfold State.sendLine
  dsimp only
  split
  · exact hmem
  · exact State.pending_subset_postOnce _ _ hmem

end

end Sys2Proof.Machine
end

section
/-! A beat at its destination (R171, R173, R174): what it writes and credits, and what its delivery leaves of its request. -/
namespace Sys2Proof.Machine

theorem exec_mcrdBeatDeliver (c : Nat) (s : State) : exec (.mcrdBeatDeliver c) s = execMcrdBeatDeliver c s := rfl

/-! ## Which beat comes next (R198) -/

theorem firstBeats_nil {c : Nat} {l : List Beat} {seen : List Nat} (h : ∀ x ∈ l, x.cluster = c → x.home ∈ seen) :
    firstBeats c l seen = [] := by
  induction l with
  | nil => rfl
  | cons x l ih =>
    obtain ⟨hx, hl⟩ := List.forall_mem_cons.1 h
    rw [firstBeats, ih hl]
    split
    · next hc => rw [if_pos (List.contains_iff_mem.2 (hx hc))]
    · rfl

/-- The oldest beat comes first when all beats for its cluster come from its home. -/
theorem firstBeats_head {b : Beat} {rest : List Beat} (h : ∀ x ∈ rest, x.cluster = b.cluster → x.home = b.home) :
    firstBeats b.cluster (b :: rest) [] = [b] := by
  rw [firstBeats, if_pos rfl, firstBeats_nil fun x hx hc => List.mem_singleton.2 (h x hx hc)]
  rfl

theorem exec_mcrdBeatDeliver_one {s : State} {b : Beat} {rest : List Beat} {q : Nat} (hbeats : s.beats = b :: rest)
    (hreqs : b.reqs = [q]) (hone : ∀ x ∈ rest, x.cluster = b.cluster → x.home = b.home) :
    exec (.mcrdBeatDeliver b.cluster) s = .next (({ s with beats := rest }.deliverBeat b).beatDone q) := by
  have hfirst : firstBeats b.cluster s.beats [] = [b] := hbeats ▸ firstBeats_head hone
  rw [exec_mcrdBeatDeliver, execMcrdBeatDeliver, hfirst, State.pickFree_one]
  simp only [hbeats, List.erase_cons_head, hreqs, List.foldl_cons, List.foldl_nil]

/-! ## The request (R174) -/

/-- The end of a beat changes the requests and one thread set's counts. -/
theorem State.beatDone_keeps (s : State) (q : Nat) :
    (s.beatDone q).beats = s.beats ∧ s.MemoryKept (s.beatDone q) := by
  unfold State.beatDone State.leaveFor
  split
  · exact ⟨rfl, rfl, rfl, rfl, rfl, rfl⟩
  · split
    · split <;> exact ⟨rfl, rfl, rfl, rfl, rfl, rfl⟩
    · exact ⟨rfl, rfl, rfl, rfl, rfl, rfl⟩

theorem State.beatDone_more {s : State} {q : Nat} {r : McrdReq} (hr : NMap.find? s.mcrds q = some r) (h : 1 < r.left) :
    NMap.find? (s.beatDone q).mcrds q = some { r with left := r.left - 1 } := by
  rw [State.beatDone, hr]
  simp only [if_neg (Nat.not_le.2 h)]
  exact NMap.find?_set_same ..

/-- With its last beat the request is gone, and leaves its class. -/
theorem State.beatDone_last {s : State} {q : Nat} {r : McrdReq} (hr : NMap.find? s.mcrds q = some r)
    (hstint : (s.thread r.thread).stint = r.stint) (h : r.left ≤ 1) :
    NMap.find? (s.beatDone q).mcrds q = none ∧ ((s.beatDone q).thread r.thread).cnt.cp = (s.thread r.thread).cnt.cp - 1 := by
  have hmine : (({ s with mcrds := NMap.erase s.mcrds q } : State).thread r.thread).stint = r.stint := hstint
  rw [State.beatDone, hr]
  simp only [if_pos h, State.leaveFor, if_pos hmine, State.leaveClass, State.thread_updThread_same]
  exact ⟨NMap.find?_erase_same .., rfl⟩

/-! ## Scratch and the barrier (R171, R175) -/

@[simp] theorem CoreUnit.barrier_setBarrier (u : CoreUnit) (n : BarIx) (x : Barrier) : (u.setBarrier n x).barrier n = x := by
  simp [CoreUnit.barrier, CoreUnit.setBarrier]

theorem CoreUnit.barrier_setBarrier_ne (u : CoreUnit) {n m : BarIx} (x : Barrier) (h : m ≠ n) :
    (u.setBarrier n x).barrier m = u.barrier m := by
  have hn : n.toNat ≠ m.toNat := fun e => h (BitVec.eq_of_toNat_eq e.symm)
  simp [CoreUnit.barrier, CoreUnit.setBarrier, hn]

theorem State.sameMemory_barrierErr (s : State) (c k : Nat) (n : BarIx) (e : BitVec 2) : s.SameMemory (s.barrierErr c k n e) .nowhere 0 :=
  s.sameMemory_updCore

theorem State.sameMemory_credit (s : State) (c k : Nat) (n : BarIx) (bytes : Nat) : s.SameMemory (s.credit c k n bytes) .nowhere 0 :=
  s.sameMemory_updCore

/-- Bytes written to a core's scratch change those bytes, and no other memory. -/
theorem State.sameMemory_writeScratch (s : State) (c k j off : Nat) (bs : List Byte) :
    State.SameMemory { s with cur := ⟨c, k, j⟩ } (s.updCore c k (fun u => u.write off bs)) (.scratch off) bs.length where
  device _ _ := rfl
  sram _ _ _ _ := rfl
  remote _ _ _ := rfl
  scratch d i a h := by
    by_cases hk : coreKey d i = coreKey c k
    · have hout := h off rfl hk
      have hcore : (s.updCore c k (fun u => u.write off bs)).core d i = (s.core c k).write off bs := by
        rw [State.core, hk]
        exact s.core_updCore_same c k _
      have hold : s.core d i = s.core c k := by rw [State.core, State.core, hk]
      show ByteMap.read ((s.updCore c k (fun u => u.write off bs)).core d i).scratch a = ByteMap.read (s.core d i).scratch a
      rw [hcore, hold]
      exact ByteMap.read_writes_outside _ hout
    · show ByteMap.read ((s.updCore c k (fun u => u.write off bs)).core d i).scratch a = ByteMap.read (s.core d i).scratch a
      rw [s.core_updCore_ne c k d i _ hk]

section
variable {s : State} {b : Beat}

theorem State.deliverBeat_outside (h : (s.core b.cluster b.dcore).scratchSize < b.off + 128) :
    s.deliverBeat b = s.barrierErr b.cluster b.dcore b.barn 1 := by
  rw [State.deliverBeat, if_pos h]

theorem State.deliverBeat_poisoned (h : b.off + 128 ≤ (s.core b.cluster b.dcore).scratchSize) (hp : b.poison = true) :
    s.deliverBeat b = s.barrierErr b.cluster b.dcore b.barn 2 := by
  rw [State.deliverBeat, if_neg (Nat.not_lt.2 h), if_pos hp]

theorem State.deliverBeat_writes (h : b.off + 128 ≤ (s.core b.cluster b.dcore).scratchSize) (hp : b.poison = false) :
    s.deliverBeat b = (s.updCore b.cluster b.dcore (fun u => u.write b.off b.bytes)).credit b.cluster b.dcore b.barn
      (128 * b.reqs.length) := by
  rw [State.deliverBeat, if_neg (Nat.not_lt.2 h), if_neg (by simp [hp])]

/-- A delivery changes the destination's core alone. -/
theorem State.deliverBeat_keeps (s : State) (b : Beat) :
    (s.deliverBeat b).beats = s.beats ∧ (s.deliverBeat b).mcrds = s.mcrds ∧ (s.deliverBeat b).threads = s.threads := by
  unfold State.deliverBeat
  split
  · exact ⟨rfl, rfl, rfl⟩
  · split <;> exact ⟨rfl, rfl, rfl⟩

theorem State.barrier_barrierErr (s : State) (c k : Nat) (n : BarIx) (e : BitVec 2) :
    ((s.barrierErr c k n e).core c k).barrier n = { (s.core c k).barrier n with err := e } := by
  rw [State.barrierErr, State.core_updCore_same, CoreUnit.barrier_setBarrier]

theorem State.barrier_credit (s : State) (c k : Nat) (n : BarIx) (bytes : Nat) : ((s.credit c k n bytes).core c k).barrier n =
    { (s.core c k).barrier n with credit := ((s.core c k).barrier n).credit + BitVec.ofNat 32 bytes } := by
  rw [State.credit, State.core_updCore_same, CoreUnit.barrier_setBarrier]

theorem State.scratch_credit (s : State) (c k : Nat) (n : BarIx) (bytes : Nat) :
    ((s.credit c k n bytes).core c k).scratch = (s.core c k).scratch := by
  rw [State.credit, State.core_updCore_same]
  rfl

/-- A beat of one request that fits and is not poisoned. -/
theorem State.deliverBeat_writes_result {q : Nat} (h : b.off + 128 ≤ (s.core b.cluster b.dcore).scratchSize) (hp : b.poison = false)
    (hlen : b.bytes.length = 128) (hreqs : b.reqs = [q]) :
    let old := (s.core b.cluster b.dcore).barrier b.barn
    ((s.deliverBeat b).core b.cluster b.dcore).barrier b.barn = { old with credit := old.credit + 128 } ∧
      ByteMap.reads ((s.deliverBeat b).core b.cluster b.dcore).scratch b.off 128 = b.bytes ∧
      State.SameMemory { s with cur := ⟨b.cluster, b.dcore, 0⟩ } (s.deliverBeat b) (.scratch b.off) 128 := by
  have hmem := s.sameMemory_writeScratch b.cluster b.dcore 0 b.off b.bytes
  rw [hlen] at hmem
  rw [State.deliverBeat_writes h hp, hreqs]
  refine ⟨?_, ?_, hmem.before (State.sameMemory_credit ..)⟩
  · rw [State.barrier_credit, State.core_updCore_same]
    rfl
  · rw [State.scratch_credit, State.core_updCore_same, ← hlen]
    exact ByteMap.reads_writes_same ..

end

end Sys2Proof.Machine
end

section
open Sys2Proof Sys2Proof.Machine

/-- Settles O38, from the word to the beat: each step is an equation for the state that it leaves. -/
theorem multicastResult : Obligations.MulticastResult := by
  unfold Obligations.MulticastResult
  refine ⟨?none, ?word, ?arrival, ?line, ?beat⟩
  case none => exact fun a b barn lines s hu hr hmask => exec_mcrd_none hu hr barn hmask
  case word =>
    intro a b barn lines s r x pa hu hr hrun hx hmask va w n
    have hmine : s.myRun? = some x := by rw [State.myRun?, hrun]; exact hx
    refine ⟨fun hva => exec_mcrd_misaligned_range hu hr barn hmask hva,
      fun hva hoff => exec_mcrd_misaligned_place hu hr barn hmask hva hoff,
      fun hva hoff hbad => exec_mcrd_refused hu hr barn hmask hva hoff hmine (mcRefused_iff.2 hbad),
      fun hva hoff hres hend hplaces hscratch hroom hpages => ?_⟩
    have hsends := exec_mcrd_sends hu hr barn hmask hva hoff hmine (mcRefused_false hres hend hplaces) hscratch hroom hpages
    have hresult := s.sendMcrd_result (s.mcrdFor x va w barn n pa)
    rw [State.mcrdFor, hrun, Option.getD_some] at hsends hresult
    exact ⟨_, hsends, hresult⟩
  case arrival =>
    intro q r home s hr hnew hne hhome hnone
    exact ⟨_, exec_mcrdRequestArrive_begins hr hnew hne hhome hnone, NMap.find?_set_same .., NMap.find?_set_same ..,
      List.mem_append_right _ (List.mem_singleton.2 rfl), State.MemoryKept.sameMemory ⟨rfl, rfl, rfl, rfl, rfl⟩⟩
  case line =>
    intro k m l rest bs s hm htodo hread hway
    obtain ⟨u, hsnap, hslice, hmem⟩ := State.lineSnapshot_ok hread hway
    have hbeats : u.beats = s.beats := by obtain ⟨_, _, _, rfl⟩ := hslice; rfl
    refine ⟨_, l.dests.flatMap (lineBeats k m l (some bs)), exec_mcrdLineSend_sends hm htodo hsnap,
      hbeats ▸ u.sendLine_beats k m l rest bs, fun b hb => ?_, fun q hq => ?_, u.streams_sendLine k m l rest bs,
      u.mem_pending_sendLine_next k m l rest bs, hmem.trans (u.memoryKept_sendLine k m l rest bs).sameMemory⟩
    · obtain ⟨d, hd, hb⟩ := List.mem_flatMap.1 hb
      obtain ⟨hhome, hstream, rfl, hcore, hbarn, hpoison, hreqs, hbytes⟩ := mem_lineBeats hb
      exact ⟨hhome, hstream, hcore, hbarn, hpoison, StreamLine.mem_dests.1 hd, hreqs, hbytes⟩
    · have hd : q.2 ∈ l.dests := StreamLine.mem_dests.2 ⟨q, hq, rfl⟩
      have hfilter := filter_flatMap_lineBeats k m l (some bs) (nodup_eraseDups _) hd
      exact ⟨by rw [StreamLine.dests, hfilter]; rfl,
        u.mem_pending_sendLine_beat k m l rest bs (List.mem_flatMap.2 ⟨q.2, hd, List.mem_cons_self ..⟩)⟩
  case beat =>
    intro b rest q r s hbeats hreqs hone hr hstint hlen
    let s' : State := { s with beats := rest }
    obtain ⟨hrest, hmcrds, hthreads⟩ := s'.deliverBeat_keeps b
    obtain ⟨hdone, hkept⟩ := (s'.deliverBeat b).beatDone_keeps q
    have hr' : NMap.find? (s'.deliverBeat b).mcrds q = some r := hmcrds ▸ hr
    have hthread : (s'.deliverBeat b).thread r.thread = s.thread r.thread := State.thread_congr hthreads _
    have hcore : ((s'.deliverBeat b).beatDone q).core b.cluster b.dcore = (s'.deliverBeat b).core b.cluster b.dcore := by
      rw [State.core, hkept.cores, State.core]
    refine ⟨_, exec_mcrdBeatDeliver_one hbeats hreqs hone, hdone.trans hrest, fun h => State.beatDone_more hr' h, fun h => ?_, ?_⟩
    · obtain ⟨hgone, hcnt⟩ := State.beatDone_last hr' (hthread ▸ hstint) h
      exact ⟨hgone, hthread ▸ hcnt⟩
    · intro old new size
      have hdrop : s.SameMemory s' .nowhere 0 := State.MemoryKept.sameMemory ⟨rfl, rfl, rfl, rfl, rfl⟩
      have hnew : new = ((s'.deliverBeat b).core b.cluster b.dcore).barrier b.barn := congrArg (CoreUnit.barrier · b.barn) hcore
      refine ⟨fun h => ?_, fun h hp => ?_, fun h hp => ?_⟩
      · have hd := State.deliverBeat_outside (s := s') h
        rw [hnew, hd]
        exact ⟨s'.barrier_barrierErr .., hdrop.trans ((s'.sameMemory_barrierErr ..).trans (hd ▸ hkept.sameMemory))⟩
      · have hd := State.deliverBeat_poisoned (s := s') h hp
        rw [hnew, hd]
        exact ⟨s'.barrier_barrierErr .., hdrop.trans ((s'.sameMemory_barrierErr ..).trans (hd ▸ hkept.sameMemory))⟩
      · obtain ⟨hbarrier, hbytes, hmem⟩ := State.deliverBeat_writes_result (s := s') h hp hlen hreqs
        have hdrop' : State.SameMemory { s with cur := ⟨b.cluster, b.dcore, 0⟩ } { s' with cur := ⟨b.cluster, b.dcore, 0⟩ } .nowhere 0 :=
          State.MemoryKept.sameMemory ⟨rfl, rfl, rfl, rfl, rfl⟩
        exact ⟨hnew.trans hbarrier, hcore ▸ hbytes, hdrop'.after rfl (hmem.before hkept.sameMemory)⟩

end

section
/-! Several thread sets at once, each with an edge of the order (R344): what each of them becomes, and that no other changes. -/
namespace Sys2Proof.Machine

/-- A thread set whose logical time is at least a time (R346). -/
def Thread.reach (t : Thread) (n : Nat) : Thread := { t with ltime := max t.ltime n }

@[simp] theorem Thread.le_ltime_reach (t : Thread) (n : Nat) : n ≤ (t.reach n).ltime := Nat.le_max_right ..

theorem Thread.sameRegs_next_reach (t : Thread) (n : Nat) : t.SameRegs (t.reach n).next :=
  have h := (t.reach n).sameRegs_next
  ⟨h.x, h.v, h.p, h.h, h.special, h.fpflags⟩

theorem State.edge_eq (s : State) (t : TsId) : s.edge t = s.updThread t (·.reach s.wmax) := rfl

/-- Thread sets updated one after the other. -/
def State.updThreads (s : State) (l : List TsId) (f : Thread → Thread) : State := l.foldl (fun s t => s.updThread t f) s

/-- Thread sets updated with an edge for each: the edges add no event. -/
theorem State.foldl_reach (f : Thread → Thread) (l : List TsId) (s : State) :
    l.foldl (fun s t => s.updThread t (fun th => (f th).reach s.wmax)) s = s.updThreads l (fun th => (f th).reach s.wmax) := by
  induction l generalizing s with
  | nil => rfl
  | cons t l ih => exact ih (s.updThread t (fun th => (f th).reach s.wmax))

/-- An update of thread sets changes nothing but thread sets. -/
theorem State.updThreads_only_threads (s : State) (l : List TsId) (f : Thread → Thread) :
    s.updThreads l f = { s with threads := (s.updThreads l f).threads } :=
  List.foldlRecOn (motive := fun v : State => v = { s with threads := v.threads }) _ _ rfl fun v hv t _ => by rw [hv]; rfl

section
variable (s : State) (l : List TsId) (f : Thread → Thread)

@[simp] theorem State.updThreads_cur : (s.updThreads l f).cur = s.cur := by rw [State.updThreads_only_threads]
@[simp] theorem State.updThreads_wmax : (s.updThreads l f).wmax = s.wmax := by rw [State.updThreads_only_threads]
@[simp] theorem State.updThreads_cores : (s.updThreads l f).cores = s.cores := by rw [State.updThreads_only_threads]

theorem State.memoryKept_updThreads : s.MemoryKept (s.updThreads l f) := by
  rw [State.updThreads_only_threads]
  exact ⟨rfl, rfl, rfl, rfl, rfl⟩

end

section
variable {s : State} {l : List TsId} {f : Thread → Thread} {u : TsId}

theorem State.thread_updThreads_other (h : ∀ t ∈ l, TsId.key u ≠ TsId.key t) : (s.updThreads l f).thread u = s.thread u :=
  State.thread_foldl_updThread_other h

/-- Each of them is updated once, where their keys are distinct. -/
theorem State.thread_updThreads_mem (hn : (l.map TsId.key).Nodup) (h : u ∈ l) : (s.updThreads l f).thread u = f (s.thread u) := by
  induction l generalizing s with
  | nil => cases h
  | cons t l ih =>
    obtain ⟨hnew, hn⟩ := List.nodup_cons.1 hn
    rcases List.mem_cons.1 h with rfl | h
    · have hrest : ∀ t ∈ l, TsId.key u ≠ TsId.key t := fun t ht hk => hnew (hk ▸ List.mem_map_of_mem ht)
      exact (State.thread_updThreads_other hrest).trans (s.thread_updThread_same ..)
    · have hne : TsId.key u ≠ TsId.key t := fun hk => hnew (hk ▸ List.mem_map_of_mem h)
      exact (ih hn h).trans (by rw [State.thread_updThread_ne _ _ _ _ hne])

end

/-! ## The thread sets of a core (R175) -/

/-- The thread sets of a core, by number. -/
def coreSets (c k : Nat) : List TsId := (upTo 5).map (fun i => ⟨c, k, i⟩)

theorem State.edgeCore_eq (s : State) (c k : Nat) : s.edgeCore c k = s.updThreads (coreSets c k) (·.reach s.wmax) := by
  have h := State.foldl_reach id (coreSets c k) s
  rw [coreSets, List.foldl_map] at h
  exact h

/-- A completed word leaves the logical times of its core's thread sets. -/
theorem State.ltime_advance (s : State) (i : Nat) :
    (s.advance.thread ⟨s.cur.cluster, s.cur.core, i⟩).ltime = (s.thread ⟨s.cur.cluster, s.cur.core, i⟩).ltime := by
  by_cases h : i = s.cur.set
  · subst h
    exact (congrArg Thread.ltime s.me_advance).trans s.me.next_ltime
  · rw [State.advance, State.thread_updMe_ne]
    simp only [TsId.key]
    omega

/-- A thread set of the core gets an edge if it is one of the five. -/
theorem State.thread_edgeCore (s : State) (c k j : Nat) : (s.edgeCore c k).thread ⟨c, k, j⟩ =
    if j < 5 then (s.thread ⟨c, k, j⟩).reach s.wmax else s.thread ⟨c, k, j⟩ := by
  rw [State.edgeCore_eq]
  split
  · next h =>
    have hn : ((coreSets c k).map TsId.key).Nodup := by
      rw [coreSets, List.map_map]
      refine List.Nodup.map (fun i i' h => ?_) List.nodup_range
      simpa [TsId.key] using h
    exact State.thread_updThreads_mem hn (List.mem_map_of_mem (List.mem_range.2 h))
  · next h =>
    refine State.thread_updThreads_other fun t ht => ?_
    obtain ⟨i, hi, rfl⟩ := List.mem_map.1 ht
    have := List.mem_range.1 hi
    simp only [TsId.key]
    omega

end Sys2Proof.Machine
end

section
/-! Byte barriers (R175, R228): one equation per word and outcome. -/
namespace Sys2Proof.Machine

theorem exec_bexp (n : BarIx) (a : XReg) (s : State) : exec (.bexp n a) s = execBexp n a s := rfl
theorem exec_bwait (n : BarIx) (s : State) : exec (.bwait n) s = execBwait n s := rfl
theorem exec_bpoll (d : XReg) (n : BarIx) (s : State) : exec (.bpoll d n) s = execBpoll d n s := rfl

theorem bits_high_half (w : Word) : Word.bits w 63 32 = w.toNat / 2 ^ 32 := by
  have := w.isLt
  simp only [Word.bits, Nat.shiftRight_eq_div_pow]
  omega

/-- A bounded wait begins with the word that first finds its condition false (R371). -/
theorem boundedWait_begins {α : Type} {s : State} (h : s.me.wait = none) (what : WaitFor) (tval : Word) :
    (boundedWait what tval : M α) s = .error (.hold (fun s => s.updMe (fun t => { t with wait := some ⟨s.fclk, what, tval⟩ }))) := by
  simp only [boundedWait, h, Option.any_none, Bool.false_eq_true, if_false]

theorem Barrier.no_error {b : Barrier} (h : b.err = 0) : (b.err == 2) = false ∧ (b.err != 0) = false := by
  rw [h]
  decide

section
variable {s : State} (hu : s.isUser = true) (n : BarIx)
include hu

theorem exec_bexp_arms {a : XReg} (hr : s.readable [a]) (hw : (s.me.getX a).toNat < 2 ^ 32) :
    exec (.bexp n a) s = .next (s.updMyCore (fun c => c.setBarrier n
      { credit := (c.barrier n).credit, expect := (s.me.getX a).setWidth 32, armed := true, err := 0 })).advance := by
  have hhigh : (Word.bits (s.me.getX a) 63 32 != 0) = false := by rw [bits_high_half, Nat.div_eq_of_lt hw]; rfl
  rw [exec_bexp]
  refine word_ok ?_
  simp only [M.bind_run, readS_run, id_eq, hu, privUnless_true, xM_ok (State.readable_head hr), hhigh, trapIf_false, updS_run]

theorem exec_bexp_access {a : XReg} (hr : s.readable [a]) (hw : 2 ^ 32 ≤ (s.me.getX a).toNat) :
    exec (.bexp n a) s = s.takeTrap causeAccess (s.me.getX a) := by
  have hhigh : (Word.bits (s.me.getX a) 63 32 != 0) = true := by
    have := Nat.div_pos hw (Nat.two_pow_pos 32)
    rw [bits_high_half, bne_iff_ne]
    omega
  rw [exec_bexp]
  refine word_trap ?_
  simp only [M.bind_run, readS_run, id_eq, hu, privUnless_true, xM_ok (State.readable_head hr), hhigh, trapIf_true]

/-- The state after a barrier of the issuing core has been passed: EXPECT is subtracted, the barrier disarmed, and every thread
set of the core follows the credited writes (R175). -/
def State.passBarrier (s : State) (n : BarIx) : State :=
  let b := s.myCore.barrier n
  (s.updMyCore (fun c => c.setBarrier n { b with credit := b.credit - b.expect, armed := false })).edgeCore s.cur.cluster s.cur.core

theorem exec_bwait_passes (herr : (s.myCore.barrier n).err = 0) (harmed : (s.myCore.barrier n).armed = true)
    (hcredit : (s.myCore.barrier n).expect ≤ (s.myCore.barrier n).credit) :
    exec (.bwait n) s = .next (s.passBarrier n).advance := by
  obtain ⟨h2, h0⟩ := Barrier.no_error herr
  rw [exec_bwait]
  refine word_ok ?_
  simp only [M.bind_run, readS_run, id_eq, hu, privUnless_true, h2, h0, trapIf_false, harmed, decide_eq_true hcredit, Bool.and_self, if_true, updS_run]
  rfl

theorem exec_bwait_waits (herr : (s.myCore.barrier n).err = 0)
    (hwait : (s.myCore.barrier n).armed = false ∨ (s.myCore.barrier n).credit < (s.myCore.barrier n).expect) (hnew : s.me.wait = none) :
    exec (.bwait n) s = .next (s.updMe (fun t => { t with wait := some ⟨s.fclk, .barrier n, BitVec.ofNat 64 n.toNat⟩ })) := by
  have hnot : ((s.myCore.barrier n).armed && decide ((s.myCore.barrier n).expect ≤ (s.myCore.barrier n).credit)) = false := by
    rcases hwait with h | h
    · rw [h, Bool.false_and]
    · rw [decide_eq_false (BitVec.not_le.2 h), Bool.and_false]
  obtain ⟨h2, h0⟩ := Barrier.no_error herr
  rw [exec_bwait]
  refine word_hold (f := fun s => s.updMe (fun t => { t with wait := some ⟨s.fclk, .barrier n, BitVec.ofNat 64 n.toNat⟩ })) ?_
  simp only [M.bind_run, readS_run, id_eq, hu, privUnless_true, h2, h0, trapIf_false, hnot, Bool.false_eq_true, if_false]
  exact boundedWait_begins hnew ..

theorem exec_bwait_poison (herr : (s.myCore.barrier n).err = 2) :
    exec (.bwait n) s = s.takeTrap causePoison (BitVec.ofNat 64 n.toNat) := by
  rw [exec_bwait]
  refine word_trap ?_
  simp only [M.bind_run, readS_run, id_eq, hu, privUnless_true, herr, BEq.rfl, trapIf_true]

theorem exec_bwait_access (herr : (s.myCore.barrier n).err = 1 ∨ (s.myCore.barrier n).err = 3) :
    exec (.bwait n) s = s.takeTrap causeAccess (BitVec.ofNat 64 n.toNat) := by
  have h2 : ((s.myCore.barrier n).err == 2) = false := by rcases herr with h | h <;> rw [h] <;> decide
  have h0 : ((s.myCore.barrier n).err != 0) = true := by rcases herr with h | h <;> rw [h] <;> decide
  rw [exec_bwait]
  refine word_trap ?_
  simp only [M.bind_run, readS_run, id_eq, hu, privUnless_true, h2, h0, trapIf_false, trapIf_true]

theorem exec_bpoll_reads (d : XReg) : exec (.bpoll d n) s = .next (s.wroteX d (BitVec.ofNat 64
    ((s.myCore.barrier n).credit.toNat + 2 ^ 32 * (s.myCore.barrier n).armed.toNat + 2 ^ 33 * (s.myCore.barrier n).err.toNat))) := by
  have hcredit := (s.myCore.barrier n).credit.isLt
  have harmed := (s.myCore.barrier n).armed.toNat_lt
  rw [← ofNat_or_field (by omega), ← ofNat_or_field hcredit, ← field_zero, exec_bpoll]
  refine word_ok ?_
  simp only [M.bind_run, readS_run, id_eq, hu, privUnless_true, setXM_run]

end

/-- What passing a barrier puts, and what it leaves. -/
theorem State.passBarrier_result (s : State) (n : BarIx) :
    let t := (s.passBarrier n).advance
    let b := s.myCore.barrier n
    t.myCore.barrier n = { b with credit := b.credit - b.expect, armed := false } ∧
      (∀ m, m ≠ n → t.myCore.barrier m = s.myCore.barrier m) ∧
      (∀ i, i < 5 → s.wmax ≤ (t.thread ⟨s.cur.cluster, s.cur.core, i⟩).ltime) ∧ s.SameMemory t .nowhere 0 ∧ s.me.SameRegs t.me := by
  intro t b
  let u := s.updMyCore (fun c => c.setBarrier n { b with credit := b.credit - b.expect, armed := false })
  have hpass : s.passBarrier n = u.updThreads (coreSets s.cur.cluster s.cur.core) (·.reach s.wmax) := State.edgeCore_eq ..
  have hcur : (s.passBarrier n).cur = s.cur := by rw [hpass, State.updThreads_cur]; rfl
  have hcore : t.myCore = s.myCore.setBarrier n { b with credit := b.credit - b.expect, armed := false } := by
    have hcores : (s.passBarrier n).cores = u.cores := by rw [hpass, State.updThreads_cores]
    show (s.passBarrier n).core (s.passBarrier n).cur.cluster (s.passBarrier n).cur.core = _
    rw [hcur, State.core, hcores]
    exact s.core_updCore_same ..
  have hthread (j : Nat) : (s.passBarrier n).thread ⟨s.cur.cluster, s.cur.core, j⟩ =
      if j < 5 then (s.thread ⟨s.cur.cluster, s.cur.core, j⟩).reach s.wmax else s.thread ⟨s.cur.cluster, s.cur.core, j⟩ :=
    u.thread_edgeCore ..
  have hme : (s.passBarrier n).me = if s.cur.set < 5 then s.me.reach s.wmax else s.me := by
    rw [State.me, hcur]
    exact hthread s.cur.set
  refine ⟨?_, fun m hm => ?_, fun i hi => ?_, ?_, ?_⟩
  · rw [hcore, CoreUnit.barrier_setBarrier]
  · rw [hcore, CoreUnit.barrier_setBarrier_ne _ _ hm]
  · have hadv := (s.passBarrier n).ltime_advance i
    rw [hcur, hthread, if_pos hi] at hadv
    exact hadv ▸ Thread.le_ltime_reach ..
  · have hmem : s.SameMemory u .nowhere 0 := s.sameMemory_updMyCore
    exact hmem.trans (hpass ▸ (u.memoryKept_updThreads ..).trans (State.memoryKept_advance _)).sameMemory
  · rw [State.me_advance, hme]
    split
    · exact s.me.sameRegs_next_reach s.wmax
    · exact s.me.sameRegs_next

end Sys2Proof.Machine
end

section
/-! The gang barrier (R176), and the timeout of a bounded wait (R371). -/
namespace Sys2Proof.Machine

theorem exec_bar (s : State) : exec .bar s = execBar s := rfl
theorem exec_waitTimeout (t : TsId) (s : State) : exec (.waitTimeout t) s = execWaitTimeout t s := rfl

/-! ## bar -/

/-- A word that waits leaves what its body says. -/
theorem outcome_hold {body : M Unit} {s : State} {f : State → State} (h : body s = .error (.hold f)) :
    M.outcome body s = .next (f s) := by
  simp [M.outcome, h]

/-- The other ranks of a run that wait at the barrier. -/
def State.barWaiters (s : State) (x : Run) : List TsId := (x.ranked.filter (· != s.cur)).filter s.atBar

/-- Those who wait at the barrier pass it at once. -/
theorem State.barRelease_eq (s : State) (l : List TsId) :
    s.barRelease l = s.updThreads (l.filter s.atBar) (fun th => th.next.reach s.wmax) := by
  rw [← State.foldl_reach]
  simp only [State.barRelease, State.edge_eq, State.updThread_updThread, State.updThread_wmax]

/-- The state after the issuing rank has opened the barrier: all who wait at it move on, each with an edge, and so does it. -/
def State.openBar (s : State) (x : Run) : State :=
  (s.updThreads (s.barWaiters x) (fun th => th.next.reach s.wmax)).updMe (fun th => th.next.reach s.wmax)

theorem State.openBar_eq (s : State) (x : Run) :
    ((s.barRelease (x.ranked.filter (· != s.cur))).advance).edge s.cur = s.openBar x := by
  rw [State.barRelease_eq, State.edge_eq, State.advance, State.updMe, State.updThreads_cur, State.updThread_updThread,
    State.updThread_wmax, State.updThreads_wmax, State.openBar, State.updMe, State.updThreads_cur]
  rfl

section
variable {s : State} (hg : s.isGang = true) {x : Run} (hx : s.myRun? = some x)
include hg hx

theorem exec_bar_opens (hall : ∀ u ∈ x.ranked, u = s.cur ∨ s.barReady u = true) : exec .bar s = .next (s.openBar x) := by
  have hready : x.ranked.all (fun t => t == s.cur || s.barReady t) = true := by
    simpa only [List.all_eq_true, Bool.or_eq_true, beq_iff_eq] using hall
  rw [exec_bar]
  refine outcome_ok ?_
  simp only [M.bind_run, readS_run, id_eq, hg, privUnless_true, hx, hready, if_true, updS_run, State.openBar_eq]

theorem exec_bar_waits (hsome : ∃ u ∈ x.ranked, u ≠ s.cur ∧ s.barReady u = false) (hnew : s.me.wait = none) :
    exec .bar s = .next (s.updMe (fun t => { t with wait := some ⟨s.fclk, .bar, 0⟩ })) := by
  have hready : x.ranked.all (fun t => t == s.cur || s.barReady t) = false := by
    simpa only [List.all_eq_false, Bool.or_eq_true, beq_iff_eq, not_or, Bool.not_eq_true] using hsome
  rw [exec_bar]
  refine outcome_hold (f := fun s => s.updMe (fun t => { t with wait := some ⟨s.fclk, .bar, 0⟩ })) ?_
  simp only [M.bind_run, readS_run, id_eq, hg, privUnless_true, hx, hready, Bool.false_eq_true, if_false]
  exact boundedWait_begins hnew ..

end

section
variable {s : State} {x : Run} (hn : (x.ranked.map TsId.key).Nodup)
include hn

theorem State.nodup_barWaiters : ((s.barWaiters x).map TsId.key).Nodup :=
  hn.sublist ((List.filter_sublist.trans List.filter_sublist).map TsId.key)

/-- A rank that waits at the barrier moves on with an edge. -/
theorem State.thread_openBar_waiter {u : TsId} (hu : u ∈ x.ranked) (hne : TsId.key u ≠ TsId.key s.cur) (hbar : s.atBar u = true) :
    (s.openBar x).thread u = (s.thread u).next.reach s.wmax := by
  have hmem : u ∈ s.barWaiters x :=
    List.mem_filter.2 ⟨List.mem_filter.2 ⟨hu, bne_iff_ne.2 fun h => hne (h ▸ rfl)⟩, hbar⟩
  rw [State.openBar, State.thread_updMe_ne _ _ _ (by rwa [State.updThreads_cur]),
    State.thread_updThreads_mem (State.nodup_barWaiters hn) hmem]

/-- The issuing rank moves on with an edge. -/
theorem State.me_openBar (hmine : s.cur ∈ x.ranked) : (s.openBar x).me = s.me.next.reach s.wmax := by
  have hother : ∀ t ∈ s.barWaiters x, TsId.key s.cur ≠ TsId.key t := fun t ht hk => by
    obtain ⟨ht, hne⟩ := List.mem_filter.1 (List.mem_filter.1 ht).1
    exact bne_iff_ne.1 hne (List.inj_on_of_nodup_map hn ht hmine hk.symm)
  rw [State.openBar, State.me_updMe, State.me, State.updThreads_cur, State.thread_updThreads_other hother]
  rfl

end

theorem State.memoryKept_openBar (s : State) (x : Run) : s.MemoryKept (s.openBar x) := by
  rw [State.openBar, State.updMe]
  exact (s.memoryKept_updThreads ..).trans (State.memoryKept_updThread ..)

/-! ## Timeouts (R371) -/

/-- A withdrawn wait changes the chain of its thread set at most. -/
theorem State.withdraw_keeps (s : State) (what : WaitFor) :
    (s.withdraw s.cur what).cur = s.cur ∧ (s.withdraw s.cur what).runs = s.runs ∧
      ∃ c, (s.withdraw s.cur what).me = s.me.withChain c := by
  unfold State.withdraw
  split
  · exact ⟨rfl, rfl, _, s.me_updMe _⟩
  · exact ⟨rfl, rfl, s.me.chain, rfl⟩

theorem State.Vectored.withdraw {s : State} {x : Run} (h : s.Vectored x) (what : WaitFor) : (s.withdraw s.cur what).Vectored x := by
  obtain ⟨hcur, hruns, c, hme⟩ := s.withdraw_keeps what
  exact ⟨by rw [hcur]; exact h.onCluster, by rw [State.myRun?, hme, funext (State.run?_congr hruns)]; exact h.inRun,
    by rw [hme]; exact h.untrapped, h.vector⟩

theorem exec_waitTimeout_traps {s : State} {t : TsId} {w : WaitState} {x : Run} (hw : (s.thread t).wait = some w)
    (hready : (s.thread t).status = .ready) (hover : s.waitOver t w.what = false) (hlim : (s.thread t).waitlim.toNat % 2 ^ 48 ≠ 0)
    (hdue : w.since + (s.thread t).waitlim.toNat % 2 ^ 48 ≤ s.fclk) (hv : State.Vectored { s with cur := t } x) :
    exec (.waitTimeout t) s = .next ((State.withdraw { s with cur := t } t w.what).updMe
      (·.enterVector causeWaitTimeout w.tval (BitVec.ofNat 64 (Rec.trapvec x.rec_)) (x.vf == 0))) := by
  have hwaited : s.waitDue t = true := by
    simp only [State.waitDue, hw, Bool.and_eq_true, bne_iff_ne, decide_eq_true_eq]
    exact ⟨hlim, hdue⟩
  rw [exec_waitTimeout, execWaitTimeout, hw]
  simp only [hwaited, hover, hready, Bool.not_false, Bool.and_self, BEq.rfl, if_true]
  exact State.takeTrap_vectored (hv.withdraw w.what) (by decide) w.tval

end Sys2Proof.Machine

open Sys2Proof Sys2Proof.Machine

/-- Settles O23: each word's outcomes, then the timeout. -/
theorem barrierResult : Obligations.BarrierResult := by
  unfold Obligations.BarrierResult
  refine ⟨⟨?arm, ?refuse, ?wait, ?poll⟩, ?bar, ?timeout⟩
  case arm => exact fun n a s hu hr hw => exec_bexp_arms hu n hr hw
  case refuse => exact fun n a s hu hr hw => exec_bexp_access hu n hr hw
  case wait =>
    exact fun n s hu => ⟨fun herr harmed hcredit => ⟨_, exec_bwait_passes hu n herr harmed hcredit, s.passBarrier_result n⟩,
      exec_bwait_waits hu n, exec_bwait_poison hu n, exec_bwait_access hu n⟩
  case poll => exact fun d n s hu => exec_bpoll_reads hu n d
  case bar =>
    intro s x hg hx hn hmine
    refine ⟨fun hall => ⟨_, exec_bar_opens hg hx hall, ?_⟩, exec_bar_waits hg hx⟩
    have hme := State.me_openBar hn hmine
    refine ⟨fun hrep => ?_, hme ▸ Thread.le_ltime_reach .., fun u hu hne hbar hrep => ?_, (s.memoryKept_openBar x).sameMemory⟩
    · rw [hme]
      exact s.me.next_pc hrep
    · rw [State.thread_openBar_waiter hn hu hne hbar]
      exact ⟨(s.thread u).next_pc hrep, (s.thread u).next_wait, Thread.le_ltime_reach ..⟩
  case timeout =>
    intro t s w x hw hready hover hlim hdue hv
    refine ⟨_, exec_waitTimeout_traps hw hready hover hlim hdue hv, ?_⟩
    obtain ⟨hcur, -, c, hme⟩ := State.withdraw_keeps { s with cur := t } w.what
    have hthread := (State.withdraw { s with cur := t } t w.what).me_updMe
      (·.enterVector causeWaitTimeout w.tval (BitVec.ofNat 64 (Rec.trapvec x.rec_)) (x.vf == 0))
    rw [State.me, State.updMe_cur, hcur, hme] at hthread
    rw [hthread]
    exact ⟨rfl, rfl, rfl, rfl, rfl⟩

end

section
/-! A line written back where no format window is enabled (R185, R186): the bytes that its dirty sectors hold reach device
memory, and every other byte stands as before. -/
namespace Sys2Proof.Machine

/-- The bytes chosen among the first n, written at consecutive addresses. -/
theorem ByteMap.read_spill (keep : Nat → Bool) (v : Nat → Byte) (m : ByteMap) (base n a : Nat) :
    ByteMap.read ((List.range n).foldl (fun m i => if keep i then ByteMap.write m (base + i) (v i) else m) m) a =
      if base ≤ a ∧ a < base + n ∧ keep (a - base) = true then v (a - base) else ByteMap.read m a := by
  induction n with
  | zero =>
    rw [if_neg (by omega)]
    rfl
  | succ n ih =>
    rw [List.range_succ, List.foldl_append, List.foldl_cons, List.foldl_nil]
    by_cases ha : a = base + n
    · subst ha
      cases hk : keep n with
      | true => simp [ByteMap.read_write, hk]
      | false => simp [ih, hk]
    · have hlt : a < base + (n + 1) ↔ a < base + n := by omega
      simp only [hlt, ← ih]
      split
      · rw [ByteMap.read_write, if_neg ha]
      · rfl

/-- A dirty sector's bytes reach memory. -/
theorem State.read_putSector (s : State) (pa : Nat) (c : Sector) (a : Nat) :
    ByteMap.read (s.putSector pa c).mem a =
      if c.dirty = true ∧ pa ≤ a ∧ a < pa + 64 ∧ c.have_.getLsbD (a - pa) = true then ByteMap.read c.bytes (a - pa)
      else ByteMap.read s.mem a := by
  unfold State.putSector
  cases c.dirty with
  | false => simp
  | true => simp [upTo, ByteMap.read_spill]

/-- So do those of the first n sectors of a line. -/
theorem State.read_putSectors (s : State) (l : SliceLine) (base n a : Nat) :
    ByteMap.read ((List.range n).foldl (fun s k => s.putSector (base + 64 * k) (l.sector k)) s).mem a =
      if base ≤ a ∧ a < base + 64 * n ∧ (l.sector ((a - base) / 64)).dirty = true ∧
          (l.sector ((a - base) / 64)).have_.getLsbD ((a - base) % 64) = true
      then ByteMap.read (l.sector ((a - base) / 64)).bytes ((a - base) % 64) else ByteMap.read s.mem a := by
  induction n with
  | zero =>
    rw [if_neg (by omega)]
    rfl
  | succ n ih =>
    rw [List.range_succ, List.foldl_append, List.foldl_cons, List.foldl_nil, State.read_putSector, ih]
    by_cases ha : base + 64 * n ≤ a ∧ a < base + 64 * n + 64
    · have hk : (a - base) / 64 = n := by omega
      have hi : (a - base) % 64 = a - (base + 64 * n) := by omega
      have hlow : base ≤ a := by omega
      have hhigh : a < base + 64 * (n + 1) := by omega
      have hnot : ¬ a < base + 64 * n := by omega
      simp only [hk, hi, ha, hlow, hhigh, hnot, true_and, false_and, and_false, if_false]
    · have hlt : base ≤ a ∧ a < base + 64 * (n + 1) ↔ base ≤ a ∧ a < base + 64 * n := by omega
      rw [if_neg (fun h => ha ⟨h.2.1, h.2.2.1⟩)]
      simp only [← and_assoc, hlt]

section
variable {s : State} (hw : ∀ k, s.hub.windows k = [])
include hw

theorem Hub.viewOf_none (a : Nat) : s.hub.viewOf a = none := by simp [Hub.viewOf, hw]

/-- A byte that no view holds is the one in DRAM. -/
theorem State.dramByte_plain (a : Nat) : s.dramByte a = ByteMap.read s.mem a := by
  simp only [State.dramByte, Hub.viewOf_none hw, State.decodeByte]

theorem State.putLine_plain (line : Nat) (l : SliceLine) :
    s.putLine line l = (List.range 4).foldl (fun s k => s.putSector (256 * line + 64 * k) (l.sector k)) s := by
  simp only [State.putLine, Hub.viewOf_none hw, upTo]

end

theorem State.hub_foldl_putSector (s : State) (at_ : Nat → Nat) (c : Nat → Sector) (l : List Nat) :
    (l.foldl (fun s k => s.putSector (at_ k) (c k)) s).hub = s.hub :=
  List.foldlRecOn (motive := fun (t : State) => t.hub = s.hub) _ _ rfl fun t h k _ => by
    unfold State.putSector
    split <;> exact h

/-- What memory holds once a line has been written to it. -/
theorem State.read_putLine {s : State} (hw : ∀ k, s.hub.windows k = []) (line : Nat) (l : SliceLine) (a : Nat) :
    ByteMap.read (s.putLine line l).mem a =
      if a / 256 = line ∧ (l.sector (a / 64 % 4)).dirty = true ∧ (l.sector (a / 64 % 4)).have_.getLsbD (a % 64) = true
      then ByteMap.read (l.sector (a / 64 % 4)).bytes (a % 64) else ByteMap.read s.mem a := by
  rw [State.putLine_plain hw, State.read_putSectors]
  by_cases ha : a / 256 = line
  · have hk : (a - 256 * line) / 64 = a / 64 % 4 := by omega
    have hi : (a - 256 * line) % 64 = a % 64 := by omega
    have hlow : 256 * line ≤ a := by omega
    have hhigh : a < 256 * line + 64 * 4 := by omega
    simp only [hk, hi, hlow, hhigh, ha, true_and]
  · rw [if_neg (fun h => ha (by omega)), if_neg (fun h => ha h.1)]

/-- A line written back has left its slice, and stands in memory as it was written there. -/
theorem State.writeBack_of_find {s : State} {line : Nat} {l : SliceLine} (hl : NMap.find? s.lines line = some l) :
    (s.writeBack line).mem = (s.putLine line l).mem ∧ (s.writeBack line).lines = NMap.erase s.lines line ∧
      (s.writeBack line).hub = (s.putLine line l).hub := by
  simp only [State.writeBack, hl, State.lines_putLine, and_self]

/-- Every byte reads as before, where its line is another or its sector holds it dirty or not at all. -/
theorem State.byteAt_writeBack {s : State} (hw : ∀ k, s.hub.windows k = []) {line a : Nat} {l : SliceLine}
    (hl : NMap.find? s.lines line = some l)
    (hs : a / 256 = line → (l.sector (a / 64 % 4)).dirty = true ∨ (l.sector (a / 64 % 4)).have_.getLsbD (a % 64) = false) :
    (s.writeBack line).byteAt a = s.byteAt a := by
  obtain ⟨hmem, hlines, hhub⟩ := State.writeBack_of_find hl
  rw [State.putLine_plain hw, State.hub_foldl_putSector] at hhub
  have hback : ∀ k, (s.writeBack line).hub.windows k = [] := hhub ▸ hw
  simp only [State.byteAt, hlines, State.dramByte_plain hback, State.dramByte_plain hw, hmem, State.read_putLine hw]
  by_cases ha : a / 256 = line
  · rw [ha, NMap.find?_erase_same, hl]
    rcases hs ha with hd | hh
    · simp [hd]
    · simp [hh]
  · simp [NMap.find?_erase_ne _ _ _ ha, ha]

end Sys2Proof.Machine

open Sys2Proof Sys2Proof.Machine

/-- Settles O20: what a dirty sector holds reaches memory, and what it does not hold stands there already. -/
theorem writeBackKeepsBytes : Obligations.WriteBackKeepsBytes := by
  unfold Obligations.WriteBackKeepsBytes
  intro s line a hw hs
  cases hl : NMap.find? s.lines line with
  | none =>
    have hback : s.writeBack line = s := by simp only [State.writeBack, hl]
    rw [hback]
    exact ⟨rfl, hl⟩
  | some l =>
    refine ⟨State.byteAt_writeBack hw hl fun ha => hs ha l hl, ?_⟩
    obtain ⟨-, hlines, -⟩ := State.writeBack_of_find hl
    rw [hlines]
    exact NMap.find?_erase_same ..
end

section
/-! What leaves device memory as it is: of the operations of the state, every one but those that write a line back. -/
namespace Sys2Proof.Machine

@[simp] theorem State.mem_ite (c : Prop) [Decidable c] (s t : State) : (if c then s else t).mem = if c then s.mem else t.mem := by
  split <;> rfl

/-- A fold of steps that leave memory alone leaves it alone. -/
@[simp] theorem State.foldl_mem {α : Type} {f : State → α → State} (hf : ∀ s a, (f s a).mem = s.mem) (s : State) (l : List α) :
    (l.foldl f s).mem = s.mem :=
  List.foldlRecOn (motive := fun (t : State) => t.mem = s.mem) _ _ rfl fun t h a _ => (hf t a).trans h

section
variable {α : Type} (s : State) (l : List α)

@[simp] theorem State.foldl_updThread_mem (t : State → α → TsId) (f : State → α → Thread → Thread) :
    (l.foldl (fun s a => s.updThread (t s a) (f s a)) s).mem = s.mem := State.foldl_mem (fun _ _ => State.updThread_mem ..) s l

@[simp] theorem State.foldl_setThread_mem (t : State → α → TsId) (f : State → α → Thread) :
    (l.foldl (fun s a => s.setThread (t s a) (f s a)) s).mem = s.mem := State.foldl_mem (fun _ _ => State.setThread_mem ..) s l

@[simp] theorem State.foldl_updCore_mem (c k : State → α → Nat) (f : State → α → CoreUnit → CoreUnit) :
    (l.foldl (fun s a => s.updCore (c s a) (k s a) (f s a)) s).mem = s.mem := State.foldl_mem (fun _ _ => State.updCore_mem ..) s l

@[simp] theorem State.foldl_updCluster_mem (c : State → α → Nat) (f : State → α → Cluster → Cluster) :
    (l.foldl (fun s a => s.updCluster (c s a) (f s a)) s).mem = s.mem := State.foldl_mem (fun _ _ => State.updCluster_mem ..) s l

@[simp] theorem State.foldl_post_mem (i : State → α → Instr) : (l.foldl (fun s a => s.post (i s a)) s).mem = s.mem :=
  State.foldl_mem (fun _ _ => State.post_mem ..) s l

end

/-! ## Units, runs, activations and traps -/

@[simp] theorem State.pickFree_mem {α : Type} (s : State) (l : List α) : (s.pickFree l).1.mem = s.mem := by
  unfold State.pickFree
  split <;> rfl

@[simp] theorem State.flagsOf_mem (s : State) (t : TsId) (f : Flags) : (s.flagsOf t f).mem = s.mem := by simp [State.flagsOf]

@[simp] theorem State.endRun_mem (s : State) (r : Nat) (cause : StopCause) : (s.endRun r cause).mem = s.mem := by
  unfold State.endRun
  split <;> simp

@[simp] theorem State.endAct_mem (s : State) (k : ActKey) (f : Act → Act) : (s.endAct k f).mem = s.mem := by simp [State.endAct]

@[simp] theorem State.trapEndsRun_mem (s : State) (cause : Nat) (tval : Word) : (s.trapEndsRun cause tval).mem = s.mem := by
  unfold State.trapEndsRun
  dsimp only
  repeat' split
  all_goals simp

@[simp] theorem State.rollHandler_mem (s : State) (t : TsId) (k : ActKey) (cause : Nat) (v : Word) :
    (s.rollHandler t k cause v).mem = s.mem := by simp [State.rollHandler]

@[simp] theorem State.poisonTrap_mem (s : State) (tval : Word) : (s.poisonTrap tval).mem = s.mem := by
  unfold State.poisonTrap
  dsimp only
  split <;> simp

@[simp] theorem State.firmwareTrap_mem (s : State) (cause : Nat) (tval : Word) : (s.firmwareTrap cause tval).mem = s.mem := by
  simp [State.firmwareTrap]

@[simp] theorem State.leaveClass_mem (s : State) (t : TsId) (k : WClass) : (s.leaveClass t k).mem = s.mem := by
  simp [State.leaveClass]

/-! ## Slices and poison -/

@[simp] theorem State.poisonSector_mem (s : State) (pa : Nat) : (s.poisonSector pa).mem = s.mem := by simp [State.poisonSector]
@[simp] theorem State.unpoison_mem (s : State) (pa n : Nat) : (s.unpoison pa n).mem = s.mem := by simp [State.unpoison]
@[simp] theorem State.stamp_mem (s : State) (line : Nat) : (s.stamp line).mem = s.mem := by simp [State.stamp]

@[simp] theorem State.storeSector_mem (s : State) (vf pa : Nat) (bs : List Byte) (ev : Bool) :
    (s.storeSector vf pa bs ev).mem = s.mem := by simp [State.storeSector]

@[simp] theorem State.storeTentative_mem (s : State) (vf : Nat) (cells : List Host.Cell) (ev : List Nat) :
    (s.storeTentative vf cells ev).mem = s.mem := by simp [State.storeTentative]

/-! ## Control regions -/

@[simp] theorem State.sramWrites_mem (s : State) (vf a : Nat) (bs : List Byte) : (s.sramWrites vf a bs).mem = s.mem := by
  simp [State.sramWrites]

@[simp] theorem State.updQueue_mem (s : State) (vf q : Nat) (f : Queue → Queue) : (s.updQueue vf q f).mem = s.mem := by
  simp [State.updQueue]

@[simp] theorem State.dropDoorbell_mem (s : State) (vf q : Nat) : (s.dropDoorbell vf q).mem = s.mem := by simp [State.dropDoorbell]

@[simp] theorem State.doorbell_mem (s : State) (vf q : Nat) (addr : Word) : (s.doorbell vf q addr).mem = s.mem := by
  simp [State.doorbell]

@[simp] theorem State.acceptWrite_mem (s : State) (n : BitVec 2) (w : Word) : (s.acceptWrite n w).mem = s.mem := by
  simp [State.acceptWrite]

@[simp] theorem State.regionRead_mem (s : State) (vf off n : Nat) : (s.regionRead vf off n).1.mem = s.mem := by
  simp [State.regionRead]

@[simp] theorem State.regionPut_mem (s : State) (vf off : Nat) (bs : List Byte) : (s.regionPut vf off bs).mem = s.mem := by
  simp [State.regionPut]

@[simp] theorem State.regionWrite_mem (s : State) (vf off : Nat) (bs : List Byte) : (s.regionWrite vf off bs).mem = s.mem := by
  simp [State.regionWrite]

/-! ## Translation and faults -/

@[simp] theorem State.addTlb_mem (s : State) (p : Pipe) (e : TlbEntry) : (s.addTlb p e).mem = s.mem := by
  unfold State.addTlb
  split <;> simp

@[simp] theorem State.addL2_mem (s : State) (c : Nat) (e : TlbEntry) : (s.addL2 c e).mem = s.mem := by simp [State.addL2]

@[simp] theorem State.translate_mem (s : State) (p : Pipe) (vf va : Nat) : (s.translate p vf va).1.mem = s.mem := by
  unfold State.translate
  repeat' split
  all_goals simp

@[simp] theorem State.queueFault_mem (s : State) (vf : Nat) (entry : List Byte) : (s.queueFault vf entry).mem = s.mem := by
  simp [State.queueFault]

@[simp] theorem State.raiseFault_mem (s : State) (c vf : Nat) (va : Word) (kind : FaultKind) (a : Agent) :
    (s.raiseFault c vf va kind a).1.mem = s.mem := by
  simp [State.raiseFault]

theorem State.joinMiss_mem {s t : State} {c vf : Nat} {va : Word} {kind : FaultKind} {a : Agent}
    (h : s.joinMiss c vf va kind a = some t) : t.mem = s.mem := by
  unfold State.joinMiss at h
  dsimp only at h
  split at h
  · cases h
    rfl
  · split at h
    · cases h
    · cases h
      simp

@[simp] theorem State.forgetMiss_mem (s : State) (t : TsId) : (s.forgetMiss t).mem = s.mem := by simp [State.forgetMiss]

/-! ## Private copies and accesses -/

@[simp] theorem State.placeVictim_mem (s : State) (c : Nat) (v : PrivLine) (l : List Nat) : (s.placeVictim c v l).mem = s.mem := by
  induction l generalizing s v with
  | nil => rfl
  | cons j js ih =>
    unfold State.placeVictim
    dsimp only
    split <;> simp [ih]

@[simp] theorem State.addPriv_mem (s : State) (c k : Nat) (p : PrivLine) : (s.addPriv c k p).mem = s.mem := by
  unfold State.addPriv
  dsimp only
  split <;> simp

@[simp] theorem State.dropPriv_mem (s : State) (c k line : Nat) : (s.dropPriv c k line).mem = s.mem := by simp [State.dropPriv]

@[simp] theorem State.advanceTime_mem (s : State) (t : TsId) (n : Nat) : (s.advanceTime t n).mem = s.mem := by
  simp [State.advanceTime]

@[simp] theorem State.edge_mem (s : State) (t : TsId) : (s.edge t).mem = s.mem := by simp [State.edge]

@[simp] theorem State.addCopy_mem (s : State) (c k : Nat) (q : Place) (now line : Nat) (keep : Bool) :
    (s.addCopy c k q now line keep).mem = s.mem := by simp [State.addCopy]

@[simp] theorem State.afterStore_mem (s : State) (t : TsId) (q : Place) (pa : Nat) (hint : Hint) :
    (s.afterStore t q pa hint).mem = s.mem := by simp [State.afterStore]

@[simp] theorem State.streamFor_mem (s : State) (k : ActKey) (order : Nat) (ws : List Word) :
    (s.streamFor k order ws).mem = s.mem := by simp [State.streamFor]

@[simp] theorem State.stream_mem (s : State) (ws : List Word) : (s.stream ws).mem = s.mem := by
  unfold State.stream
  split <;> simp

/-! ## Tile tables and waits -/

@[simp] theorem State.updTile_mem (s : State) (c : Nat) (n : TileIx) (f : TileEntry → TileEntry) :
    (s.updTile c n f).mem = s.mem := by
  simp [State.updTile]

@[simp] theorem State.updLitter_mem (s : State) (c : Nat) (l : LitIx) (f : Litter → Litter) : (s.updLitter c l f).mem = s.mem := by
  simp [State.updLitter]

@[simp] theorem State.withdraw_mem (s : State) (t : TsId) (what : WaitFor) : (s.withdraw t what).mem = s.mem := by
  simp [State.withdraw]

/-! ## The matrix array -/

@[simp] theorem State.park_mem (s : State) (t : TsId) : (s.park t).mem = s.mem := by
  unfold State.park
  dsimp only
  split <;> simp

@[simp] theorem State.grant_mem (s : State) (t : TsId) (resume : Bool) : (s.grant t resume).mem = s.mem := by simp [State.grant]

@[simp] theorem State.freeLeash_mem (s : State) (c : Nat) : (s.freeLeash c).mem = s.mem := by
  unfold State.freeLeash
  split <;> simp

@[simp] theorem State.closeChain_mem (s : State) (t : TsId) : (s.closeChain t).mem = s.mem := by simp [State.closeChain]

/-! ## Barriers -/

@[simp] theorem State.credit_mem (s : State) (c k : Nat) (n : BarIx) (bytes : Nat) : (s.credit c k n bytes).mem = s.mem := by
  simp [State.credit]

@[simp] theorem State.barrierErr_mem (s : State) (c k : Nat) (n : BarIx) (err : BitVec 2) :
    (s.barrierErr c k n err).mem = s.mem := by
  simp [State.barrierErr]

@[simp] theorem State.edgeCore_mem (s : State) (c k : Nat) : (s.edgeCore c k).mem = s.mem := by simp [State.edgeCore]
@[simp] theorem State.barRelease_mem (s : State) (ts : List TsId) : (s.barRelease ts).mem = s.mem := by simp [State.barRelease]
@[simp] theorem State.barCheck_mem (s : State) (x : Run) : (s.barCheck x).mem = s.mem := by simp [State.barCheck]

/-! ## The clause array -/

@[simp] theorem State.updClause_mem (s : State) (c : Nat) (f : ClauseUnit → ClauseUnit) : (s.updClause c f).mem = s.mem := by
  simp [State.updClause]

@[simp] theorem State.freeClause_mem (s : State) (c : Nat) : (s.freeClause c).mem = s.mem := by simp [State.freeClause]

@[simp] theorem State.releaseClause_mem (s : State) (c : Nat) (h : ClauseHolder) : (s.releaseClause c h).mem = s.mem := by
  simp [State.releaseClause]

@[simp] theorem State.clauseEcc_mem (s : State) (c : Nat) (arbiter : Bool) : (s.clauseEcc c arbiter).mem = s.mem := by
  simp [State.clauseEcc]

/-! ## Relayouts -/

@[simp] theorem State.startRelayout_mem (s : State) (c : Nat) (r : Relayout) : (s.startRelayout c r).mem = s.mem := by
  simp [State.startRelayout]

@[simp] theorem State.updRelayout_mem (s : State) (c : Nat) (map : Word) (f : Relayout → Relayout) :
    (s.updRelayout c map f).mem = s.mem := by simp [State.updRelayout]

/-! ## Copies -/

@[simp] theorem State.leaveFor_mem (s : State) (t : TsId) (stint : Nat) (c : WClass) : (s.leaveFor t stint c).mem = s.mem := by
  simp [State.leaveFor]

@[simp] theorem State.addPend_mem (s : State) (t : TsId) (stint : Nat) (k : Option ActKey) (p : PendTrap) :
    (s.addPend t stint k p).mem = s.mem := by
  unfold State.addPend
  repeat' split
  all_goals simp

@[simp] theorem State.lateFlags_mem (s : State) (t : TsId) (k : Option ActKey) (f : Flags) : (s.lateFlags t k f).mem = s.mem := by
  unfold State.lateFlags
  repeat' split
  all_goals simp

@[simp] theorem State.engineConflict_mem (s : State) (k : Option ActKey) : (s.engineConflict k).mem = s.mem := by
  unfold State.engineConflict
  split <;> simp

@[simp] theorem State.updCopy_mem (s : State) (q : CopyOp) (f : CopyOp → CopyOp) : (s.updCopy q f).mem = s.mem := by
  simp [State.updCopy]

@[simp] theorem State.dropCopy_mem (s : State) (q : CopyOp) : (s.dropCopy q).mem = s.mem := by simp [State.dropCopy]

@[simp] theorem State.noteCopy_mem (s : State) (c : CopyOp) (state segs : Nat) : (s.noteCopy c state segs).mem = s.mem := by
  simp [State.noteCopy]

@[simp] theorem State.copyAdvance_mem (s : State) (c : CopyOp) (kept : List ((Nat × Nat) × Byte)) (fl : Flags) :
    (s.copyAdvance c kept fl).mem = s.mem := by simp [State.copyAdvance]

/-! ## Multicast -/

@[simp] theorem State.beatDone_mem (s : State) (req : Nat) : (s.beatDone req).mem = s.mem := by
  unfold State.beatDone
  split <;> simp

@[simp] theorem State.deliverBeat_mem (s : State) (b : Beat) : (s.deliverBeat b).mem = s.mem := by simp [State.deliverBeat]

@[simp] theorem State.beatAlso_mem (s : State) (stream : Nat) (m : Stream) (l : SentLine) (req d o : Nat) :
    (s.beatAlso stream m l req d o).mem = s.mem := by simp [State.beatAlso]

@[simp] theorem State.servedAlso_mem (s : State) (stream : Nat) (m : Stream) (ts : List (Nat × Nat)) :
    (s.servedAlso stream m ts).mem = s.mem := by simp [State.servedAlso]

@[simp] theorem State.arriveAt_mem (s : State) (r : McrdReq) (home : Nat) : (s.arriveAt r home).mem = s.mem := by
  unfold State.arriveAt
  dsimp only
  repeat' split
  all_goals simp

/-! ## Helpers and regions of work -/

@[simp] theorem State.startHelper_mem (s : State) (k : ActKey) (r : ForkRegion) (me : Thread) (t : TsId) (i : Nat) :
    (s.startHelper k r me t i).mem = s.mem := by simp [State.startHelper]

@[simp] theorem State.roundDue_mem (s : State) (c : Nat) : (s.roundDue c).mem = s.mem := by simp [State.roundDue]
@[simp] theorem State.freeThread_mem (s : State) (t : TsId) : (s.freeThread t).mem = s.mem := by simp [State.freeThread]
@[simp] theorem State.leaveChain_mem (s : State) (t : TsId) : (s.leaveChain t).mem = s.mem := by simp [State.leaveChain]
@[simp] theorem State.passPend_mem (s : State) (k : ActKey) : (s.passPend k).mem = s.mem := by simp [State.passPend]

/-! ## System registers -/

@[simp] theorem State.flushFlags_mem (s : State) (r : Nat) : (s.flushFlags r).mem = s.mem := by
  unfold State.flushFlags
  split <;> simp

@[simp] theorem State.dropTlb_mem (s : State) (p : TlbEntry → Bool) (cl : Nat → Bool) : (s.dropTlb p cl).mem = s.mem := by
  simp [State.dropTlb]

@[simp] theorem State.dropVf_mem (s : State) (vf : Nat) : (s.dropVf vf).mem = s.mem := by simp [State.dropVf]
@[simp] theorem State.dropPrivs_mem (s : State) (p : Nat → Bool) : (s.dropPrivs p).mem = s.mem := by simp [State.dropPrivs]

@[simp] theorem State.invalidate_mem (s : State) (va : Word) (all : Bool) (reach : BitVec 2) :
    (s.invalidate va all reach).mem = s.mem := by simp [State.invalidate]

/-! ## Messages, handlers and atomics -/

@[simp] theorem State.updKennel_mem (s : State) (c : Nat) (f : Kennel → Kennel) : (s.updKennel c f).mem = s.mem := by
  simp [State.updKennel]

@[simp] theorem State.countSnd_mem (s : State) (c : Nat) : (s.countSnd c).mem = s.mem := by simp [State.countSnd]
@[simp] theorem State.countRcv_mem (s : State) (c : Nat) : (s.countRcv c).mem = s.mem := by simp [State.countRcv]
@[simp] theorem State.acked_mem (s : State) (c : Nat) : (s.acked c).mem = s.mem := by simp [State.acked]

@[simp] theorem State.kickH_mem (s : State) (c k : Nat) : (s.kickH c k).mem = s.mem := by
  unfold State.kickH
  repeat' split
  all_goals simp

@[simp] theorem State.releaseSend_mem (s : State) (t : TsId) (e : SendEntry) : (s.releaseSend t e).mem = s.mem := by
  simp [State.releaseSend]

@[simp] theorem State.dropEntry_mem (s : State) (t : TsId) (e : SendEntry) : (s.dropEntry t e).mem = s.mem := by
  simp [State.dropEntry]

@[simp] theorem State.accept_mem (s : State) (t : TsId) (m : OutMsg) : (s.accept t m).mem = s.mem := by
  unfold State.accept
  repeat' split
  all_goals simp

@[simp] theorem State.amoDone_mem (s : State) (t : TsId) (order : Nat) : (s.amoDone t order).mem = s.mem := by simp [State.amoDone]

@[simp] theorem State.amoLost_mem (s : State) (c k : Nat) (q : AmoReq) : (s.amoLost c k q).mem = s.mem := by
  unfold State.amoLost
  split <;> simp

@[simp] theorem State.loseMessage_mem (s : State) (t : TsId) (m : OutMsg) : (s.loseMessage t m).mem = s.mem := by
  unfold State.loseMessage
  split <;> simp

@[simp] theorem State.startHandler_mem (s : State) (r : Nat) (x : Run) (c k : Nat) (m : InMsg) :
    (s.startHandler r x c k m).mem = s.mem := by
  unfold State.startHandler
  split <;> simp

@[simp] theorem State.dropBuffered_mem (s : State) (k : ActKey) : (s.dropBuffered k).mem = s.mem := by simp [State.dropBuffered]
@[simp] theorem State.freeHand_mem (s : State) (t : TsId) : (s.freeHand t).mem = s.mem := by simp [State.freeHand]

@[simp] theorem State.causeEntryOf_mem (s : State) (r : Option Nat) (cause : Nat) (va : Word) (agent c core rank tag : Nat) :
    (s.causeEntryOf r cause va agent c core rank tag).mem = s.mem := by
  unfold State.causeEntryOf
  split <;> simp

@[simp] theorem State.causeEntry_mem (s : State) (cause : Nat) (va : Word) (agent c core rank tag : Nat) :
    (s.causeEntry cause va agent c core rank tag).mem = s.mem := by simp [State.causeEntry]

@[simp] theorem State.rollEntry_mem (s : State) (c k cause : Nat) (v : Word) (m : InMsg) :
    (s.rollEntry c k cause v m).mem = s.mem := by
  unfold State.rollEntry
  split <;> simp

@[simp] theorem State.rollBack_mem (s : State) (c k : Nat) (key : ActKey) (cause : Nat) (v : Word) :
    (s.rollBack c k key cause v).mem = s.mem := by
  unfold State.rollBack
  dsimp only
  split <;> simp

@[simp] theorem State.amoReply_mem (s : State) (c k : Nat) (q : AmoReq) (value : Word) (fl : Flags) (poison : Bool) :
    (s.amoReply c k q value fl poison).mem = s.mem := by
  unfold State.amoReply
  split <;> simp

/-! ## Rounds, endings and commits -/

@[simp] theorem State.dropRollback_mem (s : State) (c rule : Nat) (ages : List (BitVec 32)) :
    (s.dropRollback c rule ages).mem = s.mem := by simp [State.dropRollback]

@[simp] theorem State.setRollback_mem (s : State) (r : Rollback) : (s.setRollback r).mem = s.mem := by simp [State.setRollback]

@[simp] theorem State.beginAct_mem (s : State) (r : Nat) (x : Run) (t : TsId) (key : ActKey) (rule : Rule) (ix : Nat)
    (g : List Tile) :
    (s.beginAct r x t key rule ix g).mem = s.mem := by simp [State.beginAct]

@[simp] theorem State.avoided_mem (s : State) (c : Nat) (d : Cand) : (s.avoided c d).mem = s.mem := by simp [State.avoided]

theorem State.startCand_mem {s : State} {r : Nat} {x : Run} {c : Nat} {d : Cand} {q : State × ActKey}
    (h : s.startCand r x c d = some q) : q.1.mem = s.mem := by
  unfold State.startCand at h
  split at h
  · cases h
  · dsimp only at h
    obtain ⟨p, -, rfl⟩ := Option.map_eq_some_iff.1 h
    dsimp only
    split <;> simp

@[simp] theorem State.startAll_mem (s : State) (r : Nat) (x : Run) (c : Nat) (ds : List Cand) (done : List (Nat × ActKey)) :
    (s.startAll r x c ds done).1.mem = s.mem := by
  induction ds generalizing s done with
  | nil => rfl
  | cons d ds ih =>
    unfold State.startAll
    split
    · next h => rw [ih, State.startCand_mem h]
    · exact ih s done

@[simp] theorem State.holdRound_mem (s : State) (r : Nat) (x : Run) (c : Nat) : (s.holdRound r x c).mem = s.mem := by
  unfold State.holdRound
  dsimp only
  simp

@[simp] theorem State.dropPend_mem (s : State) (k : ActKey) (a : Act) (p : PendTrap) : (s.dropPend k a p).mem = s.mem := by
  simp [State.dropPend]

@[simp] theorem State.freeLeashes_mem (s : State) (k : ActKey) : (s.freeLeashes k).mem = s.mem := by simp [State.freeLeashes]

@[simp] theorem State.freeSetsOf_mem (s : State) (k : ActKey) (a : Act) : (s.freeSetsOf k a).mem = s.mem := by
  simp [State.freeSetsOf]

@[simp] theorem State.discard_mem (s : State) (k : ActKey) (a : Act) (reject : Bool) : (s.discard k a reject).mem = s.mem := by
  simp [State.discard]

@[simp] theorem State.poisoned_mem (s : State) (k : ActKey) (a : Act) (va : Word) : (s.poisoned k a va).mem = s.mem := by
  simp [State.poisoned]

theorem State.reserveTile_mem {s : State} {x : Run} {b : BitVec 256} {q : State × Insert} (h : s.reserveTile x b = .ok q) :
    q.1.mem = s.mem := by
  unfold State.reserveTile at h
  dsimp only at h
  split at h
  · cases h
    rfl
  · split at h
    · cases h
      rfl
    · cases h

theorem State.reserveTiles_mem {x : Run} {q : State × List Insert} (bs : List (BitVec 256)) {s : State} {done : List Insert}
    (h : s.reserveTiles x bs done = .ok q) : q.1.mem = s.mem := by
  induction bs generalizing s done with
  | nil =>
    cases h
    rfl
  | cons b bs ih =>
    unfold State.reserveTiles at h
    split at h
    · next hb => exact (ih h).trans (State.reserveTile_mem hb)
    · cases h

theorem State.reserveRuns_mem {vf : Nat} {t : State} (qs : List QueuedRun) {s : State} (h : s.reserveRuns vf qs = .ok t) :
    t.mem = s.mem := by
  induction qs generalizing s with
  | nil =>
    cases h
    rfl
  | cons q qs ih =>
    unfold State.reserveRuns at h
    split at h
    · cases h
    · exact (ih h).trans (State.updQueue_mem ..)

@[simp] theorem State.releaseMsg_mem (s : State) (t : TsId) (m : OutMsg) : (s.releaseMsg t m).mem = s.mem := by
  unfold State.releaseMsg
  split <;> simp

@[simp] theorem State.sendTile_mem (s : State) (r c : Nat) (i : Insert) : (s.sendTile r c i).mem = s.mem := by
  simp [State.sendTile]

@[simp] theorem State.renewCopies_mem (s : State) (now : Nat) (ms : List StoreMark) : (s.renewCopies now ms).mem = s.mem := by
  unfold State.renewCopies
  refine State.foldl_mem (fun s m => ?_) _ _
  split
  · split <;> simp
  · rfl

@[simp] theorem State.countFiring_mem (s : State) (r : Nat) : (s.countFiring r).mem = s.mem := by
  unfold State.countFiring
  split <;> simp

@[simp] theorem State.commitEvent_mem (s : State) (k : ActKey) (a : Act) (x : Run) : (s.commitEvent k a x).mem = s.mem := by
  simp [State.commitEvent]

@[simp] theorem State.fenceCore_mem (s : State) (c k : Nat) : (s.fenceCore c k).mem = s.mem := by
  unfold State.fenceCore
  dsimp only
  split <;> simp

@[simp] theorem State.mismatch_mem (s : State) (c k : Nat) : (s.mismatch c k).mem = s.mem := by simp [State.mismatch]

@[simp] theorem State.abortTwins_mem (s : State) (k0 k1 : ActKey) (a0 a1 : Act) (reject : Bool) :
    (s.abortTwins k0 k1 a0 a1 reject).mem = s.mem := by simp [State.abortTwins]

@[simp] theorem State.twinsDiffer_mem (s : State) (k0 k1 : ActKey) (a0 a1 : Act) : (s.twinsDiffer k0 k1 a0 a1).mem = s.mem := by
  simp [State.twinsDiffer]

@[simp] theorem State.endPartner_mem (s : State) (p : ActKey) : (s.endPartner p).mem = s.mem := by
  unfold State.endPartner
  split <;> simp

@[simp] theorem State.tileArrived_mem (s : State) (i : Insert) : (s.tileArrived i).mem = s.mem := by simp [State.tileArrived]

@[simp] theorem State.insertSlot_mem (s : State) (x : Run) (i : Insert) : (s.insertSlot x i).mem = s.mem := by
  simp [State.insertSlot]

@[simp] theorem State.insertRing_mem (s : State) (x : Run) (i : Insert) : (s.insertRing x i).mem = s.mem := by
  simp [State.insertRing]

/-! ## Queues and runs -/

@[simp] theorem State.dispatchDue_mem (s : State) (vf : Nat) : (s.dispatchDue vf).mem = s.mem := by simp [State.dispatchDue]

@[simp] theorem State.endUnreleased_mem (s : State) (r : Nat) (c : StopCause) : (s.endUnreleased r c).mem = s.mem := by
  simp [State.endUnreleased]

@[simp] theorem State.endSubmission_mem (s : State) (sub : Submission) : (s.endSubmission sub).mem = s.mem := by
  unfold State.endSubmission
  split <;> simp

@[simp] theorem State.appendRun_mem (s : State) (sub : Submission) (bytes : List Byte) : (s.appendRun sub bytes).mem = s.mem := by
  simp [State.appendRun]

@[simp] theorem State.failSubmission_mem (s : State) (sub : Submission) (disable : Bool) :
    (s.failSubmission sub disable).mem = s.mem := by simp [State.failSubmission]

@[simp] theorem State.updSubmission_mem (s : State) (sub : Submission) (f : Submission → Submission) :
    (s.updSubmission sub f).mem = s.mem := by simp [State.updSubmission]

@[simp] theorem State.submissionWaits_mem (s : State) (sub : Submission) (va : Word) : (s.submissionWaits sub va).mem = s.mem := by
  simp [State.submissionWaits]

theorem State.preemptOf_mem {s t : State} {x : Run} {vs : List (Nat × Run)} (h : s.preemptOf x vs = some t) : t.mem = s.mem := by
  obtain ⟨n, -, rfl⟩ := Option.map_eq_some_iff.1 h
  simp

@[simp] theorem State.placeAt_mem (s : State) (r : Nat) (x : Run) (n : Nat) : (s.placeAt r x n).mem = s.mem := by
  unfold State.placeAt
  extract_lets
  split
  · simp
  · split <;> exact (State.postOnce_mem ..).trans (State.foldl_updCluster_mem s _ _ _)

@[simp] theorem State.placeNext_mem (s : State) (l : List (Nat × Run)) : (s.placeNext l).mem = s.mem := by
  induction l with
  | nil => rfl
  | cons e l ih =>
    unfold State.placeNext
    split
    · simp
    · split
      · next h => exact State.preemptOf_mem h
      · exact ih

theorem State.preemptSlice_mem {s t : State} {w : Run} (h : s.preemptSlice w = some t) : t.mem = s.mem := State.preemptOf_mem h

@[simp] theorem State.freshCluster_mem (s : State) (r : Nat) (x : Run) (c : Nat) : (s.freshCluster r x c).mem = s.mem := by
  simp [State.freshCluster]

@[simp] theorem State.giveRanks_mem (s : State) (x : Run) : (s.giveRanks x).mem = s.mem := by simp [State.giveRanks]

@[simp] theorem State.startRun_mem (s : State) (r : Nat) (x : Run) (cwins : NMap (List Byte)) :
    (s.startRun r x cwins).mem = s.mem := by simp [State.startRun]

@[simp] theorem State.unplace_mem (s : State) (r : Nat) : (s.unplace r).mem = s.mem := by simp [State.unplace]
@[simp] theorem State.stopGang_mem (s : State) (x : Run) : (s.stopGang x).mem = s.mem := by simp [State.stopGang]
@[simp] theorem State.leaveCluster_mem (s : State) (c : Nat) : (s.leaveCluster c).mem = s.mem := by simp [State.leaveCluster]
@[simp] theorem State.finishRun_mem (s : State) (r : Nat) (x : Run) : (s.finishRun r x).mem = s.mem := by simp [State.finishRun]

/-! ## Tiles -/

@[simp] theorem State.unbind_mem (s : State) (c : Nat) (n : TileIx) : (s.unbind c n).mem = s.mem := by simp [State.unbind]
@[simp] theorem State.bind_mem (s : State) (c : Nat) (n : TileIx) (d : Word) : (s.bind c n d).mem = s.mem := by simp [State.bind]

@[simp] theorem State.updMove_mem (s : State) (c : Nat) (n : TileIx) (f : MoveOp → MoveOp) : (s.updMove c n f).mem = s.mem := by
  simp [State.updMove]

@[simp] theorem State.dropMove_mem (s : State) (c : Nat) (n : TileIx) : (s.dropMove c n).mem = s.mem := by simp [State.dropMove]

@[simp] theorem State.moveAdvance_mem (s : State) (c : Nat) (m : MoveOp) (kept : List ((Nat × Nat) × Byte)) :
    (s.moveAdvance c m kept).mem = s.mem := by simp [State.moveAdvance]

@[simp] theorem State.endMove_mem (s : State) (c : Nat) (m : MoveOp) : (s.endMove c m).mem = s.mem := by simp [State.endMove]

/-! ## Faults answered -/

@[simp] theorem State.wakeRun_mem (s : State) (r : Nat) : (s.wakeRun r).mem = s.mem := by
  unfold State.wakeRun
  split
  · rfl
  · dsimp only
    split
    · simp
    · split <;> simp

@[simp] theorem State.wakeSubmissions_mem (s : State) (vf page : Nat) (refuse : Option Word) :
    (s.wakeSubmissions vf page refuse).mem = s.mem := by simp [State.wakeSubmissions]

@[simp] theorem State.wakeThread_mem (s : State) (t : TsId) (refuse : Option Word) : (s.wakeThread t refuse).mem = s.mem := by
  simp [State.wakeThread]

@[simp] theorem State.serveAgent_mem (s : State) (c : Nat) (m : Miss) (a : Agent) : (s.serveAgent c m a).mem = s.mem := by
  unfold State.serveAgent
  repeat' split
  all_goals simp

@[simp] theorem State.dropMiss_mem (s : State) (c : Nat) (m : Miss) : (s.dropMiss c m).mem = s.mem := by simp [State.dropMiss]

@[simp] theorem State.updMiss_mem (s : State) (c : Nat) (m : Miss) (f : Miss → Miss) : (s.updMiss c m f).mem = s.mem := by
  simp [State.updMiss]

/-! ## Pre-emption -/

@[simp] theorem State.restop_mem (s : State) (t : TsId) : (s.restop t).mem = s.mem := by simp [State.restop]

@[simp] theorem State.parkAll_mem (s : State) (x : Run) : (s.parkAll x).mem = s.mem := by
  unfold State.parkAll
  refine State.foldl_mem (fun s c => ?_) _ _
  split <;> simp

@[simp] theorem State.savedPack_mem (s : State) (r : Nat) (x : Run) : (s.savedPack r x).mem = s.mem := by simp [State.savedPack]

@[simp] theorem State.restorePark_mem (s : State) (t : TsId) (bs : List Byte) : (s.restorePark t bs).mem = s.mem := by
  simp [State.restorePark]

@[simp] theorem State.restoreSets_mem (s : State) (r : Nat) (x : Run) (c : Nat) (k : SavedCluster) (bs : List Byte) :
    (s.restoreSets r x c k bs).mem = s.mem := by
  unfold State.restoreSets
  dsimp only
  split <;> simp

@[simp] theorem State.restoreCluster_mem (s : State) (r : Nat) (x : Run) (c : Nat) (k : SavedCluster) (qs : List Relayout)
    (bs : List Byte) :
    (s.restoreCluster r x c k qs bs).mem = s.mem := by simp [State.restoreCluster]

@[simp] theorem State.restoreAll_mem (s : State) (r : Nat) (x : Run) (bs : List Byte) (cs : List (Nat × Nat))
    (ks : List SavedCluster)
    (qs : List (List Relayout)) : (s.restoreAll r x bs cs ks qs).mem = s.mem := by
  induction cs generalizing s ks qs with
  | nil => cases ks <;> rfl
  | cons q cs ih =>
    cases ks with
    | nil => rfl
    | cons k ks => simp [State.restoreAll, ih]

@[simp] theorem State.resumeDue_mem (s : State) (r : Nat) (x : Run) : (s.resumeDue r x).mem = s.mem := by simp [State.resumeDue]

@[simp] theorem State.resumeRun_mem (s : State) (r : Nat) (x : Run) (bs : List Byte) (qs : List (List Relayout)) :
    (s.resumeRun r x bs qs).mem = s.mem := by simp [State.resumeRun]

/-! ## Containment -/

@[simp] theorem State.poisonLoc_mem (s : State) (l : EccLoc) : (s.poisonLoc l).mem = s.mem := by
  unfold State.poisonLoc
  split <;> simp

@[simp] theorem State.dropBlock_mem (s : State) (c : Nat) (err : Bool) : (s.dropBlock c err).mem = s.mem := by
  unfold State.dropBlock
  split <;> simp

@[simp] theorem State.markUnit_mem (s : State) (u : UnitId) (st : Nat) : (s.markUnit u st).mem = s.mem := by simp [State.markUnit]

@[simp] theorem State.loseQueues_mem (s : State) (c k : Nat) : (s.loseQueues c k).mem = s.mem := by
  unfold State.loseQueues
  dsimp only
  rw [State.updCore_mem, State.foldl_mem fun _ _ => by simp]
  refine State.foldl_mem (fun s m => ?_) _ _
  split <;> simp

@[simp] theorem State.wipeCluster_mem (s : State) (c : Nat) : (s.wipeCluster c).mem = s.mem := by
  simp [State.wipeCluster]

@[simp] theorem State.setDie_mem (s : State) (d : Nat) (f : Die → Die) : (s.setDie d f).mem = s.mem := by simp [State.setDie]
@[simp] theorem State.failDevice_mem (s : State) (c : StopCause) : (s.failDevice c).mem = s.mem := by simp [State.failDevice]
@[simp] theorem State.setStep_mem (s : State) (n : Nat) : (s.setStep n).mem = s.mem := by simp [State.setStep]
@[simp] theorem State.resetRollback_mem (s : State) : (s.resetRollback).mem = s.mem := by simp [State.resetRollback]
@[simp] theorem State.resetUnits_mem (s : State) (d : Nat) : (s.resetUnits d).mem = s.mem := by simp [State.resetUnits]

/-! ## The hub -/

@[simp] theorem State.repairQcb_mem (s : State) (n q : Nat) : (s.repairQcb n q).mem = s.mem := by simp [State.repairQcb]
@[simp] theorem State.bootCore_mem (s : State) (n slot : Nat) : (s.bootCore n slot).mem = s.mem := by
  unfold State.bootCore
  extract_lets v image slot body entry s1 s2
  calc (s2.setThread _ _).mem = s2.mem := State.setThread_mem ..
    _ = s1.mem := State.foldl_mem (fun s q => s.repairQcb_mem n q) s1 _
    _ = s.mem := State.updFn_mem ..
@[simp] theorem State.degrade_mem (s : State) (u : UnitId) : (s.degrade u).mem = s.mem := by simp [State.degrade]

@[simp] theorem State.withholdUnit_mem (s : State) (v : NvStore) (u : UnitId) : (s.withholdUnit v u).mem = s.mem := by
  simp [State.withholdUnit]

@[simp] theorem State.bringUp_mem (s : State) (old v : NvStore) (units : List UnitId) : (s.bringUp old v units).mem = s.mem := by
  simp [State.bringUp]

@[simp] theorem State.slotWrite_mem (s : State) (slot : Nat) (bs : List Byte) : (s.slotWrite slot bs).mem = s.mem := by
  simp [State.slotWrite]

@[simp] theorem State.updateCore_mem (s : State) (n : Nat) : (s.updateCore n).mem = s.mem := by simp [State.updateCore]
@[simp] theorem State.setTemp_mem (s : State) (d : BitVec 2) (t : Byte) : (s.setTemp d t).mem = s.mem := by simp [State.setTemp]
@[simp] theorem State.trip_mem (s : State) : (s.trip).mem = s.mem := by simp [State.trip]
@[simp] theorem State.sensed_mem (s : State) (d : BitVec 2) (t : Byte) : (s.sensed d t).mem = s.mem := by simp [State.sensed]
@[simp] theorem State.answer_mem (s : State) (ws : List Word) : (s.answer ws).mem = s.mem := by simp [State.answer]
@[simp] theorem State.answerFree_mem (s : State) (n : Nat) : (s.answerFree n).mem = s.mem := by simp [State.answerFree]

@[simp] theorem State.runOutside_mem (s : State) (o : Outside) : (s.runOutside o).mem = s.mem := by
  unfold State.runOutside
  split <;> simp

/-! ## The leash -/

@[simp] theorem State.rearbitrate_mem (s : State) : (s.rearbitrate).mem = s.mem := by simp [State.rearbitrate]

/-! ## Time and issue -/

@[simp] theorem State.postDue_mem (s : State) : (s.postDue).mem = s.mem := by simp [State.postDue]
@[simp] theorem State.issued_mem (s : State) (t : TsId) : (s.issued t).mem = s.mem := by simp [State.issued]

@[simp] theorem State.passed_mem (before after : State) (t : TsId) : (State.passed before after t).mem = after.mem := by
  simp [State.passed]

end Sys2Proof.Machine
end

section
/-! What writes device memory keeps its canonical form (R185, R186, R192): the writing back of lines, and every store, load and
relayout that may write one back. -/
namespace Sys2Proof.Machine

/-- Device memory has the canonical form. -/
@[simp] abbrev State.MemWf (s : State) : Prop := ByteMap.wf s.mem = true

theorem State.MemWf.of_mem {s t : State} (w : s.MemWf) (h : t.mem = s.mem) : t.MemWf := by rwa [State.MemWf, h]

theorem State.MemWf.foldl {α : Type} {f : State → α → State} (hf : ∀ s a, s.MemWf → (f s a).MemWf) {s : State} (w : s.MemWf)
    (l : List α) : (l.foldl f s).MemWf :=
  List.foldlRecOn (motive := fun (t : State) => t.MemWf) _ _ w fun t h a _ => hf t a h

/-- A fold of steps of which each may fail. -/
theorem State.MemWf.foldl_bind {α : Type} {f : State → α → Option State}
    (hf : ∀ {s t : State} {a : α}, f s a = some t → s.MemWf → t.MemWf)
    (l : List α) {o : Option State} (ho : ∀ t : State, o = some t → t.MemWf) :
    ∀ t : State, l.foldl (fun o a => o.bind (f · a)) o = some t → t.MemWf := by
  refine List.foldlRecOn (motive := fun o => ∀ t : State, o = some t → t.MemWf) _ _ ho fun o ih a _ t ht => ?_
  obtain ⟨u, hu, hf'⟩ := Option.bind_eq_some_iff.1 ht
  exact hf hf' (ih u hu)

/-! ## Lines written back -/

variable {s t : State}

theorem State.MemWf.encodeSector (w : s.MemWf) (n : Nat) (f : FWindow) (pa : Nat) (bs : List Byte) :
    (s.encodeSector n f pa bs).MemWf := by
  have hsat (c : Bool) (m : ByteMap) (hm : ByteMap.wf m = true) :
      (if c then ({ s with mem := m } : State).setSatw (stackOf pa) n else { s with mem := m }).MemWf := by
    cases c <;> exact hm
  unfold State.encodeSector
  dsimp only
  split
  · exact ByteMap.wf_writes _ _ _ w
  · split <;> exact hsat _ _ (ByteMap.wf_writes _ _ _ w)

theorem State.MemWf.putSector (w : s.MemWf) (pa : Nat) (c : Sector) : (s.putSector pa c).MemWf := by
  unfold State.putSector
  split
  · exact w
  · refine List.foldlRecOn (motive := fun m => ByteMap.wf m = true) _ _ w fun m hm i _ => ?_
    split
    · exact ByteMap.wf_write _ _ _ hm
    · exact hm

theorem State.MemWf.putLine (w : s.MemWf) (line : Nat) (l : SliceLine) : (s.putLine line l).MemWf := by
  unfold State.putLine
  split
  · exact w.foldl (fun _ _ h => h.putSector ..) _
  · split
    · exact w.foldl (fun _ _ h => h.encodeSector ..) _
    · exact w

@[simp] theorem State.MemWf.writeBack (w : s.MemWf) (line : Nat) : (s.writeBack line).MemWf := by
  unfold State.writeBack
  split
  · exact w
  · next l _ => exact w.putLine line l

@[simp] theorem State.MemWf.writeBackAll (w : s.MemWf) (p : Nat → SliceLine → Bool) : (s.writeBackAll p).MemWf :=
  w.foldl (fun _ _ h => h.writeBack _) _

/-! ## Ways found, lines read (R184, R185) -/

theorem State.MemWf.room (w : s.MemWf) {vf pa : Nat} (h : s.room vf pa = some t) : t.MemWf := by
  unfold State.room at h
  dsimp only at h
  split at h
  · cases h
    exact w
  · split at h
    · cases h
      exact w
    · obtain ⟨l, -, rfl⟩ := Option.map_eq_some_iff.1 h
      exact w.writeBack _

theorem State.MemWf.pull (w : s.MemWf) {vf pa n : Nat} {ev : Bool} (h : s.pull vf pa n ev = some t) : t.MemWf := by
  obtain ⟨u, hu, rfl⟩ := Option.map_eq_some_iff.1 h
  have hroom : u.MemWf := w.room hu
  exact hroom

theorem State.MemWf.pullNow (w : s.MemWf) (vf pa n : Nat) : (s.pullNow vf pa n).MemWf := by
  unfold State.pullNow
  cases h : s.pull vf pa n false with
  | none => exact w
  | some t => exact w.pull h

theorem State.MemWf.pullPlace (w : s.MemWf) {q : Place} {vf pa n : Nat} {ev : Bool} (h : s.pullPlace q vf pa n ev = some t) :
    t.MemWf := by
  cases q with
  | dram => exact w.pull h
  | host | peer =>
    cases h
    exact w

theorem State.MemWf.lineSnapshot (w : s.MemWf) {vf pa : Nat} {q : State × Option (List Byte)} (h : s.lineSnapshot vf pa = some q) :
    q.1.MemWf := by
  unfold State.lineSnapshot at h
  split at h
  · split at h
    · cases h
    · obtain ⟨u, hu, rfl⟩ := Option.map_eq_some_iff.1 h
      exact w.pullPlace hu
  · cases h
    exact w

theorem State.MemWf.prefetch (w : s.MemWf) (q : Place) (pa : Nat) (hint : Hint) : (s.prefetch q pa hint).MemWf := by
  unfold State.prefetch
  dsimp only
  split
  · exact w
  · next u hu =>
    have hu' : u.MemWf := by
      split at hu
      · cases hu
      · exact w.pullPlace hu
    split
    · exact hu'
    · split
      · exact w
      · exact hu'.of_mem (State.addCopy_mem ..)

/-! ## Stores (R185, R353, R366) -/

theorem State.MemWf.storeDevice (w : s.MemWf) {vf pa : Nat} {bs : List Byte} {ev : Bool} (h : s.storeDevice vf pa bs ev = some t) :
    t.MemWf := by
  refine State.MemWf.foldl_bind (fun hp v => ?_) (piecesOf pa bs) (fun u hu => ?_) t h
  · obtain ⟨u, hu, rfl⟩ := Option.map_eq_some_iff.1 hp
    exact (v.room hu).of_mem (State.storeSector_mem ..)
  · cases hu
    exact w

theorem State.MemWf.storePiece (w : s.MemWf) (vf pa : Nat) (bs : List Byte) : (s.storePiece vf pa bs).MemWf := by
  unfold State.storePiece
  split
  · next h => exact (w.room h).of_mem (State.storeSector_mem ..)
  · exact (w.of_mem (State.storeSector_mem ..)).writeBack _

theorem State.MemWf.storeNow (w : s.MemWf) (vf pa : Nat) (bs : List Byte) : (s.storeNow vf pa bs).MemWf :=
  w.foldl (fun _ _ h => h.storePiece ..) _

theorem State.MemWf.storePlace (w : s.MemWf) {q : Place} {vf pa : Nat} {bs : List Byte} {ev : Bool}
    (h : s.storePlace q vf pa bs ev = some t) : t.MemWf := by
  cases q with
  | dram => exact w.storeDevice h
  | host | peer =>
    cases h
    exact w.of_mem (State.stamp_mem ..)

theorem State.MemWf.storePlace_getD (w : s.MemWf) (q : Place) (vf pa : Nat) (bs : List Byte) (ev : Bool) :
    ((s.storePlace q vf pa bs ev).getD s).MemWf := by
  cases h : s.storePlace q vf pa bs ev with
  | none => exact w
  | some t => exact w.storePlace h

theorem State.MemWf.storePlaceNow (w : s.MemWf) (q : Place) (vf pa : Nat) (bs : List Byte) :
    (s.storePlaceNow q vf pa bs).MemWf := by
  cases q with
  | dram => exact w.storeNow ..
  | host | peer => exact w.storePlace_getD ..

theorem State.MemWf.physWrite (w : s.MemWf) {vf pa : Nat} {bs : List Byte} (h : s.physWrite vf pa bs = .ok (some t)) : t.MemWf := by
  unfold State.physWrite at h
  split at h
  · cases h
  · split at h
    · cases h
    · exact w.storePlace (Except.ok.inj h)

theorem State.MemWf.storeTent (w : s.MemWf) {k : ActKey} {vf pa : Nat} {bs : List Byte} {mark : List StoreMark}
    (h : s.storeTent k vf pa bs mark = some t) : t.MemWf := by
  unfold State.storeTent at h
  split at h
  · cases h
  · dsimp only at h
    split at h
    · cases h
      exact w.of_mem (State.updAct_mem ..)
    · split at h
      · cases h
      · obtain ⟨u, hu, rfl⟩ := Option.map_eq_some_iff.1 h
        exact ((w.room hu).writeBack _).of_mem (State.updAct_mem ..)

theorem State.MemWf.engineStore (w : s.MemWf) {e : EngineFor} {p : Spot} {bs : List Byte} (h : s.engineStore e p bs = some t) :
    t.MemWf := by
  cases p with
  | scratch off =>
    unfold State.engineStore at h
    dsimp only at h
    split at h <;>
    · cases h
      exact w
  | sram off | region vf off =>
    cases h
    exact w
  | phys q pa => exact w.storePlace h

theorem State.MemWf.releaseOutside (w : s.MemWf) (a : Act) (vf : Nat) : (s.releaseOutside a vf).MemWf := by
  refine State.MemWf.of_mem (w.foldl (fun u x h => ?_) a.outside) (State.renewCopies_mem ..)
  split
  · exact h.storePlace_getD ..
  · exact h

/-! ## Loads (R181, R185, R341) -/

theorem State.MemWf.loadLine (w : s.MemWf) {u : TsId} {q : Place} {line : Nat} {spans : List (Nat × Nat)} {hint : Hint}
    {r : State × (Nat → Nat → List Byte)} (h : s.loadLine u q line spans hint = some r) : r.1.MemWf := by
  unfold State.loadLine at h
  dsimp only at h
  split at h
  · cases h
    exact w.of_mem (by simp)
  · split at h
    · cases h
    · obtain ⟨v, hv, rfl⟩ := Option.map_eq_some_iff.1 h
      have hpull : v.MemWf := State.MemWf.foldl_bind (fun hp v => v.pullPlace hp) _ (fun _ ht => by cases ht; exact w) v hv
      exact hpull.of_mem (by simp)

theorem State.MemWf.loadPlace (w : s.MemWf) {u : TsId} {q : Place} {pa n : Nat} {hint : Hint} {r : State × List Byte}
    (h : s.loadPlace u q pa n hint = some r) : r.1.MemWf := by
  obtain ⟨r', hr, rfl⟩ := Option.map_eq_some_iff.1 h
  exact w.loadLine hr

theorem State.MemWf.pullSpot (w : s.MemWf) {e : EngineFor} {p : Spot} {n : Nat} (h : s.pullSpot e p n = some t) : t.MemWf := by
  cases p with
  | phys q pa =>
    unfold State.pullSpot at h
    dsimp only at h
    split at h
    · cases h
    · exact w.pullPlace h
  | scratch off | sram off | region vf off =>
    cases h
    exact w

/-! ## Blocks of a relayout converted (R234) -/

theorem State.MemWf.unitBytes (w : s.MemWf) (vf : Nat) (u : RelayUnit) : (s.unitBytes vf u).1.MemWf := by
  unfold State.unitBytes
  split
  · exact w
  · refine List.foldlRecOn (motive := fun (x : State × List Byte) => x.1.MemWf) _ _ w fun x hx r _ => ?_
    split
    · dsimp only
      split
      · exact hx.pullNow ..
      · exact hx
    · exact hx

theorem State.MemWf.rangeStores (w : s.MemWf) (vf : Nat) (rs : List (Nat × Nat)) (bs : List Byte) :
    (s.rangeStores vf rs bs).MemWf := by
  induction rs generalizing s bs with
  | nil => exact w
  | cons r rs ih =>
    refine ih ?_ _
    split
    · split
      · exact w
      · exact w.storePlaceNow ..
    · exact w

theorem State.MemWf.moveUnits (w : s.MemWf) (vf : Nat) (us : List RelayUnit) : (s.moveUnits vf us).MemWf := by
  induction us generalizing s with
  | nil => exact w
  | cons u us ih => exact ih ((w.unitBytes vf u).rangeStores ..)

theorem State.MemWf.setMapEntry (w : s.MemWf) (vf mapAt block code : Nat) : (s.setMapEntry vf mapAt block code).MemWf := by
  unfold State.setMapEntry
  split
  · exact w.storePlaceNow ..
  · exact w

theorem State.MemWf.relayFinish (w : s.MemWf) {vf : Nat} {b : MovingBlock} {block : Nat} {r : State × Bool}
    (h : s.relayFinish vf b block = some r) : r.1.MemWf := by
  unfold State.relayFinish at h
  split at h
  · cases h
  · split at h
    · cases h
      exact w.setMapEntry ..
    · cases h
      exact (w.moveUnits ..).setMapEntry ..

theorem State.MemWf.relayMoving (w : s.MemWf) (c vf : Nat) (map : Word) (r : Relayout) (b : MovingBlock) :
    (s.relayMoving c vf map r b).MemWf := by
  unfold State.relayMoving
  split
  · exact w.of_mem (State.postOnce_mem ..)
  · next h => exact (w.relayFinish h).of_mem (State.updRelayout_mem ..)
  · next h =>
    have hfin := w.relayFinish h
    split <;> exact hfin.of_mem (by simp)

/-! ## Atomics and commits (R36, R357) -/

theorem State.MemWf.amoApplied (w : s.MemWf) {c k : Nat} {q : AmoReq} (h : s.amoApplied c k q = some t) : t.MemWf := by
  unfold State.amoApplied at h
  extract_lets n vf at h
  split at h
  · cases h
    exact w.of_mem (State.amoLost_mem ..)
  · split at h
    · cases h
    · split at h
      · cases h
        exact w.of_mem (State.amoReply_mem ..)
      · cases h
        refine State.MemWf.of_mem ?_ (State.amoReply_mem ..)
        split
        · exact (w.pullNow ..).storeNow ..
        · exact w.pullNow ..

theorem State.MemWf.commitWith (w : s.MemWf) (k : ActKey) (a : Act) (x : Run) (ins : List Insert) :
    (s.commitWith k a x ins).MemWf := by
  have hout : ((s.commitEvent k a x).releaseOutside a x.vf).MemWf := (w.of_mem (State.commitEvent_mem ..)).releaseOutside a x.vf
  refine hout.of_mem ?_
  simp [State.commitWith]

end Sys2Proof.Machine
end

section
/-! Programs of words and of engines keep the canonical form of device memory: how it goes through a bind, a check, a read of
the state and an update. -/
namespace Sys2Proof.Machine

/-- A program's result has the form: the state it ends in, or the reason with which it stops. -/
def ResultWf {ε α : Type} (E : ε → Prop) : Except ε (α × State) → Prop
  | .ok (_, t) => t.MemWf
  | .error e => E e

/-- A program keeps the form of memory. -/
def Keeps {ε α : Type} (E : ε → Prop) (m : StateT State (Except ε) α) : Prop := ∀ s : State, s.MemWf → ResultWf E (m s)

/-- The states that a stop of a word carries have the form, or keep it. -/
def Stop.Wf : Stop → Prop
  | .late s _ _ => s.MemWf
  | .hold f => ∀ s : State, s.MemWf → (f s).MemWf
  | .done s => s.MemWf
  | .trap _ _ => True
  | .priv => True

/-- A word's program keeps the form. -/
abbrev M.Keeps {α : Type} (m : M α) : Prop := Machine.Keeps Stop.Wf m

/-- An engine's program keeps the form; its stops carry no state. -/
abbrev EM.Keeps {α : Type} (m : EM α) : Prop := Machine.Keeps (fun _ => True) m

namespace Keeps

section
variable {ε α β : Type} {E : ε → Prop}

theorem pure {a : α} : Keeps E (Pure.pure a : StateT State (Except ε) α) := fun _ w => w

theorem error {e : ε} (h : E e) : Keeps E (fun _ => .error e : StateT State (Except ε) α) := fun _ _ => h

theorem bind {m : StateT State (Except ε) α} {f : α → StateT State (Except ε) β} (hm : Keeps E m) (hf : ∀ a, Keeps E (f a)) :
    Keeps E (m >>= f) := by
  intro s w
  have hrun : (m >>= f) s = (m s).bind (fun r => f r.1 r.2) := rfl
  have hms := hm s w
  rw [hrun]
  cases h : m s with
  | error e =>
    rw [h] at hms
    exact hms
  | ok r =>
    rw [h] at hms
    exact hf r.1 r.2 hms

theorem ite {c : Prop} [Decidable c] {m n : StateT State (Except ε) α} (hm : Keeps E m) (hn : Keeps E n) :
    Keeps E (if c then m else n) := by
  split
  · exact hm
  · exact hn

end

/-! ## Words -/

section
variable {α β : Type} {m : M β} {f : State → State} {c : Bool} {cause : Nat} {v : Word}

theorem trap : M.Keeps (trapM cause v : M α) := .error trivial
theorem priv : M.Keeps (privM : M α) := .error trivial
theorem hold : M.Keeps (holdM : M α) := .error fun _ w => w
theorem holdWith (h : ∀ s : State, (f s).mem = s.mem) : M.Keeps (fun _ => .error (.hold f) : M α) :=
  .error fun s w => w.of_mem (h s)
theorem late {c : State → Nat} {v : State → Word} (h : ∀ s : State, (f s).mem = s.mem) :
    M.Keeps (fun s => .error (.late (f s) (c s) (v s)) : M α) := fun s w => w.of_mem (h s)

theorem check : M.Keeps (trapIf c cause v) := .ite .trap .pure
theorem gate : M.Keeps (Machine.privUnless c) := .ite .pure .priv
theorem holdIf : M.Keeps (Machine.holdIf c) := .ite .hold .pure

/-- What a word reads of the state comes from a state in the form. -/
theorem read {g : State → α} {k : α → M β} (h : ∀ s, s.MemWf → M.Keeps (k (g s))) : M.Keeps (readS g >>= k) :=
  fun s w => h s w s w

theorem get {g : State → α} : M.Keeps (readS g) := fun _ w => w

theorem updWf (h : ∀ s : State, s.MemWf → (f s).MemWf) : M.Keeps (updS f) := h
theorem upd (h : ∀ s : State, (f s).mem = s.mem) : M.Keeps (updS f) := fun s w => w.of_mem (h s)

/-! A check, or an update, and what follows it. -/

theorem trapIf (h : M.Keeps m) : M.Keeps (Machine.trapIf c cause v >>= fun _ => m) := .bind .check fun _ => h
theorem privUnless (h : M.Keeps m) : M.Keeps (Machine.privUnless c >>= fun _ => m) := .bind .gate fun _ => h
theorem unlessHeld (h : M.Keeps m) : M.Keeps (Machine.holdIf c >>= fun _ => m) := .bind .holdIf fun _ => h

end

/-! ## Engines -/

section
variable {α β : Type} {m : EM β} {c : Bool} {cause : Nat} {v : Word}

theorem stop {e : EngineStop} : EM.Keeps (stopE e : EM α) := .error trivial
theorem fail : EM.Keeps (failIf c cause v) := .ite .stop .pure
theorem failIf (h : EM.Keeps m) : EM.Keeps (Machine.failIf c cause v >>= fun _ => m) := .bind .fail fun _ => h
theorem state {k : State → EM β} (h : ∀ s, s.MemWf → EM.Keeps (k s)) : EM.Keeps (stateE >>= k) := fun s w => h s w s w
theorem updE {f : State → State} (h : ∀ s : State, s.MemWf → (f s).MemWf) : EM.Keeps (Machine.updE f) := h

end

end Keeps

/-! ## How words end (R66, R367 to R370) -/

/-- A step's outcome has the form. -/
@[simp] def OutcomeWf : Host.Outcome State Fault Refusal → Prop
  | .next t => t.MemWf
  | .fault _ => True
  | .refused _ => True

theorem State.MemWf.takeTrap {s : State} (w : s.MemWf) (cause : Nat) (tval : Word) : OutcomeWf (s.takeTrap cause tval) := by
  unfold State.takeTrap
  dsimp only
  repeat' split
  all_goals exact w.of_mem (by simp)

/-- A step keeps the form. -/
def StepKeeps (f : State → Host.Outcome State Fault Refusal) : Prop := ∀ s : State, s.MemWf → OutcomeWf (f s)

theorem StepKeeps.outcome {m : M Unit} (h : M.Keeps m) : StepKeeps (M.outcome m) := by
  intro s w
  have hms := h s w
  unfold M.outcome
  cases hr : m s with
  | ok r =>
    rw [hr] at hms
    exact hms
  | error e =>
    rw [hr] at hms
    cases e with
    | trap c v => exact w.takeTrap c v
    | late t c v => exact State.MemWf.takeTrap hms c v
    | priv => exact State.MemWf.takeTrap (s := { s with freeIdx := s.freeIdx + 1 }) w _ _
    | hold f => exact hms s w
    | done t => exact hms

theorem StepKeeps.word {body : M Unit} (h : M.Keeps body) : StepKeeps (word body) :=
  .outcome (h.bind fun _ => .upd fun _ => by simp)

/-- A word whose program looks at the state it begins in. -/
theorem StepKeeps.wordAt {body : State → M Unit} (h : ∀ s, M.Keeps (body s)) : StepKeeps (fun s => Machine.word (body s) s) :=
  fun s w => StepKeeps.word (h s) s w

theorem StepKeeps.outcomeAt {body : State → M Unit} (h : ∀ s, M.Keeps (body s)) : StepKeeps (fun s => M.outcome (body s) s) :=
  fun s w => StepKeeps.outcome (h s) s w

/-- A step that ends in a next state. -/
theorem StepKeeps.next {f : State → State} (h : ∀ s : State, s.MemWf → (f s).MemWf) : StepKeeps (fun s => .next (f s)) := h

/-- A step that ends in a next state and leaves memory as it is. -/
theorem StepKeeps.nextMem {f : State → State} (h : ∀ s : State, (f s).mem = s.mem) : StepKeeps (fun s => .next (f s)) :=
  fun s w => State.MemWf.of_mem (s := s) w (h s)

end Sys2Proof.Machine
end

section
/-! The programs that words and engines share keep the canonical form of device memory. -/
namespace Sys2Proof.Machine

theorem keeps_drawM : M.Keeps drawM := fun _ w => w

theorem keeps_supervisorM {op fn : Nat} : M.Keeps (supervisorM op fn) := .read fun _ _ => .check

theorem keeps_nextOrder : M.Keeps nextOrder := fun _ w => w

theorem keeps_enterClass {k : WClass} : M.Keeps (enterClass k) := .read fun _ _ => .unlessHeld <| .upd (by simp)

theorem keeps_physTrap {α : Type} {e : PhysErr} {va : Word} : M.Keeps (physTrap e va : M α) := by
  unfold physTrap
  split
  exacts [.trap, .trap, .trap]

theorem keeps_sleepM {α : Type} {va : Word} {kind : FaultKind} : M.Keeps (sleepM va kind : M α) :=
  .holdWith fun s => by
    split
    · rfl
    · next h => exact (State.updMe_mem ..).trans (State.joinMiss_mem h)

theorem keeps_translateM {need : Need} {kind : FaultKind} {va : Word} : M.Keeps (translateM need kind va) :=
  .read fun s w => .trapIf <| by
    split
    next s' r h =>
      have hs : s'.MemWf := w.of_mem (congrArg (·.1.mem) h ▸ State.translate_mem ..)
      split
      exacts [keeps_physTrap, keeps_sleepM, .hold, .trapIf <| .bind (.updWf fun _ _ => hs) fun _ => .pure]

theorem keeps_footM {va : Word} {pa : Nat} {extra : List Nat} : M.Keeps (footM va pa extra) :=
  .read fun _ _ => by
    split
    exacts [.check, .pure]

theorem keeps_firmwareSpot {va : Word} {size : Nat} : M.Keeps (firmwareSpot va size) :=
  .read fun _ _ => .trapIf <| .trapIf <| .ite .pure (by
    split
    · exact .pure
    · split
      exacts [keeps_physTrap, .trapIf <| .pure])

theorem keeps_checkBytesM {kind : AccKind} {va : Word} {size : Nat} {extra : List Nat} {en : Nat → Bool} :
    M.Keeps (checkBytesM kind va size extra en) :=
  .read fun _ _ => .ite (.bind keeps_firmwareSpot fun _ => .trapIf <| .pure) (.trapIf <| .trapIf <| .ite (.trapIf <|
    .trapIf <| .pure) (.bind keeps_translateM fun _ => .read fun _ _ => by
    split
    · exact keeps_physTrap
    · exact .ite (.bind keeps_footM fun _ => .trapIf <| .trapIf <| .pure) (.trapIf <| .trapIf <| .pure)))

theorem keeps_checkM {kind : AccKind} {va : Word} {size : Nat} {extra : List Nat} : M.Keeps (checkM kind va size extra) :=
  keeps_checkBytesM

theorem keeps_loadSpot {p : Spot} {n : Nat} {hint : Hint} : M.Keeps (loadSpot p n hint) :=
  .read fun s w => by
    split
    · exact .pure
    · exact .pure
    · exact .bind (.upd (by simp)) fun _ => .pure
    · refine .unlessHeld ?_
      split
      · exact .hold
      · next h => exact .bind (.updWf fun _ _ => w.loadPlace h) fun _ => .pure

theorem keeps_conflictM {α : Type} : M.Keeps (conflictM : M α) :=
  .read fun s w => by
    have hs : (match s.me.run with
        | some r => s.updRun r (fun x => { x with conflicts := x.conflicts + 1 })
        | none => s).MemWf := by
      split
      · exact w.of_mem (State.updRun_mem ..)
      · exact w
    extract_lets s'
    split
    · exact .ite (.error (hs.of_mem (State.rollHandler_mem ..))) (.error (hs.of_mem (State.endAct_mem ..)))
    · exact .hold

theorem keeps_storeSpot {p : Spot} {va : Word} {bs : List Byte} {hint : Hint} : M.Keeps (storeSpot p va bs hint) :=
  .read fun s w => by
    split
    · exact .upd (by simp)
    · exact .upd (by simp)
    · exact .upd (by simp)
    · refine .unlessHeld ?_
      split
      · refine .ite ?_ (.upd (by simp))
        split
        · exact keeps_conflictM
        · next h => exact .updWf fun _ _ => (w.storeTent h).of_mem (by simp)
      · refine .ite (.upd (by simp)) ?_
        split
        · exact keeps_conflictM
        · next h => exact .updWf fun _ _ => (w.storePlace h).of_mem (by simp)
      · split
        · exact .hold
        · next h => exact .updWf fun _ _ => (w.storePlace h).of_mem (by simp)

theorem keeps_enterLoad {ps : List Spot} : M.Keeps (enterLoad ps) := .ite (.bind keeps_enterClass fun _ => .upd (by simp)) .pure

theorem keeps_enterStore {ps : List Spot} {sys : Bool} : M.Keeps (enterStore ps sys) :=
  .ite (.bind keeps_enterClass fun _ => .upd (by simp)) .pure

theorem keeps_loadM {va : Word} {n : Nat} {hint : Hint} : M.Keeps (loadM va n hint) :=
  .bind keeps_checkM fun _ => .bind keeps_enterLoad fun _ => keeps_loadSpot

theorem keeps_storeM {va : Word} {bs : List Byte} {hint : Hint} : M.Keeps (storeM va bs hint) :=
  .bind keeps_checkM fun _ => .bind keeps_enterStore fun _ => keeps_storeSpot

theorem keeps_unreadM {r : XReg} : M.Keeps (unreadM r) := by
  intro s w
  unfold unreadM
  split
  · exact fun _ w => w
  · split
    · exact w.of_mem (State.updMe_mem ..)
    · exact w

theorem keeps_xM {r : XReg} : M.Keeps (xM r) := .bind keeps_unreadM fun _ => .get

theorem keeps_setXM {r : XReg} {w : Word} : M.Keeps (setXM r w) := .upd (by simp)

theorem keeps_vM {r : VReg} : M.Keeps (vM r) := .get

theorem keeps_setVM {r : VReg} {w : VWord} : M.Keeps (setVM r w) := .upd (by simp)

theorem keeps_pM {r : PReg} : M.Keeps (pM r) := .get

theorem keeps_setPM {r : PReg} {w : Word} : M.Keeps (setPM r w) := .upd (by simp)

theorem keeps_hM {r : HReg} : M.Keeps (hM r) := .get

theorem keeps_setHM {r : HReg} {w : HWord} : M.Keeps (setHM r w) := .upd (by simp)

theorem keeps_flagsM {f : Flags} : M.Keeps (flagsM f) := .upd (by simp)

theorem keeps_cwinM {win : BitVec 3} {off : BitVec 17} {n : Nat} : M.Keeps (cwinM win off n) :=
  .read fun _ _ => by
    split
    exacts [.trapIf <| .trapIf <| .pure, .trap]

theorem keeps_bM {b : BSrc} : M.Keeps (bM b) := by
  unfold bM
  split
  exacts [keeps_xM, .bind keeps_cwinM fun _ => .pure]

theorem keeps_mmAddrM {a b : XReg} {e : BitVec 20} : M.Keeps (mmAddrM a b e) :=
  .bind keeps_xM fun _ => .bind keeps_xM fun _ => .pure

theorem keeps_boundedWait {α : Type} {what : WaitFor} {tval : Word} : M.Keeps (boundedWait what tval : M α) := by
  intro s w
  unfold boundedWait
  split
  · split
    · exact w.of_mem (State.withdraw_mem ..)
    · exact fun _ w => w
  · exact fun s w => w.of_mem (State.updMe_mem ..)

theorem keeps_seqM {x : XReg} : M.Keeps (seqM x) := .bind keeps_xM fun _ => .pure

theorem keeps_nameTileM {o : TileOpd} : M.Keeps (nameTileM o) := by
  unfold nameTileM
  split
  · exact .pure
  · exact .bind keeps_seqM fun _ => .read fun _ _ => by
      split
      exacts [.pure, .trap]

theorem keeps_consumeM {l : LitIx} {x : XReg} : M.Keeps (consumeM l x) :=
  .bind keeps_seqM fun _ => .bind keeps_nameTileM fun _ => .read fun _ _ => by
    split
    exacts [.pure, .trap, keeps_boundedWait]

theorem keeps_readyTileM {o : TileOpd} : M.Keeps (readyTileM o) := by
  unfold readyTileM
  split
  · exact keeps_consumeM
  · exact .read fun _ _ => by
      split
      exacts [.pure, .trap, .hold]

theorem keeps_storeRuns {p : Spot} {va : Word} {hint : Hint} (l : List (Nat × List Byte)) : M.Keeps (storeRuns p va hint l) := by
  induction l with
  | nil => exact .pure
  | cons r rest ih => exact .bind keeps_storeSpot fun _ => ih

theorem keeps_checkLanes {kind : AccKind} {n : Nat} (l : List (Nat × Word)) {extra : List Nat} :
    M.Keeps (checkLanes kind n l extra) := by
  induction l generalizing extra with
  | nil => exact .pure
  | cons r rest ih => exact .bind keeps_checkM fun _ => .read fun _ _ => .bind ih fun _ => .pure

theorem keeps_loadLanes {n : Nat} {hint : Hint} (l : List (Nat × Word × Spot)) : M.Keeps (loadLanes n hint l) := by
  induction l with
  | nil => exact .pure
  | cons r rest ih => exact .bind keeps_loadSpot fun _ => .bind ih fun _ => .pure

theorem keeps_storeLanes {n : Nat} {hint : Hint} {v : VWord} (l : List (Nat × Word × Spot)) : M.Keeps (storeLanes n hint v l) := by
  induction l with
  | nil => exact .pure
  | cons r rest ih => exact .bind keeps_storeSpot fun _ => ih

theorem keeps_readRegsM {a : Nat} (n : Nat) : M.Keeps (readRegsM a n) := by
  induction n with
  | zero => exact .pure
  | succ n ih => exact .bind ih fun _ => keeps_unreadM

theorem keeps_latePendM {p : PendTrap → Bool} : M.Keeps (latePendM p) :=
  .read fun _ _ => by
    split
    exacts [.late (by simp), .pure]

theorem keeps_clausePoisonM : M.Keeps clausePoisonM := .read fun _ _ => .ite (.late (by simp)) .pure

theorem keeps_clauseM : M.Keeps clauseM := .read fun _ _ => .privUnless <| .trapIf <| .bind keeps_clausePoisonM fun _ => .pure

theorem keeps_setClauseM {a : ClauseArray} : M.Keeps (setClauseM a) := .upd (by simp)

theorem keeps_engineSpot {e : EngineFor} {va : Word} {need : Need} {kind : FaultKind} : EM.Keeps (engineSpot e va need kind) :=
  .state fun s w => .failIf <| .ite (by
    split
    exacts [.stop, .failIf <| .pure]) (by
    split
    · exact .stop
    · exact .stop
    · exact .stop
    · next h =>
      refine .failIf <| .bind (.updE fun _ _ => w.of_mem (congrArg (·.1.mem) h ▸ State.translate_mem ..)) fun _ => ?_
      dsimp only
      split
      exacts [.stop, .failIf <| .pure])

theorem keeps_engineReadSpot {e : EngineFor} {va : Word} {p : Spot} {n : Nat} : EM.Keeps (engineReadSpot e va p n) :=
  .state fun s w => .failIf <| by
    split
    · exact .stop
    · next h => exact .bind (.updE fun _ _ => w.pullSpot h) fun _ => .pure

theorem keeps_engineReadLine {e : EngineFor} {kind : FaultKind} {va : Word} {n : Nat} : EM.Keeps (engineReadLine e kind va n) :=
  .bind keeps_engineSpot fun _ => keeps_engineReadSpot

theorem keeps_engineReadLines {e : EngineFor} {kind : FaultKind} (l : List (Nat × Nat)) : EM.Keeps (engineReadLines e kind l) := by
  induction l with
  | nil => exact .pure
  | cons r rest ih => exact .bind keeps_engineReadLine fun _ => .bind ih fun _ => .pure

theorem keeps_engineRead {e : EngineFor} {kind : FaultKind} {va : Word} {n : Nat} : EM.Keeps (engineRead e kind va n) :=
  keeps_engineReadLines _

theorem keeps_engineSpots {e : EngineFor} {need : Need} {kind : FaultKind} (l : List (Nat × Nat)) :
    EM.Keeps (engineSpots e need kind l) := by
  induction l with
  | nil => exact .pure
  | cons r rest ih => exact .bind keeps_engineSpot fun _ => .bind ih fun _ => .pure

theorem keeps_readPieces {e : EngineFor} (l : List Piece) : EM.Keeps (readPieces e l) := by
  induction l with
  | nil => exact .pure
  | cons p rest ih =>
    cases p with
    | mem va p n => exact .bind keeps_engineReadSpot fun _ => .bind ih fun _ => .pure
    | fill b => exact .bind ih fun _ => .pure

theorem keeps_engineWriteSpot {e : EngineFor} {va : Word} {p : Spot} {bs : List Byte} : EM.Keeps (engineWriteSpot e va p bs) := by
  have hstore (s : State) (w : s.MemWf) (x : EngineStop) : EM.Keeps (match s.engineStore e p bs with
      | none => stopE x
      | some s' => updE (fun _ => s')) := by
    split
    · exact .stop
    · next h => exact .updE fun _ _ => w.engineStore h
  refine .state fun s w => ?_
  split
  · refine .ite .stop (.ite (.ite ?_ (.updE fun _ v => v.of_mem (by simp))) (.ite (.updE fun _ v => v.of_mem (by simp)) ?_))
    · split
      · exact .stop
      · next h => exact .updE fun _ _ => (w.storeTent h).of_mem (by simp)
    · split
      · exact .stop
      · next h => exact .updE fun _ _ => (w.engineStore h).of_mem (by simp)
  · exact .ite .stop (hstore s w _)
  · exact hstore s w _

theorem keeps_engineFoot {e : EngineFor} {first va : Word} {p : Spot} : EM.Keeps (engineFoot e first va p) :=
  .state fun _ _ => by
    split
    · split
      exacts [.fail, .pure]
    · exact .pure

theorem keeps_engineWrite {e : EngineFor} {kind : FaultKind} {first va : Word} {bs : List Byte} :
    EM.Keeps (engineWrite e kind first va bs) :=
  .bind keeps_engineSpot fun _ => .bind keeps_engineFoot fun _ => keeps_engineWriteSpot

theorem keeps_writePieces {e : EngineFor} {kind : FaultKind} {first : Word} (l : List (Nat × Nat)) {bs : List Byte} :
    EM.Keeps (writePieces e kind first l bs) := by
  induction l generalizing bs with
  | nil => exact .pure
  | cons r rest ih => exact .bind keeps_engineWrite fun _ => ih

theorem keeps_writeSpots {e : EngineFor} {first : Word} (l : List (Word × Spot × Nat)) {bs : List Byte} :
    EM.Keeps (writeSpots e first l bs) := by
  induction l generalizing bs with
  | nil => exact .pure
  | cons r rest ih => exact .bind keeps_engineFoot fun _ => .bind keeps_engineWriteSpot fun _ => ih

theorem keeps_engineElem {e : EngineFor} {kind : FaultKind} {h : HWord} {is : List Nat} : EM.Keeps (engineElem e kind h is) :=
  .ite .pure (.bind keeps_engineRead fun _ => by
    split
    exacts [.pure, .stop, .pure, .stop])

theorem keeps_userM : M.Keeps userM := .read fun _ _ => .gate

theorem keeps_liveHandleM {h : HWord} : M.Keeps (liveHandleM h) := .check

theorem keeps_coordsM {h : HWord} {w : Word} : M.Keeps (coordsM h w) := .bind keeps_liveHandleM fun _ => .trapIf <| .pure

theorem keeps_mapByteM {va : Word} : M.Keeps (mapByteM va) :=
  .bind keeps_checkM fun _ => .read fun s w => by
    split
    · refine .unlessHeld ?_
      split
      · exact .hold
      · next h => exact .bind (.updWf fun _ _ => (w.pullPlace h).of_mem (by simp)) fun _ => .pure
    · exact .bind keeps_loadSpot fun _ => .pure

theorem keeps_elemM {h : HWord} {is : List Nat} : M.Keeps (elemM h is) :=
  .ite .pure (.bind keeps_mapByteM fun _ => by
    split
    exacts [.pure, .hold, .pure, .trap])

theorem keeps_fillHandleM {d : HReg} {h : HWord} : M.Keeps (fillHandleM d h) := by
  unfold fillHandleM
  split
  exacts [.trap, keeps_setHM]

theorem keeps_storeSpotsM (l : List (Nat × Nat)) : M.Keeps (storeSpotsM l) := by
  induction l with
  | nil => exact .pure
  | cons r rest ih => exact .bind keeps_checkM fun _ => .bind ih fun _ => .pure

theorem keeps_storeZerosM (l : List (Word × Spot × Nat)) : M.Keeps (storeZerosM l) := by
  induction l with
  | nil => exact .pure
  | cons r rest ih => exact .bind keeps_storeSpot fun _ => ih

theorem keeps_elemsM {h : HWord} {is : List Nat} (l : List Nat) : M.Keeps (elemsM h is l) := by
  induction l with
  | nil => exact .pure
  | cons j js ih => exact .bind keeps_elemM fun _ => .bind ih fun _ => .pure

theorem keeps_loadEvents {n : Nat} (fuel : Nat) (l : List (Nat × Word × Spot)) : M.Keeps (loadEvents n fuel l) := by
  induction fuel generalizing l with
  | zero => exact .pure
  | succ fuel ih =>
    cases l with
    | nil => exact .pure
    | cons r rest =>
      obtain ⟨j, va, p⟩ := r
      cases p with
      | phys q pa =>
        refine .read fun s w => .unlessHeld ?_
        split
        · exact .hold
        · next h => exact .bind (.updWf fun _ _ => w.loadLine h) fun _ => .bind (ih _) fun _ => .pure
      | scratch off | sram off | region vf off => exact .bind keeps_loadSpot fun _ => .bind (ih _) fun _ => .pure

theorem keeps_relayPlan {e : EngineFor} {h : HWord} (l : List (Nat × Option (List Nat))) : EM.Keeps (relayPlan e h l) := by
  induction l with
  | nil => exact .pure
  | cons r rest ih =>
    obtain ⟨off, is⟩ := r
    cases is with
    | some is => exact .bind (keeps_engineSpots _) fun _ => .bind (keeps_engineSpots _) fun _ => .bind ih fun _ => .pure
    | none => exact .bind .pure fun _ => .bind (keeps_engineSpots _) fun _ => .bind ih fun _ => .pure

theorem keeps_relayStart {e : EngineFor} {h : HWord} {b : Nat} : EM.Keeps (relayStart e h b) := by
  refine .bind (keeps_relayPlan _) fun units => .bind keeps_engineSpot fun mp => .state fun s _ => ?_
  extract_lets block tentative write go
  have hwrite (r : PUnit) : EM.Keeps (write r) := .bind keeps_engineWriteSpot fun _ => .pure
  have hgo (r : PUnit) : EM.Keeps (go r) := by
    dsimp only [go]
    split
    exacts [.bind .stop hwrite, hwrite ()]
  exact .ite (.bind .stop hgo) (hgo ())

theorem keeps_sideByte {e : EngineFor} {kind : FaultKind} {c : CopySide} {r x : Nat} : EM.Keeps (sideByte e kind c r x) := by
  unfold sideByte
  split
  exacts [.pure, .ite (.bind keeps_engineElem fun _ => .failIf <| .failIf <| .pure) .pure]

theorem keeps_planBytes {e : EngineFor} {kind : FaultKind} {c : CopySide} {h : HWord} {r x : Nat} (n : Nat) :
    EM.Keeps (planBytes e kind c h r x n) := by
  induction n generalizing x with
  | zero => exact .pure
  | succ n ih =>
    refine .bind (.bind keeps_sideByte fun _ => ?_) fun _ => .bind ih fun _ => .pure
    split
    exacts [.bind keeps_engineSpot fun _ => .pure, .pure]

theorem keeps_planSide {e : EngineFor} {kind : FaultKind} {c : CopySide} {r x n : Nat} : EM.Keeps (planSide e kind c r x n) := by
  unfold planSide
  split
  exacts [.bind (keeps_engineSpots _) fun _ => .pure, keeps_planBytes _]

theorem keeps_sideAddrs {e : EngineFor} {kind : FaultKind} {c : CopySide} {r x : Nat} (n : Nat) :
    EM.Keeps (sideAddrs e kind c r x n) := by
  induction n generalizing x with
  | zero => exact .pure
  | succ n ih => exact .bind keeps_sideByte fun _ => .bind ih fun _ => .pure

theorem keeps_planParts {e : EngineFor} {kind : FaultKind} {c : CopySide} (l : List (Nat × Nat × Nat)) :
    EM.Keeps (planParts e kind c l) := by
  induction l with
  | nil => exact .pure
  | cons r rest ih => exact .bind keeps_planSide fun _ => .bind ih fun _ => .pure

theorem keeps_partAddrs {e : EngineFor} {kind : FaultKind} {c : CopySide} (l : List (Nat × Nat × Nat)) :
    EM.Keeps (partAddrs e kind c l) := by
  induction l with
  | nil => exact .pure
  | cons r rest ih => exact .bind (keeps_sideAddrs _) fun _ => .bind ih fun _ => .pure

theorem keeps_targetRuns {e : EngineFor} {kind : FaultKind} (l : List (Word × Nat)) : EM.Keeps (targetRuns e kind l) := by
  induction l with
  | nil => exact .pure
  | cons r rest ih => exact .bind (keeps_engineSpots _) fun _ => .bind ih fun _ => .pure

theorem keeps_handleSideM {f : Shadow} : M.Keeps (handleSideM f) :=
  .ite (.bind keeps_hM fun _ => .bind keeps_liveHandleM fun _ => by
    split
    exacts [.trap, .pure]) .pure

theorem keeps_copySegmentE {e : EngineFor} {c : CopyOp} : EM.Keeps (copySegmentE e c) := by
  unfold copySegmentE
  extract_lets f src dst
  split
  refine .state fun s _ => ?_
  extract_lets froms need plan
  have hplan (r : PUnit) : EM.Keeps (plan r) := by
    refine .bind (keeps_partAddrs _) fun dests => .bind (keeps_planParts _) fun pieces => .bind (keeps_targetRuns _) fun spots =>
      .state fun s _ => ?_
    extract_lets move
    have hmove (r : PUnit) : EM.Keeps (move r) := .bind (keeps_readPieces _) fun _ => .bind (keeps_writeSpots _) fun _ => .pure
    exact .ite (.bind .stop hmove) (hmove ())
  exact .ite (.bind .stop hplan) (hplan ())

theorem keeps_mcLinesM {va : Word} {i : Nat} (n : Nat) : M.Keeps (mcLinesM va i n) := by
  induction n generalizing i with
  | zero => exact .pure
  | succ n ih =>
    refine .bind keeps_checkM fun _ => .read fun _ _ => .bind ih fun _ => ?_
    split
    exacts [.pure, .pure]

theorem keeps_gotoM {target : Word} : M.Keeps (gotoM target) := .trapIf <| .upd (by simp)

theorem keeps_jumpM {target : Word} : M.Keeps (jumpM target) := .trapIf <| keeps_gotoM

theorem keeps_fetchHomeM {p : Place} {pa : Nat} : M.Keeps (fetchHomeM p pa) :=
  .read fun s w => .unlessHeld <| by
    split
    · exact .hold
    · next h => exact .bind (.updWf fun _ _ => w.pullPlace h) fun _ => .pure

theorem keeps_fetchM {va : Word} : M.Keeps (fetchM va) :=
  .read fun _ _ => .ite (.bind keeps_firmwareSpot fun _ => by
    split
    exacts [.pure, .trapIf <| keeps_fetchHomeM, .trap, .trap]) (.trapIf <| .trapIf <| .bind keeps_translateM fun _ =>
      .read fun _ _ => by
    split
    exacts [keeps_physTrap, .trapIf <| .trapIf <| keeps_fetchHomeM])

theorem keeps_eccM {α : Type} : M.Keeps (eccM : M α) := .late (by simp)

theorem keeps_nextWordM : M.Keeps nextWordM :=
  .read fun _ _ => .ite keeps_eccM (by
    split
    exacts [.pure, keeps_fetchM])

theorem keeps_fetchBody {pc : Word} (n : Nat) {i : Nat} : M.Keeps (fetchBody pc n i) := by
  induction n generalizing i with
  | zero => exact .pure
  | succ n ih => exact .bind keeps_fetchM fun _ => .bind ih fun _ => .pure

theorem keeps_feRead {vf : Nat} {kind : FaultKind} {va : Word} {n : Nat} : EM.Keeps (feRead vf kind va n) := keeps_engineRead

theorem keeps_reactM {handlers : Bool} : M.Keeps (reactM handlers) :=
  .read fun _ _ => .privUnless <| by
    split
    exacts [.pure, .priv]

theorem keeps_scanM {v : Word} : M.Keeps (scanM v) :=
  .read fun _ _ => by
    split
    · exact .ite .pure (.bind (.ite .pure (by
        split
        · exact .pure
        · split
          exacts [.pure, .ite .hold .pure])) fun _ => .bind (.upd (by simp)) fun _ => .pure)
    · exact .pure

theorem keeps_posM {f : State → Run → Word} : M.Keeps (posM f) :=
  .read fun _ _ => .ite keeps_drawM (by
    split
    exacts [.pure, .pure])

theorem keeps_readSr {sr : SysReg} : M.Keeps (readSr sr) :=
  .read fun s _ => by
    cases sr with
    | actid => exact .ite keeps_drawM .pure
    | runid | rank | nrank | core | cluster | cluflags | packflags | lsplit | vgroup => exact keeps_posM
    | _ => exact .pure

theorem keeps_accessM {sr : SysReg} {write : Bool} : M.Keeps (accessM sr write) := .read fun _ _ => .check

theorem keeps_putM {sr : SysReg} {a : XReg} : M.Keeps (putM sr a) :=
  .bind keeps_accessM fun _ => .bind keeps_xM fun _ => .trapIf <| .pure

theorem keeps_diectlM {w : Word} : M.Keeps (diectlM w) :=
  .read fun _ _ => .ite (.trapIf <| .upd (by simp)) (.ite .pure (.upd (by simp)))

theorem keeps_takeEntryM {e : SendEntry} {full : Word} : M.Keeps (takeEntryM e full) :=
  .read fun _ _ => .ite (.ite .trap .hold) (.upd (by simp))

theorem keeps_entryM {c : XReg} : M.Keeps (entryM c) := .bind keeps_xM fun _ => .read fun _ _ => .trapIf <| .trapIf <| .pure

theorem keeps_amoCheckM {va : Word} {size : Nat} : M.Keeps (amoCheckM va size) :=
  .trapIf <| .trapIf <| .trapIf <| .bind keeps_translateM fun _ => .read fun _ _ => by
    split
    exacts [keeps_physTrap, .trapIf <| .trapIf <| .pure]

theorem keeps_rulesE {h : Hub} {x : Run} {img : Img} : EM.Keeps (rulesE h x img) :=
  .bind (.ite keeps_feRead .pure) fun _ => .ite .pure (.bind (.ite (.bind keeps_feRead fun _ => .pure) .pure) fun _ => .pure)

theorem keeps_tilesE {x : Run} {n : Nat} : EM.Keeps (tilesE x n) := .bind (.ite .pure keeps_feRead) fun _ => .pure

theorem keeps_loadWindows {vf : Nat} {img : Img} {mask : Nat} (l : List Nat) : EM.Keeps (loadWindows vf img mask l) := by
  induction l with
  | nil => exact .pure
  | cons n ns ih => exact .bind ih fun _ => .ite (.bind keeps_feRead fun _ => .pure) .pure

theorem keeps_imageE {vf : Nat} {img : Img} (l : List Nat) : EM.Keeps (imageE vf img l) := by
  induction l with
  | nil => exact .pure
  | cons a rest ih => exact .bind (.ite keeps_feRead .pure) fun _ => ih

theorem keeps_loadE {x : Run} : EM.Keeps (loadE x) := .bind (keeps_imageE _) fun _ => keeps_loadWindows _

theorem keeps_replaceE {h : Hub} {x : Run} {img : Img} : EM.Keeps (replaceE h x img) := .bind keeps_feRead fun _ => .pure

theorem keeps_boxM {hr : HReg} {b : XReg} : M.Keeps (boxM hr b) :=
  .bind keeps_hM fun _ => .bind keeps_xM fun _ => .bind keeps_coordsM fun _ => by
    split
    exacts [.trap, .pure]

theorem keeps_boxFitsM {h : HWord} {n : TileIx} : M.Keeps (boxFitsM h n) := .read fun _ _ => .check

theorem keeps_opdTvalM {o : TileOpd} {n : TileIx} : M.Keeps (opdTvalM o n) := by
  unfold opdTvalM
  split
  exacts [.pure, .bind keeps_seqM fun _ => .pure]

theorem keeps_startMoveM {drain : Bool} {n : TileIx} {h : HWord} {is : List Nat} : M.Keeps (startMoveM drain n h is) :=
  .bind keeps_enterClass fun _ => .bind keeps_nextOrder fun _ => .read fun _ _ => .upd (by simp)

theorem keeps_fillSegmentE {e : EngineFor} {c : Nat} {d : Word} {m : MoveOp} : EM.Keeps (fillSegmentE e c d m) := by
  refine .state fun s _ => ?_
  extract_lets parts need fill
  have hfill (r : PUnit) : EM.Keeps (fill r) :=
    .bind (keeps_planParts _) fun _ => .bind (keeps_readPieces _) fun _ => .bind (.updE fun _ w => w) fun _ => .pure
  exact .ite (.bind .stop hfill) (hfill ())

theorem keeps_drainSegmentE {e : EngineFor} {c : Nat} {d : Word} {m : MoveOp} : EM.Keeps (drainSegmentE e c d m) :=
  .state fun _ _ => .bind (keeps_partAddrs _) fun _ => .bind (keeps_targetRuns _) fun _ => .failIf <| keeps_writeSpots _

theorem keeps_moveSegmentE {e : EngineFor} {c : Nat} {d : Word} {m : MoveOp} : EM.Keeps (moveSegmentE e c d m) :=
  .ite (.bind keeps_drainSegmentE fun _ => .pure) keeps_fillSegmentE

theorem keeps_relaysE {vf r : Nat} (l : List (List Byte)) : EM.Keeps (relaysE vf r l) := by
  induction l with
  | nil => exact .pure
  | cons b bs ih => exact .bind ih fun _ => .ite .pure (.bind (.ite keeps_feRead .pure) fun _ => .pure)

theorem keeps_allRelaysE {vf r : Nat} (l : List (List Byte)) : EM.Keeps (allRelaysE vf r l) := by
  induction l with
  | nil => exact .pure
  | cons c cs ih => exact .bind (keeps_relaysE _) fun _ => .bind ih fun _ => .pure

theorem keeps_resumeE {x : Run} {r : Nat} : EM.Keeps (resumeE x r) :=
  .bind (keeps_imageE _) fun _ => .bind keeps_feRead fun _ => .bind (.ite (keeps_allRelaysE _) .pure) fun _ => .pure

theorem keeps_fpResultM {d : XReg} {r : FRes} : M.Keeps (fpResultM d r) := .bind keeps_setXM fun _ => keeps_flagsM

theorem keeps_arrayM : M.Keeps arrayM := .read fun _ _ => .privUnless <| .check

theorem keeps_holderM : M.Keeps holderM :=
  .read fun _ _ => .ite (.ite (.ite (.holdWith (by simp)) (.upd (by simp))) .pure)
    (.ite (.ite (.upd (by simp)) keeps_boundedWait) .trap)

theorem keeps_blockErrM : M.Keeps blockErrM := .read fun _ _ => .ite (.late (by simp)) .pure

theorem keeps_countMatrixM : M.Keeps countMatrixM := .upd (by simp)

theorem keeps_poisonM {o : Option Word} : M.Keeps (poisonM o) := by
  unfold poisonM
  split
  exacts [.trap, .pure]

theorem keeps_matrixM {mam : Bool} {o : MatOp} : M.Keeps (matrixM mam o) := by
  refine .bind keeps_arrayM fun _ => .bind keeps_holderM fun _ => .bind keeps_readyTileM fun a => .bind keeps_readyTileM fun b => ?_
  extract_lets scaled size block
  have hblock (r : PUnit) : M.Keeps (block r) :=
    .read fun _ _ => .trapIf <| .trapIf <| .trapIf <| .trapIf <| .bind keeps_blockErrM fun _ => .bind keeps_poisonM fun _ =>
      .bind keeps_poisonM fun _ => .bind keeps_xM fun _ => .bind (.upd (by simp)) fun _ =>
      .bind (.upd (by simp)) fun _ => .bind keeps_flagsM fun _ =>
      keeps_countMatrixM
  exact .ite (.bind keeps_readyTileM fun _ => hblock ()) (hblock ())

theorem keeps_closeM : M.Keeps closeM := .upd (by simp)

theorem keeps_slotPoisonM : M.Keeps slotPoisonM := .read fun _ _ => keeps_poisonM

theorem keeps_lanesM {d : VReg} {p : PReg} {n : Nat} {f : Nat → FRes} : M.Keeps (lanesM d p n f) :=
  .bind keeps_pM fun _ => .bind keeps_vM fun _ => .bind keeps_setVM fun _ => keeps_flagsM

end Sys2Proof.Machine
end

section
/-! Every word keeps the canonical form of device memory. -/
namespace Sys2Proof.Machine

theorem keeps_scalarBin (o : ScalarRR) (f : (w : Nat) → BitVec w → BitVec w → BitVec w) : StepKeeps (scalarBin o f) :=
  .word <| .bind keeps_xM fun _ => .bind keeps_bM fun _ => keeps_setXM

theorem keeps_scalarImm (o : ScalarRI) (f : (w : Nat) → BitVec w → BitVec w → BitVec w) : StepKeeps (scalarImm o f) :=
  .word <| .bind keeps_xM fun _ => keeps_setXM

theorem keeps_shiftImm (o : ShiftRI) (f : (w : Nat) → BitVec w → BitVec w → BitVec w) : StepKeeps (shiftImm o f) :=
  .word <| .bind keeps_xM fun _ => keeps_setXM

theorem keeps_arith (o : ArithRR) (f : (w : Nat) → BitVec w → BitVec w → BitVec w) (g : Int → Int → Int) :
    StepKeeps (arith o f g) :=
  .word <| .bind keeps_xM fun _ => .bind keeps_bM fun _ => .ite (.bind keeps_setXM fun _ => keeps_flagsM) keeps_setXM

theorem keeps_division (o : ScalarRR) (f : (w : Nat) → BitVec w → BitVec w → BitVec w) : StepKeeps (division o f) :=
  .word <| .bind keeps_xM fun _ => .bind keeps_bM fun _ => .bind keeps_setXM fun _ => keeps_flagsM

theorem keeps_fpBin (o : FpBin) (f : FFormat → Rm → Bool → FVal → FVal → FRes) : StepKeeps (fpBin o f) :=
  .word <| .read fun _ _ => .bind keeps_xM fun _ => .bind keeps_bM fun _ => keeps_fpResultM

theorem keeps_fpMinMax (o : FpMinMax) (isMax : Bool) : StepKeeps (fpMinMax o isMax) :=
  .word <| .read fun _ _ => .bind keeps_xM fun _ => .bind keeps_bM fun _ => keeps_fpResultM

theorem keeps_vecBin (o : VBin) (f : Nat → Nat → FRes) : StepKeeps (vecBin o f) :=
  .word <| .bind keeps_vM fun _ => .bind keeps_vM fun _ => keeps_lanesM

theorem keeps_vecArith (o : VBinSat) (f : Int → Int → Int) : StepKeeps (vecArith o f) :=
  .word <| .bind keeps_vM fun _ => .bind keeps_vM fun _ => keeps_lanesM

theorem keeps_vecInt (o : VBin) (f : Int → Int → Int) : StepKeeps (vecInt o f) := fun s => keeps_vecBin o _ s

theorem keeps_vecBits (o : VBin) (f : (w : Nat) → BitVec w → BitVec w → BitVec w) : StepKeeps (vecBits o f) := by
  intro s
  unfold vecBits
  exact keeps_vecBin o _ s

theorem keeps_vecFloat (o : VFBin) (f : FFormat → Rm → Bool → FVal → FVal → FVal → FRes) : StepKeeps (vecFloat o f) :=
  .word <| .read fun _ _ => .bind keeps_vM fun _ => .bind keeps_vM fun _ => .bind keeps_vM fun _ => keeps_lanesM

theorem keeps_vecMinMax (o : VBin) (isMax : Bool) : StepKeeps (vecMinMax o isMax) := fun s => keeps_vecBin o _ s

theorem keeps_vecUn (o : VUn) (f : Nat → FRes) : StepKeeps (vecUn o f) := .word <| .bind keeps_vM fun _ => keeps_lanesM

theorem keeps_vecCmp (o : VCmp) (f : Nat → Nat → Bool × Flags) : StepKeeps (vecCmp o f) :=
  .word <| .bind keeps_vM fun _ => .bind keeps_vM fun _ => .bind keeps_pM fun _ => .bind keeps_setPM fun _ => keeps_flagsM

theorem keeps_amo (kind : AmoKind) (o : AmoOp) : StepKeeps (amo kind o) :=
  .word <| .bind keeps_userM fun _ => .bind keeps_xM fun _ => .bind keeps_amoCheckM fun _ => .bind keeps_xM fun _ =>
    .bind (.ite keeps_xM .pure) fun _ => .read fun _ _ => by
    split
    exacts [.trapIf <| .upd (by simp), .bind keeps_enterClass fun _ => .upd (by simp)]

theorem keeps_scalarUnary (o : UnaryRR) (f : (w : Nat) → BitVec w → BitVec w) : StepKeeps (scalarUnary o f) :=
  .word <| .bind keeps_xM fun _ => keeps_setXM

theorem keeps_execSel (d a b c : XReg) : StepKeeps (execSel d a b c) :=
  .word <| .bind keeps_xM fun _ => .bind keeps_xM fun _ => .bind keeps_xM fun _ => keeps_setXM

theorem keeps_execBfx (o : BFieldRI) (sx : Bool) : StepKeeps (execBfx o sx) := .word <| .bind keeps_xM fun _ => keeps_setXM

theorem keeps_execBfi (o : BFieldRI) : StepKeeps (execBfi o) :=
  .word <| .bind keeps_xM fun _ => .bind keeps_xM fun _ => keeps_setXM

theorem keeps_execLi (d : XReg) (imm : BitVec 32) : StepKeeps (execLi d imm) := .word <| keeps_setXM

theorem keeps_execLih (d : XReg) (imm : BitVec 32) : StepKeeps (execLih d imm) := .word <| .bind keeps_xM fun _ => keeps_setXM

theorem keeps_execFsqrt (d a : XReg) (fmt : FpFmt) (rnd : RndSel) : StepKeeps (execFsqrt d a fmt rnd) :=
  .word <| .read fun _ _ => .bind keeps_xM fun _ => keeps_fpResultM

theorem keeps_execFfma (o : FpFma) : StepKeeps (execFfma o) :=
  .word <| .read fun _ _ => .bind keeps_xM fun _ => .bind keeps_bM fun _ => .bind keeps_xM fun _ => keeps_fpResultM

theorem keeps_execFcmp (d a b : XReg) (fmt : FpFmt) (rel : Rel) : StepKeeps (execFcmp d a b fmt rel) :=
  .word <| .read fun _ _ => .bind keeps_xM fun _ => .bind keeps_xM fun _ => .bind keeps_setXM fun _ => keeps_flagsM

theorem keeps_execFclass (d a : XReg) (fmt : FpFmt) : StepKeeps (execFclass d a fmt) :=
  .word <| .bind keeps_xM fun _ => keeps_setXM

theorem keeps_execFcvt (o : FpCvt) : StepKeeps (execFcvt o) :=
  .word <| .read fun _ _ => .bind keeps_xM fun _ => .bind keeps_setXM fun _ => keeps_flagsM

theorem keeps_execFmv (d a : XReg) (fmt : FpFmt) : StepKeeps (execFmv d a fmt) := .word <| .bind keeps_xM fun _ => keeps_setXM

theorem keeps_execBCond (c : Cond) (a b : XReg) (_h : BrHint) (off : BitVec 32) : StepKeeps (execBCond c a b _h off) :=
  .outcome <| .bind keeps_xM fun _ => .bind keeps_xM fun _ => .read fun _ _ => .ite keeps_gotoM (.upd (by simp))

theorem keeps_execCall (a : XReg) (_h : BrHint) (off : BitVec 32) : StepKeeps (execCall a _h off) :=
  .outcome <| .read fun _ _ => .bind keeps_setXM fun _ => keeps_gotoM

theorem keeps_execLoop (a : XReg) (_h : BrHint) (off : BitVec 32) : StepKeeps (execLoop a _h off) :=
  .outcome <| .read fun _ _ => .bind keeps_xM fun _ => .bind keeps_setXM fun _ => .ite keeps_gotoM (.upd (by simp))

theorem keeps_execCallr (d a : XReg) : StepKeeps (execCallr d a) :=
  .outcome <| .read fun _ _ => .bind keeps_xM fun _ => .bind keeps_setXM fun _ => keeps_jumpM

theorem keeps_execJr (a : XReg) : StepKeeps (execJr a) := .outcome <| .bind keeps_xM fun _ => keeps_jumpM

theorem keeps_execRet (a : XReg) : StepKeeps (execRet a) := .outcome <| .bind keeps_xM fun _ => keeps_jumpM

theorem keeps_execVabs (o : VUnSat) : StepKeeps (execVabs o) := .word <| .bind keeps_vM fun _ => keeps_lanesM

theorem keeps_execVsel (o : VByteSel) : StepKeeps (execVsel o) :=
  .word <| .bind keeps_vM fun _ => .bind keeps_vM fun _ => .bind keeps_pM fun _ => keeps_setVM

theorem keeps_execVperm (o : VByteSel) : StepKeeps (execVperm o) :=
  .word <| .bind keeps_vM fun _ => .bind keeps_vM fun _ => keeps_lanesM

theorem keeps_execVlut (o : VBin) : StepKeeps (execVlut o) := .word <| .read fun _ _ => .bind keeps_vM fun _ => keeps_lanesM

theorem keeps_execVsplat (o : VSplat) : StepKeeps (execVsplat o) := .word <| .bind keeps_xM fun _ => keeps_lanesM

theorem keeps_execVins (d : VReg) (a : XReg) (ty : ElemType) (lane : BitVec 6) : StepKeeps (execVins d a ty lane) :=
  .word <| .bind keeps_xM fun _ => .bind keeps_vM fun _ => keeps_setVM

theorem keeps_execVext (d : XReg) (a : VReg) (ty : ElemType) (lane : BitVec 6) : StepKeeps (execVext d a ty lane) :=
  .word <| .bind keeps_vM fun _ => keeps_setXM

theorem keeps_execVcvt (o : VCvt) : StepKeeps (execVcvt o) :=
  .word <| .read fun _ _ => .bind keeps_vM fun _ => .bind keeps_pM fun _ => .bind keeps_vM fun _ => by
    split
    exact .bind keeps_setVM fun _ => keeps_flagsM

theorem keeps_execVdot (o : VDot) : StepKeeps (execVdot o) :=
  .word <| .read fun _ _ => .bind keeps_vM fun _ => .bind keeps_vM fun _ => .bind keeps_vM fun _ => keeps_lanesM

theorem keeps_execVred (o : VRed) : StepKeeps (execVred o) :=
  .word <| .read fun _ _ => .bind keeps_vM fun _ => .bind keeps_pM fun _ => .bind keeps_setXM fun _ => keeps_flagsM

theorem keeps_execVscan (o : VScan) : StepKeeps (execVscan o) :=
  .word <| .read fun _ _ => .bind keeps_vM fun _ => .bind keeps_pM fun _ => .bind keeps_setVM fun _ => keeps_flagsM

theorem keeps_execPlog (op : PlogOp) (d a b : PReg) : StepKeeps (execPlog op d a b) :=
  .word <| .bind keeps_pM fun _ => .bind keeps_pM fun _ => keeps_setPM

theorem keeps_execPcnt (d : XReg) (a : PReg) (ty : ElemType) : StepKeeps (execPcnt d a ty) :=
  .word <| .bind keeps_pM fun _ => keeps_setXM

theorem keeps_execRep (nm1 : BitVec 8) (lm1 : BitVec 3) (stride : BitVec 5) : StepKeeps (execRep nm1 lm1 stride) :=
  .outcome <| .read fun _ _ => .bind (keeps_fetchBody _) fun _ => by
    split
    exacts [.trap, .upd (by simp)]

theorem keeps_execLd (o : LoadOp) : StepKeeps (execLd o) :=
  .word <| .bind keeps_mmAddrM fun _ => .bind keeps_loadM fun _ => keeps_setXM

theorem keeps_execSt (o : StoreOp) : StepKeeps (execSt o) :=
  .word <| .bind keeps_mmAddrM fun _ => .bind keeps_xM fun _ => keeps_storeM

theorem keeps_execVld (o : VMemOp) : StepKeeps (execVld o) :=
  .word <| .bind keeps_mmAddrM fun _ => .bind keeps_pM fun _ => .bind keeps_checkBytesM fun _ =>
    .bind keeps_enterLoad fun _ => .bind keeps_loadSpot fun _ => keeps_setVM

theorem keeps_execVst (o : VMemOp) : StepKeeps (execVst o) :=
  .word <| .bind keeps_mmAddrM fun _ => .bind keeps_pM fun _ => .bind keeps_vM fun _ => .bind keeps_checkM fun _ =>
    .bind keeps_enterStore fun _ => (keeps_storeRuns _)

theorem keeps_execVgat (o : VGatherOp) : StepKeeps (execVgat o) :=
  .word <| .bind keeps_xM fun _ => .bind keeps_vM fun _ => .bind keeps_pM fun _ => .bind (keeps_checkLanes _) fun _ =>
    .bind keeps_enterLoad fun _ => .bind (keeps_loadLanes _) fun _ => keeps_setVM

theorem keeps_execVsca (o : VGatherOp) : StepKeeps (execVsca o) :=
  .word <| .bind keeps_xM fun _ => .bind keeps_vM fun _ => .bind keeps_pM fun _ => .bind keeps_vM fun _ =>
    .bind (keeps_checkLanes _) fun _ => .bind keeps_enterStore fun _ => (keeps_storeLanes _)

theorem keeps_execLdk (d : XReg) (win : BitVec 3) (off : BitVec 17) (size : Size) (sx : Bool) :
    StepKeeps (execLdk d win off size sx) :=
  .word <| .trapIf <| .bind keeps_cwinM fun _ => keeps_setXM

theorem keeps_execPushm (bank : Bool) (a b : BitVec 5) : StepKeeps (execPushm bank a b) :=
  .word <| .read fun _ _ => .trapIf <| .trapIf <| .ite (.bind keeps_storeSpot fun _ =>
    .upd (by simp)) (.bind (keeps_readRegsM _) fun _ => .bind keeps_storeSpot fun _ => .upd (by simp))

theorem keeps_execPopm (bank : Bool) (a b : BitVec 5) : StepKeeps (execPopm bank a b) :=
  .word <| .read fun _ _ => .trapIf <| .trapIf <| .trapIf <| .upd (by simp)

theorem keeps_execPref (o : PrefOp) : StepKeeps (execPref o) :=
  .word <| .bind keeps_mmAddrM fun _ => .read fun s w => .ite .pure <| .trapIf <| .ite .pure <| by
    dsimp only
    split
    · next s' e h =>
      have hs : s'.MemWf := w.of_mem (congrArg (·.1.mem) h ▸ State.translate_mem ..)
      split
      exacts [.ite (.updWf fun _ _ => hs.prefetch ..) .pure, .pure]
    · exact .pure

theorem keeps_execCflush (a b : XReg) (e : BitVec 20) : StepKeeps (execCflush a b e) :=
  .word <| .bind keeps_mmAddrM fun _ => .read fun _ _ => .bind keeps_checkM fun _ => .bind keeps_enterStore fun _ => by
    split
    exacts [.unlessHeld <| .bind (.upd (by simp)) fun _ => .ite (.updWf fun _ w => w.writeBack _) .pure, .pure]

theorem keeps_execSend (o : SendOp) : StepKeeps (execSend o) :=
  .wordAt fun _ => .privUnless <| .bind keeps_xM fun _ => .read fun _ _ => by
    split
    · exact .priv
    · refine .trapIf <| .bind (.ite (.trapIf .pure) (.bind keeps_entryM fun _ => .pure)) fun _ => .trapIf <| .trapIf <|
        .bind ?_ fun _ => .ite (.bind keeps_enterClass fun _ => .bind keeps_takeEntryM fun _ => .upd (by simp))
          (.bind keeps_takeEntryM fun _ => .upd (by simp))
      split
      exacts [.bind keeps_vM fun _ => .pure, .pure]

theorem keeps_execRecv (d : XReg) (b : VReg) : StepKeeps (execRecv d b) :=
  .word <| .bind keeps_userM fun _ => .read fun _ _ => by
    split
    exacts [keeps_boundedWait, .bind (.upd (by simp)) fun _ => .bind keeps_setXM fun _ => keeps_setVM]

theorem keeps_execSqstat (d : XReg) : StepKeeps (execSqstat d) := .wordAt fun _ => .privUnless <| .read fun _ _ => keeps_setXM

theorem keeps_execDep (a b : XReg) (target : DepTarget) : StepKeeps (execDep a b target) :=
  .wordAt fun _ => .privUnless <| .bind keeps_xM fun _ => .bind keeps_xM fun _ => by
    split
    exacts [.priv, .trapIf <| .trapIf <| .bind keeps_enterClass fun _ => .bind keeps_takeEntryM fun _ => .upd (by simp)]

theorem keeps_execWait (ld st cp tl ms : BitVec 6) : StepKeeps (execWait ld st cp tl ms) :=
  .word <| .read fun _ _ => .unlessHeld <| .bind keeps_latePendM fun _ => .upd (by simp)

theorem keeps_execFence (sc : Scope) : StepKeeps (execFence sc) :=
  .word <| .read fun _ _ => .unlessHeld <| .bind keeps_latePendM fun _ => .upd (by simp)

theorem keeps_execBexp (n : BarIx) (a : XReg) : StepKeeps (execBexp n a) :=
  .word <| .read fun _ _ => .privUnless <| .bind keeps_xM fun _ => .trapIf <| .upd (by simp)

theorem keeps_execBwait (n : BarIx) : StepKeeps (execBwait n) :=
  .word <| .read fun _ _ => .privUnless <| .trapIf <| .trapIf <| .ite (.upd (by simp)) keeps_boundedWait

theorem keeps_execBpoll (d : XReg) (n : BarIx) : StepKeeps (execBpoll d n) := .word <| .read fun _ _ => .privUnless <| keeps_setXM

theorem keeps_execCpset (fld : BitVec 3) (a : XReg) : StepKeeps (execCpset fld a) :=
  .word <| .bind keeps_userM fun _ => .bind keeps_xM fun _ => .upd (by simp)

theorem keeps_execCpgo (d : XReg) : StepKeeps (execCpgo d) := by
  refine .word <| .bind keeps_userM fun _ => .read fun me _ => ?_
  extract_lets f n start
  have hstart (r : PUnit) : M.Keeps (start r) := by
    refine .trapIf <| .trapIf <| .bind keeps_handleSideM fun _ => .read fun _ _ => ?_
    extract_lets scratch bad go
    have hgo (r : PUnit) : M.Keeps (go r) :=
      .bind keeps_setXM fun _ => .ite (.upd (by simp)) <| .bind keeps_enterClass fun _ => .bind keeps_nextOrder fun _ =>
        .bind (.upd (by simp)) fun _ => .upd (by simp)
    clear_value bad
    cases bad with
    | some _ => exact .bind .trap hgo
    | none => exact hgo ()
  split
  exacts [.bind .trap hstart, hstart ()]

theorem keeps_execCpst (d a : XReg) : StepKeeps (execCpst d a) :=
  .word <| .bind keeps_userM fun _ => .bind keeps_xM fun _ => .read fun _ _ => keeps_setXM

theorem keeps_execMcrd (a b : XReg) (barn : BarIx) (lines : BitVec 8) : StepKeeps (execMcrd a b barn lines) :=
  .word <| .bind keeps_userM fun _ => .bind keeps_xM fun _ => .bind keeps_xM fun _ => .ite .pure (.trapIf <| .trapIf <|
    .read fun _ _ => by
    split
    · exact .priv
    · exact .trapIf <| .trapIf <| .bind (keeps_mcLinesM _) fun _ => .bind keeps_enterClass fun _ => .upd (by simp))

theorem keeps_execTdef (n : TileIx) (a : XReg) : StepKeeps (execTdef n a) :=
  .word <| .bind keeps_userM fun _ => .bind keeps_xM fun _ => .read fun _ _ => .trapIf <| .trapIf <| .bind (.upd (by simp)) fun _ =>
    .bind (.upd (by simp)) fun _ => .ite (.upd (by simp)) .pure

theorem keeps_execTfill (o : TileOpd) (hr : HReg) (b : XReg) : StepKeeps (execTfill o hr b) :=
  .word <| .bind keeps_userM fun _ => .bind keeps_boxM fun _ => by
    split
    exact .bind keeps_nameTileM fun _ => .bind keeps_boxFitsM fun _ => .read fun _ _ => .bind keeps_opdTvalM fun _ =>
      .ite keeps_boundedWait (.bind (by
    split
    exacts [keeps_seqM, .pure]) fun _ => .bind (.upd (by simp)) fun _ => keeps_startMoveM)

theorem keeps_execTdrain (o : TileOpd) (hr : HReg) (b : XReg) : StepKeeps (execTdrain o hr b) :=
  .word <| .bind keeps_userM fun _ => .bind keeps_boxM fun _ => by
    split
    exact .bind keeps_nameTileM fun _ => .bind keeps_boxFitsM fun _ => .read fun _ _ => .bind (by
    split
    exacts [keeps_consumeM, .ite .pure keeps_boundedWait]) fun _ => .bind (.upd (by simp)) fun _ => keeps_startMoveM

theorem keeps_execTstat (d : XReg) (o : TileOpd) : StepKeeps (execTstat d o) :=
  .word <| .bind keeps_userM fun _ => .bind keeps_nameTileM fun _ => .read fun _ _ => .bind keeps_setXM fun _ => .upd (by simp)

theorem keeps_execTfree (o : TileOpd) : StepKeeps (execTfree o) :=
  .word <| .bind keeps_userM fun _ => .bind (by
    split
    exacts [keeps_consumeM, .read fun _ _ => .unlessHeld <| .pure]) fun _ => .upd (by simp)

theorem keeps_execLnext (d : XReg) (l : LitIx) : StepKeeps (execLnext d l) :=
  .word <| .bind keeps_userM fun _ => .read fun _ _ => .bind keeps_setXM fun _ => .upd (by simp)

theorem keeps_execLget (d : XReg) (l : LitIx) : StepKeeps (execLget d l) :=
  .word <| .bind keeps_userM fun _ => .read fun _ _ => keeps_setXM

theorem keeps_execHmake (d : HReg) (a b : VReg) : StepKeeps (execHmake d a b) :=
  .word <| .bind keeps_userM fun _ => .bind keeps_vM fun _ => .bind keeps_vM fun _ => keeps_fillHandleM

theorem keeps_execHld (d : HReg) (a : XReg) : StepKeeps (execHld d a) :=
  .word <| .bind keeps_userM fun _ => .bind keeps_xM fun _ => .bind keeps_checkM fun _ => .bind keeps_loadSpot fun _ =>
    keeps_fillHandleM

theorem keeps_execHst (d : HReg) (a : XReg) : StepKeeps (execHst d a) :=
  .word <| .bind keeps_userM fun _ => .bind keeps_xM fun _ => .bind keeps_hM fun _ => keeps_storeM

theorem keeps_execHq (d : XReg) (a : HReg) (sel : BitVec 5) : StepKeeps (execHq d a sel) :=
  .word <| .bind keeps_userM fun _ => .bind keeps_hM fun _ => keeps_setXM

theorem keeps_execRelay (a b : HReg) : StepKeeps (execRelay a b) :=
  .word <| .read fun _ _ => .privUnless <| .bind keeps_hM fun _ => .bind keeps_hM fun _ => by
    split
    · exact .trap
    · exact .bind (keeps_storeSpotsM _) fun _ => .bind (keeps_storeZerosM _) fun _ => .bind keeps_setHM fun _ => .upd (by simp)

theorem keeps_execHwait (a : HReg) : StepKeeps (execHwait a) :=
  .word <| .bind keeps_userM fun _ => .bind keeps_hM fun _ => .ite .pure (.read fun _ _ => by
    split
    · exact .trap
    · split
      exacts [.hold, .trap, .bind keeps_setHM fun _ => .upd (by simp)])

theorem keeps_execLdh (d : XReg) (a : HReg) (b : XReg) : StepKeeps (execLdh d a b) :=
  .word <| .bind keeps_userM fun _ => .bind keeps_hM fun _ => .bind keeps_xM fun _ => .bind keeps_coordsM fun _ =>
    .ite (.bind keeps_elemM fun _ => .bind keeps_loadM fun _ => keeps_setXM) keeps_setXM

theorem keeps_execSth (d : XReg) (a : HReg) (b : XReg) : StepKeeps (execSth d a b) :=
  .word <| .bind keeps_userM fun _ => .bind keeps_hM fun _ => .bind keeps_xM fun _ => .bind keeps_xM fun _ =>
    .bind keeps_coordsM fun _ => .ite (.bind keeps_elemM fun _ => keeps_storeM) .pure

theorem keeps_execVldh (o : VHandleOp) : StepKeeps (execVldh o) :=
  .word <| .bind keeps_userM fun _ => .bind keeps_hM fun _ => .bind keeps_xM fun _ => .bind keeps_pM fun _ =>
    .bind keeps_coordsM fun _ => .bind (keeps_elemsM _) fun _ => .bind (keeps_checkLanes _) fun _ =>
  .bind keeps_enterLoad fun _ => .bind (keeps_loadEvents _ _) fun _ => keeps_setVM

theorem keeps_execVsth (o : VHandleOp) : StepKeeps (execVsth o) :=
  .word <| .bind keeps_userM fun _ => .bind keeps_hM fun _ => .bind keeps_xM fun _ => .bind keeps_pM fun _ =>
    .bind keeps_vM fun _ => .bind keeps_coordsM fun _ => .bind (keeps_elemsM _) fun _ => .bind (keeps_checkLanes _) fun _ =>
  .bind keeps_enterStore fun _ => (keeps_storeLanes _)

theorem keeps_execMmat (o : MatOp) : StepKeeps (execMmat o) := .word <| keeps_matrixM

theorem keeps_execMmam (o : MatOp) : StepKeeps (execMmam o) := .word <| keeps_matrixM

theorem keeps_execMdrain (a : XReg) : StepKeeps (execMdrain a) :=
  .word <| .bind keeps_arrayM fun _ => .bind keeps_holderM fun _ => .bind keeps_xM fun _ => .read fun _ _ => .trapIf <|
    .bind keeps_blockErrM fun _ => .bind keeps_slotPoisonM fun _ => .bind keeps_storeSpot fun _ =>
  .bind keeps_closeM fun _ => keeps_countMatrixM

theorem keeps_execMdrainTile (t : TileOpd) : StepKeeps (execMdrainTile t) :=
  .word <| .bind keeps_arrayM fun _ => .bind keeps_holderM fun _ => .bind keeps_readyTileM fun _ => .read fun _ _ =>
    .trapIf <| .bind keeps_blockErrM fun _ => .bind keeps_slotPoisonM fun _ => .bind (.upd (by simp)) fun _ =>
  .bind keeps_closeM fun _ => keeps_countMatrixM

theorem keeps_execMrow (a : XReg) : StepKeeps (execMrow a) :=
  .word <| .bind keeps_arrayM fun _ => .bind keeps_holderM fun _ => .bind keeps_blockErrM fun _ =>
    .bind keeps_xM fun _ => .bind (.upd (by simp)) fun _ => keeps_countMatrixM

theorem keeps_execEmit (a : VReg) (half : Bool) : StepKeeps (execEmit a half) :=
  .wordAt fun _ => .bind keeps_reactM fun _ => .bind keeps_vM fun _ => .ite .pure (.trapIf <| .read fun _ _ => .upd (by simp))

theorem keeps_execKscan (d a : XReg) (sel : BitVec 3) : StepKeeps (execKscan d a sel) :=
  .wordAt fun _ => .bind keeps_reactM fun _ => .bind keeps_xM fun _ => .read fun _ _ => .bind keeps_scanM fun _ => keeps_setXM

theorem keeps_execArbrd (d : XReg) (sel : BitVec 8) : StepKeeps (execArbrd d sel) :=
  .wordAt fun _ => .bind keeps_reactM fun _ => .read fun _ _ => keeps_setXM

theorem keeps_execRunq (a b : XReg) : StepKeeps (execRunq a b) :=
  .word <| .read fun _ _ => .privUnless <| .bind keeps_xM fun _ => .bind keeps_xM fun _ => .trapIf <| .trapIf <| by
    split
    exacts [.trapIf <| .upd (by simp), .trapIf <| .bind keeps_enterClass fun _ => .upd (by simp)]

theorem keeps_execFork (d a b : XReg) (e : BitVec 20) : StepKeeps (execFork d a b e) :=
  .outcome <| .bind keeps_reactM fun _ => by
    split
    exact .read fun _ _ => .privUnless <| .bind keeps_fetchM fun _ => .trapIf <| .bind keeps_xM fun _ =>
      .bind keeps_xM fun _ => .ite keeps_gotoM (.read fun _ _ => by
    split
    exacts [.upd (by simp), .priv])

theorem keeps_execCclaim (d : XReg) : StepKeeps (execCclaim d) :=
  .word <| .read fun _ _ => .privUnless <| .trapIf <| .bind keeps_clausePoisonM fun _ => .bind (.upd (by simp)) fun _ => keeps_setXM

theorem keeps_execCload (a : XReg) (b : VReg) : StepKeeps (execCload a b) :=
  .word <| .bind keeps_clauseM fun _ => .bind keeps_xM fun _ => .bind keeps_vM fun _ => .trapIf <| keeps_setClauseM

theorem keeps_execCdrop (a : XReg) : StepKeeps (execCdrop a) :=
  .word <| .bind keeps_clauseM fun _ => .bind keeps_xM fun _ => .trapIf <| keeps_setClauseM

theorem keeps_execCdec (a : XReg) : StepKeeps (execCdec a) :=
  .word <| .bind keeps_clauseM fun _ => .bind keeps_xM fun _ => .trapIf <| .trapIf <| keeps_setClauseM

theorem keeps_execCprop (d : XReg) : StepKeeps (execCprop d) :=
  .word <| .bind keeps_clauseM fun _ => .bind keeps_setClauseM fun _ => keeps_setXM

theorem keeps_execCback (a : XReg) : StepKeeps (execCback a) :=
  .word <| .bind keeps_clauseM fun _ => .bind keeps_xM fun _ => keeps_setClauseM

theorem keeps_execCtrail (d a : XReg) : StepKeeps (execCtrail d a) :=
  .word <| .bind keeps_clauseM fun _ => .bind keeps_xM fun _ => keeps_setXM

theorem keeps_execCrow (d a : XReg) : StepKeeps (execCrow d a) :=
  .word <| .bind keeps_clauseM fun _ => .bind keeps_xM fun _ => keeps_setXM

theorem keeps_execCconf (d : XReg) : StepKeeps (execCconf d) := .word <| .bind keeps_clauseM fun _ => keeps_setXM

theorem keeps_execGetsr (d : XReg) (sr : SysReg) : StepKeeps (execGetsr d sr) :=
  .word <| .bind keeps_accessM fun _ => .bind keeps_readSr fun _ => keeps_setXM

theorem keeps_execPutsr (sr : SysReg) (a : XReg) : StepKeeps (execPutsr sr a) :=
  .word <| .bind keeps_putM fun _ => .read fun _ _ => by
    split
    · exact .upd (by simp)
    · exact .upd (by simp)
    · exact .upd (by simp)
    · exact .upd (by simp)
    · exact .upd (by simp)
    · exact .upd (by simp)
    · exact .upd (by simp)
    · exact .upd (by simp)
    · exact .upd (by simp)
    · exact .upd (by simp)
    · exact .upd (by simp)
    · exact .upd (by simp)
    · exact .ite (.upd (by simp)) (.ite (.upd (by simp)) .pure)
    · exact .ite (.bind (.upd (by simp)) fun _ => .ite (.upd (by simp)) .pure) (.ite (.upd (by simp)) .pure)
    · exact keeps_diectlM
    · exact .pure

theorem keeps_execTrap (code : BitVec 16) : StepKeeps (execTrap code) := .outcome <| .trap

theorem keeps_execBrk (code : BitVec 16) : StepKeeps (execBrk code) := .outcome <| .trap

theorem keeps_execTlbinv (a : XReg) (all : Bool) (reach : BitVec 2) : StepKeeps (execTlbinv a all reach) :=
  .word <| .bind keeps_supervisorM fun _ => .bind keeps_xM fun _ => .read fun _ _ => .unlessHeld <|
    .ite (.holdWith (by simp)) (.upd (by simp))

theorem keeps_execPutsrTstat (a : XReg) : StepKeeps (execPutsrTstat a) := .word <| .bind keeps_putM fun _ => .upd (by simp)

theorem keeps_execPutsrFpmode (a : XReg) : StepKeeps (execPutsrFpmode a) := .word <| .bind keeps_putM fun _ => .upd (by simp)

theorem keeps_execPutsrFpflags (a : XReg) : StepKeeps (execPutsrFpflags a) := .word <| .bind keeps_putM fun _ => .upd (by simp)

theorem keeps_execLsplitWrite (a : XReg) : StepKeeps (execLsplitWrite a) :=
  .word <| .bind keeps_putM fun _ => .read fun _ _ => .ite .pure (.trapIf <| .upd (by simp))

theorem keeps_execVgroupWrite (a : XReg) : StepKeeps (execVgroupWrite a) := .word <| .bind keeps_putM fun _ => .upd (by simp)

theorem keeps_execHashmaskWrite (n : BitVec 4) (a : XReg) : StepKeeps (execHashmaskWrite n a) :=
  .word <| .bind keeps_putM fun _ => .read fun s _ => .trapIf <| .updWf fun _ w =>
    (w.writeBackAll fun _ l => l.vf == s.cur.core).of_mem (by simp)

theorem keeps_execBktdataWrite (a : XReg) : StepKeeps (execBktdataWrite a) :=
  .word <| .bind keeps_putM fun _ => .read fun s _ => .trapIf <| .trapIf <| .unlessHeld <|
    .updWf fun _ w => (w.writeBackAll fun _ l => l.vf == s.cur.core).of_mem (by simp)

theorem keeps_execFwinWrite (n : BitVec 4) (a : XReg) : StepKeeps (execFwinWrite n a) :=
  .word <| .bind keeps_accessM fun _ => .bind keeps_xM fun x => .read fun s _ => .trapIf <| .unlessHeld <|
    .updWf fun t w => (w.writeBackAll fun line _ => t.fwinLines (s.fn s.cur.core).stackSel n.toNat x line).of_mem (by simp)

theorem keeps_execCluflagsWrite (a : XReg) : StepKeeps (execCluflagsWrite a) := .word <| .bind keeps_putM fun _ => .upd (by simp)

theorem keeps_execPackflagsWrite (a : XReg) : StepKeeps (execPackflagsWrite a) :=
  .word <| .bind keeps_putM fun _ => .upd fun s => by
    split
    · simp
    · rfl

theorem keeps_execPtrootWrite (a : XReg) : StepKeeps (execPtrootWrite a) :=
  .word <| .bind keeps_putM fun _ => .read fun _ _ => .trapIf <| .upd (by simp)

theorem keeps_execHret : StepKeeps execHret :=
  .outcomeAt fun _ => .privUnless <| by
    split
    exacts [.upd (by simp), .priv]

theorem keeps_execBar : StepKeeps execBar :=
  .outcome <| .read fun _ _ => .privUnless <| by
    split
    exacts [.ite (.upd (by simp)) keeps_boundedWait, .priv]

theorem keeps_execLeash : StepKeeps execLeash :=
  .word <| .bind keeps_arrayM fun _ => .read fun _ _ => .ite .pure (.ite (.upd (by simp)) keeps_boundedWait)

theorem keeps_execUnleash : StepKeeps execUnleash :=
  .word <| .bind keeps_arrayM fun _ => .read fun _ _ => .bind (.upd (by simp)) fun _ => .ite (.upd (by simp)) .pure

theorem keeps_execMzero : StepKeeps execMzero :=
  .word <| .bind keeps_arrayM fun _ => .bind keeps_holderM fun _ => .bind keeps_blockErrM fun _ => .bind (.upd (by simp)) fun _ =>
    .bind (.upd (by simp)) fun _ => keeps_countMatrixM

theorem keeps_execDone : StepKeeps execDone :=
  .outcome <| .bind keeps_reactM fun _ => by
    split
    exact .read fun _ _ => .privUnless <| .upd (by simp)

theorem keeps_execAbort : StepKeeps execAbort :=
  .outcome <| .bind keeps_reactM fun _ => by
    split
    exact .upd (by simp)

theorem keeps_execReject : StepKeeps execReject :=
  .outcome <| .bind keeps_reactM fun _ => by
    split
    exact .upd (by simp)

theorem keeps_execJoin : StepKeeps execJoin :=
  .outcome <| .bind keeps_reactM fun _ => by
    split
    split
    · exact .priv
    · exact .read fun _ _ => .bind (.upd (by simp)) fun _ => by
        split
        exacts [.upd (by simp), .ite (.upd (by simp)) (.upd (by simp))]

theorem keeps_execCfree : StepKeeps execCfree := .word <| .bind keeps_clauseM fun _ => .upd (by simp)

theorem keeps_execYield : StepKeeps execYield := .word <| .upd (by simp)

theorem keeps_execHalt : StepKeeps execHalt :=
  .outcome <| .read fun _ _ => .ite (.upd (by simp)) <| .privUnless <| .unlessHeld <| .bind keeps_latePendM fun _ => .upd fun s => by
    dsimp only
    split
    all_goals simp

theorem keeps_execSret : StepKeeps execSret := .outcome <| .read fun _ _ => .trapIf <| .trapIf <| .trapIf <| .upd (by simp)

theorem keeps_execVfcmp (o : VCmp) : StepKeeps (execVfcmp o) := by
  intro s
  unfold execVfcmp
  exact keeps_vecCmp o _ s

end Sys2Proof.Machine
end

section
/-! The front end and the hub keep the canonical form of device memory (R30, R321 to R324, R401, R413). -/
namespace Sys2Proof.Machine

/-! ## Accesses of the front end (R413) -/

/-- The state in which a front-end access leaves the device has the form. -/
def FeResult.Wf {α : Type} : FeResult α → Prop
  | .done s _ => s.MemWf
  | .wait s => s.MemWf
  | .fail s _ _ => s.MemWf

section
variable {α : Type} {r : FeResult α} {t : State}

theorem FeResult.Wf.done {a : α} (h : r.Wf) (e : r = .done t a) : t.MemWf := by rwa [e] at h
theorem FeResult.Wf.wait (h : r.Wf) (e : r = .wait t) : t.MemWf := by rwa [e] at h
theorem FeResult.Wf.fail {cause : Nat} {va : Word} (h : r.Wf) (e : r = .fail t cause va) : t.MemWf := by rwa [e] at h

end

section
variable {s : State}

theorem State.MemWf.feStop {α : Type} (w : s.MemWf) (vf run : Nat) (again : Instr) (e : EngineStop) :
    (Machine.feStop vf run again e s : FeResult α).Wf := by
  unfold Machine.feStop
  split
  · split
    · next h => exact w.of_mem (State.joinMiss_mem h)
    · exact w.of_mem (State.postOnce_mem ..)
  · exact w
  · exact w.of_mem (State.postOnce_mem ..)
  · exact w.of_mem (State.postOnce_mem ..)

theorem State.MemWf.feDo {α : Type} {m : EM α} (w : s.MemWf) (hm : EM.Keeps m) (vf run : Nat) (again : Instr)
    (refused : Option Word) :
    (Machine.feDo vf run again refused m s).Wf := by
  unfold Machine.feDo
  split
  · exact w
  · have hms := hm s w
    split
    · next h =>
      rw [h] at hms
      exact hms
    · exact w.feStop ..

theorem State.MemWf.feWrites (w : s.MemWf) (vf run : Nat) (again : Instr) (kind : FaultKind) (l : List (Word × List Byte)) :
    (Machine.feWrites vf run again kind l s).Wf := by
  induction l generalizing s with
  | nil => exact w
  | cons p rest ih =>
    unfold Machine.feWrites
    have hms := keeps_writePieces (e := frontEnd vf) (kind := kind) (first := p.1) (linesOf p.1.toNat p.2.length) (bs := p.2) s w
    split
    · next h =>
      rw [h] at hms
      exact ih hms
    · exact w.feStop ..

theorem State.MemWf.feStore (w : s.MemWf) (vf run : Nat) (again : Instr) (kind : FaultKind) (refused : Option Word)
    (l : List (Word × List Byte)) : (Machine.feStore vf run again kind refused l s).Wf := by
  unfold Machine.feStore
  split
  · exact w
  · exact w.feWrites ..

/-! ## Tiles of a commit (R30, R32) -/

theorem State.MemWf.insertOne (w : s.MemWf) (x : Run) (i : Insert) (rest : List Insert) : (s.insertOne x i rest).MemWf := by
  unfold State.insertOne
  extract_lets drop n t at_
  have hfe := w.feStore x.vf i.run .tileInsert .store x.refused.head? (lineWrites at_ t.bytes)
  split
  · split
    · next h => exact (hfe.done h).of_mem (by simp [drop])
    · next h => exact hfe.wait h
    · next h => exact (hfe.fail h).of_mem (by simp [drop])
  · exact w.of_mem (by simp [drop])

/-! ## Submissions (R321, R322) -/

theorem State.MemWf.copyRecord (w : s.MemWf) (sub : Submission) (bytes : List Byte) : (s.copyRecord sub bytes).MemWf := by
  unfold State.copyRecord
  extract_lets k at_
  have hfe := w.feStore sub.vf 0 .queueAppend .store sub.refused (lineWrites at_ bytes)
  split
  · exact w.of_mem (by simp)
  · split
    · next h => exact (hfe.done h).of_mem (by simp)
    · next h => exact (hfe.wait h).of_mem (by simp)
    · next h => exact (hfe.fail h).of_mem (by simp)

theorem State.MemWf.serveSubmission (w : s.MemWf) (sub : Submission) : (s.serveSubmission sub).MemWf := by
  unfold State.serveSubmission
  have hfe := w.feDo (keeps_feRead (vf := sub.vf) (kind := .load) (va := sub.addr) (n := 256)) sub.vf 0 .queueAppend sub.refused
  split
  · exact w.copyRecord ..
  · split
    · next h => exact State.MemWf.copyRecord (.of_mem (hfe.done h) (by simp)) ..
    · next h => exact (hfe.wait h).of_mem (by simp)
    · next h => exact (hfe.fail h).of_mem (by simp)

/-! ## Admission of a run (R324) -/

theorem State.MemWf.admitTiles (w : s.MemWf) (vf q r : Nat) (x : Run) (n : Nat) : (s.admitTiles vf q r x n).MemWf := by
  unfold State.admitTiles
  have hfe := w.feDo (keeps_tilesE (x := x) (n := n)) vf r (.runEligible vf q) x.refused.head?
  split
  · next h => exact hfe.wait h
  · next h => exact (hfe.fail h).of_mem (by simp)
  · next h =>
    refine (hfe.done h).of_mem ?_
    dsimp only
    split
    · simp
    · simp

theorem State.MemWf.admitRules (w : s.MemWf) (vf q r : Nat) (x : Run) : (s.admitRules vf q r x).MemWf := by
  unfold State.admitRules
  have hfe := w.feDo (keeps_rulesE (h := s.hub) (x := x) (img := x.image)) vf r (.runEligible vf q) x.refused.head?
  split
  · exact w.admitTiles ..
  · split
    · next h => exact hfe.wait h
    · next h => exact (hfe.fail h).of_mem (by simp)
    · next h => exact (hfe.done h).of_mem (by simp)
    · next h => exact State.MemWf.admitTiles (.of_mem (hfe.done h) (by simp)) ..

theorem State.MemWf.admitRun (w : s.MemWf) (vf q r : Nat) (x : Run) : (s.admitRun vf q r x).MemWf := by
  unfold State.admitRun
  split
  · exact w.admitRules ..
  · extract_lets img sub
    split
    · exact w.of_mem (by simp)
    · split
      · exact w.of_mem (by simp)
      · exact State.MemWf.admitRules (w.of_mem (by simp)) ..

/-! ## Completion of a run (R280, R401) -/

theorem State.MemWf.completionWrite (w : s.MemWf) (r : Nat) (x : Run) (a : Nat) (bs : List Byte) :
    (s.completionWrite r x a bs).Wf := by
  unfold State.completionWrite
  have hfe := w.feStore x.vf r (.completionSignal r) .store (x.refusedIn a bs.length) (lineWrites (BitVec.ofNat 64 a) bs)
  split
  · next h => exact (hfe.fail h).of_mem (by simp)
  · exact hfe

theorem State.MemWf.signal (w : s.MemWf) (r : Nat) (x : Run) (c : StopCause) : (s.signal r x c).MemWf := by
  unfold State.signal
  extract_lets k at_
  have hrec := w.completionWrite r x at_ (s.completionRecord r x c)
  split
  · next h => exact hrec.wait h
  · next h => exact hrec.fail h
  · next h =>
    have hcnt := (hrec.done h).completionWrite r x (Qcb.cnt k.qcb) (leBytes 8 (k.count + 1).toNat)
    split
    · next h => exact (hcnt.done h).of_mem (by simp)
    · next h => exact hcnt.wait h
    · next h => exact hcnt.fail h

theorem State.MemWf.conclude (w : s.MemWf) (r : Nat) (x : Run) (c : StopCause) : (s.conclude r x c).MemWf := by
  unfold State.conclude
  split
  · extract_lets at_
    split
    next bs trunc _ =>
    have hfe := w.feStore x.vf r (.completionSignal r) .store (x.refusedIn at_ bs.length) (lineWrites (BitVec.ofNat 64 at_) bs)
    split
    · next h => exact hfe.wait h
    · next h => exact (hfe.fail h).of_mem (by simp)
    · next h => exact State.MemWf.signal (.of_mem (hfe.done h) (by simp)) ..
  · exact w.signal ..

/-! ## Engines that fail, and segments of tiles (R258, R378) -/

@[simp] theorem State.failCopy_mem (s : State) (c : CopyOp) (vf cause : Nat) (va : Word) :
    (s.failCopy c vf cause va).mem = s.mem := by
  unfold State.failCopy
  dsimp only
  split
  all_goals simp

@[simp] theorem State.failMove_mem (s : State) (c : Nat) (m : MoveOp) (vf cause : Nat) (va : Word) :
    (s.failMove c m vf cause va).mem = s.mem := by simp [State.failMove]

@[simp] theorem State.refuseAgent_mem (was s : State) (c : Nat) (m : Miss) (a : Agent) : (was.refuseAgent s c m a).mem = s.mem := by
  unfold State.refuseAgent
  repeat' split
  all_goals simp

theorem State.MemWf.moveSegment (w : s.MemWf) (c : Nat) (m : MoveOp) : (s.moveSegment c m).MemWf := by
  unfold State.moveSegment
  extract_lets vf d e
  have hms := keeps_moveSegmentE (e := e) (c := c) (d := d) (m := m) s w
  split
  · next h =>
    rw [h] at hms
    exact State.MemWf.of_mem (s := _) hms (by simp)
  · split
    · next h => exact w.of_mem (Eq.trans (by simp) (State.joinMiss_mem h))
    · exact w.of_mem (by simp)
  · exact w.of_mem (by simp)
  · exact w.of_mem (by simp)
  · exact w.of_mem (by simp)

/-! ## A die lost, a die reset (R386 to R396) -/

@[simp] theorem State.poisonExclusive_mem (s : State) (d : Nat) : (s.poisonExclusive d).mem = s.mem := by
  simp [State.poisonExclusive, State.foldl_mem]

@[simp] theorem State.loseOne_mem (s : State) (d : Nat) : (s.loseOne d).mem = s.mem := by
  simp [State.loseOne, State.foldl_mem]

@[simp] theorem State.loseCut_mem (s : State) (n : Nat) : (s.loseCut n).mem = s.mem := by
  induction n generalizing s with
  | zero => rfl
  | succ n ih =>
    unfold State.loseCut
    split
    · simp [ih]
    · rfl

@[simp] theorem State.loseDie_mem (s : State) (d : Nat) : (s.loseDie d).mem = s.mem := by simp [State.loseDie]

@[simp] theorem State.retireModule_mem (s : State) (u : UnitId) : (s.retireModule u).mem = s.mem := by simp [State.retireModule]

@[simp] theorem State.linkFailed_mem (s : State) (u : UnitId) : (s.linkFailed u).mem = s.mem := by
  unfold State.linkFailed
  repeat' split
  all_goals simp

@[simp] theorem State.endReset_mem (s : State) (ok : Bool) : (s.endReset ok).mem = s.mem := by
  unfold State.endReset
  dsimp only
  split
  all_goals simp [State.foldl_mem]

@[simp] theorem State.resetPreempt_mem (s : State) : s.resetPreempt.mem = s.mem := by
  unfold State.resetPreempt
  dsimp only
  split
  · simp
  · simp only [State.post_mem, State.setStep_mem]
    refine State.foldl_mem (fun s q => ?_) _ _
    repeat' split
    all_goals simp

theorem State.MemWf.resetNext (w : s.MemWf) : s.resetNext.MemWf := by
  unfold State.resetNext
  dsimp only
  split
  · refine w.of_mem ?_
    split
    all_goals simp
  · refine w.of_mem ?_
    split
    all_goals simp
  · exact (w.writeBackAll fun l x => nodeDie (s.homeNode x.vf (l * 256)) == s.hub.resetDie).of_mem (by simp)
  · have hroll : s.resetRollback.MemWf := w.of_mem (by simp)
    split
    · exact hroll.of_mem (by simp)
    · exact (hroll.writeBackAll fun l x => nodeDie (s.homeNode x.vf (l * 256)) == s.hub.resetDie).of_mem (by simp)
  · refine w.of_mem ?_
    split
    all_goals simp
  · exact w.of_mem (by simp)
  · exact w

/-! ## Accesses from outside (R184, R349) -/

theorem State.MemWf.outsideRead {t : State} (w : s.MemWf) {pa len : Nat} (h : s.outsideRead pa len = some t) : t.MemWf := by
  unfold State.outsideRead at h
  split at h
  · cases h
    exact w.of_mem (by simp)
  · obtain ⟨u, hu, rfl⟩ := Option.map_eq_some_iff.1 h
    exact (w.pullPlace hu).of_mem (by simp)

theorem State.MemWf.outsideWrite {t : State} (w : s.MemWf) {pa : Nat} {bs : List Byte} (h : s.outsideWrite pa bs = some t) :
    t.MemWf := by
  unfold State.outsideWrite at h
  split at h
  · next hw =>
    rw [h] at hw
    exact w.physWrite hw
  · cases h
    exact w

theorem State.MemWf.outsideAccess (w : s.MemWf) (again : Instr) (pa len : Nat) (write : Option (List Byte)) :
    (s.outsideAccess again pa len write).MemWf := by
  unfold State.outsideAccess
  extract_lets n r
  have hr {t : State} (h : r = some t) : t.MemWf := by
    cases write with
    | none => exact w.outsideRead h
    | some bs => exact w.outsideWrite h
  split
  · exact w
  · split
    · next h =>
      split at h
      · cases h
      · exact hr h
    · exact w

end

end Sys2Proof.Machine
end

section
/-! Every step of the device keeps the canonical form of device memory. -/
namespace Sys2Proof.Machine

section
variable {s : State}

theorem State.MemWf.pickFree {α : Type} (w : s.MemWf) {l : List α} {t : State} {o : Option α} (h : s.pickFree l = (t, o)) :
    t.MemWf := w.of_mem (congrArg (·.1.mem) h ▸ State.pickFree_mem ..)

/-! ## The end of an activation (R36, R131, R390) -/

theorem State.MemWf.endTrap (w : s.MemWf) (k : ActKey) (a : Act) (cause : Nat) (v : Word) : OutcomeWf (s.endTrap k a cause v) :=
  State.MemWf.takeTrap (w.of_mem (by simp)) _ _

theorem State.MemWf.commitAct (w : s.MemWf) (k : ActKey) (a : Act) : OutcomeWf (s.commitAct k a) := by
  unfold State.commitAct
  split
  · exact State.MemWf.endTrap (w.of_mem (by simp)) ..
  · exact w
  · split
    · exact State.MemWf.endTrap (s := { s with freeIdx := s.freeIdx + 1 }) w ..
    · split
      · exact w.of_mem (by simp)
      · split
        · exact w.endTrap ..
        · next ht =>
          split
          · exact w.endTrap ..
          · next hr => exact State.MemWf.commitWith (w.of_mem ((State.reserveRuns_mem _ hr).trans (State.reserveTiles_mem _ ht))) ..

theorem State.MemWf.twinsMatch (w : s.MemWf) (k0 k1 : ActKey) (a0 a1 : Act) : OutcomeWf (s.twinsMatch k0 k1 a0 a1) := by
  unfold State.twinsMatch
  have hc := w.commitAct k0 a0
  split
  · next h =>
    rw [h] at hc
    split
    · exact hc
    · exact State.MemWf.of_mem (s := _) hc (by simp)
  · exact hc

end

/-! ## Every step -/

theorem State.findSome_preemptSlice_mem (s : State) (ws : List (Nat × Run)) :
    ((ws.findSome? fun w => s.preemptSlice w.2).getD s).mem = s.mem := by
  cases h : ws.findSome? fun w => s.preemptSlice w.2 with
  | none => rfl
  | some t =>
    obtain ⟨w, _, hw⟩ := List.exists_of_findSome?_eq_some h
    exact State.preemptSlice_mem hw

theorem keeps_execFrespServe (vf fid : Nat) : StepKeeps (execFrespServe vf fid) := .nextMem fun s => by
  split
  all_goals simp

theorem keeps_execFrespRefuse (vf fid : Nat) : StepKeeps (execFrespRefuse vf fid) := .nextMem fun s => by
  split
  · simp [State.foldl_mem]
  · rfl

theorem keeps_execFwcommitCommit (n : Nat) : StepKeeps (execFwcommitCommit n) := .nextMem fun s => by simp

theorem keeps_execFwcommitKick (n : Nat) : StepKeeps (execFwcommitKick n) := .nextMem fun s => by simp

theorem keeps_execQcbRead (vf q : Nat) : StepKeeps (execQcbRead vf q) := .nextMem fun s => by simp

theorem keeps_execRunEligible (vf q : Nat) : StepKeeps (execRunEligible vf q) := .next fun s w => by
  split
  · exact w
  · split
    · exact w
    · split
      · exact w.admitRun ..
      · exact w

theorem keeps_execRunRelease (r : Nat) : StepKeeps (execRunRelease r) := .next fun s w => by
  split
  · exact w
  · next x _ =>
    split
    · exact w
    · have hload := w.feDo (keeps_loadE (x := x)) x.vf r (.runRelease r) x.refused.head?
      split
      · next h => exact hload.wait h
      · next h => exact (hload.fail h).of_mem (by simp)
      · next s1 cwins h =>
        extract_lets live fresh
        split
        next seeded writes _ =>
        have hfe := (hload.done h).feWrites x.vf r (.runRelease r) .store writes
        split
        · next h => exact hfe.wait h
        · next h => exact (hfe.fail h).of_mem (by simp)
        · next h => exact (hfe.done h).of_mem (by simp)

theorem keeps_execTimeSliceExpiry (r : Nat) : StepKeeps (execTimeSliceExpiry r) := .nextMem fun s => by
  split
  · rfl
  · dsimp only
    split
    · rfl
    · split
      · simp
      · exact State.findSome_preemptSlice_mem ..

theorem keeps_execReplaceRequest (r : Nat) : StepKeeps (execReplaceRequest r) := .next fun s w => by
  split
  · exact w
  · next x _ =>
    split
    · exact w
    · split
      · exact w.of_mem (by simp)
      · next y _ =>
        split
        · exact w.of_mem (by simp)
        · split
          · exact w.of_mem (by simp)
          · have hfe := w.feDo (keeps_replaceE (h := s.hub) (x := x) (img := y.image)) x.vf r (.replaceRequest r) x.refused.head?
            split
            · next h => exact hfe.wait h
            · next h => exact (hfe.fail h).of_mem (by simp)
            · next h => exact (hfe.done h).of_mem (by simp)
            · next h => exact (hfe.done h).of_mem (by simp)

theorem keeps_execRuleTableSwitch (t : Nat) : StepKeeps (execRuleTableSwitch t) := .nextMem fun s => by
  repeat' split
  all_goals simp

theorem keeps_execRoundTimer (c : Nat) : StepKeeps (execRoundTimer c) := .nextMem fun s => by simp

theorem keeps_execArbitrationRound (c : Nat) : StepKeeps (execArbitrationRound c) := .nextMem fun s => by
  split
  all_goals simp

theorem keeps_execCommit (k : ActKey) : StepKeeps (execCommit k) := fun s w => by
  unfold execCommit
  split
  · exact w
  · split
    · exact w
    · split
      · exact w.of_mem (by simp)
      · split
        · split
          · exact State.MemWf.endTrap (w.of_mem (by simp)) ..
          · refine w.of_mem ?_
            split
            all_goals simp
        · split
          · exact w.of_mem (by simp)
          · exact w.commitAct ..
          · exact w.of_mem (by simp)
          · exact w.of_mem (by simp)

theorem keeps_execTwinCompare (k : ActKey) : StepKeeps (execTwinCompare k) := fun s w => by
  unfold execTwinCompare
  dsimp only
  split
  · split
    · exact w
    · split
      · exact w.of_mem (by simp)
      · exact w.of_mem (by simp)
      · split
        · exact w.of_mem (by simp)
        · split
          · exact w.of_mem (by simp)
          · split
            · exact w.twinsMatch ..
            · exact w.of_mem (by simp)
  · exact w

theorem keeps_execWhistleWave (r : Nat) : StepKeeps (execWhistleWave r) := .nextMem fun s => by
  split
  all_goals simp

theorem keeps_execWhistleReturn (r : Nat) : StepKeeps (execWhistleReturn r) := .nextMem fun s => by
  split
  all_goals simp

theorem keeps_execTimeLimitExpiry (r : Nat) : StepKeeps (execTimeLimitExpiry r) := .nextMem fun s => by
  split
  all_goals simp

theorem keeps_execCompletionSignal (r : Nat) : StepKeeps (execCompletionSignal r) := .next fun s w => by
  split
  · exact w
  · split
    · exact w
    · split
      · split
        · exact State.MemWf.signal (w.of_mem (by simp)) ..
        · split
          · exact w
          · split
            · exact w.of_mem (by simp)
            · exact w.conclude ..
      · split
        · exact w.of_mem (by simp)
        · exact w

theorem keeps_execRunStopTrapped (r : Nat) : StepKeeps (execRunStopTrapped r) := .nextMem fun s => by
  split
  all_goals simp

theorem keeps_execWaitTimeout (t : TsId) : StepKeeps (execWaitTimeout t) := fun s w => by
  unfold execWaitTimeout
  split
  · split
    · exact State.MemWf.takeTrap (w.of_mem (by simp)) _ _
    · exact w
  · exact w

theorem keeps_execLeashGrant (c : Nat) : StepKeeps (execLeashGrant c) := .nextMem fun s => by
  repeat' split
  all_goals simp

theorem keeps_execMessageAccept (t : TsId) : StepKeeps (execMessageAccept t) := .next fun s w => by
  dsimp only
  split
  · exact w
  · split
    · next h =>
      refine (w.pickFree h).of_mem ?_
      split
      all_goals simp
    · next h => exact (w.pickFree h).of_mem (by simp)

theorem keeps_execHandlerStart (c k : Nat) : StepKeeps (execHandlerStart c k) := .nextMem fun s => by
  repeat' split
  all_goals simp

theorem keeps_execHandlerLimit (c k : Nat) : StepKeeps (execHandlerLimit c k) := .nextMem fun s => by
  dsimp only
  repeat' split
  all_goals simp

theorem keeps_execAmoApply (c k : Nat) : StepKeeps (execAmoApply c k) := .next fun s w => by
  split
  · exact w
  · split
    · split
      · next h => exact (w.amoApplied h).of_mem (by simp)
      · exact w.of_mem (by simp)
    · exact w

theorem keeps_execAmoReturn (t : TsId) : StepKeeps (execAmoReturn t) := .next fun s w => by
  split
  · next h =>
    have hs := w.pickFree h
    split
    · exact hs.of_mem (by simp)
    · exact hs
  · next h =>
    refine (w.pickFree h).of_mem ?_
    dsimp only
    split
    all_goals simp

theorem keeps_execDepLand (c k : Nat) : StepKeeps (execDepLand c k) := .nextMem fun s => by
  split
  all_goals simp

theorem keeps_execMcrdRequestArrive (req : Nat) : StepKeeps (execMcrdRequestArrive req) := .nextMem fun s => by
  split
  all_goals simp

theorem keeps_execMcrdLineSend (stream : Nat) : StepKeeps (execMcrdLineSend stream) := .next fun s w => by
  split
  · exact w
  · split
    · exact w
    · split
      · exact w.of_mem (by simp)
      · next h =>
        refine (w.lineSnapshot h).of_mem ?_
        dsimp only
        split
        all_goals simp

theorem keeps_execMcrdBeatDeliver (cluster : Nat) : StepKeeps (execMcrdBeatDeliver cluster) := .next fun s w => by
  split
  · next h => exact w.pickFree h
  · next h => exact (w.pickFree h).of_mem (by simp [State.foldl_mem])

theorem keeps_execCopySegment (t : TsId) (n : BitVec 16) : StepKeeps (execCopySegment t n) := .next fun s w => by
  split
  · exact w
  · next c _ =>
    extract_lets vf
    have hms := keeps_copySegmentE (e := c.engine vf) (c := c) s w
    split
    · next h =>
      rw [h] at hms
      exact State.MemWf.of_mem (s := _) hms (by simp)
    · split
      · next h => exact w.of_mem (Eq.trans (by simp) (State.joinMiss_mem h))
      · exact w.of_mem (by simp)
    · exact w.of_mem (by simp)
    · exact w.of_mem (by simp)
    · exact w.of_mem (by simp)

theorem keeps_execFillSegment (c : Nat) (n : TileIx) : StepKeeps (execFillSegment c n) := .next fun s w => by
  split
  · split
    · exact w
    · exact w.moveSegment ..
  · exact w

theorem keeps_execDrainSegment (c : Nat) (n : TileIx) : StepKeeps (execDrainSegment c n) := .next fun s w => by
  split
  · split
    · exact w
    · exact w.moveSegment ..
  · exact w

theorem keeps_execRelayoutBlock (c : Nat) (map : Word) : StepKeeps (execRelayoutBlock c map) := .next fun s w => by
  split
  · exact w
  · next r _ =>
    split
    · exact w
    · next x _ =>
      split
      · exact w
      · split
        · exact w.relayMoving ..
        · split
          · exact w
          · have hms := keeps_relayStart (e := relayEngine c x.vf) (h := r.hrec) (b := r.block) s w
            split
            · next h =>
              rw [h] at hms
              exact State.MemWf.of_mem (s := _) hms (by simp)
            · split
              · next h => exact w.of_mem (Eq.trans (by simp) (State.joinMiss_mem h))
              · exact w.of_mem (by simp)
            · exact w.of_mem (by simp)
            · exact w.of_mem (by simp)

theorem keeps_execSectorFillComplete (pa : Nat) : StepKeeps (execSectorFillComplete pa) := .nextMem fun s => by
  split
  all_goals simp

theorem keeps_execLoadComplete (t : TsId) : StepKeeps (execLoadComplete t) := .nextMem fun s => by simp

theorem keeps_execStorePerformed (t : TsId) : StepKeeps (execStorePerformed t) := .nextMem fun s => by simp

theorem keeps_execPageWalk (c vf page : Nat) : StepKeeps (execPageWalk c vf page) := .nextMem fun s => by
  dsimp only
  repeat' split
  all_goals simp

theorem keeps_execFaultQueueWrite (vf : Nat) : StepKeeps (execFaultQueueWrite vf) := .nextMem fun s => by
  split
  all_goals simp

theorem keeps_execFirmwareWake (n : Nat) : StepKeeps (execFirmwareWake n) := .nextMem fun s => by simp

theorem keeps_execPreemptReactPack (r : Nat) : StepKeeps (execPreemptReactPack r) := .nextMem fun s => by
  split
  all_goals simp

theorem keeps_execDrainLimitExpiry (r : Nat) : StepKeeps (execDrainLimitExpiry r) := .nextMem fun s => by
  split
  all_goals simp

theorem keeps_execPreemptGangPack (r : Nat) : StepKeeps (execPreemptGangPack r) := .nextMem fun s => by
  split
  all_goals simp

theorem keeps_execPackSave (r : Nat) : StepKeeps (execPackSave r) := .next fun s w => by
  split
  · exact w
  · next x _ =>
    split
    · exact w
    · split
      · exact w.of_mem (by simp)
      · split
        · exact w.of_mem (by simp)
        · extract_lets parked
          have hparked : parked.MemWf := w.of_mem (by simp [parked])
          have hfe := hparked.feStore x.vf r (.packSave r) .save x.refused.head?
            (lineWrites (BitVec.ofNat 64 (Rec.save x.rec_)) (parked.saveBytes r x))
          split
          · next h => exact hfe.wait h
          · next h => exact (hfe.fail h).of_mem (by simp)
          · next h => exact (hfe.done h).of_mem (by simp)

theorem keeps_execResumePack (r : Nat) : StepKeeps (execResumePack r) := .next fun s w => by
  split
  · exact w
  · next x _ =>
    split
    · exact w
    · have hfe := w.feDo (keeps_resumeE (x := x) (r := r)) x.vf r (.resumePack r) x.refused.head?
      split
      · next h => exact hfe.wait h
      · next h => exact (hfe.fail h).of_mem (by simp)
      · next h => exact (hfe.done h).of_mem (by simp)

theorem keeps_execQueueAppend : StepKeeps execQueueAppend := .next fun s w => by
  split
  · exact w
  · next sub _ =>
    extract_lets t
    have ht : t.MemWf := w.serveSubmission sub
    split
    · exact ht.of_mem (by simp)
    · exact ht

theorem keeps_execRunPlace : StepKeeps execRunPlace := .nextMem fun s => by simp

theorem keeps_execTileInsert : StepKeeps execTileInsert := .next fun s w => by
  split
  · next h => exact w.pickFree h
  · next h =>
    split
    · exact (w.pickFree h).insertOne ..
    · exact (w.pickFree h).of_mem rfl

theorem keeps_execFlagPropagate : StepKeeps execFlagPropagate := .nextMem fun s => by simp

theorem keeps_execStartUp : StepKeeps execStartUp := .nextMem fun s => by simp

theorem keeps_execAfrUpdate : StepKeeps execAfrUpdate := .nextMem fun s => by simp

theorem keeps_execWatchdogExpiry : StepKeeps execWatchdogExpiry := .nextMem fun s => by
  split
  all_goals simp

theorem keeps_execTrialBootExpiry : StepKeeps execTrialBootExpiry := .nextMem fun s => by
  split
  · exact (State.postOnce_mem ..).trans (State.bootCore_mem ..)
  · rfl

theorem keeps_execDiectlGo : StepKeeps execDiectlGo := .next fun s w => by
  split
  · exact w
  · split
    · exact w.of_mem (by simp)
    · exact w.resetNext

theorem keeps_execDoorbellWrite : StepKeeps execDoorbellWrite := .nextMem fun s => by
  split
  all_goals simp

theorem keeps_execQdbRead : StepKeeps execQdbRead := .nextMem fun s => by
  split
  all_goals simp

theorem keeps_execAcceptWrite : StepKeeps execAcceptWrite := .nextMem fun s => by
  split
  all_goals simp

theorem keeps_execUncorrectableError : StepKeeps execUncorrectableError := .nextMem fun s => by
  split
  all_goals simp

theorem keeps_execClauseArrayEccError : StepKeeps execClauseArrayEccError := .nextMem fun s => by
  split
  all_goals simp

theorem keeps_execBufferRowPoison : StepKeeps execBufferRowPoison := .nextMem fun s => by
  split
  all_goals simp

theorem keeps_execArrayFail : StepKeeps execArrayFail := .nextMem fun s => by
  split
  all_goals simp

theorem keeps_execFlitCrcFail : StepKeeps execFlitCrcFail := .nextMem fun s => by simp

theorem keeps_execLinkRetrain : StepKeeps execLinkRetrain := .nextMem fun s => by
  split
  all_goals simp

theorem keeps_execLinkRetrainDone : StepKeeps execLinkRetrainDone := .nextMem fun s => by
  split
  · dsimp only
    split
    · rfl
    · simp
  · rfl

theorem keeps_execDieLost : StepKeeps execDieLost := .nextMem fun s => by
  split
  · simp
  · rfl

theorem keeps_execWarmResetComplete : StepKeeps execWarmResetComplete := .nextMem fun s => by
  repeat' split
  all_goals simp

theorem keeps_execThrottle : StepKeeps execThrottle := .nextMem fun s => by
  split
  all_goals simp

theorem keeps_execThrottleClear : StepKeeps execThrottleClear := .nextMem fun s => by
  split
  all_goals simp

theorem keeps_execThermalTrip : StepKeeps execThermalTrip := .nextMem fun s => by
  split
  all_goals simp

theorem keeps_execCorrectedError : StepKeeps execCorrectedError := .nextMem fun s => by
  split
  all_goals simp

theorem keeps_execHostCxlMemAccess : StepKeeps execHostCxlMemAccess := .next fun s w => by
  split
  · split
    · exact w
    · exact w.outsideAccess ..
  · exact w

theorem keeps_execHostSnoop : StepKeeps execHostSnoop := .nextMem fun s => by
  split
  all_goals simp

theorem keeps_execSpdmRequest : StepKeeps execSpdmRequest := .nextMem fun s => by
  split
  all_goals simp

theorem keeps_execFoettePeerAccess : StepKeeps execFoettePeerAccess := .next fun s w => by
  split
  · split
    · exact w
    · exact w.outsideAccess ..
  · exact w

theorem keeps_execBoardPowerRemoved : StepKeeps execBoardPowerRemoved := .next fun _ _ => reset_mem_wf

end Sys2Proof.Machine
end

section
/-! Every turn of the device, and so every step, keeps the canonical form of device memory (R184 to R186, R413). -/
namespace Sys2Proof.Machine

/-- Every instruction and every device step keeps the form: each by its own rule, and those of one shape by the shape's. -/
theorem keeps_exec (i : Instr) : StepKeeps (exec i) := by
  intro s w
  cases i with
  | add o | sub o => exact keeps_arith _ _ _ s w
  | addImm o | subImm o | andImm o | orImm o | xorImm o | andnImm o | ornImm o | minImm o | maxImm o | minuImm o | maxuImm o
  | sltImm o | sltuImm o | seqImm o | sneImm o => exact keeps_scalarImm _ _ s w
  | and o | or o | xor o | andn o | orn o | shl o | shr o | sar o | rol o | min o | max o | minu o | maxu o | slt o | sltu o
  | seq o | sne o | mul o | mulh o | mulhu o => exact keeps_scalarBin _ _ s w
  | shlImm o | shrImm o | sarImm o | rolImm o => exact keeps_shiftImm _ _ s w
  | sel d a b c => exact keeps_execSel d a b c s w
  | clz o | ctz o | popc o | bswap o => exact keeps_scalarUnary _ _ s w
  | div o | divu o | rem o | remu o => exact keeps_division _ _ s w
  | bfx o sx => exact keeps_execBfx o sx s w
  | bfi o => exact keeps_execBfi o s w
  | li d imm => exact keeps_execLi d imm s w
  | lih d imm => exact keeps_execLih d imm s w
  | fadd o | fsub o | fmul o | fdiv o =>
    unfold exec
    exact keeps_fpBin _ _ s w
  | fmin o | fmax o => exact keeps_fpMinMax _ _ s w
  | fsqrt d a fmt rnd => exact keeps_execFsqrt d a fmt rnd s w
  | ffma o => exact keeps_execFfma o s w
  | fcmp d a b fmt rel => exact keeps_execFcmp d a b fmt rel s w
  | fclass d a fmt => exact keeps_execFclass d a fmt s w
  | fcvt o => exact keeps_execFcvt o s w
  | fmv d a fmt => exact keeps_execFmv d a fmt s w
  | bCond c a b h off => exact keeps_execBCond c a b h off s w
  | call a h off => exact keeps_execCall a h off s w
  | loop a h off => exact keeps_execLoop a h off s w
  | callr d a => exact keeps_execCallr d a s w
  | jr a => exact keeps_execJr a s w
  | ret a => exact keeps_execRet a s w
  | vadd o | vsub o => exact keeps_vecArith _ _ s w
  | vmul o | vmulh o | vmin o | vmax o =>
    unfold exec
    exact keeps_vecInt _ _ s w
  | vabs o => exact keeps_execVabs o s w
  | vand o | vor o | vxor o | vandn o | vshl o | vshr o | vsar o =>
    unfold exec
    exact keeps_vecBits _ _ s w
  | vfadd o | vfsub o | vfmul o | vffma o =>
    unfold exec
    exact keeps_vecFloat _ _ s w
  | vfmin o | vfmax o => exact keeps_vecMinMax _ _ s w
  | vfabs o | vfneg o | vexp2 o | vrcp o | vrsq o =>
    unfold exec
    exact keeps_vecUn _ _ s w
  | vcmp o =>
    unfold exec
    exact keeps_vecCmp _ _ s w
  | vfcmp o => exact keeps_execVfcmp o s w
  | vsel o => exact keeps_execVsel o s w
  | vperm o => exact keeps_execVperm o s w
  | vlut o => exact keeps_execVlut o s w
  | vsplat o => exact keeps_execVsplat o s w
  | vins d a ty lane => exact keeps_execVins d a ty lane s w
  | vext d a ty lane => exact keeps_execVext d a ty lane s w
  | vcvt o => exact keeps_execVcvt o s w
  | vdot o => exact keeps_execVdot o s w
  | vred o => exact keeps_execVred o s w
  | vscan o => exact keeps_execVscan o s w
  | plog op d a b => exact keeps_execPlog op d a b s w
  | pcnt d a ty => exact keeps_execPcnt d a ty s w
  | rep nm1 lm1 stride => exact keeps_execRep nm1 lm1 stride s w
  | ld o => exact keeps_execLd o s w
  | st o => exact keeps_execSt o s w
  | vld o => exact keeps_execVld o s w
  | vst o => exact keeps_execVst o s w
  | vgat o => exact keeps_execVgat o s w
  | vsca o => exact keeps_execVsca o s w
  | ldk d win off size sx => exact keeps_execLdk d win off size sx s w
  | pushm bank a b => exact keeps_execPushm bank a b s w
  | popm bank a b => exact keeps_execPopm bank a b s w
  | pref o => exact keeps_execPref o s w
  | cflush a b e => exact keeps_execCflush a b e s w
  | amoAdd o | amoMin o | amoMax o | amoMinu o | amoMaxu o | amoAnd o | amoOr o | amoXor o | amoSwap o | amoCas o
  | amoFadd o => exact keeps_amo _ _ s w
  | send o => exact keeps_execSend o s w
  | recv d b => exact keeps_execRecv d b s w
  | sqstat d => exact keeps_execSqstat d s w
  | dep a b t => exact keeps_execDep a b t s w
  | wait ld st cp tl ms => exact keeps_execWait ld st cp tl ms s w
  | fence sc => exact keeps_execFence sc s w
  | bexp n a => exact keeps_execBexp n a s w
  | bwait n => exact keeps_execBwait n s w
  | bpoll d n => exact keeps_execBpoll d n s w
  | cpset field a => exact keeps_execCpset field a s w
  | cpgo d => exact keeps_execCpgo d s w
  | cpst d a => exact keeps_execCpst d a s w
  | mcrd a b n lines => exact keeps_execMcrd a b n lines s w
  | tdef n a => exact keeps_execTdef n a s w
  | tfill t h b => exact keeps_execTfill t h b s w
  | tdrain t h b => exact keeps_execTdrain t h b s w
  | tstat d t => exact keeps_execTstat d t s w
  | tfree t => exact keeps_execTfree t s w
  | lnext d l => exact keeps_execLnext d l s w
  | lget d l => exact keeps_execLget d l s w
  | hmake d a b => exact keeps_execHmake d a b s w
  | hld d a => exact keeps_execHld d a s w
  | hst d a => exact keeps_execHst d a s w
  | hq d a sel => exact keeps_execHq d a sel s w
  | relay a b => exact keeps_execRelay a b s w
  | hwait a => exact keeps_execHwait a s w
  | ldh d a b => exact keeps_execLdh d a b s w
  | sth d a b => exact keeps_execSth d a b s w
  | vldh o => exact keeps_execVldh o s w
  | vsth o => exact keeps_execVsth o s w
  | mmat o => exact keeps_execMmat o s w
  | mmam o => exact keeps_execMmam o s w
  | mdrain a => exact keeps_execMdrain a s w
  | mdrainTile t => exact keeps_execMdrainTile t s w
  | mrow a => exact keeps_execMrow a s w
  | emit a half => exact keeps_execEmit a half s w
  | kscan d a sel => exact keeps_execKscan d a sel s w
  | arbrd d sel => exact keeps_execArbrd d sel s w
  | runq a b => exact keeps_execRunq a b s w
  | fork d a b e => exact keeps_execFork d a b e s w
  | cclaim d => exact keeps_execCclaim d s w
  | cload a b => exact keeps_execCload a b s w
  | cdrop a => exact keeps_execCdrop a s w
  | cdec a => exact keeps_execCdec a s w
  | cprop d => exact keeps_execCprop d s w
  | cback a => exact keeps_execCback a s w
  | ctrail d a => exact keeps_execCtrail d a s w
  | crow d a => exact keeps_execCrow d a s w
  | cconf d => exact keeps_execCconf d s w
  | getsr d sr => exact keeps_execGetsr d sr s w
  | putsr sr a => exact keeps_execPutsr sr a s w
  | trap code => exact keeps_execTrap code s w
  | brk code => exact keeps_execBrk code s w
  | tlbinv a all reach => exact keeps_execTlbinv a all reach s w
  | putsrTstat a => exact keeps_execPutsrTstat a s w
  | putsrFpmode a => exact keeps_execPutsrFpmode a s w
  | putsrFpflags a => exact keeps_execPutsrFpflags a s w
  | lsplitWrite a => exact keeps_execLsplitWrite a s w
  | vgroupWrite a => exact keeps_execVgroupWrite a s w
  | hashmaskWrite n a => exact keeps_execHashmaskWrite n a s w
  | bktdataWrite a => exact keeps_execBktdataWrite a s w
  | fwinWrite n a => exact keeps_execFwinWrite n a s w
  | cluflagsWrite a => exact keeps_execCluflagsWrite a s w
  | packflagsWrite a => exact keeps_execPackflagsWrite a s w
  | ptrootWrite a => exact keeps_execPtrootWrite a s w
  | frespServe vf fid => exact keeps_execFrespServe vf fid s w
  | frespRefuse vf fid => exact keeps_execFrespRefuse vf fid s w
  | fwcommitCommit n => exact keeps_execFwcommitCommit n s w
  | fwcommitKick n => exact keeps_execFwcommitKick n s w
  | qcbRead vf q => exact keeps_execQcbRead vf q s w
  | runEligible vf q => exact keeps_execRunEligible vf q s w
  | runRelease run => exact keeps_execRunRelease run s w
  | timeSliceExpiry run => exact keeps_execTimeSliceExpiry run s w
  | replaceRequest run => exact keeps_execReplaceRequest run s w
  | ruleTableSwitch run => exact keeps_execRuleTableSwitch run s w
  | roundTimer cluster => exact keeps_execRoundTimer cluster s w
  | arbitrationRound cluster => exact keeps_execArbitrationRound cluster s w
  | commit k => exact keeps_execCommit k s w
  | twinCompare k => exact keeps_execTwinCompare k s w
  | whistleWave run => exact keeps_execWhistleWave run s w
  | whistleReturn run => exact keeps_execWhistleReturn run s w
  | timeLimitExpiry run => exact keeps_execTimeLimitExpiry run s w
  | completionSignal run => exact keeps_execCompletionSignal run s w
  | runStopTrapped run => exact keeps_execRunStopTrapped run s w
  | waitTimeout t => exact keeps_execWaitTimeout t s w
  | leashGrant cluster => exact keeps_execLeashGrant cluster s w
  | messageAccept t => exact keeps_execMessageAccept t s w
  | handlerStart cluster core => exact keeps_execHandlerStart cluster core s w
  | handlerLimit cluster core => exact keeps_execHandlerLimit cluster core s w
  | amoApply cluster core => exact keeps_execAmoApply cluster core s w
  | amoReturn t => exact keeps_execAmoReturn t s w
  | depLand cluster core => exact keeps_execDepLand cluster core s w
  | mcrdRequestArrive req => exact keeps_execMcrdRequestArrive req s w
  | mcrdLineSend stream => exact keeps_execMcrdLineSend stream s w
  | mcrdBeatDeliver cluster => exact keeps_execMcrdBeatDeliver cluster s w
  | copySegment t id => exact keeps_execCopySegment t id s w
  | fillSegment cluster n => exact keeps_execFillSegment cluster n s w
  | drainSegment cluster n => exact keeps_execDrainSegment cluster n s w
  | relayoutBlock cluster map => exact keeps_execRelayoutBlock cluster map s w
  | sectorFillComplete pa => exact keeps_execSectorFillComplete pa s w
  | loadComplete t => exact keeps_execLoadComplete t s w
  | storePerformed t => exact keeps_execStorePerformed t s w
  | pageWalk cluster vf page => exact keeps_execPageWalk cluster vf page s w
  | faultQueueWrite vf => exact keeps_execFaultQueueWrite vf s w
  | firmwareWake n => exact keeps_execFirmwareWake n s w
  | preemptReactPack run => exact keeps_execPreemptReactPack run s w
  | drainLimitExpiry run => exact keeps_execDrainLimitExpiry run s w
  | preemptGangPack run => exact keeps_execPreemptGangPack run s w
  | packSave run => exact keeps_execPackSave run s w
  | resumePack run => exact keeps_execResumePack run s w
  | hret => exact keeps_execHret s w
  | bar => exact keeps_execBar s w
  | leash => exact keeps_execLeash s w
  | unleash => exact keeps_execUnleash s w
  | mzero => exact keeps_execMzero s w
  | done => exact keeps_execDone s w
  | abort => exact keeps_execAbort s w
  | reject => exact keeps_execReject s w
  | join => exact keeps_execJoin s w
  | cfree => exact keeps_execCfree s w
  | yield => exact keeps_execYield s w
  | halt => exact keeps_execHalt s w
  | sret => exact keeps_execSret s w
  | queueAppend => exact keeps_execQueueAppend s w
  | runPlace => exact keeps_execRunPlace s w
  | tileInsert => exact keeps_execTileInsert s w
  | flagPropagate => exact keeps_execFlagPropagate s w
  | startUp => exact keeps_execStartUp s w
  | afrUpdate => exact keeps_execAfrUpdate s w
  | watchdogExpiry => exact keeps_execWatchdogExpiry s w
  | trialBootExpiry => exact keeps_execTrialBootExpiry s w
  | diectlGo => exact keeps_execDiectlGo s w
  | doorbellWrite => exact keeps_execDoorbellWrite s w
  | qdbRead => exact keeps_execQdbRead s w
  | acceptWrite => exact keeps_execAcceptWrite s w
  | uncorrectableError => exact keeps_execUncorrectableError s w
  | clauseArrayEccError => exact keeps_execClauseArrayEccError s w
  | bufferRowPoison => exact keeps_execBufferRowPoison s w
  | arrayFail => exact keeps_execArrayFail s w
  | flitCrcFail => exact keeps_execFlitCrcFail s w
  | linkRetrain => exact keeps_execLinkRetrain s w
  | linkRetrainDone => exact keeps_execLinkRetrainDone s w
  | dieLost => exact keeps_execDieLost s w
  | warmResetComplete => exact keeps_execWarmResetComplete s w
  | throttle => exact keeps_execThrottle s w
  | throttleClear => exact keeps_execThrottleClear s w
  | thermalTrip => exact keeps_execThermalTrip s w
  | correctedError => exact keeps_execCorrectedError s w
  | hostCxlMemAccess => exact keeps_execHostCxlMemAccess s w
  | hostSnoop => exact keeps_execHostSnoop s w
  | spdmRequest => exact keeps_execSpdmRequest s w
  | foettePeerAccess => exact keeps_execFoettePeerAccess s w
  | boardPowerRemoved => exact keeps_execBoardPowerRemoved s w

/-! ## The next word of a thread set (R66, R367) -/

theorem keeps_runDecoded (d : Except DecodeTrap Instr) : StepKeeps (runDecoded d) := by
  intro s w
  cases d with
  | ok i => exact keeps_exec i s w
  | error e => exact w.takeTrap ..

theorem OutcomeWf.mapNext {f : State → State} (hf : ∀ s : State, (f s).mem = s.mem) {o : Host.Outcome State Fault Refusal}
    (h : OutcomeWf o) : OutcomeWf (mapNext f o) := by
  cases o with
  | next t => exact State.MemWf.of_mem (s := t) h (hf t)
  | fault _ => trivial
  | refused _ => trivial

section
variable {s : State}

theorem State.MemWf.runWord (w : s.MemWf) : OutcomeWf s.runWord := by
  unfold State.runWord
  have hms := keeps_nextWordM s w
  split
  · next h =>
    rw [h] at hms
    exact keeps_runDecoded _ _ hms
  · next h =>
    rw [h] at hms
    exact StepKeeps.outcome (.error hms) s w

theorem State.MemWf.issueOne (w : s.MemWf) (t : TsId) : OutcomeWf (s.issueOne t) := by
  unfold State.issueOne
  extract_lets v u
  have hu : u.MemWf := State.MemWf.of_mem (s := s) w (State.issued_mem ..)
  split
  · exact hu.of_mem (by simp)
  · exact OutcomeWf.mapNext (fun _ => by simp) hu.runWord

theorem State.MemWf.offer (w : s.MemWf) (ts : List TsId) : OutcomeWf (s.offer ts) := by
  induction ts generalizing s with
  | nil => exact w
  | cons t ts ih =>
    unfold State.offer
    have ho := w.issueOne t
    split
    · next h =>
      rw [h] at ho
      split
      · exact ih (State.MemWf.of_mem (s := _) ho (by simp))
      · exact ho
    · trivial
    · trivial

theorem State.MemWf.issueAt (w : s.MemWf) (c k : Nat) : OutcomeWf (s.issueAt c k) :=
  State.MemWf.offer (s := { s with lastIssued := TsId.key ⟨c, k, 0⟩ / 8 }) w _

theorem State.MemWf.issueNext (w : s.MemWf) : OutcomeWf s.issueNext := by
  unfold State.issueNext
  split
  · exact w.issueAt ..
  · exact w

/-! ## Turns -/

theorem State.MemWf.runPending (w : s.MemWf) : OutcomeWf s.runPending := by
  unfold State.runPending
  split
  · exact w
  · next i rest _ => exact keeps_exec i { s with pending := rest } w

theorem State.MemWf.runEvent (w : s.MemWf) (i : Instr) (x : Input) : OutcomeWf (s.runEvent i x) :=
  OutcomeWf.mapNext (f := fun s => { s with input := .none }) (fun _ => rfl) (keeps_exec i { s with input := x } w)

theorem State.MemWf.runTurn (w : s.MemWf) : OutcomeWf s.runTurn := by
  unfold State.runTurn
  extract_lets s1
  have h1 : s1.MemWf := w
  split
  · exact h1.runPending
  · exact h1.of_mem (State.postDue_mem _)
  · exact h1.issueNext

theorem State.MemWf.runAgenda (w : s.MemWf) (t : Turn) : OutcomeWf (s.runAgenda t) := by
  cases t with
  | issue t => exact w.issueAt ..
  | event i x => exact w.runEvent i x
  | outside o => exact w.of_mem (State.runOutside_mem ..)
  | tick n => exact w

end

theorem keeps_step : StepKeeps step := by
  intro s w
  unfold step
  extract_lets s1
  split
  · next t rest _ => exact State.MemWf.runAgenda (s := { s1 with agenda := rest }) w t
  · exact State.MemWf.runTurn (s := s1) w

end Sys2Proof.Machine

open Sys2Proof Sys2Proof.Machine

/-- Settles O59: memory changes only where a slice's sector is written back, and there by `ByteMap.write` and `ByteMap.writes`,
which keep the form; every program of a word, engine and front end and every device step is built of such writes and of updates
that leave memory as it is; the loss of power gives the empty memory. -/
theorem stepKeepsMemoryForm : Obligations.StepKeepsMemoryForm := by
  unfold Obligations.StepKeepsMemoryForm
  intro s t w h
  have hs := keeps_step s w
  rw [h] at hs
  exact hs

end
